-- ==== Sys2Proof/Word.lean ====
section
/-!
DEFINITION. The word types of the Larauko 64 and the plain data that instructions and device events name.
-/

namespace Sys2Proof

/-- A 64-bit register value (R59). -/
abbrev Word := BitVec 64
/-- One byte of memory. -/
abbrev Byte := BitVec 8
/-- The number of a g or v register (R59, R65). -/
abbrev Reg := Fin 32
/-- The 6-bit mask field of a vector format (R101); values 48 to 63 are illegal. -/
abbrev MaskF := Fin 64
/-- A sparse table: entries in rising key order, at most one for each key. -/
abbrev SMap (α : Type) := List (Nat × α)

/-- A thread of the device: thread `th` of core `co` of cluster `cl`, or the MCC of a cluster (R11). -/
inductive Tid where
  | vec (cl : Fin 64) (co : Fin 8) (th : Fin 4)
  | mcc (cl : Fin 64)
deriving DecidableEq, Repr

/-- A register of the control space (R346, R349, R373, R386): a CSR of a thread by its number, the LINKSTAT of a link, or 8
bytes of the health block. -/
inductive ControlReg where
  | thread (t : Tid) (n : Nat)
  | link (p : Nat)
  | health (off : Nat)
deriving DecidableEq, Repr

/-- What the host does through its BAR windows (R346), and the pattern blocks that a kernel image brings
with it (R123; the manual gives the blocks no place in memory). -/
inductive HostAccess where
  | read (addr : Nat) (n : Nat)
  | write (addr : Nat) (bytes : List Byte)
  | image (ctx : Fin 4096) (hdr : Word) (blocks : List (Fin 32 × List Word))
  | controlRead (r : ControlReg)
  | controlWrite (r : ControlReg) (w : Word)
deriving DecidableEq, Repr

/-- The atomic operations (R140). -/
inductive AmoOp where
  | add | and | or | xor | min | max | swap | fadd | cas
deriving DecidableEq, Repr

/-- What the access in a flit does at this device's memory (R371): nothing, as a load, which only reads; a write; an
atomic on 4 or 8 bytes, signed for .i, with its operand and comparand; or an apnd or apub on a serial region descriptor. -/
inductive FlitKind where
  | read
  | write (bytes : List Byte)
  | atomic (op : AmoOp) (signed dbl : Bool) (x cmp : Word)
  | append (size : Word)
  | publish (size at_ : Word)
deriving DecidableEq, Repr

/-- The access in a flit (R371, R372): the device and the cluster that made it, its number among that cluster's accesses to
this device, its address and what it does. -/
structure FlitAccess where
  dev : Nat
  cl : Fin 64
  acc : Nat
  pa : Nat
  kind : FlitKind
deriving DecidableEq, Repr

/-- Where a corrected error struck (R380, R381, R386). -/
inductive CorrectedSite where
  | line (addr : Nat)
  | cache (addr : Nat)
  | scratchpad (cl : Fin 64) (co : Fin 8) (word : Nat)
  | other
deriving DecidableEq, Repr

/-- The structures of R380 whose uncorrectable error is not a poisoned line, word or leaf. -/
inductive StructureSite where
  | vectorQueue (t : Tid)
  | coreTlb (cl : Fin 64) (co : Fin 8) (ctx : Fin 4096)
  | clusterTlb (cl : Fin 64) (ctx : Fin 4096)
  | imageInFlight (img : Nat)
  | accumulator (cl : Fin 64) (unit ac : Fin 4) (row col : Fin 32)
  | cacheClean (line : Nat)
  | cacheDirty (line : Nat)
  | pattern (cl : Fin 64) (co : Fin 8) (slot : Nat)
deriving DecidableEq, Repr

/-- What Usilaem fills a context table entry with at creation (R348), the address ranges that it serves on
demand (R356) and the frames the context needs (R385). -/
structure ContextSpec where
  ctx : Fin 4096
  wmlo : Nat
  wmcnt : Nat
  ptroot : Nat
  spbase : Word
  imgdir : Nat
  vlog : Nat
  errec : Nat
  demand : List (Nat × Nat)
  frames : Nat
deriving DecidableEq, Repr

/-- The operands of a device event: which thread, cluster, core, queue or link it concerns and what it carries.
An event reads the fields its docstring names and ignores the others. -/
structure EventArg where
  tid : Tid
  cl : Fin 64
  co : Fin 8
  th : Fin 4
  n : Nat
  k : Nat
  word : Word
  flag : Bool
  flag2 : Bool
  source : Option Tid
  bytes : List Byte
  pairs : List (Nat × Nat)
  host : HostAccess
  spec : ContextSpec
  corrected : CorrectedSite
  structure_ : StructureSite
  flit : FlitAccess
deriving DecidableEq, Repr

/-- The operands of an event that names nothing but cluster 0, core 0, thread 0. -/
def EventArg.none : EventArg :=
  { tid := .vec 0 0 0, cl := 0, co := 0, th := 0, n := 0, k := 0, word := 0, flag := false, flag2 := false,
    source := Option.none, bytes := [], pairs := [], host := .read 0 0,
    spec := { ctx := 0, wmlo := 0, wmcnt := 0, ptroot := 0, spbase := 0, imgdir := 0, vlog := 0, errec := 0,
              demand := [], frames := 0 },
    corrected := .other, structure_ := .vectorQueue (.vec 0 0 0), flit := { dev := 0, cl := 0, acc := 0, pa := 0, kind := .read } }

end Sys2Proof
end

