-- ==== Sys2Proof/Syntax.lean ====
section
/-!
DEFINITION. The instructions and device events of the Larauko 64: one constructor for each row of the opcode
table, with its operands as numbers and bit fields (register numbers, mask fields, immediates).
The device events have no encoding: what an event acts on stands in the field `ev` of the state (log 1).
The rows with operands come first, then the rows without, each in the order of the table.
Fields keep the letters of the table: d destination, a and b sources, m mask field, x the .x bit.
-/

namespace Sys2Proof

/-- One constructor for each row of spec/opcode_table.json. -/
inductive Instr where
  /-- ADD (R129): Writes the 64-bit wrapping sum of ga and gb to gd. -/
  | add (d : Reg) (a : Reg) (b : Reg)
  /-- SUB (R129): Writes the 64-bit wrapping difference ga minus gb to gd. -/
  | sub (d : Reg) (a : Reg) (b : Reg)
  /-- MUL (R129): Writes the low 64 bits of ga times gb to gd. -/
  | mul (d : Reg) (a : Reg) (b : Reg)
  /-- MULH (R129): Writes the high 64 bits of the signed 128-bit product to gd. -/
  | mulh (d : Reg) (a : Reg) (b : Reg)
  /-- MULHN (R129): Writes the high 64 bits of the unsigned 128-bit product to gd. -/
  | mulhn (d : Reg) (a : Reg) (b : Reg)
  /-- DIV (R130): Signed 64-bit division truncating toward zero, with the fixed zero-divisor result and DZ. -/
  | div (d : Reg) (a : Reg) (b : Reg)
  /-- DIVN (R130): Unsigned 64-bit division, with the fixed zero-divisor result and DZ. -/
  | divn (d : Reg) (a : Reg) (b : Reg)
  /-- REM (R130): Signed 64-bit remainder taking the sign of the dividend. -/
  | rem (d : Reg) (a : Reg) (b : Reg)
  /-- REMN (R130): Unsigned 64-bit remainder. -/
  | remn (d : Reg) (a : Reg) (b : Reg)
  /-- AND (R129): Writes the bitwise and of ga and gb to gd. -/
  | and (d : Reg) (a : Reg) (b : Reg)
  /-- OR (R129): Writes the bitwise or of ga and gb to gd. -/
  | or (d : Reg) (a : Reg) (b : Reg)
  /-- XOR (R129): Writes the bitwise xor of ga and gb to gd. -/
  | xor (d : Reg) (a : Reg) (b : Reg)
  /-- SHL (R129): Shifts ga left by gb[5:0], shifting in zeros. -/
  | shl (d : Reg) (a : Reg) (b : Reg)
  /-- SHR (R129): Shifts ga right logically by gb[5:0]. -/
  | shr (d : Reg) (a : Reg) (b : Reg)
  /-- SRA (R129): Shifts ga right arithmetically by gb[5:0]. -/
  | sra (d : Reg) (a : Reg) (b : Reg)
  /-- ROT (R129): Rotates ga right by gb[5:0]. -/
  | rot (d : Reg) (a : Reg) (b : Reg)
  /-- MIN (R129): Writes the signed minimum of ga and gb to gd. -/
  | min (d : Reg) (a : Reg) (b : Reg)
  /-- MAX (R129): Writes the signed maximum of ga and gb to gd. -/
  | max (d : Reg) (a : Reg) (b : Reg)
  /-- MINN (R129): Writes the unsigned minimum of ga and gb to gd. -/
  | minn (d : Reg) (a : Reg) (b : Reg)
  /-- MAXN (R129): Writes the unsigned maximum of ga and gb to gd. -/
  | maxn (d : Reg) (a : Reg) (b : Reg)
  /-- SLT (R129): Writes 1 when ga is signed-less than gb, else 0. -/
  | slt (d : Reg) (a : Reg) (b : Reg)
  /-- SLTN (R129): Writes 1 when ga is unsigned-less than gb, else 0. -/
  | sltn (d : Reg) (a : Reg) (b : Reg)
  /-- SEQ (R129): Writes 1 when ga equals gb, else 0. -/
  | seq (d : Reg) (a : Reg) (b : Reg)
  /-- CSEL (R129): Writes ga when gc is non-zero, else gb. -/
  | csel (d : Reg) (a : Reg) (b : Reg) (c : Reg)
  /-- CLZ (R129): Writes the number of leading zero bits of ga. -/
  | clz (d : Reg) (a : Reg)
  /-- CTZ (R129): Writes the number of trailing zero bits of ga. -/
  | ctz (d : Reg) (a : Reg)
  /-- POPC (R129): Writes the number of one bits of ga. -/
  | popc (d : Reg) (a : Reg)
  /-- SEXT (R129): Sign-extends the low 8, 16 or 32 bits of ga into gd. -/
  | sext (d : Reg) (a : Reg) (b : Reg) (s : Fin 4)
  /-- ZEXT (R129): Zero-extends the low 8, 16 or 32 bits of ga into gd. -/
  | zext (d : Reg) (a : Reg) (b : Reg) (s : Fin 4)
  /-- ADDI (R131): Adds the sign-extended immediate to ga. -/
  | addi (d : Reg) (a : Reg) (imm : BitVec 16)
  /-- ANDI (R131): Ands ga with the zero-extended immediate. -/
  | andi (d : Reg) (a : Reg) (imm : BitVec 16)
  /-- ORI (R131): Ors ga with the zero-extended immediate. -/
  | ori (d : Reg) (a : Reg) (imm : BitVec 16)
  /-- XORI (R131): Xors ga with the zero-extended immediate. -/
  | xori (d : Reg) (a : Reg) (imm : BitVec 16)
  /-- SHLI (R131): Shifts ga left by an immediate amount. -/
  | shli (d : Reg) (a : Reg) (s : Fin 64)
  /-- SHRI (R131): Shifts ga right logically by an immediate amount. -/
  | shri (d : Reg) (a : Reg) (s : Fin 64)
  /-- SRAI (R131): Shifts ga right arithmetically by an immediate amount. -/
  | srai (d : Reg) (a : Reg) (s : Fin 64)
  /-- LIM (R132): Writes imm16 shifted to 16-bit position pos into gd, zeroing all other bits. -/
  | lim (d : Reg) (p : Fin 4) (imm : BitVec 16)
  /-- LIM_K (R132): Replaces only the 16-bit field at position pos of gd with imm16. -/
  | limK (d : Reg) (p : Fin 4) (imm : BitVec 16)
  /-- SLTI (R131): Writes 1 when ga is signed-less than the sign-extended immediate. -/
  | slti (d : Reg) (a : Reg) (imm : BitVec 16)
  /-- SLTNI (R131): Writes 1 when ga is unsigned-less than the sign-extended immediate. -/
  | sltni (d : Reg) (a : Reg) (imm : BitVec 16)
  /-- FADD (R133): Scalar floating-point addition, rounded once. -/
  | fadd (d : Reg) (a : Reg) (b : Reg) (p : Fin 4) (r : Fin 8)
  /-- FSUB (R133): Scalar floating-point subtraction, rounded once. -/
  | fsub (d : Reg) (a : Reg) (b : Reg) (p : Fin 4) (r : Fin 8)
  /-- FMUL (R133): Scalar floating-point multiplication, rounded once. -/
  | fmul (d : Reg) (a : Reg) (b : Reg) (p : Fin 4) (r : Fin 8)
  /-- FDIV (R133): Scalar floating-point division, correctly rounded. -/
  | fdiv (d : Reg) (a : Reg) (b : Reg) (p : Fin 4) (r : Fin 8)
  /-- FSQRT (R133): Scalar floating-point square root of ga. -/
  | fsqrt (d : Reg) (a : Reg) (p : Fin 4) (r : Fin 8)
  /-- FMA (R133): Computes ga times gb plus gd with a single rounding. -/
  | fma (d : Reg) (a : Reg) (b : Reg) (p : Fin 4) (r : Fin 8)
  /-- FMIN (R133): Scalar floating-point minimum by R38, without rounding. -/
  | fmin (d : Reg) (a : Reg) (b : Reg) (p : Fin 4)
  /-- FMAX (R133): Scalar floating-point maximum by R38, without rounding. -/
  | fmax (d : Reg) (a : Reg) (b : Reg) (p : Fin 4)
  /-- FEQ (R133): Writes 1 when ga equals gb in floating point. -/
  | feq (d : Reg) (a : Reg) (b : Reg) (p : Fin 4)
  /-- FLT (R133): Writes 1 when ga is less than gb in floating point. -/
  | flt (d : Reg) (a : Reg) (b : Reg) (p : Fin 4)
  /-- FLE (R133): Writes 1 when ga is less than or equal to gb in floating point. -/
  | fle (d : Reg) (a : Reg) (b : Reg) (p : Fin 4)
  /-- FCVT (R133): Converts ga between floating-point precisions. -/
  | fcvt (d : Reg) (a : Reg) (t : Fin 4) (p : Fin 4) (r : Fin 8)
  /-- FCVTI (R135): Converts floating-point ga to an integer type by R41. -/
  | fcvti (d : Reg) (a : Reg) (t : Fin 8) (p : Fin 4) (r : Fin 8)
  /-- FCVTF (R135): Converts an integer read from ga's low bits to floating point. -/
  | fcvtf (d : Reg) (a : Reg) (t : Fin 8) (p : Fin 4) (r : Fin 8)
  /-- LD (R136): Loads 1 to 8 bytes from base plus scaled offset into gd, sign- or zero-extended. -/
  | ld (d : Reg) (b : Reg) (z : Fin 4) (s : Bool) (c : Fin 16) (off : BitVec 9)
  /-- ST (R136): Stores the low 1 to 8 bytes of gd at base plus scaled offset. -/
  | st (d : Reg) (b : Reg) (z : Fin 4) (c : Fin 16) (off : BitVec 9)
  /-- AMOADD (R140): Atomically adds gb to the word at ga, returning the old value. -/
  | amoadd (d : Reg) (a : Reg) (b : Reg) (z : Bool) (s : Fin 4) (ord : Fin 4)
  /-- AMOAND (R140): Atomically ands gb into the word at ga, returning the old value. -/
  | amoand (d : Reg) (a : Reg) (b : Reg) (z : Bool) (s : Fin 4) (ord : Fin 4)
  /-- AMOOR (R140): Atomically ors gb into the word at ga, returning the old value. -/
  | amoor (d : Reg) (a : Reg) (b : Reg) (z : Bool) (s : Fin 4) (ord : Fin 4)
  /-- AMOXOR (R140): Atomically xors gb into the word at ga, returning the old value. -/
  | amoxor (d : Reg) (a : Reg) (b : Reg) (z : Bool) (s : Fin 4) (ord : Fin 4)
  /-- AMOMIN (R140): Atomically stores the signed or unsigned minimum of the word and gb. -/
  | amomin (d : Reg) (a : Reg) (b : Reg) (z : Bool) (s : Fin 4) (ord : Fin 4) (sg : Bool)
  /-- AMOMAX (R140): Atomically stores the signed or unsigned maximum of the word and gb. -/
  | amomax (d : Reg) (a : Reg) (b : Reg) (z : Bool) (s : Fin 4) (ord : Fin 4) (sg : Bool)
  /-- AMOSWAP (R140): Atomically replaces the word at ga with gb, returning the old value. -/
  | amoswap (d : Reg) (a : Reg) (b : Reg) (z : Bool) (s : Fin 4) (ord : Fin 4)
  /-- AMOFADD (R140): Atomically adds gb to the word in f32 or f64 with RNE, returning the old value. -/
  | amofadd (d : Reg) (a : Reg) (b : Reg) (z : Bool) (s : Fin 4) (ord : Fin 4)
  /-- CAS (R140): Atomically writes gb when the word at ga equals gd, returning the old value in gd. -/
  | cas (d : Reg) (a : Reg) (b : Reg) (z : Bool) (s : Fin 4) (ord : Fin 4)
  /-- BEQ (R145): Branches when ga equals gb. -/
  | beq (a : Reg) (b : Reg) (off : BitVec 13)
  /-- BNE (R145): Branches when ga differs from gb. -/
  | bne (a : Reg) (b : Reg) (off : BitVec 13)
  /-- BLT (R145): Branches when ga is signed-less than gb. -/
  | blt (a : Reg) (b : Reg) (off : BitVec 13)
  /-- BGE (R145): Branches when ga is signed-greater or equal to gb. -/
  | bge (a : Reg) (b : Reg) (off : BitVec 13)
  /-- BLTN (R145): Branches when ga is unsigned-less than gb. -/
  | bltn (a : Reg) (b : Reg) (off : BitVec 13)
  /-- BGEN (R145): Branches when ga is unsigned-greater or equal to gb. -/
  | bgen (a : Reg) (b : Reg) (off : BitVec 13)
  /-- JAL (R146): Writes the next parcel address to g31 and jumps by a parcel offset. -/
  | jal (off : BitVec 26)
  /-- JR (R146): Jumps to ga plus 4 times imm16, writing the link to gd. -/
  | jr (d : Reg) (a : Reg) (imm : BitVec 16)
  /-- JT (R147): Jumps through entry ga of a parcel-offset table at gb, or falls through when ga is at or above len. -/
  | jt (a : Reg) (b : Reg) (l : Fin 2048)
  /-- BSTRIP (R148): Branches while the remaining count is non-zero, updating the strip record and raising no progress on two strikes. -/
  | bstrip (a : Reg) (off : BitVec 13)
  /-- TRAP_UNASSIGNED (R360): Unassigned service trap codes write all ones to g28 and continue. -/
  | trapUnassigned (c : Fin 64)
  /-- BRK (R150): Raises a breakpoint routed to the user handler or to Usilaem. -/
  | brk (c : Fin 64)
  /-- LEAVE (R154): Returns held power leave and requests leave for the heavy kinds in ga. -/
  | leave (a : Reg)
  /-- CSRR (R155): Reads a CSR into gd, through the read queue for vector-written CSRs. -/
  | csrr (d : Reg) (n : Fin 4096)
  /-- CSRW (R155): Writes ga to a user CSR, ignoring read-only and reserved bits. -/
  | csrw (a : Reg) (n : Fin 4096)
  /-- FENCE (R256): Stalls until earlier accesses of the covered classes satisfy the acquire, release or full ordering at the scope. -/
  | fence (a : Reg) (k : Fin 4) (s : Fin 4)
  /-- QFENCE (R257): Waits for every earlier operation of the named copy or tile queues, then acquires at cluster scope. -/
  | qfence (q : Fin 32)
  /-- WAIT (R258): Stalls until the ld, st, cp and tl counters are at or below their limits. -/
  | wait (l : Fin 32) (s : Fin 32) (c : Fin 32) (t : Fin 32)
  /-- BAR (R259): Releases at cluster scope and arrives at barrier n of the launch's share. -/
  | bar (n : Fin 16)
  /-- WMPUB (R260): Releases at device scope and raises the watermark to the maximum of its value and gb. -/
  | wmpub (a : Reg) (b : Reg)
  /-- APND (R262): Reserves gb bytes of a serial region at the home agent, returning the old RESERVE. -/
  | apnd (d : Reg) (a : Reg) (b : Reg)
  /-- APUB (R262): Publishes a reserved range with a device-scope release, advancing the frontier over contiguous records. -/
  | apub (d : Reg) (a : Reg) (b : Reg)
  /-- BKSET (R263): Reads a region descriptor with acquire and captures its frontier into bookmark n. -/
  | bkset (a : Reg) (n : Fin 4)
  /-- BKCLR (R263): Clears bookmark n. -/
  | bkclr (n : Fin 4)
  /-- VSETL (R160): Sets VTYPE, MAXVL and VL from the requested length and pushes the m46 write. -/
  | vsetl (d : Reg) (a : Reg) (t : Fin 16) (k : Fin 8) (r : Fin 8)
  /-- VSETLW (R163): Grants a length like vsetl, then stalls until the watermark covers the strip and acquires. -/
  | vsetlw (d : Reg) (a : Reg) (b : Reg) (t : Fin 16) (k : Fin 8) (r : Fin 8)
  /-- VADD_VV (R169): Element-wise wrapping or rn30 addition of two chains. -/
  | vaddVV (d : Reg) (a : Reg) (b : Reg) (m : MaskF) (x : Bool)
  /-- VSUB_VV (R169): Element-wise subtraction of two chains. -/
  | vsubVV (d : Reg) (a : Reg) (b : Reg) (m : MaskF) (x : Bool)
  /-- VMUL_VV (R169): Element-wise multiplication of two chains. -/
  | vmulVV (d : Reg) (a : Reg) (b : Reg) (m : MaskF) (x : Bool)
  /-- VMULH_VV (R169): Element-wise high half of the product of two chains. -/
  | vmulhVV (d : Reg) (a : Reg) (b : Reg) (m : MaskF) (x : Bool)
  /-- VDIV_VV (R169): Element-wise integer quotient by R27. -/
  | vdivVV (d : Reg) (a : Reg) (b : Reg) (m : MaskF) (x : Bool)
  /-- VREM_VV (R169): Element-wise integer remainder by R27. -/
  | vremVV (d : Reg) (a : Reg) (b : Reg) (m : MaskF) (x : Bool)
  /-- VMIN_VV (R169): Element-wise integer minimum of two chains. -/
  | vminVV (d : Reg) (a : Reg) (b : Reg) (m : MaskF) (x : Bool)
  /-- VMAX_VV (R169): Element-wise integer maximum of two chains. -/
  | vmaxVV (d : Reg) (a : Reg) (b : Reg) (m : MaskF) (x : Bool)
  /-- VADDS_VV (R169): Element-wise saturating addition of two chains. -/
  | vaddsVV (d : Reg) (a : Reg) (b : Reg) (m : MaskF) (x : Bool)
  /-- VSUBS_VV (R169): Element-wise saturating subtraction of two chains. -/
  | vsubsVV (d : Reg) (a : Reg) (b : Reg) (m : MaskF) (x : Bool)
  /-- VAND_VV (R169): Element-wise bitwise and of two chains. -/
  | vandVV (d : Reg) (a : Reg) (b : Reg) (m : MaskF) (x : Bool)
  /-- VOR_VV (R169): Element-wise bitwise or of two chains. -/
  | vorVV (d : Reg) (a : Reg) (b : Reg) (m : MaskF) (x : Bool)
  /-- VXOR_VV (R169): Element-wise bitwise xor of two chains. -/
  | vxorVV (d : Reg) (a : Reg) (b : Reg) (m : MaskF) (x : Bool)
  /-- VSHL_VV (R169): Element-wise left shift by element amounts. -/
  | vshlVV (d : Reg) (a : Reg) (b : Reg) (m : MaskF) (x : Bool)
  /-- VSHR_VV (R169): Element-wise right shift by element amounts. -/
  | vshrVV (d : Reg) (a : Reg) (b : Reg) (m : MaskF) (x : Bool)
  /-- VADD_VS (R169): Adds a captured scalar to every element. -/
  | vaddVS (d : Reg) (a : Reg) (b : Reg) (m : MaskF) (x : Bool)
  /-- VSUB_VS (R169): Subtracts a captured scalar from every element. -/
  | vsubVS (d : Reg) (a : Reg) (b : Reg) (m : MaskF) (x : Bool)
  /-- VRSUB_VS (R169): Subtracts every element from a captured scalar. -/
  | vrsubVS (d : Reg) (a : Reg) (b : Reg) (m : MaskF) (x : Bool)
  /-- VMUL_VS (R169): Multiplies every element by a captured scalar. -/
  | vmulVS (d : Reg) (a : Reg) (b : Reg) (m : MaskF) (x : Bool)
  /-- VMULH_VS (R169): High half of each element's product with a scalar. -/
  | vmulhVS (d : Reg) (a : Reg) (b : Reg) (m : MaskF) (x : Bool)
  /-- VMIN_VS (R169): Element-wise minimum with a scalar. -/
  | vminVS (d : Reg) (a : Reg) (b : Reg) (m : MaskF) (x : Bool)
  /-- VMAX_VS (R169): Element-wise maximum with a scalar. -/
  | vmaxVS (d : Reg) (a : Reg) (b : Reg) (m : MaskF) (x : Bool)
  /-- VADDS_VS (R169): Saturating addition of a scalar to every element. -/
  | vaddsVS (d : Reg) (a : Reg) (b : Reg) (m : MaskF) (x : Bool)
  /-- VSUBS_VS (R169): Saturating subtraction of a scalar from every element. -/
  | vsubsVS (d : Reg) (a : Reg) (b : Reg) (m : MaskF) (x : Bool)
  /-- VAND_VS (R169): Bitwise and of every element with a scalar. -/
  | vandVS (d : Reg) (a : Reg) (b : Reg) (m : MaskF) (x : Bool)
  /-- VOR_VS (R169): Bitwise or of every element with a scalar. -/
  | vorVS (d : Reg) (a : Reg) (b : Reg) (m : MaskF) (x : Bool)
  /-- VXOR_VS (R169): Bitwise xor of every element with a scalar. -/
  | vxorVS (d : Reg) (a : Reg) (b : Reg) (m : MaskF) (x : Bool)
  /-- VSHL_VS (R169): Shifts every element left by a scalar amount. -/
  | vshlVS (d : Reg) (a : Reg) (b : Reg) (m : MaskF) (x : Bool)
  /-- VSHR_VS (R169): Shifts every element right by a scalar amount. -/
  | vshrVS (d : Reg) (a : Reg) (b : Reg) (m : MaskF) (x : Bool)
  /-- VADD_VI (R169): Adds a sign-extended immediate to every element. -/
  | vaddVI (d : Reg) (a : Reg) (imm : BitVec 11)
  /-- VRSUB_VI (R169): Subtracts every element from an immediate. -/
  | vrsubVI (d : Reg) (a : Reg) (imm : BitVec 11)
  /-- VAND_VI (R169): Bitwise and of every element with an immediate. -/
  | vandVI (d : Reg) (a : Reg) (imm : BitVec 11)
  /-- VOR_VI (R169): Bitwise or of every element with an immediate. -/
  | vorVI (d : Reg) (a : Reg) (imm : BitVec 11)
  /-- VXOR_VI (R169): Bitwise xor of every element with an immediate. -/
  | vxorVI (d : Reg) (a : Reg) (imm : BitVec 11)
  /-- VSHL_VI (R169): Shifts every element left by an immediate 0 to 63. -/
  | vshlVI (d : Reg) (a : Reg) (imm : BitVec 11)
  /-- VSHR_VI (R169): Shifts every element right by an immediate 0 to 63. -/
  | vshrVI (d : Reg) (a : Reg) (imm : BitVec 11)
  /-- VMIN_VI (R169): Element-wise minimum with an immediate. -/
  | vminVI (d : Reg) (a : Reg) (imm : BitVec 11)
  /-- VMAX_VI (R169): Element-wise maximum with an immediate. -/
  | vmaxVI (d : Reg) (a : Reg) (imm : BitVec 11)
  /-- VFADD_VV (R172): Element-wise floating-point addition of two chains. -/
  | vfaddVV (d : Reg) (a : Reg) (b : Reg) (m : MaskF) (x : Bool)
  /-- VFSUB_VV (R172): Element-wise floating-point subtraction of two chains. -/
  | vfsubVV (d : Reg) (a : Reg) (b : Reg) (m : MaskF) (x : Bool)
  /-- VFMUL_VV (R172): Element-wise floating-point multiplication of two chains. -/
  | vfmulVV (d : Reg) (a : Reg) (b : Reg) (m : MaskF) (x : Bool)
  /-- VFDIV_VV (R172): Element-wise correctly rounded floating-point division. -/
  | vfdivVV (d : Reg) (a : Reg) (b : Reg) (m : MaskF) (x : Bool)
  /-- VFMA_VV (R172): Element-wise va times vb plus old vd, rounded once. -/
  | vfmaVV (d : Reg) (a : Reg) (b : Reg) (m : MaskF) (x : Bool)
  /-- VFMIN_VV (R172): Element-wise floating-point minimum by R38. -/
  | vfminVV (d : Reg) (a : Reg) (b : Reg) (m : MaskF) (x : Bool)
  /-- VFMAX_VV (R172): Element-wise floating-point maximum by R38. -/
  | vfmaxVV (d : Reg) (a : Reg) (b : Reg) (m : MaskF) (x : Bool)
  /-- VFABS (R172): Clears the sign bit of every element. -/
  | vfabs (d : Reg) (a : Reg) (m : MaskF) (x : Bool)
  /-- VFSQRT (R172): Element-wise correctly rounded square root. -/
  | vfsqrt (d : Reg) (a : Reg) (m : MaskF) (x : Bool)
  /-- VFRCP (R172): Element-wise correctly rounded reciprocal. -/
  | vfrcp (d : Reg) (a : Reg) (m : MaskF) (x : Bool)
  /-- VFRSQRT (R172): Element-wise correctly rounded reciprocal square root. -/
  | vfrsqrt (d : Reg) (a : Reg) (m : MaskF) (x : Bool)
  /-- VFEXP2 (R172): Element-wise correctly rounded power of two. -/
  | vfexp2 (d : Reg) (a : Reg) (m : MaskF) (x : Bool)
  /-- VCVT (R173): Converts every element from VTYPE's type to the target type by R39. -/
  | vcvt (d : Reg) (a : Reg) (t : Fin 16) (m : MaskF) (x : Bool)
  /-- VFADD_VS (R172): Adds a floating-point scalar to every element. -/
  | vfaddVS (d : Reg) (a : Reg) (b : Reg) (m : MaskF) (x : Bool)
  /-- VFSUB_VS (R172): Subtracts a floating-point scalar from every element. -/
  | vfsubVS (d : Reg) (a : Reg) (b : Reg) (m : MaskF) (x : Bool)
  /-- VFMUL_VS (R172): Multiplies every element by a floating-point scalar. -/
  | vfmulVS (d : Reg) (a : Reg) (b : Reg) (m : MaskF) (x : Bool)
  /-- VFDIV_VS (R172): Divides every element by a floating-point scalar. -/
  | vfdivVS (d : Reg) (a : Reg) (b : Reg) (m : MaskF) (x : Bool)
  /-- VFMA_VS (R172): Computes va times gb plus old vd per element, rounded once. -/
  | vfmaVS (d : Reg) (a : Reg) (b : Reg) (m : MaskF) (x : Bool)
  /-- VFMIN_VS (R172): Element-wise floating-point minimum with a scalar. -/
  | vfminVS (d : Reg) (a : Reg) (b : Reg) (m : MaskF) (x : Bool)
  /-- VFMAX_VS (R172): Element-wise floating-point maximum with a scalar. -/
  | vfmaxVS (d : Reg) (a : Reg) (b : Reg) (m : MaskF) (x : Bool)
  /-- VCMP_EQ_VV (R174): Writes mask md with element-wise equality of two chains. -/
  | vcmpEqVV (d : MaskF) (a : Reg) (b : Reg) (m : MaskF)
  /-- VCMP_NE_VV (R174): Writes mask md with element-wise inequality of two chains. -/
  | vcmpNeVV (d : MaskF) (a : Reg) (b : Reg) (m : MaskF)
  /-- VCMP_LT_VV (R174): Writes mask md with element-wise less-than of two chains. -/
  | vcmpLtVV (d : MaskF) (a : Reg) (b : Reg) (m : MaskF)
  /-- VCMP_LE_VV (R174): Writes mask md with element-wise less-or-equal of two chains. -/
  | vcmpLeVV (d : MaskF) (a : Reg) (b : Reg) (m : MaskF)
  /-- VCMP_UNORD_VV (R174): Writes mask md where either element is NaN. -/
  | vcmpUnordVV (d : MaskF) (a : Reg) (b : Reg) (m : MaskF)
  /-- VCMP_EQ_VS (R174): Writes mask md where elements equal a scalar. -/
  | vcmpEqVS (d : MaskF) (a : Reg) (b : Reg) (m : MaskF)
  /-- VCMP_NE_VS (R174): Writes mask md where elements differ from a scalar. -/
  | vcmpNeVS (d : MaskF) (a : Reg) (b : Reg) (m : MaskF)
  /-- VCMP_LT_VS (R174): Writes mask md where elements are less than a scalar. -/
  | vcmpLtVS (d : MaskF) (a : Reg) (b : Reg) (m : MaskF)
  /-- VCMP_LE_VS (R174): Writes mask md where elements are at most a scalar. -/
  | vcmpLeVS (d : MaskF) (a : Reg) (b : Reg) (m : MaskF)
  /-- VCMP_GT_VS (R174): Writes mask md where elements exceed a scalar. -/
  | vcmpGtVS (d : MaskF) (a : Reg) (b : Reg) (m : MaskF)
  /-- VCMP_GE_VS (R174): Writes mask md where elements are at least a scalar. -/
  | vcmpGeVS (d : MaskF) (a : Reg) (b : Reg) (m : MaskF)
  /-- VREDSUM (R175): Sums active elements in the fixed pairwise tree with an initial value, returning through the read queue. -/
  | vredsum (d : Reg) (a : Reg) (b : Reg) (m : MaskF)
  /-- VREDSUMO (R175): Sums active floating-point elements in index order. -/
  | vredsumo (d : Reg) (a : Reg) (b : Reg) (m : MaskF)
  /-- VREDMIN (R175): Reduces active elements to their minimum. -/
  | vredmin (d : Reg) (a : Reg) (b : Reg) (m : MaskF)
  /-- VREDMAX (R175): Reduces active elements to their maximum. -/
  | vredmax (d : Reg) (a : Reg) (b : Reg) (m : MaskF)
  /-- VREDAND (R175): Reduces active integer elements by bitwise and. -/
  | vredand (d : Reg) (a : Reg) (b : Reg) (m : MaskF)
  /-- VREDOR (R175): Reduces active integer elements by bitwise or. -/
  | vredor (d : Reg) (a : Reg) (b : Reg) (m : MaskF)
  /-- VSCAN (R176): Writes inclusive prefix sums over active elements by prefix trees. -/
  | vscan (d : Reg) (a : Reg) (b : Reg) (m : MaskF) (x : Bool)
  /-- VSCANMAX (R176): Writes inclusive prefix maxima over active elements. -/
  | vscanmax (d : Reg) (a : Reg) (b : Reg) (m : MaskF) (x : Bool)
  /-- VLIFT (R177): Shifts elements up by a scalar offset, filling with FILL. -/
  | vlift (d : Reg) (a : Reg) (b : Reg) (m : MaskF)
  /-- VSINK (R177): Shifts elements down by a scalar offset, reading FILL beyond the end. -/
  | vsink (d : Reg) (a : Reg) (b : Reg) (m : MaskF)
  /-- VPERM (R178): Gathers elements of va by an n32 index chain. -/
  | vperm (d : Reg) (a : Reg) (b : Reg) (m : MaskF)
  /-- VPRESS (R179): Compresses the elements selected by the mask into a fresh chain. -/
  | vpress (d : Reg) (a : Reg) (m : MaskF)
  /-- VRANK (R180): Writes the count of set mask bits below each index. -/
  | vrank (d : Reg) (m : MaskF)
  /-- VBCAST (R181): Writes a scalar's bits into every active element. -/
  | vbcast (d : Reg) (b : Reg) (m : MaskF)
  /-- VEXTR (R182): Returns element gb of va to gd through the read queue. -/
  | vextr (d : Reg) (a : Reg) (b : Reg)
  /-- VPUT (R183): Writes one element of an existing chain in place by path copying. -/
  | vput (d : Reg) (a : Reg) (b : Reg)
  /-- VUPD (R184): Scatters values into an existing chain in place by index, highest index winning. -/
  | vupd (d : Reg) (a : Reg) (b : Reg) (m : MaskF)
  /-- VUPD_ADD (R184): Adds values into elements of an existing chain in place by index, in index order. -/
  | vupdAdd (d : Reg) (a : Reg) (b : Reg) (m : MaskF)
  /-- VTOPK (R185): Writes the indices of the k highest-ranked active elements. -/
  | vtopk (d : Reg) (a : Reg) (b : Reg) (m : MaskF)
  /-- MAND (R186): Writes the and of two masks over [0, VL). -/
  | mand (d : MaskF) (a : MaskF) (b : MaskF)
  /-- MOR (R186): Writes the or of two masks over [0, VL). -/
  | mor (d : MaskF) (a : MaskF) (b : MaskF)
  /-- MXOR (R186): Writes the xor of two masks over [0, VL). -/
  | mxor (d : MaskF) (a : MaskF) (b : MaskF)
  /-- MNOT (R186): Writes the complement of a mask over [0, VL). -/
  | mnot (d : MaskF) (a : MaskF)
  /-- MPOPC (R187): Returns the number of set mask bits in [0, VL) through the read queue. -/
  | mpopc (d : Reg) (a : MaskF)
  /-- MFIRST (R187): Returns the lowest set mask index in [0, VL), or all ones. -/
  | mfirst (d : Reg) (a : MaskF)
  /-- MTOS (R188): Returns 64-bit word gb[5:0] of a mask. -/
  | mtos (d : Reg) (a : MaskF) (b : Reg)
  /-- STOM (R188): Writes ga into one 64-bit word of a mask, leaving the rest unchanged. -/
  | stom (d : MaskF) (a : Reg) (b : Reg)
  /-- MSET (R189): Sets mask bits [ga, ga+gb) and clears all others. -/
  | mset (d : MaskF) (a : Reg) (b : Reg)
  /-- VLD (R204): Loads VL contiguous elements into a fresh chain. -/
  | vld (d : Reg) (b : Reg) (m : MaskF) (c : Fin 16) (f : Bool)
  /-- VLDS (R204): Loads VL elements at a signed stride into a fresh chain. -/
  | vlds (d : Reg) (b : Reg) (s : Reg) (m : MaskF) (c : Fin 16) (f : Bool)
  /-- VLDX (R204): Loads elements at indexed addresses, bounded by XBOUND. -/
  | vldx (d : Reg) (b : Reg) (v : Reg) (m : MaskF) (c : Fin 16) (f : Bool)
  /-- VST (R204): Stores the accessed elements contiguously. -/
  | vst (d : Reg) (b : Reg) (m : MaskF) (c : Fin 16)
  /-- VSTS (R204): Stores the accessed elements at a signed stride, highest index winning overlaps. -/
  | vsts (d : Reg) (b : Reg) (s : Reg) (m : MaskF) (c : Fin 16)
  /-- VSTX (R204): Scatters the accessed elements to indexed addresses. -/
  | vstx (d : Reg) (b : Reg) (v : Reg) (m : MaskF) (c : Fin 16)
  /-- VSTXA (R209): Merges elements per address and adds them atomically into memory at device or system scope. -/
  | vstxa (d : Reg) (b : Reg) (v : Reg) (m : MaskF) (c : Fin 16) (f : Bool)
  /-- VSHARE (R195): Gives vd the chain of va by a reference, clearing EXCL on both. -/
  | vshare (d : Reg) (a : Reg)
  /-- VCAT (R196): Makes vd hold va's stream followed by vb's, linking in place or path-copying. -/
  | vcat (d : Reg) (a : Reg) (b : Reg)
  /-- VTRIM (R198): Drops elements from the front and back by walking leaf headers. -/
  | vtrim (d : Reg) (a : Reg) (f : Reg) (b : Reg)
  /-- VSPLIT (R199): Moves the first n elements of va into vd and leaves the rest in va. -/
  | vsplit (d : Reg) (a : Reg) (n : Reg)
  /-- VPACK (R200): Copies va's stream into a fresh dense chain. -/
  | vpack (d : Reg) (a : Reg)
  /-- VFREE (R201): Releases va's chain and makes va empty. -/
  | vfree (a : Reg)
  /-- VDESC (R201): Returns va's descriptor through the read queue. -/
  | vdesc (d : Reg) (a : Reg)
  /-- VLEN (R201): Returns va's element count through the read queue. -/
  | vlen (d : Reg) (a : Reg)
  /-- CLMAP (R244): Gathers each token's map from a table, or the all-D map at or above the bound. -/
  | clmap (d : Reg) (a : Reg) (g : Reg) (b : Reg)
  /-- CLCOMP (R244): Composes all maps into one and returns the status word through the read queue. -/
  | clcomp (d : Reg) (a : Reg) (g : Reg)
  /-- CLSCAN (R244): Writes the prefix compositions of the maps. -/
  | clscan (d : Reg) (a : Reg)
  /-- CLAPPLY (R244): Applies each map to a start state, writing n8 states. -/
  | clapply (d : Reg) (a : Reg) (b : Reg)
  /-- CLMASK (R244): Reads maps from memory and sets mask bits where the start state is not sent to D. -/
  | clmask (d : MaskF) (a : Reg) (b : Reg)
  /-- TBIND (R222): Shares va's chain into an EMPTY slot with its row length and type. -/
  | tbind (a : Reg) (s : Fin 16)
  /-- TTGT (R220): Makes an EMPTY slot TARGET for a drain. -/
  | ttgt (s : Fin 16)
  /-- TWAIT (R220): Stalls in the vector queue until a TARGET slot is FILLED. -/
  | twait (s : Fin 16)
  /-- TGET (R224): Moves a FILLED slot's chain into vd and empties the slot. -/
  | tget (d : Reg) (s : Fin 16)
  /-- TFREE (R225): Waits for queued tile entries naming the slot, releases its chain and empties it. -/
  | tfree (s : Fin 16)
  /-- PAT (R253): Runs a bound pattern of micro-operations for every element, course by course. -/
  | pat (d : Reg) (a : Reg) (b : Reg) (m : MaskF) (p : Fin 32)
  /-- HADD (R91): Compressed add gd, gd, ga. -/
  | hadd (d a : Reg)
  /-- HSUB (R91): Compressed sub gd, gd, ga. -/
  | hsub (d a : Reg)
  /-- HAND (R91): Compressed and gd, gd, ga. -/
  | hand (d a : Reg)
  /-- HOR (R91): Compressed or gd, gd, ga. -/
  | hor (d a : Reg)
  /-- HMOV (R91): Compressed register move. -/
  | hmov (d a : Reg)
  /-- HINC (R91): Compressed add of a 5-bit signed immediate. -/
  | hinc (d : Reg) (imm : BitVec 5)
  /-- HSHL (R91): Compressed left shift by an immediate. -/
  | hshl (d : Reg) (sh : Fin 32)
  /-- HLDD (R91): Compressed doubleword load. -/
  | hldd (d b : Fin 8) (off : Fin 16)
  /-- HSTD (R91): Compressed doubleword store. -/
  | hstd (d b : Fin 8) (off : Fin 16)
  /-- HBZ (R91): Compressed branch when a register is zero. -/
  | hbz (a : Reg) (off : BitVec 5)
  /-- HBNZ (R91): Compressed branch when a register is non-zero. -/
  | hbnz (a : Reg) (off : BitVec 5)
  /-- HJMP (R91): Compressed unconditional branch without link. -/
  | hjmp (off : BitVec 10)
  /-- HVADD (R91): Compressed unmasked vadd on v0 to v7. -/
  | hvadd (d a : Fin 8)
  /-- MCFG (R230): Appends a tile-queue entry setting types, accumulator kind, shape, k and transposition. -/
  | mcfg (tyA tyB : Fin 4) (acc m64 n64 : Bool) (k : Fin 64) (tb ta : Bool)
  /-- MMA (R235): Appends a tile-queue entry adding A times B into accumulators, optionally releasing slot operands. -/
  | mma (u : Fin 16) (ac : Fin 4) (rel : Bool) (a b : Reg)
  /-- MMASP (R237): Appends a tile-queue entry multiplying a 2:4-sparse A by B under metadata. -/
  | mmasp (u : Fin 16) (ac : Fin 4) (rel : Bool) (a b c : Reg)
  /-- MZERO (R236): Appends a tile-queue entry clearing accumulators and their product counts. -/
  | mzero (u : Fin 16) (ac : Fin 4)
  /-- MDRAIN (R238): Appends a tile-queue entry converting accumulators into a slot or scratchpad target. -/
  | mdrain (u : Fin 16) (ac : Fin 4) (cv : Fin 16) (rm : Fin 8) (scaled : Bool) (d s : Reg)
  /-- MWAIT (R229): Stalls the MCC until the tile queue holds at most n entries. -/
  | mwait (n : Fin 256)
  /-- CPY (R216): Pushes a strided row copy between memory and scratchpad. -/
  | cpy (c : Fin 16) (q : Fin 4) (cnt : Bool) (dst src shape pitch ctr : Reg)
  /-- CPYG (R216): Pushes an indexed gather of table rows into scratchpad, filling out-of-bound rows. -/
  | cpyg (c : Fin 16) (q : Fin 4) (cnt : Bool) (bound : Reg) (fill : BitVec 8) (dst src shape pitch ctr vidx : Reg)
  /-- CPYS (R216): Pushes an indexed scatter of scratchpad rows into a table, dropping out-of-bound rows. -/
  | cpys (c : Fin 16) (q : Fin 4) (cnt : Bool) (bound : Reg) (dst src shape pitch ctr vidx : Reg)
  /-- CPYF (R216): Pushes a fill of rows with a fill byte. -/
  | cpyf (c : Fin 16) (q : Fin 4) (cnt : Bool) (fill : BitVec 8) (dst shape pitch ctr : Reg)
  /-- TRAP_NONE (R360): Service trap code 0: Usilaem performs no service and the thread continues. -/
  | trapNone
  /-- TRAP_READ_TSW (R360): Service trap code 1: returns the TSW in g28 and clears it on an MCC. -/
  | trapReadTsw
  /-- TRAP_READ_VIOLATION_LOG (R360): Service trap code 2: returns and removes the oldest unread violation log entry in g28 and g29. -/
  | trapReadViolationLog
  /-- TRAP_ABORT (R360): Service trap code 3: contains the context, recording g28 as XINFO. -/
  | trapAbort
  /-- TRAP_REGISTER_FAULT_RECORD (R314): Service trap code 8: registers the matrix fault record at g28 for the MCC thread. -/
  | trapRegisterFaultRecord
  /-- TRAP_RESUME_MCC (R315): Service trap code 9: writes STATE 2 and resumes every stopped MCC of the context whose record holds STATE 1. -/
  | trapResumeMcc
  /-- EXIT (R151): Stops pushing and waits for the thread's queues and counters to drain before the exit is performed. -/
  | exit
  /-- YIELD (R152): Makes the arbiter skip the thread for up to 64 cycles. -/
  | yield
  /-- XRET (R153): Leaves the user fault handler, restoring the frozen queue and continuing at XRET. -/
  | xret
  /-- HNOP (R91): Compressed no-operation. -/
  | hnop
  /-- HWAIT (R91): Compressed wait for all counters to reach zero. -/
  | hwait
  /-- HEXIT (R91): Compressed exit. -/
  | hexit
  /-- LBUD_WRITE (R82): A csrw of LBUD clamps to the header budget and takes effect at the next vsetl or vsetlw. Event: LBUD of thread `tid` takes `word`, at most the header budget. -/
  | lbudWrite
  /-- FFLAGS_WRITE (R58): A csrw of FFLAGS takes effect after every earlier-pushed vector instruction completes. Event: FFLAGS of thread `tid` takes `word`, once no vector instruction is queued. -/
  | fflagsWrite
  /-- VSTART_WRITE (R87): A csrw of VSTART changes only the index from which a faulting entry resumes. Event: VSTART of thread `tid` takes `word`, once no vector instruction is queued. -/
  | vstartWrite
  /-- CLMODE_WRITE (R242): A csrw of CLMODE takes effect for vector instructions pushed after it. Event: CLMODE of thread `tid` takes the writable bits of `word`. -/
  | clmodeWrite
  /-- PREQ_WRITE (R349): Writing 1 to PREQ requests pre-emption of the thread's core. Event: PREQ of thread `tid` is written `word`: a pre-emption is asked for while its core or MCC has something to save. -/
  | preqWrite
  /-- TSWP_WRITE (R349): Writing 1 to a TSWP bit clears that TSW bit on an MCC. Event: TSWP of thread `tid` is written `word`. -/
  | tswpWrite
  /-- REGISTER_WRITE (R5): A write to any other register with no behaviour of its own stores the writable bits. Event: Register number `n` of thread `tid` takes the writable bits of `word`. -/
  | registerWrite
  /-- VECTOR_COURSE (R265): A pipe processes one course of a vector entry once its producers have finished that course. Event: Thread `tid`. -/
  | vectorCourse
  /-- VECTOR_ENTRY_COMPLETE (R264): A vector entry completes in queue order, writing its result, flags and VSTART and counting in VCP. Event: Thread `tid`. -/
  | vectorEntryComplete
  /-- READ_QUEUE_RETURN (R267): A read-queue value returns to its scalar register in entry order. Event: Thread `tid`. -/
  | readQueueReturn
  /-- VECTOR_FAULT_REPORT (R271): Once earlier entries complete, a vector fault stops the scalar stream and writes the fault report. Event: Thread `tid`. -/
  | vectorFaultReport
  /-- SCALAR_FAULT_REPORT (R128): After earlier vector instructions complete, a scalar fault, trap or breakpoint is reported. Event: Thread `tid`. -/
  | scalarFaultReport
  /-- DECODE_FAULT (R113): An instruction failing at decode or push waits for earlier vector instructions, then faults in program order. Event: Thread `tid`. -/
  | decodeFault
  /-- EXIT_PERFORM (R151): Once the thread's queues and counters drain, leave is returned, chains are released and the iteration ends. Event: Thread `tid`. -/
  | exitPerform
  /-- XRET_RESUME (R153): After the handler's vector instructions complete, the frozen entries resume and execution continues at XRET. Event: Thread `tid`. -/
  | xretResume
  /-- YIELD_END (R152): After up to 64 cycles or an operation completion the yielding thread becomes eligible again. Event: Thread `tid`. -/
  | yieldEnd
  /-- FF_STALL_END (R266): The thread's stall after a .ff push ends when that entry completes. Event: Thread `tid`, once no .ff load is queued. -/
  | ffStallEnd
  /-- LEAF_ALLOC_RETRY (R274): A stalled allocation retries after a cycle in which the walker may have freed leaves. Event: Thread `tid`, whose oldest entry has stalled. -/
  | leafAllocRetry
  /-- RECLAIM_STEP (R75): The reclaim walker frees leaves whose REFS reached zero, up to 4 per cycle, stopping at a held leaf. Event: Core `co` of cluster `cl`. -/
  | reclaimStep
  /-- WATERMARK_WAIT_END (R163): A stalled vsetlw completes as an acquire once the watermark reaches START plus VL. Event: Thread `tid`, an acquire. -/
  | watermarkWaitEnd
  /-- BARRIER_PHASE_COMPLETE (R259): The last arrival completes the phase and every waiting thread proceeds with an acquire. Event: Barrier `n` of the launch of thread `tid`, once as many have arrived as it counts. -/
  | barrierPhaseComplete
  /-- LEAVE_GRANT (R281): The cluster power arbiter grants waiting leave requests in arrival order as units become free. Event: Cluster `cl`. -/
  | leaveGrant
  /-- POWER_BUDGET_SET (R281): The package power manager sets a cluster's leave budget without revoking held units. Event: Cluster `cl`, `n` units. -/
  | powerBudgetSet
  /-- POWCAP_SET (R282): The package power manager sets a cluster's POWCAP, applied from each thread's next vsetl. Event: Cluster `cl`, `n` courses. -/
  | powcapSet
  /-- CAS_PRIORITY_EXPIRY (R144): A thread's cas priority-list entry expires 4,096 cycles after its failure. Event: Thread `tid` leaves the list of the address with key `k`. -/
  | casPriorityExpiry
  /-- MEMORY_ACCESS_COMPLETE (R290): An access is performed at its home agent and any load value returns, lowering the thread's counter. Event: Access number `k` of thread `tid`. -/
  | memoryAccessComplete
  /-- COPY_ROW (R216): The copy engine moves one row, meeting error responses by R217. Event: Queue `n` of core `co` of cluster `cl`. -/
  | copyRow
  /-- TILE_ENTRY_EXECUTE (R228): The matrix engine performs the oldest tile-queue entry once its operands are ready. Event: Cluster `cl`. -/
  | tileEntryExecute
  /-- PATTERN_LOAD_BIND (R366): Usilaem loads, verifies, places and binds a pattern from the launch image and resumes. Event: Thread `tid`, stopped at pattern absent. -/
  | patternLoadBind
  /-- QUEUE_BIND (R331): Usilaem binds a launch queue to a queue block, context, CEIL and MSI-X vector. Event: Queue `n`, the block at `k`, the sentinel at `word`. -/
  | queueBind
  /-- PACKET_ACCEPT (R332): The front end follows a next link, reads the packet whole and moves HEAD. Event: Queue `n`. -/
  | packetAccept
  /-- QUEUE_LINK_POLL (R332): The front end finds a linked packet within 2^16 cycles without a TAIL store. Event: Queue `n`. -/
  | queueLinkPoll
  /-- PACKET_READ_RETRY (R338): An unreadable packet link is logged and retried every 2^16 cycles. Event: Queue `n`. -/
  | packetReadRetry
  /-- LAUNCH_START (R344): A ready launch binds its patterns, clears its watermarks, writes START and begins hand-out. Event: Front end `n`. -/
  | launchStart
  /-- CORE_ASSIGN (R341): An idle core or MCC is assigned to the highest-level launch that can give it iterations. Event: Core `co` of cluster `cl`. -/
  | coreAssign
  /-- ITERATION_HANDOUT (R340): The nest walker hands a serial and stage to a free thread with its preloads. Event: Thread `th` of core `co` of cluster `cl`. -/
  | iterationHandout
  /-- GANG_SHARE_START (R342): A GANG share starts on its chosen cluster once all eight cores and its MCC are idle or kept. Event: Cluster `cl`. -/
  | gangShareStart
  /-- GANG_CLUSTER_CHOICE (R342): A waiting GANG share is given the free cluster with the most idle cores. Event: For the GANG share that comes first. -/
  | gangClusterChoice
  /-- LAUNCH_AGEING (R343): A waiting launch rises one level for each 2^24 cycles without a start or hand-out. Event: Launch `n`. -/
  | launchAgeing
  /-- LAUNCH_PREEMPT (R343): A PREEMPT launch without idle cores pre-empts whole cores of lower-level non-GANG launches. Event: Launch `n` on cluster `cl`. -/
  | launchPreempt
  /-- LAUNCH_COMPLETE (R345): A finished launch advances DONE in queue order and raises MSI-X when IRQ is set. Event: Queue `n`. -/
  | launchComplete
  /-- CORE_SAVE (R362): A taken core stops its threads, drains accesses, stops entries and writes its image. Event: Core `co` of cluster `cl`, or with `flag` its MCC. -/
  | coreSave
  /-- CORE_RESTORE (R365): A saved core image is restored onto a core, renumbering leaves and re-requesting leave. Event: Image `k` onto core `co` of cluster `cl`. -/
  | coreRestore
  /-- CONTEXT_SWAP_OUT (R368): Usilaem writes an idle context's images to flash and clears RES. Event: Context `n`. -/
  | contextSwapOut
  /-- CONTEXT_SWAP_IN (R368): Usilaem reads a swapped context's images back and sets RES. Event: Context `n`. -/
  | contextSwapIn
  /-- CONTAINMENT (R369): Usilaem kills a context, stops its parties, releases its state and retires its launches with ERR. Event: For the stopped thread `source`, or for context `n` at a host request. -/
  | containment
  /-- TLB_INVALIDATE (R354): Usilaem requests invalidation of a context's translations after changing a page table entry. Event: Context `n`. -/
  | tlbInvalidate
  /-- TLB_INVALIDATE_COMPLETE (R354): The invalidation completes once no TLB holds the old translation and its accesses are performed. Event: Context `n`. -/
  | tlbInvalidateComplete
  /-- PAGE_WALK (R352): A walker translates a missed page through four levels and installs or faults. Event: Address `word` of context `n` for core `co` of cluster `cl`. -/
  | pageWalk
  /-- DEMAND_PAGE_MAP (R356): Usilaem maps a page served on demand after a translation fault and resumes the thread. Event: Thread `tid`, with the table entries `pairs` that Usilaem writes. -/
  | demandPageMap
  /-- FLIT_RECEIVE (R371): A Porron flit is checked, acknowledged in sequence or discarded for replay. Event: Link `n`, flit `k`, good CRC `flag`, carrying a write of `bytes` at `word`. -/
  | flitReceive
  /-- FLIT_REPLAY (R371): The sender resends flits from its replay buffer in original order. Event: Link `n`, `k` flits, failing when `flag`. -/
  | flitReplay
  /-- LINK_DOWN (R373): A link goes down after 16 failed replays or 2^20 cycles without lock. Event: Link `n`, with lock lost when `flag`. -/
  | linkDown
  /-- LINK_RETRAIN (R373): A down link retrains every 2^30 cycles and returns to up on success. Event: Link `n`, with success `flag` and port `k`. -/
  | linkRetrain
  /-- LINK_RETIRE (R373): Usilaem retires a link after 8 downs within 2^40 cycles. Event: Link `n`. -/
  | linkRetire
  /-- HOST_LINK_ERROR (R375): A host link error is reported through AER without containing any context. Event: Error `n`. -/
  | hostLinkError
  /-- DEVICE_RESET (R376): At power-on or reset the boot ROM verifies, measures and starts the firmware or enters recovery. Event: The boot ROM, then Usilaem. -/
  | deviceReset
  /-- ROLLBACK_RAISE (R376): Usilaem raises the fused rollback count to the running SVN. Event: By Usilaem. -/
  | rollbackRaise
  /-- ATTESTATION_REQUEST (R379): The security root writes a signed report for a nonce and context. Event: Nonce `bytes`, context `n` or with `flag` the device, the report at `k`. -/
  | attestationRequest
  /-- CORRECTED_ERROR (R381): A corrected memory error changes nothing visible and is counted. Event: At `corrected`. -/
  | correctedError
  /-- PATROL_SCRUB (R381): Each home slice reads and rewrites every line once in every 2^44 cycles. Event: Line `k`, uncorrectable when `flag`. -/
  | patrolScrub
  /-- LINE_POISON (R382): An uncorrectable device memory line becomes poisoned until a whole-line write. Event: Line `k`. -/
  | linePoison
  /-- SCRATCHPAD_POISON (R383): An uncorrectable scratchpad word becomes poisoned until fully rewritten. Event: Word `k` of the scratchpad of core `co` of cluster `cl`. -/
  | scratchpadPoison
  /-- LEAF_ERROR (R384): A leaf counts an error, is poisoned when uncorrectable, and is retired at count three. Event: Leaf `k` of core `co` of cluster `cl`, uncorrectable when `flag`, in the header when `flag2`. -/
  | leafError
  /-- LEAF_ERROR_COUNT_CLEAR (R384): A leaf's error count clears 2^32 cycles after its first counted error. Event: Leaf `k` of core `co` of cluster `cl`. -/
  | leafErrorCountClear
  /-- FREE_LIST_REBUILD (R384): Usilaem rebuilds a core's free list whenever the core holds no launch. Event: Core `co` of cluster `cl`. -/
  | freeListRebuild
  /-- CHANNEL_RETIRE (R385): Usilaem pre-empts affected contexts, moves their frames, remaps and records the channel retired. Event: Channel `n`, with the frame moves `pairs`. -/
  | channelRetire
  /-- HEALTH_BLOCK_UPDATE (R387): Every 2^32 cycles Usilaem updates the health block and copies violation log counts into VREC. Event: By Usilaem. -/
  | healthBlockUpdate
  /-- SCRUB_PASS_CHECK (R387): Every 2^44 cycles Usilaem checks scrub counts against the channel retirement criteria. Event: By Usilaem. -/
  | scrubPassCheck
  /-- HOST_BAR_ACCESS (R346): The host reads or writes queue blocks, packets or device memory through a BAR window, with writes performed in issue order and a read of DONE acting as an acquire. Event: The access `host`. -/
  | hostBarAccess
  /-- CONTEXT_CREATE (R385): Usilaem creates a context, filling its context table entry and setting VALID, or refuses it when too few frames remain. Event: The context `spec`. -/
  | contextCreate
  /-- CONTEXT_DESTROY (R369): Usilaem destroys a context by clearing VALID, after which its ID may be reused. Event: Context `n`. -/
  | contextDestroy
  /-- DEBUGGER_RESUME (R356): An attached debugger releases a thread that Usilaem holds stopped at a breakpoint, and the thread resumes. Event: Thread `tid`, past the brk when `flag`. -/
  | debuggerResume
  /-- ETHERNET_FRAME_RECEIVE (R375): A frame arrives on one of the eight Ethernet ports and its DMA writes it into device memory for Usilaem. Event: A frame of `bytes` for address `k`. -/
  | ethernetFrameReceive
  /-- UNCORRECTABLE_STRUCTURE_ERROR (R380): An uncorrectable error in a vector queue, TLB, image in flight, accumulator or memory-side cache line is detected, leading to containment, poisoned data at the reading entry, or a poisoned write-back. Event: At `structure_`. -/
  | uncorrectableStructureError
deriving DecidableEq, Repr

end Sys2Proof
end

