-- ==== Sys2Proof/WellFormed.lean ====
section
/-!
DEFINITION. Which instructions are well formed: the field values that R95 to R110 allow within the widths
of their fields. A decoder answer is always well formed; anything else is illegal instruction (R112).
-/

namespace Sys2Proof

/-- A mask field value of 48 to 63 is illegal instruction (R101). -/
def maskOk (m : MaskF) : Bool := decide (m.val < 48)

/-- Rounding codes 5 and 6 are illegal in a scalar FP aux field and in mdrain (R96, R109). -/
def roundOk (r : Fin 8) : Bool := decide (r.val ≠ 5) && decide (r.val ≠ 6)

/-- The service trap codes that have no service (R360). -/
def unassignedCode (c : Fin 64) : Bool :=
  decide (3 < c.val) && decide (c.val ≠ 8) && decide (c.val ≠ 9)

/-- The operand types and accumulator kinds mcfg accepts (R109): both FP8 in any mix with f32, both bf16 with
f32, or both i8 with rn30. Type codes: 0 e4m3, 1 e5m2, 2 bf16, 3 i8; `acc` is set for rn30. -/
def mcfgOk (tyA tyB : Fin 4) (acc : Bool) : Bool :=
  (decide (tyA.val < 2) && decide (tyB.val < 2) && !acc) ||
    (decide (tyA.val = 2) && decide (tyB.val = 2) && !acc) ||
    (decide (tyA.val = 3) && decide (tyB.val = 3) && acc)

/-- The fields of an instruction are ones that its group allows (R95 to R110). Device events have no encoding
and carry no condition. -/
def Instr.wf : Instr → Bool
  | .add _ _ _ => true
  | .sub _ _ _ => true
  | .mul _ _ _ => true
  | .mulh _ _ _ => true
  | .mulhn _ _ _ => true
  | .div _ _ _ => true
  | .divn _ _ _ => true
  | .rem _ _ _ => true
  | .remn _ _ _ => true
  | .and _ _ _ => true
  | .or _ _ _ => true
  | .xor _ _ _ => true
  | .shl _ _ _ => true
  | .shr _ _ _ => true
  | .sra _ _ _ => true
  | .rot _ _ _ => true
  | .min _ _ _ => true
  | .max _ _ _ => true
  | .minn _ _ _ => true
  | .maxn _ _ _ => true
  | .slt _ _ _ => true
  | .sltn _ _ _ => true
  | .seq _ _ _ => true
  | .csel _ _ _ _ => true
  | .clz _ _ => true
  | .ctz _ _ => true
  | .popc _ _ => true
  | .sext _ _ _ s => decide (s.val < 3)
  | .zext _ _ _ s => decide (s.val < 3)
  | .addi _ _ _ => true
  | .andi _ _ _ => true
  | .ori _ _ _ => true
  | .xori _ _ _ => true
  | .shli _ _ _ => true
  | .shri _ _ _ => true
  | .srai _ _ _ => true
  | .lim _ _ _ => true
  | .limK _ _ _ => true
  | .slti _ _ _ => true
  | .sltni _ _ _ => true
  | .fadd _ _ _ _ r => roundOk r
  | .fsub _ _ _ _ r => roundOk r
  | .fmul _ _ _ _ r => roundOk r
  | .fdiv _ _ _ _ r => roundOk r
  | .fsqrt _ _ _ r => roundOk r
  | .fma _ _ _ _ r => roundOk r
  | .fmin _ _ _ _ => true
  | .fmax _ _ _ _ => true
  | .feq _ _ _ _ => true
  | .flt _ _ _ _ => true
  | .fle _ _ _ _ => true
  | .fcvt _ _ _ _ r => roundOk r
  | .fcvti _ _ _ _ r => roundOk r
  | .fcvtf _ _ _ _ r => roundOk r
  | .ld _ _ _ _ _ _ => true
  | .st _ _ _ _ _ => true
  | .amoadd _ _ _ _ _ _ => true
  | .amoand _ _ _ _ _ _ => true
  | .amoor _ _ _ _ _ _ => true
  | .amoxor _ _ _ _ _ _ => true
  | .amomin _ _ _ _ _ _ _ => true
  | .amomax _ _ _ _ _ _ _ => true
  | .amoswap _ _ _ _ _ _ => true
  | .amofadd _ _ _ _ _ _ => true
  | .cas _ _ _ _ _ _ => true
  | .beq _ _ _ => true
  | .bne _ _ _ => true
  | .blt _ _ _ => true
  | .bge _ _ _ => true
  | .bltn _ _ _ => true
  | .bgen _ _ _ => true
  | .jal _ => true
  | .jr _ _ _ => true
  | .jt _ _ _ => true
  | .bstrip _ _ => true
  | .trapUnassigned c => unassignedCode c
  | .brk _ => true
  | .leave _ => true
  | .csrr _ _ => true
  | .csrw _ _ => true
  | .fence _ k _ => decide (k.val < 3)
  | .qfence _ => true
  | .wait _ _ _ _ => true
  | .bar _ => true
  | .wmpub _ _ => true
  | .apnd _ _ _ => true
  | .apub _ _ _ => true
  | .bkset _ _ => true
  | .bkclr _ => true
  | .vsetl _ _ _ _ _ => true
  | .vsetlw _ _ _ _ _ _ => true
  | .vaddVV _ _ _ m _ => maskOk m
  | .vsubVV _ _ _ m _ => maskOk m
  | .vmulVV _ _ _ m _ => maskOk m
  | .vmulhVV _ _ _ m _ => maskOk m
  | .vdivVV _ _ _ m _ => maskOk m
  | .vremVV _ _ _ m _ => maskOk m
  | .vminVV _ _ _ m _ => maskOk m
  | .vmaxVV _ _ _ m _ => maskOk m
  | .vaddsVV _ _ _ m _ => maskOk m
  | .vsubsVV _ _ _ m _ => maskOk m
  | .vandVV _ _ _ m _ => maskOk m
  | .vorVV _ _ _ m _ => maskOk m
  | .vxorVV _ _ _ m _ => maskOk m
  | .vshlVV _ _ _ m _ => maskOk m
  | .vshrVV _ _ _ m _ => maskOk m
  | .vaddVS _ _ _ m _ => maskOk m
  | .vsubVS _ _ _ m _ => maskOk m
  | .vrsubVS _ _ _ m _ => maskOk m
  | .vmulVS _ _ _ m _ => maskOk m
  | .vmulhVS _ _ _ m _ => maskOk m
  | .vminVS _ _ _ m _ => maskOk m
  | .vmaxVS _ _ _ m _ => maskOk m
  | .vaddsVS _ _ _ m _ => maskOk m
  | .vsubsVS _ _ _ m _ => maskOk m
  | .vandVS _ _ _ m _ => maskOk m
  | .vorVS _ _ _ m _ => maskOk m
  | .vxorVS _ _ _ m _ => maskOk m
  | .vshlVS _ _ _ m _ => maskOk m
  | .vshrVS _ _ _ m _ => maskOk m
  | .vaddVI _ _ _ => true
  | .vrsubVI _ _ _ => true
  | .vandVI _ _ _ => true
  | .vorVI _ _ _ => true
  | .vxorVI _ _ _ => true
  | .vshlVI _ _ imm => decide (imm.toNat < 64)
  | .vshrVI _ _ imm => decide (imm.toNat < 64)
  | .vminVI _ _ _ => true
  | .vmaxVI _ _ _ => true
  | .vfaddVV _ _ _ m _ => maskOk m
  | .vfsubVV _ _ _ m _ => maskOk m
  | .vfmulVV _ _ _ m _ => maskOk m
  | .vfdivVV _ _ _ m _ => maskOk m
  | .vfmaVV _ _ _ m _ => maskOk m
  | .vfminVV _ _ _ m _ => maskOk m
  | .vfmaxVV _ _ _ m _ => maskOk m
  | .vfabs _ _ m _ => maskOk m
  | .vfsqrt _ _ m _ => maskOk m
  | .vfrcp _ _ m _ => maskOk m
  | .vfrsqrt _ _ m _ => maskOk m
  | .vfexp2 _ _ m _ => maskOk m
  | .vcvt _ _ _ m _ => maskOk m
  | .vfaddVS _ _ _ m _ => maskOk m
  | .vfsubVS _ _ _ m _ => maskOk m
  | .vfmulVS _ _ _ m _ => maskOk m
  | .vfdivVS _ _ _ m _ => maskOk m
  | .vfmaVS _ _ _ m _ => maskOk m
  | .vfminVS _ _ _ m _ => maskOk m
  | .vfmaxVS _ _ _ m _ => maskOk m
  | .vcmpEqVV d _ _ m => maskOk d && maskOk m
  | .vcmpNeVV d _ _ m => maskOk d && maskOk m
  | .vcmpLtVV d _ _ m => maskOk d && maskOk m
  | .vcmpLeVV d _ _ m => maskOk d && maskOk m
  | .vcmpUnordVV d _ _ m => maskOk d && maskOk m
  | .vcmpEqVS d _ _ m => maskOk d && maskOk m
  | .vcmpNeVS d _ _ m => maskOk d && maskOk m
  | .vcmpLtVS d _ _ m => maskOk d && maskOk m
  | .vcmpLeVS d _ _ m => maskOk d && maskOk m
  | .vcmpGtVS d _ _ m => maskOk d && maskOk m
  | .vcmpGeVS d _ _ m => maskOk d && maskOk m
  | .vredsum _ _ _ m => maskOk m
  | .vredsumo _ _ _ m => maskOk m
  | .vredmin _ _ _ m => maskOk m
  | .vredmax _ _ _ m => maskOk m
  | .vredand _ _ _ m => maskOk m
  | .vredor _ _ _ m => maskOk m
  | .vscan _ _ _ m _ => maskOk m
  | .vscanmax _ _ _ m _ => maskOk m
  | .vlift _ _ _ m => maskOk m
  | .vsink _ _ _ m => maskOk m
  | .vperm _ _ _ m => maskOk m
  | .vpress _ _ m => maskOk m
  | .vrank _ m => maskOk m
  | .vbcast _ _ m => maskOk m
  | .vextr _ _ _ => true
  | .vput _ _ _ => true
  | .vupd _ _ _ m => maskOk m
  | .vupdAdd _ _ _ m => maskOk m
  | .vtopk _ _ _ m => maskOk m
  | .mand d a b => maskOk d && maskOk a && maskOk b
  | .mor d a b => maskOk d && maskOk a && maskOk b
  | .mxor d a b => maskOk d && maskOk a && maskOk b
  | .mnot d a => maskOk d && maskOk a
  | .mpopc _ a => maskOk a
  | .mfirst _ a => maskOk a
  | .mtos _ a _ => maskOk a
  | .stom d _ _ => maskOk d
  | .mset d _ _ => maskOk d
  | .vld _ _ m _ _ => maskOk m
  | .vlds _ _ _ m _ _ => maskOk m
  | .vldx _ _ _ m _ _ => maskOk m
  | .vst _ _ m _ => maskOk m
  | .vsts _ _ _ m _ => maskOk m
  | .vstx _ _ _ m _ => maskOk m
  | .vstxa _ _ _ m _ _ => maskOk m
  | .vshare _ _ => true
  | .vcat _ _ _ => true
  | .vtrim _ _ _ _ => true
  | .vsplit d a _ => decide (d ≠ a)
  | .vpack _ _ => true
  | .vfree _ => true
  | .vdesc _ _ => true
  | .vlen _ _ => true
  | .clmap _ _ _ _ => true
  | .clcomp _ _ _ => true
  | .clscan _ _ => true
  | .clapply _ _ _ => true
  | .clmask d _ _ => maskOk d
  | .tbind _ _ => true
  | .ttgt _ => true
  | .twait _ => true
  | .tget _ _ => true
  | .tfree _ => true
  | .pat _ _ _ m _ => maskOk m
  | .hadd _ _ => true
  | .hsub _ _ => true
  | .hand _ _ => true
  | .hor _ _ => true
  | .hmov _ _ => true
  | .hinc _ _ => true
  | .hshl _ _ => true
  | .hldd _ _ _ => true
  | .hstd _ _ _ => true
  | .hbz _ _ => true
  | .hbnz _ _ => true
  | .hjmp _ => true
  | .hvadd _ _ => true
  | .mcfg tyA tyB acc _ _ _ _ _ => mcfgOk tyA tyB acc
  | .mma _ _ _ _ _ => true
  | .mmasp _ _ _ _ _ _ => true
  | .mzero u _ => decide (u.val ≠ 0)
  | .mdrain _ _ cv rm scaled _ s => decide (cv.val < 7) && roundOk rm && (!scaled || decide (cv.val ≠ 4)) && (scaled || decide (s.val = 0))
  | .mwait _ => true
  | .cpy _ _ cnt _ _ _ _ ctr => (cnt || decide (ctr.val = 0))
  | .cpyg _ _ cnt _ _ _ _ _ _ ctr _ => (cnt || decide (ctr.val = 0))
  | .cpys _ _ cnt _ _ _ _ _ ctr _ => (cnt || decide (ctr.val = 0))
  | .cpyf _ _ cnt _ _ _ _ ctr => (cnt || decide (ctr.val = 0))
  | .trapNone => true
  | .trapReadTsw => true
  | .trapReadViolationLog => true
  | .trapAbort => true
  | .trapRegisterFaultRecord => true
  | .trapResumeMcc => true
  | .exit => true
  | .yield => true
  | .xret => true
  | .hnop => true
  | .hwait => true
  | .hexit => true
  | .lbudWrite => true
  | .fflagsWrite => true
  | .vstartWrite => true
  | .clmodeWrite => true
  | .preqWrite => true
  | .tswpWrite => true
  | .registerWrite => true
  | .vectorCourse => true
  | .vectorEntryComplete => true
  | .readQueueReturn => true
  | .vectorFaultReport => true
  | .scalarFaultReport => true
  | .decodeFault => true
  | .exitPerform => true
  | .xretResume => true
  | .yieldEnd => true
  | .ffStallEnd => true
  | .leafAllocRetry => true
  | .reclaimStep => true
  | .watermarkWaitEnd => true
  | .barrierPhaseComplete => true
  | .leaveGrant => true
  | .powerBudgetSet => true
  | .powcapSet => true
  | .casPriorityExpiry => true
  | .memoryAccessComplete => true
  | .copyRow => true
  | .tileEntryExecute => true
  | .patternLoadBind => true
  | .queueBind => true
  | .packetAccept => true
  | .queueLinkPoll => true
  | .packetReadRetry => true
  | .launchStart => true
  | .coreAssign => true
  | .iterationHandout => true
  | .gangShareStart => true
  | .gangClusterChoice => true
  | .launchAgeing => true
  | .launchPreempt => true
  | .launchComplete => true
  | .coreSave => true
  | .coreRestore => true
  | .contextSwapOut => true
  | .contextSwapIn => true
  | .containment => true
  | .tlbInvalidate => true
  | .tlbInvalidateComplete => true
  | .pageWalk => true
  | .demandPageMap => true
  | .flitReceive => true
  | .flitReplay => true
  | .linkDown => true
  | .linkRetrain => true
  | .linkRetire => true
  | .hostLinkError => true
  | .deviceReset => true
  | .rollbackRaise => true
  | .attestationRequest => true
  | .correctedError => true
  | .patrolScrub => true
  | .linePoison => true
  | .scratchpadPoison => true
  | .leafError => true
  | .leafErrorCountClear => true
  | .freeListRebuild => true
  | .channelRetire => true
  | .healthBlockUpdate => true
  | .scrubPassCheck => true
  | .hostBarAccess => true
  | .contextCreate => true
  | .contextDestroy => true
  | .debuggerResume => true
  | .ethernetFrameReceive => true
  | .uncorrectableStructureError => true

end Sys2Proof
end

