-- ==== Sys2Proof/Decode.lean ====
section
/-!
DEFINITION. The decoder: parcels to instructions, total on any bytes, refusing by name (R88 to R112); and after
it the encoder. A parcel is a Nat below 2^32; the field of n bits at bit lo of w is w / 2^lo % 2^n.
-/

namespace Sys2Proof

/-- Why a parcel, or half of one, is no instruction (R112): every one of these is illegal instruction. -/
inductive DecErr where
  /-- Bits [31:26] are 0x00. -/
  | zeroParcel
  /-- Prefix 0x2F: both parcels are fetched, then illegal instruction at the first. -/
  | reservedPrefix
  /-- No row of the opcode map: an unlisted function or condition code, or a non-zero bit in a zero field. -/
  | unlisted
  /-- A field value that the group forbids: a mask field of 48 to 63, a rounding code, a type pair. -/
  | forbiddenField
  /-- A compressed code of 16 to 31, or a non-zero bit in a zero field of a compressed form. -/
  | reservedCompressed
  /-- Fewer bytes than the parcel needs. -/
  | tooShort
deriving DecidableEq, Repr

/-- A register field. -/
def fin32 (n : Nat) : Reg := Fin.ofNat 32 n
/-- A mask field. -/
def fin64 (n : Nat) : MaskF := Fin.ofNat 64 n
/-- A one-bit field. -/
def bit1 (n : Nat) : Bool := decide (n % 2 = 1)

/-- Major opcode 0x01 (R95 to R111). -/
def decodeInt (w : Nat) : Option Instr :=
  if w % 2 ^ 11 = 0 then some (.add (fin32 (w / 2 ^ 21)) (fin32 (w / 2 ^ 16)) (fin32 (w / 2 ^ 11))) else
  if w % 2 ^ 11 = 64 then some (.sub (fin32 (w / 2 ^ 21)) (fin32 (w / 2 ^ 16)) (fin32 (w / 2 ^ 11))) else
  if w % 2 ^ 11 = 128 then some (.mul (fin32 (w / 2 ^ 21)) (fin32 (w / 2 ^ 16)) (fin32 (w / 2 ^ 11))) else
  if w % 2 ^ 11 = 192 then some (.mulh (fin32 (w / 2 ^ 21)) (fin32 (w / 2 ^ 16)) (fin32 (w / 2 ^ 11))) else
  if w % 2 ^ 11 = 256 then some (.mulhn (fin32 (w / 2 ^ 21)) (fin32 (w / 2 ^ 16)) (fin32 (w / 2 ^ 11))) else
  if w % 2 ^ 11 = 320 then some (.div (fin32 (w / 2 ^ 21)) (fin32 (w / 2 ^ 16)) (fin32 (w / 2 ^ 11))) else
  if w % 2 ^ 11 = 384 then some (.divn (fin32 (w / 2 ^ 21)) (fin32 (w / 2 ^ 16)) (fin32 (w / 2 ^ 11))) else
  if w % 2 ^ 11 = 448 then some (.rem (fin32 (w / 2 ^ 21)) (fin32 (w / 2 ^ 16)) (fin32 (w / 2 ^ 11))) else
  if w % 2 ^ 11 = 512 then some (.remn (fin32 (w / 2 ^ 21)) (fin32 (w / 2 ^ 16)) (fin32 (w / 2 ^ 11))) else
  if w % 2 ^ 11 = 576 then some (.and (fin32 (w / 2 ^ 21)) (fin32 (w / 2 ^ 16)) (fin32 (w / 2 ^ 11))) else
  if w % 2 ^ 11 = 640 then some (.or (fin32 (w / 2 ^ 21)) (fin32 (w / 2 ^ 16)) (fin32 (w / 2 ^ 11))) else
  if w % 2 ^ 11 = 704 then some (.xor (fin32 (w / 2 ^ 21)) (fin32 (w / 2 ^ 16)) (fin32 (w / 2 ^ 11))) else
  if w % 2 ^ 11 = 768 then some (.shl (fin32 (w / 2 ^ 21)) (fin32 (w / 2 ^ 16)) (fin32 (w / 2 ^ 11))) else
  if w % 2 ^ 11 = 832 then some (.shr (fin32 (w / 2 ^ 21)) (fin32 (w / 2 ^ 16)) (fin32 (w / 2 ^ 11))) else
  if w % 2 ^ 11 = 896 then some (.sra (fin32 (w / 2 ^ 21)) (fin32 (w / 2 ^ 16)) (fin32 (w / 2 ^ 11))) else
  if w % 2 ^ 11 = 960 then some (.rot (fin32 (w / 2 ^ 21)) (fin32 (w / 2 ^ 16)) (fin32 (w / 2 ^ 11))) else
  if w % 2 ^ 11 = 1024 then some (.min (fin32 (w / 2 ^ 21)) (fin32 (w / 2 ^ 16)) (fin32 (w / 2 ^ 11))) else
  if w % 2 ^ 11 = 1088 then some (.max (fin32 (w / 2 ^ 21)) (fin32 (w / 2 ^ 16)) (fin32 (w / 2 ^ 11))) else
  if w % 2 ^ 11 = 1152 then some (.minn (fin32 (w / 2 ^ 21)) (fin32 (w / 2 ^ 16)) (fin32 (w / 2 ^ 11))) else
  if w % 2 ^ 11 = 1216 then some (.maxn (fin32 (w / 2 ^ 21)) (fin32 (w / 2 ^ 16)) (fin32 (w / 2 ^ 11))) else
  if w % 2 ^ 11 = 1280 then some (.slt (fin32 (w / 2 ^ 21)) (fin32 (w / 2 ^ 16)) (fin32 (w / 2 ^ 11))) else
  if w % 2 ^ 11 = 1344 then some (.sltn (fin32 (w / 2 ^ 21)) (fin32 (w / 2 ^ 16)) (fin32 (w / 2 ^ 11))) else
  if w % 2 ^ 11 = 1408 then some (.seq (fin32 (w / 2 ^ 21)) (fin32 (w / 2 ^ 16)) (fin32 (w / 2 ^ 11))) else
  if w / 2 ^ 5 % 2 ^ 6 = 46 then some (.csel (fin32 (w / 2 ^ 21)) (fin32 (w / 2 ^ 16)) (fin32 (w / 2 ^ 11)) (fin32 (w))) else
  if w % 2 ^ 16 = 1536 then some (.clz (fin32 (w / 2 ^ 21)) (fin32 (w / 2 ^ 16))) else
  if w % 2 ^ 16 = 1600 then some (.ctz (fin32 (w / 2 ^ 21)) (fin32 (w / 2 ^ 16))) else
  if w % 2 ^ 16 = 1664 then some (.popc (fin32 (w / 2 ^ 21)) (fin32 (w / 2 ^ 16))) else
  if w / 2 ^ 2 % 2 ^ 9 = 432 then some (.sext (fin32 (w / 2 ^ 21)) (fin32 (w / 2 ^ 16)) (fin32 (w / 2 ^ 11)) (Fin.ofNat 4 (w))) else
  if w / 2 ^ 2 % 2 ^ 9 = 448 then some (.zext (fin32 (w / 2 ^ 21)) (fin32 (w / 2 ^ 16)) (fin32 (w / 2 ^ 11)) (Fin.ofNat 4 (w))) else
  none

/-- Major opcode 0x02 (R95 to R111). -/
def decodeAddi (w : Nat) : Option Instr :=
  some (.addi (fin32 (w / 2 ^ 21)) (fin32 (w / 2 ^ 16)) (BitVec.ofNat 16 (w)))

/-- Major opcode 0x03 (R95 to R111). -/
def decodeAndi (w : Nat) : Option Instr :=
  some (.andi (fin32 (w / 2 ^ 21)) (fin32 (w / 2 ^ 16)) (BitVec.ofNat 16 (w)))

/-- Major opcode 0x04 (R95 to R111). -/
def decodeOri (w : Nat) : Option Instr :=
  some (.ori (fin32 (w / 2 ^ 21)) (fin32 (w / 2 ^ 16)) (BitVec.ofNat 16 (w)))

/-- Major opcode 0x05 (R95 to R111). -/
def decodeXori (w : Nat) : Option Instr :=
  some (.xori (fin32 (w / 2 ^ 21)) (fin32 (w / 2 ^ 16)) (BitVec.ofNat 16 (w)))

/-- Major opcode 0x06 (R95 to R111). -/
def decodeShifti (w : Nat) : Option Instr :=
  if w / 2 ^ 6 % 2 ^ 10 = 0 then some (.shli (fin32 (w / 2 ^ 21)) (fin32 (w / 2 ^ 16)) (Fin.ofNat 64 (w))) else
  if w / 2 ^ 6 % 2 ^ 10 = 256 then some (.shri (fin32 (w / 2 ^ 21)) (fin32 (w / 2 ^ 16)) (Fin.ofNat 64 (w))) else
  if w / 2 ^ 6 % 2 ^ 10 = 512 then some (.srai (fin32 (w / 2 ^ 21)) (fin32 (w / 2 ^ 16)) (Fin.ofNat 64 (w))) else
  none

/-- Major opcode 0x07 (R95 to R111). -/
def decodeLim (w : Nat) : Option Instr :=
  if w / 2 ^ 18 % 2 ^ 3 = 0 then some (.lim (fin32 (w / 2 ^ 21)) (Fin.ofNat 4 (w / 2 ^ 16)) (BitVec.ofNat 16 (w))) else
  if w / 2 ^ 18 % 2 ^ 3 = 1 then some (.limK (fin32 (w / 2 ^ 21)) (Fin.ofNat 4 (w / 2 ^ 16)) (BitVec.ofNat 16 (w))) else
  none

/-- Major opcode 0x08 (R95 to R111). -/
def decodeSlti (w : Nat) : Option Instr :=
  some (.slti (fin32 (w / 2 ^ 21)) (fin32 (w / 2 ^ 16)) (BitVec.ofNat 16 (w)))

/-- Major opcode 0x09 (R95 to R111). -/
def decodeSltni (w : Nat) : Option Instr :=
  some (.sltni (fin32 (w / 2 ^ 21)) (fin32 (w / 2 ^ 16)) (BitVec.ofNat 16 (w)))

/-- Major opcode 0x0A (R95 to R111). -/
def decodeFp (w : Nat) : Option Instr :=
  if w / 2 ^ 3 % 2 ^ 1 = 0 ∧ w / 2 ^ 6 % 2 ^ 5 = 0 then some (.fadd (fin32 (w / 2 ^ 21)) (fin32 (w / 2 ^ 16)) (fin32 (w / 2 ^ 11)) (Fin.ofNat 4 (w / 2 ^ 4)) (Fin.ofNat 8 (w))) else
  if w / 2 ^ 3 % 2 ^ 1 = 0 ∧ w / 2 ^ 6 % 2 ^ 5 = 1 then some (.fsub (fin32 (w / 2 ^ 21)) (fin32 (w / 2 ^ 16)) (fin32 (w / 2 ^ 11)) (Fin.ofNat 4 (w / 2 ^ 4)) (Fin.ofNat 8 (w))) else
  if w / 2 ^ 3 % 2 ^ 1 = 0 ∧ w / 2 ^ 6 % 2 ^ 5 = 2 then some (.fmul (fin32 (w / 2 ^ 21)) (fin32 (w / 2 ^ 16)) (fin32 (w / 2 ^ 11)) (Fin.ofNat 4 (w / 2 ^ 4)) (Fin.ofNat 8 (w))) else
  if w / 2 ^ 3 % 2 ^ 1 = 0 ∧ w / 2 ^ 6 % 2 ^ 5 = 3 then some (.fdiv (fin32 (w / 2 ^ 21)) (fin32 (w / 2 ^ 16)) (fin32 (w / 2 ^ 11)) (Fin.ofNat 4 (w / 2 ^ 4)) (Fin.ofNat 8 (w))) else
  if w / 2 ^ 3 % 2 ^ 1 = 0 ∧ w / 2 ^ 6 % 2 ^ 10 = 4 then some (.fsqrt (fin32 (w / 2 ^ 21)) (fin32 (w / 2 ^ 16)) (Fin.ofNat 4 (w / 2 ^ 4)) (Fin.ofNat 8 (w))) else
  if w / 2 ^ 3 % 2 ^ 1 = 0 ∧ w / 2 ^ 6 % 2 ^ 5 = 5 then some (.fma (fin32 (w / 2 ^ 21)) (fin32 (w / 2 ^ 16)) (fin32 (w / 2 ^ 11)) (Fin.ofNat 4 (w / 2 ^ 4)) (Fin.ofNat 8 (w))) else
  if w % 2 ^ 4 = 7 ∧ w / 2 ^ 6 % 2 ^ 5 = 6 then some (.fmin (fin32 (w / 2 ^ 21)) (fin32 (w / 2 ^ 16)) (fin32 (w / 2 ^ 11)) (Fin.ofNat 4 (w / 2 ^ 4))) else
  if w % 2 ^ 4 = 7 ∧ w / 2 ^ 6 % 2 ^ 5 = 7 then some (.fmax (fin32 (w / 2 ^ 21)) (fin32 (w / 2 ^ 16)) (fin32 (w / 2 ^ 11)) (Fin.ofNat 4 (w / 2 ^ 4))) else
  if w % 2 ^ 4 = 7 ∧ w / 2 ^ 6 % 2 ^ 5 = 8 then some (.feq (fin32 (w / 2 ^ 21)) (fin32 (w / 2 ^ 16)) (fin32 (w / 2 ^ 11)) (Fin.ofNat 4 (w / 2 ^ 4))) else
  if w % 2 ^ 4 = 7 ∧ w / 2 ^ 6 % 2 ^ 5 = 9 then some (.flt (fin32 (w / 2 ^ 21)) (fin32 (w / 2 ^ 16)) (fin32 (w / 2 ^ 11)) (Fin.ofNat 4 (w / 2 ^ 4))) else
  if w % 2 ^ 4 = 7 ∧ w / 2 ^ 6 % 2 ^ 5 = 10 then some (.fle (fin32 (w / 2 ^ 21)) (fin32 (w / 2 ^ 16)) (fin32 (w / 2 ^ 11)) (Fin.ofNat 4 (w / 2 ^ 4))) else
  if w / 2 ^ 3 % 2 ^ 1 = 0 ∧ w / 2 ^ 6 % 2 ^ 5 = 11 ∧ w / 2 ^ 13 % 2 ^ 3 = 0 then some (.fcvt (fin32 (w / 2 ^ 21)) (fin32 (w / 2 ^ 16)) (Fin.ofNat 4 (w / 2 ^ 11)) (Fin.ofNat 4 (w / 2 ^ 4)) (Fin.ofNat 8 (w))) else
  if w / 2 ^ 3 % 2 ^ 1 = 0 ∧ w / 2 ^ 6 % 2 ^ 5 = 12 ∧ w / 2 ^ 14 % 2 ^ 2 = 0 then some (.fcvti (fin32 (w / 2 ^ 21)) (fin32 (w / 2 ^ 16)) (Fin.ofNat 8 (w / 2 ^ 11)) (Fin.ofNat 4 (w / 2 ^ 4)) (Fin.ofNat 8 (w))) else
  if w / 2 ^ 3 % 2 ^ 1 = 0 ∧ w / 2 ^ 6 % 2 ^ 5 = 13 ∧ w / 2 ^ 14 % 2 ^ 2 = 0 then some (.fcvtf (fin32 (w / 2 ^ 21)) (fin32 (w / 2 ^ 16)) (Fin.ofNat 8 (w / 2 ^ 11)) (Fin.ofNat 4 (w / 2 ^ 4)) (Fin.ofNat 8 (w))) else
  none

/-- Major opcode 0x0B (R95 to R111). -/
def decodeLd (w : Nat) : Option Instr :=
  some (.ld (fin32 (w / 2 ^ 21)) (fin32 (w / 2 ^ 16)) (Fin.ofNat 4 (w / 2 ^ 14)) (bit1 (w / 2 ^ 13)) (Fin.ofNat 16 (w / 2 ^ 9)) (BitVec.ofNat 9 (w)))

/-- Major opcode 0x0C (R95 to R111). -/
def decodeSt (w : Nat) : Option Instr :=
  if w / 2 ^ 13 % 2 ^ 1 = 0 then some (.st (fin32 (w / 2 ^ 21)) (fin32 (w / 2 ^ 16)) (Fin.ofNat 4 (w / 2 ^ 14)) (Fin.ofNat 16 (w / 2 ^ 9)) (BitVec.ofNat 9 (w))) else
  none

/-- Major opcode 0x0D (R95 to R111). -/
def decodeAmo (w : Nat) : Option Instr :=
  if w % 2 ^ 1 = 0 ∧ w / 2 ^ 6 % 2 ^ 5 = 0 then some (.amoadd (fin32 (w / 2 ^ 21)) (fin32 (w / 2 ^ 16)) (fin32 (w / 2 ^ 11)) (bit1 (w / 2 ^ 5)) (Fin.ofNat 4 (w / 2 ^ 3)) (Fin.ofNat 4 (w / 2 ^ 1))) else
  if w % 2 ^ 1 = 0 ∧ w / 2 ^ 6 % 2 ^ 5 = 1 then some (.amoand (fin32 (w / 2 ^ 21)) (fin32 (w / 2 ^ 16)) (fin32 (w / 2 ^ 11)) (bit1 (w / 2 ^ 5)) (Fin.ofNat 4 (w / 2 ^ 3)) (Fin.ofNat 4 (w / 2 ^ 1))) else
  if w % 2 ^ 1 = 0 ∧ w / 2 ^ 6 % 2 ^ 5 = 2 then some (.amoor (fin32 (w / 2 ^ 21)) (fin32 (w / 2 ^ 16)) (fin32 (w / 2 ^ 11)) (bit1 (w / 2 ^ 5)) (Fin.ofNat 4 (w / 2 ^ 3)) (Fin.ofNat 4 (w / 2 ^ 1))) else
  if w % 2 ^ 1 = 0 ∧ w / 2 ^ 6 % 2 ^ 5 = 3 then some (.amoxor (fin32 (w / 2 ^ 21)) (fin32 (w / 2 ^ 16)) (fin32 (w / 2 ^ 11)) (bit1 (w / 2 ^ 5)) (Fin.ofNat 4 (w / 2 ^ 3)) (Fin.ofNat 4 (w / 2 ^ 1))) else
  if w / 2 ^ 6 % 2 ^ 5 = 4 then some (.amomin (fin32 (w / 2 ^ 21)) (fin32 (w / 2 ^ 16)) (fin32 (w / 2 ^ 11)) (bit1 (w / 2 ^ 5)) (Fin.ofNat 4 (w / 2 ^ 3)) (Fin.ofNat 4 (w / 2 ^ 1)) (bit1 (w))) else
  if w / 2 ^ 6 % 2 ^ 5 = 5 then some (.amomax (fin32 (w / 2 ^ 21)) (fin32 (w / 2 ^ 16)) (fin32 (w / 2 ^ 11)) (bit1 (w / 2 ^ 5)) (Fin.ofNat 4 (w / 2 ^ 3)) (Fin.ofNat 4 (w / 2 ^ 1)) (bit1 (w))) else
  if w % 2 ^ 1 = 0 ∧ w / 2 ^ 6 % 2 ^ 5 = 6 then some (.amoswap (fin32 (w / 2 ^ 21)) (fin32 (w / 2 ^ 16)) (fin32 (w / 2 ^ 11)) (bit1 (w / 2 ^ 5)) (Fin.ofNat 4 (w / 2 ^ 3)) (Fin.ofNat 4 (w / 2 ^ 1))) else
  if w % 2 ^ 1 = 0 ∧ w / 2 ^ 6 % 2 ^ 5 = 7 then some (.amofadd (fin32 (w / 2 ^ 21)) (fin32 (w / 2 ^ 16)) (fin32 (w / 2 ^ 11)) (bit1 (w / 2 ^ 5)) (Fin.ofNat 4 (w / 2 ^ 3)) (Fin.ofNat 4 (w / 2 ^ 1))) else
  none

/-- Major opcode 0x0E (R95 to R111). -/
def decodeCas (w : Nat) : Option Instr :=
  if w % 2 ^ 1 = 0 ∧ w / 2 ^ 6 % 2 ^ 5 = 0 then some (.cas (fin32 (w / 2 ^ 21)) (fin32 (w / 2 ^ 16)) (fin32 (w / 2 ^ 11)) (bit1 (w / 2 ^ 5)) (Fin.ofNat 4 (w / 2 ^ 3)) (Fin.ofNat 4 (w / 2 ^ 1))) else
  none

/-- Major opcode 0x0F (R95 to R111). -/
def decodeBc (w : Nat) : Option Instr :=
  if w / 2 ^ 23 % 2 ^ 3 = 0 then some (.beq (fin32 (w / 2 ^ 18)) (fin32 (w / 2 ^ 13)) (BitVec.ofNat 13 (w))) else
  if w / 2 ^ 23 % 2 ^ 3 = 1 then some (.bne (fin32 (w / 2 ^ 18)) (fin32 (w / 2 ^ 13)) (BitVec.ofNat 13 (w))) else
  if w / 2 ^ 23 % 2 ^ 3 = 2 then some (.blt (fin32 (w / 2 ^ 18)) (fin32 (w / 2 ^ 13)) (BitVec.ofNat 13 (w))) else
  if w / 2 ^ 23 % 2 ^ 3 = 3 then some (.bge (fin32 (w / 2 ^ 18)) (fin32 (w / 2 ^ 13)) (BitVec.ofNat 13 (w))) else
  if w / 2 ^ 23 % 2 ^ 3 = 4 then some (.bltn (fin32 (w / 2 ^ 18)) (fin32 (w / 2 ^ 13)) (BitVec.ofNat 13 (w))) else
  if w / 2 ^ 23 % 2 ^ 3 = 5 then some (.bgen (fin32 (w / 2 ^ 18)) (fin32 (w / 2 ^ 13)) (BitVec.ofNat 13 (w))) else
  none

/-- Major opcode 0x10 (R95 to R111). -/
def decodeJal (w : Nat) : Option Instr :=
  some (.jal (BitVec.ofNat 26 (w)))

/-- Major opcode 0x11 (R95 to R111). -/
def decodeJr (w : Nat) : Option Instr :=
  some (.jr (fin32 (w / 2 ^ 21)) (fin32 (w / 2 ^ 16)) (BitVec.ofNat 16 (w)))

/-- Major opcode 0x12 (R95 to R111). -/
def decodeJt (w : Nat) : Option Instr :=
  if w / 2 ^ 21 % 2 ^ 5 = 0 then some (.jt (fin32 (w / 2 ^ 16)) (fin32 (w / 2 ^ 11)) (Fin.ofNat 2048 (w))) else
  none

/-- Major opcode 0x13 (R95 to R111). -/
def decodeBstrip (w : Nat) : Option Instr :=
  if w / 2 ^ 13 % 2 ^ 5 = 0 ∧ w / 2 ^ 23 % 2 ^ 3 = 0 then some (.bstrip (fin32 (w / 2 ^ 18)) (BitVec.ofNat 13 (w))) else
  none

/-- Major opcode 0x14 (R95 to R111). -/
def decodeSys (w : Nat) : Option Instr :=
  if w % 2 ^ 26 = 0 then some (.trapNone) else
  if w % 2 ^ 26 = 1 then some (.trapReadTsw) else
  if w % 2 ^ 26 = 2 then some (.trapReadViolationLog) else
  if w % 2 ^ 26 = 3 then some (.trapAbort) else
  if w % 2 ^ 26 = 8 then some (.trapRegisterFaultRecord) else
  if w % 2 ^ 26 = 9 then some (.trapResumeMcc) else
  if w / 2 ^ 6 % 2 ^ 20 = 0 then some (.trapUnassigned (Fin.ofNat 64 (w))) else
  if w / 2 ^ 6 % 2 ^ 20 = 1 then some (.brk (Fin.ofNat 64 (w))) else
  if w % 2 ^ 26 = 128 then some (.exit) else
  if w % 2 ^ 26 = 192 then some (.yield) else
  if w % 2 ^ 26 = 256 then some (.xret) else
  if w % 2 ^ 16 = 320 ∧ w / 2 ^ 21 % 2 ^ 5 = 0 then some (.leave (fin32 (w / 2 ^ 16))) else
  none

/-- Major opcode 0x15 (R95 to R111). -/
def decodeCsr (w : Nat) : Option Instr :=
  if w / 2 ^ 12 % 2 ^ 9 = 0 then some (.csrr (fin32 (w / 2 ^ 21)) (Fin.ofNat 4096 (w))) else
  if w / 2 ^ 12 % 2 ^ 4 = 4 ∧ w / 2 ^ 21 % 2 ^ 5 = 0 then some (.csrw (fin32 (w / 2 ^ 16)) (Fin.ofNat 4096 (w))) else
  none

/-- Major opcode 0x16 (R95 to R111). -/
def decodeSync (w : Nat) : Option Instr :=
  if w % 2 ^ 2 = 0 ∧ w / 2 ^ 6 % 2 ^ 10 = 0 ∧ w / 2 ^ 21 % 2 ^ 5 = 0 then some (.fence (fin32 (w / 2 ^ 16)) (Fin.ofNat 4 (w / 2 ^ 4)) (Fin.ofNat 4 (w / 2 ^ 2))) else
  if w / 2 ^ 5 % 2 ^ 21 = 2 then some (.qfence (Fin.ofNat 32 (w))) else
  if w / 2 ^ 5 % 2 ^ 6 = 4 then some (.wait (Fin.ofNat 32 (w / 2 ^ 21)) (Fin.ofNat 32 (w / 2 ^ 16)) (Fin.ofNat 32 (w / 2 ^ 11)) (Fin.ofNat 32 (w))) else
  if w / 2 ^ 4 % 2 ^ 22 = 12 then some (.bar (Fin.ofNat 16 (w))) else
  if w % 2 ^ 11 = 256 ∧ w / 2 ^ 21 % 2 ^ 5 = 0 then some (.wmpub (fin32 (w / 2 ^ 16)) (fin32 (w / 2 ^ 11))) else
  if w % 2 ^ 11 = 320 then some (.apnd (fin32 (w / 2 ^ 21)) (fin32 (w / 2 ^ 16)) (fin32 (w / 2 ^ 11))) else
  if w % 2 ^ 11 = 384 then some (.apub (fin32 (w / 2 ^ 21)) (fin32 (w / 2 ^ 16)) (fin32 (w / 2 ^ 11))) else
  if w / 2 ^ 2 % 2 ^ 14 = 112 ∧ w / 2 ^ 21 % 2 ^ 5 = 0 then some (.bkset (fin32 (w / 2 ^ 16)) (Fin.ofNat 4 (w))) else
  if w / 2 ^ 2 % 2 ^ 24 = 128 then some (.bkclr (Fin.ofNat 4 (w))) else
  none

/-- Major opcode 0x17 (R95 to R111). -/
def decodeVsetl (w : Nat) : Option Instr :=
  if w % 2 ^ 1 = 0 ∧ w / 2 ^ 11 % 2 ^ 5 = 0 then some (.vsetl (fin32 (w / 2 ^ 21)) (fin32 (w / 2 ^ 16)) (Fin.ofNat 16 (w / 2 ^ 7)) (Fin.ofNat 8 (w / 2 ^ 4)) (Fin.ofNat 8 (w / 2 ^ 1))) else
  none

/-- Major opcode 0x18 (R95 to R111). -/
def decodeVsetlw (w : Nat) : Option Instr :=
  if w % 2 ^ 1 = 0 then some (.vsetlw (fin32 (w / 2 ^ 21)) (fin32 (w / 2 ^ 16)) (fin32 (w / 2 ^ 11)) (Fin.ofNat 16 (w / 2 ^ 7)) (Fin.ofNat 8 (w / 2 ^ 4)) (Fin.ofNat 8 (w / 2 ^ 1))) else
  none

/-- Major opcode 0x19 (R95 to R111). -/
def decodeVintVV (w : Nat) : Option Instr :=
  if w % 2 ^ 4 = 0 then some (.vaddVV (fin32 (w / 2 ^ 21)) (fin32 (w / 2 ^ 16)) (fin32 (w / 2 ^ 11)) (fin64 (w / 2 ^ 5)) (bit1 (w / 2 ^ 4))) else
  if w % 2 ^ 4 = 1 then some (.vsubVV (fin32 (w / 2 ^ 21)) (fin32 (w / 2 ^ 16)) (fin32 (w / 2 ^ 11)) (fin64 (w / 2 ^ 5)) (bit1 (w / 2 ^ 4))) else
  if w % 2 ^ 4 = 2 then some (.vmulVV (fin32 (w / 2 ^ 21)) (fin32 (w / 2 ^ 16)) (fin32 (w / 2 ^ 11)) (fin64 (w / 2 ^ 5)) (bit1 (w / 2 ^ 4))) else
  if w % 2 ^ 4 = 3 then some (.vmulhVV (fin32 (w / 2 ^ 21)) (fin32 (w / 2 ^ 16)) (fin32 (w / 2 ^ 11)) (fin64 (w / 2 ^ 5)) (bit1 (w / 2 ^ 4))) else
  if w % 2 ^ 4 = 4 then some (.vdivVV (fin32 (w / 2 ^ 21)) (fin32 (w / 2 ^ 16)) (fin32 (w / 2 ^ 11)) (fin64 (w / 2 ^ 5)) (bit1 (w / 2 ^ 4))) else
  if w % 2 ^ 4 = 5 then some (.vremVV (fin32 (w / 2 ^ 21)) (fin32 (w / 2 ^ 16)) (fin32 (w / 2 ^ 11)) (fin64 (w / 2 ^ 5)) (bit1 (w / 2 ^ 4))) else
  if w % 2 ^ 4 = 6 then some (.vminVV (fin32 (w / 2 ^ 21)) (fin32 (w / 2 ^ 16)) (fin32 (w / 2 ^ 11)) (fin64 (w / 2 ^ 5)) (bit1 (w / 2 ^ 4))) else
  if w % 2 ^ 4 = 7 then some (.vmaxVV (fin32 (w / 2 ^ 21)) (fin32 (w / 2 ^ 16)) (fin32 (w / 2 ^ 11)) (fin64 (w / 2 ^ 5)) (bit1 (w / 2 ^ 4))) else
  if w % 2 ^ 4 = 8 then some (.vaddsVV (fin32 (w / 2 ^ 21)) (fin32 (w / 2 ^ 16)) (fin32 (w / 2 ^ 11)) (fin64 (w / 2 ^ 5)) (bit1 (w / 2 ^ 4))) else
  if w % 2 ^ 4 = 9 then some (.vsubsVV (fin32 (w / 2 ^ 21)) (fin32 (w / 2 ^ 16)) (fin32 (w / 2 ^ 11)) (fin64 (w / 2 ^ 5)) (bit1 (w / 2 ^ 4))) else
  if w % 2 ^ 4 = 10 then some (.vandVV (fin32 (w / 2 ^ 21)) (fin32 (w / 2 ^ 16)) (fin32 (w / 2 ^ 11)) (fin64 (w / 2 ^ 5)) (bit1 (w / 2 ^ 4))) else
  if w % 2 ^ 4 = 11 then some (.vorVV (fin32 (w / 2 ^ 21)) (fin32 (w / 2 ^ 16)) (fin32 (w / 2 ^ 11)) (fin64 (w / 2 ^ 5)) (bit1 (w / 2 ^ 4))) else
  if w % 2 ^ 4 = 12 then some (.vxorVV (fin32 (w / 2 ^ 21)) (fin32 (w / 2 ^ 16)) (fin32 (w / 2 ^ 11)) (fin64 (w / 2 ^ 5)) (bit1 (w / 2 ^ 4))) else
  if w % 2 ^ 4 = 13 then some (.vshlVV (fin32 (w / 2 ^ 21)) (fin32 (w / 2 ^ 16)) (fin32 (w / 2 ^ 11)) (fin64 (w / 2 ^ 5)) (bit1 (w / 2 ^ 4))) else
  if w % 2 ^ 4 = 14 then some (.vshrVV (fin32 (w / 2 ^ 21)) (fin32 (w / 2 ^ 16)) (fin32 (w / 2 ^ 11)) (fin64 (w / 2 ^ 5)) (bit1 (w / 2 ^ 4))) else
  none

/-- Major opcode 0x1A (R95 to R111). -/
def decodeVintVS (w : Nat) : Option Instr :=
  if w % 2 ^ 4 = 0 then some (.vaddVS (fin32 (w / 2 ^ 21)) (fin32 (w / 2 ^ 16)) (fin32 (w / 2 ^ 11)) (fin64 (w / 2 ^ 5)) (bit1 (w / 2 ^ 4))) else
  if w % 2 ^ 4 = 1 then some (.vsubVS (fin32 (w / 2 ^ 21)) (fin32 (w / 2 ^ 16)) (fin32 (w / 2 ^ 11)) (fin64 (w / 2 ^ 5)) (bit1 (w / 2 ^ 4))) else
  if w % 2 ^ 4 = 2 then some (.vrsubVS (fin32 (w / 2 ^ 21)) (fin32 (w / 2 ^ 16)) (fin32 (w / 2 ^ 11)) (fin64 (w / 2 ^ 5)) (bit1 (w / 2 ^ 4))) else
  if w % 2 ^ 4 = 3 then some (.vmulVS (fin32 (w / 2 ^ 21)) (fin32 (w / 2 ^ 16)) (fin32 (w / 2 ^ 11)) (fin64 (w / 2 ^ 5)) (bit1 (w / 2 ^ 4))) else
  if w % 2 ^ 4 = 4 then some (.vmulhVS (fin32 (w / 2 ^ 21)) (fin32 (w / 2 ^ 16)) (fin32 (w / 2 ^ 11)) (fin64 (w / 2 ^ 5)) (bit1 (w / 2 ^ 4))) else
  if w % 2 ^ 4 = 5 then some (.vminVS (fin32 (w / 2 ^ 21)) (fin32 (w / 2 ^ 16)) (fin32 (w / 2 ^ 11)) (fin64 (w / 2 ^ 5)) (bit1 (w / 2 ^ 4))) else
  if w % 2 ^ 4 = 6 then some (.vmaxVS (fin32 (w / 2 ^ 21)) (fin32 (w / 2 ^ 16)) (fin32 (w / 2 ^ 11)) (fin64 (w / 2 ^ 5)) (bit1 (w / 2 ^ 4))) else
  if w % 2 ^ 4 = 7 then some (.vaddsVS (fin32 (w / 2 ^ 21)) (fin32 (w / 2 ^ 16)) (fin32 (w / 2 ^ 11)) (fin64 (w / 2 ^ 5)) (bit1 (w / 2 ^ 4))) else
  if w % 2 ^ 4 = 8 then some (.vsubsVS (fin32 (w / 2 ^ 21)) (fin32 (w / 2 ^ 16)) (fin32 (w / 2 ^ 11)) (fin64 (w / 2 ^ 5)) (bit1 (w / 2 ^ 4))) else
  if w % 2 ^ 4 = 9 then some (.vandVS (fin32 (w / 2 ^ 21)) (fin32 (w / 2 ^ 16)) (fin32 (w / 2 ^ 11)) (fin64 (w / 2 ^ 5)) (bit1 (w / 2 ^ 4))) else
  if w % 2 ^ 4 = 10 then some (.vorVS (fin32 (w / 2 ^ 21)) (fin32 (w / 2 ^ 16)) (fin32 (w / 2 ^ 11)) (fin64 (w / 2 ^ 5)) (bit1 (w / 2 ^ 4))) else
  if w % 2 ^ 4 = 11 then some (.vxorVS (fin32 (w / 2 ^ 21)) (fin32 (w / 2 ^ 16)) (fin32 (w / 2 ^ 11)) (fin64 (w / 2 ^ 5)) (bit1 (w / 2 ^ 4))) else
  if w % 2 ^ 4 = 12 then some (.vshlVS (fin32 (w / 2 ^ 21)) (fin32 (w / 2 ^ 16)) (fin32 (w / 2 ^ 11)) (fin64 (w / 2 ^ 5)) (bit1 (w / 2 ^ 4))) else
  if w % 2 ^ 4 = 13 then some (.vshrVS (fin32 (w / 2 ^ 21)) (fin32 (w / 2 ^ 16)) (fin32 (w / 2 ^ 11)) (fin64 (w / 2 ^ 5)) (bit1 (w / 2 ^ 4))) else
  none

/-- Major opcode 0x1B (R95 to R111). -/
def decodeVintVI (w : Nat) : Option Instr :=
  if w % 2 ^ 5 = 0 then some (.vaddVI (fin32 (w / 2 ^ 21)) (fin32 (w / 2 ^ 16)) (BitVec.ofNat 11 (w / 2 ^ 5))) else
  if w % 2 ^ 5 = 1 then some (.vrsubVI (fin32 (w / 2 ^ 21)) (fin32 (w / 2 ^ 16)) (BitVec.ofNat 11 (w / 2 ^ 5))) else
  if w % 2 ^ 5 = 2 then some (.vandVI (fin32 (w / 2 ^ 21)) (fin32 (w / 2 ^ 16)) (BitVec.ofNat 11 (w / 2 ^ 5))) else
  if w % 2 ^ 5 = 3 then some (.vorVI (fin32 (w / 2 ^ 21)) (fin32 (w / 2 ^ 16)) (BitVec.ofNat 11 (w / 2 ^ 5))) else
  if w % 2 ^ 5 = 4 then some (.vxorVI (fin32 (w / 2 ^ 21)) (fin32 (w / 2 ^ 16)) (BitVec.ofNat 11 (w / 2 ^ 5))) else
  if w % 2 ^ 5 = 5 then some (.vshlVI (fin32 (w / 2 ^ 21)) (fin32 (w / 2 ^ 16)) (BitVec.ofNat 11 (w / 2 ^ 5))) else
  if w % 2 ^ 5 = 6 then some (.vshrVI (fin32 (w / 2 ^ 21)) (fin32 (w / 2 ^ 16)) (BitVec.ofNat 11 (w / 2 ^ 5))) else
  if w % 2 ^ 5 = 7 then some (.vminVI (fin32 (w / 2 ^ 21)) (fin32 (w / 2 ^ 16)) (BitVec.ofNat 11 (w / 2 ^ 5))) else
  if w % 2 ^ 5 = 8 then some (.vmaxVI (fin32 (w / 2 ^ 21)) (fin32 (w / 2 ^ 16)) (BitVec.ofNat 11 (w / 2 ^ 5))) else
  none

/-- Major opcode 0x1C (R95 to R111). -/
def decodeVfpVV (w : Nat) : Option Instr :=
  if w % 2 ^ 4 = 0 then some (.vfaddVV (fin32 (w / 2 ^ 21)) (fin32 (w / 2 ^ 16)) (fin32 (w / 2 ^ 11)) (fin64 (w / 2 ^ 5)) (bit1 (w / 2 ^ 4))) else
  if w % 2 ^ 4 = 1 then some (.vfsubVV (fin32 (w / 2 ^ 21)) (fin32 (w / 2 ^ 16)) (fin32 (w / 2 ^ 11)) (fin64 (w / 2 ^ 5)) (bit1 (w / 2 ^ 4))) else
  if w % 2 ^ 4 = 2 then some (.vfmulVV (fin32 (w / 2 ^ 21)) (fin32 (w / 2 ^ 16)) (fin32 (w / 2 ^ 11)) (fin64 (w / 2 ^ 5)) (bit1 (w / 2 ^ 4))) else
  if w % 2 ^ 4 = 3 then some (.vfdivVV (fin32 (w / 2 ^ 21)) (fin32 (w / 2 ^ 16)) (fin32 (w / 2 ^ 11)) (fin64 (w / 2 ^ 5)) (bit1 (w / 2 ^ 4))) else
  if w % 2 ^ 4 = 4 then some (.vfmaVV (fin32 (w / 2 ^ 21)) (fin32 (w / 2 ^ 16)) (fin32 (w / 2 ^ 11)) (fin64 (w / 2 ^ 5)) (bit1 (w / 2 ^ 4))) else
  if w % 2 ^ 4 = 5 then some (.vfminVV (fin32 (w / 2 ^ 21)) (fin32 (w / 2 ^ 16)) (fin32 (w / 2 ^ 11)) (fin64 (w / 2 ^ 5)) (bit1 (w / 2 ^ 4))) else
  if w % 2 ^ 4 = 6 then some (.vfmaxVV (fin32 (w / 2 ^ 21)) (fin32 (w / 2 ^ 16)) (fin32 (w / 2 ^ 11)) (fin64 (w / 2 ^ 5)) (bit1 (w / 2 ^ 4))) else
  if w % 2 ^ 4 = 7 ∧ w / 2 ^ 11 % 2 ^ 5 = 0 then some (.vfabs (fin32 (w / 2 ^ 21)) (fin32 (w / 2 ^ 16)) (fin64 (w / 2 ^ 5)) (bit1 (w / 2 ^ 4))) else
  if w % 2 ^ 4 = 8 ∧ w / 2 ^ 11 % 2 ^ 5 = 0 then some (.vfsqrt (fin32 (w / 2 ^ 21)) (fin32 (w / 2 ^ 16)) (fin64 (w / 2 ^ 5)) (bit1 (w / 2 ^ 4))) else
  if w % 2 ^ 4 = 9 ∧ w / 2 ^ 11 % 2 ^ 5 = 0 then some (.vfrcp (fin32 (w / 2 ^ 21)) (fin32 (w / 2 ^ 16)) (fin64 (w / 2 ^ 5)) (bit1 (w / 2 ^ 4))) else
  if w % 2 ^ 4 = 10 ∧ w / 2 ^ 11 % 2 ^ 5 = 0 then some (.vfrsqrt (fin32 (w / 2 ^ 21)) (fin32 (w / 2 ^ 16)) (fin64 (w / 2 ^ 5)) (bit1 (w / 2 ^ 4))) else
  if w % 2 ^ 4 = 11 ∧ w / 2 ^ 11 % 2 ^ 5 = 0 then some (.vfexp2 (fin32 (w / 2 ^ 21)) (fin32 (w / 2 ^ 16)) (fin64 (w / 2 ^ 5)) (bit1 (w / 2 ^ 4))) else
  if w % 2 ^ 4 = 12 ∧ w / 2 ^ 15 % 2 ^ 1 = 0 then some (.vcvt (fin32 (w / 2 ^ 21)) (fin32 (w / 2 ^ 16)) (Fin.ofNat 16 (w / 2 ^ 11)) (fin64 (w / 2 ^ 5)) (bit1 (w / 2 ^ 4))) else
  none

/-- Major opcode 0x1D (R95 to R111). -/
def decodeVfpVS (w : Nat) : Option Instr :=
  if w % 2 ^ 4 = 0 then some (.vfaddVS (fin32 (w / 2 ^ 21)) (fin32 (w / 2 ^ 16)) (fin32 (w / 2 ^ 11)) (fin64 (w / 2 ^ 5)) (bit1 (w / 2 ^ 4))) else
  if w % 2 ^ 4 = 1 then some (.vfsubVS (fin32 (w / 2 ^ 21)) (fin32 (w / 2 ^ 16)) (fin32 (w / 2 ^ 11)) (fin64 (w / 2 ^ 5)) (bit1 (w / 2 ^ 4))) else
  if w % 2 ^ 4 = 2 then some (.vfmulVS (fin32 (w / 2 ^ 21)) (fin32 (w / 2 ^ 16)) (fin32 (w / 2 ^ 11)) (fin64 (w / 2 ^ 5)) (bit1 (w / 2 ^ 4))) else
  if w % 2 ^ 4 = 3 then some (.vfdivVS (fin32 (w / 2 ^ 21)) (fin32 (w / 2 ^ 16)) (fin32 (w / 2 ^ 11)) (fin64 (w / 2 ^ 5)) (bit1 (w / 2 ^ 4))) else
  if w % 2 ^ 4 = 4 then some (.vfmaVS (fin32 (w / 2 ^ 21)) (fin32 (w / 2 ^ 16)) (fin32 (w / 2 ^ 11)) (fin64 (w / 2 ^ 5)) (bit1 (w / 2 ^ 4))) else
  if w % 2 ^ 4 = 5 then some (.vfminVS (fin32 (w / 2 ^ 21)) (fin32 (w / 2 ^ 16)) (fin32 (w / 2 ^ 11)) (fin64 (w / 2 ^ 5)) (bit1 (w / 2 ^ 4))) else
  if w % 2 ^ 4 = 6 then some (.vfmaxVS (fin32 (w / 2 ^ 21)) (fin32 (w / 2 ^ 16)) (fin32 (w / 2 ^ 11)) (fin64 (w / 2 ^ 5)) (bit1 (w / 2 ^ 4))) else
  none

/-- Major opcode 0x1E (R95 to R111). -/
def decodeVcmp (w : Nat) : Option Instr :=
  if w % 2 ^ 4 = 0 then some (.vcmpEqVV (fin64 (w / 2 ^ 20)) (fin32 (w / 2 ^ 15)) (fin32 (w / 2 ^ 10)) (fin64 (w / 2 ^ 4))) else
  if w % 2 ^ 4 = 1 then some (.vcmpNeVV (fin64 (w / 2 ^ 20)) (fin32 (w / 2 ^ 15)) (fin32 (w / 2 ^ 10)) (fin64 (w / 2 ^ 4))) else
  if w % 2 ^ 4 = 2 then some (.vcmpLtVV (fin64 (w / 2 ^ 20)) (fin32 (w / 2 ^ 15)) (fin32 (w / 2 ^ 10)) (fin64 (w / 2 ^ 4))) else
  if w % 2 ^ 4 = 3 then some (.vcmpLeVV (fin64 (w / 2 ^ 20)) (fin32 (w / 2 ^ 15)) (fin32 (w / 2 ^ 10)) (fin64 (w / 2 ^ 4))) else
  if w % 2 ^ 4 = 4 then some (.vcmpUnordVV (fin64 (w / 2 ^ 20)) (fin32 (w / 2 ^ 15)) (fin32 (w / 2 ^ 10)) (fin64 (w / 2 ^ 4))) else
  if w % 2 ^ 4 = 8 then some (.vcmpEqVS (fin64 (w / 2 ^ 20)) (fin32 (w / 2 ^ 15)) (fin32 (w / 2 ^ 10)) (fin64 (w / 2 ^ 4))) else
  if w % 2 ^ 4 = 9 then some (.vcmpNeVS (fin64 (w / 2 ^ 20)) (fin32 (w / 2 ^ 15)) (fin32 (w / 2 ^ 10)) (fin64 (w / 2 ^ 4))) else
  if w % 2 ^ 4 = 10 then some (.vcmpLtVS (fin64 (w / 2 ^ 20)) (fin32 (w / 2 ^ 15)) (fin32 (w / 2 ^ 10)) (fin64 (w / 2 ^ 4))) else
  if w % 2 ^ 4 = 11 then some (.vcmpLeVS (fin64 (w / 2 ^ 20)) (fin32 (w / 2 ^ 15)) (fin32 (w / 2 ^ 10)) (fin64 (w / 2 ^ 4))) else
  if w % 2 ^ 4 = 12 then some (.vcmpGtVS (fin64 (w / 2 ^ 20)) (fin32 (w / 2 ^ 15)) (fin32 (w / 2 ^ 10)) (fin64 (w / 2 ^ 4))) else
  if w % 2 ^ 4 = 13 then some (.vcmpGeVS (fin64 (w / 2 ^ 20)) (fin32 (w / 2 ^ 15)) (fin32 (w / 2 ^ 10)) (fin64 (w / 2 ^ 4))) else
  none

/-- Major opcode 0x1F (R95 to R111). -/
def decodeVred (w : Nat) : Option Instr :=
  if w % 2 ^ 5 = 0 then some (.vredsum (fin32 (w / 2 ^ 21)) (fin32 (w / 2 ^ 16)) (fin32 (w / 2 ^ 11)) (fin64 (w / 2 ^ 5))) else
  if w % 2 ^ 5 = 1 then some (.vredsumo (fin32 (w / 2 ^ 21)) (fin32 (w / 2 ^ 16)) (fin32 (w / 2 ^ 11)) (fin64 (w / 2 ^ 5))) else
  if w % 2 ^ 5 = 2 then some (.vredmin (fin32 (w / 2 ^ 21)) (fin32 (w / 2 ^ 16)) (fin32 (w / 2 ^ 11)) (fin64 (w / 2 ^ 5))) else
  if w % 2 ^ 5 = 3 then some (.vredmax (fin32 (w / 2 ^ 21)) (fin32 (w / 2 ^ 16)) (fin32 (w / 2 ^ 11)) (fin64 (w / 2 ^ 5))) else
  if w % 2 ^ 5 = 4 then some (.vredand (fin32 (w / 2 ^ 21)) (fin32 (w / 2 ^ 16)) (fin32 (w / 2 ^ 11)) (fin64 (w / 2 ^ 5))) else
  if w % 2 ^ 5 = 5 then some (.vredor (fin32 (w / 2 ^ 21)) (fin32 (w / 2 ^ 16)) (fin32 (w / 2 ^ 11)) (fin64 (w / 2 ^ 5))) else
  if w % 2 ^ 4 = 6 then some (.vscan (fin32 (w / 2 ^ 21)) (fin32 (w / 2 ^ 16)) (fin32 (w / 2 ^ 11)) (fin64 (w / 2 ^ 5)) (bit1 (w / 2 ^ 4))) else
  if w % 2 ^ 4 = 7 then some (.vscanmax (fin32 (w / 2 ^ 21)) (fin32 (w / 2 ^ 16)) (fin32 (w / 2 ^ 11)) (fin64 (w / 2 ^ 5)) (bit1 (w / 2 ^ 4))) else
  none

/-- Major opcode 0x20 (R95 to R111). -/
def decodeVperm (w : Nat) : Option Instr :=
  if w % 2 ^ 5 = 0 then some (.vlift (fin32 (w / 2 ^ 21)) (fin32 (w / 2 ^ 16)) (fin32 (w / 2 ^ 11)) (fin64 (w / 2 ^ 5))) else
  if w % 2 ^ 5 = 1 then some (.vsink (fin32 (w / 2 ^ 21)) (fin32 (w / 2 ^ 16)) (fin32 (w / 2 ^ 11)) (fin64 (w / 2 ^ 5))) else
  if w % 2 ^ 5 = 2 then some (.vperm (fin32 (w / 2 ^ 21)) (fin32 (w / 2 ^ 16)) (fin32 (w / 2 ^ 11)) (fin64 (w / 2 ^ 5))) else
  if w % 2 ^ 5 = 3 ∧ w / 2 ^ 11 % 2 ^ 5 = 0 then some (.vpress (fin32 (w / 2 ^ 21)) (fin32 (w / 2 ^ 16)) (fin64 (w / 2 ^ 5))) else
  if w % 2 ^ 5 = 4 ∧ w / 2 ^ 11 % 2 ^ 10 = 0 then some (.vrank (fin32 (w / 2 ^ 21)) (fin64 (w / 2 ^ 5))) else
  if w % 2 ^ 5 = 5 ∧ w / 2 ^ 16 % 2 ^ 5 = 0 then some (.vbcast (fin32 (w / 2 ^ 21)) (fin32 (w / 2 ^ 11)) (fin64 (w / 2 ^ 5))) else
  if w % 2 ^ 11 = 6 then some (.vextr (fin32 (w / 2 ^ 21)) (fin32 (w / 2 ^ 16)) (fin32 (w / 2 ^ 11))) else
  if w % 2 ^ 11 = 7 then some (.vput (fin32 (w / 2 ^ 21)) (fin32 (w / 2 ^ 16)) (fin32 (w / 2 ^ 11))) else
  if w % 2 ^ 5 = 8 then some (.vupd (fin32 (w / 2 ^ 21)) (fin32 (w / 2 ^ 16)) (fin32 (w / 2 ^ 11)) (fin64 (w / 2 ^ 5))) else
  if w % 2 ^ 5 = 24 then some (.vupdAdd (fin32 (w / 2 ^ 21)) (fin32 (w / 2 ^ 16)) (fin32 (w / 2 ^ 11)) (fin64 (w / 2 ^ 5))) else
  if w % 2 ^ 5 = 9 then some (.vtopk (fin32 (w / 2 ^ 21)) (fin32 (w / 2 ^ 16)) (fin32 (w / 2 ^ 11)) (fin64 (w / 2 ^ 5))) else
  none

/-- Major opcode 0x21 (R95 to R111). -/
def decodeVmask (w : Nat) : Option Instr :=
  if w % 2 ^ 8 = 0 then some (.mand (fin64 (w / 2 ^ 20)) (fin64 (w / 2 ^ 14)) (fin64 (w / 2 ^ 8))) else
  if w % 2 ^ 8 = 1 then some (.mor (fin64 (w / 2 ^ 20)) (fin64 (w / 2 ^ 14)) (fin64 (w / 2 ^ 8))) else
  if w % 2 ^ 8 = 2 then some (.mxor (fin64 (w / 2 ^ 20)) (fin64 (w / 2 ^ 14)) (fin64 (w / 2 ^ 8))) else
  if w % 2 ^ 14 = 3 then some (.mnot (fin64 (w / 2 ^ 20)) (fin64 (w / 2 ^ 14))) else
  if w % 2 ^ 14 = 4 ∧ w / 2 ^ 25 % 2 ^ 1 = 0 then some (.mpopc (fin32 (w / 2 ^ 20)) (fin64 (w / 2 ^ 14))) else
  if w % 2 ^ 14 = 5 ∧ w / 2 ^ 25 % 2 ^ 1 = 0 then some (.mfirst (fin32 (w / 2 ^ 20)) (fin64 (w / 2 ^ 14))) else
  if w % 2 ^ 8 = 6 ∧ w / 2 ^ 13 % 2 ^ 1 = 0 ∧ w / 2 ^ 25 % 2 ^ 1 = 0 then some (.mtos (fin32 (w / 2 ^ 20)) (fin64 (w / 2 ^ 14)) (fin32 (w / 2 ^ 8))) else
  if w % 2 ^ 8 = 7 ∧ w / 2 ^ 13 % 2 ^ 1 = 0 ∧ w / 2 ^ 19 % 2 ^ 1 = 0 then some (.stom (fin64 (w / 2 ^ 20)) (fin32 (w / 2 ^ 14)) (fin32 (w / 2 ^ 8))) else
  if w % 2 ^ 8 = 8 ∧ w / 2 ^ 13 % 2 ^ 1 = 0 ∧ w / 2 ^ 19 % 2 ^ 1 = 0 then some (.mset (fin64 (w / 2 ^ 20)) (fin32 (w / 2 ^ 14)) (fin32 (w / 2 ^ 8))) else
  none

/-- Major opcode 0x22 (R95 to R111). -/
def decodeVld (w : Nat) : Option Instr :=
  if w / 2 ^ 11 % 2 ^ 5 = 0 then some (.vld (fin32 (w / 2 ^ 21)) (fin32 (w / 2 ^ 16)) (fin64 (w / 2 ^ 5)) (Fin.ofNat 16 (w / 2 ^ 1)) (bit1 (w))) else
  none

/-- Major opcode 0x23 (R95 to R111). -/
def decodeVlds (w : Nat) : Option Instr :=
  some (.vlds (fin32 (w / 2 ^ 21)) (fin32 (w / 2 ^ 16)) (fin32 (w / 2 ^ 11)) (fin64 (w / 2 ^ 5)) (Fin.ofNat 16 (w / 2 ^ 1)) (bit1 (w)))

/-- Major opcode 0x24 (R95 to R111). -/
def decodeVldx (w : Nat) : Option Instr :=
  some (.vldx (fin32 (w / 2 ^ 21)) (fin32 (w / 2 ^ 16)) (fin32 (w / 2 ^ 11)) (fin64 (w / 2 ^ 5)) (Fin.ofNat 16 (w / 2 ^ 1)) (bit1 (w)))

/-- Major opcode 0x25 (R95 to R111). -/
def decodeVst (w : Nat) : Option Instr :=
  if w % 2 ^ 1 = 0 ∧ w / 2 ^ 11 % 2 ^ 5 = 0 then some (.vst (fin32 (w / 2 ^ 21)) (fin32 (w / 2 ^ 16)) (fin64 (w / 2 ^ 5)) (Fin.ofNat 16 (w / 2 ^ 1))) else
  none

/-- Major opcode 0x26 (R95 to R111). -/
def decodeVsts (w : Nat) : Option Instr :=
  if w % 2 ^ 1 = 0 then some (.vsts (fin32 (w / 2 ^ 21)) (fin32 (w / 2 ^ 16)) (fin32 (w / 2 ^ 11)) (fin64 (w / 2 ^ 5)) (Fin.ofNat 16 (w / 2 ^ 1))) else
  none

/-- Major opcode 0x27 (R95 to R111). -/
def decodeVstx (w : Nat) : Option Instr :=
  if w % 2 ^ 1 = 0 then some (.vstx (fin32 (w / 2 ^ 21)) (fin32 (w / 2 ^ 16)) (fin32 (w / 2 ^ 11)) (fin64 (w / 2 ^ 5)) (Fin.ofNat 16 (w / 2 ^ 1))) else
  none

/-- Major opcode 0x28 (R95 to R111). -/
def decodeVstxa (w : Nat) : Option Instr :=
  some (.vstxa (fin32 (w / 2 ^ 21)) (fin32 (w / 2 ^ 16)) (fin32 (w / 2 ^ 11)) (fin64 (w / 2 ^ 5)) (Fin.ofNat 16 (w / 2 ^ 1)) (bit1 (w)))

/-- Major opcode 0x29 (R95 to R111). -/
def decodeChain (w : Nat) : Option Instr :=
  if w % 2 ^ 16 = 0 then some (.vshare (fin32 (w / 2 ^ 21)) (fin32 (w / 2 ^ 16))) else
  if w % 2 ^ 11 = 1 then some (.vcat (fin32 (w / 2 ^ 21)) (fin32 (w / 2 ^ 16)) (fin32 (w / 2 ^ 11))) else
  if w % 2 ^ 6 = 2 then some (.vtrim (fin32 (w / 2 ^ 21)) (fin32 (w / 2 ^ 16)) (fin32 (w / 2 ^ 11)) (fin32 (w / 2 ^ 6))) else
  if w % 2 ^ 11 = 3 then some (.vsplit (fin32 (w / 2 ^ 21)) (fin32 (w / 2 ^ 16)) (fin32 (w / 2 ^ 11))) else
  if w % 2 ^ 16 = 4 then some (.vpack (fin32 (w / 2 ^ 21)) (fin32 (w / 2 ^ 16))) else
  if w % 2 ^ 16 = 5 ∧ w / 2 ^ 21 % 2 ^ 5 = 0 then some (.vfree (fin32 (w / 2 ^ 16))) else
  if w % 2 ^ 16 = 6 then some (.vdesc (fin32 (w / 2 ^ 21)) (fin32 (w / 2 ^ 16))) else
  if w % 2 ^ 16 = 7 then some (.vlen (fin32 (w / 2 ^ 21)) (fin32 (w / 2 ^ 16))) else
  none

/-- Major opcode 0x2A (R95 to R111). -/
def decodeColl (w : Nat) : Option Instr :=
  if w % 2 ^ 6 = 0 then some (.clmap (fin32 (w / 2 ^ 21)) (fin32 (w / 2 ^ 16)) (fin32 (w / 2 ^ 11)) (fin32 (w / 2 ^ 6))) else
  if w % 2 ^ 11 = 1 then some (.clcomp (fin32 (w / 2 ^ 21)) (fin32 (w / 2 ^ 16)) (fin32 (w / 2 ^ 11))) else
  if w % 2 ^ 16 = 2 then some (.clscan (fin32 (w / 2 ^ 21)) (fin32 (w / 2 ^ 16))) else
  if w % 2 ^ 11 = 3 then some (.clapply (fin32 (w / 2 ^ 21)) (fin32 (w / 2 ^ 16)) (fin32 (w / 2 ^ 11))) else
  if w % 2 ^ 6 = 4 ∧ w / 2 ^ 16 % 2 ^ 4 = 0 then some (.clmask (fin64 (w / 2 ^ 20)) (fin32 (w / 2 ^ 11)) (fin32 (w / 2 ^ 6))) else
  none

/-- Major opcode 0x2B (R95 to R111). -/
def decodeTile (w : Nat) : Option Instr :=
  if w % 2 ^ 5 = 0 ∧ w / 2 ^ 9 % 2 ^ 7 = 0 ∧ w / 2 ^ 21 % 2 ^ 5 = 0 then some (.tbind (fin32 (w / 2 ^ 16)) (Fin.ofNat 16 (w / 2 ^ 5))) else
  if w % 2 ^ 5 = 1 ∧ w / 2 ^ 9 % 2 ^ 17 = 0 then some (.ttgt (Fin.ofNat 16 (w / 2 ^ 5))) else
  if w % 2 ^ 5 = 2 ∧ w / 2 ^ 9 % 2 ^ 17 = 0 then some (.twait (Fin.ofNat 16 (w / 2 ^ 5))) else
  if w % 2 ^ 5 = 3 ∧ w / 2 ^ 9 % 2 ^ 12 = 0 then some (.tget (fin32 (w / 2 ^ 21)) (Fin.ofNat 16 (w / 2 ^ 5))) else
  if w % 2 ^ 5 = 4 ∧ w / 2 ^ 9 % 2 ^ 17 = 0 then some (.tfree (Fin.ofNat 16 (w / 2 ^ 5))) else
  none

/-- Major opcode 0x2C (R95 to R111). -/
def decodePat (w : Nat) : Option Instr :=
  some (.pat (fin32 (w / 2 ^ 21)) (fin32 (w / 2 ^ 16)) (fin32 (w / 2 ^ 11)) (fin64 (w / 2 ^ 5)) (Fin.ofNat 32 (w)))

/-- The 32-bit instructions, by major opcode (R111); `none` where no row of the map matches. -/
def decodeMajor (w : Nat) : Option Instr :=
  match w / 2 ^ 26 % 2 ^ 6 with
  | 1 => decodeInt w
  | 2 => decodeAddi w
  | 3 => decodeAndi w
  | 4 => decodeOri w
  | 5 => decodeXori w
  | 6 => decodeShifti w
  | 7 => decodeLim w
  | 8 => decodeSlti w
  | 9 => decodeSltni w
  | 10 => decodeFp w
  | 11 => decodeLd w
  | 12 => decodeSt w
  | 13 => decodeAmo w
  | 14 => decodeCas w
  | 15 => decodeBc w
  | 16 => decodeJal w
  | 17 => decodeJr w
  | 18 => decodeJt w
  | 19 => decodeBstrip w
  | 20 => decodeSys w
  | 21 => decodeCsr w
  | 22 => decodeSync w
  | 23 => decodeVsetl w
  | 24 => decodeVsetlw w
  | 25 => decodeVintVV w
  | 26 => decodeVintVS w
  | 27 => decodeVintVI w
  | 28 => decodeVfpVV w
  | 29 => decodeVfpVS w
  | 30 => decodeVcmp w
  | 31 => decodeVred w
  | 32 => decodeVperm w
  | 33 => decodeVmask w
  | 34 => decodeVld w
  | 35 => decodeVlds w
  | 36 => decodeVldx w
  | 37 => decodeVst w
  | 38 => decodeVsts w
  | 39 => decodeVstx w
  | 40 => decodeVstxa w
  | 41 => decodeChain w
  | 42 => decodeColl w
  | 43 => decodeTile w
  | 44 => decodePat w
  | _ => none

/-- A decoder answer is kept only when its fields are ones the group allows (R112). -/
def checkWf : Option Instr → Except DecErr Instr
  | none => .error .unlisted
  | some i => if i.wf then .ok i else .error .forbiddenField

/-- A parcel of one 32-bit instruction (R88). -/
def decodeWord (w : Nat) : Except DecErr Instr :=
  if w / 2 ^ 26 % 2 ^ 6 = 0 then .error .zeroParcel else checkWf (decodeMajor w)

/-- A MATRIX form: prefix 0x2D in w0 and the second parcel w1 (R109). -/
def decodeMatrix (w0 w1 : Nat) : Option Instr :=
  match w0 / 2 ^ 22 % 2 ^ 4 with
  | 0 =>
    if w0 / 2 ^ 2 % 2 ^ 7 = 0 ∧ w1 % 2 ^ 32 = 0 then
      some (.mcfg (Fin.ofNat 4 (w0 / 2 ^ 20)) (Fin.ofNat 4 (w0 / 2 ^ 18)) (bit1 (w0 / 2 ^ 17))
        (bit1 (w0 / 2 ^ 16)) (bit1 (w0 / 2 ^ 15)) (Fin.ofNat 64 (w0 / 2 ^ 9)) (bit1 (w0 / 2)) (bit1 w0))
    else none
  | 1 =>
    if w0 % 2 ^ 15 = 0 ∧ w1 % 2 ^ 22 = 0 then
      some (.mma (Fin.ofNat 16 (w0 / 2 ^ 18)) (Fin.ofNat 4 (w0 / 2 ^ 16)) (bit1 (w0 / 2 ^ 15))
        (fin32 (w1 / 2 ^ 27)) (fin32 (w1 / 2 ^ 22)))
    else none
  | 2 =>
    if w0 % 2 ^ 15 = 0 ∧ w1 % 2 ^ 17 = 0 then
      some (.mmasp (Fin.ofNat 16 (w0 / 2 ^ 18)) (Fin.ofNat 4 (w0 / 2 ^ 16)) (bit1 (w0 / 2 ^ 15))
        (fin32 (w1 / 2 ^ 27)) (fin32 (w1 / 2 ^ 22)) (fin32 (w1 / 2 ^ 17)))
    else none
  | 3 =>
    if w0 % 2 ^ 16 = 0 ∧ w1 % 2 ^ 32 = 0 then
      some (.mzero (Fin.ofNat 16 (w0 / 2 ^ 18)) (Fin.ofNat 4 (w0 / 2 ^ 16)))
    else none
  | 4 =>
    if w0 % 2 ^ 8 = 0 ∧ w1 % 2 ^ 22 = 0 then
      some (.mdrain (Fin.ofNat 16 (w0 / 2 ^ 18)) (Fin.ofNat 4 (w0 / 2 ^ 16)) (Fin.ofNat 16 (w0 / 2 ^ 12))
        (Fin.ofNat 8 (w0 / 2 ^ 9)) (bit1 (w0 / 2 ^ 8)) (fin32 (w1 / 2 ^ 27)) (fin32 (w1 / 2 ^ 22)))
    else none
  | 5 =>
    if w0 % 2 ^ 14 = 0 ∧ w1 % 2 ^ 32 = 0 then some (.mwait (Fin.ofNat 256 (w0 / 2 ^ 14))) else none
  | _ => none

/-- A COPY form: prefix 0x2E in w0 and the second parcel w1 (R110). -/
def decodeCopy (w0 w1 : Nat) : Option Instr :=
  if w0 / 2 ^ 21 % 2 = 0 ∧ w0 / 2 ^ 8 % 2 = 0 ∧ w1 % 2 ^ 2 = 0 then
    match w0 / 2 ^ 22 % 2 ^ 4 with
    | 0 =>
      if w0 / 2 ^ 9 % 2 ^ 5 = 0 ∧ w0 % 2 ^ 8 = 0 ∧ w1 / 2 ^ 2 % 2 ^ 5 = 0 then
        some (.cpy (Fin.ofNat 16 (w0 / 2 ^ 17)) (Fin.ofNat 4 (w0 / 2 ^ 15)) (bit1 (w0 / 2 ^ 14))
          (fin32 (w1 / 2 ^ 27)) (fin32 (w1 / 2 ^ 22)) (fin32 (w1 / 2 ^ 17)) (fin32 (w1 / 2 ^ 12))
          (fin32 (w1 / 2 ^ 7)))
      else none
    | 1 =>
      some (.cpyg (Fin.ofNat 16 (w0 / 2 ^ 17)) (Fin.ofNat 4 (w0 / 2 ^ 15)) (bit1 (w0 / 2 ^ 14))
        (fin32 (w0 / 2 ^ 9)) (BitVec.ofNat 8 w0)
        (fin32 (w1 / 2 ^ 27)) (fin32 (w1 / 2 ^ 22)) (fin32 (w1 / 2 ^ 17)) (fin32 (w1 / 2 ^ 12))
        (fin32 (w1 / 2 ^ 7)) (fin32 (w1 / 2 ^ 2)))
    | 2 =>
      if w0 % 2 ^ 8 = 0 then
        some (.cpys (Fin.ofNat 16 (w0 / 2 ^ 17)) (Fin.ofNat 4 (w0 / 2 ^ 15)) (bit1 (w0 / 2 ^ 14))
          (fin32 (w0 / 2 ^ 9))
          (fin32 (w1 / 2 ^ 27)) (fin32 (w1 / 2 ^ 22)) (fin32 (w1 / 2 ^ 17)) (fin32 (w1 / 2 ^ 12))
          (fin32 (w1 / 2 ^ 7)) (fin32 (w1 / 2 ^ 2)))
      else none
    | 3 =>
      if w0 / 2 ^ 9 % 2 ^ 5 = 0 ∧ w1 / 2 ^ 22 % 2 ^ 5 = 0 ∧ w1 / 2 ^ 2 % 2 ^ 5 = 0 then
        some (.cpyf (Fin.ofNat 16 (w0 / 2 ^ 17)) (Fin.ofNat 4 (w0 / 2 ^ 15)) (bit1 (w0 / 2 ^ 14))
          (BitVec.ofNat 8 w0)
          (fin32 (w1 / 2 ^ 27)) (fin32 (w1 / 2 ^ 17)) (fin32 (w1 / 2 ^ 12)) (fin32 (w1 / 2 ^ 7)))
      else none
    | _ => none
  else none

/-- A 64-bit form by its prefix (R88, R89). -/
def decodeLong (w0 w1 : Nat) : Except DecErr Instr :=
  match w0 / 2 ^ 26 % 2 ^ 6 with
  | 0x2D => checkWf (decodeMatrix w0 w1)
  | 0x2E => checkWf (decodeCopy w0 w1)
  | _ => .error .reservedPrefix

/-- A compressed half of 15 bits: code in [14:10] (R91, R92). -/
def decodeHalf (h : Nat) : Except DecErr Instr :=
  match h / 2 ^ 10 % 2 ^ 5 with
  | 0 => if h % 2 ^ 10 = 0 then .ok .hnop else .error .reservedCompressed
  | 1 => .ok (.hadd (fin32 (h / 2 ^ 5)) (fin32 h))
  | 2 => .ok (.hsub (fin32 (h / 2 ^ 5)) (fin32 h))
  | 3 => .ok (.hand (fin32 (h / 2 ^ 5)) (fin32 h))
  | 4 => .ok (.hor (fin32 (h / 2 ^ 5)) (fin32 h))
  | 5 => .ok (.hmov (fin32 (h / 2 ^ 5)) (fin32 h))
  | 6 => .ok (.hinc (fin32 (h / 2 ^ 5)) (BitVec.ofNat 5 h))
  | 7 => .ok (.hshl (fin32 (h / 2 ^ 5)) (fin32 h))
  | 8 => .ok (.hldd (Fin.ofNat 8 (h / 2 ^ 7)) (Fin.ofNat 8 (h / 2 ^ 4)) (Fin.ofNat 16 h))
  | 9 => .ok (.hstd (Fin.ofNat 8 (h / 2 ^ 7)) (Fin.ofNat 8 (h / 2 ^ 4)) (Fin.ofNat 16 h))
  | 10 => .ok (.hbz (fin32 (h / 2 ^ 5)) (BitVec.ofNat 5 h))
  | 11 => .ok (.hbnz (fin32 (h / 2 ^ 5)) (BitVec.ofNat 5 h))
  | 12 => .ok (.hjmp (BitVec.ofNat 10 h))
  | 13 =>
    if h % 2 ^ 4 = 0 then .ok (.hvadd (Fin.ofNat 8 (h / 2 ^ 7)) (Fin.ofNat 8 (h / 2 ^ 4)))
    else .error .reservedCompressed
  | 14 => if h % 2 ^ 10 = 0 then .ok .hwait else .error .reservedCompressed
  | 15 => if h % 2 ^ 10 = 0 then .ok .hexit else .error .reservedCompressed
  | _ => .error .reservedCompressed

/-- Whether a parcel is a pair of compressed instructions: bits [31:30] are 11 (R88, R90). -/
def isPair (w : Nat) : Bool := decide (w / 2 ^ 30 % 2 ^ 2 = 3)

/-- Whether a parcel is the prefix of a 64-bit form, the reserved one included (R88). -/
def isPrefix (w : Nat) : Bool :=
  decide (w / 2 ^ 26 % 2 ^ 6 = 0x2D) || decide (w / 2 ^ 26 % 2 ^ 6 = 0x2E) || decide (w / 2 ^ 26 % 2 ^ 6 = 0x2F)

/-- Compressed instruction A of a pair parcel, bits [29:15] (R90). -/
def halfA (w : Nat) : Nat := w / 2 ^ 15 % 2 ^ 15
/-- Compressed instruction B of a pair parcel, bits [14:0] (R90). -/
def halfB (w : Nat) : Nat := w % 2 ^ 15

/-- What a thread meets at its pc: the first parcel w0, the one after it w1 (used only by a 64-bit form), and
whether the pc names half B of a pair. The answer is the instruction and how far the pc moves past it: 2 within a
pair, 4, or 8 (R88 to R92). Half B of a parcel that is no pair is illegal instruction (R90). -/
def decodeAt (w0 w1 : Nat) (atB : Bool) : Except DecErr (Instr × Nat) :=
  if isPair w0 then
    (if atB then decodeHalf (halfB w0) else decodeHalf (halfA w0)).map fun i => (i, 2)
  else if atB then .error .forbiddenField
  else if isPrefix w0 then (decodeLong w0 w1).map fun i => (i, 8)
  else (decodeWord w0).map fun i => (i, 4)

/-- Four bytes, the least significant first, as one parcel (R88). -/
def parcelOf (b0 b1 b2 b3 : Byte) : Nat :=
  b0.toNat + b1.toNat * 2 ^ 8 + b2.toNat * 2 ^ 16 + b3.toNat * 2 ^ 24

/-- The decoder on any bytes, as they lie in memory: the instruction, how far the pc moves, and the rest. -/
def decode (atB : Bool) : List Byte → Except DecErr (Instr × Nat × List Byte)
  | b0 :: b1 :: b2 :: b3 :: rest =>
    let w0 := parcelOf b0 b1 b2 b3
    if isPrefix w0 && !atB then
      match rest with
      | c0 :: c1 :: c2 :: c3 :: rest' =>
        (decodeAt w0 (parcelOf c0 c1 c2 c3) false).map fun p => (p.1, p.2, rest')
      | _ => .error .tooShort
    else (decodeAt w0 0 atB).map fun p => (p.1, p.2, rest)
  | _ => .error .tooShort

/-- The bytes of a parcel as the hardware stores them (R88). -/
def parcelBytes (w : Nat) : List Byte :=
  [BitVec.ofNat 8 w, BitVec.ofNat 8 (w / 2 ^ 8), BitVec.ofNat 8 (w / 2 ^ 16), BitVec.ofNat 8 (w / 2 ^ 24)]

/-- The bytes of an instruction given as the opcode table numbers its bits: the first parcel in bits [31:0], the
second after it; bits above `nbits` are 0. -/
def tableBytes (nbits w : Nat) : List Byte :=
  let w := w % 2 ^ nbits
  parcelBytes (w % 2 ^ 32) ++ parcelBytes (w / 2 ^ 32 % 2 ^ 32)

/-- The instruction the decoder reads from an instruction word of the opcode table. -/
def decodeTableWord (nbits w : Nat) : Option Instr :=
  match decode false (tableBytes nbits w) with
  | .ok (i, _, _) => some i
  | .error _ => none

/-- The words of an encoded instruction: one parcel, two parcels, or a 15-bit compressed half; device events
have none (R88 to R111). -/
inductive Encoding where
  | word (w : Nat)
  | long (w0 w1 : Nat)
  | half (h : Nat)
  | event
deriving DecidableEq, Repr

/-- A word with fields put in: each pair is a value and the position of its lowest bit. -/
def put (base : Nat) : List (Nat × Nat) → Nat
  | [] => base
  | (v, lo) :: r => v * 2 ^ lo + put base r

/-- The encoding of an instruction, field by field from the layouts of R91, R93 to R110. -/
def encode : Instr → Encoding
  | .add d a b => .word (put 0x4000000 [(d.val, 21), (a.val, 16), (b.val, 11)])
  | .sub d a b => .word (put 0x4000040 [(d.val, 21), (a.val, 16), (b.val, 11)])
  | .mul d a b => .word (put 0x4000080 [(d.val, 21), (a.val, 16), (b.val, 11)])
  | .mulh d a b => .word (put 0x40000c0 [(d.val, 21), (a.val, 16), (b.val, 11)])
  | .mulhn d a b => .word (put 0x4000100 [(d.val, 21), (a.val, 16), (b.val, 11)])
  | .div d a b => .word (put 0x4000140 [(d.val, 21), (a.val, 16), (b.val, 11)])
  | .divn d a b => .word (put 0x4000180 [(d.val, 21), (a.val, 16), (b.val, 11)])
  | .rem d a b => .word (put 0x40001c0 [(d.val, 21), (a.val, 16), (b.val, 11)])
  | .remn d a b => .word (put 0x4000200 [(d.val, 21), (a.val, 16), (b.val, 11)])
  | .and d a b => .word (put 0x4000240 [(d.val, 21), (a.val, 16), (b.val, 11)])
  | .or d a b => .word (put 0x4000280 [(d.val, 21), (a.val, 16), (b.val, 11)])
  | .xor d a b => .word (put 0x40002c0 [(d.val, 21), (a.val, 16), (b.val, 11)])
  | .shl d a b => .word (put 0x4000300 [(d.val, 21), (a.val, 16), (b.val, 11)])
  | .shr d a b => .word (put 0x4000340 [(d.val, 21), (a.val, 16), (b.val, 11)])
  | .sra d a b => .word (put 0x4000380 [(d.val, 21), (a.val, 16), (b.val, 11)])
  | .rot d a b => .word (put 0x40003c0 [(d.val, 21), (a.val, 16), (b.val, 11)])
  | .min d a b => .word (put 0x4000400 [(d.val, 21), (a.val, 16), (b.val, 11)])
  | .max d a b => .word (put 0x4000440 [(d.val, 21), (a.val, 16), (b.val, 11)])
  | .minn d a b => .word (put 0x4000480 [(d.val, 21), (a.val, 16), (b.val, 11)])
  | .maxn d a b => .word (put 0x40004c0 [(d.val, 21), (a.val, 16), (b.val, 11)])
  | .slt d a b => .word (put 0x4000500 [(d.val, 21), (a.val, 16), (b.val, 11)])
  | .sltn d a b => .word (put 0x4000540 [(d.val, 21), (a.val, 16), (b.val, 11)])
  | .seq d a b => .word (put 0x4000580 [(d.val, 21), (a.val, 16), (b.val, 11)])
  | .csel d a b c => .word (put 0x40005c0 [(d.val, 21), (a.val, 16), (b.val, 11), (c.val, 0)])
  | .clz d a => .word (put 0x4000600 [(d.val, 21), (a.val, 16)])
  | .ctz d a => .word (put 0x4000640 [(d.val, 21), (a.val, 16)])
  | .popc d a => .word (put 0x4000680 [(d.val, 21), (a.val, 16)])
  | .sext d a b s => .word (put 0x40006c0 [(d.val, 21), (a.val, 16), (b.val, 11), (s.val, 0)])
  | .zext d a b s => .word (put 0x4000700 [(d.val, 21), (a.val, 16), (b.val, 11), (s.val, 0)])
  | .addi d a imm => .word (put 0x8000000 [(d.val, 21), (a.val, 16), (imm.toNat, 0)])
  | .andi d a imm => .word (put 0xc000000 [(d.val, 21), (a.val, 16), (imm.toNat, 0)])
  | .ori d a imm => .word (put 0x10000000 [(d.val, 21), (a.val, 16), (imm.toNat, 0)])
  | .xori d a imm => .word (put 0x14000000 [(d.val, 21), (a.val, 16), (imm.toNat, 0)])
  | .shli d a s => .word (put 0x18000000 [(d.val, 21), (a.val, 16), (s.val, 0)])
  | .shri d a s => .word (put 0x18004000 [(d.val, 21), (a.val, 16), (s.val, 0)])
  | .srai d a s => .word (put 0x18008000 [(d.val, 21), (a.val, 16), (s.val, 0)])
  | .lim d p imm => .word (put 0x1c000000 [(d.val, 21), (p.val, 16), (imm.toNat, 0)])
  | .limK d p imm => .word (put 0x1c040000 [(d.val, 21), (p.val, 16), (imm.toNat, 0)])
  | .slti d a imm => .word (put 0x20000000 [(d.val, 21), (a.val, 16), (imm.toNat, 0)])
  | .sltni d a imm => .word (put 0x24000000 [(d.val, 21), (a.val, 16), (imm.toNat, 0)])
  | .fadd d a b p r => .word (put 0x28000000 [(d.val, 21), (a.val, 16), (b.val, 11), (p.val, 4), (r.val, 0)])
  | .fsub d a b p r => .word (put 0x28000040 [(d.val, 21), (a.val, 16), (b.val, 11), (p.val, 4), (r.val, 0)])
  | .fmul d a b p r => .word (put 0x28000080 [(d.val, 21), (a.val, 16), (b.val, 11), (p.val, 4), (r.val, 0)])
  | .fdiv d a b p r => .word (put 0x280000c0 [(d.val, 21), (a.val, 16), (b.val, 11), (p.val, 4), (r.val, 0)])
  | .fsqrt d a p r => .word (put 0x28000100 [(d.val, 21), (a.val, 16), (p.val, 4), (r.val, 0)])
  | .fma d a b p r => .word (put 0x28000140 [(d.val, 21), (a.val, 16), (b.val, 11), (p.val, 4), (r.val, 0)])
  | .fmin d a b p => .word (put 0x28000187 [(d.val, 21), (a.val, 16), (b.val, 11), (p.val, 4)])
  | .fmax d a b p => .word (put 0x280001c7 [(d.val, 21), (a.val, 16), (b.val, 11), (p.val, 4)])
  | .feq d a b p => .word (put 0x28000207 [(d.val, 21), (a.val, 16), (b.val, 11), (p.val, 4)])
  | .flt d a b p => .word (put 0x28000247 [(d.val, 21), (a.val, 16), (b.val, 11), (p.val, 4)])
  | .fle d a b p => .word (put 0x28000287 [(d.val, 21), (a.val, 16), (b.val, 11), (p.val, 4)])
  | .fcvt d a t p r => .word (put 0x280002c0 [(d.val, 21), (a.val, 16), (t.val, 11), (p.val, 4), (r.val, 0)])
  | .fcvti d a t p r => .word (put 0x28000300 [(d.val, 21), (a.val, 16), (t.val, 11), (p.val, 4), (r.val, 0)])
  | .fcvtf d a t p r => .word (put 0x28000340 [(d.val, 21), (a.val, 16), (t.val, 11), (p.val, 4), (r.val, 0)])
  | .ld d b z s c off => .word (put 0x2c000000 [(d.val, 21), (b.val, 16), (z.val, 14), (s.toNat, 13), (c.val, 9), (off.toNat, 0)])
  | .st d b z c off => .word (put 0x30000000 [(d.val, 21), (b.val, 16), (z.val, 14), (c.val, 9), (off.toNat, 0)])
  | .amoadd d a b z s ord => .word (put 0x34000000 [(d.val, 21), (a.val, 16), (b.val, 11), (z.toNat, 5), (s.val, 3), (ord.val, 1)])
  | .amoand d a b z s ord => .word (put 0x34000040 [(d.val, 21), (a.val, 16), (b.val, 11), (z.toNat, 5), (s.val, 3), (ord.val, 1)])
  | .amoor d a b z s ord => .word (put 0x34000080 [(d.val, 21), (a.val, 16), (b.val, 11), (z.toNat, 5), (s.val, 3), (ord.val, 1)])
  | .amoxor d a b z s ord => .word (put 0x340000c0 [(d.val, 21), (a.val, 16), (b.val, 11), (z.toNat, 5), (s.val, 3), (ord.val, 1)])
  | .amomin d a b z s ord sg => .word (put 0x34000100 [(d.val, 21), (a.val, 16), (b.val, 11), (z.toNat, 5), (s.val, 3), (ord.val, 1), (sg.toNat, 0)])
  | .amomax d a b z s ord sg => .word (put 0x34000140 [(d.val, 21), (a.val, 16), (b.val, 11), (z.toNat, 5), (s.val, 3), (ord.val, 1), (sg.toNat, 0)])
  | .amoswap d a b z s ord => .word (put 0x34000180 [(d.val, 21), (a.val, 16), (b.val, 11), (z.toNat, 5), (s.val, 3), (ord.val, 1)])
  | .amofadd d a b z s ord => .word (put 0x340001c0 [(d.val, 21), (a.val, 16), (b.val, 11), (z.toNat, 5), (s.val, 3), (ord.val, 1)])
  | .cas d a b z s ord => .word (put 0x38000000 [(d.val, 21), (a.val, 16), (b.val, 11), (z.toNat, 5), (s.val, 3), (ord.val, 1)])
  | .beq a b off => .word (put 0x3c000000 [(a.val, 18), (b.val, 13), (off.toNat, 0)])
  | .bne a b off => .word (put 0x3c800000 [(a.val, 18), (b.val, 13), (off.toNat, 0)])
  | .blt a b off => .word (put 0x3d000000 [(a.val, 18), (b.val, 13), (off.toNat, 0)])
  | .bge a b off => .word (put 0x3d800000 [(a.val, 18), (b.val, 13), (off.toNat, 0)])
  | .bltn a b off => .word (put 0x3e000000 [(a.val, 18), (b.val, 13), (off.toNat, 0)])
  | .bgen a b off => .word (put 0x3e800000 [(a.val, 18), (b.val, 13), (off.toNat, 0)])
  | .jal off => .word (put 0x40000000 [(off.toNat, 0)])
  | .jr d a imm => .word (put 0x44000000 [(d.val, 21), (a.val, 16), (imm.toNat, 0)])
  | .jt a b l => .word (put 0x48000000 [(a.val, 16), (b.val, 11), (l.val, 0)])
  | .bstrip a off => .word (put 0x4c000000 [(a.val, 18), (off.toNat, 0)])
  | .trapUnassigned c => .word (put 0x50000000 [(c.val, 0)])
  | .brk c => .word (put 0x50000040 [(c.val, 0)])
  | .leave a => .word (put 0x50000140 [(a.val, 16)])
  | .csrr d n => .word (put 0x54000000 [(d.val, 21), (n.val, 0)])
  | .csrw a n => .word (put 0x54004000 [(a.val, 16), (n.val, 0)])
  | .fence a k s => .word (put 0x58000000 [(a.val, 16), (k.val, 4), (s.val, 2)])
  | .qfence q => .word (put 0x58000040 [(q.val, 0)])
  | .wait l s c t => .word (put 0x58000080 [(l.val, 21), (s.val, 16), (c.val, 11), (t.val, 0)])
  | .bar n => .word (put 0x580000c0 [(n.val, 0)])
  | .wmpub a b => .word (put 0x58000100 [(a.val, 16), (b.val, 11)])
  | .apnd d a b => .word (put 0x58000140 [(d.val, 21), (a.val, 16), (b.val, 11)])
  | .apub d a b => .word (put 0x58000180 [(d.val, 21), (a.val, 16), (b.val, 11)])
  | .bkset a n => .word (put 0x580001c0 [(a.val, 16), (n.val, 0)])
  | .bkclr n => .word (put 0x58000200 [(n.val, 0)])
  | .vsetl d a t k r => .word (put 0x5c000000 [(d.val, 21), (a.val, 16), (t.val, 7), (k.val, 4), (r.val, 1)])
  | .vsetlw d a b t k r => .word (put 0x60000000 [(d.val, 21), (a.val, 16), (b.val, 11), (t.val, 7), (k.val, 4), (r.val, 1)])
  | .vaddVV d a b m x => .word (put 0x64000000 [(d.val, 21), (a.val, 16), (b.val, 11), (m.val, 5), (x.toNat, 4)])
  | .vsubVV d a b m x => .word (put 0x64000001 [(d.val, 21), (a.val, 16), (b.val, 11), (m.val, 5), (x.toNat, 4)])
  | .vmulVV d a b m x => .word (put 0x64000002 [(d.val, 21), (a.val, 16), (b.val, 11), (m.val, 5), (x.toNat, 4)])
  | .vmulhVV d a b m x => .word (put 0x64000003 [(d.val, 21), (a.val, 16), (b.val, 11), (m.val, 5), (x.toNat, 4)])
  | .vdivVV d a b m x => .word (put 0x64000004 [(d.val, 21), (a.val, 16), (b.val, 11), (m.val, 5), (x.toNat, 4)])
  | .vremVV d a b m x => .word (put 0x64000005 [(d.val, 21), (a.val, 16), (b.val, 11), (m.val, 5), (x.toNat, 4)])
  | .vminVV d a b m x => .word (put 0x64000006 [(d.val, 21), (a.val, 16), (b.val, 11), (m.val, 5), (x.toNat, 4)])
  | .vmaxVV d a b m x => .word (put 0x64000007 [(d.val, 21), (a.val, 16), (b.val, 11), (m.val, 5), (x.toNat, 4)])
  | .vaddsVV d a b m x => .word (put 0x64000008 [(d.val, 21), (a.val, 16), (b.val, 11), (m.val, 5), (x.toNat, 4)])
  | .vsubsVV d a b m x => .word (put 0x64000009 [(d.val, 21), (a.val, 16), (b.val, 11), (m.val, 5), (x.toNat, 4)])
  | .vandVV d a b m x => .word (put 0x6400000a [(d.val, 21), (a.val, 16), (b.val, 11), (m.val, 5), (x.toNat, 4)])
  | .vorVV d a b m x => .word (put 0x6400000b [(d.val, 21), (a.val, 16), (b.val, 11), (m.val, 5), (x.toNat, 4)])
  | .vxorVV d a b m x => .word (put 0x6400000c [(d.val, 21), (a.val, 16), (b.val, 11), (m.val, 5), (x.toNat, 4)])
  | .vshlVV d a b m x => .word (put 0x6400000d [(d.val, 21), (a.val, 16), (b.val, 11), (m.val, 5), (x.toNat, 4)])
  | .vshrVV d a b m x => .word (put 0x6400000e [(d.val, 21), (a.val, 16), (b.val, 11), (m.val, 5), (x.toNat, 4)])
  | .vaddVS d a b m x => .word (put 0x68000000 [(d.val, 21), (a.val, 16), (b.val, 11), (m.val, 5), (x.toNat, 4)])
  | .vsubVS d a b m x => .word (put 0x68000001 [(d.val, 21), (a.val, 16), (b.val, 11), (m.val, 5), (x.toNat, 4)])
  | .vrsubVS d a b m x => .word (put 0x68000002 [(d.val, 21), (a.val, 16), (b.val, 11), (m.val, 5), (x.toNat, 4)])
  | .vmulVS d a b m x => .word (put 0x68000003 [(d.val, 21), (a.val, 16), (b.val, 11), (m.val, 5), (x.toNat, 4)])
  | .vmulhVS d a b m x => .word (put 0x68000004 [(d.val, 21), (a.val, 16), (b.val, 11), (m.val, 5), (x.toNat, 4)])
  | .vminVS d a b m x => .word (put 0x68000005 [(d.val, 21), (a.val, 16), (b.val, 11), (m.val, 5), (x.toNat, 4)])
  | .vmaxVS d a b m x => .word (put 0x68000006 [(d.val, 21), (a.val, 16), (b.val, 11), (m.val, 5), (x.toNat, 4)])
  | .vaddsVS d a b m x => .word (put 0x68000007 [(d.val, 21), (a.val, 16), (b.val, 11), (m.val, 5), (x.toNat, 4)])
  | .vsubsVS d a b m x => .word (put 0x68000008 [(d.val, 21), (a.val, 16), (b.val, 11), (m.val, 5), (x.toNat, 4)])
  | .vandVS d a b m x => .word (put 0x68000009 [(d.val, 21), (a.val, 16), (b.val, 11), (m.val, 5), (x.toNat, 4)])
  | .vorVS d a b m x => .word (put 0x6800000a [(d.val, 21), (a.val, 16), (b.val, 11), (m.val, 5), (x.toNat, 4)])
  | .vxorVS d a b m x => .word (put 0x6800000b [(d.val, 21), (a.val, 16), (b.val, 11), (m.val, 5), (x.toNat, 4)])
  | .vshlVS d a b m x => .word (put 0x6800000c [(d.val, 21), (a.val, 16), (b.val, 11), (m.val, 5), (x.toNat, 4)])
  | .vshrVS d a b m x => .word (put 0x6800000d [(d.val, 21), (a.val, 16), (b.val, 11), (m.val, 5), (x.toNat, 4)])
  | .vaddVI d a imm => .word (put 0x6c000000 [(d.val, 21), (a.val, 16), (imm.toNat, 5)])
  | .vrsubVI d a imm => .word (put 0x6c000001 [(d.val, 21), (a.val, 16), (imm.toNat, 5)])
  | .vandVI d a imm => .word (put 0x6c000002 [(d.val, 21), (a.val, 16), (imm.toNat, 5)])
  | .vorVI d a imm => .word (put 0x6c000003 [(d.val, 21), (a.val, 16), (imm.toNat, 5)])
  | .vxorVI d a imm => .word (put 0x6c000004 [(d.val, 21), (a.val, 16), (imm.toNat, 5)])
  | .vshlVI d a imm => .word (put 0x6c000005 [(d.val, 21), (a.val, 16), (imm.toNat, 5)])
  | .vshrVI d a imm => .word (put 0x6c000006 [(d.val, 21), (a.val, 16), (imm.toNat, 5)])
  | .vminVI d a imm => .word (put 0x6c000007 [(d.val, 21), (a.val, 16), (imm.toNat, 5)])
  | .vmaxVI d a imm => .word (put 0x6c000008 [(d.val, 21), (a.val, 16), (imm.toNat, 5)])
  | .vfaddVV d a b m x => .word (put 0x70000000 [(d.val, 21), (a.val, 16), (b.val, 11), (m.val, 5), (x.toNat, 4)])
  | .vfsubVV d a b m x => .word (put 0x70000001 [(d.val, 21), (a.val, 16), (b.val, 11), (m.val, 5), (x.toNat, 4)])
  | .vfmulVV d a b m x => .word (put 0x70000002 [(d.val, 21), (a.val, 16), (b.val, 11), (m.val, 5), (x.toNat, 4)])
  | .vfdivVV d a b m x => .word (put 0x70000003 [(d.val, 21), (a.val, 16), (b.val, 11), (m.val, 5), (x.toNat, 4)])
  | .vfmaVV d a b m x => .word (put 0x70000004 [(d.val, 21), (a.val, 16), (b.val, 11), (m.val, 5), (x.toNat, 4)])
  | .vfminVV d a b m x => .word (put 0x70000005 [(d.val, 21), (a.val, 16), (b.val, 11), (m.val, 5), (x.toNat, 4)])
  | .vfmaxVV d a b m x => .word (put 0x70000006 [(d.val, 21), (a.val, 16), (b.val, 11), (m.val, 5), (x.toNat, 4)])
  | .vfabs d a m x => .word (put 0x70000007 [(d.val, 21), (a.val, 16), (m.val, 5), (x.toNat, 4)])
  | .vfsqrt d a m x => .word (put 0x70000008 [(d.val, 21), (a.val, 16), (m.val, 5), (x.toNat, 4)])
  | .vfrcp d a m x => .word (put 0x70000009 [(d.val, 21), (a.val, 16), (m.val, 5), (x.toNat, 4)])
  | .vfrsqrt d a m x => .word (put 0x7000000a [(d.val, 21), (a.val, 16), (m.val, 5), (x.toNat, 4)])
  | .vfexp2 d a m x => .word (put 0x7000000b [(d.val, 21), (a.val, 16), (m.val, 5), (x.toNat, 4)])
  | .vcvt d a t m x => .word (put 0x7000000c [(d.val, 21), (a.val, 16), (t.val, 11), (m.val, 5), (x.toNat, 4)])
  | .vfaddVS d a b m x => .word (put 0x74000000 [(d.val, 21), (a.val, 16), (b.val, 11), (m.val, 5), (x.toNat, 4)])
  | .vfsubVS d a b m x => .word (put 0x74000001 [(d.val, 21), (a.val, 16), (b.val, 11), (m.val, 5), (x.toNat, 4)])
  | .vfmulVS d a b m x => .word (put 0x74000002 [(d.val, 21), (a.val, 16), (b.val, 11), (m.val, 5), (x.toNat, 4)])
  | .vfdivVS d a b m x => .word (put 0x74000003 [(d.val, 21), (a.val, 16), (b.val, 11), (m.val, 5), (x.toNat, 4)])
  | .vfmaVS d a b m x => .word (put 0x74000004 [(d.val, 21), (a.val, 16), (b.val, 11), (m.val, 5), (x.toNat, 4)])
  | .vfminVS d a b m x => .word (put 0x74000005 [(d.val, 21), (a.val, 16), (b.val, 11), (m.val, 5), (x.toNat, 4)])
  | .vfmaxVS d a b m x => .word (put 0x74000006 [(d.val, 21), (a.val, 16), (b.val, 11), (m.val, 5), (x.toNat, 4)])
  | .vcmpEqVV d a b m => .word (put 0x78000000 [(d.val, 20), (a.val, 15), (b.val, 10), (m.val, 4)])
  | .vcmpNeVV d a b m => .word (put 0x78000001 [(d.val, 20), (a.val, 15), (b.val, 10), (m.val, 4)])
  | .vcmpLtVV d a b m => .word (put 0x78000002 [(d.val, 20), (a.val, 15), (b.val, 10), (m.val, 4)])
  | .vcmpLeVV d a b m => .word (put 0x78000003 [(d.val, 20), (a.val, 15), (b.val, 10), (m.val, 4)])
  | .vcmpUnordVV d a b m => .word (put 0x78000004 [(d.val, 20), (a.val, 15), (b.val, 10), (m.val, 4)])
  | .vcmpEqVS d a b m => .word (put 0x78000008 [(d.val, 20), (a.val, 15), (b.val, 10), (m.val, 4)])
  | .vcmpNeVS d a b m => .word (put 0x78000009 [(d.val, 20), (a.val, 15), (b.val, 10), (m.val, 4)])
  | .vcmpLtVS d a b m => .word (put 0x7800000a [(d.val, 20), (a.val, 15), (b.val, 10), (m.val, 4)])
  | .vcmpLeVS d a b m => .word (put 0x7800000b [(d.val, 20), (a.val, 15), (b.val, 10), (m.val, 4)])
  | .vcmpGtVS d a b m => .word (put 0x7800000c [(d.val, 20), (a.val, 15), (b.val, 10), (m.val, 4)])
  | .vcmpGeVS d a b m => .word (put 0x7800000d [(d.val, 20), (a.val, 15), (b.val, 10), (m.val, 4)])
  | .vredsum d a b m => .word (put 0x7c000000 [(d.val, 21), (a.val, 16), (b.val, 11), (m.val, 5)])
  | .vredsumo d a b m => .word (put 0x7c000001 [(d.val, 21), (a.val, 16), (b.val, 11), (m.val, 5)])
  | .vredmin d a b m => .word (put 0x7c000002 [(d.val, 21), (a.val, 16), (b.val, 11), (m.val, 5)])
  | .vredmax d a b m => .word (put 0x7c000003 [(d.val, 21), (a.val, 16), (b.val, 11), (m.val, 5)])
  | .vredand d a b m => .word (put 0x7c000004 [(d.val, 21), (a.val, 16), (b.val, 11), (m.val, 5)])
  | .vredor d a b m => .word (put 0x7c000005 [(d.val, 21), (a.val, 16), (b.val, 11), (m.val, 5)])
  | .vscan d a b m x => .word (put 0x7c000006 [(d.val, 21), (a.val, 16), (b.val, 11), (m.val, 5), (x.toNat, 4)])
  | .vscanmax d a b m x => .word (put 0x7c000007 [(d.val, 21), (a.val, 16), (b.val, 11), (m.val, 5), (x.toNat, 4)])
  | .vlift d a b m => .word (put 0x80000000 [(d.val, 21), (a.val, 16), (b.val, 11), (m.val, 5)])
  | .vsink d a b m => .word (put 0x80000001 [(d.val, 21), (a.val, 16), (b.val, 11), (m.val, 5)])
  | .vperm d a b m => .word (put 0x80000002 [(d.val, 21), (a.val, 16), (b.val, 11), (m.val, 5)])
  | .vpress d a m => .word (put 0x80000003 [(d.val, 21), (a.val, 16), (m.val, 5)])
  | .vrank d m => .word (put 0x80000004 [(d.val, 21), (m.val, 5)])
  | .vbcast d b m => .word (put 0x80000005 [(d.val, 21), (b.val, 11), (m.val, 5)])
  | .vextr d a b => .word (put 0x80000006 [(d.val, 21), (a.val, 16), (b.val, 11)])
  | .vput d a b => .word (put 0x80000007 [(d.val, 21), (a.val, 16), (b.val, 11)])
  | .vupd d a b m => .word (put 0x80000008 [(d.val, 21), (a.val, 16), (b.val, 11), (m.val, 5)])
  | .vupdAdd d a b m => .word (put 0x80000018 [(d.val, 21), (a.val, 16), (b.val, 11), (m.val, 5)])
  | .vtopk d a b m => .word (put 0x80000009 [(d.val, 21), (a.val, 16), (b.val, 11), (m.val, 5)])
  | .mand d a b => .word (put 0x84000000 [(d.val, 20), (a.val, 14), (b.val, 8)])
  | .mor d a b => .word (put 0x84000001 [(d.val, 20), (a.val, 14), (b.val, 8)])
  | .mxor d a b => .word (put 0x84000002 [(d.val, 20), (a.val, 14), (b.val, 8)])
  | .mnot d a => .word (put 0x84000003 [(d.val, 20), (a.val, 14)])
  | .mpopc d a => .word (put 0x84000004 [(d.val, 20), (a.val, 14)])
  | .mfirst d a => .word (put 0x84000005 [(d.val, 20), (a.val, 14)])
  | .mtos d a b => .word (put 0x84000006 [(d.val, 20), (a.val, 14), (b.val, 8)])
  | .stom d a b => .word (put 0x84000007 [(d.val, 20), (a.val, 14), (b.val, 8)])
  | .mset d a b => .word (put 0x84000008 [(d.val, 20), (a.val, 14), (b.val, 8)])
  | .vld d b m c f => .word (put 0x88000000 [(d.val, 21), (b.val, 16), (m.val, 5), (c.val, 1), (f.toNat, 0)])
  | .vlds d b s m c f => .word (put 0x8c000000 [(d.val, 21), (b.val, 16), (s.val, 11), (m.val, 5), (c.val, 1), (f.toNat, 0)])
  | .vldx d b v m c f => .word (put 0x90000000 [(d.val, 21), (b.val, 16), (v.val, 11), (m.val, 5), (c.val, 1), (f.toNat, 0)])
  | .vst d b m c => .word (put 0x94000000 [(d.val, 21), (b.val, 16), (m.val, 5), (c.val, 1)])
  | .vsts d b s m c => .word (put 0x98000000 [(d.val, 21), (b.val, 16), (s.val, 11), (m.val, 5), (c.val, 1)])
  | .vstx d b v m c => .word (put 0x9c000000 [(d.val, 21), (b.val, 16), (v.val, 11), (m.val, 5), (c.val, 1)])
  | .vstxa d b v m c f => .word (put 0xa0000000 [(d.val, 21), (b.val, 16), (v.val, 11), (m.val, 5), (c.val, 1), (f.toNat, 0)])
  | .vshare d a => .word (put 0xa4000000 [(d.val, 21), (a.val, 16)])
  | .vcat d a b => .word (put 0xa4000001 [(d.val, 21), (a.val, 16), (b.val, 11)])
  | .vtrim d a f b => .word (put 0xa4000002 [(d.val, 21), (a.val, 16), (f.val, 11), (b.val, 6)])
  | .vsplit d a n => .word (put 0xa4000003 [(d.val, 21), (a.val, 16), (n.val, 11)])
  | .vpack d a => .word (put 0xa4000004 [(d.val, 21), (a.val, 16)])
  | .vfree a => .word (put 0xa4000005 [(a.val, 16)])
  | .vdesc d a => .word (put 0xa4000006 [(d.val, 21), (a.val, 16)])
  | .vlen d a => .word (put 0xa4000007 [(d.val, 21), (a.val, 16)])
  | .clmap d a g b => .word (put 0xa8000000 [(d.val, 21), (a.val, 16), (g.val, 11), (b.val, 6)])
  | .clcomp d a g => .word (put 0xa8000001 [(d.val, 21), (a.val, 16), (g.val, 11)])
  | .clscan d a => .word (put 0xa8000002 [(d.val, 21), (a.val, 16)])
  | .clapply d a b => .word (put 0xa8000003 [(d.val, 21), (a.val, 16), (b.val, 11)])
  | .clmask d a b => .word (put 0xa8000004 [(d.val, 20), (a.val, 11), (b.val, 6)])
  | .tbind a s => .word (put 0xac000000 [(a.val, 16), (s.val, 5)])
  | .ttgt s => .word (put 0xac000001 [(s.val, 5)])
  | .twait s => .word (put 0xac000002 [(s.val, 5)])
  | .tget d s => .word (put 0xac000003 [(d.val, 21), (s.val, 5)])
  | .tfree s => .word (put 0xac000004 [(s.val, 5)])
  | .pat d a b m p => .word (put 0xb0000000 [(d.val, 21), (a.val, 16), (b.val, 11), (m.val, 5), (p.val, 0)])
  | .hadd d a => .half (put 1024 [(d.val, 5), (a.val, 0)])
  | .hsub d a => .half (put 2048 [(d.val, 5), (a.val, 0)])
  | .hand d a => .half (put 3072 [(d.val, 5), (a.val, 0)])
  | .hor d a => .half (put 4096 [(d.val, 5), (a.val, 0)])
  | .hmov d a => .half (put 5120 [(d.val, 5), (a.val, 0)])
  | .hinc d imm => .half (put 6144 [(d.val, 5), (imm.toNat, 0)])
  | .hshl d sh => .half (put 7168 [(d.val, 5), (sh.val, 0)])
  | .hldd d b off => .half (put 8192 [(d.val, 7), (b.val, 4), (off.val, 0)])
  | .hstd d b off => .half (put 9216 [(d.val, 7), (b.val, 4), (off.val, 0)])
  | .hbz a off => .half (put 10240 [(a.val, 5), (off.toNat, 0)])
  | .hbnz a off => .half (put 11264 [(a.val, 5), (off.toNat, 0)])
  | .hjmp off => .half (put 12288 [(off.toNat, 0)])
  | .hvadd d a => .half (put 13312 [(d.val, 7), (a.val, 4)])
  | .mcfg tyA tyB acc m64 n64 k tb ta => .long (put 0xb4000000 [(tyA.val, 20), (tyB.val, 18), (acc.toNat, 17), (m64.toNat, 16), (n64.toNat, 15), (k.val, 9), (tb.toNat, 1), (ta.toNat, 0)]) 0
  | .mma u ac rel a b => .long (put 0xb4400000 [(u.val, 18), (ac.val, 16), (rel.toNat, 15)]) (put 0 [(a.val, 27), (b.val, 22)])
  | .mmasp u ac rel a b c => .long (put 0xb4800000 [(u.val, 18), (ac.val, 16), (rel.toNat, 15)]) (put 0 [(a.val, 27), (b.val, 22), (c.val, 17)])
  | .mzero u ac => .long (put 0xb4c00000 [(u.val, 18), (ac.val, 16)]) 0
  | .mdrain u ac cv rm scaled d s => .long (put 0xb5000000 [(u.val, 18), (ac.val, 16), (cv.val, 12), (rm.val, 9), (scaled.toNat, 8)]) (put 0 [(d.val, 27), (s.val, 22)])
  | .mwait n => .long (put 0xb5400000 [(n.val, 14)]) 0
  | .cpy c q cnt dst src shape pitch ctr => .long (put 0xb8000000 [(c.val, 17), (q.val, 15), (cnt.toNat, 14)]) (put 0 [(dst.val, 27), (src.val, 22), (shape.val, 17), (pitch.val, 12), (ctr.val, 7)])
  | .cpyg c q cnt bound fill dst src shape pitch ctr vidx => .long (put 0xb8400000 [(c.val, 17), (q.val, 15), (cnt.toNat, 14), (bound.val, 9), (fill.toNat, 0)]) (put 0 [(dst.val, 27), (src.val, 22), (shape.val, 17), (pitch.val, 12), (ctr.val, 7), (vidx.val, 2)])
  | .cpys c q cnt bound dst src shape pitch ctr vidx => .long (put 0xb8800000 [(c.val, 17), (q.val, 15), (cnt.toNat, 14), (bound.val, 9)]) (put 0 [(dst.val, 27), (src.val, 22), (shape.val, 17), (pitch.val, 12), (ctr.val, 7), (vidx.val, 2)])
  | .cpyf c q cnt fill dst shape pitch ctr => .long (put 0xb8c00000 [(c.val, 17), (q.val, 15), (cnt.toNat, 14), (fill.toNat, 0)]) (put 0 [(dst.val, 27), (shape.val, 17), (pitch.val, 12), (ctr.val, 7)])
  | .trapNone => .word (put 0x50000000 [])
  | .trapReadTsw => .word (put 0x50000001 [])
  | .trapReadViolationLog => .word (put 0x50000002 [])
  | .trapAbort => .word (put 0x50000003 [])
  | .trapRegisterFaultRecord => .word (put 0x50000008 [])
  | .trapResumeMcc => .word (put 0x50000009 [])
  | .exit => .word (put 0x50000080 [])
  | .yield => .word (put 0x500000c0 [])
  | .xret => .word (put 0x50000100 [])
  | .hnop => .half (put 0 [])
  | .hwait => .half (put 14336 [])
  | .hexit => .half (put 15360 [])
  | .lbudWrite => .event
  | .fflagsWrite => .event
  | .vstartWrite => .event
  | .clmodeWrite => .event
  | .preqWrite => .event
  | .tswpWrite => .event
  | .registerWrite => .event
  | .vectorCourse => .event
  | .vectorEntryComplete => .event
  | .readQueueReturn => .event
  | .vectorFaultReport => .event
  | .scalarFaultReport => .event
  | .decodeFault => .event
  | .exitPerform => .event
  | .xretResume => .event
  | .yieldEnd => .event
  | .ffStallEnd => .event
  | .leafAllocRetry => .event
  | .reclaimStep => .event
  | .watermarkWaitEnd => .event
  | .barrierPhaseComplete => .event
  | .leaveGrant => .event
  | .powerBudgetSet => .event
  | .powcapSet => .event
  | .casPriorityExpiry => .event
  | .memoryAccessComplete => .event
  | .copyRow => .event
  | .tileEntryExecute => .event
  | .patternLoadBind => .event
  | .queueBind => .event
  | .packetAccept => .event
  | .queueLinkPoll => .event
  | .packetReadRetry => .event
  | .launchStart => .event
  | .coreAssign => .event
  | .iterationHandout => .event
  | .gangShareStart => .event
  | .gangClusterChoice => .event
  | .launchAgeing => .event
  | .launchPreempt => .event
  | .launchComplete => .event
  | .coreSave => .event
  | .coreRestore => .event
  | .contextSwapOut => .event
  | .contextSwapIn => .event
  | .containment => .event
  | .tlbInvalidate => .event
  | .tlbInvalidateComplete => .event
  | .pageWalk => .event
  | .demandPageMap => .event
  | .flitReceive => .event
  | .flitReplay => .event
  | .linkDown => .event
  | .linkRetrain => .event
  | .linkRetire => .event
  | .hostLinkError => .event
  | .deviceReset => .event
  | .rollbackRaise => .event
  | .attestationRequest => .event
  | .correctedError => .event
  | .patrolScrub => .event
  | .linePoison => .event
  | .scratchpadPoison => .event
  | .leafError => .event
  | .leafErrorCountClear => .event
  | .freeListRebuild => .event
  | .channelRetire => .event
  | .healthBlockUpdate => .event
  | .scrubPassCheck => .event
  | .hostBarAccess => .event
  | .contextCreate => .event
  | .contextDestroy => .event
  | .debuggerResume => .event
  | .ethernetFrameReceive => .event
  | .uncorrectableStructureError => .event

end Sys2Proof
end

