-- ==== Sys2Proof/Config.lean ====
section
/-!
DEFINITION. What the manual leaves to the part or leaves open: constants without a body, so that a claim
holds whatever they are, and the sizes the manual fixes.
-/

namespace Sys2Proof.Config

/-- The cycles that have gone by at a csrr of CYC since the one before (R269): timing is no part of the model, so the number
is free; the first argument is the number of earlier draws, the second the counter (log 3). -/
opaque freeCyc : Nat → Nat → Nat

/-- SHAKE256 with 64 bytes of output (R376, R378; FIPS 202 is not in the manual: log 13). -/
opaque shake256 : List (BitVec 8) → BitVec 512

/-- ML-DSA.Verify of FIPS 204: public key, message, context string, signature (R376; log 13). -/
opaque mldsaVerify : List (BitVec 8) → List (BitVec 8) → List (BitVec 8) → List (BitVec 8) → Bool

/-- ML-DSA.Sign by the device identity key (R379): hedged, so it takes the number of earlier draws; message,
context string; the 3,309 bytes of the signature, as one number of 26,472 bits (log 13). -/
opaque mldsaSign : Nat → List (BitVec 8) → List (BitVec 8) → BitVec 26472

/-- The home channel of a line of device memory (R14): fixed by the physical address (log 16). -/
opaque homeChannel : Nat → Fin 256

/-- Values of h0 to h7 that a pattern reads before writing them would be open (R253); the verifier rejects
such patterns (R251), so no program sees one. -/
opaque freeTemp : Nat → BitVec 64

/-- The operand code that a poisoned accumulator's report holds: R241 and R227 give codes to operands only, so the
value is free; the argument is the number of earlier draws (log 3). -/
opaque freeOpnd : Nat → Fin 4

/-- What the 4 bytes at a place of an image page hold to which R363 gives no layout; the arguments are the number of earlier draws and
the place (log 75). -/
opaque imageUnit : Nat → Nat → Nat

/-- Bytes of one scratchpad (R11). -/
def spadBytes : Nat := 2 ^ 20
/-- Bytes of the scratchpad window of a cluster (R137). -/
def windowBytes : Nat := 2 ^ 23
/-- Leaves of one pool (R11). -/
def poolLeaves : Nat := 8192
/-- The largest chain in bytes (R67). -/
def maxChain : Nat := 2 ^ 20 - 1
/-- Entries of a vector queue (R264). -/
def vqDepth : Nat := 64
/-- Entries of a synchronising read queue (R158). -/
def rqDepth : Nat := 16
/-- Entries of a tile queue (R228). -/
def tqDepth : Nat := 32
/-- The largest value of an outstanding-operation counter (R210). -/
def counterMax : Nat := 63
/-- Products an rn30 accumulator holds exactly (R47). -/
def exactProducts : Nat := 32640
/-- Copies that a copy queue holds (R363). -/
def cqDepth : Nat := 16
/-- Micro-operations of one pattern store (R251). -/
def patternSlots : Nat := 2048

end Sys2Proof.Config
end

