-- ==== Sys2Proof/Machine/State.lean ====
section
/-!
DEFINITION. The state of a Larauko 64, as plain data: every register, queue, pool, table and record that the
manual names, and the state right after reset. Threads, cores and clusters stand in sparse tables; an entry
that is not listed is at its reset value.
-/

namespace Sys2Proof.Machine

/-- Memory as a list of (address, byte) pairs: addresses strictly rising, no byte listed that equals what an
unlisted address reads as. -/
abbrev Memory := List Host.Cell

/-- What an unlisted address reads as: zero in device memory (Usilaem writes every line with zeroes, R376) and in
a scratchpad that nothing has written (R23) (log 7). -/
def unlisted : Byte := 0

/-- The canonical form of a memory. -/
def Memory.wf : Memory → Bool
  | [] => true
  | [(_, b)] => decide (b ≠ unlisted)
  | (a, b) :: (a', b') :: r => decide (b ≠ unlisted) && decide (a < a') && Memory.wf ((a', b') :: r)

/-- A chain descriptor (R65). EMPTY is `len = 0`, and every other field is then 0. -/
structure Desc where
  part : Bool
  excl : Bool
  skip : Nat
  len : Nat
  tail : Nat
  head : Nat
deriving DecidableEq, Repr

/-- The descriptor of an empty chain (R65). -/
def Desc.empty : Desc := { part := false, excl := false, skip := 0, len := 0, tail := 0, head := 0 }

/-- A held leaf: data and header (R69), the thread it is charged to (R76) and its poison (R384). Byte k of the
data is bits [8k+7 : 8k]. -/
structure Leaf where
  data : Nat
  lo : Nat
  len : Nat
  refs : Nat
  last : Bool
  next : Nat
  owner : Fin 4
  poison : Bool
  hdrPoison : Bool
deriving DecidableEq, Repr

/-- The second operand of a vector instruction: a vector register, or bits captured at push (R61, R165). -/
inductive Src where
  | v (r : Reg)
  | w (x : Word)
  | imm (i : Int)
deriving DecidableEq, Repr

/-- The integer element operations (R169). -/
inductive IntOp where
  | add | sub | rsub | mul | mulh | div | rem | min | max | adds | subs | and | or | xor | shl | shr
deriving DecidableEq, Repr

/-- The floating-point element operations (R172). -/
inductive FpOp where
  | add | sub | mul | div | fma | min | max | abs | sqrt | rcp | rsqrt | exp2
deriving DecidableEq, Repr

/-- The compare relations (R174). -/
inductive CmpOp where
  | eq | ne | lt | le | unord | gt | ge
deriving DecidableEq, Repr

/-- The reductions (R175). -/
inductive RedOp where
  | sum | sumo | min | max | and | or
deriving DecidableEq, Repr

/-- The mask operations (R186). -/
inductive MaskOp where
  | and | or | xor | not
deriving DecidableEq, Repr

/-- How a vector memory instruction forms addresses (R203). -/
inductive MemForm where
  | unit | strided | indexed
deriving DecidableEq, Repr

/-- The four copies (R216). -/
inductive CopyKind where
  | cpy | cpyg | cpys | cpyf
deriving DecidableEq, Repr

/-- A copy as pushed, with its captured g operands (R212, R213). -/
structure CopyOp where
  kind : CopyKind
  cls : Nat
  q : Fin 4
  ctr : Option Word
  bound : Word
  fill : Byte
  dst : Word
  src : Word
  shape : Word
  pitch : Word
  vidx : Reg
deriving DecidableEq, Repr

/-- What a vector queue entry does, with its captured g operands (R61, R264). -/
inductive VOp where
  | setM46 (n : Nat)
  | int (op : IntOp) (d a : Reg) (b : Src) (m : MaskF) (x : Bool)
  | fp (op : FpOp) (d a : Reg) (b : Src) (m : MaskF) (x : Bool)
  | cvt (d a : Reg) (ty : Nat) (m : MaskF) (x : Bool)
  | cmp (op : CmpOp) (md : MaskF) (a : Reg) (b : Src) (m : MaskF)
  | red (op : RedOp) (d : Reg) (a : Reg) (init : Word) (m : MaskF)
  | scan (max : Bool) (d a : Reg) (g : Word) (m : MaskF) (x : Bool)
  | slide (up : Bool) (d a : Reg) (o : Word) (m : MaskF)
  | perm (d a b : Reg) (m : MaskF)
  | press (d a : Reg) (m : MaskF)
  | rank (d : Reg) (m : MaskF)
  | bcast (d : Reg) (w : Word) (m : MaskF)
  | extr (d : Reg) (a : Reg) (i : Word)
  | put (d : Reg) (i w : Word)
  | upd (add : Bool) (d a b : Reg) (m : MaskF)
  | topk (d a : Reg) (k : Word) (m : MaskF)
  | mask (op : MaskOp) (md ma mb : MaskF)
  | mpopc (d : Reg) (ma : MaskF)
  | mfirst (d : Reg) (ma : MaskF)
  | mtos (d : Reg) (ma : MaskF) (i : Word)
  | stom (md : MaskF) (w i : Word)
  | mset (md : MaskF) (lo n : Word)
  | load (f : MemForm) (d : Reg) (base stride : Word) (idx : Reg) (m : MaskF) (cls : Nat) (ff : Bool)
  | store (f : MemForm) (s : Reg) (base stride : Word) (idx : Reg) (m : MaskF) (cls : Nat)
  | stxa (s : Reg) (base : Word) (idx : Reg) (m : MaskF) (cls : Nat) (sys : Bool)
  | share (d a : Reg)
  | cat (d a b : Reg)
  | trim (d a : Reg) (f b : Word)
  | split (d a : Reg) (n : Word)
  | pack (d a : Reg)
  | free (a : Reg)
  | desc (d : Reg) (a : Reg)
  | len (d : Reg) (a : Reg)
  | clmap (d a : Reg) (base bound : Word)
  | clcomp (d a : Reg) (g : Reg)
  | clscan (d a : Reg)
  | clapply (d a : Reg) (q : Word)
  | clmask (md : MaskF) (base q : Word)
  | tbind (a : Reg) (s : Fin 16)
  | ttgt (s : Fin 16)
  | twait (s : Fin 16)
  | tget (d : Reg) (s : Fin 16)
  | tfree (s : Fin 16)
  | pat (d a b : Reg) (m : MaskF) (n : Fin 32) (p0 p1 : Word)
  | copy (c : CopyOp)
deriving DecidableEq, Repr

/-- A fault as its cause gives it (R356): cause code, XELEM, XINFO and the index of resumption. `leaf` tells poison that an entry
meets in a chain from poison in the memory that it reads: only the second is an access fault (R207). -/
structure FaultInfo where
  cause : Nat
  elem : Nat
  info : Nat
  start : Nat
  leaf : Bool := false
deriving DecidableEq, Repr

/-- A byte stream read from a chain: `len` bytes, the first in the low bits of `val`; the byte ranges
[lo, hi) that lie in poisoned leaves (R72, R384). -/
structure Stream where
  val : Nat
  len : Nat
  bad : List (Nat × Nat)
deriving DecidableEq, Repr

/-- A bookmark (R263). -/
structure Bookmark where
  valid : Bool
  frontier : Word
  base : Word
  limit : Word
deriving DecidableEq, Repr

/-- An entry of a vector queue (R264, R272). `old` is the chain it has held since it began, `part` its result so
far, `extra` chains a handler left in its destination (R276), `prog` its progress index, `flags` the flags accrued
since it began or resumed, `snap` the sources a vupd holds as it began (R184), `bk` the bookmark of its class as it
stood at push (R263), `names` the tile queue entries a tfree waits for (R225), `writes` whether completion writes
the destination and `keepExcl` whether with the EXCL that `part` has, `stamp` its place in the thread's program
order (log 2). A store keeps the device memory lines that it has written into, those of them that were poisoned afterwards,
and its elements that a violation dropped (R205, R382). -/
structure VEntry where
  op : VOp
  pc : Word
  vl : Nat
  vtype : Nat
  fill : Word
  xbound : Word
  clmode : Nat
  clrec : Nat
  budget : Nat
  stamp : Nat
  inHandler : Bool
  begun : Bool
  finished : Bool
  stalled : Bool
  prog : Nat
  old : Desc
  part : Desc
  extra : List Desc
  writes : Bool
  keepExcl : Bool
  flags : BitVec 7
  snap : List Stream
  gres : Word
  names : List Nat
  bk : Bookmark
  wrote : List Nat
  struck : List Nat
  dropped : List Nat
  fault : Option FaultInfo
deriving DecidableEq, Repr

/-- An entry of the synchronising read queue: the register, and the value once it has returned (R158); for a csrr
that the queue serves (R87), the CSR's number and the flags of what precedes it and has completed so far (R58); and
whether the entry it waits for has been frozen (R273). -/
structure RqItem where
  reg : Reg
  val : Option Word
  stamp : Nat
  csr : Option Nat
  base : BitVec 7
  froze : Bool
deriving DecidableEq, Repr

/-- Where an address leads (R137): a byte of a scratchpad, of device memory or of a peer's memory (each
numbered as the State's memories are), with the serial bit of the page; or nowhere, which is a violation
response with its code (R138, R361). -/
inductive Target where
  | spad (key : Nat)
  | dev (pa : Nat) (ser : Bool)
  | peer (pdev : Nat) (pa : Nat) (ser : Bool)
  | violation (code : Nat)
deriving DecidableEq, Repr

/-- What an outstanding scalar access does (R136, R140). -/
inductive AccKind where
  | ld (signed : Bool)
  | st
  | amo (op : AmoOp) (signed : Bool)
  | publish (size : Word) (at_ : Word)
  | append (size : Word)
deriving DecidableEq, Repr

/-- A scalar access issued and not yet performed (R127, R139), with the address of its instruction: `reg` receives its
value; `val` is the value
stored or the operand, `cmp` the comparand of a cas; `order` 0 .rlx, 1 .acq, 2 .rel, 3 .ar; `fill` FILL as it
stood at issue. -/
structure Access where
  pc : Word
  kind : AccKind
  va : Word
  size : Nat
  tgt : Target
  cls : Nat
  reg : Reg
  val : Word
  cmp : Word
  order : Nat
  scope : Nat
  fill : Word
  stamp : Nat
deriving DecidableEq, Repr

/-- A value that a load of a thread has taken before it is issued (R291; log 2): n bytes at an address, where that led. -/
structure EarlyRead where
  va : Word
  size : Nat
  tgt : Target
  val : Nat
deriving DecidableEq, Repr

/-- An entry of the strip record (R148); the list that holds them is in order of use, most recent first. -/
structure Strip where
  key : Word
  count : Word
  strikes : Nat
deriving DecidableEq, Repr

/-- What a handler entry sets aside (R277): with the frozen queue the scalar accesses that it holds back (R139). `carry` is the PCARRY that the frozen entries go on with and `carries` the values
that those from a stamp on read, when they are not the one in force; `wrote` says that the handler has written PCARRY (R87). -/
structure Frozen where
  vl : Nat
  vtype : Nat
  maxvl : Nat
  clrec : Nat
  m46 : BitVec 4096
  vq : List VEntry
  rq : List RqItem
  out : List Access
  carry : Option Word
  carries : List (Nat × Word)
  wrote : Bool
deriving DecidableEq, Repr

/-- A grant computed by a vsetl or vsetlw (R160). -/
structure Grant where
  d : Reg
  vtype : Nat
  maxvl : Nat
  vl : Nat
  m46 : Nat
  clrec : Nat
deriving DecidableEq, Repr

/-- Why a thread does not issue although it is running. -/
inductive Wait where
  | none
  /-- A yield (R152). -/
  | yield
  /-- The first-fault stall (R266). -/
  | firstFault
  /-- A vsetlw whose watermark has not arrived: the device watermark and the value needed (R163). -/
  | watermark (wm : Nat) (need : Nat) (g : Grant)
  /-- Arrived at a barrier (R259). -/
  | barrier (n : Fin 16)
  /-- A leave request in the arbiter's queue: the kinds asked for (R154). -/
  | leave (kinds : Nat)
  /-- A restored thread whose leave, held before the save, is asked for again (R362). -/
  | releave (kinds : Nat)
  /-- An exit that waits for its drains (R151). -/
  | exit
  /-- An xret that waits for the handler's vector instructions (R153). -/
  | xret
deriving DecidableEq, Repr

/-- TSTATE [1:0] (R349). -/
inductive TState where
  | idle | running | stopped | saved
deriving DecidableEq, Repr

/-- A thread: its registers, queues and position (R21, R59 to R65, R86, R349). The counters ld, st, cp and tl
(R210, R226, R228) and LHELD (R82) are computed from the queues and the pool. `carryNext` holds values of PCARRY,
each read by the entries from a stamp on (R87). `release` holds the address of a wmpub that waits, and that of an access of
the thread that lost every path to its peer meanwhile (R388). `early` holds values that loads still to be issued have taken (log
2). -/
structure Thread where
  g : Vector Word 32
  pc : Word
  ir : BitVec 32
  v : Vector Desc 32
  m : Vector (BitVec 4096) 48
  vl : Nat
  vtype : Nat
  vstart : Word
  maxvl : Nat
  fill : Word
  lbud : Nat
  budget : Nat
  hdrLbud : Nat
  xbound : Word
  fflags : BitVec 7
  frm : BitVec 3
  pcarry : Word
  carryNext : List (Nat × Word)
  clmode : Nat
  clrec : Nat
  bk : Vector Bookmark 4
  vcp : Word
  stage : Nat
  ufvec : Word
  ufmask : Word
  xcause : Word
  xpc : Word
  xvpc : Word
  xqpos : Word
  xelem : Word
  xinfo : Word
  xret : Word
  nv : Nat
  nm : Nat
  lastGrant : Nat
  strip : List Strip
  vq : List VEntry
  rq : List RqItem
  out : List Access
  frozen : Option Frozen
  pend : Option FaultInfo
  pendDecode : Bool
  tstate : TState
  ctx : Fin 4096
  preq : Bool
  img : Word
  wait : Wait
  leaveKinds : Nat
  launch : Option Nat
  serial : Nat
  record : Option Word
  release : Option (Word × Option Word)
  nextStamp : Nat
  early : List EarlyRead
deriving DecidableEq, Repr

/-- The states of a tile slot (R220). -/
inductive SlotState where
  | empty | bound | target | filled
deriving DecidableEq, Repr

/-- A tile slot (R220 to R226): `owner` is the thread whose tl counter it counts in, and for a target the thread
its leaves are charged to. -/
structure Slot where
  st : SlotState
  chain : Desc
  scale : Desc
  rowLen : Nat
  ty : Nat
  group : Nat
  owner : Fin 4
deriving DecidableEq, Repr

/-- A copy in a copy queue (R212, R216, R219): `row` is the next row, `idx` the index-chain share, `added` the
rows whose counter addition has been made, `leave` whether it holds power leave. -/
structure Copy where
  op : CopyOp
  owner : Fin 4
  fillw : Word
  idx : Desc
  stamp : Nat
  row : Nat
  added : Nat
  leave : Bool
  ctx : Fin 4096
  launch : Nat
deriving DecidableEq, Repr

/-- A slot of the pattern store: the context's tag, the micro-operation, and whether its parity is bad (R251,
R283). -/
structure PatSlot where
  ctx : Fin 4096
  word : Word
  bad : Bool
deriving DecidableEq, Repr

/-- A translation held by a TLB, with its context (R354): the page entry and its level. -/
structure TlbEntry where
  ctx : Fin 4096
  page : Nat
  level : Nat
  entry : Nat
deriving DecidableEq, Repr

/-- A vector core (R11, R12): its pool (held leaves; leaves from `fresh` up have never been taken; `freed` are
free again, the oldest first), reclaim queue, retired leaves and error counts, slots, copy queues, pattern
store, TLB, the launch it serves and the context it last served (R289, R341, R367). -/
structure Core where
  leaves : SMap Leaf
  fresh : Nat
  freed : List Nat
  reclaim : List Nat
  retired : List Nat
  leafErrs : SMap Nat
  slots : Vector Slot 16
  cqs : Vector (List Copy) 4
  store : SMap PatSlot
  tlb : List TlbEntry
  launch : Option Nat
  lastCtx : Option (Fin 4096)
  assignedAt : Nat
deriving DecidableEq, Repr

/-- The configuration of the matrix engine (R230): type codes 0 e4m3, 1 e5m2, 2 bf16, 3 i8. -/
structure MatCfg where
  tyA : Nat
  tyB : Nat
  rn30 : Bool
  m64 : Bool
  n64 : Bool
  k : Nat
  ta : Bool
  tb : Bool
deriving DecidableEq, Repr

/-- What a tile queue entry does, with its captured operands (R228). -/
inductive TileOp where
  | mcfg (c : MatCfg)
  | mma (u : Fin 16) (ac : Fin 4) (rel : Bool) (a b : Word)
  | mmasp (u : Fin 16) (ac : Fin 4) (rel : Bool) (a b c : Word)
  | mzero (u : Fin 16) (ac : Fin 4)
  | mdrain (u : Fin 16) (ac : Fin 4) (cv : Nat) (rm : Nat) (scale : Option Word) (d : Word)
deriving DecidableEq, Repr

/-- An entry of the tile queue (R228). -/
structure TileEntry where
  op : TileOp
  pc : Word
  stamp : Nat
deriving DecidableEq, Repr

/-- Who asks for or holds power leave (R281). -/
inductive LeaveParty where
  | thread (t : Tid)
  | copy (co : Fin 8) (q : Fin 4) (th : Fin 4)
  | clmask (t : Tid)
  | tile
deriving DecidableEq, Repr

/-- A cluster (R11, R12): tile queue, engine configuration, accumulators (unit * 4096 + ac * 1024 + row * 32 +
column) and product counts, whether the engine has stopped at a fault (`tileFault`), the K index from which its oldest entry goes on
(`tileProg`), TSW, barriers (launch * 16 + number, with the arrivals, each named by its thread's iteration), power cap and
leave arbiter, the MCC's launch and those it has finished, the launch whose GANG share it is kept for (R342), the queue last
served (R341), accumulator elements with an uncorrectable error (R380), the cluster TLB. -/
structure Cluster where
  tq : List TileEntry
  tileProg : Nat
  tileFault : Bool
  cfg : MatCfg
  acc : SMap Nat
  counts : SMap Nat
  tsw : BitVec 8
  bars : SMap (List Nat)
  powcap : Nat
  budget : Nat
  held : List (LeaveParty × Nat)
  waiting : List (LeaveParty × Nat)
  mccLaunch : Option Nat
  mccDone : List Nat
  kept : Option Nat
  lastQueue : Nat
  accBad : List Nat
  tlb : List TlbEntry
deriving DecidableEq, Repr

/-- A pattern binding (R366): the operands the pattern reads (o2, o3, p0, p1), its length minus 1, its first
slot, and the words last loaded for it (R252, R378). -/
structure Binding where
  valid : Bool
  reads : Nat
  len : Nat
  off : Nat
  words : List Word
deriving DecidableEq, Repr

/-- A context table entry (R348), the ranges served on demand (R356), the frames it needs (R385), the patterns ever bound (R378), whether
its error record has been written (R369) and an invalidation that is pending (R354). -/
structure Context where
  valid : Bool
  res : Bool
  dead : Bool
  swap : Bool
  wmlo : Nat
  wmcnt : Nat
  ptroot : Nat
  spbase : Word
  imgdir : Nat
  vlog : Nat
  errec : Nat
  binds : SMap Binding
  measured : SMap (List Word)
  demand : List (Nat × Nat)
  frames : Nat
  recorded : Bool
  invalidating : Bool
deriving DecidableEq, Repr

/-- A bound launch queue (R331, R333): the frame of its block, its context, CEIL and MSI-X vector, and the last
sequence number that passed the test of R333; `retry` marks a link whose packet could not be read (R338). -/
structure Queue where
  block : Nat
  ctx : Fin 4096
  ceil : Nat
  msix : Nat
  lastSeq : Nat
  retry : Bool
deriving DecidableEq, Repr

/-- The fields of a kernel header (R337). -/
structure Header where
  nv : Nat
  nm : Nat
  nbar : Nat
  tpc : Nat
  lbud : Nat
  spad : Nat
  mccent : Nat
  pats : Nat
  barcnt : Nat
  stack : Nat
deriving DecidableEq, Repr

/-- A wait entry of a packet (R336). -/
structure WaitEntry where
  queue : Nat
  seq : Nat
  start : Bool
deriving DecidableEq, Repr

/-- Where a launch stands (R344, R345); a completed or rejected one waits for DONE to pass it. -/
inductive LaunchState where
  | accepted | started | completed | rejected
deriving DecidableEq, Repr

/-- A launch (R334 to R345): packet and header fields, level at start and level now, share [lo, hi) of each
cluster, serials whose further stages are to be handed out (cluster, serial, next stage), GANG shares not yet
started and the clusters chosen for them, the clusters whose MCC it has started, and its place among the launches started. -/
structure Launch where
  queue : Nat
  ctx : Fin 4096
  seq : Nat
  entry : Word
  hdrVa : Word
  hdr : Header
  n : Nat
  c : Nat
  o1 : Nat
  o2 : Nat
  order : Bool
  gang : Bool
  preempt : Bool
  irq : Bool
  args : List Word
  stages : Nat
  soff : List Word
  wmbase : Nat
  wmclr : Nat
  level0 : Nat
  level : Nat
  waits : List WaitEntry
  st : LaunchState
  shares : SMap (Nat × Nat)
  partials : List (Nat × Nat × Nat)
  gangWaiting : List (Nat × Nat)
  gangChosen : SMap (Nat × Nat)
  mccStarted : List Nat
  startedAt : Nat
deriving DecidableEq, Repr

/-- A saved core or MCC (R363, R364): the threads, and the core with its leaves renumbered as save indices, from which it is restored.
`pages` are its pages in device memory, each with its kind. The barrier states of a launch stay in its cluster's record, under
the launch's number (log 75). -/
structure Image where
  ctx : Fin 4096
  launch : Nat
  cl : Fin 64
  co : Fin 8
  isMcc : Bool
  threads : List Thread
  core : Option Core
  tq : List TileEntry
  cfg : Option MatCfg
  acc : SMap Nat
  counts : SMap Nat
  tsw : BitVec 8
  tileFault : Bool
  tileProg : Nat
  onFlash : Bool
  pages : List (Nat × Nat)
deriving DecidableEq, Repr

/-- A serial region that an apnd or apub has acted on, by the key of its descriptor, with the publishes recorded and not
yet reached (R261, R262). -/
structure Region where
  pa : Nat
  records : List (Word × Word)
deriving DecidableEq, Repr

/-- LINKSTAT.STATE (R373). -/
inductive LinkState where
  | down | training | up | retired
deriving DecidableEq, Repr

/-- A Porron link (R371, R373): the next sequence number awaited, failed replays in a row and downs. Accesses to peers
are performed in one step (log 14), so no flit stays in a replay buffer between two steps. -/
structure Link where
  st : LinkState
  port : BitVec 8
  replay : Nat
  rxSeq : Nat
  fails : Nat
  downs : Nat
deriving DecidableEq, Repr

/-- Where the boot stands (R376). -/
inductive Boot where
  | reset | recovery | running
deriving DecidableEq, Repr

/-- The security root and the permanent records (R376 to R379, R384, R385): `entry` is where Usilaem started, `identity` and
`chain` the public identity key and its certificate chain, which the boot flash holds besides the image (R379). -/
structure Root where
  boot : Boot
  flash : List Byte
  keyHash : BitVec 512
  rollback : Nat
  measurement : BitVec 512
  svn : Nat
  entry : Nat
  identity : List Byte
  chain : List Byte
  draws : Nat
  retiredChannels : List Nat
  retiredLeaves : List (Nat × Nat)
deriving DecidableEq, Repr

/-- The counts of events (R381), those of device memory and of all other structures, what the channel criteria of R385 are
judged by (each poisoned line with the number of scrub passes since), and the page as it was last updated (R386). -/
structure Health where
  corrected : Nat
  uncorrected : Nat
  otherCorrected : Nat
  otherUncorrected : Nat
  struck : List Nat
  poisonedLines : List (Nat × Nat)
  retiring : List Nat
  block : List Byte
deriving DecidableEq, Repr

/-- One turn of the device: a thread's next instruction, or a device event with its operands (log 1). -/
inductive Turn where
  | run (t : Tid)
  | event (i : Instr) (a : EventArg)
deriving DecidableEq, Repr

/-- The whole device. `cur`, `agenda`, `ev`, `stalled` and `freeCtr` are the model's own (log 1, log 3). `cyc` holds
the CYC of each core and MCC (R269). `peerSeq` is the number of the next access of each
cluster of each peer, and `peerWait` holds those that have come before their turn (R371). `silent` names the pod positions that do not answer over the Porron links (R352;
log 121). `feLast` is the queue each front end served last (R343). -/
structure State where
  cur : Tid
  agenda : List Turn
  ev : EventArg
  stalled : Bool
  freeCtr : Nat
  cyc : SMap Nat
  threads : SMap Thread
  cores : SMap Core
  clusters : SMap Cluster
  mem : Memory
  spad : Memory
  peer : Memory
  poisonLines : List Nat
  poisonSpad : List Nat
  overlaid : List Nat
  watermarks : SMap Nat
  ctxs : SMap Context
  queues : SMap Queue
  launches : SMap Launch
  nextLaunch : Nat
  feLast : SMap Nat
  images : SMap Image
  regions : List Region
  casLists : SMap (List Tid)
  links : SMap Link
  peerSeq : SMap Nat
  peerWait : List FlitAccess
  silent : List Nat
  msix : List Nat
  aer : List Nat
  devPos : Nat
  blocks : List (Fin 4096 × Word × List (Fin 32 × List Word))
  root : Root
  health : Health
deriving DecidableEq, Repr

/-- Why the machine stops. Both are safe: a claim about such a run is only lost. -/
inductive Fault where
  /-- An access of the host, of Usilaem or of an Ethernet port to a physical address of 2^48 or above, which
  does not exist (R350): raised by HOST_BAR_ACCESS and ETHERNET_FRAME_RECEIVE. Safe. -/
  | noSuchAddress (addr : Nat)
deriving DecidableEq, Repr

/-- Why the model gives a step no meaning. -/
inductive Refusal where
  /-- An instruction that has no meaning yet: raised by exec. Safe. -/
  | notModelled (mnemonic : String)
deriving DecidableEq, Repr

/-- A bookmark that is not set (R263). -/
def Bookmark.none : Bookmark := { valid := false, frontier := 0, base := 0, limit := 0 }

/-- A thread that holds no iteration: every register at the value R86 and R8 give, or at zero (log 6). m46, which R8 excepts from
the masks that begin clear and to which it gives no value, begins clear as well (DESIGN CHOICE, log 6). -/
def Thread.reset : Thread :=
  { g := Vector.replicate 32 0, pc := 0, ir := 0, v := Vector.replicate 32 Desc.empty,
    m := Vector.replicate 48 0, vl := 0, vtype := 0, vstart := 0, maxvl := 0, fill := 0, lbud := 0,
    budget := 0, hdrLbud := 0, xbound := BitVec.allOnes 64, fflags := 0, frm := 0, pcarry := 0, carryNext := [], clmode := 0,
    clrec := 0, bk := Vector.replicate 4 Bookmark.none, vcp := 0, stage := 0, ufvec := 0, ufmask := 0,
    xcause := 0, xpc := 0, xvpc := 0, xqpos := 0, xelem := 0, xinfo := 0, xret := 0, nv := 0, nm := 0,
    lastGrant := 0, strip := [], vq := [], rq := [], out := [], frozen := none, pend := none,
    pendDecode := false, tstate := .idle, ctx := 0, preq := false, img := 0, wait := .none, leaveKinds := 0,
    launch := none, serial := 0, record := none, release := none, nextStamp := 0, early := [] }

/-- An EMPTY slot (R220). -/
def Slot.reset : Slot :=
  { st := .empty, chain := Desc.empty, scale := Desc.empty, rowLen := 0, ty := 0, group := 0, owner := 0 }

/-- A core after reset: every leaf free, in the order of their numbers (log 8). -/
def Core.reset : Core :=
  { leaves := [], fresh := 0, freed := [], reclaim := [], retired := [], leafErrs := [],
    slots := Vector.replicate 16 Slot.reset, cqs := Vector.replicate 4 [], store := [], tlb := [],
    launch := none, lastCtx := none, assignedAt := 0 }

/-- The configuration before a launch's first mcfg (R230). -/
def MatCfg.reset : MatCfg :=
  { tyA := 0, tyB := 0, rn30 := false, m64 := false, n64 := false, k := 8, ta := false, tb := false }

/-- A cluster after reset: no cap (R282), a budget of 16 (R281). -/
def Cluster.reset : Cluster :=
  { tq := [], tileProg := 0, tileFault := false, cfg := MatCfg.reset, acc := [], counts := [], tsw := 0,
    bars := [], powcap := 4096, budget := 16, held := [], waiting := [], mccLaunch := none, mccDone := [],
    kept := none, lastQueue := 0, accBad := [], tlb := [] }

/-- A context that does not exist (R348). -/
def Context.reset : Context :=
  { valid := false, res := false, dead := false, swap := false, wmlo := 0, wmcnt := 0, ptroot := 0, spbase := 0,
    imgdir := 0, vlog := 0, errec := 0, binds := [], measured := [], demand := [], frames := 0, recorded := false,
    invalidating := false }

/-- A link after reset: LINKSTAT reads 0 (R373). -/
def Link.reset : Link :=
  { st := .down, port := 0, replay := 0, rxSeq := 0, fails := 0, downs := 0 }

/-- The health block before its first update (R386): no channel and no leaf retired, 1,024 GB in service, every other field
0 (log 6). -/
def freshBlock : List Byte := List.replicate 33 0 ++ 4 :: List.replicate 4062 0

/-- The machine right after reset: no context, queue or launch, memories that read zero, every thread idle. The
boot flash and the fuses, which the manual fixes at manufacture, are empty (log 6). -/
def State.reset : State :=
  { cur := .vec 0 0 0, agenda := [], ev := EventArg.none, stalled := false, freeCtr := 0, cyc := [],
    threads := [], cores := [], clusters := [], mem := [], spad := [], peer := [], poisonLines := [],
    poisonSpad := [], overlaid := [], watermarks := [], ctxs := [], queues := [], launches := [], nextLaunch := 0, feLast := [],
    images := [], regions := [], casLists := [], links := [], peerSeq := [], peerWait := [], silent := [], msix := [], aer := [], devPos := 0, blocks := [],
    root := { boot := .reset, flash := [], keyHash := 0, rollback := 0, measurement := 0, svn := 0, entry := 0, identity := [],
              chain := [], draws := 0, retiredChannels := [], retiredLeaves := [] },
    health := { corrected := 0, uncorrected := 0, otherCorrected := 0, otherUncorrected := 0, struck := [],
                poisonedLines := [], retiring := [], block := freshBlock } }

end Sys2Proof.Machine
end

