-- ==== Sys2Proof/Machine/Bits.lean ====
section
/-!
DEFINITION. Sparse tables, memories byte by byte and least significant byte first (R3), and the readings of a
bit pattern as a signed or unsigned number.
-/

namespace Sys2Proof.Machine

/-- The entry of a table at a key. -/
def mapFind {α : Type} : SMap α → Nat → Option α
  | [], _ => none
  | (k, v) :: r, key => if k = key then some v else if key < k then none else mapFind r key

/-- The entry of a table at a key, or a default. -/
def mapGet {α : Type} (d : α) (m : SMap α) (key : Nat) : α := (mapFind m key).getD d

/-- Put an entry in a table, in key order. -/
def mapPut {α : Type} : SMap α → Nat → α → SMap α
  | [], key, v => [(key, v)]
  | (k, w) :: r, key, v =>
    if key < k then (key, v) :: (k, w) :: r
    else if key = k then (key, v) :: r
    else (k, w) :: mapPut r key v

/-- Take an entry out of a table. -/
def mapDel {α : Type} : SMap α → Nat → SMap α
  | [], _ => []
  | (k, w) :: r, key => if k = key then r else if key < k then (k, w) :: r else (k, w) :: mapDel r key

/-- One byte of a memory. -/
def memGet (m : Memory) (a : Nat) : Byte := mapGet unlisted m a

/-- Write one byte, keeping the canonical form: a byte equal to what an unlisted address reads as is not
listed. -/
def memPut (m : Memory) (a : Nat) (b : Byte) : Memory := if b = unlisted then mapDel m a else mapPut m a b

/-- `n` bytes from `a`, the first in the low bits (R3). -/
def memRead (m : Memory) (a : Nat) : Nat → Nat
  | 0 => 0
  | n + 1 => (memGet m a).toNat + 256 * memRead m (a + 1) n

/-- Write the `n` low bytes of `v` from `a`, the lowest first (R3). -/
def memWrite (m : Memory) (a : Nat) : Nat → Nat → Memory
  | 0, _ => m
  | n + 1, v => memWrite (memPut m a (BitVec.ofNat 8 v)) (a + 1) n (v / 256)

/-- Write a list of bytes from `a`. -/
def memWriteBytes (m : Memory) (a : Nat) : List Byte → Memory
  | [] => m
  | b :: r => memWriteBytes (memPut m a b) (a + 1) r

/-- `n` bytes from `a` as a list. -/
def memBytes (m : Memory) (a : Nat) : Nat → List Byte
  | 0 => []
  | n + 1 => memGet m a :: memBytes m (a + 1) n

/-- A memory with every byte of [lo, hi) zero. -/
def memClear (m : Memory) (lo hi : Nat) : Memory := m.filter fun c => decide (c.1 < lo) || decide (hi ≤ c.1)

/-- The number that `b` bits read as signed. -/
def toSigned (b v : Nat) : Int :=
  let u := v % 2 ^ b
  if 2 ^ b ≤ 2 * u then (u : Int) - (2 ^ b : Nat) else u

/-- A number as `b` bits, modulo 2^b. -/
def ofSigned (b : Nat) (i : Int) : Nat := (i % ((2 ^ b : Nat) : Int)).toNat

/-- `v` of `b` bits extended to 64 bits, with sign or with zeros. -/
def extend (signed : Bool) (b v : Nat) : Word :=
  if signed then BitVec.ofInt 64 (toSigned b v) else BitVec.ofNat 64 (v % 2 ^ b)

/-- The number of bits of a natural number: 0 for 0. -/
def bitLen (n : Nat) : Nat := if n = 0 then 0 else Nat.log2 n + 1

/-- The bits [lo+n-1 : lo] of a number. -/
def bitsOf (v lo n : Nat) : Nat := v / 2 ^ lo % 2 ^ n

/-- Bit i of a number. -/
def bitAt (v i : Nat) : Bool := decide (v / 2 ^ i % 2 = 1)

/-- A list of bytes as a number, the first byte lowest. -/
def bytesNat : List Byte → Nat
  | [] => 0
  | b :: r => b.toNat + 256 * bytesNat r

/-- The `n` low bytes of a number, the lowest first. -/
def natBytes : Nat → Nat → List Byte
  | 0, _ => []
  | n + 1, v => BitVec.ofNat 8 v :: natBytes n (v / 256)

/-- ceil(a / b). -/
def ceilDiv (a b : Nat) : Nat := (a + b - 1) / b

/-- Replace entry i of a list. -/
def setAt {α : Type} : List α → Nat → α → List α
  | [], _, _ => []
  | _ :: r, 0, y => y :: r
  | x :: r, i + 1, y => x :: setAt r i y

/-- Take entry i out of a list. -/
def dropAt {α : Type} : List α → Nat → List α
  | [], _ => []
  | _ :: r, 0 => r
  | x :: r, i + 1 => x :: dropAt r i

/-- The numbers lo, lo + 1, ..., lo + n - 1. -/
def upFrom (lo : Nat) : Nat → List Nat
  | 0 => []
  | n + 1 => lo :: upFrom (lo + 1) n

end Sys2Proof.Machine
end

