-- ==== Sys2Proof/Machine/Flags.lean ====
section
/-!
DEFINITION. The element types (R25), the flags and exception bits (R55, R56), integer arithmetic (R26, R27,
R169, R170) and residues (R42 to R46).
-/

namespace Sys2Proof.Machine

/-- A computed value with the flags it raises and its exception bit (R56). -/
structure Res where
  bits : Nat
  flags : BitVec 7
  exc : Bool
deriving DecidableEq, Repr

/-- FFLAGS.INX (R55). -/
def flagInx : BitVec 7 := 0x01
/-- FFLAGS.UNF (R55). -/
def flagUnf : BitVec 7 := 0x02
/-- FFLAGS.OVF (R55). -/
def flagOvf : BitVec 7 := 0x04
/-- FFLAGS.DZ (R55). -/
def flagDz : BitVec 7 := 0x08
/-- FFLAGS.INV (R55). -/
def flagInv : BitVec 7 := 0x10
/-- FFLAGS.SAT (R55). -/
def flagSat : BitVec 7 := 0x20
/-- FFLAGS.VIOL (R55). -/
def flagViol : BitVec 7 := 0x40

/-- A value that raises nothing. -/
def Res.plain (v : Nat) : Res := { bits := v, flags := 0, exc := false }

/-- The exception bit that flags set: invalid, divide by zero, overflow or saturation (R56). -/
def excOf (f : BitVec 7) : Bool := decide (f &&& (flagInv ||| flagDz ||| flagOvf ||| flagSat) ≠ 0)

/-- A value with flags, its exception bit by R56. -/
def Res.mk' (v : Nat) (f : BitVec 7) : Res := { bits := v, flags := f, exc := excOf f }

/-- Add flags and an exception bit raised elsewhere in the same element. -/
def Res.also (r : Res) (f : BitVec 7) (e : Bool) : Res :=
  { bits := r.bits, flags := r.flags ||| f, exc := r.exc || e }

/-- Codes 0 to 7 are integer types (R25). -/
def isInt (ty : Nat) : Bool := decide (ty < 8)
/-- The even integer codes are signed (R25). -/
def isSigned (ty : Nat) : Bool := decide (ty < 8) && decide (ty % 2 = 0)
/-- Codes 8 to 13 are floating point (R25). -/
def isFp (ty : Nat) : Bool := decide (8 ≤ ty) && decide (ty < 14)
/-- Code 14 is rn30 (R25). -/
def isRn (ty : Nat) : Bool := decide (ty = 14)
/-- Code 15 is map (R25). -/
def isMap (ty : Nat) : Bool := decide (ty = 15)

/-- Bytes of a type other than map (R25). -/
def scalarSize (ty : Nat) : Nat :=
  if ty < 2 then 1 else if ty < 4 then 2 else if ty < 6 then 4 else if ty < 8 then 8
  else if ty < 10 then 1 else if ty < 12 then 2 else if ty = 13 then 8 else 4

/-- CLMODE.S (R242). -/
def clS (cl : Nat) : Nat := bitsOf cl 0 9
/-- CLMODE.WIDE (R242). -/
def clWide (cl : Nat) : Bool := bitAt cl 9
/-- CLMODE.D (R242). -/
def clD (cl : Nat) : Nat := bitsOf cl 10 8
/-- CLMODE.DV (R242). -/
def clDv (cl : Nat) : Bool := bitAt cl 18

/-- Bytes of an element of a type under a CLMODE: 64 or 256 for a map (R49, R81). -/
def tySize (ty cl : Nat) : Nat := if ty = 15 then (if clWide cl then 256 else 64) else scalarSize ty

/-- CLMODE is well formed (R49). -/
def clWellFormed (cl : Nat) : Bool :=
  decide (2 ≤ clS cl) && decide (clS cl ≤ 256) && (clWide cl || decide (clS cl ≤ 64)) &&
    (!clDv cl || decide (clD cl < clS cl))

/-- An element of an integer type as a number (R26). -/
def intVal (ty v : Nat) : Int :=
  if isSigned ty then toSigned (8 * scalarSize ty) v else ((v % 2 ^ (8 * scalarSize ty) : Nat) : Int)

/-- The least value of an integer type (R25). -/
def intMin (ty : Nat) : Int := if isSigned ty then -((2 ^ (8 * scalarSize ty - 1) : Nat) : Int) else 0
/-- The greatest value of an integer type (R25). -/
def intMax (ty : Nat) : Int :=
  if isSigned ty then ((2 ^ (8 * scalarSize ty - 1) : Nat) : Int) - 1 else ((2 ^ (8 * scalarSize ty) : Nat) : Int) - 1

/-- The bits of a number in an integer type, modulo 2^(8s) (R26). -/
def intBits (ty : Nat) (i : Int) : Nat := ofSigned (8 * scalarSize ty) i

/-- sat(i, t): clamp to the type's range, with SAT and the exception bit when the clamp changes it (R26). -/
def satInt (ty : Nat) (i : Int) : Res :=
  if i < intMin ty then Res.mk' (intBits ty (intMin ty)) flagSat
  else if intMax ty < i then Res.mk' (intBits ty (intMax ty)) flagSat
  else Res.plain (intBits ty i)

/-- Quotient of two `b`-bit patterns (R27). -/
def divBits (signed : Bool) (b x y : Nat) : Res :=
  if y % 2 ^ b = 0 then Res.mk' (2 ^ b - 1) flagDz
  else if signed then Res.plain (ofSigned b (Int.tdiv (toSigned b x) (toSigned b y)))
  else Res.plain (x % 2 ^ b / (y % 2 ^ b))

/-- Remainder of two `b`-bit patterns (R27). -/
def remBits (signed : Bool) (b x y : Nat) : Res :=
  if y % 2 ^ b = 0 then Res.mk' (x % 2 ^ b) flagDz
  else if signed then Res.plain (ofSigned b (Int.tmod (toSigned b x) (toSigned b y)))
  else Res.plain (x % 2 ^ b % (y % 2 ^ b))

/-- Right shift of a `b`-bit pattern by less than b, with copies of the sign bit or with zeros. -/
def shrBits (signed : Bool) (b x n : Nat) : Nat :=
  if signed then ofSigned b (toSigned b x / ((2 ^ n : Nat) : Int)) else x % 2 ^ b / 2 ^ n

/-- An integer element operation on two elements of type `ty` (R169, R170). -/
def intOp (op : IntOp) (ty x y : Nat) : Res :=
  let b := 8 * scalarSize ty
  let a := intVal ty x
  let c := intVal ty y
  match op with
  | .add => Res.plain (intBits ty (a + c))
  | .sub => Res.plain (intBits ty (a - c))
  | .rsub => Res.plain (intBits ty (c - a))
  | .mul => Res.plain (intBits ty (a * c))
  | .mulh => Res.plain (ofSigned b (a * c / ((2 ^ b : Nat) : Int)))
  | .div => divBits (isSigned ty) b x y
  | .rem => remBits (isSigned ty) b x y
  | .min => Res.plain (if c < a then y % 2 ^ b else x % 2 ^ b)
  | .max => Res.plain (if a < c then y % 2 ^ b else x % 2 ^ b)
  | .adds => satInt ty (a + c)
  | .subs => satInt ty (a - c)
  | .and => Res.plain ((x &&& y) % 2 ^ b)
  | .or => Res.plain ((x ||| y) % 2 ^ b)
  | .xor => Res.plain ((x ^^^ y) % 2 ^ b)
  | .shl => Res.plain (x * 2 ^ (y % 2 ^ b % b) % 2 ^ b)
  | .shr => Res.plain (shrBits (isSigned ty) b x (y % 2 ^ b % b))

/-- An rn30 container is valid (R42). -/
def rnValid (v : Nat) : Bool :=
  decide (bitsOf v 30 2 = 0) && decide (bitsOf v 20 10 < 1021) && decide (bitsOf v 10 10 < 1023)

/-- The rn30 encoding of a number, each channel modulo its own modulus (R43). -/
def rnEncode (i : Int) : Nat :=
  (i % 1024).toNat + 2 ^ 10 * (i % 1023).toNat + 2 ^ 20 * (i % 1021).toNat

/-- The value of a valid rn30 container, folded into the signed range (R44). -/
def rnValue (v : Nat) : Int :=
  let w := (bitsOf v 0 10 * 713381889 + bitsOf v 10 10 * 534252544 + bitsOf v 20 10 * 891466752) % 1069550592
  if 534775296 ≤ w then (w : Int) - 1069550592 else w

/-- The least rn30 value (R25). -/
def rnMin : Int := -534775296
/-- The greatest rn30 value (R25). -/
def rnMax : Int := 534775295

/-- An rn30 source element: itself when valid, else FILL's low 32 bits, or 0 when those are invalid too; the
flag says whether it was replaced (R46). -/
def rnRead (fill v : Nat) : Nat × Bool :=
  if rnValid (v % 2 ^ 32) then (v % 2 ^ 32, false)
  else if rnValid (fill % 2 ^ 32) then (fill % 2 ^ 32, true) else (0, true)

/-- Channel-by-channel arithmetic on two valid containers (R45). -/
def rnChannels (f : Int → Int → Int) (x y : Nat) : Nat :=
  (f (bitsOf x 0 10) (bitsOf y 0 10) % 1024).toNat +
    2 ^ 10 * (f (bitsOf x 10 10) (bitsOf y 10 10) % 1023).toNat +
    2 ^ 20 * (f (bitsOf x 20 10) (bitsOf y 20 10) % 1021).toNat

/-- vadd, vsub, vrsub and vmul on rn30, with R46's substitution; other operations do not reach here (R50). -/
def rnOp (op : IntOp) (fill x y : Nat) : Res :=
  let a := rnRead fill x
  let b := rnRead fill y
  let v := match op with
    | .sub => rnChannels (fun p q => p - q) a.1 b.1
    | .rsub => rnChannels (fun p q => q - p) a.1 b.1
    | .mul => rnChannels (fun p q => p * q) a.1 b.1
    | _ => rnChannels (fun p q => p + q) a.1 b.1
  { bits := v, flags := 0, exc := a.2 || b.2 }

/-- The number of set bits among the lowest n of v. -/
def popcount : Nat → Nat → Nat
  | 0, _ => 0
  | n + 1, v => v % 2 + popcount n (v / 2)

/-- The number of zero bits below the lowest set one among n bits. -/
def trailingZeros : Nat → Nat → Nat
  | 0, _ => 0
  | n + 1, v => if v % 2 = 1 then 0 else 1 + trailingZeros n (v / 2)

/-- The number of zero bits above the highest set one of a 64-bit number (R129). -/
def leadingZeros (v : Nat) : Nat := 64 - bitLen (v % 2 ^ 64)

end Sys2Proof.Machine
end

