-- ==== Sys2Proof/Machine/Float.lean ====
section
/-!
DEFINITION. Binary floating point (R28 to R41): formats, the exact result of each operation rounded once, and
the conversions between all types.
-/

namespace Sys2Proof.Machine

/-- A binary format: exponent and fraction bits, and whether it has infinities (R28 to R30). -/
structure Fmt where
  ebits : Nat
  fbits : Nat
  hasInf : Bool
deriving DecidableEq, Repr

/-- The format of a floating-point type code (R29). -/
def fmtOf (ty : Nat) : Fmt :=
  if ty = 8 then ⟨4, 3, false⟩ else if ty = 9 then ⟨5, 2, true⟩ else if ty = 10 then ⟨8, 7, true⟩
  else if ty = 11 then ⟨5, 10, true⟩ else if ty = 12 then ⟨8, 23, true⟩ else ⟨11, 52, true⟩

/-- The exponent bias (R29). -/
def Fmt.bias (f : Fmt) : Nat := 2 ^ (f.ebits - 1) - 1
/-- The position of the sign bit. -/
def Fmt.signPos (f : Fmt) : Nat := f.ebits + f.fbits
/-- Precision: fraction bits and the leading one. -/
def Fmt.prec (f : Fmt) : Nat := f.fbits + 1
/-- The exponent of the unit of a subnormal. -/
def Fmt.qmin (f : Fmt) : Int := 1 - (f.bias : Int) - f.fbits
/-- The exponent of the unit of the largest finite numbers. -/
def Fmt.qmax (f : Fmt) : Int :=
  ((if f.hasInf then 2 ^ f.ebits - 2 else 2 ^ f.ebits - 1 : Nat) : Int) - f.bias - f.fbits
/-- The largest significand at that exponent: e4m3 keeps the last one for NaN (R30). -/
def Fmt.kmax (f : Fmt) : Nat := if f.hasInf then 2 ^ f.prec - 1 else 2 ^ f.prec - 2
/-- The sign bit in place. -/
def Fmt.sign (f : Fmt) (neg : Bool) : Nat := if neg then 2 ^ f.signPos else 0
/-- The canonical NaN (R29). -/
def Fmt.nan (f : Fmt) : Nat :=
  if f.hasInf then (2 ^ f.ebits - 1) * 2 ^ f.fbits + 2 ^ (f.fbits - 1) else 2 ^ f.signPos - 1
/-- The largest finite value (R29). -/
def Fmt.maxFin (f : Fmt) (neg : Bool) : Nat :=
  f.sign neg + (if f.hasInf then (2 ^ f.ebits - 1) * 2 ^ f.fbits - 1 else 2 ^ f.signPos - 2)
/-- An infinity (R28); e4m3 has none, and its rules put the largest finite value there. -/
def Fmt.inf (f : Fmt) (neg : Bool) : Nat :=
  if f.hasInf then f.sign neg + (2 ^ f.ebits - 1) * 2 ^ f.fbits else f.maxFin neg

/-- What a floating-point element is: a NaN, an infinity, or (-1)^neg * m * 2^e (R28). -/
inductive FVal where
  | nan (signalling : Bool)
  | inf (neg : Bool)
  | num (neg : Bool) (m : Nat) (e : Int)
deriving DecidableEq, Repr

/-- Read a bit pattern of a format (R28, R30). -/
def unpack (f : Fmt) (v : Nat) : FVal :=
  let neg := bitAt v f.signPos
  let ex := bitsOf v f.fbits f.ebits
  let fr := bitsOf v 0 f.fbits
  if ex = 2 ^ f.ebits - 1 ∧ f.hasInf then
    if fr = 0 then .inf neg else .nan (decide (fr < 2 ^ (f.fbits - 1)))
  else if ex = 2 ^ f.ebits - 1 ∧ fr = 2 ^ f.fbits - 1 then .nan false
  else if ex = 0 then .num neg fr f.qmin
  else .num neg (2 ^ f.fbits + fr) (f.qmin + ex - 1)

/-- Whether a magnitude goes up in the last place: `lsb` of the kept part, the dropped part against one half
(`gtHalf`, `eqHalf`), and whether anything was dropped (R32). -/
def roundUp (rm : Nat) (neg lsb gtHalf eqHalf inexact : Bool) : Bool :=
  match rm with
  | 0 => gtHalf || (eqHalf && lsb)
  | 1 => false
  | 2 => inexact && neg
  | 3 => inexact && !neg
  | _ => gtHalf || eqHalf

/-- Round m * 2^e (plus less than one more unit of it when `sticky`) to a multiple of 2^q, q fixed by the
caller: the multiple, and whether it is inexact (R32). -/
def roundTo (rm : Nat) (neg : Bool) (m : Nat) (e : Int) (sticky : Bool) (q : Int) : Nat × Bool :=
  if q ≤ e then (m * 2 ^ (e - q).toNat, sticky)
  else
    let sh := (q - e).toNat
    let keep := m / 2 ^ sh
    let rest := m % 2 ^ sh
    let half := 2 ^ (sh - 1)
    let gtHalf := decide (half < rest) || (decide (rest = half) && sticky)
    let eqHalf := decide (rest = half) && !sticky
    let inexact := decide (rest ≠ 0) || sticky
    (if roundUp rm neg (decide (keep % 2 = 1)) gtHalf eqHalf inexact then keep + 1 else keep, inexact)

/-- What an over-large rounded value becomes: the arithmetic rule R37, or the conversion rule R40. -/
inductive Over where
  | arith | convert
deriving DecidableEq, Repr

/-- The result of an overflow (R37, R40). -/
def overflow (f : Fmt) (ov : Over) (rm : Nat) (neg : Bool) : Res :=
  match ov with
  | .convert => Res.mk' (f.maxFin neg) (flagSat ||| flagInx)
  | .arith =>
    let toInf := match rm with
      | 1 => false
      | 2 => neg
      | 3 => !neg
      | _ => true
    Res.mk' (if toInf then f.inf neg else f.maxFin neg) (flagOvf ||| flagInx)

/-- Put a significand k at unit 2^q into the format; k has at most `prec` bits, and fewer only at `qmin`. -/
def packNum (f : Fmt) (neg : Bool) (k : Nat) (q : Int) : Nat :=
  if k < 2 ^ f.fbits then f.sign neg + k
  else f.sign neg + (q - f.qmin + 1).toNat * 2 ^ f.fbits + (k - 2 ^ f.fbits)

/-- Round an exact number once to a format (R32, R35, R37, R40). The number is m * 2^e, plus less than one more
unit of 2^e when `sticky`; with `sticky`, m has at least two bits more than the precision. -/
def roundFp (f : Fmt) (ov : Over) (rm : Nat) (neg : Bool) (m : Nat) (e : Int) (sticky : Bool) : Res :=
  if m = 0 ∧ !sticky then Res.plain (f.sign neg)
  else
    let q0 := max (e + bitLen m - f.prec) f.qmin
    let r := roundTo rm neg m e sticky q0
    let k := if r.1 = 2 ^ f.prec then 2 ^ f.fbits else r.1
    let q := if r.1 = 2 ^ f.prec then q0 + 1 else q0
    if f.qmax < q ∨ (q = f.qmax ∧ f.kmax < k) then overflow f ov rm neg
    else
      let fl : BitVec 7 := if r.2 then flagInx else 0
      let tiny := r.2 && decide (k ≠ 0) && decide (k < 2 ^ f.fbits)
      Res.mk' (packNum f neg k q) (if tiny then fl ||| flagUnf else fl)

/-- The invalid operation: the canonical NaN (R31, R36). -/
def invalid (f : Fmt) : Res := Res.mk' f.nan flagInv

/-- A NaN among the operands gives the canonical NaN, with invalid when one is signalling (R31, R36). -/
def nanOf (f : Fmt) (xs : List FVal) : Option Res :=
  if xs.any (fun x => decide (x = .nan true)) then some (invalid f)
  else if xs.any (fun x => decide (x = .nan false)) then some (Res.plain f.nan) else none

/-- A divide-by-zero infinity; in e4m3 the largest finite value, with saturation (R36). -/
def divZero (f : Fmt) (neg : Bool) : Res :=
  Res.mk' (f.inf neg) (if f.hasInf then flagDz else flagDz ||| flagSat)

/-- An infinite result of an infinite operand: it raises nothing where the format has infinities; in e4m3 it is
the largest finite value with saturation (R40, R238). -/
def infRes (f : Fmt) (neg : Bool) : Res := if f.hasInf then Res.plain (f.inf neg) else Res.mk' (f.maxFin neg) flagSat

/-- The exact sum of two finite numbers, rounded once, with the sign of an exact zero by R35. -/
def addNum (f : Fmt) (ov : Over) (rm : Nat) (n1 : Bool) (m1 : Nat) (e1 : Int) (n2 : Bool) (m2 : Nat) (e2 : Int) :
    Res :=
  let e := min e1 e2
  let a : Int := (if n1 then -1 else 1) * ((m1 * 2 ^ (e1 - e).toNat : Nat) : Int)
  let b : Int := (if n2 then -1 else 1) * ((m2 * 2 ^ (e2 - e).toNat : Nat) : Int)
  let s := a + b
  if s = 0 then
    Res.plain (f.sign (if n1 = n2 then n1 else decide (rm = 2)))
  else roundFp f ov rm (decide (s < 0)) s.natAbs e false

/-- a + b (R35 to R37). -/
def addVal (f : Fmt) (rm : Nat) (x y : FVal) : Res :=
  match nanOf f [x, y] with
  | some r => r
  | none =>
    match x, y with
    | .inf a, .inf b => if a = b then infRes f a else invalid f
    | .inf a, _ => infRes f a
    | _, .inf b => infRes f b
    | .num n1 m1 e1, .num n2 m2 e2 => addNum f .arith rm n1 m1 e1 n2 m2 e2
    | _, _ => Res.plain f.nan

/-- The same value with its sign flipped; a NaN stays as it is. -/
def negVal : FVal → FVal
  | .nan s => .nan s
  | .inf n => .inf (!n)
  | .num n m e => .num (!n) m e

/-- a * b, rounded once into a format under a rule for over-large results (R35 to R37, R238). -/
def mulVal (f : Fmt) (ov : Over) (rm : Nat) (x y : FVal) : Res :=
  match nanOf f [x, y] with
  | some r => r
  | none =>
    match x, y with
    | .num n1 m1 e1, .num n2 m2 e2 => roundFp f ov rm (n1 != n2) (m1 * m2) (e1 + e2) false
    | .inf a, .num b m _ => if m = 0 then invalid f else infRes f (a != b)
    | .num b m _, .inf a => if m = 0 then invalid f else infRes f (a != b)
    | .inf a, .inf b => infRes f (a != b)
    | _, _ => Res.plain f.nan

/-- a * b + c formed exactly and rounded once (R35, R36). -/
def fmaVal (f : Fmt) (rm : Nat) (x y z : FVal) : Res :=
  if (match x, y with
      | .inf _, .num _ m _ => decide (m = 0)
      | .num _ m _, .inf _ => decide (m = 0)
      | _, _ => false) then invalid f
  else
    match nanOf f [x, y, z] with
    | some r => r
    | none =>
      match x, y with
      | .num n1 m1 e1, .num n2 m2 e2 =>
        match z with
        | .num n3 m3 e3 => addNum f .arith rm (n1 != n2) (m1 * m2) (e1 + e2) n3 m3 e3
        | .inf c => infRes f c
        | .nan _ => Res.plain f.nan
      | _, _ =>
        let s := match x, y with
          | .inf a, .inf b => a != b
          | .inf a, .num b _ _ => a != b
          | .num b _ _, .inf a => a != b
          | _, _ => false
        match z with
        | .inf c => if c = s then infRes f s else invalid f
        | _ => infRes f s

/-- a / b, correctly rounded (R35, R36). -/
def divVal (f : Fmt) (rm : Nat) (x y : FVal) : Res :=
  match nanOf f [x, y] with
  | some r => r
  | none =>
    match x, y with
    | .inf _, .inf _ => invalid f
    | .inf a, .num b _ _ => infRes f (a != b)
    | .num a _ _, .inf b => Res.plain (f.sign (a != b))
    | .num n1 m1 e1, .num n2 m2 e2 =>
      if m2 = 0 then (if m1 = 0 then invalid f else divZero f (n1 != n2))
      else if m1 = 0 then Res.plain (f.sign (n1 != n2))
      else
        let k := f.prec + 3 + bitLen m2
        let n := m1 * 2 ^ k
        roundFp f .arith rm (n1 != n2) (n / m2) (e1 - e2 - k) (decide (n % m2 ≠ 0))
    | _, _ => Res.plain f.nan

/-- The integer square root, bit by bit from bit `b` down. -/
def isqrtFrom (n : Nat) : Nat → Nat → Nat
  | 0, r => if (r + 1) * (r + 1) ≤ n then r + 1 else r
  | b + 1, r =>
    let t := r + 2 ^ (b + 1)
    isqrtFrom n b (if t * t ≤ n then t else r)

/-- floor(√n). -/
def isqrt (n : Nat) : Nat := isqrtFrom n (bitLen n / 2 + 1) 0

/-- √a, correctly rounded (R35, R36). -/
def sqrtVal (f : Fmt) (rm : Nat) (x : FVal) : Res :=
  match x with
  | .nan s => if s then invalid f else Res.plain f.nan
  | .inf n => if n then invalid f else infRes f false
  | .num n m e =>
    if m = 0 then Res.plain (f.sign n)
    else if n then invalid f
    else
      let k := 2 * (f.prec + 3)
      let k' := if (e - k) % 2 = 0 then k else k + 1
      let v := m * 2 ^ k'
      let r := isqrt v
      roundFp f .arith rm false r ((e - k') / 2) (decide (r * r ≠ v))

/-- 1 / √a, correctly rounded (R35, R36). -/
def rsqrtVal (f : Fmt) (rm : Nat) (x : FVal) : Res :=
  match x with
  | .nan s => if s then invalid f else Res.plain f.nan
  | .inf n => if n then invalid f else Res.plain (f.sign false)
  | .num n m e =>
    if m = 0 then divZero f n
    else if n then invalid f
    else
      -- with e made even, 1/√(m 2^e) = √(2^(2k) / m) 2^(-k - e/2)
      let m' := if e % 2 = 0 then m else 2 * m
      let e' := if e % 2 = 0 then e else e - 1
      let k := f.prec + 3 + bitLen m'
      let v := 2 ^ (2 * k) / m'
      let r := isqrt v
      roundFp f .arith rm false r (-(k : Int) - e' / 2) (decide (r * r * m' ≠ 2 ^ (2 * k)))

/-- 2^(2^-1), 2^(2^-2), ... in fixed point with P fraction bits, one factor for each set bit of the fraction
`fr` of `n` bits, multiplied together and rounded down. -/
def exp2Product (P : Nat) (fr : Nat) : Nat → Nat → Nat → Nat
  | 0, _, acc => acc
  | n + 1, root, acc =>
    let root' := isqrt (root * 2 ^ P)
    exp2Product P fr n root' (if bitAt fr n then acc * root' / 2 ^ P else acc)

/-- 2^(fr / 2^n) for 0 < fr < 2^n, as a significand of `w + 1` bits rounded down: tried with more and more
fraction bits until the error bound leaves those bits fixed (log 9). -/
def exp2Frac (w n fr : Nat) : Nat → Nat → Nat
  | 0, P => exp2Product P fr n (2 ^ (P + 1)) (2 ^ P) / 2 ^ (P - w)
  | fuel + 1, P =>
    let a := exp2Product P fr n (2 ^ (P + 1)) (2 ^ P)
    if a / 2 ^ (P - w) = (a + 16 * n + 16) / 2 ^ (P - w) then a / 2 ^ (P - w)
    else exp2Frac w n fr fuel (2 * P)

/-- 2^a, correctly rounded (R35, R36). -/
def exp2Val (f : Fmt) (rm : Nat) (x : FVal) : Res :=
  match x with
  | .nan s => if s then invalid f else Res.plain f.nan
  | .inf n => if n then Res.plain (f.sign false) else infRes f false
  | .num n m e =>
    let w := f.prec + 3
    if m = 0 then roundFp f .arith rm false 1 0 false
    else if e + bitLen m ≤ -((w : Int) + 1) then
      -- a is so close to 0 that 2^a lies strictly between 1 and the next significand
      if n then roundFp f .arith rm false (2 ^ (w + 1) - 1) (-((w : Int) + 1)) true
      else roundFp f .arith rm false (2 ^ w) (-(w : Int)) true
    else if 20 < e + bitLen m then
      roundFp f .arith rm false 1 (if n then -1000000 else 1000000) false
    else if 0 ≤ e then
      roundFp f .arith rm false 1 ((if n then -1 else 1) * ((m * 2 ^ e.toNat : Nat) : Int)) false
    else
      let d := (-e).toNat
      let a : Int := (if n then -1 else 1) * (m : Int)
      let ip := a / ((2 ^ d : Nat) : Int)
      let fr := (a % ((2 ^ d : Nat) : Int)).toNat
      if fr = 0 then roundFp f .arith rm false 1 ip false
      else roundFp f .arith rm false (exp2Frac w d fr 4 (w + d + 64)) (ip - w) true

/-- The order of two numbers, −0 below +0: a value whose comparison is that of the numbers. -/
def ltNum : FVal → FVal → Bool
  | .inf a, .inf b => a && !b
  | .inf a, .num _ _ _ => a
  | .num _ _ _, .inf b => !b
  | .num n1 m1 e1, .num n2 m2 e2 =>
    let e := min e1 e2
    let a : Int := (if n1 then -1 else 1) * ((m1 * 2 ^ (e1 - e).toNat : Nat) : Int)
    let b : Int := (if n2 then -1 else 1) * ((m2 * 2 ^ (e2 - e).toNat : Nat) : Int)
    decide (a < b)
  | _, _ => false

/-- Two numbers are equal in value; +0 equals −0. -/
def eqNum (x y : FVal) : Bool :=
  match x, y with
  | .nan _, _ => false
  | _, .nan _ => false
  | _, _ => !ltNum x y && !ltNum y x

/-- The sign of a value; NaNs count as positive. -/
def signOf : FVal → Bool
  | .nan _ => false
  | .inf n => n
  | .num n _ _ => n

/-- x ranks below y for min, max and vtopk: by value, −0 below +0 (R38, R185). -/
def belowVal (x y : FVal) : Bool := ltNum x y || (eqNum x y && signOf x && !signOf y)

/-- Minimum or maximum by R38. -/
def minMaxFp (f : Fmt) (mx : Bool) (x y : Nat) : Res :=
  let b := f.signPos + 1
  let a := unpack f x
  let c := unpack f y
  let fl : BitVec 7 := if a = .nan true ∨ c = .nan true then flagInv else 0
  match a, c with
  | .nan _, .nan _ => Res.mk' f.nan fl
  | .nan _, _ => Res.mk' (y % 2 ^ b) fl
  | _, .nan _ => Res.mk' (x % 2 ^ b) fl
  | _, _ => Res.plain (if (if mx then belowVal a c else belowVal c a) then y % 2 ^ b else x % 2 ^ b)

/-- |a|: the sign bit cleared, a NaN canonical (R172). -/
def absFp (f : Fmt) (x : Nat) : Res :=
  match unpack f x with
  | .nan s => if s then invalid f else Res.plain f.nan
  | _ => Res.plain (x % 2 ^ f.signPos)

/-- −a: the sign bit flipped, a NaN canonical (R250). -/
def negFp (f : Fmt) (x : Nat) : Res :=
  match unpack f x with
  | .nan s => if s then invalid f else Res.plain f.nan
  | v => Res.plain (x % 2 ^ f.signPos + f.sign (!signOf v))

/-- A floating-point operation of the type with code `ty` on element bits; `z` is the third operand (R172). -/
def fpOp (op : FpOp) (ty rm x y z : Nat) : Res :=
  let f := fmtOf ty
  let a := unpack f x
  let b := unpack f y
  match op with
  | .add => addVal f rm a b
  | .sub => addVal f rm a (negVal b)
  | .mul => mulVal f .arith rm a b
  | .div => divVal f rm a b
  | .fma => fmaVal f rm a b (unpack f z)
  | .min => minMaxFp f false x y
  | .max => minMaxFp f true x y
  | .abs => absFp f x
  | .sqrt => sqrtVal f rm a
  | .rcp => divVal f rm (.num false 1 0) a
  | .rsqrt => rsqrtVal f rm a
  | .exp2 => exp2Val f rm a

/-- A floating-point compare: the relation and the flags (R36). -/
def fpCmp (op : CmpOp) (ty x y : Nat) : Bool × BitVec 7 :=
  let f := fmtOf ty
  let a := unpack f x
  let b := unpack f y
  let anyNan := (match a with | .nan _ => true | _ => false) || (match b with | .nan _ => true | _ => false)
  let sig : BitVec 7 := if a = .nan true ∨ b = .nan true then flagInv else 0
  let ord : BitVec 7 := if anyNan then flagInv else 0
  match op with
  | .eq => (eqNum a b, sig)
  | .ne => (!eqNum a b, sig)
  | .unord => (anyNan, sig)
  | .lt => (!anyNan && ltNum a b, ord)
  | .le => (!anyNan && (ltNum a b || eqNum a b), ord)
  | .gt => (!anyNan && ltNum b a, ord)
  | .ge => (!anyNan && (ltNum b a || eqNum a b), ord)

/-- An integer compare by the type's signedness (R174). -/
def intCmp (op : CmpOp) (ty x y : Nat) : Bool :=
  let a := intVal ty x
  let b := intVal ty y
  match op with
  | .eq => decide (a = b)
  | .ne => decide (a ≠ b)
  | .lt => decide (a < b)
  | .le => decide (a ≤ b)
  | .gt => decide (b < a)
  | .ge => decide (b ≤ a)
  | .unord => false

/-- An exact integer to a floating-point type (R39, R40). -/
def intToFp (ty rm : Nat) (i : Int) : Res := roundFp (fmtOf ty) .convert rm (decide (i < 0)) i.natAbs 0 false

/-- A floating-point value rounded to an integer: the integer and whether it is inexact (R41). -/
def fpToInt (rm : Nat) (neg : Bool) (m : Nat) (e : Int) : Int × Bool :=
  let e' := if e + bitLen m < -2 then -(2 + bitLen m : Int) else e
  let r := roundTo rm neg m e' false 0
  (if neg then -(r.1 : Int) else r.1, r.2)

/-- Clamp an integer to an rn30 value (R39). -/
def intToRn (i : Int) : Res :=
  if i < rnMin then Res.mk' (rnEncode rnMin) flagSat
  else if rnMax < i then Res.mk' (rnEncode rnMax) flagSat
  else Res.plain (rnEncode i)

/-- A floating-point element to an integer type or, at code 14, to rn30 (R39, R41). -/
def fpToIntTy (src dst rm x : Nat) : Res :=
  let sat (i : Int) : Res := if dst = 14 then intToRn i else satInt dst i
  match unpack (fmtOf src) x with
  | .nan _ => Res.mk' 0 flagInv
  | .inf n =>
    if dst = 14 then Res.mk' (rnEncode (if n then rnMin else rnMax)) flagSat
    else Res.mk' (intBits dst (if n then intMin dst else intMax dst)) flagSat
  | .num n m e =>
    let r := fpToInt rm n m e
    let s := sat r.1
    if r.2 && decide (s.flags = 0) then s.also flagInx false else s

/-- A floating-point element to a floating-point type (R39, R40, R135). -/
def fpToFp (src dst rm x : Nat) : Res :=
  let f := fmtOf dst
  match unpack (fmtOf src) x with
  | .nan s => if s then invalid f else Res.plain f.nan
  | .inf n => infRes f n
  | .num n m e => roundFp f .convert rm n m e false

/-- An integer to the type with code `dst`, which is an integer, floating-point or rn30 code (R39). -/
def fromInt (dst rm : Nat) (i : Int) : Res :=
  if dst = 14 then intToRn i else if isFp dst then intToFp dst rm i else satInt dst i

/-- Convert an element from one type to another; neither is map (R39 to R41, R46). An integer to an integer of
other signedness saturates, also when it is as wide or wider (log 21). -/
def convert (src dst rm fill x : Nat) : Res :=
  if src = 14 then
    let r := rnRead fill x
    let y := if dst = 14 then Res.plain r.1 else fromInt dst rm (rnValue r.1)
    y.also 0 r.2
  else if isFp src then
    if isFp dst then fpToFp src dst rm x else fpToIntTy src dst rm x
  else fromInt dst rm (intVal src x)

end Sys2Proof.Machine
end

