-- ==== Sys2Proof/Machine/Ops.lean ====
section
/-!
DEFINITION. The named operations over the state: threads, cores, clusters and registers, the pc, pending
registers, stalls, and taking and leaving a fault (R90, R127, R128, R153, R271, R277, R278, R356, R357).
-/

namespace Sys2Proof.Machine

/-- What a meaning answers. -/
abbrev Out := Host.Outcome State Fault Refusal

/-- The number of a core: 8 to a cluster. -/
def coreKey (cl : Fin 64) (co : Fin 8) : Nat := cl.val * 8 + co.val
/-- The number of a thread: 4 to a core, and the MCCs after them. -/
def tidKey : Tid → Nat
  | .vec cl co th => coreKey cl co * 4 + th.val
  | .mcc cl => 2048 + cl.val
/-- The cluster of a thread. -/
def clusterOf : Tid → Fin 64
  | .vec cl _ _ => cl
  | .mcc cl => cl
/-- The core of a thread; 0 for an MCC, as COORD gives it (R17). -/
def coreOf : Tid → Fin 8
  | .vec _ co _ => co
  | .mcc _ => 0
/-- The place of a thread in its core; 0 for an MCC (R17). -/
def threadOf : Tid → Fin 4
  | .vec _ _ th => th
  | .mcc _ => 0
/-- Whether a thread is an MCC. -/
def isMcc : Tid → Bool
  | .vec _ _ _ => false
  | .mcc _ => true

/-- A thread's record. -/
def getThread (s : State) (t : Tid) : Thread := mapGet Thread.reset s.threads (tidKey t)
/-- Put a thread's record back. -/
def putThread (s : State) (t : Tid) (th : Thread) : State :=
  { s with threads := mapPut s.threads (tidKey t) th }
/-- Change a thread's record. -/
def updThread (s : State) (t : Tid) (f : Thread → Thread) : State := putThread s t (f (getThread s t))
/-- A core's record. -/
def getCore (s : State) (cl : Fin 64) (co : Fin 8) : Core := mapGet Core.reset s.cores (coreKey cl co)
/-- Put a core's record back. -/
def putCore (s : State) (cl : Fin 64) (co : Fin 8) (c : Core) : State :=
  { s with cores := mapPut s.cores (coreKey cl co) c }
/-- Change a core's record. -/
def updCore (s : State) (cl : Fin 64) (co : Fin 8) (f : Core → Core) : State :=
  putCore s cl co (f (getCore s cl co))
/-- A cluster's record. -/
def getCluster (s : State) (cl : Fin 64) : Cluster := mapGet Cluster.reset s.clusters cl.val
/-- Put a cluster's record back. -/
def putCluster (s : State) (cl : Fin 64) (c : Cluster) : State :=
  { s with clusters := mapPut s.clusters cl.val c }
/-- Change a cluster's record. -/
def updCluster (s : State) (cl : Fin 64) (f : Cluster → Cluster) : State :=
  putCluster s cl (f (getCluster s cl))
/-- A context's table entry. -/
def getCtx (s : State) (c : Fin 4096) : Context := mapGet Context.reset s.ctxs c.val
/-- Put a context's table entry back. -/
def putCtx (s : State) (c : Fin 4096) (x : Context) : State := { s with ctxs := mapPut s.ctxs c.val x }
/-- Change a context's table entry. -/
def updCtx (s : State) (c : Fin 4096) (f : Context → Context) : State := putCtx s c (f (getCtx s c))
/-- A launch, if it exists. -/
def getLaunch (s : State) (l : Nat) : Option Launch := mapFind s.launches l
/-- Put a launch back. -/
def putLaunch (s : State) (l : Nat) (x : Launch) : State := { s with launches := mapPut s.launches l x }

/-- The four threads of a core. -/
def coreTids (cl : Fin 64) (co : Fin 8) : List Tid := [.vec cl co 0, .vec cl co 1, .vec cl co 2, .vec cl co 3]
/-- The cores of a cluster. -/
def allCores : List (Fin 8) := [0, 1, 2, 3, 4, 5, 6, 7]
/-- Every thread of a cluster, its MCC last. -/
def clusterTids (cl : Fin 64) : List Tid := allCores.flatMap (coreTids cl) ++ [.mcc cl]
/-- The threads that the state lists: all others are at their reset value. -/
def listedTids (s : State) : List Tid :=
  s.threads.map fun p =>
    if p.1 < 2048 then .vec (Fin.ofNat 64 (p.1 / 32)) (Fin.ofNat 8 (p.1 / 4)) (Fin.ofNat 4 p.1)
    else .mcc (Fin.ofNat 64 (p.1 - 2048))

/-- Read a g register: g0 reads zero (R59). -/
def readG (th : Thread) (r : Reg) : Word := if r = 0 then 0 else th.g[r.val]
/-- Write a g register: a write to g0 is discarded (R59). -/
def writeG (th : Thread) (r : Reg) (w : Word) : Thread := if r = 0 then th else { th with g := th.g.set r.val w }

/-- The address of the parcel that a pc lies in: bits [1:0] cleared (R90, R94). -/
def parcelAddr (pc : Word) : Word := pc - BitVec.ofNat 64 (pc.toNat % 4)
/-- The address sign-extended from bit 51, as XPC holds it (R357). -/
def canon52 (w : Word) : Word := extend true 52 w.toNat
/-- An address whose bits [63:52] all equal bit 51 (R136). -/
def isCanon (w : Word) : Bool := decide (canon52 w = w)

/-- The pc moves on by `len` bytes: 2 within a pair, 4, or 8 (R88 to R90). -/
def advance (th : Thread) (len : Nat) : Thread := { th with pc := th.pc + BitVec.ofNat 64 len }

/-- The registers that outstanding accesses will write. -/
def accessReg (a : Access) : Option Reg :=
  match a.kind with
  | .ld _ => some a.reg
  | .amo _ _ => some a.reg
  | .append _ => some a.reg
  | _ => none

/-- A g register awaits a value from a frozen entry (R273), or from an access that the frozen entries hold back (R139). -/
def frozenPending (th : Thread) (r : Reg) : Bool :=
  decide (r ≠ 0) &&
    match th.frozen with
    | some f => f.rq.any (fun x => decide (x.reg = r)) || f.out.any fun a => decide (accessReg a = some r)
    | none => false

/-- A g register awaits a value of an entry that was frozen once: then an instruction that only writes it waits too
(R273). -/
def oncePending (th : Thread) (r : Reg) : Bool :=
  decide (r ≠ 0) && th.rq.any fun x => x.froze && decide (x.reg = r)

/-- A later instruction writes gd: a value still on its way to gd no longer reaches it (R127; log 57). -/
def dropLate (th : Thread) (d : Reg) : Thread :=
  { th with
    out := th.out.map fun a => if accessReg a = some d then { a with reg := 0 } else a
    rq := th.rq.map fun x => if x.reg = d then { x with reg := 0 } else x }

/-- A g register awaits a value: from an access, or through the read queue (R127, R267). -/
def pending (th : Thread) (r : Reg) : Bool :=
  decide (r ≠ 0) &&
    (th.out.any (fun a => decide (accessReg a = some r)) || th.rq.any (fun x => decide (x.reg = r)))

/-- A thread is in a user fault handler (R277). -/
def inHandler (th : Thread) : Bool := th.frozen.isSome

/-- The step does nothing but wait: the instruction stays to be executed. -/
def stall (s : State) : Out := .next { s with stalled := true }

/-- Set why a thread waits, and wait. -/
def waitFor (s : State) (t : Tid) (w : Wait) : Out :=
  stall (updThread s t fun th => { th with wait := w })

/-- Causes that a user handler may take (R277, R356): pool exhaustion not on an MCC, no progress, breakpoint. -/
def routable (t : Tid) (cause : Nat) : Bool :=
  (decide (cause = 0x04) && !isMcc t) || decide (cause = 0x0A) || decide (cause = 0x0E)

/-- XCAUSE of a fault (R357): inside a handler the cause is 0x13 and INNER holds the inner cause; so it is for a tile queue entry
while its MCC is in a handler (R277; DESIGN CHOICE, log 128). -/
def causeWord (handler vec : Bool) (cause : Nat) : Word :=
  BitVec.ofNat 64 ((if handler && decide (cause ≠ 0x13) then 0x13 + cause * 2 ^ 8 else cause) + if vec then 2 ^ 16 else 0)

/-- Write the fault report (R128, R150, R241, R271, R357). `vec` gives XVPC and XQPOS of a vector or tile queue
entry, whose fault also writes VSTART. No progress invalidates the entry of its bstrip (R148). -/
def report (th : Thread) (f : FaultInfo) (vec : Option (Word × Nat)) (xpc : Word) : Thread :=
  { th with
    xcause := causeWord (inHandler th) vec.isSome f.cause
    xpc := canon52 xpc
    xvpc := (match vec with | some p => canon52 p.1 | none => 0)
    xqpos := (match vec with | some p => BitVec.ofNat 64 p.2 | none => 0)
    xelem := BitVec.ofNat 64 f.elem
    xinfo := BitVec.ofNat 64 f.info
    vstart := (match vec with | some _ => BitVec.ofNat 64 f.start | none => th.vstart)
    strip := (if f.cause = 0x0A then th.strip.filter fun x => decide (x.key ≠ th.pc) else th.strip)
    pend := none
    pendDecode := false }

/-- A fault goes to the thread's own handler: it is routable, UFMASK routes it and no handler is running
(R277). -/
def routed (t : Tid) (th : Thread) (cause : Nat) : Bool :=
  routable t cause && bitAt th.ufmask.toNat cause && !inHandler th

/-- A place in the read queue waits for an entry of the vector queue. -/
def waitsForEntry (th : Thread) (x : RqItem) : Bool :=
  x.val.isNone && th.vq.any fun e => decide (e.stamp ≤ x.stamp)

/-- The places in the read queue that wait for entries, once those are frozen (R273). -/
def freezeItems (th : Thread) : List RqItem := th.rq.map fun x => if waitsForEntry th x then { x with froze := true } else x

/-- Enter the user handler (R277): XRET as given, VL, VTYPE, MAXVL and m46 and the frozen queue set aside with the places
in the read queue that wait for it, and the thread continues at UFVEC with an empty vector queue. A value of PCARRY that
was written for later entries is in force (R87). -/
def enterHandler (th : Thread) (xret : Word) : Thread :=
  { th with
    xret := xret
    frozen := some { vl := th.vl, vtype := th.vtype, maxvl := th.maxvl, clrec := th.clrec, m46 := th.m[46],
                     vq := th.vq, rq := (th.rq.filter (waitsForEntry th)).map fun x => { x with froze := true }
                     out := []
                     carry := if th.carryNext.isEmpty then none else some th.pcarry
                     carries := th.carryNext, wrote := false }
    vq := []
    rq := th.rq.filter fun x => !waitsForEntry th x
    pcarry := (match th.carryNext.getLast? with | some q => q.2 | none => th.pcarry)
    carryNext := []
    pc := parcelAddr th.ufvec
    wait := .none }

/-- TAKE A FAULT, TRAP OR BREAKPOINT (R128, R271, R277, R356, R357): write the report; then either enter the user
handler, with XRET at `xret`, or stop the thread for Usilaem, its vector queue frozen (R273). A request for leave at which the
thread stood stays with the arbiter, and the leave asks again when it executes again (DESIGN CHOICE, log 116). -/
def takeFault (s : State) (t : Tid) (f : FaultInfo) (vec : Option (Word × Nat)) (xpc xret : Word) : State :=
  let th := getThread s t
  let th' := report th f vec xpc
  putThread s t
    (if routed t th f.cause then enterHandler th' xret else { th' with tstate := .stopped, wait := .none, rq := freezeItems th })

/-- Where execution continues after a user handler: after a brk, else at the faulting instruction (R150). -/
def xretOf (th : Thread) (cause : Nat) : Word := if cause = 0x0E then parcelAddr th.pc + 4 else th.pc

/-- A scalar fault meets earlier vector instructions first (R128, R113): it waits while any is in the queue, else
it is reported. `decode` marks the faults of R113. -/
def raise (s : State) (t : Tid) (f : FaultInfo) (decode : Bool) : Out :=
  let th := getThread s t
  if th.vq.isEmpty then .next (takeFault s t f none th.pc (xretOf th f.cause))
  else stall (putThread s t { th with pend := some f, pendDecode := decode })

/-- A cause with XINFO and no element (R356). -/
def causeInfo (cause info : Nat) : FaultInfo := { cause := cause, elem := 0, info := info, start := 0 }

/-- Illegal instruction (cause 0x01): XINFO holds the parcel (R356). -/
def illegal (s : State) (t : Tid) : Out := raise s t (causeInfo 0x01 (getThread s t).ir.toNat) true
/-- Illegal register (cause 0x02): XINFO holds the parcel (R356). -/
def illegalReg (s : State) (t : Tid) : Out := raise s t (causeInfo 0x02 (getThread s t).ir.toNat) true

/-- Run a scalar instruction once the registers it reads hold their values: it waits while one is pending (R127, R267),
and raises 0x13 inside a handler when a frozen entry is to give it (R277), with XELEM, XINFO and INNER 0, there being no inner fault
(DESIGN CHOICE, log 103). -/
def withRegs (s : State) (rs : List Reg) (k : Thread → Out) : Out :=
  let th := getThread s s.cur
  if rs.any (frozenPending th) then raise s s.cur (causeInfo 0x13 0) false
  else if rs.any (pending th) then stall s
  else k th

/-- The same for an instruction that also writes gd. It does not wait for a value on its way to gd, which is then dropped
(R127), but for one of an entry that was frozen (R273), and inside a handler it raises 0x13 for a frozen entry's (R277). -/
def withDest (s : State) (d : Reg) (rs : List Reg) (k : Thread → Out) : Out :=
  if frozenPending (getThread s s.cur) d then raise s s.cur (causeInfo 0x13 0) false
  else withRegs s rs fun th => if oncePending th d then stall s else k (dropLate th d)

/-- Finish a scalar instruction: the thread's record with the pc moved on. -/
def retire (s : State) (th : Thread) (len : Nat) : Out := .next (putThread s s.cur (advance th len))

/-- Finish an instruction that orders the thread's later loads after it: no such load keeps a value taken before (R291). -/
def retireSync (s : State) (th : Thread) (len : Nat) : Out := retire s { th with early := [] } len

/-- A scalar instruction that computes one register from others (R129 to R132). -/
def scalarOp (s : State) (d : Reg) (rs : List Reg) (len : Nat) (f : Thread → Word) : Out :=
  withDest s d rs fun th => retire s (writeG th d (f th)) len

/-- The same with flags (R130, R133). -/
def scalarFlags (s : State) (d : Reg) (rs : List Reg) (len : Nat) (f : Thread → Word × BitVec 7) : Out :=
  withDest s d rs fun th =>
    let r := f th
    retire s (writeG { th with fflags := th.fflags ||| r.2 } d r.1) len

/-- Free values are drawn by a counter (log 3). -/
def drawFree (s : State) : Nat × State := (s.freeCtr, { s with freeCtr := s.freeCtr + 1 })

end Sys2Proof.Machine
end

