-- ==== Sys2Proof/Machine/Mem.lean ====
section
/-!
DEFINITION. Addresses and memories: translation through four levels (R350 to R354), where an address leads
(R137, R289), serial pages (R138, R261), poison (R382, R383), the violation log (R361), reads and writes.
-/

namespace Sys2Proof.Machine

/-- The kinds of access a translation is made for (R352): `both` is amo, cas, apnd and apub. -/
inductive MKind where
  | load | store | both | fetch
deriving DecidableEq, Repr

/-- On whose behalf an access is made: context, cluster and core (for the TLB), and the launch. -/
structure Party where
  ctx : Fin 4096
  cl : Fin 64
  co : Fin 8
  launch : Option Nat
deriving DecidableEq, Repr

/-- A thread as the party of its accesses. -/
def partyOf (s : State) (t : Tid) : Party :=
  let th := getThread s t
  { ctx := th.ctx, cl := clusterOf t, co := coreOf t, launch := th.launch }

/-- The declared scratchpad bytes per core of a launch (R337). -/
def spadLimit (s : State) (l : Option Nat) : Nat :=
  match l with
  | some k => match getLaunch s k with | some x => x.hdr.spad | none => 0
  | none => 0

/-- A core serves a launch (R289, R341). -/
def serves (s : State) (cl : Fin 64) (co : Fin 8) (l : Option Nat) : Bool :=
  decide (l ≠ none) && decide ((getCore s cl co).launch = l)

/-- The place of a byte of a core's scratchpad in `State.spad`. -/
def spadKey (cl : Fin 64) (off : Nat) : Nat := cl.val * Config.windowBytes + off

/-- 8 bytes of a table entry; none when its line is poisoned (R382). -/
def readPte (s : State) (a : Nat) : Option Nat :=
  if s.poisonLines.contains (a / 64) then none else some (memRead s.mem a 8)

/-- The lowest address bit that level `lvl` indexes (R350). -/
def levelShift (lvl : Nat) : Nat := 39 - 9 * lvl

/-- The index of an address at a level: 13 bits at level 0, 9 below (R350). -/
def levelIndex (va lvl : Nat) : Nat := bitsOf va (levelShift lvl) (if lvl = 0 then 13 else 9)

/-- Bits of a page entry (R351). -/
def pteV (e : Nat) : Bool := bitAt e 0
def pteR (e : Nat) : Bool := bitAt e 1
def pteW (e : Nat) : Bool := bitAt e 2
def pteX (e : Nat) : Bool := bitAt e 3
def pteLeaf (e : Nat) : Bool := bitAt e 5
def pteCont (e : Nat) : Bool := bitAt e 6
def pteSer (e : Nat) : Bool := bitAt e 7
def ptePeer (e : Nat) : Bool := bitAt e 8
/-- PPN as a physical address (R351). -/
def pteAddr (e : Nat) : Nat := bitsOf e 12 36 * 4096
/-- PDEV (R351). -/
def ptePdev (e : Nat) : Nat := bitsOf e 56 8

/-- An entry that V and the must-be-0 bits allow at its level (R351). -/
def pteOk (e lvl : Nat) : Bool :=
  pteV e && decide (bitsOf e 48 8 = 0) && decide (bitsOf e 9 3 = 0) && !bitAt e 4 &&
    (ptePeer e || decide (ptePdev e = 0)) &&
    (if pteLeaf e then
        decide (lvl ≠ 0) && (decide (lvl = 3) || !pteCont e) &&
          decide (bitsOf e 12 (levelShift lvl - 12) = 0)
      else decide (lvl ≠ 3) && decide (bitsOf e 1 8 = 0))

/-- The 16 entries of a 64 KiB group agree (R353): `tbl` is the address of the table, `idx` the index met. An entry of the group
whose bits that must be 0 are not fails it too (DESIGN CHOICE, log 119). -/
def groupOk (s : State) (tbl idx e : Nat) : Bool :=
  let g := idx / 16 * 16
  match readPte s (tbl + 8 * g) with
  | none => false
  | some e0 =>
    decide (pteAddr e0 % 2 ^ 16 = 0) &&
      (upFrom 0 16).all fun k =>
        match readPte s (tbl + 8 * (g + k)) with
        | none => false
        | some x =>
          pteOk x 3 && pteCont x && decide (bitsOf x 1 3 = bitsOf e 1 3) && decide (bitsOf x 7 2 = bitsOf e 7 2) &&
            decide (ptePdev x = ptePdev e) && decide (pteAddr x = pteAddr e0 + 4096 * k)

/-- Walk the tables from the one at `tbl`: the leaf entry and its level, or none for translation (R352). -/
def walkTables (s : State) (va : Nat) : List Nat → Nat → Option (Nat × Nat)
  | [], _ => none
  | lvl :: r, tbl =>
    match readPte s (tbl + 8 * levelIndex va lvl) with
    | none => none
    | some e =>
      if !pteOk e lvl then none
      else if pteLeaf e then
        if pteCont e && !groupOk s tbl (levelIndex va lvl) e then none else some (e, lvl)
      else walkTables s va r (pteAddr e)

/-- A translation that a TLB holds for an address of a context (R354). -/
def tlbFind (ctx : Fin 4096) (va : Nat) (tlb : List TlbEntry) : Option (Nat × Nat) :=
  (tlb.find? fun x => decide (x.ctx = ctx) && decide (va / 2 ^ levelShift x.level = x.page)).map
    fun x => (x.entry, x.level)

/-- The permissions of a page for a kind of access (R352, R89). -/
def permits (e : Nat) (k : MKind) : Bool :=
  match k with
  | .load => pteR e
  | .fetch => pteX e
  | .store => pteW e && !pteX e
  | .both => pteR e && pteW e && !pteX e

/-- The page entry for an address: from the core's TLB, the cluster's, or the tables (R352, R354, R355). -/
def findPage (s : State) (p : Party) (va : Nat) : Option (Nat × Nat) :=
  match tlbFind p.ctx va (getCore s p.cl p.co).tlb with
  | some x => some x
  | none =>
    match tlbFind p.ctx va (getCluster s p.cl).tlb with
    | some x => some x
    | none => walkTables s va [0, 1, 2, 3] (getCtx s p.ctx).ptroot

/-- A fault of an access: cause and XINFO. -/
def accFault (cause info : Nat) : FaultInfo := causeInfo cause info

/-- Some Porron link is up: a path to every peer device (R372, R374). -/
def anyLinkUp (s : State) : Bool := s.links.any fun p => decide (p.2.st = .up)

/-- A pod position answers over the Porron links (R352, R374). -/
def reaches (s : State) (d : Nat) : Bool := anyLinkUp s && !s.silent.contains d

/-- The plane on which the accesses from a cluster to a peer travel: (c + d) mod 16 while that link is up, else the next one
that is (R372); none to a position that does not answer (R352). -/
def planeOf (s : State) (c d : Nat) : Option Nat :=
  if s.silent.contains d then none
  else ((upFrom 0 16).map fun i => (c + d + i) % 16).find? fun p => decide ((mapGet Link.reset s.links p).st = .up)

/-- A page entry maps a page of another device: PEER is set, and PDEV is not this device's position, which leads to its own
memory (R351). -/
def ofPeer (s : State) (e : Nat) : Bool := ptePeer e && decide (ptePdev e ≠ s.devPos)

/-- Where an address leads for a party (R136, R137, R289, R350 to R353, R374): the target, or the fault with its
XINFO. The order is scratchpad bound, translation, protection (R358). -/
def resolve (s : State) (p : Party) (va : Word) (size : Nat) (k : MKind) : Except FaultInfo Target :=
  let a := va.toNat
  let base := (getCtx s p.ctx).spbase.toNat
  if base ≤ a ∧ a < base + Config.windowBytes then
    let off := a - base
    let co := Fin.ofNat 8 (off / Config.spadBytes)
    if off % Config.spadBytes + size ≤ spadLimit s p.launch ∧ serves s p.cl co p.launch then
      .ok (.spad (spadKey p.cl off))
    else .error (accFault 0x09 off)
  else if !isCanon va then .error (accFault 0x06 a)
  else
    match findPage s p (a % 2 ^ 52) with
    | none => .error (accFault 0x06 a)
    | some (e, lvl) =>
      if !permits e k then .error (accFault 0x07 a)
      else
        let sz := 2 ^ levelShift lvl
        let pa := pteAddr e / sz * sz + a % sz
        if ofPeer s e then
          match planeOf s p.cl.val (ptePdev e) with
          | some _ => .ok (.peer (ptePdev e) pa (pteSer e))
          | none => .ok (.violation 4)
        else .ok (.dev pa (pteSer e))

/-- An address in the scratchpad of a core of the cluster that does not serve the party's launch (R289). -/
def foreignPad (s : State) (p : Party) (va : Word) : Bool :=
  let base := (getCtx s p.ctx).spbase.toNat
  decide (base ≤ va.toNat) && decide (va.toNat < base + Config.windowBytes) &&
    !serves s p.cl (Fin.ofNat 8 ((va.toNat - base) / Config.spadBytes)) p.launch

/-- The key of a peer's byte in `State.peer` (log 14). -/
def peerKey (pdev pa : Nat) : Nat := pdev * 2 ^ 48 + pa

/-- One number for each target. -/
def targetKey : Target → Nat
  | .dev pa _ => pa
  | .peer d pa _ => 2 ^ 60 + peerKey d pa
  | .spad k => 2 ^ 80 + k
  | .violation c => 2 ^ 90 + c

/-- Read n bytes at a target. An address below 2^48 beyond the 1,024 GB of device memory is memory like any other (R15; DESIGN
CHOICE, log 96). -/
def tgtRead (s : State) (t : Target) (n : Nat) : Nat :=
  match t with
  | .spad k => memRead s.spad k n
  | .dev pa _ => memRead s.mem pa n
  | .peer d pa _ => memRead s.peer (peerKey d pa) n
  | .violation _ => 0

/-- Some byte read is poisoned (R382, R383). -/
def tgtPoison (s : State) (t : Target) (n : Nat) : Bool :=
  match t with
  | .spad k => s.poisonSpad.any fun w => decide (w * 8 < k + n) && decide (k < w * 8 + 8)
  | .dev pa _ => s.poisonLines.any fun l => decide (l * 64 < pa + n) && decide (pa < l * 64 + 64)
  | _ => false

/-- Two accesses touch a common byte. -/
def touches (x : Target) (n : Nat) (y : Target) (k : Nat) : Bool :=
  match x, y with
  | .violation _, _ => false
  | _, .violation _ => false
  | _, _ => decide (targetKey x < targetKey y + k) && decide (targetKey y < targetKey x + n)

/-- The bits of the word at 0x20 of a queue block that binding reads: CEIL, CTX and MSIX (R331). -/
def bindMask : Nat := 3 + 0xFFF * 2 ^ 16 + 0x7FF * 2 ^ 32

/-- The bits of byte i of a queue block that a store may set: TAIL, CEIL, CTX and MSIX (R331). -/
def blockMask (i : Nat) : Byte :=
  if i / 8 = 1 then 255 else if i / 8 = 4 then BitVec.ofNat 8 (bindMask / 2 ^ (8 * (i % 8))) else 0

/-- Byte i of a structure at b after a write: the bits outside a mask, which the write may not set, as they were. -/
def keepByte (mask : Nat → Byte) (old : Memory) (b : Nat) (m : Memory) (i : Nat) : Memory :=
  memPut m (b + i) (memGet m (b + i) &&& mask i ||| memGet old (b + i) &&& ~~~mask i)

/-- A structure of `size` bytes at b after a write: the bits outside the mask as they were (R5). -/
def keepMasked (mask : Nat → Byte) (size : Nat) (old new : Memory) (b : Nat) : Memory :=
  (upFrom 0 size).foldl (keepByte mask old b) new

/-- The 64 bytes of a queue block after a store: HEAD, DONE, ERR and START, which the hardware maintains, and the reserved
bits stay as they were (R5, R331; log 73). -/
def keepFields (old new : Memory) (b : Nat) : Memory := keepMasked blockMask 64 old new b

/-- Every bound queue block that a store of n bytes at `pa` reaches keeps those fields. -/
def keepBlocks (s : State) (pa n : Nat) (m : Memory) : Memory :=
  s.queues.foldl (fun m q =>
    if q.2.block < pa + n ∧ pa < q.2.block + 64 then keepFields s.mem m q.2.block else m) m

/-- The bits of byte i of a violation log that a write may set: the header, and of an entry ADDR, CODE, MCC, THREAD, CORE, CLUSTER
and SRC (R361). -/
def logMask (i : Nat) : Byte :=
  let k := (i - 16) % 16
  if i < 16 ∨ k < 9 ∨ k = 12 then 255 else if k = 13 then 0x3F else 0

/-- The bits of byte i of an error record that a write may set: all but the three bytes above QUEUE (R370). -/
def recordMask (i : Nat) : Byte := if 57 ≤ i ∧ i < 60 then 0 else 255

/-- The bytes of a violation log and of an error record (R361, R370). -/
def logSize : Nat := 1040
def recordSize : Nat := 64

/-- A structure of `size` bytes at b keeps its reserved bits when n bytes written at `pa` reach it (R5). -/
def keepReached (old : Memory) (pa n : Nat) (mask : Nat → Byte) (size b : Nat) (m : Memory) : Memory :=
  if b < pa + n ∧ pa < b + size then keepMasked mask size old m b else m

/-- The violation log and the error record of every valid context keep their reserved bits when n bytes are written at `pa` from
outside (R5, R361, R370; log 73). -/
def keepRecords (s : State) (pa n : Nat) (m : Memory) : Memory :=
  s.ctxs.foldl (fun m c =>
    if c.2.valid then
      keepReached s.mem pa n recordMask recordSize c.2.errec (keepReached s.mem pa n logMask logSize c.2.vlog m)
    else m) m

/-- The reserved bits of a violation log and an error record read 0 from the creation of their context on (R5, R361, R370). -/
def clearReserved (m : Memory) (vlog errec : Nat) : Memory :=
  keepMasked recordMask recordSize [] (keepMasked logMask logSize [] m vlog) errec

/-- n bytes at `pa` are a whole line, that of byte b. -/
def wholeLine (pa n b : Nat) : Bool := decide (pa ≤ b / 64 * 64) && decide (b / 64 * 64 + 64 ≤ pa + n)

/-- Bytes of poisoned lines that a write of only a part of its line has written: noted until a write of the whole line has
overwritten them (R382; log 108). -/
def noteOver (s : State) (pa n : Nat) : List Nat :=
  if s.poisonLines.isEmpty then s.overlaid
  else
    s.overlaid.filter (fun b => !wholeLine pa n b) ++ (upFrom pa n).filter fun b =>
      s.poisonLines.contains (b / 64) && !wholeLine pa n b && !s.overlaid.contains b

/-- Write n bytes at a target. A single write of a whole line, or of all 8 bytes of a scratchpad word, clears its
poison (R382, R383). An address beyond the 1,024 GB of device memory is written like any other (R15; DESIGN CHOICE, log 96). -/
def tgtWrite (s : State) (t : Target) (n v : Nat) : State :=
  match t with
  | .spad k =>
    { s with spad := memWrite s.spad k n v
             poisonSpad := s.poisonSpad.filter fun w => !(decide (k ≤ w * 8) && decide (w * 8 + 8 ≤ k + n)) }
  | .dev pa _ =>
    { s with mem := keepBlocks s pa n (memWrite s.mem pa n v), overlaid := noteOver s pa n
             poisonLines := s.poisonLines.filter fun l => !(decide (pa ≤ l * 64) && decide (l * 64 + 64 ≤ pa + n)) }
  | .peer d pa _ => { s with peer := memWrite s.peer (peerKey d pa) n v }
  | .violation _ => s

/-- A target moved on by n bytes within its page. -/
def tgtAdd (t : Target) (n : Nat) : Target :=
  match t with
  | .spad k => .spad (k + n)
  | .dev pa r => .dev (pa + n) r
  | .peer d pa r => .peer d (pa + n) r
  | .violation c => .violation c

/-- The serial bit of a target's page. -/
def tgtSerial : Target → Bool
  | .dev _ r => r
  | .peer _ _ r => r
  | _ => false

/-- The memory target with a given key, for a serial region's descriptor. -/
def keyTarget (k : Nat) : Target :=
  if k < 2 ^ 60 then .dev k false else .peer ((k - 2 ^ 60) / 2 ^ 48) ((k - 2 ^ 60) % 2 ^ 48) false

/-- BASE, LIMIT, RESERVE and FRONTIER of a descriptor (R261). -/
def regionFields (s : State) (k : Nat) : Nat × Nat × Nat × Nat :=
  let t := keyTarget k
  (tgtRead s t 8, tgtRead s (tgtAdd t 8) 8, tgtRead s (tgtAdd t 16) 8, tgtRead s (tgtAdd t 24) 8)

/-- The fields of a serial region descriptor are consistent (R261). -/
def regionOk (s : State) (t : Target) : Bool :=
  let base := tgtRead s t 8
  let limit := tgtRead s (tgtAdd t 8) 8
  let res := tgtRead s (tgtAdd t 16) 8
  let fr := tgtRead s (tgtAdd t 24) 8
  decide (tgtRead s (tgtAdd t 32) 32 = 0) && decide (base ≤ fr) && decide (fr ≤ res) && decide (res ≤ limit)

/-- The 8-byte words of a table that memory lists: their addresses. -/
def listedWords (m : Memory) (lo n : Nat) : List Nat :=
  (m.filter fun c => decide (lo ≤ c.1) && decide (c.1 < lo + n)).foldl (fun l c =>
    if l.contains (c.1 / 8 * 8) then l else l ++ [c.1 / 8 * 8]) []

/-- The leaf entries of a context's tables, each with its address and level (R350, R351). -/
def leafEntries (s : State) : List Nat → Nat → List (Nat × Nat × Nat)
  | [], _ => []
  | lvl :: r, tbl =>
    (listedWords s.mem tbl (if lvl = 0 then 65536 else 4096)).flatMap fun a =>
      let e := memRead s.mem a 8
      if !pteV e then []
      else if pteLeaf e then [(a, e, lvl)]
      else leafEntries s r (pteAddr e)

/-- The leaf entries of a context. -/
def contextEntries (s : State) (x : Context) : List (Nat × Nat × Nat) := leafEntries s [0, 1, 2, 3] x.ptroot

/-- A page entry maps the byte with a given key (R351). -/
def entryMaps (s : State) (key : Nat) (e : Nat × Nat × Nat) : Bool :=
  let sz := 2 ^ levelShift e.2.2
  let pa := pteAddr e.2.1 / sz * sz
  let lo := if ofPeer s e.2.1 then 2 ^ 60 + peerKey (ptePdev e.2.1) pa else pa
  decide (lo ≤ key) && decide (key < lo + sz)

/-- The lines of this device's memory whose LIMIT word is not zero: where a region descriptor may stand. -/
def descriptorLines (m : Memory) : List Nat :=
  (m.filter fun c => decide (8 ≤ c.1 % 64) && decide (c.1 % 64 < 16)).map fun c => c.1 / 64 * 64

/-- The descriptor of the serial region that holds an address: the first that is consistent and has the address in
[BASE, LIMIT) among those acted on, the latest first, and then those that device memory holds; of the descriptors that
the context maps only (R261; log 11). -/
def regionAt (s : State) (ctx : Fin 4096) (va : Word) : Option Nat :=
  (s.regions.map (fun r => r.pa) ++ descriptorLines s.mem).find? fun k =>
    let f := regionFields s k
    decide (f.1 ≤ va.toNat) && decide (va.toNat < f.2.1) && regionOk s (keyTarget k) &&
      (contextEntries s (getCtx s ctx)).any (entryMaps s k)

/-- A store to a serial page at or above its region's reserve (code 1) or below its frontier (code 2) (R138, R261): one that reaches
the reserve with any byte counts as above it, and one that begins below the frontier as below (DESIGN CHOICE, log 115). -/
def serialCheck (s : State) (ctx : Fin 4096) (t : Target) (va : Word) (size : Nat) : Option Nat :=
  if !tgtSerial t then none
  else
    match regionAt s ctx va with
    | none => none
    | some k =>
      let f := regionFields s k
      if f.2.2.1 < va.toNat + size then some 1 else if va.toNat < f.2.2.2 then some 2 else none

/-- A store's target with the violations of serial pages taken into account (R138). -/
def storeTarget (s : State) (ctx : Fin 4096) (t : Target) (va : Word) (size : Nat) : Target :=
  match serialCheck s ctx t va size with
  | some c => .violation c
  | none => t

/-- Who made an access, as a violation entry records it (R361): SRC 0 thread, 1 copy engine, 2 matrix engine, 3
collator read. -/
structure LogSource where
  src : Nat
  cl : Fin 64
  co : Fin 8
  th : Fin 4
  mcc : Bool
deriving DecidableEq, Repr

/-- A thread as the source of a violation. -/
def sourceOf (t : Tid) : LogSource :=
  { src := 0, cl := clusterOf t, co := coreOf t, th := threadOf t, mcc := isMcc t }

/-- Bits [127:64] of a violation entry (R361). -/
def logWord (x : LogSource) (code : Nat) : Nat :=
  code % 256 + (if x.mcc then 2 ^ 32 else 0) + x.th.val * 2 ^ 33 + x.co.val * 2 ^ 35 + x.cl.val * 2 ^ 38 + x.src * 2 ^ 44

/-- Record a violation in the context's log when it has room (R361). -/
def logViolation (s : State) (ctx : Fin 4096) (x : LogSource) (va : Word) (code : Nat) : State :=
  let v := (getCtx s ctx).vlog
  let w := memRead s.mem v 8
  let r := memRead s.mem (v + 8) 8
  if (w + 2 ^ 64 - r) % 2 ^ 64 < 64 then
    let e := v + 16 + 16 * (w % 64)
    { s with mem := memWrite (memWrite (memWrite s.mem e 8 va.toNat) (e + 8) 8 (logWord x code)) v 8 (w + 1) }
  else s

/-- FFLAGS.VIOL of a thread is set (R138, R361). -/
def setViol (s : State) (t : Tid) : State := updThread s t fun th => { th with fflags := th.fflags ||| flagViol }

/-- A wmpub that waits for this access, and for which every path has failed (code 4), will release nothing (R374, R388). -/
def loseRelease (s : State) (t : Tid) (va : Word) (code : Nat) : State :=
  match (getThread s t).release with
  | some (pc, none) => if code = 4 then updThread s t fun th => { th with release := some (pc, some va) } else s
  | _ => s

/-- A violation response to an access of a thread: logged (R138). -/
def logResponse (s : State) (t : Tid) (x : LogSource) (va : Word) (code : Nat) : State :=
  loseRelease (logViolation s (getThread s t).ctx x va code) t va code

/-- A violation response to an access of a thread: logged, and VIOL set (R138). -/
def violate (s : State) (t : Tid) (x : LogSource) (va : Word) (code : Nat) : State :=
  setViol (logResponse s t x va code) t

/-- An address is aligned to n bytes. -/
def aligned (va : Word) (n : Nat) : Bool := decide (va.toNat % n = 0)

/-- The place of a cause in the order of R358, from the scratchpad bound on: bound, translation, protection, misaligned, pool
exhaustion, and the others by their codes. -/
def causeRank (cause : Nat) : Nat :=
  if cause = 0x09 then 0 else if cause = 0x06 then 1 else if cause = 0x07 then 2 else if cause = 0x08 then 3
  else if cause = 0x04 then 4 else 5 + cause

/-- The fault that an element with several accesses reports: by R358, the first of them on ties. -/
def worstFault : List (Except FaultInfo Target) → Option FaultInfo
  | [] => none
  | .ok _ :: r => worstFault r
  | .error f :: r =>
    match worstFault r with
    | some g => if causeRank g.cause < causeRank f.cause then some g else some f
    | none => some f

/-- The targets of an element's accesses, or the fault it reports. -/
def allTargets (l : List (Except FaultInfo Target)) : Except FaultInfo (List Target) :=
  match worstFault l with
  | some f => .error f
  | none => .ok (l.filterMap fun x => match x with
    | .ok t => some t
    | .error _ => none)

/-- The code of the first violation response among some targets. -/
def firstViolation (l : List Target) : Option Nat :=
  l.findSome? fun t => match t with
    | .violation c => some c
    | _ => none

/-- Where a thread's access leads, with misaligned (cause 0x08) after the faults of `resolve` (R136, R137, R358). -/
def alignedTarget (s : State) (p : Party) (va : Word) (size algn : Nat) (k : MKind) : Except FaultInfo Target :=
  match resolve s p va size k with
  | .error f => .error f
  | .ok t => if !aligned va algn then .error (accFault 0x08 va.toNat) else .ok t

/-- Where an access that is performed at once leads, with poisoned data (cause 0x12) last for one that reads (R137,
R358). -/
def accessTarget (s : State) (p : Party) (va : Word) (size algn : Nat) (k : MKind) : Except FaultInfo Target :=
  match alignedTarget s p va size algn k with
  | .error f => .error f
  | .ok t =>
    if decide (k ≠ .store) && tgtPoison s t size then .error (accFault 0x12 va.toNat) else .ok t

/-- A load at or beyond the frontier of the bookmark of its class, within its region, reads FILL without an access
(R138, R263). The address is compared with all 64 bits of the descriptor's FRONTIER word (DESIGN CHOICE; log 102). -/
def bookmarkHides (b : Bookmark) (va : Word) : Bool :=
  b.valid && decide (b.base.toNat ≤ va.toNat) && decide (va.toNat < b.limit.toNat) &&
    decide (b.frontier.toNat ≤ va.toNat)

/-- The bookmark that a load of a class meets: classes 12 to 15 belong to BK0 to BK3 (R263). -/
def bookmarkOf (th : Thread) (cls : Nat) : Bookmark :=
  if h : 12 ≤ cls ∧ cls < 16 then th.bk[cls - 12]'(by omega) else Bookmark.none

end Sys2Proof.Machine
end

