-- ==== Sys2Proof/Machine/Pool.lean ====
section
/-!
DEFINITION. The pool of a core: leaves, allocation (R274), holders (R70), release and reclaim (R75), reading a
chain as a byte stream (R72), appending to a fresh chain (R73), writing in place with path copies (R78), EXCL
(R71).
-/

namespace Sys2Proof.Machine

/-- Why an allocation does not give a leaf: the walker may free some (a stall), or nothing is left; then whether
the free list was empty, XINFO bit 0 (R274, R275). -/
inductive AllocErr where
  | wait
  | exhausted (freeEmpty : Bool)
deriving DecidableEq, Repr

/-- A leaf as the pool holds it; a free leaf has REFS 0 (R69). -/
def freeLeaf : Leaf :=
  { data := 0, lo := 0, len := 0, refs := 0, last := true, next := 0, owner := 0, poison := false,
    hdrPoison := false }

/-- A leaf of a core. -/
def leafAt (c : Core) (x : Nat) : Leaf := mapGet freeLeaf c.leaves x
/-- Put a leaf. -/
def putLeaf (c : Core) (x : Nat) (l : Leaf) : Core := { c with leaves := mapPut c.leaves x l }

/-- LHELD: the leaves charged to a thread and not yet freed (R76). -/
def lheld (c : Core) (th : Fin 4) : Nat := (c.leaves.filter fun p => decide (p.2.owner = th)).length

/-- The first leaf never taken and not retired, at or after `x`. -/
def nextFresh (retired : List Nat) : Nat → Nat → Option Nat
  | 0, _ => none
  | fuel + 1, x =>
    if Config.poolLeaves ≤ x then none
    else if retired.contains x then nextFresh retired fuel (x + 1) else some x

/-- The leaf at the head of the free list, and the list without it (R274; the order is log 8). -/
def takeFree (c : Core) : Option (Nat × Core) :=
  match nextFresh c.retired (c.retired.length + 1) c.fresh with
  | some x => some (x, { c with fresh := x + 1 })
  | none =>
    match c.freed with
    | x :: r => some (x, { c with freed := r })
    | [] => none

/-- Take a leaf for a thread under a budget (R274). The leaf comes with one holder and no bytes. -/
def allocLeaf (c : Core) (th : Fin 4) (budget : Nat) : Except AllocErr (Nat × Core) :=
  match takeFree c with
  | some (x, c') =>
    if lheld c th < budget then
      .ok (x, putLeaf c' x { freeLeaf with refs := 1, owner := th })
    else if c.reclaim.isEmpty then .error (.exhausted false) else .error .wait
  | none => if c.reclaim.isEmpty then .error (.exhausted true) else .error .wait

/-- Hold a leaf once more (R70): at REFS 63 a fresh copy is held instead, and the copy holds the successor. -/
def takeRef (th : Fin 4) (budget : Nat) : Nat → Core → Nat → Except AllocErr (Nat × Core)
  | 0, c, x => .ok (x, c)
  | fuel + 1, c, x =>
    let l := leafAt c x
    if l.refs < 63 then .ok (x, putLeaf c x { l with refs := l.refs + 1 })
    else
      match allocLeaf c th budget with
      | .error e => .error e
      | .ok (y, c1) =>
        if l.last then .ok (y, putLeaf c1 y { l with refs := 1, owner := th, next := 0 })
        else
          match takeRef th budget fuel c1 l.next with
          | .error e => .error e
          | .ok (z, c2) => .ok (y, putLeaf c2 y { l with refs := 1, owner := th, next := z })

/-- Hold a leaf once more, with fuel for a walk of the whole pool. -/
def holdLeaf (c : Core) (th : Fin 4) (budget x : Nat) : Except AllocErr (Nat × Core) :=
  takeRef th budget (Config.poolLeaves + 1) c x

/-- The pieces of a chain's stream, in order: leaf, first byte in its data, bytes (R72). -/
def walkPieces (c : Core) : Nat → Nat → Nat → Nat → List (Nat × Nat × Nat)
  | 0, _, _, _ => []
  | fuel + 1, x, skip, rest =>
    if rest = 0 then []
    else
      let l := leafAt c x
      let n := min (l.len + 1 - skip) rest
      (x, l.lo + skip, n) :: walkPieces c fuel l.next 0 (rest - n)

/-- The pieces of a descriptor's stream. -/
def pieces (c : Core) (d : Desc) : List (Nat × Nat × Nat) := walkPieces c (d.len + 1) d.head d.skip d.len

/-- The leaves of a chain from its head to its tail. -/
def chainLeaves (c : Core) (d : Desc) : List Nat := (pieces c d).map fun p => p.1

/-- The bytes of pieces as one number. -/
def piecesVal (c : Core) : List (Nat × Nat × Nat) → Nat
  | [] => 0
  | (x, off, n) :: r => bitsOf (leafAt c x).data (8 * off) (8 * n) + 2 ^ (8 * n) * piecesVal c r

/-- The byte ranges of the stream that poison makes unreadable: those of a poisoned leaf, and everything from a
leaf with a poisoned header on (R384). -/
def piecesBad (c : Core) : Nat → List (Nat × Nat × Nat) → List (Nat × Nat)
  | _, [] => []
  | at_, (x, _, n) :: r =>
    let l := leafAt c x
    if l.hdrPoison then [(at_, Config.maxChain + 1)]
    else if l.poison then (at_, at_ + n) :: piecesBad c (at_ + n) r
    else piecesBad c (at_ + n) r

/-- A chain as a byte stream (R72). -/
def streamOf (c : Core) (d : Desc) : Stream :=
  let ps := pieces c d
  { val := piecesVal c ps, len := d.len, bad := piecesBad c 0 ps }

/-- The identity map of S states, padding bytes 0 (R49; log 22). -/
def idMap (n : Nat) : Nat :=
  (upFrom 0 n).foldr (fun i acc => i % 256 + 256 * acc) 0

/-- What a source read beyond its elements gives: FILL's low bytes, or the identity map (R7, R49, R84). -/
def fillElem (fill : Word) (isMapTy : Bool) (cl s : Nat) : Nat :=
  if isMapTy then idMap (clS cl) else fill.toNat % 2 ^ (8 * s)

/-- Element i of s bytes of a stream (R67, R72). -/
def streamElem (st : Stream) (dflt s i : Nat) : Nat :=
  if (i + 1) * s ≤ st.len then bitsOf st.val (8 * i * s) (8 * s) else dflt

/-- Element i of s bytes touches poison (R167, R384). -/
def streamBad (st : Stream) (s i : Nat) : Bool :=
  decide ((i + 1) * s ≤ st.len) && st.bad.any fun r => decide (r.1 < (i + 1) * s) && decide (i * s < r.2)

/-- The element count of a chain (R67). -/
def elemCount (len s : Nat) : Nat := len / s

/-- Every leaf of a chain has one holder (R71). -/
def exclOf (c : Core) (d : Desc) : Bool := (chainLeaves c d).all fun x => decide ((leafAt c x).refs = 1)

/-- Release a chain: its head loses a holder and is queued for the reclaim walker (R75). -/
def release (c : Core) (d : Desc) : Core :=
  if d.len = 0 then c
  else
    let l := leafAt c d.head
    { putLeaf c d.head { l with refs := l.refs - 1 } with reclaim := c.reclaim ++ [d.head] }

/-- Free one leaf: to the free list, or out of service when it is retired (R75, R384). -/
def freeOne (c : Core) (x : Nat) : Core :=
  { c with leaves := mapDel c.leaves x
           freed := if c.retired.contains x then c.freed else c.freed ++ [x] }

/-- The reclaim walk from leaf x, at most `n` leaves (R75): the leaf at which it pauses, if it does. A poisoned
header ends it (R384). -/
def reclaimFrom : Nat → Core → Nat → Core × Option Nat
  | 0, c, x => (c, some x)
  | n + 1, c, x =>
    match mapFind c.leaves x with
    | none => (c, none)
    | some l =>
      if l.refs ≠ 0 then (c, none)
      else
        let c1 := freeOne c x
        if l.last || l.hdrPoison then (c1, none)
        else
          let y := leafAt c1 l.next
          let c2 := if (mapFind c1.leaves l.next).isSome then putLeaf c1 l.next { y with refs := y.refs - 1 } else c1
          reclaimFrom n c2 l.next

/-- One cycle of the reclaim walker: up to 4 leaves (R75). -/
def reclaimStep (c : Core) : Core :=
  match c.reclaim with
  | [] => c
  | x :: r =>
    let p := reclaimFrom 4 { c with reclaim := r } x
    match p.2 with
    | none => p.1
    | some y => { p.1 with reclaim := y :: r }

/-- Run the walker until nothing is queued (R362 step 5). -/
def reclaimAll : Nat → Core → Core
  | 0, c => c
  | n + 1, c => if c.reclaim.isEmpty then c else reclaimAll n (reclaimStep c)

/-- Put bytes into a leaf after those it holds. -/
def leafAppend (l : Leaf) (n v : Nat) : Leaf :=
  { l with data := l.data + 2 ^ (8 * (l.lo + l.len + 1)) * (v % 2 ^ (8 * n)), len := l.len + n }

/-- Append n bytes to a fresh chain, taking leaves as they are needed (R73, R274). -/
def appendBytes (th : Fin 4) (budget : Nat) : Nat → Core → Desc → Nat → Nat → Except AllocErr (Core × Desc)
  | 0, c, d, _, _ => .ok (c, d)
  | fuel + 1, c, d, n, v =>
    if n = 0 then .ok (c, d)
    else
      let room := if d.len = 0 then 0 else 63 - (leafAt c d.tail).len
      if room = 0 then
        match allocLeaf c th budget with
        | .error e => .error e
        | .ok (x, c1) =>
          let k := min n 64
          let c2 := putLeaf c1 x { leafAt c1 x with data := v % 2 ^ (8 * k), len := k - 1 }
          let c3 :=
            if d.len = 0 then c2 else putLeaf c2 d.tail { leafAt c2 d.tail with last := false, next := x }
          let d' : Desc :=
            { part := false, excl := true, skip := 0, len := d.len + k, tail := x
              head := if d.len = 0 then x else d.head }
          appendBytes th budget fuel c3 d' (n - k) (v / 2 ^ (8 * k))
      else
        let k := min n room
        let c1 := putLeaf c d.tail (leafAppend (leafAt c d.tail) k v)
        appendBytes th budget fuel c1 { d with len := d.len + k, excl := true, part := false } (n - k)
          (v / 2 ^ (8 * k))

/-- Append one element of s bytes; on failure nothing of it is kept (R73, R275). -/
def appendElem (c : Core) (th : Fin 4) (budget : Nat) (d : Desc) (s v : Nat) : Except AllocErr (Core × Desc) :=
  appendBytes th budget (s + 2) c d s v

/-- The leaf in which byte n of a chain's stream lies, and its place from the start of the leaf's valid bytes: the
header walk of R198 and R199. -/
def findByte (c : Core) : Nat → Nat → Nat → Nat × Nat
  | 0, x, k => (x, k)
  | fuel + 1, x, k =>
    let l := leafAt c x
    if l.len + 1 ≤ k then findByte c fuel l.next (k - (l.len + 1)) else (x, k)

/-- The leaf that holds byte n of a chain, and the offset in its valid bytes. -/
def locate (c : Core) (d : Desc) (n : Nat) : Nat × Nat := findByte c (d.len + 1) d.head (d.skip + n)

/-- A descriptor whose TAIL names the leaf that holds its last byte (R65): after take_ref that may be a copy (R70). -/
def retail (c : Core) (d : Desc) : Desc := if d.len = 0 then d else { d with tail := (locate c d (d.len - 1)).1 }

/-- A chain that is not empty held once more, by its head (R70): the descriptor of the new holder, which carries neither
EXCL nor PARTIAL (R195, R301). -/
def holdChain (c : Core) (th : Fin 4) (budget : Nat) (d : Desc) : Except AllocErr (Core × Desc) :=
  match holdLeaf c th budget d.head with
  | .error e => .error e
  | .ok (h, c1) => .ok (c1, retail c1 { d with head := h, excl := false, part := false })

/-- The place in the stream where the first leaf with a poisoned header begins, among the pieces of its first n bytes: no
walk passes it (R384). -/
def wallAt (c : Core) : Nat → Nat → List (Nat × Nat × Nat) → Option Nat
  | _, _, [] => none
  | at_, n, (x, _, k) :: r =>
    if (leafAt c x).hdrPoison then some at_ else if n ≤ at_ + k then none else wallAt c (at_ + k) n r

/-- The first byte held by a leaf with a poisoned header on the way to byte n of a chain (R384). -/
def headerWall (c : Core) (d : Desc) (n : Nat) : Option Nat := wallAt c 0 (n + 1) (pieces c d)

/-- Write bytes into the pieces of a stream, from stream offset `off`. -/
def writePieces (c : Core) : List (Nat × Nat × Nat) → Nat → Nat → Nat → Core
  | [], _, _, _ => c
  | (x, st, n) :: r, off, k, v =>
    if n ≤ off then writePieces c r (off - n) k v
    else if k = 0 then c
    else
      let m := min (n - off) k
      let l := leafAt c x
      let p := 8 * (st + off)
      let d := bitsOf l.data 0 p + 2 ^ p * (v % 2 ^ (8 * m)) + 2 ^ (p + 8 * m) * (l.data / 2 ^ (p + 8 * m))
      writePieces (putLeaf c x { l with data := d }) r 0 (k - m) (v / 2 ^ (8 * m))

/-- Copies of leaves, one for each, taken in order before any is linked (R78). -/
def copyLeaves (th : Fin 4) (budget : Nat) : Core → List Nat → Except AllocErr (Core × List Nat)
  | c, [] => .ok (c, [])
  | c, x :: r =>
    match allocLeaf c th budget with
    | .error e => .error e
    | .ok (y, c1) =>
      let l := leafAt c x
      match copyLeaves th budget (putLeaf c1 y { l with refs := 1, owner := th }) r with
      | .error e => .error e
      | .ok (c2, ys) => .ok (c2, y :: ys)

/-- Link leaves one after another; the last one gets `last` and `next` as given. -/
def linkLeaves (c : Core) (last : Bool) (next : Nat) : List Nat → Core
  | [] => c
  | [x] => putLeaf c x { leafAt c x with last := last, next := next }
  | x :: y :: r => linkLeaves (putLeaf c x { leafAt c x with last := false, next := y }) last next (y :: r)

/-- The leaves of a stream from the head to the one that holds byte `n - 1`. -/
def leavesTo : List (Nat × Nat × Nat) → Nat → List Nat
  | [], _ => []
  | (x, _, k) :: r, n => if n ≤ k then [x] else x :: leavesTo r (n - k)

/-- write_elem of R78: in place where every leaf up to the element has one holder, else on a path of copies. On a
failed allocation the chain is unchanged. -/
def writeElem (c : Core) (th : Fin 4) (budget : Nat) (d : Desc) (off n v : Nat) :
    Except AllocErr (Core × Desc) :=
  let ps := pieces c d
  let ls := leavesTo ps (off + n)
  let keep := ls.takeWhile fun x => decide ((leafAt c x).refs = 1)
  let shared := ls.drop keep.length
  match shared with
  | [] => .ok (writePieces c ps off n v, d)
  | lj :: _ =>
    match copyLeaves th budget c shared with
    | .error e => .error e
    | .ok (c1, ys) =>
      let lk := shared.getLast?.getD lj
      let l := leafAt c lk
      let linked : Except AllocErr Core :=
        if l.last then .ok (linkLeaves c1 true 0 ys)
        else
          match holdLeaf c1 th budget l.next with
          | .error e => .error e
          | .ok (z, c2) => .ok (linkLeaves c2 false z ys)
      match linked with
      | .error e => .error e
      | .ok c2 =>
        let c0 := ys.head?.getD lj
        let ck := ys.getLast?.getD c0
        let c3 :=
          match keep.getLast? with
          | none => c2
          | some x => putLeaf c2 x { leafAt c2 x with next := c0 }
        let c4 := putLeaf c3 lj { leafAt c3 lj with refs := (leafAt c3 lj).refs - 1 }
        let d' : Desc :=
          { d with head := if keep.isEmpty then c0 else d.head
                   tail := if lk = d.tail then ck else d.tail }
        .ok (writePieces c4 (pieces c4 d') off n v, retail c4 d')

end Sys2Proof.Machine
end

