-- ==== Sys2Proof/Machine/Operands.lean ====
section
/-!
DEFINITION. Every operand form of the vector side: VTYPE's fields (R80), masks (R62, R63), which chains, masks and
registers an operation names (R66, R101), the second operand of an element-wise form (R165), which types a family
takes (R50, R114), the address of a memory element (R203) and which elements are accessed (R204, R205).
-/

namespace Sys2Proof.Machine

/-- VTYPE.TYPE (R80). -/
def vtTy (vt : Nat) : Nat := bitsOf vt 0 4
/-- VTYPE.BLOCK (R80). -/
def vtBlock (vt : Nat) : Nat := bitsOf vt 4 3
/-- VTYPE.ILL (R80). -/
def vtIll (vt : Nat) : Bool := bitAt vt 7
/-- VTYPE.RM (R80). -/
def vtRm (vt : Nat) : Nat := bitsOf vt 8 3

/-- The block size of a block code (R80). -/
def blockSize (code : Nat) : Nat :=
  match code with
  | 0 => 1
  | 1 => 4
  | 2 => 32
  | 3 => 64
  | _ => 128

/-- A mask: m0 reads all ones (R62). -/
def maskOf (th : Thread) (m : Nat) : BitVec 4096 :=
  if m = 0 then BitVec.allOnes 4096 else if h : m < 48 then th.m[m] else 0

/-- Write a mask: a write to m0 is discarded (R62). -/
def setMask (th : Thread) (m : Nat) (w : BitVec 4096) : Thread :=
  if m = 0 then th else if h : m < 48 then { th with m := th.m.set m w } else th

/-- Bit i of a mask. -/
def mbit (th : Thread) (m i : Nat) : Bool := (maskOf th m).getLsbD i

/-- Write one bit of a mask. -/
def setMaskBit (th : Thread) (m i : Nat) (b : Bool) : Thread :=
  let w := maskOf th m
  setMask th m (if b then w ||| BitVec.twoPow 4096 i else w &&& ~~~(BitVec.twoPow 4096 i))

/-- The low n bits set (R63, R160). -/
def lowBits (n : Nat) : BitVec 4096 := BitVec.ofNat 4096 (2 ^ n - 1)

/-- Clear the bits [n, 4096) of a mask (R63). -/
def clearAbove (th : Thread) (m n : Nat) : Thread := setMask th m (maskOf th m &&& lowBits n)

/-- The destination that an operation writes as a chain, by R71, when it completes. -/
def destOf : VOp → Option Reg
  | .int _ d _ _ _ _ => some d
  | .fp _ d _ _ _ _ => some d
  | .cvt d _ _ _ _ => some d
  | .scan _ d _ _ _ _ => some d
  | .slide _ d _ _ _ => some d
  | .perm d _ _ _ => some d
  | .press d _ _ => some d
  | .rank d _ => some d
  | .bcast d _ _ => some d
  | .topk d _ _ _ => some d
  | .load _ d _ _ _ _ _ _ => some d
  | .share d _ => some d
  | .cat d _ _ => some d
  | .trim d _ _ _ => some d
  | .split d _ _ => some d
  | .pack d _ => some d
  | .clmap d _ _ _ => some d
  | .clcomp d _ _ => some d
  | .clscan d _ => some d
  | .clapply d _ _ => some d
  | .tget d _ => some d
  | .pat d _ _ _ _ _ _ => some d
  | _ => none

/-- The operation builds its destination element by element and resumes from a partial chain (R73, R276); the
structural ones and tget do not. -/
def isFresh : VOp → Bool
  | .share _ _ => false
  | .cat _ _ _ => false
  | .trim _ _ _ _ => false
  | .split _ _ _ => false
  | .tget _ _ => false
  | op => (destOf op).isSome

/-- The g register that receives a result through the read queue (R158, R192, R244). -/
def gdestOf : VOp → Option Reg
  | .red _ d _ _ _ => some d
  | .extr d _ _ => some d
  | .mpopc d _ => some d
  | .mfirst d _ => some d
  | .mtos d _ _ => some d
  | .desc d _ => some d
  | .len d _ => some d
  | .clcomp _ _ g => some g
  | _ => none

/-- The vector registers an operation names in its register fields (R66). -/
def srcRegs : Src → List Reg
  | .v r => [r]
  | _ => []

/-- The vector registers an operation names, with the scale register of a grouped vcvt or tbind left to the rule
of R48 and R223. -/
def vregsOf : VOp → List Reg
  | .int _ d a b _ _ => d :: a :: srcRegs b
  | .fp _ d a b _ _ => d :: a :: srcRegs b
  | .cvt d a _ _ _ => [d, a]
  | .cmp _ _ a b _ => a :: srcRegs b
  | .red _ _ a _ _ => [a]
  | .scan _ d a _ _ _ => [d, a]
  | .slide _ d a _ _ => [d, a]
  | .perm d a b _ => [d, a, b]
  | .press d a _ => [d, a]
  | .rank d _ => [d]
  | .bcast d _ _ => [d]
  | .extr _ a _ => [a]
  | .put d _ _ => [d]
  | .upd _ d a b _ => [d, a, b]
  | .topk d a _ _ => [d, a]
  | .load f d _ _ i _ _ _ => if f = .indexed then [d, i] else [d]
  | .store f d _ _ i _ _ => if f = .indexed then [d, i] else [d]
  | .stxa d _ i _ _ _ => [d, i]
  | .share d a => [d, a]
  | .cat d a b => [d, a, b]
  | .trim d a _ _ => [d, a]
  | .split d a _ => [d, a]
  | .pack d a => [d, a]
  | .free a => [a]
  | .desc _ a => [a]
  | .len _ a => [a]
  | .clmap d a _ _ => [d, a]
  | .clcomp d a _ => [d, a]
  | .clscan d a => [d, a]
  | .clapply d a _ => [d, a]
  | .tbind a _ => [a]
  | .tget d _ => [d]
  | .pat d a b _ _ _ _ => [d, a, b]
  | .copy c => if c.kind = .cpyg ∨ c.kind = .cpys then [c.vidx] else []
  | _ => []

/-- The masks an operation names (R101, R103, R104). -/
def masksOf : VOp → List MaskF
  | .int _ _ _ _ m _ => [m]
  | .fp _ _ _ _ m _ => [m]
  | .cvt _ _ _ m _ => [m]
  | .cmp _ md _ _ m => [md, m]
  | .red _ _ _ _ m => [m]
  | .scan _ _ _ _ m _ => [m]
  | .slide _ _ _ _ m => [m]
  | .perm _ _ _ m => [m]
  | .press _ _ m => [m]
  | .rank _ m => [m]
  | .bcast _ _ m => [m]
  | .upd _ _ _ _ m => [m]
  | .topk _ _ _ m => [m]
  | .mask op md ma mb => if op = .not then [md, ma] else [md, ma, mb]
  | .mpopc _ ma => [ma]
  | .mfirst _ ma => [ma]
  | .mtos _ ma _ => [ma]
  | .stom md _ _ => [md]
  | .mset md _ _ => [md]
  | .load _ _ _ _ _ m _ _ => [m]
  | .store _ _ _ _ _ m _ => [m]
  | .stxa _ _ _ m _ _ => [m]
  | .clmask md _ _ => [md]
  | .pat _ _ _ m _ _ _ => [m]
  | _ => []

/-- The mask an operation writes or routes exception bits to (R62, R101); a pattern's is judged apart (R108). -/
def writtenMask : VOp → Option MaskF
  | .int _ _ _ _ m x => if x then some m else none
  | .fp _ _ _ _ m x => if x then some m else none
  | .cvt _ _ _ m x => if x then some m else none
  | .scan _ _ _ _ m x => if x then some m else none
  | .cmp _ md _ _ _ => some md
  | .mask _ md _ _ => some md
  | .stom md _ _ => some md
  | .mset md _ _ => some md
  | .clmask md _ _ => some md
  | _ => none

/-- A vector register field is below NV (R66). -/
def regOk (th : Thread) (r : Reg) : Bool := decide (r.val < th.nv)
/-- A mask field is below NM, or 0 or 46 (R62). -/
def maskFieldOk (th : Thread) (m : MaskF) : Bool :=
  decide (m.val < th.nm) || decide (m.val = 0) || decide (m.val = 46)

/-- The operation is a grouped use of va: vcvt or tbind under i8 with block 32, 64 or 128 (R48, R223). -/
def grouped (vt : Nat) : Bool := !vtIll vt && decide (vtTy vt = 0) && decide (2 ≤ vtBlock vt)

/-- A grouped vcvt or tbind also names v(va+1), which must exist (R48, R223). -/
def scaleOk (th : Thread) (a : Reg) : Bool := decide (a.val ≠ 31) && decide (a.val + 1 < th.nv)

/-- The register checks of R66, R101 and R112 for an operation. -/
def registersOk (th : Thread) (op : VOp) : Bool :=
  (vregsOf op).all (regOk th) && (masksOf op).all (maskFieldOk th) &&
    (match writtenMask op with | some m => decide (m.val ≠ 46) | none => true) &&
    (match op with
      | .cvt _ a _ _ _ => !grouped th.vtype || scaleOk th a
      | .tbind a _ => !grouped th.vtype || scaleOk th a
      | _ => true)

/-- The operation counts in ld (R210, R244). -/
def countsLd : VOp → Bool
  | .load _ _ _ _ _ _ _ _ => true
  | .clmap _ _ _ _ => true
  | .clmask _ _ _ => true
  | _ => false
/-- The operation counts in st (R210). -/
def countsSt : VOp → Bool
  | .store _ _ _ _ _ _ _ => true
  | .stxa _ _ _ _ _ _ => true
  | _ => false
/-- The operation is a copy, which counts in cp (R210). -/
def isCopy : VOp → Bool
  | .copy _ => true
  | _ => false
/-- The operation binds or targets a slot, which counts in tl (R226). -/
def takesSlot : VOp → Bool
  | .tbind _ _ => true
  | .ttgt _ => true
  | _ => false
/-- The operation accesses memory (R203, R244). -/
def isMemory (op : VOp) : Bool := countsLd op || countsSt op
/-- The access class of a memory operation (R105, R244). -/
def classOf : VOp → Nat
  | .load _ _ _ _ _ _ c _ => c
  | .store _ _ _ _ _ _ c => c
  | .stxa _ _ _ _ c _ => c
  | _ => 0
/-- A load with the first-fault bit (R207, R266). -/
def isFf : VOp → Bool
  | .load _ _ _ _ _ _ _ ff => ff
  | _ => false

/-- The operations that do not depend on VTYPE (R114). -/
def ignoresVtype : VOp → Bool
  | .setM46 _ => true
  | .share _ _ => true
  | .cat _ _ _ => true
  | .pack _ _ => true
  | .free _ => true
  | .desc _ _ => true
  | .mask _ _ _ _ => true
  | .mpopc _ _ => true
  | .mfirst _ _ => true
  | .mtos _ _ _ => true
  | .stom _ _ _ => true
  | .mset _ _ _ => true
  | .ttgt _ => true
  | .twait _ => true
  | .tget _ _ => true
  | .tfree _ => true
  | .copy _ => true
  | _ => false

/-- The types a family takes, apart from a pattern's micro-operations (R50, R169 to R185, R209, R243). -/
def takesType (op : VOp) (vt : Nat) : Bool :=
  let ty := vtTy vt
  match op with
  | .int o _ _ _ _ _ =>
    (match o with
      | .add => isInt ty || isRn ty
      | .sub => isInt ty || isRn ty
      | .rsub => isInt ty || isRn ty
      | .mul => isInt ty || isRn ty
      | .and => !isMap ty
      | .or => !isMap ty
      | .xor => !isMap ty
      | _ => isInt ty)
  | .fp _ _ _ _ _ _ => isFp ty
  | .cvt _ _ dst _ _ =>
    !isMap ty && decide (dst ≠ 15) && (!grouped vt || isFp dst)
  | .cmp o _ _ _ _ => isInt ty || isFp ty || (isRn ty && (decide (o = .eq) || decide (o = .ne)))
  | .red o _ _ _ _ =>
    (match o with
      | .sumo => isFp ty
      | .and => isInt ty
      | .or => isInt ty
      | _ => isInt ty || isFp ty)
  | .scan _ _ _ _ _ _ => isInt ty || isFp ty
  | .rank _ _ => !isMap ty
  | .upd add _ _ _ _ => !add || !isMap ty
  | .topk _ _ _ _ => isInt ty || isFp ty
  | .stxa _ _ _ _ _ _ =>
    decide (ty = 4) || decide (ty = 5) || decide (ty = 6) || decide (ty = 12) || decide (ty = 10)
  | .clmap _ _ _ _ => isMap ty
  | .clcomp _ _ _ => isMap ty
  | .clscan _ _ => isMap ty
  | .clapply _ _ _ => isMap ty
  | .clmask _ _ _ => isMap ty
  | .pat _ _ _ _ _ _ _ => !isMap ty
  | _ => true

/-- An entry's type is ill formed for it: ILL, a map under another CLMODE than the one recorded (R242), or a type
its family does not take (R50, R114). -/
def illFormed (e : VEntry) : Bool :=
  !ignoresVtype e.op &&
    (vtIll e.vtype ||
      (isMap (vtTy e.vtype) && decide (e.clmode % 2 ^ 19 ≠ e.clrec % 2 ^ 19)) || !takesType e.op e.vtype)

/-- The element size of an entry's type (R81). -/
def entrySize (e : VEntry) : Nat := tySize (vtTy e.vtype) e.clrec

/-- The chain an entry reads in a register: its destination as it stood when the entry began (R73). -/
def chainFor (th : Thread) (e : VEntry) (r : Reg) : Desc :=
  if e.begun && decide (destOf e.op = some r) then e.old else th.v[r.val]

/-- The stream an entry reads in a register. -/
def sourceFor (c : Core) (th : Thread) (e : VEntry) (r : Reg) : Stream := streamOf c (chainFor th e r)

/-- The second operand as the entry holds it: a stream, or the same bits for every element. -/
inductive Second where
  | stream (st : Stream)
  | bits (v : Nat)
deriving DecidableEq, Repr

/-- The second operand of a VV, VS or VI form (R165). -/
def secondFor (c : Core) (th : Thread) (e : VEntry) (b : Src) : Second :=
  let s := entrySize e
  match b with
  | .v r => .stream (sourceFor c th e r)
  | .w x => .bits (x.toNat % 2 ^ (8 * s))
  | .imm i => .bits (if isRn (vtTy e.vtype) then rnEncode i else ofSigned (8 * s) i)

/-- What reads beyond a chain give to an entry (R7, R84). -/
def fillFor (e : VEntry) : Nat := fillElem e.fill (isMap (vtTy e.vtype)) e.clrec (entrySize e)

/-- A poisoned leaf at element i (R167); XINFO is 0, there being no address (log 23). -/
def poisonFault (i : Nat) : FaultInfo := { cause := 0x12, elem := i, info := 0, start := i, leaf := true }

/-- The byte at which a leaf with a poisoned header begins: no walk goes beyond it (R384). -/
def wallByte (st : Stream) : Option Nat :=
  (st.bad.find? fun r => decide (r.2 = Config.maxChain + 1)).map fun r => r.1

/-- The element at which a read of element i of s bytes meets poison: the first element of a leaf whose header is poisoned
when the way to it leads through that leaf (R384), else i itself. -/
def poisonedAt (st : Stream) (s i : Nat) : Nat :=
  match wallByte st with
  | some w => min i (w / s)
  | none => i

/-- A way through a leaf with a poisoned header that an instruction must take: the index at which it meets the leaf, and the
last index for which it has to pass (R384). -/
abbrev Wall := Nat × Nat

/-- The wall that a source read element by element meets, `shift` elements further on than the index, when the indices below n
that read it are those of `reads`. -/
def wallOf (st : Stream) (s shift n : Nat) (reads : Nat → Bool) : Option Wall :=
  match wallByte st with
  | none => none
  | some w =>
    match (upFrom 0 n).reverse.find? fun i => reads i && decide ((i + shift + 1) * s ≤ st.len) && decide (w < (i + shift + 1) * s) with
    | none => none
    | some i => some (w / s - shift, i)

/-- The same for a source read `back` elements before the index. -/
def wallBehind (st : Stream) (s back n : Nat) (reads : Nat → Bool) : Option Wall :=
  match wallByte st with
  | none => none
  | some w =>
    match (upFrom back (n - back)).reverse.find? fun i =>
        reads i && decide ((i - back + 1) * s ≤ st.len) && decide (w < (i - back + 1) * s) with
    | none => none
    | some i => some (w / s + back, i)

/-- The fault at index i of an instruction with walls in its way: poisoned data at the first element that the leaf holds (R384);
what is left to do begins at i. -/
def wallFault (l : List (Option Wall)) (i : Nat) : Option FaultInfo :=
  match (l.filterMap fun x => x).find? fun w => decide (w.1 ≤ i) && decide (i ≤ w.2) with
  | some w => some { poisonFault w.1 with start := i }
  | none => none

/-- A wall's fault at an element before i comes before what element i meets itself. -/
def wallBefore {α : Type} (w : Option FaultInfo) (i : Nat) (x : Except FaultInfo α) : Except FaultInfo α :=
  match w with
  | some f => if f.elem < i then .error f else x
  | none => x

/-- A wall's fault comes before what follows. -/
def wallFirst {α : Type} (w : Option FaultInfo) (x : Except FaultInfo α) : Except FaultInfo α :=
  match w with
  | some f => .error f
  | none => x

/-- Element i of a stream as the entry's type, or poisoned data. -/
def readElem (e : VEntry) (st : Stream) (i : Nat) (at_ : Nat) : Except FaultInfo Nat :=
  if streamBad st (entrySize e) i then .error (poisonFault at_)
  else .ok (streamElem st (fillFor e) (entrySize e) i)

/-- Element j of a stream as element i of a vperm reads it: poisoned data at i, or at the first element of a leaf with a poisoned
header which the way to it meets (R384; log 83). -/
def readVia (e : VEntry) (st : Stream) (j i : Nat) : Except FaultInfo Nat :=
  if streamBad st (entrySize e) j then
    .error { poisonFault (match wallByte st with
      | some w => if w < (j + 1) * entrySize e then w / entrySize e else i
      | none => i) with start := i }
  else .ok (streamElem st (fillFor e) (entrySize e) j)

/-- Element i of an index chain as n32: FILL's low 4 bytes beyond its length (R177, R203). -/
def readIndex (e : VEntry) (st : Stream) (i : Nat) (at_ : Nat) : Except FaultInfo Nat :=
  if streamBad st 4 i then .error (poisonFault at_)
  else .ok (streamElem st (e.fill.toNat % 2 ^ 32) 4 i)

/-- Element i of the second operand. -/
def readSecond (e : VEntry) (b : Second) (i : Nat) : Except FaultInfo Nat :=
  match b with
  | .stream st => readElem e st i i
  | .bits v => .ok v

/-- A pad element: bit i of m46 is clear (R64). -/
def isPad (th : Thread) (i : Nat) : Bool := !(th.m[46]).getLsbD i

/-- The address of element i of a memory form: j is its index in the indexed form (R203). -/
def elemAddr (f : MemForm) (base stride : Word) (s i j : Nat) : Word :=
  match f with
  | .unit => base + BitVec.ofNat 64 (i * s)
  | .strided => base + BitVec.ofNat 64 i * stride
  | .indexed => base + BitVec.ofNat 64 (j * s)

/-- The alignment of an element (R203). -/
def elemAlign (ty s : Nat) : Nat := if isMap ty then 64 else min s 8

end Sys2Proof.Machine
end

