-- ==== Sys2Proof/Machine/Elem.lean ====
section
/-!
DEFINITION. What each element of a vector result is: element-wise arithmetic (R164 to R174), conversion (R48,
R173), trees, reductions and scans (R51, R52, R175, R176), permutations (R177 to R185), loads (R203 to R205),
maps and the collator (R49, R242 to R245).
-/

namespace Sys2Proof.Machine

/-- One element as it is computed: value, flags, exception bit, and the address and code of a violation response
that it met (R138, R205). -/
structure Elem where
  val : Nat
  flags : BitVec 7
  exc : Bool
  viol : Option (Word × Nat)
deriving DecidableEq, Repr

/-- An element that raises nothing. -/
def Elem.plain (v : Nat) : Elem := { val := v, flags := 0, exc := false, viol := none }
/-- An element from an arithmetic result. -/
def Elem.ofRes (r : Res) : Elem := { val := r.bits, flags := r.flags, exc := r.exc, viol := none }

/-- Where an element's computation may fault. -/
abbrev ElemR := Except FaultInfo Elem

/-- An integer, residue or bitwise operation under any type that takes it (R169, R170, R171). -/
def intElem (op : IntOp) (ty : Nat) (fill : Word) (a b : Nat) : Res :=
  if isRn ty && (match op with
      | .and => false
      | .or => false
      | .xor => false
      | _ => true) then rnOp op fill.toNat a b
  else intOp op ty a b

/-- The value an rn30 compare reads (R46, R174). -/
def cmpElem (op : CmpOp) (ty : Nat) (fill a b : Nat) : Bool × BitVec 7 :=
  if isRn ty then
    let x := (rnRead fill a).1
    let y := (rnRead fill b).1
    (if op = .eq then decide (x = y) else decide (x ≠ y), 0)
  else if isFp ty then fpCmp op ty a b
  else (intCmp op ty a b, 0)

/-- vcvt of a grouped element: the value times its group's scale, rounded once (R48). A finite product too large
follows R40, vcvt being a conversion (log 24); an infinite product is the multiplication's own, by R36 and R37, which in
e4m3 is ±448 with overflow and inexact. -/
def groupedElem (dst rm q sc : Nat) : Res :=
  let i := toSigned 8 q
  let x : FVal := .num (decide (i < 0)) i.natAbs 0
  let y : FVal :=
    match unpack (fmtOf 10) sc with
    | .nan s => .nan s
    | .inf n => .inf n
    | .num n m e => .num n m e
  match y with
  | .inf n =>
    if i = 0 ∨ (fmtOf dst).hasInf = true then mulVal (fmtOf dst) .convert rm x y
    else Res.mk' ((fmtOf dst).maxFin (decide (i < 0) != n)) (flagOvf ||| flagInx)
  | _ => mulVal (fmtOf dst) .convert rm x y

/-- The combining step of a reduction or scan (R175, R176). -/
def combine (op : RedOp) (ty rm x y : Nat) : Res :=
  match op with
  | .sum => if isFp ty then fpOp .add ty rm x y 0 else intOp .add ty x y
  | .sumo => fpOp .add ty rm x y 0
  | .min => if isFp ty then fpOp .min ty rm x y 0 else intOp .min ty x y
  | .max => if isFp ty then fpOp .max ty rm x y 0 else intOp .max ty x y
  | .and => intOp .and ty x y
  | .or => intOp .or ty x y

/-- A tree under way: the items of a level, and the flags and exception bit of its steps so far. -/
structure Tree where
  items : List (Option Nat)
  flags : BitVec 7
  exc : Bool
deriving DecidableEq, Repr

/-- One level of the tree of R52: neighbours of `w` elements each combined, the first beginning at element `at_`, an odd one
passed up. A step accrues its flags when `keep` holds of the element after its last. -/
def treeLevel (f : Nat → Nat → Res) (keep : Nat → Bool) (w : Nat) : Nat → List (Option Nat) → Tree
  | _, [] => { items := [], flags := 0, exc := false }
  | _, [x] => { items := [x], flags := 0, exc := false }
  | at_, x :: y :: r =>
    let t := treeLevel f keep w (at_ + 2 * w) r
    match x, y with
    | some a, some b =>
      let z := f a b
      { items := some z.bits :: t.items, flags := (if keep (at_ + 2 * w) then z.flags else 0) ||| t.flags
        exc := z.exc || t.exc }
    | some a, none => { t with items := some a :: t.items }
    | none, some b => { t with items := some b :: t.items }
    | none, none => { t with items := none :: t.items }

/-- The tree of R52 from its leaves, level by level. -/
def treeUp (f : Nat → Nat → Res) (keep : Nat → Bool) : Nat → Nat → Tree → Tree
  | 0, _, t => t
  | n + 1, w, t =>
    if t.items.length ≤ 1 then t
    else
      let u := treeLevel f keep w 0 t.items
      treeUp f keep n (2 * w) { u with flags := t.flags ||| u.flags, exc := t.exc || u.exc }

/-- The whole tree over some items: its value, absent when every item is. -/
def tree (f : Nat → Nat → Res) (keep : Nat → Bool) (items : List (Option Nat)) : Tree :=
  treeUp f keep (bitLen items.length + 1) 1 { items := items, flags := 0, exc := false }

/-- The value at the top of a tree. -/
def treeTop (t : Tree) : Option Nat :=
  match t.items with
  | x :: _ => x
  | [] => none

/-- The active items of a source under a mask, from i on, n of them; masked-off items are absent (R52). -/
def activeItems (th : Thread) (e : VEntry) (st : Stream) (m : Nat) : Nat → Nat → Except FaultInfo (List (Option Nat))
  | _, 0 => .ok []
  | i, n + 1 =>
    if mbit th m i then
      match readElem e st i (poisonedAt st (entrySize e) i) with
      | .error f => .error f
      | .ok v =>
        match activeItems th e st m (i + 1) n with
        | .error f => .error f
        | .ok r => .ok (some v :: r)
    else
      match activeItems th e st m (i + 1) n with
      | .error f => .error f
      | .ok r => .ok (none :: r)

/-- vredsumo: the active items added in index order, the first being element i - 1 (R51). -/
def orderedSum (ty rm : Nat) (keep : Nat → Bool) : Nat → Nat → BitVec 7 → List (Option Nat) → Nat × BitVec 7
  | _, acc, fl, [] => (acc, fl)
  | i, acc, fl, none :: r => orderedSum ty rm keep (i + 1) acc fl r
  | i, acc, fl, some v :: r =>
    let z := combine .sumo ty rm acc v
    orderedSum ty rm keep (i + 1) z.bits (fl ||| if keep i then z.flags else 0) r

/-- A reduction over items with its initial value (R175): the result, and the flags of the steps whose last element is one of
those that `keep` names by the index after it; the step with the initial value belongs to the last element (R57; log 82). -/
def reduceItems (op : RedOp) (ty rm g : Nat) (keep : Nat → Bool) (items : List (Option Nat)) : Nat × BitVec 7 :=
  if op = .sumo then orderedSum ty rm keep 1 g 0 items
  else
    let t := tree (combine op ty rm) keep items
    match treeTop t with
    | none => (g, t.flags)
    | some v =>
      let z := combine op ty rm g v
      (z.bits, t.flags ||| if keep items.length then z.flags else 0)

/-- The last present item of a list of items: its index. -/
def lastActive : List (Option Nat) → Nat → Option Nat → Option Nat
  | [], _, best => best
  | some _ :: r, i, _ => lastActive r (i + 1) (some i)
  | none :: r, i, best => lastActive r (i + 1) best

/-- Output i of a scan: the tree over items 0 to the nearest active index at or below i, or the identity operand
when there is none (R176). A masked-off output repeats that of the active index and accrues no flag (R57). -/
def scanElem (mx : Bool) (ty rm g : Nat) (items : List (Option Nat)) (i : Nat) : Elem :=
  match lastActive (items.take (i + 1)) 0 none with
  | none => Elem.plain g
  | some j =>
    let t := tree (combine (if mx then .max else .sum) ty rm) (fun _ => true) (items.take (j + 1))
    match treeTop t with
    | none => Elem.plain g
    | some v => if j = i then { val := v, flags := t.flags, exc := t.exc, viol := none } else Elem.plain v

/-- a ranks above b in vtopk: by value, −0 below +0, every NaN below every number (R185). -/
def ranksAbove (ty a b : Nat) : Bool :=
  if isFp ty then
    let x := unpack (fmtOf ty) a
    let y := unpack (fmtOf ty) b
    match x, y with
    | .nan _, _ => false
    | _, .nan _ => true
    | _, _ => belowVal y x
  else decide (intVal ty b < intVal ty a)

/-- Insert a candidate (index, value) into a list in descending rank, behind its equals. -/
def insertRank (ty : Nat) (x : Nat × Nat) : List (Nat × Nat) → List (Nat × Nat)
  | [] => [x]
  | y :: r => if ranksAbove ty x.2 y.2 then x :: y :: r else y :: insertRank ty x r

/-- The candidates of vtopk in descending rank, equal ranks by index (R185). -/
def rankAll (ty : Nat) (items : List (Option Nat)) : List (Nat × Nat) :=
  (items.zipIdx.filterMap fun p => p.1.map fun v => (p.2, v)).foldl (fun acc x => insertRank ty x acc) []

/-- The number of active indices below i (R180). -/
def rankOf (th : Thread) (m : Nat) : Nat → Nat
  | 0 => 0
  | i + 1 => rankOf th m i + (if mbit th m i then 1 else 0)

/-- The selected indices of vpress in [0, n) (R179). -/
def selected (th : Thread) (m n : Nat) : List Nat := (upFrom 0 n).filter fun i => mbit th m i

/-- Where the k pieces of n bytes of a read of an element lead (R203). A collator read from the scratchpad of a core that does
not serve the launch gets an error response with code 7 (R289), whatever its offset. -/
def chunkTargets (s : State) (p : Party) (collator : Bool) (algn n : Nat) (va : Word) (k : Nat) :
    List (Except FaultInfo Target) :=
  (upFrom 0 k).map fun j =>
    let a := va + BitVec.ofNat 64 (j * n)
    if collator && foreignPad s p a then .ok (.violation 7) else accessTarget s p a n algn .load

/-- Read `k` chunks of n bytes each from va on, as one number, for an access of class 0 to 15: a fault by the order of R358, or
the default for the whole element when one of them gets a violation response (R205, R244). -/
def readChunks (s : State) (p : Party) (collator : Bool) (algn n dflt : Nat) (va : Word) (k : Nat) :
    Except FaultInfo (Nat × Option (Word × Nat)) :=
  match allTargets (chunkTargets s p collator algn n va k) with
  | .error f => .error f
  | .ok ts =>
    match firstViolation ts with
    | some c => .ok (dflt, some (va, c))
    | none => .ok (ts.foldr (fun t r => tgtRead s t n + 2 ^ (8 * n) * r) 0, none)

/-- Read one element of s bytes of a type at an address: a map in pieces of 64 bytes (R203). -/
def readMem (s : State) (p : Party) (ty sz dflt : Nat) (va : Word) : Except FaultInfo (Nat × Option (Word × Nat)) :=
  if isMap ty then readChunks s p false 64 64 dflt va (sz / 64)
  else readChunks s p false (elemAlign ty sz) sz dflt va 1

/-- A map that the collator reads for clmap or clmask: the identity map on a violation response (R244). -/
def readMap (s : State) (p : Party) (cl sz : Nat) (va : Word) : Except FaultInfo (Nat × Option (Word × Nat)) :=
  readChunks s p true 64 64 (idMap (clS cl)) va (sz / 64)

/-- The element index of a fault. -/
def atIndex (f : FaultInfo) (i : Nat) : FaultInfo := { f with elem := i, start := i }

/-- An accessed element of a load, from its address (R204, R205). An element that a bookmark hides takes FILL with no check
of its address: R205 gives it FILL without an access (log 43). -/
def loadAt (s : State) (p : Party) (e : VEntry) (va : Word) (i : Nat) : ElemR :=
  if bookmarkHides e.bk va then .ok (Elem.plain (fillFor e))
  else
    match readMem s p (vtTy e.vtype) (entrySize e) (fillFor e) va with
    | .error f => .error (atIndex f i)
    | .ok (v, x) => .ok { val := v, flags := 0, exc := false, viol := x }

/-- Byte q of a map: the state to which it sends q, with values at or above S read as D or 0 (R49). -/
def mapByte (cl v q : Nat) : Nat :=
  let b := bitsOf v (8 * q) 8
  if b < clS cl then b else if clDv cl then clD cl else 0

/-- A map from its bytes: entry q is f q below S, padding 0 (R243). -/
def mkMap (cl : Nat) (f : Nat → Nat) : Nat := (upFrom 0 (clS cl)).foldr (fun q acc => f q % 256 + 256 * acc) 0

/-- A map element normalised (R243). -/
def normMap (cl v : Nat) : Nat := mkMap cl (mapByte cl v)

/-- g ∘ f: f acts first (R49). -/
def composeMap (cl g f : Nat) : Nat := mkMap cl fun q => mapByte cl g (mapByte cl f q)

/-- The map that sends every state to D, or to 0 when DV is clear (R242). -/
def allD (cl : Nat) : Nat := mkMap cl fun _ => if clDv cl then clD cl else 0

/-- A map sends every state to one state (R245). -/
def constMap (cl v : Nat) : Bool := (upFrom 0 (clS cl)).all fun q => decide (mapByte cl v q = mapByte cl v 0)

/-- The maps of a chain, elements 0 to n - 1, normalised (R244). -/
def mapItems (e : VEntry) (st : Stream) : Nat → Nat → Except FaultInfo (List Nat)
  | _, 0 => .ok []
  | i, n + 1 =>
    match readElem e st i (poisonedAt st (entrySize e) i) with
    | .error f => .error f
    | .ok v =>
      match mapItems e st (i + 1) n with
      | .error f => .error f
      | .ok r => .ok (normMap e.clrec v :: r)

/-- Running compositions m_i ∘ … ∘ m_0 (R244). -/
def scanMaps (cl : Nat) : Option Nat → List Nat → List Nat
  | _, [] => []
  | none, m :: r => m :: scanMaps cl (some m) r
  | some p, m :: r =>
    let x := composeMap cl m p
    x :: scanMaps cl (some x) r

/-- One level of clcomp's tree (R52, R244). -/
def mapLevel (cl : Nat) : List Nat → List Nat
  | [] => []
  | [x] => [x]
  | x :: y :: r => composeMap cl y x :: mapLevel cl r

/-- Some node past the first of a level is constant (R245: a node whose range excludes index 0). -/
def shortLevel (cl : Nat) (l : List Nat) : Bool := (l.drop 1).any (constMap cl)

/-- clcomp's tree: the composition and SHORT (R244, R245). -/
def mapTree (cl : Nat) : Nat → List Nat → Bool → Nat × Bool
  | 0, l, sh => (l.head?.getD (idMap (clS cl)), sh || shortLevel cl l)
  | n + 1, l, sh =>
    if l.length ≤ 1 then (l.head?.getD (idMap (clS cl)), sh || shortLevel cl l)
    else mapTree cl n (mapLevel cl l) (sh || shortLevel cl l)

/-- The result of clcomp and its status word (R244, R245). -/
def clcompOf (cl : Nat) (l : List Nat) : Nat × Nat :=
  let r := mapTree cl (bitLen l.length + 1) l false
  let const := constMap cl r.1
  let alld := clDv cl && const && decide (mapByte cl r.1 0 = clD cl)
  (r.1, (if const then 1 + 2 ^ 8 * mapByte cl r.1 0 else 0) + (if alld then 2 else 0) + (if r.2 then 4 else 0))

/-- Entry q of a map as clapply and clmask read it: D, or 0, when q is at or above S (R244). -/
def applyMap (cl v q : Nat) : Nat := if q < clS cl then mapByte cl v q else if clDv cl then clD cl else 0

end Sys2Proof.Machine
end

