-- ==== Sys2Proof/Machine/Leave.lean ====
section
/-!
DEFINITION. Power leave (R154, R281): who holds units of a cluster's budget, who waits, and in which order.
-/

namespace Sys2Proof.Machine

/-- Units held in a cluster. -/
def unitsHeld (c : Cluster) : Nat := (c.held.map fun p => p.2).sum

/-- Whose units they are: the thread's of a core that asks, also through its clmask and its copies; none for the MCC, with its
engine. -/
def partyOwner : LeaveParty → Option (Fin 8 × Fin 4)
  | .thread (.vec _ co th) => some (co, th)
  | .thread (.mcc _) => none
  | .copy co _ th => some (co, th)
  | .clmask (.vec _ co th) => some (co, th)
  | .clmask (.mcc _) => none
  | .tile => none

/-- A request can be granted: enough units are free, or it exceeds the whole budget and no other party holds any
(R281). -/
def canGrant (c : Cluster) (p : LeaveParty) (n : Nat) : Bool :=
  decide (unitsHeld c + n ≤ c.budget) ||
    (decide (c.budget < n) && c.held.all fun x => decide (partyOwner x.1 = partyOwner p))

/-- A party holds leave. -/
def holdsLeave (c : Cluster) (p : LeaveParty) : Bool := c.held.any fun x => decide (x.1 = p)

/-- A party returns its leave, and its waiting request if it has one (R154, R281). -/
def returnLeave (c : Cluster) (p : LeaveParty) : Cluster :=
  { c with held := c.held.filter fun x => decide (x.1 ≠ p)
           waiting := c.waiting.filter fun x => decide (x.1 ≠ p) }

/-- The copies of a core return their leave, and their waiting requests. -/
def returnCopies (c : Cluster) (co : Fin 8) : Cluster :=
  let keep (x : LeaveParty × Nat) : Bool := match x.1 with
    | .copy k _ _ => decide (k ≠ co)
    | _ => true
  { c with held := c.held.filter keep, waiting := c.waiting.filter keep }

/-- A unit of leave comes to an operation of a thread without another party: nobody else waits for leave, and others hold no more
than lets it be granted (R151, R281). -/
def leaveAlone (c : Cluster) (t : Tid) : Bool :=
  let mine (p : LeaveParty) : Bool := decide (partyOwner p = partyOwner (.thread t))
  c.waiting.all (fun x => mine x.1) &&
    canGrant { c with held := c.held.filter fun x => !mine x.1 || decide (x.1 = .thread t) } (.clmask t) 1

/-- A party asks for n units: granted at once when nobody waits before it, else it waits its turn (R281). The
answer says whether the party now holds leave. -/
def askLeave (c : Cluster) (p : LeaveParty) (n : Nat) : Cluster × Bool :=
  if holdsLeave c p then (c, true)
  else if c.waiting.any fun x => decide (x.1 = p) then (c, false)
  else if c.waiting.isEmpty && canGrant c p n then ({ c with held := c.held ++ [(p, n)] }, true)
  else ({ c with waiting := c.waiting ++ [(p, n)] }, false)

/-- Units of a phase of heavy kinds: matrix 4 (on an MCC), copies 1, clmask 1; bits of kinds the thread cannot
issue are ignored (R154, R281). -/
def leaveUnits (mcc : Bool) (kinds : Nat) : Nat :=
  if mcc then (if bitAt kinds 0 then 4 else 0)
  else (if bitAt kinds 1 then 1 else 0) + (if bitAt kinds 2 then 1 else 0)

/-- The kinds of a leave request that count for a thread (R154). -/
def leaveMask (mcc : Bool) (w : Nat) : Nat := if mcc then w % 2 else w / 2 % 4 * 2

end Sys2Proof.Machine
end

