-- ==== Sys2Proof/Machine/Vec.lean ====
section
/-!
DEFINITION. The vector queue at work: what one course of the oldest entry does (R164, R264, R265), the elements a
fresh result is built from, stores and in-place writes, structural instructions (R192 to R201), tile slot
instructions (R220 to R226), the hand-off of a copy (R212), and the completion of an entry (R71, R73, R264).
-/

namespace Sys2Proof.Machine

/-- How a fresh result is built: the number of elements, their size, what each is, and the mask that receives
exception bits. -/
structure Plan where
  n : Nat
  s : Nat
  gen : Nat → ElemR
  xmask : Option MaskF

/-- Put the oldest entry of a thread back. -/
def setHead (s : State) (t : Tid) (e : VEntry) : State :=
  updThread s t fun th => { th with vq := e :: th.vq.drop 1 }

/-- Put a thread's core back. -/
def putOwnCore (s : State) (t : Tid) (c : Core) : State := putCore s (clusterOf t) (coreOf t) c
/-- A thread's core. -/
def ownCore (s : State) (t : Tid) : Core := getCore s (clusterOf t) (coreOf t)

/-- The entry has done its work. -/
def finish (e : VEntry) : VEntry := { e with finished := true, stalled := false }

/-- The entry faults. -/
def failWith (e : VEntry) (f : FaultInfo) : VEntry := { e with fault := some f, stalled := false }

/-- Pool exhaustion at an element, resuming from an index (R274, R275). -/
def exhausted (i start : Nat) (freeEmpty : Bool) : FaultInfo :=
  { cause := 0x04, elem := i, info := if freeEmpty then 1 else 0, start := start }

/-- An allocation that failed: the entry waits for the walker, or faults. -/
def allocFail (e : VEntry) (a : AllocErr) (i start : Nat) : VEntry :=
  match a with
  | .wait => { e with stalled := true }
  | .exhausted b => failWith e (exhausted i start b)

/-- A fault at element i for which the destination needs a leaf that it cannot have: pool exhaustion comes before the
poison of a chain at the same element (R358); a load's own access faults come first (R207). -/
def orExhausted (c : Core) (th : Fin 4) (e : VEntry) (s i : Nat) (f : FaultInfo) : Option AllocErr :=
  if f.leaf = false ∨ f.elem < i then none
  else
    match appendElem c th e.budget e.part s 0 with
    | .error a => some a
    | .ok _ => none

/-- A .ff load that meets an access fault at an element above 0 stops short instead (R207). -/
def loadFault (e : VEntry) (f : FaultInfo) (i : Nat) : VEntry :=
  if isFf e.op && decide (0 < i) && decide (f.cause ≠ 0x04) then finish { e with vl := i, prog := i }
  else failWith e f

/-- The masked-off value of element i: the old destination's, or FILL (R74). -/
def mergeElem (_e : VEntry) (old : Stream) (dflt s i : Nat) : ElemR :=
  if streamBad old s i then .error (poisonFault i) else .ok (Elem.plain (streamElem old dflt s i))

/-- An element computed when active, merged when not (R164, R74). -/
def masked (e : VEntry) (old : Stream) (dflt s : Nat) (act : Bool) (i : Nat) (f : Unit → ElemR) : ElemR :=
  if act then f () else mergeElem e old dflt s i

/-- Read one operand and go on. -/
def andThen {α β : Type} (x : Except FaultInfo α) (f : α → Except FaultInfo β) : Except FaultInfo β :=
  match x with
  | .error e => .error e
  | .ok a => f a

/-- The index and the address of element i of a vector memory instruction, and whether XBOUND excludes it (R203,
R205). -/
def memAddr (e : VEntry) (f : MemForm) (base stride : Word) (idx : Stream) (i : Nat) :
    Except FaultInfo (Word × Bool) :=
  match f with
  | .indexed =>
    andThen (readIndex e idx i i) fun j =>
      .ok (elemAddr f base stride (entrySize e) i j, decide (e.xbound.toNat ≤ j))
  | _ => .ok (elemAddr f base stride (entrySize e) i 0, false)

/-- An element of a load of stride 0: every accessed element receives the one value that the first to be accessed has read,
its violation response included (R208). -/
def sameElem (s : State) (p : Party) (e : VEntry) (va : Word) (i : Nat) : ElemR :=
  match e.snap with
  | v :: w :: _ =>
    .ok { Elem.plain v.val with viol := if w.len = 0 then none else some (va, w.val) }
  | _ => loadAt s p e va i

/-- What a load of stride 0 keeps of its first accessed element. -/
def keepElem (x : Elem) : List Stream :=
  [{ val := x.val, len := 0, bad := [] },
   match x.viol with
   | none => { val := 0, len := 0, bad := [] }
   | some q => { val := q.2, len := 1, bad := [] }]

/-- A load of stride 0 holds its value from its first accessed element on (R208). -/
def firstElem (s : State) (t : Tid) (e : VEntry) : VEntry :=
  match e.op with
  | .load .strided _ base stride _ m _ _ =>
    let th := getThread s t
    if stride ≠ 0 ∨ e.snap ≠ [] then e
    else
      match (upFrom e.prog (e.vl - e.prog)).find? fun i => mbit th m.val i && !isPad th i with
      | none => e
      | some i =>
        match loadAt s (partyOf s t) e base i with
        | .error _ => e
        | .ok x => { e with snap := keepElem x }
  | _ => e

/-- The second operand's wall, when it is a chain. -/
def wallSecond (b : Second) (s n : Nat) (reads : Nat → Bool) : Option Wall :=
  match b with
  | .stream st => wallOf st s 0 n reads
  | .bits _ => none

/-- An element of a vector memory instruction that the mask and the pads let it access (R204). -/
def accessed (th : Thread) (m i : Nat) : Bool := mbit th m i && !isPad th i

/-- The walls in the way of an operation built element by element (R384): its sources where it is active, its old destination
where it is not. -/
def planWalls (s : State) (t : Tid) (e : VEntry) : List (Option Wall) :=
  let th := getThread s t
  let c := ownCore s t
  let sz := entrySize e
  let src (r : Reg) : Stream := sourceFor c th e r
  let old := streamOf c e.old
  let merged (z : Nat) (m : MaskF) (x : Bool) : Option Wall := wallOf old z 0 e.vl fun i => !(x || mbit th m.val i)
  match e.op with
  | .int _ _ a b m x =>
    let act (i : Nat) : Bool := x || mbit th m.val i
    [wallOf (src a) sz 0 e.vl act, wallSecond (secondFor c th e b) sz e.vl act, merged sz m x]
  | .fp op _ a b m x =>
    let act (i : Nat) : Bool := x || mbit th m.val i
    [wallOf (src a) sz 0 e.vl act, wallSecond (secondFor c th e b) sz e.vl act,
     if op = .fma then wallOf old sz 0 e.vl fun _ => true else merged sz m x]
  | .cvt _ a dst m x =>
    let act (i : Nat) : Bool := x || mbit th m.val i
    let k := blockSize (vtBlock e.vtype)
    let scale := wallOf (src (a + 1)) 2 0 (ceilDiv e.vl k) fun j => (upFrom (j * k) (min k (e.vl - j * k))).any act
    [wallOf (src a) sz 0 e.vl act, if grouped e.vtype then scale.map fun w => (w.1 * k, w.2 * k + k - 1) else none,
     merged (scalarSize dst) m x]
  | .slide up _ a o m =>
    [if up then wallBehind (src a) sz o.toNat e.vl (mbit th m.val) else wallOf (src a) sz o.toNat e.vl (mbit th m.val),
     merged sz m false]
  | .perm _ _ b m => [wallOf (src b) 4 0 e.vl (mbit th m.val), merged sz m false]
  | .rank _ m => [merged sz m false]
  | .bcast _ _ m => [merged sz m false]
  | .load f _ _ _ idx m _ _ =>
    [if f = .indexed then wallOf (src idx) 4 0 e.vl (accessed th m.val) else none, merged sz m false]
  | .clmap _ a _ _ => [wallOf (src a) 4 0 e.vl fun _ => true]
  | .clapply _ a _ => [wallOf (src a) sz 0 e.vl fun _ => true]
  | _ => []

/-- How the fresh result of an entry is built, for the operations built element by element. A poisoned element that vlift,
vsink or vperm reads is reported at the index of the result element that reads it (R167; log 83), but for a leaf with a poisoned
header that vperm meets (R384). -/
def planOf (s : State) (t : Tid) (e : VEntry) : Option Plan :=
  let th := getThread s t
  let c := ownCore s t
  let p := partyOf s t
  let ty := vtTy e.vtype
  let rm := vtRm e.vtype
  let sz := entrySize e
  let dflt := fillFor e
  let old := streamOf c e.old
  match e.op with
  | .int op _ a b m x =>
    let sa := sourceFor c th e a
    let sb := secondFor c th e b
    some { n := e.vl, s := sz, xmask := if x then some m else none
           gen := fun i => masked e old dflt sz (x || mbit th m.val i) i fun _ =>
             andThen (readElem e sa i i) fun v => andThen (readSecond e sb i) fun w =>
               .ok (Elem.ofRes (intElem op ty e.fill v w)) }
  | .fp op _ a b m x =>
    let sa := sourceFor c th e a
    let sb := secondFor c th e b
    some { n := e.vl, s := sz, xmask := if x then some m else none
           gen := fun i => masked e old dflt sz (x || mbit th m.val i) i fun _ =>
             andThen (readElem e sa i i) fun v => andThen (readSecond e sb i) fun w =>
               if op = .fma then
                 andThen (readElem e old i i) fun z => .ok (Elem.ofRes (fpOp op ty rm v w z))
               else .ok (Elem.ofRes (fpOp op ty rm v w 0)) }
  | .cvt _ a dst m x =>
    let sa := sourceFor c th e a
    let sd := scalarSize dst
    let sc := sourceFor c th e (a + 1)
    let g := grouped e.vtype
    some { n := e.vl, s := sd, xmask := if x then some m else none
           gen := fun i => masked e old (e.fill.toNat % 2 ^ (8 * sd)) sd (x || mbit th m.val i) i fun _ =>
             andThen (readElem e sa i i) fun v =>
               if g then
                 let k := i / blockSize (vtBlock e.vtype)
                 if streamBad sc 2 k then .error (poisonFault i)
                 else .ok (Elem.ofRes (groupedElem dst rm v (streamElem sc (e.fill.toNat % 2 ^ 16) 2 k)))
               else .ok (Elem.ofRes (convert ty dst rm e.fill.toNat v)) }
  | .scan mx _ a g m x =>
    let sa := sourceFor c th e a
    let items := activeItems th e sa (if x then 0 else m.val) 0 e.vl
    some { n := e.vl, s := sz, xmask := if x then some m else none
           gen := fun i =>
             match items with
             | .ok l => .ok (scanElem mx ty rm (g.toNat % 2 ^ (8 * sz)) l i)
             | .error f =>
               -- a poisoned item is met by the outputs at and above it
               if f.elem ≤ i then .error { f with start := i }
               else
                 match activeItems th e sa (if x then 0 else m.val) 0 (i + 1) with
                 | .ok l => .ok (scanElem mx ty rm (g.toNat % 2 ^ (8 * sz)) l i)
                 | .error f' => .error { f' with start := i } }
  | .slide up _ a o m =>
    let sa := sourceFor c th e a
    some { n := e.vl, s := sz, xmask := none
           gen := fun i => masked e old dflt sz (mbit th m.val i) i fun _ =>
             if up then
               (if o.toNat ≤ i then andThen (readElem e sa (i - o.toNat) i) fun v => .ok (Elem.plain v)
                else .ok (Elem.plain dflt))
             else andThen (readElem e sa (i + o.toNat) i) fun v => .ok (Elem.plain v) }
  | .perm _ a b m =>
    let sa := sourceFor c th e a
    let sb := sourceFor c th e b
    some { n := e.vl, s := sz, xmask := none
           gen := fun i => masked e old dflt sz (mbit th m.val i) i fun _ =>
             andThen (readIndex e sb i i) fun j => andThen (readVia e sa j i) fun v => .ok (Elem.plain v) }
  | .press _ a m =>
    let sa := sourceFor c th e a
    let l := selected th m.val e.vl
    some { n := l.length, s := sz, xmask := none
           gen := fun i =>
             match readElem e sa (l.getD i 0) (poisonedAt sa sz (l.getD i 0)) with
             | .error f => .error { f with start := i }
             | .ok v => .ok (Elem.plain v) }
  | .rank _ m =>
    some { n := e.vl, s := sz, xmask := none
           gen := fun i => masked e old dflt sz (mbit th m.val i) i fun _ =>
             .ok (Elem.ofRes (convert 5 ty rm e.fill.toNat (rankOf th m.val i))) }
  | .bcast _ w m =>
    some { n := e.vl, s := sz, xmask := none
           gen := fun i => masked e old dflt sz (mbit th m.val i) i fun _ =>
             .ok (Elem.plain (w.toNat % 2 ^ (8 * sz))) }
  | .topk _ a k m =>
    let sa := sourceFor c th e a
    let items := activeItems th e sa m.val 0 e.vl
    let n := min k.toNat 4096
    some { n := n, s := 4, xmask := none
           gen := fun i =>
             match items with
             | .error f => .error { f with start := i }
             | .ok l =>
               let r := rankAll ty l
               .ok (Elem.plain (match r[i]? with
                 | some q => q.1
                 | none => e.fill.toNat % 2 ^ 32)) }
  | .load f _ base stride idx m _ _ =>
    let si := sourceFor c th e idx
    some { n := e.vl, s := sz, xmask := none
           gen := fun i => masked e old dflt sz (mbit th m.val i) i fun _ =>
             if isPad th i then .ok (Elem.plain dflt)
             else
               andThen (memAddr e f base stride si i) fun q =>
                 if q.2 then .ok (Elem.plain dflt)
                 else if f = .strided ∧ stride = 0 then sameElem s p e q.1 i else loadAt s p e q.1 i }
  | .clmap _ a base bound =>
    let sa := sourceFor c th e a
    some { n := e.vl, s := sz, xmask := none
           gen := fun i =>
             andThen (readIndex e sa i i) fun j =>
               if bound.toNat ≤ j then .ok (Elem.plain (allD e.clrec))
               else
                 match readMap s p e.clrec sz (base + BitVec.ofNat 64 (j * sz)) with
                 | .error f => .error (atIndex f i)
                 | .ok (v, x) => .ok { Elem.plain (normMap e.clrec v) with viol := x } }
  | .clcomp _ a _ =>
    let sa := sourceFor c th e a
    some { n := 1, s := sz, xmask := none
           gen := fun _ => andThen (mapItems e sa 0 e.vl) fun l => .ok (Elem.plain (clcompOf e.clrec l).1) }
  | .clscan _ a =>
    let sa := sourceFor c th e a
    some { n := e.vl, s := sz, xmask := none
           gen := fun i =>
             match mapItems e sa 0 (i + 1) with
             | .error f => .error { f with start := i }
             | .ok l => .ok (Elem.plain ((scanMaps e.clrec none l).getLast?.getD 0)) }
  | .clapply _ a q =>
    let sa := sourceFor c th e a
    some { n := e.vl, s := 1, xmask := none
           gen := fun i => andThen (readElem e sa i i) fun v =>
             .ok (Elem.plain (applyMap e.clrec (normMap e.clrec v) (q.toNat % 512))) }
  | _ => none

/-- Who a vector entry's violations are logged for: the thread, or the collator (R361). -/
def entrySource (t : Tid) (e : VEntry) : LogSource :=
  match e.op with
  | .clmap _ _ _ _ => { sourceOf t with src := 3, th := 0 }
  | .clmask _ _ _ => { sourceOf t with src := 3, th := 0 }
  | _ => sourceOf t

/-- Flags reach the csrr of FFLAGS in the read queue that come after what raised them (R58). -/
def addBase (rq : List RqItem) (stamp : Nat) (f : BitVec 7) : List RqItem :=
  rq.map fun x => if x.csr = some 0x008 ∧ stamp < x.stamp then { x with base := x.base ||| f } else x

/-- The same for a thread. -/
def noteFlags (s : State) (t : Tid) (stamp : Nat) (f : BitVec 7) : State :=
  updThread s t fun th =>
    { th with rq := addBase th.rq stamp f
              frozen := th.frozen.map fun x => { x with rq := addBase x.rq stamp f } }

/-- Log a violation that an element met, if it met one: at the access. -/
def noteViol (s : State) (t : Tid) (e : VEntry) (v : Option (Word × Nat)) : State :=
  match v with
  | none => s
  | some q => logResponse s t (entrySource t e) q.1 q.2

/-- VIOL of an element that met a violation, which reaches FFLAGS as its entry's other flags do (R58, R138). -/
def violFlag (v : Option (Word × Nat)) : BitVec 7 := if v.isSome then flagViol else 0

/-- Build elements i, i + 1, ... of a fresh result, at most `n` of them (R73, R164, R166). -/
def freshLoop (t : Tid) (p : Plan) (walls : List (Option Wall)) : Nat → State → VEntry → Nat → State × VEntry
  | 0, s, e, _ => (s, e)
  | n + 1, s, e, i =>
    match wallFirst (wallFault walls i) (p.gen i) with
    | .error f =>
      (match orExhausted (ownCore s t) (threadOf t) e p.s i f with
        | some a => (s, allocFail e a i i)
        | none => (s, loadFault e f i))
    | .ok x =>
      match appendElem (ownCore s t) (threadOf t) e.budget e.part p.s x.val with
      | .error a => (s, allocFail e a i i)
      | .ok (c, d) =>
        let s1 := noteViol (putOwnCore s t c) t e x.viol
        let s2 :=
          match p.xmask with
          | some m => updThread s1 t fun th => setMaskBit th m.val i x.exc
          | none => s1
        freshLoop t p walls n s2
          { e with part := d, prog := i + 1, flags := e.flags ||| x.flags ||| violFlag x.viol, stalled := false } (i + 1)

/-- Elements of one course: 128 bytes (R12, R160). -/
def courseLen (s : Nat) : Nat := max 1 (128 / s)

/-- One course of a fresh result. -/
def freshCourse (s : State) (t : Tid) (e : VEntry) (p : Plan) : State × VEntry :=
  let r := freshLoop t p (planWalls s t e) (min (courseLen p.s) (p.n - e.prog)) s e e.prog
  if p.n ≤ r.2.prog && r.2.fault.isNone then (r.1, finish r.2) else r

/-- The first poisoned byte of a stream among the n from `off` on. -/
def firstBad (st : Stream) (off n : Nat) : Option Nat :=
  st.bad.foldl (fun acc r =>
    if r.1 < off + n ∧ off < r.2 then some (match acc with
      | some b => min b (max r.1 off)
      | none => max r.1 off)
    else acc) none

/-- vpack: the bytes of the stream, in pieces of 64 or of one larger element, as far as the first element that is poisoned (R167,
R200): one whose leaves cannot all be had leaves nothing of itself (R275). -/
def packCourse (s : State) (t : Tid) (e : VEntry) (a : Reg) : State × VEntry :=
  let th := getThread s t
  let st := sourceFor (ownCore s t) th e a
  let off := e.part.len
  let unit := if vtIll e.vtype then 1 else entrySize e
  let most := min (max 64 unit) (st.len - off)
  let n := match firstBad st off most with
    | some b => b / unit * unit - off
    | none => most
  if st.len ≤ off then (s, finish e)
  else if n = 0 then
    (match orExhausted (ownCore s t) (threadOf t) e most (off / unit) (poisonFault (off / unit)) with
      | some x => (s, allocFail e x (off / unit) (off / unit))
      | none => (s, failWith e (poisonFault (off / unit))))
  else
    match appendElem (ownCore s t) (threadOf t) e.budget e.part n (bitsOf st.val (8 * off) (8 * n)) with
    | .error x => (s, allocFail e x (off / unit) (off / unit))
    | .ok (c, d) =>
      let e' := { e with part := d, prog := d.len / unit, stalled := false }
      (putOwnCore s t c, if st.len ≤ d.len then finish e' else e')

/-- Bits of a destination mask, element by element (R166, R174, R244). -/
def maskLoop (t : Tid) (md : Nat) (gen : Nat → Except FaultInfo (Bool × BitVec 7 × Option (Word × Nat))) :
    Nat → State → VEntry → Nat → State × VEntry
  | 0, s, e, _ => (s, e)
  | n + 1, s, e, i =>
    match gen i with
    | .error f => (s, failWith e f)
    | .ok (b, fl, v) =>
      let s1 := noteViol s t e v
      let s2 := updThread s1 t fun th => setMaskBit th md i b
      maskLoop t md gen n s2 { e with prog := i + 1, flags := e.flags ||| fl ||| violFlag v, stalled := false } (i + 1)

/-- One course of a mask result. -/
def maskCourse (s : State) (t : Tid) (e : VEntry) (md sz : Nat)
    (gen : Nat → Except FaultInfo (Bool × BitVec 7 × Option (Word × Nat))) : State × VEntry :=
  let r := maskLoop t md gen (min (courseLen sz) (e.vl - e.prog)) s e e.prog
  if e.vl ≤ r.2.prog && r.2.fault.isNone then (r.1, finish r.2) else r

/-- Where element i of a store or vstxa goes: none when it is not accessed (R204, R205). -/
def storeAddr (th : Thread) (e : VEntry) (f : MemForm) (base stride : Word) (idx : Stream) (m : MaskF) (i : Nat) :
    Except FaultInfo (Option Word) :=
  if mbit th m.val i && !isPad th i then
    andThen (memAddr e f base stride idx i) fun q => .ok (if q.2 then none else some q.1)
  else .ok none

/-- The addresses of the accessed elements i, i + 1, ... below i + n, with their indices. -/
def laterAddrs (th : Thread) (e : VEntry) (f : MemForm) (base stride : Word) (idx : Stream) (m : MaskF) :
    Nat → Nat → List (Nat × Word)
  | _, 0 => []
  | i, n + 1 =>
    match storeAddr th e f base stride idx m i with
    | .ok (some va) => (i, va) :: laterAddrs th e f base stride idx m (i + 1) n
    | _ => laterAddrs th e f base stride idx m (i + 1) n

/-- The bytes that an element of sz bytes at va reaches: its pieces, each a target and a length (R203). -/
def elemTargets (s : State) (p : Party) (k : MKind) (ty sz : Nat) (va : Word) : List (Target × Nat) :=
  let n := if isMap ty then 64 else sz
  (upFrom 0 (sz / n)).filterMap fun j =>
    match resolve s p (va + BitVec.ofNat 64 (j * n)) n k with
    | .ok tg => some (tg, n)
    | .error _ => none

/-- Where the accessed elements of a load or store lead: each with its index and a piece of it. Elements are told to
overlap by the bytes they reach, so aliased pages and addresses that wrap count (R208). An element counts even when a serial page
drops its store or its address is misaligned: the bytes it shares with a lower one are then written by neither (DESIGN CHOICE, log
110). -/
def accessPieces (s : State) (t : Tid) (e : VEntry) (k : MKind) (f : MemForm) (base stride : Word) (idx : Stream)
    (m : MaskF) : List (Nat × Target × Nat) :=
  (laterAddrs (getThread s t) e f base stride idx m 0 e.vl).flatMap fun q =>
    (elemTargets s (partyOf s t) k (vtTy e.vtype) (entrySize e) q.2).map fun x => (q.1, x.1, x.2)

/-- The pieces of the elements above i (R208). -/
def piecesAbove (l : List (Nat × Target × Nat)) (i : Nat) : List (Target × Nat) :=
  (l.filter fun q => decide (i < q.1)).map fun q => q.2

/-- Some of these pieces touch n bytes at a target. -/
def coveredBy (l : List (Target × Nat)) (t : Target) (n : Nat) : Bool := l.any fun q => touches t n q.1 q.2

/-- Write the bytes that no later write covers, one by one (R208, R216). -/
def writeUncovered (s : State) (t : Target) (later : List (Target × Nat)) : Nat → Nat → Nat → State
  | _, 0, _ => s
  | k, n + 1, v =>
    let s1 := if coveredBy later (tgtAdd t k) 1 then s else tgtWrite s (tgtAdd t k) 1 (v % 256)
    writeUncovered s1 t later (k + 1) n (v / 256)

/-- Lines and scratchpad words all of whose bytes are written, none of them covered by a later write, lose their poison
(R382, R383). -/
def clearWritten (s : State) (t : Target) (later : List (Target × Nat)) (n : Nat) : State :=
  let whole (k size x : Nat) : Bool :=
    (upFrom (size * x) size).all fun b =>
      decide (k ≤ b) && decide (b < k + n) && !coveredBy later (tgtAdd t (b - k)) 1
  match t with
  | .dev pa _ => { s with poisonLines := s.poisonLines.filter fun l => !whole pa 64 l }
  | .spad k => { s with poisonSpad := s.poisonSpad.filter fun w => !whole k 8 w }
  | _ => s

/-- Write n bytes at a target but for those that later writes cover (R208, R216, R382, R383). -/
def writeUnder (s : State) (t : Target) (later : List (Target × Nat)) (n v : Nat) : State :=
  if coveredBy later t n then clearWritten (writeUncovered s t later 0 n v) t later n else tgtWrite s t n v

/-- Where the pieces of a store of an element lead (R203): one piece, or 64 bytes of a map each; a violation of a serial page
among them (R138). -/
def storeTargets (s : State) (p : Party) (ty sz : Nat) (va : Word) : List (Except FaultInfo Target) :=
  let n := if isMap ty then 64 else sz
  (upFrom 0 (sz / n)).map fun j =>
    let a := va + BitVec.ofNat 64 (j * n)
    match accessTarget s p a n (if isMap ty then 64 else elemAlign ty sz) .store with
    | .error f => .error f
    | .ok t => .ok (storeTarget s p.ctx t a n)

/-- Write the pieces of an element, n bytes each, the first from the low bytes. -/
def writePiecesOf (later : List (Target × Nat)) (n : Nat) : State → List Target → Nat → State
  | s, [], _ => s
  | s, t :: r, v => writePiecesOf later n (writeUnder s t later n (v % 2 ^ (8 * n))) r (v / 2 ^ (8 * n))

/-- The device memory lines that some pieces of n bytes lie in. -/
def linesOf (n : Nat) (l : List Target) : List Nat :=
  l.flatMap fun t => match t with
    | .dev pa _ => upFrom (pa / 64) ((pa + n - 1) / 64 + 1 - pa / 64)
    | _ => []

/-- A store of an element has been performed, or has been dropped by a violation (R205). -/
def storedElem (e : VEntry) (i : Nat) (lines : List Nat) (v : Option (Word × Nat)) : VEntry :=
  { e with prog := i + 1, flags := e.flags ||| violFlag v
           wrote := e.wrote ++ lines.filter fun l => !e.wrote.contains l
           dropped := if v.isSome then i :: e.dropped else e.dropped }

/-- Store one element at va, whose targets have been resolved: dropped whole when one of them is a violation (R205). The
answer carries the lines written into and the violation. -/
def storeElem (s : State) (ty sz : Nat) (later : List (Target × Nat)) (va : Word) (ts : List Target) (v : Nat) :
    State × List Nat × Option (Word × Nat) :=
  let n := if isMap ty then 64 else sz
  match firstViolation ts with
  | some c => (s, [], some (va, c))
  | none => (writePiecesOf later n s ts v, linesOf n ts, none)

/-- The byte ranges in device memory among some pieces. -/
def devRanges (l : List (Target × Nat)) : List (Nat × Nat) :=
  l.filterMap fun q => match q.1 with
    | .dev pa _ => some (pa, pa + q.2)
    | _ => none

/-- Some byte ranges hold a byte. -/
def inRanges (l : List (Nat × Nat)) (b : Nat) : Bool := l.any fun r => decide (r.1 ≤ b) && decide (b < r.2)

/-- Some byte ranges cover a line. -/
def coversLine (l : List (Nat × Nat)) (line : Nat) : Bool := (upFrom (64 * line) 64).all (inRanges l)

/-- An element of a store has written over bytes of others in lines that the whole store covers: those no longer count (R382). -/
def coverElem (s : State) (all written : List (Nat × Nat)) : State :=
  if s.overlaid.isEmpty then s
  else { s with overlaid := s.overlaid.filter fun b => !(inRanges written b && coversLine all (b / 64)) }

/-- Elements i, i + 1, ... of a store, at most n of them (R204, R207, R208), one after another: the manual leaves their order
open, but for that of overlapping bytes (R208, R291), and that in which the pieces of a map are seen (R290; log 84). A fault of
the access comes before a poisoned source (R358). -/
def storeLoop (t : Tid) (f : MemForm) (src : Stream) (base stride : Word) (idx : Stream) (m : MaskF)
    (all : List (Nat × Target × Nat)) (walls : List (Option Wall)) : Nat → State → VEntry → Nat → State × VEntry
  | 0, s, e, _ => (s, e)
  | n + 1, s, e, i =>
    let w := wallFault walls i
    match wallBefore w i (storeAddr (getThread s t) e f base stride idx m i) with
    | .error x => (s, failWith e x)
    | .ok none =>
      (match w with
        | some x => (s, failWith e x)
        | none => storeLoop t f src base stride idx m all walls n s { e with prog := i + 1 } (i + 1))
    | .ok (some va) =>
      match allTargets (storeTargets s (partyOf s t) (vtTy e.vtype) (entrySize e) va) with
      | .error x => (s, failWith e (atIndex x i))
      | .ok ts =>
        match wallFirst w (readElem e src i i) with
        | .error x => (s, failWith e x)
        | .ok v =>
          let r := storeElem s (vtTy e.vtype) (entrySize e) (piecesAbove all i) va ts v
          let here := (all.filter fun q => decide (q.1 = i)).map fun q => q.2
          let s1 := coverElem r.1 (devRanges (all.map fun q => q.2)) (devRanges here)
          storeLoop t f src base stride idx m all walls n (noteViol s1 t e r.2.2) (storedElem e i r.2.1 r.2.2) (i + 1)

/-- Lines wholly covered by one instruction's writes lose their poison (R382), but for those that were poisoned
after a write into them, and those into which a write of only a part, racing with the instruction, came after it (log 108). -/
def clearCovered (s : State) (ranges : List (Nat × Nat)) (struck : List Nat) : State :=
  if s.poisonLines.isEmpty then s
  else
    { s with poisonLines := s.poisonLines.filter fun l =>
        struck.contains l || s.overlaid.any (fun b => decide (b / 64 = l)) || !coversLine ranges l }

/-- The walls of a store: its source and its index chain, where it accesses (R384). -/
def storeWalls (th : Thread) (e : VEntry) (src idx : Stream) (f : MemForm) (m : MaskF) : List (Option Wall) :=
  [wallOf src (entrySize e) 0 e.vl (accessed th m.val),
   if f = .indexed then wallOf idx 4 0 e.vl (accessed th m.val) else none]

/-- One course of a store. Its poisoned lines are cleared as it ends, by the elements that it has written (R382). -/
def storeCourse (s : State) (t : Tid) (e : VEntry) (f : MemForm) (v : Reg) (base stride : Word) (idx : Reg)
    (m : MaskF) : State × VEntry :=
  let th := getThread s t
  let c := ownCore s t
  let si := sourceFor c th e idx
  let src := sourceFor c th e v
  let all := accessPieces s t e .store f base stride si m
  let r := storeLoop t f src base stride si m all (storeWalls th e src si f m)
    (min (courseLen (entrySize e)) (e.vl - e.prog)) s e e.prog
  if e.vl ≤ r.2.prog && r.2.fault.isNone then
    let done := (all.filter fun q => !r.2.dropped.contains q.1).map fun q => q.2
    (clearCovered r.1 (devRanges done) r.2.struck, finish r.2)
  else r

/-- The elements of a vstxa, in index order, up to the first that faults: their addresses, targets and values
(R209). -/
def stxaItems (s : State) (t : Tid) (e : VEntry) (src : Stream) (base : Word) (idx : Stream) (m : MaskF) :
    Nat → Nat → List (Word × Target × Nat) × Option FaultInfo
  | _, 0 => ([], none)
  | i, n + 1 =>
    let w := wallFault (storeWalls (getThread s t) e src idx .indexed m) i
    match wallBefore w i (storeAddr (getThread s t) e .indexed base 0 idx m i) with
    | .error f => ([], some f)
    | .ok none =>
      (match w with
        | some f => ([], some f)
        | none => stxaItems s t e src base idx m (i + 1) n)
    | .ok (some va) =>
      match accessTarget s (partyOf s t) va (entrySize e) (entrySize e) .both with
      | .error f => ([], some (atIndex f i))
      | .ok tg =>
        match wallFirst w (readElem e src i i) with
        | .error f => ([], some f)
        | .ok v =>
          let r := stxaItems s t e src base idx m (i + 1) n
          ((va, storeTarget s (partyOf s t).ctx tg va (entrySize e), v) :: r.1, r.2)

/-- The adding step of vstxa: wrapping, or rounded in VTYPE's mode (R209). -/
def stxaAdd (ty rm x y : Nat) : Res := combine .sum ty rm x y

/-- Merge the values at one address in index order, and what is left of the list (R209). -/
def mergeAt (ty rm : Nat) (va : Word) : Nat → BitVec 7 → List (Word × Target × Nat) →
    Nat × BitVec 7 × List (Word × Target × Nat)
  | acc, fl, [] => (acc, fl, [])
  | acc, fl, (a, tg, v) :: r =>
    if a = va then
      let z := stxaAdd ty rm acc v
      mergeAt ty rm va z.bits (fl ||| z.flags) r
    else
      let x := mergeAt ty rm va acc fl r
      (x.1, x.2.1, (a, tg, v) :: x.2.2)

/-- One atomic add for each distinct address (R209). -/
def stxaAdds (t : Tid) (ty rm sz : Nat) : Nat → State → VEntry → List (Word × Target × Nat) → State × VEntry
  | 0, s, e, _ => (s, e)
  | _ + 1, s, e, [] => (s, e)
  | n + 1, s, e, (va, tg, v) :: r =>
    let x := mergeAt ty rm va v 0 r
    let z := stxaAdd ty rm (tgtRead s tg sz) x.1
    let s1 :=
      match tg with
      | .violation c => logResponse s t (sourceOf t) va c
      | _ => tgtWrite s tg sz z.bits
    let fl := match tg with
      | .violation _ => x.2.1 ||| flagViol
      | _ => x.2.1 ||| z.flags
    stxaAdds t ty rm sz n s1 { e with flags := e.flags ||| fl } x.2.2

/-- vstxa from its progress index to its end or its first fault (R209). -/
def stxaRun (s : State) (t : Tid) (e : VEntry) (v : Reg) (base : Word) (idx : Reg) (m : MaskF) : State × VEntry :=
  let th := getThread s t
  let c := ownCore s t
  let items := stxaItems s t e (sourceFor c th e v) base (sourceFor c th e idx) m e.prog (e.vl - e.prog)
  let r := stxaAdds t (vtTy e.vtype) (vtRm e.vtype) (entrySize e) (items.1.length + 1) s e items.1
  match items.2 with
  | some f => (r.1, failWith { r.2 with prog := f.start } f)
  | none => (r.1, finish { r.2 with prog := e.vl })

/-- vput: element i of the destination's own chain, in place (R183). -/
def putRun (s : State) (t : Tid) (e : VEntry) (d : Reg) (i w : Word) : State × VEntry :=
  let th := getThread s t
  let sz := entrySize e
  let ch := th.v[d.val]
  if (i.toNat + 1) * sz ≤ ch.len then
    match headerWall (ownCore s t) ch ((i.toNat + 1) * sz - 1) with
    | some b => (s, failWith e { poisonFault (b / sz) with start := 0 })
    | none =>
    match writeElem (ownCore s t) (threadOf t) e.budget ch (i.toNat * sz) sz (w.toNat % 2 ^ (8 * sz)) with
    | .error a => (s, allocFail e a i.toNat 0)
    | .ok (c, ch') =>
      (updThread (putOwnCore s t c) t fun x => { x with v := x.v.set d.val ch' }, finish e)
  else (s, finish e)

/-- The element that a vupd writes at index i, when it is active and its index lies in the destination (R184). -/
def updIndex (th : Thread) (e : VEntry) (m : MaskF) (sa : Stream) (len i : Nat) : Except FaultInfo (Option Nat) :=
  if mbit th m.val i then
    andThen (readIndex e sa i i) fun j => .ok (if (j + 1) * entrySize e ≤ len then some j else none)
  else .ok none

/-- The walls in the way of a vupd: its index chain where it is active, its values where it writes (R384). -/
def updWalls (th : Thread) (e : VEntry) (m : MaskF) (sa sb : Stream) (len : Nat) : List (Option Wall) :=
  [wallOf sa 4 0 e.vl (mbit th m.val),
   wallOf sb (entrySize e) 0 e.vl fun i => match updIndex th e m sa len i with
    | .ok (some _) => true
    | _ => false]

/-- What a vupd writes over an element (R184). -/
def updValue (add : Bool) (e : VEntry) (x w : Nat) : Res :=
  let ty := vtTy e.vtype
  if add then (if isFp ty then fpOp .add ty (vtRm e.vtype) x w 0 else intElem .add ty e.fill x w) else Res.plain w

/-- vupd from element i on (R184). A poisoned header on the way to an element ends the walk (R384); pool exhaustion comes before
the poison of the values and of the element written (R358). -/
def updLoop (t : Tid) (add : Bool) (d : Reg) (m : MaskF) (sa sb : Stream) : Nat → State → VEntry → Nat → State × VEntry
  | 0, s, e, _ => (s, finish e)
  | n + 1, s, e, i =>
    let th := getThread s t
    let sz := entrySize e
    let ch := th.v[d.val]
    let w := wallFault (updWalls th e m sa sb ch.len) i
    match wallBefore w i (updIndex th e m sa ch.len i) with
    | .error f => (s, failWith e f)
    | .ok none =>
      (match w with
        | some f => (s, failWith e f)
        | none => updLoop t add d m sa sb n s { e with prog := i + 1 } (i + 1))
    | .ok (some j) =>
      match headerWall (ownCore s t) ch ((j + 1) * sz - 1) with
      | some b => (s, failWith e { poisonFault i with elem := b / sz })
      | none =>
        let cur := streamOf (ownCore s t) ch
        let x := readElem e sb i i
        let r := updValue add e (streamElem cur 0 sz j) (x.toOption.getD 0)
        match writeElem (ownCore s t) (threadOf t) e.budget ch (j * sz) sz r.bits with
        | .error a => (s, allocFail { e with prog := i } a i i)
        | .ok (c, ch') =>
          match x with
          | .error f => (s, failWith e f)
          | .ok _ =>
            if streamBad cur sz j && add then (s, failWith e (poisonFault i))
            else
              updLoop t add d m sa sb n
                (updThread (putOwnCore s t c) t fun x => { x with v := x.v.set d.val ch' })
                { e with prog := i + 1, flags := e.flags ||| r.flags, stalled := false } (i + 1)

/-- A source of a vupd: vd's own chain as it stood when the vupd began, another register's as it stands (R184, R278). -/
def updSource (c : Core) (th : Thread) (e : VEntry) (d r : Reg) : Stream :=
  if r = d then e.snap.head?.getD (streamOf c th.v[d.val]) else streamOf c th.v[r.val]

/-- A vupd that reads vd keeps vd's bytes as they stand when it begins (R184). -/
def updBegin (c : Core) (th : Thread) (e : VEntry) (d a b : Reg) : VEntry :=
  if (a = d ∨ b = d) ∧ e.snap = [] then { e with snap := [streamOf c th.v[d.val]] } else e

/-- vupd and vupd.add (R184). -/
def updRun (s : State) (t : Tid) (e : VEntry) (add : Bool) (d a b : Reg) (m : MaskF) : State × VEntry :=
  let th := getThread s t
  let c := ownCore s t
  let e1 := updBegin c th e d a b
  updLoop t add d m (updSource c th e1 d a) (updSource c th e1 d b) (e1.vl - e1.prog) s e1 e1.prog

/-- A result for a g register, through the read queue. -/
def scalarResult (e : VEntry) (w : Word) (fl : BitVec 7) : VEntry :=
  finish { e with gres := w, flags := e.flags ||| fl }

/-- A scalar result extended by its type (R175, R182). -/
def extendTy (ty b v : Nat) : Word := extend (isSigned ty) b v

/-- A reduction (R175). One that faults has accrued the flags of its steps below that element, and when it goes on it accrues
the others (R57; log 82). -/
def redRun (s : State) (t : Tid) (e : VEntry) (op : RedOp) (a : Reg) (g : Word) (m : MaskF) : VEntry :=
  let th := getThread s t
  let sz := entrySize e
  let st := sourceFor (ownCore s t) th e a
  let reduce (keep : Nat → Bool) (l : List (Option Nat)) : Nat × BitVec 7 :=
    reduceItems op (vtTy e.vtype) (vtRm e.vtype) (g.toNat % 2 ^ (8 * sz)) keep l
  match activeItems th e st m.val 0 e.vl with
  | .error f =>
    let upTo := max e.prog f.elem
    match activeItems th e st m.val 0 f.elem with
    | .ok l =>
      let r := reduce (fun k => decide (e.prog < k) && decide (k ≤ upTo)) (l ++ List.replicate (e.vl - f.elem) none)
      failWith { e with flags := e.flags ||| r.2 } { f with start := upTo }
    | .error _ => failWith e { f with start := upTo }
  | .ok l =>
    let r := reduce (fun k => decide (e.prog < k)) l
    scalarResult e (extendTy (vtTy e.vtype) (8 * sz) r.1) r.2

/-- vextr (R182). -/
def extrRun (s : State) (t : Tid) (e : VEntry) (a : Reg) (i : Word) : VEntry :=
  let th := getThread s t
  let st := sourceFor (ownCore s t) th e a
  match readElem e st i.toNat (poisonedAt st (entrySize e) i.toNat) with
  | .error f => failWith e f
  | .ok v => scalarResult e (extendTy (vtTy e.vtype) (8 * min (entrySize e) 8) v) 0

/-- Mask results (R186 to R189); masks are cleared from VL on at completion, by their own rules. -/
def maskLogic (op : MaskOp) (x y : BitVec 4096) : BitVec 4096 :=
  match op with
  | .and => x &&& y
  | .or => x ||| y
  | .xor => x ^^^ y
  | .not => ~~~x

/-- stom: 64 bits of a mask (R188). -/
def stomOf (old : BitVec 4096) (w i : Word) : BitVec 4096 :=
  let k := 64 * (i.toNat % 64)
  (old &&& ~~~(BitVec.ofNat 4096 ((2 ^ 64 - 1) * 2 ^ k))) ||| BitVec.ofNat 4096 (w.toNat * 2 ^ k)

/-- mset: bits [lo, lo + n) of a mask, all others clear (R189). -/
def msetOf (lo n : Word) : BitVec 4096 :=
  BitVec.ofNat 4096 (2 ^ min (lo.toNat + n.toNat) 4096 - 2 ^ min lo.toNat 4096)

/-- Clear the EXCL of a register (R193). -/
def clearExcl (s : State) (t : Tid) (r : Reg) : State :=
  updThread s t fun th => { th with v := th.v.set r.val { th.v[r.val] with excl := false } }

/-- A structural instruction's result: the chain it will write, the one it will release, and whether EXCL is as
`part` has it (R195 to R199). -/
def structural (e : VEntry) (r old : Desc) (keep : Bool) : VEntry :=
  finish { e with begun := true, part := r, old := old, writes := true, keepExcl := keep }

/-- Nothing changes. -/
def unchanged (e : VEntry) : VEntry := finish { e with writes := false }

/-- vshare (R195). -/
def shareRun (s : State) (t : Tid) (e : VEntry) (d a : Reg) : State × VEntry :=
  let th := getThread s t
  if d = a then (s, unchanged e)
  else
    let x := th.v[a.val]
    if x.len = 0 then (s, structural e Desc.empty th.v[d.val] true)
    else
      match holdChain (ownCore s t) (threadOf t) e.budget x with
      | .error q => (s, allocFail e q 0 0)
      | .ok (c, y) => (clearExcl (putOwnCore s t c) t a, structural e y th.v[d.val] true)

/-- Copies of the pieces of a stream as whole leaves: each new leaf covers exactly the bytes of its piece (R196). -/
def coverPieces (c : Core) : List (Nat × Nat × Nat) → List Nat → Core
  | (_, off, n) :: r, y :: ys => coverPieces (putLeaf c y { leafAt c y with lo := off, len := n - 1 }) r ys
  | _, _ => c

/-- vcat of two chains that are not empty (R196, R197): the pool, the result, and whether it was in place. -/
def catChains (c : Core) (th : Fin 4) (budget : Nat) (A B : Desc) (inplace : Bool) :
    Except AllocErr (Core × Desc) :=
  let psA := pieces c A
  let lvA := psA.map fun q => q.1
  let copies : Except AllocErr (Core × List Nat) :=
    if inplace then .ok (c, []) else copyLeaves th budget c lvA
  match copies with
  | .error e => .error e
  | .ok (c1, cs) =>
    let joint : Except AllocErr (Core × Nat × Nat) :=
      if B.skip = 0 then
        match holdChain c1 th budget B with
        | .error e => .error e
        | .ok (c2, y) => .ok (c2, y.head, y.tail)
      else
        match allocLeaf c1 th budget with
        | .error e => .error e
        | .ok (h, c2) =>
          let l := leafAt c2 B.head
          let tB := if B.head = B.tail then h else B.tail
          if l.last then
            .ok (putLeaf c2 h { l with lo := l.lo + B.skip, len := l.len - B.skip, refs := 1, owner := th, next := 0 }, h, tB)
          else
            match holdLeaf c2 th budget l.next with
            | .error e => .error e
            | .ok (z, c3) =>
              let c4 := putLeaf c3 h { l with lo := l.lo + B.skip, len := l.len - B.skip, refs := 1, owner := th, next := z }
              .ok (c4, h, (retail c4 { B with head := h, skip := 0 }).tail)
    match joint with
    | .error e => .error e
    | .ok (c2, h, tB) =>
      if inplace then
        let tl := A.tail
        let nt := match psA.getLast? with
          | some q => q.2.2
          | none => 0
        let l := leafAt c2 tl
        let len' := nt - 1 + (if tl = A.head then A.skip else 0)
        let c3 :=
          if l.last then c2
          else
            let y := leafAt c2 l.next
            { putLeaf c2 l.next { y with refs := y.refs - 1 } with
              reclaim := if y.refs = 1 then c2.reclaim ++ [l.next] else c2.reclaim }
        let c4 := putLeaf c3 tl { leafAt c3 tl with len := len', last := false, next := h }
        .ok (c4, { part := false, excl := false, skip := A.skip, len := A.len + B.len, tail := tB, head := A.head })
      else
        let c3 := linkLeaves (coverPieces c2 psA cs) false h cs
        .ok (c3, { part := false, excl := false, skip := 0, len := A.len + B.len, tail := tB, head := cs.head?.getD h })

/-- A structural instruction that finds a poisoned header on its way, at byte w of its source: nothing is done (R384). -/
def wallStop (e : VEntry) (unit w : Nat) : VEntry := failWith e { poisonFault (w / unit) with start := 0 }

/-- An instruction that has its leaves and then walks headers, which ends at a poisoned one, in its sources (R202, R358, R384):
exhaustion, at 0, comes first. -/
def walked {α : Type} (s : State) (e : VEntry) (unit : Nat) (got : Except AllocErr α) (wall : Option Nat)
    (k : α → State × VEntry) : State × VEntry :=
  match got, wall with
  | .error q, _ => (s, allocFail e q 0 0)
  | .ok _, some w => (s, wallStop e unit w)
  | .ok x, none => k x

/-- The first byte held by a leaf with a poisoned header in a whole chain, whose headers the result's walk passes (R202, R384). -/
def chainWall (c : Core) (d : Desc) : Option Nat := if d.len = 0 then none else headerWall c d (d.len - 1)

/-- vcat (R196, R197). The walk over the result's headers passes those of both chains (R202; log 93). -/
def catRun (s : State) (t : Tid) (e : VEntry) (d a b : Reg) : State × VEntry :=
  let th := getThread s t
  let c := ownCore s t
  let A := th.v[a.val]
  let B := th.v[b.val]
  let O := th.v[d.val]
  let unit := if vtIll e.vtype then 1 else entrySize e
  if Config.maxChain < A.len + B.len then
    (s, failWith e { cause := 0x05, elem := (Config.maxChain - A.len) / unit, info := 0, start := 0 })
  else if A.len = 0 ∧ B.len = 0 then
    if O.len = 0 then (s, unchanged e) else (s, structural e Desc.empty O false)
  else if A.len = 0 ∨ B.len = 0 then
    let r := if A.len = 0 then b else a
    let S := th.v[r.val]
    if r = d then (s, unchanged e)
    else
      walked s e unit (holdChain c (threadOf t) e.budget S) (chainWall c S) fun x =>
        (clearExcl (putOwnCore s t x.1) t r, structural e x.2 O false)
  else
    let inplace := A.excl && decide (d = a) && decide (b ≠ a)
    walked s e unit (catChains c (threadOf t) e.budget A B inplace) ((chainWall c A).orElse fun _ => chainWall c B) fun x =>
      let s1 := putOwnCore s t x.1
      let s2 := if b = d then s1 else clearExcl s1 t b
      (s2, structural e x.2 (if inplace then Desc.empty else O) false)

/-- vtrim (R198): the walk goes on from the new head to the new tail. -/
def trimRun (s : State) (t : Tid) (e : VEntry) (d a : Reg) (f b : Word) : State × VEntry :=
  let th := getThread s t
  let sz := entrySize e
  let A := th.v[a.val]
  let O := th.v[d.val]
  let F := f.toNat * sz
  let E := b.toNat * sz
  if A.len ≤ F + E then (s, structural e Desc.empty O false)
  else
    let c := ownCore s t
    let q := locate c A F
    match headerWall c A F with
    | some w => (s, wallStop e sz w)
    | none =>
      walked s e sz (holdChain c (threadOf t) e.budget { A with head := q.1, skip := q.2, len := A.len - F - E })
        (headerWall c A (A.len - E - 1)) fun x =>
          let s1 := putOwnCore s t x.1
          (if d = a then s1 else clearExcl s1 t a, structural e x.2 O false)

/-- vsplit (R199): both descriptors are written by R71, so that the walk passes the whole chain (R202; log 93). -/
def splitRun (s : State) (t : Tid) (e : VEntry) (d a : Reg) (n : Word) : State × VEntry :=
  let th := getThread s t
  let sz := entrySize e
  let A := th.v[a.val]
  let O := th.v[d.val]
  let k := min n.toNat (A.len / sz)
  let P := k * sz
  if k = 0 then (s, structural e Desc.empty O false)
  else if P = A.len then
    (updThread s t fun x => { x with v := x.v.set a.val Desc.empty }, structural e A O true)
  else
    let c := ownCore s t
    let q := locate c A P
    match headerWall c A P with
    | some w => (s, wallStop e sz w)
    | none =>
      walked s e sz (holdChain c (threadOf t) e.budget { A with head := q.1, skip := q.2, len := A.len - P })
        (chainWall c A) fun x =>
          let front := retail x.1 { part := false, excl := false, skip := A.skip, len := P, tail := A.tail, head := A.head }
          (updThread (putOwnCore s t x.1) t fun y => { y with v := y.v.set a.val x.2 }, structural e front O false)

/-- XINFO of a tile slot fault of a vector-core thread (R227). -/
def slotInfo (co : Fin 8) (st : SlotState) (slot : Nat) : Nat :=
  co.val * 2 ^ 6 + (match st with | .empty => 0 | .bound => 1 | .target => 2 | .filled => 3) * 2 ^ 4 + slot

/-- A tile slot fault (R220, R227). -/
def slotFault (t : Tid) (e : VEntry) (st : SlotState) (slot : Fin 16) : VEntry :=
  failWith e { cause := 0x10, elem := 0, info := slotInfo (coreOf t) st slot.val, start := 0 }

/-- Put a slot of a core. -/
def putSlot (c : Core) (s : Fin 16) (x : Slot) : Core := { c with slots := c.slots.set s.val x }

/-- tbind (R222, R223). -/
def tbindRun (s : State) (t : Tid) (e : VEntry) (a : Reg) (k : Fin 16) : State × VEntry :=
  let th := getThread s t
  let c := ownCore s t
  let x := c.slots[k.val]
  let A := th.v[a.val]
  let g := grouped e.vtype
  let sc := th.v[(a + 1).val]
  if x.st ≠ .empty ∨ A.len = 0 ∨ e.vl = 0 ∨ vtTy e.vtype = 15 ∨ (g ∧ sc.len = 0) then (s, slotFault t e x.st k)
  else
    match holdChain c (threadOf t) e.budget A with
    | .error q => (s, allocFail e q 0 0)
    | .ok (c1, ch) =>
      match (if g then holdChain c1 (threadOf t) e.budget sc else .ok (c1, Desc.empty)) with
      | .error q => (s, allocFail e q 0 0)
      | .ok (c2, scd) =>
        let slot : Slot :=
          { st := .bound, chain := ch
            scale := scd, rowLen := e.vl, ty := vtTy e.vtype
            group := if g then blockSize (vtBlock e.vtype) else 0, owner := threadOf t }
        let s1 := clearExcl (putOwnCore s t (putSlot c2 k slot)) t a
        (if g then clearExcl s1 t (a + 1) else s1, finish e)

/-- Release the chains of a slot and leave it EMPTY (R220, R223). -/
def emptySlot (c : Core) (k : Fin 16) : Core :=
  let x := c.slots[k.val]
  putSlot (release (release c x.chain) x.scale) k Slot.reset

/-- A slot descriptor of a MATRIX operand names this slot of this core (R231). -/
def namesSlot (co : Fin 8) (k : Fin 16) (w : Word) : Bool :=
  !bitAt w.toNat 63 && decide (bitsOf w.toNat 0 3 = co.val) && decide (bitsOf w.toNat 3 4 = k.val)

/-- A tile queue entry names the slot, as an operand or as a target (R225). -/
def entryNames (co : Fin 8) (k : Fin 16) : TileOp → Bool
  | .mma _ _ _ a b => namesSlot co k a || namesSlot co k b
  | .mmasp _ _ _ a b c => namesSlot co k a || namesSlot co k b || namesSlot co k c
  | .mdrain _ _ _ _ _ d => namesSlot co k d
  | _ => false

/-- The incomplete tile queue entries of a launch on a cluster: those of the MCC that serves it, and those of its saved MCC
(R225, R279, R362). -/
def launchTq (s : State) (cl : Fin 64) (key : Option Nat) : List TileEntry :=
  (if (getCluster s cl).mccLaunch = key then (getCluster s cl).tq else []) ++
    s.images.flatMap fun p => if p.2.isMcc ∧ p.2.cl = cl ∧ some p.2.launch = key then p.2.tq else []

/-- tfree (R225): waits for the entries that named the slot when it began to wait. -/
def tfreeRun (s : State) (t : Tid) (e : VEntry) (k : Fin 16) : State × VEntry :=
  let c := ownCore s t
  let x := c.slots[k.val]
  let tq := launchTq s (clusterOf t) c.launch
  let names :=
    if e.begun then e.names
    else if x.st = .bound ∨ x.st = .target then
      (tq.filter fun q => entryNames (coreOf t) k q.op).map fun q => q.stamp
    else []
  if tq.any fun q => names.contains q.stamp then (s, { e with begun := true, names := names, stalled := true })
  else (putOwnCore s t (emptySlot c k), finish e)

/-- twait and tget (R220, R224). tget writes its descriptor by R71, for which it walks the chain (R202; log 93). -/
def tgetRun (s : State) (t : Tid) (e : VEntry) (d : Option Reg) (k : Fin 16) : State × VEntry :=
  let c := ownCore s t
  let x := c.slots[k.val]
  match x.st with
  | .target => (s, { e with stalled := true })
  | .filled =>
    match d with
    | none => (s, finish e)
    | some r =>
      (match chainWall c x.chain with
        | some w => (s, wallStop e (if vtIll e.vtype then 1 else entrySize e) w)
        | none => (putOwnCore s t (putSlot c k Slot.reset), structural e x.chain (getThread s t).v[r.val] false))
  | st => (s, slotFault t e st k)

/-- ttgt (R220, R226). -/
def ttgtRun (s : State) (t : Tid) (e : VEntry) (k : Fin 16) : State × VEntry :=
  let c := ownCore s t
  let x := c.slots[k.val]
  if x.st = .empty then
    (putOwnCore s t (putSlot c k { Slot.reset with st := .target, owner := threadOf t }), finish e)
  else (s, slotFault t e x.st k)

/-- A copy at the head of the vector queue passes to its copy queue, sharing its index chain (R212). When take_ref needs a
copy of the chain's head and no leaf can be had, the hand-off waits: copies receive no traps once they have been pushed
(R217; log 66); and it waits while the copy queue holds the 16 copies for which R363 gives an image room (log 109). -/
def handOff (s : State) (t : Tid) (e : VEntry) (o : CopyOp) : State × VEntry :=
  let th := getThread s t
  let c := ownCore s t
  let ix := decide (o.kind = .cpyg) || decide (o.kind = .cpys)
  let x := th.v[o.vidx.val]
  if Config.cqDepth ≤ c.cqs[o.q.val].length then (s, { e with stalled := true })
  else
  match (if ix && decide (x.len ≠ 0) then holdChain c (threadOf t) e.budget x else .ok (c, Desc.empty)) with
  | .error _ => (s, { e with stalled := true })
  | .ok (c1, d) =>
    let cp : Copy :=
      { op := o, owner := threadOf t, fillw := e.fill, idx := d, stamp := e.stamp, row := 0, added := 0, leave := false
        ctx := th.ctx, launch := th.launch.getD 0 }
    let c2 := { c1 with cqs := c1.cqs.set o.q.val (c1.cqs[o.q.val] ++ [cp]) }
    let s1 := putOwnCore s t c2
    (if ix && decide (x.len ≠ 0) then clearExcl s1 t o.vidx else s1, finish e)

end Sys2Proof.Machine
end

