-- ==== Sys2Proof/Machine/CsrValue.lean ====
section
/-!
DEFINITION. What each user CSR (R17, R19, R86, R156, R263) and each privileged register of a thread (R349) reads as, and
the csrr that wait in the read queue (R58, R87).
-/

namespace Sys2Proof.Machine

/-- COORD (R17). -/
def coordOf (s : State) (t : Tid) : Word :=
  BitVec.ofNat 64
    ((threadOf t).val + 2 ^ 2 * (coreOf t).val + 2 ^ 5 * (clusterOf t).val + 2 ^ 11 * (s.devPos % 256) +
      if isMcc t then 2 ^ 19 else 0)

/-- BKn as it reads (R263). -/
def bookmarkBits (b : Bookmark) : Word :=
  if b.valid then BitVec.ofNat 64 (2 ^ 63 + b.frontier.toNat % 2 ^ 52) else 0

/-- The CSRs that read 0 and ignore writes on an MCC (R156). -/
def absentOnMcc (n : Nat) : Bool :=
  [0x000, 0x001, 0x003, 0x005, 0x006, 0x007, 0x00A, 0x00B, 0x010, 0x01D, 0x01E].contains n

/-- A user CSR's value; CYC is read apart (R86). -/
def csrValue (s : State) (t : Tid) (n : Nat) : Word :=
  let th := getThread s t
  if isMcc t && absentOnMcc n then 0
  else
    match n with
    | 0x000 => BitVec.ofNat 64 th.vl
    | 0x001 => BitVec.ofNat 64 th.vtype
    | 0x002 => th.vstart
    | 0x003 => BitVec.ofNat 64 th.maxvl
    | 0x004 => th.fill
    | 0x005 => BitVec.ofNat 64 th.lbud
    | 0x006 => BitVec.ofNat 64 (lheld (ownCore s t) (threadOf t))
    | 0x007 => th.xbound
    | 0x008 => th.fflags.setWidth 64
    | 0x009 => th.frm.setWidth 64
    | 0x00A => th.pcarry
    | 0x00B => BitVec.ofNat 64 th.clmode
    | 0x00C => bookmarkBits th.bk[0]
    | 0x00D => bookmarkBits th.bk[1]
    | 0x00E => bookmarkBits th.bk[2]
    | 0x00F => bookmarkBits th.bk[3]
    | 0x010 => th.vcp
    | 0x012 => coordOf s t
    | 0x013 => BitVec.ofNat 64 th.stage
    | 0x014 => th.ufvec
    | 0x015 => th.ufmask
    | 0x016 => th.xcause
    | 0x017 => th.xpc
    | 0x018 => th.xvpc
    | 0x019 => th.xqpos
    | 0x01A => th.xelem
    | 0x01B => th.xinfo
    | 0x01C => th.xret
    | 0x01D => BitVec.ofNat 64 th.nv
    | 0x01E => BitVec.ofNat 64 (getCluster s (clusterOf t)).powcap
    | 0x01F => (getCtx s th.ctx).spbase
    | _ => 0

/-- TSTATE (R349): the state of the thread, and with bit 2 that it is in a user handler. -/
def tstateBits (th : Thread) : Nat :=
  (match th.tstate with | .idle => 0 | .running => 1 | .stopped => 2 | .saved => 3) + if inHandler th then 4 else 0

/-- A privileged register of a thread, numbers 0x800 to 0x8FF, as the control space reads it (R349). -/
def privilegedValue (s : State) (t : Tid) (n : Nat) : Word :=
  let th := getThread s t
  match n with
  | 0x800 => BitVec.ofNat 64 th.ctx.val
  | 0x801 => BitVec.ofNat 64 (tstateBits th)
  | 0x802 => if th.preq then 1 else 0
  | 0x803 => th.img
  | 0x804 => if isMcc t then (getCluster s (clusterOf t)).tsw.setWidth 64 else 0
  | _ => 0

/-- The CSRs served through the read queue (R87). -/
def servedByQueue (n : Nat) : Bool :=
  [0x002, 0x006, 0x008, 0x00A, 0x010, 0x016, 0x017, 0x018, 0x019, 0x01A, 0x01B].contains n

/-- A csrr of the read queue has its value: everything before it that writes its CSR is done (R58, R87). -/
def csrDue (th : Thread) (x : RqItem) (n : Nat) : Bool :=
  th.vq.all (fun e => decide (x.stamp ≤ e.stamp)) && (decide (n ≠ 0x008) || th.out.all fun a => decide (x.stamp ≤ a.stamp))

/-- A place in the read queue with its value, when it is a csrr and its value is due. -/
def settleItem (s : State) (t : Tid) (x : RqItem) : RqItem :=
  match x.val, x.csr with
  | none, some n =>
    let th := getThread s t
    if csrDue th x n then
      { x with val := some (if n = 0x008 then x.base.setWidth 64 else csrValue s t n) }
    else x
  | _, _ => x

/-- Every csrr of a thread's read queue whose value is due takes it. -/
def settleQueue (s : State) (t : Tid) : State :=
  let th := getThread s t
  putThread s t { th with rq := th.rq.map (settleItem s t) }

/-- A value of PCARRY written for later entries is in force once no earlier entry is left (R87). -/
def carryForth (th : Thread) : Thread :=
  let due := th.carryNext.takeWhile fun q => th.vq.all fun e => decide (q.1 ≤ e.stamp)
  match due.getLast? with
  | some q => { th with pcarry := q.2, carryNext := th.carryNext.drop due.length }
  | none => th

end Sys2Proof.Machine
end

