-- ==== Sys2Proof/Machine/Pat.lean ====
section
/-!
DEFINITION. Patterns (R247 to R254): the fields of a micro-operation, what its sources deliver, the 24 codes, the
verifier, whether a number is bound and loaded, and the course-by-course run of a PAT entry.
-/

namespace Sys2Proof.Machine

/-- CODE (R248). -/
def uCode (w : Nat) : Nat := bitsOf w 58 6
/-- DST (R248). -/
def uDst (w : Nat) : Nat := bitsOf w 54 4
/-- The source selectors A, B and C (R248). -/
def uA (w : Nat) : Nat := bitsOf w 49 5
def uB (w : Nat) : Nat := bitsOf w 44 5
def uC (w : Nat) : Nat := bitsOf w 39 5
/-- TYPE (R248). -/
def uType (w : Nat) : Nat := bitsOf w 35 4
/-- RM (R248). -/
def uRm (w : Nat) : Nat := bitsOf w 32 3
/-- IMM (R248). -/
def uImm (w : Nat) : Nat := bitsOf w 0 32

/-- How many sources a code reads: none, A, A and B, or all three (R250). -/
def uSources (code : Nat) : Nat :=
  match code with
  | 0 => 0
  | 4 => 3
  | 17 => 3
  | 7 => 1
  | 8 => 1
  | 18 => 1
  | 19 => 1
  | 20 => 1
  | 21 => 1
  | 23 => 1
  | _ => 2

/-- A code takes a type; map is taken by none, VTYPE's type being judged when the pattern runs (R247, R250). -/
def uTakes (code ty : Nat) : Bool :=
  !isMap ty &&
    (match code with
      | 1 => true
      | 2 => true
      | 3 => true
      | 4 => !isRn ty
      | 5 => !isRn ty
      | 6 => !isRn ty
      | 7 => !isRn ty
      | 8 => !isRn ty
      | 12 => isInt ty
      | 13 => isInt ty
      | 14 => !isRn ty
      | 15 => !isRn ty
      | 19 => isFp ty
      | 20 => isFp ty
      | 21 => isFp ty
      | 22 => !isRn ty
      | _ => true)

/-- A selector that R249 accepts. -/
def selectorOk (x : Nat) : Bool :=
  decide (x ≤ 5) || (decide (8 ≤ x) && decide (x ≤ 19)) || decide (x = 31)

/-- A micro-operation reads selector x. -/
def uReads (w x : Nat) : Bool :=
  let n := uSources (uCode w)
  (decide (1 ≤ n) && decide (uA w = x)) || (decide (2 ≤ n) && decide (uB w = x)) ||
    (decide (3 ≤ n) && decide (uC w = x))

/-- A micro-operation the verifier accepts, given the temporaries written so far (R251). -/
def uopOk (written : List Nat) (w : Nat) : Bool :=
  let c := uCode w
  let n := uSources c
  if c = 0 then decide (w = 0)
  else
    decide (c ≤ 23) && decide (uDst w ≤ 10) && (decide (uRm w ≤ 4) || decide (uRm w = 7)) &&
      (if 1 ≤ n then selectorOk (uA w) else decide (uA w = 0)) &&
      (if 2 ≤ n then selectorOk (uB w) else decide (uB w = 0)) &&
      (if 3 ≤ n then selectorOk (uC w) else decide (uC w = 0)) &&
      (upFrom 0 8).all (fun h => !uReads w (8 + h) || written.contains h) &&
      (decide (uType w = 15) || uTakes c (uType w)) && (decide (c ≠ 18) || decide (bitsOf w 4 28 = 0))

/-- The micro-operations of a block, one after another, `end` only as the last (R251). -/
def blockOk (written : List Nat) : List Nat → Bool
  | [] => false
  | [w] => decide (uCode w = 0) && decide (w = 0)
  | w :: x :: r =>
    decide (uCode w ≠ 0) && uopOk written w &&
      blockOk (if uDst w < 8 then uDst w :: written else written) (x :: r)

/-- The verifier accepts a block (R251). -/
def verifies (ws : List Word) : Bool := decide (ws.length ≤ 64) && blockOk [] (ws.map fun w => w.toNat)

/-- Which of o2, o3, p0 and p1 a block reads, as bits 0 to 3 (R251). -/
def blockReads (ws : List Word) : Nat :=
  let has (x : Nat) : Bool := ws.any fun w => uReads w.toNat x
  (if has 2 then 1 else 0) + (if has 3 then 2 else 0) + (if has 4 then 4 else 0) + (if has 5 then 8 else 0)

/-- The binding of a context for a number (R366). -/
def bindingOf (x : Context) (n : Nat) : Option Binding :=
  match mapFind x.binds n with
  | some b => if b.valid then some b else none
  | none => none

/-- The slots of a binding. -/
def bindSlots (b : Binding) : List Nat := upFrom b.off (b.len + 1)

/-- Every slot of the binding carries the context's tag in this store (R247, R366). -/
def patLoaded (c : Core) (ctx : Fin 4096) (b : Binding) : Bool :=
  (bindSlots b).all fun k => match mapFind c.store k with
    | some x => decide (x.ctx = ctx)
    | none => false

/-- The words of a binding as the store holds them. -/
def patWords (c : Core) (b : Binding) : List Nat :=
  (bindSlots b).map fun k => match mapFind c.store k with
    | some x => x.word.toNat
    | none => 0

/-- Some slot of the binding has a parity error (R283). -/
def patBad (c : Core) (b : Binding) : Bool :=
  (bindSlots b).any fun k => match mapFind c.store k with
    | some x => x.bad
    | none => false

/-- The block writes to DST d. -/
def patWrites (ws : List Nat) (d : Nat) : Bool := ws.any fun w => decide (uCode w ≠ 0) && decide (uDst w = d)

/-- A type that every micro-operation reading VTYPE's type accepts (R247). -/
def patTakes (ws : List Nat) (ty : Nat) : Bool :=
  ws.all fun w => decide (uCode w = 0) || decide (uType w ≠ 15) || uTakes (uCode w) ty

/-- A PAT entry whose pattern does not take VTYPE's type: the fault comes before anything is written (R50, R114). -/
def patIllTyped (s : State) (t : Tid) (e : VEntry) : Bool :=
  match e.op with
  | .pat _ _ _ _ n _ _ =>
    (match bindingOf (getCtx s (getThread s t).ctx) n.val with
      | some b => !patBad (ownCore s t) b && !patTakes (patWords (ownCore s t) b) (vtTy e.vtype)
      | none => false)
  | _ => false

/-- What one element of a pattern reads: its number, o0 to o3, p0 and p1, PCARRY at the start of the course, the
mask bit, FILL, VTYPE's type and rounding mode. -/
structure PatIn where
  i : Nat
  o : List Nat
  p : List Nat
  carry : Nat
  bit : Bool
  fill : Nat
  ty : Nat
  rm : Nat
deriving DecidableEq, Repr

/-- What one element of a pattern has made so far. -/
structure PatOut where
  h : List Nat
  elem : Option Nat
  mbit : Option Bool
  carry : Option Nat
  flags : BitVec 7
deriving DecidableEq, Repr

/-- IMM as a source of a micro-operation of type t (R249). -/
def immSource (t imm : Nat) : Res :=
  if scalarSize t ≤ 4 then Res.plain (imm % 2 ^ (8 * scalarSize t))
  else if t = 13 then fpToFp 12 13 0 imm
  else Res.plain (ofSigned 64 (toSigned 32 imm))

/-- What a selector delivers to a micro-operation of type t that reads its sources as type `rd` (R249). -/
def selector (x : PatIn) (st : PatOut) (t rd rm imm k : Nat) : Res :=
  let low (v : Nat) : Res := Res.plain (v % 2 ^ (8 * scalarSize rd))
  if k < 4 then low (x.o.getD k 0)
  else if k < 6 then low (x.p.getD (k - 4) 0)
  else if 8 ≤ k ∧ k < 16 then low (st.h.getD (k - 8) 0)
  else if k = 16 then low x.carry
  else if k = 17 then convert 7 t rm x.fill x.i
  else if k = 18 then low x.fill
  else if k = 19 then convert 7 t rm x.fill (if x.bit then 1 else 0)
  else immSource t imm

/-- Integer fma, abs and neg, which wrap (R250). -/
def intExtra (code ty a b c : Nat) : Res :=
  match code with
  | 4 => Res.plain (intBits ty (intVal ty a * intVal ty b + intVal ty c))
  | 7 => Res.plain (intBits ty (if intVal ty a < 0 then -intVal ty a else intVal ty a))
  | _ => Res.plain (intBits ty (-intVal ty a))

/-- A relation as integer bits (R250). Under rn30 an invalid source reads as R46 gives. -/
def relation (op : CmpOp) (ty fill a b : Nat) : Res :=
  if isFp ty then
    let r := fpCmp op ty a b
    { bits := if r.1 then 1 else 0, flags := r.2, exc := false }
  else if isRn ty then
    let x := rnRead fill a
    let y := rnRead fill b
    { bits := if x.1 = y.1 then 1 else 0, flags := 0, exc := x.2 || y.2 }
  else Res.plain (if intCmp op ty a b then 1 else 0)

/-- One micro-operation on its sources (R250). -/
def uopRun (code ty rm vty imm fill a b c : Nat) : Res :=
  let fp := isFp ty
  let w := BitVec.ofNat 64 fill
  match code with
  | 1 => if fp then fpOp .add ty rm a b 0 else intElem .add ty w a b
  | 2 => if fp then fpOp .sub ty rm a b 0 else intElem .sub ty w a b
  | 3 => if fp then fpOp .mul ty rm a b 0 else intElem .mul ty w a b
  | 4 => if fp then fpOp .fma ty rm a b c else intExtra 4 ty a b c
  | 5 => if fp then fpOp .min ty rm a b 0 else intOp .min ty a b
  | 6 => if fp then fpOp .max ty rm a b 0 else intOp .max ty a b
  | 7 => if fp then absFp (fmtOf ty) a else intExtra 7 ty a 0 0
  | 8 => if fp then negFp (fmtOf ty) a else intExtra 8 ty a 0 0
  | 9 => intOp .and ty a b
  | 10 => intOp .or ty a b
  | 11 => intOp .xor ty a b
  | 12 => intOp .shl ty a b
  | 13 => intOp .shr ty a b
  | 14 => relation .lt ty fill a b
  | 15 => relation .le ty fill a b
  | 16 => relation .eq ty fill a b
  | 17 => Res.plain (if a ≠ 0 then b else c)
  | 18 =>
    let src := if imm % 16 = 15 then vty else imm % 16
    convert src ty rm fill a
  | 19 => fpOp .exp2 ty rm a 0 0
  | 20 => fpOp .rcp ty rm a 0 0
  | 21 => fpOp .rsqrt ty rm a 0 0
  | 22 => if fp then fpOp .div ty rm a b 0 else intOp .div ty a b
  | _ => Res.plain a

/-- The type as which a micro-operation reads its sources: cvt reads its source type, every other code its own
(R249, R250; log 25). -/
def sourceType (code t imm vty : Nat) : Nat :=
  if code = 18 then (if imm % 16 = 15 then vty else imm % 16) else t

/-- The micro-operations of an element in order (R253). -/
def runUops (x : PatIn) : List Nat → PatOut → PatOut
  | [], st => st
  | w :: r, st =>
    let code := uCode w
    if code = 0 then st
    else
      let t := if uType w = 15 then x.ty else uType w
      let rm := if uRm w = 7 then x.rm else uRm w
      let imm := uImm w
      let ts := sourceType code t imm x.ty
      let n := uSources code
      let none := Res.plain 0
      let a := if 1 ≤ n then selector x st t ts rm imm (uA w) else none
      let b := if 2 ≤ n then selector x st t ts rm imm (uB w) else none
      let c := if 3 ≤ n then selector x st t ts rm imm (uC w) else none
      let z := uopRun code t rm x.ty imm x.fill a.bits b.bits c.bits
      let v := z.bits % 2 ^ (8 * scalarSize t)
      let fl := st.flags ||| a.flags ||| b.flags ||| c.flags ||| z.flags
      let d := uDst w
      let st' : PatOut :=
        if d < 8 then { st with h := setAt st.h d v, flags := fl }
        else if d = 8 then { st with elem := some (v % 2 ^ (8 * scalarSize x.ty)), flags := fl }
        else if d = 9 then { st with mbit := some (decide (v ≠ 0)), flags := fl }
        else { st with carry := some v, flags := fl }
      runUops x r st'

/-- An element's state before its first micro-operation: h0 to h7 hold no stated value, and a verified pattern
never reads them so (R251, R253; log 3). -/
def PatOut.start : PatOut :=
  { h := (upFrom 0 8).map fun k => (Config.freeTemp k).toNat, elem := none, mbit := none, carry := none, flags := 0 }

/-- The streams a PAT entry reads: o0 to o3. -/
def patSources (s : State) (t : Tid) (e : VEntry) (a b : Reg) : List Stream :=
  let th := getThread s t
  let c := ownCore s t
  [sourceFor c th e a, sourceFor c th e b, sourceFor c th e 28, sourceFor c th e 29]

/-- The sources a pattern reads at element i touch poison. -/
def patPoison (ws : List Nat) (srcs : List Stream) (sz i : Nat) : Bool :=
  srcs.zipIdx.any fun q => ws.any (fun w => uReads w q.2) && streamBad q.1 sz i

/-- Elements i, i + 1, ... of a course (R253): the state, the entry, and the carry written so far. -/
def patLoop (t : Tid) (ws : List Nat) (srcs : List Stream) (old : Stream) (m : MaskF) (mask : BitVec 4096)
    (p : List Nat) (carry first : Nat) (walls : List (Option Wall)) : Nat → State → VEntry → Option Nat → Nat → State × VEntry × Option Nat
  | 0, s, e, nc, _ => (s, e, nc)
  | n + 1, s, e, nc, i =>
    let sz := entrySize e
    let w8 := patWrites ws 8
    let w9 := patWrites ws 9
    let dflt := fillFor e
    let runs := w9 || mask.getLsbD i
    let bad : Option FaultInfo :=
      (wallFault walls i).orElse fun _ =>
        if (runs && patPoison ws srcs sz i) || (!runs && w8 && streamBad old sz i) then some (poisonFault i) else none
    match bad with
    | some f =>
      (s, (match if w8 then orExhausted (ownCore s t) (threadOf t) e sz i f else none with
        | some a => allocFail e a i first
        | none => failWith e { f with start := first }), nc)
    | none =>
      let x : PatIn :=
        { i := i, o := srcs.map fun st => streamElem st dflt sz i, p := p, carry := carry, bit := mask.getLsbD i
          fill := e.fill.toNat, ty := vtTy e.vtype, rm := vtRm e.vtype }
      let r := if runs then runUops x ws PatOut.start else PatOut.start
      let s1 :=
        match r.mbit with
        | some b => updThread s t fun th => setMaskBit th m.val i b
        | none => s
      let e1 := { e with flags := e.flags ||| r.flags, prog := i + 1, stalled := false }
      let nc' := r.carry.orElse fun _ => nc
      if w8 then
        let v := if runs then r.elem.getD 0 else streamElem old dflt sz i
        match appendElem (ownCore s1 t) (threadOf t) e.budget e1.part sz v with
        | .error a => (s1, allocFail e1 a i first, nc')
        | .ok (c, d) =>
          patLoop t ws srcs old m mask p carry first walls n (putOwnCore s1 t c) { e1 with part := d } nc' (i + 1)
      else patLoop t ws srcs old m mask p carry first walls n s1 e1 nc' (i + 1)

/-- The walls in the way of a pattern: the sources that it reads where it runs, its old destination where it does not (R384). -/
def patWalls (ws : List Nat) (srcs : List Stream) (old : Stream) (mask : BitVec 4096) (sz n : Nat) : List (Option Wall) :=
  let runs (i : Nat) : Bool := patWrites ws 9 || mask.getLsbD i
  (srcs.zipIdx.map fun q => if ws.any fun w => uReads w q.2 then wallOf q.1 sz 0 n runs else none) ++
    [if patWrites ws 8 then wallOf old sz 0 n fun i => !runs i else none]

/-- One course of a PAT entry: the whole course, or nothing of it (R253, R283, R284). -/
def patCourse (s : State) (t : Tid) (e : VEntry) (a b : Reg) (m : MaskF) (n : Fin 32) (p0 p1 : Word) :
    State × VEntry :=
  let th := getThread s t
  let c := ownCore s t
  match bindingOf (getCtx s th.ctx) n.val with
  | none => (s, failWith e { cause := 0x0C, elem := e.prog, info := n.val, start := e.prog })
  | some bd =>
    let ws := patWords c bd
    let sz := entrySize e
    let len := courseLen sz
    let first := e.prog / len * len
    if patBad c bd then
      (s, failWith e { cause := 0x0C, elem := first, info := n.val + 256, start := first })
    else if e.vl ≤ first then
      (if patWrites ws 9 then updThread s t fun x => clearAbove x m.val e.vl else s, finish e)
    else
      let mask := match e.snap with
        | st :: _ => BitVec.ofNat 4096 st.val
        | [] => maskOf th m.val
      let keep : List Stream := [{ val := mask.toNat, len := 0, bad := [] }]
      let old := streamOf c e.old
      let srcs := patSources s t e a b
      let r := patLoop t ws srcs old m mask [p0.toNat, p1.toNat] th.pcarry.toNat first (patWalls ws srcs old mask sz e.vl)
        (min len (e.vl - first)) s e none first
      let e' := r.2.1
      match e'.fault with
      | some f => (s, failWith e f)
      | none =>
        if e'.stalled then (s, { e with stalled := true })
        else
          let s1 :=
            match r.2.2 with
            | some v => updThread r.1 t fun x => { x with pcarry := BitVec.ofNat 64 v }
            | none => r.1
          let e2 := { e' with snap := keep }
          if e.vl ≤ e2.prog then
            (if patWrites ws 9 then updThread s1 t fun x => clearAbove x m.val e.vl else s1, finish e2)
          else (s1, e2)

end Sys2Proof.Machine
end

