-- ==== Sys2Proof/Machine/Course.lean ====
section
/-!
DEFINITION. The life of a vector entry (R264, R265): when it may go on, one course of it, as the oldest or before earlier
ones are done (R265, R272, R291), its completion (R58, R71, R73, R87, R264), its fault (R271, R272, R275) and its
resumption (R276, R278).
-/

namespace Sys2Proof.Machine

/-- The bits of a descriptor (R65). -/
def descBits (d : Desc) : Word :=
  if d.len = 0 then BitVec.ofNat 64 (2 ^ 54)
  else
    BitVec.ofNat 64
      (d.head + 2 ^ 13 * d.tail + 2 ^ 26 * d.len + 2 ^ 46 * d.skip + (if d.excl then 2 ^ 52 else 0) +
        if d.part then 2 ^ 53 else 0)

/-- Some element of a unit or strided form may reach the bytes at a target. -/
def formTouches (s : State) (t : Tid) (e : VEntry) (f : MemForm) (base stride : Word) (k : MKind) (x : Target)
    (n : Nat) : Bool :=
  if f = .indexed ∨ isMap (vtTy e.vtype) = true then true
  else
    (upFrom e.prog (e.vl - e.prog)).any fun i =>
      match resolve s (partyOf s t) (elemAddr f base stride (entrySize e) i 0) (entrySize e) k with
      | .ok y => touches y (entrySize e) x n
      | .error _ => false

/-- A vector memory entry could still touch the bytes at a target (R139). An entry whose addresses come from a
chain or a table counts as one that could (log 2). -/
def mayTouch (s : State) (t : Tid) (e : VEntry) (x : Target) (n : Nat) : Bool :=
  match e.op with
  | .load f _ base stride _ _ _ _ => formTouches s t e f base stride .load x n
  | .store f _ base stride _ _ _ => formTouches s t e f base stride .store x n
  | .stxa _ _ _ _ _ _ => true
  | .clmap _ _ _ _ => true
  | .clmask _ _ _ => true
  | _ => false

/-- An access that later accesses wait for (R143). -/
def isAcquire (a : Access) : Bool := decide (a.order = 1) || decide (a.order = 3)
/-- An access that waits for every earlier access (R143, R262). -/
def isRelease (a : Access) : Bool := decide (a.order = 2) || decide (a.order = 3)
/-- A scalar load. -/
def isLoadAcc (a : Access) : Bool := match a.kind with
  | .ld _ => true
  | _ => false

/-- The pieces of memory that a vector memory entry accesses. -/
def entryPieces (s : State) (t : Tid) (e : VEntry) : List (Target × Nat) :=
  let si (r : Reg) : Stream := sourceFor (ownCore s t) (getThread s t) e r
  let sz := entrySize e
  let mapAt (va : Word) : List (Target × Nat) := elemTargets s (partyOf s t) .load (vtTy e.vtype) sz va
  match e.op with
  | .load f _ base stride idx m _ _ => (accessPieces s t e .load f base stride (si idx) m).map fun q => q.2
  | .store f _ base stride idx m _ => (accessPieces s t e .store f base stride (si idx) m).map fun q => q.2
  | .stxa _ base idx m _ _ => (accessPieces s t e .both .indexed base 0 (si idx) m).map fun q => q.2
  | .clmap _ a base bound =>
    (upFrom 0 e.vl).flatMap fun i =>
      match readIndex e (si a) i i with
      | .ok j => if bound.toNat ≤ j then [] else mapAt (base + BitVec.ofNat 64 (j * sz))
      | .error _ => []
  | .clmask _ base _ => (upFrom 0 e.vl).flatMap fun i => mapAt (base + BitVec.ofNat 64 (i * sz))
  | _ => []

/-- Two targets lie in the memory of one peer. -/
def samePeer (x y : Target) : Bool :=
  match x, y with
  | .peer p _ _, .peer q _ _ => decide (p = q)
  | _, _ => false

/-- Some of these pieces lie in the peer's memory in which a target lies. -/
def reachesPeer (l : List (Target × Nat)) (x : Target) : Bool := l.any fun q => samePeer q.1 x

/-- Two accesses touch common bytes. -/
def overlaps (a b : Access) : Bool := touches a.tgt a.size b.tgt b.size

/-- An earlier access of the thread to one peer in its class comes first, loads among them: a peer receives a thread's
accesses of one class in order (R372). -/
def heldByPeer (a b : Access) : Bool := samePeer a.tgt b.tgt && decide (a.cls = b.cls)

/-- An earlier scalar access of the thread holds this one back (R139, R143, R291). -/
def heldByAccess (a b : Access) : Bool :=
  isAcquire b || isRelease a || overlaps a b || (!isLoadAcc a && decide (a.cls = b.cls)) || heldByPeer a b

/-- clmask above 1,024 elements needs power leave (R154, R244, R281). -/
def needsLeave (th : Thread) (e : VEntry) : Bool :=
  match e.op with
  | .clmask _ _ _ => decide (1024 < e.vl) && !bitAt th.leaveKinds 2
  | _ => false

/-- Ask for what a clmask needs; the answer says whether it may run. -/
def clmaskLeave (s : State) (t : Tid) (e : VEntry) : State × Bool :=
  if needsLeave (getThread s t) e then
    let r := askLeave (getCluster s (clusterOf t)) (.clmask t) 1
    (putCluster s (clusterOf t) r.1, r.2)
  else (s, true)

/-- A clmask returns its leave. -/
def dropLeave (s : State) (t : Tid) (e : VEntry) : State :=
  match e.op with
  | .clmask _ _ _ => updCluster s (clusterOf t) fun c => returnLeave c (.clmask t)
  | _ => s

/-- The entry builds a fresh chain: a pattern does only when it writes DST 8 (R73, R253). -/
def buildsChain (s : State) (t : Tid) (e : VEntry) : Bool :=
  match e.op with
  | .pat _ _ _ _ n _ _ =>
    (match bindingOf (getCtx s (getThread s t).ctx) n.val with
      | some b => patWrites (patWords (ownCore s t) b) 8
      | none => false)
  | op => isFresh op

/-- The ill-formed type fault (R114, R167): at the starting index, nothing written. -/
def illTypeFault (e : VEntry) : FaultInfo := { cause := 0x03, elem := e.prog, info := e.vtype, start := e.prog }

/-- The entry takes its place: its destination's chain becomes the one it holds until completion (R73). -/
def beginEntry (s : State) (t : Tid) (e : VEntry) : State × VEntry :=
  if e.begun then (s, e)
  else if buildsChain s t e then
    match destOf e.op with
    | some d =>
      let ch := (getThread s t).v[d.val]
      (updThread s t fun th => { th with v := th.v.set d.val Desc.empty }, { e with begun := true, old := ch })
    | none => (s, e)
  else
    match e.op with
    | .pat _ _ _ _ _ _ _ => (s, { e with writes := false })
    | _ => (s, e)

/-- Bit i of a compare's mask (R174). -/
def cmpGen (th : Thread) (e : VEntry) (op : CmpOp) (sa : Stream) (sb : Second) (m : MaskF) (i : Nat) :
    Except FaultInfo (Bool × BitVec 7 × Option (Word × Nat)) :=
  if mbit th m.val i then
    andThen (readElem e sa i i) fun v =>
      andThen (readSecond e sb i) fun w =>
        let r := cmpElem op (vtTy e.vtype) e.fill.toNat v w
        .ok (r.1, r.2, none)
  else .ok (false, 0, none)

/-- Bit i of a clmask (R244). -/
def clmaskGen (s : State) (t : Tid) (e : VEntry) (base q : Word) (i : Nat) :
    Except FaultInfo (Bool × BitVec 7 × Option (Word × Nat)) :=
  let sz := entrySize e
  match readMap s (partyOf s t) e.clrec sz (base + BitVec.ofNat 64 (i * sz)) with
  | .error f => .error (atIndex f i)
  | .ok (v, x) =>
    let q' := q.toNat % 512
    let hit := clDv e.clrec && (decide (clS e.clrec ≤ q') || decide (mapByte e.clrec v q' = clD e.clrec))
    .ok (!hit, 0, x)

/-- A free: the chain is released and the register empty (R201). -/
def freeRun (s : State) (t : Tid) (e : VEntry) (a : Reg) : State × VEntry :=
  let ch := (getThread s t).v[a.val]
  (updThread (putOwnCore s t (release (ownCore s t) ch)) t fun th => { th with v := th.v.set a.val Desc.empty },
    finish e)

/-- clcomp: one map and its status word (R244, R245). Its result needs a leaf at element 0, before the poison of any element
(R358). -/
def clcompCourse (s : State) (t : Tid) (e : VEntry) (a : Reg) : State × VEntry :=
  let th := getThread s t
  match mapItems e (sourceFor (ownCore s t) th e a) 0 e.vl with
  | .error f =>
    (match orExhausted (ownCore s t) (threadOf t) e (entrySize e) 0 f with
      | some x => (s, allocFail e x 0 0)
      | none => (s, failWith e f))
  | .ok l =>
    let r := clcompOf e.clrec l
    match appendElem (ownCore s t) (threadOf t) e.budget e.part (entrySize e) r.1 with
    | .error x => (s, allocFail e x 0 0)
    | .ok (c, d) =>
      (putOwnCore s t c, finish { e with part := d, prog := 1, gres := BitVec.ofNat 64 r.2 })

/-- One course of the oldest entry, by its operation. -/
def courseOf (s : State) (t : Tid) (e : VEntry) : State × VEntry :=
  let th := getThread s t
  let c := ownCore s t
  match e.op with
  | .setM46 n => (updThread s t fun x => { x with m := x.m.set 46 (lowBits n) }, finish e)
  | .cmp op md a b m =>
    let sa := sourceFor c th e a
    let sb := secondFor c th e b
    let walls := [wallOf sa (entrySize e) 0 e.vl (mbit th m.val), wallSecond sb (entrySize e) e.vl (mbit th m.val)]
    maskCourse s t e md.val (entrySize e) fun i => wallFirst (wallFault walls i) (cmpGen th e op sa sb m i)
  | .red op _ a g m => (s, redRun s t e op a g m)
  | .extr _ a i => (s, extrRun s t e a i)
  | .put d i w => putRun s t e d i w
  | .upd add d a b m => updRun s t e add d a b m
  | .mask op md ma mb =>
    (updThread s t fun x => setMask x md.val (maskLogic op (maskOf th ma.val) (maskOf th mb.val) &&& lowBits e.vl),
      finish e)
  | .mpopc _ ma =>
    (s, scalarResult e (BitVec.ofNat 64 (popcount 4096 (maskOf th ma.val &&& lowBits e.vl).toNat)) 0)
  | .mfirst _ ma =>
    let n := trailingZeros 4096 (maskOf th ma.val &&& lowBits e.vl).toNat
    (s, scalarResult e (if n < 4096 then BitVec.ofNat 64 n else BitVec.allOnes 64) 0)
  | .mtos _ ma i => (s, scalarResult e ((maskOf th ma.val).extractLsb' (64 * (i.toNat % 64)) 64) 0)
  | .stom md w i => (updThread s t fun x => setMask x md.val (stomOf (maskOf x md.val) w i), finish e)
  | .mset md lo n => (updThread s t fun x => setMask x md.val (msetOf lo n), finish e)
  | .store f v base stride idx m _ => storeCourse s t e f v base stride idx m
  | .stxa v base idx m _ _ => stxaRun s t e v base idx m
  | .share d a => shareRun s t e d a
  | .cat d a b => catRun s t e d a b
  | .trim d a f b => trimRun s t e d a f b
  | .split d a n => splitRun s t e d a n
  | .pack _ a => packCourse s t e a
  | .free a => freeRun s t e a
  | .desc _ a => (s, scalarResult e (descBits th.v[a.val]) 0)
  | .len _ a => (s, scalarResult e (BitVec.ofNat 64 (elemCount (th.v[a.val]).len (entrySize e))) 0)
  | .clcomp _ a _ => clcompCourse s t e a
  | .clmask md base q => maskCourse s t e md.val (entrySize e) (clmaskGen s t e base q)
  | .tbind a k => tbindRun s t e a k
  | .ttgt k => ttgtRun s t e k
  | .twait k => tgetRun s t e none k
  | .tget d k => tgetRun s t e (some d) k
  | .tfree k => tfreeRun s t e k
  | .pat _ a b m n p0 p1 => patCourse s t e a b m n p0 p1
  | .copy o => handOff s t e o
  | _ =>
    let e1 := firstElem s t e
    match planOf s t e1 with
    | some p => freshCourse s t e1 p
    | none => (s, finish e1)

/-- A thread whose vector queue may work. -/
def vectorActive (th : Thread) : Bool := decide (th.tstate = .running)

/-- The mask whose bits [VL, 4096) completion clears: one that was written element by element (R166). -/
def courseMask : VOp → Option MaskF
  | .int _ _ _ _ m x => if x then some m else none
  | .fp _ _ _ _ m x => if x then some m else none
  | .cvt _ _ _ m x => if x then some m else none
  | .scan _ _ _ _ m x => if x then some m else none
  | .cmp _ md _ _ _ => some md
  | .clmask md _ _ => some md
  | _ => none

/-- The size of the elements of a fresh result (R173, R185, R244). -/
def resultSize (e : VEntry) : Nat :=
  match e.op with
  | .cvt _ _ dst _ _ => scalarSize dst
  | .topk _ _ _ _ => 4
  | .clapply _ _ _ => 1
  | .pack _ _ => if vtIll e.vtype then 1 else entrySize e
  | _ => entrySize e

/-- The operation runs a pattern, which reads its mask again from the course it resumes at (R253). -/
def isPat : VOp → Bool
  | .pat _ _ _ _ _ _ _ => true
  | _ => false

/-- A pattern that reads or writes PCARRY, which waits until every earlier entry that uses it is done (R284). -/
def writesCarry (ws : List Nat) : Bool := patWrites ws 10
def readsCarry (ws : List Nat) : Bool := ws.any fun w => uReads w 16
def usesCarry (ws : List Nat) : Bool := writesCarry ws || readsCarry ws

/-- The words of the pattern that an entry runs, as the core's store holds them. -/
def entryWords (s : State) (t : Tid) (e : VEntry) : List Nat :=
  match e.op with
  | .pat _ _ _ _ n _ _ =>
    (match bindingOf (getCtx s (getThread s t).ctx) n.val with
      | some b => patWords (ownCore s t) b
      | none => [])
  | _ => []

/-- An operation of which a course may be done while earlier entries are incomplete: one that leaves its progress at a course
boundary, and is no first-fault load (R265, R272; log 4). -/
def runsEarly (s : State) (t : Tid) (e : VEntry) : Bool :=
  match e.op with
  | .int _ _ _ _ _ _ => true
  | .fp _ _ _ _ _ _ => true
  | .cvt _ _ _ _ _ => true
  | .scan _ _ _ _ _ _ => true
  | .slide _ _ _ _ _ => true
  | .perm _ _ _ _ => true
  | .press _ _ _ => true
  | .rank _ _ => true
  | .bcast _ _ _ => true
  | .topk _ _ _ _ => true
  | .cmp _ _ _ _ _ => true
  | .load _ _ _ _ _ _ _ ff => !ff
  | .store _ _ _ _ _ _ _ => true
  | .clmap _ _ _ _ => true
  | .clscan _ _ => true
  | .clapply _ _ _ => true
  | .pat _ _ _ _ _ _ _ => !patIllTyped s t e && !usesCarry (entryWords s t e)
  | _ => false

/-- The chain registers that an entry writes, or whose chain it moves or changes. -/
def writesRegs (s : State) (t : Tid) (e : VEntry) : List Reg :=
  match e.op with
  | .split d a _ => [d, a]
  | .free a => [a]
  | .put d _ _ => [d]
  | .upd _ d _ _ _ => [d]
  | .pat d _ _ _ _ _ _ => if buildsChain s t e then [d] else []
  | op => (destOf op).toList

/-- The masks an operation reads or writes: a vector memory operation reads m46 too (R204). -/
def usedMasks (op : VOp) : List Nat :=
  (masksOf op).map (fun m => m.val) ++ if isMemory op then [46] else []

/-- The masks an entry writes; m0 takes no write (R62). -/
def changedMasks (s : State) (t : Tid) (e : VEntry) : List Nat :=
  let one (m : MaskF) : List Nat := if m.val = 0 then [] else [m.val]
  match e.op with
  | .setM46 _ => [46]
  | .pat _ _ _ m _ _ _ => if patWrites (entryWords s t e) 9 then one m else []
  | op => (writtenMask op).elim [] one

/-- The entry writes its mask element by element (R166). -/
def maskByElement (e : VEntry) : Bool := (courseMask e.op).isSome || isPat e.op

/-- What a course needs of a chain that an earlier entry writes: some first bytes of it, all of it, or that the entry is complete
(R265). -/
inductive Need where
  | bytes (n : Nat)
  | done
  | complete
deriving DecidableEq, Repr

/-- The chain registers that a course up to element `hi` reads, each with what it needs of its chain: an entry that reads a whole
source before its first output waits for that source's entry to complete (R265), and so do those that read a whole descriptor. `alone` says that no earlier access of the thread is incomplete: else a load needs its indices to be known. -/
def courseReads (s : State) (t : Tid) (e : VEntry) (hi : Nat) (alone : Bool) : List (Reg × Need) :=
  let sz := entrySize e
  let upTo (r : Reg) (z : Nat) : Reg × Need := (r, .bytes (hi * z))
  let second (b : Src) : List (Reg × Need) := (srcRegs b).map fun r => upTo r sz
  let old (d : Reg) (m : MaskF) (z : Nat) : List (Reg × Need) := if m.val = 0 then [] else [upTo d z]
  match e.op with
  | .int _ d a b m x => upTo a sz :: second b ++ if x then [] else old d m sz
  | .fp op d a b m x => upTo a sz :: second b ++ if op = .fma then [upTo d sz] else if x then [] else old d m sz
  | .cvt d a dst m x =>
    upTo a sz :: (if grouped e.vtype then [upTo (a + 1) 2] else []) ++ if x then [] else old d m (scalarSize dst)
  | .scan _ _ a _ _ _ => [upTo a sz]
  | .slide up d a _ m => (if up then upTo a sz else (a, .done)) :: old d m sz
  | .perm d a b m => (a, .complete) :: upTo b 4 :: old d m sz
  | .press _ a _ => [(a, .complete)]
  | .rank d m => old d m sz
  | .bcast d _ m => old d m sz
  | .topk _ a _ _ => [(a, .complete)]
  | .cmp _ _ a b _ => upTo a sz :: second b
  | .load f d _ _ i m _ _ => (if f = .indexed then [if alone then upTo i 4 else (i, .done)] else []) ++ old d m sz
  | .store f v _ _ i _ _ => upTo v sz :: if f = .indexed then [(i, .done)] else []
  | .clmap _ a _ _ => [upTo a 4]
  | .clscan _ a => [(a, .complete)]
  | .clapply _ a _ => [upTo a sz]
  | .red _ _ a _ _ => [(a, .complete)]
  | .extr _ a _ => [(a, .done)]
  | .desc _ a => [(a, .done)]
  | .len _ a => [(a, .done)]
  | .pat d a b m _ _ _ =>
    let ws := entryWords s t e
    (([a, b, 28, 29] : List Reg).zipIdx.filterMap fun q => if ws.any fun w => uReads w q.2 then some (upTo q.1 sz) else none) ++
      if patWrites ws 8 then old d m sz else []
  | _ => []

/-- How many bits of its masks a course up to element `hi` reads: all of them where an operation selects by its whole mask, finds
the later elements of its store, or takes its mask as it begins. -/
def maskNeed (e : VEntry) (hi : Nat) (alone : Bool) : Nat :=
  match e.op with
  | .press _ _ _ => e.vl
  | .topk _ _ _ _ => e.vl
  | .store _ _ _ _ _ _ _ => e.vl
  | .load _ _ _ _ _ _ _ _ => if alone then hi else e.vl
  | .pat _ _ _ _ _ _ _ => e.vl
  | _ => hi

/-- What an earlier entry d writes is there as far as entry e needs it (R265). -/
def chained (s : State) (t : Tid) (d e : VEntry) (reads : List (Reg × Need)) (bits : Nat) : Bool :=
  reads.all (fun r => !(writesRegs s t d).contains r.1 ||
    match r.2 with
    | .bytes n => d.finished || (buildsChain s t d && decide (n ≤ d.part.len))
    | .done => d.finished
    | .complete => false) &&
    (changedMasks s t d).all fun m => !(usedMasks e.op).contains m ||
      (if maskByElement d then decide (bits ≤ d.prog) else d.finished)

/-- The masks that e writes are neither written nor still read by the earlier entry d. -/
def masksApart (s : State) (t : Tid) (d e : VEntry) : Bool :=
  (changedMasks s t e).all fun m => !(changedMasks s t d).contains m && (d.finished || !(usedMasks d.op).contains m)

/-- The chain registers as an entry finds them that follows these: with the results of the entries before it in their places, as
far as those have come. -/
def chainView (s : State) (t : Tid) (ds : List VEntry) (v : Vector Desc 32) : Vector Desc 32 :=
  ds.foldl (fun v d =>
    match destOf d.op with
    | some r => if buildsChain s t d || (d.finished && d.writes && !isPat d.op) then v.set r.val d.part else v
    | none => v) v

/-- The thread as its entry k finds it. -/
def viewAt (s : State) (t : Tid) (k : Nat) : State :=
  updThread s t fun th => { th with v := chainView s t (th.vq.take k) th.v }

/-- The addresses of entry d, the j-th, are known: what its indices and masks come from is done. -/
def addressesKnown (s : State) (t : Tid) (j : Nat) (d : VEntry) : Bool :=
  let idx : List (Reg × Need) := match d.op with
    | .load .indexed _ _ _ i _ _ _ => [(i, .done)]
    | .store .indexed _ _ _ i _ _ => [(i, .done)]
    | .stxa _ _ i _ _ _ => [(i, .done)]
    | .clmap _ a _ _ => [(a, .done)]
    | _ => []
  ((getThread s t).vq.take j).all fun x => chained s t x d idx d.vl

/-- A vector memory entry, the j-th of its queue, and a scalar access of one class go to one peer, which receives a thread's
accesses of one class in order (R372). An entry whose masks or indices are not known yet may go to any (log 100). -/
def peerOrdered (s : State) (t : Tid) (j : Nat) (e : VEntry) (a : Access) : Bool :=
  decide (a.cls = classOf e.op) && samePeer a.tgt a.tgt &&
    (!addressesKnown s t j e || reachesPeer (entryPieces (viewAt s t j) t e) a.tgt)

/-- An earlier scalar access holds a vector memory entry, the j-th, back (R139, R143, R372). -/
def heldByScalar (s : State) (t : Tid) (j : Nat) (e : VEntry) (a : Access) : Bool :=
  decide (a.stamp < e.stamp) &&
    (isAcquire a || (!countsLd e.op && decide (a.cls = classOf e.op)) || mayTouch s t e a.tgt a.size || peerOrdered s t j e a)

/-- The vector memory entries that have not done all their accesses and precede a scalar access, each with its place in the
queue. -/
def earlierMem (th : Thread) (stamp : Nat) : List (VEntry × Nat) :=
  th.vq.zipIdx.filter fun q => isMemory q.1.op && !q.1.finished && decide (q.1.stamp < stamp)

/-- An access that a fence, release or overlap rule does not hold may still wait for the vector entries before it
(R139): a load for those that could touch its bytes; a store or atomic also for those of its class; a release for
all; and any access to a peer for those of its class that go there (R372). -/
def heldByVector (s : State) (t : Tid) (a : Access) : Bool :=
  (earlierMem (getThread s t) a.stamp).any fun q =>
    isRelease a || mayTouch s t q.1 a.tgt a.size || (!isLoadAcc a && decide (classOf q.1.op = a.cls)) || peerOrdered s t q.2 q.1 a

/-- The scalar accesses that the vector queue holds back, and those that wait behind one of them (R139). -/
def heldBack (s : State) (t : Tid) : List Access :=
  (getThread s t).out.foldl (fun l a =>
    if heldByVector s t a || l.any (heldByAccess a) then l ++ [a] else l) []

/-- The scalar accesses that a handler has set aside with the frozen entries that hold them back (R139; log 91). -/
def asideOf (th : Thread) : List Access :=
  match th.frozen with
  | some f => f.out
  | none => []

/-- The outstanding scalar accesses of a thread, those that a handler has set aside included. -/
def allAccesses (th : Thread) : List Access := th.out ++ asideOf th

/-- The vector memory entries that a handler's entry has frozen and that have not done all their accesses. -/
def frozenMem (th : Thread) : List VEntry :=
  match th.frozen with
  | some f => f.vq.filter fun e => isMemory e.op && !e.finished
  | none => []

/-- A frozen entry's accesses come before a scalar access of the handler, which was issued after the entry was pushed: those that
could touch its bytes, that its class or its peer puts first, and for a release all of them (R139, R143, R262, R372; log 40). -/
def behindFrozen (s : State) (t : Tid) (a : Access) : Bool :=
  (frozenMem (getThread s t)).any fun e =>
    isRelease a || mayTouch s t e a.tgt a.size || (decide (a.cls = classOf e.op) && (!isLoadAcc a || samePeer a.tgt a.tgt))

/-- An access that the handler has set aside, or a frozen entry, comes before this one (R139, R143, R372). -/
def behindAside (s : State) (t : Tid) (a : Access) : Bool :=
  (asideOf (getThread s t)).any (heldByAccess a) || behindFrozen s t a

/-- Entry k cannot go on yet: an earlier scalar access orders it. -/
def entryHeld (s : State) (t : Tid) (k : Nat) (e : VEntry) : Bool :=
  isMemory e.op && (getThread s t).out.any (heldByScalar s t k e)

/-- Entry k, of a handler, comes after an access that the handler has set aside: one with bytes in common, or one that R143, its
class or its peer puts first (R139, R372). -/
def entryAside (s : State) (t : Tid) (k : Nat) (e : VEntry) : Bool :=
  isMemory e.op &&
    (asideOf (getThread s t)).any fun a =>
      decide (a.stamp < e.stamp) &&
        (isAcquire a || (!countsLd e.op && decide (a.cls = classOf e.op)) ||
          coveredBy (entryPieces (viewAt s t k) t e) a.tgt a.size || peerOrdered s t k e a)

/-- A handler cannot wait for what it has set aside: an entry that would have to is a fault inside a user handler (R277; log 91),
with no inner fault (log 103). -/
def asideFault (e : VEntry) : FaultInfo := { causeInfo 0x13 0 with start := e.prog }

/-- A course of a memory entry leaves to later loads no value taken early of bytes that the entry may access (R139, R290; log 2). -/
def courseSeen (s : State) (t : Tid) (e : VEntry) : State :=
  if isMemory e.op then updThread s t fun th => { th with early := th.early.filter fun r => !mayTouch s t e r.tgt r.size } else s

/-- The oldest entry begins if it has not, and does one course (R265). Nothing happens when it has finished, has faulted or
is held. -/
def headCourse (s : State) (t : Tid) : State :=
  let th := getThread s t
  match th.vq with
  | [] => s
  | e :: _ =>
    if !vectorActive th || e.finished || e.fault.isSome then s
    else if illFormed e || patIllTyped s t e then setHead s t (failWith e (illTypeFault e))
    else if entryHeld s t 0 e then s
    else if entryAside s t 0 e then setHead s t (failWith e (asideFault e))
    else
      let l := clmaskLeave s t e
      if !l.2 then setHead l.1 t { e with stalled := true }
      else
        let b := beginEntry (courseSeen l.1 t e) t e
        let r := courseOf b.1 t b.2
        setHead r.1 t r.2

/-- A load or a store. -/
def isLoadStore : VOp → Bool
  | .load _ _ _ _ _ _ _ _ => true
  | .store _ _ _ _ _ _ _ => true
  | _ => false

/-- Memory order between two vector entries of a thread, the j-th and the k-th: common bytes, a store after any access of its
class, and accesses of one class to one peer keep program order; nothing else does (R139, R291, R372). -/
def memoryFree (s : State) (t : Tid) (j k : Nat) (d e : VEntry) : Bool :=
  !(isMemory d.op && isMemory e.op) || d.finished ||
    (isLoadStore d.op && isLoadStore e.op && addressesKnown s t j d &&
      !(countsSt e.op && decide (classOf d.op = classOf e.op)) &&
      let ps := entryPieces (viewAt s t j) t d
      (entryPieces (viewAt s t k) t e).all fun q =>
        !coveredBy ps q.1 q.2 && !(decide (classOf d.op = classOf e.op) && reachesPeer ps q.1))

/-- An earlier entry that is not done lets a later one go ahead only if it goes element by element itself, or takes no leaf, moves
no chain and waits for nobody else, and while it does not wait for a leaf, which it has asked for first (R274): the results are
those of one entry at a time (R265; log 4). -/
def letsPass (s : State) (t : Tid) (d : VEntry) : Bool :=
  d.finished || !d.stalled && (runsEarly s t d ||
    match d.op with
    | .setM46 _ => true
    | .red _ _ _ _ _ => true
    | .extr _ _ _ => true
    | .mask _ _ _ _ => true
    | .mpopc _ _ => true
    | .mfirst _ _ => true
    | .mtos _ _ _ => true
    | .stom _ _ _ => true
    | .mset _ _ _ => true
    | .desc _ _ => true
    | .len _ _ => true
    | .pat _ _ _ _ _ _ _ => true
    | _ => false)

/-- A csrr of LHELD waits for its value, which reflects no later entry (R87), so that later entries take no leaf yet. -/
def lheldAwaited (th : Thread) (e : VEntry) : Bool :=
  th.rq.any fun x => decide (x.csr = some 0x006) && x.val.isNone && decide (x.stamp ≤ e.stamp)

/-- The entries before the k-th have done what its next course, or all it does at once, needs of them (R265). -/
def sourcesReady (s : State) (t : Tid) (k : Nat) (e : VEntry) : Bool :=
  let ds := (getThread s t).vq.take k
  let alone := ds.all fun d => !isMemory d.op || d.finished
  let hi := if runsEarly s t e then min (e.prog + courseLen (resultSize e)) e.vl else e.vl
  ds.zipIdx.all fun q =>
    chained s t q.1 e (courseReads s t e hi alone) (maskNeed e hi alone) && memoryFree s t q.2 k q.1 e

/-- PCARRY lets entry j start: no entry that it waits for, which is each that uses PCARRY before one that writes it, and each that
writes it before one that reads it, is still to complete (R284). -/
def carryFree (s : State) (t : Tid) (j : Nat) (d : VEntry) : Bool :=
  let ws := entryWords s t d
  ((getThread s t).vq.take j).all fun x =>
    let us := entryWords s t x
    !(writesCarry ws && usesCarry us) && !(readsCarry ws && writesCarry us)

/-- Entry j has started: it has done a course, or nothing that it needs keeps it from its first (R264, R265, R284). -/
def started (s : State) (t : Tid) (j : Nat) (d : VEntry) : Bool :=
  d.finished || decide (0 < d.prog) || (!entryHeld s t j d && sourcesReady s t j d && carryFree s t j d)

/-- The entries before the k-th let it do its next course: what it needs of them is done (R265), and it does not start before one
of them, since entries start in queue order (R264). -/
def mayChain (s : State) (t : Tid) (k : Nat) (e : VEntry) : Bool :=
  !(lheldAwaited (getThread s t) e && (destOf e.op).isSome) && sourcesReady s t k e &&
    ((getThread s t).vq.take k).zipIdx.all fun q =>
      letsPass s t q.1 && masksApart s t q.1 e && (decide (0 < e.prog) || started s t q.2 q.1)

/-- A later entry with what its merges read: the chain that its destination holds. -/
def borrowOld (th : Thread) (e : VEntry) : VEntry :=
  match destOf e.op with
  | some d => { e with old := th.v[d.val] }
  | none => e

/-- Put entry k of a thread back. -/
def setEntry (s : State) (t : Tid) (k : Nat) (e : VEntry) : State :=
  updThread s t fun th => { th with vq := setAt th.vq k e }

/-- One course of a later entry, when what it reads of the entries before it is there (R265, R272). It takes no destination
before it is the oldest; a course in which it would fault or wait is left until then. -/
def earlyCourse (s : State) (t : Tid) (k : Nat) : State :=
  let th := getThread s t
  match th.vq[k]? with
  | none => s
  | some e =>
    if !vectorActive th || e.finished || !runsEarly s t e || illFormed e || entryHeld s t k e || entryAside s t k e ||
        !mayChain s t k e then s
    else
      let s0 := viewAt (courseSeen s t e) t k
      let r := courseOf s0 t (borrowOld (getThread s0 t) e)
      if r.2.fault.isSome || r.2.stalled then s
      else setEntry (updThread r.1 t fun x => { x with v := th.v }) t k { r.2 with old := e.old }

/-- VECTOR_COURSE: one course of entry k of a thread's queue, 0 being the oldest (R265). -/
def courseStep (s : State) (t : Tid) (k : Nat) : State := if k = 0 then headCourse s t else earlyCourse s t k

/-- A finished chain as a register takes it: PARTIAL clear, EXCL by R71. -/
def sealDesc (c : Core) (keep : Bool) (d : Desc) : Desc :=
  if d.len = 0 then Desc.empty else { d with part := false, excl := if keep then d.excl else exclOf c d }

/-- Write the destination and release the chains held (R71, R73, R276). -/
def writeDest (s : State) (t : Tid) (e : VEntry) : State :=
  match destOf e.op with
  | none => s
  | some d =>
    if !(e.begun && e.writes) then s
    else
      let c := ownCore s t
      let r := sealDesc c e.keepExcl e.part
      let c' := e.extra.foldl release (release c e.old)
      updThread (putOwnCore s t c') t fun th => { th with v := th.v.set d.val r }

/-- Give the entry's scalar result to its place in the read queue (R158). -/
def giveResult (rq : List RqItem) (stamp : Nat) (w : Word) : List RqItem :=
  rq.map fun x => if x.stamp = stamp then { x with val := some w } else x

/-- What completion does to the thread's record (R58, R63, R87, R161, R264, R268). -/
def completeThread (th : Thread) (e : VEntry) : Thread :=
  let th1 := match courseMask e.op with
    | some m => clearAbove th m.val e.vl
    | none => th
  let rq := addBase th1.rq e.stamp e.flags
  { th1 with
    fflags := th1.fflags ||| e.flags
    rq := if (gdestOf e.op).isSome then giveResult rq e.stamp e.gres else rq
    vstart := if e.inHandler then th1.vstart else 0
    vl := if isFf e.op then e.vl else th1.vl
    vcp := th1.vcp + 1
    vq := th1.vq.drop 1 }

/-- VECTOR_ENTRY_COMPLETE (R264): the oldest entry, which takes its place now if it did its work before it was the
oldest. -/
def completeStep (s : State) (t : Tid) : State :=
  let th := getThread s t
  match th.vq with
  | [] => s
  | e :: _ =>
    if !vectorActive th || !e.finished then s
    else
      let b := beginEntry s t e
      let s1 := dropLeave (writeDest b.1 t b.2) t e
      settleQueue (updThread s1 t fun x => carryForth (completeThread x e)) t

/-- READ_QUEUE_RETURN: the oldest value, once there, goes to its register (R158, R267). -/
def returnStep (s : State) (t : Tid) : State :=
  let th := getThread s t
  match th.rq with
  | [] => s
  | x :: r =>
    match x.val with
    | none => s
    | some w => putThread s t { writeG th x.reg w with rq := r }

/-- The destination as a fault leaves it: the partial chain, marked PARTIAL (R275). -/
def faultDest (s : State) (t : Tid) (e : VEntry) : State × VEntry :=
  match destOf e.op with
  | none => (s, e)
  | some d =>
    if !(e.begun && isFresh e.op) then (s, e)
    else
      let p := if e.part.len = 0 then Desc.empty else { e.part with part := true, excl := true }
      (updThread s t fun th => { th with v := th.v.set d.val p }, { e with part := Desc.empty })

/-- A handler's entry sets aside the scalar accesses that the frozen entries hold back: they stay behind those (R139, R277). -/
def setAside (s : State) (t : Tid) (held : List Access) : State :=
  updThread s t fun th =>
    match th.frozen with
    | none => th
    | some f => { th with frozen := some { f with out := held }, out := th.out.filter fun a => !held.contains a }

/-- VECTOR_FAULT_REPORT: the oldest entry's fault stops the scalar stream and is reported (R271, R272, R275). XRET is the pc at which
it stopped, also where that is not sign-extended from bit 51 as XPC is (R146, R150; DESIGN CHOICE, log 124). -/
def vectorFaultStep (s : State) (t : Tid) : State :=
  let th := getThread s t
  match th.vq with
  | [] => s
  | e :: _ =>
    if !vectorActive th then s
    else
      match e.fault with
      | none => s
      | some f =>
        let d := faultDest (dropLeave s t e) t e
        let s1 := setHead d.1 t { d.2 with fault := none, flags := 0, stalled := false }
        let s2 := updThread s1 t fun x =>
          { x with fflags := x.fflags ||| e.flags, rq := addBase x.rq e.stamp e.flags }
        let s3 := takeFault s2 t f (some (e.pc, th.vq.length)) th.pc th.pc
        if inHandler th then s3 else setAside s3 t (heldBack s t)

/-- A pattern entry that is resumed reads its mask again (R253, R278). -/
def maskAfresh (e : VEntry) : VEntry := if isPat e.op then { e with snap := [] } else e

/-- The oldest entry takes its starting index from its destination, or from VSTART (R276, R278). -/
def resumeHead (s : State) (t : Tid) : State :=
  let th := getThread s t
  match th.vq with
  | [] => s
  | e :: _ =>
    let e0 := { maskAfresh e with fault := none, stalled := false }
    if e.begun && isFresh e.op then
      match destOf e.op with
      | none => s
      | some d =>
        let ch := th.v[d.val]
        let s1 := updThread s t fun x => { x with v := x.v.set d.val Desc.empty }
        if ch.part && ch.excl then
          setHead s1 t { e0 with part := { ch with part := false }, prog := elemCount ch.len (resultSize e) }
        else
          setHead s1 t
            { e0 with part := Desc.empty, prog := 0, extra := if ch.len = 0 then e.extra else e.extra ++ [ch] }
    else setHead s t { e0 with prog := th.vstart.toNat }

end Sys2Proof.Machine
end

