-- ==== Sys2Proof/Machine/Copy.lean ====
section
/-!
DEFINITION. Copies (R212 to R219): the shape and pitch registers, the test of a descriptor at push, the engine's
accesses with their error responses (R217), one row or one counter addition at a time, and completion.
-/

namespace Sys2Proof.Machine

/-- ROWS (R213). -/
def copyRows (o : CopyOp) : Nat := bitsOf o.shape.toNat 0 16
/-- WIDTH (R213). -/
def copyWidth (o : CopyOp) : Nat := bitsOf o.shape.toNat 16 16
/-- SWZ (R213). -/
def copySwz (o : CopyOp) : Nat := bitsOf o.shape.toNat 32 3
/-- SPITCH (R213). -/
def copySpitch (o : CopyOp) : Nat := bitsOf o.pitch.toNat 32 32
/-- DPITCH (R213). For cpys this is the table's pitch, as R216 computes it (log 26). -/
def copyDpitch (o : CopyOp) : Nat := bitsOf o.pitch.toNat 0 32

/-- An address lies in the scratchpad window (R137, R214). -/
def inWindow (base : Nat) (va : Word) : Bool := decide (base ≤ va.toNat) && decide (va.toNat < base + Config.windowBytes)

/-- The form has a source side. -/
def copyReads (k : CopyKind) : Bool := decide (k ≠ .cpyf)

/-- The destination is a scratchpad side (R214). -/
def dstSide (base : Nat) (o : CopyOp) : Bool := decide (o.kind ≠ .cpys) && inWindow base o.dst
/-- The source is a scratchpad side (R214). -/
def srcSide (base : Nat) (o : CopyOp) : Bool :=
  (decide (o.kind = .cpy) || decide (o.kind = .cpys)) && inWindow base o.src

/-- The swizzle of the destination (R214, R215). -/
def dstSwz (base : Nat) (o : CopyOp) : Nat := if dstSide base o then copySwz o else 0
/-- The swizzle of the source: on cpy only when the destination is no scratchpad side (R214). -/
def srcSwz (base : Nat) (o : CopyOp) : Nat := if srcSide base o && !dstSide base o then copySwz o else 0

/-- The segments of row r of a side: address, first byte of the row, bytes (R215). -/
def rowSegs (base : Word) (pitch r width swz : Nat) : List (Word × Nat × Nat) :=
  let row := base + BitVec.ofNat 64 (r * pitch)
  if swz = 0 then [(row, 0, width)]
  else
    let g := if swz = 1 then 8 else 16
    (upFrom 0 (width / 16)).map fun c => (row + BitVec.ofNat 64 (16 * (c ^^^ (r % g))), 16 * c, 16)

/-- The rows that hold the lowest and the highest bytes of a side. -/
def edgeRows (rows : Nat) : List Nat := upFrom 0 (min rows 16) ++ upFrom (rows - min rows 16) (min rows 16)

/-- Some byte of a side lies outside the window (R214). -/
def sideOutside (base : Nat) (b : Word) (pitch rows width swz : Nat) : Bool :=
  (edgeRows rows).any fun r =>
    (rowSegs b pitch r width swz).any fun g =>
      decide (g.2.2 ≠ 0) && (decide (g.1.toNat < base) || decide (base + Config.windowBytes < g.1.toNat + g.2.2))

/-- The tests of R214 in their order: the number of the first that fails. -/
def copyTest (base : Nat) (o : CopyOp) : Option Nat :=
  let rows := copyRows o
  let width := copyWidth o
  let swz := copySwz o
  let ds := dstSide base o
  let ss := srcSide base o
  let side : Word × Nat := if ds then (o.dst, copyDpitch o) else (o.src, copySpitch o)
  if bitsOf o.shape.toNat 35 29 ≠ 0 ∨ 3 ≤ swz then some 1
  else if swz ≠ 0 ∧ ((!ds && !ss) || decide (side.2 < (if swz = 1 then 128 else 256)) || decide (side.2 % 16 ≠ 0) ||
      decide (width % 16 ≠ 0) || decide (side.1.toNat % 16 ≠ 0)) = true then some 2
  else if rows ≠ 0 ∧ width = 0 then some 3
  else if ((ds || decide (o.kind = .cpyg)) && sideOutside base o.dst (copyDpitch o) rows width (dstSwz base o)) ||
      ((ss || decide (o.kind = .cpys)) && sideOutside base o.src (copySpitch o) rows width (srcSwz base o)) then some 4
  else
    match o.ctr with
    | some a => if a.toNat % 8 ≠ 0 then some 5 else none
    | none => none

/-- Copy descriptor invalid (R214). -/
def copyFault (base : Nat) (o : CopyOp) : Option FaultInfo := (copyTest base o).map (causeInfo 0x11)

/-- The code of an engine's error response (R217, R361). -/
def engineCode (s : State) (p : Party) (va : Word) (k : MKind) (cause : Nat) : Nat :=
  if cause = 0x06 then 5
  else if cause = 0x07 then
    (if k = .load then 6
     else
       match findPage s p (va.toNat % 2 ^ 52) with
       | some (e, _) => if pteX e then 9 else 6
       | none => 6)
  else if cause = 0x09 then 7 else 8

/-- An engine acting for a thread: as which party, for whom, and as what source. -/
structure Engine where
  party : Party
  owner : Tid
  source : LogSource
deriving DecidableEq, Repr

/-- The error response to an engine (R217): logged, and VIOL of the issuing thread set. -/
def engineError (s : State) (g : Engine) (va : Word) (code : Nat) : State :=
  setViol (logViolation s g.party.ctx g.source va code) g.owner

/-- How far a piece of an access reaches: to the end of its page, and to the declared bound of a scratchpad (R217). A piece
is what one error response covers: it fails whole, and is logged once, at its first address (log 67). -/
def pieceLen (s : State) (g : Engine) (va : Word) (n : Nat) : Nat :=
  let base := (getCtx s g.party.ctx).spbase.toNat
  let c := min n (4096 - va.toNat % 4096)
  if inWindow base va then
    let off := (va.toNat - base) % Config.spadBytes
    let lim := spadLimit s g.party.launch
    if off < lim ∧ lim < off + c then lim - off else min c (Config.spadBytes - off)
  else c

/-- An engine's read of n bytes from va, with a default for bytes that fail (R217). -/
def engineRead (g : Engine) (dflt : Nat) : Nat → State → Word → Nat → State × Nat
  | 0, s, _, _ => (s, 0)
  | fuel + 1, s, va, n =>
    if n = 0 then (s, 0)
    else
      let c := pieceLen s g va n
      let bad : Nat := (upFrom 0 c).foldl (fun acc i => acc + dflt * 2 ^ (8 * i)) 0
      let x : State × Nat :=
        match resolve s g.party va c .load with
        | .error f => (engineError s g va (engineCode s g.party va .load f.cause), bad)
        | .ok (.violation k) => (engineError s g va k, bad)
        | .ok t => if tgtPoison s t c then (engineError s g va 8, bad) else (s, tgtRead s t c)
      let r := engineRead g dflt fuel x.1 (va + BitVec.ofNat 64 c) (n - c)
      (r.1, x.2 + 2 ^ (8 * c) * r.2)

/-- Where an engine's write of n bytes at va leads, piece by piece; a piece that gets an error response leads nowhere. -/
def rowPieces (s : State) (g : Engine) : Nat → Word → Nat → List (Target × Nat)
  | 0, _, _ => []
  | fuel + 1, va, n =>
    if n = 0 then []
    else
      let c := pieceLen s g va n
      let r := rowPieces s g fuel (va + BitVec.ofNat 64 c) (n - c)
      match resolve s g.party va c .store with
      | .ok t => (t, c) :: r
      | .error _ => r

/-- An engine's write of n bytes at va, but for the bytes that later rows write (R216); a failed piece is dropped (R217). -/
def engineWrite (g : Engine) (later : List (Target × Nat)) : Nat → State → Word → Nat → Nat → State
  | 0, s, _, _, _ => s
  | fuel + 1, s, va, n, v =>
    if n = 0 then s
    else
      let c := pieceLen s g va n
      let s1 :=
        match resolve s g.party va c .store with
        | .error f => engineError s g va (engineCode s g.party va .store f.cause)
        | .ok t =>
          match storeTarget s g.party.ctx t va c with
          | .violation k => engineError s g va k
          | tg => writeUnder s tg later c (v % 2 ^ (8 * c))
      engineWrite g later fuel s1 (va + BitVec.ofNat 64 c) (n - c) (v / 2 ^ (8 * c))

/-- Read the segments of a row as one number (R215, R216). -/
def readSegs (g : Engine) (dflt : Nat) : State → List (Word × Nat × Nat) → State × Nat
  | s, [] => (s, 0)
  | s, (va, off, n) :: r =>
    let x := engineRead g dflt (n + 1) s va n
    let y := readSegs g dflt x.1 r
    (y.1, x.2 * 2 ^ (8 * off) + y.2)

/-- Write the segments of a row. -/
def writeSegs (g : Engine) (later : List (Target × Nat)) (v : Nat) : State → List (Word × Nat × Nat) → State
  | s, [] => s
  | s, (va, off, n) :: r =>
    writeSegs g later v (engineWrite g later (n + 1) s va n (bitsOf v (8 * off) (8 * n))) r

/-- The engine of a copy. -/
def copyEngine (cl : Fin 64) (co : Fin 8) (x : Copy) : Engine :=
  { party := { ctx := x.ctx, cl := cl, co := co, launch := some x.launch }
    owner := .vec cl co x.owner
    source := { src := 1, cl := cl, co := co, th := 0, mcc := false } }

/-- Index r of a copy's index chain (R216); none when its leaf is poisoned. -/
def copyIndex (c : Core) (x : Copy) (r : Nat) : Option Nat :=
  let st := streamOf c x.idx
  if streamBad st 4 r then none else some (streamElem st (x.fillw.toNat % 2 ^ 32) 4 r)

/-- Every byte of a row is the fill byte. -/
def fillRow (b : Byte) (width : Nat) : Nat := (upFrom 0 width).foldl (fun acc i => acc + b.toNat * 2 ^ (8 * i)) 0

/-- Where the rows after r of a cpys lead (R216): a piece that gets an error response by its translation leads nowhere, and one that a
serial page refuses still wins its bytes over a lower row (R217; DESIGN CHOICE, log 126). -/
def laterRows (s : State) (g : Engine) (c : Core) (x : Copy) (r : Nat) : List (Target × Nat) :=
  (upFrom (r + 1) (copyRows x.op - (r + 1))).flatMap fun k =>
    match copyIndex c x k with
    | some j =>
      if j < x.op.bound.toNat then
        rowPieces s g (copyWidth x.op + 1) (x.op.dst + BitVec.ofNat 64 (j * copyDpitch x.op)) (copyWidth x.op)
      else []
    | none => []

/-- Move row r of a copy (R215, R216, R217). An index read from a poisoned leaf makes the row a failed read, with
the address of the row's other side in the log (R384; log 27). -/
def copyRowMove (s : State) (cl : Fin 64) (co : Fin 8) (x : Copy) (r : Nat) : State :=
  let o := x.op
  let g := copyEngine cl co x
  let c := getCore s cl co
  let base := (getCtx s x.ctx).spbase.toNat
  let w := copyWidth o
  let out (s1 : State) (v : Nat) : State :=
    writeSegs g [] v s1 (rowSegs o.dst (copyDpitch o) r w (dstSwz base o))
  match o.kind with
  | .cpy =>
    let x := readSegs g 0 s (rowSegs o.src (copySpitch o) r w (srcSwz base o))
    out x.1 x.2
  | .cpyf => out s (fillRow o.fill w)
  | .cpyg =>
    (match copyIndex c x r with
      | none => out (engineError s g o.dst 8) (fillRow o.fill w)
      | some j =>
        if o.bound.toNat ≤ j then out s (fillRow o.fill w)
        else
          let y := readSegs g o.fill.toNat s [(o.src + BitVec.ofNat 64 (j * copySpitch o), 0, w)]
          out y.1 y.2)
  | .cpys =>
    (match copyIndex c x r with
      | none => engineError s g o.src 8
      | some j =>
        if o.bound.toNat ≤ j then s
        else
          let y := readSegs g 0 s (rowSegs o.src (copySpitch o) r w (srcSwz base o))
          writeSegs g (laterRows s g c x r) y.2 y.1 [(o.dst + BitVec.ofNat 64 (j * copyDpitch o), 0, w)])

/-- Add to the counter at its home agent; a failed addition is dropped and logged (R219). -/
def counterAdd (s : State) (g : Engine) (va : Word) (n : Nat) : State :=
  match accessTarget s g.party va 8 8 .both with
  | .error f => engineError s g va (engineCode s g.party va .both f.cause)
  | .ok t =>
    match storeTarget s g.party.ctx t va 8 with
    | .violation k => engineError s g va k
    | tg => tgtWrite s tg 8 ((tgtRead s tg 8 + n) % 2 ^ 64)

/-- A counter addition is due before the next row (R219). -/
def addDue (x : Copy) : Bool :=
  x.op.ctr.isSome && decide (x.added < x.row) &&
    (decide (x.row = copyRows x.op) ||
      ((decide (x.op.kind = .cpyg) || decide (x.op.kind = .cpys)) && decide (x.row % 8 = 0)))

/-- A copy is done (R219). -/
def copyDone (x : Copy) : Bool :=
  decide (copyRows x.op ≤ x.row) && (x.op.ctr.isNone || decide (copyRows x.op ≤ x.added))

/-- A copy needs power leave before it starts, unless its thread holds leave for copies (R212, R281). This is asked before
each row: a copy that went under its thread's leave asks for a unit of its own once the thread has returned that leave
(log 68). -/
def opHeavy (th : Thread) (o : CopyOp) : Bool := decide (4096 < copyRows o * copyWidth o) && !bitAt th.leaveKinds 1
def copyHeavy (th : Thread) (x : Copy) : Bool := opHeavy th x.op

/-- A copy waits for the earlier accesses of its thread in its class (R212), scalar and vector, those that a handler has set aside
and those of entries that it has frozen among them (log 40). -/
def copyHeld (th : Thread) (x : Copy) : Bool :=
  (allAccesses th).any (fun a => decide (a.stamp < x.stamp) && decide (a.cls = x.op.cls)) ||
    (th.vq ++ frozenMem th).any fun e =>
      isMemory e.op && !e.finished && decide (e.stamp < x.stamp) && decide (classOf e.op = x.op.cls)

/-- Put a copy queue of a core. -/
def putCq (s : State) (cl : Fin 64) (co : Fin 8) (q : Fin 4) (l : List Copy) : State :=
  updCore s cl co fun c => { c with cqs := c.cqs.set q.val l }

/-- A copy completes: its share and its leave are returned (R212, R219, R281). -/
def finishCopy (s : State) (cl : Fin 64) (co : Fin 8) (q : Fin 4) : State :=
  match (getCore s cl co).cqs[q.val] with
  | [] => s
  | x :: r =>
    let s1 := updCore s cl co fun c => release { c with cqs := c.cqs.set q.val r } x.idx
    updCluster s1 cl fun k => returnLeave k (.copy co q x.owner)

/-- Ask for a copy's leave; the answer says whether it may go on. -/
def copyLeave (s : State) (cl : Fin 64) (co : Fin 8) (q : Fin 4) (x : Copy) : State × Bool :=
  if copyHeavy (getThread s (.vec cl co x.owner)) x then
    let r := askLeave (getCluster s cl) (.copy co q x.owner) 1
    (putCluster s cl r.1, r.2)
  else (s, true)

/-- COPY_ROW: the copy at the head of a queue makes its due addition or moves its next row, and completes when
nothing is left of it (R216, R219). -/
def copyStep (s : State) (cl : Fin 64) (co : Fin 8) (q : Fin 4) : State :=
  match (getCore s cl co).cqs[q.val] with
  | [] => s
  | x :: r =>
    let g := copyEngine cl co x
    if x.row = 0 ∧ copyHeld (getThread s g.owner) x = true then s
    else
      let l := copyLeave s cl co q x
      if !l.2 then l.1
      else
        let rows := copyRows x.op
        let n : State × Copy :=
          if rows = 0 then
            (match x.op.ctr with
              | some a => counterAdd l.1 g a 0
              | none => l.1, x)
          else if addDue x then
            (match x.op.ctr with
              | some a => counterAdd l.1 g a (x.row - x.added)
              | none => l.1, { x with added := x.row })
          else if x.row < rows then (copyRowMove l.1 cl co x x.row, { x with row := x.row + 1 })
          else (l.1, x)
        let s1 := putCq n.1 cl co q (n.2 :: r)
        if copyDone n.2 then finishCopy s1 cl co q else s1

end Sys2Proof.Machine
end

