-- ==== Sys2Proof/Machine/Push.lean ====
section
/-!
DEFINITION. The outstanding-operation counters (R210, R226, R228) and the push of a vector instruction (R61, R66,
R112, R113, R158, R210, R264, R266, R267).
-/

namespace Sys2Proof.Machine

/-- The vector entries of a thread, frozen ones included. -/
def allEntries (th : Thread) : List VEntry :=
  th.vq ++ (match th.frozen with
    | some f => f.vq
    | none => [])

/-- Outstanding accesses that count in ld (R210, R142, R262). -/
def accCountsLd (a : Access) : Bool := match a.kind with
  | .st => false
  | _ => true

/-- A vector load, or a vector store, of which some access is still to be performed (R210). -/
def owesLd (e : VEntry) : Bool := countsLd e.op && !e.finished
def owesSt (e : VEntry) : Bool := countsSt e.op && !e.finished

/-- The ld counter (R210). -/
def ldCount (th : Thread) : Nat := (allEntries th).countP owesLd + (allAccesses th).countP accCountsLd

/-- The st counter (R210). -/
def stCount (th : Thread) : Nat := (allEntries th).countP owesSt + (allAccesses th).countP fun a => !accCountsLd a

/-- The copies of a thread in its core's queues. -/
def queuedCopies (c : Core) (th : Fin 4) : Nat :=
  (c.cqs.toList.map fun q => q.countP fun x => decide (x.owner = th)).sum

/-- The cp counter (R210, R219); 0 on an MCC (R258). -/
def cpCount (s : State) (t : Tid) : Nat :=
  if isMcc t then 0
  else (allEntries (getThread s t)).countP (fun e => isCopy e.op) + queuedCopies (ownCore s t) (threadOf t)

/-- The tl counter: on a vector core the pushed entries that have not acted on their slots yet, and the slots (R226); on an MCC the
tile-queue entries (R228). -/
def tlCount (s : State) (t : Tid) : Nat :=
  if isMcc t then (getCluster s (clusterOf t)).tq.length
  else
    (allEntries (getThread s t)).countP (fun e => takesSlot e.op && !e.finished) +
      (ownCore s t).slots.toList.countP fun x => decide (x.st ≠ .empty) && decide (x.owner = threadOf t)

/-- A counter that the push of an operation would raise stands at 63 (R210). -/
def counterFull (s : State) (t : Tid) (op : VOp) : Bool :=
  let th := getThread s t
  (countsLd op && decide (Config.counterMax ≤ ldCount th)) ||
    (countsSt op && decide (Config.counterMax ≤ stCount th)) ||
    (isCopy op && decide (Config.counterMax ≤ cpCount s t)) ||
    (takesSlot op && decide (Config.counterMax ≤ tlCount s t))

/-- A .ff load of the thread has not completed (R266). -/
def ffPending (th : Thread) : Bool := th.vq.any fun e => isFf e.op

/-- The queue entry of an operation, with what it captures at push (R61, R264). -/
def entryOf (th : Thread) (op : VOp) : VEntry :=
  { op := op, pc := th.pc, vl := th.vl, vtype := th.vtype, fill := th.fill, xbound := th.xbound
    clmode := th.clmode, clrec := th.clrec, budget := th.budget, stamp := th.nextStamp
    inHandler := inHandler th, begun := false, finished := false, stalled := false, prog := 0
    old := Desc.empty, part := Desc.empty, extra := [], writes := true, keepExcl := false, flags := 0, snap := []
    gres := 0, names := [], bk := bookmarkOf th (classOf op), wrote := [], struck := [], dropped := [], fault := none }

/-- Append an operation to the vector queue, and its result's place to the read queue (R158, R264). -/
def enqueue (th : Thread) (op : VOp) : Thread :=
  { th with
    vq := th.vq ++ [entryOf th op]
    rq := match gdestOf op with
      | some d => th.rq ++ [{ reg := d, val := none, stamp := th.nextStamp, csr := none, base := 0, froze := false }]
      | none => th.rq
    nextStamp := th.nextStamp + 1 }

/-- The queues have room for an operation (R158, R210, R264). In a handler the places of the read queue that frozen entries are to
fill are set aside with them and do not count (DESIGN CHOICE, log 125). -/
def hasRoom (s : State) (t : Tid) (op : VOp) : Bool :=
  let th := getThread s t
  decide (th.vq.length < Config.vqDepth) &&
    ((gdestOf op).isNone || decide (th.rq.length < Config.rqDepth)) && !counterFull s t op

/-- The registers checks of a PAT with its bound pattern (R66, R101, R108). -/
def patRegsOk (th : Thread) (m : MaskF) (reads : Nat) (ws : List Nat) : Bool :=
  (!bitAt reads 0 || regOk th 28) && (!bitAt reads 1 || regOk th 29) &&
    (!patWrites ws 9 || decide (m.val ≠ 46))

/-- The block for a number in the kernel image of a launch (R252). -/
def launchBlock (s : State) (x : Launch) (n : Fin 32) : Option (List Word) :=
  match s.blocks.find? fun b => decide (b.1 = x.ctx) && decide (b.2.1 = x.hdrVa) with
  | some b => (b.2.2.find? fun p => decide (p.1 = n)).map fun p => p.2
  | none => none

/-- The block for a number in the image of the thread's own launch. -/
def ownBlock (s : State) (th : Thread) (n : Fin 32) : Option (List Word) :=
  match th.launch with
  | some l => (getLaunch s l).bind fun x => launchBlock s x n
  | none => none

/-- What a PAT meets at push: no pattern bound, or one bound to the words of another launch's image (R252, R285); a register that
the bound pattern may not name (R66, R247), which comes before a pattern that this core has not loaded (R358); or nothing. -/
def patFault (s : State) (t : Tid) (m : MaskF) (n : Fin 32) : Option FaultInfo :=
  let th := getThread s t
  let c := ownCore s t
  match bindingOf (getCtx s th.ctx) n.val with
  | none => some (causeInfo 0x0C n.val)
  | some b =>
    if !(ownBlock s th n == some b.words) then some (causeInfo 0x0C n.val)
    else if !patRegsOk th m b.reads (b.words.map fun w => w.toNat) then some (causeInfo 0x02 th.ir.toNat)
    else if !patLoaded c th.ctx b then some (causeInfo 0x0C n.val)
    else none

/-- What an operation meets at push beyond its register checks. -/
def pushFault (s : State) (t : Tid) (op : VOp) : Option FaultInfo :=
  match op with
  | .pat _ _ _ m n _ _ => patFault s t m n
  | .copy o => copyFault (getCtx s (getThread s t).ctx).spbase.toNat o
  | _ => none

/-- Run an instruction that may give a g register a value through the read queue, once the registers it reads hold their
values. -/
def withResult (s : State) (d : Option Reg) (gs : List Reg) (k : Thread → Out) : Out :=
  match d with
  | some r => withDest s r gs k
  | none => withRegs s gs k

/-- PUSH A VECTOR INSTRUCTION (R112, R113, R127, R158, R210, R264, R266): `gs` are the g registers it reads, `mk`
gives the operation from the thread's registers. -/
def push (s : State) (len : Nat) (gs : List Reg) (mk : Thread → VOp) : Out :=
  let t := s.cur
  let th := getThread s t
  if isMcc t then illegal s t
  else if !registersOk th (mk th) then illegalReg s t
  else
    withResult s (gdestOf (mk th)) gs fun th =>
      let op := mk th
      if ffPending th then waitFor s t .firstFault
      else
        match pushFault s t op with
        | some f => raise s t f true
        | none => if hasRoom s t op then retire s (enqueue th op) len else stall s

end Sys2Proof.Machine
end

