-- ==== Sys2Proof/Machine/Csr.lean ====
section
/-!
DEFINITION. Access to the user CSRs (R86, R87, R155, R156) and writes of the privileged ones (R349).
-/

namespace Sys2Proof.Machine

/-- The CSRs whose read meets the first-fault stall (R266). -/
def ffStalls (n : Nat) : Bool := decide (n = 0x000) || decide (n = 0x001) || decide (n = 0x003)

/-- The kind of CSR number a kernel thread may name: none, or the fault it raises (R87, R155). -/
def csrFault (th : Thread) (n : Nat) : Option FaultInfo :=
  if n < 0x020 then none
  else if n < 0x800 then some (causeInfo 0x01 th.ir.toNat)
  else some (causeInfo 0x07 n)

/-- The number of a CYC counter: one to a core, and one to an MCC (R269). -/
def cycKey (t : Tid) : Nat := if isMcc t then 512 + (clusterOf t).val else coreKey (clusterOf t) (coreOf t)

/-- CYC moves on by a free number of cycles and is read: 0 at reset, it never runs back, and the threads of a core read one
counter (R269; log 3). -/
def readCyc (s : State) (t : Tid) : State × Word :=
  let x := drawFree s
  let n := mapGet 0 s.cyc (cycKey t) + Config.freeCyc x.1 (cycKey t)
  ({ x.2 with cyc := mapPut s.cyc (cycKey t) n }, BitVec.ofNat 64 n)

/-- A csrr's place in the read queue, with the flags of what has completed so far (R58, R87). -/
def csrItem (th : Thread) (d : Reg) (n : Nat) : RqItem :=
  { reg := d, val := none, stamp := th.nextStamp, csr := some n, base := th.fflags, froze := false }

/-- A csrr that the read queue serves: its value returns when everything before it is done, which may be at once (R87). One into
g0 keeps the thread waiting for its value, which is then discarded (R155). -/
def csrQueued (s : State) (th : Thread) (d : Reg) (n len : Nat) : Out :=
  if Config.rqDepth ≤ th.rq.length then stall s
  else if d = 0 then (if csrDue th (csrItem th 0 n) n then retire s th len else stall s)
  else
    .next (settleQueue (putThread s s.cur
      (advance { th with rq := th.rq ++ [csrItem th d n], nextStamp := th.nextStamp + 1 } len)) s.cur)

/-- Read a user CSR into gd (R87, R155, R156, R269). FFLAGS on an MCC waits for the accesses before it (R58). -/
def csrRead (s : State) (d : Reg) (n : Nat) (len : Nat) : Out :=
  let t := s.cur
  match csrFault (getThread s t) n with
  | some f => raise s t f true
  | none =>
    withDest s d [] fun th =>
      if ffStalls n && ffPending th then waitFor s t .firstFault
      else if servedByQueue n && !isMcc t then csrQueued s th d n len
      else if n = 0x008 ∧ th.out.isEmpty = false then stall s
      else if n = 0x011 then
        let x := readCyc s t
        .next (putThread x.1 t (advance (writeG th d x.2) len))
      else retire s (writeG th d (csrValue s t n)) len

/-- Keep the named bits of a word. -/
def keepBits (w : Word) (mask : Nat) : Word := w &&& BitVec.ofNat 64 mask

/-- LBUD: at most the header's budget; in force at the next vsetl (R82). Bits above [13:0] are ignored before the comparison
(log 69). -/
def writeLbud (th : Thread) (w : Word) : Thread := { th with lbud := min (w.toNat % 2 ^ 14) th.hdrLbud }
/-- FFLAGS (R55, R58). -/
def writeFflags (th : Thread) (w : Word) : Thread := { th with fflags := w.setWidth 7 }
/-- VSTART (R87). -/
def writeVstart (th : Thread) (w : Word) : Thread := { th with vstart := w }
/-- CLMODE (R242). -/
def writeClmode (th : Thread) (w : Word) : Thread := { th with clmode := w.toNat % 2 ^ 19 }

/-- PCARRY. In a handler the frozen entries go on with the value from before its first csrw (R87). -/
def writePcarry (th : Thread) (w : Word) : Thread :=
  { th with pcarry := w
            frozen := th.frozen.map fun f =>
              { f with carry := f.carry.orElse fun _ => some th.pcarry, wrote := true } }

/-- A write of any other user CSR: the writable bits (R5, R86, R357). -/
def writeOther (th : Thread) (n : Nat) (w : Word) : Thread :=
  match n with
  | 0x004 => { th with fill := w }
  | 0x007 => { th with xbound := w }
  | 0x009 => { th with frm := w.setWidth 3 }
  | 0x014 => { th with ufvec := keepBits w (2 ^ 64 - 4) }
  | 0x015 => { th with ufmask := keepBits w 0x4410 }
  | 0x016 => { th with xcause := keepBits w 0x1FFFF }
  | 0x017 => { th with xpc := w }
  | 0x018 => { th with xvpc := w }
  | 0x019 => { th with xqpos := keepBits w 0x7F }
  | 0x01A => { th with xelem := w }
  | 0x01B => { th with xinfo := w }
  | 0x01C => { th with xret := w }
  | _ => th

/-- A write of a user CSR by its number (R155, R156). -/
def csrWritten (t : Tid) (th : Thread) (n : Nat) (w : Word) : Thread :=
  if isMcc t && absentOnMcc n then th
  else
    match n with
    | 0x002 => writeVstart th w
    | 0x005 => writeLbud th w
    | 0x008 => writeFflags th w
    | 0x00A => writePcarry th w
    | 0x00B => writeClmode th w
    | _ => writeOther th n w

/-- The CSRs that earlier vector instructions still write or read: a csrw waits for them (R58, R87; log 5). -/
def writeWaits (n : Nat) : Bool := decide (n = 0x002) || decide (n = 0x008) || decide (n = 0x00A)

/-- What a csrw waits for: the vector instructions that still use the CSR, for FFLAGS also the accesses before it, and a
csrr of the CSR that has no value yet (R58, R87, R127). -/
def writeHeld (th : Thread) (n : Nat) : Bool :=
  (writeWaits n && !th.vq.isEmpty) || (decide (n = 0x008) && !th.out.isEmpty) ||
    th.rq.any fun x => x.val.isNone && decide (x.csr = some n)

/-- Write a user CSR from ga (R155). -/
def csrWrite (s : State) (a : Reg) (n : Nat) (len : Nat) : Out :=
  let t := s.cur
  match csrFault (getThread s t) n with
  | some f => raise s t f true
  | none =>
    withRegs s [a] fun th =>
      if writeHeld th n then stall s
      else retire s (csrWritten t th n (readG th a)) len

/-- PREQ: writing 1 requests pre-emption (R349, R362). -/
def writePreq (th : Thread) (w : Word) : Thread := { th with preq := th.preq || bitAt w.toNat 0 }

/-- TSWP: writing 1 to a bit clears that bit of the TSW on an MCC (R240, R349). -/
def writeTswp (s : State) (t : Tid) (w : Word) : State :=
  if isMcc t then updCluster s (clusterOf t) fun c => { c with tsw := c.tsw &&& ~~~(w.setWidth 8) } else s

/-- A write through the control space to a register without a behaviour of its own (R5, R349). Usilaem sets the device's position
in its pod by a write of COORD, whose DEV field takes it (R17; log 72). -/
def writeRegister (s : State) (t : Tid) (n : Nat) (w : Word) : State :=
  if n = 0x012 then { s with devPos := bitsOf w.toNat 11 8 }
  else if n = 0x800 then updThread s t fun th => { th with ctx := Fin.ofNat 4096 w.toNat }
  else if n = 0x803 then updThread s t fun th => { th with img := w }
  else updThread s t fun th => csrWritten t th n w

end Sys2Proof.Machine
end

