-- ==== Sys2Proof/Machine/Scalar.lean ====
section
/-!
DEFINITION. The scalar integer instructions (R129 to R132), their compressed forms (R91) and the scalar
floating-point instructions (R133 to R135).
-/

namespace Sys2Proof.Machine

/-- Signed comparison of two registers. -/
def ltS (x y : Word) : Bool := decide (x.toInt < y.toInt)
/-- Unsigned comparison of two registers. -/
def ltN (x y : Word) : Bool := decide (x.toNat < y.toNat)
/-- 1 or 0. -/
def oneIf (b : Bool) : Word := if b then 1 else 0
/-- A shift or rotate amount: bits [5:0] (R129). -/
def amount (w : Word) : Nat := w.toNat % 64
/-- Bits [127:64] of a signed product (R129). -/
def mulHigh (x y : Word) : Word := BitVec.ofInt 64 (x.toInt * y.toInt / ((2 ^ 64 : Nat) : Int))
/-- Bits [127:64] of an unsigned product (R129). -/
def mulHighN (x y : Word) : Word := BitVec.ofNat 64 (x.toNat * y.toNat / 2 ^ 64)
/-- The low 8, 16 or 32 bits that sext and zext keep (R129). -/
def extBits (s : Fin 4) : Nat := 8 * 2 ^ s.val
/-- A 16-bit immediate, sign-extended (R131). -/
def immS (i : BitVec 16) : Word := i.signExtend 64
/-- A 16-bit immediate, zero-extended (R131). -/
def immZ (i : BitVec 16) : Word := i.setWidth 64

/-- gd := f(ga, gb), a parcel long (R129). -/
def int3 (s : State) (d a b : Reg) (f : Word → Word → Word) : Out :=
  scalarOp s d [a, b] 4 fun th => f (readG th a) (readG th b)
/-- gd := f(ga) (R129). -/
def int2 (s : State) (d a : Reg) (f : Word → Word) : Out := scalarOp s d [a] 4 fun th => f (readG th a)
/-- A division: gd := f(ga, gb), with its flag (R27, R130). -/
def intDiv (s : State) (d a b : Reg) (f : Nat → Nat → Res) : Out :=
  scalarFlags s d [a, b] 4 fun th =>
    let r := f (readG th a).toNat (readG th b).toNat
    (BitVec.ofNat 64 r.bits, r.flags)
/-- Half of a pair: gd := f(gd, ga) (R91). -/
def half2 (s : State) (d a : Reg) (f : Word → Word → Word) : Out :=
  scalarOp s d [d, a] 2 fun th => f (readG th d) (readG th a)

/-- add (R129). -/
def execAdd (d a b : Reg) (s : State) : Out :=
  int3 s d a b (fun x y => x + y)

/-- sub (R129). -/
def execSub (d a b : Reg) (s : State) : Out :=
  int3 s d a b (fun x y => x - y)

/-- mul (R129). -/
def execMul (d a b : Reg) (s : State) : Out :=
  int3 s d a b (fun x y => x * y)

/-- mulh: both signed (R129). -/
def execMulh (d a b : Reg) (s : State) : Out :=
  int3 s d a b mulHigh

/-- mulhn: both unsigned (R129). -/
def execMulhn (d a b : Reg) (s : State) : Out :=
  int3 s d a b mulHighN

/-- div (R130). -/
def execDiv (d a b : Reg) (s : State) : Out :=
  intDiv s d a b (divBits true 64)

/-- divn (R130). -/
def execDivn (d a b : Reg) (s : State) : Out :=
  intDiv s d a b (divBits false 64)

/-- rem (R130). -/
def execRem (d a b : Reg) (s : State) : Out :=
  intDiv s d a b (remBits true 64)

/-- remn (R130). -/
def execRemn (d a b : Reg) (s : State) : Out :=
  intDiv s d a b (remBits false 64)

/-- and (R129). -/
def execAnd (d a b : Reg) (s : State) : Out :=
  int3 s d a b (fun x y => x &&& y)

/-- or (R129). -/
def execOr (d a b : Reg) (s : State) : Out :=
  int3 s d a b (fun x y => x ||| y)

/-- xor (R129). -/
def execXor (d a b : Reg) (s : State) : Out :=
  int3 s d a b (fun x y => x ^^^ y)

/-- shl: zeros shifted in (R129). -/
def execShl (d a b : Reg) (s : State) : Out :=
  int3 s d a b (fun x y => x <<< amount y)

/-- shr: zeros shifted in (R129). -/
def execShr (d a b : Reg) (s : State) : Out :=
  int3 s d a b (fun x y => x >>> amount y)

/-- sra: copies of bit 63 shifted in (R129). -/
def execSra (d a b : Reg) (s : State) : Out :=
  int3 s d a b (fun x y => x.sshiftRight (amount y))

/-- rot: rotated right (R129). -/
def execRot (d a b : Reg) (s : State) : Out :=
  int3 s d a b (fun x y => x.rotateRight (amount y))

/-- min, signed (R129). -/
def execMin (d a b : Reg) (s : State) : Out :=
  int3 s d a b (fun x y => if ltS y x then y else x)

/-- max, signed (R129). -/
def execMax (d a b : Reg) (s : State) : Out :=
  int3 s d a b (fun x y => if ltS x y then y else x)

/-- minn, unsigned (R129). -/
def execMinn (d a b : Reg) (s : State) : Out :=
  int3 s d a b (fun x y => if ltN y x then y else x)

/-- maxn, unsigned (R129). -/
def execMaxn (d a b : Reg) (s : State) : Out :=
  int3 s d a b (fun x y => if ltN x y then y else x)

/-- slt (R129). -/
def execSlt (d a b : Reg) (s : State) : Out :=
  int3 s d a b (fun x y => oneIf (ltS x y))

/-- sltn (R129). -/
def execSltn (d a b : Reg) (s : State) : Out :=
  int3 s d a b (fun x y => oneIf (ltN x y))

/-- seq (R129). -/
def execSeq (d a b : Reg) (s : State) : Out :=
  int3 s d a b (fun x y => oneIf (decide (x = y)))

/-- csel: ga if gc is not zero, else gb (R129). -/
def execCsel (d a b c : Reg) (s : State) : Out :=
  scalarOp s d [a, b, c] 4 fun th => if readG th c ≠ 0 then readG th a else readG th b

/-- clz: 64 for 0 (R129). -/
def execClz (d a : Reg) (s : State) : Out :=
  int2 s d a (fun x => BitVec.ofNat 64 (leadingZeros x.toNat))

/-- ctz: 64 for 0 (R129). -/
def execCtz (d a : Reg) (s : State) : Out :=
  int2 s d a (fun x => BitVec.ofNat 64 (trailingZeros 64 x.toNat))

/-- popc (R129). -/
def execPopc (d a : Reg) (s : State) : Out :=
  int2 s d a (fun x => BitVec.ofNat 64 (popcount 64 x.toNat))

/-- sext: the low 8, 16 or 32 bits, sign-extended; the b field is not read (R95, R129). -/
def execSext (d a _b : Reg) (k : Fin 4) (s : State) : Out :=
  int2 s d a (fun x => extend true (extBits k) x.toNat)

/-- zext: the same bits, zero-extended (R129). -/
def execZext (d a _b : Reg) (k : Fin 4) (s : State) : Out :=
  int2 s d a (fun x => extend false (extBits k) x.toNat)

/-- addi (R131). -/
def execAddi (d a : Reg) (imm : BitVec 16) (s : State) : Out :=
  int2 s d a (fun x => x + immS imm)

/-- andi (R131). -/
def execAndi (d a : Reg) (imm : BitVec 16) (s : State) : Out :=
  int2 s d a (fun x => x &&& immZ imm)

/-- ori (R131). -/
def execOri (d a : Reg) (imm : BitVec 16) (s : State) : Out :=
  int2 s d a (fun x => x ||| immZ imm)

/-- xori (R131). -/
def execXori (d a : Reg) (imm : BitVec 16) (s : State) : Out :=
  int2 s d a (fun x => x ^^^ immZ imm)

/-- shli (R131). -/
def execShli (d a : Reg) (k : Fin 64) (s : State) : Out :=
  int2 s d a (fun x => x <<< k.val)

/-- shri (R131). -/
def execShri (d a : Reg) (k : Fin 64) (s : State) : Out :=
  int2 s d a (fun x => x >>> k.val)

/-- srai (R131). -/
def execSrai (d a : Reg) (k : Fin 64) (s : State) : Out :=
  int2 s d a (fun x => x.sshiftRight k.val)

/-- lim: imm16 at position p, every other bit 0 (R132). -/
def execLim (d : Reg) (p : Fin 4) (imm : BitVec 16) (s : State) : Out :=
  scalarOp s d [] 4 fun _ => immZ imm <<< (16 * p.val)

/-- lim.k: imm16 at position p, every other bit kept (R132). -/
def execLimK (d : Reg) (p : Fin 4) (imm : BitVec 16) (s : State) : Out :=
  scalarOp s d [d] 4 fun th =>
    (readG th d &&& ~~~(immZ 0xFFFF <<< (16 * p.val))) ||| (immZ imm <<< (16 * p.val))

/-- slti (R131). -/
def execSlti (d a : Reg) (imm : BitVec 16) (s : State) : Out :=
  int2 s d a (fun x => oneIf (ltS x (immS imm)))

/-- sltni: unsigned, against the sign-extended immediate (R131). -/
def execSltni (d a : Reg) (imm : BitVec 16) (s : State) : Out :=
  int2 s d a (fun x => oneIf (ltN x (immS imm)))

/-- hadd gd, ga: add gd, gd, ga (R91). -/
def execHadd (d a : Reg) (s : State) : Out :=
  half2 s d a (fun x y => x + y)

/-- hsub (R91). -/
def execHsub (d a : Reg) (s : State) : Out :=
  half2 s d a (fun x y => x - y)

/-- hand (R91). -/
def execHand (d a : Reg) (s : State) : Out :=
  half2 s d a (fun x y => x &&& y)

/-- hor (R91). -/
def execHor (d a : Reg) (s : State) : Out :=
  half2 s d a (fun x y => x ||| y)

/-- hmov: add gd, ga, g0 (R91). -/
def execHmov (d a : Reg) (s : State) : Out :=
  scalarOp s d [a] 2 fun th => readG th a

/-- hinc: addi gd, gd, imm, sign-extended (R91). -/
def execHinc (d : Reg) (imm : BitVec 5) (s : State) : Out :=
  scalarOp s d [d] 2 fun th => readG th d + imm.signExtend 64

/-- hshl: shli gd, gd, sh (R91). -/
def execHshl (d : Reg) (k : Fin 32) (s : State) : Out :=
  scalarOp s d [d] 2 fun th => readG th d <<< k.val

/-- hnop: changes nothing but the pc (R91). -/
def execHnop (s : State) : Out :=
  retire s (getThread s s.cur) 2

/-- The type code of a precision field: f16, bf16, f32, f64 (R133). -/
def fpType (p : Fin 4) : Nat :=
  match p.val with
  | 0 => 11
  | 1 => 10
  | 2 => 12
  | _ => 13

/-- The rounding mode of an instruction that rounds: its own, or FRM for 7; none when FRM holds 5 to 7 (R134). -/
def fpMode (th : Thread) (r : Fin 8) : Option Nat :=
  if r.val = 7 then (if th.frm.toNat ≤ 4 then some th.frm.toNat else none) else some r.val

/-- A floating-point instruction that rounds: an FRM of 5 to 7 makes it illegal at execution (R134). -/
def fpRounded (s : State) (d : Reg) (rs : List Reg) (r : Fin 8) (f : Nat → Thread → Word × BitVec 7) : Out :=
  withDest s d rs fun th =>
    match fpMode th r with
    | none => illegal s s.cur
    | some rm =>
      let x := f rm th
      retire s (writeG { th with fflags := th.fflags ||| x.2 } d x.1) 4

/-- A result as a register takes it: zero-extended, with its flags (R133). -/
def fpOut (r : Res) : Word × BitVec 7 := (BitVec.ofNat 64 r.bits, r.flags)

/-- A rounding operation on ga and gb (R133). -/
def fp3 (s : State) (op : FpOp) (d a b : Reg) (p : Fin 4) (r : Fin 8) : Out :=
  fpRounded s d [a, b] r fun rm th => fpOut (fpOp op (fpType p) rm (readG th a).toNat (readG th b).toNat 0)

/-- A minimum or maximum, which never rounds (R133). -/
def fpMin (s : State) (mx : Bool) (d a b : Reg) (p : Fin 4) : Out :=
  scalarFlags s d [a, b] 4 fun th => fpOut (minMaxFp (fmtOf (fpType p)) mx (readG th a).toNat (readG th b).toNat)

/-- A comparison: 1 or 0 (R36, R133). -/
def fpRel (s : State) (op : CmpOp) (d a b : Reg) (p : Fin 4) : Out :=
  scalarFlags s d [a, b] 4 fun th =>
    let x := fpCmp op (fpType p) (readG th a).toNat (readG th b).toNat
    (oneIf x.1, x.2)

/-- fadd (R133). -/
def execFadd (d a b : Reg) (p : Fin 4) (r : Fin 8) (s : State) : Out :=
  fp3 s .add d a b p r

/-- fsub (R133). -/
def execFsub (d a b : Reg) (p : Fin 4) (r : Fin 8) (s : State) : Out :=
  fp3 s .sub d a b p r

/-- fmul (R133). -/
def execFmul (d a b : Reg) (p : Fin 4) (r : Fin 8) (s : State) : Out :=
  fp3 s .mul d a b p r

/-- fdiv (R133). -/
def execFdiv (d a b : Reg) (p : Fin 4) (r : Fin 8) (s : State) : Out :=
  fp3 s .div d a b p r

/-- fsqrt (R133). -/
def execFsqrt (d a : Reg) (p : Fin 4) (r : Fin 8) (s : State) : Out :=
  fpRounded s d [a] r fun rm th => fpOut (fpOp .sqrt (fpType p) rm (readG th a).toNat 0 0)

/-- fma: ga × gb + gd, rounded once (R133). -/
def execFma (d a b : Reg) (p : Fin 4) (r : Fin 8) (s : State) : Out :=
  fpRounded s d [a, b, d] r fun rm th =>
    fpOut (fpOp .fma (fpType p) rm (readG th a).toNat (readG th b).toNat (readG th d).toNat)

/-- fmin (R133). -/
def execFmin (d a b : Reg) (p : Fin 4) (s : State) : Out :=
  fpMin s false d a b p

/-- fmax (R133). -/
def execFmax (d a b : Reg) (p : Fin 4) (s : State) : Out :=
  fpMin s true d a b p

/-- feq (R133). -/
def execFeq (d a b : Reg) (p : Fin 4) (s : State) : Out :=
  fpRel s .eq d a b p

/-- flt (R133). -/
def execFlt (d a b : Reg) (p : Fin 4) (s : State) : Out :=
  fpRel s .lt d a b p

/-- fle (R133). -/
def execFle (d a b : Reg) (p : Fin 4) (s : State) : Out :=
  fpRel s .le d a b p

/-- fcvt: to the precision t (R133, R135). -/
def execFcvt (d a : Reg) (t p : Fin 4) (r : Fin 8) (s : State) : Out :=
  fpRounded s d [a] r fun rm th => fpOut (fpToFp (fpType p) (fpType t) rm (readG th a).toNat)

/-- fcvti: to the integer type t, extended to 64 bits (R41, R135). -/
def execFcvti (d a : Reg) (t : Fin 8) (p : Fin 4) (r : Fin 8) (s : State) : Out :=
  fpRounded s d [a] r fun rm th =>
    let x := fpToIntTy (fpType p) t.val rm (readG th a).toNat
    (extend (isSigned t.val) (8 * scalarSize t.val) x.bits, x.flags)

/-- fcvtf: from the integer type t in the low bits of ga (R135). -/
def execFcvtf (d a : Reg) (t : Fin 8) (p : Fin 4) (r : Fin 8) (s : State) : Out :=
  fpRounded s d [a] r fun rm th => fpOut (intToFp (fpType p) rm (intVal t.val (readG th a).toNat))

end Sys2Proof.Machine
end

