-- ==== Sys2Proof/Machine/Access.lean ====
section
/-!
DEFINITION. Scalar memory accesses (R136 to R144, R261, R262): their issue, when one may be performed (R139, R143,
R144, R291), and what performing it does.
-/

namespace Sys2Proof.Machine

/-- The accesses before one in a list. -/
def accessesBefore (l : List Access) (stamp : Nat) : List Access := l.filter fun b => decide (b.stamp < stamp)

/-- The thread's own order lets an access be performed. -/
def orderFree (s : State) (t : Tid) (a : Access) : Bool :=
  !(accessesBefore (getThread s t).out a.stamp).any (heldByAccess a) && !heldByVector s t a

/-- The peer of an access may have stopped answering since the access was issued (R352, R374). Such an access has then not been
performed at the peer, where it may have been (DESIGN CHOICE, log 122). -/
def currentTarget (s : State) (t : Target) : Target :=
  match t with
  | .peer d _ _ => if reaches s d then t else .violation 4
  | t => t

/-- The threads listed for an address before this one: those listed, when it is not (R144). -/
def listedBefore (l : List Tid) (t : Tid) : List Tid := l.takeWhile fun x => decide (x ≠ t)

/-- A thread has a cas outstanding at an address, be it still held back by the thread's own order: it counts as arrived as soon as
it has been issued (R144; DESIGN CHOICE, log 98). -/
def hasCas (s : State) (key : Nat) (t : Tid) : Bool :=
  (getThread s t).out.any fun a => decide (a.kind = .amo .cas false) && decide (targetKey a.tgt = key)

/-- A cas may be served: no listed thread comes before it (R144). -/
def casTurn (s : State) (t : Tid) (a : Access) : Bool :=
  let l := mapGet [] s.casLists (targetKey a.tgt)
  !(listedBefore l t).any (hasCas s (targetKey a.tgt))

/-- The new value of an atomic's word and its flags, on `b` bits (R140, R141). -/
def amoNew (op : AmoOp) (signed : Bool) (b old x cmp : Nat) : Nat × BitVec 7 :=
  let lt (p q : Nat) : Bool := if signed then decide (toSigned b p < toSigned b q) else decide (p % 2 ^ b < q % 2 ^ b)
  match op with
  | .add => ((old + x) % 2 ^ b, 0)
  | .and => ((old &&& x) % 2 ^ b, 0)
  | .or => ((old ||| x) % 2 ^ b, 0)
  | .xor => ((old ^^^ x) % 2 ^ b, 0)
  | .min => (if lt x old then x % 2 ^ b else old, 0)
  | .max => (if lt old x then x % 2 ^ b else old, 0)
  | .swap => (x % 2 ^ b, 0)
  | .fadd =>
    let r := fpOp .add (if b = 32 then 12 else 13) 0 old x 0
    (r.bits, r.flags)
  | .cas => (if old = cmp % 2 ^ b then x % 2 ^ b else old, 0)

/-- The region of a descriptor, as its home agent knows it. -/
def findRegion (s : State) (k : Nat) : Region :=
  (s.regions.find? fun r => decide (r.pa = k)).getD { pa := k, records := [] }

/-- Put a region back. -/
def putRegion (s : State) (r : Region) : State :=
  { s with regions := r :: s.regions.filter fun x => decide (x.pa ≠ r.pa) }

/-- Drop recorded ranges that begin at the frontier, moving it on (R262): the frontier and what is left. -/
def drainRecords : Nat → Word → List (Word × Word) → Word × List (Word × Word)
  | 0, fr, l => (fr, l)
  | n + 1, fr, l =>
    match l.find? fun r => decide (r.1 = fr) with
    | none => (fr, l)
    | some r => drainRecords n (r.1 + r.2) (l.filter fun x => decide (x ≠ r))

/-- The frontier of a region and the records left, once those that begin at the frontier are dropped, as they are whenever an
apnd or apub acts on the descriptor (R262). -/
def drained1 (s : State) (t : Target) : Word × List (Word × Word) :=
  let r := findRegion s (targetKey t)
  drainRecords (r.records.length + 1) (BitVec.ofNat 64 (tgtRead s (tgtAdd t 24) 8)) r.records

/-- An apub on a descriptor must wait: 64 records are in use and its range does not begin at the frontier (R262). -/
def regionFull (s : State) (t : Target) (n at_ : Word) : Bool :=
  decide (n ≠ 0) && regionOk s t && decide (64 ≤ (drained1 s t).2.length) && decide (at_ ≠ (drained1 s t).1)

/-- A thread's apub must wait (R262). -/
def publishHeld (s : State) (a : Access) : Bool :=
  match a.kind with
  | .publish n at_ => regionFull s a.tgt n at_
  | _ => false

/-- An access reads bytes that are poisoned (R137, R142, R382, R383). -/
def meetsPoison (s : State) (a : Access) : Bool := decide (a.kind ≠ .st) && tgtPoison s a.tgt a.size

/-- The core whose scratchpad an access goes to has passed to another launch since the access was issued (R289). -/
def padLost (s : State) (t : Tid) (a : Access) : Bool :=
  (match a.tgt with
    | .spad _ => true
    | _ => false) && foreignPad s (partyOf s t) a.va

/-- The fault that an access meets as it is performed: scratchpad bound, with the offset from SPBASE, where the core no longer
serves the launch (R289), or poison (R137, R142, R358). -/
def lateFault (s : State) (t : Tid) (a : Access) : Option FaultInfo :=
  if padLost s t a then some (accFault 0x09 (a.va.toNat - (getCtx s (getThread s t).ctx).spbase.toNat))
  else if meetsPoison s a then some (accFault 0x12 a.va.toNat)
  else none

/-- An access may be performed now. One that meets a fault waits for the vector instructions before it (R128). -/
def performable (s : State) (t : Tid) (a : Access) : Bool :=
  orderFree s t a && (decide (a.kind ≠ .amo .cas false) || casTurn s t a) && !publishHeld s a &&
    ((lateFault s t a).isNone || (getThread s t).vq.all fun e => decide (a.stamp ≤ e.stamp))

/-- Two published ranges overlap. -/
def rangesMeet (p q : Word × Word) : Bool :=
  decide (p.1.toNat < q.1.toNat + q.2.toNat) && decide (q.1.toNat < p.1.toNat + p.2.toNat)

/-- Log a thread's violation, and set VIOL. -/
def threadViolation (s : State) (t : Tid) (va : Word) (code : Nat) : State := violate s t (sourceOf t) va code

/-- The violation response to an issued access: logged, VIOL set, and met by the csrr of FFLAGS that follow it (R58, R138). -/
def accessViolation (s : State) (t : Tid) (a : Access) (code : Nat) : State :=
  noteFlags (threadViolation s t a.va code) t a.stamp flagViol

/-- The value an access returns goes to its register. -/
def giveReg (s : State) (t : Tid) (r : Reg) (w : Word) : State := updThread s t fun th => writeG th r w

/-- A load performed (R136, R138). -/
def doLoad (s : State) (t : Tid) (a : Access) (signed : Bool) : State :=
  match currentTarget s a.tgt with
  | .violation c => giveReg (accessViolation s t a c) t a.reg (extend signed (8 * a.size) a.fill.toNat)
  | tg => giveReg s t a.reg (extend signed (8 * a.size) (tgtRead s tg a.size))

/-- A store performed (R136, R138). -/
def doStore (s : State) (t : Tid) (a : Access) : State :=
  match storeTarget s (getThread s t).ctx (currentTarget s a.tgt) a.va a.size with
  | .violation c => accessViolation s t a c
  | tg => tgtWrite s tg a.size (a.val.toNat % 2 ^ (8 * a.size))

/-- A cas has been served: its thread leaves the list of its address, and joins the end when it failed (R144). -/
def casListed (s : State) (t : Tid) (key : Nat) (failed : Bool) : State :=
  let l := (mapGet [] s.casLists key).filter fun x => decide (x ≠ t)
  let l' := if failed then l ++ [t] else l
  { s with casLists := if l'.isEmpty then mapDel s.casLists key else mapPut s.casLists key l' }

/-- An atomic performed (R140 to R144). On an error response FILL's low bytes reach gd as the old value would: those of a .w form
extended as R141 says (R142; DESIGN CHOICE, log 99). -/
def doAmo (s : State) (t : Tid) (a : Access) (op : AmoOp) (signed : Bool) : State :=
  let b := 8 * a.size
  match storeTarget s (getThread s t).ctx (currentTarget s a.tgt) a.va a.size with
  | .violation c => giveReg (accessViolation s t a c) t a.reg (extend signed b a.fill.toNat)
  | tg =>
    let old := tgtRead s tg a.size
    let r := amoNew op signed b old a.val.toNat a.cmp.toNat
    let s1 := tgtWrite s tg a.size r.1
    let s2 := if op = .cas then casListed s1 t (targetKey a.tgt) (decide (old ≠ a.cmp.toNat % 2 ^ b)) else s1
    let s3 := noteFlags (updThread s2 t fun th => { th with fflags := th.fflags ||| r.2 }) t a.stamp r.2
    giveReg s3 t a.reg (extend signed b old)

/-- A descriptor with what its home agent has recorded of it (R262). -/
def putDrained (s : State) (tg : Target) (d : Word × List (Word × Word)) : State :=
  tgtWrite (putRegion s { pa := targetKey tg, records := d.2 }) (tgtAdd tg 24) 8 d.1.toNat

/-- An apnd at the home agent of a descriptor: the value returned, all ones when the region has no room; nothing when the
descriptor is inconsistent (R261, R262). -/
def appendAt (s : State) (tg : Target) (n : Word) : Option (State × Word) :=
  if !regionOk s tg then none
  else
    let s0 := putDrained s tg (drained1 s tg)
    let limit := tgtRead s (tgtAdd tg 8) 8
    let res := tgtRead s (tgtAdd tg 16) 8
    if res + n.toNat ≤ limit then some (tgtWrite s0 (tgtAdd tg 16) 8 (res + n.toNat), BitVec.ofNat 64 res)
    else some (s0, BitVec.allOnes 64)

/-- An apub of n bytes at the home agent of a descriptor, and whether the range was one to publish; nothing when the descriptor is
inconsistent (R261, R262). -/
def publishAt (s : State) (tg : Target) (n at_ : Word) : Option (State × Bool) :=
  if !regionOk s tg then none
  else
    let p := drained1 s tg
    let res := tgtRead s (tgtAdd tg 16) 8
    let ok := decide (p.1.toNat ≤ at_.toNat) && decide (at_.toNat + n.toNat ≤ res) && !p.2.any (rangesMeet (at_, n))
    some (putDrained s tg (if ok then drainRecords (p.2.length + 1) p.1 (p.2 ++ [(at_, n)]) else p), ok)

/-- An apnd performed (R262). On any violation response gd receives all ones, as R261 gives for an inconsistent descriptor
(log 65). -/
def doAppend (s : State) (t : Tid) (a : Access) (n : Word) : State :=
  let all : Word := BitVec.allOnes 64
  match currentTarget s a.tgt with
  | .violation c => giveReg (accessViolation s t a c) t a.reg all
  | tg =>
    match appendAt s tg n with
    | none => giveReg (accessViolation s t a 10) t a.reg all
    | some r => giveReg r.1 t a.reg r.2

/-- An apub performed (R262). One of 0 bytes has no violation response, whatever its descriptor (DESIGN CHOICE, log 101); that of a
range not to be published is logged with the descriptor's address (DESIGN CHOICE, log 127). -/
def doPublish (s : State) (t : Tid) (a : Access) (n at_ : Word) : State :=
  if n = 0 then s
  else
    match currentTarget s a.tgt with
    | .violation c => accessViolation s t a c
    | tg =>
      match publishAt s tg n at_ with
      | none => accessViolation s t a 10
      | some r => if r.2 then r.1 else accessViolation r.1 t a 3

/-- Perform an access (R290). -/
def performAccess (s : State) (t : Tid) (a : Access) : State :=
  match a.kind with
  | .ld g => doLoad s t a g
  | .st => doStore s t a
  | .amo op g => doAmo s t a op g
  | .append n => doAppend s t a n
  | .publish n p => doPublish s t a n p

/-- An access that meets a fault as it is performed returns no value and raises it at its instruction (R137, R142, R289, R358).
Poison that comes after the issue is met here; the instructions after it may have had their effects (log 38). A thread that
has stopped reports nothing more. -/
def accessFaults (s : State) (t : Tid) (a : Access) (f : FaultInfo) : State :=
  if (getThread s t).tstate = .running then takeFault s t f none a.pc a.pc else s

/-- Perform an access, or raise its fault. -/
def performOrFault (s : State) (t : Tid) (a : Access) : State :=
  match lateFault s t a with
  | some f => accessFaults s t a f
  | none => performAccess s t a

/-- The values taken early that an access leaves to later loads: those of other bytes, and none once an acquire is performed
(R290, R291). -/
def earlyAfter (l : List EarlyRead) (a : Access) : List EarlyRead :=
  if isAcquire a then [] else l.filter fun e => !touches e.tgt e.size a.tgt a.size

/-- MEMORY_ACCESS_COMPLETE: access k of a thread is performed, if its order lets it (R139, R290). -/
def accessStep (s : State) (t : Tid) (k : Nat) : State :=
  match (getThread s t).out[k]? with
  | none => s
  | some a =>
    if performable s t a then
      settleQueue (performOrFault
        (updThread s t fun th => { th with out := dropAt th.out k, early := earlyAfter th.early a }) t a) t
    else s

/-- An access joins those on their way; in a handler, one that comes after an access which the handler has set aside, or after a
frozen entry, joins those set aside (R139, R143; logs 40 and 91). -/
def joinAccess (s : State) (th : Thread) (a : Access) : Thread :=
  if behindAside s s.cur a then { th with frozen := th.frozen.map fun f => { f with out := f.out ++ [a] } }
  else { th with out := th.out ++ [a] }

/-- Put an access on its way, and go on (R127, R139). -/
def issueAccess (s : State) (th : Thread) (a : Access) (len : Nat) : Out :=
  retire s { joinAccess s th a with nextStamp := th.nextStamp + 1 } len

/-- An access with what it takes from the thread. -/
def accessOf (th : Thread) (kind : AccKind) (va : Word) (size : Nat) (tgt : Target) (cls : Nat) (reg : Reg)
    (val : Word) : Access :=
  { pc := th.pc, kind := kind, va := va, size := size, tgt := tgt, cls := cls, reg := reg, val := val, cmp := 0, order := 0
    scope := 0, fill := th.fill, stamp := th.nextStamp }

/-- An address that is misaligned or not sign-extended, faults that do not need the access itself (R136). -/
def badAddress (va : Word) (n : Nat) : Option FaultInfo :=
  if !isCanon va then some (accFault 0x06 va.toNat)
  else if !aligned va n then some (accFault 0x08 va.toNat) else none

/-- A synchronous read of n bytes by a thread (R147, R263): it waits for the accesses that must come before it. -/
def readReady (s : State) (t : Tid) (tg : Target) (n : Nat) : Bool :=
  let th := getThread s t
  orderFree s t (accessOf th (.ld false) 0 n tg 0 0 0)

/-- A synchronous read of a handler comes after an access that the handler has set aside or after a frozen entry, for which it
cannot wait (R277; log 91). -/
def readAside (s : State) (t : Tid) (tg : Target) (n : Nat) : Bool :=
  behindAside s t (accessOf (getThread s t) (.ld false) 0 n tg 0 0 0)

/-- Where a scalar access that reads leads, as it is issued: its fault, or its target. Poison at the target is a fault once
the thread's own accesses that come before it are performed, since one of them may clear it; until then the access waits
(R137, R139, R142, R382; log 38), or is set aside with them in a handler (log 91). -/
def readTarget (s : State) (t : Tid) (va : Word) (size algn : Nat) (k : MKind) : Except FaultInfo (Option Target) :=
  match alignedTarget s (partyOf s t) va size algn k with
  | .error f => .error f
  | .ok tg =>
    if !tgtPoison s tg size || readAside s t tg size then .ok (some tg)
    else if readReady s t tg size then .error (accFault 0x12 va.toNat) else .ok none

/-- A value that a load of n bytes at an address may have taken before it is issued: it goes where the load goes, and nothing of
the thread's that the load must follow has come between (R291; log 2). -/
def takenEarly (s : State) (t : Tid) (va : Word) (n : Nat) (tg : Target) : Option EarlyRead :=
  if readReady s t tg n && !readAside s t tg n then
    (getThread s t).early.find? fun e => decide (e.va = va) && decide (e.size = n) && decide (e.tgt = tg)
  else none

/-- Where a load could take its value ahead of its issue: own memory or scratchpad, no fault, and nothing before it that orders it
(R291). Accesses to a peer keep their order (R372). -/
def earlyTarget (s : State) (t : Tid) (va : Word) (n : Nat) : Option Target :=
  match accessTarget s (partyOf s t) va n n .load with
  | .error _ => none
  | .ok tg =>
    let own := match tg with
      | .dev _ _ => true
      | .spad _ => true
      | _ => false
    if own && readReady s t tg n && !readAside s t tg n then some tg else none

/-- A load of n bytes at an address, still to be issued, takes its value now: towards other parties a load has no order after an
earlier load, nor after an earlier store of other bytes (R291; log 2). -/
def readEarly (s : State) (t : Tid) (va : Word) (n : Nat) : State :=
  if n = 1 ∨ n = 2 ∨ n = 4 ∨ n = 8 then
    match earlyTarget s t va n with
    | none => s
    | some tg =>
      updThread s t fun th =>
        { th with early := (th.early.filter fun e => !touches e.tgt e.size tg n) ++
            [{ va := va, size := n, tgt := tg, val := tgtRead s tg n }] }
  else s

/-- A scalar load of n bytes into gd (R136 to R139). One whose value has been taken early is done at once. -/
def loadAccess (s : State) (d b : Reg) (n : Nat) (signed : Bool) (cls : Nat) (off : Word) (len : Nat) : Out :=
  let t := s.cur
  withDest s d [b] fun th =>
    let va := readG th b + off
    if bookmarkHides (bookmarkOf th cls) va then
      match badAddress va n with
      | some f => raise s t f false
      | none => retire s (writeG th d (extend signed (8 * n) th.fill.toNat)) len
    else
      match readTarget s t va n n .load with
      | .error f => raise s t f false
      | .ok none => stall s
      | .ok (some tg) =>
        if Config.counterMax ≤ ldCount th then stall s
        else
          match takenEarly s t va n tg with
          | some e =>
            retire s (writeG { th with early := th.early.filter fun x => decide (x ≠ e) } d (extend signed (8 * n) e.val)) len
          | none => issueAccess s th (accessOf th (.ld signed) va n tg cls d 0) len

/-- A scalar store of the low n bytes of gd (R136 to R139). -/
def storeAccess (s : State) (d b : Reg) (n : Nat) (cls : Nat) (off : Word) (len : Nat) : Out :=
  let t := s.cur
  withRegs s [d, b] fun th =>
    let va := readG th b + off
    match alignedTarget s (partyOf s t) va n n .store with
    | .error f => raise s t f false
    | .ok tg =>
      if Config.counterMax ≤ stCount th then stall s
      else issueAccess s th (accessOf th .st va n tg cls 0 (readG th d)) len

/-- An offset in units of the access size (R136). -/
def scaled (off : BitVec 9) (z : Nat) : Word := off.signExtend 64 <<< z

/-- The order field of an atomic: 0 .rlx, 1 .acq, 2 .rel, 3 .ar (R97, R143). -/
def atomic (s : State) (op : AmoOp) (signed : Bool) (d a b : Reg) (dbl : Bool) (scope order : Fin 4) : Out :=
  let t := s.cur
  withDest s d (if op = .cas then [d, a, b] else [a, b]) fun th =>
    let va := readG th a
    let n := if dbl then 8 else 4
    match readTarget s t va n n .both with
    | .error f => raise s t f false
    | .ok none => stall s
    | .ok (some tg) =>
      if Config.counterMax ≤ ldCount th then stall s
      else
        issueAccess s th
          { accessOf th (.amo op signed) va n tg 0 d (readG th b) with
            cmp := readG th d, order := order.val, scope := scope.val } 4

end Sys2Proof.Machine
end

