-- ==== Sys2Proof/Machine/Control.lean ====
section
/-!
DEFINITION. Scalar loads, stores and atomics (R136 to R144), branches and jumps (R145 to R147), bstrip (R148), brk,
yield, leave, xret (R150 to R154), CSR access (R155), vsetl and vsetlw (R159 to R163), and their compressed forms.
-/

namespace Sys2Proof.Machine

/-- ld (R136). -/
def execLd (d b : Reg) (z : Fin 4) (g : Bool) (c : Fin 16) (off : BitVec 9) (s : State) : Out :=
  loadAccess s d b (2 ^ z.val) g c.val (scaled off z.val) 4

/-- st (R136). -/
def execSt (d b : Reg) (z : Fin 4) (c : Fin 16) (off : BitVec 9) (s : State) : Out :=
  storeAccess s d b (2 ^ z.val) c.val (scaled off z.val) 4

/-- The register a compressed 3-bit field names: g8 to g15 (R91). -/
def reg3 (r : Fin 8) : Reg := Fin.ofNat 32 (r.val + 8)

/-- hldd: ld.d of class 0 at 8 times the offset (R91). -/
def execHldd (d b : Fin 8) (off : Fin 16) (s : State) : Out :=
  loadAccess s (reg3 d) (reg3 b) 8 false 0 (BitVec.ofNat 64 (8 * off.val)) 2

/-- hstd: st.d of class 0 (R91). -/
def execHstd (d b : Fin 8) (off : Fin 16) (s : State) : Out :=
  storeAccess s (reg3 d) (reg3 b) 8 0 (BitVec.ofNat 64 (8 * off.val)) 2

/-- amoadd (R140). -/
def execAmoadd (d a b : Reg) (z : Bool) (c o : Fin 4) (s : State) : Out :=
  atomic s .add false d a b z c o

/-- amoand (R140). -/
def execAmoand (d a b : Reg) (z : Bool) (c o : Fin 4) (s : State) : Out :=
  atomic s .and false d a b z c o

/-- amoor (R140). -/
def execAmoor (d a b : Reg) (z : Bool) (c o : Fin 4) (s : State) : Out :=
  atomic s .or false d a b z c o

/-- amoxor (R140). -/
def execAmoxor (d a b : Reg) (z : Bool) (c o : Fin 4) (s : State) : Out :=
  atomic s .xor false d a b z c o

/-- amoswap (R140). -/
def execAmoswap (d a b : Reg) (z : Bool) (c o : Fin 4) (s : State) : Out :=
  atomic s .swap false d a b z c o

/-- amofadd (R140). -/
def execAmofadd (d a b : Reg) (z : Bool) (c o : Fin 4) (s : State) : Out :=
  atomic s .fadd false d a b z c o

/-- cas (R140). -/
def execCas (d a b : Reg) (z : Bool) (c o : Fin 4) (s : State) : Out :=
  atomic s .cas false d a b z c o

/-- amomin: signed for .i (R140). -/
def execAmomin (d a b : Reg) (z : Bool) (c o : Fin 4) (g : Bool) (s : State) : Out :=
  atomic s .min g d a b z c o

/-- amomax: signed for .i (R140). -/
def execAmomax (d a b : Reg) (z : Bool) (c o : Fin 4) (g : Bool) (s : State) : Out :=
  atomic s .max g d a b z c o

/-- The target of a branch: the parcel that holds the instruction plus 4 × the offset (R94). -/
def branchTarget (th : Thread) (off : Word) : Word := parcelAddr th.pc + 4 * off

/-- Branch when a relation holds between two registers (R145). -/
def branch (s : State) (rs : List Reg) (off : Word) (len : Nat) (f : Thread → Bool) : Out :=
  withRegs s rs fun th =>
    if f th then .next (putThread s s.cur { th with pc := branchTarget th off }) else retire s th len

/-- A branch of format B (R145). -/
def branch2 (s : State) (a b : Reg) (off : BitVec 13) (f : Word → Word → Bool) : Out :=
  branch s [a, b] (off.signExtend 64) 4 fun th => f (readG th a) (readG th b)

/-- beq (R145). -/
def execBeq (a b : Reg) (off : BitVec 13) (s : State) : Out :=
  branch2 s a b off (fun x y => decide (x = y))

/-- bne (R145). -/
def execBne (a b : Reg) (off : BitVec 13) (s : State) : Out :=
  branch2 s a b off (fun x y => decide (x ≠ y))

/-- blt (R145). -/
def execBlt (a b : Reg) (off : BitVec 13) (s : State) : Out :=
  branch2 s a b off (fun x y => ltS x y)

/-- bge (R145). -/
def execBge (a b : Reg) (off : BitVec 13) (s : State) : Out :=
  branch2 s a b off (fun x y => !ltS x y)

/-- bltn (R145). -/
def execBltn (a b : Reg) (off : BitVec 13) (s : State) : Out :=
  branch2 s a b off (fun x y => ltN x y)

/-- bgen (R145). -/
def execBgen (a b : Reg) (off : BitVec 13) (s : State) : Out :=
  branch2 s a b off (fun x y => !ltN x y)

/-- hbz: counted from the pair parcel (R90, R91). -/
def execHbz (a : Reg) (off : BitVec 5) (s : State) : Out :=
  branch s [a] (off.signExtend 64) 2 fun th => decide (readG th a = 0)

/-- hbnz (R91). -/
def execHbnz (a : Reg) (off : BitVec 5) (s : State) : Out :=
  branch s [a] (off.signExtend 64) 2 fun th => decide (readG th a ≠ 0)

/-- hjmp: always taken, no link (R91). -/
def execHjmp (off : BitVec 10) (s : State) : Out :=
  branch s [] (off.signExtend 64) 2 fun _ => true

/-- The address of the parcel after the instruction (R94). -/
def nextParcel (th : Thread) : Word := parcelAddr th.pc + 4

/-- jal: the link to g31 (R146). -/
def execJal (off : BitVec 26) (s : State) : Out :=
  withDest s 31 [] fun th =>
    .next (putThread s s.cur { writeG th 31 (nextParcel th) with pc := branchTarget th (off.signExtend 64) })

/-- jr: the target from ga as it was; a target that is not a parcel raises misaligned (R90, R146). -/
def execJr (d a : Reg) (imm : BitVec 16) (s : State) : Out :=
  withDest s d [a] fun th =>
    let target := readG th a + 4 * immS imm
    if target.toNat % 4 ≠ 0 then raise s s.cur (causeInfo 0x08 target.toNat) false
    else .next (putThread s s.cur { writeG th d (nextParcel th) with pc := target })

/-- jt: through entry ga of the table at gb, or on when ga is at or above len (R147). -/
def execJt (a b : Reg) (l : Fin 2048) (s : State) : Out :=
  withRegs s [a, b] fun th =>
    let i := readG th a
    if l.val ≤ i.toNat then retire s th 4
    else
      let va := readG th b + 4 * i
      match alignedTarget s (partyOf s s.cur) va 4 4 .load with
      | .error f => raise s s.cur f false
      | .ok tg =>
        if readAside s s.cur tg 4 then raise s s.cur (causeInfo 0x13 0) false
        else if !readReady s s.cur tg 4 then stall s
        else if tgtPoison s tg 4 then raise s s.cur (accFault 0x12 va.toNat) false
        else
          let go (s1 : State) (v : Nat) : Out :=
            .next (updThread s1 s.cur fun x =>
              { x with pc := branchTarget x (extend true 32 v), early := x.early.filter fun e => !touches e.tgt e.size tg 4 })
          match currentTarget s tg with
          | .violation c => go (threadViolation s s.cur va c) (th.fill.toNat % 2 ^ 32)
          | tg' => go s (tgtRead s tg' 4)

/-- The strip record after a count c at a bstrip of key pc (R148): none when the second strike raises no progress;
the record is in order of use, the most recent first. -/
def stripNext (l : List Strip) (pc c : Word) : Option (List Strip) :=
  let others := l.filter fun x => decide (x.key ≠ pc)
  if c = 0 then some others
  else
    match l.find? fun x => decide (x.key = pc) with
    | none => some ({ key := pc, count := c, strikes := 0 } :: others.take 3)
    | some e =>
      if c.toNat < e.count.toNat then some ({ key := pc, count := c, strikes := 0 } :: others)
      else if e.strikes = 0 then some ({ e with strikes := 1 } :: others)
      else none

/-- bstrip (R148). -/
def execBstrip (a : Reg) (off : BitVec 13) (s : State) : Out :=
  withRegs s [a] fun th =>
    let c := readG th a
    match stripNext th.strip th.pc c with
    | none => raise s s.cur (causeInfo 0x0A th.lastGrant) false
    | some l =>
      let th' := { th with strip := l }
      if c = 0 then retire s th' 4
      else .next (putThread s s.cur { th' with pc := branchTarget th (off.signExtend 64) })

/-- brk: a breakpoint with its code in XINFO (R150). -/
def execBrk (c : Fin 64) (s : State) : Out :=
  raise s s.cur (causeInfo 0x0E c.val) false

/-- yield: the arbiter skips the thread for a while; nothing else changes (R152). -/
def execYield (s : State) : Out :=
  let th := getThread s s.cur
  retire s { th with wait := .yield } 4

/-- Leave of a thread for a phase: what it holds is returned, and the rest is asked for (R154, R281). -/
def leaveCluster (c : Cluster) (t : Tid) (kinds : Nat) : Cluster × Bool :=
  let c0 := returnLeave c (.thread t)
  if kinds = 0 then (c0, true) else askLeave c0 (.thread t) (leaveUnits (isMcc t) kinds)

/-- leave (R154): the thread waits for the arbiter when its request is not granted at once. -/
def execLeave (a : Reg) (s : State) : Out :=
  withRegs s [a] fun th =>
    let t := s.cur
    let kinds := leaveMask (isMcc t) (readG th a).toNat
    let r := leaveCluster (getCluster s (clusterOf t)) t kinds
    let s1 := putCluster s (clusterOf t) r.1
    if r.2 then retire s1 { th with leaveKinds := kinds } 4
    else waitFor (putThread s1 t { th with leaveKinds := 0 }) t (.leave kinds)

/-- The handler's own vector work is done (R153). -/
def handlerDone (th : Thread) : Bool := th.vq.isEmpty && th.rq.isEmpty

/-- PCARRY after a handler that has written it: the frozen entries go on with the value from before, and what the handler
left is read by the entries that come after (R87). -/
def carryBack (th : Thread) (f : Frozen) : Thread :=
  match f.carry with
  | some w =>
    { th with pcarry := w, carryNext := f.carries ++ if f.wrote then [(th.nextStamp, th.pcarry)] else [] }
  | none => th

/-- An access that was set aside is outstanding again, where its address leads now (R352, R354). -/
def retarget (s : State) (t : Tid) (a : Access) : Access :=
  let k : MKind := match a.kind with
    | .ld _ => .load
    | .st => .store
    | _ => .both
  match resolve s (partyOf s t) a.va a.size k with
  | .ok tg => { a with tgt := tg }
  | .error _ => a

/-- LEAVE A USER HANDLER (R153, R278): VL, VTYPE, MAXVL and m46 as at entry, the frozen queue resumed with the accesses that it
holds back, every pattern of it to read its mask again, the thread at XRET. -/
def leaveHandler (s : State) (t : Tid) (f : Frozen) : State :=
  let s1 := updThread s t fun th =>
    carryForth { carryBack th f with
      vl := f.vl, vtype := f.vtype, maxvl := f.maxvl, clrec := f.clrec, m := th.m.set 46 f.m46
      vq := f.vq.map maskAfresh, rq := f.rq, out := f.out.map (retarget s t) ++ th.out, frozen := none, pc := th.xret, wait := .none }
  resumeHead s1 t

/-- xret (R153): illegal outside a handler, misaligned when XRET has bit 0 set. -/
def execXret (s : State) : Out :=
  let t := s.cur
  let th := getThread s t
  match th.frozen with
  | none => illegal s t
  | some f =>
    if th.xret.toNat % 2 = 1 then raise s t (causeInfo 0x08 th.xret.toNat) false
    else if handlerDone th then .next (leaveHandler s t f)
    else waitFor s t .xret

/-- csrr (R155). -/
def execCsrr (d : Reg) (n : Fin 4096) (s : State) : Out :=
  csrRead s d n.val 4

/-- csrw (R155). -/
def execCsrw (a : Reg) (n : Fin 4096) (s : State) : Out :=
  csrWrite s a n.val 4

/-- The legal pairs of type and block code (R80). -/
def pairOk (ty k : Nat) : Bool :=
  decide (k = 0) || (decide (k = 1) && (decide (ty = 8) || decide (ty = 9) || decide (ty = 10) || decide (ty = 0))) ||
    (decide (2 ≤ k) && decide (k ≤ 4) && decide (ty = 0))

/-- MAXVL under a budget (R81). -/
def maxvlOf (budget nv e b : Nat) : Nat := min 4096 (budget / nv * 64 / e) / b * b

/-- The grant of a vsetl (R160). One of type map records the CLMODE under which it found the type well formed (R242). -/
def grantOf (th : Thread) (powcap : Nat) (d : Reg) (req : Nat) (ty k r : Nat) : Grant :=
  let b := blockSize k
  let e := tySize ty th.clmode
  let mx := maxvlOf th.lbud th.nv e b
  let vt := ty + 2 ^ 4 * k + 2 ^ 8 * r
  let bad := decide (4 < k) || decide (4 < r) || !pairOk ty k || (isMap ty && !clWellFormed th.clmode) || decide (mx < b)
  let rec_ := if isMap ty && clWellFormed th.clmode then th.clmode else th.clrec
  if bad then { d := d, vtype := vt + 2 ^ 7, maxvl := 0, vl := 0, m46 := 0, clrec := rec_ }
  else
    let u := max b (max 1 (128 / e))
    let cap := max u (powcap * 128 / (e * b) * b)
    let vl := if req = 0 then 0 else min (ceilDiv req b * b) (min mx cap)
    { d := d, vtype := vt, maxvl := mx, vl := vl, m46 := min req vl, clrec := rec_ }

/-- A grant takes effect: LBUD in force, VTYPE, MAXVL, VL, gd, and the m46 entry (R82, R159). -/
def applyGrant (th : Thread) (g : Grant) : Thread :=
  let th1 := { th with budget := th.lbud, vtype := g.vtype, maxvl := g.maxvl, vl := g.vl, lastGrant := g.vl,
                       clrec := g.clrec }
  enqueue (writeG th1 g.d (BitVec.ofNat 64 g.vl)) (.setM46 g.m46)

/-- The cluster's power cap (R282). -/
def powcapOf (s : State) (t : Tid) : Nat := (getCluster s (clusterOf t)).powcap

/-- vsetl (R159, R160). -/
def execVsetl (d a : Reg) (ty : Fin 16) (k r : Fin 8) (s : State) : Out :=
  let t := s.cur
  if isMcc t then illegal s t
  else
    withDest s d [a] fun th =>
      if ffPending th then waitFor s t .firstFault
      else if !hasRoom s t (.setM46 0) then stall s
      else retire s (applyGrant th (grantOf th (powcapOf s t) d (readG th a).toNat ty.val k.val r.val)) 4

/-- The device watermark that a watermark operand names (R162, R344). -/
def watermarkOf (s : State) (th : Thread) (w : Word) : Nat :=
  let base := match th.launch with
    | some l => (match getLaunch s l with
      | some x => x.wmbase
      | none => 0)
    | none => 0
  (base + w.toNat % 2 ^ 8) % 256

/-- A device watermark lies in a context's range (R344). -/
def watermarkOwned (x : Context) (wm : Nat) : Bool := decide (x.wmlo ≤ wm) && decide (wm < x.wmlo + x.wmcnt)

/-- A watermark's value. -/
def watermarkVal (s : State) (wm : Nat) : Nat := mapGet 0 s.watermarks wm

/-- vsetlw (R159, R163, R344): the grant waits for the watermark to cover its strip. -/
def execVsetlw (d a b : Reg) (ty : Fin 16) (k r : Fin 8) (s : State) : Out :=
  let t := s.cur
  if isMcc t then illegal s t
  else
    withDest s d [a, b] fun th =>
      if ffPending th then waitFor s t .firstFault
      else
        let wm := watermarkOf s th (readG th b)
        if !watermarkOwned (getCtx s th.ctx) wm then raise s t (causeInfo 0x07 wm) false
        else if !hasRoom s t (.setM46 0) then stall s
        else
          let g := grantOf th (powcapOf s t) d (readG th a).toNat ty.val k.val r.val
          let need := ((readG th b).toNat / 2 ^ 16 + g.vl) % 2 ^ 64
          if g.vl ≠ 0 ∧ watermarkVal s wm < need then waitFor s t (.watermark wm need g)
          else retireSync s (applyGrant th g) 4

end Sys2Proof.Machine
end

