-- ==== Sys2Proof/Machine/VectorTile.lean ====
section
/-!
DEFINITION. The collator (R243 to R245), the tile slot instructions (R220 to R226), pat (R247) and the copies (R212 to R216),
each pushed with what it captures.
-/

namespace Sys2Proof.Machine

/-- clmap: table at gg, bound gb (R244). -/
def execClmap (d a g b : Reg) (s : State) : Out :=
  push s 4 [g, b] fun th => .clmap d a (readG th g) (readG th b)

/-- clcomp: status to gg (R244, R245). -/
def execClcomp (d a g : Reg) (s : State) : Out :=
  push s 4 [] fun _ => .clcomp d a g

/-- clscan (R244). -/
def execClscan (d a : Reg) (s : State) : Out :=
  push s 4 [] fun _ => .clscan d a

/-- clapply: start state gb (R244). -/
def execClapply (d a b : Reg) (s : State) : Out :=
  push s 4 [b] fun th => .clapply d a (readG th b)

/-- clmask: maps at ga, start state gb (R244). -/
def execClmask (d : MaskF) (a b : Reg) (s : State) : Out :=
  push s 4 [a, b] fun th => .clmask d (readG th a) (readG th b)

/-- tbind (R222, R223). -/
def execTbind (a : Reg) (k : Fin 16) (s : State) : Out :=
  push s 4 [] fun _ => .tbind a k

/-- ttgt (R220). -/
def execTtgt (k : Fin 16) (s : State) : Out :=
  push s 4 [] fun _ => .ttgt k

/-- twait (R220). -/
def execTwait (k : Fin 16) (s : State) : Out :=
  push s 4 [] fun _ => .twait k

/-- tget (R224). -/
def execTget (d : Reg) (k : Fin 16) (s : State) : Out :=
  push s 4 [] fun _ => .tget d k

/-- tfree (R225). -/
def execTfree (k : Fin 16) (s : State) : Out :=
  push s 4 [] fun _ => .tfree k

/-- The scalar operands a bound pattern reads: g28 as p0, g29 as p1 (R108, R251). -/
def patScalars (s : State) (n : Fin 32) : List Reg :=
  match bindingOf (getCtx s (getThread s s.cur).ctx) n.val with
  | some b => (if bitAt b.reads 2 then [28] else []) ++ if bitAt b.reads 3 then [29] else []
  | none => []

/-- pat (R108, R247). -/
def execPat (d a b : Reg) (m : MaskF) (n : Fin 32) (s : State) : Out :=
  push s 4 (patScalars s n) fun th => .pat d a b m n (readG th 28) (readG th 29)

/-- A copy as it is captured: the counter address only when one is present (R110, R213). -/
def copyOf (th : Thread) (k : CopyKind) (c : Fin 16) (q : Fin 4) (cnt : Bool) (bound : Word) (fill : Byte)
    (dst src shape pitch ctr vidx : Reg) : VOp :=
  .copy { kind := k, cls := c.val, q := q, ctr := if cnt then some (readG th ctr) else none, bound := bound
          fill := fill, dst := readG th dst, src := readG th src, shape := readG th shape, pitch := readG th pitch
          vidx := vidx }

/-- The g register of a counter, when it is present. -/
def ctrRegs (cnt : Bool) (ctr : Reg) : List Reg := if cnt then [ctr] else []

/-- cpy (R216). -/
def execCpy (c : Fin 16) (q : Fin 4) (cnt : Bool) (dst src shape pitch ctr : Reg) (s : State) : Out :=
  push s 8 ([dst, src, shape, pitch] ++ ctrRegs cnt ctr) fun th =>
    copyOf th .cpy c q cnt 0 0 dst src shape pitch ctr 0

/-- cpyg (R216). -/
def execCpyg (c : Fin 16) (q : Fin 4) (cnt : Bool) (bound : Reg) (fill : BitVec 8) (dst src shape pitch ctr vidx : Reg)
    (s : State) : Out :=
  push s 8 ([bound, dst, src, shape, pitch] ++ ctrRegs cnt ctr) fun th =>
    copyOf th .cpyg c q cnt (readG th bound) fill dst src shape pitch ctr vidx

/-- cpys (R216). -/
def execCpys (c : Fin 16) (q : Fin 4) (cnt : Bool) (bound dst src shape pitch ctr vidx : Reg) (s : State) : Out :=
  push s 8 ([bound, dst, src, shape, pitch] ++ ctrRegs cnt ctr) fun th =>
    copyOf th .cpys c q cnt (readG th bound) 0 dst src shape pitch ctr vidx

/-- cpyf (R216). -/
def execCpyf (c : Fin 16) (q : Fin 4) (cnt : Bool) (fill : BitVec 8) (dst shape pitch ctr : Reg) (s : State) : Out :=
  push s 8 ([dst, shape, pitch] ++ ctrRegs cnt ctr) fun th =>
    copyOf th .cpyf c q cnt 0 fill dst 0 shape pitch ctr 0

end Sys2Proof.Machine
end

