-- ==== Sys2Proof/Machine/Sync.lean ====
section
/-!
DEFINITION. The synchronisation instructions (R255 to R263): fence, qfence, wait, bar, wmpub, apnd, apub, bkset and
bkclr.
-/

namespace Sys2Proof.Machine

/-- A class is covered by a mask in which 0 means all (R256). -/
def covers (mask cls : Nat) : Bool := decide (mask = 0) || bitAt mask cls

/-- A vector entry that a fence waits for until its accesses have been performed; one of kind acq for a load only (R256). -/
def fenceEntry (acq : Bool) (mask : Nat) (e : VEntry) : Bool :=
  isMemory e.op && !e.finished && covers mask (classOf e.op) && (!acq || countsLd e.op)

/-- A scalar access that a fence of kind acq waits for: a load or an atomic (R256). -/
def fenceAccess (acq : Bool) (mask : Nat) (a : Access) : Bool := covers mask a.cls && (!acq || accCountsLd a)

/-- The earlier accesses that a fence covers have been performed (R256): in a handler, those of the frozen entries and those set
aside are earlier too (R255; log 40). -/
def fenceMet (th : Thread) (acq : Bool) (mask : Nat) : Bool :=
  !(th.vq ++ frozenMem th).any (fenceEntry acq mask) && !(allAccesses th).any (fenceAccess acq mask)

/-- Every earlier access of a thread has been performed (R259, R260). -/
def released (th : Thread) : Bool := fenceMet th false 0

/-- A copy of the vector queue goes to a queue of the mask. -/
def copyTo (mask : Nat) (e : VEntry) : Bool := match e.op with
  | .copy o => bitAt mask o.q.val
  | _ => false

/-- The copies of a thread in the queues of a mask are done (R257). -/
def queuesDone (s : State) (t : Tid) (mask : Nat) : Bool :=
  let th := getThread s t
  !(allEntries th).any (copyTo mask) &&
    ((ownCore s t).cqs.toList.zipIdx.all fun p =>
      !bitAt mask p.2 || !p.1.any fun x => decide (x.owner = threadOf t))

/-- The launch a thread works for. -/
def launchOf (s : State) (th : Thread) : Option Launch :=
  match th.launch with
  | some l => getLaunch s l
  | none => none

/-- The participant count of a barrier of a launch; 0 when it is undeclared (R259, R337). -/
def barrierCount (x : Option Launch) (n : Nat) : Nat :=
  match x with
  | some l => if n < l.hdr.nbar then bitsOf l.hdr.barcnt (8 * n) 8 else 0
  | none => 0

/-- The key of a barrier of a launch's share on a cluster. -/
def barKey (th : Thread) (n : Nat) : Nat := th.launch.getD 0 * 16 + n
/-- The key of those whose phase has completed while they were not waiting (a handler or a stop came between). -/
def leftKey (th : Thread) (n : Nat) : Nat := 2 ^ 64 + barKey th n

/-- How a barrier of a launch's share knows a thread: an MCC, or the iteration it runs, by its serial and its stage of at most
8, which go with it when it is saved and restored (R259, R339, R359; log 58). -/
def arrivalOf (t : Tid) (th : Thread) : Nat := if isMcc t then 0 else 8 * th.serial + th.stage + 1

/-- Put the list at a key, dropping an empty one. -/
def putList (m : SMap (List Nat)) (k : Nat) (l : List Nat) : SMap (List Nat) :=
  if l.isEmpty then mapDel m k else mapPut m k l

/-- A thread of a launch waits at barrier n. -/
def waitsAt (l : Option Nat) (n : Fin 16) (th : Thread) : Bool := decide (th.launch = l) && decide (th.wait = .barrier n)

/-- The threads of a cluster that wait at barrier n of a launch. -/
def waitingTids (s : State) (cl : Fin 64) (l : Option Nat) (n : Fin 16) : List Tid :=
  (clusterTids cl).filter fun t => waitsAt l n (getThread s t)

/-- A waiting thread proceeds past its barrier. -/
def proceed (s : State) (t : Tid) : State := updThread s t fun th => advance { th with wait := .none, early := [] } 4

/-- The phase of the barrier n that a thread's launch shares is complete: those who wait go on, and those who arrived and
are elsewhere, in a handler, stopped or saved, will (R259, R359). -/
def phaseDone (s : State) (cl : Fin 64) (th : Thread) (n : Fin 16) (arrived : List Nat) : State :=
  let here := (waitingTids s cl th.launch n).filter fun t => arrived.contains (arrivalOf t (getThread s t))
  let away := arrived.filter fun a => !(here.map fun t => arrivalOf t (getThread s t)).contains a
  let bars := (getCluster s cl).bars
  let b1 := putList bars (barKey th n.val) []
  let b2 := putList b1 (leftKey th n.val) (mapGet [] bars (leftKey th n.val) ++ away)
  here.foldl proceed (updCluster s cl fun c => { c with bars := b2 })

/-- fence: kind 0 acq, 1 rel, 2 full; the classes in ga (R99, R256). Every scope holds, an access being performed for
all parties at once (R292). -/
def execFence (a : Reg) (k _c : Fin 4) (s : State) : Out :=
  withRegs s [a] fun th =>
    if fenceMet th (decide (k.val = 0)) ((readG th a).toNat % 2 ^ 16) then
      if k.val = 1 then retire s th 4 else retireSync s th 4
    else stall s

/-- qfence: CQ0 to CQ3 on a vector core, the tile queue on an MCC; another bit is illegal (R99, R257). -/
def execQfence (q : Fin 32) (s : State) : Out :=
  let t := s.cur
  let th := getThread s t
  if isMcc t then
    if q.val % 16 ≠ 0 then illegal s t
    else if q.val = 0 ∨ (getCluster s (clusterOf t)).tq.isEmpty then retireSync s th 4 else stall s
  else if 16 ≤ q.val then illegal s t
  else if queuesDone s t q.val then retireSync s th 4 else stall s

/-- A counter is at or below its limit; 31 means no limit (R258). -/
def within (limit count : Nat) : Bool := decide (limit = 31) || decide (count ≤ limit)

/-- wait, for its parcel and its half (R91, R258). -/
def waitCounters (s : State) (l c p t : Nat) (len : Nat) : Out :=
  let th := getThread s s.cur
  if within l (ldCount th) && within c (stCount th) && within p (cpCount s s.cur) && within t (tlCount s s.cur) then
    retireSync s th len
  else stall s

/-- wait (R258). -/
def execWait (l c p t : Fin 32) (s : State) : Out :=
  waitCounters s l.val c.val p.val t.val 4

/-- hwait: wait 0, 0, 0, 0 (R91). -/
def execHwait (s : State) : Out :=
  waitCounters s 0 0 0 0 2

/-- bar: a release, an arrival, and a wait for the phase (R259). -/
def execBar (n : Fin 16) (s : State) : Out :=
  let t := s.cur
  let cl := clusterOf t
  let th := getThread s t
  let count := barrierCount (launchOf s th) n.val
  let bars := (getCluster s cl).bars
  let left := mapGet [] bars (leftKey th n.val)
  let arrived := mapGet [] bars (barKey th n.val)
  let me := arrivalOf t th
  if count = 0 then raise s t (causeInfo 0x0D n.val) false
  else if left.contains me then
    retireSync (updCluster s cl fun c => { c with bars := putList c.bars (leftKey th n.val) (left.filter fun x => decide (x ≠ me)) })
      th 4
  else if arrived.contains me then waitFor s t (.barrier n)
  else if !released th || (isMcc t && !(getCluster s cl).tq.isEmpty) then stall s
  else if arrived.length + 1 < count then
    waitFor (updCluster s cl fun c => { c with bars := mapPut c.bars (barKey th n.val) (arrived ++ [me]) }) t (.barrier n)
  else
    let s1 := phaseDone s cl th n arrived
    retireSync s1 (getThread s1 t) 4

/-- An access of a thread to a peer that is outstanding when no path to that peer is left (R374). -/
def lostAccess (s : State) (th : Thread) : Option Access :=
  th.out.find? fun a => match a.tgt with
    | .peer d _ _ => !reaches s d
    | _ => false

/-- The address of an access to a peer that lost every path while the wmpub at the pc waited: one still outstanding, or one that
has had its violation response meanwhile (R388). -/
def lostPath (s : State) (th : Thread) : Option Word :=
  match th.release with
  | some (pc, some va) => if pc = th.pc then some va else (lostAccess s th).map fun a => a.va
  | _ => (lostAccess s th).map fun a => a.va

/-- wmpub: a release, then the watermark rises to gb (R260, R344). When every path fails while it waits for an access to a
peer, it receives a violation response and releases nothing (R374, R388; log 76). -/
def execWmpub (a b : Reg) (s : State) : Out :=
  let t := s.cur
  withRegs s [a, b] fun th =>
    let wm := watermarkOf s th (readG th a)
    if !watermarkOwned (getCtx s th.ctx) wm then raise s t (causeInfo 0x07 wm) false
    else
      match lostPath s th with
      | some va =>
        let s1 := threadViolation s t va 4
        retire s1 { getThread s1 t with release := none } 4
      | none =>
        if !released th then stall (putThread s t { th with release := some (th.pc, none) })
        else
          retire { s with watermarks := mapPut s.watermarks wm (max (watermarkVal s wm) (readG th b).toNat) }
            { th with release := none } 4

/-- Issue an operation on a serial region descriptor (R262): 64 bytes at a 64-byte aligned address. It is in class 0, as amo
and cas are, and it acts on a scratchpad address too (log 65), and on a descriptor on a serial page as on any other (DESIGN CHOICE, log 114). -/
def regionAccess (s : State) (rs : List Reg) (a d : Reg) (order : Nat) (mk : Thread → AccKind) : Out :=
  let t := s.cur
  withDest s d rs fun th =>
    let va := readG th a
    match readTarget s t va 64 64 .both with
    | .error f => raise s t f false
    | .ok none => stall s
    | .ok (some tg) =>
      if Config.counterMax ≤ ldCount th then stall s
      else issueAccess s th { accessOf th (mk th) va 64 tg 0 d 0 with order := order, scope := 2 } 4

/-- apnd: gd receives RESERVE, which grows by gb (R262). -/
def execApnd (d a b : Reg) (s : State) : Out :=
  regionAccess s [a, b] a d 0 fun th => .append (readG th b)

/-- apub: publishes [gd, gd + gb) as a release (R262). -/
def execApub (d a b : Reg) (s : State) : Out :=
  regionAccess s [d, a, b] a 0 2 fun th => .publish (readG th b) (readG th d)

/-- bkset: an acquire that captures BASE, LIMIT and FRONTIER (R263). On a violation response each field reads as FILL
(R138; log 28). -/
def execBkset (a : Reg) (n : Fin 4) (s : State) : Out :=
  let t := s.cur
  withRegs s [a] fun th =>
    let va := readG th a
    match alignedTarget s (partyOf s t) va 64 64 .load with
    | .error f => raise s t f false
    | .ok tg =>
      if readAside s t tg 64 then raise s t (causeInfo 0x13 0) false
      else if !readReady s t tg 64 then stall s
      else if tgtPoison s tg 64 then raise s t (accFault 0x12 va.toNat) false
      else
        match currentTarget s tg with
        | .violation c =>
          let s1 := threadViolation s t va c
          retireSync s1 { getThread s1 t with bk := th.bk.set n.val { valid := true, frontier := th.fill, base := th.fill, limit := th.fill } } 4
        | tg' =>
          let word (k : Nat) : Word := BitVec.ofNat 64 (tgtRead s (tgtAdd tg' k) 8)
          retireSync s { th with bk := th.bk.set n.val { valid := true, frontier := word 24, base := word 0, limit := word 8 } } 4

/-- bkclr (R263). -/
def execBkclr (n : Fin 4) (s : State) : Out :=
  let th := getThread s s.cur
  retire s { th with bk := th.bk.set n.val Bookmark.none } 4

end Sys2Proof.Machine
end

