-- ==== Sys2Proof/Machine/Matrix.lean ====
section
/-!
DEFINITION. The tile queue and the matrix engine (R228 to R241): the MATRIX forms of the MCC as they issue, and the
engine's execution of the oldest entry.
-/

namespace Sys2Proof.Machine

/-- An operand of a MATRIX form as R232 shapes it: OPND of R227, logical rows and columns, element type, whether a
scratchpad operand may be transposed, and whether a slot operand is. -/
structure Shape where
  opnd : Nat
  rows : Nat
  cols : Nat
  ty : Nat
  mayT : Bool
  slotT : Bool
deriving DecidableEq, Repr

/-- The element type of an A or B type code (R109). -/
def tileType (code : Nat) : Nat := if code = 0 then 8 else if code = 1 then 9 else if code = 2 then 10 else 0
/-- The result type of a conversion code (R238). -/
def cvType (cv : Nat) : Nat :=
  if cv = 0 ∨ cv = 5 then 12 else if cv = 1 ∨ cv = 6 then 10 else if cv = 2 then 8 else if cv = 3 then 9 else 4

/-- M (R230). -/
def cfgM (c : MatCfg) : Nat := if c.m64 then 64 else 32
/-- N (R230). -/
def cfgN (c : MatCfg) : Nat := if c.n64 then 64 else 32
/-- G: 4 for BF16, 8 otherwise (R235). -/
def groupSize (c : MatCfg) : Nat := if c.tyA = 2 then 4 else 8

/-- The unit mask matches the shape in force (R109). -/
def unitsOk (c : MatCfg) (u : Nat) : Bool :=
  match c.m64, c.n64 with
  | false, false => decide (u = 1) || decide (u = 2) || decide (u = 4) || decide (u = 8)
  | false, true => decide (u = 3) || decide (u = 12)
  | true, false => decide (u = 5) || decide (u = 10)
  | true, true => decide (u = 15)

/-- The operands of an mma (R232). -/
def mmaShapes (c : MatCfg) (a b : Word) : List (Shape × Word) :=
  [({ opnd := 0, rows := cfgM c, cols := c.k, ty := tileType c.tyA, mayT := true, slotT := c.ta }, a),
   ({ opnd := 1, rows := c.k, cols := cfgN c, ty := tileType c.tyB, mayT := true, slotT := c.tb }, b)]

/-- The operands of an mmasp (R232). -/
def mmaspShapes (c : MatCfg) (a b m : Word) : List (Shape × Word) :=
  [({ opnd := 0, rows := cfgM c, cols := c.k / 2, ty := tileType c.tyA, mayT := false, slotT := false }, a),
   ({ opnd := 1, rows := c.k, cols := cfgN c, ty := tileType c.tyB, mayT := true, slotT := c.tb }, b),
   ({ opnd := 2, rows := cfgM c, cols := ceilDiv c.k 32, ty := 5, mayT := false, slotT := false }, m)]

/-- The target of an mdrain (R232). -/
def drainShape (c : MatCfg) (cv : Nat) : Shape :=
  { opnd := 3, rows := cfgM c, cols := cfgN c, ty := cvType cv, mayT := true, slotT := false }

/-- KIND: a scratchpad descriptor (R231). -/
def isSpad (w : Word) : Bool := bitAt w.toNat 63
/-- CORE (R231). -/
def descCore (w : Word) : Fin 8 := Fin.ofNat 8 (if isSpad w then bitsOf w.toNat 60 3 else bitsOf w.toNat 0 3)
/-- SLOT (R231). -/
def descSlot (w : Word) : Fin 16 := Fin.ofNat 16 (bitsOf w.toNat 3 4)
/-- OFFSET (R231). -/
def descOffset (w : Word) : Nat := bitsOf w.toNat 40 20
/-- 16 times PITCH (R231). -/
def descPitch (w : Word) : Nat := 16 * bitsOf w.toNat 28 12
/-- ROW0 (R231). -/
def descRow0 (w : Word) : Nat := bitsOf w.toNat 16 12
/-- RING (R231). -/
def descRing (w : Word) : Nat := bitsOf w.toNat 12 4
/-- SWZ (R231). -/
def descSwz (w : Word) : Nat := bitsOf w.toNat 10 2
/-- T (R231). -/
def descT (w : Word) : Bool := bitAt w.toNat 9

/-- The operand is stored transposed (R232). -/
def storedT (h : Shape) (w : Word) : Bool := if isSpad w then descT w else h.slotT
/-- Rows as stored (R232). -/
def storedRows (h : Shape) (w : Word) : Nat := if storedT h w then h.cols else h.rows
/-- Elements of a stored row (R232). -/
def storedCols (h : Shape) (w : Word) : Nat := if storedT h w then h.rows else h.cols
/-- Bytes of a stored row. -/
def rowBytes (h : Shape) (w : Word) : Nat := storedCols h w * scalarSize h.ty

/-- A malformed descriptor (R233). -/
def descMalformed (h : Shape) (w : Word) : Bool :=
  if isSpad w then
    decide (bitsOf w.toNat 0 9 ≠ 0) || decide (13 ≤ descRing w) || decide (descSwz w = 3) ||
      decide (descOffset w % 16 ≠ 0) || decide (descPitch w = 0) || decide (descPitch w < rowBytes h w) ||
      (decide (descSwz w = 1) && decide (descPitch w < 128)) || (decide (descSwz w = 2) && decide (descPitch w < 256)) ||
      (descT w && !h.mayT)
  else decide (bitsOf w.toNat 7 56 ≠ 0)

/-- The physical row of stored row r (R231). -/
def physRow (w : Word) (r : Nat) : Nat :=
  if descRing w = 0 then descRow0 w + r else (descRow0 w + r) % 2 ^ descRing w

/-- The runs of bytes of stored row r of a scratchpad operand: offset in the scratchpad, first byte of the row, bytes
(R215, R231). -/
def tileChunks (h : Shape) (w : Word) (r : Nat) : List (Nat × Nat × Nat) :=
  let p := physRow w r
  let row := descOffset w + p * descPitch w
  let rb := rowBytes h w
  if descSwz w = 0 then [(row, 0, rb)]
  else
    let g := if descSwz w = 1 then 8 else 16
    (upFrom 0 (ceilDiv rb 16)).map fun c => (row + 16 * (c ^^^ (p % g)), 16 * c, min 16 (rb - 16 * c))

/-- The lowest byte at or above a bound among runs of bytes. -/
def lowestOut (bound : Nat) (l : List (Nat × Nat × Nat)) : Option Nat :=
  l.foldl (fun acc x =>
    if x.1 + x.2.2 ≤ bound then acc
    else match acc with
      | none => some (max x.1 bound)
      | some y => some (min y (max x.1 bound))) none

/-- XINFO of a fault about a slot operand (R227). -/
def opndInfo (h : Shape) (w : Word) (st : SlotState) : Nat :=
  slotInfo (descCore w) st (descSlot w).val + h.opnd * 2 ^ 9

/-- The slot a descriptor names, of the share of the MCC's launch on that core. Slots belong to a launch's share: on a core that
does not serve the launch it is EMPTY (R220, R279; log 71). -/
def slotOf (s : State) (cl : Fin 64) (w : Word) : Slot :=
  if serves s cl (descCore w) (getThread s (.mcc cl)).launch then (getCore s cl (descCore w)).slots[(descSlot w).val]
  else Slot.reset

/-- What the first pass finds wrong with an operand (R233, R289). -/
def passOne (s : State) (cl : Fin 64) (launch : Option Nat) (x : Shape × Word) : Option FaultInfo :=
  let h := x.1
  let w := x.2
  if descMalformed h w then
    some (causeInfo 0x10
      (2 ^ 12 + if isSpad w then (descCore w).val * 2 ^ 6 + h.opnd * 2 ^ 9 else opndInfo h w (slotOf s cl w).st))
  else if isSpad w then
    let bound := if serves s cl (descCore w) launch then spadLimit s launch else 0
    (lowestOut bound ((upFrom 0 (storedRows h w)).flatMap (tileChunks h w))).map (causeInfo 0x09)
  else none

/-- The second pass: every slot operand is in the state that R220 requires (R233). -/
def slotsReady (s : State) (cl : Fin 64) (need : SlotState) (l : List (Shape × Word)) : Bool :=
  l.all fun x => isSpad x.2 || decide ((slotOf s cl x.2).st = need)

/-- A slot's row length, element count and type are what the operand's shape asks for; a grouped slot serves where
the type is bf16, and nowhere else (R223, R233). -/
def slotFits (x : Slot) (h : Shape) (w : Word) : Bool :=
  decide (x.rowLen = storedCols h w) &&
    decide (elemCount x.chain.len (scalarSize x.ty) = storedRows h w * storedCols h w) &&
    (if x.group = 0 then decide (x.ty = h.ty) else decide (h.ty = 10))

/-- What the third pass finds wrong with an operand (R233). -/
def passThree (s : State) (cl : Fin 64) (x : Shape × Word) : Option FaultInfo :=
  if isSpad x.2 then none
  else
    let sl := slotOf s cl x.2
    if slotFits sl x.1 x.2 then none else some (causeInfo 0x10 (2 ^ 11 + opndInfo x.1 x.2 sl.st))

/-- Cut a number into elements of `b` bits, the first lowest. -/
def splitElems (b : Nat) : Nat → Nat → List Nat
  | 0, _ => []
  | n + 1, v => v % 2 ^ b :: splitElems b n (v / 2 ^ b)

/-- Join elements of `b` bits, the first lowest. -/
def joinElems (b : Nat) : List Nat → Nat
  | [] => 0
  | x :: r => x % 2 ^ b + 2 ^ b * joinElems b r

/-- Cut a list into lists of n. -/
def rowsOf {α : Type} (n : Nat) : Nat → List α → List (List α)
  | 0, _ => []
  | k + 1, l => l.take n :: rowsOf n k (l.drop n)

/-- Row r of a scratchpad operand as one number (R231). -/
def spadRow (s : State) (cl : Fin 64) (h : Shape) (w : Word) (r : Nat) : Nat :=
  (tileChunks h w r).foldl (fun acc c =>
    acc + 2 ^ (8 * c.2.1) *
      memRead s.spad (spadKey cl ((descCore w).val * Config.spadBytes + c.1)) c.2.2) 0

/-- Some byte of a scratchpad operand is poisoned (R383). -/
def spadBad (s : State) (cl : Fin 64) (h : Shape) (w : Word) : Bool :=
  !s.poisonSpad.isEmpty &&
    ((upFrom 0 (storedRows h w)).flatMap (tileChunks h w)).any fun c =>
      tgtPoison s (.spad (spadKey cl ((descCore w).val * Config.spadBytes + c.1))) c.2.2

/-- What an operand gives the engine: the bits of its stored rows, the flags of dequantisation, and whether a byte
of it is poisoned. -/
structure Loaded where
  lines : List (List Nat)
  flags : BitVec 7
  bad : Bool
deriving DecidableEq, Repr

/-- Load an operand (R72, R223, R231). A scale beyond its chain is the FILL of the MCC, whose entry reads it (log 29). -/
def loadOperand (s : State) (cl : Fin 64) (x : Shape × Word) : Loaded :=
  let h := x.1
  let w := x.2
  let b := 8 * scalarSize h.ty
  let n := storedCols h w
  let k := storedRows h w
  if isSpad w then
    { lines := (upFrom 0 k).map fun r => splitElems b n (spadRow s cl h w r), flags := 0, bad := spadBad s cl h w }
  else
    let sl := slotOf s cl w
    let c := getCore s cl (descCore w)
    let st := streamOf c sl.chain
    if sl.group = 0 then
      { lines := rowsOf n k (splitElems b (n * k) st.val), flags := 0, bad := !st.bad.isEmpty }
    else
      let fill := (getThread s (.mcc cl)).fill.toNat % 2 ^ 16
      let sc := streamOf c sl.scale
      let l := (splitElems 8 (n * k) st.val).zipIdx.map fun q => groupedElem 10 0 q.1 (streamElem sc fill 2 (q.2 / sl.group))
      { lines := rowsOf n k (l.map fun r => r.bits), flags := l.foldl (fun f r => f ||| r.flags) 0
        bad := !st.bad.isEmpty || !sc.bad.isEmpty }

/-- The columns of rows of n elements. -/
def columns (n : Nat) (l : List (List Nat)) : List (List Nat) :=
  (upFrom 0 n).map fun j => l.map fun r => r.getD j 0

/-- The logical rows of an operand (R232). -/
def logicalRows (h : Shape) (w : Word) (l : List (List Nat)) : List (List Nat) :=
  if storedT h w then columns (storedCols h w) l else l
/-- The logical columns of an operand (R232). -/
def logicalCols (h : Shape) (w : Word) (l : List (List Nat)) : List (List Nat) :=
  if storedT h w then l else columns (storedCols h w) l

/-- The exact product of two elements (R53, R36): a NaN marked signalling when the product raises invalid. -/
def prodVal (x y : FVal) : FVal :=
  match x, y with
  | .nan a, .nan b => .nan (a || b)
  | .nan a, _ => .nan a
  | _, .nan b => .nan b
  | .inf a, .inf b => .inf (a != b)
  | .inf a, .num b m _ => if m = 0 then .nan true else .inf (a != b)
  | .num a m _, .inf b => if m = 0 then .nan true else .inf (a != b)
  | .num a m e, .num b k f => .num (a != b) (m * k) (e + f)

/-- The exact sum of two products (R36, R53): a zero sum is −0 only of two zeros that are −0. -/
def sumVal (x y : FVal) : FVal :=
  match x, y with
  | .nan a, .nan b => .nan (a || b)
  | .nan a, _ => .nan a
  | _, .nan b => .nan b
  | .inf a, .inf b => if a = b then .inf a else .nan true
  | .inf a, _ => .inf a
  | _, .inf b => .inf b
  | .num a m e, .num b k f =>
    let g := min e f
    let u : Int := (if a then -1 else 1) * ((m * 2 ^ (e - g).toNat : Nat) : Int)
    let v : Int := (if b then -1 else 1) * ((k * 2 ^ (f - g).toNat : Nat) : Int)
    if u + v = 0 then .num (decide (m = 0) && decide (k = 0) && a && b) 0 0
    else .num (decide (u + v < 0)) (u + v).natAbs g

/-- The exact sum of a group's products (R53): infinities of both signs or an invalid product count wherever they
stand, so the numbers, the infinities and the NaNs of the group are met in turn. -/
def groupSum (l : List (FVal × FVal)) : FVal :=
  match l.map fun p => prodVal p.1 p.2 with
  | [] => .num false 0 0
  | x :: r =>
    let s := r.foldl sumVal x
    let ps := x :: r
    if ps.contains (.inf true) && ps.contains (.inf false) then .nan true else s

/-- One addition of a group sum to an f32 accumulator (R35, R37, R53). -/
def accAdd (acc : Nat) (l : List (FVal × FVal)) : Res :=
  addVal (fmtOf 12) 0 (unpack (fmtOf 12) acc) (groupSum l)

/-- One group of i8 products added to an rn30 accumulator (R45, R234, R235). -/
def accAddRn (acc : Nat) (l : List (Nat × Nat)) : Res :=
  let v := if rnValid acc then rnValue acc else 0
  let g : Int := l.foldl (fun t p => t + toSigned 8 p.1 * toSigned 8 p.2) 0
  { bits := rnEncode (v + g), flags := if rnValid acc then 0 else flagInv, exc := false }

/-- Apply an accumulation to every output: rows of A beside rows of accumulators, columns of B along them. -/
def mapOutputs {α β : Type} (f : Nat → α → β → Res) (acc : List (List Nat)) (a : List α) (b : List β) :
    List (List Nat) × BitVec 7 :=
  let l := (acc.zip a).map fun p => (p.1.zip b).map fun q => f q.1 p.2 q.2
  (l.map fun r => r.map fun x => x.bits, l.foldl (fun t r => r.foldl (fun u x => u ||| x.flags) t) 0)

/-- The groups of an mma, in increasing K order (R53, R235): `f` does one output of one group. -/
def mmaLoop {α : Type} (g : Nat) (f : Nat → List α → List α → Res) :
    Nat → List (List Nat) → List (List α) → List (List α) → BitVec 7 → List (List Nat) × BitVec 7
  | 0, acc, _, _, fl => (acc, fl)
  | n + 1, acc, a, b, fl =>
    let r := mapOutputs f acc (a.map fun x => x.take g) (b.map fun x => x.take g)
    mmaLoop g f n r.1 (a.map fun x => x.drop g) (b.map fun x => x.drop g) (fl ||| r.2)

/-- The metadata code of group g of a row of metadata words (R237). -/
def metaCode (row : List Nat) (g : Nat) : Nat := bitsOf (row.getD (g / 8) 0) (4 * (g % 8)) 4
/-- A legal code: first below second (R237). -/
def metaOk (code : Nat) : Bool := decide (code % 4 < code / 4)

/-- The first illegal code of the step that begins at st: its row and group (R237). -/
def metaBad (meta_ : List (List Nat)) (st : Nat) : Option (Nat × Nat) :=
  (meta_.zipIdx.flatMap fun p => (upFrom (st / 4) 4).filterMap fun g =>
    if metaOk (metaCode p.1 g) then none else some (p.2, g)).head?

/-- The kept elements of a compressed row in one step, with their positions in the step (R237). From a VSTART that is no multiple
of 16 the step takes the groups from floor(st / 4) on, and one that begins before st counts as beginning there (DESIGN CHOICE, log 112). -/
def keptOf {α : Type} (dflt : α) (row : List α) (meta_ : List Nat) (st : Nat) : List (Nat × α) :=
  (upFrom (st / 4) 4).flatMap fun g =>
    let c := metaCode meta_ g
    [(4 * g - st + c % 4, row.getD (2 * g) dflt), (4 * g - st + c / 4, row.getD (2 * g + 1) dflt)]

/-- The steps of an mmasp (R237): the accumulators, the flags, and where an illegal code stopped it. -/
def mmaspLoop (a : List (List FVal)) (meta_ : List (List Nat)) :
    Nat → Nat → List (List Nat) → List (List FVal) → BitVec 7 → List (List Nat) × BitVec 7 × Option (Nat × Nat × Nat)
  | 0, _, acc, _, fl => (acc, fl, none)
  | n + 1, st, acc, b, fl =>
    match metaBad meta_ st with
    | some p => (acc, fl, some (st, p.1, p.2))
    | none =>
      let kept := (a.zip meta_).map fun p => keptOf (FVal.num false 0 0) p.1 p.2 st
      let r := mapOutputs (fun x k col => accAdd x (k.map fun q => (q.2, col.getD q.1 (.num false 0 0)))) acc kept
        (b.map fun x => x.take 16)
      mmaspLoop a meta_ n (st + 16) r.1 (b.map fun x => x.drop 16) (fl ||| r.2)

/-- The unit that holds block (br, bc) under a mask (R234). -/
def unitAt (u br bc : Nat) : Nat := trailingZeros 4 u + 2 * br + bc
/-- The first element of an accumulator. -/
def accBase (unit ac : Nat) : Nat := unit * 4096 + ac * 1024

/-- The n entries of a table from `lo`, absent ones 0. -/
def expand : Nat → Nat → SMap Nat → List Nat
  | 0, _, _ => []
  | n + 1, lo, [] => 0 :: expand n (lo + 1) []
  | n + 1, lo, (k, v) :: r => if k = lo then v :: expand n (lo + 1) r else 0 :: expand n (lo + 1) ((k, v) :: r)

/-- One accumulator of one unit. -/
def accBlock (c : Cluster) (unit ac : Nat) : List Nat :=
  let lo := accBase unit ac
  expand 1024 lo (c.acc.filter fun p => decide (lo ≤ p.1) && decide (p.1 < lo + 1024))

/-- Replace one accumulator of one unit; a zero is not listed. -/
def putBlock (m : SMap Nat) (unit ac : Nat) (l : List Nat) : SMap Nat :=
  let lo := accBase unit ac
  m.filter (fun p => decide (p.1 < lo)) ++
    (l.zipIdx.filterMap fun q => if q.1 = 0 then none else some (lo + q.2, q.1)) ++
    m.filter fun p => decide (lo + 1024 ≤ p.1)

/-- The block rows and block columns of a shape (R234). -/
def blocksOf (c : MatCfg) : List (Nat × Nat) :=
  (upFrom 0 (cfgM c / 32)).flatMap fun i => (upFrom 0 (cfgN c / 32)).map fun j => (i, j)

/-- The accumulators of a unit mask as the rows of the M x N output (R234). -/
def gatherAcc (c : Cluster) (u ac : Nat) : List (List Nat) :=
  let block (br bc : Nat) : List (List Nat) := rowsOf 32 32 (accBlock c (unitAt u br bc) ac)
  (upFrom 0 (cfgM c.cfg / 32)).flatMap fun br =>
    if c.cfg.n64 then ((block br 0).zip (block br 1)).map fun p => p.1 ++ p.2 else block br 0

/-- Put the rows of the M x N output back (R234). -/
def scatterAcc (c : Cluster) (u ac : Nat) (rows : List (List Nat)) : Cluster :=
  { c with acc := (blocksOf c.cfg).foldl (fun m p =>
      putBlock m (unitAt u p.1 p.2) ac
        (((rows.drop (32 * p.1)).take 32).flatMap fun r => (r.drop (32 * p.2)).take 32)) c.acc }

/-- Count products in the accumulators of a mask; the count saturates (R47, R235). -/
def addCounts (c : Cluster) (u ac n : Nat) : Cluster :=
  { c with counts := (blocksOf c.cfg).foldl (fun m p =>
      let q := unitAt u p.1 p.2 * 4 + ac
      mapPut m q (min (mapGet 0 m q + n) (Config.exactProducts + 1))) c.counts }

/-- A flag of the engine as the TSW holds it: FFLAGS' places, without DZ and VIOL (R55, R240). -/
def tswBits (f : BitVec 7) : BitVec 8 := (f &&& 0x37).setWidth 8
/-- TSW.RANGE (R240). -/
def tswRange : BitVec 8 := 0x80

/-- The entry has completed: it leaves the queue, and its leave is returned (R228, R281). -/
def tileDone (s : State) (cl : Fin 64) : State :=
  updCluster s cl fun c => returnLeave { c with tq := c.tq.drop 1, tileProg := 0 } .tile

/-- The entry faults: the engine stops at it, and the MCC reports (R241). -/
def tileFault (s : State) (cl : Fin 64) (e : TileEntry) (f : FaultInfo) : State :=
  let s1 := updCluster s cl fun c => returnLeave { c with tileFault := true, tileProg := 0 } .tile
  takeFault s1 (.mcc cl) f (some (e.pc, 0)) e.pc (getThread s1 (.mcc cl)).pc

/-- .rel: the slot operands are released and their slots EMPTY (R235). -/
def relSlots (s : State) (cl : Fin 64) : List (Shape × Word) → State
  | [] => s
  | x :: r =>
    relSlots
      (if isSpad x.2 ∨ (slotOf s cl x.2).st ≠ .bound then s
       else updCore s cl (descCore x.2) fun c => emptySlot c (descSlot x.2)) cl r

/-- VSTART := 0 (R235, R237). -/
def clearVstart (s : State) (cl : Fin 64) : State := updThread s (.mcc cl) fun th => { th with vstart := 0 }

/-- The poison fault of an operand (R241). XELEM is 0, as for its scratchpad bound: an operand has no element index (DESIGN CHOICE,
log 113). -/
def tilePoison (start : Nat) (h : Shape) : FaultInfo :=
  { cause := 0x12, elem := 0, info := h.opnd * 2 ^ 9, start := start }

/-- The result of an mma or mmasp goes to the accumulators and the TSW (R47, R53). -/
def putProducts (c : Cluster) (u ac : Nat) (rows : List (List Nat)) (n : Nat) (f : BitVec 7) : Cluster :=
  let c1 := addCounts (scatterAcc c u ac rows) u ac n
  { c1 with tsw := c1.tsw ||| tswBits f }

/-- An accumulator that an entry reads has an uncorrectable error: poisoned data (R241, R380). The operand code of its
report is a free value (log 3). -/
def withAccumulators (s : State) (cl : Fin 64) (e : TileEntry) (u ac start : Nat) (k : State → State) : State :=
  let c := getCluster s cl
  let bad := (blocksOf c.cfg).any fun p =>
    let lo := accBase (unitAt u p.1 p.2) ac
    c.accBad.any fun x => decide (lo ≤ x) && decide (x < lo + 1024)
  if bad then
    let d := drawFree s
    tileFault d.2 cl e { cause := 0x12, elem := 0, info := (Config.freeOpnd d.1).val * 2 ^ 9, start := start }
  else k s

/-- The operand checks (R233) with what follows when they pass; nothing happens while a slot is not ready. -/
def withOperands (s : State) (cl : Fin 64) (e : TileEntry) (need : SlotState) (l : List (Shape × Word)) (start : Nat)
    (k : State → State) : State :=
  let fail (f : FaultInfo) : State := tileFault s cl e { f with start := start }
  match l.findSome? (passOne s cl (getThread s (.mcc cl)).launch) with
  | some f => fail f
  | none =>
    if !slotsReady s cl need l then s
    else
      match l.findSome? (passThree s cl) with
      | some f => fail f
      | none => k s

/-- The units of power leave that an entry asks for: none for mcfg, and none while the MCC holds leave for matrix operations
(R154, R228, R281). -/
def tileUnits (th : Thread) (op : TileOp) : Nat :=
  if bitAt th.leaveKinds 0 then 0
  else
    match op with
    | .mcfg _ => 0
    | .mma u _ _ _ _ => popcount 4 u.val
    | .mmasp u _ _ _ _ _ => popcount 4 u.val
    | .mzero u _ => popcount 4 u.val
    | .mdrain u _ _ _ _ _ => popcount 4 u.val

/-- An entry goes on once it has its leave. It asks after its operand checks, when every slot it names is ready: one that
waits for a slot holds none (R228, R280; log 70). -/
def withLeave (s : State) (cl : Fin 64) (e : TileEntry) (k : State → State) : State :=
  let n := tileUnits (getThread s (.mcc cl)) e.op
  if n = 0 then k s
  else
    let r := askLeave (getCluster s cl) .tile n
    if r.2 then k (putCluster s cl r.1) else putCluster s cl r.1

/-- A group has been added: the entry goes on at K index `next`, or completes when that reaches k, its slot operands
released under .rel (R235, R237). -/
def tileNext (s : State) (cl : Fin 64) (next : Nat) (rel : Bool) (ops : List (Shape × Word)) : State :=
  if (getCluster s cl).cfg.k ≤ next then clearVstart (tileDone (if rel then relSlots s cl ops else s) cl) cl
  else updCluster s cl fun c => { c with tileProg := next }

/-- Decode the elements of operand rows of a type code. -/
def decodeRows (ty : Nat) (l : List (List Nat)) : List (List FVal) := l.map fun r => r.map (unpack (fmtOf (tileType ty)))

/-- One group of an mma (R235): the operands are read, the group at the entry's K index is added and counted. From a VSTART that
is no multiple of G the last group ends at k, and from one at or beyond k nothing is added (DESIGN CHOICE, log 111). -/
def runMma (s : State) (cl : Fin 64) (e : TileEntry) (u ac : Nat) (rel : Bool) (a b : Word) : State :=
  let start := (getCluster s cl).tileProg
  let ops := mmaShapes (getCluster s cl).cfg a b
  withOperands s cl e .bound ops start fun s => withLeave s cl e fun s => withAccumulators s cl e u ac start fun s =>
    let c := getCluster s cl
    let ld := ops.map fun x => (x, loadOperand s cl x)
    match ld.find? fun p => p.2.bad with
    | some p => tileFault s cl e (tilePoison start p.1.1)
    | none =>
      match ld with
      | [(xa, la), (xb, lb)] =>
        let rows := (logicalRows xa.1 xa.2 la.lines).map fun l => l.drop start
        let cols := (logicalCols xb.1 xb.2 lb.lines).map fun l => l.drop start
        let g := min (groupSize c.cfg) (c.cfg.k - start)
        let acc := gatherAcc c u ac
        let r :=
          if c.cfg.rn30 then mmaLoop g (fun x p q => accAddRn x (p.zip q)) 1 acc rows cols 0
          else mmaLoop g (fun x p q => accAdd x (p.zip q)) 1 acc (decodeRows c.cfg.tyA rows) (decodeRows c.cfg.tyB cols) 0
        if g = 0 then tileNext s cl start rel ops
        else tileNext (putCluster s cl (putProducts c u ac r.1 g (r.2 ||| la.flags ||| lb.flags))) cl (start + g) rel ops
      | _ => s

/-- The illegal metadata of the step of an mmasp that begins at K index st: its rows and groups, and the fault (R237). -/
def metaFault (meta_ : List (List Nat)) (st : Nat) : Option FaultInfo :=
  (metaBad meta_ st).map fun p => { cause := 0x0B, elem := 0, info := p.1 * 2 ^ 16 + p.2, start := st }

/-- One step of 16 of an mmasp (R237): its metadata is checked before any output changes, and before the poison of its operands
and accumulators, unless the metadata is poisoned itself (R358). -/
def runMmasp (s : State) (cl : Fin 64) (e : TileEntry) (u ac : Nat) (rel : Bool) (a b m : Word) : State :=
  let start := (getCluster s cl).tileProg
  let ops := mmaspShapes (getCluster s cl).cfg a b m
  withOperands s cl e .bound ops start fun s => withLeave s cl e fun s =>
    let c := getCluster s cl
    let ld := ops.map fun x => (x, loadOperand s cl x)
    match ld with
    | [(_, la), (xb, lb), (_, lm)] =>
      (match if lm.bad || decide (c.cfg.k ≤ start) then none else metaFault lm.lines start with
      | some f => tileFault s cl e f
      | none =>
        withAccumulators s cl e u ac start fun s =>
          match ld.find? fun p => p.2.bad with
          | some p => tileFault s cl e (tilePoison start p.1.1)
          | none =>
            if c.cfg.k ≤ start then tileNext s cl start rel ops
            else
              let cols := (logicalCols xb.1 xb.2 lb.lines).map fun l => l.drop start
              let r := mmaspLoop (decodeRows c.cfg.tyA la.lines) lm.lines 1 start (gatherAcc c u ac) (decodeRows c.cfg.tyB cols) 0
              tileNext (putCluster s cl (putProducts c u ac r.1 8 (r.2.1 ||| lb.flags))) cl (start + 16) rel ops)
    | _ => s

/-- An mzero (R236). -/
def runMzero (s : State) (cl : Fin 64) (u ac : Nat) : State :=
  tileDone (updCluster s cl fun c =>
    (upFrom 0 4).foldl (fun c q =>
      if bitAt u q then
        { c with acc := putBlock c.acc q ac [], counts := mapDel c.counts (q * 4 + ac)
                 accBad := c.accBad.filter fun x => !(decide (accBase q ac ≤ x) && decide (x < accBase q ac + 1024)) }
      else c) c) cl

/-- One drained value (R234, R238): the accumulator's container, converted. -/
def drainElem (rn : Bool) (cv rm : Nat) (scale : Option Word) (x : Nat) : Res :=
  let bad := rn && !rnValid x
  let v : Int := if bad then 0 else rnValue x
  let fl : BitVec 7 := if bad then flagInv else 0
  if cv = 4 then { bits := ofSigned 32 v, flags := fl, exc := false }
  else
    let src : FVal := if rn then .num (decide (v < 0)) v.natAbs 0 else unpack (fmtOf 12) x
    let sg : FVal := match scale with
      | some w => unpack (fmtOf 12) (w.toNat % 2 ^ 32)
      | none => .num false 1 0
    let r := mulVal (fmtOf (cvType cv)) .convert rm src sg
    { r with flags := r.flags ||| fl }

/-- A drained output has a product count above what is exact (R47). -/
def rangeUncertain (c : Cluster) (u ac : Nat) : Bool :=
  c.cfg.rn30 && (blocksOf c.cfg).any fun p => decide (Config.exactProducts < mapGet 0 c.counts (unitAt u p.1 p.2 * 4 + ac))

/-- Write the rows of a drain to a scratchpad target (R231, R239), in one step (log 84). -/
def writeTile (s : State) (cl : Fin 64) (h : Shape) (w : Word) (b : Nat) (rows : List (List Nat)) : State :=
  rows.zipIdx.foldl (fun s p =>
    (tileChunks h w p.2).foldl (fun s c =>
      tgtWrite s (.spad (spadKey cl ((descCore w).val * Config.spadBytes + c.1))) c.2.2
        (bitsOf (joinElems b p.1) (8 * c.2.1) (8 * c.2.2))) s) s

/-- Fill a TARGET slot with a fresh chain, charged to its owner (R239). -/
def fillSlot (s : State) (cl : Fin 64) (h : Shape) (w : Word) (b : Nat) (vals : List Nat) :
    Except AllocErr State :=
  let co := descCore w
  let sl := slotOf s cl w
  let n := vals.length * (b / 8)
  match appendBytes sl.owner (getThread s (.vec cl co sl.owner)).budget (n / 64 + 2) (getCore s cl co) Desc.empty n
      (joinElems b vals) with
  | .error x => .error x
  | .ok (c, d) =>
    .ok (putCore s cl co (putSlot c (descSlot w)
      { sl with st := .filled, chain := d, scale := Desc.empty, rowLen := h.cols, ty := h.ty, group := 0 }))

/-- An mdrain (R238, R239). Pool exhaustion comes before the poison of an accumulator (R358). -/
def runMdrain (s : State) (cl : Fin 64) (e : TileEntry) (u ac cv rm : Nat) (scale : Option Word) (w : Word) : State :=
  let c := getCluster s cl
  let h := drainShape c.cfg cv
  let fail (f : FaultInfo) : State := tileFault s cl e f
  match passOne s cl (getThread s (.mcc cl)).launch (h, w) with
  | some f => fail f
  | none =>
    if !slotsReady s cl .target [(h, w)] then s
    else withLeave s cl e fun s =>
      let c := getCluster s cl
      let out := (gatherAcc c u ac).map fun r => r.map (drainElem c.cfg.rn30 cv rm scale)
      let rows := out.map fun r => r.map fun x => x.bits
      let fl := out.foldl (fun t r => r.foldl (fun y x => y ||| x.flags) t) 0
      let tsw := c.tsw ||| tswBits fl ||| if rangeUncertain c u ac then tswRange else 0
      let b := 8 * scalarSize h.ty
      if isSpad w then
        let st := if descT w then columns h.cols rows else rows
        withAccumulators s cl e u ac 0 fun s =>
          tileDone (updCluster (writeTile s cl h w b st) cl fun c => { c with tsw := tsw }) cl
      else
        match fillSlot s cl h w b rows.flatten with
        | .ok s1 => withAccumulators s cl e u ac 0 fun _ => tileDone (updCluster s1 cl fun c => { c with tsw := tsw }) cl
        | .error .wait => s
        | .error (.exhausted z) => tileFault s cl e (causeInfo 0x04 (if z then 1 else 0))

/-- An entry waits for the accesses of the MCC before it (R228). -/
def tileHeld (th : Thread) (e : TileEntry) : Bool := th.out.any fun a => decide (a.stamp < e.stamp)

/-- Run an entry. -/
def tileRun (s : State) (cl : Fin 64) (e : TileEntry) : State :=
  match e.op with
  | .mcfg c => tileDone (updCluster s cl fun x => { x with cfg := c }) cl
  | .mma u ac rel a b => runMma s cl e u.val ac.val rel a b
  | .mmasp u ac rel a b m => runMmasp s cl e u.val ac.val rel a b m
  | .mzero u ac => withLeave s cl e fun s => runMzero s cl u.val ac.val
  | .mdrain u ac cv rm scale d => runMdrain s cl e u.val ac.val cv rm scale d

/-- TILE_ENTRY_EXECUTE: the engine performs the oldest entry, an mma or mmasp one group at a time, if the engine is not
stopped, the MCC runs, and the entry need not wait (R228, R241). -/
def tileStep (s : State) (cl : Fin 64) : State :=
  let c := getCluster s cl
  let th := getThread s (.mcc cl)
  match c.tq with
  | [] => s
  | e :: _ =>
    if c.tileFault || !vectorActive th || tileHeld th e then s else tileRun s cl e

/-- The configuration in force at the end of the queue (R228). -/
def issueCfg (c : Cluster) : MatCfg :=
  c.tq.foldl (fun x e => match e.op with
    | .mcfg y => y
    | _ => x) c.cfg

/-- Issue a MATRIX form (R109, R228): illegal on a vector core or when its check fails; the MCC stalls while the queue
is full. -/
def issueTile (s : State) (rs : List Reg) (ok : MatCfg → Bool) (mk : Thread → TileOp) : Out :=
  let t := s.cur
  let c := getCluster s (clusterOf t)
  if !isMcc t || !ok (issueCfg c) then illegal s t
  else
    withRegs s rs fun th =>
      if Config.tqDepth ≤ c.tq.length then stall s
      else
        retire (updCluster s (clusterOf t) fun c => { c with tq := c.tq ++ [{ op := mk th, pc := th.pc, stamp := th.nextStamp }] })
          { th with nextStamp := th.nextStamp + 1 } 8

/-- mcfg (R230). -/
def execMcfg (tyA tyB : Fin 4) (acc m64 n64 : Bool) (k : Fin 64) (tb ta : Bool) (s : State) : Out :=
  issueTile s [] (fun _ => true) fun _ =>
    .mcfg { tyA := tyA.val, tyB := tyB.val, rn30 := acc, m64 := m64, n64 := n64, k := 8 * (k.val + 1), ta := ta, tb := tb }

/-- mma (R235). -/
def execMma (u : Fin 16) (ac : Fin 4) (rel : Bool) (a b : Reg) (s : State) : Out :=
  issueTile s [a, b] (fun c => unitsOk c u.val) fun th => .mma u ac rel (readG th a) (readG th b)

/-- mmasp under the configuration: k a multiple of 16, A in FP8, no .ta (R237). -/
def sparseOk (c : MatCfg) : Bool := decide (c.k % 16 = 0) && decide (c.tyA < 2) && !c.ta

/-- mmasp (R237). -/
def execMmasp (u : Fin 16) (ac : Fin 4) (rel : Bool) (a b c : Reg) (s : State) : Out :=
  issueTile s [a, b, c] (fun x => unitsOk x u.val && sparseOk x) fun th =>
    .mmasp u ac rel (readG th a) (readG th b) (readG th c)

/-- mzero (R236). -/
def execMzero (u : Fin 16) (ac : Fin 4) (s : State) : Out :=
  issueTile s [] (fun _ => true) fun _ => .mzero u ac

/-- The rounding mode of an mdrain: code 7 takes FRM (R33, R238). -/
def drainMode (th : Thread) (rm : Fin 8) : Nat := if rm.val = 7 then th.frm.toNat else rm.val

/-- mdrain: cv must match the accumulator kind, and FRM 5 to 7 is illegal (R109, R238). -/
def execMdrain (u : Fin 16) (ac : Fin 4) (cv : Fin 16) (rm : Fin 8) (scaled : Bool) (d g : Reg) (s : State) : Out :=
  let th := getThread s s.cur
  issueTile s (d :: if scaled then [g] else [])
    (fun c => unitsOk c u.val && decide ((4 ≤ cv.val) ↔ c.rn30 = true) && decide (drainMode th rm ≤ 4))
    fun th => .mdrain u ac cv.val (drainMode th rm) (if scaled then some (readG th g) else none) (readG th d)

/-- mwait (R229). -/
def execMwait (n : Fin 256) (s : State) : Out :=
  let t := s.cur
  if !isMcc t then illegal s t
  else if (getCluster s (clusterOf t)).tq.length ≤ n.val then retireSync s (getThread s t) 8
  else stall s

end Sys2Proof.Machine
end

