-- ==== Sys2Proof/Machine/Launch.lean ====
section
/-!
DEFINITION. Launches as data: queue blocks (R331), packets (R334 to R336), kernel headers (R285, R337), the tests of
R338, the iteration space (R339), shares (R340 to R342), what a thread holds when its iteration arrives (R8, R60, R86,
R311), cores as they are given and returned (R23, R341, R367), and exit (R22, R151).
-/

namespace Sys2Proof.Machine

/-- Byte places of the words of a queue block (R331). -/
def qHead : Nat := 0x00
def qTail : Nat := 0x08
def qDone : Nat := 0x10
def qErr : Nat := 0x18
def qBind : Nat := 0x20
def qStart : Nat := 0x28

/-- A word of a queue block (R331). -/
def blockWord (s : State) (q : Queue) (off : Nat) : Nat := memRead s.mem (q.block + off) 8
/-- Write a word of a queue block, as a release at system scope (R331); its line stays poisoned when it is (R382). -/
def putBlockWord (s : State) (q : Queue) (off v : Nat) : State :=
  { s with mem := memWrite s.mem (q.block + off) 8 v, overlaid := noteOver s (q.block + off) 8 }
/-- A queue block cannot be read (R331, R382). -/
def blockPoisoned (s : State) (q : Queue) : Bool := s.poisonLines.contains (q.block / 64)
/-- A queue, if it is bound. -/
def getQueue (s : State) (n : Nat) : Option Queue := mapFind s.queues n
/-- Put a queue back. -/
def putQueue (s : State) (n : Nat) (q : Queue) : State := { s with queues := mapPut s.queues n q }
/-- Raise an MSI-X vector (R345). -/
def raiseMsix (s : State) (v : Nat) : State := { s with msix := s.msix ++ [v] }

/-- Where an address of a queue's context leads a front end (R331, R352): a target or a violation code (R338). A front end belongs
to no cluster, so that an address in the context's scratchpad window is a failed translation (log 90). The page of a peer that does
not answer cannot be read, with code 4, and is tried again (DESIGN CHOICE, log 105). -/
def frontTarget (s : State) (ctx : Fin 4096) (va : Word) (n : Nat) : Except Nat Target :=
  let base := (getCtx s ctx).spbase.toNat
  if !isCanon va || (decide (base ≤ va.toNat) && decide (va.toNat < base + Config.windowBytes)) then .error 5
  else
    match walkTables s (va.toNat % 2 ^ 52) [0, 1, 2, 3] (getCtx s ctx).ptroot with
    | none => .error 5
    | some (e, lvl) =>
      if !permits e .load then .error 6
      else
        let sz := 2 ^ levelShift lvl
        let pa := pteAddr e / sz * sz + va.toNat % sz
        let t : Target := if ofPeer s e then .peer (ptePdev e) pa false else .dev pa false
        if ofPeer s e && !reaches s (ptePdev e) then .error 4
        else if tgtPoison s t n then .error 8
        else .ok t

/-- Read `k` pieces of 64 bytes, each translated by its first byte; the error holds the address and the code. The manual says
nothing of a NEXT address that is not 64-byte aligned: its packet is read there all the same (R332; log 89). -/
def frontRead (s : State) (ctx : Fin 4096) : Nat → Word → Except (Word × Nat) Nat
  | 0, _ => .ok 0
  | k + 1, va =>
    match frontTarget s ctx va 64 with
    | .error c => .error (va, c)
    | .ok t =>
      match frontRead s ctx k (va + 64) with
      | .error e => .error e
      | .ok r => .ok (tgtRead s t 64 + 2 ^ 512 * r)

/-- Log a front end's failed read (R338): an engine access of no cluster (log 30). -/
def frontLog (s : State) (ctx : Fin 4096) (va : Word) (code : Nat) : State :=
  logViolation s ctx { src := 1, cl := 0, co := 0, th := 0, mcc := false } va code

/-- A packet as its producer wrote it (R334 to R336). -/
structure Packet where
  next : Word
  seq : Nat
  entry : Word
  hdr : Word
  n : Nat
  c : Nat
  o1 : Nat
  o2 : Nat
  flags : Nat
  args : List Word
  stages : Nat
  soff : List Word
  waits : List WaitEntry
  wmbase : Nat
  prio : Nat
  reserved : Bool
deriving DecidableEq, Repr

/-- The k-th wait entry: its high half (R336). -/
def waitHigh (p k : Nat) : Nat := bitsOf p (1280 + 128 * k + 64) 64

/-- The valid wait entries of a packet (R336). -/
def packetWaits (p : Nat) : List WaitEntry :=
  (upFrom 0 4).filterMap fun k =>
    let h := waitHigh p k
    if bitAt h 15 then
      some { queue := bitsOf h 0 8, seq := bitsOf p (1280 + 128 * k) 64, start := bitAt h 8 }
    else none

/-- A bit of the packet, of FLAGS or of a wait entry that must be 0 is set (R334 to R336). -/
def packetReserved (p : Nat) : Bool :=
  decide (bitsOf p 1816 232 ≠ 0) || decide (bitsOf p 432 16 ≠ 0) || decide (bitsOf p 420 4 ≠ 0) ||
    (upFrom 0 4).any fun k =>
      let h := waitHigh p k
      decide (bitsOf h 9 6 ≠ 0) || decide (bitsOf h 16 48 ≠ 0)

/-- The fields of the 256 bytes of a packet (R334). -/
def packetOf (p : Nat) : Packet :=
  { next := BitVec.ofNat 64 (bitsOf p 0 64), seq := bitsOf p 64 64, entry := BitVec.ofNat 64 (bitsOf p 128 64)
    hdr := BitVec.ofNat 64 (bitsOf p 192 64), n := bitsOf p 256 64, c := bitsOf p 320 32, o1 := bitsOf p 352 32
    o2 := bitsOf p 384 32, flags := bitsOf p 416 32
    args := (upFrom 0 9).map fun k => BitVec.ofNat 64 (bitsOf p (448 + 64 * k) 64)
    stages := bitsOf p 1024 32
    soff := (upFrom 0 7).map fun k => extend true 32 (bitsOf p (1056 + 32 * k) 32)
    waits := packetWaits p, wmbase := bitsOf p 1792 16, prio := bitsOf p 1808 8, reserved := packetReserved p }

/-- The fields of a kernel header (R337). -/
def headerOf (h : Nat) : Header :=
  { nv := bitsOf h 32 8, nm := bitsOf h 40 8, nbar := bitsOf h 48 8, tpc := bitsOf h 56 8, lbud := bitsOf h 64 32
    spad := bitsOf h 96 32, mccent := bitsOf h 128 64, pats := bitsOf h 192 64, barcnt := bitsOf h 256 128
    stack := bitsOf h 384 64 }

/-- MAGIC: the bytes "KL64" (R337). -/
def headerMagic : Nat := 0x34364C4B

/-- A header that fits a core (R285). -/
def headerFits (h : Nat) : Bool :=
  let x := headerOf h
  decide (bitsOf h 0 32 = headerMagic) && decide (1 ≤ x.nv) && decide (x.nv ≤ 32) && decide (1 ≤ x.nm) &&
    decide (x.nm ≤ 48) && decide (x.nbar ≤ 16) && decide (1 ≤ x.tpc) && decide (x.tpc ≤ 4) && decide (1 ≤ x.lbud) &&
    decide (x.lbud ≤ Config.poolLeaves) && decide (x.spad ≤ Config.spadBytes) &&
    (upFrom 0 16).all (fun k => decide (bitsOf x.barcnt (8 * k) 8 ≤ 8 * x.tpc + 1)) &&
    decide (x.pats < 2 ^ 32) && decide (x.stack < 2 ^ 32) && decide (bitsOf h 448 64 = 0)

/-- The pattern numbers a header requires (R337). -/
def requiredPats (h : Header) : List (Fin 32) :=
  (List.finRange 32).filter fun n => bitAt h.pats n.val

/-- Every required pattern is in the image, verifies, and together they fit a store (R252, R285, R338). -/
def patsFit (s : State) (x : Launch) : Bool :=
  let ns := requiredPats x.hdr
  ns.all (fun n => match launchBlock s x n with
    | some ws => verifies ws
    | none => false) &&
    decide ((ns.map fun n => ((launchBlock s x n).getD []).length).sum ≤ Config.patternSlots)

/-- FLAGS (R335). -/
def flagOrder : Nat := 0
def flagGang : Nat := 1
def flagPreempt : Nat := 2
def flagIrq : Nat := 3

/-- The launch of a packet, with the header read for it (R334, R337, R343). -/
def launchFrom (q : Nat) (b : Queue) (p : Packet) (h : Header) : Launch :=
  { queue := q, ctx := b.ctx, seq := p.seq, entry := p.entry, hdrVa := p.hdr, hdr := h, n := p.n, c := p.c, o1 := p.o1
    o2 := p.o2, order := bitAt p.flags flagOrder, gang := bitAt p.flags flagGang
    preempt := bitAt p.flags flagPreempt, irq := bitAt p.flags flagIrq, args := p.args, stages := max 1 p.stages
    soff := p.soff, wmbase := p.wmbase, wmclr := bitsOf p.flags 8 8, level0 := min p.prio b.ceil
    level := min p.prio b.ceil, waits := p.waits, st := .accepted, shares := [], partials := [], gangWaiting := []
    gangChosen := [], mccStarted := [], startedAt := 0 }

/-- The SEQ test (R333). -/
def seqOk (b : Queue) (p : Packet) : Bool := decide (b.lastSeq < p.seq)

/-- The packet tests of R338, but for the SEQ test. -/
def packetOk (s : State) (q : Nat) (x : Context) (p : Packet) : Bool :=
  let clr := bitsOf p.flags 8 8
  !p.reserved && decide (p.c ≠ 0) && decide (p.stages ≤ 8) && decide (p.prio ≤ 3) && decide (p.wmbase ≤ 255) &&
    decide (p.hdr.toNat % 64 = 0) && p.soff.all (fun w => decide (w.toNat % 4 = 0)) &&
    p.waits.all (fun w => !(decide (w.queue = q) && decide (p.seq ≤ w.seq)) && (getQueue s w.queue).isSome) &&
    (decide (clr = 0) || (decide (x.wmlo ≤ p.wmbase) && decide (p.wmbase + clr ≤ x.wmlo + x.wmcnt)))

/-- The header of a packet, when it can be read and fits (R285, R338). -/
def readHeader (s : State) (ctx : Fin 4096) (p : Packet) : Option Header :=
  if p.hdr.toNat % 64 ≠ 0 then none
  else
    match frontRead s ctx 1 p.hdr with
    | .error _ => none
    | .ok h => if headerFits h && decide ((headerOf h).mccent % 4 = 0) then some (headerOf h) else none

/-- The launches of a queue, in queue order, with their keys. -/
def queueLaunches (s : State) (q : Nat) : SMap Launch := s.launches.filter fun p => decide (p.2.queue = q)

/-- A launch that counts as completed. -/
def counts (x : Launch) : Bool := decide (x.st = .completed) || decide (x.st = .rejected)

/-- Raise a counting word of a queue block: it only rises (R333). The front end compares with what it wrote last, which no
store changes (R331), so that the block's poison does not enter. -/
def raiseWord (s : State) (q : Queue) (off v : Nat) : State :=
  if blockWord s q off < v then putBlockWord s q off v else s

/-- START: the last launch up to which all have started or been rejected (R331). -/
def writeStart (s : State) (n : Nat) : State :=
  match getQueue s n with
  | none => s
  | some q =>
    match ((queueLaunches s n).takeWhile fun p => decide (p.2.st ≠ .accepted)).getLast? with
    | none => s
    | some p => raiseWord s q qStart p.2.seq

/-- DONE passes every launch up to the first that has not completed: it is written, MSI-X is raised for each launch that
asks for it and has completed, and their records go (R331, R345). A launch that was rejected has raised its vector at
its rejection (R338). -/
def passDone (n : Nat) (q : Queue) : List (Nat × Launch) → State → State
  | [], s => s
  | p :: r, s =>
    if counts p.2 then
      let s1 := raiseWord s q qDone p.2.seq
      let s2 := if p.2.irq && decide (p.2.st = .completed) then raiseMsix s1 q.msix else s1
      passDone n q r { s2 with launches := mapDel s2.launches p.1 }
    else s

/-- DONE written as far as it can be (R345). -/
def writeDone (s : State) (n : Nat) : State :=
  match getQueue s n with
  | none => s
  | some q => passDone n q (queueLaunches s n) s

/-- Reject an accepted launch: ERR, MSI-X, and it counts as completed (R338). -/
def rejectLaunch (s : State) (key : Nat) : State :=
  match getLaunch s key with
  | none => s
  | some x =>
    let s1 := putLaunch s key { x with st := .rejected, shares := [], partials := [], gangWaiting := [], gangChosen := [] }
    match getQueue s1 x.queue with
    | none => s1
    | some q =>
      let s2 := putBlockWord s1 q qErr x.seq
      let s3 := if x.irq then raiseMsix s2 q.msix else s2
      writeDone (writeStart s3 x.queue) x.queue

/-- What following a link finds. -/
inductive Link0 where
  | none
  | unreadable (va : Word) (code : Nat)
  | packet (va : Word) (p : Packet)
deriving DecidableEq, Repr

/-- Follow the next field of the packet that HEAD names and read the packet it links (R332), all of it in one step, so that of a packet
linked without a release no mix shows that other writes during the read would make (DESIGN CHOICE, log 129). -/
def followLink (s : State) (q : Queue) : Link0 :=
  let head := BitVec.ofNat 64 (blockWord s q qHead)
  match frontTarget s q.ctx head 8 with
  | .error c => .unreadable head c
  | .ok t =>
    let va := BitVec.ofNat 64 (tgtRead s t 8)
    if va = 0 then .none
    else
      match frontRead s q.ctx 4 va with
      | .error e => .unreadable e.1 e.2
      | .ok p => .packet va (packetOf p)

/-- Take a packet: HEAD moves to it, the tests of R338 are made, and the launch joins its queue or is rejected. -/
def takePacket (s : State) (n : Nat) (q : Queue) (va : Word) (p : Packet) : State :=
  let s1 := putBlockWord s q qHead va.toNat
  if !seqOk q p then
    let s2 := putBlockWord s1 q qErr p.seq
    if bitAt p.flags flagIrq then raiseMsix s2 q.msix else s2
  else
    let x := getCtx s q.ctx
    let h := readHeader s q.ctx p
    let key := s.nextLaunch
    let l := launchFrom n q p (h.getD (headerOf 0))
    let s2 := putQueue { putLaunch s1 key l with nextLaunch := key + 1 } n { q with lastSeq := p.seq }
    if packetOk s n x p && h.isSome && x.valid && !x.dead && patsFit s l then s2 else rejectLaunch s2 key

/-- K (R339). -/
def chunksOf (x : Launch) : Nat := ceilDiv x.n x.c
/-- I (R339). -/
def spaceOf (x : Launch) : Nat := chunksOf x * x.o1 * x.o2

/-- The chunk and the outer indices of a serial number (R339). -/
def placeOf (x : Launch) (serial : Nat) : Nat × Nat × Nat :=
  if x.order then (serial / x.o1 / x.o2, serial % x.o1, serial / x.o1 % x.o2)
  else (serial % chunksOf x, serial / chunksOf x % x.o1, serial / chunksOf x / x.o1)

/-- g7 to g15 (R60). -/
def argRegs (x : Launch) : List (Nat × Word) := x.args.zipIdx.map fun p => (p.2 + 7, p.1)

/-- The preloads of an iteration (R60, R339); g5 has the low 64 bits of a serial number of 2^64 or more (DESIGN CHOICE, log 118). -/
def preloads (x : Launch) (serial stage : Nat) : List (Nat × Word) :=
  let p := placeOf x serial
  [(1, BitVec.ofNat 64 (min x.c (x.n - p.1 * x.c))), (2, BitVec.ofNat 64 (p.1 * x.c)), (3, BitVec.ofNat 64 p.2.1),
   (4, BitVec.ofNat 64 p.2.2), (5, BitVec.ofNat 64 serial), (6, BitVec.ofNat 64 stage)] ++ argRegs x

/-- A register file with the given registers and all others zero. -/
def regFile (l : List (Nat × Word)) : Vector Word 32 :=
  Vector.ofFn fun r => match l.find? fun p => decide (p.1 = r.val) with
    | some p => p.2
    | none => 0

/-- Where a stage starts (R339). -/
def stageEntry (x : Launch) (stage : Nat) : Word :=
  if stage = 0 then x.entry else x.entry + x.soff.getD (stage - 1) 0

/-- A thread as a launch begins on it: R8, R60 and R86, with the header's NV, NM, LBUD and the MAXVL of R81. -/
def freshThread (th : Thread) (key : Nat) (x : Launch) (pre : List (Nat × Word)) (pc : Word) : Thread :=
  { Thread.reset with
    g := regFile pre, pc := pc, lbud := x.hdr.lbud, budget := x.hdr.lbud, hdrLbud := x.hdr.lbud
    maxvl := maxvlOf x.hdr.lbud x.hdr.nv 1 1, nv := x.hdr.nv, nm := x.hdr.nm, tstate := .running, ctx := x.ctx
    preq := th.preq, img := th.img, launch := some key }

/-- Hand an iteration to a thread (R60, R340). -/
def startIteration (s : State) (t : Tid) (key : Nat) (x : Launch) (serial stage : Nat) : State :=
  updThread s t fun th =>
    { freshThread th key x (preloads x serial stage) (stageEntry x stage) with stage := stage, serial := serial }

/-- Start a cluster's MCC for a launch (R230, R240, R311). -/
def startMcc (s : State) (cl : Fin 64) (key : Nat) (x : Launch) : State :=
  let s1 := updThread s (.mcc cl) fun th =>
    freshThread th key x ((6, 0) :: argRegs x) (x.entry + BitVec.ofNat 64 x.hdr.mccent)
  let s2 := updCluster s1 cl fun c =>
    { c with mccLaunch := some key, cfg := MatCfg.reset, tsw := 0, tq := [], tileFault := false, tileProg := 0 }
  putLaunch s2 key { x with mccStarted := x.mccStarted ++ [cl.val] }

/-- The slab of a cluster (R12). -/
def slabOf (cl : Nat) : Nat := cl / 16

/-- The serials left in a cluster's share. -/
def shareOf (x : Launch) (cl : Nat) : Nat × Nat := mapGet (0, 0) x.shares cl
/-- Put a share; an empty one is not listed. -/
def putShare (x : Launch) (cl : Nat) (p : Nat × Nat) : Launch :=
  { x with shares := if p.1 < p.2 then mapPut x.shares cl p else mapDel x.shares cl }

/-- The initial shares of a launch that is not GANG (R340). -/
def initialShares (i : Nat) : SMap (Nat × Nat) :=
  (upFrom 0 64).filterMap fun c =>
    let p := (c * i / 64, (c + 1) * i / 64)
    if p.1 < p.2 then some (c, p) else none

/-- The largest share among those listed, the lowest-numbered on ties (R341). -/
def largestShare (l : SMap (Nat × Nat)) : Option (Nat × Nat × Nat) :=
  l.foldl (fun acc p => match acc with
    | none => some p
    | some q => if q.2.2 - q.2.1 < p.2.2 - p.2.1 then some p else acc) none

/-- The share a cluster may steal from (R341): in its slab, else in all four, and of 2 serials or more. -/
def victimOf (x : Launch) (cl : Nat) : Option (Nat × Nat × Nat) :=
  let big (v : Option (Nat × Nat × Nat)) : Option (Nat × Nat × Nat) :=
    match v with
    | some p => if 2 ≤ p.2.2 - p.2.1 then v else none
    | none => none
  match big (largestShare (x.shares.filter fun p => decide (slabOf p.1 = slabOf cl))) with
  | some p => some p
  | none => big (largestShare x.shares)

/-- A cluster's MCC has finished its work for a launch: no further stealing there (R311). -/
def mccOver (s : State) (key : Nat) (x : Launch) (cl : Fin 64) : Bool :=
  decide (x.hdr.mccent ≠ 0) && (getCluster s cl).mccDone.contains key

/-- A core of a launch is saved and waits to be restored (R343). -/
def hasImages (s : State) (key : Nat) : Bool := s.images.any fun p => decide (p.2.launch = key) && !p.2.isMcc

/-- A cluster can obtain iterations of a launch that is not GANG (R341). -/
def obtainable (s : State) (key : Nat) (x : Launch) (cl : Fin 64) : Bool :=
  x.partials.any (fun p => decide (p.1 = cl.val)) || decide ((shareOf x cl.val).1 < (shareOf x cl.val).2) ||
    (!mccOver s key x cl && (victimOf x cl.val).isSome)

/-- A cluster can hand out an iteration of a launch now: no serial begins before the launch's saved iterations have been
resumed, but a serial that has begun goes on with its stages (R339, R341, R343). -/
def available (s : State) (key : Nat) (x : Launch) (cl : Fin 64) : Bool :=
  if hasImages s key then x.partials.any fun p => decide (p.1 = cl.val) else obtainable s key x cl

/-- Take the lowest serial of a cluster's share: its first stage, the others left to be handed out (R339, R341). -/
def takeLowest (x : Launch) (cl : Nat) : Option (Nat × Nat × Launch) :=
  let p := shareOf x cl
  if p.1 < p.2 then
    let y := putShare x cl (p.1 + 1, p.2)
    some (p.1, 0, if 1 < x.stages then { y with partials := y.partials ++ [(cl, p.1, 1)] } else y)
  else none

/-- The next stage of a serial whose earlier stages a cluster has handed out (R339, R340). -/
def takePartial (x : Launch) (cl : Nat) : Option (Nat × Nat × Launch) :=
  match x.partials.find? fun p => decide (p.1 = cl) with
  | none => none
  | some p =>
    let rest := x.partials.filter fun q => decide (q ≠ p)
    some (p.2.1, p.2.2, { x with partials := if p.2.2 + 1 < x.stages then (p.1, p.2.1, p.2.2 + 1) :: rest else rest })

/-- next_iteration (R341): the serial, the stage, and the launch with it taken. -/
def nextIteration (s : State) (key : Nat) (x : Launch) (cl : Fin 64) : Option (Nat × Nat × Launch) :=
  match takePartial x cl.val with
  | some r => some r
  | none =>
    match takeLowest x cl.val with
    | some r => some r
    | none =>
      if mccOver s key x cl then none
      else
        match victimOf x cl.val with
        | none => none
        | some v =>
          let m := v.2.1 + ceilDiv (v.2.2 - v.2.1) 2
          takeLowest (putShare (putShare x v.1 (v.2.1, m)) cl.val (m, v.2.2)) cl.val

/-- Every thread of a core is without an iteration. -/
def coreIdle (s : State) (cl : Fin 64) (co : Fin 8) : Bool :=
  (coreTids cl co).all fun t => decide ((getThread s t).launch = none)

/-- The copy queues of a core are empty. -/
def copiesDone (c : Core) : Bool := c.cqs.toList.all fun q => q.isEmpty

/-- The number of the latest assignment so far. -/
def lastAssigned (s : State) : Nat := (s.cores.map fun p => p.2.assignedAt).foldl max 0

/-- Clear a core's scratchpad, poison included (R23, R383). -/
def clearSpad (s : State) (cl : Fin 64) (co : Fin 8) : State :=
  let lo := spadKey cl (co.val * Config.spadBytes)
  { s with spad := memClear s.spad lo (lo + Config.spadBytes)
           poisonSpad := s.poisonSpad.filter fun w => decide (w * 8 < lo) || decide (lo + Config.spadBytes ≤ w * 8) }

/-- Write the words of a block into a store's slots, with the context's tag (R366). -/
def fillSlots (st : SMap PatSlot) (ctx : Fin 4096) : Nat → List Word → SMap PatSlot
  | _, [] => st
  | off, w :: r => fillSlots (mapPut st off { ctx := ctx, word := w, bad := false }) ctx (off + 1) r

/-- Load the patterns that a launch requires into a store, where its context has them bound (R252, R366). -/
def loadRequired (s : State) (x : Launch) (st : SMap PatSlot) : SMap PatSlot :=
  (requiredPats x.hdr).foldl (fun st n => match bindingOf (getCtx s x.ctx) n.val with
    | some b => fillSlots st x.ctx b.off b.words
    | none => st) st

/-- A core begins to serve a launch (R23, R220, R341, R367). The slots of its pattern store stay as they are. -/
def giveCore (s : State) (cl : Fin 64) (co : Fin 8) (key : Nat) (ctx : Fin 4096) : State :=
  let c := getCore s cl co
  let s1 := if c.lastCtx = some ctx then s else clearSpad s cl co
  let s2 := putCore s1 cl co
    { c with launch := some key, lastCtx := some ctx, assignedAt := lastAssigned s + 1
             slots := Vector.replicate 16 Slot.reset }
  (coreTids cl co).foldl (fun s t => updThread s t fun th => { th with ctx := ctx }) s2

/-- A core is assigned to a launch for iterations of it: with the patterns that the launch requires, which are bound before its first
iteration (R252, R366; log 120). -/
def assignCore (s : State) (cl : Fin 64) (co : Fin 8) (key : Nat) (x : Launch) : State :=
  updCore (giveCore s cl co key x.ctx) cl co fun c => { c with store := loadRequired s x c.store }

/-- A core is returned to the idle cores (R341). A pre-emption asked of it has nothing left to save, and is done (R151,
R349). -/
def returnCore (s : State) (cl : Fin 64) (co : Fin 8) : State :=
  (coreTids cl co).foldl (fun s t => if (getThread s t).preq then updThread s t fun th => { th with preq := false } else s)
    (updCore s cl co fun c => { c with launch := none })

/-- A core is asked to leave (R349, R362). -/
def coreAsked (s : State) (cl : Fin 64) (co : Fin 8) : Bool := (coreTids cl co).any fun t => (getThread s t).preq

/-- A launch is GANG. -/
def isGang (s : State) (key : Nat) : Bool := match getLaunch s key with
  | some x => x.gang
  | none => false

/-- No core of a share on a cluster runs an iteration or holds a copy, and its MCC, when it has one, does not work for it (log 32). -/
def shareIdle (s : State) (cl : Fin 64) (key : Nat) : Bool :=
  decide ((getCluster s cl).mccLaunch ≠ some key) &&
    allCores.all fun k => decide ((getCore s cl k).launch ≠ some key) || (coreIdle s cl k && copiesDone (getCore s cl k))

/-- A GANG share has ended on a cluster (R289, R342): it is idle there, and nothing of it is saved. -/
def shareEnded (s : State) (cl : Fin 64) (key : Nat) : Bool :=
  shareIdle s cl key && s.images.all fun p => decide (p.2.launch ≠ key) || decide (p.2.cl ≠ cl)

/-- The cores of a share return to the idle ones together (R342). -/
def returnShare (s : State) (cl : Fin 64) (key : Nat) : State :=
  allCores.foldl (fun s k => if (getCore s cl k).launch = some key then returnCore s cl k else s) s

/-- A core returns to the pool of idle cores when all its threads have found no iteration (R341); the cores of a GANG
share return together (R342). -/
def settleCore (s : State) (cl : Fin 64) (co : Fin 8) : State :=
  let c := getCore s cl co
  match c.launch with
  | none => s
  | some key =>
    match getLaunch s key with
    | none => if coreIdle s cl co then returnCore s cl co else s
    | some x =>
      if x.gang then
        if shareEnded s cl key then returnShare s cl key else s
      else if coreIdle s cl co && copiesDone c && (coreAsked s cl co || !available s key x cl) then returnCore s cl co
      else s

/-- The frozen entries' chains are released (R151). -/
def releaseEntries (c : Core) : List VEntry → Core
  | [] => c
  | e :: r => releaseEntries (e.extra.foldl release (release (release c e.old) e.part)) r

/-- All of a thread's vector registers are released (R22). -/
def releaseRegs (c : Core) (th : Thread) : Core := th.v.toList.foldl release c

/-- What exit waits for has drained (R151): outside the frozen queue of a handler, which exit discards. -/
def exitDrained (s : State) (t : Tid) : Bool :=
  let th := getThread s t
  th.vq.isEmpty && th.rq.isEmpty && th.out.isEmpty &&
    (if isMcc t then (getCluster s (clusterOf t)).tq.isEmpty
     else decide (queuedCopies (ownCore s t) (threadOf t) = 0) &&
       (ownCore s t).slots.toList.all fun x => decide (x.st = .empty) || decide (x.owner ≠ threadOf t))

/-- The thread's record once its iteration has ended. -/
def idleThread (th : Thread) : Thread := { Thread.reset with ctx := th.ctx, preq := th.preq, img := th.img }

/-- PERFORM AN EXIT (R22, R151): leave is returned, chains are released, the iteration ends. -/
def performExit (s : State) (t : Tid) : State :=
  let th := getThread s t
  let cl := clusterOf t
  let s1 := updCluster s cl fun c => returnLeave c (.thread t)
  if isMcc t then
    let s2 := updCluster s1 cl fun c =>
      { c with mccLaunch := none, mccDone := (c.mccDone.filter fun k => (getLaunch s k).isSome) ++ th.launch.toList }
    allCores.foldl (fun s co => settleCore s cl co) (updThread s2 t fun th => { idleThread th with preq := false })
  else
    let f := match th.frozen with
      | some f => f.vq
      | none => []
    let s2 := putOwnCore s1 t (releaseRegs (releaseEntries (ownCore s1 t) f) th)
    settleCore (updThread s2 t idleThread) cl (coreOf t)

/-- An exit in a handler discards the frozen entries: the accesses that those held back are performed before it (R151). -/
def freeAccesses (s : State) (t : Tid) : State :=
  updThread s t fun th =>
    match th.frozen with
    | some f => { th with frozen := some { f with out := [] }, out := f.out.map (retarget s t) ++ th.out }
    | none => th

/-- exit, for its parcel and its half (R91, R151). -/
def exitThread (s : State) : Out :=
  let t := s.cur
  let s1 := freeAccesses s t
  if exitDrained s1 t then .next (performExit s1 t) else waitFor s1 t .exit

/-- exit (R151). -/
def execExit (s : State) : Out := exitThread s

/-- hexit (R91, R151). -/
def execHexit (s : State) : Out := exitThread s

/-- EXIT_PERFORM: a thread that stands at an exit whose drains are done (R151). -/
def exitStep (s : State) (t : Tid) : State :=
  let th := getThread s t
  if th.wait = .exit ∧ vectorActive th = true ∧ exitDrained s t = true then performExit s t else s

end Sys2Proof.Machine
end

