-- ==== Sys2Proof/Machine/Pages.lean ====
section
/-!
DEFINITION. The pages of saved images in device memory (R363, R364): what the units of each kind of page hold, which pages an image
takes, and the directory that IMGDIR names.
-/

namespace Sys2Proof.Machine

/-- A page has a line on a channel (R14). -/
def pageOn (n base size : Nat) : Bool :=
  (upFrom (base / 64) (ceilDiv size 64)).any fun l => decide ((Config.homeChannel (l * 64)).val = n)

/-- Addresses on a retired channel, which are never used again (R385). -/
def onRetired (s : State) (base size : Nat) : Bool := s.root.retiredChannels.any fun n => pageOn n base size

/-- A context maps some of n bytes of device memory. -/
def mapsBytes (s : State) (x : Context) (pa n : Nat) : Bool :=
  (contextEntries s x).any fun e =>
    let sz := 2 ^ levelShift e.2.2
    let lo := pteAddr e.2.1 / sz * sz
    !ofPeer s e.2.1 && decide (lo < pa + n) && decide (pa < lo + sz)

/-- Bytes of a page of an image, and its units of 4 bytes (R363). -/
def imagePageBytes : Nat := 2 ^ 16

/-- A page that an image may take: in its place, on no retired channel, and mapped by no context (R348, R363, R385). -/
def pageFits (s : State) (pa : Nat) : Bool :=
  decide (pa ≠ 0) && decide (pa % imagePageBytes = 0) && decide (pa + imagePageBytes ≤ 2 ^ 48) && !onRetired s pa imagePageBytes &&
    s.ctxs.all fun p => !p.2.valid || !mapsBytes s p.2 pa imagePageBytes

/-- Unit u of a word of several units. -/
def unitOf (v u : Nat) : Nat := bitsOf v (32 * u) 32

/-- Unit u of a thread page, where R363 lays it out: g registers, user CSRs, chain registers with their leaves as save indices, BASE
and LIMIT of the bookmarks, masks, and the m46 that a handler entry has set aside. `th` is the thread as its image holds it, `s` the
state it is saved in. CYC is no state of the thread (R269). -/
def threadUnit (s : State) (t : Tid) (th : Thread) (u : Nat) : Option Nat :=
  let k := u / 2
  let half (v : Word) : Option Nat := some (unitOf v.toNat (u % 2))
  if h : k < 32 then half (readG th ⟨k, h⟩)
  else if k < 64 then (if k - 32 = 0x011 then none else half (csrValue s t (k - 32)))
  else if h : k - 64 < 32 then half (descBits th.v[k - 64])
  else if h : 104 ≤ k ∧ k < 112 then
    let b := th.bk[(k - 104) / 2]
    half (if k % 2 = 0 then b.base else b.limit)
  else if h : 0x1200 ≤ u ∧ u < 0x1200 + 128 * 48 then some (unitOf th.m[(u - 0x1200) / 128].toNat ((u - 0x1200) % 128))
  else if 0x2A00 ≤ u ∧ u < 0x2A00 + 128 then th.frozen.map fun f => unitOf f.m46.toNat (u - 0x2A00)
  else none

/-- Unit u of the n-th leaf data page of a core (R364). -/
def leafUnit (l : SMap Leaf) (n u : Nat) : Option Nat := (mapFind l (1024 * n + u / 16)).map fun x => unitOf x.data (u % 16)

/-- A leaf's header (R69). -/
def headerBits (l : Leaf) : Nat := l.next + (if l.last then 2 ^ 13 else 0) + 2 ^ 14 * l.refs + 2 ^ 20 * l.lo + 2 ^ 26 * l.len

/-- Unit u of a leaf header page: the header of the leaf with that save index (R364; log 75). -/
def headerUnit (l : SMap Leaf) (u : Nat) : Option Nat := (mapFind l u).map headerBits

/-- Unit u of the accumulator page: its 16 accumulators, unit-major, 4 KiB each (R363). -/
def accUnit (acc : SMap Nat) (u : Nat) : Option Nat := some (mapGet 0 acc u % 2 ^ 32)

/-- A line of 16 units; one without a layout is free. -/
def lineOf (draw : Nat) (f : Nat → Option Nat) (k : Nat) : Nat :=
  ((upFrom 0 16).map fun i => 2 ^ (32 * i) * ((f (16 * k + i)).getD (Config.imageUnit draw (16 * k + i) % 2 ^ 32))).sum

/-- Write a page, line by line. -/
def writePage (s : State) (pa : Nat) (f : Nat → Option Nat) : State :=
  let x := drawFree s
  (upFrom 0 1024).foldl (fun s k => tgtWrite s (.dev (pa + 64 * k) false) 64 (lineOf x.1 f k)) x.2

/-- What the units of a page of an image hold by its kind (R363): 1 thread, 2 core, 3 leaf data, 4 leaf headers, 5 cluster, 6
accumulators; `n` is its place among those of its kind, or its thread's in its core. Core and cluster pages have no layout in R363. -/
def pageUnit (s : State) (x : Image) (ts : List Tid) (kind n u : Nat) : Option Nat :=
  let leaves := (x.core.map fun c => c.leaves).getD []
  match kind with
  | 1 => (match x.threads[n]?, ts[n]? with
    | some th, some t => threadUnit s t th u
    | _, _ => none)
  | 3 => leafUnit leaves n u
  | 4 => if n = 0 then headerUnit leaves u else none
  | 6 => if n = 0 then accUnit x.acc u else none
  | _ => none

/-- The pages of an image: those that IMG of its threads names (R349), and those that Usilaem has named besides for the core, its leaves
or the accumulators (log 75); each with its kind and that place. -/
def imagePages (s : State) (x : Image) (ts : List Tid) (named : List (Nat × Nat)) : List (Nat × Nat × Nat) :=
  let own := ts.zipIdx.filterMap fun q =>
    let th := getThread s q.1
    if th.launch.isSome && pageFits s th.img.toNat then some (th.img.toNat, if x.isMcc then 5 else 1, q.2) else none
  let other (kind : Nat) : List (Nat × Nat × Nat) :=
    ((named.filter fun p => decide (p.2 = kind) && pageFits s p.1).zipIdx).map fun q => (q.1.1, kind, q.2)
  own ++ (if x.isMcc then [6] else [2, 3, 4]).flatMap other

/-- The entry of a page in the directory (R363). -/
def dirEntry (pa kind index : Nat) : Nat := pa + 2 ^ 8 * kind + index % 256

/-- The directory of a context's images in device memory: an entry for each page, numbered within its kind, and an entry of 0
(R363). -/
def dirEntries (s : State) (ctx : Fin 4096) : List Nat :=
  let ps := s.images.flatMap fun p => if p.2.ctx = ctx ∧ p.2.onFlash = false then p.2.pages else []
  (ps.zipIdx.map fun q => dirEntry q.1.1 q.1.2 ((ps.take q.2).countP fun p => decide (p.2 = q.1.2))) ++ [0]

/-- Usilaem writes the directory, when the context has a place for one. -/
def writeDir (s : State) (ctx : Fin 4096) : State :=
  let d := (getCtx s ctx).imgdir
  if d = 0 then s else (dirEntries s ctx).zipIdx.foldl (fun s q => tgtWrite s (.dev (d + 8 * q.2) false) 8 q.1) s

/-- The number of the next image. -/
def nextImage (s : State) : Nat := (s.images.map fun p => p.1 + 1).foldl max 0

/-- Write the pages of an image; `s` is the state in which its threads are saved. -/
def writePages (s : State) (x : Image) (ts : List Tid) (ps : List (Nat × Nat × Nat)) : State :=
  ps.foldl (fun u p => writePage u p.1 (pageUnit s x ts p.2.1 p.2.2)) s

/-- An image joins the others. -/
def addImage (s : State) (x : Image) : State := { s with images := mapPut s.images (nextImage s) x }

/-- An image is written, with its pages and the directory (R362 step 7, R363). -/
def putImagePages (s : State) (x : Image) (ts : List Tid) (named : List (Nat × Nat)) : State :=
  let ps := imagePages s x ts named
  writeDir (addImage (writePages s x ts ps) { x with pages := ps.map fun p => (p.1, p.2.1) }) x.ctx

/-- An image leaves the others. -/
def dropImage (s : State) (k : Nat) (ctx : Fin 4096) : State := writeDir { s with images := mapDel s.images k } ctx

end Sys2Proof.Machine
end

