-- ==== Sys2Proof/Machine/Context.lean ====
section
/-!
DEFINITION. Usilaem's care of contexts: containment (R297, R369, R370), the disposal of faults (R356), resumption, the
service traps (R313 to R315, R360), saved images (R362 to R365), swapping (R368), TLBs (R354, R355), pages served on
demand and patterns loaded on demand (R356, R366), and the creation and destruction of contexts (R348, R369, R385).
-/

namespace Sys2Proof.Machine

/-- The first access of a list that can be performed now, from index k. -/
def readyAccess (s : State) (t : Tid) (kept : List (Nat × Nat)) : Nat → List Access → Option Nat
  | _, [] => none
  | k, a :: r =>
    if performable s t a && !kept.contains (tidKey t, a.stamp) then some k else readyAccess s t kept (k + 1) r

/-- Every access handed to the memory system is performed (R297). Handed over is each that has been issued and that nothing in its
thread's order holds back, but for those of `kept`, by thread and stamp: which have been handed over at the kill is a matter of
timing (log 117). -/
def performHanded (kept : List (Nat × Nat)) : Nat → State → Tid → State
  | 0, s, _ => s
  | n + 1, s, t =>
    match readyAccess s t kept 0 (getThread s t).out with
    | none => s
    | some k => performHanded kept n (accessStep s t k) t

/-- The accesses of a thread that its stopping performs. -/
def drainHanded (kept : List (Nat × Nat)) (s : State) (t : Tid) : State := performHanded kept (getThread s t).out.length s t

/-- The leaf numbers that return to the free list when a core is emptied (R75, R384). -/
def unretired (c : Core) : List Nat := (c.leaves.map fun p => p.1).filter fun x => !c.retired.contains x

/-- A core emptied of chains, slots and copies, serving no launch. -/
def emptyCore (c : Core) : Core :=
  { c with leaves := [], reclaim := [], freed := c.freed ++ unretired c, slots := Vector.replicate 16 Slot.reset
           cqs := Vector.replicate 4 [], launch := none }

/-- A thread stops for good (R297): the handed accesses are performed, and no other. -/
def stopThread (kept : List (Nat × Nat)) (s : State) (t : Tid) : State :=
  let s1 := drainHanded kept s t
  let s2 := updCluster s1 (clusterOf t) fun c => returnLeave (returnLeave c (.thread t)) (.clmask t)
  let s3 := { s2 with casLists := s2.casLists.filterMap fun p =>
    let l := p.2.filter fun x => decide (x ≠ t)
    if l.isEmpty then none else some (p.1, l) }
  updThread s3 t idleThread

/-- A context's launches by their keys. -/
def contextLaunches (s : State) (ctx : Fin 4096) : List Nat :=
  (s.launches.filter fun p => decide (p.2.ctx = ctx)).map fun p => p.1

/-- The threads that run an iteration or an MCC start of a context. -/
def contextTids (s : State) (ctx : Fin 4096) : List Tid :=
  (listedTids s).filter fun t => decide ((getThread s t).ctx = ctx) && (getThread s t).launch.isSome

/-- A core's key back to cluster and core. -/
def coreOfKey (k : Nat) : Fin 64 × Fin 8 := (Fin.ofNat 64 (k / 8), Fin.ofNat 8 k)

/-- The cores that serve a context. -/
def contextCores (s : State) (ctx : Fin 4096) : List (Fin 64 × Fin 8) :=
  (s.cores.filter fun p => p.2.launch.isSome && decide (p.2.lastCtx = some ctx)).map fun p => coreOfKey p.1

/-- The cluster numbers that the state lists. -/
def listedClusters (s : State) : List (Fin 64) := s.clusters.map fun p => Fin.ofNat 64 p.1

/-- An emptied core of a contained context, its copies' leave returned (R369). -/
def stopCore (s : State) (p : Fin 64 × Fin 8) : State :=
  let s1 := updCore s p.1 p.2 emptyCore
  updCluster s1 p.1 fun c => returnCopies c p.2

/-- The barrier states of some launches are cleared (R369). -/
def clearBars (bars : SMap (List Nat)) (ls : List Nat) : SMap (List Nat) :=
  bars.filter fun p => !ls.contains (p.1 % 2 ^ 64 / 16)

/-- A cluster without the launches of a contained context (R369): the tile queue stops, its MCC is free, and it is kept
for none of their shares. -/
def stopCluster (ls : List Nat) (c : Cluster) : Cluster :=
  let mine (o : Option Nat) : Bool := match o with
    | some k => ls.contains k
    | none => false
  let c1 := { c with bars := clearBars c.bars ls, kept := if mine c.kept then none else c.kept }
  if mine c.mccLaunch then
    returnLeave { c1 with mccLaunch := none, tq := [], tileFault := false, tileProg := 0 } .tile
  else c1

/-- The fields of the error record but for VREC (R370). -/
structure Report where
  cause : Word
  xpc : Word
  xvpc : Word
  xelem : Word
  xinfo : Word
  coord : Word
  seq : Nat
  queue : Nat
deriving DecidableEq, Repr

/-- The report of a thread that faulted, or that of a host request (R370), of which only COORD and XCAUSE are given: the other fields
are 0 (DESIGN CHOICE, log 131). -/
def reportOf (s : State) (who : Option Tid) : Report :=
  match who with
  | none => { cause := 0, xpc := 0, xvpc := 0, xelem := 0, xinfo := 0, coord := 0, seq := 0, queue := 0 }
  | some t =>
    let th := getThread s t
    let x := launchOf s th
    { cause := th.xcause, xpc := th.xpc, xvpc := th.xvpc, xelem := th.xelem, xinfo := th.xinfo, coord := coordOf s t
      seq := (match x with | some l => l.seq | none => 0), queue := (match x with | some l => l.queue | none => 0) }

/-- Write the error record, VREC apart (R370). -/
def writeReport (s : State) (a : Nat) (r : Report) : State :=
  let v := r.cause.toNat + 2 ^ 64 * r.xpc.toNat + 2 ^ 128 * r.xvpc.toNat + 2 ^ 192 * r.xelem.toNat + 2 ^ 256 * r.xinfo.toNat +
    2 ^ 320 * r.coord.toNat + 2 ^ 384 * r.seq + 2 ^ 448 * r.queue
  { s with mem := memWrite s.mem a 60 v }

/-- The launches of a queue that do not yet count as completed are rejected, in queue order (R369 step 5). -/
def rejectAll : List Nat → State → State
  | [], s => s
  | k :: r, s =>
    rejectAll r
      (match getLaunch s k with
        | some x => if counts x then s else rejectLaunch s k
        | none => s)

/-- The packets already linked are taken and rejected, in queue order (R369 step 5): the context is dead. -/
def rejectLinked (n : Nat) : Nat → State → State
  | 0, s => s
  | fuel + 1, s =>
    match getQueue s n with
    | none => s
    | some q =>
      match followLink s q with
      | .packet va p => rejectLinked n fuel (takePacket s n q va p)
      | _ => s

/-- How many linked packets one containment follows: as many as the device memory could hold. -/
def linkFuel : Nat := 2 ^ 32

/-- The queues of a context. -/
def contextQueues (s : State) (ctx : Fin 4096) : List Nat :=
  (s.queues.filter fun p => decide (p.2.ctx = ctx)).map fun p => p.1

/-- The wait entries that name a queue are met, once for all, as it is unbound (R336). -/
def dropWaits (s : State) (n : Nat) : State :=
  { s with launches := s.launches.map fun p =>
      (p.1, { p.2 with waits := p.2.waits.filter fun w => decide (w.queue ≠ n) }) }

/-- Unbind a queue (R336). -/
def unbind (s : State) (n : Nat) : State := dropWaits { s with queues := mapDel s.queues n } n

/-- End a queue of a contained context (R369 steps 5 and 6). -/
def endQueue (s : State) (n : Nat) : State :=
  unbind (rejectLinked n linkFuel (rejectAll ((queueLaunches s n).map fun p => p.1) s)) n

/-- CONTAIN A CONTEXT (R297, R369, R370) under a report; `kept` names accesses that had been issued and not handed to the memory
system yet. -/
def contain (s : State) (ctx : Fin 4096) (r : Report) (kept : List (Nat × Nat) := []) : State :=
  let x := getCtx s ctx
  if x.dead then s
  else
    let s1 := putCtx (if x.recorded then s else writeReport s x.errec r) ctx { x with dead := true, recorded := true }
    let ls := contextLaunches s1 ctx
    let s2 := (contextTids s1 ctx).foldl (stopThread kept) s1
    let s3 := (contextCores s2 ctx).foldl stopCore s2
    let s4 := (listedClusters s3).foldl (fun s cl => updCluster s cl (stopCluster ls)) s3
    let s5 := { s4 with images := s4.images.filter fun p => decide (p.2.ctx ≠ ctx) }
    let s6 := if s4.images.any fun p => decide (p.2.ctx = ctx) then writeDir s5 ctx else s5
    (contextQueues s6 ctx).foldl endQueue s6

/-- A thread stopped at a fault for Usilaem (R349). -/
def stopped (th : Thread) : Bool := decide (th.tstate = .stopped)
/-- The cause a thread has stopped at (R357). -/
def causeOf (th : Thread) : Nat := th.xcause.toNat % 2 ^ 8

/-- An address lies in a range that Usilaem serves on demand for the context (R356). -/
def onDemand (x : Context) (va : Nat) : Bool := x.demand.any fun p => decide (p.1 ≤ va) && decide (va < p.2)

/-- The block that a thread's absent pattern would be loaded from, when its launch's image has one that the verifier
accepts (R356, R366). -/
def absentBlock (s : State) (th : Thread) : Option (List Word) :=
  match ownBlock s th (Fin.ofNat 32 th.xinfo.toNat) with
  | some ws => if verifies ws then some ws else none
  | none => none

/-- Usilaem contains the context for what a thread has stopped at (R314, R356); at a breakpoint, when no debugger is
attached. -/
def mustContain (s : State) (th : Thread) : Bool :=
  stopped th &&
    (match causeOf th with
      | 0x06 => !onDemand (getCtx s th.ctx) th.xinfo.toNat
      | 0x0B => th.record.isNone
      | 0x0C => (absentBlock s th).isNone
      | _ => true)

/-- CONTAINMENT: for a stopped thread, or at a host request (R369). -/
def containStep (s : State) (who : Option Tid) (ctx : Fin 4096) (kept : List (Nat × Nat)) : State :=
  match who with
  | some t => if mustContain s (getThread s t) then contain s (getThread s t).ctx (reportOf s (some t)) kept else s
  | none => if (getCtx s ctx).valid then contain s ctx (reportOf s none) kept else s

/-- RESUME a thread stopped at a fault (R241, R272, R356): its oldest entry from VSTART, an MCC's engine at the entry it
stopped at. -/
def resumeThread (s : State) (t : Tid) : State :=
  if !stopped (getThread s t) then s
  else
    let s1 := updThread s t fun th => { th with tstate := .running }
    if isMcc t then
      updCluster s1 (clusterOf t) fun c =>
        if c.tileFault then { c with tileFault := false, tileProg := (getThread s1 t).vstart.toNat } else c
    else resumeHead s1 t

/-- Usilaem writes a word at an address of a thread's context, where the context may write it. -/
def serviceWrite (s : State) (t : Tid) (va : Word) (v : Nat) : State :=
  match resolve s (partyOf s t) va 8 .store with
  | .ok tg => tgtWrite s tg 8 v
  | .error _ => s

/-- Usilaem reads a word of a record, which lies where the thread's context may write (R314). -/
def serviceRead (s : State) (t : Tid) (va : Word) : Nat :=
  match resolve s (partyOf s t) va 8 .store with
  | .ok tg => tgtRead s tg 8
  | .error _ => 0

/-- Write the fields of a matrix fault record, and then STATE 1 (R313, R314). -/
def fillRecord (s : State) (t : Tid) (va : Word) : State :=
  let th := getThread s t
  let s1 := serviceWrite s t (va + 8) (causeOf th)
  let s2 := serviceWrite s1 t (va + 16) th.xpc.toNat
  let s3 := serviceWrite s2 t (va + 24) th.xqpos.toNat
  let s4 := serviceWrite s3 t (va + 32) th.vstart.toNat
  let s5 := serviceWrite s4 t (va + 40) th.xinfo.toNat
  let s6 := serviceWrite (serviceWrite s5 t (va + 48) 0) t (va + 56) 0
  serviceWrite s6 t va 1

/-- TILE_ENTRY_EXECUTE with what Usilaem does at once for illegal sparse metadata of an MCC that has registered a record
(R228, R314); while the MCC is in a handler that is a fault inside one, no record is filled and the context is contained (DESIGN
CHOICE, log 128). -/
def tileStepRecorded (s : State) (cl : Fin 64) : State :=
  let t : Tid := .mcc cl
  let was := stopped (getThread s t)
  let s1 := tileStep s cl
  let th := getThread s1 t
  match th.record with
  | some va => if !was && stopped th && decide (causeOf th = 0x0B) then fillRecord s1 t va else s1
  | none => s1

/-- One MCC of a context at a trap 9, by the STATE of its record as the trap found it in `s0` (R315). -/
def resumeMcc (s0 : State) (ctx : Fin 4096) (s : State) (cl : Fin 64) : State :=
  let t : Tid := .mcc cl
  let th := getThread s t
  match th.record with
  | some va =>
    if th.ctx = ctx ∧ th.launch.isSome = true ∧ serviceRead s0 t va = 1 then resumeThread (serviceWrite s t va 2) t else s
  | none => s

/-- A saved MCC of the context at a trap 9: it stands resumed in its image (R315). -/
def resumeSaved (s0 : State) (ctx : Fin 4096) (t : Tid) (s : State) (p : Nat × Image) : State :=
  match p.2.threads with
  | [th] =>
    (match th.record with
      | some va =>
        if p.2.isMcc = true ∧ p.2.ctx = ctx ∧ serviceRead s0 t va = 1 then
          let s1 := serviceWrite s t va 2
          if stopped th then
            let x : Image :=
              { p.2 with threads := [{ th with tstate := .running }], tileFault := false
                         tileProg := if p.2.tileFault then th.vstart.toNat else p.2.tileProg }
            { s1 with images := mapPut s1.images p.1 x }
          else s1
        else s
      | none => s)
  | _ => s

/-- The clusters whose MCC the state lists. -/
def listedMccs (s : State) : List (Fin 64) :=
  (s.threads.filter fun p => decide (2048 ≤ p.1)).map fun p => Fin.ofNat 64 (p.1 - 2048)

/-- Service 9 (R315). -/
def resumeMccs (s : State) (t : Tid) : State :=
  let ctx := (getThread s t).ctx
  s.images.foldl (resumeSaved s ctx t) ((listedMccs s).foldl (resumeMcc s ctx) s)

/-- Every access a thread issued or pushed has been performed, copies included (R360). -/
def trapDrained (s : State) (t : Tid) : Bool :=
  let th := getThread s t
  th.vq.isEmpty && th.rq.isEmpty && th.out.isEmpty && (isMcc t || decide (queuedCopies (ownCore s t) (threadOf t) = 0))

/-- The report of a trap (R150, R360). -/
def trapReport (th : Thread) (code : Nat) : Thread :=
  { report th (causeInfo 0x0F code) none th.pc with xcause := 0x0F }

/-- A service trap (R150, R360): it waits for the thread's accesses, writes its report, is served, and the thread goes
on after it. `rs` are the registers the service reads or writes. -/
def serve (s : State) (code : Nat) (rs : List Reg) (service : State → State) : Out :=
  let t := s.cur
  withRegs s rs fun th =>
    if !trapDrained s t then stall s
    else
      let s1 := service (putThread s t (trapReport th code))
      .next (updThread s1 t fun th => { th with pc := nextParcel th })

/-- trap 0 (R360). -/
def execTrapNone (s : State) : Out := serve s 0 [] fun s => s

/-- trap 1: the TSW (R240, R360). -/
def execTrapReadTsw (s : State) : Out :=
  let t := s.cur
  serve s 1 [28] fun s =>
    if isMcc t then
      let w := (getCluster s (clusterOf t)).tsw
      giveReg (updCluster s (clusterOf t) fun c => { c with tsw := 0 }) t 28 (w.setWidth 64)
    else giveReg s t 28 0

/-- Service 2: the oldest unread violation entry (R360, R361). -/
def readLog (s : State) (t : Tid) : State :=
  let v := (getCtx s (getThread s t).ctx).vlog
  let w := memRead s.mem v 8
  let r := memRead s.mem (v + 8) 8
  if w = r then giveReg (giveReg s t 28 0) t 29 0
  else
    let e := v + 16 + 16 * (r % 64)
    let lo := memRead s.mem e 8
    let hi := memRead s.mem (e + 8) 8
    let s1 := { s with mem := memWrite s.mem (v + 8) 8 (r + 1) }
    giveReg (giveReg s1 t 28 (BitVec.ofNat 64 lo)) t 29 (BitVec.ofNat 64 hi)

/-- trap 2 (R360). -/
def execTrapReadViolationLog (s : State) : Out :=
  let t := s.cur
  serve s 2 [28, 29] fun s => readLog s t

/-- A trap that contains its context, with a value for XINFO of the error record (R314, R360, R370). -/
def trapContain (s : State) (t : Tid) (code : Nat) (info : Thread → Word) : State :=
  let th := getThread s t
  let s1 := putThread s t (trapReport th code)
  contain s1 th.ctx { reportOf s1 (some t) with xinfo := info (getThread s1 t) }

/-- trap 3: abort, with g28 as XINFO of the error record (R360, R370). -/
def execTrapAbort (s : State) : Out :=
  let t := s.cur
  withRegs s [28] fun _ =>
    if !trapDrained s t then stall s else .next (trapContain s t 3 fun th => readG th 28)

/-- A matrix fault record may be registered (R313, R314): on an MCC, 64-byte aligned, device memory that the context
may write. R313 puts the record into device memory; what trap 8 does with a writable address in a scratchpad or in a peer's
memory is not said, and it contains the context here (log 88). -/
def recordOk (s : State) (t : Tid) (va : Word) : Bool :=
  isMcc t && decide (va.toNat % 64 = 0) &&
    (match resolve s (partyOf s t) va 64 .store with
      | .ok (.dev _ _) => true
      | _ => false)

/-- trap 8: register a matrix fault record, or contain (R314). A second trap 8 of one MCC replaces the record registered before it,
of which the manual says nothing (DESIGN CHOICE, log 104). -/
def execTrapRegisterFaultRecord (s : State) : Out :=
  let t := s.cur
  withRegs s [28] fun th =>
    if !trapDrained s t then stall s
    else if !recordOk s t (readG th 28) then .next (trapContain s t 8 fun th => th.xinfo)
    else serve s 8 [28] fun s => updThread s t fun th => { th with record := some (readG th 28) }

/-- trap 9: resume stopped MCCs (R315). -/
def execTrapResumeMcc (s : State) : Out :=
  let t := s.cur
  serve s 9 [] fun s => resumeMccs s t

/-- Any other trap code: all ones in g28 (R360). -/
def execTrapUnassigned (c : Fin 64) (s : State) : Out :=
  let t := s.cur
  serve s c.val [28] fun s => giveReg s t 28 (BitVec.allOnes 64)

/-- The leaves from one to the last of its chain, by their headers; a poisoned header ends the walk (R364, R384). -/
def headerWalk (c : Core) : Nat → Nat → List Nat
  | 0, _ => []
  | n + 1, x =>
    match mapFind c.leaves x with
    | none => []
    | some l => if l.last || l.hdrPoison then [x] else x :: headerWalk c n l.next

/-- The leaves that descriptors reach, each once, in the order of the walk (R364). -/
def reached (c : Core) (seen : List Nat) : List Desc → List Nat
  | [] => seen
  | d :: r =>
    let w := if d.len = 0 then [] else (headerWalk c Config.poolLeaves d.head).filter fun x => !seen.contains x
    reached c (seen ++ w) r

/-- The place of a number in a list; its length when absent. -/
def placeIn : List Nat → Nat → Nat
  | [], _ => 0
  | y :: r, x => if y = x then 0 else placeIn r x + 1

/-- A descriptor with its leaves renumbered (R364). -/
def mapDesc (f : Nat → Nat) (d : Desc) : Desc :=
  if d.len = 0 then d else { d with head := f d.head, tail := f d.tail }

/-- A queue entry with its leaves renumbered. -/
def mapEntry (f : Nat → Nat) (e : VEntry) : VEntry :=
  { e with old := mapDesc f e.old, part := mapDesc f e.part, extra := e.extra.map (mapDesc f) }

/-- A thread with its leaves renumbered. -/
def mapThread (f : Nat → Nat) (th : Thread) : Thread :=
  { th with
    v := th.v.map (mapDesc f), vq := th.vq.map (mapEntry f)
    frozen := th.frozen.map fun z => { z with vq := z.vq.map (mapEntry f) } }

/-- Slots and copies with their leaves renumbered. -/
def mapCore (f : Nat → Nat) (c : Core) : Core :=
  { c with
    slots := c.slots.map fun x => { x with chain := mapDesc f x.chain, scale := mapDesc f x.scale }
    cqs := c.cqs.map fun q => q.map fun x => { x with idx := mapDesc f x.idx } }

/-- The chains of a queue entry. -/
def entryDescs (e : VEntry) : List Desc := e.old :: e.part :: e.extra

/-- The chains of a thread: its registers, queue and frozen queue (R364). -/
def threadDescs (th : Thread) : List Desc :=
  th.v.toList ++ (allEntries th).flatMap entryDescs

/-- The roots of a core's walk (R364). -/
def coreRoots (c : Core) (ths : List Thread) : List Desc :=
  ths.flatMap threadDescs ++ (c.slots.toList.flatMap fun x => [x.chain, x.scale]) ++
    c.cqs.toList.flatMap fun q => q.map fun x => x.idx

/-- The leaves of an image: those reached, under their save indices (R364). -/
def savedLeaves (c : Core) (order : List Nat) : SMap Leaf :=
  order.zipIdx.map fun p =>
    let l := leafAt c p.1
    (p.2, if l.last then l else { l with next := placeIn order l.next })

/-- The slots after a vector entry that does not wait for another party: none when it stalls on a slot, a tget or twait on a TARGET,
a tfree on a slot that a tile queue entry of the launch names. An entry that meets a slot fault leaves them (R220, R224, R225). -/
def slotsAfter (tq : List TileEntry) (co : Fin 8) (me : Fin 4) (l : Vector Slot 16) (op : VOp) : Option (Vector Slot 16) :=
  let at_ (k : Fin 16) : SlotState := l[k.val].st
  let take (k : Fin 16) (x : SlotState) : Vector Slot 16 :=
    if at_ k = .empty then l.set k.val { Slot.reset with st := x, owner := me } else l
  match op with
  | .tbind _ k => some (take k .bound)
  | .ttgt k => some (take k .target)
  | .twait k => if at_ k = .target then none else some l
  | .tget _ k =>
    if at_ k = .target then none else some (if at_ k = .filled then l.set k.val Slot.reset else l)
  | .tfree k =>
    if (at_ k = .bound ∨ at_ k = .target) ∧ (tq.any fun q => entryNames co k q.op) = true then none
    else some (l.set k.val Slot.reset)
  | _ => some l

/-- The slots of a thread's core once its vector entries have completed by themselves; none when one of them stalls on a slot. -/
def slotsAlone (s : State) (t : Tid) : Option (Vector Slot 16) :=
  let c := ownCore s t
  let tq := launchTq s (clusterOf t) c.launch
  ((getThread s t).vq.filter fun e => !e.finished).foldl
    (fun l e => l.bind fun l => slotsAfter tq (coreOf t) (threadOf t) l e.op) (some c.slots)

/-- The vector entries of a thread need no other party to complete: none stalls on a slot, and none on leave that another party holds
or waits for (R151). -/
def entriesAlone (s : State) (t : Tid) : Bool :=
  let th := getThread s t
  let c := getCluster s (clusterOf t)
  (slotsAlone s t).isSome &&
    (decide (th.vq.countP (fun e => !e.finished && needsLeave th e) ≤ if holdsLeave c (.clmask t) then 1 else 0) || leaveAlone c t)

/-- The copies of a queue up to the last of some thread's. -/
def copiesTo (me : Fin 4) (l : List Copy) : List Copy := (l.reverse.dropWhile fun x => decide (x.owner ≠ me)).reverse

/-- The copies of a thread, in their queues with those before them and still in the vector queue, wait for no leave that another party
holds or waits for (R151, R281). -/
def copiesAlone (s : State) (t : Tid) : Bool :=
  let th := getThread s t
  let c := getCluster s (clusterOf t)
  let tid (x : Copy) : Tid := .vec (clusterOf t) (coreOf t) x.owner
  let free (x : Copy) : Bool := !copyHeavy (getThread s (tid x)) x || leaveAlone c (tid x)
  let sent (q : Nat) : Bool := th.vq.any fun e => match e.op with
    | .copy o => decide (o.q.val = q) && !e.finished
    | _ => false
  (th.vq.all fun e => match e.op with
    | .copy o => e.finished || !opHeavy th o || leaveAlone c t
    | _ => true) &&
    (ownCore s t).cqs.toList.zipIdx.all fun p =>
      match if sent p.2 then p.1 else copiesTo (threadOf t) p.1 with
      | [] => true
      | x :: r => (free x || holdsLeave c (.copy (coreOf t) (Fin.ofNat 4 p.2) x.owner)) && r.all free

/-- A thread that waits at an exit whose drains need no other party: the save waits for it (R151, R359). -/
def exitsAlone (s : State) (t : Tid) : Bool :=
  let th := getThread s t
  decide (th.wait = .exit) && decide (th.tstate = .running) &&
    (if isMcc t then (getCluster s (clusterOf t)).tq.isEmpty
     else
      entriesAlone s t && copiesAlone s t && match slotsAlone s t with
        | some l => l.toList.all fun x => decide (x.st = .empty) || decide (x.owner ≠ threadOf t)
        | none => false)

/-- A thread has a fault to report before it may be saved: that of its oldest entry, or that of a scalar instruction which
only waits for vector entries that complete by themselves (R128, R359). -/
def faultDue (s : State) (t : Tid) : Bool :=
  let th := getThread s t
  (th.pend.isSome && entriesAlone s t) ||
    (match th.vq with
      | e :: _ => e.fault.isSome
      | [] => false)

/-- Every access of a thread that was handed to the memory system has been performed: none is outstanding, or those that are wait
behind vector entries which another party holds up, and go into the image with those (R151, R362; log 106). -/
def handedDone (s : State) (t : Tid) : Bool :=
  let th := getThread s t
  th.out.isEmpty || (!entriesAlone s t && decide (heldBack s t = th.out))

/-- A thread may be saved (R151, R359, R362): never between A and B of a pair (R90), but for a thread that waits at the hexit
of a half B, which is saved standing there, as R151 says of an exit (log 52). -/
def saveable (s : State) (t : Tid) : Bool :=
  let th := getThread s t
  decide (th.launch = none) ||
    (handedDone s t && (stopped th || (!faultDue s t && (decide (th.pc.toNat % 4 ≠ 2) || decide (th.wait = .exit)))) && !exitsAlone s t)

/-- A thread as its image holds it: it stands at the instruction it waited at (R359), its vector entries are frozen (R272,
R273), and a fault that still waits for them is kept. -/
def savedThread (th : Thread) : Thread := { th with wait := .none, preq := false, img := 0, rq := freezeItems th, early := [] }

/-- A hardware thread once its iteration has been saved (R349, R362). -/
def savedAway (th : Thread) : Thread := { Thread.reset with ctx := th.ctx, img := th.img, tstate := .saved }

/-- Save a core (R362 to R364); of a GANG share's, which holds its eight cores, they leave it together once nothing of it runs on them
(R342; log 123). -/
def saveCore (s : State) (cl : Fin 64) (co : Fin 8) (named : List (Nat × Nat)) : State :=
  let c := reclaimAll (4 * Config.poolLeaves) (getCore s cl co)
  match c.launch, c.lastCtx with
  | some key, some ctx =>
    let ths := (coreTids cl co).map (getThread s)
    let order := reached c [] (coreRoots c ths)
    let f := placeIn order
    let img : Image :=
      { ctx := ctx, launch := key, cl := cl, co := co, isMcc := false
        threads := ths.map fun th => mapThread f (savedThread th)
        core := some { mapCore f { Core.reset with slots := c.slots, cqs := c.cqs } with leaves := savedLeaves c order }
        tq := [], cfg := none, acc := [], counts := [], tsw := 0, tileFault := false, tileProg := 0, onFlash := false
        pages := [] }
    let held := isGang s key
    let s0 := putImagePages s img (coreTids cl co) named
    let s1 := putCore s0 cl co { emptyCore c with launch := if held then some key else none }
    let s2 := updCluster s1 cl fun k =>
      returnCopies ((coreTids cl co).foldl (fun k t => returnLeave (returnLeave k (.thread t)) (.clmask t)) k) co
    let s3 := (coreTids cl co).foldl (fun s t => updThread s t savedAway) s2
    if held && shareIdle s3 cl key then returnShare s3 cl key else s3
  | _, _ => s

/-- The MCC as its image holds it: VSTART is the K index of an entry that the engine has stopped in between groups (R241,
R362). -/
def savedMcc (c : Cluster) (th : Thread) : Thread :=
  { savedThread th with vstart := if c.tileProg = 0 then th.vstart else BitVec.ofNat 64 c.tileProg }

/-- Save an MCC with its tile queue, configuration, TSW and accumulators (R21, R362, R363). -/
def saveMcc (s : State) (cl : Fin 64) (named : List (Nat × Nat)) : State :=
  let t : Tid := .mcc cl
  let c := getCluster s cl
  let th := getThread s t
  match c.mccLaunch with
  | none => s
  | some key =>
    let img : Image :=
      { ctx := th.ctx, launch := key, cl := cl, co := 0, isMcc := true, threads := [savedMcc c th], core := none
        tq := c.tq, cfg := some c.cfg, acc := c.acc, counts := c.counts, tsw := c.tsw, tileFault := c.tileFault
        tileProg := c.tileProg, onFlash := false, pages := [] }
    let s1 := putImagePages s img [t] named
    let s2 := updCluster s1 cl fun k =>
      returnLeave (returnLeave { k with mccLaunch := none, tq := [], tileFault := false, tileProg := 0 } .tile) (.thread t)
    let s3 := updThread s2 t savedAway
    if isGang s key && hasImages s key && shareIdle s3 cl key then returnShare s3 cl key else s3

/-- A core without an iteration is asked to leave: it has nothing to save. One that a GANG share holds goes when nothing of the share
runs on its cluster (R342), any other at once. -/
def leaveEmpty (s : State) (cl : Fin 64) (co : Fin 8) (key : Nat) : State :=
  if isGang s key then
    let s1 := (coreTids cl co).foldl (fun s t => updThread s t fun th => { th with preq := false }) s
    if shareIdle s1 cl key then returnShare s1 cl key else s1
  else returnCore s cl co

/-- CORE_SAVE: a core whose threads are asked to leave, or an MCC (R362); `named` are pages for its image. -/
def saveStep (s : State) (cl : Fin 64) (co : Fin 8) (mcc : Bool) (named : List (Nat × Nat)) : State :=
  if mcc then
    let t : Tid := .mcc cl
    if (getThread s t).preq && (getThread s t).launch.isSome && saveable s t then saveMcc s cl named else s
  else
    match (getCore s cl co).launch with
    | none => s
    | some key =>
      if !coreAsked s cl co || !(coreTids cl co).all (saveable s) then s
      else if coreIdle s cl co && copiesDone (getCore s cl co) then leaveEmpty s cl co key
      else saveCore s cl co named

/-- Take n leaves from the free list, if there are as many. -/
def takeLeaves : Nat → Core → Option (List Nat × Core)
  | 0, c => some ([], c)
  | n + 1, c =>
    match takeFree c with
    | none => none
    | some (x, c1) =>
      match takeLeaves n c1 with
      | none => none
      | some (l, c2) => some (x :: l, c2)

/-- A restored thread asks again for the leave it held, before its first instruction (R362). -/
def askAgain (s : State) (t : Tid) : State :=
  let th := getThread s t
  if th.leaveKinds = 0 then s
  else
    let r := askLeave (getCluster s (clusterOf t)) (.thread t) (leaveUnits (isMcc t) th.leaveKinds)
    let s1 := putCluster s (clusterOf t) r.1
    if r.2 then s1 else updThread s1 t fun th => { th with wait := .releave th.leaveKinds }

/-- The barriers of a launch at which a saved iteration has arrived: its arrivals stay counted on the cluster that it is
restored onto (R359, R365). -/
def moveArrivals (s : State) (key : Nat) (old new : Fin 64) (me : Nat) : State :=
  let mine (p : Nat × List Nat) : Bool := decide (p.1 % 2 ^ 64 / 16 = key) && p.2.contains me
  let held := ((getCluster s old).bars.filter mine).map fun p => p.1
  let s1 := updCluster s old fun c =>
    { c with bars := held.foldl (fun b k => putList b k ((mapGet [] b k).filter fun x => decide (x ≠ me))) c.bars }
  updCluster s1 new fun c => { c with bars := held.foldl (fun b k => putList b k (mapGet [] b k ++ [me])) c.bars }

/-- Put saved threads on the threads of a core that they are restored onto; `old` is the cluster they come from. IMG stays the
hardware thread's own (R349; DESIGN CHOICE, log 107); accesses that were saved lead where their addresses lead now (log 106). -/
def placeThreads (s : State) (key : Nat) (old : Fin 64) : List (Thread × Tid) → State
  | [] => s
  | (th, t) :: r =>
    let s0 := updThread s t fun x => { th with img := x.img, preq := false }
    let s1 := updThread s0 t fun x => { x with out := x.out.map (retarget s0 t) }
    let s2 := if old = clusterOf t then s1 else moveArrivals s1 key old (clusterOf t) (arrivalOf t th)
    placeThreads (askAgain s2 t) key old r

/-- Restore a core image onto a core (R364, R365). Each thread goes back to the place it had in its core: R18 allows another thread
and R365 names none (DESIGN CHOICE, log 97). -/
def restoreCore (s : State) (k : Nat) (x : Image) (cl : Fin 64) (co : Fin 8) : State :=
  match x.core with
  | none => s
  | some ic =>
    let s1 := giveCore s cl co x.launch x.ctx
    match takeLeaves ic.leaves.length (getCore s1 cl co) with
    | none => s
    | some (ns, c1) =>
      let f (i : Nat) : Nat := ns.getD i 0
      let c2 := ic.leaves.foldl (fun c p =>
        putLeaf c (f p.1) (if p.2.last then p.2 else { p.2 with next := f p.2.next })) c1
      let m := mapCore f ic
      let s2 := putCore s1 cl co { c2 with slots := m.slots, cqs := m.cqs }
      let s3 := dropImage s2 k x.ctx
      placeThreads s3 x.launch x.cl ((x.threads.map (mapThread f)).zip (coreTids cl co))

/-- Restore an MCC image onto its cluster (R365). -/
def restoreMcc (s : State) (k : Nat) (x : Image) : State :=
  let t : Tid := .mcc x.cl
  let s1 := updCluster (dropImage s k x.ctx) x.cl fun c =>
    { c with mccLaunch := some x.launch, tq := x.tq, cfg := x.cfg.getD MatCfg.reset, acc := x.acc, counts := x.counts
             tsw := x.tsw, tileFault := x.tileFault, tileProg := x.tileProg, accBad := [] }
  placeThreads s1 x.launch x.cl (x.threads.map fun th => (th, t))

/-- A context may run on cores (R348, R368). -/
def runnable (x : Context) : Bool := x.valid && !x.dead && x.res

/-- A context maps a frame on a channel. -/
def mapsChannel (s : State) (n : Nat) (x : Context) : Bool :=
  (contextEntries s x).any fun e => !ofPeer s e.2.1 && pageOn n (pteAddr e.2.1) (2 ^ levelShift e.2.2)

/-- The pages of a context's tables, each with its size, from the table of the first of some levels on (R350). -/
def tablePages (s : State) : List Nat → Nat → List (Nat × Nat)
  | [], _ => []
  | lvl :: r, tbl =>
    let size := if lvl = 0 then 2 ^ 16 else 2 ^ 12
    (tbl, size) :: (listedWords s.mem tbl size).flatMap fun a =>
      let e := memRead s.mem a 8
      if pteV e && !pteLeaf e then tablePages s r (pteAddr e) else []

/-- The table pages of a context. -/
def contextTables (s : State) (x : Context) : List (Nat × Nat) := tablePages s [0, 1, 2, 3] x.ptroot

/-- None of some pages lies on a retired channel (R385). -/
def allInService (s : State) (l : List (Nat × Nat)) : Bool := l.all fun p => !onRetired s p.1 p.2

/-- A context maps no address on a retired channel (R385). -/
def mapsService (s : State) (x : Context) : Bool := s.root.retiredChannels.all fun n => !mapsChannel s n x

/-- A context's launches may go on: the context may run, and maps no channel that is being retired, whose retirement they
wait for as they do for a context with RES 0 (R385, R388). -/
def mayRun (s : State) (ctx : Fin 4096) : Bool :=
  runnable (getCtx s ctx) && s.health.retiring.all fun n => !mapsChannel s n (getCtx s ctx)

/-- No core and no MCC serves a context (R368). -/
def unserved (s : State) (ctx : Fin 4096) : Bool := (contextCores s ctx).isEmpty && (contextTids s ctx).isEmpty

/-- Put a context's images on flash, or back: the directory names those in device memory (R363, R368). -/
def moveImages (s : State) (ctx : Fin 4096) (flash : Bool) : State :=
  let s1 := { s with images := s.images.map fun p => if p.2.ctx = ctx then (p.1, { p.2 with onFlash := flash }) else p }
  if s.images.any fun p => decide (p.2.ctx = ctx) then writeDir s1 ctx else s1

/-- CONTEXT_SWAP_OUT (R368). -/
def swapOut (s : State) (ctx : Fin 4096) : State :=
  let x := getCtx s ctx
  if runnable x && unserved s ctx then putCtx (moveImages s ctx true) ctx { x with swap := true, res := false } else s

/-- CONTEXT_SWAP_IN (R368). -/
def swapIn (s : State) (ctx : Fin 4096) : State :=
  let x := getCtx s ctx
  if x.valid && !x.dead && x.swap then putCtx (moveImages s ctx false) ctx { x with swap := false, res := true } else s

/-- TLB_INVALIDATE: asked for by Usilaem (R354, R376). -/
def invalidate (s : State) (ctx : Fin 4096) : State :=
  if s.root.boot = .running then updCtx s ctx fun x => { x with invalidating := true } else s

/-- No TLB entry of a context is left in a list. -/
def dropTlb (ctx : Fin 4096) (l : List TlbEntry) : List TlbEntry := l.filter fun x => decide (x.ctx ≠ ctx)

/-- No TLB holds a translation of a context. -/
def flushTlbs (s : State) (ctx : Fin 4096) : State :=
  { s with cores := s.cores.map fun p => (p.1, { p.2 with tlb := dropTlb ctx p.2.tlb })
           clusters := s.clusters.map fun p => (p.1, { p.2 with tlb := dropTlb ctx p.2.tlb }) }

/-- TLB_INVALIDATE_COMPLETE: once every access that used an old translation has been performed (R354). -/
def invalidated (s : State) (ctx : Fin 4096) : State :=
  let x := getCtx s ctx
  if x.invalidating && (contextTids s ctx).all (fun t => (getThread s t).out.isEmpty) then
    putCtx (flushTlbs s ctx) ctx { x with invalidating := false }
  else s

/-- Put a translation at the head of a TLB of n entries, the oldest falling out. -/
def install (n : Nat) (e : TlbEntry) (l : List TlbEntry) : List TlbEntry := (e :: l.filter fun x => decide (x ≠ e)).take n

/-- PAGE_WALK: a translation that succeeds goes into the cluster's TLB and the core's (R352, R354, R355). -/
def walkStep (s : State) (cl : Fin 64) (co : Fin 8) (ctx : Fin 4096) (va : Word) : State :=
  let x := getCtx s ctx
  if !x.valid || !isCanon va then s
  else
    match walkTables s (va.toNat % 2 ^ 52) [0, 1, 2, 3] x.ptroot with
    | none => s
    | some (e, lvl) =>
      let y : TlbEntry := { ctx := ctx, page := va.toNat % 2 ^ 52 / 2 ^ levelShift lvl, level := lvl, entry := e }
      updCluster (updCore s cl co fun c => { c with tlb := install 64 y c.tlb }) cl fun c => { c with tlb := install 2048 y c.tlb }

/-- Usilaem writes page table entries. -/
def writeEntries (s : State) (l : List (Nat × Nat)) : State :=
  l.foldl (fun s p => tgtWrite s (.dev (p.1 / 8 * 8) false) 8 p.2) s

/-- DEMAND_PAGE_MAP: Usilaem writes the entries that map the page a stopped thread missed, and resumes it, when the
address lies in a range served on demand (R356). The entries are its own choice (log 15), but no page and no new page of a table
lies on a retired channel (R385). -/
def demandStep (s : State) (t : Tid) (entries : List (Nat × Nat)) : State :=
  let th := getThread s t
  let va := th.xinfo.toNat
  if stopped th && decide (causeOf th = 0x06) && onDemand (getCtx s th.ctx) va then
    let s1 := writeEntries s entries
    let x := getCtx s th.ctx
    match walkTables s1 (va % 2 ^ 52) [0, 1, 2, 3] x.ptroot with
    | some _ =>
      let fresh := (contextTables s1 x).filter fun p => !(contextTables s x).contains p
      if mapsService s1 x && allInService s fresh then resumeThread s1 t else s
    | none => s
  else s

/-- The threads of a context, those of its images among them. -/
def contextThreads (s : State) (ctx : Fin 4096) : List Thread :=
  (contextTids s ctx).map (getThread s) ++ (s.images.filter fun p => decide (p.2.ctx = ctx)).flatMap fun p => p.2.threads

/-- The pattern numbers that queued or frozen entries of a context name, in its images too: pinned (R283). -/
def pinned (s : State) (ctx : Fin 4096) : List Nat :=
  (contextThreads s ctx).flatMap fun th => (allEntries th).filterMap fun e => match e.op with
    | .pat _ _ _ _ n _ _ => some n.val
    | _ => none

/-- Two ranges of slots share none. -/
def slotsApart (a n b k : Nat) : Bool := decide (a + n ≤ b) || decide (b + k ≤ a)

/-- A place of `len` slots for number n of a context: the lowest one apart from its other valid bindings, else the
lowest one apart from those that are pinned (R366; log 17). -/
def freePlace (binds : SMap Binding) (pins : List Nat) (n len : Nat) : Option Nat :=
  let others := binds.filter fun p => p.2.valid && decide (p.1 ≠ n)
  let ends := 0 :: others.map fun p => p.2.off + p.2.len + 1
  let fits (l : SMap Binding) (o : Nat) : Bool :=
    decide (o + len ≤ Config.patternSlots) && l.all fun p => slotsApart o len p.2.off (p.2.len + 1)
  let lowest (l : List Nat) : Option Nat := l.foldl (fun acc o => match acc with
    | none => some o
    | some a => some (min a o)) none
  match lowest (ends.filter (fits others)) with
  | some o => some o
  | none => lowest ((0 :: ends).filter (fits (others.filter fun p => pins.contains p.1)))

/-- The other bindings of a context once `len` slots from `o` hold the words of number n: one that loses a slot is no longer
valid (R366). -/
def overwrite (binds : SMap Binding) (n o len : Nat) : SMap Binding :=
  binds.map fun p =>
    if decide (p.1 = n) || slotsApart o len p.2.off (p.2.len + 1) then p else (p.1, { p.2 with valid := false })

/-- The place at which number n of a context may be bound to a block: where it is, if it has as many words, else a free one;
none while entries that name n need other words (R283, R366). The bindings of `keep` keep their places. -/
def bindPlace (s : State) (ctx : Fin 4096) (n : Nat) (ws : List Word) (keep : List Nat) : Option Nat :=
  let x := getCtx s ctx
  let pins := keep ++ pinned s ctx
  match bindingOf x n with
  | some b =>
    if b.words = ws then some b.off
    else if pins.contains n then none
    else if b.words.length = ws.length then some b.off
    else freePlace x.binds pins n ws.length
  | none => freePlace x.binds pins n ws.length

/-- Bind number n of a context to a block and load it into every core that serves the context (R252, R366, R378). The
same words under the same binding stay where they are. -/
def bindPattern (s : State) (ctx : Fin 4096) (n : Nat) (ws : List Word) (keep : List Nat) : Option State :=
  let x := getCtx s ctx
  match bindPlace s ctx n ws keep with
  | none => none
  | some o =>
    let b : Binding := { valid := true, reads := blockReads ws, len := ws.length - 1, off := o, words := ws }
    let s1 := putCtx s ctx
      { x with binds := mapPut (overwrite x.binds n o ws.length) n b, measured := mapPut x.measured n ws }
    some ((contextCores s1 ctx).foldl (fun s p => updCore s p.1 p.2 fun c => { c with store := fillSlots c.store ctx o ws }) s1)

/-- A pattern number of a context is bound to other words than a launch's for another launch that has not completed and that
requires it or runs those words (R252). -/
def boundElsewhere (s : State) (key : Option Nat) (ctx : Fin 4096) (n : Fin 32) (ws : List Word) : Bool :=
  match bindingOf (getCtx s ctx) n.val with
  | some b =>
    decide (b.words ≠ ws) &&
      s.launches.any fun p =>
        decide (some p.1 ≠ key) && decide (p.2.ctx = ctx) && decide (p.2.st = .started) &&
          (bitAt p.2.hdr.pats n.val || launchBlock s p.2 n == some b.words)
  | none => false

/-- PATTERN_LOAD_BIND: for a thread stopped at pattern absent (R356, R366). It waits while another launch has the number
(R252). -/
def loadStep (s : State) (t : Tid) : State :=
  let th := getThread s t
  if stopped th && decide (causeOf th = 0x0C) then
    match absentBlock s th with
    | none => s
    | some ws =>
      if boundElsewhere s th.launch th.ctx (Fin.ofNat 32 th.xinfo.toNat) ws then s
      else
        match bindPattern s th.ctx (th.xinfo.toNat % 32) ws [] with
        | some s1 => resumeThread s1 t
        | none => s
  else s

/-- DEBUGGER_RESUME: a thread held at a breakpoint goes on, at the brk or, when the debugger has moved it, after it
(R356; log 31). -/
def debuggerStep (s : State) (t : Tid) (past : Bool) : State :=
  let th := getThread s t
  if stopped th && decide (causeOf th = 0x0E) then
    resumeThread (if past then putThread s t { th with pc := xretOf th 0x0E } else s) t
  else s

/-- Frames of 4 KiB in service: 4 GB, in decimal bytes, for each channel (R4, R15, R385). -/
def framesInService (s : State) : Nat := (256 - s.root.retiredChannels.length) * 4000000000 / 4096

/-- Frames that the valid contexts need. -/
def framesNeeded (s : State) : Nat := (s.ctxs.map fun p => if p.2.valid then p.2.frames else 0).sum

/-- A context's watermarks keep apart from every other valid context's, and within 256 (R344). -/
def marksApart (s : State) (lo n : Nat) : Bool :=
  decide (lo + n ≤ 256) &&
    s.ctxs.all fun p => !p.2.valid || slotsApart lo n p.2.wmlo p.2.wmcnt || decide (n = 0) || decide (p.2.wmcnt = 0)

/-- The context table entry that a creation fills (R348). -/
def specContext (x : ContextSpec) : Context :=
  { Context.reset with
    valid := true, res := true, wmlo := x.wmlo, wmcnt := x.wmcnt, ptroot := x.ptroot, spbase := x.spbase
    imgdir := x.imgdir, vlog := x.vlog, errec := x.errec, demand := x.demand, frames := x.frames }

/-- A context can be created: by a running Usilaem (R376), under a free ID (R347, R369), with watermarks of its own (R344), a
window and tables in their places (R287, R348, R361), and memory enough in service and none of it retired (R385). -/
def creatable (s : State) (x : ContextSpec) : Bool :=
  decide (s.root.boot = .running) && decide (x.ctx ≠ 0) && !(getCtx s x.ctx).valid && marksApart s x.wmlo x.wmcnt &&
    decide (x.spbase.toNat % 2 ^ 23 = 0) && isCanon x.spbase && decide (x.ptroot % 2 ^ 16 = 0) &&
    decide (x.vlog % 64 = 0) && decide (framesNeeded s + x.frames ≤ framesInService s) &&
    mapsService s (specContext x) && allInService s (contextTables s (specContext x)) && !onRetired s x.vlog 1040 && !onRetired s x.errec 64

/-- CONTEXT_CREATE: Usilaem fills an entry and its violation log's header, or refuses (R287, R344, R347, R348, R361,
R385); the reserved bits of the log and of the error record read 0 from then on (R5). -/
def createContext (s : State) (x : ContextSpec) : State :=
  if creatable s x then putCtx { s with mem := memWrite (clearReserved s.mem x.vlog x.errec) x.vlog 16 0 } x.ctx (specContext x) else s

/-- A pattern binding as its 32 bits (R366). -/
def bindBits (b : Binding) : Nat := b.off + 2 ^ 11 * b.len + 2 ^ 17 * b.reads + if b.valid then 2 ^ 31 else 0

/-- A context table entry as its 256 bytes (R348). The model holds the table as records (log 74). -/
def contextBits (x : Context) : Nat :=
  (if x.valid then 1 else 0) + (if x.res then 2 else 0) + (if x.dead then 4 else 0) + (if x.swap then 8 else 0) +
    2 ^ 8 * x.wmlo + 2 ^ 16 * x.wmcnt + 2 ^ 192 * x.ptroot + 2 ^ 256 * x.spbase.toNat + 2 ^ 320 * x.imgdir +
    2 ^ 384 * x.vlog + 2 ^ 448 * x.errec + (x.binds.map fun p => 2 ^ (512 + 32 * p.1) * bindBits p.2).sum

/-- A core as a context leaves the device: no slot of its pattern store and no scratchpad byte counts as the context's any more,
so that a later context of the same ID finds zeros (R23, R347, R369). -/
def forgetContext (ctx : Fin 4096) (c : Core) : Core :=
  { c with store := c.store.filter fun q => decide (q.2.ctx ≠ ctx)
           lastCtx := if c.lastCtx = some ctx then none else c.lastCtx }

/-- CONTEXT_DESTROY: VALID is cleared once nothing of the context runs or is queued; its queues are unbound and its tags go
with it (R336, R347, R369). The publishes recorded for a descriptor stay with its physical address, of which the manual says
nothing (R262; log 85). -/
def destroyContext (s : State) (ctx : Fin 4096) : State :=
  if (getCtx s ctx).valid && unserved s ctx && (contextQueues s ctx).all (fun n => (queueLaunches s n).isEmpty) &&
      s.images.all (fun p => decide (p.2.ctx ≠ ctx)) then
    let s1 := (contextQueues s ctx).foldl unbind (flushTlbs s ctx)
    let s2 := { s1 with
      cores := s1.cores.map fun p => (p.1, forgetContext ctx p.2)
      blocks := s1.blocks.filter fun b => decide (b.1 ≠ ctx) }
    putCtx s2 ctx Context.reset
  else s

end Sys2Proof.Machine
end

