-- ==== Sys2Proof/Machine/Front.lean ====
section
/-!
DEFINITION. The launch front ends and nest walkers at work: binding queues and taking packets (R331 to R338), starting
launches (R336, R344), assigning cores and handing out iterations (R340, R341), GANG shares (R342), ageing and
pre-emption (R343), completion (R345), and the restoration of saved cores (R365).
-/

namespace Sys2Proof.Machine

/-- The front end that serves a queue (R331). -/
def frontOf (q : Nat) : Nat := q % 4

/-- The 64 bytes of a queue block at binding: HEAD and TAIL at a sentinel, CTX, CEIL and MSIX as they were, all else 0
(R331). -/
def boundBlock (w : Nat) (sentinel : Word) : Nat :=
  sentinel.toNat + 2 ^ 64 * sentinel.toNat + 2 ^ 256 * (w &&& bindMask)

/-- QUEUE_BIND: Usilaem binds a queue to the block at a physical address, with HEAD and TAIL at a sentinel, and CTX, CEIL
and MSIX as the block holds them (R331, R333), if it can read them and their channel is in service (R385). -/
def bindStep (s : State) (n block : Nat) (sentinel : Word) : State :=
  let w := memRead s.mem (block + qBind) 8
  let ctx : Fin 4096 := Fin.ofNat 4096 (bitsOf w 16 12)
  let x := getCtx s ctx
  if decide (s.root.boot = .running) && decide (n < 256) && decide (block % 64 = 0) && decide (block + 64 ≤ 2 ^ 48) &&
      decide (ctx ≠ 0) && x.valid && !x.dead && (queueLaunches s n).isEmpty && !s.poisonLines.contains (block / 64) &&
      !onRetired s block 64 then
    let q : Queue := { block := block, ctx := ctx, ceil := bitsOf w 0 2, msix := bitsOf w 32 11, lastSeq := 0, retry := false }
    let s1 := unbind s n
    putQueue { s1 with mem := memWrite s1.mem block 64 (boundBlock w sentinel) } n q
  else s

/-- Follow a queue's link (R332, R338): a packet is taken; a link that cannot be read is logged, at every try that fails (DESIGN
CHOICE, log 130), and waits to be tried again; a queue block that cannot be read contains the context (R331). -/
def acceptStep (s : State) (n : Nat) (again : Bool) : State :=
  match getQueue s n with
  | none => s
  | some q =>
    if q.retry ≠ again then s
    else if blockPoisoned s q then contain s q.ctx (reportOf s none)
    else
      let s1 := putQueue s n { q with retry := false }
      match followLink s1 q with
      | .none => s1
      | .unreadable va c => putQueue (frontLog s1 q.ctx va c) n { q with retry := true }
      | .packet va p => takePacket s1 n { q with retry := false } va p

/-- A wait entry is met (R336): its queue's DONE or START, which can be read, has reached it, or the queue is unbound. -/
def waitMet (s : State) (w : WaitEntry) : Bool :=
  match getQueue s w.queue with
  | none => true
  | some q => !blockPoisoned s q && decide (w.seq ≤ blockWord s q (if w.start then qStart else qDone))

/-- A required pattern is bound to other words for a launch of the context that has not completed: the launch is held
(R252). -/
def patsHeld (s : State) (key : Nat) (x : Launch) : Bool :=
  (requiredPats x.hdr).any fun n =>
    match launchBlock s x n with
    | some ws => boundElsewhere s (some key) x.ctx n ws
    | none => false

/-- A launch is ready to start (R336, R343, R345): earlier launches of its queue have started, its wait entries are met
and its patterns can be bound. -/
def readyToStart (s : State) (key : Nat) (x : Launch) : Bool :=
  decide (x.st = .accepted) &&
    (queueLaunches s x.queue).all (fun p => decide (key ≤ p.1) || decide (p.2.st ≠ .accepted)) &&
    x.waits.all (waitMet s) && !patsHeld s key x && mayRun s x.ctx

/-- The better of two launches: the higher level, then the queue that comes first after the one served last, then the
earlier in its queue (R343). -/
def better (last : Nat) (p q : Nat × Launch) : Bool :=
  let turn (x : Launch) : Nat := (x.queue + 255 - last) % 256
  decide (q.2.level < p.2.level) ||
    (decide (p.2.level = q.2.level) &&
      (decide (turn p.2 < turn q.2) || (decide (turn p.2 = turn q.2) && decide (p.1 < q.1))))

/-- The best of some launches. -/
def best (last : Nat) (l : List (Nat × Launch)) : Option (Nat × Launch) :=
  l.foldl (fun acc p => match acc with
    | none => some p
    | some q => if better last p q then some p else some q) none

/-- Set watermarks to zero (R344). -/
def clearMarks (s : State) (lo : Nat) : Nat → State
  | 0 => s
  | n + 1 => clearMarks { s with watermarks := mapDel s.watermarks (lo % 256) } (lo + 1) n

/-- Bind each of some patterns that a launch requires; those of `keep` and those bound before it keep their places. -/
def bindEach (s : State) (x : Launch) (keep : List Nat) : List (Fin 32) → Option State
  | [] => some s
  | n :: r =>
    match launchBlock s x n with
    | none => none
    | some ws =>
      match bindPattern s x.ctx n.val ws keep with
      | none => none
      | some s1 => bindEach s1 x (n.val :: keep) r

/-- The numbers among those required that are bound to a launch's blocks already. -/
def boundRight (s : State) (x : Launch) (ns : List (Fin 32)) : List Nat :=
  (ns.filter fun n => match bindingOf (getCtx s x.ctx) n.val with
    | some b => launchBlock s x n == some b.words
    | none => false).map fun n => n.val

/-- A context's bindings but for those that entries name are given up, to make room. -/
def unbindPatterns (s : State) (ctx : Fin 4096) : State :=
  let pins := pinned s ctx
  updCtx s ctx fun c => { c with binds := c.binds.map fun p => if pins.contains p.1 then p else (p.1, { p.2 with valid := false }) }

/-- Bind every pattern that a launch requires, all of them at once in the store (R252): beside those that are bound already, or
all anew where that leaves no room. -/
def bindAll (s : State) (x : Launch) (ns : List (Fin 32)) : Option State :=
  (bindEach s x (boundRight s x ns) ns).orElse fun _ => bindEach (unbindPatterns s x.ctx) x [] ns

/-- The shares of a GANG launch: floor(8 * TPC / S) serials each (R342). -/
def gangShares (x : Launch) : Nat → Nat → List (Nat × Nat)
  | 0, _ => []
  | fuel + 1, lo =>
    let n := max 1 (8 * x.hdr.tpc / x.stages)
    if spaceOf x ≤ lo then []
    else (lo, min (lo + n) (spaceOf x)) :: gangShares x fuel (lo + n)

/-- The number of the latest start so far. -/
def lastStarted (s : State) : Nat := (s.launches.map fun p => p.2.startedAt).foldl max 0

/-- Start a launch (R339, R340, R342, R344): its patterns are bound, its watermarks cleared, START written and its
serials shared out; an empty space completes at once. -/
def startLaunch (s : State) (key : Nat) (x : Launch) : State :=
  match bindAll s x (requiredPats x.hdr) with
  | none => s
  | some s1 =>
    let i := spaceOf x
    let y : Launch :=
      { x with
        st := if i = 0 then .completed else .started
        startedAt := lastStarted s + 1
        shares := if x.gang then [] else initialShares i
        gangWaiting := if x.gang then gangShares x i 0 else [] }
    let s2 := putLaunch (clearMarks s1 x.wmbase x.wmclr) key y
    let s3 := { s2 with feLast := mapPut s2.feLast (frontOf x.queue) x.queue }
    let s4 := writeStart s3 x.queue
    if i = 0 then writeDone s4 x.queue else s4

/-- LAUNCH_START: a front end starts the best launch that is ready (R343, R344). -/
def launchStartStep (s : State) (f : Nat) : State :=
  let l := s.launches.filter fun p => decide (frontOf p.2.queue = f % 4) && readyToStart s p.1 p.2
  match best (mapGet 255 s.feLast (f % 4)) l with
  | none => s
  | some p => startLaunch s p.1 p.2

/-- The GANG launches of which a saved share waits to come back to a cluster (R342). -/
def sharesBack (s : State) (cl : Fin 64) : List Launch :=
  s.images.filterMap fun p =>
    if !p.2.isMcc && decide (p.2.cl = cl) && !p.2.onFlash && mayRun s p.2.ctx && isGang s p.2.launch then getLaunch s p.2.launch else none

/-- A cluster is kept for a share that comes back: it assigns its cores to no other launch as they fall idle, but to one whose MCC is
at work there, for which the share may have to wait (R342; log 123). -/
def awaitsShare (s : State) (cl : Fin 64) (key : Nat) : Bool :=
  !(sharesBack s cl).isEmpty && decide ((getCluster s cl).mccLaunch ≠ some key)

/-- The launches whose saved MCC waits to come back onto a cluster (R343, R365); those of GANG launches only while a share that names
an MCC comes back to it (R342; log 123). -/
def mccImages (s : State) (cl : Fin 64) : List (Nat × Launch) :=
  s.images.filterMap fun p =>
    if p.2.isMcc && decide (p.2.cl = cl) && !p.2.onFlash && mayRun s p.2.ctx &&
        (isGang s p.2.launch || (sharesBack s cl).all fun x => decide (x.hdr.mccent = 0)) then
      (getLaunch s p.2.launch).map fun x => (p.2.launch, x)
    else none

/-- No other of some launches comes before a launch on a cluster (R341, R343). -/
def comesFirst (s : State) (cl : Fin 64) (l : List (Nat × Launch)) (key : Nat) (x : Launch) : Bool :=
  l.all fun p => decide (p.1 = key) || !better (getCluster s cl).lastQueue p (key, x)

/-- The MCC lets a cluster take a launch (R311, R341): none is named, it serves the launch, it has finished for it, or it is
free and no saved MCC of a launch that comes first waits for it (R343). While it serves another launch, the cluster waits for
it. -/
def mccAllows (s : State) (cl : Fin 64) (key : Nat) (x : Launch) : Bool :=
  let c := getCluster s cl
  decide (x.hdr.mccent = 0) || decide (c.mccLaunch = some key) || c.mccDone.contains key ||
    (decide (c.mccLaunch = none) && comesFirst s cl (mccImages s cl) key x)

/-- A core is idle (R341). -/
def idleCore (s : State) (cl : Fin 64) (co : Fin 8) : Bool :=
  decide ((getCore s cl co).launch = none) && coreIdle s cl co && copiesDone (getCore s cl co)

/-- Nothing is queued for a core's reclaim walker (R75; log 64). -/
def poolSettled (s : State) (cl : Fin 64) (co : Fin 8) : Bool := (getCore s cl co).reclaim.isEmpty

/-- An image must go back to the core it came from (R365): a slot is not EMPTY, or the launch's MCC image holds an
incomplete entry; a GANG share stays on its cluster (R342). -/
def homeBound (s : State) (x : Image) : Bool :=
  (match x.core with
    | some c => c.slots.toList.any fun y => decide (y.st ≠ .empty)
    | none => true) ||
    s.images.any fun p => decide (p.2.launch = x.launch) && p.2.isMcc && !p.2.tq.isEmpty

/-- A cluster holds a launch (R343, R365). -/
def holds (s : State) (key : Nat) (x : Launch) (cl : Fin 64) : Bool :=
  decide ((shareOf x cl.val).1 < (shareOf x cl.val).2) || x.partials.any (fun p => decide (p.1 = cl.val)) ||
    allCores.any fun co => decide ((getCore s cl co).launch = some key)

/-- A saved core may come back to a cluster: neither a share nor a saved one is waited for there, or the image belongs to a GANG share:
to one that comes back to a cluster not kept for another, that still holds cores, or whose launch's next share waits for it (R342,
R343). -/
def keptApart (s : State) (x : Image) (l : Launch) (cl : Fin 64) : Bool :=
  match (getCluster s cl).kept with
  | none => l.gang || !awaitsShare s cl x.launch
  | some key =>
    l.gang && decide (x.cl = cl) &&
      (decide (key = x.launch) || allCores.any fun co => decide ((getCore s cl co).launch = some x.launch))

/-- A core that a GANG share holds without an iteration of it (R342). -/
def heldCore (s : State) (key : Nat) (cl : Fin 64) (co : Fin 8) : Bool :=
  isGang s key && decide ((getCore s cl co).launch = some key) && coreIdle s cl co && copiesDone (getCore s cl co)

/-- A core can take something up. -/
def coreFree (s : State) (cl : Fin 64) (co : Fin 8) : Bool := poolSettled s cl co && !coreAsked s cl co

/-- A GANG share can come back to a cluster: each of its eight cores is the share's already, or idle (R342). -/
def shareFits (s : State) (key : Nat) (cl : Fin 64) : Bool :=
  allCores.all fun k => decide ((getCore s cl k).launch = some key) || (idleCore s cl k && coreFree s cl k)

/-- A core to which another image of the same share must go back (R365). -/
def coreOfOther (s : State) (x : Image) (co : Fin 8) : Bool :=
  decide (x.co ≠ co) &&
    s.images.any fun p => decide (p.2.launch = x.launch) && !p.2.isMcc && decide (p.2.cl = x.cl) && decide (p.2.co = co) && homeBound s p.2

/-- An image may be restored onto a core (R365); a GANG share's onto its cluster, when all eight cores are the share's or idle
(R342). -/
def mayRestore (s : State) (x : Image) (l : Launch) (cl : Fin 64) (co : Fin 8) : Bool :=
  (idleCore s cl co || heldCore s x.launch cl co) && coreFree s cl co && keptApart s x l cl && !x.onFlash &&
    (if homeBound s x then decide (x.cl = cl) && decide (x.co = co)
     else decide (x.cl = cl) || (!l.gang && holds s x.launch l cl)) &&
    (!l.gang || (shareFits s x.launch cl && !coreOfOther s x co))

/-- A saved core of a launch could be restored onto a core (R343, R365). -/
def resumable (s : State) (key : Nat) (x : Launch) (cl : Fin 64) (co : Fin 8) : Bool :=
  s.images.any fun p => decide (p.2.launch = key) && !p.2.isMcc && mayRestore s p.2 x cl co

/-- The launches that could put an idle core to work: by an iteration, which a GANG share hands out as it starts, or by a saved
core (R341, R342, R343, R368). -/
def takers (s : State) (cl : Fin 64) (co : Fin 8) : List (Nat × Launch) :=
  s.launches.filter fun p =>
    decide (p.2.st = .started) && mayRun s p.2.ctx &&
      ((!p.2.gang && available s p.1 p.2 cl && !awaitsShare s cl p.1) || resumable s p.1 p.2 cl co) && mccAllows s cl p.1 p.2

/-- A cluster holds serials of a launch: the launch's share has come to it (R311). -/
def hasSerials (x : Launch) (cl : Fin 64) : Bool :=
  x.partials.any (fun p => decide (p.1 = cl.val)) || decide ((shareOf x cl.val).1 < (shareOf x cl.val).2)

/-- Start the MCC that a launch names, if it has not been started for the cluster's share (R311, R341; log 87). -/
def ensureMcc (s : State) (cl : Fin 64) (key : Nat) (x : Launch) : State :=
  if x.hdr.mccent = 0 ∨ x.mccStarted.contains cl.val = true then s else startMcc s cl key x

/-- CORE_ASSIGN: an idle core goes to the best launch that can use it, unless the cluster is kept for a GANG share; a core
of which every thread found nothing is idle again first (R341, R342). A launch whose saved cores come back first takes
the core by CORE_RESTORE. The launch's MCC starts with the core when the cluster has serials of it, and otherwise with the first
that it steals (R311). -/
def assignStep (s : State) (cl : Fin 64) (co : Fin 8) : State :=
  let s0 := settleCore s cl co
  let c := getCluster s0 cl
  if !idleCore s0 cl co || c.kept.isSome then s0
  else
    match best c.lastQueue (takers s0 cl co) with
    | none => s0
    | some p =>
      if resumable s0 p.1 p.2 cl co then s0
      else
        let s1 := assignCore s0 cl co p.1 p.2
        let s2 := if hasSerials p.2 cl then ensureMcc s1 cl p.1 p.2 else s1
        updCluster s2 cl fun k => { k with lastQueue := p.2.queue }

/-- No leaf is charged to a thread, and none is on its way to the free list: an iteration begins then only, with LHELD at its
reset value 0 (R8, R22, R76, R86; log 64). -/
def chargeFree (s : State) (t : Tid) : Bool :=
  poolSettled s (clusterOf t) (coreOf t) && decide (lheld (ownCore s t) (threadOf t) = 0)

/-- A thread may receive an iteration (R285, R340, R349). -/
def freeThread (s : State) (t : Tid) (x : Launch) : Bool :=
  let th := getThread s t
  decide (th.launch = none) && decide ((threadOf t).val < x.hdr.tpc) && !th.preq && chargeFree s t

/-- A launch's MCC has been started on a cluster, or may be now (R311, R341). -/
def mccReady (s : State) (cl : Fin 64) (key : Nat) (x : Launch) : Bool :=
  x.mccStarted.contains cl.val || mccAllows s cl key x

/-- ITERATION_HANDOUT: a free thread of a core takes the next iteration of the core's launch; no serial begins before the
launch's saved iterations are resumed (R340, R341, R343). With the first serials of a cluster its MCC starts (R311). -/
def handoutStep (s : State) (cl : Fin 64) (co : Fin 8) (h : Fin 4) : State :=
  let t : Tid := .vec cl co h
  match (getCore s cl co).launch with
  | none => s
  | some key =>
    match getLaunch s key with
    | none => s
    | some x =>
      if decide (x.st = .started) && !x.gang && freeThread s t x && mayRun s x.ctx && !coreAsked s cl co && mccReady s cl key x then
        match if available s key x cl then nextIteration s key x cl else none with
        | none => settleCore s cl co
        | some r => startIteration (ensureMcc (putLaunch s key r.2.2) cl key r.2.2) t key r.2.2 r.1 r.2.1
      else s

/-- The idle cores of a cluster. -/
def idleCores (s : State) (cl : Fin 64) : Nat := (allCores.filter fun co => idleCore s cl co).length

/-- The GANG launch whose share comes first: by level, then by its start (R342). -/
def firstGang (s : State) : Option (Nat × Launch) :=
  let l := s.launches.filter fun p =>
    decide (p.2.st = .started) && !p.2.gangWaiting.isEmpty && mayRun s p.2.ctx
  l.foldl (fun acc p => match acc with
    | none => some p
    | some q =>
      if q.2.level < p.2.level ∨ (p.2.level = q.2.level ∧ p.2.startedAt < q.2.startedAt) then some p else some q) none

/-- The free cluster with the most idle cores, the lowest-numbered on ties (R342). -/
def widestCluster (s : State) : Option (Fin 64) :=
  ((List.finRange 64).foldl (fun (acc : Option (Fin 64 × Nat)) cl =>
    if (getCluster s cl).kept.isSome then acc
    else
      let n := idleCores s cl
      match acc with
      | none => some (cl, n)
      | some q => if q.2 < n then some (cl, n) else acc) none).map fun q => q.1

/-- GANG_CLUSTER_CHOICE (R342). -/
def gangChoiceStep (s : State) : State :=
  match firstGang s, widestCluster s with
  | some (key, x), some cl =>
    (match x.gangWaiting with
      | [] => s
      | sh :: r =>
        putLaunch (updCluster s cl fun c => { c with kept := some key }) key
          { x with gangWaiting := r, gangChosen := mapPut x.gangChosen cl.val sh })
  | _, _ => s

/-- The iterations of a GANG share, each stage of a serial after the one before it (R342). -/
def shareWork (x : Launch) (sh : Nat × Nat) : List (Nat × Nat) :=
  (upFrom sh.1 (sh.2 - sh.1)).flatMap fun n => (upFrom 0 x.stages).map fun st => (n, st)

/-- The threads a GANG share hands its iterations to (log 17). -/
def shareThreads (cl : Fin 64) (tpc : Nat) : List Tid :=
  allCores.flatMap fun co => (coreTids cl co).take tpc

/-- A cluster's MCC has not run for the share of a GANG launch that starts there: one that ran an earlier share of it starts again
(R341; log 87). -/
def mccAnew (x : Launch) (cl : Fin 64) : Launch := { x with mccStarted := x.mccStarted.filter fun k => decide (k ≠ cl.val) }

/-- GANG_SHARE_START: the share of a kept cluster starts when all eight cores, and the MCC it names, are idle (R342), and no saved
iteration of its launch waits, which would come first (R343). -/
def gangStartStep (s : State) (cl : Fin 64) : State :=
  let s0 := allCores.foldl (fun s co => settleCore s cl co) s
  match (getCluster s0 cl).kept with
  | none => s0
  | some key =>
    match getLaunch s0 key with
    | none => updCluster s0 cl fun c => { c with kept := none }
    | some x =>
      match mapFind x.gangChosen cl.val with
      | none => s0
      | some sh =>
        if allCores.all (fun co => idleCore s0 cl co && (coreTids cl co).all (chargeFree s0)) && mayRun s0 x.ctx && !hasImages s0 key &&
            (decide (x.hdr.mccent = 0) || decide ((getCluster s0 cl).mccLaunch = none)) then
          let y := mccAnew { x with gangChosen := mapDel x.gangChosen cl.val } cl
          let s1 := putLaunch (updCluster s0 cl fun c =>
            { c with kept := none, mccDone := c.mccDone.filter fun k => decide (k ≠ key) }) key y
          let s2 := allCores.foldl (fun s co => assignCore s cl co key x) s1
          let s3 := ensureMcc s2 cl key y
          ((shareWork x sh).zip (shareThreads cl x.hdr.tpc)).foldl
            (fun s p => startIteration s p.2 key x p.1.1 p.1.2) s3
        else s0

/-- Some core serves a launch. -/
def someCore (s : State) (key : Nat) : Bool := s.cores.any fun p => decide (p.2.launch = some key)

/-- A launch waits: it is ready to start, or has serials left, or iterations saved, and no core of it is taking them (R343;
log 86), while its context may run; else it keeps its level (R368; log 132). -/
def waiting (s : State) (key : Nat) (x : Launch) : Bool :=
  readyToStart s key x ||
    (mayRun s x.ctx && decide (x.st = .started) &&
      (((!x.shares.isEmpty || !x.partials.isEmpty || hasImages s key) && !someCore s key) || !x.gangWaiting.isEmpty || !x.gangChosen.isEmpty))

/-- LAUNCH_AGEING: a launch that has waited rises one level, up to 3 (R343). -/
def ageStep (s : State) (key : Nat) : State :=
  match getLaunch s key with
  | none => s
  | some x => if waiting s key x then putLaunch s key { x with level := min 3 (x.level + 1) } else s

/-- A core that a launch may pre-empt (R343): its launch stands lower, is not GANG, and it has not been asked yet. -/
def victimCore (s : State) (x : Launch) (cl : Fin 64) (co : Fin 8) : Option (Nat × Nat) :=
  match (getCore s cl co).launch with
  | none => none
  | some k =>
    match getLaunch s k with
    | none => none
    | some v =>
      if v.level < x.level0 ∧ v.gang = false ∧ coreAsked s cl co = false then
        some (v.level, (getCore s cl co).assignedAt)
      else none

/-- The core to pre-empt: the lowest level first, within it the core assigned most recently (R343). -/
def pickVictim (s : State) (x : Launch) (cl : Fin 64) : Option (Fin 8) :=
  (allCores.foldl (fun (acc : Option (Fin 8 × Nat × Nat)) co =>
    match victimCore s x cl co with
    | none => acc
    | some v =>
      match acc with
      | none => some (co, v)
      | some a => if v.1 < a.2.1 ∨ (v.1 = a.2.1 ∧ a.2.2 < v.2) then some (co, v) else acc) none).map fun a => a.1

/-- The saved cores of a launch that could go back onto a cluster (R343, R365). -/
def returning (s : State) (key : Nat) (x : Launch) (cl : Fin 64) : Nat :=
  s.images.countP fun p =>
    decide (p.2.launch = key) && !p.2.isMcc && !p.2.onFlash &&
      (decide (p.2.cl = cl) || (!homeBound s p.2 && !x.gang && holds s key x cl))

/-- The cores that a launch can use on a cluster: for the iterations left of its share, and one for each saved core (R343). -/
def coresWanted (s : State) (key : Nat) (x : Launch) (cl : Fin 64) : Nat :=
  let p := shareOf x cl.val
  ceilDiv ((p.2 - p.1) * x.stages + (x.partials.filter fun q => decide (q.1 = cl.val)).length) (max 1 x.hdr.tpc) +
    returning s key x cl

/-- The cores of a cluster already asked to leave. -/
def coresAsked (s : State) (cl : Fin 64) : Nat :=
  (allCores.filter fun co => coreAsked s cl co).length

/-- Ask a lower launch's MCC to leave for a PREEMPT launch that names one and has not had it yet (R343). -/
def askMcc (s : State) (key : Nat) (x : Launch) (cl : Fin 64) : State :=
  if x.hdr.mccent = 0 ∨ (mapFind x.gangChosen cl.val = none ∧ (getCluster s cl).mccDone.contains key = true) ∨ (getCluster s cl).mccLaunch = some key then s
  else
    match (getCluster s cl).mccLaunch with
    | none => s
    | some k =>
      match getLaunch s k with
      | none => s
      | some v =>
        if v.level < x.level0 ∧ v.gang = false then updThread s (.mcc cl) fun th => { th with preq := true } else s

/-- The cores of a cluster that serve a launch. -/
def ownCores (s : State) (key : Nat) (cl : Fin 64) : Nat := (allCores.filter fun co => decide ((getCore s cl co).launch = some key)).length

/-- A launch finds no core on a cluster and can use one more than have been asked to leave: no core is idle; or it is GANG, with a
share that the cluster has been chosen for or that comes back there, which takes all eight cores and keeps those that are idle
(R342, R343; log 78). -/
def wantsCore (s : State) (key : Nat) (x : Launch) (cl : Fin 64) : Bool :=
  if x.gang then decide (coresAsked s cl + idleCores s cl + ownCores s key cl < 8)
  else decide (idleCores s cl = 0) && decide (coresAsked s cl < coresWanted s key x cl)

/-- A launch has iterations left for a cluster, those of its saved cores among them (R343). -/
def workOn (s : State) (key : Nat) (x : Launch) (cl : Fin 64) : Bool :=
  (if x.gang then (mapFind x.gangChosen cl.val).isSome else obtainable s key x cl) || decide (0 < returning s key x cl)

/-- Every thread of a core is asked to leave (R362). -/
def askCore (s : State) (cl : Fin 64) (co : Fin 8) : State :=
  (coreTids cl co).foldl (fun s t => updThread s t fun th => { th with preq := true }) s

/-- LAUNCH_PREEMPT: a PREEMPT launch with iterations left and no idle core on a cluster asks one more core to leave, and a
lower launch's MCC when it names one (R343, R362). -/
def preemptStep (s : State) (key : Nat) (cl : Fin 64) : State :=
  match getLaunch s key with
  | none => s
  | some x =>
    if x.preempt && decide (x.st = .started) && mayRun s x.ctx && workOn s key x cl then
      let s1 :=
        match if wantsCore s key x cl then pickVictim s x cl else none with
        | none => s
        | some co => askCore s cl co
      askMcc s1 key x cl
    else s

/-- Everything a launch started has ended (R295, R345). -/
def finished (s : State) (key : Nat) (x : Launch) : Bool :=
  decide (x.st = .started) && x.shares.isEmpty && x.partials.isEmpty && x.gangWaiting.isEmpty && x.gangChosen.isEmpty &&
    s.images.all (fun p => decide (p.2.launch ≠ key)) &&
    (listedTids s).all (fun t => decide ((getThread s t).launch ≠ some key)) &&
    s.cores.all (fun p => p.2.cqs.toList.all fun q => q.all fun c => decide (c.launch ≠ key)) &&
    s.clusters.all fun p => decide (p.2.mccLaunch ≠ some key)

/-- LAUNCH_COMPLETE: the finished launches of a queue complete, and DONE passes them in queue order (R295, R345). -/
def launchDoneStep (s : State) (n : Nat) : State :=
  let done := (queueLaunches s n).filter fun p => finished s p.1 p.2
  let s1 := done.foldl (fun s p => putLaunch s p.1 { p.2 with st := .completed }) s
  writeDone s1 n

/-- A cluster's MCC is kept for a GANG share of another launch that names one (R342). -/
def mccKept (s : State) (cl : Fin 64) (key : Nat) : Bool :=
  match (getCluster s cl).kept with
  | none => false
  | some k => decide (k ≠ key) && match getLaunch s k with
    | some y => decide (y.hdr.mccent ≠ 0)
    | none => false

/-- An MCC image may go back onto its cluster: the MCC is free and awaited by no GANG share, and its launch comes first among those whose MCC is saved there
and those that an idle core of it could take with an MCC of theirs (R341, R342, R343). -/
def mayRestoreMcc (s : State) (x : Image) (l : Launch) : Bool :=
  decide ((getCluster s x.cl).mccLaunch = none) && !(getThread s (.mcc x.cl)).preq && !mccKept s x.cl x.launch &&
    (l.gang || (sharesBack s x.cl).all fun y => decide (y.hdr.mccent = 0)) && comesFirst s x.cl (mccImages s x.cl) x.launch l &&
    allCores.all fun co => !idleCore s x.cl co ||
      comesFirst s x.cl ((takers s x.cl co).filter fun p => decide (p.2.hdr.mccent ≠ 0)) x.launch l

/-- The queue of a launch that a cluster has served is the one served last (R343). -/
def servedLast (s : State) (cl : Fin 64) (l : Launch) : State := updCluster s cl fun c => { c with lastQueue := l.queue }

/-- The idle cores of a cluster go to a GANG share that comes back to it: it holds all eight, those without an iteration included
(R342). -/
def holdShare (s : State) (cl : Fin 64) (key : Nat) (ctx : Fin 4096) : State :=
  allCores.foldl (fun s k => if (getCore s cl k).launch = some key then s else giveCore s cl k key ctx) s

/-- Restore a core image, the other cores of its cluster with it for a GANG share, and start the MCC of the launch on a cluster where
it has not run yet (R311, R341, R342, R365). -/
def resumeCore (s : State) (k : Nat) (x : Image) (l : Launch) (cl : Fin 64) (co : Fin 8) : State :=
  let s1 := restoreCore s k x cl co
  if (mapFind s1.images k).isSome then s1
  else ensureMcc (if l.gang then holdShare s1 cl x.launch x.ctx else s1) cl x.launch l

/-- CORE_RESTORE: image k goes back onto a core, or an MCC image onto its cluster, once its context may run, when its launch is the
one that comes first for it (R341, R343, R365). -/
def restoreStep (s : State) (k : Nat) (cl : Fin 64) (co : Fin 8) : State :=
  match mapFind s.images k with
  | none => s
  | some x =>
    match getLaunch s x.launch with
    | none => s
    | some l =>
      if !mayRun s x.ctx || x.onFlash then s
      else if x.isMcc then (if mayRestoreMcc s x l then servedLast (restoreMcc s k x) x.cl l else s)
      else if mayRestore s x l cl co && mccAllows s cl x.launch l &&
          (heldCore s x.launch cl co || comesFirst s cl (takers s cl co) x.launch l) then
        servedLast (resumeCore s k x l cl co) cl l
      else s

end Sys2Proof.Machine
end

