-- ==== Sys2Proof/Machine/Service.lean ====
section
/-!
DEFINITION. Links (R371 to R374), the host and Ethernet (R346, R375), secure boot (R376, R377), attestation (R378, R379),
errors and repair (R380 to R385), the health block (R386, R387), and power (R281, R282).
-/

namespace Sys2Proof.Machine

/-- A link's record. -/
def getLink (s : State) (p : Nat) : Link := mapGet Link.reset s.links p
/-- Put a link back. -/
def putLink (s : State) (p : Nat) (l : Link) : State := { s with links := mapPut s.links p l }

/-- STATE of LINKSTAT (R373). -/
def linkCode : LinkState → Nat
  | .down => 0
  | .training => 1
  | .up => 2
  | .retired => 3

/-- LINKSTAT (R373). -/
def linkStat (l : Link) : Nat := linkCode l.st + 2 ^ 16 * l.port.toNat + 2 ^ 32 * l.replay

/-- The bytes that the access of a flit touches (R371). -/
def flitBytes (a : FlitAccess) : Nat :=
  match a.kind with
  | .read => 0
  | .write b => b.length
  | .atomic _ _ dbl _ _ => if dbl then 8 else 4
  | .append _ => 64
  | .publish _ _ => 64

/-- What the access of a flit does at this device's memory: an atomic, apnd or apub on poisoned bytes is not performed (R142,
R382), nor is an apnd or apub of an inconsistent descriptor (R261). -/
def flitEffect (s : State) (a : FlitAccess) : State :=
  let tg : Target := .dev a.pa false
  let n := flitBytes a
  match a.kind with
  | .read => s
  | .write b => if n = 0 then s else tgtWrite s tg n (bytesNat b)
  | .atomic op signed _ x cmp =>
    if tgtPoison s tg n then s
    else tgtWrite s tg n (amoNew op signed (8 * n) (tgtRead s tg n) x.toNat cmp.toNat).1
  | .append n => if tgtPoison s tg 64 then s else ((appendAt s tg n).map fun r => r.1).getD s
  | .publish n p => if tgtPoison s tg 64 || decide (n = 0) then s else ((publishAt s tg n p).map fun r => r.1).getD s

/-- The access of a flit performed: the reserved bits of violation logs and error records stay as they were (R5). -/
def flitPerform (s : State) (a : FlitAccess) : State :=
  let r := flitEffect s a
  { r with mem := keepRecords s a.pa (flitBytes a) r.mem }

/-- The place of a cluster of a peer in `peerSeq`. -/
def peerKeyOf (a : FlitAccess) : Nat := a.dev % 256 * 64 + a.cl.val

/-- The number of the next access of a cluster of a peer (R371). -/
def peerNext (s : State) (a : FlitAccess) : Nat := mapGet 0 s.peerSeq (peerKeyOf a)

/-- An apub of a peer waits, as a thread's does (R262). -/
def flitHeld (s : State) (a : FlitAccess) : Bool :=
  match a.kind with
  | .publish n p => !tgtPoison s (.dev a.pa false) 64 && regionFull s (.dev a.pa false) n p
  | _ => false

/-- An access of a peer is performed: it has at most the 256 bytes of a flit, and one beyond the memory is discarded (R371;
log 79). -/
def peerPerform (s : State) (a : FlitAccess) : State :=
  let s1 := { s with peerSeq := mapPut s.peerSeq (peerKeyOf a) (a.acc + 1) }
  if flitBytes a ≤ 256 ∧ a.pa + flitBytes a ≤ 2 ^ 48 then flitPerform s1 a else s1

/-- The accesses of peers whose turn among those of their cluster has come are performed, at most n of them. -/
def peerDrain : Nat → State → State
  | 0, s => s
  | n + 1, s =>
    match s.peerWait.find? fun a => decide (a.acc = peerNext s a) && !flitHeld s a with
    | none => s
    | some a => peerDrain n (peerPerform { s with peerWait := s.peerWait.filter fun b => decide (b ≠ a) } a)

/-- Those that wait are performed as far as their order lets them. -/
def peerTurn (s : State) : State := peerDrain s.peerWait.length s

/-- The home agent takes the access of a flit: it is performed when its turn among those of its cluster has come, after those that
were sent before it, whichever link they come by; one that it has already performed, or holds already, is discarded (R371,
R372). -/
def homeAccess (s : State) (a : FlitAccess) : State :=
  let same (b : FlitAccess) : Bool := decide (peerKeyOf b = peerKeyOf a) && decide (b.acc = a.acc)
  if a.acc < peerNext s a || s.peerWait.any same then s else peerTurn { s with peerWait := s.peerWait ++ [a] }

/-- FLIT_RECEIVE: a flit with a good CRC and the sequence number awaited is acknowledged, and its access goes to the home
agent; any other is discarded, to be replayed (R371). -/
def flitStep (s : State) (p seq : Nat) (crcOk : Bool) (a : FlitAccess) : State :=
  let l := getLink s (p % 16)
  if decide (l.st = .up) && crcOk && decide (seq = l.rxSeq) then
    homeAccess (putLink s (p % 16) { l with rxSeq := l.rxSeq + 1 }) a
  else s

/-- FLIT_REPLAY: n flits of the replay buffer, at most 512, are sent again; REPLAY counts them, and a replay that fails
counts towards the link's going down (R371, R373). -/
def replayStep (s : State) (p n : Nat) (failed : Bool) : State :=
  let l := getLink s (p % 16)
  if l.st = .up then
    putLink s (p % 16) { l with replay := min (l.replay + min n 512) (2 ^ 32 - 1), fails := if failed then l.fails + 1 else 0 }
  else s

/-- The pod positions that do not answer from now on, as found when a link goes down or is trained (R352; log 121). -/
def foundSilent (s : State) (l : List Byte) : State := { s with silent := l.map fun b => b.toNat }

/-- LINK_DOWN: after 16 failed replays in a row, or a loss of lock (R373). -/
def downStep (s : State) (p : Nat) (lostLock : Bool) (silent : List Byte) : State :=
  let l := getLink s (p % 16)
  if l.st = .up ∧ (16 ≤ l.fails ∨ lostLock = true) then
    putLink (foundSilent s silent) (p % 16) { l with st := .down, fails := 0, downs := l.downs + 1 }
  else s

/-- LINK_RETRAIN: a down link trains; training that succeeds brings it up, with the port the switch reports (R373), its flits
numbered from 0 (log 79). No link comes up before Usilaem runs (R376). -/
def trainStep (s : State) (p : Nat) (ok : Bool) (port : Nat) (silent : List Byte) : State :=
  let l := getLink s (p % 16)
  if s.root.boot ≠ .running then s
  else
  match l.st with
  | .down => putLink s (p % 16) { l with st := .training }
  | .training => putLink (foundSilent s silent) (p % 16) (if ok then { l with st := .up, port := BitVec.ofNat 8 port, rxSeq := 0 } else { l with st := .down })
  | _ => s

/-- LINK_RETIRE: after 8 downs (R373). -/
def retireStep (s : State) (p : Nat) : State :=
  let l := getLink s (p % 16)
  if 8 ≤ l.downs then putLink s (p % 16) { l with st := .retired } else s

/-- HOST_LINK_ERROR: reported by AER, and no context is contained (R375). -/
def aerStep (s : State) (e : Nat) : State := { s with aer := s.aer ++ [e] }

/-- Write bytes at a position of a list, filling up with zeros. -/
def overlay (l : List Byte) (at_ : Nat) (b : List Byte) : List Byte :=
  (l ++ List.replicate (at_ - l.length) 0).take at_ ++ b ++ l.drop (at_ + b.length)

/-- Bytes written to device memory from outside: no such write clears poison (R382), and a queue block keeps what the front
end maintains (R331), as violation logs and error records keep their reserved bits (R5, R361, R370; log 73). -/
def dmaWrite (s : State) (pa : Nat) (bytes : List Byte) : State :=
  { s with mem := keepRecords s pa bytes.length (keepBlocks s pa bytes.length (memWriteBytes s.mem pa bytes))
           overlaid := noteOver s pa bytes.length }

/-- Put the blocks of a kernel image at its header's place. -/
def putImage (s : State) (ctx : Fin 4096) (hdr : Word) (bl : List (Fin 32 × List Word)) : State :=
  { s with blocks := (ctx, hdr, bl) :: s.blocks.filter fun b => !(decide (b.1 = ctx) && decide (b.2.1 = hdr)) }

/-- Write PREQ of a thread whose core, or which as an MCC, has something to save (R349, R362). A write of 1 where no launch is held
is dropped: there is no save that could complete and clear the bit (R5; DESIGN CHOICE, log 95). -/
def askPreempt (s : State) (t : Tid) (w : Word) : State :=
  let busy := if isMcc t then (getThread s t).launch.isSome else (getCore s (clusterOf t) (coreOf t)).launch.isSome
  if busy then updThread s t fun th => writePreq th w else s

/-- What a register of the control space reads as (R346, R349, R373, R386). -/
def controlValue (s : State) (r : ControlReg) : Word :=
  match r with
  | .thread t n => if n < 0x800 then csrValue s t n else privilegedValue s t n
  | .link p => BitVec.ofNat 64 (linkStat (getLink s (p % 16)))
  | .health off => BitVec.ofNat 64 (bytesNat ((s.health.block.drop (off / 8 % 512 * 8)).take 8))

/-- A write to a register of the control space: LINKSTAT and the health block take none, nor does COORD (R17, R346, R349,
R373, R386). -/
def controlWrite (s : State) (r : ControlReg) (w : Word) : State :=
  match r with
  | .thread t n =>
    if n = 0x802 then askPreempt s t w
    else if n = 0x804 then writeTswp s t w
    else if n = 0x012 then s
    else writeRegister s t n w
  | _ => s

/-- HOST_BAR_ACCESS: a read or a write through a BAR window, performed in the order issued (R346); in recovery there is the
recovery BAR only, by which a write goes to the boot flash (R376). A read changes nothing. -/
def hostStep (s : State) (a : HostAccess) : Out :=
  match a with
  | .read pa n => if 2 ^ 48 < pa + n then .fault (.noSuchAddress pa) else .next s
  | .write pa b =>
    (match s.root.boot with
      | .reset => .next s
      | .recovery => .next { s with root := { s.root with flash := overlay s.root.flash pa b } }
      | .running => if 2 ^ 48 < pa + b.length then .fault (.noSuchAddress pa) else .next (dmaWrite s pa b))
  | .image ctx hdr bl => .next (if s.root.boot = .running then putImage s ctx hdr bl else s)
  | .controlRead _ => .next s
  | .controlWrite r w => .next (if s.root.boot = .running then controlWrite s r w else s)

/-- ETHERNET_FRAME_RECEIVE: a port's DMA writes a frame of up to 9,216 bytes into device memory (R375), to no address on a retired
channel (R385). -/
def frameStep (s : State) (pa : Nat) (b : List Byte) : Out :=
  if s.root.boot ≠ .running ∨ 9216 < b.length then .next s
  else if 2 ^ 48 < pa + b.length then .fault (.noSuchAddress pa)
  else .next (if onRetired s pa b.length then s else dmaWrite s pa b)

/-- "KL64FWIM" (R377). -/
def imageMagic : List Byte := [0x4B, 0x4C, 0x36, 0x34, 0x46, 0x57, 0x49, 0x4D]
/-- "KL64ATST" (R379). -/
def reportMagic : List Byte := [0x4B, 0x4C, 0x36, 0x34, 0x41, 0x54, 0x53, 0x54]

/-- Part of a list of bytes. -/
def slice (l : List Byte) (at_ n : Nat) : List Byte := (l.drop at_).take n

/-- The body length of a firmware image (R377). -/
def bodyLength (f : List Byte) : Nat := bytesNat (slice f 0x010 8)
/-- The SVN of a firmware image (R377). -/
def imageSvn (f : List Byte) : Nat := bytesNat (slice f 0x008 8)
/-- The entry of a firmware image, as an offset into its body (R377). -/
def imageEntry (f : List Byte) : Nat := bytesNat (slice f 0x018 8)
/-- The public key of a firmware image (R377). -/
def imageKey (f : List Byte) : List Byte := slice f 0x040 1952
/-- The signature of a firmware image (R377). -/
def imageSignature (f : List Byte) : List Byte := slice f 0x7E0 3309

/-- The image's header and body can be read (R376 step 1, R377): the fields that must be zero are (log 80). -/
def imageReadable (f : List Byte) : Bool :=
  decide (slice f 0 8 = imageMagic) && decide (bodyLength f % 4096 = 0) && decide (0x2000 + bodyLength f ≤ f.length) &&
    decide (bytesNat (slice f 0x020 32) = 0) && decide (bytesNat (slice f 0x14CD 2867) = 0)

/-- D (R376 step 2). -/
def imageDigest (f : List Byte) : BitVec 512 := Config.shake256 (slice f 0 0x40 ++ slice f 0x2000 (bodyLength f))

/-- The 64 bytes of a digest. -/
def digestBytes (d : BitVec 512) : List Byte := natBytes 64 d.toNat

/-- Steps 1 to 5 of the boot ROM succeed (R376). -/
def bootOk (r : Root) : Bool :=
  imageReadable r.flash && decide (Config.shake256 (imageKey r.flash) = r.keyHash) &&
    Config.mldsaVerify (imageKey r.flash) (digestBytes (imageDigest r.flash)) [] (imageSignature r.flash) &&
    decide (r.rollback ≤ imageSvn r.flash)

/-- Cores with their retired leaves, at reset (R384). -/
def bootCores (r : Root) : SMap Core :=
  r.retiredLeaves.foldl (fun m p => let c := mapGet Core.reset m p.1; mapPut m p.1 { c with retired := p.2 :: c.retired }) []

/-- What survives a device reset: the flash, the fuses, the identity and the permanent records (R21, R376, R379, R384, R385);
and the count of the signatures made, since no two are made alike (R379). -/
def resetRoot (r : Root) (b : Boot) : Root := { r with boot := b, measurement := 0, svn := 0, entry := 0 }

/-- ROLLBACK_RAISE: to the SVN of the running image; a fused count never falls (R376). -/
def rollbackStep (s : State) : State :=
  if s.root.boot = .running then { s with root := { s.root with rollback := max s.root.rollback s.root.svn } } else s

/-- The pattern measurement of a context (R378). -/
def patternDigest (x : Context) : BitVec 512 :=
  Config.shake256 (x.measured.flatMap fun p =>
    BitVec.ofNat 8 p.1 :: BitVec.ofNat 8 p.2.length :: p.2.flatMap fun w => natBytes 8 w.toNat)

/-- The retired channel mask (R386). -/
def channelMask (r : Root) : Nat := r.retiredChannels.foldl (fun m c => m ||| 2 ^ (c % 256)) 0

/-- Bytes 0x000 to 0x0FF of a report (R379). -/
def reportBody (s : State) (nonce : List Byte) (ctx : Option (Fin 4096)) : List Byte :=
  let id := match ctx with
    | some c => c.val
    | none => 2 ^ 64 - 1
  let pat := match ctx with
    | some c => (if (getCtx s c).valid then patternDigest (getCtx s c) else Config.shake256 [])
    | none => 0
  let bad := match ctx with
    | some c => !(getCtx s c).valid
    | none => false
  reportMagic ++ natBytes 8 id ++ natBytes 32 (bytesNat nonce) ++ digestBytes s.root.measurement ++ digestBytes pat ++
    natBytes 8 s.root.svn ++ natBytes 8 s.root.rollback ++ natBytes 32 (channelMask s.root) ++
    natBytes 8 (if bad then 1 else 0) ++ List.replicate 24 0

/-- ATTESTATION_REQUEST: the security root writes a signed report of 4,096 bytes into memory that no context maps (R379), on no
retired channel (R385). -/
def attestStep (s : State) (nonce : List Byte) (ctx : Option (Fin 4096)) (pa : Nat) : State :=
  if s.root.boot = .running ∧ pa + 4096 ≤ 2 ^ 48 ∧ onRetired s pa 4096 = false ∧ (s.ctxs.all fun p => !p.2.valid || !mapsBytes s p.2 pa 4096) = true then
    let body := reportBody s nonce ctx
    let sig := natBytes 3309 (Config.mldsaSign s.root.draws body reportMagic).toNat
    let s1 := dmaWrite s pa (body ++ sig ++ List.replicate 531 0)
    { s1 with root := { s1.root with draws := s1.root.draws + 1 } }
  else s

/-- Put a number into a list of distinct numbers. -/
def addNew (l : List Nat) (x : Nat) : List Nat := if l.contains x then l else l ++ [x]

/-- An error event of a structure other than device memory and its caches is counted (R381; log 77). -/
def countOther (s : State) (bad : Bool) : State :=
  { s with health :=
      if bad then { s.health with otherUncorrected := s.health.otherUncorrected + 1 }
      else { s.health with otherCorrected := s.health.otherCorrected + 1 } }

/-- CORRECTED_ERROR: nothing visible changes, and it is counted, that of a cache line with device memory's (log 77); a device
memory line is remembered for the channel criteria (R381, R385, R386). -/
def correctedStep (s : State) (c : CorrectedSite) : State :=
  match c with
  | .line a => { s with health := { s.health with corrected := s.health.corrected + 1, struck := addNew s.health.struck (a / 64) } }
  | .cache _ => { s with health := { s.health with corrected := s.health.corrected + 1 } }
  | .scratchpad _ _ _ => countOther s false
  | .other => countOther s false

/-- A store under way that has written into a line will not clear the poison that strikes the line now (R382). -/
def strikeEntry (line : Nat) (e : VEntry) : VEntry :=
  if e.wrote.contains line then { e with struck := addNew e.struck line } else e

/-- The same for the entries of a thread. -/
def strikeThread (line : Nat) (th : Thread) : Thread :=
  { th with vq := th.vq.map (strikeEntry line)
            frozen := th.frozen.map fun f => { f with vq := f.vq.map (strikeEntry line) } }

/-- The same for every store under way, in the images too. -/
def strikeStores (s : State) (line : Nat) : State :=
  { s with threads := s.threads.map fun p => (p.1, strikeThread line p.2)
           images := s.images.map fun p => (p.1, { p.2 with threads := p.2.threads.map (strikeThread line) }) }

/-- A line just found poisoned, with its age in scrub passes: found again, it is new again. -/
def noteLine (l : List (Nat × Nat)) (line : Nat) : List (Nat × Nat) := l.filter (fun p => decide (p.1 ≠ line)) ++ [(line, 0)]

/-- LINE_POISON: an uncorrectable line is poisoned and counted (R381, R382). -/
def poisonLine (s : State) (line : Nat) : State :=
  let s1 := strikeStores s line
  { s1 with poisonLines := addNew s.poisonLines line, overlaid := s.overlaid.filter fun b => decide (b / 64 ≠ line)
            health := { s.health with uncorrected := s.health.uncorrected + 1
                                      poisonedLines := noteLine s.health.poisonedLines line } }

/-- PATROL_SCRUB of a line: rewritten as it is, or poisoned when it is uncorrectable (R381). -/
def scrubStep (s : State) (line : Nat) (bad : Bool) : State := if bad then poisonLine s line else s

/-- SCRATCHPAD_POISON: an uncorrectable word is poisoned and counted (R381, R383). -/
def poisonWord (s : State) (cl : Fin 64) (co : Fin 8) (word : Nat) : State :=
  { countOther s true with poisonSpad := addNew s.poisonSpad (spadKey cl (co.val * Config.spadBytes + word % (Config.spadBytes / 8) * 8) / 8) }

/-- A leaf is held or waits to be reclaimed. -/
def leafListed (c : Core) (x : Nat) : Bool := (mapFind c.leaves x).isSome

/-- LEAF_ERROR: the leaf counts 1 or, when uncorrectable, 3 and is poisoned; at 3 it is retired (R384). The event is counted
(R381). Usilaem, when it runs, writes the retirement record (R376, R387; log 94). -/
def leafErrorStep (s0 : State) (cl : Fin 64) (co : Fin 8) (leaf : Nat) (bad header : Bool) : State :=
  let s := countOther s0 bad
  let x := leaf % Config.poolLeaves
  let c := getCore s cl co
  let n := mapGet 0 c.leafErrs x + if bad then 3 else 1
  let c1 := { c with leafErrs := mapPut c.leafErrs x n }
  let l := leafAt c x
  let c2 :=
    if bad && leafListed c x then
      putLeaf c1 x { l with poison := true, hdrPoison := l.hdrPoison || header }
    else c1
  if 3 ≤ n ∧ c.retired.contains x = false then
    let s1 := putCore s cl co { c2 with retired := x :: c2.retired, freed := c2.freed.filter fun y => decide (y ≠ x) }
    if s1.root.boot = .running then
      { s1 with root := { s1.root with retiredLeaves := s1.root.retiredLeaves ++ [(coreKey cl co, x)] } }
    else s1
  else putCore s cl co c2

/-- LEAF_ERROR_COUNT_CLEAR (R384). -/
def leafClearStep (s : State) (cl : Fin 64) (co : Fin 8) (leaf : Nat) : State :=
  updCore s cl co fun c => { c with leafErrs := mapDel c.leafErrs (leaf % Config.poolLeaves) }

/-- FREE_LIST_REBUILD: when the core holds no launch, Usilaem makes every leaf in service free again (R376, R384). -/
def rebuildStep (s : State) (cl : Fin 64) (co : Fin 8) : State :=
  let c := getCore s cl co
  if decide (s.root.boot = .running) && c.launch.isNone && coreIdle s cl co then putCore s cl co { c with leaves := [], reclaim := [], fresh := 0, freed := [] } else s

/-- The lines of a channel among some lines. -/
def onChannel (n : Nat) (l : List Nat) : List Nat := l.filter fun x => decide ((Config.homeChannel (x * 64)).val = n)

/-- A channel meets a criterion of R385: two lines poisoned within 2^48 cycles, or more than 1,024 distinct lines struck. -/
def channelWorn (s : State) (n : Nat) : Bool :=
  decide (2 ≤ (onChannel n (s.health.poisonedLines.map fun p => p.1)).length) || decide (1024 < (onChannel n s.health.struck).length)

/-- The scrub passes, of 2^44 cycles each, for which a poisoned line counts: 2^48 cycles (R385). -/
def poisonWindow : Nat := 16

/-- The poisoned lines one pass later, without those that no longer count. -/
def ageLines (l : List (Nat × Nat)) : List (Nat × Nat) :=
  (l.map fun p => (p.1, p.2 + 1)).filter fun p => decide (p.2 < poisonWindow)

/-- SCRUB_PASS_CHECK: the worn channels are to be retired, and the counts of the pass begin again (R385, R387). Usilaem makes it
(R376). -/
def passCheckStep (s : State) : State :=
  if s.root.boot ≠ .running then s
  else
    let worn := (upFrom 0 256).filter fun n => channelWorn s n && !s.root.retiredChannels.contains n
    { s with health :=
        { s.health with struck := [], retiring := worn.foldl addNew s.health.retiring
                        poisonedLines := ageLines s.health.poisonedLines } }

/-- Copy a page, its poison carried over as poisoned lines: the new frame has that poison and no other (R385). -/
def copyPage (s : State) (old new size : Nat) : State :=
  let moved := (s.poisonLines.filter fun l => decide (old / 64 ≤ l) && decide (l < (old + size) / 64)).map fun l =>
    l - old / 64 + new / 64
  let s1 := { s with mem := memWriteBytes (memClear s.mem new (new + size)) new (memBytes s.mem old size) }
  { s1 with poisonLines :=
      moved.foldl addNew (s1.poisonLines.filter fun l => decide (l < new / 64) || decide ((new + size) / 64 ≤ l)) }

/-- Move one page of an entry to the frame that Usilaem has chosen for it, and rewrite the entry (R385). -/
def moveEntry (moves : List (Nat × Nat)) (s : State) (e : Nat × Nat × Nat) : State :=
  match moves.find? fun p => decide (p.1 = pteAddr e.2.1) && !ofPeer s e.2.1 with
  | none => s
  | some p =>
    let s1 := copyPage s p.1 p.2 (2 ^ levelShift e.2.2)
    { s1 with mem := memWrite s1.mem e.1 8 (e.2.1 - pteAddr e.2.1 + p.2) }

/-- Move the pages of one context. -/
def moveContext (moves : List (Nat × Nat)) (s : State) (p : Nat × Context) : State :=
  if p.2.valid then
    flushTlbs ((contextEntries s p.2).foldl (moveEntry moves) s) (Fin.ofNat 4096 p.1)
  else s

/-- The pages that move: their old and new places and their sizes, by the entries of the valid contexts. A frame that none maps,
such as one which holds queue blocks only, is one of 4 KiB. -/
def movedPages (s : State) (moves : List (Nat × Nat)) : List (Nat × Nat × Nat) :=
  let es := (s.ctxs.filter fun p => p.2.valid).flatMap fun p => contextEntries s p.2
  moves.map fun m =>
    match es.find? fun e => decide (pteAddr e.2.1 = m.1) && !ofPeer s e.2.1 with
    | some e => (m.1, m.2, 2 ^ levelShift e.2.2)
    | none => (m.1, m.2, 4096)

/-- Where a byte of device memory is once pages have moved. -/
def movedTo (pages : List (Nat × Nat × Nat)) (a : Nat) : Nat :=
  match pages.find? fun m => decide (m.1 ≤ a) && decide (a < m.1 + m.2.2) with
  | some m => m.2.1 + (a - m.1)
  | none => a

/-- Frames that no context maps are copied to their new places. -/
def moveUnmapped (moves : List (Nat × Nat)) (s : State) : State :=
  let es := (s.ctxs.filter fun p => p.2.valid).flatMap fun p => contextEntries s p.2
  moves.foldl (fun s m =>
    if es.any fun e => decide (pteAddr e.2.1 = m.1) && !ofPeer s e.2.1 then s else copyPage s m.1 m.2 4096) s

/-- A queue block in a moved page is followed to its new frame (R331), and so is what the home agents record of a serial region
whose descriptor moves (R262). -/
def moveBlocks (pages : List (Nat × Nat × Nat)) (s : State) : State :=
  { s with queues := s.queues.map fun p => (p.1, { p.2 with block := movedTo pages p.2.block })
           regions := s.regions.map fun r => { r with pa := movedTo pages r.pa } }

/-- What is noted of the stores under way into lines follows those to their new frames (R382). -/
def moveEntryMarks (pages : List (Nat × Nat × Nat)) (e : VEntry) : VEntry :=
  let to_ (l : Nat) : Nat := movedTo pages (l * 64) / 64
  { e with wrote := e.wrote.map to_, struck := e.struck.map to_ }

/-- The same for the entries of a thread. -/
def moveThreadMarks (pages : List (Nat × Nat × Nat)) (th : Thread) : Thread :=
  { th with vq := th.vq.map (moveEntryMarks pages)
            frozen := th.frozen.map fun f => { f with vq := f.vq.map (moveEntryMarks pages) } }

/-- What is noted of poisoned lines and of stores into them follows them, in the images too (R382, R385; log 108): a new frame has
no notes of its own. -/
def moveMarks (pages : List (Nat × Nat × Nat)) (s : State) : State :=
  let stale (a : Nat) : Bool := pages.any fun m => decide (m.2.1 ≤ a) && decide (a < m.2.1 + m.2.2)
  { s with threads := s.threads.map fun p => (p.1, moveThreadMarks pages p.2)
           images := s.images.map fun p => (p.1, { p.2 with threads := p.2.threads.map (moveThreadMarks pages) })
           overlaid := (s.overlaid.filter fun a => !stale a).map (movedTo pages) }

/-- CHANNEL_RETIRE: once nothing runs of the contexts that map a frame on the channel, their pages move to the frames that
Usilaem names, the tables are rewritten and the channel is recorded; nothing is done when a frame would stay, or would move
to a channel retired before (R385), nor before Usilaem runs (R376). -/
def channelStep (s : State) (n : Nat) (moves : List (Nat × Nat)) : State :=
  let ch := n % 256
  let affected := s.ctxs.filter fun p => p.2.valid && mapsChannel s ch p.2
  if s.root.boot ≠ .running || s.root.retiredChannels.contains ch || !(s.health.retiring.contains ch || channelWorn s ch) ||
      !affected.all (fun p => unserved s (Fin.ofNat 4096 p.1)) then s
  else
    let pages := movedPages s moves
    let s1 := moveMarks pages (moveBlocks pages (s.ctxs.foldl (moveContext moves) (moveUnmapped moves s)))
    if (s1.ctxs.any fun p => p.2.valid && (mapsChannel s1 ch p.2 || !mapsService s1 p.2)) ||
        s1.queues.any (fun p => pageOn ch p.2.block 64 || onRetired s1 p.2.block 64) then s
    else
      { s1 with root := { s1.root with retiredChannels := s1.root.retiredChannels ++ [ch] }
                health := { s1.health with retiring := s1.health.retiring.filter fun x => decide (x ≠ ch) } }

/-- The leaves retired on a core. -/
def leavesRetired (r : Root) (k : Nat) : Nat := (r.retiredLeaves.filter fun p => decide (p.1 = k)).length

/-- The health block (R386). -/
def healthBytes (s : State) : List Byte :=
  natBytes 32 (channelMask s.root) ++ natBytes 8 (4 * (256 - s.root.retiredChannels.length)) ++
    natBytes 8 s.root.retiredLeaves.length ++ natBytes 8 s.health.uncorrected ++ natBytes 8 s.health.corrected ++
    ((upFrom 0 512).flatMap fun k => natBytes 2 (leavesRetired s.root k)) ++
    ((upFrom 0 16).flatMap fun p => natBytes 8 (linkStat (getLink s p))) ++
    natBytes 8 s.root.svn ++ natBytes 8 s.root.rollback ++ List.replicate 2864 0

/-- Copy WRITE's low half into VREC of a context's error record (R370, R387). -/
def copyVrec (s : State) (p : Nat × Context) : State :=
  if p.2.valid then { s with mem := memWrite s.mem (p.2.errec + 60) 4 (memRead s.mem p.2.vlog 8 % 2 ^ 32) } else s

/-- The health block as it stands now is the page that the host reads (R386). -/
def showHealth (s : State) : State := { s with health := { s.health with block := healthBytes s } }

/-- HEALTH_BLOCK_UPDATE, by Usilaem (R376, R386, R387). -/
def healthStep (s : State) : State := if s.root.boot = .running then showHealth (s.ctxs.foldl copyVrec s) else s

/-- DEVICE_RESET: the boot ROM's steps, and what Usilaem does after step 7 (R376): the retirement records are applied,
device memory is zero without poison, and the links train. A failure leads to recovery. The memories of other devices are
not this device's to reset. -/
def resetStep (s : State) : State :=
  let base : State :=
    { State.reset with
      cur := s.cur, agenda := s.agenda, ev := s.ev, freeCtr := s.freeCtr, devPos := s.devPos, peer := s.peer }
  showHealth
    (if bootOk s.root then
      { base with
        root :=
          { resetRoot s.root .running with
            measurement := imageDigest s.root.flash, svn := imageSvn s.root.flash, entry := imageEntry s.root.flash }
        cores := bootCores s.root
        links := (upFrom 0 16).map fun p => (p, { Link.reset with st := .training }) }
    else { base with root := resetRoot s.root .recovery })

/-- Contain the context of a thread that runs for one. -/
def containOwner (s : State) (t : Tid) : State :=
  if (getThread s t).launch.isSome then contain s (getThread s t).ctx (reportOf s none) else s

/-- An uncorrectable event is counted, that of a cache line with device memory's (R381; log 77). -/
def countStructure (s : State) (x : StructureSite) : State :=
  match x with
  | .cacheClean _ => { s with health := { s.health with uncorrected := s.health.uncorrected + 1 } }
  | .cacheDirty _ => s
  | _ => countOther s true

/-- UNCORRECTABLE_STRUCTURE_ERROR, by where it struck (R380): containment of the owning context, a poisoned accumulator
element, a poisoned write-back (counted as a poisoned line), nothing visible for a clean cache line, or bad parity in a pattern
store. The error record of such a containment is that of a host request (DESIGN CHOICE, log 133). -/
def structureStep (s0 : State) (x : StructureSite) : State :=
  let s := countStructure s0 x
  match x with
  | .vectorQueue t => containOwner s t
  | .coreTlb _ _ ctx => if (getCtx s ctx).valid then contain s ctx (reportOf s none) else s
  | .clusterTlb _ ctx => if (getCtx s ctx).valid then contain s ctx (reportOf s none) else s
  | .imageInFlight k =>
    (match mapFind s.images k with
      | some i => contain s i.ctx (reportOf s none)
      | none => s)
  | .accumulator cl u ac r c =>
    updCluster s cl fun k => { k with accBad := addNew k.accBad (accBase u.val ac.val + r.val * 32 + c.val) }
  | .cacheClean _ => s
  | .cacheDirty line => poisonLine s line
  | .pattern cl co n =>
    updCore s cl co fun k =>
      match mapFind k.store n with
      | some p => { k with store := mapPut k.store n { p with bad := true } }
      | none => k

/-- POWER_BUDGET_SET: units held are not taken back (R281). -/
def budgetStep (s : State) (cl : Fin 64) (n : Nat) : State := updCluster s cl fun c => { c with budget := min n 16 }

/-- POWCAP_SET: 1 to 4,096 courses (R282). -/
def powcapStep (s : State) (cl : Fin 64) (n : Nat) : State := updCluster s cl fun c => { c with powcap := max 1 (min n 4096) }

end Sys2Proof.Machine
end

