-- ==== Sys2Proof/Machine/Events.lean ====
section
/-!
DEFINITION. The device events of the opcode table, one meaning each. What an event acts on stands in the field `ev` of
the state (log 1); an event that is not enabled leaves the state as it is.
-/

namespace Sys2Proof.Machine

/-- The context an event names. -/
def evCtx (s : State) : Fin 4096 := Fin.ofNat 4096 s.ev.n

/-- A place in the read queue is empty until the vector queue goes on: it waits for an entry, or, as a csrr of FFLAGS, for a scalar
access that an entry holds back (R58, R87, R158). -/
def placeStuck (s : State) (t : Tid) (x : RqItem) : Bool :=
  waitsForEntry (getThread s t) x ||
    (x.val.isNone && decide (x.csr = some 0x008) && (heldBack s t).any fun a => decide (a.stamp ≤ x.stamp))

/-- A register of instruction B awaits a value that comes only when the vector queue goes on: that of such a place in the read
queue or of one behind it, or of an access that an entry holds back. -/
def regStuck (s : State) (t : Tid) (r : Reg) : Bool :=
  let th := getThread s t
  let late (l : List Access) : Bool := (l.filter fun a => decide (accessReg a = some r)).any (heldBack s t).contains
  decide (r ≠ 0) && (late th.out || (th.rq.dropWhile fun x => !placeStuck s t x).any fun x => decide (x.reg = r))

/-- A register that instruction B only writes awaits a value of an entry that was frozen, which comes when the vector queue goes on
(R273). -/
def destStuck (s : State) (t : Tid) (r : Reg) : Bool := oncePending (getThread s t) r && regStuck s t r

/-- A load of 8 bytes at B that meets poison waits for an access which the vector queue holds back (R382; log 38). -/
def poisonStuck (s : State) (t : Tid) (va : Word) : Bool :=
  match readTarget s t va 8 8 .load with
  | .ok none =>
    (match alignedTarget s (partyOf s t) va 8 8 .load with
      | .ok tg =>
        let a := accessOf (getThread s t) (.ld false) 0 8 tg 0 0 0
        heldByVector s t a || (heldBack s t).any (heldByAccess a)
      | .error _ => false)
  | _ => false

/-- What counts in ld, or in st, and goes only when the vector queue goes on: the entries, and the accesses that they hold back. -/
def ldStuck (s : State) (t : Tid) : Nat :=
  (getThread s t).vq.countP owesLd + (heldBack s t).countP accCountsLd
def stStuck (s : State) (t : Tid) : Nat :=
  (getThread s t).vq.countP owesSt + (heldBack s t).countP fun a => !accCountsLd a

/-- A slot of the thread that is in use until an entry of its vector queue empties it: one that a queued tget or tfree names, unless
a tile queue entry releases it first (R220, R226, R235). -/
def slotStuck (s : State) (t : Tid) : Bool :=
  let th := getThread s t
  let c := ownCore s t
  let released (k : Fin 16) : Bool := decide (c.slots[k.val].st = .bound) &&
    (launchTq s (clusterOf t) c.launch).any fun e => match e.op with
      | .mma _ _ rel _ _ => rel && entryNames (coreOf t) k e.op
      | .mmasp _ _ rel _ _ _ => rel && entryNames (coreOf t) k e.op
      | _ => false
  let mine (k : Fin 16) : Bool :=
    decide (c.slots[k.val].st ≠ .empty) && decide (c.slots[k.val].owner = threadOf t) && !released k
  th.vq.any fun e => !e.finished && match e.op with
    | .tget _ k => mine k
    | .tfree k => mine k
    | _ => false

/-- Compressed instruction B would wait for the vector queue: an operand, a destination, a place or a counter. Scalar accesses
that no entry holds back come to their end without it (R210). -/
def halfBStuck (s : State) (t : Tid) (i : Instr) : Bool :=
  let th := getThread s t
  let regs (l : List Reg) : Bool := l.any (regStuck s t)
  match i with
  | .hadd d a => regs [d, a]
  | .hsub d a => regs [d, a]
  | .hand d a => regs [d, a]
  | .hor d a => regs [d, a]
  | .hmov d a => regs [a] || destStuck s t d
  | .hinc d _ => regs [d]
  | .hshl d _ => regs [d]
  | .hbz a _ => regs [a]
  | .hbnz a _ => regs [a]
  | .hldd d b off =>
    regs [reg3 b] || destStuck s t (reg3 d) || decide (Config.counterMax ≤ ldStuck s t) ||
      poisonStuck s t (readG th (reg3 b) + BitVec.ofNat 64 (8 * off.val))
  | .hstd d b _ => regs [reg3 d, reg3 b] || decide (Config.counterMax ≤ stStuck s t)
  | .hvadd _ _ => ffPending th || !hasRoom s t (.setM46 0)
  | .hwait =>
    th.vq.any (fun e => !e.finished && (isMemory e.op || isCopy e.op || takesSlot e.op)) || !(heldBack s t).isEmpty || slotStuck s t
  | .hexit => true
  | _ => false

/-- The instruction at half B of the pair at which a thread stands. -/
def instrAtB (s : State) (t : Tid) : Option Instr :=
  let th := getThread s t
  match accessTarget s (partyOf s t) (parcelAddr th.pc) 4 4 .fetch with
  | .error _ => none
  | .ok tg =>
    match decodeAt (tgtRead s tg 4) 0 true with
    | .ok (i, _) => some i
    | .error _ => none

/-- A fault that a user handler takes waits while the thread stands between A and B of a pair, so that the handler's return does
not fall there (R90), until B has executed or has faulted; but it does not wait where B would wait for the vector queue itself
(R271; log 52). -/
def heldAtB (s : State) (t : Tid) : Bool :=
  let th := getThread s t
  decide (th.pc.toNat % 4 = 2) && decide (th.pend = none) && decide (th.wait = .none) &&
    (match th.vq with
      | e :: _ => (match e.fault with
        | some f => routed t th f.cause
        | none => false)
      | [] => false) &&
    (match instrAtB s t with
      | some i => !halfBStuck s t i
      | none => false)

/-- VECTOR_FAULT_REPORT, at the instruction boundary at which the scalar stream may stop (R90, R271). -/
def faultStep (s : State) (t : Tid) : State := if heldAtB s t then s else vectorFaultStep s t

/-- A scalar fault or a decode fault that waited for the vector instructions before it is reported (R113, R128). -/
def pendingFault (s : State) (t : Tid) (decode : Bool) : State :=
  let th := getThread s t
  match th.pend with
  | none => s
  | some f =>
    if vectorActive th && th.vq.isEmpty && decide (th.pendDecode = decode) then
      takeFault s t f none th.pc (xretOf th f.cause)
    else s

/-- An xret whose drains are done resumes what its handler interrupted (R153). -/
def xretStep (s : State) (t : Tid) : State :=
  let th := getThread s t
  match th.frozen with
  | none => s
  | some f => if decide (th.wait = .xret) && vectorActive th && handlerDone th then leaveHandler s t f else s

/-- A wait ends: the thread issues again. -/
def endWait (s : State) (t : Tid) (w : Wait) (now : Bool) : State :=
  if (getThread s t).wait = w ∧ now = true then updThread s t fun th => { th with wait := .none } else s

/-- A stalled entry tries again (R274). -/
def retryStep (s : State) (t : Tid) : State :=
  match (getThread s t).vq with
  | [] => s
  | e :: _ => if e.stalled then courseStep s t 0 else s

/-- A vsetlw whose watermark covers its strip takes its grant (R163). -/
def watermarkStep (s : State) (t : Tid) : State :=
  let th := getThread s t
  match th.wait with
  | .watermark wm need g =>
    if vectorActive th && decide (need ≤ watermarkVal s wm) && hasRoom s t (.setM46 0) then
      putThread s t (advance (applyGrant (dropLate { th with wait := .none, early := [] } g.d) g) 4)
    else s
  | _ => s

/-- A barrier at which as many have arrived as it counts completes its phase (R259). -/
def barrierStep (s : State) (t : Tid) (n : Fin 16) : State :=
  let th := getThread s t
  let cl := clusterOf t
  let count := barrierCount (launchOf s th) n.val
  let arrived := mapGet [] (getCluster s cl).bars (barKey th n.val)
  if count ≠ 0 ∧ count ≤ arrived.length then phaseDone s cl th n arrived else s

/-- A thread that was granted leave goes on: past its leave instruction, or at the instruction it was restored to
(R154, R362). -/
def leaveGranted (s : State) (p : LeaveParty) : State :=
  match p with
  | .thread t =>
    updThread s t fun th =>
      match th.wait with
      | .leave k => advance { th with wait := .none, leaveKinds := k } 4
      | .releave k => { th with wait := .none, leaveKinds := k }
      | _ => th
  | _ => s

/-- The request that has waited longest is granted when its units are free (R281). -/
def grantLeave (s : State) (cl : Fin 64) : State :=
  let c := getCluster s cl
  match c.waiting with
  | [] => s
  | p :: r =>
    if canGrant c p.1 p.2 then leaveGranted (putCluster s cl { c with held := c.held ++ [p], waiting := r }) p.1 else s

/-- A register is written by code that runs on the device or by its host, neither of which there is before the boot ROM's step 7
(R376; log 94). -/
def whenRunning (s : State) (f : State → State) : Out := .next (if s.root.boot = .running then f s else s)

/-- LBUD of thread `tid` takes `word`, at most the header budget. (R82) -/
def execLbudWrite (s : State) : Out := whenRunning s fun s => updThread s s.ev.tid fun th => writeLbud th s.ev.word

/-- FFLAGS of thread `tid` takes `word`, once what the write comes after is done. (R58) -/
def execFflagsWrite (s : State) : Out :=
  whenRunning s fun s => if !writeHeld (getThread s s.ev.tid) 0x008 then updThread s s.ev.tid fun th => writeFflags th s.ev.word else s

/-- VSTART of thread `tid` takes `word`, once what the write comes after is done. (R87) -/
def execVstartWrite (s : State) : Out :=
  whenRunning s fun s => if !writeHeld (getThread s s.ev.tid) 0x002 then updThread s s.ev.tid fun th => writeVstart th s.ev.word else s

/-- CLMODE of thread `tid` takes the writable bits of `word`. (R242) -/
def execClmodeWrite (s : State) : Out := whenRunning s fun s => updThread s s.ev.tid fun th => writeClmode th s.ev.word

/-- PREQ of thread `tid` is written `word`: a pre-emption is asked for while its core or MCC has something to save. (R349, R362) -/
def execPreqWrite (s : State) : Out := whenRunning s fun s => askPreempt s s.ev.tid s.ev.word

/-- TSWP of thread `tid` is written `word`. (R349) -/
def execTswpWrite (s : State) : Out := whenRunning s fun s => writeTswp s s.ev.tid s.ev.word

/-- Register number `n` of thread `tid` takes the writable bits of `word`. (R5, R349) -/
def execRegisterWrite (s : State) : Out := whenRunning s fun s => writeRegister s s.ev.tid s.ev.n s.ev.word

/-- Thread `tid`, entry `k` of its queue. (R265, R272) -/
def execVectorCourse (s : State) : Out := .next (courseStep s s.ev.tid s.ev.k)

/-- Thread `tid`. (R264) -/
def execVectorEntryComplete (s : State) : Out := .next (completeStep s s.ev.tid)

/-- Thread `tid`. (R267) -/
def execReadQueueReturn (s : State) : Out := .next (returnStep s s.ev.tid)

/-- Thread `tid`. (R271) -/
def execVectorFaultReport (s : State) : Out := .next (faultStep s s.ev.tid)

/-- Thread `tid`. (R128) -/
def execScalarFaultReport (s : State) : Out := .next (pendingFault s s.ev.tid false)

/-- Thread `tid`. (R113) -/
def execDecodeFault (s : State) : Out := .next (pendingFault s s.ev.tid true)

/-- Thread `tid`. (R151) -/
def execExitPerform (s : State) : Out := .next (exitStep s s.ev.tid)

/-- Thread `tid`. (R153) -/
def execXretResume (s : State) : Out := .next (xretStep s s.ev.tid)

/-- Thread `tid`. (R152) -/
def execYieldEnd (s : State) : Out := .next (endWait s s.ev.tid .yield true)

/-- Thread `tid`, once no .ff load is queued. (R266) -/
def execFfStallEnd (s : State) : Out := .next (endWait s s.ev.tid .firstFault (!ffPending (getThread s s.ev.tid)))

/-- Thread `tid`, whose oldest entry has stalled. (R274) -/
def execLeafAllocRetry (s : State) : Out := .next (retryStep s s.ev.tid)

/-- Core `co` of cluster `cl`. (R75) -/
def execReclaimStep (s : State) : Out := .next (updCore s s.ev.cl s.ev.co Sys2Proof.Machine.reclaimStep)

/-- Thread `tid`, an acquire. (R163) -/
def execWatermarkWaitEnd (s : State) : Out := .next (watermarkStep s s.ev.tid)

/-- Barrier `n` of the launch of thread `tid`, once as many have arrived as it counts. (R259) -/
def execBarrierPhaseComplete (s : State) : Out := .next (barrierStep s s.ev.tid (Fin.ofNat 16 s.ev.n))

/-- Cluster `cl`. (R281) -/
def execLeaveGrant (s : State) : Out := .next (grantLeave s s.ev.cl)

/-- Cluster `cl`, `n` units. (R281) -/
def execPowerBudgetSet (s : State) : Out := .next (budgetStep s s.ev.cl s.ev.n)

/-- Cluster `cl`, `n` courses. (R282) -/
def execPowcapSet (s : State) : Out := .next (powcapStep s s.ev.cl s.ev.n)

/-- Thread `tid` leaves the list of the address with key `k`. (R144) -/
def execCasPriorityExpiry (s : State) : Out := .next (casListed s s.ev.tid s.ev.k false)

/-- A load that thread `tid` is still to issue takes its value early, while the thread may issue (R291; log 2). -/
def earlyStep (s : State) (t : Tid) : State :=
  let th := getThread s t
  if decide (th.tstate = .running) && decide (th.wait = .none) && decide (th.pend = none) then readEarly s t s.ev.word s.ev.n else s

/-- Access number `k` of thread `tid`; with `flag`, a load of `n` bytes at `word` that the thread is still to issue. (R139, R290,
R291) -/
def execMemoryAccessComplete (s : State) : Out :=
  .next (if s.ev.flag then earlyStep s s.ev.tid else accessStep s s.ev.tid s.ev.k)

/-- Queue `n` of core `co` of cluster `cl`. (R216, R217) -/
def execCopyRow (s : State) : Out := .next (copyStep s s.ev.cl s.ev.co (Fin.ofNat 4 s.ev.n))

/-- Cluster `cl`. (R228, R241, R314) -/
def execTileEntryExecute (s : State) : Out := .next (tileStepRecorded s s.ev.cl)

/-- Thread `tid`, stopped at pattern absent. (R366) -/
def execPatternLoadBind (s : State) : Out := .next (loadStep s s.ev.tid)

/-- Queue `n`, the block at `k`, the sentinel at `word`. (R331) -/
def execQueueBind (s : State) : Out := .next (bindStep s s.ev.n s.ev.k s.ev.word)

/-- Queue `n`. (R332, R338) -/
def execPacketAccept (s : State) : Out := .next (acceptStep s s.ev.n false)

/-- Queue `n`. (R332) -/
def execQueueLinkPoll (s : State) : Out := .next (acceptStep s s.ev.n false)

/-- Queue `n`. (R338) -/
def execPacketReadRetry (s : State) : Out := .next (acceptStep s s.ev.n true)

/-- Front end `n`. (R344) -/
def execLaunchStart (s : State) : Out := .next (launchStartStep s s.ev.n)

/-- Core `co` of cluster `cl`. (R341) -/
def execCoreAssign (s : State) : Out := .next (assignStep s s.ev.cl s.ev.co)

/-- Thread `th` of core `co` of cluster `cl`. (R340, R341) -/
def execIterationHandout (s : State) : Out := .next (handoutStep s s.ev.cl s.ev.co s.ev.th)

/-- Cluster `cl`. (R342) -/
def execGangShareStart (s : State) : Out := .next (gangStartStep s s.ev.cl)

/-- For the GANG share that comes first. (R342) -/
def execGangClusterChoice (s : State) : Out := .next (gangChoiceStep s)

/-- Launch `n`. (R343) -/
def execLaunchAgeing (s : State) : Out := .next (ageStep s s.ev.n)

/-- Launch `n` on cluster `cl`. (R343) -/
def execLaunchPreempt (s : State) : Out := .next (preemptStep s s.ev.n s.ev.cl)

/-- Queue `n`. (R345) -/
def execLaunchComplete (s : State) : Out := .next (launchDoneStep s s.ev.n)

/-- Core `co` of cluster `cl`, or with `flag` its MCC; `pairs` names the pages of the image, each with its kind. (R362, R363) -/
def execCoreSave (s : State) : Out := .next (saveStep s s.ev.cl s.ev.co s.ev.flag s.ev.pairs)

/-- Image `k` onto core `co` of cluster `cl`. (R365) -/
def execCoreRestore (s : State) : Out := .next (restoreStep s s.ev.k s.ev.cl s.ev.co)

/-- Context `n`. (R368) -/
def execContextSwapOut (s : State) : Out := .next (swapOut s (evCtx s))

/-- Context `n`. (R368) -/
def execContextSwapIn (s : State) : Out := .next (swapIn s (evCtx s))

/-- For the stopped thread `source`, or for context `n` at a host request; `pairs` names accesses not handed to the memory system
yet, each by its thread's key and its stamp. (R297, R369; log 117) -/
def execContainment (s : State) : Out := .next (containStep s s.ev.source (evCtx s) s.ev.pairs)

/-- Context `n`. (R354) -/
def execTlbInvalidate (s : State) : Out := .next (invalidate s (evCtx s))

/-- Context `n`. (R354) -/
def execTlbInvalidateComplete (s : State) : Out := .next (invalidated s (evCtx s))

/-- Address `word` of context `n` for core `co` of cluster `cl`. (R352, R355) -/
def execPageWalk (s : State) : Out := .next (walkStep s s.ev.cl s.ev.co (evCtx s) s.ev.word)

/-- Thread `tid`, with the table entries `pairs` that Usilaem writes. (R356) -/
def execDemandPageMap (s : State) : Out := .next (demandStep s s.ev.tid s.ev.pairs)

/-- Link `n`, flit `k`, good CRC `flag`, carrying the access `flit`. (R371) -/
def execFlitReceive (s : State) : Out := .next (flitStep s s.ev.n s.ev.k s.ev.flag s.ev.flit)

/-- Link `n`, `k` flits, failing when `flag`. (R371, R373) -/
def execFlitReplay (s : State) : Out := .next (replayStep s s.ev.n s.ev.k s.ev.flag)

/-- Link `n`, with lock lost when `flag`; `bytes` names the pod positions that do not answer from then on. (R352, R373; log 121) -/
def execLinkDown (s : State) : Out := .next (downStep s s.ev.n s.ev.flag s.ev.bytes)

/-- Link `n`, with success `flag` and port `k`; `bytes` as for LINK_DOWN. (R352, R373; log 121) -/
def execLinkRetrain (s : State) : Out := .next (trainStep s s.ev.n s.ev.flag s.ev.k s.ev.bytes)

/-- Link `n`. (R373) -/
def execLinkRetire (s : State) : Out := .next (retireStep s s.ev.n)

/-- Error `n`. (R375) -/
def execHostLinkError (s : State) : Out := .next (aerStep s s.ev.n)

/-- The boot ROM, then Usilaem. (R376) -/
def execDeviceReset (s : State) : Out := .next (resetStep s)

/-- By Usilaem. (R376) -/
def execRollbackRaise (s : State) : Out := .next (rollbackStep s)

/-- Nonce `bytes`, context `n` or with `flag` the device, the report at `k`. (R379) -/
def execAttestationRequest (s : State) : Out := .next (attestStep s s.ev.bytes (if s.ev.flag then none else some (evCtx s)) s.ev.k)

/-- At `corrected`. (R381) -/
def execCorrectedError (s : State) : Out := .next (correctedStep s s.ev.corrected)

/-- Line `k`, uncorrectable when `flag`. (R381) -/
def execPatrolScrub (s : State) : Out := .next (scrubStep s s.ev.k s.ev.flag)

/-- Line `k`. (R382) -/
def execLinePoison (s : State) : Out := .next (poisonLine s s.ev.k)

/-- Word `k` of the scratchpad of core `co` of cluster `cl`. (R383) -/
def execScratchpadPoison (s : State) : Out := .next (poisonWord s s.ev.cl s.ev.co s.ev.k)

/-- Leaf `k` of core `co` of cluster `cl`, uncorrectable when `flag`, in the header when `flag2`. (R384) -/
def execLeafError (s : State) : Out := .next (leafErrorStep s s.ev.cl s.ev.co s.ev.k s.ev.flag s.ev.flag2)

/-- Leaf `k` of core `co` of cluster `cl`. (R384) -/
def execLeafErrorCountClear (s : State) : Out := .next (leafClearStep s s.ev.cl s.ev.co s.ev.k)

/-- Core `co` of cluster `cl`. (R384) -/
def execFreeListRebuild (s : State) : Out := .next (rebuildStep s s.ev.cl s.ev.co)

/-- Channel `n`, with the frame moves `pairs`. (R385) -/
def execChannelRetire (s : State) : Out := .next (channelStep s s.ev.n s.ev.pairs)

/-- By Usilaem. (R386, R387) -/
def execHealthBlockUpdate (s : State) : Out := .next (healthStep s)

/-- By Usilaem. (R385, R387) -/
def execScrubPassCheck (s : State) : Out := .next (passCheckStep s)

/-- The access `host`. (R346) -/
def execHostBarAccess (s : State) : Out := hostStep s s.ev.host

/-- The context `spec`. (R348, R385) -/
def execContextCreate (s : State) : Out := .next (createContext s s.ev.spec)

/-- Context `n`. (R369) -/
def execContextDestroy (s : State) : Out := .next (destroyContext s (evCtx s))

/-- Thread `tid`, past the brk when `flag`. (R356) -/
def execDebuggerResume (s : State) : Out := .next (debuggerStep s s.ev.tid s.ev.flag)

/-- A frame of `bytes` for address `k`. (R375) -/
def execEthernetFrameReceive (s : State) : Out := frameStep s s.ev.k s.ev.bytes

/-- At `structure_`. (R380) -/
def execUncorrectableStructureError (s : State) : Out := .next (structureStep s s.ev.structure_)

end Sys2Proof.Machine
end

