-- ==== Sys2Proof/Machine/VectorFp.lean ====
section
/-!
DEFINITION. The vector floating-point instructions, conversions and compares (R172 to R174).
-/

namespace Sys2Proof.Machine

/-- Push a floating-point instruction of two chains (R165, R172). -/
def fpVV (s : State) (op : FpOp) (d a b : Reg) (m : MaskF) (x : Bool) : Out :=
  push s 4 [] fun _ => .fp op d a (.v b) m x
/-- Push a floating-point instruction with a captured g register (R165, R172). -/
def fpVS (s : State) (op : FpOp) (d a b : Reg) (m : MaskF) (x : Bool) : Out :=
  push s 4 [b] fun th => .fp op d a (.w (readG th b)) m x
/-- Push a unary floating-point instruction (R172). -/
def fpV (s : State) (op : FpOp) (d a : Reg) (m : MaskF) (x : Bool) : Out :=
  push s 4 [] fun _ => .fp op d a (.w 0) m x

/-- vfadd.vv (R172). -/
def execVfaddVV (d a b : Reg) (m : MaskF) (x : Bool) (s : State) : Out :=
  fpVV s .add d a b m x

/-- vfsub.vv (R172). -/
def execVfsubVV (d a b : Reg) (m : MaskF) (x : Bool) (s : State) : Out :=
  fpVV s .sub d a b m x

/-- vfmul.vv (R172). -/
def execVfmulVV (d a b : Reg) (m : MaskF) (x : Bool) (s : State) : Out :=
  fpVV s .mul d a b m x

/-- vfdiv.vv (R172). -/
def execVfdivVV (d a b : Reg) (m : MaskF) (x : Bool) (s : State) : Out :=
  fpVV s .div d a b m x

/-- vfma.vv (R172). -/
def execVfmaVV (d a b : Reg) (m : MaskF) (x : Bool) (s : State) : Out :=
  fpVV s .fma d a b m x

/-- vfmin.vv (R172). -/
def execVfminVV (d a b : Reg) (m : MaskF) (x : Bool) (s : State) : Out :=
  fpVV s .min d a b m x

/-- vfmax.vv (R172). -/
def execVfmaxVV (d a b : Reg) (m : MaskF) (x : Bool) (s : State) : Out :=
  fpVV s .max d a b m x

/-- vfabs (R172). -/
def execVfabs (d a : Reg) (m : MaskF) (x : Bool) (s : State) : Out :=
  fpV s .abs d a m x

/-- vfsqrt (R172). -/
def execVfsqrt (d a : Reg) (m : MaskF) (x : Bool) (s : State) : Out :=
  fpV s .sqrt d a m x

/-- vfrcp (R172). -/
def execVfrcp (d a : Reg) (m : MaskF) (x : Bool) (s : State) : Out :=
  fpV s .rcp d a m x

/-- vfrsqrt (R172). -/
def execVfrsqrt (d a : Reg) (m : MaskF) (x : Bool) (s : State) : Out :=
  fpV s .rsqrt d a m x

/-- vfexp2 (R172). -/
def execVfexp2 (d a : Reg) (m : MaskF) (x : Bool) (s : State) : Out :=
  fpV s .exp2 d a m x

/-- vcvt: to the type t (R173). -/
def execVcvt (d a : Reg) (t : Fin 16) (m : MaskF) (x : Bool) (s : State) : Out :=
  push s 4 [] fun _ => .cvt d a t.val m x

/-- vfadd.vs (R172). -/
def execVfaddVS (d a b : Reg) (m : MaskF) (x : Bool) (s : State) : Out :=
  fpVS s .add d a b m x

/-- vfsub.vs (R172). -/
def execVfsubVS (d a b : Reg) (m : MaskF) (x : Bool) (s : State) : Out :=
  fpVS s .sub d a b m x

/-- vfmul.vs (R172). -/
def execVfmulVS (d a b : Reg) (m : MaskF) (x : Bool) (s : State) : Out :=
  fpVS s .mul d a b m x

/-- vfdiv.vs (R172). -/
def execVfdivVS (d a b : Reg) (m : MaskF) (x : Bool) (s : State) : Out :=
  fpVS s .div d a b m x

/-- vfma.vs (R172). -/
def execVfmaVS (d a b : Reg) (m : MaskF) (x : Bool) (s : State) : Out :=
  fpVS s .fma d a b m x

/-- vfmin.vs (R172). -/
def execVfminVS (d a b : Reg) (m : MaskF) (x : Bool) (s : State) : Out :=
  fpVS s .min d a b m x

/-- vfmax.vs (R172). -/
def execVfmaxVS (d a b : Reg) (m : MaskF) (x : Bool) (s : State) : Out :=
  fpVS s .max d a b m x

/-- Push a compare of two chains (R174). -/
def cmpVV (s : State) (op : CmpOp) (d : MaskF) (a b : Reg) (m : MaskF) : Out :=
  push s 4 [] fun _ => .cmp op d a (.v b) m
/-- Push a compare with a captured g register (R165, R174). -/
def cmpVS (s : State) (op : CmpOp) (d : MaskF) (a b : Reg) (m : MaskF) : Out :=
  push s 4 [b] fun th => .cmp op d a (.w (readG th b)) m

/-- vcmp.eq.vv (R174). -/
def execVcmpEqVV (d : MaskF) (a b : Reg) (m : MaskF) (s : State) : Out :=
  cmpVV s .eq d a b m

/-- vcmp.ne.vv (R174). -/
def execVcmpNeVV (d : MaskF) (a b : Reg) (m : MaskF) (s : State) : Out :=
  cmpVV s .ne d a b m

/-- vcmp.lt.vv (R174). -/
def execVcmpLtVV (d : MaskF) (a b : Reg) (m : MaskF) (s : State) : Out :=
  cmpVV s .lt d a b m

/-- vcmp.le.vv (R174). -/
def execVcmpLeVV (d : MaskF) (a b : Reg) (m : MaskF) (s : State) : Out :=
  cmpVV s .le d a b m

/-- vcmp.unord.vv (R174). -/
def execVcmpUnordVV (d : MaskF) (a b : Reg) (m : MaskF) (s : State) : Out :=
  cmpVV s .unord d a b m

/-- vcmp.eq.vs (R174). -/
def execVcmpEqVS (d : MaskF) (a b : Reg) (m : MaskF) (s : State) : Out :=
  cmpVS s .eq d a b m

/-- vcmp.ne.vs (R174). -/
def execVcmpNeVS (d : MaskF) (a b : Reg) (m : MaskF) (s : State) : Out :=
  cmpVS s .ne d a b m

/-- vcmp.lt.vs (R174). -/
def execVcmpLtVS (d : MaskF) (a b : Reg) (m : MaskF) (s : State) : Out :=
  cmpVS s .lt d a b m

/-- vcmp.le.vs (R174). -/
def execVcmpLeVS (d : MaskF) (a b : Reg) (m : MaskF) (s : State) : Out :=
  cmpVS s .le d a b m

/-- vcmp.gt.vs (R174). -/
def execVcmpGtVS (d : MaskF) (a b : Reg) (m : MaskF) (s : State) : Out :=
  cmpVS s .gt d a b m

/-- vcmp.ge.vs (R174). -/
def execVcmpGeVS (d : MaskF) (a b : Reg) (m : MaskF) (s : State) : Out :=
  cmpVS s .ge d a b m

end Sys2Proof.Machine
end

