-- ==== Sys2Proof/Machine/VectorInt.lean ====
section
/-!
DEFINITION. The vector integer instructions (R164 to R171), each pushed with what it captures.
-/

namespace Sys2Proof.Machine

/-- Push an integer instruction whose second operand is a chain (R165, R169). -/
def intVV (s : State) (op : IntOp) (d a b : Reg) (m : MaskF) (x : Bool) : Out :=
  push s 4 [] fun _ => .int op d a (.v b) m x
/-- Push an integer instruction whose second operand is a captured g register (R61, R165). -/
def intVS (s : State) (op : IntOp) (d a b : Reg) (m : MaskF) (x : Bool) : Out :=
  push s 4 [b] fun th => .int op d a (.w (readG th b)) m x
/-- Push an integer instruction with an immediate: every element active, its exception bits discarded (R164). -/
def intVI (s : State) (op : IntOp) (d a : Reg) (i : Int) : Out :=
  push s 4 [] fun _ => .int op d a (.imm i) 0 true

/-- vadd.vv (R169). -/
def execVaddVV (d a b : Reg) (m : MaskF) (x : Bool) (s : State) : Out :=
  intVV s .add d a b m x

/-- vsub.vv (R169). -/
def execVsubVV (d a b : Reg) (m : MaskF) (x : Bool) (s : State) : Out :=
  intVV s .sub d a b m x

/-- vmul.vv (R169). -/
def execVmulVV (d a b : Reg) (m : MaskF) (x : Bool) (s : State) : Out :=
  intVV s .mul d a b m x

/-- vmulh.vv (R169). -/
def execVmulhVV (d a b : Reg) (m : MaskF) (x : Bool) (s : State) : Out :=
  intVV s .mulh d a b m x

/-- vdiv.vv (R169). -/
def execVdivVV (d a b : Reg) (m : MaskF) (x : Bool) (s : State) : Out :=
  intVV s .div d a b m x

/-- vrem.vv (R169). -/
def execVremVV (d a b : Reg) (m : MaskF) (x : Bool) (s : State) : Out :=
  intVV s .rem d a b m x

/-- vmin.vv (R169). -/
def execVminVV (d a b : Reg) (m : MaskF) (x : Bool) (s : State) : Out :=
  intVV s .min d a b m x

/-- vmax.vv (R169). -/
def execVmaxVV (d a b : Reg) (m : MaskF) (x : Bool) (s : State) : Out :=
  intVV s .max d a b m x

/-- vadds.vv (R169). -/
def execVaddsVV (d a b : Reg) (m : MaskF) (x : Bool) (s : State) : Out :=
  intVV s .adds d a b m x

/-- vsubs.vv (R169). -/
def execVsubsVV (d a b : Reg) (m : MaskF) (x : Bool) (s : State) : Out :=
  intVV s .subs d a b m x

/-- vand.vv (R169). -/
def execVandVV (d a b : Reg) (m : MaskF) (x : Bool) (s : State) : Out :=
  intVV s .and d a b m x

/-- vor.vv (R169). -/
def execVorVV (d a b : Reg) (m : MaskF) (x : Bool) (s : State) : Out :=
  intVV s .or d a b m x

/-- vxor.vv (R169). -/
def execVxorVV (d a b : Reg) (m : MaskF) (x : Bool) (s : State) : Out :=
  intVV s .xor d a b m x

/-- vshl.vv (R169). -/
def execVshlVV (d a b : Reg) (m : MaskF) (x : Bool) (s : State) : Out :=
  intVV s .shl d a b m x

/-- vshr.vv (R169). -/
def execVshrVV (d a b : Reg) (m : MaskF) (x : Bool) (s : State) : Out :=
  intVV s .shr d a b m x

/-- vadd.vs (R169). -/
def execVaddVS (d a b : Reg) (m : MaskF) (x : Bool) (s : State) : Out :=
  intVS s .add d a b m x

/-- vsub.vs (R169). -/
def execVsubVS (d a b : Reg) (m : MaskF) (x : Bool) (s : State) : Out :=
  intVS s .sub d a b m x

/-- vrsub.vs (R169). -/
def execVrsubVS (d a b : Reg) (m : MaskF) (x : Bool) (s : State) : Out :=
  intVS s .rsub d a b m x

/-- vmul.vs (R169). -/
def execVmulVS (d a b : Reg) (m : MaskF) (x : Bool) (s : State) : Out :=
  intVS s .mul d a b m x

/-- vmulh.vs (R169). -/
def execVmulhVS (d a b : Reg) (m : MaskF) (x : Bool) (s : State) : Out :=
  intVS s .mulh d a b m x

/-- vmin.vs (R169). -/
def execVminVS (d a b : Reg) (m : MaskF) (x : Bool) (s : State) : Out :=
  intVS s .min d a b m x

/-- vmax.vs (R169). -/
def execVmaxVS (d a b : Reg) (m : MaskF) (x : Bool) (s : State) : Out :=
  intVS s .max d a b m x

/-- vadds.vs (R169). -/
def execVaddsVS (d a b : Reg) (m : MaskF) (x : Bool) (s : State) : Out :=
  intVS s .adds d a b m x

/-- vsubs.vs (R169). -/
def execVsubsVS (d a b : Reg) (m : MaskF) (x : Bool) (s : State) : Out :=
  intVS s .subs d a b m x

/-- vand.vs (R169). -/
def execVandVS (d a b : Reg) (m : MaskF) (x : Bool) (s : State) : Out :=
  intVS s .and d a b m x

/-- vor.vs (R169). -/
def execVorVS (d a b : Reg) (m : MaskF) (x : Bool) (s : State) : Out :=
  intVS s .or d a b m x

/-- vxor.vs (R169). -/
def execVxorVS (d a b : Reg) (m : MaskF) (x : Bool) (s : State) : Out :=
  intVS s .xor d a b m x

/-- vshl.vs (R169). -/
def execVshlVS (d a b : Reg) (m : MaskF) (x : Bool) (s : State) : Out :=
  intVS s .shl d a b m x

/-- vshr.vs (R169). -/
def execVshrVS (d a b : Reg) (m : MaskF) (x : Bool) (s : State) : Out :=
  intVS s .shr d a b m x

/-- vadd.vi: the immediate is signed (R165, R169). -/
def execVaddVI (d a : Reg) (imm : BitVec 11) (s : State) : Out :=
  intVI s .add d a imm.toInt

/-- vrsub.vi: the immediate is signed (R165, R169). -/
def execVrsubVI (d a : Reg) (imm : BitVec 11) (s : State) : Out :=
  intVI s .rsub d a imm.toInt

/-- vand.vi: the immediate is signed (R165, R169). -/
def execVandVI (d a : Reg) (imm : BitVec 11) (s : State) : Out :=
  intVI s .and d a imm.toInt

/-- vor.vi: the immediate is signed (R165, R169). -/
def execVorVI (d a : Reg) (imm : BitVec 11) (s : State) : Out :=
  intVI s .or d a imm.toInt

/-- vxor.vi: the immediate is signed (R165, R169). -/
def execVxorVI (d a : Reg) (imm : BitVec 11) (s : State) : Out :=
  intVI s .xor d a imm.toInt

/-- vmin.vi: the immediate is signed (R165, R169). -/
def execVminVI (d a : Reg) (imm : BitVec 11) (s : State) : Out :=
  intVI s .min d a imm.toInt

/-- vmax.vi: the immediate is signed (R165, R169). -/
def execVmaxVI (d a : Reg) (imm : BitVec 11) (s : State) : Out :=
  intVI s .max d a imm.toInt

/-- vshl.vi: the amount is unsigned (R165, R169). -/
def execVshlVI (d a : Reg) (imm : BitVec 11) (s : State) : Out :=
  intVI s .shl d a (imm.toNat : Int)

/-- vshr.vi: the amount is unsigned (R165, R169). -/
def execVshrVI (d a : Reg) (imm : BitVec 11) (s : State) : Out :=
  intVI s .shr d a (imm.toNat : Int)

/-- The vector register a compressed 3-bit field names (R91). -/
def vreg3 (r : Fin 8) : Reg := Fin.ofNat 32 r.val

/-- hvadd vd, va: vadd vd, vd, va under m0 (R91). -/
def execHvadd (d a : Fin 8) (s : State) : Out :=
  push s 2 [] fun _ => .int .add (vreg3 d) (vreg3 d) (.v (vreg3 a)) 0 false

end Sys2Proof.Machine
end

