-- ==== Sys2Proof/Machine/VectorMem.lean ====
section
/-!
DEFINITION. Chain instructions (R195 to R201) and vector memory instructions (R203 to R209).
-/

namespace Sys2Proof.Machine

/-- vld (R203, R204). -/
def execVld (d b : Reg) (m : MaskF) (c : Fin 16) (f : Bool) (s : State) : Out :=
  push s 4 [b] fun th => .load .unit d (readG th b) 0 0 m c.val f

/-- vlds (R203, R204). -/
def execVlds (d b g : Reg) (m : MaskF) (c : Fin 16) (f : Bool) (s : State) : Out :=
  push s 4 [b, g] fun th => .load .strided d (readG th b) (readG th g) 0 m c.val f

/-- vldx (R203, R204, R206). -/
def execVldx (d b v : Reg) (m : MaskF) (c : Fin 16) (f : Bool) (s : State) : Out :=
  push s 4 [b] fun th => .load .indexed d (readG th b) 0 v m c.val f

/-- vst (R203, R204). -/
def execVst (d b : Reg) (m : MaskF) (c : Fin 16) (s : State) : Out :=
  push s 4 [b] fun th => .store .unit d (readG th b) 0 0 m c.val

/-- vsts (R203, R204). -/
def execVsts (d b g : Reg) (m : MaskF) (c : Fin 16) (s : State) : Out :=
  push s 4 [b, g] fun th => .store .strided d (readG th b) (readG th g) 0 m c.val

/-- vstx (R203, R204, R206). -/
def execVstx (d b v : Reg) (m : MaskF) (c : Fin 16) (s : State) : Out :=
  push s 4 [b] fun th => .store .indexed d (readG th b) 0 v m c.val

/-- vstxa (R209). -/
def execVstxa (d b v : Reg) (m : MaskF) (c : Fin 16) (f : Bool) (s : State) : Out :=
  push s 4 [b] fun th => .stxa d (readG th b) v m c.val f

/-- vshare (R195). -/
def execVshare (d a : Reg) (s : State) : Out :=
  push s 4 [] fun _ => .share d a

/-- vcat (R196, R197). -/
def execVcat (d a b : Reg) (s : State) : Out :=
  push s 4 [] fun _ => .cat d a b

/-- vtrim (R198). -/
def execVtrim (d a f b : Reg) (s : State) : Out :=
  push s 4 [f, b] fun th => .trim d a (readG th f) (readG th b)

/-- vsplit (R199). -/
def execVsplit (d a n : Reg) (s : State) : Out :=
  push s 4 [n] fun th => .split d a (readG th n)

/-- vpack (R200). -/
def execVpack (d a : Reg) (s : State) : Out :=
  push s 4 [] fun _ => .pack d a

/-- vfree (R201). -/
def execVfree (a : Reg) (s : State) : Out :=
  push s 4 [] fun _ => .free a

/-- vdesc (R201). -/
def execVdesc (d a : Reg) (s : State) : Out :=
  push s 4 [] fun _ => .desc d a

/-- vlen (R201). -/
def execVlen (d a : Reg) (s : State) : Out :=
  push s 4 [] fun _ => .len d a

end Sys2Proof.Machine
end

