-- ==== Sys2Proof/Machine/VectorPerm.lean ====
section
/-!
DEFINITION. Reductions and scans (R175, R176), permutations (R177 to R185) and mask instructions (R186 to R189).
-/

namespace Sys2Proof.Machine

/-- Push a reduction with its initial value; its result returns through the read queue (R158, R175). -/
def reduce (s : State) (op : RedOp) (d a b : Reg) (m : MaskF) : Out :=
  push s 4 [b] fun th => .red op d a (readG th b) m

/-- vredsum (R175). -/
def execVredsum (d a b : Reg) (m : MaskF) (s : State) : Out :=
  reduce s .sum d a b m

/-- vredsumo (R175). -/
def execVredsumo (d a b : Reg) (m : MaskF) (s : State) : Out :=
  reduce s .sumo d a b m

/-- vredmin (R175). -/
def execVredmin (d a b : Reg) (m : MaskF) (s : State) : Out :=
  reduce s .min d a b m

/-- vredmax (R175). -/
def execVredmax (d a b : Reg) (m : MaskF) (s : State) : Out :=
  reduce s .max d a b m

/-- vredand (R175). -/
def execVredand (d a b : Reg) (m : MaskF) (s : State) : Out :=
  reduce s .and d a b m

/-- vredor (R175). -/
def execVredor (d a b : Reg) (m : MaskF) (s : State) : Out :=
  reduce s .or d a b m

/-- vscan: sums (R176). -/
def execVscan (d a b : Reg) (m : MaskF) (x : Bool) (s : State) : Out :=
  push s 4 [b] fun th => .scan false d a (readG th b) m x

/-- vscanmax (R176). -/
def execVscanmax (d a b : Reg) (m : MaskF) (x : Bool) (s : State) : Out :=
  push s 4 [b] fun th => .scan true d a (readG th b) m x

/-- vlift (R177). -/
def execVlift (d a b : Reg) (m : MaskF) (s : State) : Out :=
  push s 4 [b] fun th => .slide true d a (readG th b) m

/-- vsink (R177). -/
def execVsink (d a b : Reg) (m : MaskF) (s : State) : Out :=
  push s 4 [b] fun th => .slide false d a (readG th b) m

/-- vperm (R178). -/
def execVperm (d a b : Reg) (m : MaskF) (s : State) : Out :=
  push s 4 [] fun _ => .perm d a b m

/-- vpress (R179). -/
def execVpress (d a : Reg) (m : MaskF) (s : State) : Out :=
  push s 4 [] fun _ => .press d a m

/-- vrank (R180). -/
def execVrank (d : Reg) (m : MaskF) (s : State) : Out :=
  push s 4 [] fun _ => .rank d m

/-- vbcast (R181). -/
def execVbcast (d b : Reg) (m : MaskF) (s : State) : Out :=
  push s 4 [b] fun th => .bcast d (readG th b) m

/-- vextr: element gb of va, through the read queue (R182). -/
def execVextr (d a b : Reg) (s : State) : Out :=
  push s 4 [b] fun th => .extr d a (readG th b)

/-- vput: element ga of vd becomes gb (R183). -/
def execVput (d a b : Reg) (s : State) : Out :=
  push s 4 [a, b] fun th => .put d (readG th a) (readG th b)

/-- vupd (R184). -/
def execVupd (d a b : Reg) (m : MaskF) (s : State) : Out :=
  push s 4 [] fun _ => .upd false d a b m

/-- vupd.add (R184). -/
def execVupdAdd (d a b : Reg) (m : MaskF) (s : State) : Out :=
  push s 4 [] fun _ => .upd true d a b m

/-- vtopk (R185). -/
def execVtopk (d a b : Reg) (m : MaskF) (s : State) : Out :=
  push s 4 [b] fun th => .topk d a (readG th b) m

/-- mand (R186). -/
def execMand (d a b : MaskF) (s : State) : Out :=
  push s 4 [] fun _ => .mask .and d a b

/-- mor (R186). -/
def execMor (d a b : MaskF) (s : State) : Out :=
  push s 4 [] fun _ => .mask .or d a b

/-- mxor (R186). -/
def execMxor (d a b : MaskF) (s : State) : Out :=
  push s 4 [] fun _ => .mask .xor d a b

/-- mnot (R186). -/
def execMnot (d a : MaskF) (s : State) : Out :=
  push s 4 [] fun _ => .mask .not d a a

/-- mpopc (R187). -/
def execMpopc (d : Reg) (a : MaskF) (s : State) : Out :=
  push s 4 [] fun _ => .mpopc d a

/-- mfirst (R187). -/
def execMfirst (d : Reg) (a : MaskF) (s : State) : Out :=
  push s 4 [] fun _ => .mfirst d a

/-- mtos: word gb of ma (R188). -/
def execMtos (d : Reg) (a : MaskF) (b : Reg) (s : State) : Out :=
  push s 4 [b] fun th => .mtos d a (readG th b)

/-- stom: word gb of md becomes ga (R188). -/
def execStom (d : MaskF) (a b : Reg) (s : State) : Out :=
  push s 4 [a, b] fun th => .stom d (readG th a) (readG th b)

/-- mset: bits [ga, ga + gb) (R189). -/
def execMset (d : MaskF) (a b : Reg) (s : State) : Out :=
  push s 4 [a, b] fun th => .mset d (readG th a) (readG th b)

end Sys2Proof.Machine
end

