-- ==== Sys2Proof/Machine/Dispatch.lean ====
section
/-!
DEFINITION. The dispatch: each instruction or device event with its one meaning.
-/

namespace Sys2Proof.Machine

/-- What an instruction or device event does to a state. -/
def exec (i : Instr) (s : State) : Host.Outcome State Fault Refusal :=
  match i with
  | .add d a b => Sys2Proof.Machine.execAdd d a b s
  | .sub d a b => Sys2Proof.Machine.execSub d a b s
  | .mul d a b => Sys2Proof.Machine.execMul d a b s
  | .mulh d a b => Sys2Proof.Machine.execMulh d a b s
  | .mulhn d a b => Sys2Proof.Machine.execMulhn d a b s
  | .div d a b => Sys2Proof.Machine.execDiv d a b s
  | .divn d a b => Sys2Proof.Machine.execDivn d a b s
  | .rem d a b => Sys2Proof.Machine.execRem d a b s
  | .remn d a b => Sys2Proof.Machine.execRemn d a b s
  | .and d a b => Sys2Proof.Machine.execAnd d a b s
  | .or d a b => Sys2Proof.Machine.execOr d a b s
  | .xor d a b => Sys2Proof.Machine.execXor d a b s
  | .shl d a b => Sys2Proof.Machine.execShl d a b s
  | .shr d a b => Sys2Proof.Machine.execShr d a b s
  | .sra d a b => Sys2Proof.Machine.execSra d a b s
  | .rot d a b => Sys2Proof.Machine.execRot d a b s
  | .min d a b => Sys2Proof.Machine.execMin d a b s
  | .max d a b => Sys2Proof.Machine.execMax d a b s
  | .minn d a b => Sys2Proof.Machine.execMinn d a b s
  | .maxn d a b => Sys2Proof.Machine.execMaxn d a b s
  | .slt d a b => Sys2Proof.Machine.execSlt d a b s
  | .sltn d a b => Sys2Proof.Machine.execSltn d a b s
  | .seq d a b => Sys2Proof.Machine.execSeq d a b s
  | .csel d a b c => Sys2Proof.Machine.execCsel d a b c s
  | .clz d a => Sys2Proof.Machine.execClz d a s
  | .ctz d a => Sys2Proof.Machine.execCtz d a s
  | .popc d a => Sys2Proof.Machine.execPopc d a s
  | .sext d a b g => Sys2Proof.Machine.execSext d a b g s
  | .zext d a b g => Sys2Proof.Machine.execZext d a b g s
  | .addi d a imm => Sys2Proof.Machine.execAddi d a imm s
  | .andi d a imm => Sys2Proof.Machine.execAndi d a imm s
  | .ori d a imm => Sys2Proof.Machine.execOri d a imm s
  | .xori d a imm => Sys2Proof.Machine.execXori d a imm s
  | .shli d a g => Sys2Proof.Machine.execShli d a g s
  | .shri d a g => Sys2Proof.Machine.execShri d a g s
  | .srai d a g => Sys2Proof.Machine.execSrai d a g s
  | .lim d p imm => Sys2Proof.Machine.execLim d p imm s
  | .limK d p imm => Sys2Proof.Machine.execLimK d p imm s
  | .slti d a imm => Sys2Proof.Machine.execSlti d a imm s
  | .sltni d a imm => Sys2Proof.Machine.execSltni d a imm s
  | .fadd d a b p r => Sys2Proof.Machine.execFadd d a b p r s
  | .fsub d a b p r => Sys2Proof.Machine.execFsub d a b p r s
  | .fmul d a b p r => Sys2Proof.Machine.execFmul d a b p r s
  | .fdiv d a b p r => Sys2Proof.Machine.execFdiv d a b p r s
  | .fsqrt d a p r => Sys2Proof.Machine.execFsqrt d a p r s
  | .fma d a b p r => Sys2Proof.Machine.execFma d a b p r s
  | .fmin d a b p => Sys2Proof.Machine.execFmin d a b p s
  | .fmax d a b p => Sys2Proof.Machine.execFmax d a b p s
  | .feq d a b p => Sys2Proof.Machine.execFeq d a b p s
  | .flt d a b p => Sys2Proof.Machine.execFlt d a b p s
  | .fle d a b p => Sys2Proof.Machine.execFle d a b p s
  | .fcvt d a t p r => Sys2Proof.Machine.execFcvt d a t p r s
  | .fcvti d a t p r => Sys2Proof.Machine.execFcvti d a t p r s
  | .fcvtf d a t p r => Sys2Proof.Machine.execFcvtf d a t p r s
  | .ld d b z g c off => Sys2Proof.Machine.execLd d b z g c off s
  | .st d b z c off => Sys2Proof.Machine.execSt d b z c off s
  | .amoadd d a b z g ord => Sys2Proof.Machine.execAmoadd d a b z g ord s
  | .amoand d a b z g ord => Sys2Proof.Machine.execAmoand d a b z g ord s
  | .amoor d a b z g ord => Sys2Proof.Machine.execAmoor d a b z g ord s
  | .amoxor d a b z g ord => Sys2Proof.Machine.execAmoxor d a b z g ord s
  | .amomin d a b z g ord sg => Sys2Proof.Machine.execAmomin d a b z g ord sg s
  | .amomax d a b z g ord sg => Sys2Proof.Machine.execAmomax d a b z g ord sg s
  | .amoswap d a b z g ord => Sys2Proof.Machine.execAmoswap d a b z g ord s
  | .amofadd d a b z g ord => Sys2Proof.Machine.execAmofadd d a b z g ord s
  | .cas d a b z g ord => Sys2Proof.Machine.execCas d a b z g ord s
  | .beq a b off => Sys2Proof.Machine.execBeq a b off s
  | .bne a b off => Sys2Proof.Machine.execBne a b off s
  | .blt a b off => Sys2Proof.Machine.execBlt a b off s
  | .bge a b off => Sys2Proof.Machine.execBge a b off s
  | .bltn a b off => Sys2Proof.Machine.execBltn a b off s
  | .bgen a b off => Sys2Proof.Machine.execBgen a b off s
  | .jal off => Sys2Proof.Machine.execJal off s
  | .jr d a imm => Sys2Proof.Machine.execJr d a imm s
  | .jt a b l => Sys2Proof.Machine.execJt a b l s
  | .bstrip a off => Sys2Proof.Machine.execBstrip a off s
  | .trapUnassigned c => Sys2Proof.Machine.execTrapUnassigned c s
  | .brk c => Sys2Proof.Machine.execBrk c s
  | .leave a => Sys2Proof.Machine.execLeave a s
  | .csrr d n => Sys2Proof.Machine.execCsrr d n s
  | .csrw a n => Sys2Proof.Machine.execCsrw a n s
  | .fence a k g => Sys2Proof.Machine.execFence a k g s
  | .qfence q => Sys2Proof.Machine.execQfence q s
  | .wait l g c t => Sys2Proof.Machine.execWait l g c t s
  | .bar n => Sys2Proof.Machine.execBar n s
  | .wmpub a b => Sys2Proof.Machine.execWmpub a b s
  | .apnd d a b => Sys2Proof.Machine.execApnd d a b s
  | .apub d a b => Sys2Proof.Machine.execApub d a b s
  | .bkset a n => Sys2Proof.Machine.execBkset a n s
  | .bkclr n => Sys2Proof.Machine.execBkclr n s
  | .vsetl d a t k r => Sys2Proof.Machine.execVsetl d a t k r s
  | .vsetlw d a b t k r => Sys2Proof.Machine.execVsetlw d a b t k r s
  | .vaddVV d a b m x => Sys2Proof.Machine.execVaddVV d a b m x s
  | .vsubVV d a b m x => Sys2Proof.Machine.execVsubVV d a b m x s
  | .vmulVV d a b m x => Sys2Proof.Machine.execVmulVV d a b m x s
  | .vmulhVV d a b m x => Sys2Proof.Machine.execVmulhVV d a b m x s
  | .vdivVV d a b m x => Sys2Proof.Machine.execVdivVV d a b m x s
  | .vremVV d a b m x => Sys2Proof.Machine.execVremVV d a b m x s
  | .vminVV d a b m x => Sys2Proof.Machine.execVminVV d a b m x s
  | .vmaxVV d a b m x => Sys2Proof.Machine.execVmaxVV d a b m x s
  | .vaddsVV d a b m x => Sys2Proof.Machine.execVaddsVV d a b m x s
  | .vsubsVV d a b m x => Sys2Proof.Machine.execVsubsVV d a b m x s
  | .vandVV d a b m x => Sys2Proof.Machine.execVandVV d a b m x s
  | .vorVV d a b m x => Sys2Proof.Machine.execVorVV d a b m x s
  | .vxorVV d a b m x => Sys2Proof.Machine.execVxorVV d a b m x s
  | .vshlVV d a b m x => Sys2Proof.Machine.execVshlVV d a b m x s
  | .vshrVV d a b m x => Sys2Proof.Machine.execVshrVV d a b m x s
  | .vaddVS d a b m x => Sys2Proof.Machine.execVaddVS d a b m x s
  | .vsubVS d a b m x => Sys2Proof.Machine.execVsubVS d a b m x s
  | .vrsubVS d a b m x => Sys2Proof.Machine.execVrsubVS d a b m x s
  | .vmulVS d a b m x => Sys2Proof.Machine.execVmulVS d a b m x s
  | .vmulhVS d a b m x => Sys2Proof.Machine.execVmulhVS d a b m x s
  | .vminVS d a b m x => Sys2Proof.Machine.execVminVS d a b m x s
  | .vmaxVS d a b m x => Sys2Proof.Machine.execVmaxVS d a b m x s
  | .vaddsVS d a b m x => Sys2Proof.Machine.execVaddsVS d a b m x s
  | .vsubsVS d a b m x => Sys2Proof.Machine.execVsubsVS d a b m x s
  | .vandVS d a b m x => Sys2Proof.Machine.execVandVS d a b m x s
  | .vorVS d a b m x => Sys2Proof.Machine.execVorVS d a b m x s
  | .vxorVS d a b m x => Sys2Proof.Machine.execVxorVS d a b m x s
  | .vshlVS d a b m x => Sys2Proof.Machine.execVshlVS d a b m x s
  | .vshrVS d a b m x => Sys2Proof.Machine.execVshrVS d a b m x s
  | .vaddVI d a imm => Sys2Proof.Machine.execVaddVI d a imm s
  | .vrsubVI d a imm => Sys2Proof.Machine.execVrsubVI d a imm s
  | .vandVI d a imm => Sys2Proof.Machine.execVandVI d a imm s
  | .vorVI d a imm => Sys2Proof.Machine.execVorVI d a imm s
  | .vxorVI d a imm => Sys2Proof.Machine.execVxorVI d a imm s
  | .vshlVI d a imm => Sys2Proof.Machine.execVshlVI d a imm s
  | .vshrVI d a imm => Sys2Proof.Machine.execVshrVI d a imm s
  | .vminVI d a imm => Sys2Proof.Machine.execVminVI d a imm s
  | .vmaxVI d a imm => Sys2Proof.Machine.execVmaxVI d a imm s
  | .vfaddVV d a b m x => Sys2Proof.Machine.execVfaddVV d a b m x s
  | .vfsubVV d a b m x => Sys2Proof.Machine.execVfsubVV d a b m x s
  | .vfmulVV d a b m x => Sys2Proof.Machine.execVfmulVV d a b m x s
  | .vfdivVV d a b m x => Sys2Proof.Machine.execVfdivVV d a b m x s
  | .vfmaVV d a b m x => Sys2Proof.Machine.execVfmaVV d a b m x s
  | .vfminVV d a b m x => Sys2Proof.Machine.execVfminVV d a b m x s
  | .vfmaxVV d a b m x => Sys2Proof.Machine.execVfmaxVV d a b m x s
  | .vfabs d a m x => Sys2Proof.Machine.execVfabs d a m x s
  | .vfsqrt d a m x => Sys2Proof.Machine.execVfsqrt d a m x s
  | .vfrcp d a m x => Sys2Proof.Machine.execVfrcp d a m x s
  | .vfrsqrt d a m x => Sys2Proof.Machine.execVfrsqrt d a m x s
  | .vfexp2 d a m x => Sys2Proof.Machine.execVfexp2 d a m x s
  | .vcvt d a t m x => Sys2Proof.Machine.execVcvt d a t m x s
  | .vfaddVS d a b m x => Sys2Proof.Machine.execVfaddVS d a b m x s
  | .vfsubVS d a b m x => Sys2Proof.Machine.execVfsubVS d a b m x s
  | .vfmulVS d a b m x => Sys2Proof.Machine.execVfmulVS d a b m x s
  | .vfdivVS d a b m x => Sys2Proof.Machine.execVfdivVS d a b m x s
  | .vfmaVS d a b m x => Sys2Proof.Machine.execVfmaVS d a b m x s
  | .vfminVS d a b m x => Sys2Proof.Machine.execVfminVS d a b m x s
  | .vfmaxVS d a b m x => Sys2Proof.Machine.execVfmaxVS d a b m x s
  | .vcmpEqVV d a b m => Sys2Proof.Machine.execVcmpEqVV d a b m s
  | .vcmpNeVV d a b m => Sys2Proof.Machine.execVcmpNeVV d a b m s
  | .vcmpLtVV d a b m => Sys2Proof.Machine.execVcmpLtVV d a b m s
  | .vcmpLeVV d a b m => Sys2Proof.Machine.execVcmpLeVV d a b m s
  | .vcmpUnordVV d a b m => Sys2Proof.Machine.execVcmpUnordVV d a b m s
  | .vcmpEqVS d a b m => Sys2Proof.Machine.execVcmpEqVS d a b m s
  | .vcmpNeVS d a b m => Sys2Proof.Machine.execVcmpNeVS d a b m s
  | .vcmpLtVS d a b m => Sys2Proof.Machine.execVcmpLtVS d a b m s
  | .vcmpLeVS d a b m => Sys2Proof.Machine.execVcmpLeVS d a b m s
  | .vcmpGtVS d a b m => Sys2Proof.Machine.execVcmpGtVS d a b m s
  | .vcmpGeVS d a b m => Sys2Proof.Machine.execVcmpGeVS d a b m s
  | .vredsum d a b m => Sys2Proof.Machine.execVredsum d a b m s
  | .vredsumo d a b m => Sys2Proof.Machine.execVredsumo d a b m s
  | .vredmin d a b m => Sys2Proof.Machine.execVredmin d a b m s
  | .vredmax d a b m => Sys2Proof.Machine.execVredmax d a b m s
  | .vredand d a b m => Sys2Proof.Machine.execVredand d a b m s
  | .vredor d a b m => Sys2Proof.Machine.execVredor d a b m s
  | .vscan d a b m x => Sys2Proof.Machine.execVscan d a b m x s
  | .vscanmax d a b m x => Sys2Proof.Machine.execVscanmax d a b m x s
  | .vlift d a b m => Sys2Proof.Machine.execVlift d a b m s
  | .vsink d a b m => Sys2Proof.Machine.execVsink d a b m s
  | .vperm d a b m => Sys2Proof.Machine.execVperm d a b m s
  | .vpress d a m => Sys2Proof.Machine.execVpress d a m s
  | .vrank d m => Sys2Proof.Machine.execVrank d m s
  | .vbcast d b m => Sys2Proof.Machine.execVbcast d b m s
  | .vextr d a b => Sys2Proof.Machine.execVextr d a b s
  | .vput d a b => Sys2Proof.Machine.execVput d a b s
  | .vupd d a b m => Sys2Proof.Machine.execVupd d a b m s
  | .vupdAdd d a b m => Sys2Proof.Machine.execVupdAdd d a b m s
  | .vtopk d a b m => Sys2Proof.Machine.execVtopk d a b m s
  | .mand d a b => Sys2Proof.Machine.execMand d a b s
  | .mor d a b => Sys2Proof.Machine.execMor d a b s
  | .mxor d a b => Sys2Proof.Machine.execMxor d a b s
  | .mnot d a => Sys2Proof.Machine.execMnot d a s
  | .mpopc d a => Sys2Proof.Machine.execMpopc d a s
  | .mfirst d a => Sys2Proof.Machine.execMfirst d a s
  | .mtos d a b => Sys2Proof.Machine.execMtos d a b s
  | .stom d a b => Sys2Proof.Machine.execStom d a b s
  | .mset d a b => Sys2Proof.Machine.execMset d a b s
  | .vld d b m c f => Sys2Proof.Machine.execVld d b m c f s
  | .vlds d b g m c f => Sys2Proof.Machine.execVlds d b g m c f s
  | .vldx d b v m c f => Sys2Proof.Machine.execVldx d b v m c f s
  | .vst d b m c => Sys2Proof.Machine.execVst d b m c s
  | .vsts d b g m c => Sys2Proof.Machine.execVsts d b g m c s
  | .vstx d b v m c => Sys2Proof.Machine.execVstx d b v m c s
  | .vstxa d b v m c f => Sys2Proof.Machine.execVstxa d b v m c f s
  | .vshare d a => Sys2Proof.Machine.execVshare d a s
  | .vcat d a b => Sys2Proof.Machine.execVcat d a b s
  | .vtrim d a f b => Sys2Proof.Machine.execVtrim d a f b s
  | .vsplit d a n => Sys2Proof.Machine.execVsplit d a n s
  | .vpack d a => Sys2Proof.Machine.execVpack d a s
  | .vfree a => Sys2Proof.Machine.execVfree a s
  | .vdesc d a => Sys2Proof.Machine.execVdesc d a s
  | .vlen d a => Sys2Proof.Machine.execVlen d a s
  | .clmap d a g b => Sys2Proof.Machine.execClmap d a g b s
  | .clcomp d a g => Sys2Proof.Machine.execClcomp d a g s
  | .clscan d a => Sys2Proof.Machine.execClscan d a s
  | .clapply d a b => Sys2Proof.Machine.execClapply d a b s
  | .clmask d a b => Sys2Proof.Machine.execClmask d a b s
  | .tbind a g => Sys2Proof.Machine.execTbind a g s
  | .ttgt g => Sys2Proof.Machine.execTtgt g s
  | .twait g => Sys2Proof.Machine.execTwait g s
  | .tget d g => Sys2Proof.Machine.execTget d g s
  | .tfree g => Sys2Proof.Machine.execTfree g s
  | .pat d a b m p => Sys2Proof.Machine.execPat d a b m p s
  | .hadd d a => Sys2Proof.Machine.execHadd d a s
  | .hsub d a => Sys2Proof.Machine.execHsub d a s
  | .hand d a => Sys2Proof.Machine.execHand d a s
  | .hor d a => Sys2Proof.Machine.execHor d a s
  | .hmov d a => Sys2Proof.Machine.execHmov d a s
  | .hinc d imm => Sys2Proof.Machine.execHinc d imm s
  | .hshl d sh => Sys2Proof.Machine.execHshl d sh s
  | .hldd d b off => Sys2Proof.Machine.execHldd d b off s
  | .hstd d b off => Sys2Proof.Machine.execHstd d b off s
  | .hbz a off => Sys2Proof.Machine.execHbz a off s
  | .hbnz a off => Sys2Proof.Machine.execHbnz a off s
  | .hjmp off => Sys2Proof.Machine.execHjmp off s
  | .hvadd d a => Sys2Proof.Machine.execHvadd d a s
  | .mcfg tyA tyB acc m64 n64 k tb ta => Sys2Proof.Machine.execMcfg tyA tyB acc m64 n64 k tb ta s
  | .mma u ac rel a b => Sys2Proof.Machine.execMma u ac rel a b s
  | .mmasp u ac rel a b c => Sys2Proof.Machine.execMmasp u ac rel a b c s
  | .mzero u ac => Sys2Proof.Machine.execMzero u ac s
  | .mdrain u ac cv rm scaled d g => Sys2Proof.Machine.execMdrain u ac cv rm scaled d g s
  | .mwait n => Sys2Proof.Machine.execMwait n s
  | .cpy c q cnt dst src shape pitch ctr => Sys2Proof.Machine.execCpy c q cnt dst src shape pitch ctr s
  | .cpyg c q cnt bound fill dst src shape pitch ctr vidx => Sys2Proof.Machine.execCpyg c q cnt bound fill dst src shape pitch ctr vidx s
  | .cpys c q cnt bound dst src shape pitch ctr vidx => Sys2Proof.Machine.execCpys c q cnt bound dst src shape pitch ctr vidx s
  | .cpyf c q cnt fill dst shape pitch ctr => Sys2Proof.Machine.execCpyf c q cnt fill dst shape pitch ctr s
  | .trapNone => Sys2Proof.Machine.execTrapNone s
  | .trapReadTsw => Sys2Proof.Machine.execTrapReadTsw s
  | .trapReadViolationLog => Sys2Proof.Machine.execTrapReadViolationLog s
  | .trapAbort => Sys2Proof.Machine.execTrapAbort s
  | .trapRegisterFaultRecord => Sys2Proof.Machine.execTrapRegisterFaultRecord s
  | .trapResumeMcc => Sys2Proof.Machine.execTrapResumeMcc s
  | .exit => Sys2Proof.Machine.execExit s
  | .yield => Sys2Proof.Machine.execYield s
  | .xret => Sys2Proof.Machine.execXret s
  | .hnop => Sys2Proof.Machine.execHnop s
  | .hwait => Sys2Proof.Machine.execHwait s
  | .hexit => Sys2Proof.Machine.execHexit s
  | .lbudWrite => Sys2Proof.Machine.execLbudWrite s
  | .fflagsWrite => Sys2Proof.Machine.execFflagsWrite s
  | .vstartWrite => Sys2Proof.Machine.execVstartWrite s
  | .clmodeWrite => Sys2Proof.Machine.execClmodeWrite s
  | .preqWrite => Sys2Proof.Machine.execPreqWrite s
  | .tswpWrite => Sys2Proof.Machine.execTswpWrite s
  | .registerWrite => Sys2Proof.Machine.execRegisterWrite s
  | .vectorCourse => Sys2Proof.Machine.execVectorCourse s
  | .vectorEntryComplete => Sys2Proof.Machine.execVectorEntryComplete s
  | .readQueueReturn => Sys2Proof.Machine.execReadQueueReturn s
  | .vectorFaultReport => Sys2Proof.Machine.execVectorFaultReport s
  | .scalarFaultReport => Sys2Proof.Machine.execScalarFaultReport s
  | .decodeFault => Sys2Proof.Machine.execDecodeFault s
  | .exitPerform => Sys2Proof.Machine.execExitPerform s
  | .xretResume => Sys2Proof.Machine.execXretResume s
  | .yieldEnd => Sys2Proof.Machine.execYieldEnd s
  | .ffStallEnd => Sys2Proof.Machine.execFfStallEnd s
  | .leafAllocRetry => Sys2Proof.Machine.execLeafAllocRetry s
  | .reclaimStep => Sys2Proof.Machine.execReclaimStep s
  | .watermarkWaitEnd => Sys2Proof.Machine.execWatermarkWaitEnd s
  | .barrierPhaseComplete => Sys2Proof.Machine.execBarrierPhaseComplete s
  | .leaveGrant => Sys2Proof.Machine.execLeaveGrant s
  | .powerBudgetSet => Sys2Proof.Machine.execPowerBudgetSet s
  | .powcapSet => Sys2Proof.Machine.execPowcapSet s
  | .casPriorityExpiry => Sys2Proof.Machine.execCasPriorityExpiry s
  | .memoryAccessComplete => Sys2Proof.Machine.execMemoryAccessComplete s
  | .copyRow => Sys2Proof.Machine.execCopyRow s
  | .tileEntryExecute => Sys2Proof.Machine.execTileEntryExecute s
  | .patternLoadBind => Sys2Proof.Machine.execPatternLoadBind s
  | .queueBind => Sys2Proof.Machine.execQueueBind s
  | .packetAccept => Sys2Proof.Machine.execPacketAccept s
  | .queueLinkPoll => Sys2Proof.Machine.execQueueLinkPoll s
  | .packetReadRetry => Sys2Proof.Machine.execPacketReadRetry s
  | .launchStart => Sys2Proof.Machine.execLaunchStart s
  | .coreAssign => Sys2Proof.Machine.execCoreAssign s
  | .iterationHandout => Sys2Proof.Machine.execIterationHandout s
  | .gangShareStart => Sys2Proof.Machine.execGangShareStart s
  | .gangClusterChoice => Sys2Proof.Machine.execGangClusterChoice s
  | .launchAgeing => Sys2Proof.Machine.execLaunchAgeing s
  | .launchPreempt => Sys2Proof.Machine.execLaunchPreempt s
  | .launchComplete => Sys2Proof.Machine.execLaunchComplete s
  | .coreSave => Sys2Proof.Machine.execCoreSave s
  | .coreRestore => Sys2Proof.Machine.execCoreRestore s
  | .contextSwapOut => Sys2Proof.Machine.execContextSwapOut s
  | .contextSwapIn => Sys2Proof.Machine.execContextSwapIn s
  | .containment => Sys2Proof.Machine.execContainment s
  | .tlbInvalidate => Sys2Proof.Machine.execTlbInvalidate s
  | .tlbInvalidateComplete => Sys2Proof.Machine.execTlbInvalidateComplete s
  | .pageWalk => Sys2Proof.Machine.execPageWalk s
  | .demandPageMap => Sys2Proof.Machine.execDemandPageMap s
  | .flitReceive => Sys2Proof.Machine.execFlitReceive s
  | .flitReplay => Sys2Proof.Machine.execFlitReplay s
  | .linkDown => Sys2Proof.Machine.execLinkDown s
  | .linkRetrain => Sys2Proof.Machine.execLinkRetrain s
  | .linkRetire => Sys2Proof.Machine.execLinkRetire s
  | .hostLinkError => Sys2Proof.Machine.execHostLinkError s
  | .deviceReset => Sys2Proof.Machine.execDeviceReset s
  | .rollbackRaise => Sys2Proof.Machine.execRollbackRaise s
  | .attestationRequest => Sys2Proof.Machine.execAttestationRequest s
  | .correctedError => Sys2Proof.Machine.execCorrectedError s
  | .patrolScrub => Sys2Proof.Machine.execPatrolScrub s
  | .linePoison => Sys2Proof.Machine.execLinePoison s
  | .scratchpadPoison => Sys2Proof.Machine.execScratchpadPoison s
  | .leafError => Sys2Proof.Machine.execLeafError s
  | .leafErrorCountClear => Sys2Proof.Machine.execLeafErrorCountClear s
  | .freeListRebuild => Sys2Proof.Machine.execFreeListRebuild s
  | .channelRetire => Sys2Proof.Machine.execChannelRetire s
  | .healthBlockUpdate => Sys2Proof.Machine.execHealthBlockUpdate s
  | .scrubPassCheck => Sys2Proof.Machine.execScrubPassCheck s
  | .hostBarAccess => Sys2Proof.Machine.execHostBarAccess s
  | .contextCreate => Sys2Proof.Machine.execContextCreate s
  | .contextDestroy => Sys2Proof.Machine.execContextDestroy s
  | .debuggerResume => Sys2Proof.Machine.execDebuggerResume s
  | .ethernetFrameReceive => Sys2Proof.Machine.execEthernetFrameReceive s
  | .uncorrectableStructureError => Sys2Proof.Machine.execUncorrectableStructureError s

end Sys2Proof.Machine
end

