-- ==== Sys2Proof/Machine/Fetch.lean ====
section
/-!
DEFINITION. Fetching a thread's parcels and running the instruction they hold (R88 to R90, R112, R138, R352).
-/

namespace Sys2Proof.Machine

/-- One parcel at an address (R89, R137, R352): the fetch's fault, if it has one, and the state with a violation
response recorded. A violation response delivers no parcel and raises protection. -/
def fetchParcel (s : State) (t : Tid) (va : Word) : State × Except FaultInfo Nat :=
  match accessTarget s (partyOf s t) va 4 4 .fetch with
  | .error f => (s, .error f)
  | .ok tg =>
    match currentTarget s tg with
    | .violation c => (threadViolation s t va c, .error (causeInfo 0x07 va.toNat))
    | tg' => (s, .ok (tgtRead s tg' 4))

/-- The thread stands at instruction B of a pair (R90). -/
def atHalfB (th : Thread) : Bool := decide (th.pc.toNat % 4 = 2)

/-- A thread may issue: it runs, waits for nothing, reports no fault, and is not asked to stop, which it never is
between A and B of a pair (R90, R128, R349, R362). -/
def canIssue (th : Thread) : Bool :=
  decide (th.tstate = .running) && decide (th.wait = .none) && decide (th.pend = none) && (!th.preq || atHalfB th)

/-- The parcel that the thread executes, as a report of an illegal instruction holds it (R356). -/
def withIr (s : State) (t : Tid) (w : Nat) : State := updThread s t fun th => { th with ir := BitVec.ofNat 32 w }

/-- Execute what the parcels at the pc hold (R88 to R90, R112); an XRET that leads to instruction B of a parcel that is
no pair is illegal. -/
def runParcels (s : State) (w0 w1 : Nat) : Out :=
  match decodeAt w0 w1 (atHalfB (getThread s s.cur)) with
  | .error _ => illegal s s.cur
  | .ok (i, _) => exec i s

/-- Fetch and execute one instruction of the current thread. -/
def fetchRun (s : State) : Out :=
  let t := s.cur
  let th := getThread s t
  let p := parcelAddr th.pc
  let r := fetchParcel s t p
  match r.2 with
  | .error f => raise r.1 t f false
  | .ok w0 =>
    if isPrefix w0 && !atHalfB th then
      let r2 := fetchParcel r.1 t (p + 4)
      match r2.2 with
      | .error f => raise r2.1 t f false
      | .ok w1 => runParcels (withIr r2.1 t w0) w0 w1
    else runParcels (withIr r.1 t w0) w0 0

end Sys2Proof.Machine
end

