-- ==== Sys2Proof/Machine/Turn.lean ====
section
/-!
DEFINITION. The order in which the device takes its turns (log 1): the agenda first, then the current thread's next
instruction, then what the device does by itself.
-/

namespace Sys2Proof.Machine

/-- The place of the first access of a thread that may be performed. -/
def firstPerformable (s : State) (t : Tid) : List Access → Nat → Nat
  | [], k => k
  | a :: r, k => if performable s t a then k else firstPerformable s t r (k + 1)

/-- A thread at a barrier (R259). -/
def barrierTurn (s : State) (t : Tid) : State :=
  match (getThread s t).wait with
  | .barrier n => barrierStep s t n
  | _ => s

/-- What happens to a thread without an instruction of its own. -/
def threadTurn (s : State) (t : Tid) : State :=
  let s1 := accessStep s t (firstPerformable s t (getThread s t).out 0)
  let s2 := pendingFault (pendingFault s1 t false) t true
  let s3 := courseStep (returnStep (completeStep (faultStep s2 t) t) t) t 0
  let s4 := exitStep (xretStep s3 t) t
  let s5 := endWait (endWait s4 t .yield true) t .firstFault (!ffPending (getThread s4 t))
  barrierTurn (watermarkStep s5 t) t

/-- What happens in a thread's core and cluster. -/
def coreTurn (s : State) (t : Tid) : State :=
  let cl := clusterOf t
  let co := coreOf t
  let s1 := ([0, 1, 2, 3] : List (Fin 4)).foldl (fun s q => copyStep s cl co q) s
  grantLeave (tileStepRecorded (updCore s1 cl co reclaimStep) cl) cl

/-- What the front ends do for one core (R340 to R342). -/
def assignTurn (s : State) (p : Fin 64 × Fin 8) : State :=
  ([0, 1, 2, 3] : List (Fin 4)).foldl (fun s h => handoutStep s p.1 p.2 h) (assignStep s p.1 p.2)

/-- Every cluster, and every core with its cluster. -/
def allClusters : List (Fin 64) := (upFrom 0 64).map (Fin.ofNat 64)
/-- Every core with its cluster. -/
def everyCore : List (Fin 64 × Fin 8) := allClusters.flatMap fun cl => allCores.map fun co => (cl, co)

/-- What the front ends do with the launches (R332 to R345). -/
def frontTurn (s : State) : State :=
  let qs := s.queues.map fun p => p.1
  let s1 := qs.foldl (fun s n => acceptStep (acceptStep s n true) n false) s
  if s1.launches.isEmpty then s1
  else
    let s2 := ([0, 1, 2, 3] : List Nat).foldl launchStartStep s1
    let s3 := allClusters.foldl gangStartStep (gangChoiceStep s2)
    qs.foldl launchDoneStep (everyCore.foldl assignTurn s3)

/-- The listed thread after a given one, in turn. -/
def nextTid (s : State) (t : Tid) : Tid :=
  let l := listedTids s
  ((l.find? fun x => decide (tidKey t < tidKey x)).orElse fun _ => l.head?).getD t

/-- The device by itself, for one turn: it boots (R376), or the current thread, its core and the front ends go on; then
the next thread's turn comes. -/
def tick (s : State) : State :=
  if s.root.boot = .reset then resetStep s
  else
    let s1 := frontTurn (peerTurn (coreTurn (threadTurn s s.cur) s.cur))
    { s1 with cur := nextTid s1 s1.cur, stalled := false }

/-- The device's turn comes next: no thread keeps the others, or its own outstanding accesses, waiting (R294, R296). -/
def yieldTurn (o : Out) : Out :=
  match o with
  | .next s => .next { s with stalled := true }
  | o => o

/-- The current thread's next instruction, unless it may not issue or has had its turn. -/
def threadNext (s : State) : Out :=
  if canIssue (getThread s s.cur) && !s.stalled then yieldTurn (fetchRun s) else .next (tick s)

/-- One entry of the agenda (log 1): a thread's instruction, or a device event. -/
def agendaTurn (s : State) (x : Turn) : Out :=
  match x with
  | .run t =>
    let s1 := { s with cur := t }
    if canIssue (getThread s1 t) then fetchRun s1 else .next s1
  | .event i a => if encode i = .event then exec i { s with ev := a } else .next s

end Sys2Proof.Machine
end

