-- ==== Sys2Proof/Machine/Place.lean ====
section
/-!
DEFINITION. A state in which a given instruction is the next one (log 12): a context with one executable page, a started
launch and a thread of it that stands at that page. It stands for what the host, the front ends and Usilaem do before a
program's first instruction (R331 to R341, R348).
-/

namespace Sys2Proof.Machine

/-- The context that the placed program runs in. -/
def placeCtx : Fin 4096 := 1
/-- The physical addresses of its four tables (R350) and of its code page, which has the same virtual address. -/
def placeRoot : Nat := 0x10000
def placeTable1 : Nat := 0x20000
def placeTable2 : Nat := 0x21000
def placeTable3 : Nat := 0x22000
def placeCode : Nat := 0x30000

/-- The kernel header of the launch: every register, all leaves and all of a scratchpad (R337). -/
def placeHeader : Header :=
  { nv := 32, nm := 48, nbar := 0, tpc := 4, lbud := Config.poolLeaves, spad := Config.spadBytes, mccent := 0, pats := 0
    barcnt := 0, stack := 0 }

/-- The launch: one iteration, started (R334). -/
def placeLaunch : Launch :=
  { queue := 0, ctx := placeCtx, seq := 0, entry := BitVec.ofNat 64 placeCode, hdrVa := 0, hdr := placeHeader, n := 1, c := 1
    o1 := 1, o2 := 1, order := false, gang := false, preempt := false, irq := false, args := [], stages := 1, soff := []
    wmbase := 0, wmclr := 0, level0 := 0, level := 0, waits := [], st := .started, shares := [], partials := []
    gangWaiting := [], gangChosen := [], mccStarted := [], startedAt := 0 }

/-- Device memory with the tables and the instruction (R350, R351). -/
def placeMemory (m : Memory) (bytes : List Byte) : Memory :=
  let m1 := memWrite m placeRoot 8 (placeTable1 + 1)
  let m2 := memWrite m1 placeTable1 8 (placeTable2 + 1)
  let m3 := memWrite m2 placeTable2 8 (placeTable3 + 1)
  let m4 := memWrite m3 (placeTable3 + 8 * 0x30) 8 (placeCode + 0x2B)
  memWriteBytes m4 placeCode bytes

/-- The lines that the placed program reads, and its root table's line. -/
def placeLines : List Nat :=
  [placeRoot / 64, placeTable1 / 64, placeTable2 / 64, placeTable3 / 64 + 6, placeCode / 64]

/-- The thread that runs the instruction: the cluster's MCC for a MATRIX form, else a thread of a vector core. -/
def placeTid (t : Tid) (first : Nat) : Tid :=
  if isPrefix first && decide (first / 2 ^ 26 = 0x2D) then .mcc (clusterOf t) else .vec (clusterOf t) (coreOf t) (threadOf t)

/-- The thread at the instruction. -/
def placeThread (th : Thread) (key first : Nat) : Thread :=
  { th with
    pc := BitVec.ofNat 64 placeCode, ir := BitVec.ofNat 32 first, lbud := Config.poolLeaves, budget := Config.poolLeaves
    hdrLbud := Config.poolLeaves, nv := 32, nm := 48, maxvl := maxvlOf Config.poolLeaves 32 1 1, pend := none
    pendDecode := false, tstate := .running, ctx := placeCtx, preq := false, wait := .none, launch := some key }

/-- The context table entry (R348). -/
def placeContext : Context := { Context.reset with valid := true, res := true, ptroot := placeRoot, spbase := BitVec.ofNat 64 (2 ^ 40) }

/-- The state in which the instruction with the given bytes is the next one. -/
def placeWord (s : State) (bytes : List Byte) : State :=
  let m := placeMemory s.mem bytes
  let first := memRead m placeCode 4
  let t := placeTid s.cur first
  let key := s.nextLaunch
  let s1 : State :=
    { s with
      agenda := [], stalled := false, cur := t, mem := m
      poisonLines := s.poisonLines.filter fun l => !placeLines.contains l
      launches := mapPut s.launches key placeLaunch, nextLaunch := key + 1
      root := { s.root with boot := .running } }
  let s2 := putCtx s1 placeCtx placeContext
  let s3 := updCore s2 (clusterOf t) (coreOf t) fun c => { c with tlb := [], launch := some key, lastCtx := some placeCtx }
  let s4 := updCluster s3 (clusterOf t) fun c => { c with tlb := [], mccLaunch := if isMcc t then some key else c.mccLaunch }
  updThread s4 t fun th => placeThread th key first

end Sys2Proof.Machine
end

