-- ==== Sys2Proof/Machine/Step.lean ====
section
/-!
DEFINITION. One step of the device.
-/

namespace Sys2Proof.Machine

/-- One step (log 1): the head of the agenda, or with an empty agenda the current thread's instruction or the device's own
turn. -/
def step (s : State) : Host.Outcome State Fault Refusal :=
  match s.agenda with
  | x :: r => agendaTurn { s with agenda := r, stalled := false } x
  | [] => threadNext s

/-- A state in which the next step fetches and runs the given instruction, on a thread that may run it (log 12). -/
def State.withFetchWord (s : State) (nbits w : Nat) : State := placeWord s (tableBytes nbits w)

end Sys2Proof.Machine
end

