-- ==== Sys2Proof/Laws/PerInstr.lean ====
section
/-!
SUPPORT. Statements about every instruction, one lemma for each constructor of Instr. The family RoundTrip: what encode
writes, the decoder reads back.
-/

set_option Elab.async false
set_option maxRecDepth 4096

namespace Sys2Proof.Laws

/-- A parcel below 2^32 that the decoder reads as the instruction, whatever follows it. -/
def WordBack (i : Instr) (w : Nat) : Prop := w < 2 ^ 32 ∧ ∀ w1, decodeAt w w1 false = .ok (i, 4)

/-- Two parcels that the decoder reads as the instruction. -/
def LongBack (i : Instr) (w0 w1 : Nat) : Prop :=
  w0 < 2 ^ 32 ∧ w1 < 2 ^ 32 ∧ decodeAt w0 w1 false = .ok (i, 8)

/-- A half that the decoder reads as the instruction in either place of a pair, whatever stands in the other (R90). -/
def HalfBack (i : Instr) (h : Nat) : Prop :=
  h < 2 ^ 15 ∧ (∀ g w1, g < 2 ^ 15 → decodeAt (3 * 2 ^ 30 + h * 2 ^ 15 + g) w1 false = .ok (i, 2)) ∧
    ∀ g w1, g < 2 ^ 15 → decodeAt (3 * 2 ^ 30 + g * 2 ^ 15 + h) w1 true = .ok (i, 2)

/-- What encode writes for an instruction, the decoder reads back. -/
def RoundTrip.Statement (i : Instr) : Prop :=
  i.wf = true →
    match encode i with
    | .word w => WordBack i w
    | .long w0 w1 => LongBack i w0 w1
    | .half h => HalfBack i h
    | .event => True

theorem field_bound {v r lo n : Nat} (hr : r < 2 ^ lo) (hv : v < 2 ^ n) : v * 2 ^ lo + r < 2 ^ (lo + n) := by
  have h : (v + 1) * 2 ^ lo ≤ 2 ^ n * 2 ^ lo := Nat.mul_le_mul_right _ hv
  rw [Nat.pow_add, Nat.mul_comm (2 ^ lo)]
  rw [Nat.add_mul, Nat.one_mul] at h
  omega

theorem field_hit {v r lo n : Nat} (hr : r < 2 ^ lo) (hv : v < 2 ^ n) : (v * 2 ^ lo + r) / 2 ^ lo % 2 ^ n = v := by
  rw [Nat.add_comm, Nat.add_mul_div_right _ _ (Nat.two_pow_pos lo), Nat.div_eq_of_lt hr, Nat.zero_add,
    Nat.mod_eq_of_lt hv]

theorem field_skip {v r lo k n x : Nat} (h : k + n ≤ lo) (hr : r / 2 ^ k % 2 ^ n = x) :
    (v * 2 ^ lo + r) / 2 ^ k % 2 ^ n = x := by
  obtain ⟨j, rfl⟩ := Nat.exists_eq_add_of_le h
  have e : v * 2 ^ (k + n + j) + r = r + (v * 2 ^ j * 2 ^ n) * 2 ^ k := by ring
  rw [e, Nat.add_mul_div_right _ _ (Nat.two_pow_pos k), Nat.add_mul_mod_self_right, hr]

theorem field_skip_low {v r lo n x : Nat} (h : n ≤ lo) (hr : r % 2 ^ n = x) : (v * 2 ^ lo + r) % 2 ^ n = x := by
  have := field_skip (v := v) (r := r) (lo := lo) (k := 0) (n := n) (x := x) (by omega) (by simpa using hr)
  simpa using this

theorem other_value {a v k : Nat} (h : a = v) (hne : v ≠ k) : ¬ a = k := fun c => hne (h.symm.trans c)

theorem sub_field {w lo n v : Nat} (j i : Nat) (h : w / 2 ^ lo % 2 ^ n = v) (hn : j + i ≤ n) :
    w / 2 ^ (lo + j) % 2 ^ i = v / 2 ^ j % 2 ^ i := by
  obtain ⟨k, rfl⟩ := Nat.exists_eq_add_of_le hn
  have e : 2 ^ (j + i + k) = 2 ^ j * (2 ^ i * 2 ^ k) := by ring
  rw [← h, e, Nat.mod_mul_right_div_self, Nat.mod_mod_of_dvd _ (Nat.dvd_mul_right _ _), Nat.div_div_eq_div_mul,
    Nat.pow_add]

theorem sub_field_low {w n v : Nat} (j i : Nat) (h : w % 2 ^ n = v) (hn : j + i ≤ n) :
    w / 2 ^ j % 2 ^ i = v / 2 ^ j % 2 ^ i := by
  have := sub_field (w := w) (lo := 0) (n := n) (v := v) j i (by simpa using h) hn
  simpa using this

theorem low_field {w n v : Nat} (i : Nat) (h : w % 2 ^ n = v) (hi : i ≤ n) : w % 2 ^ i = v % 2 ^ i := by
  rw [← h, Nat.mod_mod_of_dvd _ (Nat.pow_dvd_pow 2 hi)]

theorem fin32_eq {n : Nat} (d : Reg) (h : n % 2 ^ 5 = d.val) : fin32 n = d := Fin.ext h
theorem fin64_eq {n : Nat} (d : MaskF) (h : n % 2 ^ 6 = d.val) : fin64 n = d := Fin.ext h
theorem finOf_eq {n k : Nat} [NeZero k] (d : Fin k) (h : n % k = d.val) : Fin.ofNat k n = d := Fin.ext h
theorem bvOf_eq {n k : Nat} (d : BitVec k) (h : n % 2 ^ k = d.toNat) : BitVec.ofNat k n = d :=
  BitVec.eq_of_toNat_eq (by rw [BitVec.toNat_ofNat, h])
theorem bit1_eq {n : Nat} (b : Bool) (h : n % 2 ^ 1 = b.toNat) : bit1 n = b := by
  have h' : n % 2 = b.toNat := h
  cases b <;> simp [bit1, h']
theorem bool_lt (b : Bool) : b.toNat < 2 ^ 1 := b.toNat_lt

/-- A parcel of one 32-bit instruction. -/
theorem word_back {i : Instr} {w m : Nat} (hb : w < 2 ^ 32) (hm : w / 2 ^ 26 % 2 ^ 6 = m) (h0 : m ≠ 0) (h1 : m < 0x2D)
    (hd : decodeMajor w = some i) (hw : i.wf = true) : WordBack i w := by
  refine ⟨hb, fun w1 => ?_⟩
  have hp : isPair w = false := by simp only [isPair, decide_eq_false_iff_not]; omega
  have hq : isPrefix w = false := by
    simp only [isPrefix, Bool.or_eq_false_iff, decide_eq_false_iff_not]; omega
  have hz : ¬ w / 2 ^ 26 % 2 ^ 6 = 0 := by omega
  simp only [decodeAt, hp, hq, decodeWord, if_neg hz, hd, checkWf, hw]
  rfl

theorem word_eq {i : Instr} {w w' : Nat} (e : w = w') (h : WordBack i w') : WordBack i w := e ▸ h

theorem long_eq {i : Instr} {w0 w1 x0 x1 : Nat} (e0 : w0 = x0) (e1 : w1 = x1) (h : LongBack i x0 x1) :
    LongBack i w0 w1 := e0 ▸ e1 ▸ h

/-- Two parcels of a 64-bit form. -/
theorem long_back {i : Instr} {w0 w1 : Nat} (hb : w0 < 2 ^ 32) (hc : w1 < 2 ^ 32)
    (hm : w0 / 2 ^ 26 % 2 ^ 6 = 0x2D ∨ w0 / 2 ^ 26 % 2 ^ 6 = 0x2E) (hd : decodeLong w0 w1 = .ok i) :
    LongBack i w0 w1 := by
  refine ⟨hb, hc, ?_⟩
  have hp : isPair w0 = false := by simp only [isPair, decide_eq_false_iff_not]; omega
  have hq : isPrefix w0 = true := by
    simp only [isPrefix, Bool.or_eq_true, decide_eq_true_eq]; omega
  simp only [decodeAt, hp, hq, hd]
  rfl

theorem matrix_back {i : Instr} {w0 w1 : Nat} (hb : w0 < 2 ^ 32) (hc : w1 < 2 ^ 32)
    (hm : w0 / 2 ^ 26 % 2 ^ 6 = 0x2D) (hd : decodeMatrix w0 w1 = some i) (hw : i.wf = true) : LongBack i w0 w1 :=
  long_back hb hc (.inl hm) (by simp only [decodeLong, hm, hd, checkWf, hw]; rfl)

theorem copy_back {i : Instr} {w0 w1 : Nat} (hb : w0 < 2 ^ 32) (hc : w1 < 2 ^ 32)
    (hm : w0 / 2 ^ 26 % 2 ^ 6 = 0x2E) (hd : decodeCopy w0 w1 = some i) (hw : i.wf = true) : LongBack i w0 w1 :=
  long_back hb hc (.inr hm) (by simp only [decodeLong, hm, hd, checkWf, hw]; rfl)

/-- A compressed half in both places. -/
theorem half_back {i : Instr} {h : Nat} (hb : h < 2 ^ 15) (hd : decodeHalf h = .ok i) : HalfBack i h := by
  refine ⟨hb, fun g w1 hg => ?_, fun g w1 hg => ?_⟩
  · have hp : isPair (3 * 2 ^ 30 + h * 2 ^ 15 + g) = true := by simp only [isPair, decide_eq_true_eq]; omega
    have ha : halfA (3 * 2 ^ 30 + h * 2 ^ 15 + g) = h := by simp only [halfA]; omega
    simp only [decodeAt, hp, ha, hd]
    rfl
  · have hp : isPair (3 * 2 ^ 30 + g * 2 ^ 15 + h) = true := by simp only [isPair, decide_eq_true_eq]; omega
    have ha : halfB (3 * 2 ^ 30 + g * 2 ^ 15 + h) = h := by simp only [halfB]; omega
    simp only [decodeAt, hp, ha, hd]
    rfl

theorem major_01 {w : Nat} (h : w / 2 ^ 26 % 2 ^ 6 = 1) : decodeMajor w = decodeInt w := by
  simp only [decodeMajor, h]

theorem major_02 {w : Nat} (h : w / 2 ^ 26 % 2 ^ 6 = 2) : decodeMajor w = decodeAddi w := by
  simp only [decodeMajor, h]

theorem major_03 {w : Nat} (h : w / 2 ^ 26 % 2 ^ 6 = 3) : decodeMajor w = decodeAndi w := by
  simp only [decodeMajor, h]

theorem major_04 {w : Nat} (h : w / 2 ^ 26 % 2 ^ 6 = 4) : decodeMajor w = decodeOri w := by
  simp only [decodeMajor, h]

theorem major_05 {w : Nat} (h : w / 2 ^ 26 % 2 ^ 6 = 5) : decodeMajor w = decodeXori w := by
  simp only [decodeMajor, h]

theorem major_06 {w : Nat} (h : w / 2 ^ 26 % 2 ^ 6 = 6) : decodeMajor w = decodeShifti w := by
  simp only [decodeMajor, h]

theorem major_07 {w : Nat} (h : w / 2 ^ 26 % 2 ^ 6 = 7) : decodeMajor w = decodeLim w := by
  simp only [decodeMajor, h]

theorem major_08 {w : Nat} (h : w / 2 ^ 26 % 2 ^ 6 = 8) : decodeMajor w = decodeSlti w := by
  simp only [decodeMajor, h]

theorem major_09 {w : Nat} (h : w / 2 ^ 26 % 2 ^ 6 = 9) : decodeMajor w = decodeSltni w := by
  simp only [decodeMajor, h]

theorem major_0a {w : Nat} (h : w / 2 ^ 26 % 2 ^ 6 = 10) : decodeMajor w = decodeFp w := by
  simp only [decodeMajor, h]

theorem major_0b {w : Nat} (h : w / 2 ^ 26 % 2 ^ 6 = 11) : decodeMajor w = decodeLd w := by
  simp only [decodeMajor, h]

theorem major_0c {w : Nat} (h : w / 2 ^ 26 % 2 ^ 6 = 12) : decodeMajor w = decodeSt w := by
  simp only [decodeMajor, h]

theorem major_0d {w : Nat} (h : w / 2 ^ 26 % 2 ^ 6 = 13) : decodeMajor w = decodeAmo w := by
  simp only [decodeMajor, h]

theorem major_0e {w : Nat} (h : w / 2 ^ 26 % 2 ^ 6 = 14) : decodeMajor w = decodeCas w := by
  simp only [decodeMajor, h]

theorem major_0f {w : Nat} (h : w / 2 ^ 26 % 2 ^ 6 = 15) : decodeMajor w = decodeBc w := by
  simp only [decodeMajor, h]

theorem major_10 {w : Nat} (h : w / 2 ^ 26 % 2 ^ 6 = 16) : decodeMajor w = decodeJal w := by
  simp only [decodeMajor, h]

theorem major_11 {w : Nat} (h : w / 2 ^ 26 % 2 ^ 6 = 17) : decodeMajor w = decodeJr w := by
  simp only [decodeMajor, h]

theorem major_12 {w : Nat} (h : w / 2 ^ 26 % 2 ^ 6 = 18) : decodeMajor w = decodeJt w := by
  simp only [decodeMajor, h]

theorem major_13 {w : Nat} (h : w / 2 ^ 26 % 2 ^ 6 = 19) : decodeMajor w = decodeBstrip w := by
  simp only [decodeMajor, h]

theorem major_14 {w : Nat} (h : w / 2 ^ 26 % 2 ^ 6 = 20) : decodeMajor w = decodeSys w := by
  simp only [decodeMajor, h]

theorem major_15 {w : Nat} (h : w / 2 ^ 26 % 2 ^ 6 = 21) : decodeMajor w = decodeCsr w := by
  simp only [decodeMajor, h]

theorem major_16 {w : Nat} (h : w / 2 ^ 26 % 2 ^ 6 = 22) : decodeMajor w = decodeSync w := by
  simp only [decodeMajor, h]

theorem major_17 {w : Nat} (h : w / 2 ^ 26 % 2 ^ 6 = 23) : decodeMajor w = decodeVsetl w := by
  simp only [decodeMajor, h]

theorem major_18 {w : Nat} (h : w / 2 ^ 26 % 2 ^ 6 = 24) : decodeMajor w = decodeVsetlw w := by
  simp only [decodeMajor, h]

theorem major_19 {w : Nat} (h : w / 2 ^ 26 % 2 ^ 6 = 25) : decodeMajor w = decodeVintVV w := by
  simp only [decodeMajor, h]

theorem major_1a {w : Nat} (h : w / 2 ^ 26 % 2 ^ 6 = 26) : decodeMajor w = decodeVintVS w := by
  simp only [decodeMajor, h]

theorem major_1b {w : Nat} (h : w / 2 ^ 26 % 2 ^ 6 = 27) : decodeMajor w = decodeVintVI w := by
  simp only [decodeMajor, h]

theorem major_1c {w : Nat} (h : w / 2 ^ 26 % 2 ^ 6 = 28) : decodeMajor w = decodeVfpVV w := by
  simp only [decodeMajor, h]

theorem major_1d {w : Nat} (h : w / 2 ^ 26 % 2 ^ 6 = 29) : decodeMajor w = decodeVfpVS w := by
  simp only [decodeMajor, h]

theorem major_1e {w : Nat} (h : w / 2 ^ 26 % 2 ^ 6 = 30) : decodeMajor w = decodeVcmp w := by
  simp only [decodeMajor, h]

theorem major_1f {w : Nat} (h : w / 2 ^ 26 % 2 ^ 6 = 31) : decodeMajor w = decodeVred w := by
  simp only [decodeMajor, h]

theorem major_20 {w : Nat} (h : w / 2 ^ 26 % 2 ^ 6 = 32) : decodeMajor w = decodeVperm w := by
  simp only [decodeMajor, h]

theorem major_21 {w : Nat} (h : w / 2 ^ 26 % 2 ^ 6 = 33) : decodeMajor w = decodeVmask w := by
  simp only [decodeMajor, h]

theorem major_22 {w : Nat} (h : w / 2 ^ 26 % 2 ^ 6 = 34) : decodeMajor w = decodeVld w := by
  simp only [decodeMajor, h]

theorem major_23 {w : Nat} (h : w / 2 ^ 26 % 2 ^ 6 = 35) : decodeMajor w = decodeVlds w := by
  simp only [decodeMajor, h]

theorem major_24 {w : Nat} (h : w / 2 ^ 26 % 2 ^ 6 = 36) : decodeMajor w = decodeVldx w := by
  simp only [decodeMajor, h]

theorem major_25 {w : Nat} (h : w / 2 ^ 26 % 2 ^ 6 = 37) : decodeMajor w = decodeVst w := by
  simp only [decodeMajor, h]

theorem major_26 {w : Nat} (h : w / 2 ^ 26 % 2 ^ 6 = 38) : decodeMajor w = decodeVsts w := by
  simp only [decodeMajor, h]

theorem major_27 {w : Nat} (h : w / 2 ^ 26 % 2 ^ 6 = 39) : decodeMajor w = decodeVstx w := by
  simp only [decodeMajor, h]

theorem major_28 {w : Nat} (h : w / 2 ^ 26 % 2 ^ 6 = 40) : decodeMajor w = decodeVstxa w := by
  simp only [decodeMajor, h]

theorem major_29 {w : Nat} (h : w / 2 ^ 26 % 2 ^ 6 = 41) : decodeMajor w = decodeChain w := by
  simp only [decodeMajor, h]

theorem major_2a {w : Nat} (h : w / 2 ^ 26 % 2 ^ 6 = 42) : decodeMajor w = decodeColl w := by
  simp only [decodeMajor, h]

theorem major_2b {w : Nat} (h : w / 2 ^ 26 % 2 ^ 6 = 43) : decodeMajor w = decodeTile w := by
  simp only [decodeMajor, h]

theorem major_2c {w : Nat} (h : w / 2 ^ 26 % 2 ^ 6 = 44) : decodeMajor w = decodePat w := by
  simp only [decodeMajor, h]

namespace RoundTrip

theorem add (d : Reg) (a : Reg) (b : Reg) : Statement (Instr.add d a b) := fun hw => by
  have e : put 0x4000000 [(d.val, 21), (a.val, 16), (b.val, 11)] = 1 * 2 ^ 26 + (d.val * 2 ^ 21 + (a.val * 2 ^ 16 + (b.val * 2 ^ 11 + 0))) := by simp only [put]; omega
  have v4 : 0 < 2 ^ 11 := by decide
  have b4 := v4
  have v3 : b.val < 2 ^ 5 := b.isLt
  have b3 := field_bound (lo := 11) b4 v3
  have v2 : a.val < 2 ^ 5 := a.isLt
  have b2 := field_bound (lo := 16) b3 v2
  have v1 : d.val < 2 ^ 5 := d.isLt
  have b1 := field_bound (lo := 21) b2 v1
  have v0 : 1 < 2 ^ 6 := by decide
  have b0 := field_bound (lo := 26) b1 v0
  have f0 := field_hit (lo := 26) b1 v0
  have f1 := field_skip (v := 1) (lo := 26) (by decide) (field_hit (lo := 21) b2 v1)
  have f2 := field_skip (v := 1) (lo := 26) (by decide) (field_skip (v := d.val) (lo := 21) (by decide) (field_hit (lo := 16) b3 v2))
  have f3 := field_skip (v := 1) (lo := 26) (by decide) (field_skip (v := d.val) (lo := 21) (by decide) (field_skip (v := a.val) (lo := 16) (by decide) (field_hit (lo := 11) b4 v3)))
  have f4 := field_skip_low (v := 1) (lo := 26) (by decide) (field_skip_low (v := d.val) (lo := 21) (by decide) (field_skip_low (v := a.val) (lo := 16) (by decide) (field_skip_low (v := b.val) (lo := 11) (by decide) (Nat.mod_eq_of_lt v4))))
  refine word_eq e (word_back b0 f0 (by decide) (by decide) ((major_01 f0).trans ?_) hw)
  refine (if_pos f4).trans ?_
  rw [fin32_eq d f1, fin32_eq a f2, fin32_eq b f3]

theorem sub (d : Reg) (a : Reg) (b : Reg) : Statement (Instr.sub d a b) := fun hw => by
  have e : put 0x4000040 [(d.val, 21), (a.val, 16), (b.val, 11)] = 1 * 2 ^ 26 + (d.val * 2 ^ 21 + (a.val * 2 ^ 16 + (b.val * 2 ^ 11 + 64))) := by simp only [put]; omega
  have v4 : 64 < 2 ^ 11 := by decide
  have b4 := v4
  have v3 : b.val < 2 ^ 5 := b.isLt
  have b3 := field_bound (lo := 11) b4 v3
  have v2 : a.val < 2 ^ 5 := a.isLt
  have b2 := field_bound (lo := 16) b3 v2
  have v1 : d.val < 2 ^ 5 := d.isLt
  have b1 := field_bound (lo := 21) b2 v1
  have v0 : 1 < 2 ^ 6 := by decide
  have b0 := field_bound (lo := 26) b1 v0
  have f0 := field_hit (lo := 26) b1 v0
  have f1 := field_skip (v := 1) (lo := 26) (by decide) (field_hit (lo := 21) b2 v1)
  have f2 := field_skip (v := 1) (lo := 26) (by decide) (field_skip (v := d.val) (lo := 21) (by decide) (field_hit (lo := 16) b3 v2))
  have f3 := field_skip (v := 1) (lo := 26) (by decide) (field_skip (v := d.val) (lo := 21) (by decide) (field_skip (v := a.val) (lo := 16) (by decide) (field_hit (lo := 11) b4 v3)))
  have f4 := field_skip_low (v := 1) (lo := 26) (by decide) (field_skip_low (v := d.val) (lo := 21) (by decide) (field_skip_low (v := a.val) (lo := 16) (by decide) (field_skip_low (v := b.val) (lo := 11) (by decide) (Nat.mod_eq_of_lt v4))))
  refine word_eq e (word_back b0 f0 (by decide) (by decide) ((major_01 f0).trans ?_) hw)
  refine (if_neg (other_value f4 (by decide))).trans ?_
  refine (if_pos f4).trans ?_
  rw [fin32_eq d f1, fin32_eq a f2, fin32_eq b f3]

theorem mul (d : Reg) (a : Reg) (b : Reg) : Statement (Instr.mul d a b) := fun hw => by
  have e : put 0x4000080 [(d.val, 21), (a.val, 16), (b.val, 11)] = 1 * 2 ^ 26 + (d.val * 2 ^ 21 + (a.val * 2 ^ 16 + (b.val * 2 ^ 11 + 128))) := by simp only [put]; omega
  have v4 : 128 < 2 ^ 11 := by decide
  have b4 := v4
  have v3 : b.val < 2 ^ 5 := b.isLt
  have b3 := field_bound (lo := 11) b4 v3
  have v2 : a.val < 2 ^ 5 := a.isLt
  have b2 := field_bound (lo := 16) b3 v2
  have v1 : d.val < 2 ^ 5 := d.isLt
  have b1 := field_bound (lo := 21) b2 v1
  have v0 : 1 < 2 ^ 6 := by decide
  have b0 := field_bound (lo := 26) b1 v0
  have f0 := field_hit (lo := 26) b1 v0
  have f1 := field_skip (v := 1) (lo := 26) (by decide) (field_hit (lo := 21) b2 v1)
  have f2 := field_skip (v := 1) (lo := 26) (by decide) (field_skip (v := d.val) (lo := 21) (by decide) (field_hit (lo := 16) b3 v2))
  have f3 := field_skip (v := 1) (lo := 26) (by decide) (field_skip (v := d.val) (lo := 21) (by decide) (field_skip (v := a.val) (lo := 16) (by decide) (field_hit (lo := 11) b4 v3)))
  have f4 := field_skip_low (v := 1) (lo := 26) (by decide) (field_skip_low (v := d.val) (lo := 21) (by decide) (field_skip_low (v := a.val) (lo := 16) (by decide) (field_skip_low (v := b.val) (lo := 11) (by decide) (Nat.mod_eq_of_lt v4))))
  refine word_eq e (word_back b0 f0 (by decide) (by decide) ((major_01 f0).trans ?_) hw)
  iterate 2 refine (if_neg (other_value f4 (by decide))).trans ?_
  refine (if_pos f4).trans ?_
  rw [fin32_eq d f1, fin32_eq a f2, fin32_eq b f3]

theorem mulh (d : Reg) (a : Reg) (b : Reg) : Statement (Instr.mulh d a b) := fun hw => by
  have e : put 0x40000c0 [(d.val, 21), (a.val, 16), (b.val, 11)] = 1 * 2 ^ 26 + (d.val * 2 ^ 21 + (a.val * 2 ^ 16 + (b.val * 2 ^ 11 + 192))) := by simp only [put]; omega
  have v4 : 192 < 2 ^ 11 := by decide
  have b4 := v4
  have v3 : b.val < 2 ^ 5 := b.isLt
  have b3 := field_bound (lo := 11) b4 v3
  have v2 : a.val < 2 ^ 5 := a.isLt
  have b2 := field_bound (lo := 16) b3 v2
  have v1 : d.val < 2 ^ 5 := d.isLt
  have b1 := field_bound (lo := 21) b2 v1
  have v0 : 1 < 2 ^ 6 := by decide
  have b0 := field_bound (lo := 26) b1 v0
  have f0 := field_hit (lo := 26) b1 v0
  have f1 := field_skip (v := 1) (lo := 26) (by decide) (field_hit (lo := 21) b2 v1)
  have f2 := field_skip (v := 1) (lo := 26) (by decide) (field_skip (v := d.val) (lo := 21) (by decide) (field_hit (lo := 16) b3 v2))
  have f3 := field_skip (v := 1) (lo := 26) (by decide) (field_skip (v := d.val) (lo := 21) (by decide) (field_skip (v := a.val) (lo := 16) (by decide) (field_hit (lo := 11) b4 v3)))
  have f4 := field_skip_low (v := 1) (lo := 26) (by decide) (field_skip_low (v := d.val) (lo := 21) (by decide) (field_skip_low (v := a.val) (lo := 16) (by decide) (field_skip_low (v := b.val) (lo := 11) (by decide) (Nat.mod_eq_of_lt v4))))
  refine word_eq e (word_back b0 f0 (by decide) (by decide) ((major_01 f0).trans ?_) hw)
  iterate 3 refine (if_neg (other_value f4 (by decide))).trans ?_
  refine (if_pos f4).trans ?_
  rw [fin32_eq d f1, fin32_eq a f2, fin32_eq b f3]

theorem mulhn (d : Reg) (a : Reg) (b : Reg) : Statement (Instr.mulhn d a b) := fun hw => by
  have e : put 0x4000100 [(d.val, 21), (a.val, 16), (b.val, 11)] = 1 * 2 ^ 26 + (d.val * 2 ^ 21 + (a.val * 2 ^ 16 + (b.val * 2 ^ 11 + 256))) := by simp only [put]; omega
  have v4 : 256 < 2 ^ 11 := by decide
  have b4 := v4
  have v3 : b.val < 2 ^ 5 := b.isLt
  have b3 := field_bound (lo := 11) b4 v3
  have v2 : a.val < 2 ^ 5 := a.isLt
  have b2 := field_bound (lo := 16) b3 v2
  have v1 : d.val < 2 ^ 5 := d.isLt
  have b1 := field_bound (lo := 21) b2 v1
  have v0 : 1 < 2 ^ 6 := by decide
  have b0 := field_bound (lo := 26) b1 v0
  have f0 := field_hit (lo := 26) b1 v0
  have f1 := field_skip (v := 1) (lo := 26) (by decide) (field_hit (lo := 21) b2 v1)
  have f2 := field_skip (v := 1) (lo := 26) (by decide) (field_skip (v := d.val) (lo := 21) (by decide) (field_hit (lo := 16) b3 v2))
  have f3 := field_skip (v := 1) (lo := 26) (by decide) (field_skip (v := d.val) (lo := 21) (by decide) (field_skip (v := a.val) (lo := 16) (by decide) (field_hit (lo := 11) b4 v3)))
  have f4 := field_skip_low (v := 1) (lo := 26) (by decide) (field_skip_low (v := d.val) (lo := 21) (by decide) (field_skip_low (v := a.val) (lo := 16) (by decide) (field_skip_low (v := b.val) (lo := 11) (by decide) (Nat.mod_eq_of_lt v4))))
  refine word_eq e (word_back b0 f0 (by decide) (by decide) ((major_01 f0).trans ?_) hw)
  iterate 4 refine (if_neg (other_value f4 (by decide))).trans ?_
  refine (if_pos f4).trans ?_
  rw [fin32_eq d f1, fin32_eq a f2, fin32_eq b f3]

theorem div (d : Reg) (a : Reg) (b : Reg) : Statement (Instr.div d a b) := fun hw => by
  have e : put 0x4000140 [(d.val, 21), (a.val, 16), (b.val, 11)] = 1 * 2 ^ 26 + (d.val * 2 ^ 21 + (a.val * 2 ^ 16 + (b.val * 2 ^ 11 + 320))) := by simp only [put]; omega
  have v4 : 320 < 2 ^ 11 := by decide
  have b4 := v4
  have v3 : b.val < 2 ^ 5 := b.isLt
  have b3 := field_bound (lo := 11) b4 v3
  have v2 : a.val < 2 ^ 5 := a.isLt
  have b2 := field_bound (lo := 16) b3 v2
  have v1 : d.val < 2 ^ 5 := d.isLt
  have b1 := field_bound (lo := 21) b2 v1
  have v0 : 1 < 2 ^ 6 := by decide
  have b0 := field_bound (lo := 26) b1 v0
  have f0 := field_hit (lo := 26) b1 v0
  have f1 := field_skip (v := 1) (lo := 26) (by decide) (field_hit (lo := 21) b2 v1)
  have f2 := field_skip (v := 1) (lo := 26) (by decide) (field_skip (v := d.val) (lo := 21) (by decide) (field_hit (lo := 16) b3 v2))
  have f3 := field_skip (v := 1) (lo := 26) (by decide) (field_skip (v := d.val) (lo := 21) (by decide) (field_skip (v := a.val) (lo := 16) (by decide) (field_hit (lo := 11) b4 v3)))
  have f4 := field_skip_low (v := 1) (lo := 26) (by decide) (field_skip_low (v := d.val) (lo := 21) (by decide) (field_skip_low (v := a.val) (lo := 16) (by decide) (field_skip_low (v := b.val) (lo := 11) (by decide) (Nat.mod_eq_of_lt v4))))
  refine word_eq e (word_back b0 f0 (by decide) (by decide) ((major_01 f0).trans ?_) hw)
  iterate 5 refine (if_neg (other_value f4 (by decide))).trans ?_
  refine (if_pos f4).trans ?_
  rw [fin32_eq d f1, fin32_eq a f2, fin32_eq b f3]

theorem divn (d : Reg) (a : Reg) (b : Reg) : Statement (Instr.divn d a b) := fun hw => by
  have e : put 0x4000180 [(d.val, 21), (a.val, 16), (b.val, 11)] = 1 * 2 ^ 26 + (d.val * 2 ^ 21 + (a.val * 2 ^ 16 + (b.val * 2 ^ 11 + 384))) := by simp only [put]; omega
  have v4 : 384 < 2 ^ 11 := by decide
  have b4 := v4
  have v3 : b.val < 2 ^ 5 := b.isLt
  have b3 := field_bound (lo := 11) b4 v3
  have v2 : a.val < 2 ^ 5 := a.isLt
  have b2 := field_bound (lo := 16) b3 v2
  have v1 : d.val < 2 ^ 5 := d.isLt
  have b1 := field_bound (lo := 21) b2 v1
  have v0 : 1 < 2 ^ 6 := by decide
  have b0 := field_bound (lo := 26) b1 v0
  have f0 := field_hit (lo := 26) b1 v0
  have f1 := field_skip (v := 1) (lo := 26) (by decide) (field_hit (lo := 21) b2 v1)
  have f2 := field_skip (v := 1) (lo := 26) (by decide) (field_skip (v := d.val) (lo := 21) (by decide) (field_hit (lo := 16) b3 v2))
  have f3 := field_skip (v := 1) (lo := 26) (by decide) (field_skip (v := d.val) (lo := 21) (by decide) (field_skip (v := a.val) (lo := 16) (by decide) (field_hit (lo := 11) b4 v3)))
  have f4 := field_skip_low (v := 1) (lo := 26) (by decide) (field_skip_low (v := d.val) (lo := 21) (by decide) (field_skip_low (v := a.val) (lo := 16) (by decide) (field_skip_low (v := b.val) (lo := 11) (by decide) (Nat.mod_eq_of_lt v4))))
  refine word_eq e (word_back b0 f0 (by decide) (by decide) ((major_01 f0).trans ?_) hw)
  iterate 6 refine (if_neg (other_value f4 (by decide))).trans ?_
  refine (if_pos f4).trans ?_
  rw [fin32_eq d f1, fin32_eq a f2, fin32_eq b f3]

theorem rem (d : Reg) (a : Reg) (b : Reg) : Statement (Instr.rem d a b) := fun hw => by
  have e : put 0x40001c0 [(d.val, 21), (a.val, 16), (b.val, 11)] = 1 * 2 ^ 26 + (d.val * 2 ^ 21 + (a.val * 2 ^ 16 + (b.val * 2 ^ 11 + 448))) := by simp only [put]; omega
  have v4 : 448 < 2 ^ 11 := by decide
  have b4 := v4
  have v3 : b.val < 2 ^ 5 := b.isLt
  have b3 := field_bound (lo := 11) b4 v3
  have v2 : a.val < 2 ^ 5 := a.isLt
  have b2 := field_bound (lo := 16) b3 v2
  have v1 : d.val < 2 ^ 5 := d.isLt
  have b1 := field_bound (lo := 21) b2 v1
  have v0 : 1 < 2 ^ 6 := by decide
  have b0 := field_bound (lo := 26) b1 v0
  have f0 := field_hit (lo := 26) b1 v0
  have f1 := field_skip (v := 1) (lo := 26) (by decide) (field_hit (lo := 21) b2 v1)
  have f2 := field_skip (v := 1) (lo := 26) (by decide) (field_skip (v := d.val) (lo := 21) (by decide) (field_hit (lo := 16) b3 v2))
  have f3 := field_skip (v := 1) (lo := 26) (by decide) (field_skip (v := d.val) (lo := 21) (by decide) (field_skip (v := a.val) (lo := 16) (by decide) (field_hit (lo := 11) b4 v3)))
  have f4 := field_skip_low (v := 1) (lo := 26) (by decide) (field_skip_low (v := d.val) (lo := 21) (by decide) (field_skip_low (v := a.val) (lo := 16) (by decide) (field_skip_low (v := b.val) (lo := 11) (by decide) (Nat.mod_eq_of_lt v4))))
  refine word_eq e (word_back b0 f0 (by decide) (by decide) ((major_01 f0).trans ?_) hw)
  iterate 7 refine (if_neg (other_value f4 (by decide))).trans ?_
  refine (if_pos f4).trans ?_
  rw [fin32_eq d f1, fin32_eq a f2, fin32_eq b f3]

theorem remn (d : Reg) (a : Reg) (b : Reg) : Statement (Instr.remn d a b) := fun hw => by
  have e : put 0x4000200 [(d.val, 21), (a.val, 16), (b.val, 11)] = 1 * 2 ^ 26 + (d.val * 2 ^ 21 + (a.val * 2 ^ 16 + (b.val * 2 ^ 11 + 512))) := by simp only [put]; omega
  have v4 : 512 < 2 ^ 11 := by decide
  have b4 := v4
  have v3 : b.val < 2 ^ 5 := b.isLt
  have b3 := field_bound (lo := 11) b4 v3
  have v2 : a.val < 2 ^ 5 := a.isLt
  have b2 := field_bound (lo := 16) b3 v2
  have v1 : d.val < 2 ^ 5 := d.isLt
  have b1 := field_bound (lo := 21) b2 v1
  have v0 : 1 < 2 ^ 6 := by decide
  have b0 := field_bound (lo := 26) b1 v0
  have f0 := field_hit (lo := 26) b1 v0
  have f1 := field_skip (v := 1) (lo := 26) (by decide) (field_hit (lo := 21) b2 v1)
  have f2 := field_skip (v := 1) (lo := 26) (by decide) (field_skip (v := d.val) (lo := 21) (by decide) (field_hit (lo := 16) b3 v2))
  have f3 := field_skip (v := 1) (lo := 26) (by decide) (field_skip (v := d.val) (lo := 21) (by decide) (field_skip (v := a.val) (lo := 16) (by decide) (field_hit (lo := 11) b4 v3)))
  have f4 := field_skip_low (v := 1) (lo := 26) (by decide) (field_skip_low (v := d.val) (lo := 21) (by decide) (field_skip_low (v := a.val) (lo := 16) (by decide) (field_skip_low (v := b.val) (lo := 11) (by decide) (Nat.mod_eq_of_lt v4))))
  refine word_eq e (word_back b0 f0 (by decide) (by decide) ((major_01 f0).trans ?_) hw)
  iterate 8 refine (if_neg (other_value f4 (by decide))).trans ?_
  refine (if_pos f4).trans ?_
  rw [fin32_eq d f1, fin32_eq a f2, fin32_eq b f3]

theorem and (d : Reg) (a : Reg) (b : Reg) : Statement (Instr.and d a b) := fun hw => by
  have e : put 0x4000240 [(d.val, 21), (a.val, 16), (b.val, 11)] = 1 * 2 ^ 26 + (d.val * 2 ^ 21 + (a.val * 2 ^ 16 + (b.val * 2 ^ 11 + 576))) := by simp only [put]; omega
  have v4 : 576 < 2 ^ 11 := by decide
  have b4 := v4
  have v3 : b.val < 2 ^ 5 := b.isLt
  have b3 := field_bound (lo := 11) b4 v3
  have v2 : a.val < 2 ^ 5 := a.isLt
  have b2 := field_bound (lo := 16) b3 v2
  have v1 : d.val < 2 ^ 5 := d.isLt
  have b1 := field_bound (lo := 21) b2 v1
  have v0 : 1 < 2 ^ 6 := by decide
  have b0 := field_bound (lo := 26) b1 v0
  have f0 := field_hit (lo := 26) b1 v0
  have f1 := field_skip (v := 1) (lo := 26) (by decide) (field_hit (lo := 21) b2 v1)
  have f2 := field_skip (v := 1) (lo := 26) (by decide) (field_skip (v := d.val) (lo := 21) (by decide) (field_hit (lo := 16) b3 v2))
  have f3 := field_skip (v := 1) (lo := 26) (by decide) (field_skip (v := d.val) (lo := 21) (by decide) (field_skip (v := a.val) (lo := 16) (by decide) (field_hit (lo := 11) b4 v3)))
  have f4 := field_skip_low (v := 1) (lo := 26) (by decide) (field_skip_low (v := d.val) (lo := 21) (by decide) (field_skip_low (v := a.val) (lo := 16) (by decide) (field_skip_low (v := b.val) (lo := 11) (by decide) (Nat.mod_eq_of_lt v4))))
  refine word_eq e (word_back b0 f0 (by decide) (by decide) ((major_01 f0).trans ?_) hw)
  iterate 9 refine (if_neg (other_value f4 (by decide))).trans ?_
  refine (if_pos f4).trans ?_
  rw [fin32_eq d f1, fin32_eq a f2, fin32_eq b f3]

theorem or (d : Reg) (a : Reg) (b : Reg) : Statement (Instr.or d a b) := fun hw => by
  have e : put 0x4000280 [(d.val, 21), (a.val, 16), (b.val, 11)] = 1 * 2 ^ 26 + (d.val * 2 ^ 21 + (a.val * 2 ^ 16 + (b.val * 2 ^ 11 + 640))) := by simp only [put]; omega
  have v4 : 640 < 2 ^ 11 := by decide
  have b4 := v4
  have v3 : b.val < 2 ^ 5 := b.isLt
  have b3 := field_bound (lo := 11) b4 v3
  have v2 : a.val < 2 ^ 5 := a.isLt
  have b2 := field_bound (lo := 16) b3 v2
  have v1 : d.val < 2 ^ 5 := d.isLt
  have b1 := field_bound (lo := 21) b2 v1
  have v0 : 1 < 2 ^ 6 := by decide
  have b0 := field_bound (lo := 26) b1 v0
  have f0 := field_hit (lo := 26) b1 v0
  have f1 := field_skip (v := 1) (lo := 26) (by decide) (field_hit (lo := 21) b2 v1)
  have f2 := field_skip (v := 1) (lo := 26) (by decide) (field_skip (v := d.val) (lo := 21) (by decide) (field_hit (lo := 16) b3 v2))
  have f3 := field_skip (v := 1) (lo := 26) (by decide) (field_skip (v := d.val) (lo := 21) (by decide) (field_skip (v := a.val) (lo := 16) (by decide) (field_hit (lo := 11) b4 v3)))
  have f4 := field_skip_low (v := 1) (lo := 26) (by decide) (field_skip_low (v := d.val) (lo := 21) (by decide) (field_skip_low (v := a.val) (lo := 16) (by decide) (field_skip_low (v := b.val) (lo := 11) (by decide) (Nat.mod_eq_of_lt v4))))
  refine word_eq e (word_back b0 f0 (by decide) (by decide) ((major_01 f0).trans ?_) hw)
  iterate 10 refine (if_neg (other_value f4 (by decide))).trans ?_
  refine (if_pos f4).trans ?_
  rw [fin32_eq d f1, fin32_eq a f2, fin32_eq b f3]

theorem xor (d : Reg) (a : Reg) (b : Reg) : Statement (Instr.xor d a b) := fun hw => by
  have e : put 0x40002c0 [(d.val, 21), (a.val, 16), (b.val, 11)] = 1 * 2 ^ 26 + (d.val * 2 ^ 21 + (a.val * 2 ^ 16 + (b.val * 2 ^ 11 + 704))) := by simp only [put]; omega
  have v4 : 704 < 2 ^ 11 := by decide
  have b4 := v4
  have v3 : b.val < 2 ^ 5 := b.isLt
  have b3 := field_bound (lo := 11) b4 v3
  have v2 : a.val < 2 ^ 5 := a.isLt
  have b2 := field_bound (lo := 16) b3 v2
  have v1 : d.val < 2 ^ 5 := d.isLt
  have b1 := field_bound (lo := 21) b2 v1
  have v0 : 1 < 2 ^ 6 := by decide
  have b0 := field_bound (lo := 26) b1 v0
  have f0 := field_hit (lo := 26) b1 v0
  have f1 := field_skip (v := 1) (lo := 26) (by decide) (field_hit (lo := 21) b2 v1)
  have f2 := field_skip (v := 1) (lo := 26) (by decide) (field_skip (v := d.val) (lo := 21) (by decide) (field_hit (lo := 16) b3 v2))
  have f3 := field_skip (v := 1) (lo := 26) (by decide) (field_skip (v := d.val) (lo := 21) (by decide) (field_skip (v := a.val) (lo := 16) (by decide) (field_hit (lo := 11) b4 v3)))
  have f4 := field_skip_low (v := 1) (lo := 26) (by decide) (field_skip_low (v := d.val) (lo := 21) (by decide) (field_skip_low (v := a.val) (lo := 16) (by decide) (field_skip_low (v := b.val) (lo := 11) (by decide) (Nat.mod_eq_of_lt v4))))
  refine word_eq e (word_back b0 f0 (by decide) (by decide) ((major_01 f0).trans ?_) hw)
  iterate 11 refine (if_neg (other_value f4 (by decide))).trans ?_
  refine (if_pos f4).trans ?_
  rw [fin32_eq d f1, fin32_eq a f2, fin32_eq b f3]

theorem shl (d : Reg) (a : Reg) (b : Reg) : Statement (Instr.shl d a b) := fun hw => by
  have e : put 0x4000300 [(d.val, 21), (a.val, 16), (b.val, 11)] = 1 * 2 ^ 26 + (d.val * 2 ^ 21 + (a.val * 2 ^ 16 + (b.val * 2 ^ 11 + 768))) := by simp only [put]; omega
  have v4 : 768 < 2 ^ 11 := by decide
  have b4 := v4
  have v3 : b.val < 2 ^ 5 := b.isLt
  have b3 := field_bound (lo := 11) b4 v3
  have v2 : a.val < 2 ^ 5 := a.isLt
  have b2 := field_bound (lo := 16) b3 v2
  have v1 : d.val < 2 ^ 5 := d.isLt
  have b1 := field_bound (lo := 21) b2 v1
  have v0 : 1 < 2 ^ 6 := by decide
  have b0 := field_bound (lo := 26) b1 v0
  have f0 := field_hit (lo := 26) b1 v0
  have f1 := field_skip (v := 1) (lo := 26) (by decide) (field_hit (lo := 21) b2 v1)
  have f2 := field_skip (v := 1) (lo := 26) (by decide) (field_skip (v := d.val) (lo := 21) (by decide) (field_hit (lo := 16) b3 v2))
  have f3 := field_skip (v := 1) (lo := 26) (by decide) (field_skip (v := d.val) (lo := 21) (by decide) (field_skip (v := a.val) (lo := 16) (by decide) (field_hit (lo := 11) b4 v3)))
  have f4 := field_skip_low (v := 1) (lo := 26) (by decide) (field_skip_low (v := d.val) (lo := 21) (by decide) (field_skip_low (v := a.val) (lo := 16) (by decide) (field_skip_low (v := b.val) (lo := 11) (by decide) (Nat.mod_eq_of_lt v4))))
  refine word_eq e (word_back b0 f0 (by decide) (by decide) ((major_01 f0).trans ?_) hw)
  iterate 12 refine (if_neg (other_value f4 (by decide))).trans ?_
  refine (if_pos f4).trans ?_
  rw [fin32_eq d f1, fin32_eq a f2, fin32_eq b f3]

theorem shr (d : Reg) (a : Reg) (b : Reg) : Statement (Instr.shr d a b) := fun hw => by
  have e : put 0x4000340 [(d.val, 21), (a.val, 16), (b.val, 11)] = 1 * 2 ^ 26 + (d.val * 2 ^ 21 + (a.val * 2 ^ 16 + (b.val * 2 ^ 11 + 832))) := by simp only [put]; omega
  have v4 : 832 < 2 ^ 11 := by decide
  have b4 := v4
  have v3 : b.val < 2 ^ 5 := b.isLt
  have b3 := field_bound (lo := 11) b4 v3
  have v2 : a.val < 2 ^ 5 := a.isLt
  have b2 := field_bound (lo := 16) b3 v2
  have v1 : d.val < 2 ^ 5 := d.isLt
  have b1 := field_bound (lo := 21) b2 v1
  have v0 : 1 < 2 ^ 6 := by decide
  have b0 := field_bound (lo := 26) b1 v0
  have f0 := field_hit (lo := 26) b1 v0
  have f1 := field_skip (v := 1) (lo := 26) (by decide) (field_hit (lo := 21) b2 v1)
  have f2 := field_skip (v := 1) (lo := 26) (by decide) (field_skip (v := d.val) (lo := 21) (by decide) (field_hit (lo := 16) b3 v2))
  have f3 := field_skip (v := 1) (lo := 26) (by decide) (field_skip (v := d.val) (lo := 21) (by decide) (field_skip (v := a.val) (lo := 16) (by decide) (field_hit (lo := 11) b4 v3)))
  have f4 := field_skip_low (v := 1) (lo := 26) (by decide) (field_skip_low (v := d.val) (lo := 21) (by decide) (field_skip_low (v := a.val) (lo := 16) (by decide) (field_skip_low (v := b.val) (lo := 11) (by decide) (Nat.mod_eq_of_lt v4))))
  refine word_eq e (word_back b0 f0 (by decide) (by decide) ((major_01 f0).trans ?_) hw)
  iterate 13 refine (if_neg (other_value f4 (by decide))).trans ?_
  refine (if_pos f4).trans ?_
  rw [fin32_eq d f1, fin32_eq a f2, fin32_eq b f3]

theorem sra (d : Reg) (a : Reg) (b : Reg) : Statement (Instr.sra d a b) := fun hw => by
  have e : put 0x4000380 [(d.val, 21), (a.val, 16), (b.val, 11)] = 1 * 2 ^ 26 + (d.val * 2 ^ 21 + (a.val * 2 ^ 16 + (b.val * 2 ^ 11 + 896))) := by simp only [put]; omega
  have v4 : 896 < 2 ^ 11 := by decide
  have b4 := v4
  have v3 : b.val < 2 ^ 5 := b.isLt
  have b3 := field_bound (lo := 11) b4 v3
  have v2 : a.val < 2 ^ 5 := a.isLt
  have b2 := field_bound (lo := 16) b3 v2
  have v1 : d.val < 2 ^ 5 := d.isLt
  have b1 := field_bound (lo := 21) b2 v1
  have v0 : 1 < 2 ^ 6 := by decide
  have b0 := field_bound (lo := 26) b1 v0
  have f0 := field_hit (lo := 26) b1 v0
  have f1 := field_skip (v := 1) (lo := 26) (by decide) (field_hit (lo := 21) b2 v1)
  have f2 := field_skip (v := 1) (lo := 26) (by decide) (field_skip (v := d.val) (lo := 21) (by decide) (field_hit (lo := 16) b3 v2))
  have f3 := field_skip (v := 1) (lo := 26) (by decide) (field_skip (v := d.val) (lo := 21) (by decide) (field_skip (v := a.val) (lo := 16) (by decide) (field_hit (lo := 11) b4 v3)))
  have f4 := field_skip_low (v := 1) (lo := 26) (by decide) (field_skip_low (v := d.val) (lo := 21) (by decide) (field_skip_low (v := a.val) (lo := 16) (by decide) (field_skip_low (v := b.val) (lo := 11) (by decide) (Nat.mod_eq_of_lt v4))))
  refine word_eq e (word_back b0 f0 (by decide) (by decide) ((major_01 f0).trans ?_) hw)
  iterate 14 refine (if_neg (other_value f4 (by decide))).trans ?_
  refine (if_pos f4).trans ?_
  rw [fin32_eq d f1, fin32_eq a f2, fin32_eq b f3]

theorem rot (d : Reg) (a : Reg) (b : Reg) : Statement (Instr.rot d a b) := fun hw => by
  have e : put 0x40003c0 [(d.val, 21), (a.val, 16), (b.val, 11)] = 1 * 2 ^ 26 + (d.val * 2 ^ 21 + (a.val * 2 ^ 16 + (b.val * 2 ^ 11 + 960))) := by simp only [put]; omega
  have v4 : 960 < 2 ^ 11 := by decide
  have b4 := v4
  have v3 : b.val < 2 ^ 5 := b.isLt
  have b3 := field_bound (lo := 11) b4 v3
  have v2 : a.val < 2 ^ 5 := a.isLt
  have b2 := field_bound (lo := 16) b3 v2
  have v1 : d.val < 2 ^ 5 := d.isLt
  have b1 := field_bound (lo := 21) b2 v1
  have v0 : 1 < 2 ^ 6 := by decide
  have b0 := field_bound (lo := 26) b1 v0
  have f0 := field_hit (lo := 26) b1 v0
  have f1 := field_skip (v := 1) (lo := 26) (by decide) (field_hit (lo := 21) b2 v1)
  have f2 := field_skip (v := 1) (lo := 26) (by decide) (field_skip (v := d.val) (lo := 21) (by decide) (field_hit (lo := 16) b3 v2))
  have f3 := field_skip (v := 1) (lo := 26) (by decide) (field_skip (v := d.val) (lo := 21) (by decide) (field_skip (v := a.val) (lo := 16) (by decide) (field_hit (lo := 11) b4 v3)))
  have f4 := field_skip_low (v := 1) (lo := 26) (by decide) (field_skip_low (v := d.val) (lo := 21) (by decide) (field_skip_low (v := a.val) (lo := 16) (by decide) (field_skip_low (v := b.val) (lo := 11) (by decide) (Nat.mod_eq_of_lt v4))))
  refine word_eq e (word_back b0 f0 (by decide) (by decide) ((major_01 f0).trans ?_) hw)
  iterate 15 refine (if_neg (other_value f4 (by decide))).trans ?_
  refine (if_pos f4).trans ?_
  rw [fin32_eq d f1, fin32_eq a f2, fin32_eq b f3]

theorem min (d : Reg) (a : Reg) (b : Reg) : Statement (Instr.min d a b) := fun hw => by
  have e : put 0x4000400 [(d.val, 21), (a.val, 16), (b.val, 11)] = 1 * 2 ^ 26 + (d.val * 2 ^ 21 + (a.val * 2 ^ 16 + (b.val * 2 ^ 11 + 1024))) := by simp only [put]; omega
  have v4 : 1024 < 2 ^ 11 := by decide
  have b4 := v4
  have v3 : b.val < 2 ^ 5 := b.isLt
  have b3 := field_bound (lo := 11) b4 v3
  have v2 : a.val < 2 ^ 5 := a.isLt
  have b2 := field_bound (lo := 16) b3 v2
  have v1 : d.val < 2 ^ 5 := d.isLt
  have b1 := field_bound (lo := 21) b2 v1
  have v0 : 1 < 2 ^ 6 := by decide
  have b0 := field_bound (lo := 26) b1 v0
  have f0 := field_hit (lo := 26) b1 v0
  have f1 := field_skip (v := 1) (lo := 26) (by decide) (field_hit (lo := 21) b2 v1)
  have f2 := field_skip (v := 1) (lo := 26) (by decide) (field_skip (v := d.val) (lo := 21) (by decide) (field_hit (lo := 16) b3 v2))
  have f3 := field_skip (v := 1) (lo := 26) (by decide) (field_skip (v := d.val) (lo := 21) (by decide) (field_skip (v := a.val) (lo := 16) (by decide) (field_hit (lo := 11) b4 v3)))
  have f4 := field_skip_low (v := 1) (lo := 26) (by decide) (field_skip_low (v := d.val) (lo := 21) (by decide) (field_skip_low (v := a.val) (lo := 16) (by decide) (field_skip_low (v := b.val) (lo := 11) (by decide) (Nat.mod_eq_of_lt v4))))
  refine word_eq e (word_back b0 f0 (by decide) (by decide) ((major_01 f0).trans ?_) hw)
  iterate 16 refine (if_neg (other_value f4 (by decide))).trans ?_
  refine (if_pos f4).trans ?_
  rw [fin32_eq d f1, fin32_eq a f2, fin32_eq b f3]

theorem max (d : Reg) (a : Reg) (b : Reg) : Statement (Instr.max d a b) := fun hw => by
  have e : put 0x4000440 [(d.val, 21), (a.val, 16), (b.val, 11)] = 1 * 2 ^ 26 + (d.val * 2 ^ 21 + (a.val * 2 ^ 16 + (b.val * 2 ^ 11 + 1088))) := by simp only [put]; omega
  have v4 : 1088 < 2 ^ 11 := by decide
  have b4 := v4
  have v3 : b.val < 2 ^ 5 := b.isLt
  have b3 := field_bound (lo := 11) b4 v3
  have v2 : a.val < 2 ^ 5 := a.isLt
  have b2 := field_bound (lo := 16) b3 v2
  have v1 : d.val < 2 ^ 5 := d.isLt
  have b1 := field_bound (lo := 21) b2 v1
  have v0 : 1 < 2 ^ 6 := by decide
  have b0 := field_bound (lo := 26) b1 v0
  have f0 := field_hit (lo := 26) b1 v0
  have f1 := field_skip (v := 1) (lo := 26) (by decide) (field_hit (lo := 21) b2 v1)
  have f2 := field_skip (v := 1) (lo := 26) (by decide) (field_skip (v := d.val) (lo := 21) (by decide) (field_hit (lo := 16) b3 v2))
  have f3 := field_skip (v := 1) (lo := 26) (by decide) (field_skip (v := d.val) (lo := 21) (by decide) (field_skip (v := a.val) (lo := 16) (by decide) (field_hit (lo := 11) b4 v3)))
  have f4 := field_skip_low (v := 1) (lo := 26) (by decide) (field_skip_low (v := d.val) (lo := 21) (by decide) (field_skip_low (v := a.val) (lo := 16) (by decide) (field_skip_low (v := b.val) (lo := 11) (by decide) (Nat.mod_eq_of_lt v4))))
  refine word_eq e (word_back b0 f0 (by decide) (by decide) ((major_01 f0).trans ?_) hw)
  iterate 17 refine (if_neg (other_value f4 (by decide))).trans ?_
  refine (if_pos f4).trans ?_
  rw [fin32_eq d f1, fin32_eq a f2, fin32_eq b f3]

theorem minn (d : Reg) (a : Reg) (b : Reg) : Statement (Instr.minn d a b) := fun hw => by
  have e : put 0x4000480 [(d.val, 21), (a.val, 16), (b.val, 11)] = 1 * 2 ^ 26 + (d.val * 2 ^ 21 + (a.val * 2 ^ 16 + (b.val * 2 ^ 11 + 1152))) := by simp only [put]; omega
  have v4 : 1152 < 2 ^ 11 := by decide
  have b4 := v4
  have v3 : b.val < 2 ^ 5 := b.isLt
  have b3 := field_bound (lo := 11) b4 v3
  have v2 : a.val < 2 ^ 5 := a.isLt
  have b2 := field_bound (lo := 16) b3 v2
  have v1 : d.val < 2 ^ 5 := d.isLt
  have b1 := field_bound (lo := 21) b2 v1
  have v0 : 1 < 2 ^ 6 := by decide
  have b0 := field_bound (lo := 26) b1 v0
  have f0 := field_hit (lo := 26) b1 v0
  have f1 := field_skip (v := 1) (lo := 26) (by decide) (field_hit (lo := 21) b2 v1)
  have f2 := field_skip (v := 1) (lo := 26) (by decide) (field_skip (v := d.val) (lo := 21) (by decide) (field_hit (lo := 16) b3 v2))
  have f3 := field_skip (v := 1) (lo := 26) (by decide) (field_skip (v := d.val) (lo := 21) (by decide) (field_skip (v := a.val) (lo := 16) (by decide) (field_hit (lo := 11) b4 v3)))
  have f4 := field_skip_low (v := 1) (lo := 26) (by decide) (field_skip_low (v := d.val) (lo := 21) (by decide) (field_skip_low (v := a.val) (lo := 16) (by decide) (field_skip_low (v := b.val) (lo := 11) (by decide) (Nat.mod_eq_of_lt v4))))
  refine word_eq e (word_back b0 f0 (by decide) (by decide) ((major_01 f0).trans ?_) hw)
  iterate 18 refine (if_neg (other_value f4 (by decide))).trans ?_
  refine (if_pos f4).trans ?_
  rw [fin32_eq d f1, fin32_eq a f2, fin32_eq b f3]

theorem maxn (d : Reg) (a : Reg) (b : Reg) : Statement (Instr.maxn d a b) := fun hw => by
  have e : put 0x40004c0 [(d.val, 21), (a.val, 16), (b.val, 11)] = 1 * 2 ^ 26 + (d.val * 2 ^ 21 + (a.val * 2 ^ 16 + (b.val * 2 ^ 11 + 1216))) := by simp only [put]; omega
  have v4 : 1216 < 2 ^ 11 := by decide
  have b4 := v4
  have v3 : b.val < 2 ^ 5 := b.isLt
  have b3 := field_bound (lo := 11) b4 v3
  have v2 : a.val < 2 ^ 5 := a.isLt
  have b2 := field_bound (lo := 16) b3 v2
  have v1 : d.val < 2 ^ 5 := d.isLt
  have b1 := field_bound (lo := 21) b2 v1
  have v0 : 1 < 2 ^ 6 := by decide
  have b0 := field_bound (lo := 26) b1 v0
  have f0 := field_hit (lo := 26) b1 v0
  have f1 := field_skip (v := 1) (lo := 26) (by decide) (field_hit (lo := 21) b2 v1)
  have f2 := field_skip (v := 1) (lo := 26) (by decide) (field_skip (v := d.val) (lo := 21) (by decide) (field_hit (lo := 16) b3 v2))
  have f3 := field_skip (v := 1) (lo := 26) (by decide) (field_skip (v := d.val) (lo := 21) (by decide) (field_skip (v := a.val) (lo := 16) (by decide) (field_hit (lo := 11) b4 v3)))
  have f4 := field_skip_low (v := 1) (lo := 26) (by decide) (field_skip_low (v := d.val) (lo := 21) (by decide) (field_skip_low (v := a.val) (lo := 16) (by decide) (field_skip_low (v := b.val) (lo := 11) (by decide) (Nat.mod_eq_of_lt v4))))
  refine word_eq e (word_back b0 f0 (by decide) (by decide) ((major_01 f0).trans ?_) hw)
  iterate 19 refine (if_neg (other_value f4 (by decide))).trans ?_
  refine (if_pos f4).trans ?_
  rw [fin32_eq d f1, fin32_eq a f2, fin32_eq b f3]

theorem slt (d : Reg) (a : Reg) (b : Reg) : Statement (Instr.slt d a b) := fun hw => by
  have e : put 0x4000500 [(d.val, 21), (a.val, 16), (b.val, 11)] = 1 * 2 ^ 26 + (d.val * 2 ^ 21 + (a.val * 2 ^ 16 + (b.val * 2 ^ 11 + 1280))) := by simp only [put]; omega
  have v4 : 1280 < 2 ^ 11 := by decide
  have b4 := v4
  have v3 : b.val < 2 ^ 5 := b.isLt
  have b3 := field_bound (lo := 11) b4 v3
  have v2 : a.val < 2 ^ 5 := a.isLt
  have b2 := field_bound (lo := 16) b3 v2
  have v1 : d.val < 2 ^ 5 := d.isLt
  have b1 := field_bound (lo := 21) b2 v1
  have v0 : 1 < 2 ^ 6 := by decide
  have b0 := field_bound (lo := 26) b1 v0
  have f0 := field_hit (lo := 26) b1 v0
  have f1 := field_skip (v := 1) (lo := 26) (by decide) (field_hit (lo := 21) b2 v1)
  have f2 := field_skip (v := 1) (lo := 26) (by decide) (field_skip (v := d.val) (lo := 21) (by decide) (field_hit (lo := 16) b3 v2))
  have f3 := field_skip (v := 1) (lo := 26) (by decide) (field_skip (v := d.val) (lo := 21) (by decide) (field_skip (v := a.val) (lo := 16) (by decide) (field_hit (lo := 11) b4 v3)))
  have f4 := field_skip_low (v := 1) (lo := 26) (by decide) (field_skip_low (v := d.val) (lo := 21) (by decide) (field_skip_low (v := a.val) (lo := 16) (by decide) (field_skip_low (v := b.val) (lo := 11) (by decide) (Nat.mod_eq_of_lt v4))))
  refine word_eq e (word_back b0 f0 (by decide) (by decide) ((major_01 f0).trans ?_) hw)
  iterate 20 refine (if_neg (other_value f4 (by decide))).trans ?_
  refine (if_pos f4).trans ?_
  rw [fin32_eq d f1, fin32_eq a f2, fin32_eq b f3]

theorem sltn (d : Reg) (a : Reg) (b : Reg) : Statement (Instr.sltn d a b) := fun hw => by
  have e : put 0x4000540 [(d.val, 21), (a.val, 16), (b.val, 11)] = 1 * 2 ^ 26 + (d.val * 2 ^ 21 + (a.val * 2 ^ 16 + (b.val * 2 ^ 11 + 1344))) := by simp only [put]; omega
  have v4 : 1344 < 2 ^ 11 := by decide
  have b4 := v4
  have v3 : b.val < 2 ^ 5 := b.isLt
  have b3 := field_bound (lo := 11) b4 v3
  have v2 : a.val < 2 ^ 5 := a.isLt
  have b2 := field_bound (lo := 16) b3 v2
  have v1 : d.val < 2 ^ 5 := d.isLt
  have b1 := field_bound (lo := 21) b2 v1
  have v0 : 1 < 2 ^ 6 := by decide
  have b0 := field_bound (lo := 26) b1 v0
  have f0 := field_hit (lo := 26) b1 v0
  have f1 := field_skip (v := 1) (lo := 26) (by decide) (field_hit (lo := 21) b2 v1)
  have f2 := field_skip (v := 1) (lo := 26) (by decide) (field_skip (v := d.val) (lo := 21) (by decide) (field_hit (lo := 16) b3 v2))
  have f3 := field_skip (v := 1) (lo := 26) (by decide) (field_skip (v := d.val) (lo := 21) (by decide) (field_skip (v := a.val) (lo := 16) (by decide) (field_hit (lo := 11) b4 v3)))
  have f4 := field_skip_low (v := 1) (lo := 26) (by decide) (field_skip_low (v := d.val) (lo := 21) (by decide) (field_skip_low (v := a.val) (lo := 16) (by decide) (field_skip_low (v := b.val) (lo := 11) (by decide) (Nat.mod_eq_of_lt v4))))
  refine word_eq e (word_back b0 f0 (by decide) (by decide) ((major_01 f0).trans ?_) hw)
  iterate 21 refine (if_neg (other_value f4 (by decide))).trans ?_
  refine (if_pos f4).trans ?_
  rw [fin32_eq d f1, fin32_eq a f2, fin32_eq b f3]

theorem seq (d : Reg) (a : Reg) (b : Reg) : Statement (Instr.seq d a b) := fun hw => by
  have e : put 0x4000580 [(d.val, 21), (a.val, 16), (b.val, 11)] = 1 * 2 ^ 26 + (d.val * 2 ^ 21 + (a.val * 2 ^ 16 + (b.val * 2 ^ 11 + 1408))) := by simp only [put]; omega
  have v4 : 1408 < 2 ^ 11 := by decide
  have b4 := v4
  have v3 : b.val < 2 ^ 5 := b.isLt
  have b3 := field_bound (lo := 11) b4 v3
  have v2 : a.val < 2 ^ 5 := a.isLt
  have b2 := field_bound (lo := 16) b3 v2
  have v1 : d.val < 2 ^ 5 := d.isLt
  have b1 := field_bound (lo := 21) b2 v1
  have v0 : 1 < 2 ^ 6 := by decide
  have b0 := field_bound (lo := 26) b1 v0
  have f0 := field_hit (lo := 26) b1 v0
  have f1 := field_skip (v := 1) (lo := 26) (by decide) (field_hit (lo := 21) b2 v1)
  have f2 := field_skip (v := 1) (lo := 26) (by decide) (field_skip (v := d.val) (lo := 21) (by decide) (field_hit (lo := 16) b3 v2))
  have f3 := field_skip (v := 1) (lo := 26) (by decide) (field_skip (v := d.val) (lo := 21) (by decide) (field_skip (v := a.val) (lo := 16) (by decide) (field_hit (lo := 11) b4 v3)))
  have f4 := field_skip_low (v := 1) (lo := 26) (by decide) (field_skip_low (v := d.val) (lo := 21) (by decide) (field_skip_low (v := a.val) (lo := 16) (by decide) (field_skip_low (v := b.val) (lo := 11) (by decide) (Nat.mod_eq_of_lt v4))))
  refine word_eq e (word_back b0 f0 (by decide) (by decide) ((major_01 f0).trans ?_) hw)
  iterate 22 refine (if_neg (other_value f4 (by decide))).trans ?_
  refine (if_pos f4).trans ?_
  rw [fin32_eq d f1, fin32_eq a f2, fin32_eq b f3]

theorem csel (d : Reg) (a : Reg) (b : Reg) (c : Reg) : Statement (Instr.csel d a b c) := fun hw => by
  have e : put 0x40005c0 [(d.val, 21), (a.val, 16), (b.val, 11), (c.val, 0)] = 1 * 2 ^ 26 + (d.val * 2 ^ 21 + (a.val * 2 ^ 16 + (b.val * 2 ^ 11 + (46 * 2 ^ 5 + c.val)))) := by simp only [put]; omega
  have v5 : c.val < 2 ^ 5 := c.isLt
  have b5 := v5
  have v4 : 46 < 2 ^ 6 := by decide
  have b4 := field_bound (lo := 5) b5 v4
  have v3 : b.val < 2 ^ 5 := b.isLt
  have b3 := field_bound (lo := 11) b4 v3
  have v2 : a.val < 2 ^ 5 := a.isLt
  have b2 := field_bound (lo := 16) b3 v2
  have v1 : d.val < 2 ^ 5 := d.isLt
  have b1 := field_bound (lo := 21) b2 v1
  have v0 : 1 < 2 ^ 6 := by decide
  have b0 := field_bound (lo := 26) b1 v0
  have f0 := field_hit (lo := 26) b1 v0
  have f1 := field_skip (v := 1) (lo := 26) (by decide) (field_hit (lo := 21) b2 v1)
  have f2 := field_skip (v := 1) (lo := 26) (by decide) (field_skip (v := d.val) (lo := 21) (by decide) (field_hit (lo := 16) b3 v2))
  have f3 := field_skip (v := 1) (lo := 26) (by decide) (field_skip (v := d.val) (lo := 21) (by decide) (field_skip (v := a.val) (lo := 16) (by decide) (field_hit (lo := 11) b4 v3)))
  have f4 := field_skip (v := 1) (lo := 26) (by decide) (field_skip (v := d.val) (lo := 21) (by decide) (field_skip (v := a.val) (lo := 16) (by decide) (field_skip (v := b.val) (lo := 11) (by decide) (field_hit (lo := 5) b5 v4))))
  have f5 := field_skip_low (v := 1) (lo := 26) (by decide) (field_skip_low (v := d.val) (lo := 21) (by decide) (field_skip_low (v := a.val) (lo := 16) (by decide) (field_skip_low (v := b.val) (lo := 11) (by decide) (field_skip_low (v := 46) (lo := 5) (by decide) (Nat.mod_eq_of_lt v5)))))
  refine word_eq e (word_back b0 f0 (by decide) (by decide) ((major_01 f0).trans ?_) hw)
  iterate 23 refine (if_neg (fun c => absurd ((sub_field (lo := 5) 0 6 f4 (by decide)).symm.trans (sub_field_low 5 6 c (by decide))) (by decide))).trans ?_
  refine (if_pos f4).trans ?_
  rw [fin32_eq d f1, fin32_eq a f2, fin32_eq b f3, fin32_eq c f5]

theorem clz (d : Reg) (a : Reg) : Statement (Instr.clz d a) := fun hw => by
  have e : put 0x4000600 [(d.val, 21), (a.val, 16)] = 1 * 2 ^ 26 + (d.val * 2 ^ 21 + (a.val * 2 ^ 16 + 1536)) := by simp only [put]; omega
  have v3 : 1536 < 2 ^ 16 := by decide
  have b3 := v3
  have v2 : a.val < 2 ^ 5 := a.isLt
  have b2 := field_bound (lo := 16) b3 v2
  have v1 : d.val < 2 ^ 5 := d.isLt
  have b1 := field_bound (lo := 21) b2 v1
  have v0 : 1 < 2 ^ 6 := by decide
  have b0 := field_bound (lo := 26) b1 v0
  have f0 := field_hit (lo := 26) b1 v0
  have f1 := field_skip (v := 1) (lo := 26) (by decide) (field_hit (lo := 21) b2 v1)
  have f2 := field_skip (v := 1) (lo := 26) (by decide) (field_skip (v := d.val) (lo := 21) (by decide) (field_hit (lo := 16) b3 v2))
  have f3 := field_skip_low (v := 1) (lo := 26) (by decide) (field_skip_low (v := d.val) (lo := 21) (by decide) (field_skip_low (v := a.val) (lo := 16) (by decide) (Nat.mod_eq_of_lt v3)))
  refine word_eq e (word_back b0 f0 (by decide) (by decide) ((major_01 f0).trans ?_) hw)
  iterate 23 refine (if_neg (fun c => absurd ((low_field 11 f3 (by decide)).symm.trans (low_field 11 c (by decide))) (by decide))).trans ?_
  refine (if_neg (fun c => absurd ((sub_field_low 5 6 f3 (by decide)).symm.trans (sub_field (lo := 5) 0 6 c (by decide))) (by decide))).trans ?_
  refine (if_pos f3).trans ?_
  rw [fin32_eq d f1, fin32_eq a f2]

theorem ctz (d : Reg) (a : Reg) : Statement (Instr.ctz d a) := fun hw => by
  have e : put 0x4000640 [(d.val, 21), (a.val, 16)] = 1 * 2 ^ 26 + (d.val * 2 ^ 21 + (a.val * 2 ^ 16 + 1600)) := by simp only [put]; omega
  have v3 : 1600 < 2 ^ 16 := by decide
  have b3 := v3
  have v2 : a.val < 2 ^ 5 := a.isLt
  have b2 := field_bound (lo := 16) b3 v2
  have v1 : d.val < 2 ^ 5 := d.isLt
  have b1 := field_bound (lo := 21) b2 v1
  have v0 : 1 < 2 ^ 6 := by decide
  have b0 := field_bound (lo := 26) b1 v0
  have f0 := field_hit (lo := 26) b1 v0
  have f1 := field_skip (v := 1) (lo := 26) (by decide) (field_hit (lo := 21) b2 v1)
  have f2 := field_skip (v := 1) (lo := 26) (by decide) (field_skip (v := d.val) (lo := 21) (by decide) (field_hit (lo := 16) b3 v2))
  have f3 := field_skip_low (v := 1) (lo := 26) (by decide) (field_skip_low (v := d.val) (lo := 21) (by decide) (field_skip_low (v := a.val) (lo := 16) (by decide) (Nat.mod_eq_of_lt v3)))
  refine word_eq e (word_back b0 f0 (by decide) (by decide) ((major_01 f0).trans ?_) hw)
  iterate 23 refine (if_neg (fun c => absurd ((low_field 11 f3 (by decide)).symm.trans (low_field 11 c (by decide))) (by decide))).trans ?_
  refine (if_neg (fun c => absurd ((sub_field_low 5 6 f3 (by decide)).symm.trans (sub_field (lo := 5) 0 6 c (by decide))) (by decide))).trans ?_
  refine (if_neg (other_value f3 (by decide))).trans ?_
  refine (if_pos f3).trans ?_
  rw [fin32_eq d f1, fin32_eq a f2]

theorem popc (d : Reg) (a : Reg) : Statement (Instr.popc d a) := fun hw => by
  have e : put 0x4000680 [(d.val, 21), (a.val, 16)] = 1 * 2 ^ 26 + (d.val * 2 ^ 21 + (a.val * 2 ^ 16 + 1664)) := by simp only [put]; omega
  have v3 : 1664 < 2 ^ 16 := by decide
  have b3 := v3
  have v2 : a.val < 2 ^ 5 := a.isLt
  have b2 := field_bound (lo := 16) b3 v2
  have v1 : d.val < 2 ^ 5 := d.isLt
  have b1 := field_bound (lo := 21) b2 v1
  have v0 : 1 < 2 ^ 6 := by decide
  have b0 := field_bound (lo := 26) b1 v0
  have f0 := field_hit (lo := 26) b1 v0
  have f1 := field_skip (v := 1) (lo := 26) (by decide) (field_hit (lo := 21) b2 v1)
  have f2 := field_skip (v := 1) (lo := 26) (by decide) (field_skip (v := d.val) (lo := 21) (by decide) (field_hit (lo := 16) b3 v2))
  have f3 := field_skip_low (v := 1) (lo := 26) (by decide) (field_skip_low (v := d.val) (lo := 21) (by decide) (field_skip_low (v := a.val) (lo := 16) (by decide) (Nat.mod_eq_of_lt v3)))
  refine word_eq e (word_back b0 f0 (by decide) (by decide) ((major_01 f0).trans ?_) hw)
  iterate 23 refine (if_neg (fun c => absurd ((low_field 11 f3 (by decide)).symm.trans (low_field 11 c (by decide))) (by decide))).trans ?_
  refine (if_neg (fun c => absurd ((sub_field_low 5 6 f3 (by decide)).symm.trans (sub_field (lo := 5) 0 6 c (by decide))) (by decide))).trans ?_
  iterate 2 refine (if_neg (other_value f3 (by decide))).trans ?_
  refine (if_pos f3).trans ?_
  rw [fin32_eq d f1, fin32_eq a f2]

theorem sext (d : Reg) (a : Reg) (b : Reg) (s : Fin 4) : Statement (Instr.sext d a b s) := fun hw => by
  have e : put 0x40006c0 [(d.val, 21), (a.val, 16), (b.val, 11), (s.val, 0)] = 1 * 2 ^ 26 + (d.val * 2 ^ 21 + (a.val * 2 ^ 16 + (b.val * 2 ^ 11 + (432 * 2 ^ 2 + s.val)))) := by simp only [put]; omega
  have v5 : s.val < 2 ^ 2 := s.isLt
  have b5 := v5
  have v4 : 432 < 2 ^ 9 := by decide
  have b4 := field_bound (lo := 2) b5 v4
  have v3 : b.val < 2 ^ 5 := b.isLt
  have b3 := field_bound (lo := 11) b4 v3
  have v2 : a.val < 2 ^ 5 := a.isLt
  have b2 := field_bound (lo := 16) b3 v2
  have v1 : d.val < 2 ^ 5 := d.isLt
  have b1 := field_bound (lo := 21) b2 v1
  have v0 : 1 < 2 ^ 6 := by decide
  have b0 := field_bound (lo := 26) b1 v0
  have f0 := field_hit (lo := 26) b1 v0
  have f1 := field_skip (v := 1) (lo := 26) (by decide) (field_hit (lo := 21) b2 v1)
  have f2 := field_skip (v := 1) (lo := 26) (by decide) (field_skip (v := d.val) (lo := 21) (by decide) (field_hit (lo := 16) b3 v2))
  have f3 := field_skip (v := 1) (lo := 26) (by decide) (field_skip (v := d.val) (lo := 21) (by decide) (field_skip (v := a.val) (lo := 16) (by decide) (field_hit (lo := 11) b4 v3)))
  have f4 := field_skip (v := 1) (lo := 26) (by decide) (field_skip (v := d.val) (lo := 21) (by decide) (field_skip (v := a.val) (lo := 16) (by decide) (field_skip (v := b.val) (lo := 11) (by decide) (field_hit (lo := 2) b5 v4))))
  have f5 := field_skip_low (v := 1) (lo := 26) (by decide) (field_skip_low (v := d.val) (lo := 21) (by decide) (field_skip_low (v := a.val) (lo := 16) (by decide) (field_skip_low (v := b.val) (lo := 11) (by decide) (field_skip_low (v := 432) (lo := 2) (by decide) (Nat.mod_eq_of_lt v5)))))
  refine word_eq e (word_back b0 f0 (by decide) (by decide) ((major_01 f0).trans ?_) hw)
  iterate 23 refine (if_neg (fun c => absurd ((sub_field (lo := 2) 0 9 f4 (by decide)).symm.trans (sub_field_low 2 9 c (by decide))) (by decide))).trans ?_
  refine (if_neg (fun c => absurd ((sub_field (lo := 2) 3 6 f4 (by decide)).symm.trans (sub_field (lo := 5) 0 6 c (by decide))) (by decide))).trans ?_
  iterate 3 refine (if_neg (fun c => absurd ((sub_field (lo := 2) 0 9 f4 (by decide)).symm.trans (sub_field_low 2 9 c (by decide))) (by decide))).trans ?_
  refine (if_pos f4).trans ?_
  rw [fin32_eq d f1, fin32_eq a f2, fin32_eq b f3, finOf_eq s f5]

theorem zext (d : Reg) (a : Reg) (b : Reg) (s : Fin 4) : Statement (Instr.zext d a b s) := fun hw => by
  have e : put 0x4000700 [(d.val, 21), (a.val, 16), (b.val, 11), (s.val, 0)] = 1 * 2 ^ 26 + (d.val * 2 ^ 21 + (a.val * 2 ^ 16 + (b.val * 2 ^ 11 + (448 * 2 ^ 2 + s.val)))) := by simp only [put]; omega
  have v5 : s.val < 2 ^ 2 := s.isLt
  have b5 := v5
  have v4 : 448 < 2 ^ 9 := by decide
  have b4 := field_bound (lo := 2) b5 v4
  have v3 : b.val < 2 ^ 5 := b.isLt
  have b3 := field_bound (lo := 11) b4 v3
  have v2 : a.val < 2 ^ 5 := a.isLt
  have b2 := field_bound (lo := 16) b3 v2
  have v1 : d.val < 2 ^ 5 := d.isLt
  have b1 := field_bound (lo := 21) b2 v1
  have v0 : 1 < 2 ^ 6 := by decide
  have b0 := field_bound (lo := 26) b1 v0
  have f0 := field_hit (lo := 26) b1 v0
  have f1 := field_skip (v := 1) (lo := 26) (by decide) (field_hit (lo := 21) b2 v1)
  have f2 := field_skip (v := 1) (lo := 26) (by decide) (field_skip (v := d.val) (lo := 21) (by decide) (field_hit (lo := 16) b3 v2))
  have f3 := field_skip (v := 1) (lo := 26) (by decide) (field_skip (v := d.val) (lo := 21) (by decide) (field_skip (v := a.val) (lo := 16) (by decide) (field_hit (lo := 11) b4 v3)))
  have f4 := field_skip (v := 1) (lo := 26) (by decide) (field_skip (v := d.val) (lo := 21) (by decide) (field_skip (v := a.val) (lo := 16) (by decide) (field_skip (v := b.val) (lo := 11) (by decide) (field_hit (lo := 2) b5 v4))))
  have f5 := field_skip_low (v := 1) (lo := 26) (by decide) (field_skip_low (v := d.val) (lo := 21) (by decide) (field_skip_low (v := a.val) (lo := 16) (by decide) (field_skip_low (v := b.val) (lo := 11) (by decide) (field_skip_low (v := 448) (lo := 2) (by decide) (Nat.mod_eq_of_lt v5)))))
  refine word_eq e (word_back b0 f0 (by decide) (by decide) ((major_01 f0).trans ?_) hw)
  iterate 23 refine (if_neg (fun c => absurd ((sub_field (lo := 2) 0 9 f4 (by decide)).symm.trans (sub_field_low 2 9 c (by decide))) (by decide))).trans ?_
  refine (if_neg (fun c => absurd ((sub_field (lo := 2) 3 6 f4 (by decide)).symm.trans (sub_field (lo := 5) 0 6 c (by decide))) (by decide))).trans ?_
  iterate 3 refine (if_neg (fun c => absurd ((sub_field (lo := 2) 0 9 f4 (by decide)).symm.trans (sub_field_low 2 9 c (by decide))) (by decide))).trans ?_
  refine (if_neg (other_value f4 (by decide))).trans ?_
  refine (if_pos f4).trans ?_
  rw [fin32_eq d f1, fin32_eq a f2, fin32_eq b f3, finOf_eq s f5]

theorem addi (d : Reg) (a : Reg) (imm : BitVec 16) : Statement (Instr.addi d a imm) := fun hw => by
  have e : put 0x8000000 [(d.val, 21), (a.val, 16), (imm.toNat, 0)] = 2 * 2 ^ 26 + (d.val * 2 ^ 21 + (a.val * 2 ^ 16 + imm.toNat)) := by simp only [put]; omega
  have v3 : imm.toNat < 2 ^ 16 := imm.isLt
  have b3 := v3
  have v2 : a.val < 2 ^ 5 := a.isLt
  have b2 := field_bound (lo := 16) b3 v2
  have v1 : d.val < 2 ^ 5 := d.isLt
  have b1 := field_bound (lo := 21) b2 v1
  have v0 : 2 < 2 ^ 6 := by decide
  have b0 := field_bound (lo := 26) b1 v0
  have f0 := field_hit (lo := 26) b1 v0
  have f1 := field_skip (v := 2) (lo := 26) (by decide) (field_hit (lo := 21) b2 v1)
  have f2 := field_skip (v := 2) (lo := 26) (by decide) (field_skip (v := d.val) (lo := 21) (by decide) (field_hit (lo := 16) b3 v2))
  have f3 := field_skip_low (v := 2) (lo := 26) (by decide) (field_skip_low (v := d.val) (lo := 21) (by decide) (field_skip_low (v := a.val) (lo := 16) (by decide) (Nat.mod_eq_of_lt v3)))
  refine word_eq e (word_back b0 f0 (by decide) (by decide) ((major_02 f0).trans ?_) hw)
  delta decodeAddi
  rw [fin32_eq d f1, fin32_eq a f2, bvOf_eq imm f3]

theorem andi (d : Reg) (a : Reg) (imm : BitVec 16) : Statement (Instr.andi d a imm) := fun hw => by
  have e : put 0xc000000 [(d.val, 21), (a.val, 16), (imm.toNat, 0)] = 3 * 2 ^ 26 + (d.val * 2 ^ 21 + (a.val * 2 ^ 16 + imm.toNat)) := by simp only [put]; omega
  have v3 : imm.toNat < 2 ^ 16 := imm.isLt
  have b3 := v3
  have v2 : a.val < 2 ^ 5 := a.isLt
  have b2 := field_bound (lo := 16) b3 v2
  have v1 : d.val < 2 ^ 5 := d.isLt
  have b1 := field_bound (lo := 21) b2 v1
  have v0 : 3 < 2 ^ 6 := by decide
  have b0 := field_bound (lo := 26) b1 v0
  have f0 := field_hit (lo := 26) b1 v0
  have f1 := field_skip (v := 3) (lo := 26) (by decide) (field_hit (lo := 21) b2 v1)
  have f2 := field_skip (v := 3) (lo := 26) (by decide) (field_skip (v := d.val) (lo := 21) (by decide) (field_hit (lo := 16) b3 v2))
  have f3 := field_skip_low (v := 3) (lo := 26) (by decide) (field_skip_low (v := d.val) (lo := 21) (by decide) (field_skip_low (v := a.val) (lo := 16) (by decide) (Nat.mod_eq_of_lt v3)))
  refine word_eq e (word_back b0 f0 (by decide) (by decide) ((major_03 f0).trans ?_) hw)
  delta decodeAndi
  rw [fin32_eq d f1, fin32_eq a f2, bvOf_eq imm f3]

theorem ori (d : Reg) (a : Reg) (imm : BitVec 16) : Statement (Instr.ori d a imm) := fun hw => by
  have e : put 0x10000000 [(d.val, 21), (a.val, 16), (imm.toNat, 0)] = 4 * 2 ^ 26 + (d.val * 2 ^ 21 + (a.val * 2 ^ 16 + imm.toNat)) := by simp only [put]; omega
  have v3 : imm.toNat < 2 ^ 16 := imm.isLt
  have b3 := v3
  have v2 : a.val < 2 ^ 5 := a.isLt
  have b2 := field_bound (lo := 16) b3 v2
  have v1 : d.val < 2 ^ 5 := d.isLt
  have b1 := field_bound (lo := 21) b2 v1
  have v0 : 4 < 2 ^ 6 := by decide
  have b0 := field_bound (lo := 26) b1 v0
  have f0 := field_hit (lo := 26) b1 v0
  have f1 := field_skip (v := 4) (lo := 26) (by decide) (field_hit (lo := 21) b2 v1)
  have f2 := field_skip (v := 4) (lo := 26) (by decide) (field_skip (v := d.val) (lo := 21) (by decide) (field_hit (lo := 16) b3 v2))
  have f3 := field_skip_low (v := 4) (lo := 26) (by decide) (field_skip_low (v := d.val) (lo := 21) (by decide) (field_skip_low (v := a.val) (lo := 16) (by decide) (Nat.mod_eq_of_lt v3)))
  refine word_eq e (word_back b0 f0 (by decide) (by decide) ((major_04 f0).trans ?_) hw)
  delta decodeOri
  rw [fin32_eq d f1, fin32_eq a f2, bvOf_eq imm f3]

theorem xori (d : Reg) (a : Reg) (imm : BitVec 16) : Statement (Instr.xori d a imm) := fun hw => by
  have e : put 0x14000000 [(d.val, 21), (a.val, 16), (imm.toNat, 0)] = 5 * 2 ^ 26 + (d.val * 2 ^ 21 + (a.val * 2 ^ 16 + imm.toNat)) := by simp only [put]; omega
  have v3 : imm.toNat < 2 ^ 16 := imm.isLt
  have b3 := v3
  have v2 : a.val < 2 ^ 5 := a.isLt
  have b2 := field_bound (lo := 16) b3 v2
  have v1 : d.val < 2 ^ 5 := d.isLt
  have b1 := field_bound (lo := 21) b2 v1
  have v0 : 5 < 2 ^ 6 := by decide
  have b0 := field_bound (lo := 26) b1 v0
  have f0 := field_hit (lo := 26) b1 v0
  have f1 := field_skip (v := 5) (lo := 26) (by decide) (field_hit (lo := 21) b2 v1)
  have f2 := field_skip (v := 5) (lo := 26) (by decide) (field_skip (v := d.val) (lo := 21) (by decide) (field_hit (lo := 16) b3 v2))
  have f3 := field_skip_low (v := 5) (lo := 26) (by decide) (field_skip_low (v := d.val) (lo := 21) (by decide) (field_skip_low (v := a.val) (lo := 16) (by decide) (Nat.mod_eq_of_lt v3)))
  refine word_eq e (word_back b0 f0 (by decide) (by decide) ((major_05 f0).trans ?_) hw)
  delta decodeXori
  rw [fin32_eq d f1, fin32_eq a f2, bvOf_eq imm f3]

theorem shli (d : Reg) (a : Reg) (s : Fin 64) : Statement (Instr.shli d a s) := fun hw => by
  have e : put 0x18000000 [(d.val, 21), (a.val, 16), (s.val, 0)] = 6 * 2 ^ 26 + (d.val * 2 ^ 21 + (a.val * 2 ^ 16 + (0 * 2 ^ 6 + s.val))) := by simp only [put]; omega
  have v4 : s.val < 2 ^ 6 := s.isLt
  have b4 := v4
  have v3 : 0 < 2 ^ 10 := by decide
  have b3 := field_bound (lo := 6) b4 v3
  have v2 : a.val < 2 ^ 5 := a.isLt
  have b2 := field_bound (lo := 16) b3 v2
  have v1 : d.val < 2 ^ 5 := d.isLt
  have b1 := field_bound (lo := 21) b2 v1
  have v0 : 6 < 2 ^ 6 := by decide
  have b0 := field_bound (lo := 26) b1 v0
  have f0 := field_hit (lo := 26) b1 v0
  have f1 := field_skip (v := 6) (lo := 26) (by decide) (field_hit (lo := 21) b2 v1)
  have f2 := field_skip (v := 6) (lo := 26) (by decide) (field_skip (v := d.val) (lo := 21) (by decide) (field_hit (lo := 16) b3 v2))
  have f3 := field_skip (v := 6) (lo := 26) (by decide) (field_skip (v := d.val) (lo := 21) (by decide) (field_skip (v := a.val) (lo := 16) (by decide) (field_hit (lo := 6) b4 v3)))
  have f4 := field_skip_low (v := 6) (lo := 26) (by decide) (field_skip_low (v := d.val) (lo := 21) (by decide) (field_skip_low (v := a.val) (lo := 16) (by decide) (field_skip_low (v := 0) (lo := 6) (by decide) (Nat.mod_eq_of_lt v4))))
  refine word_eq e (word_back b0 f0 (by decide) (by decide) ((major_06 f0).trans ?_) hw)
  refine (if_pos f3).trans ?_
  rw [fin32_eq d f1, fin32_eq a f2, finOf_eq s f4]

theorem shri (d : Reg) (a : Reg) (s : Fin 64) : Statement (Instr.shri d a s) := fun hw => by
  have e : put 0x18004000 [(d.val, 21), (a.val, 16), (s.val, 0)] = 6 * 2 ^ 26 + (d.val * 2 ^ 21 + (a.val * 2 ^ 16 + (256 * 2 ^ 6 + s.val))) := by simp only [put]; omega
  have v4 : s.val < 2 ^ 6 := s.isLt
  have b4 := v4
  have v3 : 256 < 2 ^ 10 := by decide
  have b3 := field_bound (lo := 6) b4 v3
  have v2 : a.val < 2 ^ 5 := a.isLt
  have b2 := field_bound (lo := 16) b3 v2
  have v1 : d.val < 2 ^ 5 := d.isLt
  have b1 := field_bound (lo := 21) b2 v1
  have v0 : 6 < 2 ^ 6 := by decide
  have b0 := field_bound (lo := 26) b1 v0
  have f0 := field_hit (lo := 26) b1 v0
  have f1 := field_skip (v := 6) (lo := 26) (by decide) (field_hit (lo := 21) b2 v1)
  have f2 := field_skip (v := 6) (lo := 26) (by decide) (field_skip (v := d.val) (lo := 21) (by decide) (field_hit (lo := 16) b3 v2))
  have f3 := field_skip (v := 6) (lo := 26) (by decide) (field_skip (v := d.val) (lo := 21) (by decide) (field_skip (v := a.val) (lo := 16) (by decide) (field_hit (lo := 6) b4 v3)))
  have f4 := field_skip_low (v := 6) (lo := 26) (by decide) (field_skip_low (v := d.val) (lo := 21) (by decide) (field_skip_low (v := a.val) (lo := 16) (by decide) (field_skip_low (v := 256) (lo := 6) (by decide) (Nat.mod_eq_of_lt v4))))
  refine word_eq e (word_back b0 f0 (by decide) (by decide) ((major_06 f0).trans ?_) hw)
  refine (if_neg (other_value f3 (by decide))).trans ?_
  refine (if_pos f3).trans ?_
  rw [fin32_eq d f1, fin32_eq a f2, finOf_eq s f4]

theorem srai (d : Reg) (a : Reg) (s : Fin 64) : Statement (Instr.srai d a s) := fun hw => by
  have e : put 0x18008000 [(d.val, 21), (a.val, 16), (s.val, 0)] = 6 * 2 ^ 26 + (d.val * 2 ^ 21 + (a.val * 2 ^ 16 + (512 * 2 ^ 6 + s.val))) := by simp only [put]; omega
  have v4 : s.val < 2 ^ 6 := s.isLt
  have b4 := v4
  have v3 : 512 < 2 ^ 10 := by decide
  have b3 := field_bound (lo := 6) b4 v3
  have v2 : a.val < 2 ^ 5 := a.isLt
  have b2 := field_bound (lo := 16) b3 v2
  have v1 : d.val < 2 ^ 5 := d.isLt
  have b1 := field_bound (lo := 21) b2 v1
  have v0 : 6 < 2 ^ 6 := by decide
  have b0 := field_bound (lo := 26) b1 v0
  have f0 := field_hit (lo := 26) b1 v0
  have f1 := field_skip (v := 6) (lo := 26) (by decide) (field_hit (lo := 21) b2 v1)
  have f2 := field_skip (v := 6) (lo := 26) (by decide) (field_skip (v := d.val) (lo := 21) (by decide) (field_hit (lo := 16) b3 v2))
  have f3 := field_skip (v := 6) (lo := 26) (by decide) (field_skip (v := d.val) (lo := 21) (by decide) (field_skip (v := a.val) (lo := 16) (by decide) (field_hit (lo := 6) b4 v3)))
  have f4 := field_skip_low (v := 6) (lo := 26) (by decide) (field_skip_low (v := d.val) (lo := 21) (by decide) (field_skip_low (v := a.val) (lo := 16) (by decide) (field_skip_low (v := 512) (lo := 6) (by decide) (Nat.mod_eq_of_lt v4))))
  refine word_eq e (word_back b0 f0 (by decide) (by decide) ((major_06 f0).trans ?_) hw)
  iterate 2 refine (if_neg (other_value f3 (by decide))).trans ?_
  refine (if_pos f3).trans ?_
  rw [fin32_eq d f1, fin32_eq a f2, finOf_eq s f4]

theorem lim (d : Reg) (p : Fin 4) (imm : BitVec 16) : Statement (Instr.lim d p imm) := fun hw => by
  have e : put 0x1c000000 [(d.val, 21), (p.val, 16), (imm.toNat, 0)] = 7 * 2 ^ 26 + (d.val * 2 ^ 21 + (0 * 2 ^ 18 + (p.val * 2 ^ 16 + imm.toNat))) := by simp only [put]; omega
  have v4 : imm.toNat < 2 ^ 16 := imm.isLt
  have b4 := v4
  have v3 : p.val < 2 ^ 2 := p.isLt
  have b3 := field_bound (lo := 16) b4 v3
  have v2 : 0 < 2 ^ 3 := by decide
  have b2 := field_bound (lo := 18) b3 v2
  have v1 : d.val < 2 ^ 5 := d.isLt
  have b1 := field_bound (lo := 21) b2 v1
  have v0 : 7 < 2 ^ 6 := by decide
  have b0 := field_bound (lo := 26) b1 v0
  have f0 := field_hit (lo := 26) b1 v0
  have f1 := field_skip (v := 7) (lo := 26) (by decide) (field_hit (lo := 21) b2 v1)
  have f2 := field_skip (v := 7) (lo := 26) (by decide) (field_skip (v := d.val) (lo := 21) (by decide) (field_hit (lo := 18) b3 v2))
  have f3 := field_skip (v := 7) (lo := 26) (by decide) (field_skip (v := d.val) (lo := 21) (by decide) (field_skip (v := 0) (lo := 18) (by decide) (field_hit (lo := 16) b4 v3)))
  have f4 := field_skip_low (v := 7) (lo := 26) (by decide) (field_skip_low (v := d.val) (lo := 21) (by decide) (field_skip_low (v := 0) (lo := 18) (by decide) (field_skip_low (v := p.val) (lo := 16) (by decide) (Nat.mod_eq_of_lt v4))))
  refine word_eq e (word_back b0 f0 (by decide) (by decide) ((major_07 f0).trans ?_) hw)
  refine (if_pos f2).trans ?_
  rw [fin32_eq d f1, finOf_eq p f3, bvOf_eq imm f4]

theorem limK (d : Reg) (p : Fin 4) (imm : BitVec 16) : Statement (Instr.limK d p imm) := fun hw => by
  have e : put 0x1c040000 [(d.val, 21), (p.val, 16), (imm.toNat, 0)] = 7 * 2 ^ 26 + (d.val * 2 ^ 21 + (1 * 2 ^ 18 + (p.val * 2 ^ 16 + imm.toNat))) := by simp only [put]; omega
  have v4 : imm.toNat < 2 ^ 16 := imm.isLt
  have b4 := v4
  have v3 : p.val < 2 ^ 2 := p.isLt
  have b3 := field_bound (lo := 16) b4 v3
  have v2 : 1 < 2 ^ 3 := by decide
  have b2 := field_bound (lo := 18) b3 v2
  have v1 : d.val < 2 ^ 5 := d.isLt
  have b1 := field_bound (lo := 21) b2 v1
  have v0 : 7 < 2 ^ 6 := by decide
  have b0 := field_bound (lo := 26) b1 v0
  have f0 := field_hit (lo := 26) b1 v0
  have f1 := field_skip (v := 7) (lo := 26) (by decide) (field_hit (lo := 21) b2 v1)
  have f2 := field_skip (v := 7) (lo := 26) (by decide) (field_skip (v := d.val) (lo := 21) (by decide) (field_hit (lo := 18) b3 v2))
  have f3 := field_skip (v := 7) (lo := 26) (by decide) (field_skip (v := d.val) (lo := 21) (by decide) (field_skip (v := 1) (lo := 18) (by decide) (field_hit (lo := 16) b4 v3)))
  have f4 := field_skip_low (v := 7) (lo := 26) (by decide) (field_skip_low (v := d.val) (lo := 21) (by decide) (field_skip_low (v := 1) (lo := 18) (by decide) (field_skip_low (v := p.val) (lo := 16) (by decide) (Nat.mod_eq_of_lt v4))))
  refine word_eq e (word_back b0 f0 (by decide) (by decide) ((major_07 f0).trans ?_) hw)
  refine (if_neg (other_value f2 (by decide))).trans ?_
  refine (if_pos f2).trans ?_
  rw [fin32_eq d f1, finOf_eq p f3, bvOf_eq imm f4]

theorem slti (d : Reg) (a : Reg) (imm : BitVec 16) : Statement (Instr.slti d a imm) := fun hw => by
  have e : put 0x20000000 [(d.val, 21), (a.val, 16), (imm.toNat, 0)] = 8 * 2 ^ 26 + (d.val * 2 ^ 21 + (a.val * 2 ^ 16 + imm.toNat)) := by simp only [put]; omega
  have v3 : imm.toNat < 2 ^ 16 := imm.isLt
  have b3 := v3
  have v2 : a.val < 2 ^ 5 := a.isLt
  have b2 := field_bound (lo := 16) b3 v2
  have v1 : d.val < 2 ^ 5 := d.isLt
  have b1 := field_bound (lo := 21) b2 v1
  have v0 : 8 < 2 ^ 6 := by decide
  have b0 := field_bound (lo := 26) b1 v0
  have f0 := field_hit (lo := 26) b1 v0
  have f1 := field_skip (v := 8) (lo := 26) (by decide) (field_hit (lo := 21) b2 v1)
  have f2 := field_skip (v := 8) (lo := 26) (by decide) (field_skip (v := d.val) (lo := 21) (by decide) (field_hit (lo := 16) b3 v2))
  have f3 := field_skip_low (v := 8) (lo := 26) (by decide) (field_skip_low (v := d.val) (lo := 21) (by decide) (field_skip_low (v := a.val) (lo := 16) (by decide) (Nat.mod_eq_of_lt v3)))
  refine word_eq e (word_back b0 f0 (by decide) (by decide) ((major_08 f0).trans ?_) hw)
  delta decodeSlti
  rw [fin32_eq d f1, fin32_eq a f2, bvOf_eq imm f3]

theorem sltni (d : Reg) (a : Reg) (imm : BitVec 16) : Statement (Instr.sltni d a imm) := fun hw => by
  have e : put 0x24000000 [(d.val, 21), (a.val, 16), (imm.toNat, 0)] = 9 * 2 ^ 26 + (d.val * 2 ^ 21 + (a.val * 2 ^ 16 + imm.toNat)) := by simp only [put]; omega
  have v3 : imm.toNat < 2 ^ 16 := imm.isLt
  have b3 := v3
  have v2 : a.val < 2 ^ 5 := a.isLt
  have b2 := field_bound (lo := 16) b3 v2
  have v1 : d.val < 2 ^ 5 := d.isLt
  have b1 := field_bound (lo := 21) b2 v1
  have v0 : 9 < 2 ^ 6 := by decide
  have b0 := field_bound (lo := 26) b1 v0
  have f0 := field_hit (lo := 26) b1 v0
  have f1 := field_skip (v := 9) (lo := 26) (by decide) (field_hit (lo := 21) b2 v1)
  have f2 := field_skip (v := 9) (lo := 26) (by decide) (field_skip (v := d.val) (lo := 21) (by decide) (field_hit (lo := 16) b3 v2))
  have f3 := field_skip_low (v := 9) (lo := 26) (by decide) (field_skip_low (v := d.val) (lo := 21) (by decide) (field_skip_low (v := a.val) (lo := 16) (by decide) (Nat.mod_eq_of_lt v3)))
  refine word_eq e (word_back b0 f0 (by decide) (by decide) ((major_09 f0).trans ?_) hw)
  delta decodeSltni
  rw [fin32_eq d f1, fin32_eq a f2, bvOf_eq imm f3]

theorem fadd (d : Reg) (a : Reg) (b : Reg) (p : Fin 4) (r : Fin 8) : Statement (Instr.fadd d a b p r) := fun hw => by
  have e : put 0x28000000 [(d.val, 21), (a.val, 16), (b.val, 11), (p.val, 4), (r.val, 0)] = 10 * 2 ^ 26 + (d.val * 2 ^ 21 + (a.val * 2 ^ 16 + (b.val * 2 ^ 11 + (0 * 2 ^ 6 + (p.val * 2 ^ 4 + (0 * 2 ^ 3 + r.val)))))) := by simp only [put]; omega
  have v7 : r.val < 2 ^ 3 := r.isLt
  have b7 := v7
  have v6 : 0 < 2 ^ 1 := by decide
  have b6 := field_bound (lo := 3) b7 v6
  have v5 : p.val < 2 ^ 2 := p.isLt
  have b5 := field_bound (lo := 4) b6 v5
  have v4 : 0 < 2 ^ 5 := by decide
  have b4 := field_bound (lo := 6) b5 v4
  have v3 : b.val < 2 ^ 5 := b.isLt
  have b3 := field_bound (lo := 11) b4 v3
  have v2 : a.val < 2 ^ 5 := a.isLt
  have b2 := field_bound (lo := 16) b3 v2
  have v1 : d.val < 2 ^ 5 := d.isLt
  have b1 := field_bound (lo := 21) b2 v1
  have v0 : 10 < 2 ^ 6 := by decide
  have b0 := field_bound (lo := 26) b1 v0
  have f0 := field_hit (lo := 26) b1 v0
  have f1 := field_skip (v := 10) (lo := 26) (by decide) (field_hit (lo := 21) b2 v1)
  have f2 := field_skip (v := 10) (lo := 26) (by decide) (field_skip (v := d.val) (lo := 21) (by decide) (field_hit (lo := 16) b3 v2))
  have f3 := field_skip (v := 10) (lo := 26) (by decide) (field_skip (v := d.val) (lo := 21) (by decide) (field_skip (v := a.val) (lo := 16) (by decide) (field_hit (lo := 11) b4 v3)))
  have f4 := field_skip (v := 10) (lo := 26) (by decide) (field_skip (v := d.val) (lo := 21) (by decide) (field_skip (v := a.val) (lo := 16) (by decide) (field_skip (v := b.val) (lo := 11) (by decide) (field_hit (lo := 6) b5 v4))))
  have f5 := field_skip (v := 10) (lo := 26) (by decide) (field_skip (v := d.val) (lo := 21) (by decide) (field_skip (v := a.val) (lo := 16) (by decide) (field_skip (v := b.val) (lo := 11) (by decide) (field_skip (v := 0) (lo := 6) (by decide) (field_hit (lo := 4) b6 v5)))))
  have f6 := field_skip (v := 10) (lo := 26) (by decide) (field_skip (v := d.val) (lo := 21) (by decide) (field_skip (v := a.val) (lo := 16) (by decide) (field_skip (v := b.val) (lo := 11) (by decide) (field_skip (v := 0) (lo := 6) (by decide) (field_skip (v := p.val) (lo := 4) (by decide) (field_hit (lo := 3) b7 v6))))))
  have f7 := field_skip_low (v := 10) (lo := 26) (by decide) (field_skip_low (v := d.val) (lo := 21) (by decide) (field_skip_low (v := a.val) (lo := 16) (by decide) (field_skip_low (v := b.val) (lo := 11) (by decide) (field_skip_low (v := 0) (lo := 6) (by decide) (field_skip_low (v := p.val) (lo := 4) (by decide) (field_skip_low (v := 0) (lo := 3) (by decide) (Nat.mod_eq_of_lt v7)))))))
  refine word_eq e (word_back b0 f0 (by decide) (by decide) ((major_0a f0).trans ?_) hw)
  refine (if_pos ⟨f6, f4⟩).trans ?_
  rw [fin32_eq d f1, fin32_eq a f2, fin32_eq b f3, finOf_eq p f5, finOf_eq r f7]

theorem fsub (d : Reg) (a : Reg) (b : Reg) (p : Fin 4) (r : Fin 8) : Statement (Instr.fsub d a b p r) := fun hw => by
  have e : put 0x28000040 [(d.val, 21), (a.val, 16), (b.val, 11), (p.val, 4), (r.val, 0)] = 10 * 2 ^ 26 + (d.val * 2 ^ 21 + (a.val * 2 ^ 16 + (b.val * 2 ^ 11 + (1 * 2 ^ 6 + (p.val * 2 ^ 4 + (0 * 2 ^ 3 + r.val)))))) := by simp only [put]; omega
  have v7 : r.val < 2 ^ 3 := r.isLt
  have b7 := v7
  have v6 : 0 < 2 ^ 1 := by decide
  have b6 := field_bound (lo := 3) b7 v6
  have v5 : p.val < 2 ^ 2 := p.isLt
  have b5 := field_bound (lo := 4) b6 v5
  have v4 : 1 < 2 ^ 5 := by decide
  have b4 := field_bound (lo := 6) b5 v4
  have v3 : b.val < 2 ^ 5 := b.isLt
  have b3 := field_bound (lo := 11) b4 v3
  have v2 : a.val < 2 ^ 5 := a.isLt
  have b2 := field_bound (lo := 16) b3 v2
  have v1 : d.val < 2 ^ 5 := d.isLt
  have b1 := field_bound (lo := 21) b2 v1
  have v0 : 10 < 2 ^ 6 := by decide
  have b0 := field_bound (lo := 26) b1 v0
  have f0 := field_hit (lo := 26) b1 v0
  have f1 := field_skip (v := 10) (lo := 26) (by decide) (field_hit (lo := 21) b2 v1)
  have f2 := field_skip (v := 10) (lo := 26) (by decide) (field_skip (v := d.val) (lo := 21) (by decide) (field_hit (lo := 16) b3 v2))
  have f3 := field_skip (v := 10) (lo := 26) (by decide) (field_skip (v := d.val) (lo := 21) (by decide) (field_skip (v := a.val) (lo := 16) (by decide) (field_hit (lo := 11) b4 v3)))
  have f4 := field_skip (v := 10) (lo := 26) (by decide) (field_skip (v := d.val) (lo := 21) (by decide) (field_skip (v := a.val) (lo := 16) (by decide) (field_skip (v := b.val) (lo := 11) (by decide) (field_hit (lo := 6) b5 v4))))
  have f5 := field_skip (v := 10) (lo := 26) (by decide) (field_skip (v := d.val) (lo := 21) (by decide) (field_skip (v := a.val) (lo := 16) (by decide) (field_skip (v := b.val) (lo := 11) (by decide) (field_skip (v := 1) (lo := 6) (by decide) (field_hit (lo := 4) b6 v5)))))
  have f6 := field_skip (v := 10) (lo := 26) (by decide) (field_skip (v := d.val) (lo := 21) (by decide) (field_skip (v := a.val) (lo := 16) (by decide) (field_skip (v := b.val) (lo := 11) (by decide) (field_skip (v := 1) (lo := 6) (by decide) (field_skip (v := p.val) (lo := 4) (by decide) (field_hit (lo := 3) b7 v6))))))
  have f7 := field_skip_low (v := 10) (lo := 26) (by decide) (field_skip_low (v := d.val) (lo := 21) (by decide) (field_skip_low (v := a.val) (lo := 16) (by decide) (field_skip_low (v := b.val) (lo := 11) (by decide) (field_skip_low (v := 1) (lo := 6) (by decide) (field_skip_low (v := p.val) (lo := 4) (by decide) (field_skip_low (v := 0) (lo := 3) (by decide) (Nat.mod_eq_of_lt v7)))))))
  refine word_eq e (word_back b0 f0 (by decide) (by decide) ((major_0a f0).trans ?_) hw)
  refine (if_neg (fun c => other_value f4 (by decide) c.2)).trans ?_
  refine (if_pos ⟨f6, f4⟩).trans ?_
  rw [fin32_eq d f1, fin32_eq a f2, fin32_eq b f3, finOf_eq p f5, finOf_eq r f7]

theorem fmul (d : Reg) (a : Reg) (b : Reg) (p : Fin 4) (r : Fin 8) : Statement (Instr.fmul d a b p r) := fun hw => by
  have e : put 0x28000080 [(d.val, 21), (a.val, 16), (b.val, 11), (p.val, 4), (r.val, 0)] = 10 * 2 ^ 26 + (d.val * 2 ^ 21 + (a.val * 2 ^ 16 + (b.val * 2 ^ 11 + (2 * 2 ^ 6 + (p.val * 2 ^ 4 + (0 * 2 ^ 3 + r.val)))))) := by simp only [put]; omega
  have v7 : r.val < 2 ^ 3 := r.isLt
  have b7 := v7
  have v6 : 0 < 2 ^ 1 := by decide
  have b6 := field_bound (lo := 3) b7 v6
  have v5 : p.val < 2 ^ 2 := p.isLt
  have b5 := field_bound (lo := 4) b6 v5
  have v4 : 2 < 2 ^ 5 := by decide
  have b4 := field_bound (lo := 6) b5 v4
  have v3 : b.val < 2 ^ 5 := b.isLt
  have b3 := field_bound (lo := 11) b4 v3
  have v2 : a.val < 2 ^ 5 := a.isLt
  have b2 := field_bound (lo := 16) b3 v2
  have v1 : d.val < 2 ^ 5 := d.isLt
  have b1 := field_bound (lo := 21) b2 v1
  have v0 : 10 < 2 ^ 6 := by decide
  have b0 := field_bound (lo := 26) b1 v0
  have f0 := field_hit (lo := 26) b1 v0
  have f1 := field_skip (v := 10) (lo := 26) (by decide) (field_hit (lo := 21) b2 v1)
  have f2 := field_skip (v := 10) (lo := 26) (by decide) (field_skip (v := d.val) (lo := 21) (by decide) (field_hit (lo := 16) b3 v2))
  have f3 := field_skip (v := 10) (lo := 26) (by decide) (field_skip (v := d.val) (lo := 21) (by decide) (field_skip (v := a.val) (lo := 16) (by decide) (field_hit (lo := 11) b4 v3)))
  have f4 := field_skip (v := 10) (lo := 26) (by decide) (field_skip (v := d.val) (lo := 21) (by decide) (field_skip (v := a.val) (lo := 16) (by decide) (field_skip (v := b.val) (lo := 11) (by decide) (field_hit (lo := 6) b5 v4))))
  have f5 := field_skip (v := 10) (lo := 26) (by decide) (field_skip (v := d.val) (lo := 21) (by decide) (field_skip (v := a.val) (lo := 16) (by decide) (field_skip (v := b.val) (lo := 11) (by decide) (field_skip (v := 2) (lo := 6) (by decide) (field_hit (lo := 4) b6 v5)))))
  have f6 := field_skip (v := 10) (lo := 26) (by decide) (field_skip (v := d.val) (lo := 21) (by decide) (field_skip (v := a.val) (lo := 16) (by decide) (field_skip (v := b.val) (lo := 11) (by decide) (field_skip (v := 2) (lo := 6) (by decide) (field_skip (v := p.val) (lo := 4) (by decide) (field_hit (lo := 3) b7 v6))))))
  have f7 := field_skip_low (v := 10) (lo := 26) (by decide) (field_skip_low (v := d.val) (lo := 21) (by decide) (field_skip_low (v := a.val) (lo := 16) (by decide) (field_skip_low (v := b.val) (lo := 11) (by decide) (field_skip_low (v := 2) (lo := 6) (by decide) (field_skip_low (v := p.val) (lo := 4) (by decide) (field_skip_low (v := 0) (lo := 3) (by decide) (Nat.mod_eq_of_lt v7)))))))
  refine word_eq e (word_back b0 f0 (by decide) (by decide) ((major_0a f0).trans ?_) hw)
  iterate 2 refine (if_neg (fun c => other_value f4 (by decide) c.2)).trans ?_
  refine (if_pos ⟨f6, f4⟩).trans ?_
  rw [fin32_eq d f1, fin32_eq a f2, fin32_eq b f3, finOf_eq p f5, finOf_eq r f7]

theorem fdiv (d : Reg) (a : Reg) (b : Reg) (p : Fin 4) (r : Fin 8) : Statement (Instr.fdiv d a b p r) := fun hw => by
  have e : put 0x280000c0 [(d.val, 21), (a.val, 16), (b.val, 11), (p.val, 4), (r.val, 0)] = 10 * 2 ^ 26 + (d.val * 2 ^ 21 + (a.val * 2 ^ 16 + (b.val * 2 ^ 11 + (3 * 2 ^ 6 + (p.val * 2 ^ 4 + (0 * 2 ^ 3 + r.val)))))) := by simp only [put]; omega
  have v7 : r.val < 2 ^ 3 := r.isLt
  have b7 := v7
  have v6 : 0 < 2 ^ 1 := by decide
  have b6 := field_bound (lo := 3) b7 v6
  have v5 : p.val < 2 ^ 2 := p.isLt
  have b5 := field_bound (lo := 4) b6 v5
  have v4 : 3 < 2 ^ 5 := by decide
  have b4 := field_bound (lo := 6) b5 v4
  have v3 : b.val < 2 ^ 5 := b.isLt
  have b3 := field_bound (lo := 11) b4 v3
  have v2 : a.val < 2 ^ 5 := a.isLt
  have b2 := field_bound (lo := 16) b3 v2
  have v1 : d.val < 2 ^ 5 := d.isLt
  have b1 := field_bound (lo := 21) b2 v1
  have v0 : 10 < 2 ^ 6 := by decide
  have b0 := field_bound (lo := 26) b1 v0
  have f0 := field_hit (lo := 26) b1 v0
  have f1 := field_skip (v := 10) (lo := 26) (by decide) (field_hit (lo := 21) b2 v1)
  have f2 := field_skip (v := 10) (lo := 26) (by decide) (field_skip (v := d.val) (lo := 21) (by decide) (field_hit (lo := 16) b3 v2))
  have f3 := field_skip (v := 10) (lo := 26) (by decide) (field_skip (v := d.val) (lo := 21) (by decide) (field_skip (v := a.val) (lo := 16) (by decide) (field_hit (lo := 11) b4 v3)))
  have f4 := field_skip (v := 10) (lo := 26) (by decide) (field_skip (v := d.val) (lo := 21) (by decide) (field_skip (v := a.val) (lo := 16) (by decide) (field_skip (v := b.val) (lo := 11) (by decide) (field_hit (lo := 6) b5 v4))))
  have f5 := field_skip (v := 10) (lo := 26) (by decide) (field_skip (v := d.val) (lo := 21) (by decide) (field_skip (v := a.val) (lo := 16) (by decide) (field_skip (v := b.val) (lo := 11) (by decide) (field_skip (v := 3) (lo := 6) (by decide) (field_hit (lo := 4) b6 v5)))))
  have f6 := field_skip (v := 10) (lo := 26) (by decide) (field_skip (v := d.val) (lo := 21) (by decide) (field_skip (v := a.val) (lo := 16) (by decide) (field_skip (v := b.val) (lo := 11) (by decide) (field_skip (v := 3) (lo := 6) (by decide) (field_skip (v := p.val) (lo := 4) (by decide) (field_hit (lo := 3) b7 v6))))))
  have f7 := field_skip_low (v := 10) (lo := 26) (by decide) (field_skip_low (v := d.val) (lo := 21) (by decide) (field_skip_low (v := a.val) (lo := 16) (by decide) (field_skip_low (v := b.val) (lo := 11) (by decide) (field_skip_low (v := 3) (lo := 6) (by decide) (field_skip_low (v := p.val) (lo := 4) (by decide) (field_skip_low (v := 0) (lo := 3) (by decide) (Nat.mod_eq_of_lt v7)))))))
  refine word_eq e (word_back b0 f0 (by decide) (by decide) ((major_0a f0).trans ?_) hw)
  iterate 3 refine (if_neg (fun c => other_value f4 (by decide) c.2)).trans ?_
  refine (if_pos ⟨f6, f4⟩).trans ?_
  rw [fin32_eq d f1, fin32_eq a f2, fin32_eq b f3, finOf_eq p f5, finOf_eq r f7]

theorem fsqrt (d : Reg) (a : Reg) (p : Fin 4) (r : Fin 8) : Statement (Instr.fsqrt d a p r) := fun hw => by
  have e : put 0x28000100 [(d.val, 21), (a.val, 16), (p.val, 4), (r.val, 0)] = 10 * 2 ^ 26 + (d.val * 2 ^ 21 + (a.val * 2 ^ 16 + (4 * 2 ^ 6 + (p.val * 2 ^ 4 + (0 * 2 ^ 3 + r.val))))) := by simp only [put]; omega
  have v6 : r.val < 2 ^ 3 := r.isLt
  have b6 := v6
  have v5 : 0 < 2 ^ 1 := by decide
  have b5 := field_bound (lo := 3) b6 v5
  have v4 : p.val < 2 ^ 2 := p.isLt
  have b4 := field_bound (lo := 4) b5 v4
  have v3 : 4 < 2 ^ 10 := by decide
  have b3 := field_bound (lo := 6) b4 v3
  have v2 : a.val < 2 ^ 5 := a.isLt
  have b2 := field_bound (lo := 16) b3 v2
  have v1 : d.val < 2 ^ 5 := d.isLt
  have b1 := field_bound (lo := 21) b2 v1
  have v0 : 10 < 2 ^ 6 := by decide
  have b0 := field_bound (lo := 26) b1 v0
  have f0 := field_hit (lo := 26) b1 v0
  have f1 := field_skip (v := 10) (lo := 26) (by decide) (field_hit (lo := 21) b2 v1)
  have f2 := field_skip (v := 10) (lo := 26) (by decide) (field_skip (v := d.val) (lo := 21) (by decide) (field_hit (lo := 16) b3 v2))
  have f3 := field_skip (v := 10) (lo := 26) (by decide) (field_skip (v := d.val) (lo := 21) (by decide) (field_skip (v := a.val) (lo := 16) (by decide) (field_hit (lo := 6) b4 v3)))
  have f4 := field_skip (v := 10) (lo := 26) (by decide) (field_skip (v := d.val) (lo := 21) (by decide) (field_skip (v := a.val) (lo := 16) (by decide) (field_skip (v := 4) (lo := 6) (by decide) (field_hit (lo := 4) b5 v4))))
  have f5 := field_skip (v := 10) (lo := 26) (by decide) (field_skip (v := d.val) (lo := 21) (by decide) (field_skip (v := a.val) (lo := 16) (by decide) (field_skip (v := 4) (lo := 6) (by decide) (field_skip (v := p.val) (lo := 4) (by decide) (field_hit (lo := 3) b6 v5)))))
  have f6 := field_skip_low (v := 10) (lo := 26) (by decide) (field_skip_low (v := d.val) (lo := 21) (by decide) (field_skip_low (v := a.val) (lo := 16) (by decide) (field_skip_low (v := 4) (lo := 6) (by decide) (field_skip_low (v := p.val) (lo := 4) (by decide) (field_skip_low (v := 0) (lo := 3) (by decide) (Nat.mod_eq_of_lt v6))))))
  refine word_eq e (word_back b0 f0 (by decide) (by decide) ((major_0a f0).trans ?_) hw)
  iterate 4 refine (if_neg (fun c => absurd ((sub_field (lo := 6) 0 5 f3 (by decide)).symm.trans (sub_field (lo := 6) 0 5 c.2 (by decide))) (by decide))).trans ?_
  refine (if_pos ⟨f5, f3⟩).trans ?_
  rw [fin32_eq d f1, fin32_eq a f2, finOf_eq p f4, finOf_eq r f6]

theorem fma (d : Reg) (a : Reg) (b : Reg) (p : Fin 4) (r : Fin 8) : Statement (Instr.fma d a b p r) := fun hw => by
  have e : put 0x28000140 [(d.val, 21), (a.val, 16), (b.val, 11), (p.val, 4), (r.val, 0)] = 10 * 2 ^ 26 + (d.val * 2 ^ 21 + (a.val * 2 ^ 16 + (b.val * 2 ^ 11 + (5 * 2 ^ 6 + (p.val * 2 ^ 4 + (0 * 2 ^ 3 + r.val)))))) := by simp only [put]; omega
  have v7 : r.val < 2 ^ 3 := r.isLt
  have b7 := v7
  have v6 : 0 < 2 ^ 1 := by decide
  have b6 := field_bound (lo := 3) b7 v6
  have v5 : p.val < 2 ^ 2 := p.isLt
  have b5 := field_bound (lo := 4) b6 v5
  have v4 : 5 < 2 ^ 5 := by decide
  have b4 := field_bound (lo := 6) b5 v4
  have v3 : b.val < 2 ^ 5 := b.isLt
  have b3 := field_bound (lo := 11) b4 v3
  have v2 : a.val < 2 ^ 5 := a.isLt
  have b2 := field_bound (lo := 16) b3 v2
  have v1 : d.val < 2 ^ 5 := d.isLt
  have b1 := field_bound (lo := 21) b2 v1
  have v0 : 10 < 2 ^ 6 := by decide
  have b0 := field_bound (lo := 26) b1 v0
  have f0 := field_hit (lo := 26) b1 v0
  have f1 := field_skip (v := 10) (lo := 26) (by decide) (field_hit (lo := 21) b2 v1)
  have f2 := field_skip (v := 10) (lo := 26) (by decide) (field_skip (v := d.val) (lo := 21) (by decide) (field_hit (lo := 16) b3 v2))
  have f3 := field_skip (v := 10) (lo := 26) (by decide) (field_skip (v := d.val) (lo := 21) (by decide) (field_skip (v := a.val) (lo := 16) (by decide) (field_hit (lo := 11) b4 v3)))
  have f4 := field_skip (v := 10) (lo := 26) (by decide) (field_skip (v := d.val) (lo := 21) (by decide) (field_skip (v := a.val) (lo := 16) (by decide) (field_skip (v := b.val) (lo := 11) (by decide) (field_hit (lo := 6) b5 v4))))
  have f5 := field_skip (v := 10) (lo := 26) (by decide) (field_skip (v := d.val) (lo := 21) (by decide) (field_skip (v := a.val) (lo := 16) (by decide) (field_skip (v := b.val) (lo := 11) (by decide) (field_skip (v := 5) (lo := 6) (by decide) (field_hit (lo := 4) b6 v5)))))
  have f6 := field_skip (v := 10) (lo := 26) (by decide) (field_skip (v := d.val) (lo := 21) (by decide) (field_skip (v := a.val) (lo := 16) (by decide) (field_skip (v := b.val) (lo := 11) (by decide) (field_skip (v := 5) (lo := 6) (by decide) (field_skip (v := p.val) (lo := 4) (by decide) (field_hit (lo := 3) b7 v6))))))
  have f7 := field_skip_low (v := 10) (lo := 26) (by decide) (field_skip_low (v := d.val) (lo := 21) (by decide) (field_skip_low (v := a.val) (lo := 16) (by decide) (field_skip_low (v := b.val) (lo := 11) (by decide) (field_skip_low (v := 5) (lo := 6) (by decide) (field_skip_low (v := p.val) (lo := 4) (by decide) (field_skip_low (v := 0) (lo := 3) (by decide) (Nat.mod_eq_of_lt v7)))))))
  refine word_eq e (word_back b0 f0 (by decide) (by decide) ((major_0a f0).trans ?_) hw)
  iterate 4 refine (if_neg (fun c => other_value f4 (by decide) c.2)).trans ?_
  refine (if_neg (fun c => absurd ((sub_field (lo := 6) 0 5 f4 (by decide)).symm.trans (sub_field (lo := 6) 0 5 c.2 (by decide))) (by decide))).trans ?_
  refine (if_pos ⟨f6, f4⟩).trans ?_
  rw [fin32_eq d f1, fin32_eq a f2, fin32_eq b f3, finOf_eq p f5, finOf_eq r f7]

theorem fmin (d : Reg) (a : Reg) (b : Reg) (p : Fin 4) : Statement (Instr.fmin d a b p) := fun hw => by
  have e : put 0x28000187 [(d.val, 21), (a.val, 16), (b.val, 11), (p.val, 4)] = 10 * 2 ^ 26 + (d.val * 2 ^ 21 + (a.val * 2 ^ 16 + (b.val * 2 ^ 11 + (6 * 2 ^ 6 + (p.val * 2 ^ 4 + 7))))) := by simp only [put]; omega
  have v6 : 7 < 2 ^ 4 := by decide
  have b6 := v6
  have v5 : p.val < 2 ^ 2 := p.isLt
  have b5 := field_bound (lo := 4) b6 v5
  have v4 : 6 < 2 ^ 5 := by decide
  have b4 := field_bound (lo := 6) b5 v4
  have v3 : b.val < 2 ^ 5 := b.isLt
  have b3 := field_bound (lo := 11) b4 v3
  have v2 : a.val < 2 ^ 5 := a.isLt
  have b2 := field_bound (lo := 16) b3 v2
  have v1 : d.val < 2 ^ 5 := d.isLt
  have b1 := field_bound (lo := 21) b2 v1
  have v0 : 10 < 2 ^ 6 := by decide
  have b0 := field_bound (lo := 26) b1 v0
  have f0 := field_hit (lo := 26) b1 v0
  have f1 := field_skip (v := 10) (lo := 26) (by decide) (field_hit (lo := 21) b2 v1)
  have f2 := field_skip (v := 10) (lo := 26) (by decide) (field_skip (v := d.val) (lo := 21) (by decide) (field_hit (lo := 16) b3 v2))
  have f3 := field_skip (v := 10) (lo := 26) (by decide) (field_skip (v := d.val) (lo := 21) (by decide) (field_skip (v := a.val) (lo := 16) (by decide) (field_hit (lo := 11) b4 v3)))
  have f4 := field_skip (v := 10) (lo := 26) (by decide) (field_skip (v := d.val) (lo := 21) (by decide) (field_skip (v := a.val) (lo := 16) (by decide) (field_skip (v := b.val) (lo := 11) (by decide) (field_hit (lo := 6) b5 v4))))
  have f5 := field_skip (v := 10) (lo := 26) (by decide) (field_skip (v := d.val) (lo := 21) (by decide) (field_skip (v := a.val) (lo := 16) (by decide) (field_skip (v := b.val) (lo := 11) (by decide) (field_skip (v := 6) (lo := 6) (by decide) (field_hit (lo := 4) b6 v5)))))
  have f6 := field_skip_low (v := 10) (lo := 26) (by decide) (field_skip_low (v := d.val) (lo := 21) (by decide) (field_skip_low (v := a.val) (lo := 16) (by decide) (field_skip_low (v := b.val) (lo := 11) (by decide) (field_skip_low (v := 6) (lo := 6) (by decide) (field_skip_low (v := p.val) (lo := 4) (by decide) (Nat.mod_eq_of_lt v6))))))
  refine word_eq e (word_back b0 f0 (by decide) (by decide) ((major_0a f0).trans ?_) hw)
  iterate 4 refine (if_neg (fun c => other_value f4 (by decide) c.2)).trans ?_
  refine (if_neg (fun c => absurd ((sub_field (lo := 6) 0 5 f4 (by decide)).symm.trans (sub_field (lo := 6) 0 5 c.2 (by decide))) (by decide))).trans ?_
  refine (if_neg (fun c => other_value f4 (by decide) c.2)).trans ?_
  refine (if_pos ⟨f6, f4⟩).trans ?_
  rw [fin32_eq d f1, fin32_eq a f2, fin32_eq b f3, finOf_eq p f5]

theorem fmax (d : Reg) (a : Reg) (b : Reg) (p : Fin 4) : Statement (Instr.fmax d a b p) := fun hw => by
  have e : put 0x280001c7 [(d.val, 21), (a.val, 16), (b.val, 11), (p.val, 4)] = 10 * 2 ^ 26 + (d.val * 2 ^ 21 + (a.val * 2 ^ 16 + (b.val * 2 ^ 11 + (7 * 2 ^ 6 + (p.val * 2 ^ 4 + 7))))) := by simp only [put]; omega
  have v6 : 7 < 2 ^ 4 := by decide
  have b6 := v6
  have v5 : p.val < 2 ^ 2 := p.isLt
  have b5 := field_bound (lo := 4) b6 v5
  have v4 : 7 < 2 ^ 5 := by decide
  have b4 := field_bound (lo := 6) b5 v4
  have v3 : b.val < 2 ^ 5 := b.isLt
  have b3 := field_bound (lo := 11) b4 v3
  have v2 : a.val < 2 ^ 5 := a.isLt
  have b2 := field_bound (lo := 16) b3 v2
  have v1 : d.val < 2 ^ 5 := d.isLt
  have b1 := field_bound (lo := 21) b2 v1
  have v0 : 10 < 2 ^ 6 := by decide
  have b0 := field_bound (lo := 26) b1 v0
  have f0 := field_hit (lo := 26) b1 v0
  have f1 := field_skip (v := 10) (lo := 26) (by decide) (field_hit (lo := 21) b2 v1)
  have f2 := field_skip (v := 10) (lo := 26) (by decide) (field_skip (v := d.val) (lo := 21) (by decide) (field_hit (lo := 16) b3 v2))
  have f3 := field_skip (v := 10) (lo := 26) (by decide) (field_skip (v := d.val) (lo := 21) (by decide) (field_skip (v := a.val) (lo := 16) (by decide) (field_hit (lo := 11) b4 v3)))
  have f4 := field_skip (v := 10) (lo := 26) (by decide) (field_skip (v := d.val) (lo := 21) (by decide) (field_skip (v := a.val) (lo := 16) (by decide) (field_skip (v := b.val) (lo := 11) (by decide) (field_hit (lo := 6) b5 v4))))
  have f5 := field_skip (v := 10) (lo := 26) (by decide) (field_skip (v := d.val) (lo := 21) (by decide) (field_skip (v := a.val) (lo := 16) (by decide) (field_skip (v := b.val) (lo := 11) (by decide) (field_skip (v := 7) (lo := 6) (by decide) (field_hit (lo := 4) b6 v5)))))
  have f6 := field_skip_low (v := 10) (lo := 26) (by decide) (field_skip_low (v := d.val) (lo := 21) (by decide) (field_skip_low (v := a.val) (lo := 16) (by decide) (field_skip_low (v := b.val) (lo := 11) (by decide) (field_skip_low (v := 7) (lo := 6) (by decide) (field_skip_low (v := p.val) (lo := 4) (by decide) (Nat.mod_eq_of_lt v6))))))
  refine word_eq e (word_back b0 f0 (by decide) (by decide) ((major_0a f0).trans ?_) hw)
  iterate 4 refine (if_neg (fun c => other_value f4 (by decide) c.2)).trans ?_
  refine (if_neg (fun c => absurd ((sub_field (lo := 6) 0 5 f4 (by decide)).symm.trans (sub_field (lo := 6) 0 5 c.2 (by decide))) (by decide))).trans ?_
  iterate 2 refine (if_neg (fun c => other_value f4 (by decide) c.2)).trans ?_
  refine (if_pos ⟨f6, f4⟩).trans ?_
  rw [fin32_eq d f1, fin32_eq a f2, fin32_eq b f3, finOf_eq p f5]

theorem feq (d : Reg) (a : Reg) (b : Reg) (p : Fin 4) : Statement (Instr.feq d a b p) := fun hw => by
  have e : put 0x28000207 [(d.val, 21), (a.val, 16), (b.val, 11), (p.val, 4)] = 10 * 2 ^ 26 + (d.val * 2 ^ 21 + (a.val * 2 ^ 16 + (b.val * 2 ^ 11 + (8 * 2 ^ 6 + (p.val * 2 ^ 4 + 7))))) := by simp only [put]; omega
  have v6 : 7 < 2 ^ 4 := by decide
  have b6 := v6
  have v5 : p.val < 2 ^ 2 := p.isLt
  have b5 := field_bound (lo := 4) b6 v5
  have v4 : 8 < 2 ^ 5 := by decide
  have b4 := field_bound (lo := 6) b5 v4
  have v3 : b.val < 2 ^ 5 := b.isLt
  have b3 := field_bound (lo := 11) b4 v3
  have v2 : a.val < 2 ^ 5 := a.isLt
  have b2 := field_bound (lo := 16) b3 v2
  have v1 : d.val < 2 ^ 5 := d.isLt
  have b1 := field_bound (lo := 21) b2 v1
  have v0 : 10 < 2 ^ 6 := by decide
  have b0 := field_bound (lo := 26) b1 v0
  have f0 := field_hit (lo := 26) b1 v0
  have f1 := field_skip (v := 10) (lo := 26) (by decide) (field_hit (lo := 21) b2 v1)
  have f2 := field_skip (v := 10) (lo := 26) (by decide) (field_skip (v := d.val) (lo := 21) (by decide) (field_hit (lo := 16) b3 v2))
  have f3 := field_skip (v := 10) (lo := 26) (by decide) (field_skip (v := d.val) (lo := 21) (by decide) (field_skip (v := a.val) (lo := 16) (by decide) (field_hit (lo := 11) b4 v3)))
  have f4 := field_skip (v := 10) (lo := 26) (by decide) (field_skip (v := d.val) (lo := 21) (by decide) (field_skip (v := a.val) (lo := 16) (by decide) (field_skip (v := b.val) (lo := 11) (by decide) (field_hit (lo := 6) b5 v4))))
  have f5 := field_skip (v := 10) (lo := 26) (by decide) (field_skip (v := d.val) (lo := 21) (by decide) (field_skip (v := a.val) (lo := 16) (by decide) (field_skip (v := b.val) (lo := 11) (by decide) (field_skip (v := 8) (lo := 6) (by decide) (field_hit (lo := 4) b6 v5)))))
  have f6 := field_skip_low (v := 10) (lo := 26) (by decide) (field_skip_low (v := d.val) (lo := 21) (by decide) (field_skip_low (v := a.val) (lo := 16) (by decide) (field_skip_low (v := b.val) (lo := 11) (by decide) (field_skip_low (v := 8) (lo := 6) (by decide) (field_skip_low (v := p.val) (lo := 4) (by decide) (Nat.mod_eq_of_lt v6))))))
  refine word_eq e (word_back b0 f0 (by decide) (by decide) ((major_0a f0).trans ?_) hw)
  iterate 4 refine (if_neg (fun c => other_value f4 (by decide) c.2)).trans ?_
  refine (if_neg (fun c => absurd ((sub_field (lo := 6) 0 5 f4 (by decide)).symm.trans (sub_field (lo := 6) 0 5 c.2 (by decide))) (by decide))).trans ?_
  iterate 3 refine (if_neg (fun c => other_value f4 (by decide) c.2)).trans ?_
  refine (if_pos ⟨f6, f4⟩).trans ?_
  rw [fin32_eq d f1, fin32_eq a f2, fin32_eq b f3, finOf_eq p f5]

theorem flt (d : Reg) (a : Reg) (b : Reg) (p : Fin 4) : Statement (Instr.flt d a b p) := fun hw => by
  have e : put 0x28000247 [(d.val, 21), (a.val, 16), (b.val, 11), (p.val, 4)] = 10 * 2 ^ 26 + (d.val * 2 ^ 21 + (a.val * 2 ^ 16 + (b.val * 2 ^ 11 + (9 * 2 ^ 6 + (p.val * 2 ^ 4 + 7))))) := by simp only [put]; omega
  have v6 : 7 < 2 ^ 4 := by decide
  have b6 := v6
  have v5 : p.val < 2 ^ 2 := p.isLt
  have b5 := field_bound (lo := 4) b6 v5
  have v4 : 9 < 2 ^ 5 := by decide
  have b4 := field_bound (lo := 6) b5 v4
  have v3 : b.val < 2 ^ 5 := b.isLt
  have b3 := field_bound (lo := 11) b4 v3
  have v2 : a.val < 2 ^ 5 := a.isLt
  have b2 := field_bound (lo := 16) b3 v2
  have v1 : d.val < 2 ^ 5 := d.isLt
  have b1 := field_bound (lo := 21) b2 v1
  have v0 : 10 < 2 ^ 6 := by decide
  have b0 := field_bound (lo := 26) b1 v0
  have f0 := field_hit (lo := 26) b1 v0
  have f1 := field_skip (v := 10) (lo := 26) (by decide) (field_hit (lo := 21) b2 v1)
  have f2 := field_skip (v := 10) (lo := 26) (by decide) (field_skip (v := d.val) (lo := 21) (by decide) (field_hit (lo := 16) b3 v2))
  have f3 := field_skip (v := 10) (lo := 26) (by decide) (field_skip (v := d.val) (lo := 21) (by decide) (field_skip (v := a.val) (lo := 16) (by decide) (field_hit (lo := 11) b4 v3)))
  have f4 := field_skip (v := 10) (lo := 26) (by decide) (field_skip (v := d.val) (lo := 21) (by decide) (field_skip (v := a.val) (lo := 16) (by decide) (field_skip (v := b.val) (lo := 11) (by decide) (field_hit (lo := 6) b5 v4))))
  have f5 := field_skip (v := 10) (lo := 26) (by decide) (field_skip (v := d.val) (lo := 21) (by decide) (field_skip (v := a.val) (lo := 16) (by decide) (field_skip (v := b.val) (lo := 11) (by decide) (field_skip (v := 9) (lo := 6) (by decide) (field_hit (lo := 4) b6 v5)))))
  have f6 := field_skip_low (v := 10) (lo := 26) (by decide) (field_skip_low (v := d.val) (lo := 21) (by decide) (field_skip_low (v := a.val) (lo := 16) (by decide) (field_skip_low (v := b.val) (lo := 11) (by decide) (field_skip_low (v := 9) (lo := 6) (by decide) (field_skip_low (v := p.val) (lo := 4) (by decide) (Nat.mod_eq_of_lt v6))))))
  refine word_eq e (word_back b0 f0 (by decide) (by decide) ((major_0a f0).trans ?_) hw)
  iterate 4 refine (if_neg (fun c => other_value f4 (by decide) c.2)).trans ?_
  refine (if_neg (fun c => absurd ((sub_field (lo := 6) 0 5 f4 (by decide)).symm.trans (sub_field (lo := 6) 0 5 c.2 (by decide))) (by decide))).trans ?_
  iterate 4 refine (if_neg (fun c => other_value f4 (by decide) c.2)).trans ?_
  refine (if_pos ⟨f6, f4⟩).trans ?_
  rw [fin32_eq d f1, fin32_eq a f2, fin32_eq b f3, finOf_eq p f5]

theorem fle (d : Reg) (a : Reg) (b : Reg) (p : Fin 4) : Statement (Instr.fle d a b p) := fun hw => by
  have e : put 0x28000287 [(d.val, 21), (a.val, 16), (b.val, 11), (p.val, 4)] = 10 * 2 ^ 26 + (d.val * 2 ^ 21 + (a.val * 2 ^ 16 + (b.val * 2 ^ 11 + (10 * 2 ^ 6 + (p.val * 2 ^ 4 + 7))))) := by simp only [put]; omega
  have v6 : 7 < 2 ^ 4 := by decide
  have b6 := v6
  have v5 : p.val < 2 ^ 2 := p.isLt
  have b5 := field_bound (lo := 4) b6 v5
  have v4 : 10 < 2 ^ 5 := by decide
  have b4 := field_bound (lo := 6) b5 v4
  have v3 : b.val < 2 ^ 5 := b.isLt
  have b3 := field_bound (lo := 11) b4 v3
  have v2 : a.val < 2 ^ 5 := a.isLt
  have b2 := field_bound (lo := 16) b3 v2
  have v1 : d.val < 2 ^ 5 := d.isLt
  have b1 := field_bound (lo := 21) b2 v1
  have v0 : 10 < 2 ^ 6 := by decide
  have b0 := field_bound (lo := 26) b1 v0
  have f0 := field_hit (lo := 26) b1 v0
  have f1 := field_skip (v := 10) (lo := 26) (by decide) (field_hit (lo := 21) b2 v1)
  have f2 := field_skip (v := 10) (lo := 26) (by decide) (field_skip (v := d.val) (lo := 21) (by decide) (field_hit (lo := 16) b3 v2))
  have f3 := field_skip (v := 10) (lo := 26) (by decide) (field_skip (v := d.val) (lo := 21) (by decide) (field_skip (v := a.val) (lo := 16) (by decide) (field_hit (lo := 11) b4 v3)))
  have f4 := field_skip (v := 10) (lo := 26) (by decide) (field_skip (v := d.val) (lo := 21) (by decide) (field_skip (v := a.val) (lo := 16) (by decide) (field_skip (v := b.val) (lo := 11) (by decide) (field_hit (lo := 6) b5 v4))))
  have f5 := field_skip (v := 10) (lo := 26) (by decide) (field_skip (v := d.val) (lo := 21) (by decide) (field_skip (v := a.val) (lo := 16) (by decide) (field_skip (v := b.val) (lo := 11) (by decide) (field_skip (v := 10) (lo := 6) (by decide) (field_hit (lo := 4) b6 v5)))))
  have f6 := field_skip_low (v := 10) (lo := 26) (by decide) (field_skip_low (v := d.val) (lo := 21) (by decide) (field_skip_low (v := a.val) (lo := 16) (by decide) (field_skip_low (v := b.val) (lo := 11) (by decide) (field_skip_low (v := 10) (lo := 6) (by decide) (field_skip_low (v := p.val) (lo := 4) (by decide) (Nat.mod_eq_of_lt v6))))))
  refine word_eq e (word_back b0 f0 (by decide) (by decide) ((major_0a f0).trans ?_) hw)
  iterate 4 refine (if_neg (fun c => other_value f4 (by decide) c.2)).trans ?_
  refine (if_neg (fun c => absurd ((sub_field (lo := 6) 0 5 f4 (by decide)).symm.trans (sub_field (lo := 6) 0 5 c.2 (by decide))) (by decide))).trans ?_
  iterate 5 refine (if_neg (fun c => other_value f4 (by decide) c.2)).trans ?_
  refine (if_pos ⟨f6, f4⟩).trans ?_
  rw [fin32_eq d f1, fin32_eq a f2, fin32_eq b f3, finOf_eq p f5]

theorem fcvt (d : Reg) (a : Reg) (t : Fin 4) (p : Fin 4) (r : Fin 8) : Statement (Instr.fcvt d a t p r) := fun hw => by
  have e : put 0x280002c0 [(d.val, 21), (a.val, 16), (t.val, 11), (p.val, 4), (r.val, 0)] = 10 * 2 ^ 26 + (d.val * 2 ^ 21 + (a.val * 2 ^ 16 + (0 * 2 ^ 13 + (t.val * 2 ^ 11 + (11 * 2 ^ 6 + (p.val * 2 ^ 4 + (0 * 2 ^ 3 + r.val))))))) := by simp only [put]; omega
  have v8 : r.val < 2 ^ 3 := r.isLt
  have b8 := v8
  have v7 : 0 < 2 ^ 1 := by decide
  have b7 := field_bound (lo := 3) b8 v7
  have v6 : p.val < 2 ^ 2 := p.isLt
  have b6 := field_bound (lo := 4) b7 v6
  have v5 : 11 < 2 ^ 5 := by decide
  have b5 := field_bound (lo := 6) b6 v5
  have v4 : t.val < 2 ^ 2 := t.isLt
  have b4 := field_bound (lo := 11) b5 v4
  have v3 : 0 < 2 ^ 3 := by decide
  have b3 := field_bound (lo := 13) b4 v3
  have v2 : a.val < 2 ^ 5 := a.isLt
  have b2 := field_bound (lo := 16) b3 v2
  have v1 : d.val < 2 ^ 5 := d.isLt
  have b1 := field_bound (lo := 21) b2 v1
  have v0 : 10 < 2 ^ 6 := by decide
  have b0 := field_bound (lo := 26) b1 v0
  have f0 := field_hit (lo := 26) b1 v0
  have f1 := field_skip (v := 10) (lo := 26) (by decide) (field_hit (lo := 21) b2 v1)
  have f2 := field_skip (v := 10) (lo := 26) (by decide) (field_skip (v := d.val) (lo := 21) (by decide) (field_hit (lo := 16) b3 v2))
  have f3 := field_skip (v := 10) (lo := 26) (by decide) (field_skip (v := d.val) (lo := 21) (by decide) (field_skip (v := a.val) (lo := 16) (by decide) (field_hit (lo := 13) b4 v3)))
  have f4 := field_skip (v := 10) (lo := 26) (by decide) (field_skip (v := d.val) (lo := 21) (by decide) (field_skip (v := a.val) (lo := 16) (by decide) (field_skip (v := 0) (lo := 13) (by decide) (field_hit (lo := 11) b5 v4))))
  have f5 := field_skip (v := 10) (lo := 26) (by decide) (field_skip (v := d.val) (lo := 21) (by decide) (field_skip (v := a.val) (lo := 16) (by decide) (field_skip (v := 0) (lo := 13) (by decide) (field_skip (v := t.val) (lo := 11) (by decide) (field_hit (lo := 6) b6 v5)))))
  have f6 := field_skip (v := 10) (lo := 26) (by decide) (field_skip (v := d.val) (lo := 21) (by decide) (field_skip (v := a.val) (lo := 16) (by decide) (field_skip (v := 0) (lo := 13) (by decide) (field_skip (v := t.val) (lo := 11) (by decide) (field_skip (v := 11) (lo := 6) (by decide) (field_hit (lo := 4) b7 v6))))))
  have f7 := field_skip (v := 10) (lo := 26) (by decide) (field_skip (v := d.val) (lo := 21) (by decide) (field_skip (v := a.val) (lo := 16) (by decide) (field_skip (v := 0) (lo := 13) (by decide) (field_skip (v := t.val) (lo := 11) (by decide) (field_skip (v := 11) (lo := 6) (by decide) (field_skip (v := p.val) (lo := 4) (by decide) (field_hit (lo := 3) b8 v7)))))))
  have f8 := field_skip_low (v := 10) (lo := 26) (by decide) (field_skip_low (v := d.val) (lo := 21) (by decide) (field_skip_low (v := a.val) (lo := 16) (by decide) (field_skip_low (v := 0) (lo := 13) (by decide) (field_skip_low (v := t.val) (lo := 11) (by decide) (field_skip_low (v := 11) (lo := 6) (by decide) (field_skip_low (v := p.val) (lo := 4) (by decide) (field_skip_low (v := 0) (lo := 3) (by decide) (Nat.mod_eq_of_lt v8))))))))
  refine word_eq e (word_back b0 f0 (by decide) (by decide) ((major_0a f0).trans ?_) hw)
  iterate 4 refine (if_neg (fun c => other_value f5 (by decide) c.2)).trans ?_
  refine (if_neg (fun c => absurd ((sub_field (lo := 6) 0 5 f5 (by decide)).symm.trans (sub_field (lo := 6) 0 5 c.2 (by decide))) (by decide))).trans ?_
  iterate 6 refine (if_neg (fun c => other_value f5 (by decide) c.2)).trans ?_
  refine (if_pos ⟨f7, f5, f3⟩).trans ?_
  rw [fin32_eq d f1, fin32_eq a f2, finOf_eq t f4, finOf_eq p f6, finOf_eq r f8]

theorem fcvti (d : Reg) (a : Reg) (t : Fin 8) (p : Fin 4) (r : Fin 8) : Statement (Instr.fcvti d a t p r) := fun hw => by
  have e : put 0x28000300 [(d.val, 21), (a.val, 16), (t.val, 11), (p.val, 4), (r.val, 0)] = 10 * 2 ^ 26 + (d.val * 2 ^ 21 + (a.val * 2 ^ 16 + (0 * 2 ^ 14 + (t.val * 2 ^ 11 + (12 * 2 ^ 6 + (p.val * 2 ^ 4 + (0 * 2 ^ 3 + r.val))))))) := by simp only [put]; omega
  have v8 : r.val < 2 ^ 3 := r.isLt
  have b8 := v8
  have v7 : 0 < 2 ^ 1 := by decide
  have b7 := field_bound (lo := 3) b8 v7
  have v6 : p.val < 2 ^ 2 := p.isLt
  have b6 := field_bound (lo := 4) b7 v6
  have v5 : 12 < 2 ^ 5 := by decide
  have b5 := field_bound (lo := 6) b6 v5
  have v4 : t.val < 2 ^ 3 := t.isLt
  have b4 := field_bound (lo := 11) b5 v4
  have v3 : 0 < 2 ^ 2 := by decide
  have b3 := field_bound (lo := 14) b4 v3
  have v2 : a.val < 2 ^ 5 := a.isLt
  have b2 := field_bound (lo := 16) b3 v2
  have v1 : d.val < 2 ^ 5 := d.isLt
  have b1 := field_bound (lo := 21) b2 v1
  have v0 : 10 < 2 ^ 6 := by decide
  have b0 := field_bound (lo := 26) b1 v0
  have f0 := field_hit (lo := 26) b1 v0
  have f1 := field_skip (v := 10) (lo := 26) (by decide) (field_hit (lo := 21) b2 v1)
  have f2 := field_skip (v := 10) (lo := 26) (by decide) (field_skip (v := d.val) (lo := 21) (by decide) (field_hit (lo := 16) b3 v2))
  have f3 := field_skip (v := 10) (lo := 26) (by decide) (field_skip (v := d.val) (lo := 21) (by decide) (field_skip (v := a.val) (lo := 16) (by decide) (field_hit (lo := 14) b4 v3)))
  have f4 := field_skip (v := 10) (lo := 26) (by decide) (field_skip (v := d.val) (lo := 21) (by decide) (field_skip (v := a.val) (lo := 16) (by decide) (field_skip (v := 0) (lo := 14) (by decide) (field_hit (lo := 11) b5 v4))))
  have f5 := field_skip (v := 10) (lo := 26) (by decide) (field_skip (v := d.val) (lo := 21) (by decide) (field_skip (v := a.val) (lo := 16) (by decide) (field_skip (v := 0) (lo := 14) (by decide) (field_skip (v := t.val) (lo := 11) (by decide) (field_hit (lo := 6) b6 v5)))))
  have f6 := field_skip (v := 10) (lo := 26) (by decide) (field_skip (v := d.val) (lo := 21) (by decide) (field_skip (v := a.val) (lo := 16) (by decide) (field_skip (v := 0) (lo := 14) (by decide) (field_skip (v := t.val) (lo := 11) (by decide) (field_skip (v := 12) (lo := 6) (by decide) (field_hit (lo := 4) b7 v6))))))
  have f7 := field_skip (v := 10) (lo := 26) (by decide) (field_skip (v := d.val) (lo := 21) (by decide) (field_skip (v := a.val) (lo := 16) (by decide) (field_skip (v := 0) (lo := 14) (by decide) (field_skip (v := t.val) (lo := 11) (by decide) (field_skip (v := 12) (lo := 6) (by decide) (field_skip (v := p.val) (lo := 4) (by decide) (field_hit (lo := 3) b8 v7)))))))
  have f8 := field_skip_low (v := 10) (lo := 26) (by decide) (field_skip_low (v := d.val) (lo := 21) (by decide) (field_skip_low (v := a.val) (lo := 16) (by decide) (field_skip_low (v := 0) (lo := 14) (by decide) (field_skip_low (v := t.val) (lo := 11) (by decide) (field_skip_low (v := 12) (lo := 6) (by decide) (field_skip_low (v := p.val) (lo := 4) (by decide) (field_skip_low (v := 0) (lo := 3) (by decide) (Nat.mod_eq_of_lt v8))))))))
  refine word_eq e (word_back b0 f0 (by decide) (by decide) ((major_0a f0).trans ?_) hw)
  iterate 4 refine (if_neg (fun c => other_value f5 (by decide) c.2)).trans ?_
  refine (if_neg (fun c => absurd ((sub_field (lo := 6) 0 5 f5 (by decide)).symm.trans (sub_field (lo := 6) 0 5 c.2 (by decide))) (by decide))).trans ?_
  iterate 6 refine (if_neg (fun c => other_value f5 (by decide) c.2)).trans ?_
  refine (if_neg (fun c => other_value f5 (by decide) c.2.1)).trans ?_
  refine (if_pos ⟨f7, f5, f3⟩).trans ?_
  rw [fin32_eq d f1, fin32_eq a f2, finOf_eq t f4, finOf_eq p f6, finOf_eq r f8]

theorem fcvtf (d : Reg) (a : Reg) (t : Fin 8) (p : Fin 4) (r : Fin 8) : Statement (Instr.fcvtf d a t p r) := fun hw => by
  have e : put 0x28000340 [(d.val, 21), (a.val, 16), (t.val, 11), (p.val, 4), (r.val, 0)] = 10 * 2 ^ 26 + (d.val * 2 ^ 21 + (a.val * 2 ^ 16 + (0 * 2 ^ 14 + (t.val * 2 ^ 11 + (13 * 2 ^ 6 + (p.val * 2 ^ 4 + (0 * 2 ^ 3 + r.val))))))) := by simp only [put]; omega
  have v8 : r.val < 2 ^ 3 := r.isLt
  have b8 := v8
  have v7 : 0 < 2 ^ 1 := by decide
  have b7 := field_bound (lo := 3) b8 v7
  have v6 : p.val < 2 ^ 2 := p.isLt
  have b6 := field_bound (lo := 4) b7 v6
  have v5 : 13 < 2 ^ 5 := by decide
  have b5 := field_bound (lo := 6) b6 v5
  have v4 : t.val < 2 ^ 3 := t.isLt
  have b4 := field_bound (lo := 11) b5 v4
  have v3 : 0 < 2 ^ 2 := by decide
  have b3 := field_bound (lo := 14) b4 v3
  have v2 : a.val < 2 ^ 5 := a.isLt
  have b2 := field_bound (lo := 16) b3 v2
  have v1 : d.val < 2 ^ 5 := d.isLt
  have b1 := field_bound (lo := 21) b2 v1
  have v0 : 10 < 2 ^ 6 := by decide
  have b0 := field_bound (lo := 26) b1 v0
  have f0 := field_hit (lo := 26) b1 v0
  have f1 := field_skip (v := 10) (lo := 26) (by decide) (field_hit (lo := 21) b2 v1)
  have f2 := field_skip (v := 10) (lo := 26) (by decide) (field_skip (v := d.val) (lo := 21) (by decide) (field_hit (lo := 16) b3 v2))
  have f3 := field_skip (v := 10) (lo := 26) (by decide) (field_skip (v := d.val) (lo := 21) (by decide) (field_skip (v := a.val) (lo := 16) (by decide) (field_hit (lo := 14) b4 v3)))
  have f4 := field_skip (v := 10) (lo := 26) (by decide) (field_skip (v := d.val) (lo := 21) (by decide) (field_skip (v := a.val) (lo := 16) (by decide) (field_skip (v := 0) (lo := 14) (by decide) (field_hit (lo := 11) b5 v4))))
  have f5 := field_skip (v := 10) (lo := 26) (by decide) (field_skip (v := d.val) (lo := 21) (by decide) (field_skip (v := a.val) (lo := 16) (by decide) (field_skip (v := 0) (lo := 14) (by decide) (field_skip (v := t.val) (lo := 11) (by decide) (field_hit (lo := 6) b6 v5)))))
  have f6 := field_skip (v := 10) (lo := 26) (by decide) (field_skip (v := d.val) (lo := 21) (by decide) (field_skip (v := a.val) (lo := 16) (by decide) (field_skip (v := 0) (lo := 14) (by decide) (field_skip (v := t.val) (lo := 11) (by decide) (field_skip (v := 13) (lo := 6) (by decide) (field_hit (lo := 4) b7 v6))))))
  have f7 := field_skip (v := 10) (lo := 26) (by decide) (field_skip (v := d.val) (lo := 21) (by decide) (field_skip (v := a.val) (lo := 16) (by decide) (field_skip (v := 0) (lo := 14) (by decide) (field_skip (v := t.val) (lo := 11) (by decide) (field_skip (v := 13) (lo := 6) (by decide) (field_skip (v := p.val) (lo := 4) (by decide) (field_hit (lo := 3) b8 v7)))))))
  have f8 := field_skip_low (v := 10) (lo := 26) (by decide) (field_skip_low (v := d.val) (lo := 21) (by decide) (field_skip_low (v := a.val) (lo := 16) (by decide) (field_skip_low (v := 0) (lo := 14) (by decide) (field_skip_low (v := t.val) (lo := 11) (by decide) (field_skip_low (v := 13) (lo := 6) (by decide) (field_skip_low (v := p.val) (lo := 4) (by decide) (field_skip_low (v := 0) (lo := 3) (by decide) (Nat.mod_eq_of_lt v8))))))))
  refine word_eq e (word_back b0 f0 (by decide) (by decide) ((major_0a f0).trans ?_) hw)
  iterate 4 refine (if_neg (fun c => other_value f5 (by decide) c.2)).trans ?_
  refine (if_neg (fun c => absurd ((sub_field (lo := 6) 0 5 f5 (by decide)).symm.trans (sub_field (lo := 6) 0 5 c.2 (by decide))) (by decide))).trans ?_
  iterate 6 refine (if_neg (fun c => other_value f5 (by decide) c.2)).trans ?_
  iterate 2 refine (if_neg (fun c => other_value f5 (by decide) c.2.1)).trans ?_
  refine (if_pos ⟨f7, f5, f3⟩).trans ?_
  rw [fin32_eq d f1, fin32_eq a f2, finOf_eq t f4, finOf_eq p f6, finOf_eq r f8]

theorem ld (d : Reg) (b : Reg) (z : Fin 4) (s : Bool) (c : Fin 16) (off : BitVec 9) : Statement (Instr.ld d b z s c off) := fun hw => by
  have e : put 0x2c000000 [(d.val, 21), (b.val, 16), (z.val, 14), (s.toNat, 13), (c.val, 9), (off.toNat, 0)] = 11 * 2 ^ 26 + (d.val * 2 ^ 21 + (b.val * 2 ^ 16 + (z.val * 2 ^ 14 + (s.toNat * 2 ^ 13 + (c.val * 2 ^ 9 + off.toNat))))) := by simp only [put]; omega
  have v6 : off.toNat < 2 ^ 9 := off.isLt
  have b6 := v6
  have v5 : c.val < 2 ^ 4 := c.isLt
  have b5 := field_bound (lo := 9) b6 v5
  have v4 : s.toNat < 2 ^ 1 := bool_lt s
  have b4 := field_bound (lo := 13) b5 v4
  have v3 : z.val < 2 ^ 2 := z.isLt
  have b3 := field_bound (lo := 14) b4 v3
  have v2 : b.val < 2 ^ 5 := b.isLt
  have b2 := field_bound (lo := 16) b3 v2
  have v1 : d.val < 2 ^ 5 := d.isLt
  have b1 := field_bound (lo := 21) b2 v1
  have v0 : 11 < 2 ^ 6 := by decide
  have b0 := field_bound (lo := 26) b1 v0
  have f0 := field_hit (lo := 26) b1 v0
  have f1 := field_skip (v := 11) (lo := 26) (by decide) (field_hit (lo := 21) b2 v1)
  have f2 := field_skip (v := 11) (lo := 26) (by decide) (field_skip (v := d.val) (lo := 21) (by decide) (field_hit (lo := 16) b3 v2))
  have f3 := field_skip (v := 11) (lo := 26) (by decide) (field_skip (v := d.val) (lo := 21) (by decide) (field_skip (v := b.val) (lo := 16) (by decide) (field_hit (lo := 14) b4 v3)))
  have f4 := field_skip (v := 11) (lo := 26) (by decide) (field_skip (v := d.val) (lo := 21) (by decide) (field_skip (v := b.val) (lo := 16) (by decide) (field_skip (v := z.val) (lo := 14) (by decide) (field_hit (lo := 13) b5 v4))))
  have f5 := field_skip (v := 11) (lo := 26) (by decide) (field_skip (v := d.val) (lo := 21) (by decide) (field_skip (v := b.val) (lo := 16) (by decide) (field_skip (v := z.val) (lo := 14) (by decide) (field_skip (v := s.toNat) (lo := 13) (by decide) (field_hit (lo := 9) b6 v5)))))
  have f6 := field_skip_low (v := 11) (lo := 26) (by decide) (field_skip_low (v := d.val) (lo := 21) (by decide) (field_skip_low (v := b.val) (lo := 16) (by decide) (field_skip_low (v := z.val) (lo := 14) (by decide) (field_skip_low (v := s.toNat) (lo := 13) (by decide) (field_skip_low (v := c.val) (lo := 9) (by decide) (Nat.mod_eq_of_lt v6))))))
  refine word_eq e (word_back b0 f0 (by decide) (by decide) ((major_0b f0).trans ?_) hw)
  delta decodeLd
  rw [fin32_eq d f1, fin32_eq b f2, finOf_eq z f3, bit1_eq s f4, finOf_eq c f5, bvOf_eq off f6]

theorem st (d : Reg) (b : Reg) (z : Fin 4) (c : Fin 16) (off : BitVec 9) : Statement (Instr.st d b z c off) := fun hw => by
  have e : put 0x30000000 [(d.val, 21), (b.val, 16), (z.val, 14), (c.val, 9), (off.toNat, 0)] = 12 * 2 ^ 26 + (d.val * 2 ^ 21 + (b.val * 2 ^ 16 + (z.val * 2 ^ 14 + (0 * 2 ^ 13 + (c.val * 2 ^ 9 + off.toNat))))) := by simp only [put]; omega
  have v6 : off.toNat < 2 ^ 9 := off.isLt
  have b6 := v6
  have v5 : c.val < 2 ^ 4 := c.isLt
  have b5 := field_bound (lo := 9) b6 v5
  have v4 : 0 < 2 ^ 1 := by decide
  have b4 := field_bound (lo := 13) b5 v4
  have v3 : z.val < 2 ^ 2 := z.isLt
  have b3 := field_bound (lo := 14) b4 v3
  have v2 : b.val < 2 ^ 5 := b.isLt
  have b2 := field_bound (lo := 16) b3 v2
  have v1 : d.val < 2 ^ 5 := d.isLt
  have b1 := field_bound (lo := 21) b2 v1
  have v0 : 12 < 2 ^ 6 := by decide
  have b0 := field_bound (lo := 26) b1 v0
  have f0 := field_hit (lo := 26) b1 v0
  have f1 := field_skip (v := 12) (lo := 26) (by decide) (field_hit (lo := 21) b2 v1)
  have f2 := field_skip (v := 12) (lo := 26) (by decide) (field_skip (v := d.val) (lo := 21) (by decide) (field_hit (lo := 16) b3 v2))
  have f3 := field_skip (v := 12) (lo := 26) (by decide) (field_skip (v := d.val) (lo := 21) (by decide) (field_skip (v := b.val) (lo := 16) (by decide) (field_hit (lo := 14) b4 v3)))
  have f4 := field_skip (v := 12) (lo := 26) (by decide) (field_skip (v := d.val) (lo := 21) (by decide) (field_skip (v := b.val) (lo := 16) (by decide) (field_skip (v := z.val) (lo := 14) (by decide) (field_hit (lo := 13) b5 v4))))
  have f5 := field_skip (v := 12) (lo := 26) (by decide) (field_skip (v := d.val) (lo := 21) (by decide) (field_skip (v := b.val) (lo := 16) (by decide) (field_skip (v := z.val) (lo := 14) (by decide) (field_skip (v := 0) (lo := 13) (by decide) (field_hit (lo := 9) b6 v5)))))
  have f6 := field_skip_low (v := 12) (lo := 26) (by decide) (field_skip_low (v := d.val) (lo := 21) (by decide) (field_skip_low (v := b.val) (lo := 16) (by decide) (field_skip_low (v := z.val) (lo := 14) (by decide) (field_skip_low (v := 0) (lo := 13) (by decide) (field_skip_low (v := c.val) (lo := 9) (by decide) (Nat.mod_eq_of_lt v6))))))
  refine word_eq e (word_back b0 f0 (by decide) (by decide) ((major_0c f0).trans ?_) hw)
  refine (if_pos f4).trans ?_
  rw [fin32_eq d f1, fin32_eq b f2, finOf_eq z f3, finOf_eq c f5, bvOf_eq off f6]

theorem amoadd (d : Reg) (a : Reg) (b : Reg) (z : Bool) (s : Fin 4) (ord : Fin 4) : Statement (Instr.amoadd d a b z s ord) := fun hw => by
  have e : put 0x34000000 [(d.val, 21), (a.val, 16), (b.val, 11), (z.toNat, 5), (s.val, 3), (ord.val, 1)] = 13 * 2 ^ 26 + (d.val * 2 ^ 21 + (a.val * 2 ^ 16 + (b.val * 2 ^ 11 + (0 * 2 ^ 6 + (z.toNat * 2 ^ 5 + (s.val * 2 ^ 3 + (ord.val * 2 ^ 1 + 0))))))) := by simp only [put]; omega
  have v8 : 0 < 2 ^ 1 := by decide
  have b8 := v8
  have v7 : ord.val < 2 ^ 2 := ord.isLt
  have b7 := field_bound (lo := 1) b8 v7
  have v6 : s.val < 2 ^ 2 := s.isLt
  have b6 := field_bound (lo := 3) b7 v6
  have v5 : z.toNat < 2 ^ 1 := bool_lt z
  have b5 := field_bound (lo := 5) b6 v5
  have v4 : 0 < 2 ^ 5 := by decide
  have b4 := field_bound (lo := 6) b5 v4
  have v3 : b.val < 2 ^ 5 := b.isLt
  have b3 := field_bound (lo := 11) b4 v3
  have v2 : a.val < 2 ^ 5 := a.isLt
  have b2 := field_bound (lo := 16) b3 v2
  have v1 : d.val < 2 ^ 5 := d.isLt
  have b1 := field_bound (lo := 21) b2 v1
  have v0 : 13 < 2 ^ 6 := by decide
  have b0 := field_bound (lo := 26) b1 v0
  have f0 := field_hit (lo := 26) b1 v0
  have f1 := field_skip (v := 13) (lo := 26) (by decide) (field_hit (lo := 21) b2 v1)
  have f2 := field_skip (v := 13) (lo := 26) (by decide) (field_skip (v := d.val) (lo := 21) (by decide) (field_hit (lo := 16) b3 v2))
  have f3 := field_skip (v := 13) (lo := 26) (by decide) (field_skip (v := d.val) (lo := 21) (by decide) (field_skip (v := a.val) (lo := 16) (by decide) (field_hit (lo := 11) b4 v3)))
  have f4 := field_skip (v := 13) (lo := 26) (by decide) (field_skip (v := d.val) (lo := 21) (by decide) (field_skip (v := a.val) (lo := 16) (by decide) (field_skip (v := b.val) (lo := 11) (by decide) (field_hit (lo := 6) b5 v4))))
  have f5 := field_skip (v := 13) (lo := 26) (by decide) (field_skip (v := d.val) (lo := 21) (by decide) (field_skip (v := a.val) (lo := 16) (by decide) (field_skip (v := b.val) (lo := 11) (by decide) (field_skip (v := 0) (lo := 6) (by decide) (field_hit (lo := 5) b6 v5)))))
  have f6 := field_skip (v := 13) (lo := 26) (by decide) (field_skip (v := d.val) (lo := 21) (by decide) (field_skip (v := a.val) (lo := 16) (by decide) (field_skip (v := b.val) (lo := 11) (by decide) (field_skip (v := 0) (lo := 6) (by decide) (field_skip (v := z.toNat) (lo := 5) (by decide) (field_hit (lo := 3) b7 v6))))))
  have f7 := field_skip (v := 13) (lo := 26) (by decide) (field_skip (v := d.val) (lo := 21) (by decide) (field_skip (v := a.val) (lo := 16) (by decide) (field_skip (v := b.val) (lo := 11) (by decide) (field_skip (v := 0) (lo := 6) (by decide) (field_skip (v := z.toNat) (lo := 5) (by decide) (field_skip (v := s.val) (lo := 3) (by decide) (field_hit (lo := 1) b8 v7)))))))
  have f8 := field_skip_low (v := 13) (lo := 26) (by decide) (field_skip_low (v := d.val) (lo := 21) (by decide) (field_skip_low (v := a.val) (lo := 16) (by decide) (field_skip_low (v := b.val) (lo := 11) (by decide) (field_skip_low (v := 0) (lo := 6) (by decide) (field_skip_low (v := z.toNat) (lo := 5) (by decide) (field_skip_low (v := s.val) (lo := 3) (by decide) (field_skip_low (v := ord.val) (lo := 1) (by decide) (Nat.mod_eq_of_lt v8))))))))
  refine word_eq e (word_back b0 f0 (by decide) (by decide) ((major_0d f0).trans ?_) hw)
  refine (if_pos ⟨f8, f4⟩).trans ?_
  rw [fin32_eq d f1, fin32_eq a f2, fin32_eq b f3, bit1_eq z f5, finOf_eq s f6, finOf_eq ord f7]

theorem amoand (d : Reg) (a : Reg) (b : Reg) (z : Bool) (s : Fin 4) (ord : Fin 4) : Statement (Instr.amoand d a b z s ord) := fun hw => by
  have e : put 0x34000040 [(d.val, 21), (a.val, 16), (b.val, 11), (z.toNat, 5), (s.val, 3), (ord.val, 1)] = 13 * 2 ^ 26 + (d.val * 2 ^ 21 + (a.val * 2 ^ 16 + (b.val * 2 ^ 11 + (1 * 2 ^ 6 + (z.toNat * 2 ^ 5 + (s.val * 2 ^ 3 + (ord.val * 2 ^ 1 + 0))))))) := by simp only [put]; omega
  have v8 : 0 < 2 ^ 1 := by decide
  have b8 := v8
  have v7 : ord.val < 2 ^ 2 := ord.isLt
  have b7 := field_bound (lo := 1) b8 v7
  have v6 : s.val < 2 ^ 2 := s.isLt
  have b6 := field_bound (lo := 3) b7 v6
  have v5 : z.toNat < 2 ^ 1 := bool_lt z
  have b5 := field_bound (lo := 5) b6 v5
  have v4 : 1 < 2 ^ 5 := by decide
  have b4 := field_bound (lo := 6) b5 v4
  have v3 : b.val < 2 ^ 5 := b.isLt
  have b3 := field_bound (lo := 11) b4 v3
  have v2 : a.val < 2 ^ 5 := a.isLt
  have b2 := field_bound (lo := 16) b3 v2
  have v1 : d.val < 2 ^ 5 := d.isLt
  have b1 := field_bound (lo := 21) b2 v1
  have v0 : 13 < 2 ^ 6 := by decide
  have b0 := field_bound (lo := 26) b1 v0
  have f0 := field_hit (lo := 26) b1 v0
  have f1 := field_skip (v := 13) (lo := 26) (by decide) (field_hit (lo := 21) b2 v1)
  have f2 := field_skip (v := 13) (lo := 26) (by decide) (field_skip (v := d.val) (lo := 21) (by decide) (field_hit (lo := 16) b3 v2))
  have f3 := field_skip (v := 13) (lo := 26) (by decide) (field_skip (v := d.val) (lo := 21) (by decide) (field_skip (v := a.val) (lo := 16) (by decide) (field_hit (lo := 11) b4 v3)))
  have f4 := field_skip (v := 13) (lo := 26) (by decide) (field_skip (v := d.val) (lo := 21) (by decide) (field_skip (v := a.val) (lo := 16) (by decide) (field_skip (v := b.val) (lo := 11) (by decide) (field_hit (lo := 6) b5 v4))))
  have f5 := field_skip (v := 13) (lo := 26) (by decide) (field_skip (v := d.val) (lo := 21) (by decide) (field_skip (v := a.val) (lo := 16) (by decide) (field_skip (v := b.val) (lo := 11) (by decide) (field_skip (v := 1) (lo := 6) (by decide) (field_hit (lo := 5) b6 v5)))))
  have f6 := field_skip (v := 13) (lo := 26) (by decide) (field_skip (v := d.val) (lo := 21) (by decide) (field_skip (v := a.val) (lo := 16) (by decide) (field_skip (v := b.val) (lo := 11) (by decide) (field_skip (v := 1) (lo := 6) (by decide) (field_skip (v := z.toNat) (lo := 5) (by decide) (field_hit (lo := 3) b7 v6))))))
  have f7 := field_skip (v := 13) (lo := 26) (by decide) (field_skip (v := d.val) (lo := 21) (by decide) (field_skip (v := a.val) (lo := 16) (by decide) (field_skip (v := b.val) (lo := 11) (by decide) (field_skip (v := 1) (lo := 6) (by decide) (field_skip (v := z.toNat) (lo := 5) (by decide) (field_skip (v := s.val) (lo := 3) (by decide) (field_hit (lo := 1) b8 v7)))))))
  have f8 := field_skip_low (v := 13) (lo := 26) (by decide) (field_skip_low (v := d.val) (lo := 21) (by decide) (field_skip_low (v := a.val) (lo := 16) (by decide) (field_skip_low (v := b.val) (lo := 11) (by decide) (field_skip_low (v := 1) (lo := 6) (by decide) (field_skip_low (v := z.toNat) (lo := 5) (by decide) (field_skip_low (v := s.val) (lo := 3) (by decide) (field_skip_low (v := ord.val) (lo := 1) (by decide) (Nat.mod_eq_of_lt v8))))))))
  refine word_eq e (word_back b0 f0 (by decide) (by decide) ((major_0d f0).trans ?_) hw)
  refine (if_neg (fun c => other_value f4 (by decide) c.2)).trans ?_
  refine (if_pos ⟨f8, f4⟩).trans ?_
  rw [fin32_eq d f1, fin32_eq a f2, fin32_eq b f3, bit1_eq z f5, finOf_eq s f6, finOf_eq ord f7]

theorem amoor (d : Reg) (a : Reg) (b : Reg) (z : Bool) (s : Fin 4) (ord : Fin 4) : Statement (Instr.amoor d a b z s ord) := fun hw => by
  have e : put 0x34000080 [(d.val, 21), (a.val, 16), (b.val, 11), (z.toNat, 5), (s.val, 3), (ord.val, 1)] = 13 * 2 ^ 26 + (d.val * 2 ^ 21 + (a.val * 2 ^ 16 + (b.val * 2 ^ 11 + (2 * 2 ^ 6 + (z.toNat * 2 ^ 5 + (s.val * 2 ^ 3 + (ord.val * 2 ^ 1 + 0))))))) := by simp only [put]; omega
  have v8 : 0 < 2 ^ 1 := by decide
  have b8 := v8
  have v7 : ord.val < 2 ^ 2 := ord.isLt
  have b7 := field_bound (lo := 1) b8 v7
  have v6 : s.val < 2 ^ 2 := s.isLt
  have b6 := field_bound (lo := 3) b7 v6
  have v5 : z.toNat < 2 ^ 1 := bool_lt z
  have b5 := field_bound (lo := 5) b6 v5
  have v4 : 2 < 2 ^ 5 := by decide
  have b4 := field_bound (lo := 6) b5 v4
  have v3 : b.val < 2 ^ 5 := b.isLt
  have b3 := field_bound (lo := 11) b4 v3
  have v2 : a.val < 2 ^ 5 := a.isLt
  have b2 := field_bound (lo := 16) b3 v2
  have v1 : d.val < 2 ^ 5 := d.isLt
  have b1 := field_bound (lo := 21) b2 v1
  have v0 : 13 < 2 ^ 6 := by decide
  have b0 := field_bound (lo := 26) b1 v0
  have f0 := field_hit (lo := 26) b1 v0
  have f1 := field_skip (v := 13) (lo := 26) (by decide) (field_hit (lo := 21) b2 v1)
  have f2 := field_skip (v := 13) (lo := 26) (by decide) (field_skip (v := d.val) (lo := 21) (by decide) (field_hit (lo := 16) b3 v2))
  have f3 := field_skip (v := 13) (lo := 26) (by decide) (field_skip (v := d.val) (lo := 21) (by decide) (field_skip (v := a.val) (lo := 16) (by decide) (field_hit (lo := 11) b4 v3)))
  have f4 := field_skip (v := 13) (lo := 26) (by decide) (field_skip (v := d.val) (lo := 21) (by decide) (field_skip (v := a.val) (lo := 16) (by decide) (field_skip (v := b.val) (lo := 11) (by decide) (field_hit (lo := 6) b5 v4))))
  have f5 := field_skip (v := 13) (lo := 26) (by decide) (field_skip (v := d.val) (lo := 21) (by decide) (field_skip (v := a.val) (lo := 16) (by decide) (field_skip (v := b.val) (lo := 11) (by decide) (field_skip (v := 2) (lo := 6) (by decide) (field_hit (lo := 5) b6 v5)))))
  have f6 := field_skip (v := 13) (lo := 26) (by decide) (field_skip (v := d.val) (lo := 21) (by decide) (field_skip (v := a.val) (lo := 16) (by decide) (field_skip (v := b.val) (lo := 11) (by decide) (field_skip (v := 2) (lo := 6) (by decide) (field_skip (v := z.toNat) (lo := 5) (by decide) (field_hit (lo := 3) b7 v6))))))
  have f7 := field_skip (v := 13) (lo := 26) (by decide) (field_skip (v := d.val) (lo := 21) (by decide) (field_skip (v := a.val) (lo := 16) (by decide) (field_skip (v := b.val) (lo := 11) (by decide) (field_skip (v := 2) (lo := 6) (by decide) (field_skip (v := z.toNat) (lo := 5) (by decide) (field_skip (v := s.val) (lo := 3) (by decide) (field_hit (lo := 1) b8 v7)))))))
  have f8 := field_skip_low (v := 13) (lo := 26) (by decide) (field_skip_low (v := d.val) (lo := 21) (by decide) (field_skip_low (v := a.val) (lo := 16) (by decide) (field_skip_low (v := b.val) (lo := 11) (by decide) (field_skip_low (v := 2) (lo := 6) (by decide) (field_skip_low (v := z.toNat) (lo := 5) (by decide) (field_skip_low (v := s.val) (lo := 3) (by decide) (field_skip_low (v := ord.val) (lo := 1) (by decide) (Nat.mod_eq_of_lt v8))))))))
  refine word_eq e (word_back b0 f0 (by decide) (by decide) ((major_0d f0).trans ?_) hw)
  iterate 2 refine (if_neg (fun c => other_value f4 (by decide) c.2)).trans ?_
  refine (if_pos ⟨f8, f4⟩).trans ?_
  rw [fin32_eq d f1, fin32_eq a f2, fin32_eq b f3, bit1_eq z f5, finOf_eq s f6, finOf_eq ord f7]

theorem amoxor (d : Reg) (a : Reg) (b : Reg) (z : Bool) (s : Fin 4) (ord : Fin 4) : Statement (Instr.amoxor d a b z s ord) := fun hw => by
  have e : put 0x340000c0 [(d.val, 21), (a.val, 16), (b.val, 11), (z.toNat, 5), (s.val, 3), (ord.val, 1)] = 13 * 2 ^ 26 + (d.val * 2 ^ 21 + (a.val * 2 ^ 16 + (b.val * 2 ^ 11 + (3 * 2 ^ 6 + (z.toNat * 2 ^ 5 + (s.val * 2 ^ 3 + (ord.val * 2 ^ 1 + 0))))))) := by simp only [put]; omega
  have v8 : 0 < 2 ^ 1 := by decide
  have b8 := v8
  have v7 : ord.val < 2 ^ 2 := ord.isLt
  have b7 := field_bound (lo := 1) b8 v7
  have v6 : s.val < 2 ^ 2 := s.isLt
  have b6 := field_bound (lo := 3) b7 v6
  have v5 : z.toNat < 2 ^ 1 := bool_lt z
  have b5 := field_bound (lo := 5) b6 v5
  have v4 : 3 < 2 ^ 5 := by decide
  have b4 := field_bound (lo := 6) b5 v4
  have v3 : b.val < 2 ^ 5 := b.isLt
  have b3 := field_bound (lo := 11) b4 v3
  have v2 : a.val < 2 ^ 5 := a.isLt
  have b2 := field_bound (lo := 16) b3 v2
  have v1 : d.val < 2 ^ 5 := d.isLt
  have b1 := field_bound (lo := 21) b2 v1
  have v0 : 13 < 2 ^ 6 := by decide
  have b0 := field_bound (lo := 26) b1 v0
  have f0 := field_hit (lo := 26) b1 v0
  have f1 := field_skip (v := 13) (lo := 26) (by decide) (field_hit (lo := 21) b2 v1)
  have f2 := field_skip (v := 13) (lo := 26) (by decide) (field_skip (v := d.val) (lo := 21) (by decide) (field_hit (lo := 16) b3 v2))
  have f3 := field_skip (v := 13) (lo := 26) (by decide) (field_skip (v := d.val) (lo := 21) (by decide) (field_skip (v := a.val) (lo := 16) (by decide) (field_hit (lo := 11) b4 v3)))
  have f4 := field_skip (v := 13) (lo := 26) (by decide) (field_skip (v := d.val) (lo := 21) (by decide) (field_skip (v := a.val) (lo := 16) (by decide) (field_skip (v := b.val) (lo := 11) (by decide) (field_hit (lo := 6) b5 v4))))
  have f5 := field_skip (v := 13) (lo := 26) (by decide) (field_skip (v := d.val) (lo := 21) (by decide) (field_skip (v := a.val) (lo := 16) (by decide) (field_skip (v := b.val) (lo := 11) (by decide) (field_skip (v := 3) (lo := 6) (by decide) (field_hit (lo := 5) b6 v5)))))
  have f6 := field_skip (v := 13) (lo := 26) (by decide) (field_skip (v := d.val) (lo := 21) (by decide) (field_skip (v := a.val) (lo := 16) (by decide) (field_skip (v := b.val) (lo := 11) (by decide) (field_skip (v := 3) (lo := 6) (by decide) (field_skip (v := z.toNat) (lo := 5) (by decide) (field_hit (lo := 3) b7 v6))))))
  have f7 := field_skip (v := 13) (lo := 26) (by decide) (field_skip (v := d.val) (lo := 21) (by decide) (field_skip (v := a.val) (lo := 16) (by decide) (field_skip (v := b.val) (lo := 11) (by decide) (field_skip (v := 3) (lo := 6) (by decide) (field_skip (v := z.toNat) (lo := 5) (by decide) (field_skip (v := s.val) (lo := 3) (by decide) (field_hit (lo := 1) b8 v7)))))))
  have f8 := field_skip_low (v := 13) (lo := 26) (by decide) (field_skip_low (v := d.val) (lo := 21) (by decide) (field_skip_low (v := a.val) (lo := 16) (by decide) (field_skip_low (v := b.val) (lo := 11) (by decide) (field_skip_low (v := 3) (lo := 6) (by decide) (field_skip_low (v := z.toNat) (lo := 5) (by decide) (field_skip_low (v := s.val) (lo := 3) (by decide) (field_skip_low (v := ord.val) (lo := 1) (by decide) (Nat.mod_eq_of_lt v8))))))))
  refine word_eq e (word_back b0 f0 (by decide) (by decide) ((major_0d f0).trans ?_) hw)
  iterate 3 refine (if_neg (fun c => other_value f4 (by decide) c.2)).trans ?_
  refine (if_pos ⟨f8, f4⟩).trans ?_
  rw [fin32_eq d f1, fin32_eq a f2, fin32_eq b f3, bit1_eq z f5, finOf_eq s f6, finOf_eq ord f7]

theorem amomin (d : Reg) (a : Reg) (b : Reg) (z : Bool) (s : Fin 4) (ord : Fin 4) (sg : Bool) : Statement (Instr.amomin d a b z s ord sg) := fun hw => by
  have e : put 0x34000100 [(d.val, 21), (a.val, 16), (b.val, 11), (z.toNat, 5), (s.val, 3), (ord.val, 1), (sg.toNat, 0)] = 13 * 2 ^ 26 + (d.val * 2 ^ 21 + (a.val * 2 ^ 16 + (b.val * 2 ^ 11 + (4 * 2 ^ 6 + (z.toNat * 2 ^ 5 + (s.val * 2 ^ 3 + (ord.val * 2 ^ 1 + sg.toNat))))))) := by simp only [put]; omega
  have v8 : sg.toNat < 2 ^ 1 := bool_lt sg
  have b8 := v8
  have v7 : ord.val < 2 ^ 2 := ord.isLt
  have b7 := field_bound (lo := 1) b8 v7
  have v6 : s.val < 2 ^ 2 := s.isLt
  have b6 := field_bound (lo := 3) b7 v6
  have v5 : z.toNat < 2 ^ 1 := bool_lt z
  have b5 := field_bound (lo := 5) b6 v5
  have v4 : 4 < 2 ^ 5 := by decide
  have b4 := field_bound (lo := 6) b5 v4
  have v3 : b.val < 2 ^ 5 := b.isLt
  have b3 := field_bound (lo := 11) b4 v3
  have v2 : a.val < 2 ^ 5 := a.isLt
  have b2 := field_bound (lo := 16) b3 v2
  have v1 : d.val < 2 ^ 5 := d.isLt
  have b1 := field_bound (lo := 21) b2 v1
  have v0 : 13 < 2 ^ 6 := by decide
  have b0 := field_bound (lo := 26) b1 v0
  have f0 := field_hit (lo := 26) b1 v0
  have f1 := field_skip (v := 13) (lo := 26) (by decide) (field_hit (lo := 21) b2 v1)
  have f2 := field_skip (v := 13) (lo := 26) (by decide) (field_skip (v := d.val) (lo := 21) (by decide) (field_hit (lo := 16) b3 v2))
  have f3 := field_skip (v := 13) (lo := 26) (by decide) (field_skip (v := d.val) (lo := 21) (by decide) (field_skip (v := a.val) (lo := 16) (by decide) (field_hit (lo := 11) b4 v3)))
  have f4 := field_skip (v := 13) (lo := 26) (by decide) (field_skip (v := d.val) (lo := 21) (by decide) (field_skip (v := a.val) (lo := 16) (by decide) (field_skip (v := b.val) (lo := 11) (by decide) (field_hit (lo := 6) b5 v4))))
  have f5 := field_skip (v := 13) (lo := 26) (by decide) (field_skip (v := d.val) (lo := 21) (by decide) (field_skip (v := a.val) (lo := 16) (by decide) (field_skip (v := b.val) (lo := 11) (by decide) (field_skip (v := 4) (lo := 6) (by decide) (field_hit (lo := 5) b6 v5)))))
  have f6 := field_skip (v := 13) (lo := 26) (by decide) (field_skip (v := d.val) (lo := 21) (by decide) (field_skip (v := a.val) (lo := 16) (by decide) (field_skip (v := b.val) (lo := 11) (by decide) (field_skip (v := 4) (lo := 6) (by decide) (field_skip (v := z.toNat) (lo := 5) (by decide) (field_hit (lo := 3) b7 v6))))))
  have f7 := field_skip (v := 13) (lo := 26) (by decide) (field_skip (v := d.val) (lo := 21) (by decide) (field_skip (v := a.val) (lo := 16) (by decide) (field_skip (v := b.val) (lo := 11) (by decide) (field_skip (v := 4) (lo := 6) (by decide) (field_skip (v := z.toNat) (lo := 5) (by decide) (field_skip (v := s.val) (lo := 3) (by decide) (field_hit (lo := 1) b8 v7)))))))
  have f8 := field_skip_low (v := 13) (lo := 26) (by decide) (field_skip_low (v := d.val) (lo := 21) (by decide) (field_skip_low (v := a.val) (lo := 16) (by decide) (field_skip_low (v := b.val) (lo := 11) (by decide) (field_skip_low (v := 4) (lo := 6) (by decide) (field_skip_low (v := z.toNat) (lo := 5) (by decide) (field_skip_low (v := s.val) (lo := 3) (by decide) (field_skip_low (v := ord.val) (lo := 1) (by decide) (Nat.mod_eq_of_lt v8))))))))
  refine word_eq e (word_back b0 f0 (by decide) (by decide) ((major_0d f0).trans ?_) hw)
  iterate 4 refine (if_neg (fun c => other_value f4 (by decide) c.2)).trans ?_
  refine (if_pos f4).trans ?_
  rw [fin32_eq d f1, fin32_eq a f2, fin32_eq b f3, bit1_eq z f5, finOf_eq s f6, finOf_eq ord f7, bit1_eq sg f8]

theorem amomax (d : Reg) (a : Reg) (b : Reg) (z : Bool) (s : Fin 4) (ord : Fin 4) (sg : Bool) : Statement (Instr.amomax d a b z s ord sg) := fun hw => by
  have e : put 0x34000140 [(d.val, 21), (a.val, 16), (b.val, 11), (z.toNat, 5), (s.val, 3), (ord.val, 1), (sg.toNat, 0)] = 13 * 2 ^ 26 + (d.val * 2 ^ 21 + (a.val * 2 ^ 16 + (b.val * 2 ^ 11 + (5 * 2 ^ 6 + (z.toNat * 2 ^ 5 + (s.val * 2 ^ 3 + (ord.val * 2 ^ 1 + sg.toNat))))))) := by simp only [put]; omega
  have v8 : sg.toNat < 2 ^ 1 := bool_lt sg
  have b8 := v8
  have v7 : ord.val < 2 ^ 2 := ord.isLt
  have b7 := field_bound (lo := 1) b8 v7
  have v6 : s.val < 2 ^ 2 := s.isLt
  have b6 := field_bound (lo := 3) b7 v6
  have v5 : z.toNat < 2 ^ 1 := bool_lt z
  have b5 := field_bound (lo := 5) b6 v5
  have v4 : 5 < 2 ^ 5 := by decide
  have b4 := field_bound (lo := 6) b5 v4
  have v3 : b.val < 2 ^ 5 := b.isLt
  have b3 := field_bound (lo := 11) b4 v3
  have v2 : a.val < 2 ^ 5 := a.isLt
  have b2 := field_bound (lo := 16) b3 v2
  have v1 : d.val < 2 ^ 5 := d.isLt
  have b1 := field_bound (lo := 21) b2 v1
  have v0 : 13 < 2 ^ 6 := by decide
  have b0 := field_bound (lo := 26) b1 v0
  have f0 := field_hit (lo := 26) b1 v0
  have f1 := field_skip (v := 13) (lo := 26) (by decide) (field_hit (lo := 21) b2 v1)
  have f2 := field_skip (v := 13) (lo := 26) (by decide) (field_skip (v := d.val) (lo := 21) (by decide) (field_hit (lo := 16) b3 v2))
  have f3 := field_skip (v := 13) (lo := 26) (by decide) (field_skip (v := d.val) (lo := 21) (by decide) (field_skip (v := a.val) (lo := 16) (by decide) (field_hit (lo := 11) b4 v3)))
  have f4 := field_skip (v := 13) (lo := 26) (by decide) (field_skip (v := d.val) (lo := 21) (by decide) (field_skip (v := a.val) (lo := 16) (by decide) (field_skip (v := b.val) (lo := 11) (by decide) (field_hit (lo := 6) b5 v4))))
  have f5 := field_skip (v := 13) (lo := 26) (by decide) (field_skip (v := d.val) (lo := 21) (by decide) (field_skip (v := a.val) (lo := 16) (by decide) (field_skip (v := b.val) (lo := 11) (by decide) (field_skip (v := 5) (lo := 6) (by decide) (field_hit (lo := 5) b6 v5)))))
  have f6 := field_skip (v := 13) (lo := 26) (by decide) (field_skip (v := d.val) (lo := 21) (by decide) (field_skip (v := a.val) (lo := 16) (by decide) (field_skip (v := b.val) (lo := 11) (by decide) (field_skip (v := 5) (lo := 6) (by decide) (field_skip (v := z.toNat) (lo := 5) (by decide) (field_hit (lo := 3) b7 v6))))))
  have f7 := field_skip (v := 13) (lo := 26) (by decide) (field_skip (v := d.val) (lo := 21) (by decide) (field_skip (v := a.val) (lo := 16) (by decide) (field_skip (v := b.val) (lo := 11) (by decide) (field_skip (v := 5) (lo := 6) (by decide) (field_skip (v := z.toNat) (lo := 5) (by decide) (field_skip (v := s.val) (lo := 3) (by decide) (field_hit (lo := 1) b8 v7)))))))
  have f8 := field_skip_low (v := 13) (lo := 26) (by decide) (field_skip_low (v := d.val) (lo := 21) (by decide) (field_skip_low (v := a.val) (lo := 16) (by decide) (field_skip_low (v := b.val) (lo := 11) (by decide) (field_skip_low (v := 5) (lo := 6) (by decide) (field_skip_low (v := z.toNat) (lo := 5) (by decide) (field_skip_low (v := s.val) (lo := 3) (by decide) (field_skip_low (v := ord.val) (lo := 1) (by decide) (Nat.mod_eq_of_lt v8))))))))
  refine word_eq e (word_back b0 f0 (by decide) (by decide) ((major_0d f0).trans ?_) hw)
  iterate 4 refine (if_neg (fun c => other_value f4 (by decide) c.2)).trans ?_
  refine (if_neg (other_value f4 (by decide))).trans ?_
  refine (if_pos f4).trans ?_
  rw [fin32_eq d f1, fin32_eq a f2, fin32_eq b f3, bit1_eq z f5, finOf_eq s f6, finOf_eq ord f7, bit1_eq sg f8]

theorem amoswap (d : Reg) (a : Reg) (b : Reg) (z : Bool) (s : Fin 4) (ord : Fin 4) : Statement (Instr.amoswap d a b z s ord) := fun hw => by
  have e : put 0x34000180 [(d.val, 21), (a.val, 16), (b.val, 11), (z.toNat, 5), (s.val, 3), (ord.val, 1)] = 13 * 2 ^ 26 + (d.val * 2 ^ 21 + (a.val * 2 ^ 16 + (b.val * 2 ^ 11 + (6 * 2 ^ 6 + (z.toNat * 2 ^ 5 + (s.val * 2 ^ 3 + (ord.val * 2 ^ 1 + 0))))))) := by simp only [put]; omega
  have v8 : 0 < 2 ^ 1 := by decide
  have b8 := v8
  have v7 : ord.val < 2 ^ 2 := ord.isLt
  have b7 := field_bound (lo := 1) b8 v7
  have v6 : s.val < 2 ^ 2 := s.isLt
  have b6 := field_bound (lo := 3) b7 v6
  have v5 : z.toNat < 2 ^ 1 := bool_lt z
  have b5 := field_bound (lo := 5) b6 v5
  have v4 : 6 < 2 ^ 5 := by decide
  have b4 := field_bound (lo := 6) b5 v4
  have v3 : b.val < 2 ^ 5 := b.isLt
  have b3 := field_bound (lo := 11) b4 v3
  have v2 : a.val < 2 ^ 5 := a.isLt
  have b2 := field_bound (lo := 16) b3 v2
  have v1 : d.val < 2 ^ 5 := d.isLt
  have b1 := field_bound (lo := 21) b2 v1
  have v0 : 13 < 2 ^ 6 := by decide
  have b0 := field_bound (lo := 26) b1 v0
  have f0 := field_hit (lo := 26) b1 v0
  have f1 := field_skip (v := 13) (lo := 26) (by decide) (field_hit (lo := 21) b2 v1)
  have f2 := field_skip (v := 13) (lo := 26) (by decide) (field_skip (v := d.val) (lo := 21) (by decide) (field_hit (lo := 16) b3 v2))
  have f3 := field_skip (v := 13) (lo := 26) (by decide) (field_skip (v := d.val) (lo := 21) (by decide) (field_skip (v := a.val) (lo := 16) (by decide) (field_hit (lo := 11) b4 v3)))
  have f4 := field_skip (v := 13) (lo := 26) (by decide) (field_skip (v := d.val) (lo := 21) (by decide) (field_skip (v := a.val) (lo := 16) (by decide) (field_skip (v := b.val) (lo := 11) (by decide) (field_hit (lo := 6) b5 v4))))
  have f5 := field_skip (v := 13) (lo := 26) (by decide) (field_skip (v := d.val) (lo := 21) (by decide) (field_skip (v := a.val) (lo := 16) (by decide) (field_skip (v := b.val) (lo := 11) (by decide) (field_skip (v := 6) (lo := 6) (by decide) (field_hit (lo := 5) b6 v5)))))
  have f6 := field_skip (v := 13) (lo := 26) (by decide) (field_skip (v := d.val) (lo := 21) (by decide) (field_skip (v := a.val) (lo := 16) (by decide) (field_skip (v := b.val) (lo := 11) (by decide) (field_skip (v := 6) (lo := 6) (by decide) (field_skip (v := z.toNat) (lo := 5) (by decide) (field_hit (lo := 3) b7 v6))))))
  have f7 := field_skip (v := 13) (lo := 26) (by decide) (field_skip (v := d.val) (lo := 21) (by decide) (field_skip (v := a.val) (lo := 16) (by decide) (field_skip (v := b.val) (lo := 11) (by decide) (field_skip (v := 6) (lo := 6) (by decide) (field_skip (v := z.toNat) (lo := 5) (by decide) (field_skip (v := s.val) (lo := 3) (by decide) (field_hit (lo := 1) b8 v7)))))))
  have f8 := field_skip_low (v := 13) (lo := 26) (by decide) (field_skip_low (v := d.val) (lo := 21) (by decide) (field_skip_low (v := a.val) (lo := 16) (by decide) (field_skip_low (v := b.val) (lo := 11) (by decide) (field_skip_low (v := 6) (lo := 6) (by decide) (field_skip_low (v := z.toNat) (lo := 5) (by decide) (field_skip_low (v := s.val) (lo := 3) (by decide) (field_skip_low (v := ord.val) (lo := 1) (by decide) (Nat.mod_eq_of_lt v8))))))))
  refine word_eq e (word_back b0 f0 (by decide) (by decide) ((major_0d f0).trans ?_) hw)
  iterate 4 refine (if_neg (fun c => other_value f4 (by decide) c.2)).trans ?_
  iterate 2 refine (if_neg (other_value f4 (by decide))).trans ?_
  refine (if_pos ⟨f8, f4⟩).trans ?_
  rw [fin32_eq d f1, fin32_eq a f2, fin32_eq b f3, bit1_eq z f5, finOf_eq s f6, finOf_eq ord f7]

theorem amofadd (d : Reg) (a : Reg) (b : Reg) (z : Bool) (s : Fin 4) (ord : Fin 4) : Statement (Instr.amofadd d a b z s ord) := fun hw => by
  have e : put 0x340001c0 [(d.val, 21), (a.val, 16), (b.val, 11), (z.toNat, 5), (s.val, 3), (ord.val, 1)] = 13 * 2 ^ 26 + (d.val * 2 ^ 21 + (a.val * 2 ^ 16 + (b.val * 2 ^ 11 + (7 * 2 ^ 6 + (z.toNat * 2 ^ 5 + (s.val * 2 ^ 3 + (ord.val * 2 ^ 1 + 0))))))) := by simp only [put]; omega
  have v8 : 0 < 2 ^ 1 := by decide
  have b8 := v8
  have v7 : ord.val < 2 ^ 2 := ord.isLt
  have b7 := field_bound (lo := 1) b8 v7
  have v6 : s.val < 2 ^ 2 := s.isLt
  have b6 := field_bound (lo := 3) b7 v6
  have v5 : z.toNat < 2 ^ 1 := bool_lt z
  have b5 := field_bound (lo := 5) b6 v5
  have v4 : 7 < 2 ^ 5 := by decide
  have b4 := field_bound (lo := 6) b5 v4
  have v3 : b.val < 2 ^ 5 := b.isLt
  have b3 := field_bound (lo := 11) b4 v3
  have v2 : a.val < 2 ^ 5 := a.isLt
  have b2 := field_bound (lo := 16) b3 v2
  have v1 : d.val < 2 ^ 5 := d.isLt
  have b1 := field_bound (lo := 21) b2 v1
  have v0 : 13 < 2 ^ 6 := by decide
  have b0 := field_bound (lo := 26) b1 v0
  have f0 := field_hit (lo := 26) b1 v0
  have f1 := field_skip (v := 13) (lo := 26) (by decide) (field_hit (lo := 21) b2 v1)
  have f2 := field_skip (v := 13) (lo := 26) (by decide) (field_skip (v := d.val) (lo := 21) (by decide) (field_hit (lo := 16) b3 v2))
  have f3 := field_skip (v := 13) (lo := 26) (by decide) (field_skip (v := d.val) (lo := 21) (by decide) (field_skip (v := a.val) (lo := 16) (by decide) (field_hit (lo := 11) b4 v3)))
  have f4 := field_skip (v := 13) (lo := 26) (by decide) (field_skip (v := d.val) (lo := 21) (by decide) (field_skip (v := a.val) (lo := 16) (by decide) (field_skip (v := b.val) (lo := 11) (by decide) (field_hit (lo := 6) b5 v4))))
  have f5 := field_skip (v := 13) (lo := 26) (by decide) (field_skip (v := d.val) (lo := 21) (by decide) (field_skip (v := a.val) (lo := 16) (by decide) (field_skip (v := b.val) (lo := 11) (by decide) (field_skip (v := 7) (lo := 6) (by decide) (field_hit (lo := 5) b6 v5)))))
  have f6 := field_skip (v := 13) (lo := 26) (by decide) (field_skip (v := d.val) (lo := 21) (by decide) (field_skip (v := a.val) (lo := 16) (by decide) (field_skip (v := b.val) (lo := 11) (by decide) (field_skip (v := 7) (lo := 6) (by decide) (field_skip (v := z.toNat) (lo := 5) (by decide) (field_hit (lo := 3) b7 v6))))))
  have f7 := field_skip (v := 13) (lo := 26) (by decide) (field_skip (v := d.val) (lo := 21) (by decide) (field_skip (v := a.val) (lo := 16) (by decide) (field_skip (v := b.val) (lo := 11) (by decide) (field_skip (v := 7) (lo := 6) (by decide) (field_skip (v := z.toNat) (lo := 5) (by decide) (field_skip (v := s.val) (lo := 3) (by decide) (field_hit (lo := 1) b8 v7)))))))
  have f8 := field_skip_low (v := 13) (lo := 26) (by decide) (field_skip_low (v := d.val) (lo := 21) (by decide) (field_skip_low (v := a.val) (lo := 16) (by decide) (field_skip_low (v := b.val) (lo := 11) (by decide) (field_skip_low (v := 7) (lo := 6) (by decide) (field_skip_low (v := z.toNat) (lo := 5) (by decide) (field_skip_low (v := s.val) (lo := 3) (by decide) (field_skip_low (v := ord.val) (lo := 1) (by decide) (Nat.mod_eq_of_lt v8))))))))
  refine word_eq e (word_back b0 f0 (by decide) (by decide) ((major_0d f0).trans ?_) hw)
  iterate 4 refine (if_neg (fun c => other_value f4 (by decide) c.2)).trans ?_
  iterate 2 refine (if_neg (other_value f4 (by decide))).trans ?_
  refine (if_neg (fun c => other_value f4 (by decide) c.2)).trans ?_
  refine (if_pos ⟨f8, f4⟩).trans ?_
  rw [fin32_eq d f1, fin32_eq a f2, fin32_eq b f3, bit1_eq z f5, finOf_eq s f6, finOf_eq ord f7]

theorem cas (d : Reg) (a : Reg) (b : Reg) (z : Bool) (s : Fin 4) (ord : Fin 4) : Statement (Instr.cas d a b z s ord) := fun hw => by
  have e : put 0x38000000 [(d.val, 21), (a.val, 16), (b.val, 11), (z.toNat, 5), (s.val, 3), (ord.val, 1)] = 14 * 2 ^ 26 + (d.val * 2 ^ 21 + (a.val * 2 ^ 16 + (b.val * 2 ^ 11 + (0 * 2 ^ 6 + (z.toNat * 2 ^ 5 + (s.val * 2 ^ 3 + (ord.val * 2 ^ 1 + 0))))))) := by simp only [put]; omega
  have v8 : 0 < 2 ^ 1 := by decide
  have b8 := v8
  have v7 : ord.val < 2 ^ 2 := ord.isLt
  have b7 := field_bound (lo := 1) b8 v7
  have v6 : s.val < 2 ^ 2 := s.isLt
  have b6 := field_bound (lo := 3) b7 v6
  have v5 : z.toNat < 2 ^ 1 := bool_lt z
  have b5 := field_bound (lo := 5) b6 v5
  have v4 : 0 < 2 ^ 5 := by decide
  have b4 := field_bound (lo := 6) b5 v4
  have v3 : b.val < 2 ^ 5 := b.isLt
  have b3 := field_bound (lo := 11) b4 v3
  have v2 : a.val < 2 ^ 5 := a.isLt
  have b2 := field_bound (lo := 16) b3 v2
  have v1 : d.val < 2 ^ 5 := d.isLt
  have b1 := field_bound (lo := 21) b2 v1
  have v0 : 14 < 2 ^ 6 := by decide
  have b0 := field_bound (lo := 26) b1 v0
  have f0 := field_hit (lo := 26) b1 v0
  have f1 := field_skip (v := 14) (lo := 26) (by decide) (field_hit (lo := 21) b2 v1)
  have f2 := field_skip (v := 14) (lo := 26) (by decide) (field_skip (v := d.val) (lo := 21) (by decide) (field_hit (lo := 16) b3 v2))
  have f3 := field_skip (v := 14) (lo := 26) (by decide) (field_skip (v := d.val) (lo := 21) (by decide) (field_skip (v := a.val) (lo := 16) (by decide) (field_hit (lo := 11) b4 v3)))
  have f4 := field_skip (v := 14) (lo := 26) (by decide) (field_skip (v := d.val) (lo := 21) (by decide) (field_skip (v := a.val) (lo := 16) (by decide) (field_skip (v := b.val) (lo := 11) (by decide) (field_hit (lo := 6) b5 v4))))
  have f5 := field_skip (v := 14) (lo := 26) (by decide) (field_skip (v := d.val) (lo := 21) (by decide) (field_skip (v := a.val) (lo := 16) (by decide) (field_skip (v := b.val) (lo := 11) (by decide) (field_skip (v := 0) (lo := 6) (by decide) (field_hit (lo := 5) b6 v5)))))
  have f6 := field_skip (v := 14) (lo := 26) (by decide) (field_skip (v := d.val) (lo := 21) (by decide) (field_skip (v := a.val) (lo := 16) (by decide) (field_skip (v := b.val) (lo := 11) (by decide) (field_skip (v := 0) (lo := 6) (by decide) (field_skip (v := z.toNat) (lo := 5) (by decide) (field_hit (lo := 3) b7 v6))))))
  have f7 := field_skip (v := 14) (lo := 26) (by decide) (field_skip (v := d.val) (lo := 21) (by decide) (field_skip (v := a.val) (lo := 16) (by decide) (field_skip (v := b.val) (lo := 11) (by decide) (field_skip (v := 0) (lo := 6) (by decide) (field_skip (v := z.toNat) (lo := 5) (by decide) (field_skip (v := s.val) (lo := 3) (by decide) (field_hit (lo := 1) b8 v7)))))))
  have f8 := field_skip_low (v := 14) (lo := 26) (by decide) (field_skip_low (v := d.val) (lo := 21) (by decide) (field_skip_low (v := a.val) (lo := 16) (by decide) (field_skip_low (v := b.val) (lo := 11) (by decide) (field_skip_low (v := 0) (lo := 6) (by decide) (field_skip_low (v := z.toNat) (lo := 5) (by decide) (field_skip_low (v := s.val) (lo := 3) (by decide) (field_skip_low (v := ord.val) (lo := 1) (by decide) (Nat.mod_eq_of_lt v8))))))))
  refine word_eq e (word_back b0 f0 (by decide) (by decide) ((major_0e f0).trans ?_) hw)
  refine (if_pos ⟨f8, f4⟩).trans ?_
  rw [fin32_eq d f1, fin32_eq a f2, fin32_eq b f3, bit1_eq z f5, finOf_eq s f6, finOf_eq ord f7]

theorem beq (a : Reg) (b : Reg) (off : BitVec 13) : Statement (Instr.beq a b off) := fun hw => by
  have e : put 0x3c000000 [(a.val, 18), (b.val, 13), (off.toNat, 0)] = 15 * 2 ^ 26 + (0 * 2 ^ 23 + (a.val * 2 ^ 18 + (b.val * 2 ^ 13 + off.toNat))) := by simp only [put]; omega
  have v4 : off.toNat < 2 ^ 13 := off.isLt
  have b4 := v4
  have v3 : b.val < 2 ^ 5 := b.isLt
  have b3 := field_bound (lo := 13) b4 v3
  have v2 : a.val < 2 ^ 5 := a.isLt
  have b2 := field_bound (lo := 18) b3 v2
  have v1 : 0 < 2 ^ 3 := by decide
  have b1 := field_bound (lo := 23) b2 v1
  have v0 : 15 < 2 ^ 6 := by decide
  have b0 := field_bound (lo := 26) b1 v0
  have f0 := field_hit (lo := 26) b1 v0
  have f1 := field_skip (v := 15) (lo := 26) (by decide) (field_hit (lo := 23) b2 v1)
  have f2 := field_skip (v := 15) (lo := 26) (by decide) (field_skip (v := 0) (lo := 23) (by decide) (field_hit (lo := 18) b3 v2))
  have f3 := field_skip (v := 15) (lo := 26) (by decide) (field_skip (v := 0) (lo := 23) (by decide) (field_skip (v := a.val) (lo := 18) (by decide) (field_hit (lo := 13) b4 v3)))
  have f4 := field_skip_low (v := 15) (lo := 26) (by decide) (field_skip_low (v := 0) (lo := 23) (by decide) (field_skip_low (v := a.val) (lo := 18) (by decide) (field_skip_low (v := b.val) (lo := 13) (by decide) (Nat.mod_eq_of_lt v4))))
  refine word_eq e (word_back b0 f0 (by decide) (by decide) ((major_0f f0).trans ?_) hw)
  refine (if_pos f1).trans ?_
  rw [fin32_eq a f2, fin32_eq b f3, bvOf_eq off f4]

theorem bne (a : Reg) (b : Reg) (off : BitVec 13) : Statement (Instr.bne a b off) := fun hw => by
  have e : put 0x3c800000 [(a.val, 18), (b.val, 13), (off.toNat, 0)] = 15 * 2 ^ 26 + (1 * 2 ^ 23 + (a.val * 2 ^ 18 + (b.val * 2 ^ 13 + off.toNat))) := by simp only [put]; omega
  have v4 : off.toNat < 2 ^ 13 := off.isLt
  have b4 := v4
  have v3 : b.val < 2 ^ 5 := b.isLt
  have b3 := field_bound (lo := 13) b4 v3
  have v2 : a.val < 2 ^ 5 := a.isLt
  have b2 := field_bound (lo := 18) b3 v2
  have v1 : 1 < 2 ^ 3 := by decide
  have b1 := field_bound (lo := 23) b2 v1
  have v0 : 15 < 2 ^ 6 := by decide
  have b0 := field_bound (lo := 26) b1 v0
  have f0 := field_hit (lo := 26) b1 v0
  have f1 := field_skip (v := 15) (lo := 26) (by decide) (field_hit (lo := 23) b2 v1)
  have f2 := field_skip (v := 15) (lo := 26) (by decide) (field_skip (v := 1) (lo := 23) (by decide) (field_hit (lo := 18) b3 v2))
  have f3 := field_skip (v := 15) (lo := 26) (by decide) (field_skip (v := 1) (lo := 23) (by decide) (field_skip (v := a.val) (lo := 18) (by decide) (field_hit (lo := 13) b4 v3)))
  have f4 := field_skip_low (v := 15) (lo := 26) (by decide) (field_skip_low (v := 1) (lo := 23) (by decide) (field_skip_low (v := a.val) (lo := 18) (by decide) (field_skip_low (v := b.val) (lo := 13) (by decide) (Nat.mod_eq_of_lt v4))))
  refine word_eq e (word_back b0 f0 (by decide) (by decide) ((major_0f f0).trans ?_) hw)
  refine (if_neg (other_value f1 (by decide))).trans ?_
  refine (if_pos f1).trans ?_
  rw [fin32_eq a f2, fin32_eq b f3, bvOf_eq off f4]

theorem blt (a : Reg) (b : Reg) (off : BitVec 13) : Statement (Instr.blt a b off) := fun hw => by
  have e : put 0x3d000000 [(a.val, 18), (b.val, 13), (off.toNat, 0)] = 15 * 2 ^ 26 + (2 * 2 ^ 23 + (a.val * 2 ^ 18 + (b.val * 2 ^ 13 + off.toNat))) := by simp only [put]; omega
  have v4 : off.toNat < 2 ^ 13 := off.isLt
  have b4 := v4
  have v3 : b.val < 2 ^ 5 := b.isLt
  have b3 := field_bound (lo := 13) b4 v3
  have v2 : a.val < 2 ^ 5 := a.isLt
  have b2 := field_bound (lo := 18) b3 v2
  have v1 : 2 < 2 ^ 3 := by decide
  have b1 := field_bound (lo := 23) b2 v1
  have v0 : 15 < 2 ^ 6 := by decide
  have b0 := field_bound (lo := 26) b1 v0
  have f0 := field_hit (lo := 26) b1 v0
  have f1 := field_skip (v := 15) (lo := 26) (by decide) (field_hit (lo := 23) b2 v1)
  have f2 := field_skip (v := 15) (lo := 26) (by decide) (field_skip (v := 2) (lo := 23) (by decide) (field_hit (lo := 18) b3 v2))
  have f3 := field_skip (v := 15) (lo := 26) (by decide) (field_skip (v := 2) (lo := 23) (by decide) (field_skip (v := a.val) (lo := 18) (by decide) (field_hit (lo := 13) b4 v3)))
  have f4 := field_skip_low (v := 15) (lo := 26) (by decide) (field_skip_low (v := 2) (lo := 23) (by decide) (field_skip_low (v := a.val) (lo := 18) (by decide) (field_skip_low (v := b.val) (lo := 13) (by decide) (Nat.mod_eq_of_lt v4))))
  refine word_eq e (word_back b0 f0 (by decide) (by decide) ((major_0f f0).trans ?_) hw)
  iterate 2 refine (if_neg (other_value f1 (by decide))).trans ?_
  refine (if_pos f1).trans ?_
  rw [fin32_eq a f2, fin32_eq b f3, bvOf_eq off f4]

theorem bge (a : Reg) (b : Reg) (off : BitVec 13) : Statement (Instr.bge a b off) := fun hw => by
  have e : put 0x3d800000 [(a.val, 18), (b.val, 13), (off.toNat, 0)] = 15 * 2 ^ 26 + (3 * 2 ^ 23 + (a.val * 2 ^ 18 + (b.val * 2 ^ 13 + off.toNat))) := by simp only [put]; omega
  have v4 : off.toNat < 2 ^ 13 := off.isLt
  have b4 := v4
  have v3 : b.val < 2 ^ 5 := b.isLt
  have b3 := field_bound (lo := 13) b4 v3
  have v2 : a.val < 2 ^ 5 := a.isLt
  have b2 := field_bound (lo := 18) b3 v2
  have v1 : 3 < 2 ^ 3 := by decide
  have b1 := field_bound (lo := 23) b2 v1
  have v0 : 15 < 2 ^ 6 := by decide
  have b0 := field_bound (lo := 26) b1 v0
  have f0 := field_hit (lo := 26) b1 v0
  have f1 := field_skip (v := 15) (lo := 26) (by decide) (field_hit (lo := 23) b2 v1)
  have f2 := field_skip (v := 15) (lo := 26) (by decide) (field_skip (v := 3) (lo := 23) (by decide) (field_hit (lo := 18) b3 v2))
  have f3 := field_skip (v := 15) (lo := 26) (by decide) (field_skip (v := 3) (lo := 23) (by decide) (field_skip (v := a.val) (lo := 18) (by decide) (field_hit (lo := 13) b4 v3)))
  have f4 := field_skip_low (v := 15) (lo := 26) (by decide) (field_skip_low (v := 3) (lo := 23) (by decide) (field_skip_low (v := a.val) (lo := 18) (by decide) (field_skip_low (v := b.val) (lo := 13) (by decide) (Nat.mod_eq_of_lt v4))))
  refine word_eq e (word_back b0 f0 (by decide) (by decide) ((major_0f f0).trans ?_) hw)
  iterate 3 refine (if_neg (other_value f1 (by decide))).trans ?_
  refine (if_pos f1).trans ?_
  rw [fin32_eq a f2, fin32_eq b f3, bvOf_eq off f4]

theorem bltn (a : Reg) (b : Reg) (off : BitVec 13) : Statement (Instr.bltn a b off) := fun hw => by
  have e : put 0x3e000000 [(a.val, 18), (b.val, 13), (off.toNat, 0)] = 15 * 2 ^ 26 + (4 * 2 ^ 23 + (a.val * 2 ^ 18 + (b.val * 2 ^ 13 + off.toNat))) := by simp only [put]; omega
  have v4 : off.toNat < 2 ^ 13 := off.isLt
  have b4 := v4
  have v3 : b.val < 2 ^ 5 := b.isLt
  have b3 := field_bound (lo := 13) b4 v3
  have v2 : a.val < 2 ^ 5 := a.isLt
  have b2 := field_bound (lo := 18) b3 v2
  have v1 : 4 < 2 ^ 3 := by decide
  have b1 := field_bound (lo := 23) b2 v1
  have v0 : 15 < 2 ^ 6 := by decide
  have b0 := field_bound (lo := 26) b1 v0
  have f0 := field_hit (lo := 26) b1 v0
  have f1 := field_skip (v := 15) (lo := 26) (by decide) (field_hit (lo := 23) b2 v1)
  have f2 := field_skip (v := 15) (lo := 26) (by decide) (field_skip (v := 4) (lo := 23) (by decide) (field_hit (lo := 18) b3 v2))
  have f3 := field_skip (v := 15) (lo := 26) (by decide) (field_skip (v := 4) (lo := 23) (by decide) (field_skip (v := a.val) (lo := 18) (by decide) (field_hit (lo := 13) b4 v3)))
  have f4 := field_skip_low (v := 15) (lo := 26) (by decide) (field_skip_low (v := 4) (lo := 23) (by decide) (field_skip_low (v := a.val) (lo := 18) (by decide) (field_skip_low (v := b.val) (lo := 13) (by decide) (Nat.mod_eq_of_lt v4))))
  refine word_eq e (word_back b0 f0 (by decide) (by decide) ((major_0f f0).trans ?_) hw)
  iterate 4 refine (if_neg (other_value f1 (by decide))).trans ?_
  refine (if_pos f1).trans ?_
  rw [fin32_eq a f2, fin32_eq b f3, bvOf_eq off f4]

theorem bgen (a : Reg) (b : Reg) (off : BitVec 13) : Statement (Instr.bgen a b off) := fun hw => by
  have e : put 0x3e800000 [(a.val, 18), (b.val, 13), (off.toNat, 0)] = 15 * 2 ^ 26 + (5 * 2 ^ 23 + (a.val * 2 ^ 18 + (b.val * 2 ^ 13 + off.toNat))) := by simp only [put]; omega
  have v4 : off.toNat < 2 ^ 13 := off.isLt
  have b4 := v4
  have v3 : b.val < 2 ^ 5 := b.isLt
  have b3 := field_bound (lo := 13) b4 v3
  have v2 : a.val < 2 ^ 5 := a.isLt
  have b2 := field_bound (lo := 18) b3 v2
  have v1 : 5 < 2 ^ 3 := by decide
  have b1 := field_bound (lo := 23) b2 v1
  have v0 : 15 < 2 ^ 6 := by decide
  have b0 := field_bound (lo := 26) b1 v0
  have f0 := field_hit (lo := 26) b1 v0
  have f1 := field_skip (v := 15) (lo := 26) (by decide) (field_hit (lo := 23) b2 v1)
  have f2 := field_skip (v := 15) (lo := 26) (by decide) (field_skip (v := 5) (lo := 23) (by decide) (field_hit (lo := 18) b3 v2))
  have f3 := field_skip (v := 15) (lo := 26) (by decide) (field_skip (v := 5) (lo := 23) (by decide) (field_skip (v := a.val) (lo := 18) (by decide) (field_hit (lo := 13) b4 v3)))
  have f4 := field_skip_low (v := 15) (lo := 26) (by decide) (field_skip_low (v := 5) (lo := 23) (by decide) (field_skip_low (v := a.val) (lo := 18) (by decide) (field_skip_low (v := b.val) (lo := 13) (by decide) (Nat.mod_eq_of_lt v4))))
  refine word_eq e (word_back b0 f0 (by decide) (by decide) ((major_0f f0).trans ?_) hw)
  iterate 5 refine (if_neg (other_value f1 (by decide))).trans ?_
  refine (if_pos f1).trans ?_
  rw [fin32_eq a f2, fin32_eq b f3, bvOf_eq off f4]

theorem jal (off : BitVec 26) : Statement (Instr.jal off) := fun hw => by
  have e : put 0x40000000 [(off.toNat, 0)] = 16 * 2 ^ 26 + off.toNat := by simp only [put]; omega
  have v1 : off.toNat < 2 ^ 26 := off.isLt
  have b1 := v1
  have v0 : 16 < 2 ^ 6 := by decide
  have b0 := field_bound (lo := 26) b1 v0
  have f0 := field_hit (lo := 26) b1 v0
  have f1 := field_skip_low (v := 16) (lo := 26) (by decide) (Nat.mod_eq_of_lt v1)
  refine word_eq e (word_back b0 f0 (by decide) (by decide) ((major_10 f0).trans ?_) hw)
  delta decodeJal
  rw [bvOf_eq off f1]

theorem jr (d : Reg) (a : Reg) (imm : BitVec 16) : Statement (Instr.jr d a imm) := fun hw => by
  have e : put 0x44000000 [(d.val, 21), (a.val, 16), (imm.toNat, 0)] = 17 * 2 ^ 26 + (d.val * 2 ^ 21 + (a.val * 2 ^ 16 + imm.toNat)) := by simp only [put]; omega
  have v3 : imm.toNat < 2 ^ 16 := imm.isLt
  have b3 := v3
  have v2 : a.val < 2 ^ 5 := a.isLt
  have b2 := field_bound (lo := 16) b3 v2
  have v1 : d.val < 2 ^ 5 := d.isLt
  have b1 := field_bound (lo := 21) b2 v1
  have v0 : 17 < 2 ^ 6 := by decide
  have b0 := field_bound (lo := 26) b1 v0
  have f0 := field_hit (lo := 26) b1 v0
  have f1 := field_skip (v := 17) (lo := 26) (by decide) (field_hit (lo := 21) b2 v1)
  have f2 := field_skip (v := 17) (lo := 26) (by decide) (field_skip (v := d.val) (lo := 21) (by decide) (field_hit (lo := 16) b3 v2))
  have f3 := field_skip_low (v := 17) (lo := 26) (by decide) (field_skip_low (v := d.val) (lo := 21) (by decide) (field_skip_low (v := a.val) (lo := 16) (by decide) (Nat.mod_eq_of_lt v3)))
  refine word_eq e (word_back b0 f0 (by decide) (by decide) ((major_11 f0).trans ?_) hw)
  delta decodeJr
  rw [fin32_eq d f1, fin32_eq a f2, bvOf_eq imm f3]

theorem jt (a : Reg) (b : Reg) (l : Fin 2048) : Statement (Instr.jt a b l) := fun hw => by
  have e : put 0x48000000 [(a.val, 16), (b.val, 11), (l.val, 0)] = 18 * 2 ^ 26 + (0 * 2 ^ 21 + (a.val * 2 ^ 16 + (b.val * 2 ^ 11 + l.val))) := by simp only [put]; omega
  have v4 : l.val < 2 ^ 11 := l.isLt
  have b4 := v4
  have v3 : b.val < 2 ^ 5 := b.isLt
  have b3 := field_bound (lo := 11) b4 v3
  have v2 : a.val < 2 ^ 5 := a.isLt
  have b2 := field_bound (lo := 16) b3 v2
  have v1 : 0 < 2 ^ 5 := by decide
  have b1 := field_bound (lo := 21) b2 v1
  have v0 : 18 < 2 ^ 6 := by decide
  have b0 := field_bound (lo := 26) b1 v0
  have f0 := field_hit (lo := 26) b1 v0
  have f1 := field_skip (v := 18) (lo := 26) (by decide) (field_hit (lo := 21) b2 v1)
  have f2 := field_skip (v := 18) (lo := 26) (by decide) (field_skip (v := 0) (lo := 21) (by decide) (field_hit (lo := 16) b3 v2))
  have f3 := field_skip (v := 18) (lo := 26) (by decide) (field_skip (v := 0) (lo := 21) (by decide) (field_skip (v := a.val) (lo := 16) (by decide) (field_hit (lo := 11) b4 v3)))
  have f4 := field_skip_low (v := 18) (lo := 26) (by decide) (field_skip_low (v := 0) (lo := 21) (by decide) (field_skip_low (v := a.val) (lo := 16) (by decide) (field_skip_low (v := b.val) (lo := 11) (by decide) (Nat.mod_eq_of_lt v4))))
  refine word_eq e (word_back b0 f0 (by decide) (by decide) ((major_12 f0).trans ?_) hw)
  refine (if_pos f1).trans ?_
  rw [fin32_eq a f2, fin32_eq b f3, finOf_eq l f4]

theorem bstrip (a : Reg) (off : BitVec 13) : Statement (Instr.bstrip a off) := fun hw => by
  have e : put 0x4c000000 [(a.val, 18), (off.toNat, 0)] = 19 * 2 ^ 26 + (0 * 2 ^ 23 + (a.val * 2 ^ 18 + (0 * 2 ^ 13 + off.toNat))) := by simp only [put]; omega
  have v4 : off.toNat < 2 ^ 13 := off.isLt
  have b4 := v4
  have v3 : 0 < 2 ^ 5 := by decide
  have b3 := field_bound (lo := 13) b4 v3
  have v2 : a.val < 2 ^ 5 := a.isLt
  have b2 := field_bound (lo := 18) b3 v2
  have v1 : 0 < 2 ^ 3 := by decide
  have b1 := field_bound (lo := 23) b2 v1
  have v0 : 19 < 2 ^ 6 := by decide
  have b0 := field_bound (lo := 26) b1 v0
  have f0 := field_hit (lo := 26) b1 v0
  have f1 := field_skip (v := 19) (lo := 26) (by decide) (field_hit (lo := 23) b2 v1)
  have f2 := field_skip (v := 19) (lo := 26) (by decide) (field_skip (v := 0) (lo := 23) (by decide) (field_hit (lo := 18) b3 v2))
  have f3 := field_skip (v := 19) (lo := 26) (by decide) (field_skip (v := 0) (lo := 23) (by decide) (field_skip (v := a.val) (lo := 18) (by decide) (field_hit (lo := 13) b4 v3)))
  have f4 := field_skip_low (v := 19) (lo := 26) (by decide) (field_skip_low (v := 0) (lo := 23) (by decide) (field_skip_low (v := a.val) (lo := 18) (by decide) (field_skip_low (v := 0) (lo := 13) (by decide) (Nat.mod_eq_of_lt v4))))
  refine word_eq e (word_back b0 f0 (by decide) (by decide) ((major_13 f0).trans ?_) hw)
  refine (if_pos ⟨f3, f1⟩).trans ?_
  rw [fin32_eq a f2, bvOf_eq off f4]

theorem trapUnassigned (c : Fin 64) : Statement (Instr.trapUnassigned c) := fun hw => by
  have e : put 0x50000000 [(c.val, 0)] = 20 * 2 ^ 26 + (0 * 2 ^ 6 + c.val) := by simp only [put]; omega
  have v2 : c.val < 2 ^ 6 := c.isLt
  have b2 := v2
  have v1 : 0 < 2 ^ 20 := by decide
  have b1 := field_bound (lo := 6) b2 v1
  have v0 : 20 < 2 ^ 6 := by decide
  have b0 := field_bound (lo := 26) b1 v0
  have f0 := field_hit (lo := 26) b1 v0
  have f1 := field_skip (v := 20) (lo := 26) (by decide) (field_hit (lo := 6) b2 v1)
  have f2 := field_skip_low (v := 20) (lo := 26) (by decide) (field_skip_low (v := 0) (lo := 6) (by decide) (Nat.mod_eq_of_lt v2))
  refine word_eq e (word_back b0 f0 (by decide) (by decide) ((major_14 f0).trans ?_) hw)
  have hu := hw
  simp only [Instr.wf, unassignedCode, Bool.and_eq_true, decide_eq_true_eq] at hu
  have fc : (20 * 2 ^ 26 + (0 * 2 ^ 6 + c.val)) % 2 ^ 26 = c.val := by omega
  refine (if_neg (by rw [fc]; omega)).trans ?_
  refine (if_neg (by rw [fc]; omega)).trans ?_
  refine (if_neg (by rw [fc]; omega)).trans ?_
  refine (if_neg (by rw [fc]; omega)).trans ?_
  refine (if_neg (by rw [fc]; omega)).trans ?_
  refine (if_neg (by rw [fc]; omega)).trans ?_
  refine (if_pos f1).trans ?_
  rw [finOf_eq c f2]

theorem brk (c : Fin 64) : Statement (Instr.brk c) := fun hw => by
  have e : put 0x50000040 [(c.val, 0)] = 20 * 2 ^ 26 + (1 * 2 ^ 6 + c.val) := by simp only [put]; omega
  have v2 : c.val < 2 ^ 6 := c.isLt
  have b2 := v2
  have v1 : 1 < 2 ^ 20 := by decide
  have b1 := field_bound (lo := 6) b2 v1
  have v0 : 20 < 2 ^ 6 := by decide
  have b0 := field_bound (lo := 26) b1 v0
  have f0 := field_hit (lo := 26) b1 v0
  have f1 := field_skip (v := 20) (lo := 26) (by decide) (field_hit (lo := 6) b2 v1)
  have f2 := field_skip_low (v := 20) (lo := 26) (by decide) (field_skip_low (v := 1) (lo := 6) (by decide) (Nat.mod_eq_of_lt v2))
  refine word_eq e (word_back b0 f0 (by decide) (by decide) ((major_14 f0).trans ?_) hw)
  iterate 6 refine (if_neg (fun c => absurd ((sub_field (lo := 6) 0 20 f1 (by decide)).symm.trans (sub_field_low 6 20 c (by decide))) (by decide))).trans ?_
  refine (if_neg (other_value f1 (by decide))).trans ?_
  refine (if_pos f1).trans ?_
  rw [finOf_eq c f2]

theorem leave (a : Reg) : Statement (Instr.leave a) := fun hw => by
  have e : put 0x50000140 [(a.val, 16)] = 20 * 2 ^ 26 + (0 * 2 ^ 21 + (a.val * 2 ^ 16 + 320)) := by simp only [put]; omega
  have v3 : 320 < 2 ^ 16 := by decide
  have b3 := v3
  have v2 : a.val < 2 ^ 5 := a.isLt
  have b2 := field_bound (lo := 16) b3 v2
  have v1 : 0 < 2 ^ 5 := by decide
  have b1 := field_bound (lo := 21) b2 v1
  have v0 : 20 < 2 ^ 6 := by decide
  have b0 := field_bound (lo := 26) b1 v0
  have f0 := field_hit (lo := 26) b1 v0
  have f1 := field_skip (v := 20) (lo := 26) (by decide) (field_hit (lo := 21) b2 v1)
  have f2 := field_skip (v := 20) (lo := 26) (by decide) (field_skip (v := 0) (lo := 21) (by decide) (field_hit (lo := 16) b3 v2))
  have f3 := field_skip_low (v := 20) (lo := 26) (by decide) (field_skip_low (v := 0) (lo := 21) (by decide) (field_skip_low (v := a.val) (lo := 16) (by decide) (Nat.mod_eq_of_lt v3)))
  refine word_eq e (word_back b0 f0 (by decide) (by decide) ((major_14 f0).trans ?_) hw)
  iterate 6 refine (if_neg (fun c => absurd ((low_field 16 f3 (by decide)).symm.trans (low_field 16 c (by decide))) (by decide))).trans ?_
  iterate 2 refine (if_neg (fun c => absurd ((sub_field_low 6 10 f3 (by decide)).symm.trans (sub_field (lo := 6) 0 10 c (by decide))) (by decide))).trans ?_
  iterate 3 refine (if_neg (fun c => absurd ((low_field 16 f3 (by decide)).symm.trans (low_field 16 c (by decide))) (by decide))).trans ?_
  refine (if_pos ⟨f3, f1⟩).trans ?_
  rw [fin32_eq a f2]

theorem csrr (d : Reg) (n : Fin 4096) : Statement (Instr.csrr d n) := fun hw => by
  have e : put 0x54000000 [(d.val, 21), (n.val, 0)] = 21 * 2 ^ 26 + (d.val * 2 ^ 21 + (0 * 2 ^ 12 + n.val)) := by simp only [put]; omega
  have v3 : n.val < 2 ^ 12 := n.isLt
  have b3 := v3
  have v2 : 0 < 2 ^ 9 := by decide
  have b2 := field_bound (lo := 12) b3 v2
  have v1 : d.val < 2 ^ 5 := d.isLt
  have b1 := field_bound (lo := 21) b2 v1
  have v0 : 21 < 2 ^ 6 := by decide
  have b0 := field_bound (lo := 26) b1 v0
  have f0 := field_hit (lo := 26) b1 v0
  have f1 := field_skip (v := 21) (lo := 26) (by decide) (field_hit (lo := 21) b2 v1)
  have f2 := field_skip (v := 21) (lo := 26) (by decide) (field_skip (v := d.val) (lo := 21) (by decide) (field_hit (lo := 12) b3 v2))
  have f3 := field_skip_low (v := 21) (lo := 26) (by decide) (field_skip_low (v := d.val) (lo := 21) (by decide) (field_skip_low (v := 0) (lo := 12) (by decide) (Nat.mod_eq_of_lt v3)))
  refine word_eq e (word_back b0 f0 (by decide) (by decide) ((major_15 f0).trans ?_) hw)
  refine (if_pos f2).trans ?_
  rw [fin32_eq d f1, finOf_eq n f3]

theorem csrw (a : Reg) (n : Fin 4096) : Statement (Instr.csrw a n) := fun hw => by
  have e : put 0x54004000 [(a.val, 16), (n.val, 0)] = 21 * 2 ^ 26 + (0 * 2 ^ 21 + (a.val * 2 ^ 16 + (4 * 2 ^ 12 + n.val))) := by simp only [put]; omega
  have v4 : n.val < 2 ^ 12 := n.isLt
  have b4 := v4
  have v3 : 4 < 2 ^ 4 := by decide
  have b3 := field_bound (lo := 12) b4 v3
  have v2 : a.val < 2 ^ 5 := a.isLt
  have b2 := field_bound (lo := 16) b3 v2
  have v1 : 0 < 2 ^ 5 := by decide
  have b1 := field_bound (lo := 21) b2 v1
  have v0 : 21 < 2 ^ 6 := by decide
  have b0 := field_bound (lo := 26) b1 v0
  have f0 := field_hit (lo := 26) b1 v0
  have f1 := field_skip (v := 21) (lo := 26) (by decide) (field_hit (lo := 21) b2 v1)
  have f2 := field_skip (v := 21) (lo := 26) (by decide) (field_skip (v := 0) (lo := 21) (by decide) (field_hit (lo := 16) b3 v2))
  have f3 := field_skip (v := 21) (lo := 26) (by decide) (field_skip (v := 0) (lo := 21) (by decide) (field_skip (v := a.val) (lo := 16) (by decide) (field_hit (lo := 12) b4 v3)))
  have f4 := field_skip_low (v := 21) (lo := 26) (by decide) (field_skip_low (v := 0) (lo := 21) (by decide) (field_skip_low (v := a.val) (lo := 16) (by decide) (field_skip_low (v := 4) (lo := 12) (by decide) (Nat.mod_eq_of_lt v4))))
  refine word_eq e (word_back b0 f0 (by decide) (by decide) ((major_15 f0).trans ?_) hw)
  refine (if_neg (fun c => absurd ((sub_field (lo := 12) 0 4 f3 (by decide)).symm.trans (sub_field (lo := 12) 0 4 c (by decide))) (by decide))).trans ?_
  refine (if_pos ⟨f3, f1⟩).trans ?_
  rw [fin32_eq a f2, finOf_eq n f4]

theorem fence (a : Reg) (k : Fin 4) (s : Fin 4) : Statement (Instr.fence a k s) := fun hw => by
  have e : put 0x58000000 [(a.val, 16), (k.val, 4), (s.val, 2)] = 22 * 2 ^ 26 + (0 * 2 ^ 21 + (a.val * 2 ^ 16 + (0 * 2 ^ 6 + (k.val * 2 ^ 4 + (s.val * 2 ^ 2 + 0))))) := by simp only [put]; omega
  have v6 : 0 < 2 ^ 2 := by decide
  have b6 := v6
  have v5 : s.val < 2 ^ 2 := s.isLt
  have b5 := field_bound (lo := 2) b6 v5
  have v4 : k.val < 2 ^ 2 := k.isLt
  have b4 := field_bound (lo := 4) b5 v4
  have v3 : 0 < 2 ^ 10 := by decide
  have b3 := field_bound (lo := 6) b4 v3
  have v2 : a.val < 2 ^ 5 := a.isLt
  have b2 := field_bound (lo := 16) b3 v2
  have v1 : 0 < 2 ^ 5 := by decide
  have b1 := field_bound (lo := 21) b2 v1
  have v0 : 22 < 2 ^ 6 := by decide
  have b0 := field_bound (lo := 26) b1 v0
  have f0 := field_hit (lo := 26) b1 v0
  have f1 := field_skip (v := 22) (lo := 26) (by decide) (field_hit (lo := 21) b2 v1)
  have f2 := field_skip (v := 22) (lo := 26) (by decide) (field_skip (v := 0) (lo := 21) (by decide) (field_hit (lo := 16) b3 v2))
  have f3 := field_skip (v := 22) (lo := 26) (by decide) (field_skip (v := 0) (lo := 21) (by decide) (field_skip (v := a.val) (lo := 16) (by decide) (field_hit (lo := 6) b4 v3)))
  have f4 := field_skip (v := 22) (lo := 26) (by decide) (field_skip (v := 0) (lo := 21) (by decide) (field_skip (v := a.val) (lo := 16) (by decide) (field_skip (v := 0) (lo := 6) (by decide) (field_hit (lo := 4) b5 v4))))
  have f5 := field_skip (v := 22) (lo := 26) (by decide) (field_skip (v := 0) (lo := 21) (by decide) (field_skip (v := a.val) (lo := 16) (by decide) (field_skip (v := 0) (lo := 6) (by decide) (field_skip (v := k.val) (lo := 4) (by decide) (field_hit (lo := 2) b6 v5)))))
  have f6 := field_skip_low (v := 22) (lo := 26) (by decide) (field_skip_low (v := 0) (lo := 21) (by decide) (field_skip_low (v := a.val) (lo := 16) (by decide) (field_skip_low (v := 0) (lo := 6) (by decide) (field_skip_low (v := k.val) (lo := 4) (by decide) (field_skip_low (v := s.val) (lo := 2) (by decide) (Nat.mod_eq_of_lt v6))))))
  refine word_eq e (word_back b0 f0 (by decide) (by decide) ((major_16 f0).trans ?_) hw)
  refine (if_pos ⟨f6, f3, f1⟩).trans ?_
  rw [fin32_eq a f2, finOf_eq k f4, finOf_eq s f5]

theorem qfence (q : Fin 32) : Statement (Instr.qfence q) := fun hw => by
  have e : put 0x58000040 [(q.val, 0)] = 22 * 2 ^ 26 + (2 * 2 ^ 5 + q.val) := by simp only [put]; omega
  have v2 : q.val < 2 ^ 5 := q.isLt
  have b2 := v2
  have v1 : 2 < 2 ^ 21 := by decide
  have b1 := field_bound (lo := 5) b2 v1
  have v0 : 22 < 2 ^ 6 := by decide
  have b0 := field_bound (lo := 26) b1 v0
  have f0 := field_hit (lo := 26) b1 v0
  have f1 := field_skip (v := 22) (lo := 26) (by decide) (field_hit (lo := 5) b2 v1)
  have f2 := field_skip_low (v := 22) (lo := 26) (by decide) (field_skip_low (v := 2) (lo := 5) (by decide) (Nat.mod_eq_of_lt v2))
  refine word_eq e (word_back b0 f0 (by decide) (by decide) ((major_16 f0).trans ?_) hw)
  refine (if_neg (fun c => absurd ((sub_field (lo := 5) 1 10 f1 (by decide)).symm.trans (sub_field (lo := 6) 0 10 c.2.1 (by decide))) (by decide))).trans ?_
  refine (if_pos f1).trans ?_
  rw [finOf_eq q f2]

theorem wait (l : Fin 32) (s : Fin 32) (c : Fin 32) (t : Fin 32) : Statement (Instr.wait l s c t) := fun hw => by
  have e : put 0x58000080 [(l.val, 21), (s.val, 16), (c.val, 11), (t.val, 0)] = 22 * 2 ^ 26 + (l.val * 2 ^ 21 + (s.val * 2 ^ 16 + (c.val * 2 ^ 11 + (4 * 2 ^ 5 + t.val)))) := by simp only [put]; omega
  have v5 : t.val < 2 ^ 5 := t.isLt
  have b5 := v5
  have v4 : 4 < 2 ^ 6 := by decide
  have b4 := field_bound (lo := 5) b5 v4
  have v3 : c.val < 2 ^ 5 := c.isLt
  have b3 := field_bound (lo := 11) b4 v3
  have v2 : s.val < 2 ^ 5 := s.isLt
  have b2 := field_bound (lo := 16) b3 v2
  have v1 : l.val < 2 ^ 5 := l.isLt
  have b1 := field_bound (lo := 21) b2 v1
  have v0 : 22 < 2 ^ 6 := by decide
  have b0 := field_bound (lo := 26) b1 v0
  have f0 := field_hit (lo := 26) b1 v0
  have f1 := field_skip (v := 22) (lo := 26) (by decide) (field_hit (lo := 21) b2 v1)
  have f2 := field_skip (v := 22) (lo := 26) (by decide) (field_skip (v := l.val) (lo := 21) (by decide) (field_hit (lo := 16) b3 v2))
  have f3 := field_skip (v := 22) (lo := 26) (by decide) (field_skip (v := l.val) (lo := 21) (by decide) (field_skip (v := s.val) (lo := 16) (by decide) (field_hit (lo := 11) b4 v3)))
  have f4 := field_skip (v := 22) (lo := 26) (by decide) (field_skip (v := l.val) (lo := 21) (by decide) (field_skip (v := s.val) (lo := 16) (by decide) (field_skip (v := c.val) (lo := 11) (by decide) (field_hit (lo := 5) b5 v4))))
  have f5 := field_skip_low (v := 22) (lo := 26) (by decide) (field_skip_low (v := l.val) (lo := 21) (by decide) (field_skip_low (v := s.val) (lo := 16) (by decide) (field_skip_low (v := c.val) (lo := 11) (by decide) (field_skip_low (v := 4) (lo := 5) (by decide) (Nat.mod_eq_of_lt v5)))))
  refine word_eq e (word_back b0 f0 (by decide) (by decide) ((major_16 f0).trans ?_) hw)
  refine (if_neg (fun c => absurd ((sub_field (lo := 5) 1 5 f4 (by decide)).symm.trans (sub_field (lo := 6) 0 5 c.2.1 (by decide))) (by decide))).trans ?_
  refine (if_neg (fun c => absurd ((sub_field (lo := 5) 0 6 f4 (by decide)).symm.trans (sub_field (lo := 5) 0 6 c (by decide))) (by decide))).trans ?_
  refine (if_pos f4).trans ?_
  rw [finOf_eq l f1, finOf_eq s f2, finOf_eq c f3, finOf_eq t f5]

theorem bar (n : Fin 16) : Statement (Instr.bar n) := fun hw => by
  have e : put 0x580000c0 [(n.val, 0)] = 22 * 2 ^ 26 + (12 * 2 ^ 4 + n.val) := by simp only [put]; omega
  have v2 : n.val < 2 ^ 4 := n.isLt
  have b2 := v2
  have v1 : 12 < 2 ^ 22 := by decide
  have b1 := field_bound (lo := 4) b2 v1
  have v0 : 22 < 2 ^ 6 := by decide
  have b0 := field_bound (lo := 26) b1 v0
  have f0 := field_hit (lo := 26) b1 v0
  have f1 := field_skip (v := 22) (lo := 26) (by decide) (field_hit (lo := 4) b2 v1)
  have f2 := field_skip_low (v := 22) (lo := 26) (by decide) (field_skip_low (v := 12) (lo := 4) (by decide) (Nat.mod_eq_of_lt v2))
  refine word_eq e (word_back b0 f0 (by decide) (by decide) ((major_16 f0).trans ?_) hw)
  refine (if_neg (fun c => absurd ((sub_field (lo := 4) 2 10 f1 (by decide)).symm.trans (sub_field (lo := 6) 0 10 c.2.1 (by decide))) (by decide))).trans ?_
  refine (if_neg (fun c => absurd ((sub_field (lo := 4) 1 21 f1 (by decide)).symm.trans (sub_field (lo := 5) 0 21 c (by decide))) (by decide))).trans ?_
  refine (if_neg (fun c => absurd ((sub_field (lo := 4) 1 6 f1 (by decide)).symm.trans (sub_field (lo := 5) 0 6 c (by decide))) (by decide))).trans ?_
  refine (if_pos f1).trans ?_
  rw [finOf_eq n f2]

theorem wmpub (a : Reg) (b : Reg) : Statement (Instr.wmpub a b) := fun hw => by
  have e : put 0x58000100 [(a.val, 16), (b.val, 11)] = 22 * 2 ^ 26 + (0 * 2 ^ 21 + (a.val * 2 ^ 16 + (b.val * 2 ^ 11 + 256))) := by simp only [put]; omega
  have v4 : 256 < 2 ^ 11 := by decide
  have b4 := v4
  have v3 : b.val < 2 ^ 5 := b.isLt
  have b3 := field_bound (lo := 11) b4 v3
  have v2 : a.val < 2 ^ 5 := a.isLt
  have b2 := field_bound (lo := 16) b3 v2
  have v1 : 0 < 2 ^ 5 := by decide
  have b1 := field_bound (lo := 21) b2 v1
  have v0 : 22 < 2 ^ 6 := by decide
  have b0 := field_bound (lo := 26) b1 v0
  have f0 := field_hit (lo := 26) b1 v0
  have f1 := field_skip (v := 22) (lo := 26) (by decide) (field_hit (lo := 21) b2 v1)
  have f2 := field_skip (v := 22) (lo := 26) (by decide) (field_skip (v := 0) (lo := 21) (by decide) (field_hit (lo := 16) b3 v2))
  have f3 := field_skip (v := 22) (lo := 26) (by decide) (field_skip (v := 0) (lo := 21) (by decide) (field_skip (v := a.val) (lo := 16) (by decide) (field_hit (lo := 11) b4 v3)))
  have f4 := field_skip_low (v := 22) (lo := 26) (by decide) (field_skip_low (v := 0) (lo := 21) (by decide) (field_skip_low (v := a.val) (lo := 16) (by decide) (field_skip_low (v := b.val) (lo := 11) (by decide) (Nat.mod_eq_of_lt v4))))
  refine word_eq e (word_back b0 f0 (by decide) (by decide) ((major_16 f0).trans ?_) hw)
  refine (if_neg (fun c => absurd ((sub_field_low 6 5 f4 (by decide)).symm.trans (sub_field (lo := 6) 0 5 c.2.1 (by decide))) (by decide))).trans ?_
  iterate 2 refine (if_neg (fun c => absurd ((sub_field_low 5 6 f4 (by decide)).symm.trans (sub_field (lo := 5) 0 6 c (by decide))) (by decide))).trans ?_
  refine (if_neg (fun c => absurd ((sub_field_low 4 7 f4 (by decide)).symm.trans (sub_field (lo := 4) 0 7 c (by decide))) (by decide))).trans ?_
  refine (if_pos ⟨f4, f1⟩).trans ?_
  rw [fin32_eq a f2, fin32_eq b f3]

theorem apnd (d : Reg) (a : Reg) (b : Reg) : Statement (Instr.apnd d a b) := fun hw => by
  have e : put 0x58000140 [(d.val, 21), (a.val, 16), (b.val, 11)] = 22 * 2 ^ 26 + (d.val * 2 ^ 21 + (a.val * 2 ^ 16 + (b.val * 2 ^ 11 + 320))) := by simp only [put]; omega
  have v4 : 320 < 2 ^ 11 := by decide
  have b4 := v4
  have v3 : b.val < 2 ^ 5 := b.isLt
  have b3 := field_bound (lo := 11) b4 v3
  have v2 : a.val < 2 ^ 5 := a.isLt
  have b2 := field_bound (lo := 16) b3 v2
  have v1 : d.val < 2 ^ 5 := d.isLt
  have b1 := field_bound (lo := 21) b2 v1
  have v0 : 22 < 2 ^ 6 := by decide
  have b0 := field_bound (lo := 26) b1 v0
  have f0 := field_hit (lo := 26) b1 v0
  have f1 := field_skip (v := 22) (lo := 26) (by decide) (field_hit (lo := 21) b2 v1)
  have f2 := field_skip (v := 22) (lo := 26) (by decide) (field_skip (v := d.val) (lo := 21) (by decide) (field_hit (lo := 16) b3 v2))
  have f3 := field_skip (v := 22) (lo := 26) (by decide) (field_skip (v := d.val) (lo := 21) (by decide) (field_skip (v := a.val) (lo := 16) (by decide) (field_hit (lo := 11) b4 v3)))
  have f4 := field_skip_low (v := 22) (lo := 26) (by decide) (field_skip_low (v := d.val) (lo := 21) (by decide) (field_skip_low (v := a.val) (lo := 16) (by decide) (field_skip_low (v := b.val) (lo := 11) (by decide) (Nat.mod_eq_of_lt v4))))
  refine word_eq e (word_back b0 f0 (by decide) (by decide) ((major_16 f0).trans ?_) hw)
  refine (if_neg (fun c => absurd ((sub_field_low 6 5 f4 (by decide)).symm.trans (sub_field (lo := 6) 0 5 c.2.1 (by decide))) (by decide))).trans ?_
  iterate 2 refine (if_neg (fun c => absurd ((sub_field_low 5 6 f4 (by decide)).symm.trans (sub_field (lo := 5) 0 6 c (by decide))) (by decide))).trans ?_
  refine (if_neg (fun c => absurd ((sub_field_low 4 7 f4 (by decide)).symm.trans (sub_field (lo := 4) 0 7 c (by decide))) (by decide))).trans ?_
  refine (if_neg (fun c => other_value f4 (by decide) c.1)).trans ?_
  refine (if_pos f4).trans ?_
  rw [fin32_eq d f1, fin32_eq a f2, fin32_eq b f3]

theorem apub (d : Reg) (a : Reg) (b : Reg) : Statement (Instr.apub d a b) := fun hw => by
  have e : put 0x58000180 [(d.val, 21), (a.val, 16), (b.val, 11)] = 22 * 2 ^ 26 + (d.val * 2 ^ 21 + (a.val * 2 ^ 16 + (b.val * 2 ^ 11 + 384))) := by simp only [put]; omega
  have v4 : 384 < 2 ^ 11 := by decide
  have b4 := v4
  have v3 : b.val < 2 ^ 5 := b.isLt
  have b3 := field_bound (lo := 11) b4 v3
  have v2 : a.val < 2 ^ 5 := a.isLt
  have b2 := field_bound (lo := 16) b3 v2
  have v1 : d.val < 2 ^ 5 := d.isLt
  have b1 := field_bound (lo := 21) b2 v1
  have v0 : 22 < 2 ^ 6 := by decide
  have b0 := field_bound (lo := 26) b1 v0
  have f0 := field_hit (lo := 26) b1 v0
  have f1 := field_skip (v := 22) (lo := 26) (by decide) (field_hit (lo := 21) b2 v1)
  have f2 := field_skip (v := 22) (lo := 26) (by decide) (field_skip (v := d.val) (lo := 21) (by decide) (field_hit (lo := 16) b3 v2))
  have f3 := field_skip (v := 22) (lo := 26) (by decide) (field_skip (v := d.val) (lo := 21) (by decide) (field_skip (v := a.val) (lo := 16) (by decide) (field_hit (lo := 11) b4 v3)))
  have f4 := field_skip_low (v := 22) (lo := 26) (by decide) (field_skip_low (v := d.val) (lo := 21) (by decide) (field_skip_low (v := a.val) (lo := 16) (by decide) (field_skip_low (v := b.val) (lo := 11) (by decide) (Nat.mod_eq_of_lt v4))))
  refine word_eq e (word_back b0 f0 (by decide) (by decide) ((major_16 f0).trans ?_) hw)
  refine (if_neg (fun c => absurd ((sub_field_low 6 5 f4 (by decide)).symm.trans (sub_field (lo := 6) 0 5 c.2.1 (by decide))) (by decide))).trans ?_
  iterate 2 refine (if_neg (fun c => absurd ((sub_field_low 5 6 f4 (by decide)).symm.trans (sub_field (lo := 5) 0 6 c (by decide))) (by decide))).trans ?_
  refine (if_neg (fun c => absurd ((sub_field_low 4 7 f4 (by decide)).symm.trans (sub_field (lo := 4) 0 7 c (by decide))) (by decide))).trans ?_
  refine (if_neg (fun c => other_value f4 (by decide) c.1)).trans ?_
  refine (if_neg (other_value f4 (by decide))).trans ?_
  refine (if_pos f4).trans ?_
  rw [fin32_eq d f1, fin32_eq a f2, fin32_eq b f3]

theorem bkset (a : Reg) (n : Fin 4) : Statement (Instr.bkset a n) := fun hw => by
  have e : put 0x580001c0 [(a.val, 16), (n.val, 0)] = 22 * 2 ^ 26 + (0 * 2 ^ 21 + (a.val * 2 ^ 16 + (112 * 2 ^ 2 + n.val))) := by simp only [put]; omega
  have v4 : n.val < 2 ^ 2 := n.isLt
  have b4 := v4
  have v3 : 112 < 2 ^ 14 := by decide
  have b3 := field_bound (lo := 2) b4 v3
  have v2 : a.val < 2 ^ 5 := a.isLt
  have b2 := field_bound (lo := 16) b3 v2
  have v1 : 0 < 2 ^ 5 := by decide
  have b1 := field_bound (lo := 21) b2 v1
  have v0 : 22 < 2 ^ 6 := by decide
  have b0 := field_bound (lo := 26) b1 v0
  have f0 := field_hit (lo := 26) b1 v0
  have f1 := field_skip (v := 22) (lo := 26) (by decide) (field_hit (lo := 21) b2 v1)
  have f2 := field_skip (v := 22) (lo := 26) (by decide) (field_skip (v := 0) (lo := 21) (by decide) (field_hit (lo := 16) b3 v2))
  have f3 := field_skip (v := 22) (lo := 26) (by decide) (field_skip (v := 0) (lo := 21) (by decide) (field_skip (v := a.val) (lo := 16) (by decide) (field_hit (lo := 2) b4 v3)))
  have f4 := field_skip_low (v := 22) (lo := 26) (by decide) (field_skip_low (v := 0) (lo := 21) (by decide) (field_skip_low (v := a.val) (lo := 16) (by decide) (field_skip_low (v := 112) (lo := 2) (by decide) (Nat.mod_eq_of_lt v4))))
  refine word_eq e (word_back b0 f0 (by decide) (by decide) ((major_16 f0).trans ?_) hw)
  refine (if_neg (fun c => absurd ((sub_field (lo := 2) 4 10 f3 (by decide)).symm.trans (sub_field (lo := 6) 0 10 c.2.1 (by decide))) (by decide))).trans ?_
  refine (if_neg (fun c => absurd ((sub_field (lo := 2) 3 11 f3 (by decide)).symm.trans (sub_field (lo := 5) 0 11 c (by decide))) (by decide))).trans ?_
  refine (if_neg (fun c => absurd ((sub_field (lo := 2) 3 6 f3 (by decide)).symm.trans (sub_field (lo := 5) 0 6 c (by decide))) (by decide))).trans ?_
  refine (if_neg (fun c => absurd ((sub_field (lo := 2) 2 12 f3 (by decide)).symm.trans (sub_field (lo := 4) 0 12 c (by decide))) (by decide))).trans ?_
  refine (if_neg (fun c => absurd ((sub_field (lo := 2) 0 9 f3 (by decide)).symm.trans (sub_field_low 2 9 c.1 (by decide))) (by decide))).trans ?_
  iterate 2 refine (if_neg (fun c => absurd ((sub_field (lo := 2) 0 9 f3 (by decide)).symm.trans (sub_field_low 2 9 c (by decide))) (by decide))).trans ?_
  refine (if_pos ⟨f3, f1⟩).trans ?_
  rw [fin32_eq a f2, finOf_eq n f4]

theorem bkclr (n : Fin 4) : Statement (Instr.bkclr n) := fun hw => by
  have e : put 0x58000200 [(n.val, 0)] = 22 * 2 ^ 26 + (128 * 2 ^ 2 + n.val) := by simp only [put]; omega
  have v2 : n.val < 2 ^ 2 := n.isLt
  have b2 := v2
  have v1 : 128 < 2 ^ 24 := by decide
  have b1 := field_bound (lo := 2) b2 v1
  have v0 : 22 < 2 ^ 6 := by decide
  have b0 := field_bound (lo := 26) b1 v0
  have f0 := field_hit (lo := 26) b1 v0
  have f1 := field_skip (v := 22) (lo := 26) (by decide) (field_hit (lo := 2) b2 v1)
  have f2 := field_skip_low (v := 22) (lo := 26) (by decide) (field_skip_low (v := 128) (lo := 2) (by decide) (Nat.mod_eq_of_lt v2))
  refine word_eq e (word_back b0 f0 (by decide) (by decide) ((major_16 f0).trans ?_) hw)
  refine (if_neg (fun c => absurd ((sub_field (lo := 2) 4 10 f1 (by decide)).symm.trans (sub_field (lo := 6) 0 10 c.2.1 (by decide))) (by decide))).trans ?_
  refine (if_neg (fun c => absurd ((sub_field (lo := 2) 3 21 f1 (by decide)).symm.trans (sub_field (lo := 5) 0 21 c (by decide))) (by decide))).trans ?_
  refine (if_neg (fun c => absurd ((sub_field (lo := 2) 3 6 f1 (by decide)).symm.trans (sub_field (lo := 5) 0 6 c (by decide))) (by decide))).trans ?_
  refine (if_neg (fun c => absurd ((sub_field (lo := 2) 2 22 f1 (by decide)).symm.trans (sub_field (lo := 4) 0 22 c (by decide))) (by decide))).trans ?_
  refine (if_neg (fun c => absurd ((sub_field (lo := 2) 0 9 f1 (by decide)).symm.trans (sub_field_low 2 9 c.1 (by decide))) (by decide))).trans ?_
  iterate 2 refine (if_neg (fun c => absurd ((sub_field (lo := 2) 0 9 f1 (by decide)).symm.trans (sub_field_low 2 9 c (by decide))) (by decide))).trans ?_
  refine (if_neg (fun c => absurd ((sub_field (lo := 2) 0 14 f1 (by decide)).symm.trans (sub_field (lo := 2) 0 14 c.1 (by decide))) (by decide))).trans ?_
  refine (if_pos f1).trans ?_
  rw [finOf_eq n f2]

theorem vsetl (d : Reg) (a : Reg) (t : Fin 16) (k : Fin 8) (r : Fin 8) : Statement (Instr.vsetl d a t k r) := fun hw => by
  have e : put 0x5c000000 [(d.val, 21), (a.val, 16), (t.val, 7), (k.val, 4), (r.val, 1)] = 23 * 2 ^ 26 + (d.val * 2 ^ 21 + (a.val * 2 ^ 16 + (0 * 2 ^ 11 + (t.val * 2 ^ 7 + (k.val * 2 ^ 4 + (r.val * 2 ^ 1 + 0)))))) := by simp only [put]; omega
  have v7 : 0 < 2 ^ 1 := by decide
  have b7 := v7
  have v6 : r.val < 2 ^ 3 := r.isLt
  have b6 := field_bound (lo := 1) b7 v6
  have v5 : k.val < 2 ^ 3 := k.isLt
  have b5 := field_bound (lo := 4) b6 v5
  have v4 : t.val < 2 ^ 4 := t.isLt
  have b4 := field_bound (lo := 7) b5 v4
  have v3 : 0 < 2 ^ 5 := by decide
  have b3 := field_bound (lo := 11) b4 v3
  have v2 : a.val < 2 ^ 5 := a.isLt
  have b2 := field_bound (lo := 16) b3 v2
  have v1 : d.val < 2 ^ 5 := d.isLt
  have b1 := field_bound (lo := 21) b2 v1
  have v0 : 23 < 2 ^ 6 := by decide
  have b0 := field_bound (lo := 26) b1 v0
  have f0 := field_hit (lo := 26) b1 v0
  have f1 := field_skip (v := 23) (lo := 26) (by decide) (field_hit (lo := 21) b2 v1)
  have f2 := field_skip (v := 23) (lo := 26) (by decide) (field_skip (v := d.val) (lo := 21) (by decide) (field_hit (lo := 16) b3 v2))
  have f3 := field_skip (v := 23) (lo := 26) (by decide) (field_skip (v := d.val) (lo := 21) (by decide) (field_skip (v := a.val) (lo := 16) (by decide) (field_hit (lo := 11) b4 v3)))
  have f4 := field_skip (v := 23) (lo := 26) (by decide) (field_skip (v := d.val) (lo := 21) (by decide) (field_skip (v := a.val) (lo := 16) (by decide) (field_skip (v := 0) (lo := 11) (by decide) (field_hit (lo := 7) b5 v4))))
  have f5 := field_skip (v := 23) (lo := 26) (by decide) (field_skip (v := d.val) (lo := 21) (by decide) (field_skip (v := a.val) (lo := 16) (by decide) (field_skip (v := 0) (lo := 11) (by decide) (field_skip (v := t.val) (lo := 7) (by decide) (field_hit (lo := 4) b6 v5)))))
  have f6 := field_skip (v := 23) (lo := 26) (by decide) (field_skip (v := d.val) (lo := 21) (by decide) (field_skip (v := a.val) (lo := 16) (by decide) (field_skip (v := 0) (lo := 11) (by decide) (field_skip (v := t.val) (lo := 7) (by decide) (field_skip (v := k.val) (lo := 4) (by decide) (field_hit (lo := 1) b7 v6))))))
  have f7 := field_skip_low (v := 23) (lo := 26) (by decide) (field_skip_low (v := d.val) (lo := 21) (by decide) (field_skip_low (v := a.val) (lo := 16) (by decide) (field_skip_low (v := 0) (lo := 11) (by decide) (field_skip_low (v := t.val) (lo := 7) (by decide) (field_skip_low (v := k.val) (lo := 4) (by decide) (field_skip_low (v := r.val) (lo := 1) (by decide) (Nat.mod_eq_of_lt v7)))))))
  refine word_eq e (word_back b0 f0 (by decide) (by decide) ((major_17 f0).trans ?_) hw)
  refine (if_pos ⟨f7, f3⟩).trans ?_
  rw [fin32_eq d f1, fin32_eq a f2, finOf_eq t f4, finOf_eq k f5, finOf_eq r f6]

theorem vsetlw (d : Reg) (a : Reg) (b : Reg) (t : Fin 16) (k : Fin 8) (r : Fin 8) : Statement (Instr.vsetlw d a b t k r) := fun hw => by
  have e : put 0x60000000 [(d.val, 21), (a.val, 16), (b.val, 11), (t.val, 7), (k.val, 4), (r.val, 1)] = 24 * 2 ^ 26 + (d.val * 2 ^ 21 + (a.val * 2 ^ 16 + (b.val * 2 ^ 11 + (t.val * 2 ^ 7 + (k.val * 2 ^ 4 + (r.val * 2 ^ 1 + 0)))))) := by simp only [put]; omega
  have v7 : 0 < 2 ^ 1 := by decide
  have b7 := v7
  have v6 : r.val < 2 ^ 3 := r.isLt
  have b6 := field_bound (lo := 1) b7 v6
  have v5 : k.val < 2 ^ 3 := k.isLt
  have b5 := field_bound (lo := 4) b6 v5
  have v4 : t.val < 2 ^ 4 := t.isLt
  have b4 := field_bound (lo := 7) b5 v4
  have v3 : b.val < 2 ^ 5 := b.isLt
  have b3 := field_bound (lo := 11) b4 v3
  have v2 : a.val < 2 ^ 5 := a.isLt
  have b2 := field_bound (lo := 16) b3 v2
  have v1 : d.val < 2 ^ 5 := d.isLt
  have b1 := field_bound (lo := 21) b2 v1
  have v0 : 24 < 2 ^ 6 := by decide
  have b0 := field_bound (lo := 26) b1 v0
  have f0 := field_hit (lo := 26) b1 v0
  have f1 := field_skip (v := 24) (lo := 26) (by decide) (field_hit (lo := 21) b2 v1)
  have f2 := field_skip (v := 24) (lo := 26) (by decide) (field_skip (v := d.val) (lo := 21) (by decide) (field_hit (lo := 16) b3 v2))
  have f3 := field_skip (v := 24) (lo := 26) (by decide) (field_skip (v := d.val) (lo := 21) (by decide) (field_skip (v := a.val) (lo := 16) (by decide) (field_hit (lo := 11) b4 v3)))
  have f4 := field_skip (v := 24) (lo := 26) (by decide) (field_skip (v := d.val) (lo := 21) (by decide) (field_skip (v := a.val) (lo := 16) (by decide) (field_skip (v := b.val) (lo := 11) (by decide) (field_hit (lo := 7) b5 v4))))
  have f5 := field_skip (v := 24) (lo := 26) (by decide) (field_skip (v := d.val) (lo := 21) (by decide) (field_skip (v := a.val) (lo := 16) (by decide) (field_skip (v := b.val) (lo := 11) (by decide) (field_skip (v := t.val) (lo := 7) (by decide) (field_hit (lo := 4) b6 v5)))))
  have f6 := field_skip (v := 24) (lo := 26) (by decide) (field_skip (v := d.val) (lo := 21) (by decide) (field_skip (v := a.val) (lo := 16) (by decide) (field_skip (v := b.val) (lo := 11) (by decide) (field_skip (v := t.val) (lo := 7) (by decide) (field_skip (v := k.val) (lo := 4) (by decide) (field_hit (lo := 1) b7 v6))))))
  have f7 := field_skip_low (v := 24) (lo := 26) (by decide) (field_skip_low (v := d.val) (lo := 21) (by decide) (field_skip_low (v := a.val) (lo := 16) (by decide) (field_skip_low (v := b.val) (lo := 11) (by decide) (field_skip_low (v := t.val) (lo := 7) (by decide) (field_skip_low (v := k.val) (lo := 4) (by decide) (field_skip_low (v := r.val) (lo := 1) (by decide) (Nat.mod_eq_of_lt v7)))))))
  refine word_eq e (word_back b0 f0 (by decide) (by decide) ((major_18 f0).trans ?_) hw)
  refine (if_pos f7).trans ?_
  rw [fin32_eq d f1, fin32_eq a f2, fin32_eq b f3, finOf_eq t f4, finOf_eq k f5, finOf_eq r f6]

theorem vaddVV (d : Reg) (a : Reg) (b : Reg) (m : MaskF) (x : Bool) : Statement (Instr.vaddVV d a b m x) := fun hw => by
  have e : put 0x64000000 [(d.val, 21), (a.val, 16), (b.val, 11), (m.val, 5), (x.toNat, 4)] = 25 * 2 ^ 26 + (d.val * 2 ^ 21 + (a.val * 2 ^ 16 + (b.val * 2 ^ 11 + (m.val * 2 ^ 5 + (x.toNat * 2 ^ 4 + 0))))) := by simp only [put]; omega
  have v6 : 0 < 2 ^ 4 := by decide
  have b6 := v6
  have v5 : x.toNat < 2 ^ 1 := bool_lt x
  have b5 := field_bound (lo := 4) b6 v5
  have v4 : m.val < 2 ^ 6 := m.isLt
  have b4 := field_bound (lo := 5) b5 v4
  have v3 : b.val < 2 ^ 5 := b.isLt
  have b3 := field_bound (lo := 11) b4 v3
  have v2 : a.val < 2 ^ 5 := a.isLt
  have b2 := field_bound (lo := 16) b3 v2
  have v1 : d.val < 2 ^ 5 := d.isLt
  have b1 := field_bound (lo := 21) b2 v1
  have v0 : 25 < 2 ^ 6 := by decide
  have b0 := field_bound (lo := 26) b1 v0
  have f0 := field_hit (lo := 26) b1 v0
  have f1 := field_skip (v := 25) (lo := 26) (by decide) (field_hit (lo := 21) b2 v1)
  have f2 := field_skip (v := 25) (lo := 26) (by decide) (field_skip (v := d.val) (lo := 21) (by decide) (field_hit (lo := 16) b3 v2))
  have f3 := field_skip (v := 25) (lo := 26) (by decide) (field_skip (v := d.val) (lo := 21) (by decide) (field_skip (v := a.val) (lo := 16) (by decide) (field_hit (lo := 11) b4 v3)))
  have f4 := field_skip (v := 25) (lo := 26) (by decide) (field_skip (v := d.val) (lo := 21) (by decide) (field_skip (v := a.val) (lo := 16) (by decide) (field_skip (v := b.val) (lo := 11) (by decide) (field_hit (lo := 5) b5 v4))))
  have f5 := field_skip (v := 25) (lo := 26) (by decide) (field_skip (v := d.val) (lo := 21) (by decide) (field_skip (v := a.val) (lo := 16) (by decide) (field_skip (v := b.val) (lo := 11) (by decide) (field_skip (v := m.val) (lo := 5) (by decide) (field_hit (lo := 4) b6 v5)))))
  have f6 := field_skip_low (v := 25) (lo := 26) (by decide) (field_skip_low (v := d.val) (lo := 21) (by decide) (field_skip_low (v := a.val) (lo := 16) (by decide) (field_skip_low (v := b.val) (lo := 11) (by decide) (field_skip_low (v := m.val) (lo := 5) (by decide) (field_skip_low (v := x.toNat) (lo := 4) (by decide) (Nat.mod_eq_of_lt v6))))))
  refine word_eq e (word_back b0 f0 (by decide) (by decide) ((major_19 f0).trans ?_) hw)
  refine (if_pos f6).trans ?_
  rw [fin32_eq d f1, fin32_eq a f2, fin32_eq b f3, fin64_eq m f4, bit1_eq x f5]

theorem vsubVV (d : Reg) (a : Reg) (b : Reg) (m : MaskF) (x : Bool) : Statement (Instr.vsubVV d a b m x) := fun hw => by
  have e : put 0x64000001 [(d.val, 21), (a.val, 16), (b.val, 11), (m.val, 5), (x.toNat, 4)] = 25 * 2 ^ 26 + (d.val * 2 ^ 21 + (a.val * 2 ^ 16 + (b.val * 2 ^ 11 + (m.val * 2 ^ 5 + (x.toNat * 2 ^ 4 + 1))))) := by simp only [put]; omega
  have v6 : 1 < 2 ^ 4 := by decide
  have b6 := v6
  have v5 : x.toNat < 2 ^ 1 := bool_lt x
  have b5 := field_bound (lo := 4) b6 v5
  have v4 : m.val < 2 ^ 6 := m.isLt
  have b4 := field_bound (lo := 5) b5 v4
  have v3 : b.val < 2 ^ 5 := b.isLt
  have b3 := field_bound (lo := 11) b4 v3
  have v2 : a.val < 2 ^ 5 := a.isLt
  have b2 := field_bound (lo := 16) b3 v2
  have v1 : d.val < 2 ^ 5 := d.isLt
  have b1 := field_bound (lo := 21) b2 v1
  have v0 : 25 < 2 ^ 6 := by decide
  have b0 := field_bound (lo := 26) b1 v0
  have f0 := field_hit (lo := 26) b1 v0
  have f1 := field_skip (v := 25) (lo := 26) (by decide) (field_hit (lo := 21) b2 v1)
  have f2 := field_skip (v := 25) (lo := 26) (by decide) (field_skip (v := d.val) (lo := 21) (by decide) (field_hit (lo := 16) b3 v2))
  have f3 := field_skip (v := 25) (lo := 26) (by decide) (field_skip (v := d.val) (lo := 21) (by decide) (field_skip (v := a.val) (lo := 16) (by decide) (field_hit (lo := 11) b4 v3)))
  have f4 := field_skip (v := 25) (lo := 26) (by decide) (field_skip (v := d.val) (lo := 21) (by decide) (field_skip (v := a.val) (lo := 16) (by decide) (field_skip (v := b.val) (lo := 11) (by decide) (field_hit (lo := 5) b5 v4))))
  have f5 := field_skip (v := 25) (lo := 26) (by decide) (field_skip (v := d.val) (lo := 21) (by decide) (field_skip (v := a.val) (lo := 16) (by decide) (field_skip (v := b.val) (lo := 11) (by decide) (field_skip (v := m.val) (lo := 5) (by decide) (field_hit (lo := 4) b6 v5)))))
  have f6 := field_skip_low (v := 25) (lo := 26) (by decide) (field_skip_low (v := d.val) (lo := 21) (by decide) (field_skip_low (v := a.val) (lo := 16) (by decide) (field_skip_low (v := b.val) (lo := 11) (by decide) (field_skip_low (v := m.val) (lo := 5) (by decide) (field_skip_low (v := x.toNat) (lo := 4) (by decide) (Nat.mod_eq_of_lt v6))))))
  refine word_eq e (word_back b0 f0 (by decide) (by decide) ((major_19 f0).trans ?_) hw)
  refine (if_neg (other_value f6 (by decide))).trans ?_
  refine (if_pos f6).trans ?_
  rw [fin32_eq d f1, fin32_eq a f2, fin32_eq b f3, fin64_eq m f4, bit1_eq x f5]

theorem vmulVV (d : Reg) (a : Reg) (b : Reg) (m : MaskF) (x : Bool) : Statement (Instr.vmulVV d a b m x) := fun hw => by
  have e : put 0x64000002 [(d.val, 21), (a.val, 16), (b.val, 11), (m.val, 5), (x.toNat, 4)] = 25 * 2 ^ 26 + (d.val * 2 ^ 21 + (a.val * 2 ^ 16 + (b.val * 2 ^ 11 + (m.val * 2 ^ 5 + (x.toNat * 2 ^ 4 + 2))))) := by simp only [put]; omega
  have v6 : 2 < 2 ^ 4 := by decide
  have b6 := v6
  have v5 : x.toNat < 2 ^ 1 := bool_lt x
  have b5 := field_bound (lo := 4) b6 v5
  have v4 : m.val < 2 ^ 6 := m.isLt
  have b4 := field_bound (lo := 5) b5 v4
  have v3 : b.val < 2 ^ 5 := b.isLt
  have b3 := field_bound (lo := 11) b4 v3
  have v2 : a.val < 2 ^ 5 := a.isLt
  have b2 := field_bound (lo := 16) b3 v2
  have v1 : d.val < 2 ^ 5 := d.isLt
  have b1 := field_bound (lo := 21) b2 v1
  have v0 : 25 < 2 ^ 6 := by decide
  have b0 := field_bound (lo := 26) b1 v0
  have f0 := field_hit (lo := 26) b1 v0
  have f1 := field_skip (v := 25) (lo := 26) (by decide) (field_hit (lo := 21) b2 v1)
  have f2 := field_skip (v := 25) (lo := 26) (by decide) (field_skip (v := d.val) (lo := 21) (by decide) (field_hit (lo := 16) b3 v2))
  have f3 := field_skip (v := 25) (lo := 26) (by decide) (field_skip (v := d.val) (lo := 21) (by decide) (field_skip (v := a.val) (lo := 16) (by decide) (field_hit (lo := 11) b4 v3)))
  have f4 := field_skip (v := 25) (lo := 26) (by decide) (field_skip (v := d.val) (lo := 21) (by decide) (field_skip (v := a.val) (lo := 16) (by decide) (field_skip (v := b.val) (lo := 11) (by decide) (field_hit (lo := 5) b5 v4))))
  have f5 := field_skip (v := 25) (lo := 26) (by decide) (field_skip (v := d.val) (lo := 21) (by decide) (field_skip (v := a.val) (lo := 16) (by decide) (field_skip (v := b.val) (lo := 11) (by decide) (field_skip (v := m.val) (lo := 5) (by decide) (field_hit (lo := 4) b6 v5)))))
  have f6 := field_skip_low (v := 25) (lo := 26) (by decide) (field_skip_low (v := d.val) (lo := 21) (by decide) (field_skip_low (v := a.val) (lo := 16) (by decide) (field_skip_low (v := b.val) (lo := 11) (by decide) (field_skip_low (v := m.val) (lo := 5) (by decide) (field_skip_low (v := x.toNat) (lo := 4) (by decide) (Nat.mod_eq_of_lt v6))))))
  refine word_eq e (word_back b0 f0 (by decide) (by decide) ((major_19 f0).trans ?_) hw)
  iterate 2 refine (if_neg (other_value f6 (by decide))).trans ?_
  refine (if_pos f6).trans ?_
  rw [fin32_eq d f1, fin32_eq a f2, fin32_eq b f3, fin64_eq m f4, bit1_eq x f5]

theorem vmulhVV (d : Reg) (a : Reg) (b : Reg) (m : MaskF) (x : Bool) : Statement (Instr.vmulhVV d a b m x) := fun hw => by
  have e : put 0x64000003 [(d.val, 21), (a.val, 16), (b.val, 11), (m.val, 5), (x.toNat, 4)] = 25 * 2 ^ 26 + (d.val * 2 ^ 21 + (a.val * 2 ^ 16 + (b.val * 2 ^ 11 + (m.val * 2 ^ 5 + (x.toNat * 2 ^ 4 + 3))))) := by simp only [put]; omega
  have v6 : 3 < 2 ^ 4 := by decide
  have b6 := v6
  have v5 : x.toNat < 2 ^ 1 := bool_lt x
  have b5 := field_bound (lo := 4) b6 v5
  have v4 : m.val < 2 ^ 6 := m.isLt
  have b4 := field_bound (lo := 5) b5 v4
  have v3 : b.val < 2 ^ 5 := b.isLt
  have b3 := field_bound (lo := 11) b4 v3
  have v2 : a.val < 2 ^ 5 := a.isLt
  have b2 := field_bound (lo := 16) b3 v2
  have v1 : d.val < 2 ^ 5 := d.isLt
  have b1 := field_bound (lo := 21) b2 v1
  have v0 : 25 < 2 ^ 6 := by decide
  have b0 := field_bound (lo := 26) b1 v0
  have f0 := field_hit (lo := 26) b1 v0
  have f1 := field_skip (v := 25) (lo := 26) (by decide) (field_hit (lo := 21) b2 v1)
  have f2 := field_skip (v := 25) (lo := 26) (by decide) (field_skip (v := d.val) (lo := 21) (by decide) (field_hit (lo := 16) b3 v2))
  have f3 := field_skip (v := 25) (lo := 26) (by decide) (field_skip (v := d.val) (lo := 21) (by decide) (field_skip (v := a.val) (lo := 16) (by decide) (field_hit (lo := 11) b4 v3)))
  have f4 := field_skip (v := 25) (lo := 26) (by decide) (field_skip (v := d.val) (lo := 21) (by decide) (field_skip (v := a.val) (lo := 16) (by decide) (field_skip (v := b.val) (lo := 11) (by decide) (field_hit (lo := 5) b5 v4))))
  have f5 := field_skip (v := 25) (lo := 26) (by decide) (field_skip (v := d.val) (lo := 21) (by decide) (field_skip (v := a.val) (lo := 16) (by decide) (field_skip (v := b.val) (lo := 11) (by decide) (field_skip (v := m.val) (lo := 5) (by decide) (field_hit (lo := 4) b6 v5)))))
  have f6 := field_skip_low (v := 25) (lo := 26) (by decide) (field_skip_low (v := d.val) (lo := 21) (by decide) (field_skip_low (v := a.val) (lo := 16) (by decide) (field_skip_low (v := b.val) (lo := 11) (by decide) (field_skip_low (v := m.val) (lo := 5) (by decide) (field_skip_low (v := x.toNat) (lo := 4) (by decide) (Nat.mod_eq_of_lt v6))))))
  refine word_eq e (word_back b0 f0 (by decide) (by decide) ((major_19 f0).trans ?_) hw)
  iterate 3 refine (if_neg (other_value f6 (by decide))).trans ?_
  refine (if_pos f6).trans ?_
  rw [fin32_eq d f1, fin32_eq a f2, fin32_eq b f3, fin64_eq m f4, bit1_eq x f5]

theorem vdivVV (d : Reg) (a : Reg) (b : Reg) (m : MaskF) (x : Bool) : Statement (Instr.vdivVV d a b m x) := fun hw => by
  have e : put 0x64000004 [(d.val, 21), (a.val, 16), (b.val, 11), (m.val, 5), (x.toNat, 4)] = 25 * 2 ^ 26 + (d.val * 2 ^ 21 + (a.val * 2 ^ 16 + (b.val * 2 ^ 11 + (m.val * 2 ^ 5 + (x.toNat * 2 ^ 4 + 4))))) := by simp only [put]; omega
  have v6 : 4 < 2 ^ 4 := by decide
  have b6 := v6
  have v5 : x.toNat < 2 ^ 1 := bool_lt x
  have b5 := field_bound (lo := 4) b6 v5
  have v4 : m.val < 2 ^ 6 := m.isLt
  have b4 := field_bound (lo := 5) b5 v4
  have v3 : b.val < 2 ^ 5 := b.isLt
  have b3 := field_bound (lo := 11) b4 v3
  have v2 : a.val < 2 ^ 5 := a.isLt
  have b2 := field_bound (lo := 16) b3 v2
  have v1 : d.val < 2 ^ 5 := d.isLt
  have b1 := field_bound (lo := 21) b2 v1
  have v0 : 25 < 2 ^ 6 := by decide
  have b0 := field_bound (lo := 26) b1 v0
  have f0 := field_hit (lo := 26) b1 v0
  have f1 := field_skip (v := 25) (lo := 26) (by decide) (field_hit (lo := 21) b2 v1)
  have f2 := field_skip (v := 25) (lo := 26) (by decide) (field_skip (v := d.val) (lo := 21) (by decide) (field_hit (lo := 16) b3 v2))
  have f3 := field_skip (v := 25) (lo := 26) (by decide) (field_skip (v := d.val) (lo := 21) (by decide) (field_skip (v := a.val) (lo := 16) (by decide) (field_hit (lo := 11) b4 v3)))
  have f4 := field_skip (v := 25) (lo := 26) (by decide) (field_skip (v := d.val) (lo := 21) (by decide) (field_skip (v := a.val) (lo := 16) (by decide) (field_skip (v := b.val) (lo := 11) (by decide) (field_hit (lo := 5) b5 v4))))
  have f5 := field_skip (v := 25) (lo := 26) (by decide) (field_skip (v := d.val) (lo := 21) (by decide) (field_skip (v := a.val) (lo := 16) (by decide) (field_skip (v := b.val) (lo := 11) (by decide) (field_skip (v := m.val) (lo := 5) (by decide) (field_hit (lo := 4) b6 v5)))))
  have f6 := field_skip_low (v := 25) (lo := 26) (by decide) (field_skip_low (v := d.val) (lo := 21) (by decide) (field_skip_low (v := a.val) (lo := 16) (by decide) (field_skip_low (v := b.val) (lo := 11) (by decide) (field_skip_low (v := m.val) (lo := 5) (by decide) (field_skip_low (v := x.toNat) (lo := 4) (by decide) (Nat.mod_eq_of_lt v6))))))
  refine word_eq e (word_back b0 f0 (by decide) (by decide) ((major_19 f0).trans ?_) hw)
  iterate 4 refine (if_neg (other_value f6 (by decide))).trans ?_
  refine (if_pos f6).trans ?_
  rw [fin32_eq d f1, fin32_eq a f2, fin32_eq b f3, fin64_eq m f4, bit1_eq x f5]

theorem vremVV (d : Reg) (a : Reg) (b : Reg) (m : MaskF) (x : Bool) : Statement (Instr.vremVV d a b m x) := fun hw => by
  have e : put 0x64000005 [(d.val, 21), (a.val, 16), (b.val, 11), (m.val, 5), (x.toNat, 4)] = 25 * 2 ^ 26 + (d.val * 2 ^ 21 + (a.val * 2 ^ 16 + (b.val * 2 ^ 11 + (m.val * 2 ^ 5 + (x.toNat * 2 ^ 4 + 5))))) := by simp only [put]; omega
  have v6 : 5 < 2 ^ 4 := by decide
  have b6 := v6
  have v5 : x.toNat < 2 ^ 1 := bool_lt x
  have b5 := field_bound (lo := 4) b6 v5
  have v4 : m.val < 2 ^ 6 := m.isLt
  have b4 := field_bound (lo := 5) b5 v4
  have v3 : b.val < 2 ^ 5 := b.isLt
  have b3 := field_bound (lo := 11) b4 v3
  have v2 : a.val < 2 ^ 5 := a.isLt
  have b2 := field_bound (lo := 16) b3 v2
  have v1 : d.val < 2 ^ 5 := d.isLt
  have b1 := field_bound (lo := 21) b2 v1
  have v0 : 25 < 2 ^ 6 := by decide
  have b0 := field_bound (lo := 26) b1 v0
  have f0 := field_hit (lo := 26) b1 v0
  have f1 := field_skip (v := 25) (lo := 26) (by decide) (field_hit (lo := 21) b2 v1)
  have f2 := field_skip (v := 25) (lo := 26) (by decide) (field_skip (v := d.val) (lo := 21) (by decide) (field_hit (lo := 16) b3 v2))
  have f3 := field_skip (v := 25) (lo := 26) (by decide) (field_skip (v := d.val) (lo := 21) (by decide) (field_skip (v := a.val) (lo := 16) (by decide) (field_hit (lo := 11) b4 v3)))
  have f4 := field_skip (v := 25) (lo := 26) (by decide) (field_skip (v := d.val) (lo := 21) (by decide) (field_skip (v := a.val) (lo := 16) (by decide) (field_skip (v := b.val) (lo := 11) (by decide) (field_hit (lo := 5) b5 v4))))
  have f5 := field_skip (v := 25) (lo := 26) (by decide) (field_skip (v := d.val) (lo := 21) (by decide) (field_skip (v := a.val) (lo := 16) (by decide) (field_skip (v := b.val) (lo := 11) (by decide) (field_skip (v := m.val) (lo := 5) (by decide) (field_hit (lo := 4) b6 v5)))))
  have f6 := field_skip_low (v := 25) (lo := 26) (by decide) (field_skip_low (v := d.val) (lo := 21) (by decide) (field_skip_low (v := a.val) (lo := 16) (by decide) (field_skip_low (v := b.val) (lo := 11) (by decide) (field_skip_low (v := m.val) (lo := 5) (by decide) (field_skip_low (v := x.toNat) (lo := 4) (by decide) (Nat.mod_eq_of_lt v6))))))
  refine word_eq e (word_back b0 f0 (by decide) (by decide) ((major_19 f0).trans ?_) hw)
  iterate 5 refine (if_neg (other_value f6 (by decide))).trans ?_
  refine (if_pos f6).trans ?_
  rw [fin32_eq d f1, fin32_eq a f2, fin32_eq b f3, fin64_eq m f4, bit1_eq x f5]

theorem vminVV (d : Reg) (a : Reg) (b : Reg) (m : MaskF) (x : Bool) : Statement (Instr.vminVV d a b m x) := fun hw => by
  have e : put 0x64000006 [(d.val, 21), (a.val, 16), (b.val, 11), (m.val, 5), (x.toNat, 4)] = 25 * 2 ^ 26 + (d.val * 2 ^ 21 + (a.val * 2 ^ 16 + (b.val * 2 ^ 11 + (m.val * 2 ^ 5 + (x.toNat * 2 ^ 4 + 6))))) := by simp only [put]; omega
  have v6 : 6 < 2 ^ 4 := by decide
  have b6 := v6
  have v5 : x.toNat < 2 ^ 1 := bool_lt x
  have b5 := field_bound (lo := 4) b6 v5
  have v4 : m.val < 2 ^ 6 := m.isLt
  have b4 := field_bound (lo := 5) b5 v4
  have v3 : b.val < 2 ^ 5 := b.isLt
  have b3 := field_bound (lo := 11) b4 v3
  have v2 : a.val < 2 ^ 5 := a.isLt
  have b2 := field_bound (lo := 16) b3 v2
  have v1 : d.val < 2 ^ 5 := d.isLt
  have b1 := field_bound (lo := 21) b2 v1
  have v0 : 25 < 2 ^ 6 := by decide
  have b0 := field_bound (lo := 26) b1 v0
  have f0 := field_hit (lo := 26) b1 v0
  have f1 := field_skip (v := 25) (lo := 26) (by decide) (field_hit (lo := 21) b2 v1)
  have f2 := field_skip (v := 25) (lo := 26) (by decide) (field_skip (v := d.val) (lo := 21) (by decide) (field_hit (lo := 16) b3 v2))
  have f3 := field_skip (v := 25) (lo := 26) (by decide) (field_skip (v := d.val) (lo := 21) (by decide) (field_skip (v := a.val) (lo := 16) (by decide) (field_hit (lo := 11) b4 v3)))
  have f4 := field_skip (v := 25) (lo := 26) (by decide) (field_skip (v := d.val) (lo := 21) (by decide) (field_skip (v := a.val) (lo := 16) (by decide) (field_skip (v := b.val) (lo := 11) (by decide) (field_hit (lo := 5) b5 v4))))
  have f5 := field_skip (v := 25) (lo := 26) (by decide) (field_skip (v := d.val) (lo := 21) (by decide) (field_skip (v := a.val) (lo := 16) (by decide) (field_skip (v := b.val) (lo := 11) (by decide) (field_skip (v := m.val) (lo := 5) (by decide) (field_hit (lo := 4) b6 v5)))))
  have f6 := field_skip_low (v := 25) (lo := 26) (by decide) (field_skip_low (v := d.val) (lo := 21) (by decide) (field_skip_low (v := a.val) (lo := 16) (by decide) (field_skip_low (v := b.val) (lo := 11) (by decide) (field_skip_low (v := m.val) (lo := 5) (by decide) (field_skip_low (v := x.toNat) (lo := 4) (by decide) (Nat.mod_eq_of_lt v6))))))
  refine word_eq e (word_back b0 f0 (by decide) (by decide) ((major_19 f0).trans ?_) hw)
  iterate 6 refine (if_neg (other_value f6 (by decide))).trans ?_
  refine (if_pos f6).trans ?_
  rw [fin32_eq d f1, fin32_eq a f2, fin32_eq b f3, fin64_eq m f4, bit1_eq x f5]

theorem vmaxVV (d : Reg) (a : Reg) (b : Reg) (m : MaskF) (x : Bool) : Statement (Instr.vmaxVV d a b m x) := fun hw => by
  have e : put 0x64000007 [(d.val, 21), (a.val, 16), (b.val, 11), (m.val, 5), (x.toNat, 4)] = 25 * 2 ^ 26 + (d.val * 2 ^ 21 + (a.val * 2 ^ 16 + (b.val * 2 ^ 11 + (m.val * 2 ^ 5 + (x.toNat * 2 ^ 4 + 7))))) := by simp only [put]; omega
  have v6 : 7 < 2 ^ 4 := by decide
  have b6 := v6
  have v5 : x.toNat < 2 ^ 1 := bool_lt x
  have b5 := field_bound (lo := 4) b6 v5
  have v4 : m.val < 2 ^ 6 := m.isLt
  have b4 := field_bound (lo := 5) b5 v4
  have v3 : b.val < 2 ^ 5 := b.isLt
  have b3 := field_bound (lo := 11) b4 v3
  have v2 : a.val < 2 ^ 5 := a.isLt
  have b2 := field_bound (lo := 16) b3 v2
  have v1 : d.val < 2 ^ 5 := d.isLt
  have b1 := field_bound (lo := 21) b2 v1
  have v0 : 25 < 2 ^ 6 := by decide
  have b0 := field_bound (lo := 26) b1 v0
  have f0 := field_hit (lo := 26) b1 v0
  have f1 := field_skip (v := 25) (lo := 26) (by decide) (field_hit (lo := 21) b2 v1)
  have f2 := field_skip (v := 25) (lo := 26) (by decide) (field_skip (v := d.val) (lo := 21) (by decide) (field_hit (lo := 16) b3 v2))
  have f3 := field_skip (v := 25) (lo := 26) (by decide) (field_skip (v := d.val) (lo := 21) (by decide) (field_skip (v := a.val) (lo := 16) (by decide) (field_hit (lo := 11) b4 v3)))
  have f4 := field_skip (v := 25) (lo := 26) (by decide) (field_skip (v := d.val) (lo := 21) (by decide) (field_skip (v := a.val) (lo := 16) (by decide) (field_skip (v := b.val) (lo := 11) (by decide) (field_hit (lo := 5) b5 v4))))
  have f5 := field_skip (v := 25) (lo := 26) (by decide) (field_skip (v := d.val) (lo := 21) (by decide) (field_skip (v := a.val) (lo := 16) (by decide) (field_skip (v := b.val) (lo := 11) (by decide) (field_skip (v := m.val) (lo := 5) (by decide) (field_hit (lo := 4) b6 v5)))))
  have f6 := field_skip_low (v := 25) (lo := 26) (by decide) (field_skip_low (v := d.val) (lo := 21) (by decide) (field_skip_low (v := a.val) (lo := 16) (by decide) (field_skip_low (v := b.val) (lo := 11) (by decide) (field_skip_low (v := m.val) (lo := 5) (by decide) (field_skip_low (v := x.toNat) (lo := 4) (by decide) (Nat.mod_eq_of_lt v6))))))
  refine word_eq e (word_back b0 f0 (by decide) (by decide) ((major_19 f0).trans ?_) hw)
  iterate 7 refine (if_neg (other_value f6 (by decide))).trans ?_
  refine (if_pos f6).trans ?_
  rw [fin32_eq d f1, fin32_eq a f2, fin32_eq b f3, fin64_eq m f4, bit1_eq x f5]

theorem vaddsVV (d : Reg) (a : Reg) (b : Reg) (m : MaskF) (x : Bool) : Statement (Instr.vaddsVV d a b m x) := fun hw => by
  have e : put 0x64000008 [(d.val, 21), (a.val, 16), (b.val, 11), (m.val, 5), (x.toNat, 4)] = 25 * 2 ^ 26 + (d.val * 2 ^ 21 + (a.val * 2 ^ 16 + (b.val * 2 ^ 11 + (m.val * 2 ^ 5 + (x.toNat * 2 ^ 4 + 8))))) := by simp only [put]; omega
  have v6 : 8 < 2 ^ 4 := by decide
  have b6 := v6
  have v5 : x.toNat < 2 ^ 1 := bool_lt x
  have b5 := field_bound (lo := 4) b6 v5
  have v4 : m.val < 2 ^ 6 := m.isLt
  have b4 := field_bound (lo := 5) b5 v4
  have v3 : b.val < 2 ^ 5 := b.isLt
  have b3 := field_bound (lo := 11) b4 v3
  have v2 : a.val < 2 ^ 5 := a.isLt
  have b2 := field_bound (lo := 16) b3 v2
  have v1 : d.val < 2 ^ 5 := d.isLt
  have b1 := field_bound (lo := 21) b2 v1
  have v0 : 25 < 2 ^ 6 := by decide
  have b0 := field_bound (lo := 26) b1 v0
  have f0 := field_hit (lo := 26) b1 v0
  have f1 := field_skip (v := 25) (lo := 26) (by decide) (field_hit (lo := 21) b2 v1)
  have f2 := field_skip (v := 25) (lo := 26) (by decide) (field_skip (v := d.val) (lo := 21) (by decide) (field_hit (lo := 16) b3 v2))
  have f3 := field_skip (v := 25) (lo := 26) (by decide) (field_skip (v := d.val) (lo := 21) (by decide) (field_skip (v := a.val) (lo := 16) (by decide) (field_hit (lo := 11) b4 v3)))
  have f4 := field_skip (v := 25) (lo := 26) (by decide) (field_skip (v := d.val) (lo := 21) (by decide) (field_skip (v := a.val) (lo := 16) (by decide) (field_skip (v := b.val) (lo := 11) (by decide) (field_hit (lo := 5) b5 v4))))
  have f5 := field_skip (v := 25) (lo := 26) (by decide) (field_skip (v := d.val) (lo := 21) (by decide) (field_skip (v := a.val) (lo := 16) (by decide) (field_skip (v := b.val) (lo := 11) (by decide) (field_skip (v := m.val) (lo := 5) (by decide) (field_hit (lo := 4) b6 v5)))))
  have f6 := field_skip_low (v := 25) (lo := 26) (by decide) (field_skip_low (v := d.val) (lo := 21) (by decide) (field_skip_low (v := a.val) (lo := 16) (by decide) (field_skip_low (v := b.val) (lo := 11) (by decide) (field_skip_low (v := m.val) (lo := 5) (by decide) (field_skip_low (v := x.toNat) (lo := 4) (by decide) (Nat.mod_eq_of_lt v6))))))
  refine word_eq e (word_back b0 f0 (by decide) (by decide) ((major_19 f0).trans ?_) hw)
  iterate 8 refine (if_neg (other_value f6 (by decide))).trans ?_
  refine (if_pos f6).trans ?_
  rw [fin32_eq d f1, fin32_eq a f2, fin32_eq b f3, fin64_eq m f4, bit1_eq x f5]

theorem vsubsVV (d : Reg) (a : Reg) (b : Reg) (m : MaskF) (x : Bool) : Statement (Instr.vsubsVV d a b m x) := fun hw => by
  have e : put 0x64000009 [(d.val, 21), (a.val, 16), (b.val, 11), (m.val, 5), (x.toNat, 4)] = 25 * 2 ^ 26 + (d.val * 2 ^ 21 + (a.val * 2 ^ 16 + (b.val * 2 ^ 11 + (m.val * 2 ^ 5 + (x.toNat * 2 ^ 4 + 9))))) := by simp only [put]; omega
  have v6 : 9 < 2 ^ 4 := by decide
  have b6 := v6
  have v5 : x.toNat < 2 ^ 1 := bool_lt x
  have b5 := field_bound (lo := 4) b6 v5
  have v4 : m.val < 2 ^ 6 := m.isLt
  have b4 := field_bound (lo := 5) b5 v4
  have v3 : b.val < 2 ^ 5 := b.isLt
  have b3 := field_bound (lo := 11) b4 v3
  have v2 : a.val < 2 ^ 5 := a.isLt
  have b2 := field_bound (lo := 16) b3 v2
  have v1 : d.val < 2 ^ 5 := d.isLt
  have b1 := field_bound (lo := 21) b2 v1
  have v0 : 25 < 2 ^ 6 := by decide
  have b0 := field_bound (lo := 26) b1 v0
  have f0 := field_hit (lo := 26) b1 v0
  have f1 := field_skip (v := 25) (lo := 26) (by decide) (field_hit (lo := 21) b2 v1)
  have f2 := field_skip (v := 25) (lo := 26) (by decide) (field_skip (v := d.val) (lo := 21) (by decide) (field_hit (lo := 16) b3 v2))
  have f3 := field_skip (v := 25) (lo := 26) (by decide) (field_skip (v := d.val) (lo := 21) (by decide) (field_skip (v := a.val) (lo := 16) (by decide) (field_hit (lo := 11) b4 v3)))
  have f4 := field_skip (v := 25) (lo := 26) (by decide) (field_skip (v := d.val) (lo := 21) (by decide) (field_skip (v := a.val) (lo := 16) (by decide) (field_skip (v := b.val) (lo := 11) (by decide) (field_hit (lo := 5) b5 v4))))
  have f5 := field_skip (v := 25) (lo := 26) (by decide) (field_skip (v := d.val) (lo := 21) (by decide) (field_skip (v := a.val) (lo := 16) (by decide) (field_skip (v := b.val) (lo := 11) (by decide) (field_skip (v := m.val) (lo := 5) (by decide) (field_hit (lo := 4) b6 v5)))))
  have f6 := field_skip_low (v := 25) (lo := 26) (by decide) (field_skip_low (v := d.val) (lo := 21) (by decide) (field_skip_low (v := a.val) (lo := 16) (by decide) (field_skip_low (v := b.val) (lo := 11) (by decide) (field_skip_low (v := m.val) (lo := 5) (by decide) (field_skip_low (v := x.toNat) (lo := 4) (by decide) (Nat.mod_eq_of_lt v6))))))
  refine word_eq e (word_back b0 f0 (by decide) (by decide) ((major_19 f0).trans ?_) hw)
  iterate 9 refine (if_neg (other_value f6 (by decide))).trans ?_
  refine (if_pos f6).trans ?_
  rw [fin32_eq d f1, fin32_eq a f2, fin32_eq b f3, fin64_eq m f4, bit1_eq x f5]

theorem vandVV (d : Reg) (a : Reg) (b : Reg) (m : MaskF) (x : Bool) : Statement (Instr.vandVV d a b m x) := fun hw => by
  have e : put 0x6400000a [(d.val, 21), (a.val, 16), (b.val, 11), (m.val, 5), (x.toNat, 4)] = 25 * 2 ^ 26 + (d.val * 2 ^ 21 + (a.val * 2 ^ 16 + (b.val * 2 ^ 11 + (m.val * 2 ^ 5 + (x.toNat * 2 ^ 4 + 10))))) := by simp only [put]; omega
  have v6 : 10 < 2 ^ 4 := by decide
  have b6 := v6
  have v5 : x.toNat < 2 ^ 1 := bool_lt x
  have b5 := field_bound (lo := 4) b6 v5
  have v4 : m.val < 2 ^ 6 := m.isLt
  have b4 := field_bound (lo := 5) b5 v4
  have v3 : b.val < 2 ^ 5 := b.isLt
  have b3 := field_bound (lo := 11) b4 v3
  have v2 : a.val < 2 ^ 5 := a.isLt
  have b2 := field_bound (lo := 16) b3 v2
  have v1 : d.val < 2 ^ 5 := d.isLt
  have b1 := field_bound (lo := 21) b2 v1
  have v0 : 25 < 2 ^ 6 := by decide
  have b0 := field_bound (lo := 26) b1 v0
  have f0 := field_hit (lo := 26) b1 v0
  have f1 := field_skip (v := 25) (lo := 26) (by decide) (field_hit (lo := 21) b2 v1)
  have f2 := field_skip (v := 25) (lo := 26) (by decide) (field_skip (v := d.val) (lo := 21) (by decide) (field_hit (lo := 16) b3 v2))
  have f3 := field_skip (v := 25) (lo := 26) (by decide) (field_skip (v := d.val) (lo := 21) (by decide) (field_skip (v := a.val) (lo := 16) (by decide) (field_hit (lo := 11) b4 v3)))
  have f4 := field_skip (v := 25) (lo := 26) (by decide) (field_skip (v := d.val) (lo := 21) (by decide) (field_skip (v := a.val) (lo := 16) (by decide) (field_skip (v := b.val) (lo := 11) (by decide) (field_hit (lo := 5) b5 v4))))
  have f5 := field_skip (v := 25) (lo := 26) (by decide) (field_skip (v := d.val) (lo := 21) (by decide) (field_skip (v := a.val) (lo := 16) (by decide) (field_skip (v := b.val) (lo := 11) (by decide) (field_skip (v := m.val) (lo := 5) (by decide) (field_hit (lo := 4) b6 v5)))))
  have f6 := field_skip_low (v := 25) (lo := 26) (by decide) (field_skip_low (v := d.val) (lo := 21) (by decide) (field_skip_low (v := a.val) (lo := 16) (by decide) (field_skip_low (v := b.val) (lo := 11) (by decide) (field_skip_low (v := m.val) (lo := 5) (by decide) (field_skip_low (v := x.toNat) (lo := 4) (by decide) (Nat.mod_eq_of_lt v6))))))
  refine word_eq e (word_back b0 f0 (by decide) (by decide) ((major_19 f0).trans ?_) hw)
  iterate 10 refine (if_neg (other_value f6 (by decide))).trans ?_
  refine (if_pos f6).trans ?_
  rw [fin32_eq d f1, fin32_eq a f2, fin32_eq b f3, fin64_eq m f4, bit1_eq x f5]

theorem vorVV (d : Reg) (a : Reg) (b : Reg) (m : MaskF) (x : Bool) : Statement (Instr.vorVV d a b m x) := fun hw => by
  have e : put 0x6400000b [(d.val, 21), (a.val, 16), (b.val, 11), (m.val, 5), (x.toNat, 4)] = 25 * 2 ^ 26 + (d.val * 2 ^ 21 + (a.val * 2 ^ 16 + (b.val * 2 ^ 11 + (m.val * 2 ^ 5 + (x.toNat * 2 ^ 4 + 11))))) := by simp only [put]; omega
  have v6 : 11 < 2 ^ 4 := by decide
  have b6 := v6
  have v5 : x.toNat < 2 ^ 1 := bool_lt x
  have b5 := field_bound (lo := 4) b6 v5
  have v4 : m.val < 2 ^ 6 := m.isLt
  have b4 := field_bound (lo := 5) b5 v4
  have v3 : b.val < 2 ^ 5 := b.isLt
  have b3 := field_bound (lo := 11) b4 v3
  have v2 : a.val < 2 ^ 5 := a.isLt
  have b2 := field_bound (lo := 16) b3 v2
  have v1 : d.val < 2 ^ 5 := d.isLt
  have b1 := field_bound (lo := 21) b2 v1
  have v0 : 25 < 2 ^ 6 := by decide
  have b0 := field_bound (lo := 26) b1 v0
  have f0 := field_hit (lo := 26) b1 v0
  have f1 := field_skip (v := 25) (lo := 26) (by decide) (field_hit (lo := 21) b2 v1)
  have f2 := field_skip (v := 25) (lo := 26) (by decide) (field_skip (v := d.val) (lo := 21) (by decide) (field_hit (lo := 16) b3 v2))
  have f3 := field_skip (v := 25) (lo := 26) (by decide) (field_skip (v := d.val) (lo := 21) (by decide) (field_skip (v := a.val) (lo := 16) (by decide) (field_hit (lo := 11) b4 v3)))
  have f4 := field_skip (v := 25) (lo := 26) (by decide) (field_skip (v := d.val) (lo := 21) (by decide) (field_skip (v := a.val) (lo := 16) (by decide) (field_skip (v := b.val) (lo := 11) (by decide) (field_hit (lo := 5) b5 v4))))
  have f5 := field_skip (v := 25) (lo := 26) (by decide) (field_skip (v := d.val) (lo := 21) (by decide) (field_skip (v := a.val) (lo := 16) (by decide) (field_skip (v := b.val) (lo := 11) (by decide) (field_skip (v := m.val) (lo := 5) (by decide) (field_hit (lo := 4) b6 v5)))))
  have f6 := field_skip_low (v := 25) (lo := 26) (by decide) (field_skip_low (v := d.val) (lo := 21) (by decide) (field_skip_low (v := a.val) (lo := 16) (by decide) (field_skip_low (v := b.val) (lo := 11) (by decide) (field_skip_low (v := m.val) (lo := 5) (by decide) (field_skip_low (v := x.toNat) (lo := 4) (by decide) (Nat.mod_eq_of_lt v6))))))
  refine word_eq e (word_back b0 f0 (by decide) (by decide) ((major_19 f0).trans ?_) hw)
  iterate 11 refine (if_neg (other_value f6 (by decide))).trans ?_
  refine (if_pos f6).trans ?_
  rw [fin32_eq d f1, fin32_eq a f2, fin32_eq b f3, fin64_eq m f4, bit1_eq x f5]

theorem vxorVV (d : Reg) (a : Reg) (b : Reg) (m : MaskF) (x : Bool) : Statement (Instr.vxorVV d a b m x) := fun hw => by
  have e : put 0x6400000c [(d.val, 21), (a.val, 16), (b.val, 11), (m.val, 5), (x.toNat, 4)] = 25 * 2 ^ 26 + (d.val * 2 ^ 21 + (a.val * 2 ^ 16 + (b.val * 2 ^ 11 + (m.val * 2 ^ 5 + (x.toNat * 2 ^ 4 + 12))))) := by simp only [put]; omega
  have v6 : 12 < 2 ^ 4 := by decide
  have b6 := v6
  have v5 : x.toNat < 2 ^ 1 := bool_lt x
  have b5 := field_bound (lo := 4) b6 v5
  have v4 : m.val < 2 ^ 6 := m.isLt
  have b4 := field_bound (lo := 5) b5 v4
  have v3 : b.val < 2 ^ 5 := b.isLt
  have b3 := field_bound (lo := 11) b4 v3
  have v2 : a.val < 2 ^ 5 := a.isLt
  have b2 := field_bound (lo := 16) b3 v2
  have v1 : d.val < 2 ^ 5 := d.isLt
  have b1 := field_bound (lo := 21) b2 v1
  have v0 : 25 < 2 ^ 6 := by decide
  have b0 := field_bound (lo := 26) b1 v0
  have f0 := field_hit (lo := 26) b1 v0
  have f1 := field_skip (v := 25) (lo := 26) (by decide) (field_hit (lo := 21) b2 v1)
  have f2 := field_skip (v := 25) (lo := 26) (by decide) (field_skip (v := d.val) (lo := 21) (by decide) (field_hit (lo := 16) b3 v2))
  have f3 := field_skip (v := 25) (lo := 26) (by decide) (field_skip (v := d.val) (lo := 21) (by decide) (field_skip (v := a.val) (lo := 16) (by decide) (field_hit (lo := 11) b4 v3)))
  have f4 := field_skip (v := 25) (lo := 26) (by decide) (field_skip (v := d.val) (lo := 21) (by decide) (field_skip (v := a.val) (lo := 16) (by decide) (field_skip (v := b.val) (lo := 11) (by decide) (field_hit (lo := 5) b5 v4))))
  have f5 := field_skip (v := 25) (lo := 26) (by decide) (field_skip (v := d.val) (lo := 21) (by decide) (field_skip (v := a.val) (lo := 16) (by decide) (field_skip (v := b.val) (lo := 11) (by decide) (field_skip (v := m.val) (lo := 5) (by decide) (field_hit (lo := 4) b6 v5)))))
  have f6 := field_skip_low (v := 25) (lo := 26) (by decide) (field_skip_low (v := d.val) (lo := 21) (by decide) (field_skip_low (v := a.val) (lo := 16) (by decide) (field_skip_low (v := b.val) (lo := 11) (by decide) (field_skip_low (v := m.val) (lo := 5) (by decide) (field_skip_low (v := x.toNat) (lo := 4) (by decide) (Nat.mod_eq_of_lt v6))))))
  refine word_eq e (word_back b0 f0 (by decide) (by decide) ((major_19 f0).trans ?_) hw)
  iterate 12 refine (if_neg (other_value f6 (by decide))).trans ?_
  refine (if_pos f6).trans ?_
  rw [fin32_eq d f1, fin32_eq a f2, fin32_eq b f3, fin64_eq m f4, bit1_eq x f5]

theorem vshlVV (d : Reg) (a : Reg) (b : Reg) (m : MaskF) (x : Bool) : Statement (Instr.vshlVV d a b m x) := fun hw => by
  have e : put 0x6400000d [(d.val, 21), (a.val, 16), (b.val, 11), (m.val, 5), (x.toNat, 4)] = 25 * 2 ^ 26 + (d.val * 2 ^ 21 + (a.val * 2 ^ 16 + (b.val * 2 ^ 11 + (m.val * 2 ^ 5 + (x.toNat * 2 ^ 4 + 13))))) := by simp only [put]; omega
  have v6 : 13 < 2 ^ 4 := by decide
  have b6 := v6
  have v5 : x.toNat < 2 ^ 1 := bool_lt x
  have b5 := field_bound (lo := 4) b6 v5
  have v4 : m.val < 2 ^ 6 := m.isLt
  have b4 := field_bound (lo := 5) b5 v4
  have v3 : b.val < 2 ^ 5 := b.isLt
  have b3 := field_bound (lo := 11) b4 v3
  have v2 : a.val < 2 ^ 5 := a.isLt
  have b2 := field_bound (lo := 16) b3 v2
  have v1 : d.val < 2 ^ 5 := d.isLt
  have b1 := field_bound (lo := 21) b2 v1
  have v0 : 25 < 2 ^ 6 := by decide
  have b0 := field_bound (lo := 26) b1 v0
  have f0 := field_hit (lo := 26) b1 v0
  have f1 := field_skip (v := 25) (lo := 26) (by decide) (field_hit (lo := 21) b2 v1)
  have f2 := field_skip (v := 25) (lo := 26) (by decide) (field_skip (v := d.val) (lo := 21) (by decide) (field_hit (lo := 16) b3 v2))
  have f3 := field_skip (v := 25) (lo := 26) (by decide) (field_skip (v := d.val) (lo := 21) (by decide) (field_skip (v := a.val) (lo := 16) (by decide) (field_hit (lo := 11) b4 v3)))
  have f4 := field_skip (v := 25) (lo := 26) (by decide) (field_skip (v := d.val) (lo := 21) (by decide) (field_skip (v := a.val) (lo := 16) (by decide) (field_skip (v := b.val) (lo := 11) (by decide) (field_hit (lo := 5) b5 v4))))
  have f5 := field_skip (v := 25) (lo := 26) (by decide) (field_skip (v := d.val) (lo := 21) (by decide) (field_skip (v := a.val) (lo := 16) (by decide) (field_skip (v := b.val) (lo := 11) (by decide) (field_skip (v := m.val) (lo := 5) (by decide) (field_hit (lo := 4) b6 v5)))))
  have f6 := field_skip_low (v := 25) (lo := 26) (by decide) (field_skip_low (v := d.val) (lo := 21) (by decide) (field_skip_low (v := a.val) (lo := 16) (by decide) (field_skip_low (v := b.val) (lo := 11) (by decide) (field_skip_low (v := m.val) (lo := 5) (by decide) (field_skip_low (v := x.toNat) (lo := 4) (by decide) (Nat.mod_eq_of_lt v6))))))
  refine word_eq e (word_back b0 f0 (by decide) (by decide) ((major_19 f0).trans ?_) hw)
  iterate 13 refine (if_neg (other_value f6 (by decide))).trans ?_
  refine (if_pos f6).trans ?_
  rw [fin32_eq d f1, fin32_eq a f2, fin32_eq b f3, fin64_eq m f4, bit1_eq x f5]

theorem vshrVV (d : Reg) (a : Reg) (b : Reg) (m : MaskF) (x : Bool) : Statement (Instr.vshrVV d a b m x) := fun hw => by
  have e : put 0x6400000e [(d.val, 21), (a.val, 16), (b.val, 11), (m.val, 5), (x.toNat, 4)] = 25 * 2 ^ 26 + (d.val * 2 ^ 21 + (a.val * 2 ^ 16 + (b.val * 2 ^ 11 + (m.val * 2 ^ 5 + (x.toNat * 2 ^ 4 + 14))))) := by simp only [put]; omega
  have v6 : 14 < 2 ^ 4 := by decide
  have b6 := v6
  have v5 : x.toNat < 2 ^ 1 := bool_lt x
  have b5 := field_bound (lo := 4) b6 v5
  have v4 : m.val < 2 ^ 6 := m.isLt
  have b4 := field_bound (lo := 5) b5 v4
  have v3 : b.val < 2 ^ 5 := b.isLt
  have b3 := field_bound (lo := 11) b4 v3
  have v2 : a.val < 2 ^ 5 := a.isLt
  have b2 := field_bound (lo := 16) b3 v2
  have v1 : d.val < 2 ^ 5 := d.isLt
  have b1 := field_bound (lo := 21) b2 v1
  have v0 : 25 < 2 ^ 6 := by decide
  have b0 := field_bound (lo := 26) b1 v0
  have f0 := field_hit (lo := 26) b1 v0
  have f1 := field_skip (v := 25) (lo := 26) (by decide) (field_hit (lo := 21) b2 v1)
  have f2 := field_skip (v := 25) (lo := 26) (by decide) (field_skip (v := d.val) (lo := 21) (by decide) (field_hit (lo := 16) b3 v2))
  have f3 := field_skip (v := 25) (lo := 26) (by decide) (field_skip (v := d.val) (lo := 21) (by decide) (field_skip (v := a.val) (lo := 16) (by decide) (field_hit (lo := 11) b4 v3)))
  have f4 := field_skip (v := 25) (lo := 26) (by decide) (field_skip (v := d.val) (lo := 21) (by decide) (field_skip (v := a.val) (lo := 16) (by decide) (field_skip (v := b.val) (lo := 11) (by decide) (field_hit (lo := 5) b5 v4))))
  have f5 := field_skip (v := 25) (lo := 26) (by decide) (field_skip (v := d.val) (lo := 21) (by decide) (field_skip (v := a.val) (lo := 16) (by decide) (field_skip (v := b.val) (lo := 11) (by decide) (field_skip (v := m.val) (lo := 5) (by decide) (field_hit (lo := 4) b6 v5)))))
  have f6 := field_skip_low (v := 25) (lo := 26) (by decide) (field_skip_low (v := d.val) (lo := 21) (by decide) (field_skip_low (v := a.val) (lo := 16) (by decide) (field_skip_low (v := b.val) (lo := 11) (by decide) (field_skip_low (v := m.val) (lo := 5) (by decide) (field_skip_low (v := x.toNat) (lo := 4) (by decide) (Nat.mod_eq_of_lt v6))))))
  refine word_eq e (word_back b0 f0 (by decide) (by decide) ((major_19 f0).trans ?_) hw)
  iterate 14 refine (if_neg (other_value f6 (by decide))).trans ?_
  refine (if_pos f6).trans ?_
  rw [fin32_eq d f1, fin32_eq a f2, fin32_eq b f3, fin64_eq m f4, bit1_eq x f5]

theorem vaddVS (d : Reg) (a : Reg) (b : Reg) (m : MaskF) (x : Bool) : Statement (Instr.vaddVS d a b m x) := fun hw => by
  have e : put 0x68000000 [(d.val, 21), (a.val, 16), (b.val, 11), (m.val, 5), (x.toNat, 4)] = 26 * 2 ^ 26 + (d.val * 2 ^ 21 + (a.val * 2 ^ 16 + (b.val * 2 ^ 11 + (m.val * 2 ^ 5 + (x.toNat * 2 ^ 4 + 0))))) := by simp only [put]; omega
  have v6 : 0 < 2 ^ 4 := by decide
  have b6 := v6
  have v5 : x.toNat < 2 ^ 1 := bool_lt x
  have b5 := field_bound (lo := 4) b6 v5
  have v4 : m.val < 2 ^ 6 := m.isLt
  have b4 := field_bound (lo := 5) b5 v4
  have v3 : b.val < 2 ^ 5 := b.isLt
  have b3 := field_bound (lo := 11) b4 v3
  have v2 : a.val < 2 ^ 5 := a.isLt
  have b2 := field_bound (lo := 16) b3 v2
  have v1 : d.val < 2 ^ 5 := d.isLt
  have b1 := field_bound (lo := 21) b2 v1
  have v0 : 26 < 2 ^ 6 := by decide
  have b0 := field_bound (lo := 26) b1 v0
  have f0 := field_hit (lo := 26) b1 v0
  have f1 := field_skip (v := 26) (lo := 26) (by decide) (field_hit (lo := 21) b2 v1)
  have f2 := field_skip (v := 26) (lo := 26) (by decide) (field_skip (v := d.val) (lo := 21) (by decide) (field_hit (lo := 16) b3 v2))
  have f3 := field_skip (v := 26) (lo := 26) (by decide) (field_skip (v := d.val) (lo := 21) (by decide) (field_skip (v := a.val) (lo := 16) (by decide) (field_hit (lo := 11) b4 v3)))
  have f4 := field_skip (v := 26) (lo := 26) (by decide) (field_skip (v := d.val) (lo := 21) (by decide) (field_skip (v := a.val) (lo := 16) (by decide) (field_skip (v := b.val) (lo := 11) (by decide) (field_hit (lo := 5) b5 v4))))
  have f5 := field_skip (v := 26) (lo := 26) (by decide) (field_skip (v := d.val) (lo := 21) (by decide) (field_skip (v := a.val) (lo := 16) (by decide) (field_skip (v := b.val) (lo := 11) (by decide) (field_skip (v := m.val) (lo := 5) (by decide) (field_hit (lo := 4) b6 v5)))))
  have f6 := field_skip_low (v := 26) (lo := 26) (by decide) (field_skip_low (v := d.val) (lo := 21) (by decide) (field_skip_low (v := a.val) (lo := 16) (by decide) (field_skip_low (v := b.val) (lo := 11) (by decide) (field_skip_low (v := m.val) (lo := 5) (by decide) (field_skip_low (v := x.toNat) (lo := 4) (by decide) (Nat.mod_eq_of_lt v6))))))
  refine word_eq e (word_back b0 f0 (by decide) (by decide) ((major_1a f0).trans ?_) hw)
  refine (if_pos f6).trans ?_
  rw [fin32_eq d f1, fin32_eq a f2, fin32_eq b f3, fin64_eq m f4, bit1_eq x f5]

theorem vsubVS (d : Reg) (a : Reg) (b : Reg) (m : MaskF) (x : Bool) : Statement (Instr.vsubVS d a b m x) := fun hw => by
  have e : put 0x68000001 [(d.val, 21), (a.val, 16), (b.val, 11), (m.val, 5), (x.toNat, 4)] = 26 * 2 ^ 26 + (d.val * 2 ^ 21 + (a.val * 2 ^ 16 + (b.val * 2 ^ 11 + (m.val * 2 ^ 5 + (x.toNat * 2 ^ 4 + 1))))) := by simp only [put]; omega
  have v6 : 1 < 2 ^ 4 := by decide
  have b6 := v6
  have v5 : x.toNat < 2 ^ 1 := bool_lt x
  have b5 := field_bound (lo := 4) b6 v5
  have v4 : m.val < 2 ^ 6 := m.isLt
  have b4 := field_bound (lo := 5) b5 v4
  have v3 : b.val < 2 ^ 5 := b.isLt
  have b3 := field_bound (lo := 11) b4 v3
  have v2 : a.val < 2 ^ 5 := a.isLt
  have b2 := field_bound (lo := 16) b3 v2
  have v1 : d.val < 2 ^ 5 := d.isLt
  have b1 := field_bound (lo := 21) b2 v1
  have v0 : 26 < 2 ^ 6 := by decide
  have b0 := field_bound (lo := 26) b1 v0
  have f0 := field_hit (lo := 26) b1 v0
  have f1 := field_skip (v := 26) (lo := 26) (by decide) (field_hit (lo := 21) b2 v1)
  have f2 := field_skip (v := 26) (lo := 26) (by decide) (field_skip (v := d.val) (lo := 21) (by decide) (field_hit (lo := 16) b3 v2))
  have f3 := field_skip (v := 26) (lo := 26) (by decide) (field_skip (v := d.val) (lo := 21) (by decide) (field_skip (v := a.val) (lo := 16) (by decide) (field_hit (lo := 11) b4 v3)))
  have f4 := field_skip (v := 26) (lo := 26) (by decide) (field_skip (v := d.val) (lo := 21) (by decide) (field_skip (v := a.val) (lo := 16) (by decide) (field_skip (v := b.val) (lo := 11) (by decide) (field_hit (lo := 5) b5 v4))))
  have f5 := field_skip (v := 26) (lo := 26) (by decide) (field_skip (v := d.val) (lo := 21) (by decide) (field_skip (v := a.val) (lo := 16) (by decide) (field_skip (v := b.val) (lo := 11) (by decide) (field_skip (v := m.val) (lo := 5) (by decide) (field_hit (lo := 4) b6 v5)))))
  have f6 := field_skip_low (v := 26) (lo := 26) (by decide) (field_skip_low (v := d.val) (lo := 21) (by decide) (field_skip_low (v := a.val) (lo := 16) (by decide) (field_skip_low (v := b.val) (lo := 11) (by decide) (field_skip_low (v := m.val) (lo := 5) (by decide) (field_skip_low (v := x.toNat) (lo := 4) (by decide) (Nat.mod_eq_of_lt v6))))))
  refine word_eq e (word_back b0 f0 (by decide) (by decide) ((major_1a f0).trans ?_) hw)
  refine (if_neg (other_value f6 (by decide))).trans ?_
  refine (if_pos f6).trans ?_
  rw [fin32_eq d f1, fin32_eq a f2, fin32_eq b f3, fin64_eq m f4, bit1_eq x f5]

theorem vrsubVS (d : Reg) (a : Reg) (b : Reg) (m : MaskF) (x : Bool) : Statement (Instr.vrsubVS d a b m x) := fun hw => by
  have e : put 0x68000002 [(d.val, 21), (a.val, 16), (b.val, 11), (m.val, 5), (x.toNat, 4)] = 26 * 2 ^ 26 + (d.val * 2 ^ 21 + (a.val * 2 ^ 16 + (b.val * 2 ^ 11 + (m.val * 2 ^ 5 + (x.toNat * 2 ^ 4 + 2))))) := by simp only [put]; omega
  have v6 : 2 < 2 ^ 4 := by decide
  have b6 := v6
  have v5 : x.toNat < 2 ^ 1 := bool_lt x
  have b5 := field_bound (lo := 4) b6 v5
  have v4 : m.val < 2 ^ 6 := m.isLt
  have b4 := field_bound (lo := 5) b5 v4
  have v3 : b.val < 2 ^ 5 := b.isLt
  have b3 := field_bound (lo := 11) b4 v3
  have v2 : a.val < 2 ^ 5 := a.isLt
  have b2 := field_bound (lo := 16) b3 v2
  have v1 : d.val < 2 ^ 5 := d.isLt
  have b1 := field_bound (lo := 21) b2 v1
  have v0 : 26 < 2 ^ 6 := by decide
  have b0 := field_bound (lo := 26) b1 v0
  have f0 := field_hit (lo := 26) b1 v0
  have f1 := field_skip (v := 26) (lo := 26) (by decide) (field_hit (lo := 21) b2 v1)
  have f2 := field_skip (v := 26) (lo := 26) (by decide) (field_skip (v := d.val) (lo := 21) (by decide) (field_hit (lo := 16) b3 v2))
  have f3 := field_skip (v := 26) (lo := 26) (by decide) (field_skip (v := d.val) (lo := 21) (by decide) (field_skip (v := a.val) (lo := 16) (by decide) (field_hit (lo := 11) b4 v3)))
  have f4 := field_skip (v := 26) (lo := 26) (by decide) (field_skip (v := d.val) (lo := 21) (by decide) (field_skip (v := a.val) (lo := 16) (by decide) (field_skip (v := b.val) (lo := 11) (by decide) (field_hit (lo := 5) b5 v4))))
  have f5 := field_skip (v := 26) (lo := 26) (by decide) (field_skip (v := d.val) (lo := 21) (by decide) (field_skip (v := a.val) (lo := 16) (by decide) (field_skip (v := b.val) (lo := 11) (by decide) (field_skip (v := m.val) (lo := 5) (by decide) (field_hit (lo := 4) b6 v5)))))
  have f6 := field_skip_low (v := 26) (lo := 26) (by decide) (field_skip_low (v := d.val) (lo := 21) (by decide) (field_skip_low (v := a.val) (lo := 16) (by decide) (field_skip_low (v := b.val) (lo := 11) (by decide) (field_skip_low (v := m.val) (lo := 5) (by decide) (field_skip_low (v := x.toNat) (lo := 4) (by decide) (Nat.mod_eq_of_lt v6))))))
  refine word_eq e (word_back b0 f0 (by decide) (by decide) ((major_1a f0).trans ?_) hw)
  iterate 2 refine (if_neg (other_value f6 (by decide))).trans ?_
  refine (if_pos f6).trans ?_
  rw [fin32_eq d f1, fin32_eq a f2, fin32_eq b f3, fin64_eq m f4, bit1_eq x f5]

theorem vmulVS (d : Reg) (a : Reg) (b : Reg) (m : MaskF) (x : Bool) : Statement (Instr.vmulVS d a b m x) := fun hw => by
  have e : put 0x68000003 [(d.val, 21), (a.val, 16), (b.val, 11), (m.val, 5), (x.toNat, 4)] = 26 * 2 ^ 26 + (d.val * 2 ^ 21 + (a.val * 2 ^ 16 + (b.val * 2 ^ 11 + (m.val * 2 ^ 5 + (x.toNat * 2 ^ 4 + 3))))) := by simp only [put]; omega
  have v6 : 3 < 2 ^ 4 := by decide
  have b6 := v6
  have v5 : x.toNat < 2 ^ 1 := bool_lt x
  have b5 := field_bound (lo := 4) b6 v5
  have v4 : m.val < 2 ^ 6 := m.isLt
  have b4 := field_bound (lo := 5) b5 v4
  have v3 : b.val < 2 ^ 5 := b.isLt
  have b3 := field_bound (lo := 11) b4 v3
  have v2 : a.val < 2 ^ 5 := a.isLt
  have b2 := field_bound (lo := 16) b3 v2
  have v1 : d.val < 2 ^ 5 := d.isLt
  have b1 := field_bound (lo := 21) b2 v1
  have v0 : 26 < 2 ^ 6 := by decide
  have b0 := field_bound (lo := 26) b1 v0
  have f0 := field_hit (lo := 26) b1 v0
  have f1 := field_skip (v := 26) (lo := 26) (by decide) (field_hit (lo := 21) b2 v1)
  have f2 := field_skip (v := 26) (lo := 26) (by decide) (field_skip (v := d.val) (lo := 21) (by decide) (field_hit (lo := 16) b3 v2))
  have f3 := field_skip (v := 26) (lo := 26) (by decide) (field_skip (v := d.val) (lo := 21) (by decide) (field_skip (v := a.val) (lo := 16) (by decide) (field_hit (lo := 11) b4 v3)))
  have f4 := field_skip (v := 26) (lo := 26) (by decide) (field_skip (v := d.val) (lo := 21) (by decide) (field_skip (v := a.val) (lo := 16) (by decide) (field_skip (v := b.val) (lo := 11) (by decide) (field_hit (lo := 5) b5 v4))))
  have f5 := field_skip (v := 26) (lo := 26) (by decide) (field_skip (v := d.val) (lo := 21) (by decide) (field_skip (v := a.val) (lo := 16) (by decide) (field_skip (v := b.val) (lo := 11) (by decide) (field_skip (v := m.val) (lo := 5) (by decide) (field_hit (lo := 4) b6 v5)))))
  have f6 := field_skip_low (v := 26) (lo := 26) (by decide) (field_skip_low (v := d.val) (lo := 21) (by decide) (field_skip_low (v := a.val) (lo := 16) (by decide) (field_skip_low (v := b.val) (lo := 11) (by decide) (field_skip_low (v := m.val) (lo := 5) (by decide) (field_skip_low (v := x.toNat) (lo := 4) (by decide) (Nat.mod_eq_of_lt v6))))))
  refine word_eq e (word_back b0 f0 (by decide) (by decide) ((major_1a f0).trans ?_) hw)
  iterate 3 refine (if_neg (other_value f6 (by decide))).trans ?_
  refine (if_pos f6).trans ?_
  rw [fin32_eq d f1, fin32_eq a f2, fin32_eq b f3, fin64_eq m f4, bit1_eq x f5]

theorem vmulhVS (d : Reg) (a : Reg) (b : Reg) (m : MaskF) (x : Bool) : Statement (Instr.vmulhVS d a b m x) := fun hw => by
  have e : put 0x68000004 [(d.val, 21), (a.val, 16), (b.val, 11), (m.val, 5), (x.toNat, 4)] = 26 * 2 ^ 26 + (d.val * 2 ^ 21 + (a.val * 2 ^ 16 + (b.val * 2 ^ 11 + (m.val * 2 ^ 5 + (x.toNat * 2 ^ 4 + 4))))) := by simp only [put]; omega
  have v6 : 4 < 2 ^ 4 := by decide
  have b6 := v6
  have v5 : x.toNat < 2 ^ 1 := bool_lt x
  have b5 := field_bound (lo := 4) b6 v5
  have v4 : m.val < 2 ^ 6 := m.isLt
  have b4 := field_bound (lo := 5) b5 v4
  have v3 : b.val < 2 ^ 5 := b.isLt
  have b3 := field_bound (lo := 11) b4 v3
  have v2 : a.val < 2 ^ 5 := a.isLt
  have b2 := field_bound (lo := 16) b3 v2
  have v1 : d.val < 2 ^ 5 := d.isLt
  have b1 := field_bound (lo := 21) b2 v1
  have v0 : 26 < 2 ^ 6 := by decide
  have b0 := field_bound (lo := 26) b1 v0
  have f0 := field_hit (lo := 26) b1 v0
  have f1 := field_skip (v := 26) (lo := 26) (by decide) (field_hit (lo := 21) b2 v1)
  have f2 := field_skip (v := 26) (lo := 26) (by decide) (field_skip (v := d.val) (lo := 21) (by decide) (field_hit (lo := 16) b3 v2))
  have f3 := field_skip (v := 26) (lo := 26) (by decide) (field_skip (v := d.val) (lo := 21) (by decide) (field_skip (v := a.val) (lo := 16) (by decide) (field_hit (lo := 11) b4 v3)))
  have f4 := field_skip (v := 26) (lo := 26) (by decide) (field_skip (v := d.val) (lo := 21) (by decide) (field_skip (v := a.val) (lo := 16) (by decide) (field_skip (v := b.val) (lo := 11) (by decide) (field_hit (lo := 5) b5 v4))))
  have f5 := field_skip (v := 26) (lo := 26) (by decide) (field_skip (v := d.val) (lo := 21) (by decide) (field_skip (v := a.val) (lo := 16) (by decide) (field_skip (v := b.val) (lo := 11) (by decide) (field_skip (v := m.val) (lo := 5) (by decide) (field_hit (lo := 4) b6 v5)))))
  have f6 := field_skip_low (v := 26) (lo := 26) (by decide) (field_skip_low (v := d.val) (lo := 21) (by decide) (field_skip_low (v := a.val) (lo := 16) (by decide) (field_skip_low (v := b.val) (lo := 11) (by decide) (field_skip_low (v := m.val) (lo := 5) (by decide) (field_skip_low (v := x.toNat) (lo := 4) (by decide) (Nat.mod_eq_of_lt v6))))))
  refine word_eq e (word_back b0 f0 (by decide) (by decide) ((major_1a f0).trans ?_) hw)
  iterate 4 refine (if_neg (other_value f6 (by decide))).trans ?_
  refine (if_pos f6).trans ?_
  rw [fin32_eq d f1, fin32_eq a f2, fin32_eq b f3, fin64_eq m f4, bit1_eq x f5]

theorem vminVS (d : Reg) (a : Reg) (b : Reg) (m : MaskF) (x : Bool) : Statement (Instr.vminVS d a b m x) := fun hw => by
  have e : put 0x68000005 [(d.val, 21), (a.val, 16), (b.val, 11), (m.val, 5), (x.toNat, 4)] = 26 * 2 ^ 26 + (d.val * 2 ^ 21 + (a.val * 2 ^ 16 + (b.val * 2 ^ 11 + (m.val * 2 ^ 5 + (x.toNat * 2 ^ 4 + 5))))) := by simp only [put]; omega
  have v6 : 5 < 2 ^ 4 := by decide
  have b6 := v6
  have v5 : x.toNat < 2 ^ 1 := bool_lt x
  have b5 := field_bound (lo := 4) b6 v5
  have v4 : m.val < 2 ^ 6 := m.isLt
  have b4 := field_bound (lo := 5) b5 v4
  have v3 : b.val < 2 ^ 5 := b.isLt
  have b3 := field_bound (lo := 11) b4 v3
  have v2 : a.val < 2 ^ 5 := a.isLt
  have b2 := field_bound (lo := 16) b3 v2
  have v1 : d.val < 2 ^ 5 := d.isLt
  have b1 := field_bound (lo := 21) b2 v1
  have v0 : 26 < 2 ^ 6 := by decide
  have b0 := field_bound (lo := 26) b1 v0
  have f0 := field_hit (lo := 26) b1 v0
  have f1 := field_skip (v := 26) (lo := 26) (by decide) (field_hit (lo := 21) b2 v1)
  have f2 := field_skip (v := 26) (lo := 26) (by decide) (field_skip (v := d.val) (lo := 21) (by decide) (field_hit (lo := 16) b3 v2))
  have f3 := field_skip (v := 26) (lo := 26) (by decide) (field_skip (v := d.val) (lo := 21) (by decide) (field_skip (v := a.val) (lo := 16) (by decide) (field_hit (lo := 11) b4 v3)))
  have f4 := field_skip (v := 26) (lo := 26) (by decide) (field_skip (v := d.val) (lo := 21) (by decide) (field_skip (v := a.val) (lo := 16) (by decide) (field_skip (v := b.val) (lo := 11) (by decide) (field_hit (lo := 5) b5 v4))))
  have f5 := field_skip (v := 26) (lo := 26) (by decide) (field_skip (v := d.val) (lo := 21) (by decide) (field_skip (v := a.val) (lo := 16) (by decide) (field_skip (v := b.val) (lo := 11) (by decide) (field_skip (v := m.val) (lo := 5) (by decide) (field_hit (lo := 4) b6 v5)))))
  have f6 := field_skip_low (v := 26) (lo := 26) (by decide) (field_skip_low (v := d.val) (lo := 21) (by decide) (field_skip_low (v := a.val) (lo := 16) (by decide) (field_skip_low (v := b.val) (lo := 11) (by decide) (field_skip_low (v := m.val) (lo := 5) (by decide) (field_skip_low (v := x.toNat) (lo := 4) (by decide) (Nat.mod_eq_of_lt v6))))))
  refine word_eq e (word_back b0 f0 (by decide) (by decide) ((major_1a f0).trans ?_) hw)
  iterate 5 refine (if_neg (other_value f6 (by decide))).trans ?_
  refine (if_pos f6).trans ?_
  rw [fin32_eq d f1, fin32_eq a f2, fin32_eq b f3, fin64_eq m f4, bit1_eq x f5]

theorem vmaxVS (d : Reg) (a : Reg) (b : Reg) (m : MaskF) (x : Bool) : Statement (Instr.vmaxVS d a b m x) := fun hw => by
  have e : put 0x68000006 [(d.val, 21), (a.val, 16), (b.val, 11), (m.val, 5), (x.toNat, 4)] = 26 * 2 ^ 26 + (d.val * 2 ^ 21 + (a.val * 2 ^ 16 + (b.val * 2 ^ 11 + (m.val * 2 ^ 5 + (x.toNat * 2 ^ 4 + 6))))) := by simp only [put]; omega
  have v6 : 6 < 2 ^ 4 := by decide
  have b6 := v6
  have v5 : x.toNat < 2 ^ 1 := bool_lt x
  have b5 := field_bound (lo := 4) b6 v5
  have v4 : m.val < 2 ^ 6 := m.isLt
  have b4 := field_bound (lo := 5) b5 v4
  have v3 : b.val < 2 ^ 5 := b.isLt
  have b3 := field_bound (lo := 11) b4 v3
  have v2 : a.val < 2 ^ 5 := a.isLt
  have b2 := field_bound (lo := 16) b3 v2
  have v1 : d.val < 2 ^ 5 := d.isLt
  have b1 := field_bound (lo := 21) b2 v1
  have v0 : 26 < 2 ^ 6 := by decide
  have b0 := field_bound (lo := 26) b1 v0
  have f0 := field_hit (lo := 26) b1 v0
  have f1 := field_skip (v := 26) (lo := 26) (by decide) (field_hit (lo := 21) b2 v1)
  have f2 := field_skip (v := 26) (lo := 26) (by decide) (field_skip (v := d.val) (lo := 21) (by decide) (field_hit (lo := 16) b3 v2))
  have f3 := field_skip (v := 26) (lo := 26) (by decide) (field_skip (v := d.val) (lo := 21) (by decide) (field_skip (v := a.val) (lo := 16) (by decide) (field_hit (lo := 11) b4 v3)))
  have f4 := field_skip (v := 26) (lo := 26) (by decide) (field_skip (v := d.val) (lo := 21) (by decide) (field_skip (v := a.val) (lo := 16) (by decide) (field_skip (v := b.val) (lo := 11) (by decide) (field_hit (lo := 5) b5 v4))))
  have f5 := field_skip (v := 26) (lo := 26) (by decide) (field_skip (v := d.val) (lo := 21) (by decide) (field_skip (v := a.val) (lo := 16) (by decide) (field_skip (v := b.val) (lo := 11) (by decide) (field_skip (v := m.val) (lo := 5) (by decide) (field_hit (lo := 4) b6 v5)))))
  have f6 := field_skip_low (v := 26) (lo := 26) (by decide) (field_skip_low (v := d.val) (lo := 21) (by decide) (field_skip_low (v := a.val) (lo := 16) (by decide) (field_skip_low (v := b.val) (lo := 11) (by decide) (field_skip_low (v := m.val) (lo := 5) (by decide) (field_skip_low (v := x.toNat) (lo := 4) (by decide) (Nat.mod_eq_of_lt v6))))))
  refine word_eq e (word_back b0 f0 (by decide) (by decide) ((major_1a f0).trans ?_) hw)
  iterate 6 refine (if_neg (other_value f6 (by decide))).trans ?_
  refine (if_pos f6).trans ?_
  rw [fin32_eq d f1, fin32_eq a f2, fin32_eq b f3, fin64_eq m f4, bit1_eq x f5]

theorem vaddsVS (d : Reg) (a : Reg) (b : Reg) (m : MaskF) (x : Bool) : Statement (Instr.vaddsVS d a b m x) := fun hw => by
  have e : put 0x68000007 [(d.val, 21), (a.val, 16), (b.val, 11), (m.val, 5), (x.toNat, 4)] = 26 * 2 ^ 26 + (d.val * 2 ^ 21 + (a.val * 2 ^ 16 + (b.val * 2 ^ 11 + (m.val * 2 ^ 5 + (x.toNat * 2 ^ 4 + 7))))) := by simp only [put]; omega
  have v6 : 7 < 2 ^ 4 := by decide
  have b6 := v6
  have v5 : x.toNat < 2 ^ 1 := bool_lt x
  have b5 := field_bound (lo := 4) b6 v5
  have v4 : m.val < 2 ^ 6 := m.isLt
  have b4 := field_bound (lo := 5) b5 v4
  have v3 : b.val < 2 ^ 5 := b.isLt
  have b3 := field_bound (lo := 11) b4 v3
  have v2 : a.val < 2 ^ 5 := a.isLt
  have b2 := field_bound (lo := 16) b3 v2
  have v1 : d.val < 2 ^ 5 := d.isLt
  have b1 := field_bound (lo := 21) b2 v1
  have v0 : 26 < 2 ^ 6 := by decide
  have b0 := field_bound (lo := 26) b1 v0
  have f0 := field_hit (lo := 26) b1 v0
  have f1 := field_skip (v := 26) (lo := 26) (by decide) (field_hit (lo := 21) b2 v1)
  have f2 := field_skip (v := 26) (lo := 26) (by decide) (field_skip (v := d.val) (lo := 21) (by decide) (field_hit (lo := 16) b3 v2))
  have f3 := field_skip (v := 26) (lo := 26) (by decide) (field_skip (v := d.val) (lo := 21) (by decide) (field_skip (v := a.val) (lo := 16) (by decide) (field_hit (lo := 11) b4 v3)))
  have f4 := field_skip (v := 26) (lo := 26) (by decide) (field_skip (v := d.val) (lo := 21) (by decide) (field_skip (v := a.val) (lo := 16) (by decide) (field_skip (v := b.val) (lo := 11) (by decide) (field_hit (lo := 5) b5 v4))))
  have f5 := field_skip (v := 26) (lo := 26) (by decide) (field_skip (v := d.val) (lo := 21) (by decide) (field_skip (v := a.val) (lo := 16) (by decide) (field_skip (v := b.val) (lo := 11) (by decide) (field_skip (v := m.val) (lo := 5) (by decide) (field_hit (lo := 4) b6 v5)))))
  have f6 := field_skip_low (v := 26) (lo := 26) (by decide) (field_skip_low (v := d.val) (lo := 21) (by decide) (field_skip_low (v := a.val) (lo := 16) (by decide) (field_skip_low (v := b.val) (lo := 11) (by decide) (field_skip_low (v := m.val) (lo := 5) (by decide) (field_skip_low (v := x.toNat) (lo := 4) (by decide) (Nat.mod_eq_of_lt v6))))))
  refine word_eq e (word_back b0 f0 (by decide) (by decide) ((major_1a f0).trans ?_) hw)
  iterate 7 refine (if_neg (other_value f6 (by decide))).trans ?_
  refine (if_pos f6).trans ?_
  rw [fin32_eq d f1, fin32_eq a f2, fin32_eq b f3, fin64_eq m f4, bit1_eq x f5]

theorem vsubsVS (d : Reg) (a : Reg) (b : Reg) (m : MaskF) (x : Bool) : Statement (Instr.vsubsVS d a b m x) := fun hw => by
  have e : put 0x68000008 [(d.val, 21), (a.val, 16), (b.val, 11), (m.val, 5), (x.toNat, 4)] = 26 * 2 ^ 26 + (d.val * 2 ^ 21 + (a.val * 2 ^ 16 + (b.val * 2 ^ 11 + (m.val * 2 ^ 5 + (x.toNat * 2 ^ 4 + 8))))) := by simp only [put]; omega
  have v6 : 8 < 2 ^ 4 := by decide
  have b6 := v6
  have v5 : x.toNat < 2 ^ 1 := bool_lt x
  have b5 := field_bound (lo := 4) b6 v5
  have v4 : m.val < 2 ^ 6 := m.isLt
  have b4 := field_bound (lo := 5) b5 v4
  have v3 : b.val < 2 ^ 5 := b.isLt
  have b3 := field_bound (lo := 11) b4 v3
  have v2 : a.val < 2 ^ 5 := a.isLt
  have b2 := field_bound (lo := 16) b3 v2
  have v1 : d.val < 2 ^ 5 := d.isLt
  have b1 := field_bound (lo := 21) b2 v1
  have v0 : 26 < 2 ^ 6 := by decide
  have b0 := field_bound (lo := 26) b1 v0
  have f0 := field_hit (lo := 26) b1 v0
  have f1 := field_skip (v := 26) (lo := 26) (by decide) (field_hit (lo := 21) b2 v1)
  have f2 := field_skip (v := 26) (lo := 26) (by decide) (field_skip (v := d.val) (lo := 21) (by decide) (field_hit (lo := 16) b3 v2))
  have f3 := field_skip (v := 26) (lo := 26) (by decide) (field_skip (v := d.val) (lo := 21) (by decide) (field_skip (v := a.val) (lo := 16) (by decide) (field_hit (lo := 11) b4 v3)))
  have f4 := field_skip (v := 26) (lo := 26) (by decide) (field_skip (v := d.val) (lo := 21) (by decide) (field_skip (v := a.val) (lo := 16) (by decide) (field_skip (v := b.val) (lo := 11) (by decide) (field_hit (lo := 5) b5 v4))))
  have f5 := field_skip (v := 26) (lo := 26) (by decide) (field_skip (v := d.val) (lo := 21) (by decide) (field_skip (v := a.val) (lo := 16) (by decide) (field_skip (v := b.val) (lo := 11) (by decide) (field_skip (v := m.val) (lo := 5) (by decide) (field_hit (lo := 4) b6 v5)))))
  have f6 := field_skip_low (v := 26) (lo := 26) (by decide) (field_skip_low (v := d.val) (lo := 21) (by decide) (field_skip_low (v := a.val) (lo := 16) (by decide) (field_skip_low (v := b.val) (lo := 11) (by decide) (field_skip_low (v := m.val) (lo := 5) (by decide) (field_skip_low (v := x.toNat) (lo := 4) (by decide) (Nat.mod_eq_of_lt v6))))))
  refine word_eq e (word_back b0 f0 (by decide) (by decide) ((major_1a f0).trans ?_) hw)
  iterate 8 refine (if_neg (other_value f6 (by decide))).trans ?_
  refine (if_pos f6).trans ?_
  rw [fin32_eq d f1, fin32_eq a f2, fin32_eq b f3, fin64_eq m f4, bit1_eq x f5]

theorem vandVS (d : Reg) (a : Reg) (b : Reg) (m : MaskF) (x : Bool) : Statement (Instr.vandVS d a b m x) := fun hw => by
  have e : put 0x68000009 [(d.val, 21), (a.val, 16), (b.val, 11), (m.val, 5), (x.toNat, 4)] = 26 * 2 ^ 26 + (d.val * 2 ^ 21 + (a.val * 2 ^ 16 + (b.val * 2 ^ 11 + (m.val * 2 ^ 5 + (x.toNat * 2 ^ 4 + 9))))) := by simp only [put]; omega
  have v6 : 9 < 2 ^ 4 := by decide
  have b6 := v6
  have v5 : x.toNat < 2 ^ 1 := bool_lt x
  have b5 := field_bound (lo := 4) b6 v5
  have v4 : m.val < 2 ^ 6 := m.isLt
  have b4 := field_bound (lo := 5) b5 v4
  have v3 : b.val < 2 ^ 5 := b.isLt
  have b3 := field_bound (lo := 11) b4 v3
  have v2 : a.val < 2 ^ 5 := a.isLt
  have b2 := field_bound (lo := 16) b3 v2
  have v1 : d.val < 2 ^ 5 := d.isLt
  have b1 := field_bound (lo := 21) b2 v1
  have v0 : 26 < 2 ^ 6 := by decide
  have b0 := field_bound (lo := 26) b1 v0
  have f0 := field_hit (lo := 26) b1 v0
  have f1 := field_skip (v := 26) (lo := 26) (by decide) (field_hit (lo := 21) b2 v1)
  have f2 := field_skip (v := 26) (lo := 26) (by decide) (field_skip (v := d.val) (lo := 21) (by decide) (field_hit (lo := 16) b3 v2))
  have f3 := field_skip (v := 26) (lo := 26) (by decide) (field_skip (v := d.val) (lo := 21) (by decide) (field_skip (v := a.val) (lo := 16) (by decide) (field_hit (lo := 11) b4 v3)))
  have f4 := field_skip (v := 26) (lo := 26) (by decide) (field_skip (v := d.val) (lo := 21) (by decide) (field_skip (v := a.val) (lo := 16) (by decide) (field_skip (v := b.val) (lo := 11) (by decide) (field_hit (lo := 5) b5 v4))))
  have f5 := field_skip (v := 26) (lo := 26) (by decide) (field_skip (v := d.val) (lo := 21) (by decide) (field_skip (v := a.val) (lo := 16) (by decide) (field_skip (v := b.val) (lo := 11) (by decide) (field_skip (v := m.val) (lo := 5) (by decide) (field_hit (lo := 4) b6 v5)))))
  have f6 := field_skip_low (v := 26) (lo := 26) (by decide) (field_skip_low (v := d.val) (lo := 21) (by decide) (field_skip_low (v := a.val) (lo := 16) (by decide) (field_skip_low (v := b.val) (lo := 11) (by decide) (field_skip_low (v := m.val) (lo := 5) (by decide) (field_skip_low (v := x.toNat) (lo := 4) (by decide) (Nat.mod_eq_of_lt v6))))))
  refine word_eq e (word_back b0 f0 (by decide) (by decide) ((major_1a f0).trans ?_) hw)
  iterate 9 refine (if_neg (other_value f6 (by decide))).trans ?_
  refine (if_pos f6).trans ?_
  rw [fin32_eq d f1, fin32_eq a f2, fin32_eq b f3, fin64_eq m f4, bit1_eq x f5]

theorem vorVS (d : Reg) (a : Reg) (b : Reg) (m : MaskF) (x : Bool) : Statement (Instr.vorVS d a b m x) := fun hw => by
  have e : put 0x6800000a [(d.val, 21), (a.val, 16), (b.val, 11), (m.val, 5), (x.toNat, 4)] = 26 * 2 ^ 26 + (d.val * 2 ^ 21 + (a.val * 2 ^ 16 + (b.val * 2 ^ 11 + (m.val * 2 ^ 5 + (x.toNat * 2 ^ 4 + 10))))) := by simp only [put]; omega
  have v6 : 10 < 2 ^ 4 := by decide
  have b6 := v6
  have v5 : x.toNat < 2 ^ 1 := bool_lt x
  have b5 := field_bound (lo := 4) b6 v5
  have v4 : m.val < 2 ^ 6 := m.isLt
  have b4 := field_bound (lo := 5) b5 v4
  have v3 : b.val < 2 ^ 5 := b.isLt
  have b3 := field_bound (lo := 11) b4 v3
  have v2 : a.val < 2 ^ 5 := a.isLt
  have b2 := field_bound (lo := 16) b3 v2
  have v1 : d.val < 2 ^ 5 := d.isLt
  have b1 := field_bound (lo := 21) b2 v1
  have v0 : 26 < 2 ^ 6 := by decide
  have b0 := field_bound (lo := 26) b1 v0
  have f0 := field_hit (lo := 26) b1 v0
  have f1 := field_skip (v := 26) (lo := 26) (by decide) (field_hit (lo := 21) b2 v1)
  have f2 := field_skip (v := 26) (lo := 26) (by decide) (field_skip (v := d.val) (lo := 21) (by decide) (field_hit (lo := 16) b3 v2))
  have f3 := field_skip (v := 26) (lo := 26) (by decide) (field_skip (v := d.val) (lo := 21) (by decide) (field_skip (v := a.val) (lo := 16) (by decide) (field_hit (lo := 11) b4 v3)))
  have f4 := field_skip (v := 26) (lo := 26) (by decide) (field_skip (v := d.val) (lo := 21) (by decide) (field_skip (v := a.val) (lo := 16) (by decide) (field_skip (v := b.val) (lo := 11) (by decide) (field_hit (lo := 5) b5 v4))))
  have f5 := field_skip (v := 26) (lo := 26) (by decide) (field_skip (v := d.val) (lo := 21) (by decide) (field_skip (v := a.val) (lo := 16) (by decide) (field_skip (v := b.val) (lo := 11) (by decide) (field_skip (v := m.val) (lo := 5) (by decide) (field_hit (lo := 4) b6 v5)))))
  have f6 := field_skip_low (v := 26) (lo := 26) (by decide) (field_skip_low (v := d.val) (lo := 21) (by decide) (field_skip_low (v := a.val) (lo := 16) (by decide) (field_skip_low (v := b.val) (lo := 11) (by decide) (field_skip_low (v := m.val) (lo := 5) (by decide) (field_skip_low (v := x.toNat) (lo := 4) (by decide) (Nat.mod_eq_of_lt v6))))))
  refine word_eq e (word_back b0 f0 (by decide) (by decide) ((major_1a f0).trans ?_) hw)
  iterate 10 refine (if_neg (other_value f6 (by decide))).trans ?_
  refine (if_pos f6).trans ?_
  rw [fin32_eq d f1, fin32_eq a f2, fin32_eq b f3, fin64_eq m f4, bit1_eq x f5]

theorem vxorVS (d : Reg) (a : Reg) (b : Reg) (m : MaskF) (x : Bool) : Statement (Instr.vxorVS d a b m x) := fun hw => by
  have e : put 0x6800000b [(d.val, 21), (a.val, 16), (b.val, 11), (m.val, 5), (x.toNat, 4)] = 26 * 2 ^ 26 + (d.val * 2 ^ 21 + (a.val * 2 ^ 16 + (b.val * 2 ^ 11 + (m.val * 2 ^ 5 + (x.toNat * 2 ^ 4 + 11))))) := by simp only [put]; omega
  have v6 : 11 < 2 ^ 4 := by decide
  have b6 := v6
  have v5 : x.toNat < 2 ^ 1 := bool_lt x
  have b5 := field_bound (lo := 4) b6 v5
  have v4 : m.val < 2 ^ 6 := m.isLt
  have b4 := field_bound (lo := 5) b5 v4
  have v3 : b.val < 2 ^ 5 := b.isLt
  have b3 := field_bound (lo := 11) b4 v3
  have v2 : a.val < 2 ^ 5 := a.isLt
  have b2 := field_bound (lo := 16) b3 v2
  have v1 : d.val < 2 ^ 5 := d.isLt
  have b1 := field_bound (lo := 21) b2 v1
  have v0 : 26 < 2 ^ 6 := by decide
  have b0 := field_bound (lo := 26) b1 v0
  have f0 := field_hit (lo := 26) b1 v0
  have f1 := field_skip (v := 26) (lo := 26) (by decide) (field_hit (lo := 21) b2 v1)
  have f2 := field_skip (v := 26) (lo := 26) (by decide) (field_skip (v := d.val) (lo := 21) (by decide) (field_hit (lo := 16) b3 v2))
  have f3 := field_skip (v := 26) (lo := 26) (by decide) (field_skip (v := d.val) (lo := 21) (by decide) (field_skip (v := a.val) (lo := 16) (by decide) (field_hit (lo := 11) b4 v3)))
  have f4 := field_skip (v := 26) (lo := 26) (by decide) (field_skip (v := d.val) (lo := 21) (by decide) (field_skip (v := a.val) (lo := 16) (by decide) (field_skip (v := b.val) (lo := 11) (by decide) (field_hit (lo := 5) b5 v4))))
  have f5 := field_skip (v := 26) (lo := 26) (by decide) (field_skip (v := d.val) (lo := 21) (by decide) (field_skip (v := a.val) (lo := 16) (by decide) (field_skip (v := b.val) (lo := 11) (by decide) (field_skip (v := m.val) (lo := 5) (by decide) (field_hit (lo := 4) b6 v5)))))
  have f6 := field_skip_low (v := 26) (lo := 26) (by decide) (field_skip_low (v := d.val) (lo := 21) (by decide) (field_skip_low (v := a.val) (lo := 16) (by decide) (field_skip_low (v := b.val) (lo := 11) (by decide) (field_skip_low (v := m.val) (lo := 5) (by decide) (field_skip_low (v := x.toNat) (lo := 4) (by decide) (Nat.mod_eq_of_lt v6))))))
  refine word_eq e (word_back b0 f0 (by decide) (by decide) ((major_1a f0).trans ?_) hw)
  iterate 11 refine (if_neg (other_value f6 (by decide))).trans ?_
  refine (if_pos f6).trans ?_
  rw [fin32_eq d f1, fin32_eq a f2, fin32_eq b f3, fin64_eq m f4, bit1_eq x f5]

theorem vshlVS (d : Reg) (a : Reg) (b : Reg) (m : MaskF) (x : Bool) : Statement (Instr.vshlVS d a b m x) := fun hw => by
  have e : put 0x6800000c [(d.val, 21), (a.val, 16), (b.val, 11), (m.val, 5), (x.toNat, 4)] = 26 * 2 ^ 26 + (d.val * 2 ^ 21 + (a.val * 2 ^ 16 + (b.val * 2 ^ 11 + (m.val * 2 ^ 5 + (x.toNat * 2 ^ 4 + 12))))) := by simp only [put]; omega
  have v6 : 12 < 2 ^ 4 := by decide
  have b6 := v6
  have v5 : x.toNat < 2 ^ 1 := bool_lt x
  have b5 := field_bound (lo := 4) b6 v5
  have v4 : m.val < 2 ^ 6 := m.isLt
  have b4 := field_bound (lo := 5) b5 v4
  have v3 : b.val < 2 ^ 5 := b.isLt
  have b3 := field_bound (lo := 11) b4 v3
  have v2 : a.val < 2 ^ 5 := a.isLt
  have b2 := field_bound (lo := 16) b3 v2
  have v1 : d.val < 2 ^ 5 := d.isLt
  have b1 := field_bound (lo := 21) b2 v1
  have v0 : 26 < 2 ^ 6 := by decide
  have b0 := field_bound (lo := 26) b1 v0
  have f0 := field_hit (lo := 26) b1 v0
  have f1 := field_skip (v := 26) (lo := 26) (by decide) (field_hit (lo := 21) b2 v1)
  have f2 := field_skip (v := 26) (lo := 26) (by decide) (field_skip (v := d.val) (lo := 21) (by decide) (field_hit (lo := 16) b3 v2))
  have f3 := field_skip (v := 26) (lo := 26) (by decide) (field_skip (v := d.val) (lo := 21) (by decide) (field_skip (v := a.val) (lo := 16) (by decide) (field_hit (lo := 11) b4 v3)))
  have f4 := field_skip (v := 26) (lo := 26) (by decide) (field_skip (v := d.val) (lo := 21) (by decide) (field_skip (v := a.val) (lo := 16) (by decide) (field_skip (v := b.val) (lo := 11) (by decide) (field_hit (lo := 5) b5 v4))))
  have f5 := field_skip (v := 26) (lo := 26) (by decide) (field_skip (v := d.val) (lo := 21) (by decide) (field_skip (v := a.val) (lo := 16) (by decide) (field_skip (v := b.val) (lo := 11) (by decide) (field_skip (v := m.val) (lo := 5) (by decide) (field_hit (lo := 4) b6 v5)))))
  have f6 := field_skip_low (v := 26) (lo := 26) (by decide) (field_skip_low (v := d.val) (lo := 21) (by decide) (field_skip_low (v := a.val) (lo := 16) (by decide) (field_skip_low (v := b.val) (lo := 11) (by decide) (field_skip_low (v := m.val) (lo := 5) (by decide) (field_skip_low (v := x.toNat) (lo := 4) (by decide) (Nat.mod_eq_of_lt v6))))))
  refine word_eq e (word_back b0 f0 (by decide) (by decide) ((major_1a f0).trans ?_) hw)
  iterate 12 refine (if_neg (other_value f6 (by decide))).trans ?_
  refine (if_pos f6).trans ?_
  rw [fin32_eq d f1, fin32_eq a f2, fin32_eq b f3, fin64_eq m f4, bit1_eq x f5]

theorem vshrVS (d : Reg) (a : Reg) (b : Reg) (m : MaskF) (x : Bool) : Statement (Instr.vshrVS d a b m x) := fun hw => by
  have e : put 0x6800000d [(d.val, 21), (a.val, 16), (b.val, 11), (m.val, 5), (x.toNat, 4)] = 26 * 2 ^ 26 + (d.val * 2 ^ 21 + (a.val * 2 ^ 16 + (b.val * 2 ^ 11 + (m.val * 2 ^ 5 + (x.toNat * 2 ^ 4 + 13))))) := by simp only [put]; omega
  have v6 : 13 < 2 ^ 4 := by decide
  have b6 := v6
  have v5 : x.toNat < 2 ^ 1 := bool_lt x
  have b5 := field_bound (lo := 4) b6 v5
  have v4 : m.val < 2 ^ 6 := m.isLt
  have b4 := field_bound (lo := 5) b5 v4
  have v3 : b.val < 2 ^ 5 := b.isLt
  have b3 := field_bound (lo := 11) b4 v3
  have v2 : a.val < 2 ^ 5 := a.isLt
  have b2 := field_bound (lo := 16) b3 v2
  have v1 : d.val < 2 ^ 5 := d.isLt
  have b1 := field_bound (lo := 21) b2 v1
  have v0 : 26 < 2 ^ 6 := by decide
  have b0 := field_bound (lo := 26) b1 v0
  have f0 := field_hit (lo := 26) b1 v0
  have f1 := field_skip (v := 26) (lo := 26) (by decide) (field_hit (lo := 21) b2 v1)
  have f2 := field_skip (v := 26) (lo := 26) (by decide) (field_skip (v := d.val) (lo := 21) (by decide) (field_hit (lo := 16) b3 v2))
  have f3 := field_skip (v := 26) (lo := 26) (by decide) (field_skip (v := d.val) (lo := 21) (by decide) (field_skip (v := a.val) (lo := 16) (by decide) (field_hit (lo := 11) b4 v3)))
  have f4 := field_skip (v := 26) (lo := 26) (by decide) (field_skip (v := d.val) (lo := 21) (by decide) (field_skip (v := a.val) (lo := 16) (by decide) (field_skip (v := b.val) (lo := 11) (by decide) (field_hit (lo := 5) b5 v4))))
  have f5 := field_skip (v := 26) (lo := 26) (by decide) (field_skip (v := d.val) (lo := 21) (by decide) (field_skip (v := a.val) (lo := 16) (by decide) (field_skip (v := b.val) (lo := 11) (by decide) (field_skip (v := m.val) (lo := 5) (by decide) (field_hit (lo := 4) b6 v5)))))
  have f6 := field_skip_low (v := 26) (lo := 26) (by decide) (field_skip_low (v := d.val) (lo := 21) (by decide) (field_skip_low (v := a.val) (lo := 16) (by decide) (field_skip_low (v := b.val) (lo := 11) (by decide) (field_skip_low (v := m.val) (lo := 5) (by decide) (field_skip_low (v := x.toNat) (lo := 4) (by decide) (Nat.mod_eq_of_lt v6))))))
  refine word_eq e (word_back b0 f0 (by decide) (by decide) ((major_1a f0).trans ?_) hw)
  iterate 13 refine (if_neg (other_value f6 (by decide))).trans ?_
  refine (if_pos f6).trans ?_
  rw [fin32_eq d f1, fin32_eq a f2, fin32_eq b f3, fin64_eq m f4, bit1_eq x f5]

theorem vaddVI (d : Reg) (a : Reg) (imm : BitVec 11) : Statement (Instr.vaddVI d a imm) := fun hw => by
  have e : put 0x6c000000 [(d.val, 21), (a.val, 16), (imm.toNat, 5)] = 27 * 2 ^ 26 + (d.val * 2 ^ 21 + (a.val * 2 ^ 16 + (imm.toNat * 2 ^ 5 + 0))) := by simp only [put]; omega
  have v4 : 0 < 2 ^ 5 := by decide
  have b4 := v4
  have v3 : imm.toNat < 2 ^ 11 := imm.isLt
  have b3 := field_bound (lo := 5) b4 v3
  have v2 : a.val < 2 ^ 5 := a.isLt
  have b2 := field_bound (lo := 16) b3 v2
  have v1 : d.val < 2 ^ 5 := d.isLt
  have b1 := field_bound (lo := 21) b2 v1
  have v0 : 27 < 2 ^ 6 := by decide
  have b0 := field_bound (lo := 26) b1 v0
  have f0 := field_hit (lo := 26) b1 v0
  have f1 := field_skip (v := 27) (lo := 26) (by decide) (field_hit (lo := 21) b2 v1)
  have f2 := field_skip (v := 27) (lo := 26) (by decide) (field_skip (v := d.val) (lo := 21) (by decide) (field_hit (lo := 16) b3 v2))
  have f3 := field_skip (v := 27) (lo := 26) (by decide) (field_skip (v := d.val) (lo := 21) (by decide) (field_skip (v := a.val) (lo := 16) (by decide) (field_hit (lo := 5) b4 v3)))
  have f4 := field_skip_low (v := 27) (lo := 26) (by decide) (field_skip_low (v := d.val) (lo := 21) (by decide) (field_skip_low (v := a.val) (lo := 16) (by decide) (field_skip_low (v := imm.toNat) (lo := 5) (by decide) (Nat.mod_eq_of_lt v4))))
  refine word_eq e (word_back b0 f0 (by decide) (by decide) ((major_1b f0).trans ?_) hw)
  refine (if_pos f4).trans ?_
  rw [fin32_eq d f1, fin32_eq a f2, bvOf_eq imm f3]

theorem vrsubVI (d : Reg) (a : Reg) (imm : BitVec 11) : Statement (Instr.vrsubVI d a imm) := fun hw => by
  have e : put 0x6c000001 [(d.val, 21), (a.val, 16), (imm.toNat, 5)] = 27 * 2 ^ 26 + (d.val * 2 ^ 21 + (a.val * 2 ^ 16 + (imm.toNat * 2 ^ 5 + 1))) := by simp only [put]; omega
  have v4 : 1 < 2 ^ 5 := by decide
  have b4 := v4
  have v3 : imm.toNat < 2 ^ 11 := imm.isLt
  have b3 := field_bound (lo := 5) b4 v3
  have v2 : a.val < 2 ^ 5 := a.isLt
  have b2 := field_bound (lo := 16) b3 v2
  have v1 : d.val < 2 ^ 5 := d.isLt
  have b1 := field_bound (lo := 21) b2 v1
  have v0 : 27 < 2 ^ 6 := by decide
  have b0 := field_bound (lo := 26) b1 v0
  have f0 := field_hit (lo := 26) b1 v0
  have f1 := field_skip (v := 27) (lo := 26) (by decide) (field_hit (lo := 21) b2 v1)
  have f2 := field_skip (v := 27) (lo := 26) (by decide) (field_skip (v := d.val) (lo := 21) (by decide) (field_hit (lo := 16) b3 v2))
  have f3 := field_skip (v := 27) (lo := 26) (by decide) (field_skip (v := d.val) (lo := 21) (by decide) (field_skip (v := a.val) (lo := 16) (by decide) (field_hit (lo := 5) b4 v3)))
  have f4 := field_skip_low (v := 27) (lo := 26) (by decide) (field_skip_low (v := d.val) (lo := 21) (by decide) (field_skip_low (v := a.val) (lo := 16) (by decide) (field_skip_low (v := imm.toNat) (lo := 5) (by decide) (Nat.mod_eq_of_lt v4))))
  refine word_eq e (word_back b0 f0 (by decide) (by decide) ((major_1b f0).trans ?_) hw)
  refine (if_neg (other_value f4 (by decide))).trans ?_
  refine (if_pos f4).trans ?_
  rw [fin32_eq d f1, fin32_eq a f2, bvOf_eq imm f3]

theorem vandVI (d : Reg) (a : Reg) (imm : BitVec 11) : Statement (Instr.vandVI d a imm) := fun hw => by
  have e : put 0x6c000002 [(d.val, 21), (a.val, 16), (imm.toNat, 5)] = 27 * 2 ^ 26 + (d.val * 2 ^ 21 + (a.val * 2 ^ 16 + (imm.toNat * 2 ^ 5 + 2))) := by simp only [put]; omega
  have v4 : 2 < 2 ^ 5 := by decide
  have b4 := v4
  have v3 : imm.toNat < 2 ^ 11 := imm.isLt
  have b3 := field_bound (lo := 5) b4 v3
  have v2 : a.val < 2 ^ 5 := a.isLt
  have b2 := field_bound (lo := 16) b3 v2
  have v1 : d.val < 2 ^ 5 := d.isLt
  have b1 := field_bound (lo := 21) b2 v1
  have v0 : 27 < 2 ^ 6 := by decide
  have b0 := field_bound (lo := 26) b1 v0
  have f0 := field_hit (lo := 26) b1 v0
  have f1 := field_skip (v := 27) (lo := 26) (by decide) (field_hit (lo := 21) b2 v1)
  have f2 := field_skip (v := 27) (lo := 26) (by decide) (field_skip (v := d.val) (lo := 21) (by decide) (field_hit (lo := 16) b3 v2))
  have f3 := field_skip (v := 27) (lo := 26) (by decide) (field_skip (v := d.val) (lo := 21) (by decide) (field_skip (v := a.val) (lo := 16) (by decide) (field_hit (lo := 5) b4 v3)))
  have f4 := field_skip_low (v := 27) (lo := 26) (by decide) (field_skip_low (v := d.val) (lo := 21) (by decide) (field_skip_low (v := a.val) (lo := 16) (by decide) (field_skip_low (v := imm.toNat) (lo := 5) (by decide) (Nat.mod_eq_of_lt v4))))
  refine word_eq e (word_back b0 f0 (by decide) (by decide) ((major_1b f0).trans ?_) hw)
  iterate 2 refine (if_neg (other_value f4 (by decide))).trans ?_
  refine (if_pos f4).trans ?_
  rw [fin32_eq d f1, fin32_eq a f2, bvOf_eq imm f3]

theorem vorVI (d : Reg) (a : Reg) (imm : BitVec 11) : Statement (Instr.vorVI d a imm) := fun hw => by
  have e : put 0x6c000003 [(d.val, 21), (a.val, 16), (imm.toNat, 5)] = 27 * 2 ^ 26 + (d.val * 2 ^ 21 + (a.val * 2 ^ 16 + (imm.toNat * 2 ^ 5 + 3))) := by simp only [put]; omega
  have v4 : 3 < 2 ^ 5 := by decide
  have b4 := v4
  have v3 : imm.toNat < 2 ^ 11 := imm.isLt
  have b3 := field_bound (lo := 5) b4 v3
  have v2 : a.val < 2 ^ 5 := a.isLt
  have b2 := field_bound (lo := 16) b3 v2
  have v1 : d.val < 2 ^ 5 := d.isLt
  have b1 := field_bound (lo := 21) b2 v1
  have v0 : 27 < 2 ^ 6 := by decide
  have b0 := field_bound (lo := 26) b1 v0
  have f0 := field_hit (lo := 26) b1 v0
  have f1 := field_skip (v := 27) (lo := 26) (by decide) (field_hit (lo := 21) b2 v1)
  have f2 := field_skip (v := 27) (lo := 26) (by decide) (field_skip (v := d.val) (lo := 21) (by decide) (field_hit (lo := 16) b3 v2))
  have f3 := field_skip (v := 27) (lo := 26) (by decide) (field_skip (v := d.val) (lo := 21) (by decide) (field_skip (v := a.val) (lo := 16) (by decide) (field_hit (lo := 5) b4 v3)))
  have f4 := field_skip_low (v := 27) (lo := 26) (by decide) (field_skip_low (v := d.val) (lo := 21) (by decide) (field_skip_low (v := a.val) (lo := 16) (by decide) (field_skip_low (v := imm.toNat) (lo := 5) (by decide) (Nat.mod_eq_of_lt v4))))
  refine word_eq e (word_back b0 f0 (by decide) (by decide) ((major_1b f0).trans ?_) hw)
  iterate 3 refine (if_neg (other_value f4 (by decide))).trans ?_
  refine (if_pos f4).trans ?_
  rw [fin32_eq d f1, fin32_eq a f2, bvOf_eq imm f3]

theorem vxorVI (d : Reg) (a : Reg) (imm : BitVec 11) : Statement (Instr.vxorVI d a imm) := fun hw => by
  have e : put 0x6c000004 [(d.val, 21), (a.val, 16), (imm.toNat, 5)] = 27 * 2 ^ 26 + (d.val * 2 ^ 21 + (a.val * 2 ^ 16 + (imm.toNat * 2 ^ 5 + 4))) := by simp only [put]; omega
  have v4 : 4 < 2 ^ 5 := by decide
  have b4 := v4
  have v3 : imm.toNat < 2 ^ 11 := imm.isLt
  have b3 := field_bound (lo := 5) b4 v3
  have v2 : a.val < 2 ^ 5 := a.isLt
  have b2 := field_bound (lo := 16) b3 v2
  have v1 : d.val < 2 ^ 5 := d.isLt
  have b1 := field_bound (lo := 21) b2 v1
  have v0 : 27 < 2 ^ 6 := by decide
  have b0 := field_bound (lo := 26) b1 v0
  have f0 := field_hit (lo := 26) b1 v0
  have f1 := field_skip (v := 27) (lo := 26) (by decide) (field_hit (lo := 21) b2 v1)
  have f2 := field_skip (v := 27) (lo := 26) (by decide) (field_skip (v := d.val) (lo := 21) (by decide) (field_hit (lo := 16) b3 v2))
  have f3 := field_skip (v := 27) (lo := 26) (by decide) (field_skip (v := d.val) (lo := 21) (by decide) (field_skip (v := a.val) (lo := 16) (by decide) (field_hit (lo := 5) b4 v3)))
  have f4 := field_skip_low (v := 27) (lo := 26) (by decide) (field_skip_low (v := d.val) (lo := 21) (by decide) (field_skip_low (v := a.val) (lo := 16) (by decide) (field_skip_low (v := imm.toNat) (lo := 5) (by decide) (Nat.mod_eq_of_lt v4))))
  refine word_eq e (word_back b0 f0 (by decide) (by decide) ((major_1b f0).trans ?_) hw)
  iterate 4 refine (if_neg (other_value f4 (by decide))).trans ?_
  refine (if_pos f4).trans ?_
  rw [fin32_eq d f1, fin32_eq a f2, bvOf_eq imm f3]

theorem vshlVI (d : Reg) (a : Reg) (imm : BitVec 11) : Statement (Instr.vshlVI d a imm) := fun hw => by
  have e : put 0x6c000005 [(d.val, 21), (a.val, 16), (imm.toNat, 5)] = 27 * 2 ^ 26 + (d.val * 2 ^ 21 + (a.val * 2 ^ 16 + (imm.toNat * 2 ^ 5 + 5))) := by simp only [put]; omega
  have v4 : 5 < 2 ^ 5 := by decide
  have b4 := v4
  have v3 : imm.toNat < 2 ^ 11 := imm.isLt
  have b3 := field_bound (lo := 5) b4 v3
  have v2 : a.val < 2 ^ 5 := a.isLt
  have b2 := field_bound (lo := 16) b3 v2
  have v1 : d.val < 2 ^ 5 := d.isLt
  have b1 := field_bound (lo := 21) b2 v1
  have v0 : 27 < 2 ^ 6 := by decide
  have b0 := field_bound (lo := 26) b1 v0
  have f0 := field_hit (lo := 26) b1 v0
  have f1 := field_skip (v := 27) (lo := 26) (by decide) (field_hit (lo := 21) b2 v1)
  have f2 := field_skip (v := 27) (lo := 26) (by decide) (field_skip (v := d.val) (lo := 21) (by decide) (field_hit (lo := 16) b3 v2))
  have f3 := field_skip (v := 27) (lo := 26) (by decide) (field_skip (v := d.val) (lo := 21) (by decide) (field_skip (v := a.val) (lo := 16) (by decide) (field_hit (lo := 5) b4 v3)))
  have f4 := field_skip_low (v := 27) (lo := 26) (by decide) (field_skip_low (v := d.val) (lo := 21) (by decide) (field_skip_low (v := a.val) (lo := 16) (by decide) (field_skip_low (v := imm.toNat) (lo := 5) (by decide) (Nat.mod_eq_of_lt v4))))
  refine word_eq e (word_back b0 f0 (by decide) (by decide) ((major_1b f0).trans ?_) hw)
  iterate 5 refine (if_neg (other_value f4 (by decide))).trans ?_
  refine (if_pos f4).trans ?_
  rw [fin32_eq d f1, fin32_eq a f2, bvOf_eq imm f3]

theorem vshrVI (d : Reg) (a : Reg) (imm : BitVec 11) : Statement (Instr.vshrVI d a imm) := fun hw => by
  have e : put 0x6c000006 [(d.val, 21), (a.val, 16), (imm.toNat, 5)] = 27 * 2 ^ 26 + (d.val * 2 ^ 21 + (a.val * 2 ^ 16 + (imm.toNat * 2 ^ 5 + 6))) := by simp only [put]; omega
  have v4 : 6 < 2 ^ 5 := by decide
  have b4 := v4
  have v3 : imm.toNat < 2 ^ 11 := imm.isLt
  have b3 := field_bound (lo := 5) b4 v3
  have v2 : a.val < 2 ^ 5 := a.isLt
  have b2 := field_bound (lo := 16) b3 v2
  have v1 : d.val < 2 ^ 5 := d.isLt
  have b1 := field_bound (lo := 21) b2 v1
  have v0 : 27 < 2 ^ 6 := by decide
  have b0 := field_bound (lo := 26) b1 v0
  have f0 := field_hit (lo := 26) b1 v0
  have f1 := field_skip (v := 27) (lo := 26) (by decide) (field_hit (lo := 21) b2 v1)
  have f2 := field_skip (v := 27) (lo := 26) (by decide) (field_skip (v := d.val) (lo := 21) (by decide) (field_hit (lo := 16) b3 v2))
  have f3 := field_skip (v := 27) (lo := 26) (by decide) (field_skip (v := d.val) (lo := 21) (by decide) (field_skip (v := a.val) (lo := 16) (by decide) (field_hit (lo := 5) b4 v3)))
  have f4 := field_skip_low (v := 27) (lo := 26) (by decide) (field_skip_low (v := d.val) (lo := 21) (by decide) (field_skip_low (v := a.val) (lo := 16) (by decide) (field_skip_low (v := imm.toNat) (lo := 5) (by decide) (Nat.mod_eq_of_lt v4))))
  refine word_eq e (word_back b0 f0 (by decide) (by decide) ((major_1b f0).trans ?_) hw)
  iterate 6 refine (if_neg (other_value f4 (by decide))).trans ?_
  refine (if_pos f4).trans ?_
  rw [fin32_eq d f1, fin32_eq a f2, bvOf_eq imm f3]

theorem vminVI (d : Reg) (a : Reg) (imm : BitVec 11) : Statement (Instr.vminVI d a imm) := fun hw => by
  have e : put 0x6c000007 [(d.val, 21), (a.val, 16), (imm.toNat, 5)] = 27 * 2 ^ 26 + (d.val * 2 ^ 21 + (a.val * 2 ^ 16 + (imm.toNat * 2 ^ 5 + 7))) := by simp only [put]; omega
  have v4 : 7 < 2 ^ 5 := by decide
  have b4 := v4
  have v3 : imm.toNat < 2 ^ 11 := imm.isLt
  have b3 := field_bound (lo := 5) b4 v3
  have v2 : a.val < 2 ^ 5 := a.isLt
  have b2 := field_bound (lo := 16) b3 v2
  have v1 : d.val < 2 ^ 5 := d.isLt
  have b1 := field_bound (lo := 21) b2 v1
  have v0 : 27 < 2 ^ 6 := by decide
  have b0 := field_bound (lo := 26) b1 v0
  have f0 := field_hit (lo := 26) b1 v0
  have f1 := field_skip (v := 27) (lo := 26) (by decide) (field_hit (lo := 21) b2 v1)
  have f2 := field_skip (v := 27) (lo := 26) (by decide) (field_skip (v := d.val) (lo := 21) (by decide) (field_hit (lo := 16) b3 v2))
  have f3 := field_skip (v := 27) (lo := 26) (by decide) (field_skip (v := d.val) (lo := 21) (by decide) (field_skip (v := a.val) (lo := 16) (by decide) (field_hit (lo := 5) b4 v3)))
  have f4 := field_skip_low (v := 27) (lo := 26) (by decide) (field_skip_low (v := d.val) (lo := 21) (by decide) (field_skip_low (v := a.val) (lo := 16) (by decide) (field_skip_low (v := imm.toNat) (lo := 5) (by decide) (Nat.mod_eq_of_lt v4))))
  refine word_eq e (word_back b0 f0 (by decide) (by decide) ((major_1b f0).trans ?_) hw)
  iterate 7 refine (if_neg (other_value f4 (by decide))).trans ?_
  refine (if_pos f4).trans ?_
  rw [fin32_eq d f1, fin32_eq a f2, bvOf_eq imm f3]

theorem vmaxVI (d : Reg) (a : Reg) (imm : BitVec 11) : Statement (Instr.vmaxVI d a imm) := fun hw => by
  have e : put 0x6c000008 [(d.val, 21), (a.val, 16), (imm.toNat, 5)] = 27 * 2 ^ 26 + (d.val * 2 ^ 21 + (a.val * 2 ^ 16 + (imm.toNat * 2 ^ 5 + 8))) := by simp only [put]; omega
  have v4 : 8 < 2 ^ 5 := by decide
  have b4 := v4
  have v3 : imm.toNat < 2 ^ 11 := imm.isLt
  have b3 := field_bound (lo := 5) b4 v3
  have v2 : a.val < 2 ^ 5 := a.isLt
  have b2 := field_bound (lo := 16) b3 v2
  have v1 : d.val < 2 ^ 5 := d.isLt
  have b1 := field_bound (lo := 21) b2 v1
  have v0 : 27 < 2 ^ 6 := by decide
  have b0 := field_bound (lo := 26) b1 v0
  have f0 := field_hit (lo := 26) b1 v0
  have f1 := field_skip (v := 27) (lo := 26) (by decide) (field_hit (lo := 21) b2 v1)
  have f2 := field_skip (v := 27) (lo := 26) (by decide) (field_skip (v := d.val) (lo := 21) (by decide) (field_hit (lo := 16) b3 v2))
  have f3 := field_skip (v := 27) (lo := 26) (by decide) (field_skip (v := d.val) (lo := 21) (by decide) (field_skip (v := a.val) (lo := 16) (by decide) (field_hit (lo := 5) b4 v3)))
  have f4 := field_skip_low (v := 27) (lo := 26) (by decide) (field_skip_low (v := d.val) (lo := 21) (by decide) (field_skip_low (v := a.val) (lo := 16) (by decide) (field_skip_low (v := imm.toNat) (lo := 5) (by decide) (Nat.mod_eq_of_lt v4))))
  refine word_eq e (word_back b0 f0 (by decide) (by decide) ((major_1b f0).trans ?_) hw)
  iterate 8 refine (if_neg (other_value f4 (by decide))).trans ?_
  refine (if_pos f4).trans ?_
  rw [fin32_eq d f1, fin32_eq a f2, bvOf_eq imm f3]

theorem vfaddVV (d : Reg) (a : Reg) (b : Reg) (m : MaskF) (x : Bool) : Statement (Instr.vfaddVV d a b m x) := fun hw => by
  have e : put 0x70000000 [(d.val, 21), (a.val, 16), (b.val, 11), (m.val, 5), (x.toNat, 4)] = 28 * 2 ^ 26 + (d.val * 2 ^ 21 + (a.val * 2 ^ 16 + (b.val * 2 ^ 11 + (m.val * 2 ^ 5 + (x.toNat * 2 ^ 4 + 0))))) := by simp only [put]; omega
  have v6 : 0 < 2 ^ 4 := by decide
  have b6 := v6
  have v5 : x.toNat < 2 ^ 1 := bool_lt x
  have b5 := field_bound (lo := 4) b6 v5
  have v4 : m.val < 2 ^ 6 := m.isLt
  have b4 := field_bound (lo := 5) b5 v4
  have v3 : b.val < 2 ^ 5 := b.isLt
  have b3 := field_bound (lo := 11) b4 v3
  have v2 : a.val < 2 ^ 5 := a.isLt
  have b2 := field_bound (lo := 16) b3 v2
  have v1 : d.val < 2 ^ 5 := d.isLt
  have b1 := field_bound (lo := 21) b2 v1
  have v0 : 28 < 2 ^ 6 := by decide
  have b0 := field_bound (lo := 26) b1 v0
  have f0 := field_hit (lo := 26) b1 v0
  have f1 := field_skip (v := 28) (lo := 26) (by decide) (field_hit (lo := 21) b2 v1)
  have f2 := field_skip (v := 28) (lo := 26) (by decide) (field_skip (v := d.val) (lo := 21) (by decide) (field_hit (lo := 16) b3 v2))
  have f3 := field_skip (v := 28) (lo := 26) (by decide) (field_skip (v := d.val) (lo := 21) (by decide) (field_skip (v := a.val) (lo := 16) (by decide) (field_hit (lo := 11) b4 v3)))
  have f4 := field_skip (v := 28) (lo := 26) (by decide) (field_skip (v := d.val) (lo := 21) (by decide) (field_skip (v := a.val) (lo := 16) (by decide) (field_skip (v := b.val) (lo := 11) (by decide) (field_hit (lo := 5) b5 v4))))
  have f5 := field_skip (v := 28) (lo := 26) (by decide) (field_skip (v := d.val) (lo := 21) (by decide) (field_skip (v := a.val) (lo := 16) (by decide) (field_skip (v := b.val) (lo := 11) (by decide) (field_skip (v := m.val) (lo := 5) (by decide) (field_hit (lo := 4) b6 v5)))))
  have f6 := field_skip_low (v := 28) (lo := 26) (by decide) (field_skip_low (v := d.val) (lo := 21) (by decide) (field_skip_low (v := a.val) (lo := 16) (by decide) (field_skip_low (v := b.val) (lo := 11) (by decide) (field_skip_low (v := m.val) (lo := 5) (by decide) (field_skip_low (v := x.toNat) (lo := 4) (by decide) (Nat.mod_eq_of_lt v6))))))
  refine word_eq e (word_back b0 f0 (by decide) (by decide) ((major_1c f0).trans ?_) hw)
  refine (if_pos f6).trans ?_
  rw [fin32_eq d f1, fin32_eq a f2, fin32_eq b f3, fin64_eq m f4, bit1_eq x f5]

theorem vfsubVV (d : Reg) (a : Reg) (b : Reg) (m : MaskF) (x : Bool) : Statement (Instr.vfsubVV d a b m x) := fun hw => by
  have e : put 0x70000001 [(d.val, 21), (a.val, 16), (b.val, 11), (m.val, 5), (x.toNat, 4)] = 28 * 2 ^ 26 + (d.val * 2 ^ 21 + (a.val * 2 ^ 16 + (b.val * 2 ^ 11 + (m.val * 2 ^ 5 + (x.toNat * 2 ^ 4 + 1))))) := by simp only [put]; omega
  have v6 : 1 < 2 ^ 4 := by decide
  have b6 := v6
  have v5 : x.toNat < 2 ^ 1 := bool_lt x
  have b5 := field_bound (lo := 4) b6 v5
  have v4 : m.val < 2 ^ 6 := m.isLt
  have b4 := field_bound (lo := 5) b5 v4
  have v3 : b.val < 2 ^ 5 := b.isLt
  have b3 := field_bound (lo := 11) b4 v3
  have v2 : a.val < 2 ^ 5 := a.isLt
  have b2 := field_bound (lo := 16) b3 v2
  have v1 : d.val < 2 ^ 5 := d.isLt
  have b1 := field_bound (lo := 21) b2 v1
  have v0 : 28 < 2 ^ 6 := by decide
  have b0 := field_bound (lo := 26) b1 v0
  have f0 := field_hit (lo := 26) b1 v0
  have f1 := field_skip (v := 28) (lo := 26) (by decide) (field_hit (lo := 21) b2 v1)
  have f2 := field_skip (v := 28) (lo := 26) (by decide) (field_skip (v := d.val) (lo := 21) (by decide) (field_hit (lo := 16) b3 v2))
  have f3 := field_skip (v := 28) (lo := 26) (by decide) (field_skip (v := d.val) (lo := 21) (by decide) (field_skip (v := a.val) (lo := 16) (by decide) (field_hit (lo := 11) b4 v3)))
  have f4 := field_skip (v := 28) (lo := 26) (by decide) (field_skip (v := d.val) (lo := 21) (by decide) (field_skip (v := a.val) (lo := 16) (by decide) (field_skip (v := b.val) (lo := 11) (by decide) (field_hit (lo := 5) b5 v4))))
  have f5 := field_skip (v := 28) (lo := 26) (by decide) (field_skip (v := d.val) (lo := 21) (by decide) (field_skip (v := a.val) (lo := 16) (by decide) (field_skip (v := b.val) (lo := 11) (by decide) (field_skip (v := m.val) (lo := 5) (by decide) (field_hit (lo := 4) b6 v5)))))
  have f6 := field_skip_low (v := 28) (lo := 26) (by decide) (field_skip_low (v := d.val) (lo := 21) (by decide) (field_skip_low (v := a.val) (lo := 16) (by decide) (field_skip_low (v := b.val) (lo := 11) (by decide) (field_skip_low (v := m.val) (lo := 5) (by decide) (field_skip_low (v := x.toNat) (lo := 4) (by decide) (Nat.mod_eq_of_lt v6))))))
  refine word_eq e (word_back b0 f0 (by decide) (by decide) ((major_1c f0).trans ?_) hw)
  refine (if_neg (other_value f6 (by decide))).trans ?_
  refine (if_pos f6).trans ?_
  rw [fin32_eq d f1, fin32_eq a f2, fin32_eq b f3, fin64_eq m f4, bit1_eq x f5]

theorem vfmulVV (d : Reg) (a : Reg) (b : Reg) (m : MaskF) (x : Bool) : Statement (Instr.vfmulVV d a b m x) := fun hw => by
  have e : put 0x70000002 [(d.val, 21), (a.val, 16), (b.val, 11), (m.val, 5), (x.toNat, 4)] = 28 * 2 ^ 26 + (d.val * 2 ^ 21 + (a.val * 2 ^ 16 + (b.val * 2 ^ 11 + (m.val * 2 ^ 5 + (x.toNat * 2 ^ 4 + 2))))) := by simp only [put]; omega
  have v6 : 2 < 2 ^ 4 := by decide
  have b6 := v6
  have v5 : x.toNat < 2 ^ 1 := bool_lt x
  have b5 := field_bound (lo := 4) b6 v5
  have v4 : m.val < 2 ^ 6 := m.isLt
  have b4 := field_bound (lo := 5) b5 v4
  have v3 : b.val < 2 ^ 5 := b.isLt
  have b3 := field_bound (lo := 11) b4 v3
  have v2 : a.val < 2 ^ 5 := a.isLt
  have b2 := field_bound (lo := 16) b3 v2
  have v1 : d.val < 2 ^ 5 := d.isLt
  have b1 := field_bound (lo := 21) b2 v1
  have v0 : 28 < 2 ^ 6 := by decide
  have b0 := field_bound (lo := 26) b1 v0
  have f0 := field_hit (lo := 26) b1 v0
  have f1 := field_skip (v := 28) (lo := 26) (by decide) (field_hit (lo := 21) b2 v1)
  have f2 := field_skip (v := 28) (lo := 26) (by decide) (field_skip (v := d.val) (lo := 21) (by decide) (field_hit (lo := 16) b3 v2))
  have f3 := field_skip (v := 28) (lo := 26) (by decide) (field_skip (v := d.val) (lo := 21) (by decide) (field_skip (v := a.val) (lo := 16) (by decide) (field_hit (lo := 11) b4 v3)))
  have f4 := field_skip (v := 28) (lo := 26) (by decide) (field_skip (v := d.val) (lo := 21) (by decide) (field_skip (v := a.val) (lo := 16) (by decide) (field_skip (v := b.val) (lo := 11) (by decide) (field_hit (lo := 5) b5 v4))))
  have f5 := field_skip (v := 28) (lo := 26) (by decide) (field_skip (v := d.val) (lo := 21) (by decide) (field_skip (v := a.val) (lo := 16) (by decide) (field_skip (v := b.val) (lo := 11) (by decide) (field_skip (v := m.val) (lo := 5) (by decide) (field_hit (lo := 4) b6 v5)))))
  have f6 := field_skip_low (v := 28) (lo := 26) (by decide) (field_skip_low (v := d.val) (lo := 21) (by decide) (field_skip_low (v := a.val) (lo := 16) (by decide) (field_skip_low (v := b.val) (lo := 11) (by decide) (field_skip_low (v := m.val) (lo := 5) (by decide) (field_skip_low (v := x.toNat) (lo := 4) (by decide) (Nat.mod_eq_of_lt v6))))))
  refine word_eq e (word_back b0 f0 (by decide) (by decide) ((major_1c f0).trans ?_) hw)
  iterate 2 refine (if_neg (other_value f6 (by decide))).trans ?_
  refine (if_pos f6).trans ?_
  rw [fin32_eq d f1, fin32_eq a f2, fin32_eq b f3, fin64_eq m f4, bit1_eq x f5]

theorem vfdivVV (d : Reg) (a : Reg) (b : Reg) (m : MaskF) (x : Bool) : Statement (Instr.vfdivVV d a b m x) := fun hw => by
  have e : put 0x70000003 [(d.val, 21), (a.val, 16), (b.val, 11), (m.val, 5), (x.toNat, 4)] = 28 * 2 ^ 26 + (d.val * 2 ^ 21 + (a.val * 2 ^ 16 + (b.val * 2 ^ 11 + (m.val * 2 ^ 5 + (x.toNat * 2 ^ 4 + 3))))) := by simp only [put]; omega
  have v6 : 3 < 2 ^ 4 := by decide
  have b6 := v6
  have v5 : x.toNat < 2 ^ 1 := bool_lt x
  have b5 := field_bound (lo := 4) b6 v5
  have v4 : m.val < 2 ^ 6 := m.isLt
  have b4 := field_bound (lo := 5) b5 v4
  have v3 : b.val < 2 ^ 5 := b.isLt
  have b3 := field_bound (lo := 11) b4 v3
  have v2 : a.val < 2 ^ 5 := a.isLt
  have b2 := field_bound (lo := 16) b3 v2
  have v1 : d.val < 2 ^ 5 := d.isLt
  have b1 := field_bound (lo := 21) b2 v1
  have v0 : 28 < 2 ^ 6 := by decide
  have b0 := field_bound (lo := 26) b1 v0
  have f0 := field_hit (lo := 26) b1 v0
  have f1 := field_skip (v := 28) (lo := 26) (by decide) (field_hit (lo := 21) b2 v1)
  have f2 := field_skip (v := 28) (lo := 26) (by decide) (field_skip (v := d.val) (lo := 21) (by decide) (field_hit (lo := 16) b3 v2))
  have f3 := field_skip (v := 28) (lo := 26) (by decide) (field_skip (v := d.val) (lo := 21) (by decide) (field_skip (v := a.val) (lo := 16) (by decide) (field_hit (lo := 11) b4 v3)))
  have f4 := field_skip (v := 28) (lo := 26) (by decide) (field_skip (v := d.val) (lo := 21) (by decide) (field_skip (v := a.val) (lo := 16) (by decide) (field_skip (v := b.val) (lo := 11) (by decide) (field_hit (lo := 5) b5 v4))))
  have f5 := field_skip (v := 28) (lo := 26) (by decide) (field_skip (v := d.val) (lo := 21) (by decide) (field_skip (v := a.val) (lo := 16) (by decide) (field_skip (v := b.val) (lo := 11) (by decide) (field_skip (v := m.val) (lo := 5) (by decide) (field_hit (lo := 4) b6 v5)))))
  have f6 := field_skip_low (v := 28) (lo := 26) (by decide) (field_skip_low (v := d.val) (lo := 21) (by decide) (field_skip_low (v := a.val) (lo := 16) (by decide) (field_skip_low (v := b.val) (lo := 11) (by decide) (field_skip_low (v := m.val) (lo := 5) (by decide) (field_skip_low (v := x.toNat) (lo := 4) (by decide) (Nat.mod_eq_of_lt v6))))))
  refine word_eq e (word_back b0 f0 (by decide) (by decide) ((major_1c f0).trans ?_) hw)
  iterate 3 refine (if_neg (other_value f6 (by decide))).trans ?_
  refine (if_pos f6).trans ?_
  rw [fin32_eq d f1, fin32_eq a f2, fin32_eq b f3, fin64_eq m f4, bit1_eq x f5]

theorem vfmaVV (d : Reg) (a : Reg) (b : Reg) (m : MaskF) (x : Bool) : Statement (Instr.vfmaVV d a b m x) := fun hw => by
  have e : put 0x70000004 [(d.val, 21), (a.val, 16), (b.val, 11), (m.val, 5), (x.toNat, 4)] = 28 * 2 ^ 26 + (d.val * 2 ^ 21 + (a.val * 2 ^ 16 + (b.val * 2 ^ 11 + (m.val * 2 ^ 5 + (x.toNat * 2 ^ 4 + 4))))) := by simp only [put]; omega
  have v6 : 4 < 2 ^ 4 := by decide
  have b6 := v6
  have v5 : x.toNat < 2 ^ 1 := bool_lt x
  have b5 := field_bound (lo := 4) b6 v5
  have v4 : m.val < 2 ^ 6 := m.isLt
  have b4 := field_bound (lo := 5) b5 v4
  have v3 : b.val < 2 ^ 5 := b.isLt
  have b3 := field_bound (lo := 11) b4 v3
  have v2 : a.val < 2 ^ 5 := a.isLt
  have b2 := field_bound (lo := 16) b3 v2
  have v1 : d.val < 2 ^ 5 := d.isLt
  have b1 := field_bound (lo := 21) b2 v1
  have v0 : 28 < 2 ^ 6 := by decide
  have b0 := field_bound (lo := 26) b1 v0
  have f0 := field_hit (lo := 26) b1 v0
  have f1 := field_skip (v := 28) (lo := 26) (by decide) (field_hit (lo := 21) b2 v1)
  have f2 := field_skip (v := 28) (lo := 26) (by decide) (field_skip (v := d.val) (lo := 21) (by decide) (field_hit (lo := 16) b3 v2))
  have f3 := field_skip (v := 28) (lo := 26) (by decide) (field_skip (v := d.val) (lo := 21) (by decide) (field_skip (v := a.val) (lo := 16) (by decide) (field_hit (lo := 11) b4 v3)))
  have f4 := field_skip (v := 28) (lo := 26) (by decide) (field_skip (v := d.val) (lo := 21) (by decide) (field_skip (v := a.val) (lo := 16) (by decide) (field_skip (v := b.val) (lo := 11) (by decide) (field_hit (lo := 5) b5 v4))))
  have f5 := field_skip (v := 28) (lo := 26) (by decide) (field_skip (v := d.val) (lo := 21) (by decide) (field_skip (v := a.val) (lo := 16) (by decide) (field_skip (v := b.val) (lo := 11) (by decide) (field_skip (v := m.val) (lo := 5) (by decide) (field_hit (lo := 4) b6 v5)))))
  have f6 := field_skip_low (v := 28) (lo := 26) (by decide) (field_skip_low (v := d.val) (lo := 21) (by decide) (field_skip_low (v := a.val) (lo := 16) (by decide) (field_skip_low (v := b.val) (lo := 11) (by decide) (field_skip_low (v := m.val) (lo := 5) (by decide) (field_skip_low (v := x.toNat) (lo := 4) (by decide) (Nat.mod_eq_of_lt v6))))))
  refine word_eq e (word_back b0 f0 (by decide) (by decide) ((major_1c f0).trans ?_) hw)
  iterate 4 refine (if_neg (other_value f6 (by decide))).trans ?_
  refine (if_pos f6).trans ?_
  rw [fin32_eq d f1, fin32_eq a f2, fin32_eq b f3, fin64_eq m f4, bit1_eq x f5]

theorem vfminVV (d : Reg) (a : Reg) (b : Reg) (m : MaskF) (x : Bool) : Statement (Instr.vfminVV d a b m x) := fun hw => by
  have e : put 0x70000005 [(d.val, 21), (a.val, 16), (b.val, 11), (m.val, 5), (x.toNat, 4)] = 28 * 2 ^ 26 + (d.val * 2 ^ 21 + (a.val * 2 ^ 16 + (b.val * 2 ^ 11 + (m.val * 2 ^ 5 + (x.toNat * 2 ^ 4 + 5))))) := by simp only [put]; omega
  have v6 : 5 < 2 ^ 4 := by decide
  have b6 := v6
  have v5 : x.toNat < 2 ^ 1 := bool_lt x
  have b5 := field_bound (lo := 4) b6 v5
  have v4 : m.val < 2 ^ 6 := m.isLt
  have b4 := field_bound (lo := 5) b5 v4
  have v3 : b.val < 2 ^ 5 := b.isLt
  have b3 := field_bound (lo := 11) b4 v3
  have v2 : a.val < 2 ^ 5 := a.isLt
  have b2 := field_bound (lo := 16) b3 v2
  have v1 : d.val < 2 ^ 5 := d.isLt
  have b1 := field_bound (lo := 21) b2 v1
  have v0 : 28 < 2 ^ 6 := by decide
  have b0 := field_bound (lo := 26) b1 v0
  have f0 := field_hit (lo := 26) b1 v0
  have f1 := field_skip (v := 28) (lo := 26) (by decide) (field_hit (lo := 21) b2 v1)
  have f2 := field_skip (v := 28) (lo := 26) (by decide) (field_skip (v := d.val) (lo := 21) (by decide) (field_hit (lo := 16) b3 v2))
  have f3 := field_skip (v := 28) (lo := 26) (by decide) (field_skip (v := d.val) (lo := 21) (by decide) (field_skip (v := a.val) (lo := 16) (by decide) (field_hit (lo := 11) b4 v3)))
  have f4 := field_skip (v := 28) (lo := 26) (by decide) (field_skip (v := d.val) (lo := 21) (by decide) (field_skip (v := a.val) (lo := 16) (by decide) (field_skip (v := b.val) (lo := 11) (by decide) (field_hit (lo := 5) b5 v4))))
  have f5 := field_skip (v := 28) (lo := 26) (by decide) (field_skip (v := d.val) (lo := 21) (by decide) (field_skip (v := a.val) (lo := 16) (by decide) (field_skip (v := b.val) (lo := 11) (by decide) (field_skip (v := m.val) (lo := 5) (by decide) (field_hit (lo := 4) b6 v5)))))
  have f6 := field_skip_low (v := 28) (lo := 26) (by decide) (field_skip_low (v := d.val) (lo := 21) (by decide) (field_skip_low (v := a.val) (lo := 16) (by decide) (field_skip_low (v := b.val) (lo := 11) (by decide) (field_skip_low (v := m.val) (lo := 5) (by decide) (field_skip_low (v := x.toNat) (lo := 4) (by decide) (Nat.mod_eq_of_lt v6))))))
  refine word_eq e (word_back b0 f0 (by decide) (by decide) ((major_1c f0).trans ?_) hw)
  iterate 5 refine (if_neg (other_value f6 (by decide))).trans ?_
  refine (if_pos f6).trans ?_
  rw [fin32_eq d f1, fin32_eq a f2, fin32_eq b f3, fin64_eq m f4, bit1_eq x f5]

theorem vfmaxVV (d : Reg) (a : Reg) (b : Reg) (m : MaskF) (x : Bool) : Statement (Instr.vfmaxVV d a b m x) := fun hw => by
  have e : put 0x70000006 [(d.val, 21), (a.val, 16), (b.val, 11), (m.val, 5), (x.toNat, 4)] = 28 * 2 ^ 26 + (d.val * 2 ^ 21 + (a.val * 2 ^ 16 + (b.val * 2 ^ 11 + (m.val * 2 ^ 5 + (x.toNat * 2 ^ 4 + 6))))) := by simp only [put]; omega
  have v6 : 6 < 2 ^ 4 := by decide
  have b6 := v6
  have v5 : x.toNat < 2 ^ 1 := bool_lt x
  have b5 := field_bound (lo := 4) b6 v5
  have v4 : m.val < 2 ^ 6 := m.isLt
  have b4 := field_bound (lo := 5) b5 v4
  have v3 : b.val < 2 ^ 5 := b.isLt
  have b3 := field_bound (lo := 11) b4 v3
  have v2 : a.val < 2 ^ 5 := a.isLt
  have b2 := field_bound (lo := 16) b3 v2
  have v1 : d.val < 2 ^ 5 := d.isLt
  have b1 := field_bound (lo := 21) b2 v1
  have v0 : 28 < 2 ^ 6 := by decide
  have b0 := field_bound (lo := 26) b1 v0
  have f0 := field_hit (lo := 26) b1 v0
  have f1 := field_skip (v := 28) (lo := 26) (by decide) (field_hit (lo := 21) b2 v1)
  have f2 := field_skip (v := 28) (lo := 26) (by decide) (field_skip (v := d.val) (lo := 21) (by decide) (field_hit (lo := 16) b3 v2))
  have f3 := field_skip (v := 28) (lo := 26) (by decide) (field_skip (v := d.val) (lo := 21) (by decide) (field_skip (v := a.val) (lo := 16) (by decide) (field_hit (lo := 11) b4 v3)))
  have f4 := field_skip (v := 28) (lo := 26) (by decide) (field_skip (v := d.val) (lo := 21) (by decide) (field_skip (v := a.val) (lo := 16) (by decide) (field_skip (v := b.val) (lo := 11) (by decide) (field_hit (lo := 5) b5 v4))))
  have f5 := field_skip (v := 28) (lo := 26) (by decide) (field_skip (v := d.val) (lo := 21) (by decide) (field_skip (v := a.val) (lo := 16) (by decide) (field_skip (v := b.val) (lo := 11) (by decide) (field_skip (v := m.val) (lo := 5) (by decide) (field_hit (lo := 4) b6 v5)))))
  have f6 := field_skip_low (v := 28) (lo := 26) (by decide) (field_skip_low (v := d.val) (lo := 21) (by decide) (field_skip_low (v := a.val) (lo := 16) (by decide) (field_skip_low (v := b.val) (lo := 11) (by decide) (field_skip_low (v := m.val) (lo := 5) (by decide) (field_skip_low (v := x.toNat) (lo := 4) (by decide) (Nat.mod_eq_of_lt v6))))))
  refine word_eq e (word_back b0 f0 (by decide) (by decide) ((major_1c f0).trans ?_) hw)
  iterate 6 refine (if_neg (other_value f6 (by decide))).trans ?_
  refine (if_pos f6).trans ?_
  rw [fin32_eq d f1, fin32_eq a f2, fin32_eq b f3, fin64_eq m f4, bit1_eq x f5]

theorem vfabs (d : Reg) (a : Reg) (m : MaskF) (x : Bool) : Statement (Instr.vfabs d a m x) := fun hw => by
  have e : put 0x70000007 [(d.val, 21), (a.val, 16), (m.val, 5), (x.toNat, 4)] = 28 * 2 ^ 26 + (d.val * 2 ^ 21 + (a.val * 2 ^ 16 + (0 * 2 ^ 11 + (m.val * 2 ^ 5 + (x.toNat * 2 ^ 4 + 7))))) := by simp only [put]; omega
  have v6 : 7 < 2 ^ 4 := by decide
  have b6 := v6
  have v5 : x.toNat < 2 ^ 1 := bool_lt x
  have b5 := field_bound (lo := 4) b6 v5
  have v4 : m.val < 2 ^ 6 := m.isLt
  have b4 := field_bound (lo := 5) b5 v4
  have v3 : 0 < 2 ^ 5 := by decide
  have b3 := field_bound (lo := 11) b4 v3
  have v2 : a.val < 2 ^ 5 := a.isLt
  have b2 := field_bound (lo := 16) b3 v2
  have v1 : d.val < 2 ^ 5 := d.isLt
  have b1 := field_bound (lo := 21) b2 v1
  have v0 : 28 < 2 ^ 6 := by decide
  have b0 := field_bound (lo := 26) b1 v0
  have f0 := field_hit (lo := 26) b1 v0
  have f1 := field_skip (v := 28) (lo := 26) (by decide) (field_hit (lo := 21) b2 v1)
  have f2 := field_skip (v := 28) (lo := 26) (by decide) (field_skip (v := d.val) (lo := 21) (by decide) (field_hit (lo := 16) b3 v2))
  have f3 := field_skip (v := 28) (lo := 26) (by decide) (field_skip (v := d.val) (lo := 21) (by decide) (field_skip (v := a.val) (lo := 16) (by decide) (field_hit (lo := 11) b4 v3)))
  have f4 := field_skip (v := 28) (lo := 26) (by decide) (field_skip (v := d.val) (lo := 21) (by decide) (field_skip (v := a.val) (lo := 16) (by decide) (field_skip (v := 0) (lo := 11) (by decide) (field_hit (lo := 5) b5 v4))))
  have f5 := field_skip (v := 28) (lo := 26) (by decide) (field_skip (v := d.val) (lo := 21) (by decide) (field_skip (v := a.val) (lo := 16) (by decide) (field_skip (v := 0) (lo := 11) (by decide) (field_skip (v := m.val) (lo := 5) (by decide) (field_hit (lo := 4) b6 v5)))))
  have f6 := field_skip_low (v := 28) (lo := 26) (by decide) (field_skip_low (v := d.val) (lo := 21) (by decide) (field_skip_low (v := a.val) (lo := 16) (by decide) (field_skip_low (v := 0) (lo := 11) (by decide) (field_skip_low (v := m.val) (lo := 5) (by decide) (field_skip_low (v := x.toNat) (lo := 4) (by decide) (Nat.mod_eq_of_lt v6))))))
  refine word_eq e (word_back b0 f0 (by decide) (by decide) ((major_1c f0).trans ?_) hw)
  iterate 7 refine (if_neg (other_value f6 (by decide))).trans ?_
  refine (if_pos ⟨f6, f3⟩).trans ?_
  rw [fin32_eq d f1, fin32_eq a f2, fin64_eq m f4, bit1_eq x f5]

theorem vfsqrt (d : Reg) (a : Reg) (m : MaskF) (x : Bool) : Statement (Instr.vfsqrt d a m x) := fun hw => by
  have e : put 0x70000008 [(d.val, 21), (a.val, 16), (m.val, 5), (x.toNat, 4)] = 28 * 2 ^ 26 + (d.val * 2 ^ 21 + (a.val * 2 ^ 16 + (0 * 2 ^ 11 + (m.val * 2 ^ 5 + (x.toNat * 2 ^ 4 + 8))))) := by simp only [put]; omega
  have v6 : 8 < 2 ^ 4 := by decide
  have b6 := v6
  have v5 : x.toNat < 2 ^ 1 := bool_lt x
  have b5 := field_bound (lo := 4) b6 v5
  have v4 : m.val < 2 ^ 6 := m.isLt
  have b4 := field_bound (lo := 5) b5 v4
  have v3 : 0 < 2 ^ 5 := by decide
  have b3 := field_bound (lo := 11) b4 v3
  have v2 : a.val < 2 ^ 5 := a.isLt
  have b2 := field_bound (lo := 16) b3 v2
  have v1 : d.val < 2 ^ 5 := d.isLt
  have b1 := field_bound (lo := 21) b2 v1
  have v0 : 28 < 2 ^ 6 := by decide
  have b0 := field_bound (lo := 26) b1 v0
  have f0 := field_hit (lo := 26) b1 v0
  have f1 := field_skip (v := 28) (lo := 26) (by decide) (field_hit (lo := 21) b2 v1)
  have f2 := field_skip (v := 28) (lo := 26) (by decide) (field_skip (v := d.val) (lo := 21) (by decide) (field_hit (lo := 16) b3 v2))
  have f3 := field_skip (v := 28) (lo := 26) (by decide) (field_skip (v := d.val) (lo := 21) (by decide) (field_skip (v := a.val) (lo := 16) (by decide) (field_hit (lo := 11) b4 v3)))
  have f4 := field_skip (v := 28) (lo := 26) (by decide) (field_skip (v := d.val) (lo := 21) (by decide) (field_skip (v := a.val) (lo := 16) (by decide) (field_skip (v := 0) (lo := 11) (by decide) (field_hit (lo := 5) b5 v4))))
  have f5 := field_skip (v := 28) (lo := 26) (by decide) (field_skip (v := d.val) (lo := 21) (by decide) (field_skip (v := a.val) (lo := 16) (by decide) (field_skip (v := 0) (lo := 11) (by decide) (field_skip (v := m.val) (lo := 5) (by decide) (field_hit (lo := 4) b6 v5)))))
  have f6 := field_skip_low (v := 28) (lo := 26) (by decide) (field_skip_low (v := d.val) (lo := 21) (by decide) (field_skip_low (v := a.val) (lo := 16) (by decide) (field_skip_low (v := 0) (lo := 11) (by decide) (field_skip_low (v := m.val) (lo := 5) (by decide) (field_skip_low (v := x.toNat) (lo := 4) (by decide) (Nat.mod_eq_of_lt v6))))))
  refine word_eq e (word_back b0 f0 (by decide) (by decide) ((major_1c f0).trans ?_) hw)
  iterate 7 refine (if_neg (other_value f6 (by decide))).trans ?_
  refine (if_neg (fun c => other_value f6 (by decide) c.1)).trans ?_
  refine (if_pos ⟨f6, f3⟩).trans ?_
  rw [fin32_eq d f1, fin32_eq a f2, fin64_eq m f4, bit1_eq x f5]

theorem vfrcp (d : Reg) (a : Reg) (m : MaskF) (x : Bool) : Statement (Instr.vfrcp d a m x) := fun hw => by
  have e : put 0x70000009 [(d.val, 21), (a.val, 16), (m.val, 5), (x.toNat, 4)] = 28 * 2 ^ 26 + (d.val * 2 ^ 21 + (a.val * 2 ^ 16 + (0 * 2 ^ 11 + (m.val * 2 ^ 5 + (x.toNat * 2 ^ 4 + 9))))) := by simp only [put]; omega
  have v6 : 9 < 2 ^ 4 := by decide
  have b6 := v6
  have v5 : x.toNat < 2 ^ 1 := bool_lt x
  have b5 := field_bound (lo := 4) b6 v5
  have v4 : m.val < 2 ^ 6 := m.isLt
  have b4 := field_bound (lo := 5) b5 v4
  have v3 : 0 < 2 ^ 5 := by decide
  have b3 := field_bound (lo := 11) b4 v3
  have v2 : a.val < 2 ^ 5 := a.isLt
  have b2 := field_bound (lo := 16) b3 v2
  have v1 : d.val < 2 ^ 5 := d.isLt
  have b1 := field_bound (lo := 21) b2 v1
  have v0 : 28 < 2 ^ 6 := by decide
  have b0 := field_bound (lo := 26) b1 v0
  have f0 := field_hit (lo := 26) b1 v0
  have f1 := field_skip (v := 28) (lo := 26) (by decide) (field_hit (lo := 21) b2 v1)
  have f2 := field_skip (v := 28) (lo := 26) (by decide) (field_skip (v := d.val) (lo := 21) (by decide) (field_hit (lo := 16) b3 v2))
  have f3 := field_skip (v := 28) (lo := 26) (by decide) (field_skip (v := d.val) (lo := 21) (by decide) (field_skip (v := a.val) (lo := 16) (by decide) (field_hit (lo := 11) b4 v3)))
  have f4 := field_skip (v := 28) (lo := 26) (by decide) (field_skip (v := d.val) (lo := 21) (by decide) (field_skip (v := a.val) (lo := 16) (by decide) (field_skip (v := 0) (lo := 11) (by decide) (field_hit (lo := 5) b5 v4))))
  have f5 := field_skip (v := 28) (lo := 26) (by decide) (field_skip (v := d.val) (lo := 21) (by decide) (field_skip (v := a.val) (lo := 16) (by decide) (field_skip (v := 0) (lo := 11) (by decide) (field_skip (v := m.val) (lo := 5) (by decide) (field_hit (lo := 4) b6 v5)))))
  have f6 := field_skip_low (v := 28) (lo := 26) (by decide) (field_skip_low (v := d.val) (lo := 21) (by decide) (field_skip_low (v := a.val) (lo := 16) (by decide) (field_skip_low (v := 0) (lo := 11) (by decide) (field_skip_low (v := m.val) (lo := 5) (by decide) (field_skip_low (v := x.toNat) (lo := 4) (by decide) (Nat.mod_eq_of_lt v6))))))
  refine word_eq e (word_back b0 f0 (by decide) (by decide) ((major_1c f0).trans ?_) hw)
  iterate 7 refine (if_neg (other_value f6 (by decide))).trans ?_
  iterate 2 refine (if_neg (fun c => other_value f6 (by decide) c.1)).trans ?_
  refine (if_pos ⟨f6, f3⟩).trans ?_
  rw [fin32_eq d f1, fin32_eq a f2, fin64_eq m f4, bit1_eq x f5]

theorem vfrsqrt (d : Reg) (a : Reg) (m : MaskF) (x : Bool) : Statement (Instr.vfrsqrt d a m x) := fun hw => by
  have e : put 0x7000000a [(d.val, 21), (a.val, 16), (m.val, 5), (x.toNat, 4)] = 28 * 2 ^ 26 + (d.val * 2 ^ 21 + (a.val * 2 ^ 16 + (0 * 2 ^ 11 + (m.val * 2 ^ 5 + (x.toNat * 2 ^ 4 + 10))))) := by simp only [put]; omega
  have v6 : 10 < 2 ^ 4 := by decide
  have b6 := v6
  have v5 : x.toNat < 2 ^ 1 := bool_lt x
  have b5 := field_bound (lo := 4) b6 v5
  have v4 : m.val < 2 ^ 6 := m.isLt
  have b4 := field_bound (lo := 5) b5 v4
  have v3 : 0 < 2 ^ 5 := by decide
  have b3 := field_bound (lo := 11) b4 v3
  have v2 : a.val < 2 ^ 5 := a.isLt
  have b2 := field_bound (lo := 16) b3 v2
  have v1 : d.val < 2 ^ 5 := d.isLt
  have b1 := field_bound (lo := 21) b2 v1
  have v0 : 28 < 2 ^ 6 := by decide
  have b0 := field_bound (lo := 26) b1 v0
  have f0 := field_hit (lo := 26) b1 v0
  have f1 := field_skip (v := 28) (lo := 26) (by decide) (field_hit (lo := 21) b2 v1)
  have f2 := field_skip (v := 28) (lo := 26) (by decide) (field_skip (v := d.val) (lo := 21) (by decide) (field_hit (lo := 16) b3 v2))
  have f3 := field_skip (v := 28) (lo := 26) (by decide) (field_skip (v := d.val) (lo := 21) (by decide) (field_skip (v := a.val) (lo := 16) (by decide) (field_hit (lo := 11) b4 v3)))
  have f4 := field_skip (v := 28) (lo := 26) (by decide) (field_skip (v := d.val) (lo := 21) (by decide) (field_skip (v := a.val) (lo := 16) (by decide) (field_skip (v := 0) (lo := 11) (by decide) (field_hit (lo := 5) b5 v4))))
  have f5 := field_skip (v := 28) (lo := 26) (by decide) (field_skip (v := d.val) (lo := 21) (by decide) (field_skip (v := a.val) (lo := 16) (by decide) (field_skip (v := 0) (lo := 11) (by decide) (field_skip (v := m.val) (lo := 5) (by decide) (field_hit (lo := 4) b6 v5)))))
  have f6 := field_skip_low (v := 28) (lo := 26) (by decide) (field_skip_low (v := d.val) (lo := 21) (by decide) (field_skip_low (v := a.val) (lo := 16) (by decide) (field_skip_low (v := 0) (lo := 11) (by decide) (field_skip_low (v := m.val) (lo := 5) (by decide) (field_skip_low (v := x.toNat) (lo := 4) (by decide) (Nat.mod_eq_of_lt v6))))))
  refine word_eq e (word_back b0 f0 (by decide) (by decide) ((major_1c f0).trans ?_) hw)
  iterate 7 refine (if_neg (other_value f6 (by decide))).trans ?_
  iterate 3 refine (if_neg (fun c => other_value f6 (by decide) c.1)).trans ?_
  refine (if_pos ⟨f6, f3⟩).trans ?_
  rw [fin32_eq d f1, fin32_eq a f2, fin64_eq m f4, bit1_eq x f5]

theorem vfexp2 (d : Reg) (a : Reg) (m : MaskF) (x : Bool) : Statement (Instr.vfexp2 d a m x) := fun hw => by
  have e : put 0x7000000b [(d.val, 21), (a.val, 16), (m.val, 5), (x.toNat, 4)] = 28 * 2 ^ 26 + (d.val * 2 ^ 21 + (a.val * 2 ^ 16 + (0 * 2 ^ 11 + (m.val * 2 ^ 5 + (x.toNat * 2 ^ 4 + 11))))) := by simp only [put]; omega
  have v6 : 11 < 2 ^ 4 := by decide
  have b6 := v6
  have v5 : x.toNat < 2 ^ 1 := bool_lt x
  have b5 := field_bound (lo := 4) b6 v5
  have v4 : m.val < 2 ^ 6 := m.isLt
  have b4 := field_bound (lo := 5) b5 v4
  have v3 : 0 < 2 ^ 5 := by decide
  have b3 := field_bound (lo := 11) b4 v3
  have v2 : a.val < 2 ^ 5 := a.isLt
  have b2 := field_bound (lo := 16) b3 v2
  have v1 : d.val < 2 ^ 5 := d.isLt
  have b1 := field_bound (lo := 21) b2 v1
  have v0 : 28 < 2 ^ 6 := by decide
  have b0 := field_bound (lo := 26) b1 v0
  have f0 := field_hit (lo := 26) b1 v0
  have f1 := field_skip (v := 28) (lo := 26) (by decide) (field_hit (lo := 21) b2 v1)
  have f2 := field_skip (v := 28) (lo := 26) (by decide) (field_skip (v := d.val) (lo := 21) (by decide) (field_hit (lo := 16) b3 v2))
  have f3 := field_skip (v := 28) (lo := 26) (by decide) (field_skip (v := d.val) (lo := 21) (by decide) (field_skip (v := a.val) (lo := 16) (by decide) (field_hit (lo := 11) b4 v3)))
  have f4 := field_skip (v := 28) (lo := 26) (by decide) (field_skip (v := d.val) (lo := 21) (by decide) (field_skip (v := a.val) (lo := 16) (by decide) (field_skip (v := 0) (lo := 11) (by decide) (field_hit (lo := 5) b5 v4))))
  have f5 := field_skip (v := 28) (lo := 26) (by decide) (field_skip (v := d.val) (lo := 21) (by decide) (field_skip (v := a.val) (lo := 16) (by decide) (field_skip (v := 0) (lo := 11) (by decide) (field_skip (v := m.val) (lo := 5) (by decide) (field_hit (lo := 4) b6 v5)))))
  have f6 := field_skip_low (v := 28) (lo := 26) (by decide) (field_skip_low (v := d.val) (lo := 21) (by decide) (field_skip_low (v := a.val) (lo := 16) (by decide) (field_skip_low (v := 0) (lo := 11) (by decide) (field_skip_low (v := m.val) (lo := 5) (by decide) (field_skip_low (v := x.toNat) (lo := 4) (by decide) (Nat.mod_eq_of_lt v6))))))
  refine word_eq e (word_back b0 f0 (by decide) (by decide) ((major_1c f0).trans ?_) hw)
  iterate 7 refine (if_neg (other_value f6 (by decide))).trans ?_
  iterate 4 refine (if_neg (fun c => other_value f6 (by decide) c.1)).trans ?_
  refine (if_pos ⟨f6, f3⟩).trans ?_
  rw [fin32_eq d f1, fin32_eq a f2, fin64_eq m f4, bit1_eq x f5]

theorem vcvt (d : Reg) (a : Reg) (t : Fin 16) (m : MaskF) (x : Bool) : Statement (Instr.vcvt d a t m x) := fun hw => by
  have e : put 0x7000000c [(d.val, 21), (a.val, 16), (t.val, 11), (m.val, 5), (x.toNat, 4)] = 28 * 2 ^ 26 + (d.val * 2 ^ 21 + (a.val * 2 ^ 16 + (0 * 2 ^ 15 + (t.val * 2 ^ 11 + (m.val * 2 ^ 5 + (x.toNat * 2 ^ 4 + 12)))))) := by simp only [put]; omega
  have v7 : 12 < 2 ^ 4 := by decide
  have b7 := v7
  have v6 : x.toNat < 2 ^ 1 := bool_lt x
  have b6 := field_bound (lo := 4) b7 v6
  have v5 : m.val < 2 ^ 6 := m.isLt
  have b5 := field_bound (lo := 5) b6 v5
  have v4 : t.val < 2 ^ 4 := t.isLt
  have b4 := field_bound (lo := 11) b5 v4
  have v3 : 0 < 2 ^ 1 := by decide
  have b3 := field_bound (lo := 15) b4 v3
  have v2 : a.val < 2 ^ 5 := a.isLt
  have b2 := field_bound (lo := 16) b3 v2
  have v1 : d.val < 2 ^ 5 := d.isLt
  have b1 := field_bound (lo := 21) b2 v1
  have v0 : 28 < 2 ^ 6 := by decide
  have b0 := field_bound (lo := 26) b1 v0
  have f0 := field_hit (lo := 26) b1 v0
  have f1 := field_skip (v := 28) (lo := 26) (by decide) (field_hit (lo := 21) b2 v1)
  have f2 := field_skip (v := 28) (lo := 26) (by decide) (field_skip (v := d.val) (lo := 21) (by decide) (field_hit (lo := 16) b3 v2))
  have f3 := field_skip (v := 28) (lo := 26) (by decide) (field_skip (v := d.val) (lo := 21) (by decide) (field_skip (v := a.val) (lo := 16) (by decide) (field_hit (lo := 15) b4 v3)))
  have f4 := field_skip (v := 28) (lo := 26) (by decide) (field_skip (v := d.val) (lo := 21) (by decide) (field_skip (v := a.val) (lo := 16) (by decide) (field_skip (v := 0) (lo := 15) (by decide) (field_hit (lo := 11) b5 v4))))
  have f5 := field_skip (v := 28) (lo := 26) (by decide) (field_skip (v := d.val) (lo := 21) (by decide) (field_skip (v := a.val) (lo := 16) (by decide) (field_skip (v := 0) (lo := 15) (by decide) (field_skip (v := t.val) (lo := 11) (by decide) (field_hit (lo := 5) b6 v5)))))
  have f6 := field_skip (v := 28) (lo := 26) (by decide) (field_skip (v := d.val) (lo := 21) (by decide) (field_skip (v := a.val) (lo := 16) (by decide) (field_skip (v := 0) (lo := 15) (by decide) (field_skip (v := t.val) (lo := 11) (by decide) (field_skip (v := m.val) (lo := 5) (by decide) (field_hit (lo := 4) b7 v6))))))
  have f7 := field_skip_low (v := 28) (lo := 26) (by decide) (field_skip_low (v := d.val) (lo := 21) (by decide) (field_skip_low (v := a.val) (lo := 16) (by decide) (field_skip_low (v := 0) (lo := 15) (by decide) (field_skip_low (v := t.val) (lo := 11) (by decide) (field_skip_low (v := m.val) (lo := 5) (by decide) (field_skip_low (v := x.toNat) (lo := 4) (by decide) (Nat.mod_eq_of_lt v7)))))))
  refine word_eq e (word_back b0 f0 (by decide) (by decide) ((major_1c f0).trans ?_) hw)
  iterate 7 refine (if_neg (other_value f7 (by decide))).trans ?_
  iterate 5 refine (if_neg (fun c => other_value f7 (by decide) c.1)).trans ?_
  refine (if_pos ⟨f7, f3⟩).trans ?_
  rw [fin32_eq d f1, fin32_eq a f2, finOf_eq t f4, fin64_eq m f5, bit1_eq x f6]

theorem vfaddVS (d : Reg) (a : Reg) (b : Reg) (m : MaskF) (x : Bool) : Statement (Instr.vfaddVS d a b m x) := fun hw => by
  have e : put 0x74000000 [(d.val, 21), (a.val, 16), (b.val, 11), (m.val, 5), (x.toNat, 4)] = 29 * 2 ^ 26 + (d.val * 2 ^ 21 + (a.val * 2 ^ 16 + (b.val * 2 ^ 11 + (m.val * 2 ^ 5 + (x.toNat * 2 ^ 4 + 0))))) := by simp only [put]; omega
  have v6 : 0 < 2 ^ 4 := by decide
  have b6 := v6
  have v5 : x.toNat < 2 ^ 1 := bool_lt x
  have b5 := field_bound (lo := 4) b6 v5
  have v4 : m.val < 2 ^ 6 := m.isLt
  have b4 := field_bound (lo := 5) b5 v4
  have v3 : b.val < 2 ^ 5 := b.isLt
  have b3 := field_bound (lo := 11) b4 v3
  have v2 : a.val < 2 ^ 5 := a.isLt
  have b2 := field_bound (lo := 16) b3 v2
  have v1 : d.val < 2 ^ 5 := d.isLt
  have b1 := field_bound (lo := 21) b2 v1
  have v0 : 29 < 2 ^ 6 := by decide
  have b0 := field_bound (lo := 26) b1 v0
  have f0 := field_hit (lo := 26) b1 v0
  have f1 := field_skip (v := 29) (lo := 26) (by decide) (field_hit (lo := 21) b2 v1)
  have f2 := field_skip (v := 29) (lo := 26) (by decide) (field_skip (v := d.val) (lo := 21) (by decide) (field_hit (lo := 16) b3 v2))
  have f3 := field_skip (v := 29) (lo := 26) (by decide) (field_skip (v := d.val) (lo := 21) (by decide) (field_skip (v := a.val) (lo := 16) (by decide) (field_hit (lo := 11) b4 v3)))
  have f4 := field_skip (v := 29) (lo := 26) (by decide) (field_skip (v := d.val) (lo := 21) (by decide) (field_skip (v := a.val) (lo := 16) (by decide) (field_skip (v := b.val) (lo := 11) (by decide) (field_hit (lo := 5) b5 v4))))
  have f5 := field_skip (v := 29) (lo := 26) (by decide) (field_skip (v := d.val) (lo := 21) (by decide) (field_skip (v := a.val) (lo := 16) (by decide) (field_skip (v := b.val) (lo := 11) (by decide) (field_skip (v := m.val) (lo := 5) (by decide) (field_hit (lo := 4) b6 v5)))))
  have f6 := field_skip_low (v := 29) (lo := 26) (by decide) (field_skip_low (v := d.val) (lo := 21) (by decide) (field_skip_low (v := a.val) (lo := 16) (by decide) (field_skip_low (v := b.val) (lo := 11) (by decide) (field_skip_low (v := m.val) (lo := 5) (by decide) (field_skip_low (v := x.toNat) (lo := 4) (by decide) (Nat.mod_eq_of_lt v6))))))
  refine word_eq e (word_back b0 f0 (by decide) (by decide) ((major_1d f0).trans ?_) hw)
  refine (if_pos f6).trans ?_
  rw [fin32_eq d f1, fin32_eq a f2, fin32_eq b f3, fin64_eq m f4, bit1_eq x f5]

theorem vfsubVS (d : Reg) (a : Reg) (b : Reg) (m : MaskF) (x : Bool) : Statement (Instr.vfsubVS d a b m x) := fun hw => by
  have e : put 0x74000001 [(d.val, 21), (a.val, 16), (b.val, 11), (m.val, 5), (x.toNat, 4)] = 29 * 2 ^ 26 + (d.val * 2 ^ 21 + (a.val * 2 ^ 16 + (b.val * 2 ^ 11 + (m.val * 2 ^ 5 + (x.toNat * 2 ^ 4 + 1))))) := by simp only [put]; omega
  have v6 : 1 < 2 ^ 4 := by decide
  have b6 := v6
  have v5 : x.toNat < 2 ^ 1 := bool_lt x
  have b5 := field_bound (lo := 4) b6 v5
  have v4 : m.val < 2 ^ 6 := m.isLt
  have b4 := field_bound (lo := 5) b5 v4
  have v3 : b.val < 2 ^ 5 := b.isLt
  have b3 := field_bound (lo := 11) b4 v3
  have v2 : a.val < 2 ^ 5 := a.isLt
  have b2 := field_bound (lo := 16) b3 v2
  have v1 : d.val < 2 ^ 5 := d.isLt
  have b1 := field_bound (lo := 21) b2 v1
  have v0 : 29 < 2 ^ 6 := by decide
  have b0 := field_bound (lo := 26) b1 v0
  have f0 := field_hit (lo := 26) b1 v0
  have f1 := field_skip (v := 29) (lo := 26) (by decide) (field_hit (lo := 21) b2 v1)
  have f2 := field_skip (v := 29) (lo := 26) (by decide) (field_skip (v := d.val) (lo := 21) (by decide) (field_hit (lo := 16) b3 v2))
  have f3 := field_skip (v := 29) (lo := 26) (by decide) (field_skip (v := d.val) (lo := 21) (by decide) (field_skip (v := a.val) (lo := 16) (by decide) (field_hit (lo := 11) b4 v3)))
  have f4 := field_skip (v := 29) (lo := 26) (by decide) (field_skip (v := d.val) (lo := 21) (by decide) (field_skip (v := a.val) (lo := 16) (by decide) (field_skip (v := b.val) (lo := 11) (by decide) (field_hit (lo := 5) b5 v4))))
  have f5 := field_skip (v := 29) (lo := 26) (by decide) (field_skip (v := d.val) (lo := 21) (by decide) (field_skip (v := a.val) (lo := 16) (by decide) (field_skip (v := b.val) (lo := 11) (by decide) (field_skip (v := m.val) (lo := 5) (by decide) (field_hit (lo := 4) b6 v5)))))
  have f6 := field_skip_low (v := 29) (lo := 26) (by decide) (field_skip_low (v := d.val) (lo := 21) (by decide) (field_skip_low (v := a.val) (lo := 16) (by decide) (field_skip_low (v := b.val) (lo := 11) (by decide) (field_skip_low (v := m.val) (lo := 5) (by decide) (field_skip_low (v := x.toNat) (lo := 4) (by decide) (Nat.mod_eq_of_lt v6))))))
  refine word_eq e (word_back b0 f0 (by decide) (by decide) ((major_1d f0).trans ?_) hw)
  refine (if_neg (other_value f6 (by decide))).trans ?_
  refine (if_pos f6).trans ?_
  rw [fin32_eq d f1, fin32_eq a f2, fin32_eq b f3, fin64_eq m f4, bit1_eq x f5]

theorem vfmulVS (d : Reg) (a : Reg) (b : Reg) (m : MaskF) (x : Bool) : Statement (Instr.vfmulVS d a b m x) := fun hw => by
  have e : put 0x74000002 [(d.val, 21), (a.val, 16), (b.val, 11), (m.val, 5), (x.toNat, 4)] = 29 * 2 ^ 26 + (d.val * 2 ^ 21 + (a.val * 2 ^ 16 + (b.val * 2 ^ 11 + (m.val * 2 ^ 5 + (x.toNat * 2 ^ 4 + 2))))) := by simp only [put]; omega
  have v6 : 2 < 2 ^ 4 := by decide
  have b6 := v6
  have v5 : x.toNat < 2 ^ 1 := bool_lt x
  have b5 := field_bound (lo := 4) b6 v5
  have v4 : m.val < 2 ^ 6 := m.isLt
  have b4 := field_bound (lo := 5) b5 v4
  have v3 : b.val < 2 ^ 5 := b.isLt
  have b3 := field_bound (lo := 11) b4 v3
  have v2 : a.val < 2 ^ 5 := a.isLt
  have b2 := field_bound (lo := 16) b3 v2
  have v1 : d.val < 2 ^ 5 := d.isLt
  have b1 := field_bound (lo := 21) b2 v1
  have v0 : 29 < 2 ^ 6 := by decide
  have b0 := field_bound (lo := 26) b1 v0
  have f0 := field_hit (lo := 26) b1 v0
  have f1 := field_skip (v := 29) (lo := 26) (by decide) (field_hit (lo := 21) b2 v1)
  have f2 := field_skip (v := 29) (lo := 26) (by decide) (field_skip (v := d.val) (lo := 21) (by decide) (field_hit (lo := 16) b3 v2))
  have f3 := field_skip (v := 29) (lo := 26) (by decide) (field_skip (v := d.val) (lo := 21) (by decide) (field_skip (v := a.val) (lo := 16) (by decide) (field_hit (lo := 11) b4 v3)))
  have f4 := field_skip (v := 29) (lo := 26) (by decide) (field_skip (v := d.val) (lo := 21) (by decide) (field_skip (v := a.val) (lo := 16) (by decide) (field_skip (v := b.val) (lo := 11) (by decide) (field_hit (lo := 5) b5 v4))))
  have f5 := field_skip (v := 29) (lo := 26) (by decide) (field_skip (v := d.val) (lo := 21) (by decide) (field_skip (v := a.val) (lo := 16) (by decide) (field_skip (v := b.val) (lo := 11) (by decide) (field_skip (v := m.val) (lo := 5) (by decide) (field_hit (lo := 4) b6 v5)))))
  have f6 := field_skip_low (v := 29) (lo := 26) (by decide) (field_skip_low (v := d.val) (lo := 21) (by decide) (field_skip_low (v := a.val) (lo := 16) (by decide) (field_skip_low (v := b.val) (lo := 11) (by decide) (field_skip_low (v := m.val) (lo := 5) (by decide) (field_skip_low (v := x.toNat) (lo := 4) (by decide) (Nat.mod_eq_of_lt v6))))))
  refine word_eq e (word_back b0 f0 (by decide) (by decide) ((major_1d f0).trans ?_) hw)
  iterate 2 refine (if_neg (other_value f6 (by decide))).trans ?_
  refine (if_pos f6).trans ?_
  rw [fin32_eq d f1, fin32_eq a f2, fin32_eq b f3, fin64_eq m f4, bit1_eq x f5]

theorem vfdivVS (d : Reg) (a : Reg) (b : Reg) (m : MaskF) (x : Bool) : Statement (Instr.vfdivVS d a b m x) := fun hw => by
  have e : put 0x74000003 [(d.val, 21), (a.val, 16), (b.val, 11), (m.val, 5), (x.toNat, 4)] = 29 * 2 ^ 26 + (d.val * 2 ^ 21 + (a.val * 2 ^ 16 + (b.val * 2 ^ 11 + (m.val * 2 ^ 5 + (x.toNat * 2 ^ 4 + 3))))) := by simp only [put]; omega
  have v6 : 3 < 2 ^ 4 := by decide
  have b6 := v6
  have v5 : x.toNat < 2 ^ 1 := bool_lt x
  have b5 := field_bound (lo := 4) b6 v5
  have v4 : m.val < 2 ^ 6 := m.isLt
  have b4 := field_bound (lo := 5) b5 v4
  have v3 : b.val < 2 ^ 5 := b.isLt
  have b3 := field_bound (lo := 11) b4 v3
  have v2 : a.val < 2 ^ 5 := a.isLt
  have b2 := field_bound (lo := 16) b3 v2
  have v1 : d.val < 2 ^ 5 := d.isLt
  have b1 := field_bound (lo := 21) b2 v1
  have v0 : 29 < 2 ^ 6 := by decide
  have b0 := field_bound (lo := 26) b1 v0
  have f0 := field_hit (lo := 26) b1 v0
  have f1 := field_skip (v := 29) (lo := 26) (by decide) (field_hit (lo := 21) b2 v1)
  have f2 := field_skip (v := 29) (lo := 26) (by decide) (field_skip (v := d.val) (lo := 21) (by decide) (field_hit (lo := 16) b3 v2))
  have f3 := field_skip (v := 29) (lo := 26) (by decide) (field_skip (v := d.val) (lo := 21) (by decide) (field_skip (v := a.val) (lo := 16) (by decide) (field_hit (lo := 11) b4 v3)))
  have f4 := field_skip (v := 29) (lo := 26) (by decide) (field_skip (v := d.val) (lo := 21) (by decide) (field_skip (v := a.val) (lo := 16) (by decide) (field_skip (v := b.val) (lo := 11) (by decide) (field_hit (lo := 5) b5 v4))))
  have f5 := field_skip (v := 29) (lo := 26) (by decide) (field_skip (v := d.val) (lo := 21) (by decide) (field_skip (v := a.val) (lo := 16) (by decide) (field_skip (v := b.val) (lo := 11) (by decide) (field_skip (v := m.val) (lo := 5) (by decide) (field_hit (lo := 4) b6 v5)))))
  have f6 := field_skip_low (v := 29) (lo := 26) (by decide) (field_skip_low (v := d.val) (lo := 21) (by decide) (field_skip_low (v := a.val) (lo := 16) (by decide) (field_skip_low (v := b.val) (lo := 11) (by decide) (field_skip_low (v := m.val) (lo := 5) (by decide) (field_skip_low (v := x.toNat) (lo := 4) (by decide) (Nat.mod_eq_of_lt v6))))))
  refine word_eq e (word_back b0 f0 (by decide) (by decide) ((major_1d f0).trans ?_) hw)
  iterate 3 refine (if_neg (other_value f6 (by decide))).trans ?_
  refine (if_pos f6).trans ?_
  rw [fin32_eq d f1, fin32_eq a f2, fin32_eq b f3, fin64_eq m f4, bit1_eq x f5]

theorem vfmaVS (d : Reg) (a : Reg) (b : Reg) (m : MaskF) (x : Bool) : Statement (Instr.vfmaVS d a b m x) := fun hw => by
  have e : put 0x74000004 [(d.val, 21), (a.val, 16), (b.val, 11), (m.val, 5), (x.toNat, 4)] = 29 * 2 ^ 26 + (d.val * 2 ^ 21 + (a.val * 2 ^ 16 + (b.val * 2 ^ 11 + (m.val * 2 ^ 5 + (x.toNat * 2 ^ 4 + 4))))) := by simp only [put]; omega
  have v6 : 4 < 2 ^ 4 := by decide
  have b6 := v6
  have v5 : x.toNat < 2 ^ 1 := bool_lt x
  have b5 := field_bound (lo := 4) b6 v5
  have v4 : m.val < 2 ^ 6 := m.isLt
  have b4 := field_bound (lo := 5) b5 v4
  have v3 : b.val < 2 ^ 5 := b.isLt
  have b3 := field_bound (lo := 11) b4 v3
  have v2 : a.val < 2 ^ 5 := a.isLt
  have b2 := field_bound (lo := 16) b3 v2
  have v1 : d.val < 2 ^ 5 := d.isLt
  have b1 := field_bound (lo := 21) b2 v1
  have v0 : 29 < 2 ^ 6 := by decide
  have b0 := field_bound (lo := 26) b1 v0
  have f0 := field_hit (lo := 26) b1 v0
  have f1 := field_skip (v := 29) (lo := 26) (by decide) (field_hit (lo := 21) b2 v1)
  have f2 := field_skip (v := 29) (lo := 26) (by decide) (field_skip (v := d.val) (lo := 21) (by decide) (field_hit (lo := 16) b3 v2))
  have f3 := field_skip (v := 29) (lo := 26) (by decide) (field_skip (v := d.val) (lo := 21) (by decide) (field_skip (v := a.val) (lo := 16) (by decide) (field_hit (lo := 11) b4 v3)))
  have f4 := field_skip (v := 29) (lo := 26) (by decide) (field_skip (v := d.val) (lo := 21) (by decide) (field_skip (v := a.val) (lo := 16) (by decide) (field_skip (v := b.val) (lo := 11) (by decide) (field_hit (lo := 5) b5 v4))))
  have f5 := field_skip (v := 29) (lo := 26) (by decide) (field_skip (v := d.val) (lo := 21) (by decide) (field_skip (v := a.val) (lo := 16) (by decide) (field_skip (v := b.val) (lo := 11) (by decide) (field_skip (v := m.val) (lo := 5) (by decide) (field_hit (lo := 4) b6 v5)))))
  have f6 := field_skip_low (v := 29) (lo := 26) (by decide) (field_skip_low (v := d.val) (lo := 21) (by decide) (field_skip_low (v := a.val) (lo := 16) (by decide) (field_skip_low (v := b.val) (lo := 11) (by decide) (field_skip_low (v := m.val) (lo := 5) (by decide) (field_skip_low (v := x.toNat) (lo := 4) (by decide) (Nat.mod_eq_of_lt v6))))))
  refine word_eq e (word_back b0 f0 (by decide) (by decide) ((major_1d f0).trans ?_) hw)
  iterate 4 refine (if_neg (other_value f6 (by decide))).trans ?_
  refine (if_pos f6).trans ?_
  rw [fin32_eq d f1, fin32_eq a f2, fin32_eq b f3, fin64_eq m f4, bit1_eq x f5]

theorem vfminVS (d : Reg) (a : Reg) (b : Reg) (m : MaskF) (x : Bool) : Statement (Instr.vfminVS d a b m x) := fun hw => by
  have e : put 0x74000005 [(d.val, 21), (a.val, 16), (b.val, 11), (m.val, 5), (x.toNat, 4)] = 29 * 2 ^ 26 + (d.val * 2 ^ 21 + (a.val * 2 ^ 16 + (b.val * 2 ^ 11 + (m.val * 2 ^ 5 + (x.toNat * 2 ^ 4 + 5))))) := by simp only [put]; omega
  have v6 : 5 < 2 ^ 4 := by decide
  have b6 := v6
  have v5 : x.toNat < 2 ^ 1 := bool_lt x
  have b5 := field_bound (lo := 4) b6 v5
  have v4 : m.val < 2 ^ 6 := m.isLt
  have b4 := field_bound (lo := 5) b5 v4
  have v3 : b.val < 2 ^ 5 := b.isLt
  have b3 := field_bound (lo := 11) b4 v3
  have v2 : a.val < 2 ^ 5 := a.isLt
  have b2 := field_bound (lo := 16) b3 v2
  have v1 : d.val < 2 ^ 5 := d.isLt
  have b1 := field_bound (lo := 21) b2 v1
  have v0 : 29 < 2 ^ 6 := by decide
  have b0 := field_bound (lo := 26) b1 v0
  have f0 := field_hit (lo := 26) b1 v0
  have f1 := field_skip (v := 29) (lo := 26) (by decide) (field_hit (lo := 21) b2 v1)
  have f2 := field_skip (v := 29) (lo := 26) (by decide) (field_skip (v := d.val) (lo := 21) (by decide) (field_hit (lo := 16) b3 v2))
  have f3 := field_skip (v := 29) (lo := 26) (by decide) (field_skip (v := d.val) (lo := 21) (by decide) (field_skip (v := a.val) (lo := 16) (by decide) (field_hit (lo := 11) b4 v3)))
  have f4 := field_skip (v := 29) (lo := 26) (by decide) (field_skip (v := d.val) (lo := 21) (by decide) (field_skip (v := a.val) (lo := 16) (by decide) (field_skip (v := b.val) (lo := 11) (by decide) (field_hit (lo := 5) b5 v4))))
  have f5 := field_skip (v := 29) (lo := 26) (by decide) (field_skip (v := d.val) (lo := 21) (by decide) (field_skip (v := a.val) (lo := 16) (by decide) (field_skip (v := b.val) (lo := 11) (by decide) (field_skip (v := m.val) (lo := 5) (by decide) (field_hit (lo := 4) b6 v5)))))
  have f6 := field_skip_low (v := 29) (lo := 26) (by decide) (field_skip_low (v := d.val) (lo := 21) (by decide) (field_skip_low (v := a.val) (lo := 16) (by decide) (field_skip_low (v := b.val) (lo := 11) (by decide) (field_skip_low (v := m.val) (lo := 5) (by decide) (field_skip_low (v := x.toNat) (lo := 4) (by decide) (Nat.mod_eq_of_lt v6))))))
  refine word_eq e (word_back b0 f0 (by decide) (by decide) ((major_1d f0).trans ?_) hw)
  iterate 5 refine (if_neg (other_value f6 (by decide))).trans ?_
  refine (if_pos f6).trans ?_
  rw [fin32_eq d f1, fin32_eq a f2, fin32_eq b f3, fin64_eq m f4, bit1_eq x f5]

theorem vfmaxVS (d : Reg) (a : Reg) (b : Reg) (m : MaskF) (x : Bool) : Statement (Instr.vfmaxVS d a b m x) := fun hw => by
  have e : put 0x74000006 [(d.val, 21), (a.val, 16), (b.val, 11), (m.val, 5), (x.toNat, 4)] = 29 * 2 ^ 26 + (d.val * 2 ^ 21 + (a.val * 2 ^ 16 + (b.val * 2 ^ 11 + (m.val * 2 ^ 5 + (x.toNat * 2 ^ 4 + 6))))) := by simp only [put]; omega
  have v6 : 6 < 2 ^ 4 := by decide
  have b6 := v6
  have v5 : x.toNat < 2 ^ 1 := bool_lt x
  have b5 := field_bound (lo := 4) b6 v5
  have v4 : m.val < 2 ^ 6 := m.isLt
  have b4 := field_bound (lo := 5) b5 v4
  have v3 : b.val < 2 ^ 5 := b.isLt
  have b3 := field_bound (lo := 11) b4 v3
  have v2 : a.val < 2 ^ 5 := a.isLt
  have b2 := field_bound (lo := 16) b3 v2
  have v1 : d.val < 2 ^ 5 := d.isLt
  have b1 := field_bound (lo := 21) b2 v1
  have v0 : 29 < 2 ^ 6 := by decide
  have b0 := field_bound (lo := 26) b1 v0
  have f0 := field_hit (lo := 26) b1 v0
  have f1 := field_skip (v := 29) (lo := 26) (by decide) (field_hit (lo := 21) b2 v1)
  have f2 := field_skip (v := 29) (lo := 26) (by decide) (field_skip (v := d.val) (lo := 21) (by decide) (field_hit (lo := 16) b3 v2))
  have f3 := field_skip (v := 29) (lo := 26) (by decide) (field_skip (v := d.val) (lo := 21) (by decide) (field_skip (v := a.val) (lo := 16) (by decide) (field_hit (lo := 11) b4 v3)))
  have f4 := field_skip (v := 29) (lo := 26) (by decide) (field_skip (v := d.val) (lo := 21) (by decide) (field_skip (v := a.val) (lo := 16) (by decide) (field_skip (v := b.val) (lo := 11) (by decide) (field_hit (lo := 5) b5 v4))))
  have f5 := field_skip (v := 29) (lo := 26) (by decide) (field_skip (v := d.val) (lo := 21) (by decide) (field_skip (v := a.val) (lo := 16) (by decide) (field_skip (v := b.val) (lo := 11) (by decide) (field_skip (v := m.val) (lo := 5) (by decide) (field_hit (lo := 4) b6 v5)))))
  have f6 := field_skip_low (v := 29) (lo := 26) (by decide) (field_skip_low (v := d.val) (lo := 21) (by decide) (field_skip_low (v := a.val) (lo := 16) (by decide) (field_skip_low (v := b.val) (lo := 11) (by decide) (field_skip_low (v := m.val) (lo := 5) (by decide) (field_skip_low (v := x.toNat) (lo := 4) (by decide) (Nat.mod_eq_of_lt v6))))))
  refine word_eq e (word_back b0 f0 (by decide) (by decide) ((major_1d f0).trans ?_) hw)
  iterate 6 refine (if_neg (other_value f6 (by decide))).trans ?_
  refine (if_pos f6).trans ?_
  rw [fin32_eq d f1, fin32_eq a f2, fin32_eq b f3, fin64_eq m f4, bit1_eq x f5]

theorem vcmpEqVV (d : MaskF) (a : Reg) (b : Reg) (m : MaskF) : Statement (Instr.vcmpEqVV d a b m) := fun hw => by
  have e : put 0x78000000 [(d.val, 20), (a.val, 15), (b.val, 10), (m.val, 4)] = 30 * 2 ^ 26 + (d.val * 2 ^ 20 + (a.val * 2 ^ 15 + (b.val * 2 ^ 10 + (m.val * 2 ^ 4 + 0)))) := by simp only [put]; omega
  have v5 : 0 < 2 ^ 4 := by decide
  have b5 := v5
  have v4 : m.val < 2 ^ 6 := m.isLt
  have b4 := field_bound (lo := 4) b5 v4
  have v3 : b.val < 2 ^ 5 := b.isLt
  have b3 := field_bound (lo := 10) b4 v3
  have v2 : a.val < 2 ^ 5 := a.isLt
  have b2 := field_bound (lo := 15) b3 v2
  have v1 : d.val < 2 ^ 6 := d.isLt
  have b1 := field_bound (lo := 20) b2 v1
  have v0 : 30 < 2 ^ 6 := by decide
  have b0 := field_bound (lo := 26) b1 v0
  have f0 := field_hit (lo := 26) b1 v0
  have f1 := field_skip (v := 30) (lo := 26) (by decide) (field_hit (lo := 20) b2 v1)
  have f2 := field_skip (v := 30) (lo := 26) (by decide) (field_skip (v := d.val) (lo := 20) (by decide) (field_hit (lo := 15) b3 v2))
  have f3 := field_skip (v := 30) (lo := 26) (by decide) (field_skip (v := d.val) (lo := 20) (by decide) (field_skip (v := a.val) (lo := 15) (by decide) (field_hit (lo := 10) b4 v3)))
  have f4 := field_skip (v := 30) (lo := 26) (by decide) (field_skip (v := d.val) (lo := 20) (by decide) (field_skip (v := a.val) (lo := 15) (by decide) (field_skip (v := b.val) (lo := 10) (by decide) (field_hit (lo := 4) b5 v4))))
  have f5 := field_skip_low (v := 30) (lo := 26) (by decide) (field_skip_low (v := d.val) (lo := 20) (by decide) (field_skip_low (v := a.val) (lo := 15) (by decide) (field_skip_low (v := b.val) (lo := 10) (by decide) (field_skip_low (v := m.val) (lo := 4) (by decide) (Nat.mod_eq_of_lt v5)))))
  refine word_eq e (word_back b0 f0 (by decide) (by decide) ((major_1e f0).trans ?_) hw)
  refine (if_pos f5).trans ?_
  rw [fin64_eq d f1, fin32_eq a f2, fin32_eq b f3, fin64_eq m f4]

theorem vcmpNeVV (d : MaskF) (a : Reg) (b : Reg) (m : MaskF) : Statement (Instr.vcmpNeVV d a b m) := fun hw => by
  have e : put 0x78000001 [(d.val, 20), (a.val, 15), (b.val, 10), (m.val, 4)] = 30 * 2 ^ 26 + (d.val * 2 ^ 20 + (a.val * 2 ^ 15 + (b.val * 2 ^ 10 + (m.val * 2 ^ 4 + 1)))) := by simp only [put]; omega
  have v5 : 1 < 2 ^ 4 := by decide
  have b5 := v5
  have v4 : m.val < 2 ^ 6 := m.isLt
  have b4 := field_bound (lo := 4) b5 v4
  have v3 : b.val < 2 ^ 5 := b.isLt
  have b3 := field_bound (lo := 10) b4 v3
  have v2 : a.val < 2 ^ 5 := a.isLt
  have b2 := field_bound (lo := 15) b3 v2
  have v1 : d.val < 2 ^ 6 := d.isLt
  have b1 := field_bound (lo := 20) b2 v1
  have v0 : 30 < 2 ^ 6 := by decide
  have b0 := field_bound (lo := 26) b1 v0
  have f0 := field_hit (lo := 26) b1 v0
  have f1 := field_skip (v := 30) (lo := 26) (by decide) (field_hit (lo := 20) b2 v1)
  have f2 := field_skip (v := 30) (lo := 26) (by decide) (field_skip (v := d.val) (lo := 20) (by decide) (field_hit (lo := 15) b3 v2))
  have f3 := field_skip (v := 30) (lo := 26) (by decide) (field_skip (v := d.val) (lo := 20) (by decide) (field_skip (v := a.val) (lo := 15) (by decide) (field_hit (lo := 10) b4 v3)))
  have f4 := field_skip (v := 30) (lo := 26) (by decide) (field_skip (v := d.val) (lo := 20) (by decide) (field_skip (v := a.val) (lo := 15) (by decide) (field_skip (v := b.val) (lo := 10) (by decide) (field_hit (lo := 4) b5 v4))))
  have f5 := field_skip_low (v := 30) (lo := 26) (by decide) (field_skip_low (v := d.val) (lo := 20) (by decide) (field_skip_low (v := a.val) (lo := 15) (by decide) (field_skip_low (v := b.val) (lo := 10) (by decide) (field_skip_low (v := m.val) (lo := 4) (by decide) (Nat.mod_eq_of_lt v5)))))
  refine word_eq e (word_back b0 f0 (by decide) (by decide) ((major_1e f0).trans ?_) hw)
  refine (if_neg (other_value f5 (by decide))).trans ?_
  refine (if_pos f5).trans ?_
  rw [fin64_eq d f1, fin32_eq a f2, fin32_eq b f3, fin64_eq m f4]

theorem vcmpLtVV (d : MaskF) (a : Reg) (b : Reg) (m : MaskF) : Statement (Instr.vcmpLtVV d a b m) := fun hw => by
  have e : put 0x78000002 [(d.val, 20), (a.val, 15), (b.val, 10), (m.val, 4)] = 30 * 2 ^ 26 + (d.val * 2 ^ 20 + (a.val * 2 ^ 15 + (b.val * 2 ^ 10 + (m.val * 2 ^ 4 + 2)))) := by simp only [put]; omega
  have v5 : 2 < 2 ^ 4 := by decide
  have b5 := v5
  have v4 : m.val < 2 ^ 6 := m.isLt
  have b4 := field_bound (lo := 4) b5 v4
  have v3 : b.val < 2 ^ 5 := b.isLt
  have b3 := field_bound (lo := 10) b4 v3
  have v2 : a.val < 2 ^ 5 := a.isLt
  have b2 := field_bound (lo := 15) b3 v2
  have v1 : d.val < 2 ^ 6 := d.isLt
  have b1 := field_bound (lo := 20) b2 v1
  have v0 : 30 < 2 ^ 6 := by decide
  have b0 := field_bound (lo := 26) b1 v0
  have f0 := field_hit (lo := 26) b1 v0
  have f1 := field_skip (v := 30) (lo := 26) (by decide) (field_hit (lo := 20) b2 v1)
  have f2 := field_skip (v := 30) (lo := 26) (by decide) (field_skip (v := d.val) (lo := 20) (by decide) (field_hit (lo := 15) b3 v2))
  have f3 := field_skip (v := 30) (lo := 26) (by decide) (field_skip (v := d.val) (lo := 20) (by decide) (field_skip (v := a.val) (lo := 15) (by decide) (field_hit (lo := 10) b4 v3)))
  have f4 := field_skip (v := 30) (lo := 26) (by decide) (field_skip (v := d.val) (lo := 20) (by decide) (field_skip (v := a.val) (lo := 15) (by decide) (field_skip (v := b.val) (lo := 10) (by decide) (field_hit (lo := 4) b5 v4))))
  have f5 := field_skip_low (v := 30) (lo := 26) (by decide) (field_skip_low (v := d.val) (lo := 20) (by decide) (field_skip_low (v := a.val) (lo := 15) (by decide) (field_skip_low (v := b.val) (lo := 10) (by decide) (field_skip_low (v := m.val) (lo := 4) (by decide) (Nat.mod_eq_of_lt v5)))))
  refine word_eq e (word_back b0 f0 (by decide) (by decide) ((major_1e f0).trans ?_) hw)
  iterate 2 refine (if_neg (other_value f5 (by decide))).trans ?_
  refine (if_pos f5).trans ?_
  rw [fin64_eq d f1, fin32_eq a f2, fin32_eq b f3, fin64_eq m f4]

theorem vcmpLeVV (d : MaskF) (a : Reg) (b : Reg) (m : MaskF) : Statement (Instr.vcmpLeVV d a b m) := fun hw => by
  have e : put 0x78000003 [(d.val, 20), (a.val, 15), (b.val, 10), (m.val, 4)] = 30 * 2 ^ 26 + (d.val * 2 ^ 20 + (a.val * 2 ^ 15 + (b.val * 2 ^ 10 + (m.val * 2 ^ 4 + 3)))) := by simp only [put]; omega
  have v5 : 3 < 2 ^ 4 := by decide
  have b5 := v5
  have v4 : m.val < 2 ^ 6 := m.isLt
  have b4 := field_bound (lo := 4) b5 v4
  have v3 : b.val < 2 ^ 5 := b.isLt
  have b3 := field_bound (lo := 10) b4 v3
  have v2 : a.val < 2 ^ 5 := a.isLt
  have b2 := field_bound (lo := 15) b3 v2
  have v1 : d.val < 2 ^ 6 := d.isLt
  have b1 := field_bound (lo := 20) b2 v1
  have v0 : 30 < 2 ^ 6 := by decide
  have b0 := field_bound (lo := 26) b1 v0
  have f0 := field_hit (lo := 26) b1 v0
  have f1 := field_skip (v := 30) (lo := 26) (by decide) (field_hit (lo := 20) b2 v1)
  have f2 := field_skip (v := 30) (lo := 26) (by decide) (field_skip (v := d.val) (lo := 20) (by decide) (field_hit (lo := 15) b3 v2))
  have f3 := field_skip (v := 30) (lo := 26) (by decide) (field_skip (v := d.val) (lo := 20) (by decide) (field_skip (v := a.val) (lo := 15) (by decide) (field_hit (lo := 10) b4 v3)))
  have f4 := field_skip (v := 30) (lo := 26) (by decide) (field_skip (v := d.val) (lo := 20) (by decide) (field_skip (v := a.val) (lo := 15) (by decide) (field_skip (v := b.val) (lo := 10) (by decide) (field_hit (lo := 4) b5 v4))))
  have f5 := field_skip_low (v := 30) (lo := 26) (by decide) (field_skip_low (v := d.val) (lo := 20) (by decide) (field_skip_low (v := a.val) (lo := 15) (by decide) (field_skip_low (v := b.val) (lo := 10) (by decide) (field_skip_low (v := m.val) (lo := 4) (by decide) (Nat.mod_eq_of_lt v5)))))
  refine word_eq e (word_back b0 f0 (by decide) (by decide) ((major_1e f0).trans ?_) hw)
  iterate 3 refine (if_neg (other_value f5 (by decide))).trans ?_
  refine (if_pos f5).trans ?_
  rw [fin64_eq d f1, fin32_eq a f2, fin32_eq b f3, fin64_eq m f4]

theorem vcmpUnordVV (d : MaskF) (a : Reg) (b : Reg) (m : MaskF) : Statement (Instr.vcmpUnordVV d a b m) := fun hw => by
  have e : put 0x78000004 [(d.val, 20), (a.val, 15), (b.val, 10), (m.val, 4)] = 30 * 2 ^ 26 + (d.val * 2 ^ 20 + (a.val * 2 ^ 15 + (b.val * 2 ^ 10 + (m.val * 2 ^ 4 + 4)))) := by simp only [put]; omega
  have v5 : 4 < 2 ^ 4 := by decide
  have b5 := v5
  have v4 : m.val < 2 ^ 6 := m.isLt
  have b4 := field_bound (lo := 4) b5 v4
  have v3 : b.val < 2 ^ 5 := b.isLt
  have b3 := field_bound (lo := 10) b4 v3
  have v2 : a.val < 2 ^ 5 := a.isLt
  have b2 := field_bound (lo := 15) b3 v2
  have v1 : d.val < 2 ^ 6 := d.isLt
  have b1 := field_bound (lo := 20) b2 v1
  have v0 : 30 < 2 ^ 6 := by decide
  have b0 := field_bound (lo := 26) b1 v0
  have f0 := field_hit (lo := 26) b1 v0
  have f1 := field_skip (v := 30) (lo := 26) (by decide) (field_hit (lo := 20) b2 v1)
  have f2 := field_skip (v := 30) (lo := 26) (by decide) (field_skip (v := d.val) (lo := 20) (by decide) (field_hit (lo := 15) b3 v2))
  have f3 := field_skip (v := 30) (lo := 26) (by decide) (field_skip (v := d.val) (lo := 20) (by decide) (field_skip (v := a.val) (lo := 15) (by decide) (field_hit (lo := 10) b4 v3)))
  have f4 := field_skip (v := 30) (lo := 26) (by decide) (field_skip (v := d.val) (lo := 20) (by decide) (field_skip (v := a.val) (lo := 15) (by decide) (field_skip (v := b.val) (lo := 10) (by decide) (field_hit (lo := 4) b5 v4))))
  have f5 := field_skip_low (v := 30) (lo := 26) (by decide) (field_skip_low (v := d.val) (lo := 20) (by decide) (field_skip_low (v := a.val) (lo := 15) (by decide) (field_skip_low (v := b.val) (lo := 10) (by decide) (field_skip_low (v := m.val) (lo := 4) (by decide) (Nat.mod_eq_of_lt v5)))))
  refine word_eq e (word_back b0 f0 (by decide) (by decide) ((major_1e f0).trans ?_) hw)
  iterate 4 refine (if_neg (other_value f5 (by decide))).trans ?_
  refine (if_pos f5).trans ?_
  rw [fin64_eq d f1, fin32_eq a f2, fin32_eq b f3, fin64_eq m f4]

theorem vcmpEqVS (d : MaskF) (a : Reg) (b : Reg) (m : MaskF) : Statement (Instr.vcmpEqVS d a b m) := fun hw => by
  have e : put 0x78000008 [(d.val, 20), (a.val, 15), (b.val, 10), (m.val, 4)] = 30 * 2 ^ 26 + (d.val * 2 ^ 20 + (a.val * 2 ^ 15 + (b.val * 2 ^ 10 + (m.val * 2 ^ 4 + 8)))) := by simp only [put]; omega
  have v5 : 8 < 2 ^ 4 := by decide
  have b5 := v5
  have v4 : m.val < 2 ^ 6 := m.isLt
  have b4 := field_bound (lo := 4) b5 v4
  have v3 : b.val < 2 ^ 5 := b.isLt
  have b3 := field_bound (lo := 10) b4 v3
  have v2 : a.val < 2 ^ 5 := a.isLt
  have b2 := field_bound (lo := 15) b3 v2
  have v1 : d.val < 2 ^ 6 := d.isLt
  have b1 := field_bound (lo := 20) b2 v1
  have v0 : 30 < 2 ^ 6 := by decide
  have b0 := field_bound (lo := 26) b1 v0
  have f0 := field_hit (lo := 26) b1 v0
  have f1 := field_skip (v := 30) (lo := 26) (by decide) (field_hit (lo := 20) b2 v1)
  have f2 := field_skip (v := 30) (lo := 26) (by decide) (field_skip (v := d.val) (lo := 20) (by decide) (field_hit (lo := 15) b3 v2))
  have f3 := field_skip (v := 30) (lo := 26) (by decide) (field_skip (v := d.val) (lo := 20) (by decide) (field_skip (v := a.val) (lo := 15) (by decide) (field_hit (lo := 10) b4 v3)))
  have f4 := field_skip (v := 30) (lo := 26) (by decide) (field_skip (v := d.val) (lo := 20) (by decide) (field_skip (v := a.val) (lo := 15) (by decide) (field_skip (v := b.val) (lo := 10) (by decide) (field_hit (lo := 4) b5 v4))))
  have f5 := field_skip_low (v := 30) (lo := 26) (by decide) (field_skip_low (v := d.val) (lo := 20) (by decide) (field_skip_low (v := a.val) (lo := 15) (by decide) (field_skip_low (v := b.val) (lo := 10) (by decide) (field_skip_low (v := m.val) (lo := 4) (by decide) (Nat.mod_eq_of_lt v5)))))
  refine word_eq e (word_back b0 f0 (by decide) (by decide) ((major_1e f0).trans ?_) hw)
  iterate 5 refine (if_neg (other_value f5 (by decide))).trans ?_
  refine (if_pos f5).trans ?_
  rw [fin64_eq d f1, fin32_eq a f2, fin32_eq b f3, fin64_eq m f4]

theorem vcmpNeVS (d : MaskF) (a : Reg) (b : Reg) (m : MaskF) : Statement (Instr.vcmpNeVS d a b m) := fun hw => by
  have e : put 0x78000009 [(d.val, 20), (a.val, 15), (b.val, 10), (m.val, 4)] = 30 * 2 ^ 26 + (d.val * 2 ^ 20 + (a.val * 2 ^ 15 + (b.val * 2 ^ 10 + (m.val * 2 ^ 4 + 9)))) := by simp only [put]; omega
  have v5 : 9 < 2 ^ 4 := by decide
  have b5 := v5
  have v4 : m.val < 2 ^ 6 := m.isLt
  have b4 := field_bound (lo := 4) b5 v4
  have v3 : b.val < 2 ^ 5 := b.isLt
  have b3 := field_bound (lo := 10) b4 v3
  have v2 : a.val < 2 ^ 5 := a.isLt
  have b2 := field_bound (lo := 15) b3 v2
  have v1 : d.val < 2 ^ 6 := d.isLt
  have b1 := field_bound (lo := 20) b2 v1
  have v0 : 30 < 2 ^ 6 := by decide
  have b0 := field_bound (lo := 26) b1 v0
  have f0 := field_hit (lo := 26) b1 v0
  have f1 := field_skip (v := 30) (lo := 26) (by decide) (field_hit (lo := 20) b2 v1)
  have f2 := field_skip (v := 30) (lo := 26) (by decide) (field_skip (v := d.val) (lo := 20) (by decide) (field_hit (lo := 15) b3 v2))
  have f3 := field_skip (v := 30) (lo := 26) (by decide) (field_skip (v := d.val) (lo := 20) (by decide) (field_skip (v := a.val) (lo := 15) (by decide) (field_hit (lo := 10) b4 v3)))
  have f4 := field_skip (v := 30) (lo := 26) (by decide) (field_skip (v := d.val) (lo := 20) (by decide) (field_skip (v := a.val) (lo := 15) (by decide) (field_skip (v := b.val) (lo := 10) (by decide) (field_hit (lo := 4) b5 v4))))
  have f5 := field_skip_low (v := 30) (lo := 26) (by decide) (field_skip_low (v := d.val) (lo := 20) (by decide) (field_skip_low (v := a.val) (lo := 15) (by decide) (field_skip_low (v := b.val) (lo := 10) (by decide) (field_skip_low (v := m.val) (lo := 4) (by decide) (Nat.mod_eq_of_lt v5)))))
  refine word_eq e (word_back b0 f0 (by decide) (by decide) ((major_1e f0).trans ?_) hw)
  iterate 6 refine (if_neg (other_value f5 (by decide))).trans ?_
  refine (if_pos f5).trans ?_
  rw [fin64_eq d f1, fin32_eq a f2, fin32_eq b f3, fin64_eq m f4]

theorem vcmpLtVS (d : MaskF) (a : Reg) (b : Reg) (m : MaskF) : Statement (Instr.vcmpLtVS d a b m) := fun hw => by
  have e : put 0x7800000a [(d.val, 20), (a.val, 15), (b.val, 10), (m.val, 4)] = 30 * 2 ^ 26 + (d.val * 2 ^ 20 + (a.val * 2 ^ 15 + (b.val * 2 ^ 10 + (m.val * 2 ^ 4 + 10)))) := by simp only [put]; omega
  have v5 : 10 < 2 ^ 4 := by decide
  have b5 := v5
  have v4 : m.val < 2 ^ 6 := m.isLt
  have b4 := field_bound (lo := 4) b5 v4
  have v3 : b.val < 2 ^ 5 := b.isLt
  have b3 := field_bound (lo := 10) b4 v3
  have v2 : a.val < 2 ^ 5 := a.isLt
  have b2 := field_bound (lo := 15) b3 v2
  have v1 : d.val < 2 ^ 6 := d.isLt
  have b1 := field_bound (lo := 20) b2 v1
  have v0 : 30 < 2 ^ 6 := by decide
  have b0 := field_bound (lo := 26) b1 v0
  have f0 := field_hit (lo := 26) b1 v0
  have f1 := field_skip (v := 30) (lo := 26) (by decide) (field_hit (lo := 20) b2 v1)
  have f2 := field_skip (v := 30) (lo := 26) (by decide) (field_skip (v := d.val) (lo := 20) (by decide) (field_hit (lo := 15) b3 v2))
  have f3 := field_skip (v := 30) (lo := 26) (by decide) (field_skip (v := d.val) (lo := 20) (by decide) (field_skip (v := a.val) (lo := 15) (by decide) (field_hit (lo := 10) b4 v3)))
  have f4 := field_skip (v := 30) (lo := 26) (by decide) (field_skip (v := d.val) (lo := 20) (by decide) (field_skip (v := a.val) (lo := 15) (by decide) (field_skip (v := b.val) (lo := 10) (by decide) (field_hit (lo := 4) b5 v4))))
  have f5 := field_skip_low (v := 30) (lo := 26) (by decide) (field_skip_low (v := d.val) (lo := 20) (by decide) (field_skip_low (v := a.val) (lo := 15) (by decide) (field_skip_low (v := b.val) (lo := 10) (by decide) (field_skip_low (v := m.val) (lo := 4) (by decide) (Nat.mod_eq_of_lt v5)))))
  refine word_eq e (word_back b0 f0 (by decide) (by decide) ((major_1e f0).trans ?_) hw)
  iterate 7 refine (if_neg (other_value f5 (by decide))).trans ?_
  refine (if_pos f5).trans ?_
  rw [fin64_eq d f1, fin32_eq a f2, fin32_eq b f3, fin64_eq m f4]

theorem vcmpLeVS (d : MaskF) (a : Reg) (b : Reg) (m : MaskF) : Statement (Instr.vcmpLeVS d a b m) := fun hw => by
  have e : put 0x7800000b [(d.val, 20), (a.val, 15), (b.val, 10), (m.val, 4)] = 30 * 2 ^ 26 + (d.val * 2 ^ 20 + (a.val * 2 ^ 15 + (b.val * 2 ^ 10 + (m.val * 2 ^ 4 + 11)))) := by simp only [put]; omega
  have v5 : 11 < 2 ^ 4 := by decide
  have b5 := v5
  have v4 : m.val < 2 ^ 6 := m.isLt
  have b4 := field_bound (lo := 4) b5 v4
  have v3 : b.val < 2 ^ 5 := b.isLt
  have b3 := field_bound (lo := 10) b4 v3
  have v2 : a.val < 2 ^ 5 := a.isLt
  have b2 := field_bound (lo := 15) b3 v2
  have v1 : d.val < 2 ^ 6 := d.isLt
  have b1 := field_bound (lo := 20) b2 v1
  have v0 : 30 < 2 ^ 6 := by decide
  have b0 := field_bound (lo := 26) b1 v0
  have f0 := field_hit (lo := 26) b1 v0
  have f1 := field_skip (v := 30) (lo := 26) (by decide) (field_hit (lo := 20) b2 v1)
  have f2 := field_skip (v := 30) (lo := 26) (by decide) (field_skip (v := d.val) (lo := 20) (by decide) (field_hit (lo := 15) b3 v2))
  have f3 := field_skip (v := 30) (lo := 26) (by decide) (field_skip (v := d.val) (lo := 20) (by decide) (field_skip (v := a.val) (lo := 15) (by decide) (field_hit (lo := 10) b4 v3)))
  have f4 := field_skip (v := 30) (lo := 26) (by decide) (field_skip (v := d.val) (lo := 20) (by decide) (field_skip (v := a.val) (lo := 15) (by decide) (field_skip (v := b.val) (lo := 10) (by decide) (field_hit (lo := 4) b5 v4))))
  have f5 := field_skip_low (v := 30) (lo := 26) (by decide) (field_skip_low (v := d.val) (lo := 20) (by decide) (field_skip_low (v := a.val) (lo := 15) (by decide) (field_skip_low (v := b.val) (lo := 10) (by decide) (field_skip_low (v := m.val) (lo := 4) (by decide) (Nat.mod_eq_of_lt v5)))))
  refine word_eq e (word_back b0 f0 (by decide) (by decide) ((major_1e f0).trans ?_) hw)
  iterate 8 refine (if_neg (other_value f5 (by decide))).trans ?_
  refine (if_pos f5).trans ?_
  rw [fin64_eq d f1, fin32_eq a f2, fin32_eq b f3, fin64_eq m f4]

theorem vcmpGtVS (d : MaskF) (a : Reg) (b : Reg) (m : MaskF) : Statement (Instr.vcmpGtVS d a b m) := fun hw => by
  have e : put 0x7800000c [(d.val, 20), (a.val, 15), (b.val, 10), (m.val, 4)] = 30 * 2 ^ 26 + (d.val * 2 ^ 20 + (a.val * 2 ^ 15 + (b.val * 2 ^ 10 + (m.val * 2 ^ 4 + 12)))) := by simp only [put]; omega
  have v5 : 12 < 2 ^ 4 := by decide
  have b5 := v5
  have v4 : m.val < 2 ^ 6 := m.isLt
  have b4 := field_bound (lo := 4) b5 v4
  have v3 : b.val < 2 ^ 5 := b.isLt
  have b3 := field_bound (lo := 10) b4 v3
  have v2 : a.val < 2 ^ 5 := a.isLt
  have b2 := field_bound (lo := 15) b3 v2
  have v1 : d.val < 2 ^ 6 := d.isLt
  have b1 := field_bound (lo := 20) b2 v1
  have v0 : 30 < 2 ^ 6 := by decide
  have b0 := field_bound (lo := 26) b1 v0
  have f0 := field_hit (lo := 26) b1 v0
  have f1 := field_skip (v := 30) (lo := 26) (by decide) (field_hit (lo := 20) b2 v1)
  have f2 := field_skip (v := 30) (lo := 26) (by decide) (field_skip (v := d.val) (lo := 20) (by decide) (field_hit (lo := 15) b3 v2))
  have f3 := field_skip (v := 30) (lo := 26) (by decide) (field_skip (v := d.val) (lo := 20) (by decide) (field_skip (v := a.val) (lo := 15) (by decide) (field_hit (lo := 10) b4 v3)))
  have f4 := field_skip (v := 30) (lo := 26) (by decide) (field_skip (v := d.val) (lo := 20) (by decide) (field_skip (v := a.val) (lo := 15) (by decide) (field_skip (v := b.val) (lo := 10) (by decide) (field_hit (lo := 4) b5 v4))))
  have f5 := field_skip_low (v := 30) (lo := 26) (by decide) (field_skip_low (v := d.val) (lo := 20) (by decide) (field_skip_low (v := a.val) (lo := 15) (by decide) (field_skip_low (v := b.val) (lo := 10) (by decide) (field_skip_low (v := m.val) (lo := 4) (by decide) (Nat.mod_eq_of_lt v5)))))
  refine word_eq e (word_back b0 f0 (by decide) (by decide) ((major_1e f0).trans ?_) hw)
  iterate 9 refine (if_neg (other_value f5 (by decide))).trans ?_
  refine (if_pos f5).trans ?_
  rw [fin64_eq d f1, fin32_eq a f2, fin32_eq b f3, fin64_eq m f4]

theorem vcmpGeVS (d : MaskF) (a : Reg) (b : Reg) (m : MaskF) : Statement (Instr.vcmpGeVS d a b m) := fun hw => by
  have e : put 0x7800000d [(d.val, 20), (a.val, 15), (b.val, 10), (m.val, 4)] = 30 * 2 ^ 26 + (d.val * 2 ^ 20 + (a.val * 2 ^ 15 + (b.val * 2 ^ 10 + (m.val * 2 ^ 4 + 13)))) := by simp only [put]; omega
  have v5 : 13 < 2 ^ 4 := by decide
  have b5 := v5
  have v4 : m.val < 2 ^ 6 := m.isLt
  have b4 := field_bound (lo := 4) b5 v4
  have v3 : b.val < 2 ^ 5 := b.isLt
  have b3 := field_bound (lo := 10) b4 v3
  have v2 : a.val < 2 ^ 5 := a.isLt
  have b2 := field_bound (lo := 15) b3 v2
  have v1 : d.val < 2 ^ 6 := d.isLt
  have b1 := field_bound (lo := 20) b2 v1
  have v0 : 30 < 2 ^ 6 := by decide
  have b0 := field_bound (lo := 26) b1 v0
  have f0 := field_hit (lo := 26) b1 v0
  have f1 := field_skip (v := 30) (lo := 26) (by decide) (field_hit (lo := 20) b2 v1)
  have f2 := field_skip (v := 30) (lo := 26) (by decide) (field_skip (v := d.val) (lo := 20) (by decide) (field_hit (lo := 15) b3 v2))
  have f3 := field_skip (v := 30) (lo := 26) (by decide) (field_skip (v := d.val) (lo := 20) (by decide) (field_skip (v := a.val) (lo := 15) (by decide) (field_hit (lo := 10) b4 v3)))
  have f4 := field_skip (v := 30) (lo := 26) (by decide) (field_skip (v := d.val) (lo := 20) (by decide) (field_skip (v := a.val) (lo := 15) (by decide) (field_skip (v := b.val) (lo := 10) (by decide) (field_hit (lo := 4) b5 v4))))
  have f5 := field_skip_low (v := 30) (lo := 26) (by decide) (field_skip_low (v := d.val) (lo := 20) (by decide) (field_skip_low (v := a.val) (lo := 15) (by decide) (field_skip_low (v := b.val) (lo := 10) (by decide) (field_skip_low (v := m.val) (lo := 4) (by decide) (Nat.mod_eq_of_lt v5)))))
  refine word_eq e (word_back b0 f0 (by decide) (by decide) ((major_1e f0).trans ?_) hw)
  iterate 10 refine (if_neg (other_value f5 (by decide))).trans ?_
  refine (if_pos f5).trans ?_
  rw [fin64_eq d f1, fin32_eq a f2, fin32_eq b f3, fin64_eq m f4]

theorem vredsum (d : Reg) (a : Reg) (b : Reg) (m : MaskF) : Statement (Instr.vredsum d a b m) := fun hw => by
  have e : put 0x7c000000 [(d.val, 21), (a.val, 16), (b.val, 11), (m.val, 5)] = 31 * 2 ^ 26 + (d.val * 2 ^ 21 + (a.val * 2 ^ 16 + (b.val * 2 ^ 11 + (m.val * 2 ^ 5 + 0)))) := by simp only [put]; omega
  have v5 : 0 < 2 ^ 5 := by decide
  have b5 := v5
  have v4 : m.val < 2 ^ 6 := m.isLt
  have b4 := field_bound (lo := 5) b5 v4
  have v3 : b.val < 2 ^ 5 := b.isLt
  have b3 := field_bound (lo := 11) b4 v3
  have v2 : a.val < 2 ^ 5 := a.isLt
  have b2 := field_bound (lo := 16) b3 v2
  have v1 : d.val < 2 ^ 5 := d.isLt
  have b1 := field_bound (lo := 21) b2 v1
  have v0 : 31 < 2 ^ 6 := by decide
  have b0 := field_bound (lo := 26) b1 v0
  have f0 := field_hit (lo := 26) b1 v0
  have f1 := field_skip (v := 31) (lo := 26) (by decide) (field_hit (lo := 21) b2 v1)
  have f2 := field_skip (v := 31) (lo := 26) (by decide) (field_skip (v := d.val) (lo := 21) (by decide) (field_hit (lo := 16) b3 v2))
  have f3 := field_skip (v := 31) (lo := 26) (by decide) (field_skip (v := d.val) (lo := 21) (by decide) (field_skip (v := a.val) (lo := 16) (by decide) (field_hit (lo := 11) b4 v3)))
  have f4 := field_skip (v := 31) (lo := 26) (by decide) (field_skip (v := d.val) (lo := 21) (by decide) (field_skip (v := a.val) (lo := 16) (by decide) (field_skip (v := b.val) (lo := 11) (by decide) (field_hit (lo := 5) b5 v4))))
  have f5 := field_skip_low (v := 31) (lo := 26) (by decide) (field_skip_low (v := d.val) (lo := 21) (by decide) (field_skip_low (v := a.val) (lo := 16) (by decide) (field_skip_low (v := b.val) (lo := 11) (by decide) (field_skip_low (v := m.val) (lo := 5) (by decide) (Nat.mod_eq_of_lt v5)))))
  refine word_eq e (word_back b0 f0 (by decide) (by decide) ((major_1f f0).trans ?_) hw)
  refine (if_pos f5).trans ?_
  rw [fin32_eq d f1, fin32_eq a f2, fin32_eq b f3, fin64_eq m f4]

theorem vredsumo (d : Reg) (a : Reg) (b : Reg) (m : MaskF) : Statement (Instr.vredsumo d a b m) := fun hw => by
  have e : put 0x7c000001 [(d.val, 21), (a.val, 16), (b.val, 11), (m.val, 5)] = 31 * 2 ^ 26 + (d.val * 2 ^ 21 + (a.val * 2 ^ 16 + (b.val * 2 ^ 11 + (m.val * 2 ^ 5 + 1)))) := by simp only [put]; omega
  have v5 : 1 < 2 ^ 5 := by decide
  have b5 := v5
  have v4 : m.val < 2 ^ 6 := m.isLt
  have b4 := field_bound (lo := 5) b5 v4
  have v3 : b.val < 2 ^ 5 := b.isLt
  have b3 := field_bound (lo := 11) b4 v3
  have v2 : a.val < 2 ^ 5 := a.isLt
  have b2 := field_bound (lo := 16) b3 v2
  have v1 : d.val < 2 ^ 5 := d.isLt
  have b1 := field_bound (lo := 21) b2 v1
  have v0 : 31 < 2 ^ 6 := by decide
  have b0 := field_bound (lo := 26) b1 v0
  have f0 := field_hit (lo := 26) b1 v0
  have f1 := field_skip (v := 31) (lo := 26) (by decide) (field_hit (lo := 21) b2 v1)
  have f2 := field_skip (v := 31) (lo := 26) (by decide) (field_skip (v := d.val) (lo := 21) (by decide) (field_hit (lo := 16) b3 v2))
  have f3 := field_skip (v := 31) (lo := 26) (by decide) (field_skip (v := d.val) (lo := 21) (by decide) (field_skip (v := a.val) (lo := 16) (by decide) (field_hit (lo := 11) b4 v3)))
  have f4 := field_skip (v := 31) (lo := 26) (by decide) (field_skip (v := d.val) (lo := 21) (by decide) (field_skip (v := a.val) (lo := 16) (by decide) (field_skip (v := b.val) (lo := 11) (by decide) (field_hit (lo := 5) b5 v4))))
  have f5 := field_skip_low (v := 31) (lo := 26) (by decide) (field_skip_low (v := d.val) (lo := 21) (by decide) (field_skip_low (v := a.val) (lo := 16) (by decide) (field_skip_low (v := b.val) (lo := 11) (by decide) (field_skip_low (v := m.val) (lo := 5) (by decide) (Nat.mod_eq_of_lt v5)))))
  refine word_eq e (word_back b0 f0 (by decide) (by decide) ((major_1f f0).trans ?_) hw)
  refine (if_neg (other_value f5 (by decide))).trans ?_
  refine (if_pos f5).trans ?_
  rw [fin32_eq d f1, fin32_eq a f2, fin32_eq b f3, fin64_eq m f4]

theorem vredmin (d : Reg) (a : Reg) (b : Reg) (m : MaskF) : Statement (Instr.vredmin d a b m) := fun hw => by
  have e : put 0x7c000002 [(d.val, 21), (a.val, 16), (b.val, 11), (m.val, 5)] = 31 * 2 ^ 26 + (d.val * 2 ^ 21 + (a.val * 2 ^ 16 + (b.val * 2 ^ 11 + (m.val * 2 ^ 5 + 2)))) := by simp only [put]; omega
  have v5 : 2 < 2 ^ 5 := by decide
  have b5 := v5
  have v4 : m.val < 2 ^ 6 := m.isLt
  have b4 := field_bound (lo := 5) b5 v4
  have v3 : b.val < 2 ^ 5 := b.isLt
  have b3 := field_bound (lo := 11) b4 v3
  have v2 : a.val < 2 ^ 5 := a.isLt
  have b2 := field_bound (lo := 16) b3 v2
  have v1 : d.val < 2 ^ 5 := d.isLt
  have b1 := field_bound (lo := 21) b2 v1
  have v0 : 31 < 2 ^ 6 := by decide
  have b0 := field_bound (lo := 26) b1 v0
  have f0 := field_hit (lo := 26) b1 v0
  have f1 := field_skip (v := 31) (lo := 26) (by decide) (field_hit (lo := 21) b2 v1)
  have f2 := field_skip (v := 31) (lo := 26) (by decide) (field_skip (v := d.val) (lo := 21) (by decide) (field_hit (lo := 16) b3 v2))
  have f3 := field_skip (v := 31) (lo := 26) (by decide) (field_skip (v := d.val) (lo := 21) (by decide) (field_skip (v := a.val) (lo := 16) (by decide) (field_hit (lo := 11) b4 v3)))
  have f4 := field_skip (v := 31) (lo := 26) (by decide) (field_skip (v := d.val) (lo := 21) (by decide) (field_skip (v := a.val) (lo := 16) (by decide) (field_skip (v := b.val) (lo := 11) (by decide) (field_hit (lo := 5) b5 v4))))
  have f5 := field_skip_low (v := 31) (lo := 26) (by decide) (field_skip_low (v := d.val) (lo := 21) (by decide) (field_skip_low (v := a.val) (lo := 16) (by decide) (field_skip_low (v := b.val) (lo := 11) (by decide) (field_skip_low (v := m.val) (lo := 5) (by decide) (Nat.mod_eq_of_lt v5)))))
  refine word_eq e (word_back b0 f0 (by decide) (by decide) ((major_1f f0).trans ?_) hw)
  iterate 2 refine (if_neg (other_value f5 (by decide))).trans ?_
  refine (if_pos f5).trans ?_
  rw [fin32_eq d f1, fin32_eq a f2, fin32_eq b f3, fin64_eq m f4]

theorem vredmax (d : Reg) (a : Reg) (b : Reg) (m : MaskF) : Statement (Instr.vredmax d a b m) := fun hw => by
  have e : put 0x7c000003 [(d.val, 21), (a.val, 16), (b.val, 11), (m.val, 5)] = 31 * 2 ^ 26 + (d.val * 2 ^ 21 + (a.val * 2 ^ 16 + (b.val * 2 ^ 11 + (m.val * 2 ^ 5 + 3)))) := by simp only [put]; omega
  have v5 : 3 < 2 ^ 5 := by decide
  have b5 := v5
  have v4 : m.val < 2 ^ 6 := m.isLt
  have b4 := field_bound (lo := 5) b5 v4
  have v3 : b.val < 2 ^ 5 := b.isLt
  have b3 := field_bound (lo := 11) b4 v3
  have v2 : a.val < 2 ^ 5 := a.isLt
  have b2 := field_bound (lo := 16) b3 v2
  have v1 : d.val < 2 ^ 5 := d.isLt
  have b1 := field_bound (lo := 21) b2 v1
  have v0 : 31 < 2 ^ 6 := by decide
  have b0 := field_bound (lo := 26) b1 v0
  have f0 := field_hit (lo := 26) b1 v0
  have f1 := field_skip (v := 31) (lo := 26) (by decide) (field_hit (lo := 21) b2 v1)
  have f2 := field_skip (v := 31) (lo := 26) (by decide) (field_skip (v := d.val) (lo := 21) (by decide) (field_hit (lo := 16) b3 v2))
  have f3 := field_skip (v := 31) (lo := 26) (by decide) (field_skip (v := d.val) (lo := 21) (by decide) (field_skip (v := a.val) (lo := 16) (by decide) (field_hit (lo := 11) b4 v3)))
  have f4 := field_skip (v := 31) (lo := 26) (by decide) (field_skip (v := d.val) (lo := 21) (by decide) (field_skip (v := a.val) (lo := 16) (by decide) (field_skip (v := b.val) (lo := 11) (by decide) (field_hit (lo := 5) b5 v4))))
  have f5 := field_skip_low (v := 31) (lo := 26) (by decide) (field_skip_low (v := d.val) (lo := 21) (by decide) (field_skip_low (v := a.val) (lo := 16) (by decide) (field_skip_low (v := b.val) (lo := 11) (by decide) (field_skip_low (v := m.val) (lo := 5) (by decide) (Nat.mod_eq_of_lt v5)))))
  refine word_eq e (word_back b0 f0 (by decide) (by decide) ((major_1f f0).trans ?_) hw)
  iterate 3 refine (if_neg (other_value f5 (by decide))).trans ?_
  refine (if_pos f5).trans ?_
  rw [fin32_eq d f1, fin32_eq a f2, fin32_eq b f3, fin64_eq m f4]

theorem vredand (d : Reg) (a : Reg) (b : Reg) (m : MaskF) : Statement (Instr.vredand d a b m) := fun hw => by
  have e : put 0x7c000004 [(d.val, 21), (a.val, 16), (b.val, 11), (m.val, 5)] = 31 * 2 ^ 26 + (d.val * 2 ^ 21 + (a.val * 2 ^ 16 + (b.val * 2 ^ 11 + (m.val * 2 ^ 5 + 4)))) := by simp only [put]; omega
  have v5 : 4 < 2 ^ 5 := by decide
  have b5 := v5
  have v4 : m.val < 2 ^ 6 := m.isLt
  have b4 := field_bound (lo := 5) b5 v4
  have v3 : b.val < 2 ^ 5 := b.isLt
  have b3 := field_bound (lo := 11) b4 v3
  have v2 : a.val < 2 ^ 5 := a.isLt
  have b2 := field_bound (lo := 16) b3 v2
  have v1 : d.val < 2 ^ 5 := d.isLt
  have b1 := field_bound (lo := 21) b2 v1
  have v0 : 31 < 2 ^ 6 := by decide
  have b0 := field_bound (lo := 26) b1 v0
  have f0 := field_hit (lo := 26) b1 v0
  have f1 := field_skip (v := 31) (lo := 26) (by decide) (field_hit (lo := 21) b2 v1)
  have f2 := field_skip (v := 31) (lo := 26) (by decide) (field_skip (v := d.val) (lo := 21) (by decide) (field_hit (lo := 16) b3 v2))
  have f3 := field_skip (v := 31) (lo := 26) (by decide) (field_skip (v := d.val) (lo := 21) (by decide) (field_skip (v := a.val) (lo := 16) (by decide) (field_hit (lo := 11) b4 v3)))
  have f4 := field_skip (v := 31) (lo := 26) (by decide) (field_skip (v := d.val) (lo := 21) (by decide) (field_skip (v := a.val) (lo := 16) (by decide) (field_skip (v := b.val) (lo := 11) (by decide) (field_hit (lo := 5) b5 v4))))
  have f5 := field_skip_low (v := 31) (lo := 26) (by decide) (field_skip_low (v := d.val) (lo := 21) (by decide) (field_skip_low (v := a.val) (lo := 16) (by decide) (field_skip_low (v := b.val) (lo := 11) (by decide) (field_skip_low (v := m.val) (lo := 5) (by decide) (Nat.mod_eq_of_lt v5)))))
  refine word_eq e (word_back b0 f0 (by decide) (by decide) ((major_1f f0).trans ?_) hw)
  iterate 4 refine (if_neg (other_value f5 (by decide))).trans ?_
  refine (if_pos f5).trans ?_
  rw [fin32_eq d f1, fin32_eq a f2, fin32_eq b f3, fin64_eq m f4]

theorem vredor (d : Reg) (a : Reg) (b : Reg) (m : MaskF) : Statement (Instr.vredor d a b m) := fun hw => by
  have e : put 0x7c000005 [(d.val, 21), (a.val, 16), (b.val, 11), (m.val, 5)] = 31 * 2 ^ 26 + (d.val * 2 ^ 21 + (a.val * 2 ^ 16 + (b.val * 2 ^ 11 + (m.val * 2 ^ 5 + 5)))) := by simp only [put]; omega
  have v5 : 5 < 2 ^ 5 := by decide
  have b5 := v5
  have v4 : m.val < 2 ^ 6 := m.isLt
  have b4 := field_bound (lo := 5) b5 v4
  have v3 : b.val < 2 ^ 5 := b.isLt
  have b3 := field_bound (lo := 11) b4 v3
  have v2 : a.val < 2 ^ 5 := a.isLt
  have b2 := field_bound (lo := 16) b3 v2
  have v1 : d.val < 2 ^ 5 := d.isLt
  have b1 := field_bound (lo := 21) b2 v1
  have v0 : 31 < 2 ^ 6 := by decide
  have b0 := field_bound (lo := 26) b1 v0
  have f0 := field_hit (lo := 26) b1 v0
  have f1 := field_skip (v := 31) (lo := 26) (by decide) (field_hit (lo := 21) b2 v1)
  have f2 := field_skip (v := 31) (lo := 26) (by decide) (field_skip (v := d.val) (lo := 21) (by decide) (field_hit (lo := 16) b3 v2))
  have f3 := field_skip (v := 31) (lo := 26) (by decide) (field_skip (v := d.val) (lo := 21) (by decide) (field_skip (v := a.val) (lo := 16) (by decide) (field_hit (lo := 11) b4 v3)))
  have f4 := field_skip (v := 31) (lo := 26) (by decide) (field_skip (v := d.val) (lo := 21) (by decide) (field_skip (v := a.val) (lo := 16) (by decide) (field_skip (v := b.val) (lo := 11) (by decide) (field_hit (lo := 5) b5 v4))))
  have f5 := field_skip_low (v := 31) (lo := 26) (by decide) (field_skip_low (v := d.val) (lo := 21) (by decide) (field_skip_low (v := a.val) (lo := 16) (by decide) (field_skip_low (v := b.val) (lo := 11) (by decide) (field_skip_low (v := m.val) (lo := 5) (by decide) (Nat.mod_eq_of_lt v5)))))
  refine word_eq e (word_back b0 f0 (by decide) (by decide) ((major_1f f0).trans ?_) hw)
  iterate 5 refine (if_neg (other_value f5 (by decide))).trans ?_
  refine (if_pos f5).trans ?_
  rw [fin32_eq d f1, fin32_eq a f2, fin32_eq b f3, fin64_eq m f4]

theorem vscan (d : Reg) (a : Reg) (b : Reg) (m : MaskF) (x : Bool) : Statement (Instr.vscan d a b m x) := fun hw => by
  have e : put 0x7c000006 [(d.val, 21), (a.val, 16), (b.val, 11), (m.val, 5), (x.toNat, 4)] = 31 * 2 ^ 26 + (d.val * 2 ^ 21 + (a.val * 2 ^ 16 + (b.val * 2 ^ 11 + (m.val * 2 ^ 5 + (x.toNat * 2 ^ 4 + 6))))) := by simp only [put]; omega
  have v6 : 6 < 2 ^ 4 := by decide
  have b6 := v6
  have v5 : x.toNat < 2 ^ 1 := bool_lt x
  have b5 := field_bound (lo := 4) b6 v5
  have v4 : m.val < 2 ^ 6 := m.isLt
  have b4 := field_bound (lo := 5) b5 v4
  have v3 : b.val < 2 ^ 5 := b.isLt
  have b3 := field_bound (lo := 11) b4 v3
  have v2 : a.val < 2 ^ 5 := a.isLt
  have b2 := field_bound (lo := 16) b3 v2
  have v1 : d.val < 2 ^ 5 := d.isLt
  have b1 := field_bound (lo := 21) b2 v1
  have v0 : 31 < 2 ^ 6 := by decide
  have b0 := field_bound (lo := 26) b1 v0
  have f0 := field_hit (lo := 26) b1 v0
  have f1 := field_skip (v := 31) (lo := 26) (by decide) (field_hit (lo := 21) b2 v1)
  have f2 := field_skip (v := 31) (lo := 26) (by decide) (field_skip (v := d.val) (lo := 21) (by decide) (field_hit (lo := 16) b3 v2))
  have f3 := field_skip (v := 31) (lo := 26) (by decide) (field_skip (v := d.val) (lo := 21) (by decide) (field_skip (v := a.val) (lo := 16) (by decide) (field_hit (lo := 11) b4 v3)))
  have f4 := field_skip (v := 31) (lo := 26) (by decide) (field_skip (v := d.val) (lo := 21) (by decide) (field_skip (v := a.val) (lo := 16) (by decide) (field_skip (v := b.val) (lo := 11) (by decide) (field_hit (lo := 5) b5 v4))))
  have f5 := field_skip (v := 31) (lo := 26) (by decide) (field_skip (v := d.val) (lo := 21) (by decide) (field_skip (v := a.val) (lo := 16) (by decide) (field_skip (v := b.val) (lo := 11) (by decide) (field_skip (v := m.val) (lo := 5) (by decide) (field_hit (lo := 4) b6 v5)))))
  have f6 := field_skip_low (v := 31) (lo := 26) (by decide) (field_skip_low (v := d.val) (lo := 21) (by decide) (field_skip_low (v := a.val) (lo := 16) (by decide) (field_skip_low (v := b.val) (lo := 11) (by decide) (field_skip_low (v := m.val) (lo := 5) (by decide) (field_skip_low (v := x.toNat) (lo := 4) (by decide) (Nat.mod_eq_of_lt v6))))))
  refine word_eq e (word_back b0 f0 (by decide) (by decide) ((major_1f f0).trans ?_) hw)
  iterate 6 refine (if_neg (fun c => absurd ((low_field 4 f6 (by decide)).symm.trans (low_field 4 c (by decide))) (by decide))).trans ?_
  refine (if_pos f6).trans ?_
  rw [fin32_eq d f1, fin32_eq a f2, fin32_eq b f3, fin64_eq m f4, bit1_eq x f5]

theorem vscanmax (d : Reg) (a : Reg) (b : Reg) (m : MaskF) (x : Bool) : Statement (Instr.vscanmax d a b m x) := fun hw => by
  have e : put 0x7c000007 [(d.val, 21), (a.val, 16), (b.val, 11), (m.val, 5), (x.toNat, 4)] = 31 * 2 ^ 26 + (d.val * 2 ^ 21 + (a.val * 2 ^ 16 + (b.val * 2 ^ 11 + (m.val * 2 ^ 5 + (x.toNat * 2 ^ 4 + 7))))) := by simp only [put]; omega
  have v6 : 7 < 2 ^ 4 := by decide
  have b6 := v6
  have v5 : x.toNat < 2 ^ 1 := bool_lt x
  have b5 := field_bound (lo := 4) b6 v5
  have v4 : m.val < 2 ^ 6 := m.isLt
  have b4 := field_bound (lo := 5) b5 v4
  have v3 : b.val < 2 ^ 5 := b.isLt
  have b3 := field_bound (lo := 11) b4 v3
  have v2 : a.val < 2 ^ 5 := a.isLt
  have b2 := field_bound (lo := 16) b3 v2
  have v1 : d.val < 2 ^ 5 := d.isLt
  have b1 := field_bound (lo := 21) b2 v1
  have v0 : 31 < 2 ^ 6 := by decide
  have b0 := field_bound (lo := 26) b1 v0
  have f0 := field_hit (lo := 26) b1 v0
  have f1 := field_skip (v := 31) (lo := 26) (by decide) (field_hit (lo := 21) b2 v1)
  have f2 := field_skip (v := 31) (lo := 26) (by decide) (field_skip (v := d.val) (lo := 21) (by decide) (field_hit (lo := 16) b3 v2))
  have f3 := field_skip (v := 31) (lo := 26) (by decide) (field_skip (v := d.val) (lo := 21) (by decide) (field_skip (v := a.val) (lo := 16) (by decide) (field_hit (lo := 11) b4 v3)))
  have f4 := field_skip (v := 31) (lo := 26) (by decide) (field_skip (v := d.val) (lo := 21) (by decide) (field_skip (v := a.val) (lo := 16) (by decide) (field_skip (v := b.val) (lo := 11) (by decide) (field_hit (lo := 5) b5 v4))))
  have f5 := field_skip (v := 31) (lo := 26) (by decide) (field_skip (v := d.val) (lo := 21) (by decide) (field_skip (v := a.val) (lo := 16) (by decide) (field_skip (v := b.val) (lo := 11) (by decide) (field_skip (v := m.val) (lo := 5) (by decide) (field_hit (lo := 4) b6 v5)))))
  have f6 := field_skip_low (v := 31) (lo := 26) (by decide) (field_skip_low (v := d.val) (lo := 21) (by decide) (field_skip_low (v := a.val) (lo := 16) (by decide) (field_skip_low (v := b.val) (lo := 11) (by decide) (field_skip_low (v := m.val) (lo := 5) (by decide) (field_skip_low (v := x.toNat) (lo := 4) (by decide) (Nat.mod_eq_of_lt v6))))))
  refine word_eq e (word_back b0 f0 (by decide) (by decide) ((major_1f f0).trans ?_) hw)
  iterate 6 refine (if_neg (fun c => absurd ((low_field 4 f6 (by decide)).symm.trans (low_field 4 c (by decide))) (by decide))).trans ?_
  refine (if_neg (other_value f6 (by decide))).trans ?_
  refine (if_pos f6).trans ?_
  rw [fin32_eq d f1, fin32_eq a f2, fin32_eq b f3, fin64_eq m f4, bit1_eq x f5]

theorem vlift (d : Reg) (a : Reg) (b : Reg) (m : MaskF) : Statement (Instr.vlift d a b m) := fun hw => by
  have e : put 0x80000000 [(d.val, 21), (a.val, 16), (b.val, 11), (m.val, 5)] = 32 * 2 ^ 26 + (d.val * 2 ^ 21 + (a.val * 2 ^ 16 + (b.val * 2 ^ 11 + (m.val * 2 ^ 5 + 0)))) := by simp only [put]; omega
  have v5 : 0 < 2 ^ 5 := by decide
  have b5 := v5
  have v4 : m.val < 2 ^ 6 := m.isLt
  have b4 := field_bound (lo := 5) b5 v4
  have v3 : b.val < 2 ^ 5 := b.isLt
  have b3 := field_bound (lo := 11) b4 v3
  have v2 : a.val < 2 ^ 5 := a.isLt
  have b2 := field_bound (lo := 16) b3 v2
  have v1 : d.val < 2 ^ 5 := d.isLt
  have b1 := field_bound (lo := 21) b2 v1
  have v0 : 32 < 2 ^ 6 := by decide
  have b0 := field_bound (lo := 26) b1 v0
  have f0 := field_hit (lo := 26) b1 v0
  have f1 := field_skip (v := 32) (lo := 26) (by decide) (field_hit (lo := 21) b2 v1)
  have f2 := field_skip (v := 32) (lo := 26) (by decide) (field_skip (v := d.val) (lo := 21) (by decide) (field_hit (lo := 16) b3 v2))
  have f3 := field_skip (v := 32) (lo := 26) (by decide) (field_skip (v := d.val) (lo := 21) (by decide) (field_skip (v := a.val) (lo := 16) (by decide) (field_hit (lo := 11) b4 v3)))
  have f4 := field_skip (v := 32) (lo := 26) (by decide) (field_skip (v := d.val) (lo := 21) (by decide) (field_skip (v := a.val) (lo := 16) (by decide) (field_skip (v := b.val) (lo := 11) (by decide) (field_hit (lo := 5) b5 v4))))
  have f5 := field_skip_low (v := 32) (lo := 26) (by decide) (field_skip_low (v := d.val) (lo := 21) (by decide) (field_skip_low (v := a.val) (lo := 16) (by decide) (field_skip_low (v := b.val) (lo := 11) (by decide) (field_skip_low (v := m.val) (lo := 5) (by decide) (Nat.mod_eq_of_lt v5)))))
  refine word_eq e (word_back b0 f0 (by decide) (by decide) ((major_20 f0).trans ?_) hw)
  refine (if_pos f5).trans ?_
  rw [fin32_eq d f1, fin32_eq a f2, fin32_eq b f3, fin64_eq m f4]

theorem vsink (d : Reg) (a : Reg) (b : Reg) (m : MaskF) : Statement (Instr.vsink d a b m) := fun hw => by
  have e : put 0x80000001 [(d.val, 21), (a.val, 16), (b.val, 11), (m.val, 5)] = 32 * 2 ^ 26 + (d.val * 2 ^ 21 + (a.val * 2 ^ 16 + (b.val * 2 ^ 11 + (m.val * 2 ^ 5 + 1)))) := by simp only [put]; omega
  have v5 : 1 < 2 ^ 5 := by decide
  have b5 := v5
  have v4 : m.val < 2 ^ 6 := m.isLt
  have b4 := field_bound (lo := 5) b5 v4
  have v3 : b.val < 2 ^ 5 := b.isLt
  have b3 := field_bound (lo := 11) b4 v3
  have v2 : a.val < 2 ^ 5 := a.isLt
  have b2 := field_bound (lo := 16) b3 v2
  have v1 : d.val < 2 ^ 5 := d.isLt
  have b1 := field_bound (lo := 21) b2 v1
  have v0 : 32 < 2 ^ 6 := by decide
  have b0 := field_bound (lo := 26) b1 v0
  have f0 := field_hit (lo := 26) b1 v0
  have f1 := field_skip (v := 32) (lo := 26) (by decide) (field_hit (lo := 21) b2 v1)
  have f2 := field_skip (v := 32) (lo := 26) (by decide) (field_skip (v := d.val) (lo := 21) (by decide) (field_hit (lo := 16) b3 v2))
  have f3 := field_skip (v := 32) (lo := 26) (by decide) (field_skip (v := d.val) (lo := 21) (by decide) (field_skip (v := a.val) (lo := 16) (by decide) (field_hit (lo := 11) b4 v3)))
  have f4 := field_skip (v := 32) (lo := 26) (by decide) (field_skip (v := d.val) (lo := 21) (by decide) (field_skip (v := a.val) (lo := 16) (by decide) (field_skip (v := b.val) (lo := 11) (by decide) (field_hit (lo := 5) b5 v4))))
  have f5 := field_skip_low (v := 32) (lo := 26) (by decide) (field_skip_low (v := d.val) (lo := 21) (by decide) (field_skip_low (v := a.val) (lo := 16) (by decide) (field_skip_low (v := b.val) (lo := 11) (by decide) (field_skip_low (v := m.val) (lo := 5) (by decide) (Nat.mod_eq_of_lt v5)))))
  refine word_eq e (word_back b0 f0 (by decide) (by decide) ((major_20 f0).trans ?_) hw)
  refine (if_neg (other_value f5 (by decide))).trans ?_
  refine (if_pos f5).trans ?_
  rw [fin32_eq d f1, fin32_eq a f2, fin32_eq b f3, fin64_eq m f4]

theorem vperm (d : Reg) (a : Reg) (b : Reg) (m : MaskF) : Statement (Instr.vperm d a b m) := fun hw => by
  have e : put 0x80000002 [(d.val, 21), (a.val, 16), (b.val, 11), (m.val, 5)] = 32 * 2 ^ 26 + (d.val * 2 ^ 21 + (a.val * 2 ^ 16 + (b.val * 2 ^ 11 + (m.val * 2 ^ 5 + 2)))) := by simp only [put]; omega
  have v5 : 2 < 2 ^ 5 := by decide
  have b5 := v5
  have v4 : m.val < 2 ^ 6 := m.isLt
  have b4 := field_bound (lo := 5) b5 v4
  have v3 : b.val < 2 ^ 5 := b.isLt
  have b3 := field_bound (lo := 11) b4 v3
  have v2 : a.val < 2 ^ 5 := a.isLt
  have b2 := field_bound (lo := 16) b3 v2
  have v1 : d.val < 2 ^ 5 := d.isLt
  have b1 := field_bound (lo := 21) b2 v1
  have v0 : 32 < 2 ^ 6 := by decide
  have b0 := field_bound (lo := 26) b1 v0
  have f0 := field_hit (lo := 26) b1 v0
  have f1 := field_skip (v := 32) (lo := 26) (by decide) (field_hit (lo := 21) b2 v1)
  have f2 := field_skip (v := 32) (lo := 26) (by decide) (field_skip (v := d.val) (lo := 21) (by decide) (field_hit (lo := 16) b3 v2))
  have f3 := field_skip (v := 32) (lo := 26) (by decide) (field_skip (v := d.val) (lo := 21) (by decide) (field_skip (v := a.val) (lo := 16) (by decide) (field_hit (lo := 11) b4 v3)))
  have f4 := field_skip (v := 32) (lo := 26) (by decide) (field_skip (v := d.val) (lo := 21) (by decide) (field_skip (v := a.val) (lo := 16) (by decide) (field_skip (v := b.val) (lo := 11) (by decide) (field_hit (lo := 5) b5 v4))))
  have f5 := field_skip_low (v := 32) (lo := 26) (by decide) (field_skip_low (v := d.val) (lo := 21) (by decide) (field_skip_low (v := a.val) (lo := 16) (by decide) (field_skip_low (v := b.val) (lo := 11) (by decide) (field_skip_low (v := m.val) (lo := 5) (by decide) (Nat.mod_eq_of_lt v5)))))
  refine word_eq e (word_back b0 f0 (by decide) (by decide) ((major_20 f0).trans ?_) hw)
  iterate 2 refine (if_neg (other_value f5 (by decide))).trans ?_
  refine (if_pos f5).trans ?_
  rw [fin32_eq d f1, fin32_eq a f2, fin32_eq b f3, fin64_eq m f4]

theorem vpress (d : Reg) (a : Reg) (m : MaskF) : Statement (Instr.vpress d a m) := fun hw => by
  have e : put 0x80000003 [(d.val, 21), (a.val, 16), (m.val, 5)] = 32 * 2 ^ 26 + (d.val * 2 ^ 21 + (a.val * 2 ^ 16 + (0 * 2 ^ 11 + (m.val * 2 ^ 5 + 3)))) := by simp only [put]; omega
  have v5 : 3 < 2 ^ 5 := by decide
  have b5 := v5
  have v4 : m.val < 2 ^ 6 := m.isLt
  have b4 := field_bound (lo := 5) b5 v4
  have v3 : 0 < 2 ^ 5 := by decide
  have b3 := field_bound (lo := 11) b4 v3
  have v2 : a.val < 2 ^ 5 := a.isLt
  have b2 := field_bound (lo := 16) b3 v2
  have v1 : d.val < 2 ^ 5 := d.isLt
  have b1 := field_bound (lo := 21) b2 v1
  have v0 : 32 < 2 ^ 6 := by decide
  have b0 := field_bound (lo := 26) b1 v0
  have f0 := field_hit (lo := 26) b1 v0
  have f1 := field_skip (v := 32) (lo := 26) (by decide) (field_hit (lo := 21) b2 v1)
  have f2 := field_skip (v := 32) (lo := 26) (by decide) (field_skip (v := d.val) (lo := 21) (by decide) (field_hit (lo := 16) b3 v2))
  have f3 := field_skip (v := 32) (lo := 26) (by decide) (field_skip (v := d.val) (lo := 21) (by decide) (field_skip (v := a.val) (lo := 16) (by decide) (field_hit (lo := 11) b4 v3)))
  have f4 := field_skip (v := 32) (lo := 26) (by decide) (field_skip (v := d.val) (lo := 21) (by decide) (field_skip (v := a.val) (lo := 16) (by decide) (field_skip (v := 0) (lo := 11) (by decide) (field_hit (lo := 5) b5 v4))))
  have f5 := field_skip_low (v := 32) (lo := 26) (by decide) (field_skip_low (v := d.val) (lo := 21) (by decide) (field_skip_low (v := a.val) (lo := 16) (by decide) (field_skip_low (v := 0) (lo := 11) (by decide) (field_skip_low (v := m.val) (lo := 5) (by decide) (Nat.mod_eq_of_lt v5)))))
  refine word_eq e (word_back b0 f0 (by decide) (by decide) ((major_20 f0).trans ?_) hw)
  iterate 3 refine (if_neg (other_value f5 (by decide))).trans ?_
  refine (if_pos ⟨f5, f3⟩).trans ?_
  rw [fin32_eq d f1, fin32_eq a f2, fin64_eq m f4]

theorem vrank (d : Reg) (m : MaskF) : Statement (Instr.vrank d m) := fun hw => by
  have e : put 0x80000004 [(d.val, 21), (m.val, 5)] = 32 * 2 ^ 26 + (d.val * 2 ^ 21 + (0 * 2 ^ 11 + (m.val * 2 ^ 5 + 4))) := by simp only [put]; omega
  have v4 : 4 < 2 ^ 5 := by decide
  have b4 := v4
  have v3 : m.val < 2 ^ 6 := m.isLt
  have b3 := field_bound (lo := 5) b4 v3
  have v2 : 0 < 2 ^ 10 := by decide
  have b2 := field_bound (lo := 11) b3 v2
  have v1 : d.val < 2 ^ 5 := d.isLt
  have b1 := field_bound (lo := 21) b2 v1
  have v0 : 32 < 2 ^ 6 := by decide
  have b0 := field_bound (lo := 26) b1 v0
  have f0 := field_hit (lo := 26) b1 v0
  have f1 := field_skip (v := 32) (lo := 26) (by decide) (field_hit (lo := 21) b2 v1)
  have f2 := field_skip (v := 32) (lo := 26) (by decide) (field_skip (v := d.val) (lo := 21) (by decide) (field_hit (lo := 11) b3 v2))
  have f3 := field_skip (v := 32) (lo := 26) (by decide) (field_skip (v := d.val) (lo := 21) (by decide) (field_skip (v := 0) (lo := 11) (by decide) (field_hit (lo := 5) b4 v3)))
  have f4 := field_skip_low (v := 32) (lo := 26) (by decide) (field_skip_low (v := d.val) (lo := 21) (by decide) (field_skip_low (v := 0) (lo := 11) (by decide) (field_skip_low (v := m.val) (lo := 5) (by decide) (Nat.mod_eq_of_lt v4))))
  refine word_eq e (word_back b0 f0 (by decide) (by decide) ((major_20 f0).trans ?_) hw)
  iterate 3 refine (if_neg (other_value f4 (by decide))).trans ?_
  refine (if_neg (fun c => other_value f4 (by decide) c.1)).trans ?_
  refine (if_pos ⟨f4, f2⟩).trans ?_
  rw [fin32_eq d f1, fin64_eq m f3]

theorem vbcast (d : Reg) (b : Reg) (m : MaskF) : Statement (Instr.vbcast d b m) := fun hw => by
  have e : put 0x80000005 [(d.val, 21), (b.val, 11), (m.val, 5)] = 32 * 2 ^ 26 + (d.val * 2 ^ 21 + (0 * 2 ^ 16 + (b.val * 2 ^ 11 + (m.val * 2 ^ 5 + 5)))) := by simp only [put]; omega
  have v5 : 5 < 2 ^ 5 := by decide
  have b5 := v5
  have v4 : m.val < 2 ^ 6 := m.isLt
  have b4 := field_bound (lo := 5) b5 v4
  have v3 : b.val < 2 ^ 5 := b.isLt
  have b3 := field_bound (lo := 11) b4 v3
  have v2 : 0 < 2 ^ 5 := by decide
  have b2 := field_bound (lo := 16) b3 v2
  have v1 : d.val < 2 ^ 5 := d.isLt
  have b1 := field_bound (lo := 21) b2 v1
  have v0 : 32 < 2 ^ 6 := by decide
  have b0 := field_bound (lo := 26) b1 v0
  have f0 := field_hit (lo := 26) b1 v0
  have f1 := field_skip (v := 32) (lo := 26) (by decide) (field_hit (lo := 21) b2 v1)
  have f2 := field_skip (v := 32) (lo := 26) (by decide) (field_skip (v := d.val) (lo := 21) (by decide) (field_hit (lo := 16) b3 v2))
  have f3 := field_skip (v := 32) (lo := 26) (by decide) (field_skip (v := d.val) (lo := 21) (by decide) (field_skip (v := 0) (lo := 16) (by decide) (field_hit (lo := 11) b4 v3)))
  have f4 := field_skip (v := 32) (lo := 26) (by decide) (field_skip (v := d.val) (lo := 21) (by decide) (field_skip (v := 0) (lo := 16) (by decide) (field_skip (v := b.val) (lo := 11) (by decide) (field_hit (lo := 5) b5 v4))))
  have f5 := field_skip_low (v := 32) (lo := 26) (by decide) (field_skip_low (v := d.val) (lo := 21) (by decide) (field_skip_low (v := 0) (lo := 16) (by decide) (field_skip_low (v := b.val) (lo := 11) (by decide) (field_skip_low (v := m.val) (lo := 5) (by decide) (Nat.mod_eq_of_lt v5)))))
  refine word_eq e (word_back b0 f0 (by decide) (by decide) ((major_20 f0).trans ?_) hw)
  iterate 3 refine (if_neg (other_value f5 (by decide))).trans ?_
  iterate 2 refine (if_neg (fun c => other_value f5 (by decide) c.1)).trans ?_
  refine (if_pos ⟨f5, f2⟩).trans ?_
  rw [fin32_eq d f1, fin32_eq b f3, fin64_eq m f4]

theorem vextr (d : Reg) (a : Reg) (b : Reg) : Statement (Instr.vextr d a b) := fun hw => by
  have e : put 0x80000006 [(d.val, 21), (a.val, 16), (b.val, 11)] = 32 * 2 ^ 26 + (d.val * 2 ^ 21 + (a.val * 2 ^ 16 + (b.val * 2 ^ 11 + 6))) := by simp only [put]; omega
  have v4 : 6 < 2 ^ 11 := by decide
  have b4 := v4
  have v3 : b.val < 2 ^ 5 := b.isLt
  have b3 := field_bound (lo := 11) b4 v3
  have v2 : a.val < 2 ^ 5 := a.isLt
  have b2 := field_bound (lo := 16) b3 v2
  have v1 : d.val < 2 ^ 5 := d.isLt
  have b1 := field_bound (lo := 21) b2 v1
  have v0 : 32 < 2 ^ 6 := by decide
  have b0 := field_bound (lo := 26) b1 v0
  have f0 := field_hit (lo := 26) b1 v0
  have f1 := field_skip (v := 32) (lo := 26) (by decide) (field_hit (lo := 21) b2 v1)
  have f2 := field_skip (v := 32) (lo := 26) (by decide) (field_skip (v := d.val) (lo := 21) (by decide) (field_hit (lo := 16) b3 v2))
  have f3 := field_skip (v := 32) (lo := 26) (by decide) (field_skip (v := d.val) (lo := 21) (by decide) (field_skip (v := a.val) (lo := 16) (by decide) (field_hit (lo := 11) b4 v3)))
  have f4 := field_skip_low (v := 32) (lo := 26) (by decide) (field_skip_low (v := d.val) (lo := 21) (by decide) (field_skip_low (v := a.val) (lo := 16) (by decide) (field_skip_low (v := b.val) (lo := 11) (by decide) (Nat.mod_eq_of_lt v4))))
  refine word_eq e (word_back b0 f0 (by decide) (by decide) ((major_20 f0).trans ?_) hw)
  iterate 3 refine (if_neg (fun c => absurd ((low_field 5 f4 (by decide)).symm.trans (low_field 5 c (by decide))) (by decide))).trans ?_
  iterate 3 refine (if_neg (fun c => absurd ((low_field 5 f4 (by decide)).symm.trans (low_field 5 c.1 (by decide))) (by decide))).trans ?_
  refine (if_pos f4).trans ?_
  rw [fin32_eq d f1, fin32_eq a f2, fin32_eq b f3]

theorem vput (d : Reg) (a : Reg) (b : Reg) : Statement (Instr.vput d a b) := fun hw => by
  have e : put 0x80000007 [(d.val, 21), (a.val, 16), (b.val, 11)] = 32 * 2 ^ 26 + (d.val * 2 ^ 21 + (a.val * 2 ^ 16 + (b.val * 2 ^ 11 + 7))) := by simp only [put]; omega
  have v4 : 7 < 2 ^ 11 := by decide
  have b4 := v4
  have v3 : b.val < 2 ^ 5 := b.isLt
  have b3 := field_bound (lo := 11) b4 v3
  have v2 : a.val < 2 ^ 5 := a.isLt
  have b2 := field_bound (lo := 16) b3 v2
  have v1 : d.val < 2 ^ 5 := d.isLt
  have b1 := field_bound (lo := 21) b2 v1
  have v0 : 32 < 2 ^ 6 := by decide
  have b0 := field_bound (lo := 26) b1 v0
  have f0 := field_hit (lo := 26) b1 v0
  have f1 := field_skip (v := 32) (lo := 26) (by decide) (field_hit (lo := 21) b2 v1)
  have f2 := field_skip (v := 32) (lo := 26) (by decide) (field_skip (v := d.val) (lo := 21) (by decide) (field_hit (lo := 16) b3 v2))
  have f3 := field_skip (v := 32) (lo := 26) (by decide) (field_skip (v := d.val) (lo := 21) (by decide) (field_skip (v := a.val) (lo := 16) (by decide) (field_hit (lo := 11) b4 v3)))
  have f4 := field_skip_low (v := 32) (lo := 26) (by decide) (field_skip_low (v := d.val) (lo := 21) (by decide) (field_skip_low (v := a.val) (lo := 16) (by decide) (field_skip_low (v := b.val) (lo := 11) (by decide) (Nat.mod_eq_of_lt v4))))
  refine word_eq e (word_back b0 f0 (by decide) (by decide) ((major_20 f0).trans ?_) hw)
  iterate 3 refine (if_neg (fun c => absurd ((low_field 5 f4 (by decide)).symm.trans (low_field 5 c (by decide))) (by decide))).trans ?_
  iterate 3 refine (if_neg (fun c => absurd ((low_field 5 f4 (by decide)).symm.trans (low_field 5 c.1 (by decide))) (by decide))).trans ?_
  refine (if_neg (other_value f4 (by decide))).trans ?_
  refine (if_pos f4).trans ?_
  rw [fin32_eq d f1, fin32_eq a f2, fin32_eq b f3]

theorem vupd (d : Reg) (a : Reg) (b : Reg) (m : MaskF) : Statement (Instr.vupd d a b m) := fun hw => by
  have e : put 0x80000008 [(d.val, 21), (a.val, 16), (b.val, 11), (m.val, 5)] = 32 * 2 ^ 26 + (d.val * 2 ^ 21 + (a.val * 2 ^ 16 + (b.val * 2 ^ 11 + (m.val * 2 ^ 5 + 8)))) := by simp only [put]; omega
  have v5 : 8 < 2 ^ 5 := by decide
  have b5 := v5
  have v4 : m.val < 2 ^ 6 := m.isLt
  have b4 := field_bound (lo := 5) b5 v4
  have v3 : b.val < 2 ^ 5 := b.isLt
  have b3 := field_bound (lo := 11) b4 v3
  have v2 : a.val < 2 ^ 5 := a.isLt
  have b2 := field_bound (lo := 16) b3 v2
  have v1 : d.val < 2 ^ 5 := d.isLt
  have b1 := field_bound (lo := 21) b2 v1
  have v0 : 32 < 2 ^ 6 := by decide
  have b0 := field_bound (lo := 26) b1 v0
  have f0 := field_hit (lo := 26) b1 v0
  have f1 := field_skip (v := 32) (lo := 26) (by decide) (field_hit (lo := 21) b2 v1)
  have f2 := field_skip (v := 32) (lo := 26) (by decide) (field_skip (v := d.val) (lo := 21) (by decide) (field_hit (lo := 16) b3 v2))
  have f3 := field_skip (v := 32) (lo := 26) (by decide) (field_skip (v := d.val) (lo := 21) (by decide) (field_skip (v := a.val) (lo := 16) (by decide) (field_hit (lo := 11) b4 v3)))
  have f4 := field_skip (v := 32) (lo := 26) (by decide) (field_skip (v := d.val) (lo := 21) (by decide) (field_skip (v := a.val) (lo := 16) (by decide) (field_skip (v := b.val) (lo := 11) (by decide) (field_hit (lo := 5) b5 v4))))
  have f5 := field_skip_low (v := 32) (lo := 26) (by decide) (field_skip_low (v := d.val) (lo := 21) (by decide) (field_skip_low (v := a.val) (lo := 16) (by decide) (field_skip_low (v := b.val) (lo := 11) (by decide) (field_skip_low (v := m.val) (lo := 5) (by decide) (Nat.mod_eq_of_lt v5)))))
  refine word_eq e (word_back b0 f0 (by decide) (by decide) ((major_20 f0).trans ?_) hw)
  iterate 3 refine (if_neg (other_value f5 (by decide))).trans ?_
  iterate 3 refine (if_neg (fun c => other_value f5 (by decide) c.1)).trans ?_
  iterate 2 refine (if_neg (fun c => absurd ((low_field 5 f5 (by decide)).symm.trans (low_field 5 c (by decide))) (by decide))).trans ?_
  refine (if_pos f5).trans ?_
  rw [fin32_eq d f1, fin32_eq a f2, fin32_eq b f3, fin64_eq m f4]

theorem vupdAdd (d : Reg) (a : Reg) (b : Reg) (m : MaskF) : Statement (Instr.vupdAdd d a b m) := fun hw => by
  have e : put 0x80000018 [(d.val, 21), (a.val, 16), (b.val, 11), (m.val, 5)] = 32 * 2 ^ 26 + (d.val * 2 ^ 21 + (a.val * 2 ^ 16 + (b.val * 2 ^ 11 + (m.val * 2 ^ 5 + 24)))) := by simp only [put]; omega
  have v5 : 24 < 2 ^ 5 := by decide
  have b5 := v5
  have v4 : m.val < 2 ^ 6 := m.isLt
  have b4 := field_bound (lo := 5) b5 v4
  have v3 : b.val < 2 ^ 5 := b.isLt
  have b3 := field_bound (lo := 11) b4 v3
  have v2 : a.val < 2 ^ 5 := a.isLt
  have b2 := field_bound (lo := 16) b3 v2
  have v1 : d.val < 2 ^ 5 := d.isLt
  have b1 := field_bound (lo := 21) b2 v1
  have v0 : 32 < 2 ^ 6 := by decide
  have b0 := field_bound (lo := 26) b1 v0
  have f0 := field_hit (lo := 26) b1 v0
  have f1 := field_skip (v := 32) (lo := 26) (by decide) (field_hit (lo := 21) b2 v1)
  have f2 := field_skip (v := 32) (lo := 26) (by decide) (field_skip (v := d.val) (lo := 21) (by decide) (field_hit (lo := 16) b3 v2))
  have f3 := field_skip (v := 32) (lo := 26) (by decide) (field_skip (v := d.val) (lo := 21) (by decide) (field_skip (v := a.val) (lo := 16) (by decide) (field_hit (lo := 11) b4 v3)))
  have f4 := field_skip (v := 32) (lo := 26) (by decide) (field_skip (v := d.val) (lo := 21) (by decide) (field_skip (v := a.val) (lo := 16) (by decide) (field_skip (v := b.val) (lo := 11) (by decide) (field_hit (lo := 5) b5 v4))))
  have f5 := field_skip_low (v := 32) (lo := 26) (by decide) (field_skip_low (v := d.val) (lo := 21) (by decide) (field_skip_low (v := a.val) (lo := 16) (by decide) (field_skip_low (v := b.val) (lo := 11) (by decide) (field_skip_low (v := m.val) (lo := 5) (by decide) (Nat.mod_eq_of_lt v5)))))
  refine word_eq e (word_back b0 f0 (by decide) (by decide) ((major_20 f0).trans ?_) hw)
  iterate 3 refine (if_neg (other_value f5 (by decide))).trans ?_
  iterate 3 refine (if_neg (fun c => other_value f5 (by decide) c.1)).trans ?_
  iterate 2 refine (if_neg (fun c => absurd ((low_field 5 f5 (by decide)).symm.trans (low_field 5 c (by decide))) (by decide))).trans ?_
  refine (if_neg (other_value f5 (by decide))).trans ?_
  refine (if_pos f5).trans ?_
  rw [fin32_eq d f1, fin32_eq a f2, fin32_eq b f3, fin64_eq m f4]

theorem vtopk (d : Reg) (a : Reg) (b : Reg) (m : MaskF) : Statement (Instr.vtopk d a b m) := fun hw => by
  have e : put 0x80000009 [(d.val, 21), (a.val, 16), (b.val, 11), (m.val, 5)] = 32 * 2 ^ 26 + (d.val * 2 ^ 21 + (a.val * 2 ^ 16 + (b.val * 2 ^ 11 + (m.val * 2 ^ 5 + 9)))) := by simp only [put]; omega
  have v5 : 9 < 2 ^ 5 := by decide
  have b5 := v5
  have v4 : m.val < 2 ^ 6 := m.isLt
  have b4 := field_bound (lo := 5) b5 v4
  have v3 : b.val < 2 ^ 5 := b.isLt
  have b3 := field_bound (lo := 11) b4 v3
  have v2 : a.val < 2 ^ 5 := a.isLt
  have b2 := field_bound (lo := 16) b3 v2
  have v1 : d.val < 2 ^ 5 := d.isLt
  have b1 := field_bound (lo := 21) b2 v1
  have v0 : 32 < 2 ^ 6 := by decide
  have b0 := field_bound (lo := 26) b1 v0
  have f0 := field_hit (lo := 26) b1 v0
  have f1 := field_skip (v := 32) (lo := 26) (by decide) (field_hit (lo := 21) b2 v1)
  have f2 := field_skip (v := 32) (lo := 26) (by decide) (field_skip (v := d.val) (lo := 21) (by decide) (field_hit (lo := 16) b3 v2))
  have f3 := field_skip (v := 32) (lo := 26) (by decide) (field_skip (v := d.val) (lo := 21) (by decide) (field_skip (v := a.val) (lo := 16) (by decide) (field_hit (lo := 11) b4 v3)))
  have f4 := field_skip (v := 32) (lo := 26) (by decide) (field_skip (v := d.val) (lo := 21) (by decide) (field_skip (v := a.val) (lo := 16) (by decide) (field_skip (v := b.val) (lo := 11) (by decide) (field_hit (lo := 5) b5 v4))))
  have f5 := field_skip_low (v := 32) (lo := 26) (by decide) (field_skip_low (v := d.val) (lo := 21) (by decide) (field_skip_low (v := a.val) (lo := 16) (by decide) (field_skip_low (v := b.val) (lo := 11) (by decide) (field_skip_low (v := m.val) (lo := 5) (by decide) (Nat.mod_eq_of_lt v5)))))
  refine word_eq e (word_back b0 f0 (by decide) (by decide) ((major_20 f0).trans ?_) hw)
  iterate 3 refine (if_neg (other_value f5 (by decide))).trans ?_
  iterate 3 refine (if_neg (fun c => other_value f5 (by decide) c.1)).trans ?_
  iterate 2 refine (if_neg (fun c => absurd ((low_field 5 f5 (by decide)).symm.trans (low_field 5 c (by decide))) (by decide))).trans ?_
  iterate 2 refine (if_neg (other_value f5 (by decide))).trans ?_
  refine (if_pos f5).trans ?_
  rw [fin32_eq d f1, fin32_eq a f2, fin32_eq b f3, fin64_eq m f4]

theorem mand (d : MaskF) (a : MaskF) (b : MaskF) : Statement (Instr.mand d a b) := fun hw => by
  have e : put 0x84000000 [(d.val, 20), (a.val, 14), (b.val, 8)] = 33 * 2 ^ 26 + (d.val * 2 ^ 20 + (a.val * 2 ^ 14 + (b.val * 2 ^ 8 + 0))) := by simp only [put]; omega
  have v4 : 0 < 2 ^ 8 := by decide
  have b4 := v4
  have v3 : b.val < 2 ^ 6 := b.isLt
  have b3 := field_bound (lo := 8) b4 v3
  have v2 : a.val < 2 ^ 6 := a.isLt
  have b2 := field_bound (lo := 14) b3 v2
  have v1 : d.val < 2 ^ 6 := d.isLt
  have b1 := field_bound (lo := 20) b2 v1
  have v0 : 33 < 2 ^ 6 := by decide
  have b0 := field_bound (lo := 26) b1 v0
  have f0 := field_hit (lo := 26) b1 v0
  have f1 := field_skip (v := 33) (lo := 26) (by decide) (field_hit (lo := 20) b2 v1)
  have f2 := field_skip (v := 33) (lo := 26) (by decide) (field_skip (v := d.val) (lo := 20) (by decide) (field_hit (lo := 14) b3 v2))
  have f3 := field_skip (v := 33) (lo := 26) (by decide) (field_skip (v := d.val) (lo := 20) (by decide) (field_skip (v := a.val) (lo := 14) (by decide) (field_hit (lo := 8) b4 v3)))
  have f4 := field_skip_low (v := 33) (lo := 26) (by decide) (field_skip_low (v := d.val) (lo := 20) (by decide) (field_skip_low (v := a.val) (lo := 14) (by decide) (field_skip_low (v := b.val) (lo := 8) (by decide) (Nat.mod_eq_of_lt v4))))
  refine word_eq e (word_back b0 f0 (by decide) (by decide) ((major_21 f0).trans ?_) hw)
  refine (if_pos f4).trans ?_
  rw [fin64_eq d f1, fin64_eq a f2, fin64_eq b f3]

theorem mor (d : MaskF) (a : MaskF) (b : MaskF) : Statement (Instr.mor d a b) := fun hw => by
  have e : put 0x84000001 [(d.val, 20), (a.val, 14), (b.val, 8)] = 33 * 2 ^ 26 + (d.val * 2 ^ 20 + (a.val * 2 ^ 14 + (b.val * 2 ^ 8 + 1))) := by simp only [put]; omega
  have v4 : 1 < 2 ^ 8 := by decide
  have b4 := v4
  have v3 : b.val < 2 ^ 6 := b.isLt
  have b3 := field_bound (lo := 8) b4 v3
  have v2 : a.val < 2 ^ 6 := a.isLt
  have b2 := field_bound (lo := 14) b3 v2
  have v1 : d.val < 2 ^ 6 := d.isLt
  have b1 := field_bound (lo := 20) b2 v1
  have v0 : 33 < 2 ^ 6 := by decide
  have b0 := field_bound (lo := 26) b1 v0
  have f0 := field_hit (lo := 26) b1 v0
  have f1 := field_skip (v := 33) (lo := 26) (by decide) (field_hit (lo := 20) b2 v1)
  have f2 := field_skip (v := 33) (lo := 26) (by decide) (field_skip (v := d.val) (lo := 20) (by decide) (field_hit (lo := 14) b3 v2))
  have f3 := field_skip (v := 33) (lo := 26) (by decide) (field_skip (v := d.val) (lo := 20) (by decide) (field_skip (v := a.val) (lo := 14) (by decide) (field_hit (lo := 8) b4 v3)))
  have f4 := field_skip_low (v := 33) (lo := 26) (by decide) (field_skip_low (v := d.val) (lo := 20) (by decide) (field_skip_low (v := a.val) (lo := 14) (by decide) (field_skip_low (v := b.val) (lo := 8) (by decide) (Nat.mod_eq_of_lt v4))))
  refine word_eq e (word_back b0 f0 (by decide) (by decide) ((major_21 f0).trans ?_) hw)
  refine (if_neg (other_value f4 (by decide))).trans ?_
  refine (if_pos f4).trans ?_
  rw [fin64_eq d f1, fin64_eq a f2, fin64_eq b f3]

theorem mxor (d : MaskF) (a : MaskF) (b : MaskF) : Statement (Instr.mxor d a b) := fun hw => by
  have e : put 0x84000002 [(d.val, 20), (a.val, 14), (b.val, 8)] = 33 * 2 ^ 26 + (d.val * 2 ^ 20 + (a.val * 2 ^ 14 + (b.val * 2 ^ 8 + 2))) := by simp only [put]; omega
  have v4 : 2 < 2 ^ 8 := by decide
  have b4 := v4
  have v3 : b.val < 2 ^ 6 := b.isLt
  have b3 := field_bound (lo := 8) b4 v3
  have v2 : a.val < 2 ^ 6 := a.isLt
  have b2 := field_bound (lo := 14) b3 v2
  have v1 : d.val < 2 ^ 6 := d.isLt
  have b1 := field_bound (lo := 20) b2 v1
  have v0 : 33 < 2 ^ 6 := by decide
  have b0 := field_bound (lo := 26) b1 v0
  have f0 := field_hit (lo := 26) b1 v0
  have f1 := field_skip (v := 33) (lo := 26) (by decide) (field_hit (lo := 20) b2 v1)
  have f2 := field_skip (v := 33) (lo := 26) (by decide) (field_skip (v := d.val) (lo := 20) (by decide) (field_hit (lo := 14) b3 v2))
  have f3 := field_skip (v := 33) (lo := 26) (by decide) (field_skip (v := d.val) (lo := 20) (by decide) (field_skip (v := a.val) (lo := 14) (by decide) (field_hit (lo := 8) b4 v3)))
  have f4 := field_skip_low (v := 33) (lo := 26) (by decide) (field_skip_low (v := d.val) (lo := 20) (by decide) (field_skip_low (v := a.val) (lo := 14) (by decide) (field_skip_low (v := b.val) (lo := 8) (by decide) (Nat.mod_eq_of_lt v4))))
  refine word_eq e (word_back b0 f0 (by decide) (by decide) ((major_21 f0).trans ?_) hw)
  iterate 2 refine (if_neg (other_value f4 (by decide))).trans ?_
  refine (if_pos f4).trans ?_
  rw [fin64_eq d f1, fin64_eq a f2, fin64_eq b f3]

theorem mnot (d : MaskF) (a : MaskF) : Statement (Instr.mnot d a) := fun hw => by
  have e : put 0x84000003 [(d.val, 20), (a.val, 14)] = 33 * 2 ^ 26 + (d.val * 2 ^ 20 + (a.val * 2 ^ 14 + 3)) := by simp only [put]; omega
  have v3 : 3 < 2 ^ 14 := by decide
  have b3 := v3
  have v2 : a.val < 2 ^ 6 := a.isLt
  have b2 := field_bound (lo := 14) b3 v2
  have v1 : d.val < 2 ^ 6 := d.isLt
  have b1 := field_bound (lo := 20) b2 v1
  have v0 : 33 < 2 ^ 6 := by decide
  have b0 := field_bound (lo := 26) b1 v0
  have f0 := field_hit (lo := 26) b1 v0
  have f1 := field_skip (v := 33) (lo := 26) (by decide) (field_hit (lo := 20) b2 v1)
  have f2 := field_skip (v := 33) (lo := 26) (by decide) (field_skip (v := d.val) (lo := 20) (by decide) (field_hit (lo := 14) b3 v2))
  have f3 := field_skip_low (v := 33) (lo := 26) (by decide) (field_skip_low (v := d.val) (lo := 20) (by decide) (field_skip_low (v := a.val) (lo := 14) (by decide) (Nat.mod_eq_of_lt v3)))
  refine word_eq e (word_back b0 f0 (by decide) (by decide) ((major_21 f0).trans ?_) hw)
  iterate 3 refine (if_neg (fun c => absurd ((low_field 8 f3 (by decide)).symm.trans (low_field 8 c (by decide))) (by decide))).trans ?_
  refine (if_pos f3).trans ?_
  rw [fin64_eq d f1, fin64_eq a f2]

theorem mpopc (d : Reg) (a : MaskF) : Statement (Instr.mpopc d a) := fun hw => by
  have e : put 0x84000004 [(d.val, 20), (a.val, 14)] = 33 * 2 ^ 26 + (0 * 2 ^ 25 + (d.val * 2 ^ 20 + (a.val * 2 ^ 14 + 4))) := by simp only [put]; omega
  have v4 : 4 < 2 ^ 14 := by decide
  have b4 := v4
  have v3 : a.val < 2 ^ 6 := a.isLt
  have b3 := field_bound (lo := 14) b4 v3
  have v2 : d.val < 2 ^ 5 := d.isLt
  have b2 := field_bound (lo := 20) b3 v2
  have v1 : 0 < 2 ^ 1 := by decide
  have b1 := field_bound (lo := 25) b2 v1
  have v0 : 33 < 2 ^ 6 := by decide
  have b0 := field_bound (lo := 26) b1 v0
  have f0 := field_hit (lo := 26) b1 v0
  have f1 := field_skip (v := 33) (lo := 26) (by decide) (field_hit (lo := 25) b2 v1)
  have f2 := field_skip (v := 33) (lo := 26) (by decide) (field_skip (v := 0) (lo := 25) (by decide) (field_hit (lo := 20) b3 v2))
  have f3 := field_skip (v := 33) (lo := 26) (by decide) (field_skip (v := 0) (lo := 25) (by decide) (field_skip (v := d.val) (lo := 20) (by decide) (field_hit (lo := 14) b4 v3)))
  have f4 := field_skip_low (v := 33) (lo := 26) (by decide) (field_skip_low (v := 0) (lo := 25) (by decide) (field_skip_low (v := d.val) (lo := 20) (by decide) (field_skip_low (v := a.val) (lo := 14) (by decide) (Nat.mod_eq_of_lt v4))))
  refine word_eq e (word_back b0 f0 (by decide) (by decide) ((major_21 f0).trans ?_) hw)
  iterate 3 refine (if_neg (fun c => absurd ((low_field 8 f4 (by decide)).symm.trans (low_field 8 c (by decide))) (by decide))).trans ?_
  refine (if_neg (other_value f4 (by decide))).trans ?_
  refine (if_pos ⟨f4, f1⟩).trans ?_
  rw [fin32_eq d f2, fin64_eq a f3]

theorem mfirst (d : Reg) (a : MaskF) : Statement (Instr.mfirst d a) := fun hw => by
  have e : put 0x84000005 [(d.val, 20), (a.val, 14)] = 33 * 2 ^ 26 + (0 * 2 ^ 25 + (d.val * 2 ^ 20 + (a.val * 2 ^ 14 + 5))) := by simp only [put]; omega
  have v4 : 5 < 2 ^ 14 := by decide
  have b4 := v4
  have v3 : a.val < 2 ^ 6 := a.isLt
  have b3 := field_bound (lo := 14) b4 v3
  have v2 : d.val < 2 ^ 5 := d.isLt
  have b2 := field_bound (lo := 20) b3 v2
  have v1 : 0 < 2 ^ 1 := by decide
  have b1 := field_bound (lo := 25) b2 v1
  have v0 : 33 < 2 ^ 6 := by decide
  have b0 := field_bound (lo := 26) b1 v0
  have f0 := field_hit (lo := 26) b1 v0
  have f1 := field_skip (v := 33) (lo := 26) (by decide) (field_hit (lo := 25) b2 v1)
  have f2 := field_skip (v := 33) (lo := 26) (by decide) (field_skip (v := 0) (lo := 25) (by decide) (field_hit (lo := 20) b3 v2))
  have f3 := field_skip (v := 33) (lo := 26) (by decide) (field_skip (v := 0) (lo := 25) (by decide) (field_skip (v := d.val) (lo := 20) (by decide) (field_hit (lo := 14) b4 v3)))
  have f4 := field_skip_low (v := 33) (lo := 26) (by decide) (field_skip_low (v := 0) (lo := 25) (by decide) (field_skip_low (v := d.val) (lo := 20) (by decide) (field_skip_low (v := a.val) (lo := 14) (by decide) (Nat.mod_eq_of_lt v4))))
  refine word_eq e (word_back b0 f0 (by decide) (by decide) ((major_21 f0).trans ?_) hw)
  iterate 3 refine (if_neg (fun c => absurd ((low_field 8 f4 (by decide)).symm.trans (low_field 8 c (by decide))) (by decide))).trans ?_
  refine (if_neg (other_value f4 (by decide))).trans ?_
  refine (if_neg (fun c => other_value f4 (by decide) c.1)).trans ?_
  refine (if_pos ⟨f4, f1⟩).trans ?_
  rw [fin32_eq d f2, fin64_eq a f3]

theorem mtos (d : Reg) (a : MaskF) (b : Reg) : Statement (Instr.mtos d a b) := fun hw => by
  have e : put 0x84000006 [(d.val, 20), (a.val, 14), (b.val, 8)] = 33 * 2 ^ 26 + (0 * 2 ^ 25 + (d.val * 2 ^ 20 + (a.val * 2 ^ 14 + (0 * 2 ^ 13 + (b.val * 2 ^ 8 + 6))))) := by simp only [put]; omega
  have v6 : 6 < 2 ^ 8 := by decide
  have b6 := v6
  have v5 : b.val < 2 ^ 5 := b.isLt
  have b5 := field_bound (lo := 8) b6 v5
  have v4 : 0 < 2 ^ 1 := by decide
  have b4 := field_bound (lo := 13) b5 v4
  have v3 : a.val < 2 ^ 6 := a.isLt
  have b3 := field_bound (lo := 14) b4 v3
  have v2 : d.val < 2 ^ 5 := d.isLt
  have b2 := field_bound (lo := 20) b3 v2
  have v1 : 0 < 2 ^ 1 := by decide
  have b1 := field_bound (lo := 25) b2 v1
  have v0 : 33 < 2 ^ 6 := by decide
  have b0 := field_bound (lo := 26) b1 v0
  have f0 := field_hit (lo := 26) b1 v0
  have f1 := field_skip (v := 33) (lo := 26) (by decide) (field_hit (lo := 25) b2 v1)
  have f2 := field_skip (v := 33) (lo := 26) (by decide) (field_skip (v := 0) (lo := 25) (by decide) (field_hit (lo := 20) b3 v2))
  have f3 := field_skip (v := 33) (lo := 26) (by decide) (field_skip (v := 0) (lo := 25) (by decide) (field_skip (v := d.val) (lo := 20) (by decide) (field_hit (lo := 14) b4 v3)))
  have f4 := field_skip (v := 33) (lo := 26) (by decide) (field_skip (v := 0) (lo := 25) (by decide) (field_skip (v := d.val) (lo := 20) (by decide) (field_skip (v := a.val) (lo := 14) (by decide) (field_hit (lo := 13) b5 v4))))
  have f5 := field_skip (v := 33) (lo := 26) (by decide) (field_skip (v := 0) (lo := 25) (by decide) (field_skip (v := d.val) (lo := 20) (by decide) (field_skip (v := a.val) (lo := 14) (by decide) (field_skip (v := 0) (lo := 13) (by decide) (field_hit (lo := 8) b6 v5)))))
  have f6 := field_skip_low (v := 33) (lo := 26) (by decide) (field_skip_low (v := 0) (lo := 25) (by decide) (field_skip_low (v := d.val) (lo := 20) (by decide) (field_skip_low (v := a.val) (lo := 14) (by decide) (field_skip_low (v := 0) (lo := 13) (by decide) (field_skip_low (v := b.val) (lo := 8) (by decide) (Nat.mod_eq_of_lt v6))))))
  refine word_eq e (word_back b0 f0 (by decide) (by decide) ((major_21 f0).trans ?_) hw)
  iterate 3 refine (if_neg (other_value f6 (by decide))).trans ?_
  refine (if_neg (fun c => absurd ((low_field 8 f6 (by decide)).symm.trans (low_field 8 c (by decide))) (by decide))).trans ?_
  iterate 2 refine (if_neg (fun c => absurd ((low_field 8 f6 (by decide)).symm.trans (low_field 8 c.1 (by decide))) (by decide))).trans ?_
  refine (if_pos ⟨f6, f4, f1⟩).trans ?_
  rw [fin32_eq d f2, fin64_eq a f3, fin32_eq b f5]

theorem stom (d : MaskF) (a : Reg) (b : Reg) : Statement (Instr.stom d a b) := fun hw => by
  have e : put 0x84000007 [(d.val, 20), (a.val, 14), (b.val, 8)] = 33 * 2 ^ 26 + (d.val * 2 ^ 20 + (0 * 2 ^ 19 + (a.val * 2 ^ 14 + (0 * 2 ^ 13 + (b.val * 2 ^ 8 + 7))))) := by simp only [put]; omega
  have v6 : 7 < 2 ^ 8 := by decide
  have b6 := v6
  have v5 : b.val < 2 ^ 5 := b.isLt
  have b5 := field_bound (lo := 8) b6 v5
  have v4 : 0 < 2 ^ 1 := by decide
  have b4 := field_bound (lo := 13) b5 v4
  have v3 : a.val < 2 ^ 5 := a.isLt
  have b3 := field_bound (lo := 14) b4 v3
  have v2 : 0 < 2 ^ 1 := by decide
  have b2 := field_bound (lo := 19) b3 v2
  have v1 : d.val < 2 ^ 6 := d.isLt
  have b1 := field_bound (lo := 20) b2 v1
  have v0 : 33 < 2 ^ 6 := by decide
  have b0 := field_bound (lo := 26) b1 v0
  have f0 := field_hit (lo := 26) b1 v0
  have f1 := field_skip (v := 33) (lo := 26) (by decide) (field_hit (lo := 20) b2 v1)
  have f2 := field_skip (v := 33) (lo := 26) (by decide) (field_skip (v := d.val) (lo := 20) (by decide) (field_hit (lo := 19) b3 v2))
  have f3 := field_skip (v := 33) (lo := 26) (by decide) (field_skip (v := d.val) (lo := 20) (by decide) (field_skip (v := 0) (lo := 19) (by decide) (field_hit (lo := 14) b4 v3)))
  have f4 := field_skip (v := 33) (lo := 26) (by decide) (field_skip (v := d.val) (lo := 20) (by decide) (field_skip (v := 0) (lo := 19) (by decide) (field_skip (v := a.val) (lo := 14) (by decide) (field_hit (lo := 13) b5 v4))))
  have f5 := field_skip (v := 33) (lo := 26) (by decide) (field_skip (v := d.val) (lo := 20) (by decide) (field_skip (v := 0) (lo := 19) (by decide) (field_skip (v := a.val) (lo := 14) (by decide) (field_skip (v := 0) (lo := 13) (by decide) (field_hit (lo := 8) b6 v5)))))
  have f6 := field_skip_low (v := 33) (lo := 26) (by decide) (field_skip_low (v := d.val) (lo := 20) (by decide) (field_skip_low (v := 0) (lo := 19) (by decide) (field_skip_low (v := a.val) (lo := 14) (by decide) (field_skip_low (v := 0) (lo := 13) (by decide) (field_skip_low (v := b.val) (lo := 8) (by decide) (Nat.mod_eq_of_lt v6))))))
  refine word_eq e (word_back b0 f0 (by decide) (by decide) ((major_21 f0).trans ?_) hw)
  iterate 3 refine (if_neg (other_value f6 (by decide))).trans ?_
  refine (if_neg (fun c => absurd ((low_field 8 f6 (by decide)).symm.trans (low_field 8 c (by decide))) (by decide))).trans ?_
  iterate 2 refine (if_neg (fun c => absurd ((low_field 8 f6 (by decide)).symm.trans (low_field 8 c.1 (by decide))) (by decide))).trans ?_
  refine (if_neg (fun c => other_value f6 (by decide) c.1)).trans ?_
  refine (if_pos ⟨f6, f4, f2⟩).trans ?_
  rw [fin64_eq d f1, fin32_eq a f3, fin32_eq b f5]

theorem mset (d : MaskF) (a : Reg) (b : Reg) : Statement (Instr.mset d a b) := fun hw => by
  have e : put 0x84000008 [(d.val, 20), (a.val, 14), (b.val, 8)] = 33 * 2 ^ 26 + (d.val * 2 ^ 20 + (0 * 2 ^ 19 + (a.val * 2 ^ 14 + (0 * 2 ^ 13 + (b.val * 2 ^ 8 + 8))))) := by simp only [put]; omega
  have v6 : 8 < 2 ^ 8 := by decide
  have b6 := v6
  have v5 : b.val < 2 ^ 5 := b.isLt
  have b5 := field_bound (lo := 8) b6 v5
  have v4 : 0 < 2 ^ 1 := by decide
  have b4 := field_bound (lo := 13) b5 v4
  have v3 : a.val < 2 ^ 5 := a.isLt
  have b3 := field_bound (lo := 14) b4 v3
  have v2 : 0 < 2 ^ 1 := by decide
  have b2 := field_bound (lo := 19) b3 v2
  have v1 : d.val < 2 ^ 6 := d.isLt
  have b1 := field_bound (lo := 20) b2 v1
  have v0 : 33 < 2 ^ 6 := by decide
  have b0 := field_bound (lo := 26) b1 v0
  have f0 := field_hit (lo := 26) b1 v0
  have f1 := field_skip (v := 33) (lo := 26) (by decide) (field_hit (lo := 20) b2 v1)
  have f2 := field_skip (v := 33) (lo := 26) (by decide) (field_skip (v := d.val) (lo := 20) (by decide) (field_hit (lo := 19) b3 v2))
  have f3 := field_skip (v := 33) (lo := 26) (by decide) (field_skip (v := d.val) (lo := 20) (by decide) (field_skip (v := 0) (lo := 19) (by decide) (field_hit (lo := 14) b4 v3)))
  have f4 := field_skip (v := 33) (lo := 26) (by decide) (field_skip (v := d.val) (lo := 20) (by decide) (field_skip (v := 0) (lo := 19) (by decide) (field_skip (v := a.val) (lo := 14) (by decide) (field_hit (lo := 13) b5 v4))))
  have f5 := field_skip (v := 33) (lo := 26) (by decide) (field_skip (v := d.val) (lo := 20) (by decide) (field_skip (v := 0) (lo := 19) (by decide) (field_skip (v := a.val) (lo := 14) (by decide) (field_skip (v := 0) (lo := 13) (by decide) (field_hit (lo := 8) b6 v5)))))
  have f6 := field_skip_low (v := 33) (lo := 26) (by decide) (field_skip_low (v := d.val) (lo := 20) (by decide) (field_skip_low (v := 0) (lo := 19) (by decide) (field_skip_low (v := a.val) (lo := 14) (by decide) (field_skip_low (v := 0) (lo := 13) (by decide) (field_skip_low (v := b.val) (lo := 8) (by decide) (Nat.mod_eq_of_lt v6))))))
  refine word_eq e (word_back b0 f0 (by decide) (by decide) ((major_21 f0).trans ?_) hw)
  iterate 3 refine (if_neg (other_value f6 (by decide))).trans ?_
  refine (if_neg (fun c => absurd ((low_field 8 f6 (by decide)).symm.trans (low_field 8 c (by decide))) (by decide))).trans ?_
  iterate 2 refine (if_neg (fun c => absurd ((low_field 8 f6 (by decide)).symm.trans (low_field 8 c.1 (by decide))) (by decide))).trans ?_
  iterate 2 refine (if_neg (fun c => other_value f6 (by decide) c.1)).trans ?_
  refine (if_pos ⟨f6, f4, f2⟩).trans ?_
  rw [fin64_eq d f1, fin32_eq a f3, fin32_eq b f5]

theorem vld (d : Reg) (b : Reg) (m : MaskF) (c : Fin 16) (f : Bool) : Statement (Instr.vld d b m c f) := fun hw => by
  have e : put 0x88000000 [(d.val, 21), (b.val, 16), (m.val, 5), (c.val, 1), (f.toNat, 0)] = 34 * 2 ^ 26 + (d.val * 2 ^ 21 + (b.val * 2 ^ 16 + (0 * 2 ^ 11 + (m.val * 2 ^ 5 + (c.val * 2 ^ 1 + f.toNat))))) := by simp only [put]; omega
  have v6 : f.toNat < 2 ^ 1 := bool_lt f
  have b6 := v6
  have v5 : c.val < 2 ^ 4 := c.isLt
  have b5 := field_bound (lo := 1) b6 v5
  have v4 : m.val < 2 ^ 6 := m.isLt
  have b4 := field_bound (lo := 5) b5 v4
  have v3 : 0 < 2 ^ 5 := by decide
  have b3 := field_bound (lo := 11) b4 v3
  have v2 : b.val < 2 ^ 5 := b.isLt
  have b2 := field_bound (lo := 16) b3 v2
  have v1 : d.val < 2 ^ 5 := d.isLt
  have b1 := field_bound (lo := 21) b2 v1
  have v0 : 34 < 2 ^ 6 := by decide
  have b0 := field_bound (lo := 26) b1 v0
  have f0 := field_hit (lo := 26) b1 v0
  have f1 := field_skip (v := 34) (lo := 26) (by decide) (field_hit (lo := 21) b2 v1)
  have f2 := field_skip (v := 34) (lo := 26) (by decide) (field_skip (v := d.val) (lo := 21) (by decide) (field_hit (lo := 16) b3 v2))
  have f3 := field_skip (v := 34) (lo := 26) (by decide) (field_skip (v := d.val) (lo := 21) (by decide) (field_skip (v := b.val) (lo := 16) (by decide) (field_hit (lo := 11) b4 v3)))
  have f4 := field_skip (v := 34) (lo := 26) (by decide) (field_skip (v := d.val) (lo := 21) (by decide) (field_skip (v := b.val) (lo := 16) (by decide) (field_skip (v := 0) (lo := 11) (by decide) (field_hit (lo := 5) b5 v4))))
  have f5 := field_skip (v := 34) (lo := 26) (by decide) (field_skip (v := d.val) (lo := 21) (by decide) (field_skip (v := b.val) (lo := 16) (by decide) (field_skip (v := 0) (lo := 11) (by decide) (field_skip (v := m.val) (lo := 5) (by decide) (field_hit (lo := 1) b6 v5)))))
  have f6 := field_skip_low (v := 34) (lo := 26) (by decide) (field_skip_low (v := d.val) (lo := 21) (by decide) (field_skip_low (v := b.val) (lo := 16) (by decide) (field_skip_low (v := 0) (lo := 11) (by decide) (field_skip_low (v := m.val) (lo := 5) (by decide) (field_skip_low (v := c.val) (lo := 1) (by decide) (Nat.mod_eq_of_lt v6))))))
  refine word_eq e (word_back b0 f0 (by decide) (by decide) ((major_22 f0).trans ?_) hw)
  refine (if_pos f3).trans ?_
  rw [fin32_eq d f1, fin32_eq b f2, fin64_eq m f4, finOf_eq c f5, bit1_eq f f6]

theorem vlds (d : Reg) (b : Reg) (s : Reg) (m : MaskF) (c : Fin 16) (f : Bool) : Statement (Instr.vlds d b s m c f) := fun hw => by
  have e : put 0x8c000000 [(d.val, 21), (b.val, 16), (s.val, 11), (m.val, 5), (c.val, 1), (f.toNat, 0)] = 35 * 2 ^ 26 + (d.val * 2 ^ 21 + (b.val * 2 ^ 16 + (s.val * 2 ^ 11 + (m.val * 2 ^ 5 + (c.val * 2 ^ 1 + f.toNat))))) := by simp only [put]; omega
  have v6 : f.toNat < 2 ^ 1 := bool_lt f
  have b6 := v6
  have v5 : c.val < 2 ^ 4 := c.isLt
  have b5 := field_bound (lo := 1) b6 v5
  have v4 : m.val < 2 ^ 6 := m.isLt
  have b4 := field_bound (lo := 5) b5 v4
  have v3 : s.val < 2 ^ 5 := s.isLt
  have b3 := field_bound (lo := 11) b4 v3
  have v2 : b.val < 2 ^ 5 := b.isLt
  have b2 := field_bound (lo := 16) b3 v2
  have v1 : d.val < 2 ^ 5 := d.isLt
  have b1 := field_bound (lo := 21) b2 v1
  have v0 : 35 < 2 ^ 6 := by decide
  have b0 := field_bound (lo := 26) b1 v0
  have f0 := field_hit (lo := 26) b1 v0
  have f1 := field_skip (v := 35) (lo := 26) (by decide) (field_hit (lo := 21) b2 v1)
  have f2 := field_skip (v := 35) (lo := 26) (by decide) (field_skip (v := d.val) (lo := 21) (by decide) (field_hit (lo := 16) b3 v2))
  have f3 := field_skip (v := 35) (lo := 26) (by decide) (field_skip (v := d.val) (lo := 21) (by decide) (field_skip (v := b.val) (lo := 16) (by decide) (field_hit (lo := 11) b4 v3)))
  have f4 := field_skip (v := 35) (lo := 26) (by decide) (field_skip (v := d.val) (lo := 21) (by decide) (field_skip (v := b.val) (lo := 16) (by decide) (field_skip (v := s.val) (lo := 11) (by decide) (field_hit (lo := 5) b5 v4))))
  have f5 := field_skip (v := 35) (lo := 26) (by decide) (field_skip (v := d.val) (lo := 21) (by decide) (field_skip (v := b.val) (lo := 16) (by decide) (field_skip (v := s.val) (lo := 11) (by decide) (field_skip (v := m.val) (lo := 5) (by decide) (field_hit (lo := 1) b6 v5)))))
  have f6 := field_skip_low (v := 35) (lo := 26) (by decide) (field_skip_low (v := d.val) (lo := 21) (by decide) (field_skip_low (v := b.val) (lo := 16) (by decide) (field_skip_low (v := s.val) (lo := 11) (by decide) (field_skip_low (v := m.val) (lo := 5) (by decide) (field_skip_low (v := c.val) (lo := 1) (by decide) (Nat.mod_eq_of_lt v6))))))
  refine word_eq e (word_back b0 f0 (by decide) (by decide) ((major_23 f0).trans ?_) hw)
  delta decodeVlds
  rw [fin32_eq d f1, fin32_eq b f2, fin32_eq s f3, fin64_eq m f4, finOf_eq c f5, bit1_eq f f6]

theorem vldx (d : Reg) (b : Reg) (v : Reg) (m : MaskF) (c : Fin 16) (f : Bool) : Statement (Instr.vldx d b v m c f) := fun hw => by
  have e : put 0x90000000 [(d.val, 21), (b.val, 16), (v.val, 11), (m.val, 5), (c.val, 1), (f.toNat, 0)] = 36 * 2 ^ 26 + (d.val * 2 ^ 21 + (b.val * 2 ^ 16 + (v.val * 2 ^ 11 + (m.val * 2 ^ 5 + (c.val * 2 ^ 1 + f.toNat))))) := by simp only [put]; omega
  have v6 : f.toNat < 2 ^ 1 := bool_lt f
  have b6 := v6
  have v5 : c.val < 2 ^ 4 := c.isLt
  have b5 := field_bound (lo := 1) b6 v5
  have v4 : m.val < 2 ^ 6 := m.isLt
  have b4 := field_bound (lo := 5) b5 v4
  have v3 : v.val < 2 ^ 5 := v.isLt
  have b3 := field_bound (lo := 11) b4 v3
  have v2 : b.val < 2 ^ 5 := b.isLt
  have b2 := field_bound (lo := 16) b3 v2
  have v1 : d.val < 2 ^ 5 := d.isLt
  have b1 := field_bound (lo := 21) b2 v1
  have v0 : 36 < 2 ^ 6 := by decide
  have b0 := field_bound (lo := 26) b1 v0
  have f0 := field_hit (lo := 26) b1 v0
  have f1 := field_skip (v := 36) (lo := 26) (by decide) (field_hit (lo := 21) b2 v1)
  have f2 := field_skip (v := 36) (lo := 26) (by decide) (field_skip (v := d.val) (lo := 21) (by decide) (field_hit (lo := 16) b3 v2))
  have f3 := field_skip (v := 36) (lo := 26) (by decide) (field_skip (v := d.val) (lo := 21) (by decide) (field_skip (v := b.val) (lo := 16) (by decide) (field_hit (lo := 11) b4 v3)))
  have f4 := field_skip (v := 36) (lo := 26) (by decide) (field_skip (v := d.val) (lo := 21) (by decide) (field_skip (v := b.val) (lo := 16) (by decide) (field_skip (v := v.val) (lo := 11) (by decide) (field_hit (lo := 5) b5 v4))))
  have f5 := field_skip (v := 36) (lo := 26) (by decide) (field_skip (v := d.val) (lo := 21) (by decide) (field_skip (v := b.val) (lo := 16) (by decide) (field_skip (v := v.val) (lo := 11) (by decide) (field_skip (v := m.val) (lo := 5) (by decide) (field_hit (lo := 1) b6 v5)))))
  have f6 := field_skip_low (v := 36) (lo := 26) (by decide) (field_skip_low (v := d.val) (lo := 21) (by decide) (field_skip_low (v := b.val) (lo := 16) (by decide) (field_skip_low (v := v.val) (lo := 11) (by decide) (field_skip_low (v := m.val) (lo := 5) (by decide) (field_skip_low (v := c.val) (lo := 1) (by decide) (Nat.mod_eq_of_lt v6))))))
  refine word_eq e (word_back b0 f0 (by decide) (by decide) ((major_24 f0).trans ?_) hw)
  delta decodeVldx
  rw [fin32_eq d f1, fin32_eq b f2, fin32_eq v f3, fin64_eq m f4, finOf_eq c f5, bit1_eq f f6]

theorem vst (d : Reg) (b : Reg) (m : MaskF) (c : Fin 16) : Statement (Instr.vst d b m c) := fun hw => by
  have e : put 0x94000000 [(d.val, 21), (b.val, 16), (m.val, 5), (c.val, 1)] = 37 * 2 ^ 26 + (d.val * 2 ^ 21 + (b.val * 2 ^ 16 + (0 * 2 ^ 11 + (m.val * 2 ^ 5 + (c.val * 2 ^ 1 + 0))))) := by simp only [put]; omega
  have v6 : 0 < 2 ^ 1 := by decide
  have b6 := v6
  have v5 : c.val < 2 ^ 4 := c.isLt
  have b5 := field_bound (lo := 1) b6 v5
  have v4 : m.val < 2 ^ 6 := m.isLt
  have b4 := field_bound (lo := 5) b5 v4
  have v3 : 0 < 2 ^ 5 := by decide
  have b3 := field_bound (lo := 11) b4 v3
  have v2 : b.val < 2 ^ 5 := b.isLt
  have b2 := field_bound (lo := 16) b3 v2
  have v1 : d.val < 2 ^ 5 := d.isLt
  have b1 := field_bound (lo := 21) b2 v1
  have v0 : 37 < 2 ^ 6 := by decide
  have b0 := field_bound (lo := 26) b1 v0
  have f0 := field_hit (lo := 26) b1 v0
  have f1 := field_skip (v := 37) (lo := 26) (by decide) (field_hit (lo := 21) b2 v1)
  have f2 := field_skip (v := 37) (lo := 26) (by decide) (field_skip (v := d.val) (lo := 21) (by decide) (field_hit (lo := 16) b3 v2))
  have f3 := field_skip (v := 37) (lo := 26) (by decide) (field_skip (v := d.val) (lo := 21) (by decide) (field_skip (v := b.val) (lo := 16) (by decide) (field_hit (lo := 11) b4 v3)))
  have f4 := field_skip (v := 37) (lo := 26) (by decide) (field_skip (v := d.val) (lo := 21) (by decide) (field_skip (v := b.val) (lo := 16) (by decide) (field_skip (v := 0) (lo := 11) (by decide) (field_hit (lo := 5) b5 v4))))
  have f5 := field_skip (v := 37) (lo := 26) (by decide) (field_skip (v := d.val) (lo := 21) (by decide) (field_skip (v := b.val) (lo := 16) (by decide) (field_skip (v := 0) (lo := 11) (by decide) (field_skip (v := m.val) (lo := 5) (by decide) (field_hit (lo := 1) b6 v5)))))
  have f6 := field_skip_low (v := 37) (lo := 26) (by decide) (field_skip_low (v := d.val) (lo := 21) (by decide) (field_skip_low (v := b.val) (lo := 16) (by decide) (field_skip_low (v := 0) (lo := 11) (by decide) (field_skip_low (v := m.val) (lo := 5) (by decide) (field_skip_low (v := c.val) (lo := 1) (by decide) (Nat.mod_eq_of_lt v6))))))
  refine word_eq e (word_back b0 f0 (by decide) (by decide) ((major_25 f0).trans ?_) hw)
  refine (if_pos ⟨f6, f3⟩).trans ?_
  rw [fin32_eq d f1, fin32_eq b f2, fin64_eq m f4, finOf_eq c f5]

theorem vsts (d : Reg) (b : Reg) (s : Reg) (m : MaskF) (c : Fin 16) : Statement (Instr.vsts d b s m c) := fun hw => by
  have e : put 0x98000000 [(d.val, 21), (b.val, 16), (s.val, 11), (m.val, 5), (c.val, 1)] = 38 * 2 ^ 26 + (d.val * 2 ^ 21 + (b.val * 2 ^ 16 + (s.val * 2 ^ 11 + (m.val * 2 ^ 5 + (c.val * 2 ^ 1 + 0))))) := by simp only [put]; omega
  have v6 : 0 < 2 ^ 1 := by decide
  have b6 := v6
  have v5 : c.val < 2 ^ 4 := c.isLt
  have b5 := field_bound (lo := 1) b6 v5
  have v4 : m.val < 2 ^ 6 := m.isLt
  have b4 := field_bound (lo := 5) b5 v4
  have v3 : s.val < 2 ^ 5 := s.isLt
  have b3 := field_bound (lo := 11) b4 v3
  have v2 : b.val < 2 ^ 5 := b.isLt
  have b2 := field_bound (lo := 16) b3 v2
  have v1 : d.val < 2 ^ 5 := d.isLt
  have b1 := field_bound (lo := 21) b2 v1
  have v0 : 38 < 2 ^ 6 := by decide
  have b0 := field_bound (lo := 26) b1 v0
  have f0 := field_hit (lo := 26) b1 v0
  have f1 := field_skip (v := 38) (lo := 26) (by decide) (field_hit (lo := 21) b2 v1)
  have f2 := field_skip (v := 38) (lo := 26) (by decide) (field_skip (v := d.val) (lo := 21) (by decide) (field_hit (lo := 16) b3 v2))
  have f3 := field_skip (v := 38) (lo := 26) (by decide) (field_skip (v := d.val) (lo := 21) (by decide) (field_skip (v := b.val) (lo := 16) (by decide) (field_hit (lo := 11) b4 v3)))
  have f4 := field_skip (v := 38) (lo := 26) (by decide) (field_skip (v := d.val) (lo := 21) (by decide) (field_skip (v := b.val) (lo := 16) (by decide) (field_skip (v := s.val) (lo := 11) (by decide) (field_hit (lo := 5) b5 v4))))
  have f5 := field_skip (v := 38) (lo := 26) (by decide) (field_skip (v := d.val) (lo := 21) (by decide) (field_skip (v := b.val) (lo := 16) (by decide) (field_skip (v := s.val) (lo := 11) (by decide) (field_skip (v := m.val) (lo := 5) (by decide) (field_hit (lo := 1) b6 v5)))))
  have f6 := field_skip_low (v := 38) (lo := 26) (by decide) (field_skip_low (v := d.val) (lo := 21) (by decide) (field_skip_low (v := b.val) (lo := 16) (by decide) (field_skip_low (v := s.val) (lo := 11) (by decide) (field_skip_low (v := m.val) (lo := 5) (by decide) (field_skip_low (v := c.val) (lo := 1) (by decide) (Nat.mod_eq_of_lt v6))))))
  refine word_eq e (word_back b0 f0 (by decide) (by decide) ((major_26 f0).trans ?_) hw)
  refine (if_pos f6).trans ?_
  rw [fin32_eq d f1, fin32_eq b f2, fin32_eq s f3, fin64_eq m f4, finOf_eq c f5]

theorem vstx (d : Reg) (b : Reg) (v : Reg) (m : MaskF) (c : Fin 16) : Statement (Instr.vstx d b v m c) := fun hw => by
  have e : put 0x9c000000 [(d.val, 21), (b.val, 16), (v.val, 11), (m.val, 5), (c.val, 1)] = 39 * 2 ^ 26 + (d.val * 2 ^ 21 + (b.val * 2 ^ 16 + (v.val * 2 ^ 11 + (m.val * 2 ^ 5 + (c.val * 2 ^ 1 + 0))))) := by simp only [put]; omega
  have v6 : 0 < 2 ^ 1 := by decide
  have b6 := v6
  have v5 : c.val < 2 ^ 4 := c.isLt
  have b5 := field_bound (lo := 1) b6 v5
  have v4 : m.val < 2 ^ 6 := m.isLt
  have b4 := field_bound (lo := 5) b5 v4
  have v3 : v.val < 2 ^ 5 := v.isLt
  have b3 := field_bound (lo := 11) b4 v3
  have v2 : b.val < 2 ^ 5 := b.isLt
  have b2 := field_bound (lo := 16) b3 v2
  have v1 : d.val < 2 ^ 5 := d.isLt
  have b1 := field_bound (lo := 21) b2 v1
  have v0 : 39 < 2 ^ 6 := by decide
  have b0 := field_bound (lo := 26) b1 v0
  have f0 := field_hit (lo := 26) b1 v0
  have f1 := field_skip (v := 39) (lo := 26) (by decide) (field_hit (lo := 21) b2 v1)
  have f2 := field_skip (v := 39) (lo := 26) (by decide) (field_skip (v := d.val) (lo := 21) (by decide) (field_hit (lo := 16) b3 v2))
  have f3 := field_skip (v := 39) (lo := 26) (by decide) (field_skip (v := d.val) (lo := 21) (by decide) (field_skip (v := b.val) (lo := 16) (by decide) (field_hit (lo := 11) b4 v3)))
  have f4 := field_skip (v := 39) (lo := 26) (by decide) (field_skip (v := d.val) (lo := 21) (by decide) (field_skip (v := b.val) (lo := 16) (by decide) (field_skip (v := v.val) (lo := 11) (by decide) (field_hit (lo := 5) b5 v4))))
  have f5 := field_skip (v := 39) (lo := 26) (by decide) (field_skip (v := d.val) (lo := 21) (by decide) (field_skip (v := b.val) (lo := 16) (by decide) (field_skip (v := v.val) (lo := 11) (by decide) (field_skip (v := m.val) (lo := 5) (by decide) (field_hit (lo := 1) b6 v5)))))
  have f6 := field_skip_low (v := 39) (lo := 26) (by decide) (field_skip_low (v := d.val) (lo := 21) (by decide) (field_skip_low (v := b.val) (lo := 16) (by decide) (field_skip_low (v := v.val) (lo := 11) (by decide) (field_skip_low (v := m.val) (lo := 5) (by decide) (field_skip_low (v := c.val) (lo := 1) (by decide) (Nat.mod_eq_of_lt v6))))))
  refine word_eq e (word_back b0 f0 (by decide) (by decide) ((major_27 f0).trans ?_) hw)
  refine (if_pos f6).trans ?_
  rw [fin32_eq d f1, fin32_eq b f2, fin32_eq v f3, fin64_eq m f4, finOf_eq c f5]

theorem vstxa (d : Reg) (b : Reg) (v : Reg) (m : MaskF) (c : Fin 16) (f : Bool) : Statement (Instr.vstxa d b v m c f) := fun hw => by
  have e : put 0xa0000000 [(d.val, 21), (b.val, 16), (v.val, 11), (m.val, 5), (c.val, 1), (f.toNat, 0)] = 40 * 2 ^ 26 + (d.val * 2 ^ 21 + (b.val * 2 ^ 16 + (v.val * 2 ^ 11 + (m.val * 2 ^ 5 + (c.val * 2 ^ 1 + f.toNat))))) := by simp only [put]; omega
  have v6 : f.toNat < 2 ^ 1 := bool_lt f
  have b6 := v6
  have v5 : c.val < 2 ^ 4 := c.isLt
  have b5 := field_bound (lo := 1) b6 v5
  have v4 : m.val < 2 ^ 6 := m.isLt
  have b4 := field_bound (lo := 5) b5 v4
  have v3 : v.val < 2 ^ 5 := v.isLt
  have b3 := field_bound (lo := 11) b4 v3
  have v2 : b.val < 2 ^ 5 := b.isLt
  have b2 := field_bound (lo := 16) b3 v2
  have v1 : d.val < 2 ^ 5 := d.isLt
  have b1 := field_bound (lo := 21) b2 v1
  have v0 : 40 < 2 ^ 6 := by decide
  have b0 := field_bound (lo := 26) b1 v0
  have f0 := field_hit (lo := 26) b1 v0
  have f1 := field_skip (v := 40) (lo := 26) (by decide) (field_hit (lo := 21) b2 v1)
  have f2 := field_skip (v := 40) (lo := 26) (by decide) (field_skip (v := d.val) (lo := 21) (by decide) (field_hit (lo := 16) b3 v2))
  have f3 := field_skip (v := 40) (lo := 26) (by decide) (field_skip (v := d.val) (lo := 21) (by decide) (field_skip (v := b.val) (lo := 16) (by decide) (field_hit (lo := 11) b4 v3)))
  have f4 := field_skip (v := 40) (lo := 26) (by decide) (field_skip (v := d.val) (lo := 21) (by decide) (field_skip (v := b.val) (lo := 16) (by decide) (field_skip (v := v.val) (lo := 11) (by decide) (field_hit (lo := 5) b5 v4))))
  have f5 := field_skip (v := 40) (lo := 26) (by decide) (field_skip (v := d.val) (lo := 21) (by decide) (field_skip (v := b.val) (lo := 16) (by decide) (field_skip (v := v.val) (lo := 11) (by decide) (field_skip (v := m.val) (lo := 5) (by decide) (field_hit (lo := 1) b6 v5)))))
  have f6 := field_skip_low (v := 40) (lo := 26) (by decide) (field_skip_low (v := d.val) (lo := 21) (by decide) (field_skip_low (v := b.val) (lo := 16) (by decide) (field_skip_low (v := v.val) (lo := 11) (by decide) (field_skip_low (v := m.val) (lo := 5) (by decide) (field_skip_low (v := c.val) (lo := 1) (by decide) (Nat.mod_eq_of_lt v6))))))
  refine word_eq e (word_back b0 f0 (by decide) (by decide) ((major_28 f0).trans ?_) hw)
  delta decodeVstxa
  rw [fin32_eq d f1, fin32_eq b f2, fin32_eq v f3, fin64_eq m f4, finOf_eq c f5, bit1_eq f f6]

theorem vshare (d : Reg) (a : Reg) : Statement (Instr.vshare d a) := fun hw => by
  have e : put 0xa4000000 [(d.val, 21), (a.val, 16)] = 41 * 2 ^ 26 + (d.val * 2 ^ 21 + (a.val * 2 ^ 16 + 0)) := by simp only [put]; omega
  have v3 : 0 < 2 ^ 16 := by decide
  have b3 := v3
  have v2 : a.val < 2 ^ 5 := a.isLt
  have b2 := field_bound (lo := 16) b3 v2
  have v1 : d.val < 2 ^ 5 := d.isLt
  have b1 := field_bound (lo := 21) b2 v1
  have v0 : 41 < 2 ^ 6 := by decide
  have b0 := field_bound (lo := 26) b1 v0
  have f0 := field_hit (lo := 26) b1 v0
  have f1 := field_skip (v := 41) (lo := 26) (by decide) (field_hit (lo := 21) b2 v1)
  have f2 := field_skip (v := 41) (lo := 26) (by decide) (field_skip (v := d.val) (lo := 21) (by decide) (field_hit (lo := 16) b3 v2))
  have f3 := field_skip_low (v := 41) (lo := 26) (by decide) (field_skip_low (v := d.val) (lo := 21) (by decide) (field_skip_low (v := a.val) (lo := 16) (by decide) (Nat.mod_eq_of_lt v3)))
  refine word_eq e (word_back b0 f0 (by decide) (by decide) ((major_29 f0).trans ?_) hw)
  refine (if_pos f3).trans ?_
  rw [fin32_eq d f1, fin32_eq a f2]

theorem vcat (d : Reg) (a : Reg) (b : Reg) : Statement (Instr.vcat d a b) := fun hw => by
  have e : put 0xa4000001 [(d.val, 21), (a.val, 16), (b.val, 11)] = 41 * 2 ^ 26 + (d.val * 2 ^ 21 + (a.val * 2 ^ 16 + (b.val * 2 ^ 11 + 1))) := by simp only [put]; omega
  have v4 : 1 < 2 ^ 11 := by decide
  have b4 := v4
  have v3 : b.val < 2 ^ 5 := b.isLt
  have b3 := field_bound (lo := 11) b4 v3
  have v2 : a.val < 2 ^ 5 := a.isLt
  have b2 := field_bound (lo := 16) b3 v2
  have v1 : d.val < 2 ^ 5 := d.isLt
  have b1 := field_bound (lo := 21) b2 v1
  have v0 : 41 < 2 ^ 6 := by decide
  have b0 := field_bound (lo := 26) b1 v0
  have f0 := field_hit (lo := 26) b1 v0
  have f1 := field_skip (v := 41) (lo := 26) (by decide) (field_hit (lo := 21) b2 v1)
  have f2 := field_skip (v := 41) (lo := 26) (by decide) (field_skip (v := d.val) (lo := 21) (by decide) (field_hit (lo := 16) b3 v2))
  have f3 := field_skip (v := 41) (lo := 26) (by decide) (field_skip (v := d.val) (lo := 21) (by decide) (field_skip (v := a.val) (lo := 16) (by decide) (field_hit (lo := 11) b4 v3)))
  have f4 := field_skip_low (v := 41) (lo := 26) (by decide) (field_skip_low (v := d.val) (lo := 21) (by decide) (field_skip_low (v := a.val) (lo := 16) (by decide) (field_skip_low (v := b.val) (lo := 11) (by decide) (Nat.mod_eq_of_lt v4))))
  refine word_eq e (word_back b0 f0 (by decide) (by decide) ((major_29 f0).trans ?_) hw)
  refine (if_neg (fun c => absurd ((low_field 11 f4 (by decide)).symm.trans (low_field 11 c (by decide))) (by decide))).trans ?_
  refine (if_pos f4).trans ?_
  rw [fin32_eq d f1, fin32_eq a f2, fin32_eq b f3]

theorem vtrim (d : Reg) (a : Reg) (f : Reg) (b : Reg) : Statement (Instr.vtrim d a f b) := fun hw => by
  have e : put 0xa4000002 [(d.val, 21), (a.val, 16), (f.val, 11), (b.val, 6)] = 41 * 2 ^ 26 + (d.val * 2 ^ 21 + (a.val * 2 ^ 16 + (f.val * 2 ^ 11 + (b.val * 2 ^ 6 + 2)))) := by simp only [put]; omega
  have v5 : 2 < 2 ^ 6 := by decide
  have b5 := v5
  have v4 : b.val < 2 ^ 5 := b.isLt
  have b4 := field_bound (lo := 6) b5 v4
  have v3 : f.val < 2 ^ 5 := f.isLt
  have b3 := field_bound (lo := 11) b4 v3
  have v2 : a.val < 2 ^ 5 := a.isLt
  have b2 := field_bound (lo := 16) b3 v2
  have v1 : d.val < 2 ^ 5 := d.isLt
  have b1 := field_bound (lo := 21) b2 v1
  have v0 : 41 < 2 ^ 6 := by decide
  have b0 := field_bound (lo := 26) b1 v0
  have f0 := field_hit (lo := 26) b1 v0
  have f1 := field_skip (v := 41) (lo := 26) (by decide) (field_hit (lo := 21) b2 v1)
  have f2 := field_skip (v := 41) (lo := 26) (by decide) (field_skip (v := d.val) (lo := 21) (by decide) (field_hit (lo := 16) b3 v2))
  have f3 := field_skip (v := 41) (lo := 26) (by decide) (field_skip (v := d.val) (lo := 21) (by decide) (field_skip (v := a.val) (lo := 16) (by decide) (field_hit (lo := 11) b4 v3)))
  have f4 := field_skip (v := 41) (lo := 26) (by decide) (field_skip (v := d.val) (lo := 21) (by decide) (field_skip (v := a.val) (lo := 16) (by decide) (field_skip (v := f.val) (lo := 11) (by decide) (field_hit (lo := 6) b5 v4))))
  have f5 := field_skip_low (v := 41) (lo := 26) (by decide) (field_skip_low (v := d.val) (lo := 21) (by decide) (field_skip_low (v := a.val) (lo := 16) (by decide) (field_skip_low (v := f.val) (lo := 11) (by decide) (field_skip_low (v := b.val) (lo := 6) (by decide) (Nat.mod_eq_of_lt v5)))))
  refine word_eq e (word_back b0 f0 (by decide) (by decide) ((major_29 f0).trans ?_) hw)
  iterate 2 refine (if_neg (fun c => absurd ((low_field 6 f5 (by decide)).symm.trans (low_field 6 c (by decide))) (by decide))).trans ?_
  refine (if_pos f5).trans ?_
  rw [fin32_eq d f1, fin32_eq a f2, fin32_eq f f3, fin32_eq b f4]

theorem vsplit (d : Reg) (a : Reg) (n : Reg) : Statement (Instr.vsplit d a n) := fun hw => by
  have e : put 0xa4000003 [(d.val, 21), (a.val, 16), (n.val, 11)] = 41 * 2 ^ 26 + (d.val * 2 ^ 21 + (a.val * 2 ^ 16 + (n.val * 2 ^ 11 + 3))) := by simp only [put]; omega
  have v4 : 3 < 2 ^ 11 := by decide
  have b4 := v4
  have v3 : n.val < 2 ^ 5 := n.isLt
  have b3 := field_bound (lo := 11) b4 v3
  have v2 : a.val < 2 ^ 5 := a.isLt
  have b2 := field_bound (lo := 16) b3 v2
  have v1 : d.val < 2 ^ 5 := d.isLt
  have b1 := field_bound (lo := 21) b2 v1
  have v0 : 41 < 2 ^ 6 := by decide
  have b0 := field_bound (lo := 26) b1 v0
  have f0 := field_hit (lo := 26) b1 v0
  have f1 := field_skip (v := 41) (lo := 26) (by decide) (field_hit (lo := 21) b2 v1)
  have f2 := field_skip (v := 41) (lo := 26) (by decide) (field_skip (v := d.val) (lo := 21) (by decide) (field_hit (lo := 16) b3 v2))
  have f3 := field_skip (v := 41) (lo := 26) (by decide) (field_skip (v := d.val) (lo := 21) (by decide) (field_skip (v := a.val) (lo := 16) (by decide) (field_hit (lo := 11) b4 v3)))
  have f4 := field_skip_low (v := 41) (lo := 26) (by decide) (field_skip_low (v := d.val) (lo := 21) (by decide) (field_skip_low (v := a.val) (lo := 16) (by decide) (field_skip_low (v := n.val) (lo := 11) (by decide) (Nat.mod_eq_of_lt v4))))
  refine word_eq e (word_back b0 f0 (by decide) (by decide) ((major_29 f0).trans ?_) hw)
  refine (if_neg (fun c => absurd ((low_field 11 f4 (by decide)).symm.trans (low_field 11 c (by decide))) (by decide))).trans ?_
  refine (if_neg (other_value f4 (by decide))).trans ?_
  refine (if_neg (fun c => absurd ((low_field 6 f4 (by decide)).symm.trans (low_field 6 c (by decide))) (by decide))).trans ?_
  refine (if_pos f4).trans ?_
  rw [fin32_eq d f1, fin32_eq a f2, fin32_eq n f3]

theorem vpack (d : Reg) (a : Reg) : Statement (Instr.vpack d a) := fun hw => by
  have e : put 0xa4000004 [(d.val, 21), (a.val, 16)] = 41 * 2 ^ 26 + (d.val * 2 ^ 21 + (a.val * 2 ^ 16 + 4)) := by simp only [put]; omega
  have v3 : 4 < 2 ^ 16 := by decide
  have b3 := v3
  have v2 : a.val < 2 ^ 5 := a.isLt
  have b2 := field_bound (lo := 16) b3 v2
  have v1 : d.val < 2 ^ 5 := d.isLt
  have b1 := field_bound (lo := 21) b2 v1
  have v0 : 41 < 2 ^ 6 := by decide
  have b0 := field_bound (lo := 26) b1 v0
  have f0 := field_hit (lo := 26) b1 v0
  have f1 := field_skip (v := 41) (lo := 26) (by decide) (field_hit (lo := 21) b2 v1)
  have f2 := field_skip (v := 41) (lo := 26) (by decide) (field_skip (v := d.val) (lo := 21) (by decide) (field_hit (lo := 16) b3 v2))
  have f3 := field_skip_low (v := 41) (lo := 26) (by decide) (field_skip_low (v := d.val) (lo := 21) (by decide) (field_skip_low (v := a.val) (lo := 16) (by decide) (Nat.mod_eq_of_lt v3)))
  refine word_eq e (word_back b0 f0 (by decide) (by decide) ((major_29 f0).trans ?_) hw)
  refine (if_neg (other_value f3 (by decide))).trans ?_
  refine (if_neg (fun c => absurd ((low_field 11 f3 (by decide)).symm.trans (low_field 11 c (by decide))) (by decide))).trans ?_
  refine (if_neg (fun c => absurd ((low_field 6 f3 (by decide)).symm.trans (low_field 6 c (by decide))) (by decide))).trans ?_
  refine (if_neg (fun c => absurd ((low_field 11 f3 (by decide)).symm.trans (low_field 11 c (by decide))) (by decide))).trans ?_
  refine (if_pos f3).trans ?_
  rw [fin32_eq d f1, fin32_eq a f2]

theorem vfree (a : Reg) : Statement (Instr.vfree a) := fun hw => by
  have e : put 0xa4000005 [(a.val, 16)] = 41 * 2 ^ 26 + (0 * 2 ^ 21 + (a.val * 2 ^ 16 + 5)) := by simp only [put]; omega
  have v3 : 5 < 2 ^ 16 := by decide
  have b3 := v3
  have v2 : a.val < 2 ^ 5 := a.isLt
  have b2 := field_bound (lo := 16) b3 v2
  have v1 : 0 < 2 ^ 5 := by decide
  have b1 := field_bound (lo := 21) b2 v1
  have v0 : 41 < 2 ^ 6 := by decide
  have b0 := field_bound (lo := 26) b1 v0
  have f0 := field_hit (lo := 26) b1 v0
  have f1 := field_skip (v := 41) (lo := 26) (by decide) (field_hit (lo := 21) b2 v1)
  have f2 := field_skip (v := 41) (lo := 26) (by decide) (field_skip (v := 0) (lo := 21) (by decide) (field_hit (lo := 16) b3 v2))
  have f3 := field_skip_low (v := 41) (lo := 26) (by decide) (field_skip_low (v := 0) (lo := 21) (by decide) (field_skip_low (v := a.val) (lo := 16) (by decide) (Nat.mod_eq_of_lt v3)))
  refine word_eq e (word_back b0 f0 (by decide) (by decide) ((major_29 f0).trans ?_) hw)
  refine (if_neg (other_value f3 (by decide))).trans ?_
  refine (if_neg (fun c => absurd ((low_field 11 f3 (by decide)).symm.trans (low_field 11 c (by decide))) (by decide))).trans ?_
  refine (if_neg (fun c => absurd ((low_field 6 f3 (by decide)).symm.trans (low_field 6 c (by decide))) (by decide))).trans ?_
  refine (if_neg (fun c => absurd ((low_field 11 f3 (by decide)).symm.trans (low_field 11 c (by decide))) (by decide))).trans ?_
  refine (if_neg (other_value f3 (by decide))).trans ?_
  refine (if_pos ⟨f3, f1⟩).trans ?_
  rw [fin32_eq a f2]

theorem vdesc (d : Reg) (a : Reg) : Statement (Instr.vdesc d a) := fun hw => by
  have e : put 0xa4000006 [(d.val, 21), (a.val, 16)] = 41 * 2 ^ 26 + (d.val * 2 ^ 21 + (a.val * 2 ^ 16 + 6)) := by simp only [put]; omega
  have v3 : 6 < 2 ^ 16 := by decide
  have b3 := v3
  have v2 : a.val < 2 ^ 5 := a.isLt
  have b2 := field_bound (lo := 16) b3 v2
  have v1 : d.val < 2 ^ 5 := d.isLt
  have b1 := field_bound (lo := 21) b2 v1
  have v0 : 41 < 2 ^ 6 := by decide
  have b0 := field_bound (lo := 26) b1 v0
  have f0 := field_hit (lo := 26) b1 v0
  have f1 := field_skip (v := 41) (lo := 26) (by decide) (field_hit (lo := 21) b2 v1)
  have f2 := field_skip (v := 41) (lo := 26) (by decide) (field_skip (v := d.val) (lo := 21) (by decide) (field_hit (lo := 16) b3 v2))
  have f3 := field_skip_low (v := 41) (lo := 26) (by decide) (field_skip_low (v := d.val) (lo := 21) (by decide) (field_skip_low (v := a.val) (lo := 16) (by decide) (Nat.mod_eq_of_lt v3)))
  refine word_eq e (word_back b0 f0 (by decide) (by decide) ((major_29 f0).trans ?_) hw)
  refine (if_neg (other_value f3 (by decide))).trans ?_
  refine (if_neg (fun c => absurd ((low_field 11 f3 (by decide)).symm.trans (low_field 11 c (by decide))) (by decide))).trans ?_
  refine (if_neg (fun c => absurd ((low_field 6 f3 (by decide)).symm.trans (low_field 6 c (by decide))) (by decide))).trans ?_
  refine (if_neg (fun c => absurd ((low_field 11 f3 (by decide)).symm.trans (low_field 11 c (by decide))) (by decide))).trans ?_
  refine (if_neg (other_value f3 (by decide))).trans ?_
  refine (if_neg (fun c => other_value f3 (by decide) c.1)).trans ?_
  refine (if_pos f3).trans ?_
  rw [fin32_eq d f1, fin32_eq a f2]

theorem vlen (d : Reg) (a : Reg) : Statement (Instr.vlen d a) := fun hw => by
  have e : put 0xa4000007 [(d.val, 21), (a.val, 16)] = 41 * 2 ^ 26 + (d.val * 2 ^ 21 + (a.val * 2 ^ 16 + 7)) := by simp only [put]; omega
  have v3 : 7 < 2 ^ 16 := by decide
  have b3 := v3
  have v2 : a.val < 2 ^ 5 := a.isLt
  have b2 := field_bound (lo := 16) b3 v2
  have v1 : d.val < 2 ^ 5 := d.isLt
  have b1 := field_bound (lo := 21) b2 v1
  have v0 : 41 < 2 ^ 6 := by decide
  have b0 := field_bound (lo := 26) b1 v0
  have f0 := field_hit (lo := 26) b1 v0
  have f1 := field_skip (v := 41) (lo := 26) (by decide) (field_hit (lo := 21) b2 v1)
  have f2 := field_skip (v := 41) (lo := 26) (by decide) (field_skip (v := d.val) (lo := 21) (by decide) (field_hit (lo := 16) b3 v2))
  have f3 := field_skip_low (v := 41) (lo := 26) (by decide) (field_skip_low (v := d.val) (lo := 21) (by decide) (field_skip_low (v := a.val) (lo := 16) (by decide) (Nat.mod_eq_of_lt v3)))
  refine word_eq e (word_back b0 f0 (by decide) (by decide) ((major_29 f0).trans ?_) hw)
  refine (if_neg (other_value f3 (by decide))).trans ?_
  refine (if_neg (fun c => absurd ((low_field 11 f3 (by decide)).symm.trans (low_field 11 c (by decide))) (by decide))).trans ?_
  refine (if_neg (fun c => absurd ((low_field 6 f3 (by decide)).symm.trans (low_field 6 c (by decide))) (by decide))).trans ?_
  refine (if_neg (fun c => absurd ((low_field 11 f3 (by decide)).symm.trans (low_field 11 c (by decide))) (by decide))).trans ?_
  refine (if_neg (other_value f3 (by decide))).trans ?_
  refine (if_neg (fun c => other_value f3 (by decide) c.1)).trans ?_
  refine (if_neg (other_value f3 (by decide))).trans ?_
  refine (if_pos f3).trans ?_
  rw [fin32_eq d f1, fin32_eq a f2]

theorem clmap (d : Reg) (a : Reg) (g : Reg) (b : Reg) : Statement (Instr.clmap d a g b) := fun hw => by
  have e : put 0xa8000000 [(d.val, 21), (a.val, 16), (g.val, 11), (b.val, 6)] = 42 * 2 ^ 26 + (d.val * 2 ^ 21 + (a.val * 2 ^ 16 + (g.val * 2 ^ 11 + (b.val * 2 ^ 6 + 0)))) := by simp only [put]; omega
  have v5 : 0 < 2 ^ 6 := by decide
  have b5 := v5
  have v4 : b.val < 2 ^ 5 := b.isLt
  have b4 := field_bound (lo := 6) b5 v4
  have v3 : g.val < 2 ^ 5 := g.isLt
  have b3 := field_bound (lo := 11) b4 v3
  have v2 : a.val < 2 ^ 5 := a.isLt
  have b2 := field_bound (lo := 16) b3 v2
  have v1 : d.val < 2 ^ 5 := d.isLt
  have b1 := field_bound (lo := 21) b2 v1
  have v0 : 42 < 2 ^ 6 := by decide
  have b0 := field_bound (lo := 26) b1 v0
  have f0 := field_hit (lo := 26) b1 v0
  have f1 := field_skip (v := 42) (lo := 26) (by decide) (field_hit (lo := 21) b2 v1)
  have f2 := field_skip (v := 42) (lo := 26) (by decide) (field_skip (v := d.val) (lo := 21) (by decide) (field_hit (lo := 16) b3 v2))
  have f3 := field_skip (v := 42) (lo := 26) (by decide) (field_skip (v := d.val) (lo := 21) (by decide) (field_skip (v := a.val) (lo := 16) (by decide) (field_hit (lo := 11) b4 v3)))
  have f4 := field_skip (v := 42) (lo := 26) (by decide) (field_skip (v := d.val) (lo := 21) (by decide) (field_skip (v := a.val) (lo := 16) (by decide) (field_skip (v := g.val) (lo := 11) (by decide) (field_hit (lo := 6) b5 v4))))
  have f5 := field_skip_low (v := 42) (lo := 26) (by decide) (field_skip_low (v := d.val) (lo := 21) (by decide) (field_skip_low (v := a.val) (lo := 16) (by decide) (field_skip_low (v := g.val) (lo := 11) (by decide) (field_skip_low (v := b.val) (lo := 6) (by decide) (Nat.mod_eq_of_lt v5)))))
  refine word_eq e (word_back b0 f0 (by decide) (by decide) ((major_2a f0).trans ?_) hw)
  refine (if_pos f5).trans ?_
  rw [fin32_eq d f1, fin32_eq a f2, fin32_eq g f3, fin32_eq b f4]

theorem clcomp (d : Reg) (a : Reg) (g : Reg) : Statement (Instr.clcomp d a g) := fun hw => by
  have e : put 0xa8000001 [(d.val, 21), (a.val, 16), (g.val, 11)] = 42 * 2 ^ 26 + (d.val * 2 ^ 21 + (a.val * 2 ^ 16 + (g.val * 2 ^ 11 + 1))) := by simp only [put]; omega
  have v4 : 1 < 2 ^ 11 := by decide
  have b4 := v4
  have v3 : g.val < 2 ^ 5 := g.isLt
  have b3 := field_bound (lo := 11) b4 v3
  have v2 : a.val < 2 ^ 5 := a.isLt
  have b2 := field_bound (lo := 16) b3 v2
  have v1 : d.val < 2 ^ 5 := d.isLt
  have b1 := field_bound (lo := 21) b2 v1
  have v0 : 42 < 2 ^ 6 := by decide
  have b0 := field_bound (lo := 26) b1 v0
  have f0 := field_hit (lo := 26) b1 v0
  have f1 := field_skip (v := 42) (lo := 26) (by decide) (field_hit (lo := 21) b2 v1)
  have f2 := field_skip (v := 42) (lo := 26) (by decide) (field_skip (v := d.val) (lo := 21) (by decide) (field_hit (lo := 16) b3 v2))
  have f3 := field_skip (v := 42) (lo := 26) (by decide) (field_skip (v := d.val) (lo := 21) (by decide) (field_skip (v := a.val) (lo := 16) (by decide) (field_hit (lo := 11) b4 v3)))
  have f4 := field_skip_low (v := 42) (lo := 26) (by decide) (field_skip_low (v := d.val) (lo := 21) (by decide) (field_skip_low (v := a.val) (lo := 16) (by decide) (field_skip_low (v := g.val) (lo := 11) (by decide) (Nat.mod_eq_of_lt v4))))
  refine word_eq e (word_back b0 f0 (by decide) (by decide) ((major_2a f0).trans ?_) hw)
  refine (if_neg (fun c => absurd ((low_field 6 f4 (by decide)).symm.trans (low_field 6 c (by decide))) (by decide))).trans ?_
  refine (if_pos f4).trans ?_
  rw [fin32_eq d f1, fin32_eq a f2, fin32_eq g f3]

theorem clscan (d : Reg) (a : Reg) : Statement (Instr.clscan d a) := fun hw => by
  have e : put 0xa8000002 [(d.val, 21), (a.val, 16)] = 42 * 2 ^ 26 + (d.val * 2 ^ 21 + (a.val * 2 ^ 16 + 2)) := by simp only [put]; omega
  have v3 : 2 < 2 ^ 16 := by decide
  have b3 := v3
  have v2 : a.val < 2 ^ 5 := a.isLt
  have b2 := field_bound (lo := 16) b3 v2
  have v1 : d.val < 2 ^ 5 := d.isLt
  have b1 := field_bound (lo := 21) b2 v1
  have v0 : 42 < 2 ^ 6 := by decide
  have b0 := field_bound (lo := 26) b1 v0
  have f0 := field_hit (lo := 26) b1 v0
  have f1 := field_skip (v := 42) (lo := 26) (by decide) (field_hit (lo := 21) b2 v1)
  have f2 := field_skip (v := 42) (lo := 26) (by decide) (field_skip (v := d.val) (lo := 21) (by decide) (field_hit (lo := 16) b3 v2))
  have f3 := field_skip_low (v := 42) (lo := 26) (by decide) (field_skip_low (v := d.val) (lo := 21) (by decide) (field_skip_low (v := a.val) (lo := 16) (by decide) (Nat.mod_eq_of_lt v3)))
  refine word_eq e (word_back b0 f0 (by decide) (by decide) ((major_2a f0).trans ?_) hw)
  refine (if_neg (fun c => absurd ((low_field 6 f3 (by decide)).symm.trans (low_field 6 c (by decide))) (by decide))).trans ?_
  refine (if_neg (fun c => absurd ((low_field 11 f3 (by decide)).symm.trans (low_field 11 c (by decide))) (by decide))).trans ?_
  refine (if_pos f3).trans ?_
  rw [fin32_eq d f1, fin32_eq a f2]

theorem clapply (d : Reg) (a : Reg) (b : Reg) : Statement (Instr.clapply d a b) := fun hw => by
  have e : put 0xa8000003 [(d.val, 21), (a.val, 16), (b.val, 11)] = 42 * 2 ^ 26 + (d.val * 2 ^ 21 + (a.val * 2 ^ 16 + (b.val * 2 ^ 11 + 3))) := by simp only [put]; omega
  have v4 : 3 < 2 ^ 11 := by decide
  have b4 := v4
  have v3 : b.val < 2 ^ 5 := b.isLt
  have b3 := field_bound (lo := 11) b4 v3
  have v2 : a.val < 2 ^ 5 := a.isLt
  have b2 := field_bound (lo := 16) b3 v2
  have v1 : d.val < 2 ^ 5 := d.isLt
  have b1 := field_bound (lo := 21) b2 v1
  have v0 : 42 < 2 ^ 6 := by decide
  have b0 := field_bound (lo := 26) b1 v0
  have f0 := field_hit (lo := 26) b1 v0
  have f1 := field_skip (v := 42) (lo := 26) (by decide) (field_hit (lo := 21) b2 v1)
  have f2 := field_skip (v := 42) (lo := 26) (by decide) (field_skip (v := d.val) (lo := 21) (by decide) (field_hit (lo := 16) b3 v2))
  have f3 := field_skip (v := 42) (lo := 26) (by decide) (field_skip (v := d.val) (lo := 21) (by decide) (field_skip (v := a.val) (lo := 16) (by decide) (field_hit (lo := 11) b4 v3)))
  have f4 := field_skip_low (v := 42) (lo := 26) (by decide) (field_skip_low (v := d.val) (lo := 21) (by decide) (field_skip_low (v := a.val) (lo := 16) (by decide) (field_skip_low (v := b.val) (lo := 11) (by decide) (Nat.mod_eq_of_lt v4))))
  refine word_eq e (word_back b0 f0 (by decide) (by decide) ((major_2a f0).trans ?_) hw)
  refine (if_neg (fun c => absurd ((low_field 6 f4 (by decide)).symm.trans (low_field 6 c (by decide))) (by decide))).trans ?_
  refine (if_neg (other_value f4 (by decide))).trans ?_
  refine (if_neg (fun c => absurd ((low_field 11 f4 (by decide)).symm.trans (low_field 11 c (by decide))) (by decide))).trans ?_
  refine (if_pos f4).trans ?_
  rw [fin32_eq d f1, fin32_eq a f2, fin32_eq b f3]

theorem clmask (d : MaskF) (a : Reg) (b : Reg) : Statement (Instr.clmask d a b) := fun hw => by
  have e : put 0xa8000004 [(d.val, 20), (a.val, 11), (b.val, 6)] = 42 * 2 ^ 26 + (d.val * 2 ^ 20 + (0 * 2 ^ 16 + (a.val * 2 ^ 11 + (b.val * 2 ^ 6 + 4)))) := by simp only [put]; omega
  have v5 : 4 < 2 ^ 6 := by decide
  have b5 := v5
  have v4 : b.val < 2 ^ 5 := b.isLt
  have b4 := field_bound (lo := 6) b5 v4
  have v3 : a.val < 2 ^ 5 := a.isLt
  have b3 := field_bound (lo := 11) b4 v3
  have v2 : 0 < 2 ^ 4 := by decide
  have b2 := field_bound (lo := 16) b3 v2
  have v1 : d.val < 2 ^ 6 := d.isLt
  have b1 := field_bound (lo := 20) b2 v1
  have v0 : 42 < 2 ^ 6 := by decide
  have b0 := field_bound (lo := 26) b1 v0
  have f0 := field_hit (lo := 26) b1 v0
  have f1 := field_skip (v := 42) (lo := 26) (by decide) (field_hit (lo := 20) b2 v1)
  have f2 := field_skip (v := 42) (lo := 26) (by decide) (field_skip (v := d.val) (lo := 20) (by decide) (field_hit (lo := 16) b3 v2))
  have f3 := field_skip (v := 42) (lo := 26) (by decide) (field_skip (v := d.val) (lo := 20) (by decide) (field_skip (v := 0) (lo := 16) (by decide) (field_hit (lo := 11) b4 v3)))
  have f4 := field_skip (v := 42) (lo := 26) (by decide) (field_skip (v := d.val) (lo := 20) (by decide) (field_skip (v := 0) (lo := 16) (by decide) (field_skip (v := a.val) (lo := 11) (by decide) (field_hit (lo := 6) b5 v4))))
  have f5 := field_skip_low (v := 42) (lo := 26) (by decide) (field_skip_low (v := d.val) (lo := 20) (by decide) (field_skip_low (v := 0) (lo := 16) (by decide) (field_skip_low (v := a.val) (lo := 11) (by decide) (field_skip_low (v := b.val) (lo := 6) (by decide) (Nat.mod_eq_of_lt v5)))))
  refine word_eq e (word_back b0 f0 (by decide) (by decide) ((major_2a f0).trans ?_) hw)
  refine (if_neg (other_value f5 (by decide))).trans ?_
  iterate 3 refine (if_neg (fun c => absurd ((low_field 6 f5 (by decide)).symm.trans (low_field 6 c (by decide))) (by decide))).trans ?_
  refine (if_pos ⟨f5, f2⟩).trans ?_
  rw [fin64_eq d f1, fin32_eq a f3, fin32_eq b f4]

theorem tbind (a : Reg) (s : Fin 16) : Statement (Instr.tbind a s) := fun hw => by
  have e : put 0xac000000 [(a.val, 16), (s.val, 5)] = 43 * 2 ^ 26 + (0 * 2 ^ 21 + (a.val * 2 ^ 16 + (0 * 2 ^ 9 + (s.val * 2 ^ 5 + 0)))) := by simp only [put]; omega
  have v5 : 0 < 2 ^ 5 := by decide
  have b5 := v5
  have v4 : s.val < 2 ^ 4 := s.isLt
  have b4 := field_bound (lo := 5) b5 v4
  have v3 : 0 < 2 ^ 7 := by decide
  have b3 := field_bound (lo := 9) b4 v3
  have v2 : a.val < 2 ^ 5 := a.isLt
  have b2 := field_bound (lo := 16) b3 v2
  have v1 : 0 < 2 ^ 5 := by decide
  have b1 := field_bound (lo := 21) b2 v1
  have v0 : 43 < 2 ^ 6 := by decide
  have b0 := field_bound (lo := 26) b1 v0
  have f0 := field_hit (lo := 26) b1 v0
  have f1 := field_skip (v := 43) (lo := 26) (by decide) (field_hit (lo := 21) b2 v1)
  have f2 := field_skip (v := 43) (lo := 26) (by decide) (field_skip (v := 0) (lo := 21) (by decide) (field_hit (lo := 16) b3 v2))
  have f3 := field_skip (v := 43) (lo := 26) (by decide) (field_skip (v := 0) (lo := 21) (by decide) (field_skip (v := a.val) (lo := 16) (by decide) (field_hit (lo := 9) b4 v3)))
  have f4 := field_skip (v := 43) (lo := 26) (by decide) (field_skip (v := 0) (lo := 21) (by decide) (field_skip (v := a.val) (lo := 16) (by decide) (field_skip (v := 0) (lo := 9) (by decide) (field_hit (lo := 5) b5 v4))))
  have f5 := field_skip_low (v := 43) (lo := 26) (by decide) (field_skip_low (v := 0) (lo := 21) (by decide) (field_skip_low (v := a.val) (lo := 16) (by decide) (field_skip_low (v := 0) (lo := 9) (by decide) (field_skip_low (v := s.val) (lo := 5) (by decide) (Nat.mod_eq_of_lt v5)))))
  refine word_eq e (word_back b0 f0 (by decide) (by decide) ((major_2b f0).trans ?_) hw)
  refine (if_pos ⟨f5, f3, f1⟩).trans ?_
  rw [fin32_eq a f2, finOf_eq s f4]

theorem ttgt (s : Fin 16) : Statement (Instr.ttgt s) := fun hw => by
  have e : put 0xac000001 [(s.val, 5)] = 43 * 2 ^ 26 + (0 * 2 ^ 9 + (s.val * 2 ^ 5 + 1)) := by simp only [put]; omega
  have v3 : 1 < 2 ^ 5 := by decide
  have b3 := v3
  have v2 : s.val < 2 ^ 4 := s.isLt
  have b2 := field_bound (lo := 5) b3 v2
  have v1 : 0 < 2 ^ 17 := by decide
  have b1 := field_bound (lo := 9) b2 v1
  have v0 : 43 < 2 ^ 6 := by decide
  have b0 := field_bound (lo := 26) b1 v0
  have f0 := field_hit (lo := 26) b1 v0
  have f1 := field_skip (v := 43) (lo := 26) (by decide) (field_hit (lo := 9) b2 v1)
  have f2 := field_skip (v := 43) (lo := 26) (by decide) (field_skip (v := 0) (lo := 9) (by decide) (field_hit (lo := 5) b3 v2))
  have f3 := field_skip_low (v := 43) (lo := 26) (by decide) (field_skip_low (v := 0) (lo := 9) (by decide) (field_skip_low (v := s.val) (lo := 5) (by decide) (Nat.mod_eq_of_lt v3)))
  refine word_eq e (word_back b0 f0 (by decide) (by decide) ((major_2b f0).trans ?_) hw)
  refine (if_neg (fun c => other_value f3 (by decide) c.1)).trans ?_
  refine (if_pos ⟨f3, f1⟩).trans ?_
  rw [finOf_eq s f2]

theorem twait (s : Fin 16) : Statement (Instr.twait s) := fun hw => by
  have e : put 0xac000002 [(s.val, 5)] = 43 * 2 ^ 26 + (0 * 2 ^ 9 + (s.val * 2 ^ 5 + 2)) := by simp only [put]; omega
  have v3 : 2 < 2 ^ 5 := by decide
  have b3 := v3
  have v2 : s.val < 2 ^ 4 := s.isLt
  have b2 := field_bound (lo := 5) b3 v2
  have v1 : 0 < 2 ^ 17 := by decide
  have b1 := field_bound (lo := 9) b2 v1
  have v0 : 43 < 2 ^ 6 := by decide
  have b0 := field_bound (lo := 26) b1 v0
  have f0 := field_hit (lo := 26) b1 v0
  have f1 := field_skip (v := 43) (lo := 26) (by decide) (field_hit (lo := 9) b2 v1)
  have f2 := field_skip (v := 43) (lo := 26) (by decide) (field_skip (v := 0) (lo := 9) (by decide) (field_hit (lo := 5) b3 v2))
  have f3 := field_skip_low (v := 43) (lo := 26) (by decide) (field_skip_low (v := 0) (lo := 9) (by decide) (field_skip_low (v := s.val) (lo := 5) (by decide) (Nat.mod_eq_of_lt v3)))
  refine word_eq e (word_back b0 f0 (by decide) (by decide) ((major_2b f0).trans ?_) hw)
  iterate 2 refine (if_neg (fun c => other_value f3 (by decide) c.1)).trans ?_
  refine (if_pos ⟨f3, f1⟩).trans ?_
  rw [finOf_eq s f2]

theorem tget (d : Reg) (s : Fin 16) : Statement (Instr.tget d s) := fun hw => by
  have e : put 0xac000003 [(d.val, 21), (s.val, 5)] = 43 * 2 ^ 26 + (d.val * 2 ^ 21 + (0 * 2 ^ 9 + (s.val * 2 ^ 5 + 3))) := by simp only [put]; omega
  have v4 : 3 < 2 ^ 5 := by decide
  have b4 := v4
  have v3 : s.val < 2 ^ 4 := s.isLt
  have b3 := field_bound (lo := 5) b4 v3
  have v2 : 0 < 2 ^ 12 := by decide
  have b2 := field_bound (lo := 9) b3 v2
  have v1 : d.val < 2 ^ 5 := d.isLt
  have b1 := field_bound (lo := 21) b2 v1
  have v0 : 43 < 2 ^ 6 := by decide
  have b0 := field_bound (lo := 26) b1 v0
  have f0 := field_hit (lo := 26) b1 v0
  have f1 := field_skip (v := 43) (lo := 26) (by decide) (field_hit (lo := 21) b2 v1)
  have f2 := field_skip (v := 43) (lo := 26) (by decide) (field_skip (v := d.val) (lo := 21) (by decide) (field_hit (lo := 9) b3 v2))
  have f3 := field_skip (v := 43) (lo := 26) (by decide) (field_skip (v := d.val) (lo := 21) (by decide) (field_skip (v := 0) (lo := 9) (by decide) (field_hit (lo := 5) b4 v3)))
  have f4 := field_skip_low (v := 43) (lo := 26) (by decide) (field_skip_low (v := d.val) (lo := 21) (by decide) (field_skip_low (v := 0) (lo := 9) (by decide) (field_skip_low (v := s.val) (lo := 5) (by decide) (Nat.mod_eq_of_lt v4))))
  refine word_eq e (word_back b0 f0 (by decide) (by decide) ((major_2b f0).trans ?_) hw)
  iterate 3 refine (if_neg (fun c => other_value f4 (by decide) c.1)).trans ?_
  refine (if_pos ⟨f4, f2⟩).trans ?_
  rw [fin32_eq d f1, finOf_eq s f3]

theorem tfree (s : Fin 16) : Statement (Instr.tfree s) := fun hw => by
  have e : put 0xac000004 [(s.val, 5)] = 43 * 2 ^ 26 + (0 * 2 ^ 9 + (s.val * 2 ^ 5 + 4)) := by simp only [put]; omega
  have v3 : 4 < 2 ^ 5 := by decide
  have b3 := v3
  have v2 : s.val < 2 ^ 4 := s.isLt
  have b2 := field_bound (lo := 5) b3 v2
  have v1 : 0 < 2 ^ 17 := by decide
  have b1 := field_bound (lo := 9) b2 v1
  have v0 : 43 < 2 ^ 6 := by decide
  have b0 := field_bound (lo := 26) b1 v0
  have f0 := field_hit (lo := 26) b1 v0
  have f1 := field_skip (v := 43) (lo := 26) (by decide) (field_hit (lo := 9) b2 v1)
  have f2 := field_skip (v := 43) (lo := 26) (by decide) (field_skip (v := 0) (lo := 9) (by decide) (field_hit (lo := 5) b3 v2))
  have f3 := field_skip_low (v := 43) (lo := 26) (by decide) (field_skip_low (v := 0) (lo := 9) (by decide) (field_skip_low (v := s.val) (lo := 5) (by decide) (Nat.mod_eq_of_lt v3)))
  refine word_eq e (word_back b0 f0 (by decide) (by decide) ((major_2b f0).trans ?_) hw)
  iterate 4 refine (if_neg (fun c => other_value f3 (by decide) c.1)).trans ?_
  refine (if_pos ⟨f3, f1⟩).trans ?_
  rw [finOf_eq s f2]

theorem pat (d : Reg) (a : Reg) (b : Reg) (m : MaskF) (p : Fin 32) : Statement (Instr.pat d a b m p) := fun hw => by
  have e : put 0xb0000000 [(d.val, 21), (a.val, 16), (b.val, 11), (m.val, 5), (p.val, 0)] = 44 * 2 ^ 26 + (d.val * 2 ^ 21 + (a.val * 2 ^ 16 + (b.val * 2 ^ 11 + (m.val * 2 ^ 5 + p.val)))) := by simp only [put]; omega
  have v5 : p.val < 2 ^ 5 := p.isLt
  have b5 := v5
  have v4 : m.val < 2 ^ 6 := m.isLt
  have b4 := field_bound (lo := 5) b5 v4
  have v3 : b.val < 2 ^ 5 := b.isLt
  have b3 := field_bound (lo := 11) b4 v3
  have v2 : a.val < 2 ^ 5 := a.isLt
  have b2 := field_bound (lo := 16) b3 v2
  have v1 : d.val < 2 ^ 5 := d.isLt
  have b1 := field_bound (lo := 21) b2 v1
  have v0 : 44 < 2 ^ 6 := by decide
  have b0 := field_bound (lo := 26) b1 v0
  have f0 := field_hit (lo := 26) b1 v0
  have f1 := field_skip (v := 44) (lo := 26) (by decide) (field_hit (lo := 21) b2 v1)
  have f2 := field_skip (v := 44) (lo := 26) (by decide) (field_skip (v := d.val) (lo := 21) (by decide) (field_hit (lo := 16) b3 v2))
  have f3 := field_skip (v := 44) (lo := 26) (by decide) (field_skip (v := d.val) (lo := 21) (by decide) (field_skip (v := a.val) (lo := 16) (by decide) (field_hit (lo := 11) b4 v3)))
  have f4 := field_skip (v := 44) (lo := 26) (by decide) (field_skip (v := d.val) (lo := 21) (by decide) (field_skip (v := a.val) (lo := 16) (by decide) (field_skip (v := b.val) (lo := 11) (by decide) (field_hit (lo := 5) b5 v4))))
  have f5 := field_skip_low (v := 44) (lo := 26) (by decide) (field_skip_low (v := d.val) (lo := 21) (by decide) (field_skip_low (v := a.val) (lo := 16) (by decide) (field_skip_low (v := b.val) (lo := 11) (by decide) (field_skip_low (v := m.val) (lo := 5) (by decide) (Nat.mod_eq_of_lt v5)))))
  refine word_eq e (word_back b0 f0 (by decide) (by decide) ((major_2c f0).trans ?_) hw)
  delta decodePat
  rw [fin32_eq d f1, fin32_eq a f2, fin32_eq b f3, fin64_eq m f4, finOf_eq p f5]

theorem hadd (d : Reg) (a : Reg) : Statement (Instr.hadd d a) := fun hw => by
  have h0 := d.isLt
  have h1 := a.isLt
  refine (half_back (h := d.val * 2 ^ 5 + (a.val * 2 ^ 0 + (1024))) (by omega) ?_ : HalfBack _ _)
  have hc : (d.val * 2 ^ 5 + (a.val * 2 ^ 0 + (1024))) / 2 ^ 10 % 2 ^ 5 = 1 := by omega
  simp only [decodeHalf, hc]
  rw [fin32_eq d (by omega), fin32_eq a (by omega)]

theorem hsub (d : Reg) (a : Reg) : Statement (Instr.hsub d a) := fun hw => by
  have h0 := d.isLt
  have h1 := a.isLt
  refine (half_back (h := d.val * 2 ^ 5 + (a.val * 2 ^ 0 + (2048))) (by omega) ?_ : HalfBack _ _)
  have hc : (d.val * 2 ^ 5 + (a.val * 2 ^ 0 + (2048))) / 2 ^ 10 % 2 ^ 5 = 2 := by omega
  simp only [decodeHalf, hc]
  rw [fin32_eq d (by omega), fin32_eq a (by omega)]

theorem hand (d : Reg) (a : Reg) : Statement (Instr.hand d a) := fun hw => by
  have h0 := d.isLt
  have h1 := a.isLt
  refine (half_back (h := d.val * 2 ^ 5 + (a.val * 2 ^ 0 + (3072))) (by omega) ?_ : HalfBack _ _)
  have hc : (d.val * 2 ^ 5 + (a.val * 2 ^ 0 + (3072))) / 2 ^ 10 % 2 ^ 5 = 3 := by omega
  simp only [decodeHalf, hc]
  rw [fin32_eq d (by omega), fin32_eq a (by omega)]

theorem hor (d : Reg) (a : Reg) : Statement (Instr.hor d a) := fun hw => by
  have h0 := d.isLt
  have h1 := a.isLt
  refine (half_back (h := d.val * 2 ^ 5 + (a.val * 2 ^ 0 + (4096))) (by omega) ?_ : HalfBack _ _)
  have hc : (d.val * 2 ^ 5 + (a.val * 2 ^ 0 + (4096))) / 2 ^ 10 % 2 ^ 5 = 4 := by omega
  simp only [decodeHalf, hc]
  rw [fin32_eq d (by omega), fin32_eq a (by omega)]

theorem hmov (d : Reg) (a : Reg) : Statement (Instr.hmov d a) := fun hw => by
  have h0 := d.isLt
  have h1 := a.isLt
  refine (half_back (h := d.val * 2 ^ 5 + (a.val * 2 ^ 0 + (5120))) (by omega) ?_ : HalfBack _ _)
  have hc : (d.val * 2 ^ 5 + (a.val * 2 ^ 0 + (5120))) / 2 ^ 10 % 2 ^ 5 = 5 := by omega
  simp only [decodeHalf, hc]
  rw [fin32_eq d (by omega), fin32_eq a (by omega)]

theorem hinc (d : Reg) (imm : BitVec 5) : Statement (Instr.hinc d imm) := fun hw => by
  have h0 := d.isLt
  have h1 := imm.isLt
  refine (half_back (h := d.val * 2 ^ 5 + (imm.toNat * 2 ^ 0 + (6144))) (by omega) ?_ : HalfBack _ _)
  have hc : (d.val * 2 ^ 5 + (imm.toNat * 2 ^ 0 + (6144))) / 2 ^ 10 % 2 ^ 5 = 6 := by omega
  simp only [decodeHalf, hc]
  rw [fin32_eq d (by omega), bvOf_eq imm (by omega)]

theorem hshl (d : Reg) (sh : Fin 32) : Statement (Instr.hshl d sh) := fun hw => by
  have h0 := d.isLt
  have h1 := sh.isLt
  refine (half_back (h := d.val * 2 ^ 5 + (sh.val * 2 ^ 0 + (7168))) (by omega) ?_ : HalfBack _ _)
  have hc : (d.val * 2 ^ 5 + (sh.val * 2 ^ 0 + (7168))) / 2 ^ 10 % 2 ^ 5 = 7 := by omega
  simp only [decodeHalf, hc]
  rw [fin32_eq d (by omega), fin32_eq sh (by omega)]

theorem hldd (d : Fin 8) (b : Fin 8) (off : Fin 16) : Statement (Instr.hldd d b off) := fun hw => by
  have h0 := d.isLt
  have h1 := b.isLt
  have h2 := off.isLt
  refine (half_back (h := d.val * 2 ^ 7 + (b.val * 2 ^ 4 + (off.val * 2 ^ 0 + (8192)))) (by omega) ?_ : HalfBack _ _)
  have hc : (d.val * 2 ^ 7 + (b.val * 2 ^ 4 + (off.val * 2 ^ 0 + (8192)))) / 2 ^ 10 % 2 ^ 5 = 8 := by omega
  simp only [decodeHalf, hc]
  rw [finOf_eq d (by omega), finOf_eq b (by omega), finOf_eq off (by omega)]

theorem hstd (d : Fin 8) (b : Fin 8) (off : Fin 16) : Statement (Instr.hstd d b off) := fun hw => by
  have h0 := d.isLt
  have h1 := b.isLt
  have h2 := off.isLt
  refine (half_back (h := d.val * 2 ^ 7 + (b.val * 2 ^ 4 + (off.val * 2 ^ 0 + (9216)))) (by omega) ?_ : HalfBack _ _)
  have hc : (d.val * 2 ^ 7 + (b.val * 2 ^ 4 + (off.val * 2 ^ 0 + (9216)))) / 2 ^ 10 % 2 ^ 5 = 9 := by omega
  simp only [decodeHalf, hc]
  rw [finOf_eq d (by omega), finOf_eq b (by omega), finOf_eq off (by omega)]

theorem hbz (a : Reg) (off : BitVec 5) : Statement (Instr.hbz a off) := fun hw => by
  have h0 := a.isLt
  have h1 := off.isLt
  refine (half_back (h := a.val * 2 ^ 5 + (off.toNat * 2 ^ 0 + (10240))) (by omega) ?_ : HalfBack _ _)
  have hc : (a.val * 2 ^ 5 + (off.toNat * 2 ^ 0 + (10240))) / 2 ^ 10 % 2 ^ 5 = 10 := by omega
  simp only [decodeHalf, hc]
  rw [fin32_eq a (by omega), bvOf_eq off (by omega)]

theorem hbnz (a : Reg) (off : BitVec 5) : Statement (Instr.hbnz a off) := fun hw => by
  have h0 := a.isLt
  have h1 := off.isLt
  refine (half_back (h := a.val * 2 ^ 5 + (off.toNat * 2 ^ 0 + (11264))) (by omega) ?_ : HalfBack _ _)
  have hc : (a.val * 2 ^ 5 + (off.toNat * 2 ^ 0 + (11264))) / 2 ^ 10 % 2 ^ 5 = 11 := by omega
  simp only [decodeHalf, hc]
  rw [fin32_eq a (by omega), bvOf_eq off (by omega)]

theorem hjmp (off : BitVec 10) : Statement (Instr.hjmp off) := fun hw => by
  have h0 := off.isLt
  refine (half_back (h := off.toNat * 2 ^ 0 + (12288)) (by omega) ?_ : HalfBack _ _)
  have hc : (off.toNat * 2 ^ 0 + (12288)) / 2 ^ 10 % 2 ^ 5 = 12 := by omega
  simp only [decodeHalf, hc]
  rw [bvOf_eq off (by omega)]

theorem hvadd (d : Fin 8) (a : Fin 8) : Statement (Instr.hvadd d a) := fun hw => by
  have h0 := d.isLt
  have h1 := a.isLt
  refine (half_back (h := d.val * 2 ^ 7 + (a.val * 2 ^ 4 + (13312))) (by omega) ?_ : HalfBack _ _)
  have hc : (d.val * 2 ^ 7 + (a.val * 2 ^ 4 + (13312))) / 2 ^ 10 % 2 ^ 5 = 13 := by omega
  simp only [decodeHalf, hc]
  refine (if_pos (by omega)).trans ?_
  rw [finOf_eq d (by omega), finOf_eq a (by omega)]

theorem mcfg (tyA : Fin 4) (tyB : Fin 4) (acc : Bool) (m64 : Bool) (n64 : Bool) (k : Fin 64) (tb : Bool) (ta : Bool) : Statement (Instr.mcfg tyA tyB acc m64 n64 k tb ta) := fun hw => by
  have h0 := tyA.isLt
  have h1 := tyB.isLt
  have h2 := acc.toNat_lt
  have h3 := m64.toNat_lt
  have h4 := n64.toNat_lt
  have h5 := k.isLt
  have h6 := tb.toNat_lt
  have h7 := ta.toNat_lt
  obtain ⟨x0, e0⟩ : ∃ x, tyA.val * 2 ^ 20 + (tyB.val * 2 ^ 18 + (acc.toNat * 2 ^ 17 + (m64.toNat * 2 ^ 16 + (n64.toNat * 2 ^ 15 + (k.val * 2 ^ 9 + (tb.toNat * 2 ^ 1 + (ta.toNat * 2 ^ 0 + (3019898880)))))))) = x := ⟨_, rfl⟩
  obtain ⟨x1, e1⟩ : ∃ x, 0 = x := ⟨_, rfl⟩
  have g0 : x0 / 2 ^ 20 % 4 = tyA.val := by clear * - h0 h1 h2 h3 h4 h5 h6 h7 e0; omega
  have g1 : x0 / 2 ^ 18 % 4 = tyB.val := by clear * - h0 h1 h2 h3 h4 h5 h6 h7 e0; omega
  have g2 : x0 / 2 ^ 17 % 2 ^ 1 = acc.toNat := by clear * - h0 h1 h2 h3 h4 h5 h6 h7 e0; omega
  have g3 : x0 / 2 ^ 16 % 2 ^ 1 = m64.toNat := by clear * - h0 h1 h2 h3 h4 h5 h6 h7 e0; omega
  have g4 : x0 / 2 ^ 15 % 2 ^ 1 = n64.toNat := by clear * - h0 h1 h2 h3 h4 h5 h6 h7 e0; omega
  have g5 : x0 / 2 ^ 9 % 64 = k.val := by clear * - h0 h1 h2 h3 h4 h5 h6 h7 e0; omega
  have g6 : x0 / 2 % 2 ^ 1 = tb.toNat := by clear * - h0 h1 h2 h3 h4 h5 h6 h7 e0; omega
  have g7 : x0 % 2 ^ 1 = ta.toNat := by clear * - h0 h1 h2 h3 h4 h5 h6 h7 e0; omega
  have hf : x0 / 2 ^ 22 % 2 ^ 4 = 0 := by clear * - h0 h1 h2 h3 h4 h5 h6 h7 e0; omega
  refine long_eq e0 e1 (matrix_back (by clear * - h0 h1 h2 h3 h4 h5 h6 h7 e0; omega) (by clear * - h0 h1 h2 h3 h4 h5 h6 h7 e1; omega) (by clear * - h0 h1 h2 h3 h4 h5 h6 h7 e0; omega) ?_ hw)
  simp only [decodeMatrix, hf]
  refine (if_pos (by clear * - h0 h1 h2 h3 h4 h5 h6 h7 e0 e1; omega)).trans ?_
  rw [finOf_eq tyA g0, finOf_eq tyB g1, bit1_eq acc g2, bit1_eq m64 g3, bit1_eq n64 g4, finOf_eq k g5, bit1_eq tb g6, bit1_eq ta g7]

theorem mma (u : Fin 16) (ac : Fin 4) (rel : Bool) (a : Reg) (b : Reg) : Statement (Instr.mma u ac rel a b) := fun hw => by
  have h0 := u.isLt
  have h1 := ac.isLt
  have h2 := rel.toNat_lt
  have h3 := a.isLt
  have h4 := b.isLt
  obtain ⟨x0, e0⟩ : ∃ x, u.val * 2 ^ 18 + (ac.val * 2 ^ 16 + (rel.toNat * 2 ^ 15 + (3024093184))) = x := ⟨_, rfl⟩
  obtain ⟨x1, e1⟩ : ∃ x, a.val * 2 ^ 27 + (b.val * 2 ^ 22 + (0)) = x := ⟨_, rfl⟩
  have g0 : x0 / 2 ^ 18 % 16 = u.val := by clear * - h0 h1 h2 h3 h4 e0; omega
  have g1 : x0 / 2 ^ 16 % 4 = ac.val := by clear * - h0 h1 h2 h3 h4 e0; omega
  have g2 : x0 / 2 ^ 15 % 2 ^ 1 = rel.toNat := by clear * - h0 h1 h2 h3 h4 e0; omega
  have g3 : x1 / 2 ^ 27 % 2 ^ 5 = a.val := by clear * - h0 h1 h2 h3 h4 e1; omega
  have g4 : x1 / 2 ^ 22 % 2 ^ 5 = b.val := by clear * - h0 h1 h2 h3 h4 e1; omega
  have hf : x0 / 2 ^ 22 % 2 ^ 4 = 1 := by clear * - h0 h1 h2 h3 h4 e0; omega
  refine long_eq e0 e1 (matrix_back (by clear * - h0 h1 h2 h3 h4 e0; omega) (by clear * - h0 h1 h2 h3 h4 e1; omega) (by clear * - h0 h1 h2 h3 h4 e0; omega) ?_ hw)
  simp only [decodeMatrix, hf]
  refine (if_pos (by clear * - h0 h1 h2 h3 h4 e0 e1; omega)).trans ?_
  rw [finOf_eq u g0, finOf_eq ac g1, bit1_eq rel g2, fin32_eq a g3, fin32_eq b g4]

theorem mmasp (u : Fin 16) (ac : Fin 4) (rel : Bool) (a : Reg) (b : Reg) (c : Reg) : Statement (Instr.mmasp u ac rel a b c) := fun hw => by
  have h0 := u.isLt
  have h1 := ac.isLt
  have h2 := rel.toNat_lt
  have h3 := a.isLt
  have h4 := b.isLt
  have h5 := c.isLt
  obtain ⟨x0, e0⟩ : ∃ x, u.val * 2 ^ 18 + (ac.val * 2 ^ 16 + (rel.toNat * 2 ^ 15 + (3028287488))) = x := ⟨_, rfl⟩
  obtain ⟨x1, e1⟩ : ∃ x, a.val * 2 ^ 27 + (b.val * 2 ^ 22 + (c.val * 2 ^ 17 + (0))) = x := ⟨_, rfl⟩
  have g0 : x0 / 2 ^ 18 % 16 = u.val := by clear * - h0 h1 h2 h3 h4 h5 e0; omega
  have g1 : x0 / 2 ^ 16 % 4 = ac.val := by clear * - h0 h1 h2 h3 h4 h5 e0; omega
  have g2 : x0 / 2 ^ 15 % 2 ^ 1 = rel.toNat := by clear * - h0 h1 h2 h3 h4 h5 e0; omega
  have g3 : x1 / 2 ^ 27 % 2 ^ 5 = a.val := by clear * - h0 h1 h2 h3 h4 h5 e1; omega
  have g4 : x1 / 2 ^ 22 % 2 ^ 5 = b.val := by clear * - h0 h1 h2 h3 h4 h5 e1; omega
  have g5 : x1 / 2 ^ 17 % 2 ^ 5 = c.val := by clear * - h0 h1 h2 h3 h4 h5 e1; omega
  have hf : x0 / 2 ^ 22 % 2 ^ 4 = 2 := by clear * - h0 h1 h2 h3 h4 h5 e0; omega
  refine long_eq e0 e1 (matrix_back (by clear * - h0 h1 h2 h3 h4 h5 e0; omega) (by clear * - h0 h1 h2 h3 h4 h5 e1; omega) (by clear * - h0 h1 h2 h3 h4 h5 e0; omega) ?_ hw)
  simp only [decodeMatrix, hf]
  refine (if_pos (by clear * - h0 h1 h2 h3 h4 h5 e0 e1; omega)).trans ?_
  rw [finOf_eq u g0, finOf_eq ac g1, bit1_eq rel g2, fin32_eq a g3, fin32_eq b g4, fin32_eq c g5]

theorem mzero (u : Fin 16) (ac : Fin 4) : Statement (Instr.mzero u ac) := fun hw => by
  have h0 := u.isLt
  have h1 := ac.isLt
  obtain ⟨x0, e0⟩ : ∃ x, u.val * 2 ^ 18 + (ac.val * 2 ^ 16 + (3032481792)) = x := ⟨_, rfl⟩
  obtain ⟨x1, e1⟩ : ∃ x, 0 = x := ⟨_, rfl⟩
  have g0 : x0 / 2 ^ 18 % 16 = u.val := by clear * - h0 h1 e0; omega
  have g1 : x0 / 2 ^ 16 % 4 = ac.val := by clear * - h0 h1 e0; omega
  have hf : x0 / 2 ^ 22 % 2 ^ 4 = 3 := by clear * - h0 h1 e0; omega
  refine long_eq e0 e1 (matrix_back (by clear * - h0 h1 e0; omega) (by clear * - h0 h1 e1; omega) (by clear * - h0 h1 e0; omega) ?_ hw)
  simp only [decodeMatrix, hf]
  refine (if_pos (by clear * - h0 h1 e0 e1; omega)).trans ?_
  rw [finOf_eq u g0, finOf_eq ac g1]

theorem mdrain (u : Fin 16) (ac : Fin 4) (cv : Fin 16) (rm : Fin 8) (scaled : Bool) (d : Reg) (s : Reg) : Statement (Instr.mdrain u ac cv rm scaled d s) := fun hw => by
  have h0 := u.isLt
  have h1 := ac.isLt
  have h2 := cv.isLt
  have h3 := rm.isLt
  have h4 := scaled.toNat_lt
  have h5 := d.isLt
  have h6 := s.isLt
  obtain ⟨x0, e0⟩ : ∃ x, u.val * 2 ^ 18 + (ac.val * 2 ^ 16 + (cv.val * 2 ^ 12 + (rm.val * 2 ^ 9 + (scaled.toNat * 2 ^ 8 + (3036676096))))) = x := ⟨_, rfl⟩
  obtain ⟨x1, e1⟩ : ∃ x, d.val * 2 ^ 27 + (s.val * 2 ^ 22 + (0)) = x := ⟨_, rfl⟩
  have g0 : x0 / 2 ^ 18 % 16 = u.val := by clear * - h0 h1 h2 h3 h4 h5 h6 e0; omega
  have g1 : x0 / 2 ^ 16 % 4 = ac.val := by clear * - h0 h1 h2 h3 h4 h5 h6 e0; omega
  have g2 : x0 / 2 ^ 12 % 16 = cv.val := by clear * - h0 h1 h2 h3 h4 h5 h6 e0; omega
  have g3 : x0 / 2 ^ 9 % 8 = rm.val := by clear * - h0 h1 h2 h3 h4 h5 h6 e0; omega
  have g4 : x0 / 2 ^ 8 % 2 ^ 1 = scaled.toNat := by clear * - h0 h1 h2 h3 h4 h5 h6 e0; omega
  have g5 : x1 / 2 ^ 27 % 2 ^ 5 = d.val := by clear * - h0 h1 h2 h3 h4 h5 h6 e1; omega
  have g6 : x1 / 2 ^ 22 % 2 ^ 5 = s.val := by clear * - h0 h1 h2 h3 h4 h5 h6 e1; omega
  have hf : x0 / 2 ^ 22 % 2 ^ 4 = 4 := by clear * - h0 h1 h2 h3 h4 h5 h6 e0; omega
  refine long_eq e0 e1 (matrix_back (by clear * - h0 h1 h2 h3 h4 h5 h6 e0; omega) (by clear * - h0 h1 h2 h3 h4 h5 h6 e1; omega) (by clear * - h0 h1 h2 h3 h4 h5 h6 e0; omega) ?_ hw)
  simp only [decodeMatrix, hf]
  refine (if_pos (by clear * - h0 h1 h2 h3 h4 h5 h6 e0 e1; omega)).trans ?_
  rw [finOf_eq u g0, finOf_eq ac g1, finOf_eq cv g2, finOf_eq rm g3, bit1_eq scaled g4, fin32_eq d g5, fin32_eq s g6]

theorem mwait (n : Fin 256) : Statement (Instr.mwait n) := fun hw => by
  have h0 := n.isLt
  obtain ⟨x0, e0⟩ : ∃ x, n.val * 2 ^ 14 + (3040870400) = x := ⟨_, rfl⟩
  obtain ⟨x1, e1⟩ : ∃ x, 0 = x := ⟨_, rfl⟩
  have g0 : x0 / 2 ^ 14 % 256 = n.val := by clear * - h0 e0; omega
  have hf : x0 / 2 ^ 22 % 2 ^ 4 = 5 := by clear * - h0 e0; omega
  refine long_eq e0 e1 (matrix_back (by clear * - h0 e0; omega) (by clear * - h0 e1; omega) (by clear * - h0 e0; omega) ?_ hw)
  simp only [decodeMatrix, hf]
  refine (if_pos (by clear * - h0 e0 e1; omega)).trans ?_
  rw [finOf_eq n g0]

theorem cpy (c : Fin 16) (q : Fin 4) (cnt : Bool) (dst : Reg) (src : Reg) (shape : Reg) (pitch : Reg) (ctr : Reg) : Statement (Instr.cpy c q cnt dst src shape pitch ctr) := fun hw => by
  have h0 := c.isLt
  have h1 := q.isLt
  have h2 := cnt.toNat_lt
  have h3 := dst.isLt
  have h4 := src.isLt
  have h5 := shape.isLt
  have h6 := pitch.isLt
  have h7 := ctr.isLt
  obtain ⟨x0, e0⟩ : ∃ x, c.val * 2 ^ 17 + (q.val * 2 ^ 15 + (cnt.toNat * 2 ^ 14 + (3087007744))) = x := ⟨_, rfl⟩
  obtain ⟨x1, e1⟩ : ∃ x, dst.val * 2 ^ 27 + (src.val * 2 ^ 22 + (shape.val * 2 ^ 17 + (pitch.val * 2 ^ 12 + (ctr.val * 2 ^ 7 + (0))))) = x := ⟨_, rfl⟩
  have g0 : x0 / 2 ^ 17 % 16 = c.val := by clear * - h0 h1 h2 h3 h4 h5 h6 h7 e0; omega
  have g1 : x0 / 2 ^ 15 % 4 = q.val := by clear * - h0 h1 h2 h3 h4 h5 h6 h7 e0; omega
  have g2 : x0 / 2 ^ 14 % 2 ^ 1 = cnt.toNat := by clear * - h0 h1 h2 h3 h4 h5 h6 h7 e0; omega
  have g3 : x1 / 2 ^ 27 % 2 ^ 5 = dst.val := by clear * - h0 h1 h2 h3 h4 h5 h6 h7 e1; omega
  have g4 : x1 / 2 ^ 22 % 2 ^ 5 = src.val := by clear * - h0 h1 h2 h3 h4 h5 h6 h7 e1; omega
  have g5 : x1 / 2 ^ 17 % 2 ^ 5 = shape.val := by clear * - h0 h1 h2 h3 h4 h5 h6 h7 e1; omega
  have g6 : x1 / 2 ^ 12 % 2 ^ 5 = pitch.val := by clear * - h0 h1 h2 h3 h4 h5 h6 h7 e1; omega
  have g7 : x1 / 2 ^ 7 % 2 ^ 5 = ctr.val := by clear * - h0 h1 h2 h3 h4 h5 h6 h7 e1; omega
  have hf : x0 / 2 ^ 22 % 2 ^ 4 = 0 := by clear * - h0 h1 h2 h3 h4 h5 h6 h7 e0; omega
  refine long_eq e0 e1 (copy_back (by clear * - h0 h1 h2 h3 h4 h5 h6 h7 e0; omega) (by clear * - h0 h1 h2 h3 h4 h5 h6 h7 e1; omega) (by clear * - h0 h1 h2 h3 h4 h5 h6 h7 e0; omega) ?_ hw)
  simp only [decodeCopy, hf]
  refine (if_pos (by clear * - h0 h1 h2 h3 h4 h5 h6 h7 e0 e1; omega)).trans ?_
  refine (if_pos (by clear * - h0 h1 h2 h3 h4 h5 h6 h7 e0 e1; omega)).trans ?_
  rw [finOf_eq c g0, finOf_eq q g1, bit1_eq cnt g2, fin32_eq dst g3, fin32_eq src g4, fin32_eq shape g5, fin32_eq pitch g6, fin32_eq ctr g7]

theorem cpyg (c : Fin 16) (q : Fin 4) (cnt : Bool) (bound : Reg) (fill : BitVec 8) (dst : Reg) (src : Reg) (shape : Reg) (pitch : Reg) (ctr : Reg) (vidx : Reg) : Statement (Instr.cpyg c q cnt bound fill dst src shape pitch ctr vidx) := fun hw => by
  have h0 := c.isLt
  have h1 := q.isLt
  have h2 := cnt.toNat_lt
  have h3 := bound.isLt
  have h4 := fill.isLt
  have h5 := dst.isLt
  have h6 := src.isLt
  have h7 := shape.isLt
  have h8 := pitch.isLt
  have h9 := ctr.isLt
  have h10 := vidx.isLt
  obtain ⟨x0, e0⟩ : ∃ x, c.val * 2 ^ 17 + (q.val * 2 ^ 15 + (cnt.toNat * 2 ^ 14 + (bound.val * 2 ^ 9 + (fill.toNat * 2 ^ 0 + (3091202048))))) = x := ⟨_, rfl⟩
  obtain ⟨x1, e1⟩ : ∃ x, dst.val * 2 ^ 27 + (src.val * 2 ^ 22 + (shape.val * 2 ^ 17 + (pitch.val * 2 ^ 12 + (ctr.val * 2 ^ 7 + (vidx.val * 2 ^ 2 + (0)))))) = x := ⟨_, rfl⟩
  have g0 : x0 / 2 ^ 17 % 16 = c.val := by clear * - h0 h1 h2 h3 h4 h5 h6 h7 h8 h9 h10 e0; omega
  have g1 : x0 / 2 ^ 15 % 4 = q.val := by clear * - h0 h1 h2 h3 h4 h5 h6 h7 h8 h9 h10 e0; omega
  have g2 : x0 / 2 ^ 14 % 2 ^ 1 = cnt.toNat := by clear * - h0 h1 h2 h3 h4 h5 h6 h7 h8 h9 h10 e0; omega
  have g3 : x0 / 2 ^ 9 % 2 ^ 5 = bound.val := by clear * - h0 h1 h2 h3 h4 h5 h6 h7 h8 h9 h10 e0; omega
  have g4 : x0 % 2 ^ 8 = fill.toNat := by clear * - h0 h1 h2 h3 h4 h5 h6 h7 h8 h9 h10 e0; omega
  have g5 : x1 / 2 ^ 27 % 2 ^ 5 = dst.val := by clear * - h0 h1 h2 h3 h4 h5 h6 h7 h8 h9 h10 e1; omega
  have g6 : x1 / 2 ^ 22 % 2 ^ 5 = src.val := by clear * - h0 h1 h2 h3 h4 h5 h6 h7 h8 h9 h10 e1; omega
  have g7 : x1 / 2 ^ 17 % 2 ^ 5 = shape.val := by clear * - h0 h1 h2 h3 h4 h5 h6 h7 h8 h9 h10 e1; omega
  have g8 : x1 / 2 ^ 12 % 2 ^ 5 = pitch.val := by clear * - h0 h1 h2 h3 h4 h5 h6 h7 h8 h9 h10 e1; omega
  have g9 : x1 / 2 ^ 7 % 2 ^ 5 = ctr.val := by clear * - h0 h1 h2 h3 h4 h5 h6 h7 h8 h9 h10 e1; omega
  have g10 : x1 / 2 ^ 2 % 2 ^ 5 = vidx.val := by clear * - h0 h1 h2 h3 h4 h5 h6 h7 h8 h9 h10 e1; omega
  have hf : x0 / 2 ^ 22 % 2 ^ 4 = 1 := by clear * - h0 h1 h2 h3 h4 h5 h6 h7 h8 h9 h10 e0; omega
  refine long_eq e0 e1 (copy_back (by clear * - h0 h1 h2 h3 h4 h5 h6 h7 h8 h9 h10 e0; omega) (by clear * - h0 h1 h2 h3 h4 h5 h6 h7 h8 h9 h10 e1; omega) (by clear * - h0 h1 h2 h3 h4 h5 h6 h7 h8 h9 h10 e0; omega) ?_ hw)
  simp only [decodeCopy, hf]
  refine (if_pos (by clear * - h0 h1 h2 h3 h4 h5 h6 h7 h8 h9 h10 e0 e1; omega)).trans ?_
  rw [finOf_eq c g0, finOf_eq q g1, bit1_eq cnt g2, fin32_eq bound g3, bvOf_eq fill g4, fin32_eq dst g5, fin32_eq src g6, fin32_eq shape g7, fin32_eq pitch g8, fin32_eq ctr g9, fin32_eq vidx g10]

theorem cpys (c : Fin 16) (q : Fin 4) (cnt : Bool) (bound : Reg) (dst : Reg) (src : Reg) (shape : Reg) (pitch : Reg) (ctr : Reg) (vidx : Reg) : Statement (Instr.cpys c q cnt bound dst src shape pitch ctr vidx) := fun hw => by
  have h0 := c.isLt
  have h1 := q.isLt
  have h2 := cnt.toNat_lt
  have h3 := bound.isLt
  have h4 := dst.isLt
  have h5 := src.isLt
  have h6 := shape.isLt
  have h7 := pitch.isLt
  have h8 := ctr.isLt
  have h9 := vidx.isLt
  obtain ⟨x0, e0⟩ : ∃ x, c.val * 2 ^ 17 + (q.val * 2 ^ 15 + (cnt.toNat * 2 ^ 14 + (bound.val * 2 ^ 9 + (3095396352)))) = x := ⟨_, rfl⟩
  obtain ⟨x1, e1⟩ : ∃ x, dst.val * 2 ^ 27 + (src.val * 2 ^ 22 + (shape.val * 2 ^ 17 + (pitch.val * 2 ^ 12 + (ctr.val * 2 ^ 7 + (vidx.val * 2 ^ 2 + (0)))))) = x := ⟨_, rfl⟩
  have g0 : x0 / 2 ^ 17 % 16 = c.val := by clear * - h0 h1 h2 h3 h4 h5 h6 h7 h8 h9 e0; omega
  have g1 : x0 / 2 ^ 15 % 4 = q.val := by clear * - h0 h1 h2 h3 h4 h5 h6 h7 h8 h9 e0; omega
  have g2 : x0 / 2 ^ 14 % 2 ^ 1 = cnt.toNat := by clear * - h0 h1 h2 h3 h4 h5 h6 h7 h8 h9 e0; omega
  have g3 : x0 / 2 ^ 9 % 2 ^ 5 = bound.val := by clear * - h0 h1 h2 h3 h4 h5 h6 h7 h8 h9 e0; omega
  have g4 : x1 / 2 ^ 27 % 2 ^ 5 = dst.val := by clear * - h0 h1 h2 h3 h4 h5 h6 h7 h8 h9 e1; omega
  have g5 : x1 / 2 ^ 22 % 2 ^ 5 = src.val := by clear * - h0 h1 h2 h3 h4 h5 h6 h7 h8 h9 e1; omega
  have g6 : x1 / 2 ^ 17 % 2 ^ 5 = shape.val := by clear * - h0 h1 h2 h3 h4 h5 h6 h7 h8 h9 e1; omega
  have g7 : x1 / 2 ^ 12 % 2 ^ 5 = pitch.val := by clear * - h0 h1 h2 h3 h4 h5 h6 h7 h8 h9 e1; omega
  have g8 : x1 / 2 ^ 7 % 2 ^ 5 = ctr.val := by clear * - h0 h1 h2 h3 h4 h5 h6 h7 h8 h9 e1; omega
  have g9 : x1 / 2 ^ 2 % 2 ^ 5 = vidx.val := by clear * - h0 h1 h2 h3 h4 h5 h6 h7 h8 h9 e1; omega
  have hf : x0 / 2 ^ 22 % 2 ^ 4 = 2 := by clear * - h0 h1 h2 h3 h4 h5 h6 h7 h8 h9 e0; omega
  refine long_eq e0 e1 (copy_back (by clear * - h0 h1 h2 h3 h4 h5 h6 h7 h8 h9 e0; omega) (by clear * - h0 h1 h2 h3 h4 h5 h6 h7 h8 h9 e1; omega) (by clear * - h0 h1 h2 h3 h4 h5 h6 h7 h8 h9 e0; omega) ?_ hw)
  simp only [decodeCopy, hf]
  refine (if_pos (by clear * - h0 h1 h2 h3 h4 h5 h6 h7 h8 h9 e0 e1; omega)).trans ?_
  refine (if_pos (by clear * - h0 h1 h2 h3 h4 h5 h6 h7 h8 h9 e0 e1; omega)).trans ?_
  rw [finOf_eq c g0, finOf_eq q g1, bit1_eq cnt g2, fin32_eq bound g3, fin32_eq dst g4, fin32_eq src g5, fin32_eq shape g6, fin32_eq pitch g7, fin32_eq ctr g8, fin32_eq vidx g9]

theorem cpyf (c : Fin 16) (q : Fin 4) (cnt : Bool) (fill : BitVec 8) (dst : Reg) (shape : Reg) (pitch : Reg) (ctr : Reg) : Statement (Instr.cpyf c q cnt fill dst shape pitch ctr) := fun hw => by
  have h0 := c.isLt
  have h1 := q.isLt
  have h2 := cnt.toNat_lt
  have h3 := fill.isLt
  have h4 := dst.isLt
  have h5 := shape.isLt
  have h6 := pitch.isLt
  have h7 := ctr.isLt
  obtain ⟨x0, e0⟩ : ∃ x, c.val * 2 ^ 17 + (q.val * 2 ^ 15 + (cnt.toNat * 2 ^ 14 + (fill.toNat * 2 ^ 0 + (3099590656)))) = x := ⟨_, rfl⟩
  obtain ⟨x1, e1⟩ : ∃ x, dst.val * 2 ^ 27 + (shape.val * 2 ^ 17 + (pitch.val * 2 ^ 12 + (ctr.val * 2 ^ 7 + (0)))) = x := ⟨_, rfl⟩
  have g0 : x0 / 2 ^ 17 % 16 = c.val := by clear * - h0 h1 h2 h3 h4 h5 h6 h7 e0; omega
  have g1 : x0 / 2 ^ 15 % 4 = q.val := by clear * - h0 h1 h2 h3 h4 h5 h6 h7 e0; omega
  have g2 : x0 / 2 ^ 14 % 2 ^ 1 = cnt.toNat := by clear * - h0 h1 h2 h3 h4 h5 h6 h7 e0; omega
  have g3 : x0 % 2 ^ 8 = fill.toNat := by clear * - h0 h1 h2 h3 h4 h5 h6 h7 e0; omega
  have g4 : x1 / 2 ^ 27 % 2 ^ 5 = dst.val := by clear * - h0 h1 h2 h3 h4 h5 h6 h7 e1; omega
  have g5 : x1 / 2 ^ 17 % 2 ^ 5 = shape.val := by clear * - h0 h1 h2 h3 h4 h5 h6 h7 e1; omega
  have g6 : x1 / 2 ^ 12 % 2 ^ 5 = pitch.val := by clear * - h0 h1 h2 h3 h4 h5 h6 h7 e1; omega
  have g7 : x1 / 2 ^ 7 % 2 ^ 5 = ctr.val := by clear * - h0 h1 h2 h3 h4 h5 h6 h7 e1; omega
  have hf : x0 / 2 ^ 22 % 2 ^ 4 = 3 := by clear * - h0 h1 h2 h3 h4 h5 h6 h7 e0; omega
  refine long_eq e0 e1 (copy_back (by clear * - h0 h1 h2 h3 h4 h5 h6 h7 e0; omega) (by clear * - h0 h1 h2 h3 h4 h5 h6 h7 e1; omega) (by clear * - h0 h1 h2 h3 h4 h5 h6 h7 e0; omega) ?_ hw)
  simp only [decodeCopy, hf]
  refine (if_pos (by clear * - h0 h1 h2 h3 h4 h5 h6 h7 e0 e1; omega)).trans ?_
  refine (if_pos (by clear * - h0 h1 h2 h3 h4 h5 h6 h7 e0 e1; omega)).trans ?_
  rw [finOf_eq c g0, finOf_eq q g1, bit1_eq cnt g2, bvOf_eq fill g3, fin32_eq dst g4, fin32_eq shape g5, fin32_eq pitch g6, fin32_eq ctr g7]

theorem trapNone : Statement (Instr.trapNone) := fun hw => by
  have e : put 0x50000000 [] = 20 * 2 ^ 26 + 0 := by decide
  have v1 : 0 < 2 ^ 26 := by decide
  have b1 := v1
  have v0 : 20 < 2 ^ 6 := by decide
  have b0 := field_bound (lo := 26) b1 v0
  have f0 := field_hit (lo := 26) b1 v0
  have f1 := field_skip_low (v := 20) (lo := 26) (by decide) (Nat.mod_eq_of_lt v1)
  refine word_eq e (word_back b0 f0 (by decide) (by decide) ((major_14 f0).trans ?_) hw)
  refine (if_pos f1).trans ?_
  rfl

theorem trapReadTsw : Statement (Instr.trapReadTsw) := fun hw => by
  have e : put 0x50000001 [] = 20 * 2 ^ 26 + 1 := by decide
  have v1 : 1 < 2 ^ 26 := by decide
  have b1 := v1
  have v0 : 20 < 2 ^ 6 := by decide
  have b0 := field_bound (lo := 26) b1 v0
  have f0 := field_hit (lo := 26) b1 v0
  have f1 := field_skip_low (v := 20) (lo := 26) (by decide) (Nat.mod_eq_of_lt v1)
  refine word_eq e (word_back b0 f0 (by decide) (by decide) ((major_14 f0).trans ?_) hw)
  refine (if_neg (other_value f1 (by decide))).trans ?_
  refine (if_pos f1).trans ?_
  rfl

theorem trapReadViolationLog : Statement (Instr.trapReadViolationLog) := fun hw => by
  have e : put 0x50000002 [] = 20 * 2 ^ 26 + 2 := by decide
  have v1 : 2 < 2 ^ 26 := by decide
  have b1 := v1
  have v0 : 20 < 2 ^ 6 := by decide
  have b0 := field_bound (lo := 26) b1 v0
  have f0 := field_hit (lo := 26) b1 v0
  have f1 := field_skip_low (v := 20) (lo := 26) (by decide) (Nat.mod_eq_of_lt v1)
  refine word_eq e (word_back b0 f0 (by decide) (by decide) ((major_14 f0).trans ?_) hw)
  iterate 2 refine (if_neg (other_value f1 (by decide))).trans ?_
  refine (if_pos f1).trans ?_
  rfl

theorem trapAbort : Statement (Instr.trapAbort) := fun hw => by
  have e : put 0x50000003 [] = 20 * 2 ^ 26 + 3 := by decide
  have v1 : 3 < 2 ^ 26 := by decide
  have b1 := v1
  have v0 : 20 < 2 ^ 6 := by decide
  have b0 := field_bound (lo := 26) b1 v0
  have f0 := field_hit (lo := 26) b1 v0
  have f1 := field_skip_low (v := 20) (lo := 26) (by decide) (Nat.mod_eq_of_lt v1)
  refine word_eq e (word_back b0 f0 (by decide) (by decide) ((major_14 f0).trans ?_) hw)
  iterate 3 refine (if_neg (other_value f1 (by decide))).trans ?_
  refine (if_pos f1).trans ?_
  rfl

theorem trapRegisterFaultRecord : Statement (Instr.trapRegisterFaultRecord) := fun hw => by
  have e : put 0x50000008 [] = 20 * 2 ^ 26 + 8 := by decide
  have v1 : 8 < 2 ^ 26 := by decide
  have b1 := v1
  have v0 : 20 < 2 ^ 6 := by decide
  have b0 := field_bound (lo := 26) b1 v0
  have f0 := field_hit (lo := 26) b1 v0
  have f1 := field_skip_low (v := 20) (lo := 26) (by decide) (Nat.mod_eq_of_lt v1)
  refine word_eq e (word_back b0 f0 (by decide) (by decide) ((major_14 f0).trans ?_) hw)
  iterate 4 refine (if_neg (other_value f1 (by decide))).trans ?_
  refine (if_pos f1).trans ?_
  rfl

theorem trapResumeMcc : Statement (Instr.trapResumeMcc) := fun hw => by
  have e : put 0x50000009 [] = 20 * 2 ^ 26 + 9 := by decide
  have v1 : 9 < 2 ^ 26 := by decide
  have b1 := v1
  have v0 : 20 < 2 ^ 6 := by decide
  have b0 := field_bound (lo := 26) b1 v0
  have f0 := field_hit (lo := 26) b1 v0
  have f1 := field_skip_low (v := 20) (lo := 26) (by decide) (Nat.mod_eq_of_lt v1)
  refine word_eq e (word_back b0 f0 (by decide) (by decide) ((major_14 f0).trans ?_) hw)
  iterate 5 refine (if_neg (other_value f1 (by decide))).trans ?_
  refine (if_pos f1).trans ?_
  rfl

theorem exit : Statement (Instr.exit) := fun hw => by
  have e : put 0x50000080 [] = 20 * 2 ^ 26 + 128 := by decide
  have v1 : 128 < 2 ^ 26 := by decide
  have b1 := v1
  have v0 : 20 < 2 ^ 6 := by decide
  have b0 := field_bound (lo := 26) b1 v0
  have f0 := field_hit (lo := 26) b1 v0
  have f1 := field_skip_low (v := 20) (lo := 26) (by decide) (Nat.mod_eq_of_lt v1)
  refine word_eq e (word_back b0 f0 (by decide) (by decide) ((major_14 f0).trans ?_) hw)
  iterate 6 refine (if_neg (other_value f1 (by decide))).trans ?_
  iterate 2 refine (if_neg (fun c => absurd ((sub_field_low 6 20 f1 (by decide)).symm.trans (sub_field (lo := 6) 0 20 c (by decide))) (by decide))).trans ?_
  refine (if_pos f1).trans ?_
  rfl

theorem yield : Statement (Instr.yield) := fun hw => by
  have e : put 0x500000c0 [] = 20 * 2 ^ 26 + 192 := by decide
  have v1 : 192 < 2 ^ 26 := by decide
  have b1 := v1
  have v0 : 20 < 2 ^ 6 := by decide
  have b0 := field_bound (lo := 26) b1 v0
  have f0 := field_hit (lo := 26) b1 v0
  have f1 := field_skip_low (v := 20) (lo := 26) (by decide) (Nat.mod_eq_of_lt v1)
  refine word_eq e (word_back b0 f0 (by decide) (by decide) ((major_14 f0).trans ?_) hw)
  iterate 6 refine (if_neg (other_value f1 (by decide))).trans ?_
  iterate 2 refine (if_neg (fun c => absurd ((sub_field_low 6 20 f1 (by decide)).symm.trans (sub_field (lo := 6) 0 20 c (by decide))) (by decide))).trans ?_
  refine (if_neg (other_value f1 (by decide))).trans ?_
  refine (if_pos f1).trans ?_
  rfl

theorem xret : Statement (Instr.xret) := fun hw => by
  have e : put 0x50000100 [] = 20 * 2 ^ 26 + 256 := by decide
  have v1 : 256 < 2 ^ 26 := by decide
  have b1 := v1
  have v0 : 20 < 2 ^ 6 := by decide
  have b0 := field_bound (lo := 26) b1 v0
  have f0 := field_hit (lo := 26) b1 v0
  have f1 := field_skip_low (v := 20) (lo := 26) (by decide) (Nat.mod_eq_of_lt v1)
  refine word_eq e (word_back b0 f0 (by decide) (by decide) ((major_14 f0).trans ?_) hw)
  iterate 6 refine (if_neg (other_value f1 (by decide))).trans ?_
  iterate 2 refine (if_neg (fun c => absurd ((sub_field_low 6 20 f1 (by decide)).symm.trans (sub_field (lo := 6) 0 20 c (by decide))) (by decide))).trans ?_
  iterate 2 refine (if_neg (other_value f1 (by decide))).trans ?_
  refine (if_pos f1).trans ?_
  rfl

theorem hnop : Statement (Instr.hnop) := fun hw => by
  refine (half_back (h := 0) (by decide) ?_ : HalfBack _ _)
  rfl

theorem hwait : Statement (Instr.hwait) := fun hw => by
  refine (half_back (h := 14336) (by decide) ?_ : HalfBack _ _)
  rfl

theorem hexit : Statement (Instr.hexit) := fun hw => by
  refine (half_back (h := 15360) (by decide) ?_ : HalfBack _ _)
  rfl

theorem lbudWrite : Statement .lbudWrite := fun _ => trivial

theorem fflagsWrite : Statement .fflagsWrite := fun _ => trivial

theorem vstartWrite : Statement .vstartWrite := fun _ => trivial

theorem clmodeWrite : Statement .clmodeWrite := fun _ => trivial

theorem preqWrite : Statement .preqWrite := fun _ => trivial

theorem tswpWrite : Statement .tswpWrite := fun _ => trivial

theorem registerWrite : Statement .registerWrite := fun _ => trivial

theorem vectorCourse : Statement .vectorCourse := fun _ => trivial

theorem vectorEntryComplete : Statement .vectorEntryComplete := fun _ => trivial

theorem readQueueReturn : Statement .readQueueReturn := fun _ => trivial

theorem vectorFaultReport : Statement .vectorFaultReport := fun _ => trivial

theorem scalarFaultReport : Statement .scalarFaultReport := fun _ => trivial

theorem decodeFault : Statement .decodeFault := fun _ => trivial

theorem exitPerform : Statement .exitPerform := fun _ => trivial

theorem xretResume : Statement .xretResume := fun _ => trivial

theorem yieldEnd : Statement .yieldEnd := fun _ => trivial

theorem ffStallEnd : Statement .ffStallEnd := fun _ => trivial

theorem leafAllocRetry : Statement .leafAllocRetry := fun _ => trivial

theorem reclaimStep : Statement .reclaimStep := fun _ => trivial

theorem watermarkWaitEnd : Statement .watermarkWaitEnd := fun _ => trivial

theorem barrierPhaseComplete : Statement .barrierPhaseComplete := fun _ => trivial

theorem leaveGrant : Statement .leaveGrant := fun _ => trivial

theorem powerBudgetSet : Statement .powerBudgetSet := fun _ => trivial

theorem powcapSet : Statement .powcapSet := fun _ => trivial

theorem casPriorityExpiry : Statement .casPriorityExpiry := fun _ => trivial

theorem memoryAccessComplete : Statement .memoryAccessComplete := fun _ => trivial

theorem copyRow : Statement .copyRow := fun _ => trivial

theorem tileEntryExecute : Statement .tileEntryExecute := fun _ => trivial

theorem patternLoadBind : Statement .patternLoadBind := fun _ => trivial

theorem queueBind : Statement .queueBind := fun _ => trivial

theorem packetAccept : Statement .packetAccept := fun _ => trivial

theorem queueLinkPoll : Statement .queueLinkPoll := fun _ => trivial

theorem packetReadRetry : Statement .packetReadRetry := fun _ => trivial

theorem launchStart : Statement .launchStart := fun _ => trivial

theorem coreAssign : Statement .coreAssign := fun _ => trivial

theorem iterationHandout : Statement .iterationHandout := fun _ => trivial

theorem gangShareStart : Statement .gangShareStart := fun _ => trivial

theorem gangClusterChoice : Statement .gangClusterChoice := fun _ => trivial

theorem launchAgeing : Statement .launchAgeing := fun _ => trivial

theorem launchPreempt : Statement .launchPreempt := fun _ => trivial

theorem launchComplete : Statement .launchComplete := fun _ => trivial

theorem coreSave : Statement .coreSave := fun _ => trivial

theorem coreRestore : Statement .coreRestore := fun _ => trivial

theorem contextSwapOut : Statement .contextSwapOut := fun _ => trivial

theorem contextSwapIn : Statement .contextSwapIn := fun _ => trivial

theorem containment : Statement .containment := fun _ => trivial

theorem tlbInvalidate : Statement .tlbInvalidate := fun _ => trivial

theorem tlbInvalidateComplete : Statement .tlbInvalidateComplete := fun _ => trivial

theorem pageWalk : Statement .pageWalk := fun _ => trivial

theorem demandPageMap : Statement .demandPageMap := fun _ => trivial

theorem flitReceive : Statement .flitReceive := fun _ => trivial

theorem flitReplay : Statement .flitReplay := fun _ => trivial

theorem linkDown : Statement .linkDown := fun _ => trivial

theorem linkRetrain : Statement .linkRetrain := fun _ => trivial

theorem linkRetire : Statement .linkRetire := fun _ => trivial

theorem hostLinkError : Statement .hostLinkError := fun _ => trivial

theorem deviceReset : Statement .deviceReset := fun _ => trivial

theorem rollbackRaise : Statement .rollbackRaise := fun _ => trivial

theorem attestationRequest : Statement .attestationRequest := fun _ => trivial

theorem correctedError : Statement .correctedError := fun _ => trivial

theorem patrolScrub : Statement .patrolScrub := fun _ => trivial

theorem linePoison : Statement .linePoison := fun _ => trivial

theorem scratchpadPoison : Statement .scratchpadPoison := fun _ => trivial

theorem leafError : Statement .leafError := fun _ => trivial

theorem leafErrorCountClear : Statement .leafErrorCountClear := fun _ => trivial

theorem freeListRebuild : Statement .freeListRebuild := fun _ => trivial

theorem channelRetire : Statement .channelRetire := fun _ => trivial

theorem healthBlockUpdate : Statement .healthBlockUpdate := fun _ => trivial

theorem scrubPassCheck : Statement .scrubPassCheck := fun _ => trivial

theorem hostBarAccess : Statement .hostBarAccess := fun _ => trivial

theorem contextCreate : Statement .contextCreate := fun _ => trivial

theorem contextDestroy : Statement .contextDestroy := fun _ => trivial

theorem debuggerResume : Statement .debuggerResume := fun _ => trivial

theorem ethernetFrameReceive : Statement .ethernetFrameReceive := fun _ => trivial

theorem uncorrectableStructureError : Statement .uncorrectableStructureError := fun _ => trivial

end RoundTrip

end Sys2Proof.Laws
end

