-- ==== Sys2Proof/Safety.lean ====
section
/-!
DEFINITION. What counts as a safe run, the conditions that statements about all states put on a state, and the ways in which
statements say what an instruction changes and what it leaves alone.
-/

namespace Sys2Proof.Safety

open Sys2Proof.Machine

/-- A state leads to another in any number of steps. -/
inductive Reaches (s : State) : State → Prop where
  | refl : Reaches s s
  | next (t u : State) : Reaches s t → step t = .next u → Reaches s u

/-- A run from a state is safe: no step of it ends in a fault or a refusal. -/
def SafeFrom (s : State) : Prop := ∀ t, Reaches s t → ∃ u, step t = .next u

/-- Every memory of the device is in its canonical form. -/
abbrev MemoriesOk (s : State) : Prop := Memory.wf s.mem = true ∧ Memory.wf s.spad = true ∧ Memory.wf s.peer = true

/-- A property holds of the state after an outcome, if there is one. -/
def After (o : Host.Outcome State Fault Refusal) (P : State → Prop) : Prop :=
  match o with
  | .next t => P t
  | .fault _ => True
  | .refused _ => True

/-- The thread whose instruction is executed. -/
def running (s : State) : Thread := getThread s s.cur

/-- A g register of the running thread as it reads (R59). -/
def reg (s : State) (r : Reg) : Word := readG (running s) r

/-- The thread may use these registers: none awaits a value (R127, R273). -/
abbrev Ready (s : State) (rs : List Reg) : Prop :=
  ∀ r ∈ rs, pending (running s) r = false ∧ frozenPending (running s) r = false

/-- An instruction that writes gd and reads these registers may go on: none that it reads awaits a value, and gd awaits none
of an entry that is or was frozen; a value of an earlier load on its way to gd is no reason to wait (R127, R273). -/
abbrev Usable (s : State) (d : Reg) (rs : List Reg) : Prop :=
  Ready s rs ∧ frozenPending (running s) d = false ∧ oncePending (running s) d = false

/-- The same for an instruction that may have no gd. -/
abbrev UsableFor (s : State) (d : Option Reg) (rs : List Reg) : Prop :=
  match d with
  | some r => Usable s r rs
  | none => Ready s rs

/-- The thread as an instruction that writes gd leaves it: an earlier value still on its way to gd no longer arrives
(R127). -/
def dropFor (th : Thread) (d : Option Reg) : Thread :=
  match d with
  | some r => dropLate th r
  | none => th

/-- No byte of device memory, of a scratchpad or of a peer's memory differs. -/
def BytesKept (s t : State) : Prop :=
  ∀ a, memGet t.mem a = memGet s.mem a ∧ memGet t.spad a = memGet s.spad a ∧ memGet t.peer a = memGet s.peer a

/-- Nothing but one thread's own record differs. -/
def OthersKept (x : Tid) (s t : State) : Prop :=
  (∀ u, u ≠ x → getThread t u = getThread s u) ∧ t = { s with threads := t.threads } ∧ BytesKept s t

/-- A next state in which the current thread's record is as given and nothing else differs. -/
def Becomes (s : State) (o : Host.Outcome State Fault Refusal) (th : Thread) : Prop :=
  ∃ t, o = .next t ∧ getThread t s.cur = th ∧ OthersKept s.cur s t

/-- The instruction completes: gd reads v, unless d is 0, for g0 reads zero and a write to it is discarded (R59); every
other register reads as before; the pc moves on by `len` bytes; the flags `fl` are added to FFLAGS; an earlier value still on its
way to gd no longer arrives; nothing else of the thread, of the device or of its memories differs. -/
def Writes (s : State) (o : Host.Outcome State Fault Refusal) (d : Reg) (v : Word) (fl : BitVec 7) (len : Nat) : Prop :=
  ∃ t, o = .next t ∧ OthersKept s.cur s t ∧
    (∀ r, readG (getThread t s.cur) r = if r = d ∧ d ≠ 0 then v else readG (running s) r) ∧
    (getThread t s.cur).pc = (running s).pc + BitVec.ofNat 64 len ∧
    (getThread t s.cur).fflags = (running s).fflags ||| fl ∧
    ({ getThread t s.cur with g := (running s).g, pc := (running s).pc, fflags := (running s).fflags } : Thread) =
      dropLate (running s) d

/-- The number (-1)^neg * m * 2^e (R28). -/
def num (neg : Bool) (m : Nat) (e : Int) : Rat :=
  mkRat (if neg then -((m * 2 ^ e.toNat : Nat) : Int) else ((m * 2 ^ e.toNat : Nat) : Int)) (2 ^ (-e).toNat)

/-- The magnitude of a number. -/
def mag (x : Rat) : Rat := if 0 ≤ x then x else -x

/-- A number is a finite value of a format (R28, R29). -/
def FinVal (f : Fmt) (x : Rat) : Prop :=
  ∃ v n m e, v < 2 ^ (f.signPos + 1) ∧ unpack f v = .num n m e ∧ x = num n m e

/-- The number r is what x rounds to among the numbers S in a mode: 0 the nearest, of two the even one; 1 toward zero; 2 toward
-infinity; 3 toward +infinity; 4 the nearest, of two the one away from zero (R32). -/
def Rounds (rm : Nat) (S : Rat → Prop) (x r : Rat) (even : Prop) : Prop :=
  S r ∧ ∀ v, S v →
    (rm = 0 ∨ rm = 4 → mag (r - x) ≤ mag (v - x)) ∧
    (v ≠ r → mag (v - x) = mag (r - x) → (rm = 0 → even) ∧ (rm = 4 → mag x ≤ mag r)) ∧
    (rm = 1 → mag r ≤ mag x ∧ 0 ≤ r * x ∧ (mag v ≤ mag x → mag v ≤ mag r)) ∧
    (rm = 2 → r ≤ x ∧ (v ≤ x → v ≤ r)) ∧
    (rm = 3 → x ≤ r ∧ (x ≤ v → r ≤ v))

/-- A result is the rounding of a number to a format: a finite number of the format, chosen by the mode, and inexact is raised just
when it is another number (R28, R32, R35). -/
def RoundedTo (f : Fmt) (rm : Nat) (x : Rat) (z : Res) : Prop :=
  ∃ n m e, unpack f z.bits = .num n m e ∧ Rounds rm (FinVal f) x (num n m e) (z.bits % 2 = 0) ∧
    (z.flags &&& flagInx ≠ 0 ↔ num n m e ≠ x)

/-- Node j of level l of the pairwise tree of R52 over items of which some are absent: its value, the flags of its combining steps
and whether one of them sets an exception bit. Two present neighbours are combined, and one alone passes up unchanged. -/
def pairTree (f : Nat → Nat → Res) (item : Nat → Option Nat) : Nat → Nat → Option Nat × BitVec 7 × Bool
  | 0, j => (item j, 0, false)
  | l + 1, j =>
    let x := pairTree f item l (2 * j)
    let y := pairTree f item l (2 * j + 1)
    let below : BitVec 7 × Bool := (x.2.1 ||| y.2.1, x.2.2 || y.2.2)
    match x.1, y.1 with
    | some a, some b => (some (f a b).bits, below.1 ||| (f a b).flags, below.2 || (f a b).exc)
    | some a, none => (some a, below)
    | none, v => (v, below)

/-- A value lies below another; a NaN neither lies below a value nor above one (R36). -/
def Below (u v : FVal) : Prop :=
  match u, v with
  | .num n m e, .num q k d => num n m e < num q k d
  | .inf n, .num _ _ _ => n = true
  | .num _ _ _, .inf q => q = false
  | .inf n, .inf q => n = true ∧ q = false
  | _, _ => False

/-- Two values are equal; a NaN is equal to none (R36). -/
def Equal (u v : FVal) : Prop :=
  match u, v with
  | .num n m e, .num q k d => num n m e = num q k d
  | .inf n, .inf q => n = q
  | _, _ => False

/-- These leaves are the next of the free list, in order, and the core is then left without them (R274). -/
def FreeLeaves (c : Core) : List Nat → Core → Prop
  | [], c' => c' = c
  | x :: r, c' => ∃ d, takeFree c = some (x, d) ∧ FreeLeaves d r c'

/-- A chain that a course may go on building: its leaves, each once and all in the pool, hold the bytes of its stream from their
first place on, and its last leaf is its tail (R73). -/
def Growing (c : Core) (d : Desc) : Prop :=
  d = Desc.empty ∨
    (d.len ≠ 0 ∧ d.part = false ∧ d.excl = true ∧ d.skip = 0 ∧ (chainLeaves c d).Nodup ∧ (chainLeaves c d).getLast? = some d.tail ∧
      ((chainLeaves c d).map fun y => (leafAt c y).len + 1).sum = d.len ∧
      ∀ y ∈ chainLeaves c d, (mapFind c.leaves y).isSome = true ∧ (leafAt c y).lo = 0 ∧ (leafAt c y).len ≤ 63 ∧
        (leafAt c y).data < 2 ^ (8 * ((leafAt c y).len + 1)))

/-- Two read queues agree but for what the csrr in them (R87) have met: the flags so far of those of FFLAGS, and the values of
those that had none (R58, R158). -/
def QueueKept (old new : List RqItem) : Prop :=
  new.length = old.length ∧ ∀ (i : Nat) (x y : RqItem), old[i]? = some x → new[i]? = some y →
    y = { x with val := y.val, base := y.base } ∧ (x.csr = none ∨ x.val ≠ none → y.val = x.val) ∧
    (x.csr ≠ some 8 → y.base = x.base)

/-- Two records of a thread agree but for what the csrr in its read queues have met. -/
def SameButCsr (x y : Thread) : Prop :=
  y = { x with rq := y.rq, frozen := y.frozen } ∧ QueueKept x.rq y.rq ∧
    match x.frozen, y.frozen with
    | none, none => True
    | some f, some g => g = { f with rq := g.rq } ∧ QueueKept f.rq g.rq
    | _, _ => False

/-- Nothing but the thread's pc differs. -/
def GoesTo (s : State) (o : Host.Outcome State Fault Refusal) (pc : Word) : Prop :=
  Becomes s o { running s with pc := pc }

/-- A violation response has been recorded for a thread: with fewer than 64 unread entries in its context's log, the entry at the
write count holds the address and the source word with the code, and the write count has grown by 1; no other byte of device
memory differs, and with a full log none at all (R361). -/
def Logs (s t : State) (x : Tid) (va : Word) (code : Nat) : Prop :=
  let log := (getCtx s (getThread s x).ctx).vlog
  let w := memRead s.mem log 8
  let r := memRead s.mem (log + 8) 8
  let e := log + 16 + 16 * (w % 64)
  let room := (w + 2 ^ 64 - r) % 2 ^ 64 < 64
  (∀ a, (a < log ∨ log + 1040 ≤ a) ∨ ¬ room → memGet t.mem a = memGet s.mem a) ∧
  (room → memRead t.mem log 8 = (w + 1) % 2 ^ 64 ∧ memRead t.mem (log + 8) 8 = r ∧ memRead t.mem e 8 = va.toNat ∧
    memRead t.mem (e + 8) 8 =
      code + (if isMcc x then 2 ^ 32 else 0) + (threadOf x).val * 2 ^ 33 + (coreOf x).val * 2 ^ 35 + (clusterOf x).val * 2 ^ 38)

/-- A thread's record after a violation response to one of its accesses: VIOL is set, and a wmpub that waits for the access knows
when every path to the peer has failed, code 4 (R138, R374, R388). -/
def violated (th : Thread) (va : Word) (code : Nat) : Thread :=
  { th with
    fflags := th.fflags ||| 0b1000000
    release := match th.release with
      | some (pc, none) => some (pc, if code = 4 then some va else none)
      | x => x }

/-- The thread's record once Usilaem has been given a scalar event: cause and XINFO in the report CSRs, XPC the address of the
instruction, no vector part, and the thread stopped (R128, R150, R357). Inside a user handler XCAUSE is 0x13 with the cause
in INNER. -/
def stoppedAt (th : Thread) (cause info : Nat) : Thread :=
  { th with
    xcause := BitVec.ofNat 64 (if inHandler th = true ∧ cause ≠ 0x13 then 0x13 + 2 ^ 8 * cause else cause)
    xpc := (th.pc.setWidth 52).signExtend 64, xvpc := 0, xqpos := 0, xelem := 0, xinfo := BitVec.ofNat 64 info
    pend := none, pendDecode := false, tstate := .stopped, wait := .none }

/-- An instruction raises a scalar event for Usilaem: at once when no vector instruction is queued before it, and nothing but
the thread's record changes; else it waits for them with the event noted (R113, R128). -/
def Raises (s : State) (o : Host.Outcome State Fault Refusal) (cause info : Nat) (decode : Bool) : Prop :=
  ((running s).vq = [] → Becomes s o (stoppedAt (running s) cause info)) ∧
  ((running s).vq ≠ [] → ∃ t, o = .next t ∧ t.stalled = true ∧ BytesKept s t ∧
    getThread t s.cur =
      { running s with pend := some { cause := cause, elem := 0, info := info, start := 0 }, pendDecode := decode })

/-- The state waits for something and tries again: nothing but the mark that the instruction could not go on differs. -/
def Waits (s : State) (o : Host.Outcome State Fault Refusal) : Prop := o = .next { s with stalled := true }

/-- The queues and counters have room for a vector instruction (R158, R210, R226, R264): 64 entries in the vector queue, 16
places in the read queue, 63 in each counter the instruction counts in. -/
abbrev Room (s : State) (op : VOp) : Prop :=
  let th := running s
  th.vq.length < 64 ∧ (gdestOf op ≠ none → th.rq.length < 16) ∧ (countsLd op = true → ldCount th < 63) ∧
    (countsSt op = true → stCount th < 63) ∧ (isCopy op = true → cpCount s s.cur < 63) ∧
    (takesSlot op = true → tlCount s s.cur < 63)

/-- The thread's record once an operation has been pushed: its entry, with the captured values, is the last of the vector
queue; an instruction with a g register result has the last place in the read queue; the pc has moved on. No chain, mask,
g register or CSR has changed (R61, R158, R264). -/
def pushed (th : Thread) (op : VOp) (len : Nat) : Thread :=
  { th with
    vq := th.vq ++
      [{ op := op, pc := th.pc, vl := th.vl, vtype := th.vtype, fill := th.fill, xbound := th.xbound, clmode := th.clmode
         clrec := th.clrec, budget := th.budget, stamp := th.nextStamp, inHandler := th.frozen.isSome, begun := false
         finished := false, stalled := false, prog := 0, old := Desc.empty, part := Desc.empty, extra := [], writes := true
         keepExcl := false, flags := 0, snap := [], gres := 0, names := [], bk := bookmarkOf th (classOf op), fault := none
         wrote := [], struck := [], dropped := [] }]
    rq := match gdestOf op with
      | some d => th.rq ++ [{ reg := d, val := none, stamp := th.nextStamp, csr := none, base := 0, froze := false }]
      | none => th.rq
    nextStamp := th.nextStamp + 1, pc := th.pc + BitVec.ofNat 64 len }

/-- A vector instruction is pushed as an operation, by a thread of a vector core whose registers hold their values, and in
these cases only: on an MCC it is illegal (cause 0x01); a chain, mask or scale register that the launch does not have is
illegal register (0x02); behind a first-fault load the thread waits; a pattern or copy descriptor fault is raised; with no
room the instruction waits (R66, R112, R113, R158, R210, R264, R266). -/
def Pushes (s : State) (i : Instr) (len : Nat) (gs : List Reg) (op : VOp) : Prop :=
  let th := running s
  let o := exec i s
  (isMcc s.cur = true → Raises s o 0x01 th.ir.toNat true) ∧
  (isMcc s.cur = false → registersOk th op = false → Raises s o 0x02 th.ir.toNat true) ∧
  (isMcc s.cur = false → registersOk th op = true → UsableFor s (gdestOf op) gs →
    (ffPending th = true → ∃ t, o = .next t ∧ t.stalled = true ∧ BytesKept s t ∧
      getThread t s.cur = { th with wait := .firstFault }) ∧
    (ffPending th = false →
      match pushFault s s.cur op with
      | some f => Raises s o f.cause f.info true
      | none => (Room s op → Becomes s o (pushed (dropFor th (gdestOf op)) op len)) ∧ (¬ Room s op → Waits s o)))

end Sys2Proof.Safety
end

