-- ==== Sys2Proof/Certificates/Slice0/Obligations.lean ====
section
/-!
DEFINITION. The statements for the provers, from the rules of the manual.
-/

open Sys2Proof Sys2Proof.Machine Sys2Proof.Safety

/-- Encodings worked out in the manual decode to the instructions they stand for. Words that the manual writes out bit by
bit, of every group of formats (integer, immediate, floating point, memory, atomic, branch, table jump, system, CSR,
synchronisation, vsetl, vector, permutation, mask, chain, tile slot, collator, pattern, pair, matrix and copy forms),
are read by the decoder as the instruction that the manual gives for each. (04_encoding.md, 06_scalar.md,
08_chains_memory.md, 09_tiles_collator_patterns.md, R149) -/
def Obligations.SpecWordsDecode : Prop :=
  decodeTableWord 32 0x04642800 = some (.add 3 4 5) ∧
  decodeTableWord 32 0x048535C7 = some (.csel 4 5 6 7) ∧
  decodeTableWord 32 0x1F813FC0 = some (.lim 28 1 0x3FC0) ∧
  decodeTableWord 32 0x28853021 = some (.fadd 4 5 6 2 1) ∧
  decodeTableWord 32 0x2C85A004 = some (.ld 4 5 2 true 0 4) ∧
  decodeTableWord 32 0x38D43836 = some (.cas 6 20 7 true 2 3) ∧
  decodeTableWord 32 0x4C041FF6 = some (.bstrip 1 0x1FF6) ∧
  decodeTableWord 32 0x48042803 = some (.jt 4 5 3) ∧
  decodeTableWord 32 0x50000100 = some .xret ∧
  decodeTableWord 32 0x50000008 = some .trapRegisterFaultRecord ∧
  decodeTableWord 32 0x54154004 = some (.csrw 21 4) ∧
  decodeTableWord 32 0x5BFF089F = some (.wait 31 31 1 31) ∧
  decodeTableWord 32 0x5CA10200 = some (.vsetl 5 1 4 0 0) ∧
  decodeTableWord 32 0x706110B3 = some (.vfdivVV 3 1 2 5 true) ∧
  decodeTableWord 32 0x78409C0D = some (.vcmpGeVS 4 1 7 0) ∧
  decodeTableWord 32 0x80E84818 = some (.vupdAdd 7 8 9 0) ∧
  decodeTableWord 32 0x84310004 = some (.mpopc 3 4) ∧
  decodeTableWord 32 0xA4211001 = some (.vcat 1 1 2) ∧
  decodeTableWord 32 0xA4204803 = some (.vsplit 1 0 9) ∧
  decodeTableWord 32 0xA841AD80 = some (.clmap 2 1 21 22) ∧
  decodeTableWord 32 0xAC050020 = some (.tbind 5 1) ∧
  decodeTableWord 32 0xB0611005 = some (.pat 3 1 2 0 5) ∧
  decodeAt 0xCC8FAD1E 0 false = .ok (.hinc 8 0x1F, 2) ∧
  decodeAt 0xCC8FAD1E 0 true = .ok (.hbnz 8 0x1E, 2) ∧
  decodeTableWord 64 (0xB5041000 + 0x58000000 * 2 ^ 32) = some (.mdrain 1 0 1 0 false 11 0) ∧
  decodeTableWord 64 (0xB840F0EE + 0xA56D7C90 * 2 ^ 32) = some (.cpyg 0 1 true 24 0xEE 20 21 22 23 25 4)

/-- Every well-formed instruction is decoded from its own encoding. For every well-formed instruction of the table, with
every operand at every value its field admits, the decoder reads what the encoder writes as that instruction: a 32-bit
parcel whatever follows it, both parcels of a 64-bit form, and a half in either place of a pair whatever stands in the
other place. (04_encoding.md, R91, R93, R110) -/
def Obligations.EveryEncodingDecodesBack : Prop :=
  ∀ i : Instr, i.wf = true →
    match encode i with
    | .word w => w < 2 ^ 32 ∧ ∀ w1, decodeAt w w1 false = .ok (i, 4)
    | .long w0 w1 => w0 < 2 ^ 32 ∧ w1 < 2 ^ 32 ∧ decodeAt w0 w1 false = .ok (i, 8)
    | .half h => h < 2 ^ 15 ∧ (∀ g w1, g < 2 ^ 15 → decodeAt (3 * 2 ^ 30 + h * 2 ^ 15 + g) w1 false = .ok (i, 2)) ∧
        ∀ g w1, g < 2 ^ 15 → decodeAt (3 * 2 ^ 30 + g * 2 ^ 15 + h) w1 true = .ok (i, 2)
    | .event => True

/-- A parcel that is accepted is the encoding of what it is read as. Whatever the decoder accepts is well formed and is
encoded as what was read, bit for bit: a 32-bit parcel outside a pair as a 32-bit instruction, the two parcels of a
64-bit form, and either half of a pair. No reserved bit and no unassigned function code is accepted. (04_encoding.md,
R112) -/
def Obligations.AcceptedParcelsHaveOneMeaning : Prop :=
  (∀ (w w1 : Nat) (i : Instr), w < 2 ^ 32 → decodeAt w w1 false = .ok (i, 4) → i.wf = true ∧ encode i = .word w) ∧
  (∀ (w w1 : Nat) (i : Instr), w < 2 ^ 32 → w1 < 2 ^ 32 → decodeAt w w1 false = .ok (i, 8) →
    i.wf = true ∧ encode i = .long w w1) ∧
  ∀ (w w1 : Nat) (i : Instr) (b : Bool), w < 2 ^ 32 → decodeAt w w1 b = .ok (i, 2) →
    w / 2 ^ 30 = 3 ∧ i.wf = true ∧ encode i = .half (if b then w % 2 ^ 15 else w / 2 ^ 15 % 2 ^ 15)

/-- A step fetches the parcels at the pc and executes the instruction they hold. When a thread may issue, and its parcel
is fetched as w0, and with it the next one as w1 when w0 is the prefix of a 64-bit form, and the decoder reads them as
i (the half at pc[1] of a pair): with no turn of the agenda left and the current thread's turn not yet taken, the step
is the execution of i, with the fetched parcel noted for a report, after which the device's own turn comes; with the
thread's turn at the head of the agenda, the step is that execution with that thread as the current one. With a device
event at the head of the agenda the step is the execution of that event with its operands. (The agenda and the turn
are the model's choice, log 1.) (04_encoding.md, R88, R89, R90) -/
def Obligations.StepRunsTheDecodedInstruction : Prop :=
  (∀ (s : State) (w0 w1 : Nat) (i : Instr) (n : Nat),
    canIssue (running s) = true → s.stalled = false →
    fetchParcel s s.cur (parcelAddr (running s).pc) = (s, .ok w0) →
    ((isPrefix w0 && !atHalfB (running s)) = true → fetchParcel s s.cur (parcelAddr (running s).pc + 4) = (s, .ok w1)) →
    ((isPrefix w0 && !atHalfB (running s)) = false → w1 = 0) →
    decodeAt w0 w1 (atHalfB (running s)) = .ok (i, n) →
    (s.agenda = [] →
      (∀ t, exec i (withIr s s.cur w0) = .next t → step s = .next { t with stalled := true }) ∧
      (∀ f, exec i (withIr s s.cur w0) = .fault f → step s = .fault f) ∧
      ∀ r, exec i (withIr s s.cur w0) = .refused r → step s = .refused r) ∧
    ∀ (u : Tid) (b : Bool), step { s with agenda := .run s.cur :: s.agenda, cur := u, stalled := b } =
      exec i (withIr s s.cur w0)) ∧
  ∀ (s : State) (i : Instr) (a : EventArg) (r : List Turn), encode i = .event → s.agenda = .event i a :: r →
    step s = exec i { s with agenda := r, stalled := false, ev := a }

/-- A fetched parcel is the four bytes at its address, least significant first. When the address of a parcel is translated
to device memory for a fetch, the parcel is the number that its four bytes make, the first byte lowest, and the fetch
changes nothing. (04_encoding.md, R3, R88, R89) -/
def Obligations.FetchReadsFourBytes : Prop :=
  ∀ (s : State) (t : Tid) (va : Word) (pa : Nat) (ser : Bool),
    accessTarget s (partyOf s t) va 4 4 .fetch = .ok (.dev pa ser) →
    fetchParcel s t va =
      (s, .ok ((memGet s.mem pa).toNat + 2 ^ 8 * (memGet s.mem (pa + 1)).toNat + 2 ^ 16 * (memGet s.mem (pa + 2)).toNat +
        2 ^ 24 * (memGet s.mem (pa + 3)).toNat))

/-- Each integer instruction writes its result and nothing else. For every state in which the registers that an INT
instruction reads hold their values, and gd awaits none of an entry that is or was frozen: add, sub, mul, mulh, mulhn,
and, or, xor, shl, shr, sra, rot, min, max, minn, maxn, slt, sltn, seq, csel, clz, ctz, popc, sext and zext complete,
gd takes the value that R129 gives (nothing is written for g0), the pc moves on by 4, no flag is raised, and no other
register, thread, part of the device or byte of memory changes. The halves hadd, hsub, hand, hor, hmov, hinc and hshl
do the same on gd and ga and move the pc on by 2; hnop changes the pc only. (06_scalar.md, Integer instructions,
04_encoding.md, R91, R59) -/
def Obligations.IntegerInstructionResults : Prop :=
  (∀ (s : State) (d a b c : Reg), Usable s d [a, b, c] →
    let x := reg s a
    let y := reg s b
    let W (i : Instr) (v : Word) : Prop := Writes s (exec i s) d v 0 4
    W (.add d a b) (x + y) ∧ W (.sub d a b) (x - y) ∧ W (.mul d a b) (x * y) ∧
    W (.mulh d a b) (BitVec.ofInt 64 (x.toInt * y.toInt / 2 ^ 64)) ∧
    W (.mulhn d a b) (BitVec.ofNat 64 (x.toNat * y.toNat / 2 ^ 64)) ∧
    W (.and d a b) (x &&& y) ∧ W (.or d a b) (x ||| y) ∧ W (.xor d a b) (x ^^^ y) ∧
    W (.shl d a b) (x <<< (y.toNat % 64)) ∧ W (.shr d a b) (x >>> (y.toNat % 64)) ∧
    W (.sra d a b) (x.sshiftRight (y.toNat % 64)) ∧ W (.rot d a b) (x.rotateRight (y.toNat % 64)) ∧
    W (.min d a b) (if x.toInt ≤ y.toInt then x else y) ∧ W (.max d a b) (if x.toInt ≤ y.toInt then y else x) ∧
    W (.minn d a b) (if x.toNat ≤ y.toNat then x else y) ∧ W (.maxn d a b) (if x.toNat ≤ y.toNat then y else x) ∧
    W (.slt d a b) (if x.toInt < y.toInt then 1 else 0) ∧ W (.sltn d a b) (if x.toNat < y.toNat then 1 else 0) ∧
    W (.seq d a b) (if x = y then 1 else 0) ∧ W (.csel d a b c) (if reg s c = 0 then y else x) ∧
    (∃ n : Nat, n ≤ 64 ∧ W (.clz d a) (BitVec.ofNat 64 n) ∧
      (∀ k, 64 - n ≤ k → k < 64 → x.getLsbD k = false) ∧ (n < 64 → x.getLsbD (63 - n) = true)) ∧
    (∃ n : Nat, n ≤ 64 ∧ W (.ctz d a) (BitVec.ofNat 64 n) ∧
      (∀ k, k < n → x.getLsbD k = false) ∧ (n < 64 → x.getLsbD n = true)) ∧
    W (.popc d a) (BitVec.ofNat 64 ((List.range 64).countP fun k => x.getLsbD k)) ∧
    ∀ k : Fin 4, k.val ≠ 3 →
      W (.sext d a b k) ((x.setWidth (8 * 2 ^ k.val)).signExtend 64) ∧
      W (.zext d a b k) ((x.setWidth (8 * 2 ^ k.val)).setWidth 64)) ∧
  ∀ (s : State) (d a : Reg) (imm : BitVec 5) (k : Fin 32),
    let x := reg s d
    let y := reg s a
    let W (i : Instr) (v : Word) : Prop := Writes s (exec i s) d v 0 2
    (Usable s d [d, a] →
      W (.hadd d a) (x + y) ∧ W (.hsub d a) (x - y) ∧ W (.hand d a) (x &&& y) ∧ W (.hor d a) (x ||| y)) ∧
    (Usable s d [a] → W (.hmov d a) y) ∧
    (Usable s d [d] → W (.hinc d imm) (x + imm.signExtend 64) ∧ W (.hshl d k) (x <<< k.val)) ∧
    GoesTo s (exec .hnop s) ((running s).pc + 2)

/-- Integer division truncates, and never traps. For every state in which the registers hold their values: div, divn, rem
and remn complete with the quotient truncated toward zero and the remainder of the dividend's sign; a zero divisor
gives a quotient of all ones and the remainder ga, and sets FFLAGS.DZ; the least number divided by -1 gives itself and
the remainder 0 with no flag; nothing else changes. (R130) -/
def Obligations.IntegerDivision : Prop :=
  ∀ (s : State) (d a b : Reg), Usable s d [a, b] →
    let x := reg s a
    let y := reg s b
    let W (i : Instr) (v : Word) (fl : BitVec 7) : Prop := Writes s (exec i s) d v fl 4
    (y = 0 → W (.div d a b) 0xFFFFFFFFFFFFFFFF 0b0001000 ∧ W (.divn d a b) 0xFFFFFFFFFFFFFFFF 0b0001000 ∧
      W (.rem d a b) x 0b0001000 ∧ W (.remn d a b) x 0b0001000) ∧
    (y ≠ 0 → W (.div d a b) (BitVec.ofInt 64 (Int.tdiv x.toInt y.toInt)) 0 ∧
      W (.rem d a b) (BitVec.ofInt 64 (Int.tmod x.toInt y.toInt)) 0 ∧
      W (.divn d a b) (BitVec.ofNat 64 (x.toNat / y.toNat)) 0 ∧ W (.remn d a b) (BitVec.ofNat 64 (x.toNat % y.toNat)) 0) ∧
    (x = 0x8000000000000000 → y = 0xFFFFFFFFFFFFFFFF →
      W (.div d a b) 0x8000000000000000 0 ∧ W (.rem d a b) 0 0)

/-- The immediate forms and lim write what their tables give. For every state in which the registers hold their values:
addi, andi, ori, xori, shli, shri, srai, slti and sltni complete with the value of R131; lim writes the immediate at
its position with every other bit 0 and lim.k changes those 16 bits only; nothing else changes. A shifti with
imm[15:14] = 3 or a bit of imm[13:6], and a lim with a bit of a[4:3], are refused by the decoder. (R131, R132) -/
def Obligations.ImmediateFormsAndConstants : Prop :=
  (∀ (s : State) (d a : Reg) (imm : BitVec 16) (k : Fin 64) (p : Fin 4), Usable s d [a] →
    let x := reg s a
    let W (i : Instr) (v : Word) : Prop := Writes s (exec i s) d v 0 4
    W (.addi d a imm) (x + imm.signExtend 64) ∧ W (.andi d a imm) (x &&& imm.setWidth 64) ∧
    W (.ori d a imm) (x ||| imm.setWidth 64) ∧ W (.xori d a imm) (x ^^^ imm.setWidth 64) ∧
    W (.shli d a k) (x <<< k.val) ∧ W (.shri d a k) (x >>> k.val) ∧ W (.srai d a k) (x.sshiftRight k.val) ∧
    W (.slti d a imm) (if x.toInt < imm.toInt then 1 else 0) ∧
    W (.sltni d a imm) (if x.toNat < (imm.signExtend 64).toNat then 1 else 0) ∧
    W (.lim d p imm) (imm.setWidth 64 <<< (16 * p.val))) ∧
  (∀ (s : State) (d : Reg) (imm : BitVec 16) (p : Fin 4), Usable s d [d] →
    ∃ v : Word, Writes s (exec (.limK d p imm) s) d v 0 4 ∧ ∀ j, j < 64 →
      v.getLsbD j = if 16 * p.val ≤ j ∧ j < 16 * p.val + 16 then imm.getLsbD (j - 16 * p.val) else (reg s d).getLsbD j) ∧
  (∀ w w1 : Nat, w < 2 ^ 32 → w / 2 ^ 26 = 0x06 → w / 2 ^ 14 % 4 = 3 ∨ w / 2 ^ 6 % 2 ^ 8 ≠ 0 →
    ∃ e, decodeAt w w1 false = .error e) ∧
  ∀ w w1 : Nat, w < 2 ^ 32 → w / 2 ^ 26 = 0x07 → w / 2 ^ 19 % 4 ≠ 0 → ∃ e, decodeAt w w1 false = .error e

/-- An instruction that reads a register whose value is still to come waits for it, or raises in a handler. For every
register that awaits the value of a load, an atomic or the read queue, and every scalar form (integer, immediate,
constant, floating point, memory, atomic, branch, jump, CSR, leave, fence, watermark, region, bookmark, half) that
reads it, the traps that take or give g28 among them: the instruction does nothing but wait; it has no effect before
the value is there. A form that only writes the register waits just when the value is one of an entry that was frozen
once. When the value is to come from an entry that a handler entry has set aside, both raise cause 0x13 instead,
without effect. That the vector instructions of the handler itself complete first, as before any scalar event (R128),
is the model's choice (log 33), and so is that the report of cause 0x13 then holds 0 in INNER, XELEM and XINFO (log
103). (06_scalar.md, Execution and faults, R127, R128, R273, R277) -/
def Obligations.PendingRegisterHoldsBack : Prop :=
  ∀ (s : State) (a d b : Reg) (imm : BitVec 16) (off : BitVec 13) (o9 : BitVec 9) (z p k c : Fin 4) (r t : Fin 8) (cl : Fin 16)
    (g q : Bool) (l : Fin 2048) (sh : Fin 64) (sh5 : Fin 32) (i5 : BitVec 5) (n : Fin 4096) (x : Fin 64), n.val < 0x20 →
    let half (h : Fin 8) : Reg := Fin.ofNat 32 (h.val + 8)
    let R (a : Reg) (i : Instr) : Prop :=
      ((∀ q, frozenPending (running s) q = false) → pending (running s) a = true → Waits s (exec i s)) ∧
      (frozenPending (running s) a = true → Raises s (exec i s) 0x13 0 false)
    let W (a : Reg) (i : Instr) : Prop :=
      (Ready s [b, d] → frozenPending (running s) a = false → oncePending (running s) a = true → Waits s (exec i s)) ∧
      (frozenPending (running s) a = true → Raises s (exec i s) 0x13 0 false)
    (∀ f ∈ [Instr.add, .sub, .mul, .mulh, .mulhn, .div, .divn, .rem, .remn, .and, .or, .xor, .shl, .shr, .sra, .rot, .min, .max, .minn,
        .maxn, .slt, .sltn, .seq], R a (f d a b) ∧ R a (f d b a) ∧ W a (f a b d)) ∧
    (R a (.csel d a b b) ∧ R a (.csel d b a b) ∧ R a (.csel d b b a) ∧ W a (.csel a b d b)) ∧
    (∀ f ∈ [Instr.clz, .ctz, .popc], R a (f d a) ∧ W a (f a b)) ∧
    (∀ f ∈ [Instr.sext, .zext], R a (f d a b k) ∧ W a (f a b d k)) ∧
    (∀ f ∈ [Instr.addi, .andi, .ori, .xori, .slti, .sltni], R a (f d a imm) ∧ W a (f a b imm)) ∧
    (∀ f ∈ [Instr.shli, .shri, .srai], R a (f d a sh) ∧ W a (f a b sh)) ∧
    (W a (.lim a p imm) ∧ R a (.limK a p imm)) ∧
    (∀ f ∈ [Instr.fadd, .fsub, .fmul, .fdiv], R a (f d a b p r) ∧ R a (f d b a p r) ∧ W a (f a b d p r)) ∧
    (R a (.fma a d b p r) ∧ R a (.fma d a b p r) ∧ R a (.fma d b a p r)) ∧
    (∀ f ∈ [Instr.fmin, .fmax, .feq, .flt, .fle], R a (f d a b p) ∧ R a (f d b a p) ∧ W a (f a b d p)) ∧
    (R a (.fsqrt d a p r) ∧ W a (.fsqrt a b p r) ∧ R a (.fcvt d a k p r) ∧ W a (.fcvt a b k p r)) ∧
    (∀ f ∈ [Instr.fcvti, .fcvtf], R a (f d a t p r) ∧ W a (f a b t p r)) ∧
    (R a (.ld d a z g cl o9) ∧ W a (.ld a b z g cl o9) ∧ R a (.st d a z cl o9) ∧ R a (.st a d z cl o9)) ∧
    (R (half t) (.hldd r t cl) ∧ (Ready s [half r] → W (half t) (.hldd t r cl))) ∧
    (R (half t) (.hstd r t cl) ∧ R (half t) (.hstd t r cl)) ∧
    (∀ f ∈ [Instr.amoadd, .amoand, .amoor, .amoxor, .amoswap, .amofadd],
      R a (f d a b g k c) ∧ R a (f d b a g k c) ∧ W a (f a b d g k c)) ∧
    (∀ f ∈ [Instr.amomin, .amomax], R a (f d a b g k c q) ∧ R a (f d b a g k c q) ∧ W a (f a b d g k c q)) ∧
    (R a (.cas a d b g k c) ∧ R a (.cas d a b g k c) ∧ R a (.cas d b a g k c)) ∧
    (∀ f ∈ [Instr.beq, .bne, .blt, .bge, .bltn, .bgen], R a (f a b off) ∧ R a (f b a off)) ∧
    (R a (.jr d a imm) ∧ W a (.jr a b imm) ∧ R a (.jt a b l) ∧ R a (.jt b a l) ∧ R a (.bstrip a off) ∧ R a (.hbz a i5) ∧
      R a (.hbnz a i5) ∧ ∀ o, W 31 (.jal o)) ∧
    (R a (.csrw a n) ∧ W a (.csrr a n) ∧ R a (.leave a) ∧ R a (.fence a k c) ∧ R a (.wmpub a b) ∧ R a (.wmpub b a) ∧ R a (.bkset a k)) ∧
    (R a (.apnd d a b) ∧ R a (.apnd d b a) ∧ W a (.apnd a b d) ∧ R a (.apub a d b) ∧ R a (.apub d a b) ∧ R a (.apub d b a)) ∧
    (∀ f ∈ [Instr.hadd, .hsub, .hand, .hor], R a (f d a) ∧ R a (f a d)) ∧
    (R a (.hmov d a) ∧ W a (.hmov a b) ∧ R a (.hinc a i5) ∧ R a (.hshl a sh5)) ∧
    ∀ i ∈ [Instr.trapReadTsw, .trapReadViolationLog, .trapAbort, .trapRegisterFaultRecord, .trapUnassigned x], R 28 i

/-- A parcel that the decoder refuses raises illegal instruction with the parcel in XINFO. When no agenda turn comes first
and the current thread may issue and has its turn, and the parcel it fetches is one that the decoder refuses, the
step, after which the device's own turn comes, raises illegal instruction (cause 0x01): with no vector instruction
queued, the thread stops for Usilaem with XCAUSE, XPC, XINFO (the parcel) and the other report CSRs written; with some
queued, the event waits for them. Nothing else changes. (The agenda, the turn and the device's own turn are the
model's choice, log 1.) (R112, R113, R356, R357) -/
def Obligations.RefusedParcelsAreIllegal : Prop :=
  ∀ (s : State) (w0 w1 : Nat) (e : DecErr),
    s.agenda = [] → canIssue (running s) = true → s.stalled = false →
    fetchParcel s s.cur (parcelAddr (running s).pc) = (s, .ok w0) → w0 < 2 ^ 32 →
    ((isPrefix w0 && !atHalfB (running s)) = true → fetchParcel s s.cur (parcelAddr (running s).pc + 4) = (s, .ok w1)) →
    ((isPrefix w0 && !atHalfB (running s)) = false → w1 = 0) →
    decodeAt w0 w1 (atHalfB (running s)) = .error e →
    ∃ o, step s = yieldTurn o ∧ Raises (withIr s s.cur w0) o 0x01 w0 true

/-- Each branch goes to its target when its relation holds, else to the next parcel. For every state in which both
registers hold their values: beq, bne, blt, bge, bltn and bgen go to the parcel's address plus 4 times the signed
offset when the relation of R145 holds between ga and gb, and otherwise 4 bytes on; nothing but the pc changes. (R145) -/
def Obligations.BranchesCompareAndGo : Prop :=
  ∀ (s : State) (a b : Reg) (off : BitVec 13), Ready s [a, b] →
    let x := reg s a
    let y := reg s b
    let B (i : Instr) (taken : Prop) : Prop :=
      (taken → GoesTo s (exec i s) (parcelAddr (running s).pc + 4 * off.signExtend 64)) ∧
      (¬ taken → GoesTo s (exec i s) ((running s).pc + 4))
    B (.beq a b off) (x = y) ∧ B (.bne a b off) (x ≠ y) ∧
    B (.blt a b off) (x.toInt < y.toInt) ∧ B (.bge a b off) (x.toInt ≥ y.toInt) ∧
    B (.bltn a b off) (x.toNat < y.toNat) ∧ B (.bgen a b off) (x.toNat ≥ y.toNat)

/-- jal and jr link and jump, a misaligned jr raises, and the half branches count from their pair. For every state in
which the registers hold their values: jal writes the next parcel's address to g31 and jumps; jr writes it to gd
(unless gd is g0) and jumps to ga + 4 times the signed immediate, with ga as it was before; a jr target with bit 0 or
1 set raises misaligned (cause 0x08) with XINFO the target and writes nothing; hbz, hbnz and hjmp go to the pair
parcel's address plus 4 times their signed offset, or 2 bytes on; nothing else changes. (06_scalar.md, Branches and
jumps, R90, R91, R94, R146) -/
def Obligations.JumpsLinkAndGo : Prop :=
  ∀ (s : State) (d a : Reg) (imm : BitVec 16) (off : BitVec 26) (h5 : BitVec 5) (h10 : BitVec 10),
    let th := running s
    let target := reg s a + 4 * imm.signExtend 64
    (Usable s 31 [] → Becomes s (exec (.jal off) s)
      { writeG (dropLate th 31) 31 (parcelAddr th.pc + 4) with pc := parcelAddr th.pc + 4 * off.signExtend 64 }) ∧
    (Usable s d [a] → target.toNat % 4 = 0 → Becomes s (exec (.jr d a imm) s)
      { writeG (dropLate th d) d (parcelAddr th.pc + 4) with pc := target }) ∧
    (Usable s d [a] → target.toNat % 4 ≠ 0 → Raises s (exec (.jr d a imm) s) 0x08 target.toNat false) ∧
    (Ready s [a] → reg s a = 0 → GoesTo s (exec (.hbz a h5) s) (parcelAddr th.pc + 4 * h5.signExtend 64) ∧
      GoesTo s (exec (.hbnz a h5) s) (th.pc + 2)) ∧
    (Ready s [a] → reg s a ≠ 0 → GoesTo s (exec (.hbnz a h5) s) (parcelAddr th.pc + 4 * h5.signExtend 64) ∧
      GoesTo s (exec (.hbz a h5) s) (th.pc + 2)) ∧
    GoesTo s (exec (.hjmp h10) s) (parcelAddr th.pc + 4 * h10.signExtend 64)

/-- jt falls through at its length and else goes by the table entry in memory. For every state in which ga and gb hold
their values: with ga at or above len, jt goes 4 bytes on and reads nothing; below it, when the entry's address gb + 4
ga faults, that fault is raised (for example translation, protection or misaligned, XINFO holding the address); an
access that must come first is waited for, but raises cause 0x13 when a handler has set it aside or it is a frozen
entry's (the model's choice, log 91); with no earlier access of the thread an entry that is poisoned raises poisoned
data, and otherwise jt goes to its own address plus 4 times the signed 32-bit entry, in device memory, in a scratchpad
or in a peer's memory. On a violation response (with no path to the peer, code 4) the entry reads as FILL's low 32
bits, and VIOL is set and the access logged. Nothing else changes but that no value taken early of the entry's bytes
is left (log 2). A peer's memory is the model's own list (log 14). (06_scalar.md, Branches and jumps, R138, R147,
R361, R374) -/
def Obligations.TableJumpReadsItsEntry : Prop :=
  ∀ (s : State) (a b : Reg) (l : Fin 2048), Ready s [a, b] →
    let th := running s
    let va := reg s b + 4 * reg s a
    let i : Instr := .jt a b l
    let go (v : Nat) : Word := parcelAddr th.pc + 4 * (BitVec.ofNat 32 v).signExtend 64
    let G (tg : Target) (v : Nat) : Prop :=
      Becomes s (exec i s) { th with pc := go v, early := th.early.filter fun e => !touches e.tgt e.size tg 4 }
    let V (tg : Target) : Prop := MemoriesOk s → ∃ s', exec i s = .next s' ∧
      getThread s' s.cur =
        { violated th va 4 with pc := go th.fill.toNat, early := th.early.filter fun e => !touches e.tgt e.size tg 4 } ∧
      Logs s s' s.cur va 4 ∧
      (∀ u, u ≠ s.cur → getThread s' u = getThread s u) ∧ s' = { s with threads := s'.threads, mem := s'.mem }
    (l.val ≤ (reg s a).toNat → GoesTo s (exec i s) (th.pc + 4)) ∧
    ((reg s a).toNat < l.val →
      match alignedTarget s (partyOf s s.cur) va 4 4 .load with
      | .error f => Raises s (exec i s) f.cause f.info false
      | .ok tg =>
        (readAside s s.cur tg 4 = true → Raises s (exec i s) 0x13 0 false) ∧
        (readAside s s.cur tg 4 = false → readReady s s.cur tg 4 = false → Waits s (exec i s)) ∧
        (readAside s s.cur tg 4 = false → th.vq = [] → th.out = [] →
          (tgtPoison s tg 4 = true → Raises s (exec i s) 0x12 va.toNat false) ∧
          (tgtPoison s tg 4 = false →
            match tg with
            | .dev pa _ => G tg (memRead s.mem pa 4)
            | .spad key => G tg (memRead s.spad key 4)
            | .peer q pa _ => G tg (memRead s.peer (q * 2 ^ 48 + pa) 4)
            | .violation c => c = 4 ∧ V tg)))

/-- bstrip branches while the count falls and raises no progress at its second strike. For every state in which ga holds
its value c: with c = 0 bstrip drops its entry and goes on; without an entry for its address, or with a count below
the entry's, it records c with no strikes and branches; at the entry's first strike it counts the strike and branches;
at the second it raises no progress (cause 0x0A) with XINFO the last grant: with vector instructions queued the event
waits for them; then the entry is gone, and the thread enters its handler, XRET the bstrip, when UFMASK bit 10 is set
and no handler runs, or stops. The entry used comes first in the record, which keeps four; nothing else changes.
(06_scalar.md, bstrip and the strip record, R128, R148, R150, R277) -/
def Obligations.BstripKeepsItsRecord : Prop :=
  ∀ (s : State) (a : Reg) (off : BitVec 13), Ready s [a] →
    let th := running s
    let c := reg s a
    let others := th.strip.filter fun x => decide (x.key ≠ th.pc)
    let go := parcelAddr th.pc + 4 * off.signExtend 64
    let mine := th.strip.find? fun x => decide (x.key = th.pc)
    (c = 0 → Becomes s (exec (.bstrip a off) s) { th with strip := others, pc := th.pc + 4 }) ∧
    (c ≠ 0 → mine = none → Becomes s (exec (.bstrip a off) s)
      { th with strip := { key := th.pc, count := c, strikes := 0 } :: others.take 3, pc := go }) ∧
    (c ≠ 0 → ∀ e, mine = some e →
      (c.toNat < e.count.toNat → Becomes s (exec (.bstrip a off) s)
        { th with strip := { key := th.pc, count := c, strikes := 0 } :: others, pc := go }) ∧
      (e.count.toNat ≤ c.toNat → e.strikes = 0 → Becomes s (exec (.bstrip a off) s)
        { th with strip := { e with strikes := 1 } :: others, pc := go }) ∧
      (e.count.toNat ≤ c.toNat → e.strikes ≠ 0 →
        (th.vq ≠ [] → ∃ t, exec (.bstrip a off) s = .next t ∧ t.stalled = true ∧ BytesKept s t ∧
          (∀ u, u ≠ s.cur → getThread t u = getThread s u) ∧ getThread t s.cur =
            { th with pend := some { cause := 0x0A, elem := 0, info := th.lastGrant, start := 0 }, pendDecode := false }) ∧
        (th.vq = [] → th.ufmask.getLsbD 10 = false ∨ th.frozen ≠ none →
          Becomes s (exec (.bstrip a off) s) { stoppedAt th 0x0A th.lastGrant with strip := others }) ∧
        (th.vq = [] → th.ufmask.getLsbD 10 = true → th.frozen = none → Becomes s (exec (.bstrip a off) s)
          { th with
            xcause := 0x0A, xpc := (th.pc.setWidth 52).signExtend 64, xvpc := 0, xqpos := 0, xelem := 0
            xinfo := BitVec.ofNat 64 th.lastGrant, strip := others, pend := none, pendDecode := false, xret := th.pc
            frozen := some { vl := th.vl, vtype := th.vtype, maxvl := th.maxvl, clrec := th.clrec, m46 := th.m[46], vq := [], rq := [], out := []
                             carry := if th.carryNext = [] then none else some th.pcarry, carries := th.carryNext, wrote := false }
            pcarry := (match th.carryNext.getLast? with | some q => q.2 | none => th.pcarry)
            carryNext := [], pc := parcelAddr th.ufvec, wait := .none })))

/-- brk enters the user handler that UFMASK routes it to, and else stops for Usilaem. brk completes with no condition but
that no vector instruction is queued: it writes its report (cause 0x0E, XPC, XINFO the code). When UFMASK bit 14 is
set and no handler runs, the thread enters its handler: XRET is the next parcel's address, VL, VTYPE, MAXVL, CLMODE's
record and m46 are set aside with an empty vector queue, and the pc is UFVEC; the read queue goes on, since every
value in it comes from an instruction that has completed and still arrives; PCARRY is the value last written.
Otherwise the thread stops. Nothing else changes. With vector instructions queued brk waits for them. (06_scalar.md,
System instructions, R128, R150, R277, R357) -/
def Obligations.BreakpointEntersTheHandler : Prop :=
  ∀ (s : State) (c : Fin 64),
    let th := running s
    (th.vq ≠ [] → ∃ t, exec (.brk c) s = .next t ∧ t.stalled = true ∧ BytesKept s t ∧
      getThread t s.cur =
        { th with pend := some { cause := 0x0E, elem := 0, info := c.val, start := 0 }, pendDecode := false }) ∧
    (th.vq = [] → th.ufmask.getLsbD 14 = true → th.frozen = none → Becomes s (exec (.brk c) s)
      { th with
        xcause := 0x0E, xpc := (th.pc.setWidth 52).signExtend 64, xvpc := 0, xqpos := 0, xelem := 0
        xinfo := BitVec.ofNat 64 c.val, pend := none, pendDecode := false, xret := parcelAddr th.pc + 4
        frozen := some { vl := th.vl, vtype := th.vtype, maxvl := th.maxvl, clrec := th.clrec, m46 := th.m[46], vq := [], rq := [], out := []
                         carry := if th.carryNext = [] then none else some th.pcarry, carries := th.carryNext, wrote := false }
        pcarry := (match th.carryNext.getLast? with | some q => q.2 | none => th.pcarry)
        carryNext := [], pc := parcelAddr th.ufvec, wait := .none }) ∧
    (th.vq = [] → th.ufmask.getLsbD 14 = false ∨ th.frozen ≠ none → Becomes s (exec (.brk c) s) (stoppedAt th 0x0E c.val))

/-- xret leaves the handler with what its entry set aside, and is illegal elsewhere. Outside a user handler xret raises
illegal instruction; with bit 0 of XRET set it raises misaligned; while the handler's own vector work is not done it
waits; else the thread goes on at XRET with VL, VTYPE, MAXVL, CLMODE's record, m46, the read queue and the frozen
vector queue as they were. PCARRY is the value that the frozen entries need, that from before the handler where the
entry kept one, and the values still to come into force, that of the handler last, are taken as soon as no frozen
entry precedes them. A scalar access that the frozen entries held back is outstanding again, and goes where its
address leads now (the model's choice, log 91). A frozen pattern reads its mask anew. The oldest entry goes on: one
that has begun and builds a fresh result takes its destination's chain as its prefix and goes on after it when that
chain has PARTIAL and EXCL set, and otherwise starts over at element 0 with that chain left to be freed; one that has
not begun, or builds no chain, goes on at VSTART. Nothing else changes. (06_scalar.md, System instructions, R87, R90,
R153, R276, R278) -/
def Obligations.HandlerReturnRestores : Prop :=
  ∀ s : State,
    let th := running s
    (th.frozen = none → Raises s (exec .xret s) 0x01 th.ir.toNat true) ∧
    ∀ f, th.frozen = some f →
      (th.xret.toNat % 2 = 1 → Raises s (exec .xret s) 0x08 th.xret.toNat false) ∧
      (th.xret.toNat % 2 = 0 → th.vq = [] → th.rq = [] →
        let carries : List (Nat × Word) := match f.carry with
          | some _ => f.carries ++ if f.wrote = true then [(th.nextStamp, th.pcarry)] else []
          | none => th.carryNext
        let due := carries.takeWhile fun q => f.vq.all fun e => decide (q.1 ≤ e.stamp)
        let back : Thread :=
          { th with vl := f.vl, vtype := f.vtype, maxvl := f.maxvl, clrec := f.clrec, m := th.m.set 46 f.m46, rq := f.rq
                    out := f.out.map (retarget s s.cur) ++ th.out, frozen := none, pc := th.xret, wait := .none
                    pcarry := (match due.getLast? with | some q => q.2 | none => f.carry.getD th.pcarry)
                    carryNext := carries.drop due.length }
        (f.vq = [] → Becomes s (exec .xret s) back) ∧
        ∀ e r, f.vq = e :: r →
          let anew (e : VEntry) : VEntry := { e with snap := if isPat e.op then [] else e.snap }
          let e0 : VEntry := { anew e with fault := none, stalled := false }
          let r := r.map anew
          (e.begun = false ∨ isFresh e.op = false → Becomes s (exec .xret s)
            { back with vq := { e0 with prog := th.vstart.toNat } :: r }) ∧
          ∀ d, e.begun = true → isFresh e.op = true → destOf e.op = some d →
            let ch := th.v[d.val]
            let away : Thread := { back with v := back.v.set d.val Desc.empty }
            (ch.part = true → ch.excl = true → Becomes s (exec .xret s)
              { away with vq := { e0 with part := { ch with part := false }, prog := elemCount ch.len (resultSize e) } :: r }) ∧
            (ch.part = false ∨ ch.excl = false → Becomes s (exec .xret s)
              { away with vq := { e0 with part := Desc.empty, prog := 0
                                          extra := if ch.len = 0 then e.extra else e.extra ++ [ch] } :: r })) ∧
      (th.xret.toNat % 2 = 0 → th.vq ≠ [] ∨ th.rq ≠ [] →
        ∃ t, exec .xret s = .next t ∧ t.stalled = true ∧ getThread t s.cur = { th with wait := .xret })

/-- A service trap writes its report, is served, and the thread goes on after it. When the registers of the service hold
their values and every access of the thread has been performed, a trap writes its report (XCAUSE 0x0F, XPC, XINFO the
code, the rest 0) and the thread goes on at the next parcel: trap 0 does nothing more; trap 1 gives g28 the TSW and
clears it on an MCC, and 0 on a vector core; an unassigned code gives g28 all ones; trap 2 gives g28 and g29 the
oldest unread violation entry, or 0 when there is none; trap 8 on an MCC registers an aligned writable record. Before
that the trap waits. That a trap inside a user handler records 0x0F too, and waits for the handler's own accesses
only, are the model's choices (logs 39 and 40), and so is that a second trap 8 replaces the record registered before
(log 104). (06_scalar.md, System instructions, 18_contexts.md, R360, R150, R314) -/
def Obligations.TrapsAreServed : Prop :=
  ∀ (s : State) (c : Fin 64), Ready s [28, 29] →
    let th := running s
    let after (code : Nat) : Thread :=
      { th with
        xcause := 0x0F, xpc := (th.pc.setWidth 52).signExtend 64, xvpc := 0, xqpos := 0, xelem := 0
        xinfo := BitVec.ofNat 64 code, pend := none, pendDecode := false, pc := parcelAddr th.pc + 4 }
    let log := (getCtx s th.ctx).vlog
    let w := memRead s.mem log 8
    let r := memRead s.mem (log + 8) 8
    (trapDrained s s.cur = false → Waits s (exec .trapNone s)) ∧
    (trapDrained s s.cur = true →
      Becomes s (exec .trapNone s) (after 0) ∧
      Becomes s (exec (.trapUnassigned c) s) (writeG (after c.val) 28 (BitVec.allOnes 64)) ∧
      (isMcc s.cur = false → Becomes s (exec .trapReadTsw s) (writeG (after 1) 28 0)) ∧
      (isMcc s.cur = true → ∃ t, exec .trapReadTsw s = .next t ∧ BytesKept s t ∧
        getThread t s.cur = writeG (after 1) 28 ((getCluster s (clusterOf s.cur)).tsw.setWidth 64) ∧
        getCluster t (clusterOf s.cur) = { getCluster s (clusterOf s.cur) with tsw := 0 }) ∧
      (w = r → Becomes s (exec .trapReadViolationLog s) (writeG (writeG (after 2) 28 0) 29 0)) ∧
      (w ≠ r → MemoriesOk s → ∃ t, exec .trapReadViolationLog s = .next t ∧
        getThread t s.cur = writeG (writeG (after 2) 28 (BitVec.ofNat 64 (memRead s.mem (log + 16 + 16 * (r % 64)) 8))) 29
          (BitVec.ofNat 64 (memRead s.mem (log + 16 + 16 * (r % 64) + 8) 8)) ∧
        (∀ a, a < log + 8 ∨ log + 16 ≤ a → memGet t.mem a = memGet s.mem a) ∧
        memRead t.mem (log + 8) 8 = (r + 1) % 2 ^ 64) ∧
      (recordOk s s.cur (reg s 28) = true → Becomes s (exec .trapRegisterFaultRecord s)
        { after 8 with record := some (reg s 28) }))

/-- Each scalar floating-point instruction writes its rounded result and its flags, and nothing else. For every state in
which the registers hold their values: fadd, fsub, fmul, fdiv, fsqrt, fma, fcvt, fcvti and fcvtf in a mode of 0 to 4,
their own or that of FRM for code 7, and fmin, fmax, feq, flt and fle, complete: gd takes the result of the operation
on the low bits of the operands in the precision's type (zero-extended; an integer target by its signedness), FFLAGS
gains the operation's flags, the pc moves on by 4, nothing else changes. With code 7 and FRM at 5 to 7 an instruction
that rounds is illegal. (06_scalar.md, Floating-point instructions, R33, R133, R134) -/
def Obligations.FloatInstructionResults : Prop :=
  ∀ (s : State) (d a b : Reg) (p t : Fin 4) (k r : Fin 8), Usable s d [a, b, d] →
    let x := (reg s a).toNat
    let y := (reg s b).toNat
    let z := (reg s d).toNat
    let ty : Nat := match p with | 0 => 11 | 1 => 10 | 2 => 12 | 3 => 13
    let ty' : Nat := match t with | 0 => 11 | 1 => 10 | 2 => 12 | 3 => 13
    let rm := if r = 7 then (running s).frm.toNat else r.val
    let rounding : List Instr :=
      [.fadd d a b p r, .fsub d a b p r, .fmul d a b p r, .fdiv d a b p r, .fsqrt d a p r, .fma d a b p r, .fcvt d a t p r,
       .fcvti d a k p r, .fcvtf d a k p r]
    let F (i : Instr) (v : Res) : Prop := Writes s (exec i s) d (BitVec.ofNat 64 v.bits) v.flags 4
    let C (i : Instr) (c : Bool × BitVec 7) : Prop := Writes s (exec i s) d (if c.1 then 1 else 0) c.2 4
    (rm ≤ 4 →
      F (.fadd d a b p r) (fpOp .add ty rm x y 0) ∧ F (.fsub d a b p r) (fpOp .sub ty rm x y 0) ∧
      F (.fmul d a b p r) (fpOp .mul ty rm x y 0) ∧ F (.fdiv d a b p r) (fpOp .div ty rm x y 0) ∧
      F (.fsqrt d a p r) (fpOp .sqrt ty rm x 0 0) ∧ F (.fma d a b p r) (fpOp .fma ty rm x y z) ∧
      F (.fcvt d a t p r) (fpToFp ty ty' rm x) ∧ F (.fcvtf d a k p r) (intToFp ty rm (intVal k.val x)) ∧
      Writes s (exec (.fcvti d a k p r) s) d
        (extend (isSigned k.val) (8 * scalarSize k.val) (fpToIntTy ty k.val rm x).bits) (fpToIntTy ty k.val rm x).flags 4) ∧
    (r = 7 → 5 ≤ (running s).frm.toNat → ∀ i ∈ rounding, Raises s (exec i s) 0x01 (running s).ir.toNat true) ∧
    F (.fmin d a b p) (fpOp .min ty rm x y 0) ∧ F (.fmax d a b p) (fpOp .max ty rm x y 0) ∧
    C (.feq d a b p) (fpCmp .eq ty x y) ∧ C (.flt d a b p) (fpCmp .lt ty x y) ∧ C (.fle d a b p) (fpCmp .le ty x y)

/-- NaN, infinity and zero operands give the results and flags of the floating-point rules. In each of the six formats and
every mode: a NaN operand of a sum, difference, product, quotient or square root gives the canonical NaN, with invalid
just when an operand is a signalling NaN; infinity minus infinity, 0 times infinity (in fma whatever the third
operand), 0/0, infinity/infinity and the root of a number below -0 are invalid; a finite non-zero over zero gives a
signed infinity with divide by zero, in e4m3 the signed 448 with saturation as well; x + (-0) is x with no flag for
every number x, but that +0 + (-0) toward -infinity is left out (log 34). (02_numbers.md, Floating-point arithmetic,
R31, R35, R36) -/
def Obligations.FloatingPointCornerCases : Prop :=
  ∀ (ty rm x y z : Nat), 8 ≤ ty → ty < 14 → rm ≤ 4 →
    let f := fmtOf ty
    let a := unpack f x
    let b := unpack f y
    let bad : Res := { bits := f.nan, flags := flagInv, exc := true }
    let isNan (v : FVal) : Prop := v = .nan true ∨ v = .nan false
    (∀ o ∈ [FpOp.add, .sub, .mul, .div], isNan a ∨ isNan b →
      (fpOp o ty rm x y z).bits = f.nan ∧
      (fpOp o ty rm x y z).flags = if a = .nan true ∨ b = .nan true then flagInv else 0) ∧
    (isNan a → (fpOp .sqrt ty rm x y z).bits = f.nan ∧
      (fpOp .sqrt ty rm x y z).flags = if a = .nan true then flagInv else 0) ∧
    (∀ n, a = .inf n → b = .inf n → fpOp .sub ty rm x y z = bad ∧ fpOp .div ty rm x y z = bad) ∧
    (∀ n, a = .inf n → b = .inf (!n) → fpOp .add ty rm x y z = bad ∧ fpOp .div ty rm x y z = bad) ∧
    (∀ n q e, a = .inf n → b = .num q 0 e → fpOp .mul ty rm x y z = bad ∧ fpOp .mul ty rm y x z = bad ∧
      fpOp .fma ty rm x y z = bad ∧ fpOp .fma ty rm y x z = bad) ∧
    (∀ n q d e, a = .num n 0 d → b = .num q 0 e → fpOp .div ty rm x y z = bad) ∧
    (∀ m e, a = .num true m e → m ≠ 0 → fpOp .sqrt ty rm x y z = bad) ∧
    (∀ n m d q e, a = .num n m d → m ≠ 0 → b = .num q 0 e →
      fpOp .div ty rm x y z =
        if ty = 8 then { bits := if n = q then 0x7E else 0xFE, flags := flagDz ||| flagSat, exc := true }
        else { bits := f.sign (n != q) + (2 ^ f.ebits - 1) * 2 ^ f.fbits, flags := flagDz, exc := true }) ∧
    (∀ n m e, a = .num n m e → x < 2 ^ (f.signPos + 1) → y = 2 ^ f.signPos → (x = 0 → rm ≠ 2) →
      (fpOp .add ty rm x y z).bits = x ∧ (fpOp .add ty rm x y z).flags = 0)

/-- Rounding gives an exact value unchanged and any other as its mode says, and the operations round their exact results.
For each of the six formats, every rounding mode and every pattern that is a number of the format: rounding that
number's exact value to the format gives the pattern back and raises nothing; toward zero never gives a greater
magnitude. A non-zero number that the largest finite value is not below rounds to a finite number of the format with
its sign: the nearest in modes 0 and 4 (a tie to the even pattern, or away from zero), else the neighbour in the
mode's direction, with inexact just when it differs; a number of more than twice the largest finite value overflows,
by R37 in arithmetic and by R40 in a conversion. On finite operands a sum, difference, product and fused multiply-add
is its exact value so rounded, an exact zero with the sign of R35, where +0 + (-0) rounding down is -0, the model's
choice (log 34); a quotient by a non-zero number, a reciprocal, and the square root and reciprocal square root of a
positive number likewise; the reciprocal of a zero is the infinity of its sign, or in e4m3 the largest value, with
divide by zero, and so is its reciprocal square root, that of a negative number being invalid. Two to an integer power
is so rounded; to any other power the result is inexact, and on the side of the power that the mode says, the power
being compared with a number by raising both to the denominator, where the model's computation settles it at once:
near 0, above 2^20, or when no number of four more bits lies within 2^-40 of a unit of it (log 9). A conversion
between formats (also as wide, log 10) and one from an integer round the number so; one to an integer type takes the
integer that the mode picks, or the nearer edge of the type with saturation. (02_numbers.md, Rounding, R28, R29, R32,
R35, R36, R37, R39, R40, R41, R172) -/
def Obligations.RoundingKeepsExactValues : Prop :=
  ∀ (ty rm : Nat) (ov : Over), 8 ≤ ty → ty < 14 → rm ≤ 4 →
    let f := fmtOf ty
    let inRange (x : Rat) : Prop := ∃ v, FinVal f v ∧ mag x ≤ v
    let overflows (neg : Bool) (z : Res) : Prop :=
      z.flags = flagOvf ||| flagInx ∧ z.exc = true ∧
      z.bits = if rm = 0 ∨ rm = 4 ∨ (rm = 2 ∧ neg = true) ∨ (rm = 3 ∧ neg = false) then f.inf neg else f.maxFin neg
    let correct (x : Rat) (neg : Bool) (z : Res) : Prop :=
      (inRange x → RoundedTo f rm x z) ∧ ((∀ v, FinVal f v → 2 * v < mag x) → overflows neg z)
    let infinite (neg : Bool) (z : Res) : Prop :=
      z = { bits := if ty = 8 then f.maxFin neg else f.inf neg, flags := if ty = 8 then flagDz ||| flagSat else flagDz, exc := true }
    (∀ v n m e, v < 2 ^ (f.signPos + 1) → unpack f v = .num n m e →
      roundFp f ov rm n m e false = { bits := v, flags := 0, exc := false }) ∧
    (∀ n m e n' k q, unpack f (roundFp f ov 1 n m e false).bits = .num n' k q →
      n' = n ∧ k * 2 ^ (q - min q e).toNat ≤ m * 2 ^ (e - min q e).toNat) ∧
    (∀ n m e, m ≠ 0 →
      let z := roundFp f ov rm n m e false
      (inRange (num n m e) → RoundedTo f rm (num n m e) z ∧ z.bits.testBit f.signPos = n) ∧
      ((∀ v, FinVal f v → 2 * v < mag (num n m e)) →
        z.flags = (match ov with | .convert => flagSat ||| flagInx | .arith => flagOvf ||| flagInx) ∧ z.exc = true ∧
        z.bits = if ov = .arith ∧ (rm = 0 ∨ rm = 4 ∨ (rm = 2 ∧ n = true) ∨ (rm = 3 ∧ n = false)) then f.inf n else f.maxFin n)) ∧
    (∀ x y z n m d q k e s j c, unpack f x = .num n m d → unpack f y = .num q k e → unpack f z = .num s j c →
      let A := num n m d
      let B := num q k e
      let C := num s j c
      let exact (r : Res) (v : Rat) : Prop := ∃ n m e, m ≠ 0 ∧ num n m e = v ∧ r = roundFp f .arith rm n m e false
      let zero (r : Res) (neg : Bool) : Prop := r = { bits := f.sign neg, flags := 0, exc := false }
      (A + B ≠ 0 → exact (fpOp .add ty rm x y z) (A + B)) ∧
      (A + B = 0 → zero (fpOp .add ty rm x y z) (if n = q then n else decide (rm = 2))) ∧
      (A - B ≠ 0 → exact (fpOp .sub ty rm x y z) (A - B)) ∧
      (A - B = 0 → zero (fpOp .sub ty rm x y z) (if n = !q then n else decide (rm = 2))) ∧
      (A * B ≠ 0 → exact (fpOp .mul ty rm x y z) (A * B)) ∧ (A * B = 0 → zero (fpOp .mul ty rm x y z) (n != q)) ∧
      (A * B + C ≠ 0 → exact (fpOp .fma ty rm x y z) (A * B + C)) ∧
      (A * B + C = 0 → zero (fpOp .fma ty rm x y z) (if (n != q) = s then s else decide (rm = 2))) ∧
      (A ≠ 0 → B ≠ 0 → correct (A / B) (n != q) (fpOp .div ty rm x y z)) ∧
      (A = 0 → B ≠ 0 → zero (fpOp .div ty rm x y z) (n != q)) ∧
      (A ≠ 0 → correct (1 / A) n (fpOp .rcp ty rm x y z)) ∧
      (A = 0 → infinite n (fpOp .rcp ty rm x y z) ∧ infinite n (fpOp .rsqrt ty rm x y z)) ∧
      (A < 0 → fpOp .rsqrt ty rm x y z = { bits := f.nan, flags := flagInv, exc := true }) ∧
      (0 < A → ∃ k e, unpack f (fpOp .sqrt ty rm x y z).bits = .num false k e ∧
        let R := num false k e
        ((fpOp .sqrt ty rm x y z).flags &&& flagInx ≠ 0 ↔ R * R ≠ A) ∧
        ∀ v, FinVal f v → 0 ≤ v →
          (rm = 1 ∨ rm = 2 → R * R ≤ A ∧ (v * v ≤ A → v ≤ R)) ∧ (rm = 3 → A ≤ R * R ∧ (A ≤ v * v → R ≤ v)) ∧
          (rm = 0 ∨ rm = 4 → (R < v → 4 * A ≤ (R + v) * (R + v)) ∧ (v < R → (R + v) * (R + v) ≤ 4 * A))) ∧
      (0 < A → ∃ k e, unpack f (fpOp .rsqrt ty rm x y z).bits = .num false k e ∧
        let R := num false k e
        ((fpOp .rsqrt ty rm x y z).flags &&& flagInx ≠ 0 ↔ R * R * A ≠ 1) ∧
        ∀ v, FinVal f v → 0 ≤ v →
          (rm = 1 ∨ rm = 2 → R * R * A ≤ 1 ∧ (v * v * A ≤ 1 → v ≤ R)) ∧ (rm = 3 → 1 ≤ R * R * A ∧ (1 ≤ v * v * A → R ≤ v)) ∧
          (rm = 0 ∨ rm = 4 → (R < v → 4 ≤ (R + v) * (R + v) * A) ∧ (v < R → (R + v) * (R + v) * A ≤ 4))) ∧
      (∀ i : Int, A = (i : Rat) → correct ((2 : Rat) ^ i) false (fpOp .exp2 ty rm x y z)) ∧
      (d < 0 → (∀ i : Int, A ≠ (i : Rat)) →
        let a := fpOp .exp2 ty rm x y z
        let den := 2 ^ (-d).toNat
        let p : Int := if n then -(m : Int) else m
        let w := f.prec + 3
        let below (v : Rat) : Prop := v ^ den < (2 : Rat) ^ p
        let near (u v : Rat) : Prop := u ^ den ≤ (2 : Rat) ^ (p % (den : Int)) ∧ (2 : Rat) ^ (p % (den : Int)) ≤ v ^ den
        let gap : Rat := mkRat 1 (2 ^ (w + 40))
        d + bitLen m ≤ -((w : Int) + 1) ∨ 20 < d + bitLen m ∨
          (∀ q : Nat, q ≤ 2 ^ (w + 1) → ¬ near (mkRat q (2 ^ w) - gap) (mkRat q (2 ^ w) + gap)) →
        ((∃ v, FinVal f v ∧ 0 ≤ v ∧ ¬ below v) → ∃ k e, unpack f a.bits = .num false k e ∧ a.flags &&& flagInx ≠ 0 ∧
          let R := num false k e
          ∀ v, FinVal f v → 0 ≤ v →
            (rm = 1 ∨ rm = 2 → below R ∧ (below v → v ≤ R)) ∧ (rm = 3 → ¬ below R ∧ (¬ below v → R ≤ v)) ∧
            (rm = 0 ∨ rm = 4 → (R < v → ¬ below ((R + v) / 2)) ∧ (v < R → below ((R + v) / 2)))) ∧
        ((∀ v, FinVal f v → 0 ≤ v → below (2 * v)) → overflows false a))) ∧
    (∀ i : Int, i ≠ 0 → intToFp ty rm i = roundFp f .convert rm (decide (i < 0)) i.natAbs 0 false ∧
      num (decide (i < 0)) i.natAbs 0 = (i : Rat)) ∧
    ∀ src x n m e, 8 ≤ src → src < 14 → unpack (fmtOf src) x = .num n m e →
      fpToFp src ty rm x = roundFp f .convert rm n m e false ∧
      ∀ dst, dst < 8 →
        let b := 8 * scalarSize dst
        let lo : Int := if dst % 2 = 0 then -2 ^ (b - 1) else 0
        let hi : Int := if dst % 2 = 0 then 2 ^ (b - 1) - 1 else 2 ^ b - 1
        let z := fpToIntTy src dst rm x
        ∃ i : Int, Rounds rm (fun v => ∃ j : Int, v = (j : Rat)) (num n m e) (i : Rat) (i % 2 = 0) ∧
          (lo ≤ i → i ≤ hi → intVal dst z.bits = i ∧ z.flags = if (i : Rat) = num n m e then 0 else flagInx) ∧
          (i < lo → intVal dst z.bits = lo ∧ z.flags = flagSat ∧ z.exc = true) ∧
          (hi < i → intVal dst z.bits = hi ∧ z.flags = flagSat ∧ z.exc = true)

/-- Minimum and maximum take the number beside a NaN, and order -0 below +0. In each of the six formats, for every two
patterns of the format: with two NaNs the minimum and the maximum are the canonical NaN, with one they are the other
operand's bits, in both cases with invalid just when a signalling NaN is among them; of -0 and +0 the minimum is -0
and the maximum +0, in either order, without a flag; of two numbers the result is one of the two, without a flag, and
by their exact values the minimum is not above, and the maximum not below, either of them. (R38, 02_numbers.md,
Floating-point arithmetic) -/
def Obligations.FloatMinMax : Prop :=
  ∀ (ty rm x y : Nat), 8 ≤ ty → ty < 14 →
    let f := fmtOf ty
    x < 2 ^ (f.signPos + 1) → y < 2 ^ (f.signPos + 1) →
    let a := unpack f x
    let b := unpack f y
    let isNan (v : FVal) : Prop := v = .nan true ∨ v = .nan false
    let fl : BitVec 7 := if a = .nan true ∨ b = .nan true then flagInv else 0
    let part (n : Bool) (m : Nat) (e d : Int) : Int := (if n then -1 else 1) * (m * 2 ^ (e - min e d).toNat : Nat)
    let le (u v : FVal) : Prop := match u, v with
      | .num n m e, .num q k d => part n m e d ≤ part q k d e
      | .inf n, _ => n = true ∨ v = .inf false
      | _, .inf q => q = false
      | _, _ => False
    ∀ o ∈ [FpOp.min, .max],
      let r := fpOp o ty rm x y 0
      (isNan a → isNan b → r.bits = f.nan ∧ r.flags = fl) ∧
      (isNan a → ¬ isNan b → r.bits = y ∧ r.flags = fl) ∧
      (¬ isNan a → isNan b → r.bits = x ∧ r.flags = fl) ∧
      (¬ isNan a → ¬ isNan b → (r.bits = x ∨ r.bits = y) ∧ r.flags = 0 ∧
        (match o with
          | .min => le (unpack f r.bits) a ∧ le (unpack f r.bits) b
          | _ => le a (unpack f r.bits) ∧ le b (unpack f r.bits))) ∧
      ((x = 0 ∧ y = 2 ^ f.signPos ∨ x = 2 ^ f.signPos ∧ y = 0) →
        r.bits = (match o with | .min => 2 ^ f.signPos | _ => 0) ∧ r.flags = 0)

/-- A load or store sends out its access, a load behind a bookmark reads FILL, and an address fault is raised. For every
state in which the registers hold their values: ld, st, hldd and hstd (the .d forms of class 0 on g8 to g15) take gb
plus the scaled offset. A load at or beyond the frontier of its class's bookmark gives gd FILL's low bytes, extended,
without an access. Elsewhere a fault of the address is raised with the address in XINFO and nothing else happens; a
load of poisoned bytes raises poisoned data, but waits while an earlier access of the thread must come first; with 63
loads (stores) outstanding the instruction waits; a load whose value has been taken early, with no access before it
that it must follow, gives gd that value at once (log 2); else the access, of a store with gd as its value, joins the
outstanding ones, or, in a handler, those set aside when it comes after one of them or after a frozen entry (logs 40
and 91), and the pc moves on. No other register and no byte of memory changes. That a load behind a bookmark still
raises misaligned or translation (log 43), and that poison standing at issue raises then (log 38), are the model's
choices. (06_scalar.md, Scalar memory accesses, R91, R127, R136, R138, R210, R263) -/
def Obligations.LoadsAndStoresIssueTheirAccess : Prop :=
  ∀ (s : State) (d b : Reg) (z : Fin 4) (g : Bool) (c : Fin 16) (off : BitVec 9) (hd hb : Fin 8) (ho : Fin 16),
    let th := running s
    let half (r : Fin 8) : Reg := Fin.ofNat 32 (r.val + 8)
    let acc (kind : AccKind) (va : Word) (n cls : Nat) (r : Reg) (v : Word) (tg : Target) : Access :=
      { pc := th.pc, kind := kind, va := va, size := n, tgt := tg, cls := cls, reg := r, val := v, cmp := 0, order := 0
        scope := 0, fill := th.fill, stamp := th.nextStamp }
    let out (th : Thread) (a : Access) (len : Nat) : Thread :=
      let x := if behindAside s s.cur a then { th with frozen := th.frozen.map fun f => { f with out := f.out ++ [a] } }
        else { th with out := th.out ++ [a] }
      { x with nextStamp := th.nextStamp + 1, pc := th.pc + BitVec.ofNat 64 len }
    let L (i : Instr) (d b : Reg) (n : Nat) (g : Bool) (cls : Nat) (o : Word) (len : Nat) : Prop :=
      let va := reg s b + o
      let hidden := bookmarkHides (bookmarkOf th cls) va
      Usable s d [b] →
        (hidden = true → isCanon va = true → va.toNat % n = 0 →
          Writes s (exec i s) d (extend g (8 * n) th.fill.toNat) 0 len) ∧
        (hidden = true → isCanon va = true → va.toNat % n ≠ 0 → Raises s (exec i s) 0x08 va.toNat false) ∧
        (hidden = true → isCanon va = false → Raises s (exec i s) 0x06 va.toNat false) ∧
        (hidden = false →
          match alignedTarget s (partyOf s s.cur) va n n .load with
          | .error f => Raises s (exec i s) f.cause f.info false
          | .ok tg =>
            let early (e : EarlyRead) : Prop := readReady s s.cur tg n = true ∧ readAside s s.cur tg n = false ∧
              th.early.find? (fun e => decide (e.va = va) && decide (e.size = n) && decide (e.tgt = tg)) = some e
            if tgtPoison s tg n = true ∧ readAside s s.cur tg n = false then
              if readReady s s.cur tg n = true then Raises s (exec i s) 0x12 va.toNat false else Waits s (exec i s)
            else if 63 ≤ ldCount th then Waits s (exec i s)
            else
              ((∀ e, ¬ early e) → Becomes s (exec i s) (out (dropLate th d) (acc (.ld g) va n cls d 0 tg) len)) ∧
              ∀ e, early e → Becomes s (exec i s)
                (let y := dropLate th d
                 { writeG { y with early := y.early.filter fun x => decide (x ≠ e) } d (extend g (8 * n) e.val) with
                   pc := th.pc + BitVec.ofNat 64 len }))
    let S (i : Instr) (d b : Reg) (n : Nat) (cls : Nat) (o : Word) (len : Nat) : Prop :=
      let va := reg s b + o
      Ready s [d, b] →
        match alignedTarget s (partyOf s s.cur) va n n .store with
        | .error f => Raises s (exec i s) f.cause f.info false
        | .ok tg =>
          if 63 ≤ stCount th then Waits s (exec i s) else Becomes s (exec i s) (out th (acc .st va n cls 0 (reg s d) tg) len)
    L (.ld d b z g c off) d b (2 ^ z.val) g c.val (off.signExtend 64 * BitVec.ofNat 64 (2 ^ z.val)) 4 ∧
    L (.hldd hd hb ho) (half hd) (half hb) 8 false 0 (BitVec.ofNat 64 (8 * ho.val)) 2 ∧
    S (.st d b z c off) d b (2 ^ z.val) c.val (off.signExtend 64 * BitVec.ofNat 64 (2 ^ z.val)) 4 ∧
    S (.hstd hd hb ho) (half hd) (half hb) 8 0 (BitVec.ofNat 64 (8 * ho.val)) 2

/-- Atomics, apnd and apub send out their access; bkset captures a descriptor and bkclr clears a bookmark. For every state
in which the registers hold their values: amoadd, amoand, amoor, amoxor, amomin, amomax, amoswap, amofadd, cas, apnd
and apub act at ga. A fault of the address (for one, a page not both readable and writable) is raised and nothing else
happens; poisoned bytes raise poisoned data, once no earlier access must come first; with 63 in the ld counter the
instruction waits; else its access, with operand, comparand, order and scope, joins the outstanding ones, or, in a
handler, those set aside when it comes after one of them or after a frozen entry (logs 40, 91), and the pc moves on.
bkset waits for an access that must come first (outside a handler, for one, for an earlier acquire and for an earlier
access to bytes of the descriptor), and sets bookmark n to BASE, LIMIT and FRONTIER of the descriptor at ga; bkclr
clears it. No register and no byte of memory changes. Values taken early are dropped at a bkset, which is an acquire
(log 2). That poison standing at issue raises then (log 38), that bkset in a handler raises cause 0x13 behind a frozen
entry or an access set aside (logs 40, 91), class 0 for apnd and apub and a descriptor in a scratchpad (log 65), and a
peer's memory as a list that is read in one step (log 14) are the model's choices. (06_scalar.md, Atomics, R97, R127,
R136, R140, R142, R143, R210, R261, R262, R263, R358) -/
def Obligations.AtomicsAndRegionOperationsIssueTheirAccess : Prop :=
  ∀ (s : State) (d a b : Reg) (z g : Bool) (c o n : Fin 4),
    let th := running s
    let va := reg s a
    let A (i : Instr) (rs : List Reg) (size : Nat) (kind : AccKind) (r : Reg) (v cmp : Word) (order scope : Nat) : Prop :=
      Usable s r rs →
        match alignedTarget s (partyOf s s.cur) va size size .both with
        | .error f => Raises s (exec i s) f.cause f.info false
        | .ok tg =>
          if tgtPoison s tg size = true ∧ readAside s s.cur tg size = false then
            if readReady s s.cur tg size = true then Raises s (exec i s) 0x12 va.toNat false else Waits s (exec i s)
          else if 63 ≤ ldCount th then Waits s (exec i s)
          else
            let y := dropLate th r
            let x : Access :=
              { pc := th.pc, kind := kind, va := va, size := size, tgt := tg, cls := 0, reg := r, val := v, cmp := cmp
                order := order, scope := scope, fill := th.fill, stamp := th.nextStamp }
            Becomes s (exec i s)
              { y with
                out := if behindAside s s.cur x then y.out else y.out ++ [x]
                frozen := if behindAside s s.cur x then y.frozen.map fun f => { f with out := f.out ++ [x] } else y.frozen
                nextStamp := th.nextStamp + 1, pc := th.pc + 4 }
    let M (i : Instr) (op : AmoOp) (g : Bool) : Prop :=
      A i (if op = .cas then [d, a, b] else [a, b]) (if z then 8 else 4) (.amo op g) d (reg s b) (reg s d) o.val c.val
    (M (.amoadd d a b z c o) .add false ∧ M (.amoand d a b z c o) .and false ∧ M (.amoor d a b z c o) .or false ∧
      M (.amoxor d a b z c o) .xor false ∧ M (.amoswap d a b z c o) .swap false ∧ M (.amofadd d a b z c o) .fadd false ∧
      M (.cas d a b z c o) .cas false ∧ M (.amomin d a b z c o g) .min g ∧ M (.amomax d a b z c o g) .max g ∧
      A (.apnd d a b) [a, b] 64 (.append (reg s b)) d 0 0 0 2 ∧
      A (.apub d a b) [d, a, b] 64 (.publish (reg s b) (reg s d)) 0 0 0 2 2) ∧
    (Ready s [a] →
      match alignedTarget s (partyOf s s.cur) va 64 64 .load with
      | .error f => Raises s (exec (.bkset a n) s) f.cause f.info false
      | .ok tg =>
        (readAside s s.cur tg 64 = true → Raises s (exec (.bkset a n) s) 0x13 0 false) ∧
        (readAside s s.cur tg 64 = false → readReady s s.cur tg 64 = false → Waits s (exec (.bkset a n) s)) ∧
        (th.frozen = none → (∃ x ∈ th.out, x.stamp < th.nextStamp ∧ (isAcquire x = true ∨ touches tg 64 x.tgt x.size = true)) →
          Waits s (exec (.bkset a n) s)) ∧
        ∀ W : Nat → Nat, (match tg with
            | .dev pa _ => W = fun k => memRead s.mem (pa + k) 8
            | .spad key => W = fun k => memRead s.spad (key + k) 8
            | .peer q pa _ => (∃ p ∈ s.links, p.2.st = .up) ∧ q ∉ s.silent ∧ W = fun k => memRead s.peer (q * 2 ^ 48 + (pa + k)) 8
            | .violation _ => False) → readAside s s.cur tg 64 = false → th.vq = [] → th.out = [] →
          (tgtPoison s tg 64 = true → Raises s (exec (.bkset a n) s) 0x12 va.toNat false) ∧
          (tgtPoison s tg 64 = false → Becomes s (exec (.bkset a n) s)
            { th with
              bk := th.bk.set n.val { valid := true, base := BitVec.ofNat 64 (W 0), limit := BitVec.ofNat 64 (W 8)
                                      frontier := BitVec.ofNat 64 (W 24) }
              early := [], pc := th.pc + 4 })) ∧
    Becomes s (exec (.bkclr n) s)
      { th with bk := th.bk.set n.val { valid := false, base := 0, limit := 0, frontier := 0 }, pc := th.pc + 4 }

/-- Where an access leads, and which fault its address meets first. For an access of a thread: inside the context's
scratchpad window it leads to the byte's place in the addressed core's scratchpad when that lies below the declared
size and the core serves the thread's launch, else it meets scratchpad bound (0x09) with the offset; outside, an
address not sign-extended from bit 51, or without a translation, meets translation (0x06), a page that does not permit
the access protection (0x07); then a misaligned address misaligned (0x08), and an access that reads poisoned bytes
poisoned data (0x12), the one fault that depends on when the access is performed. A page with PEER set leads to the
same place in the memory of the device at position PDEV while a link is up and that position answers (which do not is
an input, log 121), else to a violation response with code 4; with this device's own position it leads to its own
memory. That a fetch inside the window reads the scratchpad, with no X bit to check, is the model's reading (log 35).
(R136, R137, R289, R352, R358) -/
def Obligations.AccessFaultsOfAnAddress : Prop :=
  ∀ (s : State) (p : Party) (va : Word) (n : Nat) (k : MKind), 0 < n →
    let base := (getCtx s p.ctx).spbase.toNat
    let off := va.toNat - base
    let co : Fin 8 := Fin.ofNat 8 (off / 2 ^ 20)
    let inWindow := base ≤ va.toNat ∧ va.toNat < base + 2 ^ 23
    let T := accessTarget s p va n n k
    let E (cause info : Nat) : Prop := T = .error (causeInfo cause info)
    let limit := spadLimit s p.launch
    let mine := p.launch ≠ none ∧ (getCore s p.cl co).launch = p.launch
    (match alignedTarget s p va n n k with
      | .error f => T = .error f
      | .ok tg => T = if k ≠ .store ∧ tgtPoison s tg n = true then .error (causeInfo 0x12 va.toNat) else .ok tg) ∧
    (inWindow → (limit < off % 2 ^ 20 + n ∨ ¬ mine) → E 0x09 off) ∧
    (inWindow → off % 2 ^ 20 + n ≤ limit → mine → va.toNat % n ≠ 0 → E 0x08 va.toNat) ∧
    (inWindow → off % 2 ^ 20 + n ≤ limit → mine → va.toNat % n = 0 → s.poisonSpad = [] →
      T = .ok (.spad (p.cl.val * 2 ^ 23 + off))) ∧
    (¬ inWindow → isCanon va = false → E 0x06 va.toNat) ∧
    (¬ inWindow → isCanon va = true → findPage s p (va.toNat % 2 ^ 52) = none → E 0x06 va.toNat) ∧
    (∀ e lvl, ¬ inWindow → isCanon va = true → findPage s p (va.toNat % 2 ^ 52) = some (e, lvl) →
      (permits e k = false → E 0x07 va.toNat) ∧
      (permits e k = true → va.toNat % n ≠ 0 → E 0x08 va.toNat) ∧
      let pa := pteAddr e / 2 ^ (39 - 9 * lvl) * 2 ^ (39 - 9 * lvl) + va.toNat % 2 ^ (39 - 9 * lvl)
      (∀ d, permits e k = true → va.toNat % n = 0 → bitAt e 8 = true → d = e / 2 ^ 56 % 256 → d ≠ s.devPos →
        let up (i : Nat) : Prop := (mapGet Link.reset s.links ((p.cl.val + d + i) % 16)).st = .up
        ((∃ i, i < 16 ∧ up i) → d ∉ s.silent → T = .ok (.peer d pa (bitAt e 7))) ∧
        ((∀ i, i < 16 → ¬ up i) ∨ d ∈ s.silent → T = .ok (.violation 4))) ∧
      (permits e k = true → va.toNat % n = 0 → bitAt e 8 = false ∨ e / 2 ^ 56 % 256 = s.devPos →
        ((∀ l ∈ s.poisonLines, pa + n ≤ l * 64 ∨ l * 64 + 64 ≤ pa) ∨ k = .store → T = .ok (.dev pa (bitAt e 7))) ∧
        ((∃ l ∈ s.poisonLines, l * 64 < pa + n ∧ pa < l * 64 + 64) → k ≠ .store → E 0x12 va.toNat)))

/-- Performing a load gives its register the bytes at its address, least significant first. MEMORY_ACCESS_COMPLETE of a
load of a thread that its order lets be performed: the access is no longer outstanding and gd takes the bytes at its
place in device memory, in a scratchpad or in a peer's memory, the first byte lowest, sign-extended for .i and
zero-extended otherwise (nothing is written for g0). No byte of memory changes, and nothing else but a csrr in the
read queue that waited for the access. A load that meets poison writes no register and its running thread stops with
poisoned data, XPC its instruction; an access of any kind to the scratchpad of a core that has passed to another
launch since stops it with scratchpad bound (0x09), with nothing accessed. (That the instructions after it may have
had their effects by then is the model's choice, log 38, as is a peer's memory as a list of its own, log 14.) Of a
load that a running thread has still to issue, with nothing before it that it must follow, the event takes the value
early and notes it; an access performed takes the values of its bytes off the notes, and an acquire all of them (the
model's way to let a load be ahead of earlier ones, log 2). (R3, R136, R137, R138, R139, R289, R290, R291, R382) -/
def Obligations.LoadsReadMemory : Prop :=
  (∀ (s : State) (n v : Nat) (tg : Target), s.ev.flag = true →
    let t := s.ev.tid
    let th := getThread s t
    let va := s.ev.word
    (th.tstate ≠ .running ∨ th.wait ≠ .none ∨ th.pend ≠ none → exec .memoryAccessComplete s = .next s) ∧
    (th.tstate = .running → th.wait = .none → th.pend = none → s.ev.n = n → n ∈ [1, 2, 4, 8] →
      accessTarget s (partyOf s t) va n n .load = .ok tg → readReady s t tg n = true → readAside s t tg n = false →
      (match tg with
        | .dev pa _ => v = memRead s.mem pa n
        | .spad key => v = memRead s.spad key n
        | _ => False) →
      ∃ s', exec .memoryAccessComplete s = .next s' ∧ OthersKept t s s' ∧
        getThread s' t =
          { th with early := (th.early.filter fun e => !touches e.tgt e.size tg n) ++ [{ va := va, size := n, tgt := tg, val := v }] })) ∧
  ∀ (s : State) (k : Nat) (a : Access),
    let t := s.ev.tid
    let th := getThread s t
    th.out[k]? = some a → performable s t a = true → s.ev.k = k → s.ev.flag = false →
    let base : Thread := { th with out := th.out.take k ++ th.out.drop (k + 1), early := earlyAfter th.early a }
    let stops (cause info : Nat) : Prop := ∃ s', exec .memoryAccessComplete s = .next s' ∧ OthersKept t s s' ∧
      SameButCsr { stoppedAt { base with pc := a.pc, rq := freezeItems base } cause info with pc := th.pc } (getThread s' t)
    (padLost s t a = true → th.tstate = .running → stops 0x09 (a.va.toNat - (getCtx s th.ctx).spbase.toNat)) ∧
    ∀ g, a.kind = .ld g → padLost s t a = false →
    (tgtPoison s a.tgt a.size = true → th.tstate = .running → stops 0x12 a.va.toNat) ∧
    ∀ v : Nat, tgtPoison s a.tgt a.size = false → (match a.tgt with
        | .dev pa _ => v = memRead s.mem pa a.size
        | .spad key => v = memRead s.spad key a.size
        | .peer d pa _ => (∃ p ∈ s.links, p.2.st = .up) ∧ d ∉ s.silent ∧ v = memRead s.peer (d * 2 ^ 48 + pa) a.size
        | .violation _ => False) →
      ∃ s', exec .memoryAccessComplete s = .next s' ∧ OthersKept t s s' ∧
        SameButCsr (writeG base a.reg (extend g (8 * a.size) v)) (getThread s' t)

/-- Performing a store writes its bytes, least significant first, and leaves every other byte alone.
MEMORY_ACCESS_COMPLETE of a store that its order lets be performed, whose target no serial region turns away: the
bytes of its size at its place hold the value's low bytes, the first lowest; every other byte of device memory, of the
scratchpads and of the peers reads as before; the access is no longer outstanding, and no register changes. A store
into the block of a bound queue leaves HEAD, DONE, ERR and START as they were and writes TAIL (the model's reading,
log 73). The poison of a line or scratchpad word written whole is gone, and bytes written into a poisoned line of
which the store covers only a part are noted, so that a store of the whole line that races with it does not take the
poison away (log 108). No value taken early of the stored bytes is left, which is the model's way to keep a load
behind the stores before it (log 2). A peer's memory as a list of its own is the model's choice (log 14). (R3, R5,
R136, R139, R290, R331, R382, R383) -/
def Obligations.StoresWriteTheirBytesOnly : Prop :=
  ∀ (s : State) (k : Nat) (a : Access), MemoriesOk s →
    let t := s.ev.tid
    let th := getThread s t
    s.ev.k = k → s.ev.flag = false → th.out[k]? = some a → a.kind = .st → performable s t a = true → padLost s t a = false →
    serialCheck s th.ctx a.tgt a.va a.size = none →
    let same (m m' : Memory) : Prop := ∀ x, memGet m' x = memGet m x
    let put (m m' : Memory) (at_ : Nat) (free : Nat → Prop) : Prop :=
      (∀ j, j < a.size → free (at_ + j) → (memGet m' (at_ + j)).toNat = a.val.toNat % 2 ^ (8 * a.size) / 2 ^ (8 * j) % 256) ∧
      ∀ x, x < at_ ∨ at_ + a.size ≤ x → memGet m' x = memGet m x
    (match a.tgt with | .violation _ => False | .peer q _ _ => (∃ p ∈ s.links, p.2.st = .up) ∧ q ∉ s.silent | _ => True) →
    ∃ s', exec .memoryAccessComplete s = .next s' ∧
      SameButCsr { th with out := th.out.take k ++ th.out.drop (k + 1), early := earlyAfter th.early a } (getThread s' t) ∧
      (∀ u, u ≠ t → getThread s' u = getThread s u) ∧
      s' = { s with threads := s'.threads, mem := s'.mem, spad := s'.spad, peer := s'.peer
                    poisonLines := s'.poisonLines, poisonSpad := s'.poisonSpad, overlaid := s'.overlaid } ∧
      (match a.tgt with
        | .dev pa _ =>
          put s.mem s'.mem pa (fun x => ∀ q ∈ s.queues, x < q.2.block + 8 ∨ q.2.block + 16 ≤ x → x < q.2.block ∨ q.2.block + 64 ≤ x) ∧
            (∀ q ∈ s.queues, ∀ o, o < 8 ∨ 16 ≤ o ∧ o < 32 ∨ 40 ≤ o ∧ o < 48 →
              memGet s'.mem (q.2.block + o) = memGet s.mem (q.2.block + o)) ∧
            same s.spad s'.spad ∧ same s.peer s'.peer ∧
            (a.size < 64 → ∀ b, b ∈ s'.overlaid ↔ b ∈ s.overlaid ∨ (b / 64 ∈ s.poisonLines ∧ pa ≤ b ∧ b < pa + a.size)) ∧
            ∀ l, l ∈ s'.poisonLines ↔ l ∈ s.poisonLines ∧ ¬ (pa ≤ l * 64 ∧ l * 64 + 64 ≤ pa + a.size)
        | .spad key => put s.spad s'.spad key (fun _ => True) ∧ same s.mem s'.mem ∧ same s.peer s'.peer ∧
            ∀ l, l ∈ s'.poisonSpad ↔ l ∈ s.poisonSpad ∧ ¬ (key ≤ l * 8 ∧ l * 8 + 8 ≤ key + a.size)
        | .peer d pa _ => put s.peer s'.peer (d * 2 ^ 48 + pa) (fun _ => True) ∧ same s.mem s'.mem ∧ same s.spad s'.spad
        | .violation _ => True)

/-- Performing an atomic, an append or a publish reads and writes in one step. MEMORY_ACCESS_COMPLETE of an atomic on
device memory, a scratchpad or a peer's memory that its order lets be performed and that meets no poison, whose target
no serial region turns away, and which reaches no bound queue's block: gd takes the old value (sign-extended for the
signed minimum and maximum), the word takes the sum, conjunction, disjunction, exclusive or, minimum, maximum or
operand modulo its width, or for cas the operand just when it held the comparand; amofadd adds in RNE with the flags
of the sum. Every other byte of memory and every other register is unchanged. An append to a consistent descriptor
gives gd RESERVE, which grows by the size, or all ones when LIMIT would be passed; a publish of a range between
FRONTIER and RESERVE moves FRONTIER past it and past the recorded range that follows, or is recorded when it begins
beyond FRONTIER; an inconsistent descriptor gives all ones and a violation that is logged with the address and code
10, a range outside one with code 3, and FRONTIER stays. A publish of nothing does nothing. (That poison met now
raises at an instruction already passed is the model's choice, log 38; what becomes of the values taken early is its
way to order loads, log 2; a peer's memory is its own list, log 14.) (R138, R140, R141, R142, R144, R261, R262, R290,
R361) -/
def Obligations.AtomicsReadModifyWrite : Prop :=
  (∀ (s : State) (k : Nat) (g : Bool) (a : Access) (op : AmoOp), MemoriesOk s →
    let t := s.ev.tid
    let th := getThread s t
    s.ev.k = k → s.ev.flag = false → th.out[k]? = some a → a.kind = .amo op g → a.size = 4 ∨ a.size = 8 →
    performable s t a = true → serialCheck s th.ctx a.tgt a.va a.size = none → lateFault s t a = none →
    (match a.tgt with
      | .dev pa _ => ∀ q ∈ s.queues, pa + a.size ≤ q.2.block ∨ q.2.block + 64 ≤ pa
      | .spad _ => True
      | .peer q _ _ => (∃ p ∈ s.links, p.2.st = .up) ∧ q ∉ s.silent
      | .violation _ => False) →
    let b := 8 * a.size
    let word (u : State) : Nat := match a.tgt with
      | .dev pa _ => memRead u.mem pa a.size
      | .spad key => memRead u.spad key a.size
      | .peer q pa _ => memRead u.peer (q * 2 ^ 48 + pa) a.size
      | .violation _ => 0
    let rest (m m' : Memory) (at_ : Nat) : Prop := ∀ y, y < at_ ∨ at_ + a.size ≤ y → memGet m' y = memGet m y
    let old := word s
    let x := a.val.toNat % 2 ^ b
    let sum := fpOp .add (if a.size = 4 then 12 else 13) 0 old a.val.toNat 0
    let less (p q : Nat) : Prop := if g then toSigned b p < toSigned b q else p < q
    let new : Nat → Prop := fun v => match op with
      | .add => v = (old + x) % 2 ^ b
      | .and => v = old &&& x
      | .or => v = old ||| x
      | .xor => v = old ^^^ x
      | .min => (less x old → v = x) ∧ (¬ less x old → v = old)
      | .max => (less old x → v = x) ∧ (¬ less old x → v = old)
      | .swap => v = x
      | .fadd => v = sum.bits % 2 ^ b
      | .cas => (old = a.cmp.toNat % 2 ^ b → v = x) ∧ (old ≠ a.cmp.toNat % 2 ^ b → v = old)
    ∃ s', exec .memoryAccessComplete s = .next s' ∧
      SameButCsr
        (writeG { th with out := th.out.take k ++ th.out.drop (k + 1), early := earlyAfter th.early a
                          fflags := th.fflags ||| if op = .fadd then sum.flags else 0 } a.reg (extend g b old)) (getThread s' t) ∧
      new (word s') ∧
      (∀ u, u ≠ t → getThread s' u = getThread s u) ∧
      match a.tgt with
      | .dev pa _ => rest s.mem s'.mem pa ∧ s' = { s with
          threads := s'.threads, mem := s'.mem, poisonLines := s'.poisonLines, overlaid := s'.overlaid, casLists := s'.casLists }
      | .spad key => rest s.spad s'.spad key ∧
          s' = { s with threads := s'.threads, spad := s'.spad, poisonSpad := s'.poisonSpad, casLists := s'.casLists }
      | .peer q pa _ => rest s.peer s'.peer (q * 2 ^ 48 + pa) ∧
          s' = { s with threads := s'.threads, peer := s'.peer, casLists := s'.casLists }
      | .violation _ => True) ∧
  ∀ (s : State) (k pa : Nat) (ser : Bool) (a : Access), MemoriesOk s →
    let t := s.ev.tid
    let th := getThread s t
    let field (s : State) (o : Nat) : Nat := memRead s.mem (pa + o) 8
    let fr := field s 24
    let ok := memRead s.mem (pa + 32) 32 = 0 ∧ field s 0 ≤ fr ∧ fr ≤ field s 16 ∧ field s 16 ≤ field s 8
    let log := (getCtx s th.ctx).vlog
    let base : Thread := { th with out := th.out.take k ++ th.out.drop (k + 1), early := earlyAfter th.early a }
    s.ev.k = k → s.ev.flag = false → th.out[k]? = some a → a.tgt = .dev pa ser → a.size = 64 → performable s t a = true →
    tgtPoison s a.tgt 64 = false → (∀ q ∈ s.queues, pa + 64 ≤ q.2.block ∨ q.2.block + 64 ≤ pa) →
    log + 1040 ≤ pa ∨ pa + 64 ≤ log →
    let E (P : Thread) (reserve frontier : Nat) (records : List (Word × Word)) (logged : Option Nat) : Prop :=
      ∃ s', exec .memoryAccessComplete s = .next s' ∧ SameButCsr P (getThread s' t) ∧
        field s' 16 = reserve ∧ field s' 24 = frontier ∧ (findRegion s' pa).records = records ∧
        (∀ x, x < pa + 16 ∨ pa + 32 ≤ x → x < log ∨ log + 1040 ≤ x ∨ logged = none → memGet s'.mem x = memGet s.mem x) ∧
        (∀ c, logged = some c → Logs s s' t a.va c) ∧
        (∀ u, u ≠ t → getThread s' u = getThread s u) ∧ s'.spad = s.spad ∧ s'.peer = s.peer
    (∀ n : Word, a.kind = .append n →
      (ok → (findRegion s pa).records = [] → field s 16 + n.toNat ≤ field s 8 →
        E (writeG base a.reg (BitVec.ofNat 64 (field s 16))) (field s 16 + n.toNat) fr [] none) ∧
      (ok → (findRegion s pa).records = [] → field s 8 < field s 16 + n.toNat →
        E (writeG base a.reg (BitVec.allOnes 64)) (field s 16) fr [] none) ∧
      (¬ ok → E (writeG { base with fflags := th.fflags ||| 0b1000000 } a.reg (BitVec.allOnes 64)) (field s 16) fr
        (findRegion s pa).records (some 10))) ∧
    ∀ n at_ : Word, a.kind = .publish n at_ →
      (n = 0 → E base (field s 16) fr (findRegion s pa).records none) ∧
      (n ≠ 0 → ok → fr ≤ at_.toNat → at_.toNat + n.toNat ≤ field s 16 →
        ((findRegion s pa).records = [] → at_.toNat = fr → E base (field s 16) (fr + n.toNat) [] none) ∧
        (∀ m : Word, m ≠ 0 → (findRegion s pa).records = [(at_ + n, m)] → at_.toNat = fr →
          at_.toNat + n.toNat + m.toNat ≤ field s 16 → E base (field s 16) (fr + n.toNat + m.toNat) [] none) ∧
        ((findRegion s pa).records = [] → at_.toNat ≠ fr → E base (field s 16) fr [(at_, n)] none)) ∧
      (n ≠ 0 → ok → (findRegion s pa).records = [] → at_.toNat < fr ∨ field s 16 < at_.toNat + n.toNat →
        E { base with fflags := th.fflags ||| 0b1000000 } (field s 16) fr [] (some 3)) ∧
      (n ≠ 0 → ¬ ok → E { base with fflags := th.fflags ||| 0b1000000 } (field s 16) fr (findRegion s pa).records (some 10))

/-- A violation response gives a load or atomic FILL, drops a store, sets VIOL and logs the access. MEMORY_ACCESS_COMPLETE
of an access that its order lets be performed and that gets a violation response with a code (its target's; for an
access to a peer that answers on no path, 4; for a store or atomic to a serial page, at or above the region's reserve
1, below its frontier 2): the register of a load, an atomic or a cas takes the low bytes of FILL as it stood at issue,
extended as the form's old value would be (for an atomic the model's choice, log 99), that of an apnd all ones (log
65); no byte of the target is written; a publish of 0 bytes does nothing, logged neither (log 101); else FFLAGS.VIOL
is set; with fewer than 64 unread entries in the context's log the entry at its write count takes the address and the
source word with the code, and the write count grows by 1; no byte of memory outside the log changes, and with a full
log none at all. A wmpub that waits for the access is told when every path to the peer has failed (code 4), which is
the model's reading (log 76). What becomes of the values taken early is the model's way to order loads (log 2). (R138,
R142, R261, R262, R361, R374, R388) -/
def Obligations.ViolationsReadFill : Prop :=
  ∀ (s : State) (k code : Nat) (a : Access), MemoriesOk s →
    let t := s.ev.tid
    let th := getThread s t
    let far := ∃ q pa ser, a.tgt = .peer q pa ser ∧ reaches s q = false
    let writes := a.kind = .st ∨ ∃ op g, a.kind = .amo op g
    s.ev.k = k → s.ev.flag = false → th.out[k]? = some a → code < 256 → performable s t a = true → lateFault s t a = none →
    a.tgt = .violation code ∨ (far ∧ code = 4) ∨
      (writes ∧ ¬ far ∧ serialCheck s th.ctx a.tgt a.va a.size = some code) →
    let after : Thread := { th with out := th.out.take k ++ th.out.drop (k + 1), early := earlyAfter th.early a }
    let base : Thread := violated after a.va code
    let V (P : Thread) : Prop :=
      ∃ s', exec .memoryAccessComplete s = .next s' ∧ SameButCsr P (getThread s' t) ∧
        s' = { s with threads := s'.threads, mem := s'.mem } ∧ (∀ u, u ≠ t → getThread s' u = getThread s u) ∧
        Logs s s' t a.va code
    match a.kind with
    | .ld g => V (writeG base a.reg (extend g (8 * a.size) a.fill.toNat))
    | .st => V base
    | .amo _ g => V (writeG base a.reg (extend g (8 * a.size) a.fill.toNat))
    | .append _ => V (writeG base a.reg (BitVec.allOnes 64))
    | .publish n _ => if n = 0 then ∃ s', exec .memoryAccessComplete s = .next s' ∧ OthersKept t s s' ∧ SameButCsr after (getThread s' t)
        else V base

/-- exit waits for the thread to drain, then returns its leave and ends its iteration. exit and hexit wait, with the
thread marked so, while a vector entry, a read-queue value, an access, a copy or a slot of the thread (on an MCC a
tile queue entry) is left; in a handler the accesses that the frozen entries held back are let go first. Then the exit
is performed: the thread holds no iteration and every register, queue and CSR of it is as at reset, its leave is
returned, an MCC has no launch; no byte of memory, context, queue, launch or watermark changes. That those accesses
are performed before the exit is the model's choice (log 91). (06_scalar.md, System instructions, R22, R91, R151) -/
def Obligations.ExitEndsTheIteration : Prop :=
  ∀ (s : State) (i : Instr), i = .exit ∨ i = .hexit →
    let t := s.cur
    let th := running s
    let c := getCore s (clusterOf t) (coreOf t)
    let freed : Thread := match th.frozen with
      | some f => { th with frozen := some { f with out := [] }, out := f.out.map (retarget s t) ++ th.out }
      | none => th
    let done := th.vq = [] ∧ th.rq = [] ∧ freed.out = [] ∧
      if isMcc t then (getCluster s (clusterOf t)).tq = []
      else (∀ q : Fin 4, ∀ x ∈ c.cqs[q], x.owner ≠ threadOf t) ∧
        ∀ k : Fin 16, c.slots[k].st = .empty ∨ c.slots[k].owner ≠ threadOf t
    (¬ done → ∃ s', exec i s = .next s' ∧ s'.stalled = true ∧ getThread s' t = { freed with wait := .exit } ∧
      (∀ u, u ≠ t → getThread s' u = getThread s u) ∧ s' = { s with threads := s'.threads, stalled := true }) ∧
    (done → ∃ s', exec i s = .next s' ∧
      s' = { s with threads := s'.threads, cores := s'.cores, clusters := s'.clusters } ∧
      getThread s' t = { Thread.reset with ctx := th.ctx, img := th.img, preq := (getThread s' t).preq } ∧
      (isMcc t = true → (getCluster s' (clusterOf t)).mccLaunch = none) ∧
      (∀ x ∈ (getCluster s' (clusterOf t)).held ++ (getCluster s' (clusterOf t)).waiting, x.1 ≠ .thread t) ∧
      ∀ u, u ≠ t → (getThread s' u).g = (getThread s u).g ∧ (getThread s' u).pc = (getThread s u).pc ∧
        (getThread s' u).launch = (getThread s u).launch)

/-- yield only moves on; fence, wait, hwait and qfence go on just when the operations they name are done. yield sets the
arbiter's mark, moves the pc on by 4 and changes nothing else. wait goes on when each of the four counters is at or
below its limit (31: none), and else only waits; hwait is wait 0, 0, 0, 0, 2 bytes long. qfence on a vector core goes
on when the thread has no copy left, queued or pushed, for a queue of the mask, and is illegal with bit 4; on an MCC
it names the tile queue by bit 4 and is illegal with a bit below it. fence takes its classes from ga[15:0], 0 meaning
all, and goes on just when no vector memory instruction with an access still to perform and no scalar access of a
covered class is outstanding; an acquire fence waits for loads, atomics and cas only. Each but yield and a release
fence drops the values that later loads had taken early (log 2). That in a handler the frozen entries and the accesses
set aside count with fence and qfence (log 40), and that the scope of a fence makes no difference (log 45), are the
model's choices. (R90, R91, R99, R152, R210, R226, R228, R255, R256, R257, R258) -/
def Obligations.FencesAndWaitsHoldTheThread : Prop :=
  ∀ (s : State) (l c p t : Fin 32) (a : Reg) (k sc : Fin 4),
    let x := s.cur
    let th := running s
    let core := getCore s (clusterOf x) (coreOf x)
    let ok (limit : Fin 32) (count : Nat) : Prop := limit.val = 31 ∨ count ≤ limit.val
    let on : Thread := { th with pc := th.pc + 4, early := [] }
    let met := ok l (ldCount th) ∧ ok c (stCount th) ∧ ok p (cpCount s x) ∧ ok t (tlCount s x)
    let noCopies := (∀ e ∈ allEntries th, ∀ o, e.op = .copy o → l.val.testBit o.q.val = false) ∧
      ∀ q : Fin 4, l.val.testBit q.val = true → ∀ y ∈ core.cqs[q], y.owner ≠ threadOf x
    let mask := (reg s a).toNat % 2 ^ 16
    let covered (cls : Nat) : Prop := mask = 0 ∨ mask.testBit cls = true
    let left :=
      (∃ e ∈ th.vq ++ frozenMem th, isMemory e.op = true ∧ e.finished = false ∧ covered (classOf e.op) ∧ (k = 0 → countsLd e.op = true)) ∨
      ∃ y ∈ allAccesses th, covered y.cls ∧ (k = 0 → y.kind ≠ .st)
    (Ready s [a] → (¬ left → Becomes s (exec (.fence a k sc) s) (if k = 1 then { th with pc := th.pc + 4 } else on)) ∧ (left → Waits s (exec (.fence a k sc) s))) ∧
    Becomes s (exec .yield s) { th with wait := .yield, pc := th.pc + 4 } ∧
    (met → Becomes s (exec (.wait l c p t) s) on) ∧ (¬ met → Waits s (exec (.wait l c p t) s)) ∧
    (ldCount th = 0 → stCount th = 0 → cpCount s x = 0 → tlCount s x = 0 →
      Becomes s (exec .hwait s) { th with pc := th.pc + 2, early := [] }) ∧
    (0 < ldCount th ∨ 0 < stCount th ∨ 0 < cpCount s x ∨ 0 < tlCount s x → Waits s (exec .hwait s)) ∧
    (isMcc x = false →
      (16 ≤ l.val → Raises s (exec (.qfence l) s) 0x01 th.ir.toNat true) ∧
      (l.val < 16 → noCopies → Becomes s (exec (.qfence l) s) on) ∧
      (l.val < 16 → ¬ noCopies → Waits s (exec (.qfence l) s))) ∧
    (isMcc x = true →
      (l.val % 16 ≠ 0 → Raises s (exec (.qfence l) s) 0x01 th.ir.toNat true) ∧
      (l.val % 16 = 0 → l.val = 0 ∨ (getCluster s (clusterOf x)).tq = [] → Becomes s (exec (.qfence l) s) on) ∧
      (l.val = 16 → (getCluster s (clusterOf x)).tq ≠ [] → Waits s (exec (.qfence l) s)))

/-- leave returns what the thread holds and takes the units of the kinds asked for when the arbiter grants them. For every
state in which ga holds its value: leave first gives up what the thread holds, and a request that it has waiting (the
model's choice, log 116); with no kind left in the mask (bit 0 on an MCC, bits 1 and 2 elsewhere) it goes on; else,
with nobody waiting and the units free (or, for a request above the whole budget, no party but the thread's own copies
and clmask holding any), the thread holds them and goes on; else it joins the waiting requests last and waits. Nothing
outside the cluster's arbiter and the thread changes. (06_scalar.md, System instructions, R154, R281) -/
def Obligations.LeaveIsReturnedAndAskedFor : Prop :=
  ∀ (s : State) (a : Reg), Ready s [a] →
    let t := s.cur
    let th := running s
    let w := (reg s a).toNat
    let kinds := if isMcc t then w % 2 else w % 8 - w % 2
    let units := if isMcc t then 4 else (if w.testBit 1 then 1 else 0) + (if w.testBit 2 then 1 else 0)
    let c := getCluster s (clusterOf t)
    let held := c.held.filter fun x => decide (x.1 ≠ .thread t)
    let waiting := c.waiting.filter fun x => decide (x.1 ≠ .thread t)
    let used := (held.map fun x => x.2).sum
    let free := used + units ≤ c.budget ∨ (c.budget < units ∧ ∀ x ∈ held, partyOwner x.1 = partyOwner (.thread t))
    let R (s' : State) (th' : Thread) (c' : Cluster) : Prop :=
      exec (.leave a) s = .next s' ∧ getThread s' t = th' ∧ getCluster s' (clusterOf t) = c' ∧
      (∀ u, u ≠ t → getThread s' u = getThread s u) ∧ (∀ k, k ≠ clusterOf t → getCluster s' k = getCluster s k) ∧
      s' = { s with threads := s'.threads, clusters := s'.clusters, stalled := s'.stalled }
    (kinds = 0 → ∃ s', R s' { th with leaveKinds := 0, pc := th.pc + 4 } { c with held := held, waiting := waiting }) ∧
    (kinds ≠ 0 → waiting = [] → free → ∃ s', R s' { th with leaveKinds := kinds, pc := th.pc + 4 }
      { c with held := held ++ [(.thread t, units)], waiting := [] }) ∧
    (kinds ≠ 0 → waiting ≠ [] ∨ ¬ free → ∃ s', s'.stalled = true ∧
      R s' { th with leaveKinds := 0, wait := .leave kinds }
        { c with held := held, waiting := waiting ++ [(.thread t, units)] })

/-- csrr gives gd the CSR of its number, and raises for numbers that are not a kernel thread's. csrr writes the value of
the named CSR to gd and changes nothing else. On a vector core the CSRs that vector instructions write are served
through the read queue: the stream goes on, gd awaits the value, which is there at once when no vector instruction
precedes (for FFLAGS no access either) and comes when those are done; with 16 values awaited csrr waits, and one into
g0 waits for its value itself. CYC gives a count that never runs back, one to a core. On an MCC the CSRs of a vector
core read 0. Numbers from 0x020 raise illegal instruction, and from 0x800 protection with the number. How far CYC
moves on between two reads is free (log 3); that FFLAGS waits for the accesses before it is the model's reading (log
5). (06_scalar.md, CSR access, R58, R86, R87, R155, R156, R263, R269, R349) -/
def Obligations.CsrReads : Prop :=
  ∀ (s : State) (d : Reg) (n : Fin 4096), Usable s d [] →
    let t := s.cur
    let th := running s
    let core := getCore s (clusterOf t) (coreOf t)
    let place := (threadOf t).val + 4 * (coreOf t).val + 32 * (clusterOf t).val + 2048 * (s.devPos % 256)
    let mark (b : Bookmark) : Word := if b.valid then BitVec.ofNat 64 (2 ^ 63 + b.frontier.toNat % 2 ^ 52) else 0
    let num (k : Nat) : Word := BitVec.ofNat 64 k
    let both : List (Nat × Word) :=
      [(0x004, th.fill), (0x009, th.frm.setWidth 64),
       (0x00C, mark th.bk[0]), (0x00D, mark th.bk[1]), (0x00E, mark th.bk[2]), (0x00F, mark th.bk[3]),
       (0x012, num (place + if isMcc t then 2 ^ 19 else 0)), (0x013, num th.stage), (0x014, th.ufvec), (0x015, th.ufmask),
       (0x01C, th.xret), (0x01F, (getCtx s th.ctx).spbase)]
    let vector : List (Nat × Word) :=
      [(0x000, num th.vl), (0x001, num th.vtype), (0x003, num th.maxvl), (0x005, num th.lbud), (0x007, th.xbound),
       (0x00B, num th.clmode), (0x01D, num th.nv), (0x01E, num (getCluster s (clusterOf t)).powcap)]
    let served : List (Nat × Word) :=
      [(0x002, th.vstart), (0x008, th.fflags.setWidth 64), (0x016, th.xcause), (0x017, th.xpc), (0x018, th.xvpc),
       (0x019, th.xqpos), (0x01A, th.xelem), (0x01B, th.xinfo)]
    let servedVector : List (Nat × Word) :=
      [(0x006, num (core.leaves.countP fun p => decide (p.2.owner = threadOf t))), (0x00A, th.pcarry), (0x010, th.vcp)]
    let W (v : Word) : Prop := Writes s (exec (.csrr d n) s) d v 0 4
    let queued (v : Option Word) : Thread :=
      { dropLate th d with
        rq := (dropLate th d).rq ++
          [{ reg := d, val := v, stamp := th.nextStamp, csr := some n.val, base := th.fflags, froze := false }]
        nextStamp := th.nextStamp + 1, pc := th.pc + 4 }
    let key := if isMcc t then 512 + (clusterOf t).val else (clusterOf t).val * 8 + (coreOf t).val
    let cyc (s : State) (k : Nat) : Nat := mapGet 0 s.cyc k
    (∀ p ∈ both, p.1 = n.val → W p.2) ∧
    (∀ p ∈ vector, p.1 = n.val → (n.val ≤ 3 → ffPending th = false) → W (if isMcc t then 0 else p.2)) ∧
    (isMcc t = true → (∀ p ∈ served, p.1 = n.val → (n.val = 8 → th.out = []) → W p.2) ∧ ∀ p ∈ servedVector, p.1 = n.val → W 0) ∧
    (isMcc t = false → ∀ p ∈ served ++ servedVector, p.1 = n.val →
      (th.vq = [] → th.rq = [] → (n.val = 8 → th.out = []) →
        if d = 0 then GoesTo s (exec (.csrr d n) s) (th.pc + 4) else Becomes s (exec (.csrr d n) s) (queued (some p.2))) ∧
      (d = 0 → (∃ e ∈ th.vq, e.stamp < th.nextStamp) → Waits s (exec (.csrr d n) s)) ∧
      (d ≠ 0 → (∃ e ∈ th.vq, e.stamp < th.nextStamp) → th.rq.length < 16 → ∃ s', exec (.csrr d n) s = .next s' ∧ OthersKept t s s' ∧
        SameButCsr (queued none) (getThread s' t) ∧ ∀ x, (getThread s' t).rq.getLast? = some x → x.val = none) ∧
      (16 ≤ th.rq.length → Waits s (exec (.csrr d n) s))) ∧
    (n.val = 0x011 → ∃ s', exec (.csrr d n) s = .next s' ∧
      getThread s' t = { writeG (dropLate th d) d (num (cyc s' key)) with pc := th.pc + 4 } ∧
      cyc s key ≤ cyc s' key ∧ (∀ k, k ≠ key → cyc s' k = cyc s k) ∧ (∀ u, u ≠ t → getThread s' u = getThread s u) ∧
      s' = { s with threads := s'.threads, freeCtr := s'.freeCtr, cyc := s'.cyc }) ∧
    (0x020 ≤ n.val → n.val < 0x800 → Raises s (exec (.csrr d n) s) 0x01 th.ir.toNat true) ∧
    (0x800 ≤ n.val → Raises s (exec (.csrr d n) s) 0x07 n.val true)

/-- csrw changes the writable bits of the named CSR and nothing else. For every state in which ga holds its value: csrw of
a read-only CSR only moves on; of another it changes that CSR's writable bits; LBUD takes at most the header's budget;
in a handler a write of PCARRY leaves the frozen entries the value from before; on an MCC a write of a vector core's
CSR only moves on; numbers from 0x020 raise illegal instruction and from 0x800 protection with the number. No g
register and no byte of memory changes. That csrw of VSTART, FFLAGS and PCARRY waits until no vector instruction is
queued (of FFLAGS, also no access), and of any CSR until every csrr of it has its value, is the model's reading (log
5), as is LBUD's cut to 14 bits (log 69). (06_scalar.md, CSR access, R5, R34, R58, R82, R87, R155, R156) -/
def Obligations.CsrWrites : Prop :=
  ∀ (s : State) (a : Reg) (n : Fin 4096), Ready s [a] →
    let t := s.cur
    let th := running s
    let w := reg s a
    let on : Thread := { th with pc := th.pc + 4 }
    let both : List (Nat × Thread) :=
      [(0x004, { on with fill := w }), (0x009, { on with frm := w.setWidth 3 }), (0x014, { on with ufvec := w &&& ~~~3 }),
       (0x015, { on with ufmask := w &&& 0x4410 }), (0x016, { on with xcause := w &&& 0x1FFFF }), (0x017, { on with xpc := w }),
       (0x018, { on with xvpc := w }), (0x019, { on with xqpos := w &&& 0x7F }), (0x01A, { on with xelem := w }),
       (0x01B, { on with xinfo := w }), (0x01C, { on with xret := w }), (0x00C, on), (0x00D, on), (0x00E, on), (0x00F, on),
       (0x011, on), (0x012, on), (0x013, on), (0x01F, on)]
    let vector : List (Nat × Thread) :=
      [(0x005, { on with lbud := min (w.toNat % 2 ^ 14) th.hdrLbud }), (0x007, { on with xbound := w }),
       (0x00B, { on with clmode := w.toNat % 2 ^ 19 }), (0x000, on), (0x001, on), (0x003, on), (0x006, on), (0x010, on),
       (0x01D, on), (0x01E, on)]
    let B (th' : Thread) : Prop := Becomes s (exec (.csrw a n) s) th'
    let read := ∀ x ∈ th.rq, x.val = none → x.csr ≠ some n.val
    (read → (∀ p ∈ both, p.1 = n.val → B p.2) ∧ ∀ p ∈ vector, p.1 = n.val → B (if isMcc t then on else p.2)) ∧
    (read → th.vq = [] → (n.val = 0x002 → B { on with vstart := w }) ∧
      (n.val = 0x008 → th.out = [] → B { on with fflags := w.setWidth 7 }) ∧
      (n.val = 0x00A → B (if isMcc t then on else { on with
        pcarry := w
        frozen := th.frozen.map fun f =>
          { f with carry := some (match f.carry with | some c => c | none => th.pcarry), wrote := true } }))) ∧
    (n.val < 0x020 → (th.vq ≠ [] ∧ n.val ∈ [0x002, 0x008, 0x00A]) ∨ (th.out ≠ [] ∧ n.val = 0x008) ∨ ¬ read →
      Waits s (exec (.csrw a n) s)) ∧
    (0x020 ≤ n.val → n.val < 0x800 → Raises s (exec (.csrw a n) s) 0x01 th.ir.toNat true) ∧
    (0x800 ≤ n.val → Raises s (exec (.csrw a n) s) 0x07 n.val true)

/-- bar arrives and wmpub raises its watermark once the thread's accesses are performed. A barrier whose number the launch
does not declare, or whose count is 0, raises barrier undeclared (cause 0x0D) with the number. With an access left, in
a handler also one of a frozen entry or one set aside (log 40; on an MCC also with a tile queue entry), bar only
waits. An arrival that is not the last is added to the barrier's arrivals, and the thread waits at it. The last
arrival clears the arrivals; every thread of the launch waiting at the barrier whose arrival counted, and the last one
itself, go on past their bar, with no value taken early left (log 2); one that arrived and is elsewhere will find its
phase complete. Nothing else changes. wmpub raises protection with a watermark outside the context's range, waits
while an access is left, and else makes the watermark the greater of its value and gb and moves on; once every path to
a peer that an access waits for, or waited for since wmpub began to wait, has failed it sets VIOL instead. That an
arrival is named by its iteration (log 58) and the case of the lost path (log 76) are the model's. (R162, R259, R260,
R311, R337, R344, R388) -/
def Obligations.BarriersAndWatermarks : Prop :=
  ∀ (s : State) (n : Fin 16) (a b : Reg),
    let t := s.cur
    let th := running s
    let cl := clusterOf t
    let c := getCluster s cl
    let x := launchOf s th
    let count := barrierCount x n.val
    let key := th.launch.getD 0 * 16 + n.val
    let arrived := mapGet [] c.bars key
    let left := mapGet [] c.bars (2 ^ 64 + key)
    let name (u : Tid) : Nat := if isMcc u then 0 else 8 * (getThread s u).serial + (getThread s u).stage + 1
    let counted (u : Tid) : Prop := u ∈ clusterTids cl ∧ (getThread s u).launch = th.launch ∧
      (getThread s u).wait = .barrier n ∧ name u ∈ arrived
    let idle := (∀ e ∈ th.vq ++ frozenMem th, isMemory e.op = false) ∧ allAccesses th = []
    let free := idle ∧ (isMcc t = true → c.tq = [])
    let at_ (u : Tid) : Thread := { getThread s u with wait := .none, early := [], pc := (getThread s u).pc + 4 }
    let y := getCtx s th.ctx
    let base := match x with
      | some l => l.wmbase
      | none => 0
    let wm := (base + (reg s a).toNat % 256) % 256
    let owned := y.wmlo ≤ wm ∧ wm < y.wmlo + y.wmcnt
    let lost := (∃ va, th.release = some (th.pc, some va)) ∨
      ∃ a ∈ th.out, ∃ q pa ser, a.tgt = .peer q pa ser ∧ ((∀ p ∈ s.links, p.2.st ≠ .up) ∨ q ∈ s.silent)
    (Ready s [a, b] →
      (¬ owned → Raises s (exec (.wmpub a b) s) 0x07 wm false) ∧
      (owned → ¬ idle → ¬ lost → ∃ s', exec (.wmpub a b) s = .next s' ∧ s'.stalled = true ∧
        getThread s' t = { th with release := some (th.pc, none) } ∧ (∀ u, u ≠ t → getThread s' u = getThread s u) ∧
        s' = { s with threads := s'.threads, stalled := true }) ∧
      (owned → lost → ∃ s', exec (.wmpub a b) s = .next s' ∧
        getThread s' t = { th with fflags := th.fflags ||| 0b1000000, pc := th.pc + 4, release := none } ∧
        (∀ u, u ≠ t → getThread s' u = getThread s u) ∧ s' = { s with threads := s'.threads, mem := s'.mem }) ∧
      (owned → idle → ¬ lost → ∃ s', exec (.wmpub a b) s = .next s' ∧
        getThread s' t = { th with pc := th.pc + 4, release := none } ∧
        (∀ u, u ≠ t → getThread s' u = getThread s u) ∧
        s' = { s with threads := s'.threads, watermarks := s'.watermarks } ∧
        ∀ k, watermarkVal s' k = if k = wm then max (watermarkVal s wm) (reg s b).toNat else watermarkVal s k)) ∧
    (x = none ∨ (∀ l, x = some l → l.hdr.nbar ≤ n.val ∨ l.hdr.barcnt / 2 ^ (8 * n.val) % 256 = 0) →
      Raises s (exec (.bar n) s) 0x0D n.val false) ∧
    (count ≠ 0 → name t ∈ left → ∃ s', exec (.bar n) s = .next s' ∧ getThread s' t = { th with pc := th.pc + 4, early := [] } ∧
      (∀ u, u ≠ t → getThread s' u = getThread s u) ∧ s' = { s with threads := s'.threads, clusters := s'.clusters }) ∧
    (count ≠ 0 → name t ∉ left → name t ∈ arrived → ∃ s', exec (.bar n) s = .next s' ∧ s'.stalled = true ∧
      getThread s' t = { th with wait := .barrier n } ∧ (∀ u, u ≠ t → getThread s' u = getThread s u) ∧
      s' = { s with threads := s'.threads, stalled := true }) ∧
    (count ≠ 0 → name t ∉ left → name t ∉ arrived →
      (¬ free → Waits s (exec (.bar n) s)) ∧
      (free → arrived.length + 1 < count → ∃ s', exec (.bar n) s = .next s' ∧ s'.stalled = true ∧
        getThread s' t = { th with wait := .barrier n } ∧ mapGet [] (getCluster s' cl).bars key = arrived ++ [name t] ∧
        (∀ u, u ≠ t → getThread s' u = getThread s u) ∧
        s' = { s with threads := s'.threads, clusters := s'.clusters, stalled := true }) ∧
      (free → count ≤ arrived.length + 1 →
        ∃ s', exec (.bar n) s = .next s' ∧
          getThread s' t = { th with pc := th.pc + 4, early := [] } ∧ (∀ u, counted u → getThread s' u = at_ u) ∧
          (∀ u, u ≠ t → ¬ counted u → getThread s' u = getThread s u) ∧
          ((c.bars.map Prod.fst).Pairwise (· < ·) → mapGet [] (getCluster s' cl).bars key = [] ∧
            ∀ m, m ∈ mapGet [] (getCluster s' cl).bars (2 ^ 64 + key) ↔
              m ∈ left ∨ (m ∈ arrived ∧ ∀ u, counted u → name u ≠ m)) ∧
          s' = { s with threads := s'.threads, clusters := s'.clusters } ∧
          getCluster s' cl = { c with bars := (getCluster s' cl).bars }))

/-- The vector integer instructions are pushed with their operands captured. A vector core thread whose registers hold
their values pushes each instruction as the operation it stands for, with its g operands captured at push; nothing
else changes but the queue entry, a place in the read queue for a g result, and the pc. On an MCC it is illegal; a
register the launch lacks is illegal register; behind a first-fault load, with full queues or with a full counter, it
waits. Here: the 15 vector-vector, 14 vector-scalar and 9 immediate integer forms (an immediate is signed, but for the
shifts; every element active, no exception mask) and hvadd. (07_vector.md, Integer arithmetic, R61, R66, R91, R112,
R158, R164, R165, R169, R264, R266) -/
def Obligations.VectorIntegerInstructionsArePushed : Prop :=
  ∀ (s : State) (d a b : Reg) (m : MaskF) (x : Bool) (imm : BitVec 11) (h k : Fin 8),
    let P := Pushes s
    P (.vaddVV d a b m x) 4 [] (.int .add d a (.v b) m x) ∧
    P (.vsubVV d a b m x) 4 [] (.int .sub d a (.v b) m x) ∧
    P (.vmulVV d a b m x) 4 [] (.int .mul d a (.v b) m x) ∧
    P (.vmulhVV d a b m x) 4 [] (.int .mulh d a (.v b) m x) ∧
    P (.vdivVV d a b m x) 4 [] (.int .div d a (.v b) m x) ∧
    P (.vremVV d a b m x) 4 [] (.int .rem d a (.v b) m x) ∧
    P (.vminVV d a b m x) 4 [] (.int .min d a (.v b) m x) ∧
    P (.vmaxVV d a b m x) 4 [] (.int .max d a (.v b) m x) ∧
    P (.vaddsVV d a b m x) 4 [] (.int .adds d a (.v b) m x) ∧
    P (.vsubsVV d a b m x) 4 [] (.int .subs d a (.v b) m x) ∧
    P (.vandVV d a b m x) 4 [] (.int .and d a (.v b) m x) ∧
    P (.vorVV d a b m x) 4 [] (.int .or d a (.v b) m x) ∧
    P (.vxorVV d a b m x) 4 [] (.int .xor d a (.v b) m x) ∧
    P (.vshlVV d a b m x) 4 [] (.int .shl d a (.v b) m x) ∧
    P (.vshrVV d a b m x) 4 [] (.int .shr d a (.v b) m x) ∧
    P (.vaddVS d a b m x) 4 [b] (.int .add d a (.w (reg s b)) m x) ∧
    P (.vsubVS d a b m x) 4 [b] (.int .sub d a (.w (reg s b)) m x) ∧
    P (.vrsubVS d a b m x) 4 [b] (.int .rsub d a (.w (reg s b)) m x) ∧
    P (.vmulVS d a b m x) 4 [b] (.int .mul d a (.w (reg s b)) m x) ∧
    P (.vmulhVS d a b m x) 4 [b] (.int .mulh d a (.w (reg s b)) m x) ∧
    P (.vminVS d a b m x) 4 [b] (.int .min d a (.w (reg s b)) m x) ∧
    P (.vmaxVS d a b m x) 4 [b] (.int .max d a (.w (reg s b)) m x) ∧
    P (.vaddsVS d a b m x) 4 [b] (.int .adds d a (.w (reg s b)) m x) ∧
    P (.vsubsVS d a b m x) 4 [b] (.int .subs d a (.w (reg s b)) m x) ∧
    P (.vandVS d a b m x) 4 [b] (.int .and d a (.w (reg s b)) m x) ∧
    P (.vorVS d a b m x) 4 [b] (.int .or d a (.w (reg s b)) m x) ∧
    P (.vxorVS d a b m x) 4 [b] (.int .xor d a (.w (reg s b)) m x) ∧
    P (.vshlVS d a b m x) 4 [b] (.int .shl d a (.w (reg s b)) m x) ∧
    P (.vshrVS d a b m x) 4 [b] (.int .shr d a (.w (reg s b)) m x) ∧
    P (.vaddVI d a imm) 4 [] (.int .add d a (.imm imm.toInt) 0 true) ∧
    P (.vrsubVI d a imm) 4 [] (.int .rsub d a (.imm imm.toInt) 0 true) ∧
    P (.vandVI d a imm) 4 [] (.int .and d a (.imm imm.toInt) 0 true) ∧
    P (.vorVI d a imm) 4 [] (.int .or d a (.imm imm.toInt) 0 true) ∧
    P (.vxorVI d a imm) 4 [] (.int .xor d a (.imm imm.toInt) 0 true) ∧
    P (.vminVI d a imm) 4 [] (.int .min d a (.imm imm.toInt) 0 true) ∧
    P (.vmaxVI d a imm) 4 [] (.int .max d a (.imm imm.toInt) 0 true) ∧
    P (.vshlVI d a imm) 4 [] (.int .shl d a (.imm imm.toNat) 0 true) ∧
    P (.vshrVI d a imm) 4 [] (.int .shr d a (.imm imm.toNat) 0 true) ∧
    P (.hvadd h k) 2 [] (.int .add (Fin.ofNat 32 h.val) (Fin.ofNat 32 h.val) (.v (Fin.ofNat 32 k.val)) 0 false)

/-- The vector floating-point, conversion and compare instructions are pushed with their operands captured. A vector core
thread whose registers hold their values pushes each instruction as the operation it stands for, with its g operands
captured at push; nothing else changes but the queue entry, a place in the read queue for a g result, and the pc. On
an MCC it is illegal; a register the launch lacks is illegal register; behind a first-fault load, with full queues or
with a full counter, it waits. Here: the 19 floating-point forms, vcvt, and the 11 compares. (07_vector.md,
Floating-point arithmetic, R61, R66, R112, R158, R164, R165, R172, R173, R174, R264, R266) -/
def Obligations.VectorFloatInstructionsArePushed : Prop :=
  ∀ (s : State) (d a b : Reg) (md m : MaskF) (x : Bool) (t : Fin 16),
    let P := Pushes s
    P (.vfaddVV d a b m x) 4 [] (.fp .add d a (.v b) m x) ∧
    P (.vfsubVV d a b m x) 4 [] (.fp .sub d a (.v b) m x) ∧
    P (.vfmulVV d a b m x) 4 [] (.fp .mul d a (.v b) m x) ∧
    P (.vfdivVV d a b m x) 4 [] (.fp .div d a (.v b) m x) ∧
    P (.vfmaVV d a b m x) 4 [] (.fp .fma d a (.v b) m x) ∧
    P (.vfminVV d a b m x) 4 [] (.fp .min d a (.v b) m x) ∧
    P (.vfmaxVV d a b m x) 4 [] (.fp .max d a (.v b) m x) ∧
    P (.vfaddVS d a b m x) 4 [b] (.fp .add d a (.w (reg s b)) m x) ∧
    P (.vfsubVS d a b m x) 4 [b] (.fp .sub d a (.w (reg s b)) m x) ∧
    P (.vfmulVS d a b m x) 4 [b] (.fp .mul d a (.w (reg s b)) m x) ∧
    P (.vfdivVS d a b m x) 4 [b] (.fp .div d a (.w (reg s b)) m x) ∧
    P (.vfmaVS d a b m x) 4 [b] (.fp .fma d a (.w (reg s b)) m x) ∧
    P (.vfminVS d a b m x) 4 [b] (.fp .min d a (.w (reg s b)) m x) ∧
    P (.vfmaxVS d a b m x) 4 [b] (.fp .max d a (.w (reg s b)) m x) ∧
    P (.vfabs d a m x) 4 [] (.fp .abs d a (.w 0) m x) ∧
    P (.vfsqrt d a m x) 4 [] (.fp .sqrt d a (.w 0) m x) ∧
    P (.vfrcp d a m x) 4 [] (.fp .rcp d a (.w 0) m x) ∧
    P (.vfrsqrt d a m x) 4 [] (.fp .rsqrt d a (.w 0) m x) ∧
    P (.vfexp2 d a m x) 4 [] (.fp .exp2 d a (.w 0) m x) ∧
    P (.vcvt d a t m x) 4 [] (.cvt d a t.val m x) ∧
    P (.vcmpEqVV md a b m) 4 [] (.cmp .eq md a (.v b) m) ∧
    P (.vcmpNeVV md a b m) 4 [] (.cmp .ne md a (.v b) m) ∧
    P (.vcmpLtVV md a b m) 4 [] (.cmp .lt md a (.v b) m) ∧
    P (.vcmpLeVV md a b m) 4 [] (.cmp .le md a (.v b) m) ∧
    P (.vcmpUnordVV md a b m) 4 [] (.cmp .unord md a (.v b) m) ∧
    P (.vcmpEqVS md a b m) 4 [b] (.cmp .eq md a (.w (reg s b)) m) ∧
    P (.vcmpNeVS md a b m) 4 [b] (.cmp .ne md a (.w (reg s b)) m) ∧
    P (.vcmpLtVS md a b m) 4 [b] (.cmp .lt md a (.w (reg s b)) m) ∧
    P (.vcmpLeVS md a b m) 4 [b] (.cmp .le md a (.w (reg s b)) m) ∧
    P (.vcmpGtVS md a b m) 4 [b] (.cmp .gt md a (.w (reg s b)) m) ∧
    P (.vcmpGeVS md a b m) 4 [b] (.cmp .ge md a (.w (reg s b)) m)

/-- The reduction, scan, permutation and mask instructions are pushed with their operands captured. A vector core thread
whose registers hold their values pushes each instruction as the operation it stands for, with its g operands captured
at push; nothing else changes but the queue entry, a place in the read queue for a g result, and the pc. On an MCC it
is illegal; a register the launch lacks is illegal register; behind a first-fault load, with full queues or with a
full counter, it waits. Here: six reductions, two scans, eleven permutations, and nine mask instructions; reductions,
vextr, mpopc, mfirst and mtos have a g result. (07_vector.md, Reductions and scans, R61, R66, R112, R158, R175, R176,
R182, R185, R186, R264, R266) -/
def Obligations.ReductionsPermutationsAndMasksArePushed : Prop :=
  ∀ (s : State) (d a b : Reg) (md ma mb m : MaskF) (x : Bool),
    let P := Pushes s
    P (.vredsum d a b m) 4 [b] (.red .sum d a (reg s b) m) ∧
    P (.vredsumo d a b m) 4 [b] (.red .sumo d a (reg s b) m) ∧
    P (.vredmin d a b m) 4 [b] (.red .min d a (reg s b) m) ∧
    P (.vredmax d a b m) 4 [b] (.red .max d a (reg s b) m) ∧
    P (.vredand d a b m) 4 [b] (.red .and d a (reg s b) m) ∧
    P (.vredor d a b m) 4 [b] (.red .or d a (reg s b) m) ∧
    P (.vscan d a b m x) 4 [b] (.scan false d a (reg s b) m x) ∧
    P (.vscanmax d a b m x) 4 [b] (.scan true d a (reg s b) m x) ∧
    P (.vlift d a b m) 4 [b] (.slide true d a (reg s b) m) ∧
    P (.vsink d a b m) 4 [b] (.slide false d a (reg s b) m) ∧
    P (.vperm d a b m) 4 [] (.perm d a b m) ∧
    P (.vpress d a m) 4 [] (.press d a m) ∧
    P (.vrank d m) 4 [] (.rank d m) ∧
    P (.vbcast d b m) 4 [b] (.bcast d (reg s b) m) ∧
    P (.vextr d a b) 4 [b] (.extr d a (reg s b)) ∧
    P (.vput d a b) 4 [a, b] (.put d (reg s a) (reg s b)) ∧
    P (.vupd d a b m) 4 [] (.upd false d a b m) ∧
    P (.vupdAdd d a b m) 4 [] (.upd true d a b m) ∧
    P (.vtopk d a b m) 4 [b] (.topk d a (reg s b) m) ∧
    P (.mand md ma mb) 4 [] (.mask .and md ma mb) ∧
    P (.mor md ma mb) 4 [] (.mask .or md ma mb) ∧
    P (.mxor md ma mb) 4 [] (.mask .xor md ma mb) ∧
    P (.mnot md ma) 4 [] (.mask .not md ma ma) ∧
    P (.mpopc d ma) 4 [] (.mpopc d ma) ∧
    P (.mfirst d ma) 4 [] (.mfirst d ma) ∧
    P (.mtos d ma b) 4 [b] (.mtos d ma (reg s b)) ∧
    P (.stom md a b) 4 [a, b] (.stom md (reg s a) (reg s b)) ∧
    P (.mset md a b) 4 [a, b] (.mset md (reg s a) (reg s b))

/-- The chain and vector memory instructions are pushed with their addresses and counts captured. A vector core thread
whose registers hold their values pushes each instruction as the operation it stands for, with its g operands captured
at push; nothing else changes but the queue entry, a place in the read queue for a g result, and the pc. On an MCC it
is illegal; a register the launch lacks is illegal register; behind a first-fault load, with full queues or with a
full counter, it waits. Here: the six loads and stores, vstxa, and the eight chain instructions; base, stride, counts
and positions are the values of their g registers at push; vdesc and vlen have a g result. (08_chains_memory.md, R61,
R66, R112, R158, R195, R201, R203, R209, R210, R264, R266) -/
def Obligations.ChainAndMemoryInstructionsArePushed : Prop :=
  ∀ (s : State) (d a b g v : Reg) (m : MaskF) (c : Fin 16) (f : Bool),
    let P := Pushes s
    P (.vld d b m c f) 4 [b] (.load .unit d (reg s b) 0 0 m c.val f) ∧
    P (.vlds d b g m c f) 4 [b, g] (.load .strided d (reg s b) (reg s g) 0 m c.val f) ∧
    P (.vldx d b v m c f) 4 [b] (.load .indexed d (reg s b) 0 v m c.val f) ∧
    P (.vst d b m c) 4 [b] (.store .unit d (reg s b) 0 0 m c.val) ∧
    P (.vsts d b g m c) 4 [b, g] (.store .strided d (reg s b) (reg s g) 0 m c.val) ∧
    P (.vstx d b v m c) 4 [b] (.store .indexed d (reg s b) 0 v m c.val) ∧
    P (.vstxa d b v m c f) 4 [b] (.stxa d (reg s b) v m c.val f) ∧
    P (.vshare d a) 4 [] (.share d a) ∧
    P (.vcat d a b) 4 [] (.cat d a b) ∧
    P (.vtrim d a g b) 4 [g, b] (.trim d a (reg s g) (reg s b)) ∧
    P (.vsplit d a b) 4 [b] (.split d a (reg s b)) ∧
    P (.vpack d a) 4 [] (.pack d a) ∧
    P (.vfree a) 4 [] (.free a) ∧
    P (.vdesc d a) 4 [] (.desc d a) ∧
    P (.vlen d a) 4 [] (.len d a)

/-- The collator, tile slot, pattern and copy instructions are pushed with their operands captured. A vector core thread
whose registers hold their values pushes each instruction as the operation it stands for, with its g operands captured
at push; nothing else changes but the queue entry, a place in the read queue for a g result, and the pc. On an MCC it
is illegal; a register the launch lacks is illegal register; behind a first-fault load, with full queues or with a
full counter, it waits. Here: clmap, clcomp (with a g result), clscan, clapply, clmask, tbind, ttgt, twait, tget,
tfree, pat (with g28 and g29 when the bound pattern reads them; an absent pattern raises pattern absent) and the four
copies, 8 bytes long, whose descriptor is tested at push. (09_tiles_collator_patterns.md, R61, R66, R108, R110, R112,
R212, R213, R220, R244, R247, R264) -/
def Obligations.CollatorTilePatternAndCopyInstructionsArePushed : Prop :=
  ∀ (s : State) (d a b g e v ctr : Reg) (md m : MaskF) (k c : Fin 16) (n : Fin 32) (q : Fin 4) (cnt : Bool) (fill : BitVec 8),
    let P := Pushes s
    let reads := match bindingOf (getCtx s (running s).ctx) n.val with
      | some x => x.reads
      | none => 0
    let pats : List Reg := (if reads.testBit 2 then [28] else []) ++ if reads.testBit 3 then [29] else []
    let ctrs : List Reg := if cnt then [ctr] else []
    let C (kind : CopyKind) (bound : Word) (f : Byte) (dst : Reg) (src : Word) (shape pitch vidx : Reg) : VOp :=
      .copy { kind := kind, cls := c.val, q := q, ctr := if cnt then some (reg s ctr) else none, bound := bound, fill := f
              dst := reg s dst, src := src, shape := reg s shape, pitch := reg s pitch, vidx := vidx }
    P (.clmap d a g b) 4 [g, b] (.clmap d a (reg s g) (reg s b)) ∧
    P (.clcomp d a g) 4 [] (.clcomp d a g) ∧
    P (.clscan d a) 4 [] (.clscan d a) ∧
    P (.clapply d a b) 4 [b] (.clapply d a (reg s b)) ∧
    P (.clmask md a b) 4 [a, b] (.clmask md (reg s a) (reg s b)) ∧
    P (.tbind a k) 4 [] (.tbind a k) ∧
    P (.ttgt k) 4 [] (.ttgt k) ∧
    P (.twait k) 4 [] (.twait k) ∧
    P (.tget d k) 4 [] (.tget d k) ∧
    P (.tfree k) 4 [] (.tfree k) ∧
    P (.pat d a b m n) 4 pats (.pat d a b m n (reg s 28) (reg s 29)) ∧
    P (.cpy c q cnt b a d g ctr) 8 ([b, a, d, g] ++ ctrs)
      (C .cpy 0 0 b (reg s a) d g 0) ∧
    P (.cpyg c q cnt e fill b a d g ctr v) 8 ([e, b, a, d, g] ++ ctrs)
      (C .cpyg (reg s e) fill b (reg s a) d g v) ∧
    P (.cpys c q cnt e b a d g ctr v) 8 ([e, b, a, d, g] ++ ctrs)
      (C .cpys (reg s e) 0 b (reg s a) d g v) ∧
    P (.cpyf c q cnt fill b d g ctr) 8 ([b, d, g] ++ ctrs)
      (C .cpyf 0 fill b 0 d g 0)

/-- A chain at or above NV, a mask at or above NM, and m46 as a destination are illegal registers. On a vector core:
vadd.vv raises illegal register (0x02) just when a register it names is at or above NV, its mask is at or above NM and
neither m0 nor m46, or it writes exception bits to m46; likewise a compare, mset and a masked load; vcvt of a grouped
operand also when va is 31 or va + 1 is at or above NV. (R48, R62, R66, R101, R112) -/
def Obligations.IllegalRegistersRaise : Prop :=
  ∀ (s : State) (d a b : Reg) (md m : MaskF) (x f : Bool) (t c : Fin 16), isMcc s.cur = false →
    let th := running s
    let I (i : Instr) : Prop := Raises s (exec i s) 0x02 th.ir.toNat true
    let noReg (r : Reg) : Prop := th.nv ≤ r.val
    let noMask (q : MaskF) : Prop := th.nm ≤ q.val ∧ q.val ≠ 0 ∧ q.val ≠ 46
    let blocks := th.vtype % 16 = 0 ∧ th.vtype / 128 % 2 = 0 ∧ 2 ≤ th.vtype / 16 % 8
    (noReg d ∨ noReg a ∨ noReg b ∨ noMask m ∨ (x = true ∧ m.val = 46) → I (.vaddVV d a b m x)) ∧
    (noReg a ∨ noReg b ∨ noMask m ∨ noMask md ∨ md.val = 46 → I (.vcmpLtVV md a b m)) ∧
    (noMask md ∨ md.val = 46 → I (.mset md a b)) ∧ (noReg d ∨ noMask m → I (.vld d b m c f)) ∧
    (noReg d ∨ noReg a ∨ noMask m ∨ (x = true ∧ m.val = 46) → I (.vcvt d a t m x)) ∧
    (blocks → a.val = 31 ∨ th.nv ≤ a.val + 1 → I (.vcvt d a t m x)) ∧
    (registersOk th (.int .add d a (.v b) m x) = true ↔
      ¬ (noReg d ∨ noReg a ∨ noReg b ∨ noMask m ∨ (x = true ∧ m.val = 46)))

/-- vsetl grants min of request, MAXVL and power cap in whole blocks, or marks VTYPE ill formed. On a vector core, with ga
and gd at hand, no first-fault load and room in the queue: vsetl of a type, a legal pair and a legal rounding mode,
and for a map of 64 or 256 bytes under a well-formed CLMODE, which is recorded, sets MAXVL to what the leaf budget
holds, VL and gd to the request rounded up to whole blocks but at most MAXVL and the power cap, VTYPE to the codes,
and pushes the update of m46 (bits below the lesser of request and grant); a bad pair or mode, a CLMODE that is not
well formed for a map, or a budget of less than a block, sets VTYPE.ILL with VL, MAXVL and gd 0. Nothing else changes.
(07_vector.md, vsetl, R49, R80, R81, R82, R159, R160, R242, R282) -/
def Obligations.GrantsOfVsetl : Prop :=
  ∀ (s : State) (d a : Reg) (ty : Fin 16) (k r : Fin 8), Usable s d [a] → isMcc s.cur = false →
    ffPending (running s) = false → Room s (.setM46 0) →
    let th := running s
    let cl := th.clmode
    let well := 2 ≤ cl % 2 ^ 9 ∧ cl % 2 ^ 9 ≤ 256 ∧ (64 < cl % 2 ^ 9 → cl.testBit 9 = true) ∧
      (cl.testBit 18 = true → cl / 2 ^ 10 % 2 ^ 8 < cl % 2 ^ 9)
    let req := (reg s a).toNat
    let b : Nat := match k.val with | 0 => 1 | 1 => 4 | 2 => 32 | 3 => 64 | _ => 128
    let e := if ty.val = 15 then (if cl.testBit 9 then 256 else 64) else scalarSize ty.val
    let mx := min 4096 (th.lbud / th.nv * 64 / e) / b * b
    let cap := max (max b (max 1 (128 / e))) ((getCluster s (clusterOf s.cur)).powcap * 128 / (e * b) * b)
    let pair := k.val = 0 ∨ (k.val = 1 ∧ ty.val ∈ [0, 8, 9, 10]) ∨ (2 ≤ k.val ∧ k.val ≤ 4 ∧ ty.val = 0)
    let vl := if req = 0 then 0 else min ((req + b - 1) / b * b) (min mx cap)
    let codes := ty.val + 16 * k.val + 256 * r.val
    let B (vt mx vl m46 : Nat) : Prop :=
      Becomes s (exec (.vsetl d a ty k r) s)
        (pushed
          (writeG
            { dropLate th d with
              budget := th.lbud, vtype := vt, maxvl := mx, vl := vl, lastGrant := vl
              clrec := if ty.val = 15 ∧ well then cl else th.clrec } d
            (BitVec.ofNat 64 vl)) (.setM46 m46) 4)
    (pair → r.val ≤ 4 → (ty.val = 15 → well) → b ≤ mx → B codes mx vl (min req vl)) ∧
    (¬ pair ∨ 4 < r.val ∨ (ty.val = 15 ∧ ¬ well) ∨ mx < b → B (codes + 128) 0 0 0)

/-- vsetlw takes the grant of vsetl once the watermark covers its strip. On an MCC vsetl and vsetlw are illegal; behind a
first-fault load, and with a full vector queue, they wait. On a vector core, with the registers at hand, no
first-fault load and room: vsetlw whose watermark lies outside the context's range raises protection with the
watermark; with a grant of 0, or the watermark at or above gb[63:16] plus the grant, it does what vsetl does; else the
thread waits for the watermark with the grant it has computed, and WATERMARK_WAIT_END gives it that grant once it is
reached. That a vsetlw that goes on drops the values taken early is the model's way to order loads behind an acquire
(log 2). (R112, R159, R162, R163, R266, R344, 07_vector.md, vsetlw) -/
def Obligations.VsetlwWaitsForItsWatermark : Prop :=
  (∀ (s : State) (d a b : Reg) (ty : Fin 16) (k r : Fin 8), ∀ i ∈ [Instr.vsetl d a ty k r, .vsetlw d a b ty k r],
    let th := running s
    (isMcc s.cur = true → Raises s (exec i s) 0x01 th.ir.toNat true) ∧
    (isMcc s.cur = false → Usable s d [a, b] → ffPending th = true →
      ∃ t, exec i s = .next t ∧ t.stalled = true ∧ BytesKept s t ∧ getThread t s.cur = { th with wait := .firstFault }) ∧
    (isMcc s.cur = false → Usable s d [a, b] → ffPending th = false → 64 ≤ th.vq.length →
      watermarkOwned (getCtx s th.ctx) (watermarkOf s th (reg s b)) = true → Waits s (exec i s))) ∧
  ∀ (s : State) (d a b : Reg) (ty : Fin 16) (k r : Fin 8), Usable s d [a, b] → isMcc s.cur = false →
    ffPending (running s) = false → Room s (.setM46 0) →
    let th := running s
    let wm := watermarkOf s th (reg s b)
    let g := grantOf th (powcapOf s s.cur) d (reg s a).toNat ty.val k.val r.val
    let need := ((reg s b).toNat / 2 ^ 16 + g.vl) % 2 ^ 64
    let i : Instr := .vsetlw d a b ty k r
    let granted : Thread :=
      pushed (writeG { dropLate th d with
                       budget := th.lbud, vtype := g.vtype, maxvl := g.maxvl, vl := g.vl, lastGrant := g.vl, clrec := g.clrec }
        d (BitVec.ofNat 64 g.vl)) (.setM46 g.m46) 4
    (watermarkOwned (getCtx s th.ctx) wm = false → Raises s (exec i s) 0x07 wm false) ∧
    (watermarkOwned (getCtx s th.ctx) wm = true →
      (g.vl = 0 ∨ need ≤ watermarkVal s wm →
        Becomes s (exec i s) { granted with early := [] } ∧ Becomes s (exec (.vsetl d a ty k r) s) granted) ∧
      (g.vl ≠ 0 → watermarkVal s wm < need →
        ∃ s1, exec i s = .next s1 ∧ s1.stalled = true ∧ BytesKept s s1 ∧
          getThread s1 s.cur = { th with wait := .watermark wm need g } ∧
          ∀ s2 : State, s2.ev.tid = s.cur → getThread s2 s.cur = { th with wait := .watermark wm need g } →
            th.tstate = .running →
            need ≤ watermarkVal s2 wm → getCluster s2 (clusterOf s.cur) = getCluster s (clusterOf s.cur) →
            th.wait = .none → ∃ s3, exec .watermarkWaitEnd s2 = .next s3 ∧ getThread s3 s.cur = { granted with early := [] } ∧
              OthersKept s.cur s2 s3))

/-- The MATRIX forms join the tile queue of an MCC, and what mcfg, mzero, mma, mmasp and mdrain do there. On a vector core
mcfg, mma, mmasp, mzero, mdrain and mwait are illegal; on an MCC so is a unit mask, sparse form, conversion or mode
that the configuration in force does not allow. With the registers at hand and fewer than 32 entries each joins the
tile queue with its captured operands and the pc moves on by 8; with 32 it waits. mwait goes on when at most n entries
are left. TILE_ENTRY_EXECUTE of an mcfg puts the configuration in force; of an mzero, leave held, it clears the named
accumulators and counts, and no other; the entry leaves the queue. Of an mma with its operands ready it adds the next
group of products to every output (for rn30 the value modulo the channels), counts it, and goes on at the next K index
or completes, with .rel emptying the slots of its operands; of an mmasp the kept elements of the next 16, or its first
illegal metadata code stops engine and MCC with cause 0x0B before an output changes; of an mdrain every output,
converted, goes to its place in the scratchpad or fills the target slot. No other accumulator or byte changes. The
elements of a scratchpad operand are the bytes at its descriptor's places. The model's own: a count stops at 32,641
(log 47), VEC in XCAUSE of a tile queue fault (log 19), the engine goes on while the MCC is in a handler (log 44),
such a fault then being 0x13 (log 128), the configuration is checked as it stands at issue (log 60), a group from a
VSTART between groups is short at K only (log 111), mwait drops values taken early (log 2). accAdd, with which
floating-point outputs are stated, adds the exact sum of the group's products to the accumulator with one RNE
rounding, a zero sum being -0 only of products all -0, infinities and NaNs as in R36; drainElem forms value times
scale exactly and rounds it once, an over-large one to the largest finite value, an infinity staying (e4m3: 448 with
saturation), a NaN canonical; an i32 drain is exact. (R45, R47, R53, R109, R228, R229, R231, R234, R235, R237, R238,
R241) -/
def Obligations.MatrixFormsIssueAndConfigure : Prop :=
  (let isNan (v : FVal) : Prop := v = .nan true ∨ v = .nan false
   (∀ (acc : Nat) (l : List (FVal × FVal)),
     let f := fmtOf 12
     let x := unpack f acc
     let z := accAdd acc l
     let sig := ∃ p ∈ l, p.1 = .nan true ∨ p.2 = .nan true ∨ ∃ a b e, p = (.inf a, .num b 0 e) ∨ p = (.num b 0 e, .inf a)
     let nans := ∃ p ∈ l, isNan p.1 ∨ isNan p.2
     let infs (q : Bool) : Prop := ∃ p ∈ l, ∃ a b, q = (a != b) ∧
       (p = (.inf a, .inf b) ∨ ∃ m e, m ≠ 0 ∧ (p = (.inf a, .num b m e) ∨ p = (.num b m e, .inf a)))
     let bad := x = .nan true ∨ sig ∨ (infs true ∧ infs false) ∨ (¬ isNan x ∧ ¬ nans ∧ ∃ q, x = .inf q ∧ infs (!q))
     (bad → z = { bits := f.nan, flags := flagInv, exc := true }) ∧
     (¬ bad → isNan x ∨ nans → z.bits = f.nan ∧ z.flags = 0) ∧
     (¬ bad → ¬ isNan x → ¬ nans → ∀ q, x = .inf q ∨ infs q → z = { bits := f.inf q, flags := 0, exc := false }) ∧
     ∀ n m e, x = .num n m e → (∀ p ∈ l, ∃ a j c b k d, p = (.num a j c, .num b k d)) →
       let v (u : FVal) : Rat := match u with
         | .num n m e => num n m e
         | _ => 0
       let sum := num n m e + (l.map fun p => v p.1 * v p.2).sum
       let minus := l ≠ [] ∧ ∀ p ∈ l, ∃ a j c k d, p = (.num a j c, .num (!a) k d) ∧ (j = 0 ∨ k = 0)
       (sum ≠ 0 → ∃ n m e, m ≠ 0 ∧ num n m e = sum ∧ z = roundFp f .arith 0 n m e false) ∧
       (sum = 0 → (m = 0 ∧ n = true ∧ minus → z = { bits := f.sign true, flags := 0, exc := false }) ∧
         (¬ (m = 0 ∧ n = true ∧ minus) → z = { bits := 0, flags := 0, exc := false }))) ∧
   ∀ (rn : Bool) (cv rm x : Nat) (scale : Option Word), rm ≤ 4 → cv < 7 → (4 ≤ cv ↔ rn = true) →
     let z := drainElem rn cv rm scale x
     let w : Int := if rnValid x then rnValue x else 0
     let more : BitVec 7 := if rn && !rnValid x then flagInv else 0
     let ty := match cv with
       | 0 => 12
       | 1 => 10
       | 2 => 8
       | 3 => 9
       | 5 => 12
       | _ => 10
     let f := fmtOf ty
     let v : FVal := if rn then .num (decide (w < 0)) w.natAbs 0 else unpack (fmtOf 12) x
     let g : FVal := match scale with
       | some y => unpack (fmtOf 12) (y.toNat % 2 ^ 32)
       | none => .num false 1 0
     let is (bits : Nat) (flags : BitVec 7) : Prop := z.bits = bits ∧ z.flags = flags ||| more
     (cv = 4 → is (ofSigned 32 w) 0) ∧
     (cv ≠ 4 →
       (∀ n m e q k d, v = .num n m e → g = .num q k d →
         let y := roundFp f .convert rm (n != q) (m * k) (e + d) false
         is y.bits y.flags) ∧
       (isNan v ∨ isNan g → is f.nan (if v = .nan true ∨ g = .nan true then flagInv else 0)) ∧
       (∀ n q e, (v = .inf n ∧ g = .num q 0 e) ∨ (v = .num q 0 e ∧ g = .inf n) → is f.nan flagInv) ∧
       ∀ n q, (v = .inf n ∧ (g = .inf q ∨ ∃ m e, m ≠ 0 ∧ g = .num q m e)) ∨ (g = .inf q ∧ ∃ m e, m ≠ 0 ∧ v = .num n m e) →
         if ty = 8 then is (f.maxFin (n != q)) flagSat else is (f.inf (n != q)) 0)) ∧
  (∀ (s : State) (u : Fin 16) (ac tyA tyB : Fin 4) (cv : Fin 16) (rm : Fin 8) (k : Fin 64) (n : Fin 256) (rel sc f1 f2 f3 ta tb : Bool)
      (a b d : Reg),
    let th := running s
    let cl := clusterOf s.cur
    let c := getCluster s cl
    let cfg := issueCfg c
    let mode := if rm.val = 7 then th.frm.toNat else rm.val
    let fits := u.val ∈ (match cfg.m64, cfg.n64 with
      | false, false => [1, 2, 4, 8]
      | false, true => [3, 12]
      | true, false => [5, 10]
      | true, true => [15])
    let T (i : Instr) (ok : Prop) (rs : List Reg) (op : TileOp) : Prop :=
      (isMcc s.cur = false ∨ ¬ ok → Raises s (exec i s) 0x01 th.ir.toNat true) ∧
      (isMcc s.cur = true → ok → Ready s rs →
        (32 ≤ c.tq.length → Waits s (exec i s)) ∧
        (c.tq.length < 32 → ∃ t, exec i s = .next t ∧
          getThread t s.cur = { th with nextStamp := th.nextStamp + 1, pc := th.pc + 8 } ∧
          getCluster t cl = { c with tq := c.tq ++ [{ op := op, pc := th.pc, stamp := th.nextStamp }] } ∧
          (∀ x, x ≠ s.cur → getThread t x = getThread s x) ∧ (∀ x, x ≠ cl → getCluster t x = getCluster s x) ∧
          t = { s with threads := t.threads, clusters := t.clusters }))
    T (.mcfg tyA tyB f1 f2 f3 k tb ta) True []
      (.mcfg { tyA := tyA.val, tyB := tyB.val, rn30 := f1, m64 := f2, n64 := f3, k := 8 * (k.val + 1), ta := ta, tb := tb }) ∧
    T (.mma u ac rel a b) fits [a, b] (.mma u ac rel (reg s a) (reg s b)) ∧
    T (.mmasp u ac rel a b d) (fits ∧ cfg.k % 16 = 0 ∧ cfg.tyA < 2 ∧ cfg.ta = false) [a, b, d]
      (.mmasp u ac rel (reg s a) (reg s b) (reg s d)) ∧
    T (.mzero u ac) True [] (.mzero u ac) ∧
    T (.mdrain u ac cv rm sc d a) (fits ∧ (4 ≤ cv.val ↔ cfg.rn30 = true) ∧ mode ≤ 4) (d :: if sc then [a] else [])
      (.mdrain u ac cv.val mode (if sc then some (reg s a) else none) (reg s d)) ∧
    (isMcc s.cur = false → Raises s (exec (.mwait n) s) 0x01 th.ir.toNat true) ∧
    (isMcc s.cur = true → c.tq.length ≤ n.val → Becomes s (exec (.mwait n) s) { th with pc := th.pc + 8, early := [] }) ∧
    (isMcc s.cur = true → n.val < c.tq.length → Waits s (exec (.mwait n) s))) ∧
  ∀ (s : State) (e : TileEntry) (r : List TileEntry),
    let cl := s.ev.cl
    let c := getCluster s cl
    let th := getThread s (.mcc cl)
    let left (p : LeaveParty × Nat) : Bool := decide (p.1 ≠ .tile)
    let after : Cluster :=
      { c with tq := r, tileProg := 0, held := c.held.filter left, waiting := c.waiting.filter left }
    let M := if c.cfg.m64 then 64 else 32
    let N := if c.cfg.n64 then 64 else 32
    let place (x : Shape × Word) (row b : Nat) : Nat :=
      let p := if descRing x.2 = 0 then descRow0 x.2 + row else (descRow0 x.2 + row) % 2 ^ descRing x.2
      cl.val * 2 ^ 23 + (descCore x.2).val * 2 ^ 20 + descOffset x.2 + p * descPitch x.2 +
        16 * (if descSwz x.2 = 0 then b / 16 else b / 16 ^^^ p % (if descSwz x.2 = 1 then 8 else 16)) + b % 16
    let el (x : Shape × Word) (i j : Nat) : Nat := ((logicalRows x.1 x.2 (loadOperand s cl x).lines).getD i []).getD j 0
    let num (ty : Nat) (v : Nat) : FVal := unpack (fmtOf (tileType ty)) v
    let ready (x : Shape × Word) : Prop := passOne s cl th.launch x = none ∧ passThree s cl x = none ∧
      (isSpad x.2 = true ∨ (slotOf s cl x.2).st = .bound)
    let clean (x : Shape × Word) : Prop := (loadOperand s cl x).bad = false
    let usable (x : Shape × Word) : Prop := ready x ∧ clean x
    let pos (u : Fin 16) (ac : Fin 4) (i j : Nat) : Nat :=
      (trailingZeros 4 u.val + 2 * (i / 32) + j / 32) * 4096 + ac.val * 1024 + i % 32 * 32 + j % 32
    let old (u : Fin 16) (ac : Fin 4) (i j : Nat) : Nat := mapGet 0 c.acc (pos u ac i j)
    let noted (t : State) (f : Nat → Nat → Res) (more : BitVec 7) (range : Prop) : Prop :=
      ∀ b, b < 8 → ((getCluster t cl).tsw.getLsbD b = true ↔ c.tsw.getLsbD b = true ∨ (b = 7 ∧ range) ∨
        (b ∈ [0, 1, 2, 4, 5] ∧ (more.getLsbD b = true ∨ ∃ i j, i < M ∧ j < N ∧ (f i j).flags.getLsbD b = true)))
    let adds (u : Fin 16) (ac : Fin 4) (rel : Bool) (ops : List (Shape × Word)) (next count : Nat) (more : BitVec 7)
        (f : Nat → Nat → Res) : Prop :=
      ∃ t, exec .tileEntryExecute s = .next t ∧ noted t f more False ∧
        (∀ i j, i < M → j < N → mapGet 0 (getCluster t cl).acc (pos u ac i j) = (f i j).bits ∧
          mapGet 0 (getCluster t cl).counts (pos u ac i j / 1024) = min (mapGet 0 c.counts (pos u ac i j / 1024) + count) 32641) ∧
        (∀ k, (∀ i j, i < M → j < N → k ≠ pos u ac i j) → mapGet 0 (getCluster t cl).acc k = mapGet 0 c.acc k) ∧
        (let x := getCluster t cl
         if next < c.cfg.k then
           x = { c with acc := x.acc, counts := x.counts, tsw := x.tsw, tileProg := next } ∧ getThread t (.mcc cl) = th ∧
             t.cores = s.cores
         else
           x = { after with acc := x.acc, counts := x.counts, tsw := x.tsw } ∧
             getThread t (.mcc cl) = { th with vstart := 0 } ∧ (rel = false → t.cores = s.cores) ∧
             (rel = true → ∀ o ∈ ops, isSpad o.2 = false → slotOf t cl o.2 = Slot.reset)) ∧
        (∀ x, x ≠ cl → getCluster t x = getCluster s x) ∧ (∀ x, x ≠ .mcc cl → getThread t x = getThread s x) ∧
        t = { s with threads := t.threads, cores := t.cores, clusters := t.clusters }
    c.tq = e :: r → c.tileFault = false → th.tstate = .running → (∀ x ∈ th.out, e.stamp ≤ x.stamp) →
      (∀ g, e.op = .mcfg g → ∃ t, exec .tileEntryExecute s = .next t ∧ getCluster t cl = { after with cfg := g } ∧
        (∀ x, x ≠ cl → getCluster t x = getCluster s x) ∧ t = { s with clusters := t.clusters }) ∧
      (∀ u ac, e.op = .mzero u ac → th.leaveKinds % 2 = 1 → c.acc.Pairwise (fun p q => p.1 < q.1) →
        ∃ t, exec .tileEntryExecute s = .next t ∧ (getCluster t cl).tq = r ∧ (getCluster t cl).cfg = c.cfg ∧
          (∀ (q : Fin 4) (ac' : Fin 4) (k : Fin 1024),
            mapGet 0 (getCluster t cl).acc (q.val * 4096 + ac'.val * 1024 + k.val) =
              if u.val.testBit q.val = true ∧ ac' = ac then 0 else mapGet 0 c.acc (q.val * 4096 + ac'.val * 1024 + k.val)) ∧
          (∀ x, x ≠ cl → getCluster t x = getCluster s x) ∧ t = { s with clusters := t.clusters }) ∧
      (∀ x : Shape × Word, isSpad x.2 = true → ∀ i j, i < storedRows x.1 x.2 → j < storedCols x.1 x.2 →
        ((loadOperand s cl x).lines.getD i []).getD j 0 =
          (upFrom (j * scalarSize x.1.ty) (scalarSize x.1.ty)).foldr
            (fun b acc => (memGet s.spad (place x i b)).toNat + 256 * acc) 0) ∧
      (th.leaveKinds % 2 = 1 → c.accBad = [] → c.acc.Pairwise (fun p q => p.1 < q.1) →
        (∀ u ac rel a b xa xb, e.op = .mma u ac rel a b → mmaShapes c.cfg a b = [xa, xb] → usable xa → usable xb →
          c.tileProg < c.cfg.k →
          let g := min (if c.cfg.tyA = 2 then 4 else 8) (c.cfg.k - c.tileProg)
          adds u ac rel [xa, xb] (c.tileProg + g) g ((loadOperand s cl xa).flags ||| (loadOperand s cl xb).flags) fun i j =>
            if c.cfg.rn30 then
              let x := old u ac i j
              { bits := rnEncode ((if rnValid x then rnValue x else 0) +
                  ((upFrom c.tileProg g).map fun k => toSigned 8 (el xa i k) * toSigned 8 (el xb k j)).sum)
                flags := if rnValid x then 0 else flagInv, exc := false }
            else
              accAdd (old u ac i j) ((upFrom c.tileProg g).map fun k => (num c.cfg.tyA (el xa i k), num c.cfg.tyB (el xb k j)))) ∧
        (∀ u ac rel a b m xa xb xm, e.op = .mmasp u ac rel a b m → mmaspShapes c.cfg a b m = [xa, xb, xm] →
          ready xa → ready xb → usable xm → c.tileProg < c.cfg.k → c.cfg.k % 16 = 0 → c.tileProg % 16 = 0 →
          let code (i q : Nat) : Nat := el xm i (q / 8) / 2 ^ (4 * (q % 8)) % 16
          let legal (i q : Nat) : Prop := code i q % 4 < code i q / 4
          let q0 := c.tileProg / 4
          (clean xa → clean xb → (∀ i q, i < M → q0 ≤ q → q < q0 + 4 → legal i q) →
            adds u ac rel [xa, xb, xm] (c.tileProg + 16) 8 (loadOperand s cl xb).flags fun i j =>
              accAdd (old u ac i j) ((upFrom q0 4).flatMap fun q =>
                [(num c.cfg.tyA (el xa i (2 * q)), num c.cfg.tyB (el xb (4 * q + code i q % 4) j)),
                 (num c.cfg.tyA (el xa i (2 * q + 1)), num c.cfg.tyB (el xb (4 * q + code i q / 4) j))])) ∧
          (∀ i q, i < M → q0 ≤ q → q < q0 + 4 → ¬ legal i q → th.record = none →
            (∀ i' q', i' < M → q0 ≤ q' → q' < q0 + 4 → i' < i ∨ (i' = i ∧ q' < q) → legal i' q') →
            ∃ t, exec .tileEntryExecute s = .next t ∧
              getCluster t cl = { after with tq := e :: r, tileFault := true } ∧
              getThread t (.mcc cl) =
                { stoppedAt { th with pc := e.pc, rq := freezeItems th } 0x0B (i * 2 ^ 16 + q) with
                  pc := th.pc, xvpc := (e.pc.setWidth 52).signExtend 64, vstart := BitVec.ofNat 64 c.tileProg
                  xcause := BitVec.ofNat 64 ((if inHandler th = true then 0x13 + 2 ^ 8 * 0x0B else 0x0B) + 2 ^ 16) } ∧
              (∀ x, x ≠ cl → getCluster t x = getCluster s x) ∧ (∀ x, x ≠ .mcc cl → getThread t x = getThread s x) ∧
              t = { s with threads := t.threads, clusters := t.clusters })) ∧
        (∀ u ac cv rm scale d, e.op = .mdrain u ac cv rm scale d →
          let h := drainShape c.cfg cv
          let sz := scalarSize h.ty
          let out (i j : Nat) : Res := drainElem c.cfg.rn30 cv rm scale (old u ac i j)
          let range := c.cfg.rn30 = true ∧ ∃ i j, i < M ∧ j < N ∧ 32640 < mapGet 0 c.counts (pos u ac i j / 1024)
          passOne s cl th.launch (h, d) = none →
            (isSpad d = true → Memory.wf s.spad = true → descRing d = 0 ∨ storedRows h d ≤ 2 ^ descRing d →
              ∃ t, exec .tileEntryExecute s = .next t ∧ noted t out 0 range ∧
                getCluster t cl = { after with tsw := (getCluster t cl).tsw } ∧
                (∀ i b, i < storedRows h d → b < rowBytes h d →
                  let x := out (if descT d then b / sz else i) (if descT d then i else b / sz)
                  memGet t.spad (place (h, d) i b) = BitVec.ofNat 8 (x.bits / 2 ^ (8 * (b % sz)))) ∧
                (∀ a, (∀ i b, i < storedRows h d → b < rowBytes h d → a ≠ place (h, d) i b) → memGet t.spad a = memGet s.spad a) ∧
                (∀ x, x ≠ cl → getCluster t x = getCluster s x) ∧
                t = { s with spad := t.spad, poisonSpad := t.poisonSpad, clusters := t.clusters }) ∧
            (∀ s1, isSpad d = false → (slotOf s cl d).st = .target →
              fillSlot s cl h d (8 * sz) ((upFrom 0 M).flatMap fun i => (upFrom 0 N).map fun j => (out i j).bits) = .ok s1 →
              ∃ t, exec .tileEntryExecute s = .next t ∧ noted t out 0 range ∧
                getCluster t cl = { after with tsw := (getCluster t cl).tsw } ∧ t.cores = s1.cores ∧
                (let q := slotOf t cl d
                 q.st = .filled ∧ q.rowLen = N ∧ q.ty = h.ty ∧ q.group = 0 ∧ q.owner = (slotOf s cl d).owner) ∧
                (∀ x, x ≠ cl → getCluster t x = getCluster s x) ∧
                t = { s with cores := t.cores, clusters := t.clusters })))

/-- A course of a compare, mask, reduction, extraction, in-place or store instruction; LEAF_ALLOC_RETRY. VECTOR_COURSE of
the oldest entry of a running thread: mand, mor, mxor, mnot, mset and stom write their mask, mpopc, mfirst and mtos
give the count, the first set bit and the word, and a vsetl's update sets the low bits of m46. A compare writes bit i
of its mask for each element of the course: 1 when it is active, a pad or not, and the relation holds, by signedness,
value (R36) or container (rn30), with the flags of its active elements; the bits before and behind the course stay
(completion clears those from VL on). clmask does so for maps read from memory. A reduction gives gb with no active
element, its combination with the one active, the sum of integers modulo their width, the minimum, maximum,
conjunction or disjunction, vredsumo the sum in index order, and the others, in floating point too, the pairwise tree
of R52 combined with gb, with all flags; vextr gives an element, extended, or FILL; vdesc the descriptor and vlen the
count; vfree empties its register; vput replaces one element of a chain that nobody shares, vupd and vupd.add each
element that an active index names, in index order, and no other; a course of a unit, strided or indexed store writes
the bytes of its accessed elements (active, no pads, below XBOUND) that no higher accessed element reaches (though
that one faults as misaligned: log 110), and stops at the lowest that faults, with VSTART and XELEM its index; vstxa
adds to each place the merged values of the elements that name it. No other mask, chain, register or byte of memory
changes. LEAF_ALLOC_RETRY does the same for an oldest entry that has stalled, and nothing when none has.
(07_vector.md, R51, R52, R57, R174, R175, R183, R184, R187, R204, R209, R244) -/
def Obligations.MaskInstructionsExecute : Prop :=
  (∀ s : State, (∀ e r, (getThread s s.ev.tid).vq = e :: r → e.stalled = false) → exec .leafAllocRetry s = .next s) ∧
  ∀ (s : State) (e : VEntry) (r : List VEntry),
    let t := s.ev.tid
    let th := getThread s t
    th.vq = e :: r → th.tstate = .running → e.finished = false → e.fault = none → s.ev.k = 0 →
    (∀ f, th.frozen = some f → f.out = []) →
    let bit (x : BitVec 4096) (k : Nat) : Bool := x.getLsbD k
    let src (q : MaskF) : BitVec 4096 := if q.val = 0 then BitVec.allOnes 4096 else if h : q.val < 48 then th.m[q.val] else 0
    let done (g : Word) : VEntry := { e with finished := true, stalled := false, gres := g }
    ∀ i : Instr, i = .vectorCourse ∨ (i = .leafAllocRetry ∧ e.stalled = true) →
    let M (md : MaskF) (f : Nat → Bool) : Prop :=
      ∃ w : BitVec 4096, (∀ k, k < 4096 → bit w k = f k) ∧ ∃ s', exec i s = .next s' ∧ OthersKept t s s' ∧
        ∀ h : md.val < 48, getThread s' t =
          { th with vq := done e.gres :: r, m := if md.val = 0 then th.m else th.m.set md.val w }
    let G (g : Word) : Prop :=
      ∃ s', exec i s = .next s' ∧ OthersKept t s s' ∧ getThread s' t = { th with vq := done g :: r }
    let count (x : BitVec 4096) : Nat := (List.range e.vl).countP fun k => bit x k
    let core := getCore s (clusterOf t) (coreOf t)
    let ty := vtTy e.vtype
    let sz := entrySize e
    let b := 8 * sz
    let clean := ∀ p ∈ core.leaves, p.2.poison = false ∧ p.2.hdrPoison = false
    let el (a : Reg) (k : Nat) : Nat := streamElem (streamOf core th.v[a.val]) (fillFor e) sz k
    let act (m : MaskF) (k : Nat) : Bool := decide (k < e.vl) && bit (src m) k
    let GF (g : Word) (f : BitVec 7) : Prop :=
      ∃ s', exec i s = .next s' ∧ OthersKept t s s' ∧
        getThread s' t = { th with vq := { done g with flags := e.flags ||| f } :: r }
    let X (v : Nat) : Word := extend (isSigned ty) b v
    let hi := min (e.prog + max 1 (128 / sz)) e.vl
    let C (md : MaskF) (rel : Nat → Prop) (fl : Nat → BitVec 7) : Prop := e.prog ≤ e.vl → e.vl ≤ 4096 →
      ∃ w : BitVec 4096, ∃ s', exec i s = .next s' ∧ OthersKept t s s' ∧
        (∀ k, k < 4096 → (bit w k = true ↔ if e.prog ≤ k ∧ k < hi then rel k else bit (src md) k = true)) ∧
        ∀ h : md.val < 48, getThread s' t =
          { th with
            vq := { e with prog := hi, finished := decide (hi = e.vl), stalled := false
                           flags := e.flags ||| (upFrom e.prog (hi - e.prog)).foldl (fun x k => x ||| fl k) 0 } :: r
            m := if md.val = 0 then th.m else th.m.set md.val w }
    let F (v : Nat) : FVal := unpack (fmtOf ty) v
    let isNan (v : FVal) : Prop := v = .nan true ∨ v = .nan false
    let valid (v : Nat) : Prop := v / 2 ^ 30 = 0 ∧ v / 2 ^ 10 % 2 ^ 10 < 1023 ∧ v / 2 ^ 20 < 1021
    let word := e.fill.toNat % 2 ^ 32
    (illFormed e = false → clean →
      (∀ op md a x m, e.op = .cmp op md a x m →
        let p (k : Nat) : Nat := el a k
        let q (k : Nat) : Nat := match x with
          | .v y => el y k
          | .w y => y.toNat % 2 ^ b
          | .imm y => if ty = 14 then rnEncode y else ofSigned b y
        let order (lt eq : Nat → Nat → Prop) (u v : Nat) : Prop := match op with
          | .eq => eq u v
          | .ne => ¬ eq u v
          | .lt => lt u v
          | .le => lt u v ∨ eq u v
          | .gt => lt v u
          | .ge => lt v u ∨ eq u v
          | .unord => isNan (F u) ∨ isNan (F v)
        (ty < 8 → op ≠ .unord →
          C md (fun k => act m k = true ∧ order (fun u v => intVal ty u < intVal ty v) (fun u v => intVal ty u = intVal ty v) (p k) (q k))
            fun _ => 0) ∧
        (8 ≤ ty → ty < 14 → ∀ fl : Nat → BitVec 7,
          (∀ k, fl k = 0b0010000 ∧ act m k = true ∧
              (F (p k) = .nan true ∨ F (q k) = .nan true ∨ ((isNan (F (p k)) ∨ isNan (F (q k))) ∧ op ∉ [CmpOp.eq, .ne, .unord])) ∨
            fl k = 0 ∧ ¬ (act m k = true ∧
              (F (p k) = .nan true ∨ F (q k) = .nan true ∨ ((isNan (F (p k)) ∨ isNan (F (q k))) ∧ op ∉ [CmpOp.eq, .ne, .unord])))) →
          C md (fun k => act m k = true ∧ order (fun u v => Below (F u) (F v)) (fun u v => Equal (F u) (F v)) (p k) (q k)) fl) ∧
        (ty = 14 → ∀ c : Nat → Nat,
          (∀ v, (valid v → c v = v) ∧ (¬ valid v → valid word → c v = word) ∧ (¬ valid v → ¬ valid word → c v = 0)) →
          (op = .eq → C md (fun k => act m k = true ∧ c (p k) = c (q k)) fun _ => 0) ∧
          (op = .ne → C md (fun k => act m k = true ∧ c (p k) ≠ c (q k)) fun _ => 0))) ∧
      (∀ md (base q : Word) (tg : Nat → Nat → Target), e.op = .clmask md base q → e.vl ≤ 1024 ∨ th.leaveKinds.testBit 2 = true →
        th.out = [] →
        (∀ k j, e.prog ≤ k → k < hi → j < sz / 64 → (∀ c, tg k j ≠ .violation c) ∧
          let at_ := base + BitVec.ofNat 64 (k * sz) + BitVec.ofNat 64 (j * 64)
          foreignPad s (partyOf s t) at_ = false ∧ accessTarget s (partyOf s t) at_ 64 64 .load = .ok (tg k j)) →
        let map (k : Nat) : Nat := (upFrom 0 (sz / 64)).foldr (fun j r => tgtRead s (tg k j) 64 + 2 ^ 512 * r) 0
        C md (fun k => clDv e.clrec = false ∨ (q.toNat % 512 < clS e.clrec ∧ mapByte e.clrec (map k) (q.toNat % 512) ≠ clD e.clrec))
          fun _ => 0) ∧
      (∀ op d a (g : Word) m, e.op = .red op d a g m → e.prog = 0 → e.vl ≤ 4096 →
        let g0 := g.toNat % 2 ^ b
        let all (P : Nat → Prop) : Prop := P g0 ∧ ∀ k, act m k = true → P (el a k)
        let is (v : Nat) : Prop := v = g0 ∨ ∃ k, act m k = true ∧ v = el a k
        ((∀ k, act m k = false) → GF (X g0) 0) ∧
        (∀ k, op ≠ .sumo → act m k = true → (∀ j, act m j = true → j = k) →
          let z := combine op ty (vtRm e.vtype) g0 (el a k)
          GF (X z.bits) z.flags) ∧
        (op ≠ .sumo → ∀ v, (pairTree (combine op ty (vtRm e.vtype)) (fun k => if act m k then some (el a k) else none) 12 0).1 = some v →
          let z := combine op ty (vtRm e.vtype) g0 v
          GF (X z.bits) ((pairTree (combine op ty (vtRm e.vtype)) (fun k => if act m k then some (el a k) else none) 12 0).2.1 |||
            z.flags)) ∧
        (op = .sumo →
          let z := ((List.range e.vl).filter (act m)).foldl (fun (p : Nat × BitVec 7) k =>
            let y := fpOp .add ty (vtRm e.vtype) p.1 (el a k) 0
            (y.bits, p.2 ||| y.flags)) (g0, 0)
          GF (X z.1) z.2) ∧
        (ty < 8 →
          (op = .sum → GF (X (g0 + ((List.range e.vl).map fun k => if act m k then el a k else 0).sum)) 0) ∧
          (op = .min → ∃ v, is v ∧ all (fun w => intVal ty v ≤ intVal ty w) ∧ GF (X v) 0) ∧
          (op = .max → ∃ v, is v ∧ all (fun w => intVal ty w ≤ intVal ty v) ∧ GF (X v) 0) ∧
          (op = .and → ∃ v, (∀ i, v.testBit i = true ↔ all fun w => w.testBit i = true) ∧ GF (X v) 0) ∧
          (op = .or → ∃ v, (∀ i, v.testBit i = true ↔ ∃ w, is w ∧ w.testBit i = true) ∧ GF (X v) 0))) ∧
      (∀ d a (at_ : Word), e.op = .extr d a at_ → GF (extend (isSigned ty) (8 * min sz 8) (el a at_.toNat)) 0) ∧
      (∀ d a, e.op = .len d a → GF (BitVec.ofNat 64 (th.v[a.val].len / sz)) 0) ∧
      (∀ d (at_ w : Word), e.op = .put d at_ w →
        let x := th.v[d.val]
        (x.len < (at_.toNat + 1) * sz → GF e.gres 0) ∧
        ((at_.toNat + 1) * sz ≤ x.len → (chainLeaves core x).Nodup → exclOf core x = true →
          ((pieces core x).map fun p => p.2.2).sum = x.len →
          ∃ s', exec i s = .next s' ∧ getThread s' t = { th with vq := done e.gres :: r } ∧
            (let core' := getCore s' (clusterOf t) (coreOf t)
             (∀ k dflt, streamElem (streamOf core' x) dflt sz k =
               if k = at_.toNat then w.toNat % 2 ^ b else streamElem (streamOf core x) dflt sz k) ∧
             (∀ y, y ∉ chainLeaves core x → leafAt core' y = leafAt core y) ∧
             (∀ y, leafAt core' y = { leafAt core y with data := (leafAt core' y).data }) ∧
             core' = { core with leaves := core'.leaves }) ∧
            (∀ u, u ≠ t → getThread s' u = getThread s u) ∧ s' = { s with threads := s'.threads, cores := s'.cores })) ∧
      (∀ add d a x m, e.op = .upd add d a x m → e.prog = 0 → e.snap = [] → e.vl ≤ 4096 →
        let y := th.v[d.val]
        let names (k j : Nat) : Bool := act m k && decide (streamElem (streamOf core th.v[a.val]) word 4 k = j)
        let put (u v : Nat) : Res :=
          if add = false then Res.plain v else if isFp ty then fpOp .add ty (vtRm e.vtype) u v 0 else intElem .add ty e.fill u v
        let last (j : Nat) : Nat × BitVec 7 := ((List.range e.vl).filter fun k => names k j).foldl
          (fun p k => let z := put p.1 (el x k); (z.bits % 2 ^ b, p.2 ||| z.flags)) (streamElem (streamOf core y) 0 sz j, 0)
        (chainLeaves core y).Nodup → exclOf core y = true → ((pieces core y).map fun p => p.2.2).sum = y.len →
        ∃ s' fl, exec i s = .next s' ∧
          (∀ n, n < 7 → (fl.getLsbD n = true ↔ ∃ j, (j + 1) * sz ≤ y.len ∧ (last j).2.getLsbD n = true)) ∧
          getThread s' t =
            { th with vq := { done e.gres with
                              prog := e.vl, flags := e.flags ||| fl, snap := if a = d ∨ x = d then [streamOf core y] else [] } :: r } ∧
          (let core' := getCore s' (clusterOf t) (coreOf t)
           (∀ j dflt, streamElem (streamOf core' y) dflt sz j =
             if (j + 1) * sz ≤ y.len then (last j).1 else streamElem (streamOf core y) dflt sz j) ∧
           (∀ u, u ∉ chainLeaves core y → leafAt core' u = leafAt core u) ∧
           (∀ u, leafAt core' u = { leafAt core u with data := (leafAt core' u).data }) ∧
           core' = { core with leaves := core'.leaves }) ∧
          (∀ u, u ≠ t → getThread s' u = getThread s u) ∧ s' = { s with threads := s'.threads, cores := s'.cores }) ∧
      (∀ f v (base stride : Word) idx m cls (R : Nat → Nat → Except FaultInfo Nat) (z : Nat), e.op = .store f v base stride idx m cls →
        th.out = [] → e.vl ≤ 4096 → e.prog ≤ z → z ≤ hi → Memory.wf s.mem = true →
        let n := if ty = 15 then 64 else sz
        let j (k : Nat) : Nat := if f = .indexed then streamElem (streamOf core th.v[idx.val]) word 4 k else 0
        let va (k q : Nat) : Word := elemAddr f base stride sz k (j k) + BitVec.ofNat 64 (q * n)
        let acc (k : Nat) : Bool := act m k && bit th.m[46] k && (decide (f ≠ .indexed) || decide (j k < e.xbound.toNat))
        let piece (k q pa : Nat) : Prop := k < e.vl ∧ acc k = true ∧ q < sz / n ∧ R k q = .ok pa
        let lead (k q : Nat) : Except FaultInfo Target := match R k q with
          | .error x => .error x
          | .ok pa => if aligned (va k q) (if ty = 15 then 64 else min sz 8) then .ok (.dev pa false)
            else .error (causeInfo 0x08 (va k q).toNat)
        let fault (k : Nat) : Option FaultInfo := worstFault ((upFrom 0 (sz / n)).map (lead k))
        (∀ mem lines laid, (∀ x, (∀ k q pa, piece k q pa → x < pa ∨ pa + n ≤ x) → memGet mem x = memGet s.mem x) →
          ∀ k q, k < e.vl → acc k = true → q < sz / n →
            resolve { s with mem := mem, poisonLines := lines, overlaid := laid } (partyOf s t) (va k q) n .store =
              match R k q with
              | .error x => .error x
              | .ok pa => .ok (.dev pa false)) →
        (∀ k q pa, piece k q pa → (∀ c ∈ s.queues, pa + n ≤ c.2.block ∨ c.2.block + 64 ≤ pa) ∧
          ∀ q' pa', piece k q' pa' → q' = q ∨ pa + n ≤ pa' ∨ pa' + n ≤ pa) →
        (∀ k, e.prog ≤ k → k < z → acc k = true → fault k = none) → (z < hi → acc z = true ∧ fault z ≠ none) →
        let covered (k x : Nat) : Prop := ∃ k' q pa, k < k' ∧ piece k' q pa ∧ pa ≤ x ∧ x < pa + n
        let wrote (k q pa y : Nat) : Prop := e.prog ≤ k ∧ k < z ∧ piece k q pa ∧ y < n ∧ ¬ covered k (pa + y)
        ∃ s' lines, exec i s = .next s' ∧
          getThread s' t = { th with vq := { e with
            prog := z, wrote := lines, finished := decide (z = e.vl), stalled := e.stalled && decide (z = hi) && decide (z < e.vl)
            fault := if z < hi then (fault z).map fun x => { x with elem := z, start := z } else none } :: r } ∧
          (∀ k q pa y, wrote k q pa y → memGet s'.mem (pa + y) = BitVec.ofNat 8 (el v k / 2 ^ (8 * (q * n + y)))) ∧
          (∀ x, (∀ k q pa y, wrote k q pa y → x ≠ pa + y) → memGet s'.mem x = memGet s.mem x) ∧
          (∀ u, u ≠ t → getThread s' u = getThread s u) ∧
          s' = { s with threads := s'.threads, mem := s'.mem, poisonLines := s'.poisonLines, overlaid := s'.overlaid }) ∧
      (∀ v (base : Word) idx m cls sys (pa : Nat → Nat), e.op = .stxa v base idx m cls sys → e.prog = 0 → th.out = [] →
        Memory.wf s.mem = true →
        let j (k : Nat) : Nat := streamElem (streamOf core th.v[idx.val]) word 4 k
        let acc (k : Nat) : Bool := act m k && bit th.m[46] k && decide (j k < e.xbound.toNat)
        (∀ k, acc k = true →
          accessTarget s (partyOf s t) (base + BitVec.ofNat 64 (j k * sz)) sz sz .both = .ok (.dev (pa k) false) ∧
          (∀ q ∈ s.queues, pa k + sz ≤ q.2.block ∨ q.2.block + 64 ≤ pa k) ∧
          ∀ n, acc n = true → j n = j k ∨ pa n + sz ≤ pa k ∨ pa k + sz ≤ pa n) →
        let plus := combine .sum ty (vtRm e.vtype)
        let merged (k : Nat) : Nat × BitVec 7 :=
          match (List.range e.vl).filter fun n => acc n && decide (j n = j k) with
          | [] => (0, 0)
          | n :: l => l.foldl (fun p n => let z := plus p.1 (el v n); (z.bits, p.2 ||| z.flags)) (el v n, 0)
        let home (k : Nat) : Res := plus (memRead s.mem (pa k) sz) (merged k).1
        ∃ s' fl, exec i s = .next s' ∧
          (∀ n, n < 7 → (fl.getLsbD n = true ↔ ∃ k, acc k = true ∧ ((merged k).2 ||| (home k).flags).getLsbD n = true)) ∧
          getThread s' t = { th with vq := { done e.gres with prog := e.vl, flags := e.flags ||| fl } :: r } ∧
          (∀ k, acc k = true → memRead s'.mem (pa k) sz = (home k).bits % 2 ^ b) ∧
          (∀ x, (∀ k, acc k = true → x < pa k ∨ pa k + sz ≤ x) → memGet s'.mem x = memGet s.mem x) ∧
          (∀ u, u ≠ t → getThread s' u = getThread s u) ∧
          s' = { s with threads := s'.threads, mem := s'.mem, poisonLines := s'.poisonLines, overlaid := s'.overlaid })) ∧
    (∀ d a, e.op = .desc d a →
      let x := th.v[a.val]
      GF (BitVec.ofNat 64 (if x.len = 0 then 2 ^ 54 else
        x.head + 2 ^ 13 * x.tail + 2 ^ 26 * x.len + 2 ^ 46 * x.skip + (if x.excl then 2 ^ 52 else 0) +
          (if x.part then 2 ^ 53 else 0))) 0) ∧
    (∀ a, e.op = .free a →
      let x := th.v[a.val]
      ∃ s', exec i s = .next s' ∧
        getThread s' t = { th with v := th.v.set a.val Desc.empty, vq := done e.gres :: r } ∧
        (let core' := getCore s' (clusterOf t) (coreOf t)
         (x.len = 0 → core' = core) ∧
         (x.len ≠ 0 → core'.reclaim = core.reclaim ++ [x.head] ∧
           leafAt core' x.head = { leafAt core x.head with refs := (leafAt core x.head).refs - 1 } ∧
           (∀ y, y ≠ x.head → leafAt core' y = leafAt core y) ∧
           core' = { core with leaves := core'.leaves, reclaim := core'.reclaim })) ∧
        (∀ u, u ≠ t → getThread s' u = getThread s u) ∧
        (∀ cl co, (cl, co) ≠ (clusterOf t, coreOf t) → getCore s' cl co = getCore s cl co) ∧
        s' = { s with threads := s'.threads, cores := s'.cores }) ∧
    (∀ md ma mb, e.op = .mask .and md ma mb → M md fun k => decide (k < e.vl) && (bit (src ma) k && bit (src mb) k)) ∧
    (∀ md ma mb, e.op = .mask .or md ma mb → M md fun k => decide (k < e.vl) && (bit (src ma) k || bit (src mb) k)) ∧
    (∀ md ma mb, e.op = .mask .xor md ma mb → M md fun k => decide (k < e.vl) && (bit (src ma) k ^^ bit (src mb) k)) ∧
    (∀ md ma mb, e.op = .mask .not md ma mb → M md fun k => decide (k < e.vl) && !bit (src ma) k) ∧
    (∀ md (lo n : Word), e.op = .mset md lo n → M md fun k => decide (lo.toNat ≤ k) && decide (k < lo.toNat + n.toNat)) ∧
    (∀ md (w at_ : Word), e.op = .stom md w at_ → M md fun k =>
      if k / 64 = at_.toNat % 64 then w.getLsbD (k % 64) else bit (src md) k) ∧
    (∀ n, e.op = .setM46 n → n ≤ 4096 → M 46 fun k => decide (k < n)) ∧
    (e.vl ≤ 4096 →
      (∀ d ma, e.op = .mpopc d ma → G (BitVec.ofNat 64 (count (src ma)))) ∧
      (∀ d ma k, e.op = .mfirst d ma → k < e.vl → bit (src ma) k = true → (∀ j, j < k → bit (src ma) j = false) →
        G (BitVec.ofNat 64 k)) ∧
      (∀ d ma, e.op = .mfirst d ma → (∀ j, j < e.vl → bit (src ma) j = false) → G (BitVec.allOnes 64)) ∧
      (∀ d ma (at_ : Word), e.op = .mtos d ma at_ → ∃ w, (∀ k, k < 64 → w.getLsbD k = bit (src ma) (64 * (at_.toNat % 64) + k)) ∧ G w))

/-- A finished entry completes in order: its chain, mask, flags and scalar result take their places. VECTOR_ENTRY_COMPLETE
of the oldest entry once it has finished (clmask apart, which also returns its power leave): an entry that builds a
chain gives it to its destination, PARTIAL clear and EXCL set just when every leaf has one holder, and releases the
chain the destination held and those a handler left there; a mask written element by element is cleared from VL on;
the flags are added to FFLAGS, VSTART becomes 0 outside a handler, VL that of a first-fault load, VCP grows by 1, a
scalar result goes to its place in the read queue, a value of PCARRY written for later entries comes into force once
no earlier entry is left, and the entry leaves the queue. An entry that has not finished stays. READ_QUEUE_RETURN
gives the oldest value that has come to its register and frees its place; a place without its value holds back those
behind it. Nothing else changes but the csrr in the read queue, which take the flags and, once due, their values.
(R58, R63, R71, R73, R87, R158, R161, R166, R264, R267, R268, R301) -/
def Obligations.VectorEntriesComplete : Prop :=
  ∀ (s : State),
    let t := s.ev.tid
    let th := getThread s t
    (∀ e r, th.vq = e :: r → th.tstate = .running →
      (e.finished = false → exec .vectorEntryComplete s = .next s) ∧
      (e.finished = true → (∀ md b q, e.op ≠ .clmask md b q) → (e.begun = false → buildsChain s t e = true → e.writes = true) →
        (r = [] ∨ ∀ q, th.carryNext.head? = some q → ∃ x ∈ r, x.stamp < q.1) →
        let core := getCore s (clusterOf t) (coreOf t)
        let builds := (e.begun = true ∨ buildsChain s t e = true) ∧ e.writes = true
        let single (d : Desc) : Bool := (chainLeaves core d).all fun x => decide ((leafAt core x).refs = 1)
        ∃ s', exec .vectorEntryComplete s = .next s' ∧ (∀ u, u ≠ t → getThread s' u = getThread s u) ∧
          s' = { s with threads := s'.threads, cores := s'.cores } ∧
          (∀ cl co, (cl, co) ≠ (clusterOf t, coreOf t) → getCore s' cl co = getCore s cl co) ∧
          getCore s' (clusterOf t) (coreOf t) =
            (match destOf e.op with
              | some d => if builds then e.extra.foldl release (release core (if e.begun then e.old else th.v[d.val])) else core
              | none => core) ∧
          (∀ (q : Fin 48) (k : Fin 4096), (getThread s' t).m[q].getLsbD k.val =
            (th.m[q].getLsbD k.val && match courseMask e.op with
              | some md => decide (md.val ≠ q.val ∨ q.val = 0 ∨ k.val < e.vl)
              | none => true)) ∧
          SameButCsr
            { th with
              v := (match destOf e.op with
                | some d =>
                  if builds then
                    th.v.set d.val (if e.part.len = 0 then Desc.empty
                      else { e.part with part := false, excl := if e.keepExcl then e.part.excl else single e.part })
                  else th.v
                | none => th.v)
              m := (getThread s' t).m, vl := if isFf e.op then e.vl else th.vl
              fflags := th.fflags ||| e.flags, vstart := if e.inHandler then th.vstart else 0, vcp := th.vcp + 1, vq := r
              pcarry := if r = [] then (match th.carryNext.getLast? with | some q => q.2 | none => th.pcarry) else th.pcarry
              carryNext := if r = [] then [] else th.carryNext
              rq := if gdestOf e.op = none then th.rq
                else th.rq.map fun x => if x.stamp = e.stamp then { x with val := some e.gres } else x }
            (getThread s' t))) ∧
    ∀ x r, th.rq = x :: r →
      (x.val = none → exec .readQueueReturn s = .next s) ∧
      (∀ w, x.val = some w → ∃ s', exec .readQueueReturn s = .next s' ∧ OthersKept t s s' ∧
        getThread s' t = { writeG th x.reg w with rq := r })

/-- A course stops at its lowest faulting element; faults are reported as the rules give, and stop the thread or enter its
handler. A course of a load, clmap, clmask or vstxa whose element z is the first to fault does what it would do with
VL z, and notes the fault with element and resumption index z; but a .ff load that faults above 0 has finished with VL
z. So does one of an elementwise result (or a load) that has no leaf for its element z: pool exhaustion, XINFO bit 0
set without a free leaf, or a wait for the walker. VECTOR_FAULT_REPORT of the oldest entry's fault: XCAUSE holds the
cause with VEC set, as R357 gives it where the examples of R273 and R302 have it clear, which is the model's choice
(log 19); 0x13 with INNER inside a handler; XPC the pc, XVPC the entry's address, XQPOS the entries queued, XELEM and
XINFO the fault's, VSTART the resumption index; the flags of the elements below are added, also for the csrr of FFLAGS
behind the entry. An entry that has begun a fresh chain leaves what it has built in its destination, PARTIAL and EXCL
set, or EMPTY; a clmask returns its leave. Where UFMASK routes the cause (pool exhaustion off an MCC, no progress,
breakpoint) and no handler runs, the thread enters its handler, which sets the queue, the values owed and, by the
model's choice (log 91), the accesses held back aside; else it stops, with the values that entries still owe marked.
Between A and B of a pair the entry waits while B can go on (log 52). SCALAR_FAULT_REPORT and DECODE_FAULT report an
event that waited, once no vector entry is left; no progress takes the strip entry with it. XRET is the pc, behind a
breakpoint the next parcel. Nothing else changes. (R58, R90, R113, R128, R148, R150, R207, R271, R275, R277, R356,
R357) -/
def Obligations.FaultsAreReported : Prop :=
  (∀ (s s1 : State) (e e1 : VEntry) (r : List VEntry) (i : Instr) (z : Nat),
    let t := s.ev.tid
    let th := getThread s t
    let core := getCore s (clusterOf t) (coreOf t)
    i = .vectorCourse ∨ (i = .leafAllocRetry ∧ e.stalled = true) →
    s.ev.k = 0 → th.vq = e :: r → th.tstate = .running → e.finished = false → e.fault = none → e.vl ≤ 4096 → illFormed e = false →
    th.out = [] → (∀ f, th.frozen = some f → f.out = []) → (∀ p ∈ core.leaves, p.2.poison = false ∧ p.2.hdrPoison = false) →
    e.prog ≤ z → z < e.vl →
    exec i (putThread s t { th with vq := { e with vl := z } :: r }) = .next s1 → (getThread s1 t).vq = e1 :: r → e1.finished = true →
    let sz := entrySize e
    let word := e.fill.toNat
    let chain (d a : Reg) : Desc := if e.begun = true ∧ a = d then e.old else th.v[a.val]
    let index (d a : Reg) (k : Nat) : Nat := streamElem (streamOf core (chain d a)) (word % 2 ^ 32) 4 k
    let act (m : MaskF) (k : Nat) : Bool := if m.val = 0 then true else if h : m.val < 48 then th.m[m.val].getLsbD k else false
    let course (size : Nat) : Prop := z < e.prog + max 1 (128 / size)
    let Is (e2 : VEntry) : Prop := ∃ s2, exec i s = .next s2 ∧ getThread s2 t = { getThread s1 t with vq := e2 :: r } ∧
      (∀ u, u ≠ t → getThread s2 u = getThread s1 u) ∧ s2 = { s1 with threads := s2.threads }
    let faults (x : FaultInfo) : VEntry := { e1 with vl := e.vl, finished := false, fault := some { x with elem := z, start := z } }
    let at_ (va : Word) (n al : Nat) (k : MKind) : Except FaultInfo Target := accessTarget s (partyOf s t) va n al k
    let loads (x : Except FaultInfo Target → Prop) : Prop := ∀ f d base stride idx m cls ff, e.op = .load f d base stride idx m cls ff →
      vtTy e.vtype ≠ 15 ∧ (f = .strided → stride ≠ 0) ∧
        let va := elemAddr f base stride sz z (if f = .indexed then index d idx z else 0)
        act m z = true ∧ th.m[46].getLsbD z = true ∧ (f = .indexed → index d idx z < e.xbound.toNat) ∧ bookmarkHides e.bk va = false ∧
        x (at_ va sz (min sz 8) .load)
    let isLoad := ∃ f d base stride idx m cls ff, e.op = .load f d base stride idx m cls ff
    (∀ x, isLoad → loads (fun y => y = .error x) → course sz → (isFf e.op = true ∧ 0 < z → Is e1) ∧ (isFf e.op = false ∨ z = 0 → Is (faults x))) ∧
    (∀ d a (base bound : Word) x, e.op = .clmap d a base bound → sz = 64 → course sz → index d a z < bound.toNat →
      let va := base + BitVec.ofNat 64 (index d a z * sz)
      foreignPad s (partyOf s t) va = false → at_ va 64 64 .load = .error x → Is (faults x)) ∧
    (∀ md (base q : Word) x, e.op = .clmask md base q → sz = 64 → course sz → th.leaveKinds.testBit 2 = true →
      let va := base + BitVec.ofNat 64 (z * sz)
      foreignPad s (partyOf s t) va = false → at_ va 64 64 .load = .error x → Is (faults x)) ∧
    (∀ v (base : Word) idx m cls sys x, e.op = .stxa v base idx m cls sys → act m z = true → th.m[46].getLsbD z = true →
      let j := streamElem (streamOf core th.v[idx.val]) (word % 2 ^ 32) 4 z
      j < e.xbound.toNat → at_ (base + BitVec.ofNat 64 (j * sz)) sz sz .both = .error x → Is (faults x)) ∧
    ((match e.op with
        | .int _ _ _ _ _ _ => True
        | .fp _ _ _ _ _ _ => True
        | .cvt _ _ _ _ _ => True
        | .scan _ _ _ _ _ _ => True
        | .slide _ _ _ _ _ => True
        | .perm _ _ _ _ => True
        | .bcast _ _ _ => True
        | .load _ _ _ _ _ _ _ _ => loads fun y => ∃ tg, y = .ok tg
        | _ => False) →
      course (resultSize e) → ∀ err, (∀ v, appendElem (getCore s1 (clusterOf t) (coreOf t)) (threadOf t) e.budget e1.part (resultSize e) v = .error err) →
      match err with
      | .exhausted b => Is (faults { cause := 0x04, elem := z, info := if b then 1 else 0, start := z })
      | .wait => Is { e1 with vl := e.vl, finished := false, stalled := true })) ∧
  ∀ s : State,
    let t := s.ev.tid
    let th := getThread s t
    let canon (w : Word) : Word := (w.setWidth 52).signExtend 64
    let routes (cause : Nat) : Prop := ((cause = 0x04 ∧ isMcc t = false) ∨ cause = 0x0A ∨ cause = 0x0E) ∧
      th.ufmask.getLsbD cause = true ∧ th.frozen = none
    let strip (cause : Nat) : List Strip := if cause = 0x0A then th.strip.filter fun x => decide (x.key ≠ th.pc) else th.strip
    let enter (y : Thread) (xret : Word) (held : List Access) : Thread :=
      let owed (x : RqItem) : Bool := x.val.isNone && y.vq.any fun e => decide (e.stamp ≤ x.stamp)
      { y with
        xret := xret
        frozen := some { vl := y.vl, vtype := y.vtype, maxvl := y.maxvl, clrec := y.clrec, m46 := y.m[46], vq := y.vq
                         rq := (y.rq.filter owed).map fun x => { x with froze := true }, out := held
                         carry := if y.carryNext = [] then none else some y.pcarry, carries := y.carryNext, wrote := false }
        vq := [], rq := y.rq.filter fun x => !owed x, out := y.out.filter fun a => !held.contains a
        pcarry := (match y.carryNext.getLast? with | some q => q.2 | none => y.pcarry)
        carryNext := [], pc := parcelAddr y.ufvec, wait := .none }
    th.tstate = .running →
    (∀ e r f, th.vq = e :: r → e.fault = some f → f.cause < 2 ^ 8 →
      let chain := e.begun = true ∧ isFresh e.op = true
      let told : Thread :=
        { th with
          v := (match destOf e.op with
            | some d => if chain then th.v.set d.val (if e.part.len = 0 then Desc.empty else { e.part with part := true, excl := true }) else th.v
            | none => th.v)
          vq := { e with fault := none, flags := 0, stalled := false, part := if destOf e.op ≠ none ∧ chain then Desc.empty else e.part } :: r
          fflags := th.fflags ||| e.flags, vstart := BitVec.ofNat 64 f.start
          rq := th.rq.map fun x => if x.csr = some 8 ∧ e.stamp < x.stamp then { x with base := x.base ||| e.flags } else x
          xcause := BitVec.ofNat 64 ((if th.frozen.isSome ∧ f.cause ≠ 0x13 then 0x13 + 2 ^ 8 * f.cause else f.cause) + 2 ^ 16)
          xpc := canon th.pc, xvpc := canon e.pc, xqpos := BitVec.ofNat 64 th.vq.length
          xelem := BitVec.ofNat 64 f.elem, xinfo := BitVec.ofNat 64 f.info, strip := strip f.cause, pend := none, pendDecode := false }
      let stops : Thread :=
        { told with
          rq := told.rq.map fun x => { x with froze := x.froze || (x.val.isNone && th.vq.any fun e => decide (e.stamp ≤ x.stamp)) }
          tstate := .stopped, wait := .none }
      let clmask := ∃ md b q, e.op = .clmask md b q
      let B (th' : Thread) : Prop := ∃ s', exec .vectorFaultReport s = .next s' ∧ getThread s' t = th' ∧
        (∀ u, u ≠ t → getThread s' u = getThread s u) ∧ (¬ clmask → OthersKept t s s') ∧
        (clmask → s' = { s with threads := s'.threads, clusters := s'.clusters } ∧
          (∀ cl, cl ≠ clusterOf t → getCluster s' cl = getCluster s cl) ∧
          getCluster s' (clusterOf t) =
            { getCluster s (clusterOf t) with
              held := (getCluster s (clusterOf t)).held.filter fun x => decide (x.1 ≠ .clmask t)
              waiting := (getCluster s (clusterOf t)).waiting.filter fun x => decide (x.1 ≠ .clmask t) })
      (¬ routes f.cause → B stops) ∧
      (routes f.cause →
        (th.pc.toNat % 4 ≠ 2 ∨ th.pend ≠ none ∨ th.wait ≠ .none ∨ instrAtB s t = none → B (enter told th.pc (heldBack s t))) ∧
        (th.pc.toNat % 4 = 2 → th.pend = none → th.wait = .none → ∀ i, instrAtB s t = some i →
          (halfBStuck s t i = false → exec .vectorFaultReport s = .next s) ∧
          (halfBStuck s t i = true → B (enter told th.pc (heldBack s t)))))) ∧
    ∀ f, th.pend = some f → f.elem = 0 →
      let i : Instr := if th.pendDecode then .decodeFault else .scalarFaultReport
      let told : Thread :=
        { th with
          xcause := BitVec.ofNat 64 f.cause, xpc := canon th.pc, xvpc := 0, xqpos := 0, xelem := 0, xinfo := BitVec.ofNat 64 f.info
          strip := strip f.cause, pend := none, pendDecode := false }
      (th.vq = [] → ¬ routes f.cause → ∃ s', exec i s = .next s' ∧ OthersKept t s s' ∧
        getThread s' t = { stoppedAt th f.cause f.info with strip := strip f.cause }) ∧
      (th.vq = [] → routes f.cause → ∃ s', exec i s = .next s' ∧ OthersKept t s s' ∧
        getThread s' t = enter told (if f.cause = 0x0E then parcelAddr th.pc + 4 else th.pc) []) ∧
      (th.vq ≠ [] → exec i s = .next s)

/-- Integer and rn30 element operations compute in their type, and elements convert between types: exact, clamped or
substituted. For each of the eight integer types and all element bits: sums, differences and products are the exact
value modulo the type's range, without a flag; the saturating sum and difference clamp to the range with saturation
and the exception bit just when they clamp; the quotient and remainder truncate with quotient times divisor plus
remainder the dividend, a zero divisor giving all ones and the dividend with divide by zero; minimum and maximum go by
the type's signedness; and, or and exclusive or act bit by bit, without a flag; shifts take the amount modulo the
width. A valid rn30 container has one value of the signed range with its three residues, and every number of the range
such a container. Under rn30 an invalid operand reads as FILL's low 32 bits, or 0, and sets the exception bit; sum,
differences and product are then valid, agree with the exact result modulo 1,069,550,592 and raise no flag, while and,
or and exclusive or act on the bits. A conversion from an integer or from rn30 to an integer type, also of the other
signedness (log 21), or to rn30 keeps the value or clamps it with saturation and the exception bit; rn30 to rn30 gives
the substituted container; both to a floating-point type round the value. A floating-point number becomes the rn30
value that the mode picks, inexact just when it differs, or the nearer edge; an infinity the edge of an integer type
or of rn30 with saturation, a NaN 0 with invalid; to a floating-point type an infinity stays, in e4m3 as the largest
value with saturation, and a NaN becomes the canonical one, with invalid when it signals. (R26, R27, R39, R40, R41,
R42, R43, R44, R45, R46, R169, R170) -/
def Obligations.IntegerElementResults : Prop :=
  (∀ ty x y : Nat, ty < 8 →
    let b := 8 * scalarSize ty
    let X := intVal ty x
    let Y := intVal ty y
    let lo : Int := if ty % 2 = 0 then -2 ^ (b - 1) else 0
    let hi : Int := if ty % 2 = 0 then 2 ^ (b - 1) - 1 else 2 ^ b - 1
    let V (o : IntOp) : Int := intVal ty (intOp o ty x y).bits
    let inType (v : Int) : Prop := lo ≤ v ∧ v ≤ hi
    let wraps (o : IntOp) (v : Int) : Prop :=
      inType (V o) ∧ (2 ^ b : Int) ∣ (V o - v) ∧ (intOp o ty x y).flags = 0 ∧ (intOp o ty x y).exc = false
    let clamps (o : IntOp) (v : Int) : Prop :=
      V o = (if v < lo then lo else if hi < v then hi else v) ∧
      (intOp o ty x y).flags = (if inType v then 0 else flagSat) ∧ (intOp o ty x y).exc = decide (¬ inType v)
    wraps .add (X + Y) ∧ wraps .sub (X - Y) ∧ wraps .rsub (Y - X) ∧ wraps .mul (X * Y) ∧ wraps .mulh (X * Y / 2 ^ b) ∧
    clamps .adds (X + Y) ∧ clamps .subs (X - Y) ∧
    (Y = 0 → (intOp .div ty x y).bits = 2 ^ b - 1 ∧ V .rem = X ∧
      (∀ o ∈ [IntOp.div, .rem], (intOp o ty x y).flags = flagDz ∧ (intOp o ty x y).exc = true)) ∧
    (Y ≠ 0 → ¬ (X = lo ∧ Y = -1) → V .div * Y + V .rem = X ∧ V .div = X.tdiv Y) ∧
    (Y ≠ 0 → X = lo → Y = -1 → V .div = lo ∧ V .rem = 0) ∧
    (Y ≠ 0 → ∀ o ∈ [IntOp.div, .rem], (intOp o ty x y).flags = 0 ∧ (intOp o ty x y).exc = false) ∧
    wraps .min (min X Y) ∧ wraps .max (max X Y) ∧
    (∀ o ∈ [IntOp.and, .or, .xor], (intOp o ty x y).flags = 0 ∧ (intOp o ty x y).exc = false ∧ ∀ i,
      (intOp o ty x y).bits.testBit i = (decide (i < b) && match o with
        | .and => x.testBit i && y.testBit i
        | .or => x.testBit i || y.testBit i
        | _ => x.testBit i ^^ y.testBit i)) ∧
    (let n := (y % 2 ^ b) % b
     wraps .shl (X * 2 ^ n) ∧ V .shr = X / 2 ^ n)) ∧
  let valid (v : Nat) : Prop := v / 2 ^ 30 = 0 ∧ v / 2 ^ 10 % 2 ^ 10 < 1023 ∧ v / 2 ^ 20 < 1021
  let low : Int := -534775296
  let high : Int := 534775295
  let holds (v : Nat) (i : Int) : Prop :=
    valid v ∧ low ≤ i ∧ i ≤ high ∧ i % 1024 = (v % 2 ^ 10 : Nat) ∧ i % 1023 = (v / 2 ^ 10 % 2 ^ 10 : Nat) ∧ i % 1021 = (v / 2 ^ 20 : Nat)
  (∀ v, valid v → holds v (rnValue v) ∧ ∀ i, holds v i → i = rnValue v) ∧
  (∀ i, low ≤ i → i ≤ high → holds (rnEncode i) i) ∧
  ∀ (fill : Word) (c : Nat → Nat) (x y : Nat), x < 2 ^ 32 → y < 2 ^ 32 →
    let word := fill.toNat % 2 ^ 32
    (∀ v, (valid v → c v = v) ∧ (¬ valid v → valid word → c v = word) ∧ (¬ valid v → ¬ valid word → c v = 0)) →
    let X := rnValue (c x)
    let Y := rnValue (c y)
    let modulo (o : IntOp) (v : Int) : Prop :=
      let z := intElem o 14 fill x y
      ∃ i, holds z.bits i ∧ (1069550592 : Int) ∣ (i - v) ∧ z.flags = 0 ∧ (z.exc = true ↔ ¬ valid x ∨ ¬ valid y)
    modulo .add (X + Y) ∧ modulo .sub (X - Y) ∧ modulo .rsub (Y - X) ∧ modulo .mul (X * Y) ∧
    (∀ o ∈ [IntOp.and, .or, .xor], (intElem o 14 fill x y).flags = 0 ∧ (intElem o 14 fill x y).exc = false ∧ ∀ i,
      (intElem o 14 fill x y).bits.testBit i = match o with
        | .and => x.testBit i && y.testBit i
        | .or => x.testBit i || y.testBit i
        | _ => x.testBit i ^^ y.testBit i) ∧
    ∀ dst rm : Nat, rm ≤ 4 →
      let b := 8 * scalarSize dst
      let lo : Int := if dst = 14 then low else if dst % 2 = 0 then -2 ^ (b - 1) else 0
      let hi : Int := if dst = 14 then high else if dst % 2 = 0 then 2 ^ (b - 1) - 1 else 2 ^ b - 1
      let is (v : Nat) (i : Int) : Prop := if dst = 14 then holds v i else intVal dst v = i
      let clamped (z : Res) (i : Int) (sub : Prop) : Prop :=
        is z.bits (if i < lo then lo else if hi < i then hi else i) ∧
        z.flags = (if lo ≤ i ∧ i ≤ hi then 0 else flagSat) ∧ (z.exc = true ↔ ¬ (lo ≤ i ∧ i ≤ hi) ∨ sub)
      (∀ src v, src < 8 →
        let z := convert src dst rm fill.toNat v
        (dst < 8 ∨ dst = 14 → clamped z (intVal src v) False) ∧ (8 ≤ dst → dst < 14 → z = intToFp dst rm (intVal src v))) ∧
      (let z := convert 14 dst rm fill.toNat x
       (dst < 8 → clamped z X (¬ valid x)) ∧
       (dst = 14 → z.bits = c x ∧ z.flags = 0 ∧ (z.exc = true ↔ ¬ valid x)) ∧
       (8 ≤ dst → dst < 14 → z.bits = (intToFp dst rm X).bits ∧ z.flags = (intToFp dst rm X).flags ∧
         (z.exc = true ↔ (intToFp dst rm X).exc = true ∨ ¬ valid x))) ∧
      ∀ src v, 8 ≤ src → src < 14 →
        let z := convert src dst rm fill.toNat v
        (∀ n m e, unpack (fmtOf src) v = .num n m e →
          (dst = 14 → ∃ i : Int, Rounds rm (fun q => ∃ j : Int, q = (j : Rat)) (num n m e) (i : Rat) (i % 2 = 0) ∧
            (lo ≤ i → i ≤ hi → is z.bits i ∧ z.flags = (if (i : Rat) = num n m e then 0 else flagInx) ∧ z.exc = false) ∧
            (i < lo ∨ hi < i → clamped z i False)) ∧
          (dst < 8 → z = fpToIntTy src dst rm v) ∧ (8 ≤ dst → dst < 14 → z = fpToFp src dst rm v)) ∧
        (∀ n, unpack (fmtOf src) v = .inf n →
          (dst < 8 ∨ dst = 14 → is z.bits (if n then lo else hi) ∧ z.flags = flagSat ∧ z.exc = true) ∧
          (8 ≤ dst → dst < 14 →
            z = if dst = 8 then { bits := (fmtOf dst).maxFin n, flags := flagSat, exc := true }
              else { bits := (fmtOf dst).inf n, flags := 0, exc := false })) ∧
        (∀ q, unpack (fmtOf src) v = .nan q →
          (dst < 8 ∨ dst = 14 → z = { bits := 0, flags := flagInv, exc := true }) ∧
          (8 ≤ dst → dst < 14 → z = { bits := (fmtOf dst).nan, flags := if q then flagInv else 0, exc := q }))

/-- A course of a result that builds a chain, element by element, and the leaves that its pool gives. VECTOR_COURSE (or
LEAF_ALLOC_RETRY, when it has stalled) of the oldest entry of a running thread, with leaves enough and no poison: its
register is EMPTY while the chain it held is kept for the merge; the elements of the course, 128 bytes or one element,
stand behind those that the chain under construction holds, in its last leaf and in new leaves, each held once and
charged to the thread; the progress, the flags and, for an .x form, the exception mask follow each element, and the
entry has finished with its last. An element is: of an arithmetic, conversion or permutation instruction what its rule
gives where the mask is set, else the old element or FILL; of vpress a selected one, in order; of a scan, floating or
not, the tree of R52 over the active elements up to there; of vtopk the index with that many elements ranked ahead of
it; of a load the bytes at its place, FILL for pads, beyond XBOUND and behind a bookmark, a stride of 0 reading once;
of clmap the map from memory or the map to D; of clcomp the maps composed in order with its status; of clscan and
clapply the running compositions and the entries at q; of vpack the next bytes of the stream; of a pattern what its
nodes, in order, make of the element where it runs, which also write the mask of its field and PCARRY, the latter for
the courses after. A memory entry leaves no value taken early of bytes that it may access (log 2). Other leaves,
registers and memory are as before. Appending an element of 1 to 64 bytes to an empty result: with a free leaf and
fewer leaves charged to the thread than its budget, the chain is that leaf alone, held once and charged to the thread,
with EXCL set and the element's bytes as its stream; at the budget with nothing to reclaim it is exhausted with XINFO
bit 0 clear, without a free leaf and nothing to reclaim with bit 0 set, and while the walker has chains left it waits.
(R52, R72, R73, R74, R76, R166, R176, R185, R204, R244, R274, R275) -/
def Obligations.ResultsAreBuiltInCourses : Prop :=
  (∀ (c : Core) (th : Fin 4) (budget n v : Nat), 0 < n → n ≤ 64 →
    (∀ x c', takeFree c = some (x, c') → lheld c th < budget →
      ∃ c'' d, appendElem c th budget Desc.empty n v = .ok (c'', d) ∧
        d = { part := false, excl := true, skip := 0, len := n, tail := x, head := x } ∧
        streamOf c'' d = { val := v % 2 ^ (8 * n), len := n, bad := [] } ∧ (leafAt c'' x).refs = 1 ∧ (leafAt c'' x).owner = th ∧
        exclOf c'' d = true ∧ (∀ y, y ≠ x → leafAt c'' y = leafAt c y)) ∧
    (∀ x c', takeFree c = some (x, c') → budget ≤ lheld c th → c.reclaim = [] →
      appendElem c th budget Desc.empty n v = .error (.exhausted false)) ∧
    (takeFree c = none → c.reclaim = [] → appendElem c th budget Desc.empty n v = .error (.exhausted true)) ∧
    ((takeFree c = none ∨ budget ≤ lheld c th) → c.reclaim ≠ [] → appendElem c th budget Desc.empty n v = .error .wait)) ∧
  ∀ (s : State) (e : VEntry) (r : List VEntry) (d : Reg) (i : Instr) (xs : List Nat) (c1 : Core),
    let t := s.ev.tid
    let th := getThread s t
    let core := getCore s (clusterOf t) (coreOf t)
    i = .vectorCourse ∨ (i = .leafAllocRetry ∧ e.stalled = true) →
    s.ev.k = 0 → th.vq = e :: r → th.tstate = .running → e.finished = false → e.fault = none → e.vl ≤ 4096 →
    illFormed e = false → patIllTyped s t e = false → destOf e.op = some d → th.out = [] →
    (∀ f, th.frozen = some f → f.out = []) → (∀ p ∈ core.leaves, p.2.poison = false ∧ p.2.hdrPoison = false) →
    Growing core e.part → FreeLeaves core xs c1 → xs.Nodup → (∀ y ∈ xs, y ∉ chainLeaves core e.part) →
    lheld core (threadOf t) + xs.length ≤ e.budget →
    let ty := vtTy e.vtype
    let rm := vtRm e.vtype
    let sz := entrySize e
    let b := 8 * sz
    let fill := fillFor e
    let word := e.fill.toNat
    let chain (a : Reg) : Desc := if e.begun = true ∧ a = d then e.old else th.v[a.val]
    let el (size dflt : Nat) (a : Reg) (k : Nat) : Nat := streamElem (streamOf core (chain a)) dflt size k
    let at_ (a : Reg) (k : Nat) : Nat := el sz fill a k
    let index (a : Reg) (k : Nat) : Nat := el 4 (word % 2 ^ 32) a k
    let bits (m : MaskF) : BitVec 4096 := if m.val = 0 then BitVec.allOnes 4096 else if h : m.val < 48 then th.m[m.val] else 0
    let act (m : MaskF) (k : Nat) : Bool := decide (k < e.vl) && (bits m).getLsbD k
    let acts (x : Bool) (m : MaskF) (k : Nat) : Bool := if x then decide (k < e.vl) else act m k
    let written (x : Bool) (m : MaskF) : Option MaskF := if x then some m else none
    let second (x : Src) (k : Nat) : Nat := match x with
      | .v q => at_ q k
      | .w w => w.toNat % 2 ^ b
      | .imm j => if ty = 14 then rnEncode j else ofSigned b j
    let merge (on : Nat → Bool) (f : Nat → Res) (k : Nat) : Res := if on k then f k else Res.plain (at_ d k)
    let B0 (post : Thread → Thread) (lo hi n size prog : Nat) (xm : Option MaskF) (snap : List Stream) (g : Word) (f : Nat → Res) : Prop :=
      lo ≤ n → e.part.len = lo * size →
      let room := if e.part.len = 0 then 0 else 63 - (leafAt core e.part.tail).len
      xs.length = ((hi - lo) * size - room + 63) / 64 →
      ∃ (s' : State) (part : Desc) (w : BitVec 4096), exec i s = .next s' ∧
        (∀ m k, xm = some m → k < 4096 → w.getLsbD k = if lo ≤ k ∧ k < hi then (f k).exc else (bits m).getLsbD k) ∧
        getThread s' t = post
          { th with
            v := if e.begun then th.v else th.v.set d.val Desc.empty
            early := if isMemory e.op then th.early.filter fun x => !mayTouch s t e x.tgt x.size else th.early
            m := (match xm with
              | some m => if h : m.val < 48 ∧ m.val ≠ 0 then th.m.set m.val w h.1 else th.m
              | none => th.m)
            vq := { e with
              begun := true, finished := decide (hi = n), stalled := false, old := chain d, prog := prog, part := part, snap := snap
              gres := g, flags := e.flags ||| (upFrom lo (hi - lo)).foldl (fun x k => x ||| (f k).flags) 0 } :: r } ∧
        (let core' := getCore s' (clusterOf t) (coreOf t)
         Growing core' part ∧ chainLeaves core' part = chainLeaves core e.part ++ xs ∧
         streamOf core' part =
           { val := (streamOf core e.part).val +
               ((upFrom lo (hi - lo)).map fun k => (f k).bits % 2 ^ (8 * size) * 2 ^ (8 * size * k)).sum
             len := hi * size, bad := [] } ∧
         (∀ y ∈ xs, ∃ data len last next, leafAt core' y =
           { freeLeaf with refs := 1, owner := threadOf t, data := data, len := len, last := last, next := next }) ∧
         (e.part.len ≠ 0 → ∃ data len last next, leafAt core' e.part.tail =
           { leafAt core e.part.tail with data := data, len := len, last := last, next := next }) ∧
         (∀ y, y ∉ xs → (y = e.part.tail → e.part.len = 0) → leafAt core' y = leafAt core y) ∧
         core' = { c1 with leaves := core'.leaves }) ∧
        (∀ u, u ≠ t → getThread s' u = getThread s u) ∧
        (∀ cl co, (cl, co) ≠ (clusterOf t, coreOf t) → getCore s' cl co = getCore s cl co) ∧
        s' = { s with threads := s'.threads, cores := s'.cores }
    let B := B0 id
    let R0 (post : Thread → Thread) (n size : Nat) (xm : Option MaskF) (snap : List Stream) (g : Word) (f : Nat → Res) : Prop :=
      let hi := min (e.prog + max 1 (128 / size)) n
      B0 post e.prog hi n size hi xm snap g f
    let R := R0 id
    let E (xm : Option MaskF) (f : Nat → Res) : Prop := R e.vl sz xm e.snap e.gres f
    let hi := min (e.prog + max 1 (128 / sz)) e.vl
    (∀ op a y m x, e.op = .int op d a y m x →
      E (written x m) (merge (acts x m) fun k => intElem op ty e.fill (at_ a k) (second y k))) ∧
    (∀ op a y m x, e.op = .fp op d a y m x →
      E (written x m) (merge (acts x m) fun k => fpOp op ty rm (at_ a k) (second y k) (if op = .fma then at_ d k else 0))) ∧
    (∀ a dst m x, e.op = .cvt d a dst m x →
      let sd := scalarSize dst
      let dflt := word % 2 ^ (8 * sd)
      R e.vl sd (written x m) e.snap e.gres fun k =>
        if acts x m k then
          if grouped e.vtype then groupedElem dst rm (at_ a k) (el 2 (word % 2 ^ 16) (a + 1) (k / blockSize (vtBlock e.vtype)))
          else convert ty dst rm word (at_ a k)
        else Res.plain (el sd dflt d k)) ∧
    (∀ mx a (g : Word) m x, e.op = .scan mx d a g m x →
      E (written x m) (fun k =>
        let top := pairTree (combine (if mx then .max else .sum) ty rm) (fun j => if decide (j ≤ k) && acts x m j then some (at_ a j) else none) 12 0
        match top.1 with
        | none => Res.plain (g.toNat % 2 ^ b)
        | some v => { bits := v, flags := if acts x m k then top.2.1 else 0, exc := acts x m k && top.2.2 }) ∧
      (ty < 8 → mx = false → x = false → E none fun k =>
        Res.plain (if (List.range (k + 1)).any (act m) then
          ((List.range (k + 1)).map fun j => if act m j then at_ a j else 0).sum % 2 ^ b else g.toNat % 2 ^ b))) ∧
    (∀ a (o : Word) m, e.op = .slide true d a o m →
      E none (merge (act m) fun k => Res.plain (if o.toNat ≤ k then at_ a (k - o.toNat) else fill))) ∧
    (∀ a (o : Word) m, e.op = .slide false d a o m → E none (merge (act m) fun k => Res.plain (at_ a (k + o.toNat)))) ∧
    (∀ a x m, e.op = .perm d a x m → E none (merge (act m) fun k => Res.plain (at_ a (index x k)))) ∧
    (∀ a m, e.op = .press d a m →
      let l := (List.range e.vl).filter (act m)
      R l.length sz none e.snap e.gres fun k => Res.plain (at_ a (l.getD k 0))) ∧
    (∀ m, e.op = .rank d m → E none (merge (act m) fun k => convert 5 ty rm word ((List.range k).countP (act m)))) ∧
    (∀ (w : Word) m, e.op = .bcast d w m → E none (merge (act m) fun _ => Res.plain (w.toNat % 2 ^ b))) ∧
    (∀ a (n : Word) m (above : Nat → Nat → Bool) (best : Nat → Nat), e.op = .topk d a n m →
      (∀ i j, above i j = true ↔
        if ty < 8 then intVal ty (at_ a j) < intVal ty (at_ a i) else
          let u := unpack (fmtOf ty) (at_ a i)
          let v := unpack (fmtOf ty) (at_ a j)
          let nan (z : FVal) : Prop := z = .nan true ∨ z = .nan false
          ¬ nan u ∧ (nan v ∨ Below v u ∨ (∃ x y, u = .num false 0 x ∧ v = .num true 0 y))) →
      (∀ i, act m i = true →
        best ((List.range e.vl).countP fun j => act m j && (above j i || (!above i j && decide (j < i)))) = i) →
      (∀ k, (List.range e.vl).countP (act m) ≤ k → best k = word % 2 ^ 32) → ty < 14 →
      R (min n.toNat 4096) 4 none e.snap e.gres fun k => Res.plain (best k)) ∧
    (∀ f (base stride : Word) idx m cls ff (tg : Nat → Nat → Target), e.op = .load f d base stride idx m cls ff →
      (f = .strided → stride ≠ 0 ∨ e.snap = []) →
      let piece := if ty = 15 then 64 else sz
      let j (k : Nat) : Nat := if f = .indexed then index idx k else 0
      let va (k : Nat) : Word := elemAddr f base stride sz k (j k)
      let got (k : Nat) : Bool := th.m[46].getLsbD k && (decide (f ≠ .indexed) || decide (j k < e.xbound.toNat)) && !bookmarkHides e.bk (va k)
      (∀ k q, e.prog ≤ k → (k < hi ∨ (f = .strided ∧ stride = 0)) → act m k = true → got k = true → q < sz / piece → (∀ c, tg k q ≠ .violation c) ∧
        accessTarget s (partyOf s t) (va k + BitVec.ofNat 64 (q * piece)) piece (if ty = 15 then 64 else min sz 8) .load = .ok (tg k q)) →
      let value (k : Nat) : Nat := if got k then (upFrom 0 (sz / piece)).foldr (fun q r => tgtRead s (tg k q) piece + 2 ^ (8 * piece) * r) 0
        else fill
      let first := (upFrom e.prog (e.vl - e.prog)).find? fun k => act m k && th.m[46].getLsbD k
      (f ≠ .strided ∨ stride ≠ 0 → E none (merge (act m) fun k => Res.plain (value k))) ∧
      (f = .strided → stride = 0 → ∀ k, first = some k → R e.vl sz none
        [{ val := value k, len := 0, bad := [] }, { val := 0, len := 0, bad := [] }] e.gres
        (merge (act m) fun q => Res.plain (if th.m[46].getLsbD q then value k else fill))) ∧
      (f = .strided → stride = 0 → first = none → E none (merge (act m) fun _ => Res.plain fill))) ∧
    (∀ a (base bound : Word) (tg : Nat → Nat → Target), e.op = .clmap d a base bound →
      (∀ k q, e.prog ≤ k → k < hi → index a k < bound.toNat → q < sz / 64 → (∀ c, tg k q ≠ .violation c) ∧
        let va := base + BitVec.ofNat 64 (index a k * sz) + BitVec.ofNat 64 (q * 64)
        foreignPad s (partyOf s t) va = false ∧ accessTarget s (partyOf s t) va 64 64 .load = .ok (tg k q)) →
      E none fun k => Res.plain (if bound.toNat ≤ index a k then allD e.clrec
        else normMap e.clrec ((upFrom 0 (sz / 64)).foldr (fun q r => tgtRead s (tg k q) 64 + 2 ^ 512 * r) 0))) ∧
    (clWellFormed e.clrec = true →
      let upTo (a : Reg) (n q : Nat) : Nat := (List.range n).foldl (fun x k => mapByte e.clrec (at_ a k) x) q
      (∀ a g, e.op = .clcomp d a g → e.prog = 0 →
        let F := upTo a e.vl
        let const := ∀ q, q < clS e.clrec → F q = F 0
        ∃ w : Word, (w.getLsbD 0 = true ↔ const) ∧ (const → w.toNat / 2 ^ 8 % 2 ^ 8 = F 0) ∧
          (w.getLsbD 1 = true ↔ clDv e.clrec = true ∧ const ∧ F 0 = clD e.clrec) ∧
          R 1 sz none e.snap w fun _ => Res.plain (mkMap e.clrec F)) ∧
      (∀ a, e.op = .clscan d a → E none fun k => Res.plain (mkMap e.clrec (upTo a (k + 1)))) ∧
      (∀ a (q : Word), e.op = .clapply d a q → R e.vl 1 none e.snap e.gres fun k =>
        Res.plain (if q.toNat % 512 < clS e.clrec then mapByte e.clrec (at_ a k) (q.toNat % 512)
          else if clDv e.clrec = true then clD e.clrec else 0))) ∧
    (∀ a, e.op = .pack d a →
      let x := streamOf core (chain a)
      let unit := if vtIll e.vtype then 1 else sz
      let lo := e.part.len
      let to_ := min (lo + max 64 unit) x.len
      if lo < x.len then B lo to_ x.len 1 (to_ / unit) none e.snap e.gres fun k => Res.plain (x.val / 2 ^ (8 * k))
      else B lo lo lo 1 e.prog none e.snap e.gres fun _ => Res.plain 0) ∧
    (∀ (a x : Reg) (m : MaskF) (n : Fin 32) (p0 p1 : Word) bd, e.op = .pat d a x m n p0 p1 →
      bindingOf (getCtx s th.ctx) n.val = some bd → patBad core bd = false → patWrites (patWords core bd) 8 = true →
      e.prog % max 1 (128 / sz) = 0 → e.prog < e.vl →
      let ws := patWords core bd
      let mask : BitVec 4096 := match e.snap with
        | q :: _ => BitVec.ofNat 4096 q.val
        | [] => bits m
      let runs (k : Nat) : Bool := patWrites ws 9 || mask.getLsbD k
      let made (k : Nat) : PatOut := runUops
        { i := k, o := [at_ a k, at_ x k, at_ 28 k, at_ 29 k], p := [p0.toNat, p1.toNat], carry := th.pcarry.toNat
          bit := mask.getLsbD k, fill := word, ty := ty, rm := rm } ws PatOut.start
      let carries := ((upFrom e.prog (hi - e.prog)).filter runs).filterMap fun k => (made k).carry
      let post (y : Thread) : Thread :=
        { y with
          pcarry := (match carries.getLast? with | some v => BitVec.ofNat 64 v | none => y.pcarry)
          m := if h : (patWrites ws 9 = true ∧ hi = e.vl) ∧ m.val ≠ 0 ∧ m.val < 48 then
              y.m.set m.val (y.m[m.val]'h.2.2 &&& BitVec.ofNat 4096 (2 ^ e.vl - 1)) h.2.2 else y.m }
      R0 post e.vl sz (if patWrites ws 9 then some m else none) [{ val := mask.toNat, len := 0, bad := [] }] e.gres
        (merge runs fun k => { bits := (made k).elem.getD 0, flags := (made k).flags, exc := (made k).mbit.getD false })) ∧
    (∀ x w r st, uCode w ≠ 0 → runUops x (w :: r) st = runUops x r (runUops x [w, 0] st)) ∧
    (∀ (x : PatIn) (w : Nat), x.ty < 8 → uCode w = 1 → uDst w = 8 → uA w = 0 → uB w = 1 → uType w = 15 →
      (runUops x [w, 0] PatOut.start).elem = some ((x.o.getD 0 0 + x.o.getD 1 0) % 2 ^ (8 * scalarSize x.ty)))

/-- Usilaem's register writes change the named register of the named thread and nothing else. For the thread that the
event names: LBUD_WRITE takes at most the header's budget, the value cut to 14 bits first (log 69); FFLAGS_WRITE and
VSTART_WRITE act once no vector instruction is queued, for FFLAGS also no access left, and no csrr of the CSR waits
(log 5); CLMODE_WRITE keeps the writable bits; PREQ_WRITE of 1 sets PREQ while the core or the MCC has a launch, and
is dropped else (log 95); TSWP_WRITE clears the named TSW bits of an MCC's cluster; REGISTER_WRITE sets CTX, IMG or
the writable bits of the kernel thread's CSR that it names (of a read-only one nothing, of a vector core's on an MCC
nothing), and of COORD the device's position (log 72). Nothing else changes. Before the boot has ended none of them
does anything, since neither code on the device nor a host is there to write then (deduced from R376 and R387, log
94). (R5, R17, R58, R82, R86, R87, R155, R156, R240, R242, R349, R362) -/
def Obligations.ControlSpaceWrites : Prop :=
  ∀ s : State,
    let t := s.ev.tid
    let w := s.ev.word
    let th := getThread s t
    let c := getCluster s (clusterOf t)
    let B (i : Instr) (th' : Thread) : Prop := ∃ s', exec i s = .next s' ∧ getThread s' t = th' ∧ OthersKept t s s'
    let free (n : Nat) : Prop := th.vq = [] ∧ ∀ x ∈ th.rq, x.val = none → x.csr ≠ some n
    let busy := if isMcc t then th.launch ≠ none else (getCore s (clusterOf t) (coreOf t)).launch ≠ none
    (s.root.boot ≠ .running →
      ∀ i ∈ [Instr.lbudWrite, .fflagsWrite, .vstartWrite, .clmodeWrite, .preqWrite, .tswpWrite, .registerWrite], exec i s = .next s) ∧
    (s.root.boot = .running →
    B .lbudWrite { th with lbud := min (w.toNat % 2 ^ 14) th.hdrLbud } ∧
    (free 8 → th.out = [] → B .fflagsWrite { th with fflags := w.setWidth 7 }) ∧ (free 2 → B .vstartWrite { th with vstart := w }) ∧
    (¬ free 8 ∨ th.out ≠ [] → exec .fflagsWrite s = .next s) ∧ (¬ free 2 → exec .vstartWrite s = .next s) ∧
    (s.ev.n = 0x012 → exec .registerWrite s = .next { s with devPos := w.toNat / 2 ^ 11 % 2 ^ 8 }) ∧
    B .clmodeWrite { th with clmode := w.toNat % 2 ^ 19 } ∧
    (busy → B .preqWrite { th with preq := th.preq || w.getLsbD 0 }) ∧ (¬ busy → exec .preqWrite s = .next s) ∧
    (isMcc t = true → ∃ s', exec .tswpWrite s = .next s' ∧ s' = { s with clusters := s'.clusters } ∧
      getCluster s' (clusterOf t) = { c with tsw := c.tsw &&& ~~~(w.setWidth 8) } ∧
      ∀ k, k ≠ clusterOf t → getCluster s' k = getCluster s k) ∧
    (isMcc t = false → exec .tswpWrite s = .next s) ∧
    (s.ev.n = 0x800 → B .registerWrite { th with ctx := Fin.ofNat 4096 w.toNat }) ∧
    (s.ev.n = 0x803 → B .registerWrite { th with img := w }) ∧
    (let both : List (Nat × Thread) :=
       [(0x002, { th with vstart := w }), (0x004, { th with fill := w }), (0x008, { th with fflags := w.setWidth 7 }),
        (0x009, { th with frm := w.setWidth 3 }), (0x014, { th with ufvec := w &&& ~~~3 }), (0x015, { th with ufmask := w &&& 0x4410 }),
        (0x016, { th with xcause := w &&& 0x1FFFF }), (0x017, { th with xpc := w }), (0x018, { th with xvpc := w }),
        (0x019, { th with xqpos := w &&& 0x7F }), (0x01A, { th with xelem := w }), (0x01B, { th with xinfo := w }),
        (0x01C, { th with xret := w }), (0x00C, th), (0x00D, th), (0x00E, th), (0x00F, th), (0x011, th), (0x013, th), (0x01F, th)]
     let vector : List (Nat × Thread) :=
       [(0x005, { th with lbud := min (w.toNat % 2 ^ 14) th.hdrLbud }), (0x007, { th with xbound := w }),
        (0x00B, { th with clmode := w.toNat % 2 ^ 19 }), (0x000, th), (0x001, th), (0x003, th), (0x006, th), (0x010, th), (0x01D, th),
        (0x01E, th),
        (0x00A, { th with
          pcarry := w
          frozen := th.frozen.map fun f =>
            { f with carry := some (match f.carry with | some c => c | none => th.pcarry), wrote := true } })]
     (∀ p ∈ both, p.1 = s.ev.n → B .registerWrite p.2) ∧
     ∀ p ∈ vector, p.1 = s.ev.n → B .registerWrite (if isMcc t then th else p.2)))

/-- A waiting thread goes on when what it waits for has come about. YIELD_END and FF_STALL_END (once no first-fault load
is queued) let the thread issue again; EXIT_PERFORM ends the iteration of a drained thread; XRET_RESUME leaves the
handler of a drained thread, with the PCARRY that R87 gives and the accesses set aside outstanding again (log 91);
BARRIER_PHASE_COMPLETE lets all threads that wait and have arrived past their bar (named by their iteration, log 58);
LEAVE_GRANT gives the first waiting request its units when they are free, or, above the whole budget, when no other
party holds any, and its thread goes on past leave; CAS_PRIORITY_EXPIRY takes the thread off its address's list;
POWER_BUDGET_SET and POWCAP_SET set the cluster's budget (at most 16) and cap (1 to 4,096). That the end of a
barrier's phase drops the values taken early is the model's way to order loads behind it (log 2). (R87, R144, R151,
R152, R153, R154, R259, R266, R281, R282) -/
def Obligations.WaitsOfAThreadEnd : Prop :=
  ∀ s : State,
    let t := s.ev.tid
    let th := getThread s t
    let cl := clusterOf t
    let B (i : Instr) (th' : Thread) : Prop := ∃ s', exec i s = .next s' ∧ getThread s' t = th' ∧ OthersKept t s s'
    let K (i : Instr) (c : Cluster) : Prop := ∃ s', exec i s = .next s' ∧ s' = { s with clusters := s'.clusters } ∧
      getCluster s' s.ev.cl = c ∧ ∀ k, k ≠ s.ev.cl → getCluster s' k = getCluster s k
    (th.wait = .yield → B .yieldEnd { th with wait := .none }) ∧
    (th.wait = .firstFault → ffPending th = false → B .ffStallEnd { th with wait := .none }) ∧
    (th.wait = .firstFault → ffPending th = true → exec .ffStallEnd s = .next s) ∧
    (th.wait = .exit → th.tstate = .running → exitDrained s t = true → ∃ s', exec .exitPerform s = .next s' ∧ BytesKept s s' ∧
      getThread s' t = { Thread.reset with ctx := th.ctx, img := th.img, preq := (getThread s' t).preq }) ∧
    (∀ f, th.frozen = some f → f.vq = [] → th.wait = .xret → th.tstate = .running → th.vq = [] → th.rq = [] →
      B .xretResume
        { th with vl := f.vl, vtype := f.vtype, maxvl := f.maxvl, clrec := f.clrec, m := th.m.set 46 f.m46, rq := f.rq, vq := [], out := f.out.map (retarget s t) ++ th.out
                  frozen := none, pc := th.xret, wait := .none, carryNext := []
                  pcarry := (match f.carry with
                    | none => (match th.carryNext.getLast? with | some q => q.2 | none => th.pcarry)
                    | some w => if f.wrote then th.pcarry else match f.carries.getLast? with | some q => q.2 | none => w) }) ∧
    (∀ n : Fin 16, s.ev.n = n.val →
      let arrived := mapGet [] (getCluster s cl).bars (th.launch.getD 0 * 16 + n.val)
      let count := barrierCount (launchOf s th) n.val
      let name (u : Tid) : Nat := if isMcc u then 0 else 8 * (getThread s u).serial + (getThread s u).stage + 1
      let counted (u : Tid) : Prop := u ∈ clusterTids cl ∧ (getThread s u).launch = th.launch ∧
        (getThread s u).wait = .barrier n ∧ name u ∈ arrived
      (count = 0 ∨ arrived.length < count → exec .barrierPhaseComplete s = .next s) ∧
      (0 < count → count ≤ arrived.length →
        ∃ s', exec .barrierPhaseComplete s = .next s' ∧
          (∀ u, counted u → getThread s' u = { getThread s u with wait := .none, early := [], pc := (getThread s u).pc + 4 }) ∧
          (∀ u, ¬ counted u → getThread s' u = getThread s u) ∧ s' = { s with threads := s'.threads, clusters := s'.clusters })) ∧
    (∀ u n r k, let c := getCluster s s.ev.cl
      c.waiting = (.thread u, n) :: r →
      ((c.held.map fun x => x.2).sum + n ≤ c.budget ∨ (c.budget < n ∧ ∀ x ∈ c.held, partyOwner x.1 = partyOwner (.thread u))) → (getThread s u).wait = .leave k →
      ∃ s', exec .leaveGrant s = .next s' ∧ getCluster s' s.ev.cl = { c with held := c.held ++ [(.thread u, n)], waiting := r } ∧
        getThread s' u = { getThread s u with wait := .none, leaveKinds := k, pc := (getThread s u).pc + 4 } ∧
        s' = { s with threads := s'.threads, clusters := s'.clusters }) ∧
    (s.casLists.Pairwise (fun p q => p.1 < q.1) → ∃ s', exec .casPriorityExpiry s = .next s' ∧
      s' = { s with casLists := s'.casLists } ∧
      ∀ k, mapGet [] s'.casLists k =
        if k = s.ev.k then (mapGet [] s.casLists k).filter (fun x => decide (x ≠ t)) else mapGet [] s.casLists k) ∧
    K .powerBudgetSet { getCluster s s.ev.cl with budget := min s.ev.n 16 } ∧
    K .powcapSet { getCluster s s.ev.cl with powcap := max 1 (min s.ev.n 4096) }

/-- The reclaim walker, a row of each copy, pattern loads, and vector instructions on slots and whole chains. RECLAIM_STEP
frees up to 4 leaves of the chain at the head of the reclaim queue: a leaf that nothing holds, its successor, once
held less, when nothing else holds that, and so on to the chain's end; the fifth waits at the head. That a freed leaf
goes to the end of the free list is the model's choice (log 8). VECTOR_COURSE of the oldest entry: ttgt makes an EMPTY
slot a TARGET and faults at any other; twait and tget go on at a FILLED slot, tget taking its chain, and wait at a
TARGET; tbind binds a share of a chain with VL, type and owner, of a grouped operand also one of its scale chain,
which must not be empty; tfree empties a slot that is EMPTY or FILLED at once, also while entries name it (the model's
reading, log 42), and one that is BOUND or TARGET once no tile queue entry of its launch names it; vshare holds the
chain once more; vtrim and vsplit give the bytes of their part of the stream, vsplit the rest to va; vcat gives both
streams joined, in place or on copies of the first one's leaves, with an EMPTY operand a share of the other chain, and
faults above 2^20 - 1 bytes; a copy joins its queue, with a share of its index chain, and waits while that holds 16
(deduced from R363, log 109). COPY_ROW of a row in linear order that fits in its pages writes, of cpy the source row's
bytes, of cpyg the table row's that its index names, or the fill byte at or beyond the bound, of cpys its row to the
table row named, but for the bytes that a later row writes, dropped beyond the bound (which pitch is the table's: log
26), of cpyf the fill byte, and no other byte; the next row is then due, and after the last the copy leaves its queue,
with its leave and its share of the index chain. PATTERN_LOAD_BIND binds the verified block of a thread that has
stopped at pattern absent, and the thread runs again. (R70, R75, R195, R196, R198, R199, R216, R220, R222, R223, R225,
R366) -/
def Obligations.CoreUnitsAtWork : Prop :=
  (∀ (s : State) (x : Nat) (l : Leaf) (r : List Nat),
    let c := getCore s s.ev.cl s.ev.co
    c.reclaim = x :: r → mapFind c.leaves x = some l →
    let R (c' : Core) : Prop := ∃ s', exec .reclaimStep s = .next s' ∧ getCore s' s.ev.cl s.ev.co = c' ∧
      s' = { s with cores := s'.cores } ∧ ∀ cl co, (cl, co) ≠ (s.ev.cl, s.ev.co) → getCore s' cl co = getCore s cl co
    (l.refs = 0 → l.last = true →
      R { c with reclaim := r, leaves := mapDel c.leaves x, freed := if x ∈ c.retired then c.freed else c.freed ++ [x] }) ∧
    (l.refs ≠ 0 → R { c with reclaim := r }) ∧
    ∀ (xs : List Nat) (q : Nat) (l : Leaf), c.leaves.Pairwise (fun p q => p.1 < q.1) → xs.length ≤ 4 → xs.Nodup → xs.head? = some x →
      xs.getLast? = some q → mapFind c.leaves q = some l →
      (∀ y ∈ xs, ∃ m, mapFind c.leaves y = some m ∧ m.refs = if y = x then 0 else 1) →
      (∀ i y z, xs[i]? = some y → xs[i + 1]? = some z →
        (leafAt c y).last = false ∧ (leafAt c y).hdrPoison = false ∧ (leafAt c y).next = z) →
      let gone (more : List Nat) (f : Nat → Option Leaf) : Prop := ∃ c', R c' ∧
        c' = { c with reclaim := more, leaves := c'.leaves, freed := c.freed ++ xs.filter fun y => !c.retired.contains y } ∧
        ∀ y, mapFind c'.leaves y = if y ∈ xs then none else f y
      (l.last = true ∨ l.hdrPoison = true → gone r (mapFind c.leaves)) ∧
      ∀ m, l.last = false → l.hdrPoison = false → l.next ∉ xs → mapFind c.leaves l.next = some m →
        let fewer (y : Nat) : Option Leaf := if y = l.next then some { m with refs := m.refs - 1 } else mapFind c.leaves y
        (xs.length = 4 → gone (l.next :: r) fewer) ∧ (xs.length < 4 → 1 < m.refs → gone r fewer)) ∧
  (∀ (s : State) (x : Copy) (r : List Copy) (q : Fin 4) (src dst : Target) (later : Nat → Target), MemoriesOk s →
    let c := getCore s s.ev.cl s.ev.co
    let cl := getCluster s s.ev.cl
    let th := getThread s (.vec s.ev.cl s.ev.co x.owner)
    let o := x.op
    let rows := o.shape.toNat % 2 ^ 16
    let w := o.shape.toNat / 2 ^ 16 % 2 ^ 16
    let p : Party := { ctx := x.ctx, cl := s.ev.cl, co := s.ev.co, launch := some x.launch }
    let base := (getCtx s x.ctx).spbase.toNat
    s.ev.n = q.val → c.cqs[q] = x :: r → o.shape.toNat / 2 ^ 32 = 0 → x.row < rows → 0 < w → o.ctr = none →
    (x.row = 0 → (∀ a ∈ allAccesses th, a.stamp < x.stamp → a.cls ≠ o.cls) ∧
      ∀ e ∈ th.vq ++ frozenMem th, isMemory e.op = true → e.finished = false → e.stamp < x.stamp → classOf e.op ≠ o.cls) → rows * w ≤ 4096 ∨ th.leaveKinds.testBit 1 = true →
    (∀ l ∈ c.leaves, l.2.poison = false ∧ l.2.hdrPoison = false) →
    let index (k : Nat) : Nat := streamElem (streamOf c x.idx) (x.fillw.toNat % 2 ^ 32) 4 k
    let beyond (k : Nat) : Prop := (o.kind = .cpyg ∨ o.kind = .cpys) ∧ o.bound.toNat ≤ index k
    let drops := o.kind = .cpys ∧ beyond x.row
    let place (at_ : Word) (pitch k : Nat) (table : Bool) : Word := at_ + BitVec.ofNat 64 ((if table then index k else k) * pitch)
    let sa := place o.src (o.pitch.toNat / 2 ^ 32) x.row (decide (o.kind = .cpyg))
    let da (k : Nat) : Word := place o.dst (o.pitch.toNat % 2 ^ 32) k (decide (o.kind = .cpys))
    let fits (va : Word) : Prop := va.toNat % 4096 + w ≤ 4096 ∧
      (va.toNat < base ∨ base + 2 ^ 23 ≤ va.toNat ∨ (va.toNat - base) % 2 ^ 20 + w ≤ 2 ^ 20)
    let good (y : Target) : Prop := ∀ n, y ≠ .violation n
    (o.kind ≠ .cpyf → ¬ beyond x.row → fits sa ∧ good src ∧ resolve s p sa w .load = .ok src ∧ tgtPoison s src w = false) →
    (¬ drops → fits (da x.row) ∧ good dst ∧ resolve s p (da x.row) w .store = .ok dst ∧ serialCheck s x.ctx dst (da x.row) w = none ∧
      ∀ pa ser, dst = .dev pa ser → ∀ q ∈ s.queues, pa + w ≤ q.2.block ∨ q.2.block + 64 ≤ pa) →
    (∀ k, o.kind = .cpys → x.row < k → k < rows → ¬ beyond k → fits (da k) ∧ resolve s p (da k) w .store = .ok (later k)) →
    let written (i : Nat) : Prop := i < w ∧ ¬ drops ∧
      (o.kind = .cpys → ∀ k, x.row < k → k < rows → ¬ beyond k → touches (tgtAdd dst i) 1 (later k) w = false)
    let last := x.row + 1 = rows
    let c' : Core := { c with cqs := c.cqs.set q.val (if last then r else { x with row := x.row + 1 } :: r) }
    ∃ s', exec .copyRow s = .next s' ∧
      (∀ i, written i →
        (o.kind = .cpyf ∨ beyond x.row → tgtRead s' (tgtAdd dst i) 1 = o.fill.toNat) ∧
        (o.kind ≠ .cpyf → ¬ beyond x.row → tgtRead s' (tgtAdd dst i) 1 = tgtRead s src w / 2 ^ (8 * i) % 2 ^ 8)) ∧
      (∀ y, (∀ i, written i → touches y 1 (tgtAdd dst i) 1 = false) → tgtRead s' y 1 = tgtRead s y 1) ∧
      getCore s' s.ev.cl s.ev.co = (if last then release c' x.idx else c') ∧
      (∀ k j, (k, j) ≠ (s.ev.cl, s.ev.co) → getCore s' k j = getCore s k j) ∧
      getCluster s' s.ev.cl =
        (if last then
          { cl with held := cl.held.filter fun y => decide (y.1 ≠ .copy s.ev.co q x.owner)
                    waiting := cl.waiting.filter fun y => decide (y.1 ≠ .copy s.ev.co q x.owner) }
        else cl) ∧
      (∀ k, k ≠ s.ev.cl → getCluster s' k = getCluster s k) ∧
      s' = { s with mem := s'.mem, spad := s'.spad, peer := s'.peer, cores := s'.cores, clusters := s'.clusters
                    poisonLines := s'.poisonLines, poisonSpad := s'.poisonSpad, overlaid := s'.overlaid }) ∧
  (∀ (s : State) (e : VEntry) (r : List VEntry),
    let t := s.ev.tid
    let th := getThread s t
    let core := getCore s (clusterOf t) (coreOf t)
    s.ev.k = 0 → th.vq = e :: r → th.tstate = .running → e.finished = false → e.fault = none → e.begun = false → illFormed e = false →
    (∀ p ∈ core.leaves, p.2.poison = false ∧ p.2.hdrPoison = false) →
    let E (th' : Thread) (P : Core → Prop) : Prop := ∃ s', exec .vectorCourse s = .next s' ∧ getThread s' t = th' ∧
      P (getCore s' (clusterOf t) (coreOf t)) ∧ (∀ u, u ≠ t → getThread s' u = getThread s u) ∧
      (∀ cl co, (cl, co) ≠ (clusterOf t, coreOf t) → getCore s' cl co = getCore s cl co) ∧
      s' = { s with threads := s'.threads, cores := s'.cores }
    let done : VEntry := { e with finished := true, stalled := false }
    let head (e' : VEntry) : Thread := { th with vq := e' :: r }
    let wait : Thread := head { e with stalled := true }
    let slot (k : Fin 16) : Slot := core.slots[k]
    let slots (k : Fin 16) (x : Slot) (c' : Core) : Prop := c' = { core with slots := c'.slots } ∧ c'.slots[k] = x ∧
      ∀ j, j ≠ k → c'.slots[j] = core.slots[j]
    let fault (k : Fin 16) : Thread := head { e with
      stalled := false
      fault := some { cause := 0x10, elem := 0, start := 0, info := (coreOf t).val * 2 ^ 6 + k.val + 2 ^ 4 * (match (slot k).st with
        | .empty => 0 | .bound => 1 | .target => 2 | .filled => 3) } }
    let makes (part old : Desc) (keep : Bool) : VEntry :=
      { done with begun := true, part := part, old := old, writes := true, keepExcl := keep }
    let held (x : Nat) (c' : Core) : Prop := leafAt c' x = { leafAt core x with refs := (leafAt core x).refs + 1 } ∧
      ∀ y, y ≠ x → leafAt c' y = leafAt core y
    let bytes (c' : Core) (d : Desc) (st : Stream) (at_ n : Nat) : Prop :=
      streamOf c' d = { val := st.val / 2 ^ (8 * at_) % 2 ^ (8 * n), len := n, bad := [] }
    let sz := entrySize e
    (∀ k, e.op = .ttgt k →
      ((slot k).st = .empty → E (head done) (slots k { Slot.reset with st := .target, owner := threadOf t })) ∧
      ((slot k).st ≠ .empty → E (fault k) fun c' => c' = core)) ∧
    (∀ k, e.op = .twait k ∨ (∃ d, e.op = .tget d k) →
      ((slot k).st = .target → E wait fun c' => c' = core) ∧
      ((slot k).st = .empty ∨ (slot k).st = .bound → E (fault k) fun c' => c' = core)) ∧
    (∀ k, e.op = .twait k → (slot k).st = .filled → E (head done) fun c' => c' = core) ∧
    (∀ d k, e.op = .tget d k → (slot k).st = .filled →
      E (head (makes (slot k).chain th.v[d.val] false)) (slots k Slot.reset)) ∧
    (∀ k, e.op = .tfree k → (slot k).st = .empty ∨ (slot k).st = .filled ∨
        (∀ q ∈ launchTq s (clusterOf t) core.launch, entryNames (coreOf t) k q.op = false) →
      E (head done) fun c' => c'.slots[k] = Slot.reset ∧ (∀ j, j ≠ k → c'.slots[j] = core.slots[j]) ∧
        c' = { release (release core (slot k).chain) (slot k).scale with slots := c'.slots }) ∧
    (∀ k q, e.op = .tfree k → (slot k).st = .bound ∨ (slot k).st = .target → q ∈ launchTq s (clusterOf t) core.launch →
      entryNames (coreOf t) k q.op = true → ∃ n, q.stamp ∈ n ∧ E (head { e with begun := true, names := n, stalled := true }) fun c' => c' = core) ∧
    (∀ (a : Reg) (k : Fin 16), e.op = .tbind a k →
      let x := th.v[a.val]
      ((slot k).st ≠ .empty ∨ x.len = 0 ∨ e.vl = 0 ∨ vtTy e.vtype = 15 → E (fault k) fun c' => c' = core) ∧
      ((slot k).st = .empty → x.len ≠ 0 → e.vl ≠ 0 → vtTy e.vtype ≠ 15 → grouped e.vtype = false → (leafAt core x.head).refs < 63 →
        E { head done with v := th.v.set a.val { x with excl := false } } fun c' => held x.head c' ∧ (∃ tail,
          c'.slots[k] = { st := .bound, chain := { x with excl := false, part := false, tail := tail }, scale := Desc.empty
                          rowLen := e.vl, ty := vtTy e.vtype, group := 0, owner := threadOf t }) ∧
          (∀ j, j ≠ k → c'.slots[j] = core.slots[j]) ∧ c' = { core with leaves := c'.leaves, slots := c'.slots }) ∧
      (grouped e.vtype = true → a.val < 31 →
        let y := th.v[(a + 1).val]
        (y.len = 0 → E (fault k) fun c' => c' = core) ∧
        ((slot k).st = .empty → x.len ≠ 0 → e.vl ≠ 0 → y.len ≠ 0 → (leafAt core x.head).refs < 63 → (leafAt core y.head).refs < 63 → x.head ≠ y.head →
          E { head done with v := (th.v.set a.val { x with excl := false }).set (a + 1).val { y with excl := false } } fun c' =>
            (∀ z, leafAt c' z = if z = x.head ∨ z = y.head then { leafAt core z with refs := (leafAt core z).refs + 1 } else leafAt core z) ∧
            (∃ tail last, c'.slots[k] =
              { st := .bound, chain := { x with excl := false, part := false, tail := tail }
                scale := { y with excl := false, part := false, tail := last }, rowLen := e.vl, ty := 0
                group := (match vtBlock e.vtype with | 2 => 32 | 3 => 64 | _ => 128), owner := threadOf t }) ∧
            (∀ j, j ≠ k → c'.slots[j] = core.slots[j]) ∧ c' = { core with leaves := c'.leaves, slots := c'.slots }))) ∧
    (∀ o, e.op = .copy o →
      let x := th.v[o.vidx.val]
      let indexed := (o.kind = .cpyg ∨ o.kind = .cpys) ∧ x.len ≠ 0
      let l := core.cqs[o.q.val]
      let queue (idx : Desc) : Vector (List Copy) 4 := core.cqs.set o.q.val (l ++
        [{ op := o, owner := threadOf t, fillw := e.fill, idx := idx, stamp := e.stamp, row := 0, added := 0, leave := false
           ctx := th.ctx, launch := th.launch.getD 0 }])
      (16 ≤ l.length → E wait fun c' => c' = core) ∧
      (l.length < 16 → ¬ indexed → E (head done) fun c' => c' = { core with cqs := queue Desc.empty }) ∧
      (l.length < 16 → indexed → (leafAt core x.head).refs < 63 →
        E { head done with v := th.v.set o.vidx.val { x with excl := false } } fun c' => held x.head c' ∧
          ∃ tail, c' = { core with leaves := c'.leaves, cqs := queue { x with excl := false, part := false, tail := tail } })) ∧
    (∀ d a, e.op = .share d a →
      let x := th.v[a.val]
      (d = a → E (head { done with writes := false }) fun c' => c' = core) ∧
      (d ≠ a → x.len = 0 → E (head (makes Desc.empty th.v[d.val] true)) fun c' => c' = core) ∧
      (d ≠ a → x.len ≠ 0 → (leafAt core x.head).refs < 63 → ∃ tail,
        E { head (makes { x with excl := false, part := false, tail := tail } th.v[d.val] true) with
            v := th.v.set a.val { x with excl := false } }
          fun c' => held x.head c' ∧ c' = { core with leaves := c'.leaves })) ∧
    (∀ (d a : Reg) (f b : Word), e.op = .trim d a f b →
      let x := th.v[a.val]
      let st := streamOf core x
      let n := x.len - (f.toNat + b.toNat) * sz
      let y := (locate core x (f.toNat * sz)).1
      (x.len ≤ (f.toNat + b.toNat) * sz → E (head (makes Desc.empty th.v[d.val] false)) fun c' => c' = core) ∧
      ((f.toNat + b.toNat) * sz < x.len → x.skip ≤ (leafAt core x.head).len → (leafAt core y).refs < 63 → ∃ part, part.len = n ∧
        E { head (makes part th.v[d.val] false) with
            v := if d = a then th.v else th.v.set a.val { x with excl := false } }
          fun c' => held y c' ∧ bytes c' part st (f.toNat * sz) n ∧ c' = { core with leaves := c'.leaves })) ∧
    (∀ (d a : Reg) (k : Word), e.op = .split d a k →
      let x := th.v[a.val]
      let st := streamOf core x
      let n := k.toNat * sz
      let y := (locate core x n).1
      (n = 0 → E (head (makes Desc.empty th.v[d.val] false)) fun c' => c' = core) ∧
      (0 < n → x.len = n →
        E { head (makes x th.v[d.val] true) with v := th.v.set a.val Desc.empty } fun c' => c' = core) ∧
      (0 < n → n < x.len → x.skip ≤ (leafAt core x.head).len → (leafAt core y).refs < 63 → ∃ part rest, part.len = n ∧
        rest.len = x.len - n ∧ E { head (makes part th.v[d.val] false) with v := th.v.set a.val rest }
          fun c' => held y c' ∧ bytes c' part st 0 n ∧ bytes c' rest st n (x.len - n) ∧ c' = { core with leaves := c'.leaves })) ∧
    (∀ (d a b : Reg), e.op = .cat d a b →
      let x := th.v[a.val]
      let y := th.v[b.val]
      let o := th.v[d.val]
      let unit := if vtIll e.vtype then 1 else sz
      let same : Thread := head { done with writes := false }
      (2 ^ 20 - 1 < x.len + y.len → E (head { e with
        stalled := false, fault := some { cause := 0x05, elem := (2 ^ 20 - 1 - x.len) / unit, info := 0, start := 0 } }) fun c' => c' = core) ∧
      (x.len = 0 → y.len = 0 → E (if o.len = 0 then same else head (makes Desc.empty o false)) fun c' => c' = core) ∧
      (∀ q : Reg, (x.len = 0 ∧ q = b) ∨ (y.len = 0 ∧ q = a) →
        let w := th.v[q.val]
        w.len ≠ 0 → w.len < 2 ^ 20 →
        (q = d → E same fun c' => c' = core) ∧
        (q ≠ d → (leafAt core w.head).refs < 63 → ∃ tail,
          E { head (makes { w with excl := false, part := false, tail := tail } o false) with v := th.v.set q.val { w with excl := false } }
            fun c' => held w.head c' ∧ c' = { core with leaves := c'.leaves })) ∧
      ∀ (xs : List Nat) (c1 : Core), ¬ (x.excl = true ∧ d = a ∧ b ≠ a) → x.len ≠ 0 → y.len ≠ 0 → x.len + y.len < 2 ^ 20 →
        let old := chainLeaves core x ++ chainLeaves core y
        let top := leafAt core y.head
        x.skip ≤ (leafAt core x.head).len → y.skip ≤ top.len →
        (if y.skip = 0 then top.refs < 63
          else (top.last = true ∧ y.skip + y.len ≤ top.len + 1) ∨ (top.last = false ∧ (leafAt core top.next).refs < 63)) →
        FreeLeaves core xs c1 → xs.Nodup → (∀ z ∈ xs, z ∉ top.next :: old) →
        xs.length = (chainLeaves core x).length + (if y.skip = 0 then 0 else 1) → lheld core (threadOf t) + xs.length ≤ e.budget →
        ∃ part, part.len = x.len + y.len ∧
          E { head (makes part o false) with v := if b = d then th.v else th.v.set b.val { y with excl := false } } fun c' =>
            streamOf c' part =
              { val := (streamOf core x).val + 2 ^ (8 * x.len) * (streamOf core y).val, len := x.len + y.len, bad := [] } ∧
            (∀ z ∈ xs, (leafAt c' z).refs = 1 ∧ (leafAt c' z).owner = threadOf t) ∧
            (∀ z, z ∉ xs → (leafAt c' z =
              if (y.skip = 0 ∧ z = y.head) ∨ (y.skip ≠ 0 ∧ top.last = false ∧ z = top.next) then
                { leafAt core z with refs := (leafAt core z).refs + 1 }
              else leafAt core z)) ∧
            c' = { c1 with leaves := c'.leaves }) ∧
    ∀ d b, e.op = .cat d d b → d ≠ b →
      let x := th.v[d.val]
      let y := th.v[b.val]
      x.excl = true → x.len ≠ 0 → y.len ≠ 0 → x.len + y.len < 2 ^ 20 → y.skip = 0 → x.skip ≤ (leafAt core x.head).len →
      (chainLeaves core x ++ chainLeaves core y).Nodup → (chainLeaves core x).getLast? = some x.tail →
      (leafAt core x.tail).last = true → (leafAt core y.head).refs < 63 → ∃ part, part.len = x.len + y.len ∧
        E { head (makes part Desc.empty false) with v := th.v.set b.val { y with excl := false } }
          fun c' => streamOf c' part =
              { val := (streamOf core x).val + 2 ^ (8 * x.len) * (streamOf core y).val, len := x.len + y.len, bad := [] } ∧
            (∀ z, z ≠ x.tail → z ≠ y.head → leafAt c' z = leafAt core z) ∧ c' = { core with leaves := c'.leaves }) ∧
  ∀ (s : State) (ws : List Word),
    let t := s.ev.tid
    let th := getThread s t
    let x := getCtx s th.ctx
    let n := th.xinfo.toNat % 32
    th.tstate = .stopped → th.xcause.toNat % 256 = 0x0C → isMcc t = false → th.vq = [] → absentBlock s th = some ws →
    0 < ws.length → ws.length ≤ 2048 → x.binds = [] →
    ∃ s', exec .patternLoadBind s = .next s' ∧ getThread s' t = { th with tstate := .running } ∧ BytesKept s s' ∧
      (∀ b, bindingOf (getCtx s' th.ctx) n = some b → b.words = ws ∧ b.len + 1 = ws.length) ∧
      bindingOf (getCtx s' th.ctx) n ≠ none

/-- A queue is bound to its block, and a linked packet becomes a launch or is rejected. QUEUE_BIND of a free number to an
aligned block that can be read and whose BIND names a live context: HEAD and TAIL take the sentinel, DONE, ERR, START
and all reserved bits are 0 (that QUEUE_BIND itself writes them is the model's reading of R331's Reset column, log
54), no other byte changes, the queue is bound and every wait entry that named the number is met. PACKET_ACCEPT and
QUEUE_LINK_POLL of a queue with a readable next packet: HEAD moves to it; with a SEQ above the last and every test
passed the launch is accepted with the next key; with a SEQ at or below the last ERR takes it and no launch is made.
Without a link nothing changes; PACKET_READ_RETRY does the same for a queue that waits to try again. (17_launch.md,
R331, R332, R333, R334, R337, R338) -/
def Obligations.LaunchesAreTakenIn : Prop :=
  (∀ s : State, MemoriesOk s →
    let b := s.ev.k
    let w := memRead s.mem (b + 0x20) 8
    let ctx : Fin 4096 := Fin.ofNat 4096 (w / 2 ^ 16 % 2 ^ 12)
    let x := getCtx s ctx
    s.root.boot = .running → s.ev.n < 256 → b % 64 = 0 → b + 64 ≤ 2 ^ 48 → ctx ≠ 0 → x.valid = true → x.dead = false →
    (∀ p ∈ s.launches, p.2.queue ≠ s.ev.n) → b / 64 ∉ s.poisonLines → s.root.retiredChannels = [] →
    (s.queues.map Prod.fst).Pairwise (· < ·) →
    ∃ s', exec .queueBind s = .next s' ∧
      getQueue s' s.ev.n = some { block := b, ctx := ctx, ceil := w % 4, msix := w / 2 ^ 32 % 2 ^ 11, lastSeq := 0, retry := false } ∧
      memRead s'.mem b 8 = s.ev.word.toNat ∧ memRead s'.mem (b + 8) 8 = s.ev.word.toNat ∧ memRead s'.mem (b + 0x10) 8 = 0 ∧
      memRead s'.mem (b + 0x18) 8 = 0 ∧ memRead s'.mem (b + 0x28) 8 = 0 ∧ memRead s'.mem (b + 0x30) 16 = 0 ∧
      memRead s'.mem (b + 0x20) 8 = w % 4 + 2 ^ 16 * (w / 2 ^ 16 % 2 ^ 12) + 2 ^ 32 * (w / 2 ^ 32 % 2 ^ 11) ∧
      (∀ a, a < b ∨ b + 0x40 ≤ a → memGet s'.mem a = memGet s.mem a) ∧
      (∀ n, n ≠ s.ev.n → getQueue s' n = getQueue s n) ∧
      s'.launches = s.launches.map (fun p => (p.1, { p.2 with waits := p.2.waits.filter fun v => decide (v.queue ≠ s.ev.n) })) ∧
      s' = { s with mem := s'.mem, queues := s'.queues, launches := s'.launches }) ∧
  ∀ (s : State) (q : Queue) (i : Instr), MemoriesOk s →
    getQueue s s.ev.n = some q → blockPoisoned s q = false →
    (i = .packetAccept ∨ i = .queueLinkPoll) ∧ q.retry = false ∨ i = .packetReadRetry ∧ q.retry = true →
    let n := s.ev.n
    let q0 : Queue := { q with retry := false }
    (followLink s q0 = .none → ∃ s', exec i s = .next s' ∧ getQueue s' n = some q0 ∧ s' = { s with queues := s'.queues } ∧
      ∀ k, k ≠ n → getQueue s' k = getQueue s k) ∧
    ∀ va p, followLink s q0 = .packet va p →
      let s1 := putQueue s n q0
      let x := getCtx s q.ctx
      (p.seq ≤ q.lastSeq → p.seq < 2 ^ 64 → ∃ s', exec i s = .next s' ∧ memRead s'.mem (q.block + 0x18) 8 = p.seq ∧
        s'.launches = s.launches ∧ s'.msix = s.msix ++ (if p.flags.testBit 3 then [q.msix] else []) ∧
        memRead s'.mem q.block 8 = va.toNat) ∧
      ∀ h, q.lastSeq < p.seq → readHeader s1 q.ctx p = some h →
        let l := launchFrom n q0 p h
        packetOk s1 n x p = true → x.valid = true → x.dead = false → patsFit s1 l = true →
        ∃ s', exec i s = .next s' ∧ getLaunch s' s.nextLaunch = some l ∧ l.st = .accepted ∧ l.seq = p.seq ∧
          (∀ k, k ≠ s.nextLaunch → getLaunch s' k = getLaunch s k) ∧ memRead s'.mem q.block 8 = va.toNat ∧
          (∀ a, a < q.block ∨ q.block + 8 ≤ a → memGet s'.mem a = memGet s.mem a) ∧
          getQueue s' n = some { q0 with lastSeq := p.seq } ∧
          s' = { s with mem := s'.mem, queues := s'.queues, launches := s'.launches, nextLaunch := s.nextLaunch + 1
                        poisonLines := s'.poisonLines, overlaid := s'.overlaid }

/-- Launches start, take cores, hand out iterations, rise, pre-empt and complete. LAUNCH_START starts the one accepted
launch of its front end that is ready and shares its serials out; CORE_ASSIGN gives an idle core to the one launch
that can use it; ITERATION_HANDOUT gives a free thread the lowest serial of the cluster's share with the preloads g1
to g6 (g5 for a serial from 2^64 on is the model's choice, log 118), the entry as pc and every other register as at
reset, once no leaf is charged to the thread (log 64), and with the cluster's first serial the MCC that the header
names; GANG_CLUSTER_CHOICE keeps a cluster for the first waiting share; GANG_SHARE_START, while no saved iteration of
the launch waits, gives all eight cores to it and starts the MCC that the header names anew, also where that has run
before (deduced, log 87); LAUNCH_AGEING raises the level up to 3, not while its context may not run (log 132);
LAUNCH_PREEMPT asks a lower core to leave for work not started or saved (log 86), for a GANG launch on the cluster
chosen for its share or that a saved one comes back to (logs 78, 123); LAUNCH_COMPLETE removes a finished launch.
(17_launch.md, R8, R60, R311, R336, R339, R340, R341, R342, R343, R344, R345) -/
def Obligations.LaunchesRun : Prop :=
  ∀ (s : State) (key : Nat) (x : Launch),
    let cl := s.ev.cl
    let co := s.ev.co
    let n := s.ev.n
    let I := ((x.n + x.c - 1) / x.c) * x.o1 * x.o2
    (s.launches = [(key, x)] → x.queue % 4 = n % 4 → readyToStart s key x = true → x.hdr.pats = 0 → x.wmclr = 0 →
      x.gang = false → 0 < I →
      ∃ s', exec .launchStart s = .next s' ∧
        getLaunch s' key = some { x with st := .started, startedAt := x.startedAt + 1, shares := initialShares I, gangWaiting := [] } ∧
        (∀ c : Nat, c < 64 → c * I / 64 < (c + 1) * I / 64 → mapFind (initialShares I) c = some (c * I / 64, (c + 1) * I / 64))) ∧
    (idleCore s cl co = true → (getCluster s cl).kept = none → takers s cl co = [(key, x)] → resumable s key x cl co = false →
      x.hdr.mccent = 0 →
      ∃ s', exec .coreAssign s = .next s' ∧ (getCore s' cl co).launch = some key ∧ (getCore s' cl co).lastCtx = some x.ctx ∧
        (∀ k : Fin 16, (getCore s' cl co).slots[k] = Slot.reset) ∧ (getCluster s' cl).lastQueue = x.queue ∧
        (∀ a, memGet s'.mem a = memGet s.mem a) ∧
        ∀ cl' co', (cl', co') ≠ (cl, co) → getCore s' cl' co' = getCore s cl' co') ∧
    ((getCore s cl co).launch = some key → getLaunch s key = some x → x.st = .started → x.gang = false →
      freeThread s (.vec cl co s.ev.th) x = true → mayRun s x.ctx = true → hasImages s key = false →
      coreAsked s cl co = false → x.partials = [] → x.stages = 1 → x.order = false → x.args = [] →
      x.hdr.mccent = 0 ∨ cl.val ∈ x.mccStarted →
      ∀ lo hi, mapGet (0, 0) x.shares cl.val = (lo, hi) → lo < hi →
        let K := (x.n + x.c - 1) / x.c
        ∃ s', exec .iterationHandout s = .next s' ∧
          (let th := getThread s' (.vec cl co s.ev.th)
           th.tstate = .running ∧ th.launch = some key ∧ th.ctx = x.ctx ∧ th.pc = x.entry ∧ th.nv = x.hdr.nv ∧ th.nm = x.hdr.nm ∧
           th.lbud = x.hdr.lbud ∧ th.serial = lo ∧ th.stage = 0 ∧ th.vl = 0 ∧ th.fflags = 0 ∧ th.vq = [] ∧
           readG th 1 = BitVec.ofNat 64 (min x.c (x.n - lo % K * x.c)) ∧ readG th 2 = BitVec.ofNat 64 (lo % K * x.c) ∧
           readG th 3 = BitVec.ofNat 64 (lo / K % x.o1) ∧ readG th 4 = BitVec.ofNat 64 (lo / K / x.o1) ∧
           readG th 5 = BitVec.ofNat 64 lo ∧ readG th 6 = 0 ∧ ∀ r : Reg, 7 ≤ r.val → readG th r = 0) ∧
          (∀ u, u ≠ .vec cl co s.ev.th → getThread s' u = getThread s u) ∧
          s' = { s with threads := s'.threads, launches := s'.launches }) ∧
    ((getCore s cl co).launch = some key → getLaunch s key = some x → x.st = .started → x.gang = false →
      freeThread s (.vec cl co s.ev.th) x = true → mayRun s x.ctx = true → hasImages s key = false →
      coreAsked s cl co = false → x.partials = [] → x.stages = 1 → x.order = false → x.args = [] →
      x.hdr.mccent ≠ 0 → cl.val ∉ x.mccStarted → (getCluster s cl).mccLaunch = none → mccImages s cl = [] →
      (mapGet (0, 0) x.shares cl.val).1 < (mapGet (0, 0) x.shares cl.val).2 →
      ∃ s', exec .iterationHandout s = .next s' ∧ (getCluster s' cl).mccLaunch = some key ∧
        (∃ y, getLaunch s' key = some y ∧ cl.val ∈ y.mccStarted) ∧
        let m := getThread s' (.mcc cl)
        m.tstate = .running ∧ m.launch = some key ∧ m.pc = x.entry + BitVec.ofNat 64 x.hdr.mccent) ∧
    (∀ cl' sh r, firstGang s = some (key, x) → widestCluster s = some cl' → x.gangWaiting = sh :: r →
      ∃ s', exec .gangClusterChoice s = .next s' ∧ (getCluster s' cl').kept = some key ∧
        (∃ y, getLaunch s' key = some y ∧ y.gangWaiting = r ∧ mapFind y.gangChosen cl'.val = some sh) ∧
        s' = { s with clusters := s'.clusters, launches := s'.launches }) ∧
    (∀ sh, (getCluster s cl).kept = some key → getLaunch s key = some x → mapFind x.gangChosen cl.val = some sh →
      (∀ c, idleCore s cl c = true) → (∀ c k, chargeFree s (.vec cl c k) = true) → mayRun s x.ctx = true → hasImages s key = false →
      x.hdr.mccent = 0 →
      ∃ s', exec .gangShareStart s = .next s' ∧ (getCluster s' cl).kept = none ∧ ∀ c, (getCore s' cl c).launch = some key) ∧
    (∀ sh, (getCluster s cl).kept = some key → getLaunch s key = some x → mapFind x.gangChosen cl.val = some sh →
      (∀ c, idleCore s cl c = true) → (∀ c k, chargeFree s (.vec cl c k) = true) → mayRun s x.ctx = true → hasImages s key = false →
      x.hdr.mccent ≠ 0 → (getCluster s cl).mccLaunch = none →
      ∃ s', exec .gangShareStart s = .next s' ∧ (getCluster s' cl).kept = none ∧ (getCluster s' cl).mccLaunch = some key ∧
        (getThread s' (.mcc cl)).pc = x.entry + BitVec.ofNat 64 x.hdr.mccent) ∧
    (∀ sh, (getCluster s cl).kept = some key → getLaunch s key = some x → mapFind x.gangChosen cl.val = some sh →
      (∀ c, idleCore s cl c = true) → hasImages s key = true →
      ∃ s', exec .gangShareStart s = .next s' ∧ (getCluster s' cl).kept = some key ∧ (∀ u, getThread s' u = getThread s u) ∧
        s'.launches = s.launches) ∧
    (n = key → getLaunch s key = some x → mayRun s x.ctx = false → exec .launchAgeing s = .next s) ∧
    (n = key → getLaunch s key = some x → waiting s key x = true →
      ∃ s', exec .launchAgeing s = .next s' ∧ getLaunch s' key = some { x with level := min 3 (x.level + 1) } ∧
        (∀ k, k ≠ key → getLaunch s' k = getLaunch s k) ∧ s' = { s with launches := s'.launches }) ∧
    (∀ c, n = key → getLaunch s key = some x → x.preempt = true → x.st = .started → mayRun s x.ctx = true →
      workOn s key x cl = true → (x.gang = false → coresAsked s cl < coresWanted s key x cl ∧ idleCores s cl = 0) →
      (x.gang = true → coresAsked s cl + idleCores s cl + ownCores s key cl < 8) → pickVictim s x cl = some c →
      x.hdr.mccent = 0 →
      ∃ s', exec .launchPreempt s = .next s' ∧ (∀ k : Fin 4, getThread s' (.vec cl c k) = { getThread s (.vec cl c k) with preq := true }) ∧
        s' = { s with threads := s'.threads }) ∧
    (∀ q, s.launches = [(key, x)] → x.queue = n → getQueue s n = some q → finished s key x = true → MemoriesOk s →
      blockWord s q qDone < x.seq → x.seq < 2 ^ 64 →
      ∃ s', exec .launchComplete s = .next s' ∧ s'.launches = [] ∧ memRead s'.mem (q.block + 0x10) 8 = x.seq ∧
        s'.msix = s.msix ++ if x.irq then [q.msix] else [])

/-- Cores and MCCs are saved and restored, contexts swapped, made and destroyed, translations dropped and filled.
CORE_SAVE of a core whose asked threads may be saved frees the core and puts its threads, as they stood, into an
image, with a page at IMG of each and the directory at IMGDIR; a GANG share's cores leave it together when none of it
runs (log 123), one without an iteration has nothing to save. CORE_RESTORE gives a GANG share all eight cores again,
and puts a saved MCC back with its tile queue, configuration, accumulators, place in the oldest entry and thread;
swapping moves RES to SWAP and back; TLB_INVALIDATE, which does nothing before the boot, and its completion leave no
translation of the context; PAGE_WALK fills both TLBs; CONTEXT_CREATE fills an entry, clears the log header and the
reserved bits of log and error record, and does nothing before the boot, for a context in use, a place that is not
allowed or more frames than are in service; CONTEXT_DESTROY clears one that nothing uses, unbinds its queues and
leaves no core that would keep its scratchpad for a later context of the number; DEMAND_PAGE_MAP writes the entry and
resumes; DEBUGGER_RESUME lets a thread at a breakpoint go on, at the brk or after it as the debugger says (the flag is
the model's choice, log 31). Accesses that wait behind an entry which another party holds up go into the image with it
(log 106), IMG stays the hardware thread's (log 107). That the device restores from records, and which pages an image
takes (log 75), and the context table as a record (log 74) are the model's choices; that nothing is done before the
boot is deduced (log 94, R376). (18_contexts.md, R348, R349, R352, R354, R356, R362, R363, R365, R368, R369) -/
def Obligations.CoresAndContextsMove : Prop :=
  ∀ s : State,
    let cl := s.ev.cl
    let co := s.ev.co
    let ctx : Fin 4096 := Fin.ofNat 4096 s.ev.n
    let x := getCtx s ctx
    let t := s.ev.tid
    let th := getThread s t
    let X (i : Instr) (y : Context) : Prop := ∃ s', exec i s = .next s' ∧ getCtx s' ctx = y ∧
      (x.imgdir = 0 ∨ (∀ p ∈ s.images, p.2.ctx ≠ ctx) ∨ i = .tlbInvalidate → BytesKept s s') ∧ ∀ k, k ≠ ctx → getCtx s' k = getCtx s k
    (∀ key k, (getCore s cl co).launch = some key → (getCore s cl co).lastCtx = some k → (getCore s cl co).reclaim = [] →
      s.ev.flag = false → (∃ h : Fin 4, (getThread s (.vec cl co h)).preq = true) → (∀ h : Fin 4, saveable s (.vec cl co h) = true) →
      let idle (j : Fin 8) : Prop := coreIdle s cl j = true ∧ copiesDone (getCore s cl j) = true
      let others := ∀ j, j ≠ co → (getCore s cl j).launch = some key → idle j
      let free := isGang s key = false ∨ (others ∧ (getCluster s cl).mccLaunch ≠ some key)
      let dir := (getCtx s k).imgdir
      (idle co → ∃ s', exec .coreSave s = .next s' ∧ BytesKept s s' ∧ s'.images = s.images ∧
        (∀ h : Fin 4, (getThread s' (.vec cl co h)).preq = false) ∧
        (getCore s' cl co).launch = (if isGang s key = false ∨ shareIdle s cl key = true then none else some key)) ∧
      (¬ idle co → ∃ s' img, exec .coreSave s = .next s' ∧ (getCore s' cl co).leaves = [] ∧
        (dir = 0 → s.ev.pairs = [] → (∀ h : Fin 4, (getThread s (.vec cl co h)).img = 0) → BytesKept s s') ∧
        (free → ∀ j, j = co ∨ (isGang s key = true ∧ (getCore s cl j).launch = some key) → (getCore s' cl j).launch = none) ∧
        (¬ free → ∀ j, (getCore s' cl j).launch = (getCore s cl j).launch) ∧
        (∀ h : Fin 4,
          let pa := (getThread s (.vec cl co h)).img.toNat
          let apart (lo n : Nat) : Prop := ∀ q ∈ s.queues, lo + n ≤ q.2.block ∨ q.2.block + 64 ≤ lo
          MemoriesOk s → (getThread s (.vec cl co h)).launch ≠ none → pageFits s pa = true → s.ev.pairs = [] → apart pa (2 ^ 16) →
          (∀ j : Fin 4, j ≠ h → (getThread s (.vec cl co j)).img = 0) →
          (dir = 0 ∨ ((∀ p ∈ s.images, p.2.ctx = k → p.2.onFlash = true) ∧ (dir + 16 ≤ pa ∨ pa + 2 ^ 16 ≤ dir) ∧ apart dir 16)) →
          (∀ n : Reg, memRead s'.mem (pa + 8 * n.val) 8 = (readG (getThread s (.vec cl co h)) n).toNat) ∧
          (∀ n : Fin 48, memRead s'.mem (pa + 0x4800 + 512 * n.val) 512 = (getThread s (.vec cl co h)).m[n].toNat) ∧
          (dir ≠ 0 → memRead s'.mem dir 8 = pa + 2 ^ 8 ∧ memRead s'.mem (dir + 8) 8 = 0)) ∧
        mapFind s'.images (nextImage s) = some img ∧ img.ctx = k ∧ img.launch = key ∧ img.isMcc = false ∧ img.threads.length = 4 ∧
        ∀ h : Fin 4, (∀ y, img.threads[h.val]? = some y →
          y.g = (getThread s (.vec cl co h)).g ∧ y.pc = (getThread s (.vec cl co h)).pc ∧ y.m = (getThread s (.vec cl co h)).m ∧
          y.vl = (getThread s (.vec cl co h)).vl ∧ y.fflags = (getThread s (.vec cl co h)).fflags ∧
          y.out = (getThread s (.vec cl co h)).out) ∧
        (getThread s' (.vec cl co h)).tstate = .saved ∧ (getThread s' (.vec cl co h)).launch = none)) ∧
    (∀ i l, mapFind s.images s.ev.k = some i → i.isMcc = false → i.onFlash = false → getLaunch s i.launch = some l → l.gang = true →
      mayRun s i.ctx = true → mayRestore s i l cl co = true → mccAllows s cl i.launch l = true →
      heldCore s i.launch cl co = true ∨ comesFirst s cl (takers s cl co) i.launch l = true →
      (∃ ic, i.core = some ic ∧ ic.leaves = []) → s.images.Pairwise (fun p q => p.1 < q.1) →
      ∃ s', exec .coreRestore s = .next s' ∧ mapFind s'.images s.ev.k = none ∧ ∀ j, (getCore s' cl j).launch = some i.launch) ∧
    (∀ i y l, mapFind s.images s.ev.k = some i → i.isMcc = true → i.onFlash = false → i.threads = [y] → y.leaveKinds = 0 →
      getLaunch s i.launch = some l → mayRun s i.ctx = true → mayRestoreMcc s i l = true →
      ∃ s', exec .coreRestore s = .next s' ∧ ((getCtx s i.ctx).imgdir = 0 → BytesKept s s') ∧
        getThread s' (.mcc i.cl) = { y with img := (getThread s (.mcc i.cl)).img, preq := false } ∧
        (getCluster s' i.cl).mccLaunch = some i.launch ∧ (getCluster s' i.cl).tq = i.tq ∧ (getCluster s' i.cl).acc = i.acc ∧
        (getCluster s' i.cl).counts = i.counts ∧ (getCluster s' i.cl).tsw = i.tsw ∧ (getCluster s' i.cl).tileProg = i.tileProg ∧
        (getCluster s' i.cl).cfg = i.cfg.getD MatCfg.reset ∧ (getCluster s' i.cl).tileFault = i.tileFault) ∧
    (runnable x = true → unserved s ctx = true → X .contextSwapOut { x with swap := true, res := false }) ∧
    (x.valid = true → x.dead = false → x.swap = true → X .contextSwapIn { x with swap := false, res := true }) ∧
    (s.root.boot = .running → X .tlbInvalidate { x with invalidating := true }) ∧
    (s.root.boot ≠ .running → exec .tlbInvalidate s = .next s) ∧
    (x.invalidating = true → (∀ u ∈ contextTids s ctx, (getThread s u).out = []) →
      ∃ s', exec .tlbInvalidateComplete s = .next s' ∧ getCtx s' ctx = { x with invalidating := false } ∧ BytesKept s s' ∧
        (∀ a b, ∀ y ∈ (getCore s' a b).tlb, y.ctx ≠ ctx) ∧ ∀ a, ∀ y ∈ (getCluster s' a).tlb, y.ctx ≠ ctx) ∧
    (∀ e lvl, let va := s.ev.word.toNat % 2 ^ 52
      x.valid = true → isCanon s.ev.word = true → walkTables s va [0, 1, 2, 3] x.ptroot = some (e, lvl) →
      let y : TlbEntry := { ctx := ctx, page := va / 2 ^ (39 - 9 * lvl), level := lvl, entry := e }
      ∃ s', exec .pageWalk s = .next s' ∧ (getCore s' cl co).tlb.head? = some y ∧ (getCluster s' cl).tlb.head? = some y ∧
        s' = { s with cores := s'.cores, clusters := s'.clusters }) ∧
    (let z := s.ev.spec
     (s.root.boot ≠ .running ∨ z.ctx = 0 ∨ (getCtx s z.ctx).valid = true ∨ z.spbase.toNat % 2 ^ 23 ≠ 0 ∨ isCanon z.spbase = false ∨
        z.ptroot % 2 ^ 16 ≠ 0 ∨ z.vlog % 64 ≠ 0 ∨ framesInService s < framesNeeded s + z.frames ∨ marksApart s z.wmlo z.wmcnt = false →
      exec .contextCreate s = .next s) ∧
     (creatable s z = true → MemoriesOk s →
      ∃ s', exec .contextCreate s = .next s' ∧ (getCtx s' z.ctx).valid = true ∧ (getCtx s' z.ctx).res = true ∧
        (getCtx s' z.ctx).dead = false ∧ (getCtx s' z.ctx).ptroot = z.ptroot ∧ (getCtx s' z.ctx).spbase = z.spbase ∧
        (getCtx s' z.ctx).binds = [] ∧ (∀ k, k ≠ z.ctx → getCtx s' k = getCtx s k) ∧
        (∀ a, z.vlog ≤ a → a < z.vlog + 16 → memGet s'.mem a = 0) ∧
        (∀ a, z.errec + 57 ≤ a → a < z.errec + 60 → memGet s'.mem a = 0) ∧
        (∀ a, a < z.errec + 57 ∨ z.errec + 60 ≤ a → a < z.vlog ∨ z.vlog + 1040 ≤ a → memGet s'.mem a = memGet s.mem a) ∧
        ∀ i o, i < 64 → o < 16 →
          let a := z.vlog + 16 + 16 * i + o
          a < z.errec + 57 ∨ z.errec + 60 ≤ a →
          memGet s'.mem a = if o < 9 ∨ o = 12 then memGet s.mem a else if o = 13 then memGet s.mem a &&& 0x3F else 0)) ∧
    (x.valid = true → unserved s ctx = true → (∀ p ∈ s.queues, p.2.ctx = ctx → queueLaunches s p.1 = []) →
      (∀ p ∈ s.images, p.2.ctx ≠ ctx) → X .contextDestroy Context.reset ∧
      ∀ s', exec .contextDestroy s = .next s' → (∀ a b, (getCore s' a b).lastCtx ≠ some ctx) ∧
        ((s.queues.map Prod.fst).Pairwise (· < ·) → ∀ n q, getQueue s' n = some q ↔ getQueue s n = some q ∧ q.ctx ≠ ctx)) ∧
    (∀ a v, s.ev.pairs = [(a, v)] → th.tstate = .stopped → th.xcause.toNat % 256 = 0x06 →
      onDemand (getCtx s th.ctx) th.xinfo.toNat = true → isMcc t = false → th.vq = [] → s.root.retiredChannels = [] →
      (∀ q ∈ s.queues, a / 8 * 8 + 8 ≤ q.2.block ∨ q.2.block + 64 ≤ a / 8 * 8) →
      walkTables (tgtWrite s (.dev (a / 8 * 8) false) 8 v) (th.xinfo.toNat % 2 ^ 52) [0, 1, 2, 3] (getCtx s th.ctx).ptroot ≠ none →
      ∃ s', exec .demandPageMap s = .next s' ∧ getThread s' t = { th with tstate := .running } ∧
        s'.mem = memWrite s.mem (a / 8 * 8) 8 v) ∧
    (th.tstate = .stopped → th.xcause.toNat % 256 = 0x0E → isMcc t = false → th.vq = [] →
      ∃ s', exec .debuggerResume s = .next s' ∧ OthersKept t s s' ∧
        getThread s' t = { th with tstate := .running, pc := if s.ev.flag then parcelAddr th.pc + 4 else th.pc })

/-- Containment, an abort trap and a refused fault record end the context; trap 9 resumes its stopped MCCs. CONTAINMENT at
a host request of a live context that runs nothing and has no queue, launch or image marks it dead, writes its error
record once, and changes no other byte outside the record and no other context. Trap 3 of a thread that alone runs for
its context, with g28 at hand and its accesses performed, ends the thread and the context, with g28 as XINFO of the
record; trap 8 contains likewise when the record may not be registered. Trap 9 sets STATE to 2 in the record of the
one MCC of the context that stands at a recorded fault, and that MCC runs again. That such a trap inside a handler
writes 0x0F to XCAUSE as outside (log 39), and does not wait for frozen accesses (log 40), are the model's choices, as
are the context table that is no bytes of memory (log 74) and a record whose 60 bytes leave VREC (log 53). (R297,
R314, R315, R349, R356, R360, R369, R370) -/
def Obligations.ContextsAreContained : Prop :=
  (∀ s : State, MemoriesOk s →
    let ctx : Fin 4096 := Fin.ofNat 4096 s.ev.n
    let x := getCtx s ctx
    s.ev.source = none → x.valid = true → x.dead = false → contextTids s ctx = [] → contextCores s ctx = [] →
    (∀ p ∈ s.queues, p.2.ctx ≠ ctx) → (∀ p ∈ s.launches, p.2.ctx ≠ ctx) → (∀ p ∈ s.images, p.2.ctx ≠ ctx) →
    ∃ s', exec .containment s = .next s' ∧ getCtx s' ctx = { x with dead := true, recorded := true } ∧
      (∀ k, k ≠ ctx → getCtx s' k = getCtx s k) ∧ (∀ u, getThread s' u = getThread s u) ∧
      (∀ a, memGet s'.mem a = if x.recorded = false ∧ x.errec ≤ a ∧ a < x.errec + 60 then 0 else memGet s.mem a)) ∧
  (∀ (s : State) (i : Instr), i = .trapAbort ∨ i = .trapRegisterFaultRecord → MemoriesOk s → Ready s [28] →
    let t := s.cur
    let th := running s
    let x := getCtx s th.ctx
    (trapDrained s t = false → Waits s (exec i s)) ∧
    (trapDrained s t = true → (i = .trapRegisterFaultRecord → recordOk s t (reg s 28) = false) →
      x.dead = false → x.recorded = false → th.launch ≠ none → (∀ p ∈ s.queues, p.2.ctx ≠ th.ctx) →
      (x.imgdir = 0 ∨ ∀ p ∈ s.images, p.2.ctx ≠ th.ctx) →
      (∀ u, u ≠ t → (getThread s u).ctx ≠ th.ctx ∨ (getThread s u).launch = none) →
      ∃ s', exec i s = .next s' ∧ (getCtx s' th.ctx).dead = true ∧ (getThread s' t).tstate = .idle ∧ (getThread s' t).launch = none ∧
        (∀ k, k ≠ th.ctx → getCtx s' k = getCtx s k) ∧
        memRead s'.mem x.errec 8 = 0x0F ∧ memRead s'.mem (x.errec + 32) 8 = (if i = .trapAbort then (reg s 28).toNat else 8) ∧
        ∀ a, a < x.errec ∨ x.errec + 60 ≤ a → memGet s'.mem a = memGet s.mem a)) ∧
  ∀ (s : State) (cl : Fin 64) (va : Word) (pa : Nat) (ser : Bool), MemoriesOk s →
    let t := s.cur
    let th := running s
    let u : Tid := .mcc cl
    let y := getThread s u
    trapDrained s t = true → s.images = [] → s.threads.Pairwise (fun p q => p.1 < q.1) → t ≠ u → cl ∈ listedMccs s →
    y.ctx = th.ctx → y.launch ≠ none → y.record = some va → y.tstate = .stopped →
    (∀ k, k ≠ cl → (getThread s (.mcc k)).record = none) →
    resolve s (partyOf s u) va 8 .store = .ok (.dev pa ser) → (∀ q ∈ s.queues, pa + 8 ≤ q.2.block ∨ q.2.block + 64 ≤ pa) →
    memRead s.mem pa 8 = 1 →
    ∃ s', exec .trapResumeMcc s = .next s' ∧ getThread s' u = { y with tstate := .running } ∧ memRead s'.mem pa 8 = 2 ∧
      (getThread s' t).pc = parcelAddr th.pc + 4 ∧ (getThread s' t).xcause = 0x0F ∧ (getThread s' t).xinfo = 9 ∧
      (getThread s' t).g = th.g ∧ (∀ a, a < pa ∨ pa + 8 ≤ a → memGet s'.mem a = memGet s.mem a)

/-- Links move between their states, the host and Ethernet reach memory, the root boots and attests. A good flit that is
awaited raises the sequence number awaited, and its access is performed once, when its turn among its cluster's has
come (until then it waits at home): a write of its bytes, an atomic, an apnd or apub of a region, a load without
effect; any other flit is discarded; replays are counted, a link goes down, trains once the boot has ended, comes up
with its port and is retired, which positions answer from then on an input (log 121); a host write through a BAR and
an Ethernet frame write exactly their bytes, but leave the reserved bits of a violation log entry and an error record
(R5), and leave poison; in recovery a host write goes to the flash; control space reads change nothing, PREQ of a busy
core can be written there, LINKSTAT, the health block and COORD cannot; no frame and no report goes to a retired
channel; a reset whose boot steps succeed leaves the device running with empty memories, the image's digest, SVN and
entry, links in training and the retired leaves out of service, any other leaves it in recovery; the rollback count
rises to the SVN; a report holds its fields at their offsets. The model's choices: an address of 2^48 or above stops
the machine (log 61), a flit's access that lies there is dropped, a whole line written by a flit loses its poison, and
sequence numbers begin at 0 when a link comes up (log 79); a kernel image brings its pattern blocks (log 62); the
peers' memory and the device's position stay as they are in a reset, and memory is empty in recovery too (logs 14, 72,
7). (19_service.md, 18_contexts.md, R142, R331, R346, R371, R373, R375, R376, R377, R379, R382) -/
def Obligations.LinksHostAndRootAct : Prop :=
  ∀ s : State,
    let p := s.ev.n % 16
    let l := getLink s p
    let k := s.ev.k
    let f := s.ev.flit
    let L (i : Instr) (y : Link) : Prop := ∃ s', exec i s = .next s' ∧ getLink s' p = y ∧ s' = { s with links := s'.links } ∧
      ∀ q, q ≠ p → getLink s' q = getLink s q
    let told (i : Instr) (y : Link) : Prop := ∃ s', exec i s = .next s' ∧ getLink s' p = y ∧
      s' = { s with links := s'.links, silent := s.ev.bytes.map fun b => b.toNat } ∧ ∀ q, q ≠ p → getLink s' q = getLink s q
    let puts (s' : State) (a : Nat) (b : List Byte) : Prop := ∀ x,
      memGet s'.mem x = (if a ≤ x ∧ x < a + b.length then b.getD (x - a) 0 else memGet s.mem x) ∧
      memGet s'.spad x = memGet s.spad x ∧ memGet s'.peer x = memGet s.peer x
    let clear (a n : Nat) : Prop := (∀ q ∈ s.queues, a + n ≤ q.2.block ∨ q.2.block + 64 ≤ a) ∧
      ∀ c ∈ s.ctxs, c.2.valid = true →
        (a + n ≤ c.2.vlog ∨ c.2.vlog + 1040 ≤ a) ∧ (a + n ≤ c.2.errec ∨ c.2.errec + 64 ≤ a)
    let good := l.st = .up ∧ s.ev.flag = true ∧ k = l.rxSeq
    let turn := mapGet 0 s.peerSeq (f.dev % 256 * 64 + f.cl.val)
    let same (b : FlitAccess) : Prop := b.dev % 256 = f.dev % 256 ∧ b.cl = f.cl
    let field (s : State) (o : Nat) : Nat := memRead s.mem (f.pa + o) 8
    (good → ∃ s', exec .flitReceive s = .next s' ∧ getLink s' p = { l with rxSeq := l.rxSeq + 1 } ∧
      s' = { s with links := s'.links, peerSeq := s'.peerSeq, peerWait := s'.peerWait, mem := s'.mem, poisonLines := s'.poisonLines
                    overlaid := s'.overlaid, regions := s'.regions } ∧
      (f.acc < turn ∨ (∃ b ∈ s.peerWait, same b ∧ b.acc = f.acc) → s' = { s with links := s'.links }) ∧
      (s.peerWait = [] → turn < f.acc ∨ (f.acc = turn ∧ flitHeld s f = true) → s' = { s with links := s'.links, peerWait := [f] }) ∧
      (∀ g, s.peerWait = [g] → same g → g.acc = f.acc + 1 → f.acc = turn → f.kind = .read → g.kind = .read →
        s'.peerWait = [] ∧ mapGet 0 s'.peerSeq (f.dev % 256 * 64 + f.cl.val) = f.acc + 2) ∧
      (s.peerWait = [] → f.acc = turn → flitHeld s f = false →
        s'.peerWait = [] ∧ mapGet 0 s'.peerSeq (f.dev % 256 * 64 + f.cl.val) = f.acc + 1 ∧
        (256 < flitBytes f ∨ 2 ^ 48 < f.pa + flitBytes f ∨ (f.kind = .read ∧ MemoriesOk s) → s'.mem = s.mem ∧ s'.poisonLines = s.poisonLines) ∧
        (∀ b, f.kind = .write b → b.length ≤ 256 → f.pa + b.length ≤ 2 ^ 48 → MemoriesOk s → clear f.pa b.length →
          puts s' f.pa b ∧
          ∀ y, y ∈ s'.poisonLines ↔ y ∈ s.poisonLines ∧ ¬ (f.pa ≤ 64 * y ∧ 64 * y + 64 ≤ f.pa + b.length)) ∧
        (∀ op sg dbl x c, f.kind = .atomic op sg dbl x c →
          let n := if dbl then 8 else 4
          f.pa + n ≤ 2 ^ 48 → MemoriesOk s → clear f.pa n →
          (tgtPoison s (.dev f.pa false) n = true → s'.mem = s.mem) ∧
          (tgtPoison s (.dev f.pa false) n = false →
            memRead s'.mem f.pa n = (amoNew op sg (8 * n) (memRead s.mem f.pa n) x.toNat c.toNat).1 % 2 ^ (8 * n) ∧
            ∀ a, a < f.pa ∨ f.pa + n ≤ a → memGet s'.mem a = memGet s.mem a)) ∧
        (∀ n : Word, n ≠ 0 → f.pa + 64 ≤ 2 ^ 48 → MemoriesOk s → clear f.pa 64 → (findRegion s f.pa).records = [] →
          regionOk s (.dev f.pa false) = true → tgtPoison s (.dev f.pa false) 64 = false →
          (f.kind = .append n → field s 16 + n.toNat ≤ field s 8 → field s' 16 = field s 16 + n.toNat ∧ field s' 24 = field s 24) ∧
          (f.kind = .publish n (BitVec.ofNat 64 (field s 24)) → field s 24 + n.toNat ≤ field s 16 →
            field s' 24 = field s 24 + n.toNat ∧ field s' 16 = field s 16)))) ∧
    (¬ good → exec .flitReceive s = .next s) ∧
    (l.st = .up →
      L .flitReplay { l with replay := min (l.replay + min k 512) (2 ^ 32 - 1), fails := if s.ev.flag then l.fails + 1 else 0 }) ∧
    (l.st = .up → 16 ≤ l.fails ∨ s.ev.flag = true → told .linkDown { l with st := .down, fails := 0, downs := l.downs + 1 }) ∧
    (l.st = .up → l.fails < 16 → s.ev.flag = false → exec .linkDown s = .next s) ∧
    (s.root.boot ≠ .running → exec .linkRetrain s = .next s) ∧
    (s.root.boot = .running →
      (l.st = .down → L .linkRetrain { l with st := .training }) ∧
      (l.st = .training → s.ev.flag = true → told .linkRetrain { l with st := .up, port := BitVec.ofNat 8 k, rxSeq := 0 }) ∧
      (l.st = .training → s.ev.flag = false → told .linkRetrain { l with st := .down })) ∧
    (8 ≤ l.downs → L .linkRetire { l with st := .retired }) ∧ (l.downs < 8 → exec .linkRetire s = .next s) ∧
    exec .hostLinkError s = .next { s with aer := s.aer ++ [s.ev.n] } ∧
    (∀ a n, s.ev.host = .read a n →
      (a + n ≤ 2 ^ 48 → exec .hostBarAccess s = .next s) ∧
      (2 ^ 48 < a + n → exec .hostBarAccess s = .fault (.noSuchAddress a))) ∧
    (∀ a b, s.ev.host = .write a b → s.root.boot = .running →
      (MemoriesOk s → a + b.length ≤ 2 ^ 48 → clear a b.length →
        ∃ s', exec .hostBarAccess s = .next s' ∧ puts s' a b ∧ s' = { s with mem := s'.mem, overlaid := s'.overlaid }) ∧
      (∀ q c, MemoriesOk s → a + b.length ≤ 2 ^ 48 → s.queues = [] → s.ctxs = [(q, c)] → c.valid = true →
        ∃ s', exec .hostBarAccess s = .next s' ∧ s' = { s with mem := s'.mem, overlaid := s'.overlaid } ∧
          let kept (x bits : Nat) : Prop := ∀ j, j < 8 → bits.testBit j = true →
            (memGet s'.mem x).getLsbD j = (memGet s.mem x).getLsbD j
          (∀ i o, i < 64 → o ∈ [9, 10, 11, 14, 15] → kept (c.vlog + 16 + 16 * i + o) 0xFF) ∧
          (∀ i, i < 64 → kept (c.vlog + 16 + 16 * i + 13) 0xC0) ∧ (∀ o, o ∈ [57, 58, 59] → kept (c.errec + o) 0xFF)) ∧
      (2 ^ 48 < a + b.length → exec .hostBarAccess s = .fault (.noSuchAddress a))) ∧
    (∀ a b, s.ev.host = .write a b → s.root.boot = .recovery →
      ∃ s', exec .hostBarAccess s = .next s' ∧ s' = { s with root := { s.root with flash := s'.root.flash } } ∧
        ∀ x, s'.root.flash.getD x 0 = if a ≤ x ∧ x < a + b.length then b.getD (x - a) 0 else s.root.flash.getD x 0) ∧
    (∀ c h bl, s.ev.host = .image c h bl →
      (s.root.boot ≠ .running → exec .hostBarAccess s = .next s) ∧
      (s.root.boot = .running →
        ∃ s', exec .hostBarAccess s = .next s' ∧ s' = { s with blocks := s'.blocks } ∧ s'.blocks.head? = some (c, h, bl))) ∧
    (∀ r, s.ev.host = .controlRead r → exec .hostBarAccess s = .next s) ∧
    (∀ r w, s.ev.host = .controlWrite r w →
      (s.root.boot ≠ .running ∨ (∀ t n, r ≠ .thread t n) ∨ (∃ t, r = .thread t 0x012) → exec .hostBarAccess s = .next s) ∧
      (∀ cl co h, s.root.boot = .running → r = .thread (.vec cl co h) 0x802 → (getCore s cl co).launch ≠ none →
        ∃ s', exec .hostBarAccess s = .next s' ∧ OthersKept (.vec cl co h) s s' ∧
          getThread s' (.vec cl co h) = { getThread s (.vec cl co h) with preq := (getThread s (.vec cl co h)).preq || w.getLsbD 0 })) ∧
    (s.root.boot = .running → s.ev.bytes.length ≤ 9216 →
      (k + s.ev.bytes.length ≤ 2 ^ 48 → onRetired s k s.ev.bytes.length = true → exec .ethernetFrameReceive s = .next s) ∧
      (MemoriesOk s → k + s.ev.bytes.length ≤ 2 ^ 48 → clear k s.ev.bytes.length → onRetired s k s.ev.bytes.length = false →
        ∃ s', exec .ethernetFrameReceive s = .next s' ∧ puts s' k s.ev.bytes ∧ s' = { s with mem := s'.mem, overlaid := s'.overlaid }) ∧
      (2 ^ 48 < k + s.ev.bytes.length → exec .ethernetFrameReceive s = .fault (.noSuchAddress k))) ∧
    (s.root.boot ≠ .running ∨ 9216 < s.ev.bytes.length → exec .ethernetFrameReceive s = .next s) ∧
    (∃ s', exec .deviceReset s = .next s' ∧ s'.mem = [] ∧ s'.spad = [] ∧ s'.peer = s.peer ∧ s'.poisonLines = [] ∧ s'.overlaid = [] ∧ s'.threads = [] ∧
      s'.ctxs = [] ∧ s'.queues = [] ∧ s'.launches = [] ∧ s'.images = [] ∧ s'.devPos = s.devPos ∧
      s'.health.block = healthBytes s' ∧ s'.health.corrected = 0 ∧ s'.health.uncorrected = 0 ∧
      s'.root = { s.root with boot := s'.root.boot, measurement := s'.root.measurement, svn := s'.root.svn, entry := s'.root.entry } ∧
      (bootOk s.root = true → s'.root.boot = .running ∧ s'.root.measurement = imageDigest s.root.flash ∧
        s'.root.svn = imageSvn s.root.flash ∧ s'.root.entry = imageEntry s.root.flash ∧
        (∀ q, q < 16 → (getLink s' q).st = .training) ∧
        ∀ (cl : Fin 64) (co : Fin 8) x, (coreKey cl co, x) ∈ s.root.retiredLeaves → x ∈ (getCore s' cl co).retired) ∧
      (bootOk s.root = false → s'.root.boot = .recovery ∧ s'.links = [])) ∧
    (s.root.boot = .running →
      exec .rollbackRaise s = .next { s with root := { s.root with rollback := max s.root.rollback s.root.svn } }) ∧
    (s.root.boot ≠ .running ∨ 2 ^ 48 < k + 4096 ∨ onRetired s k 4096 = true ∨ (∃ q ∈ s.ctxs, q.2.valid = true ∧ mapsBytes s q.2 k 4096 = true) →
      exec .attestationRequest s = .next s) ∧
    (s.root.boot = .running → k + 4096 ≤ 2 ^ 48 → onRetired s k 4096 = false → MemoriesOk s → clear k 4096 →
      (∀ q ∈ s.ctxs, q.2.valid = true → mapsBytes s q.2 k 4096 = false) →
      let x := getCtx s (Fin.ofNat 4096 s.ev.n)
      ∃ s', exec .attestationRequest s = .next s' ∧
        memRead s'.mem k 8 = bytesNat reportMagic ∧
        memRead s'.mem (k + 0x08) 8 = (if s.ev.flag then 2 ^ 64 - 1 else s.ev.n % 4096) ∧
        memRead s'.mem (k + 0x10) 32 = bytesNat s.ev.bytes % 2 ^ 256 ∧
        memRead s'.mem (k + 0x30) 64 = s.root.measurement.toNat ∧
        (s.ev.flag = false → x.valid = true → memRead s'.mem (k + 0x70) 64 = (patternDigest x).toNat) ∧
        memRead s'.mem (k + 0xB0) 8 = s.root.svn % 2 ^ 64 ∧ memRead s'.mem (k + 0xB8) 8 = s.root.rollback % 2 ^ 64 ∧
        memRead s'.mem (k + 0xE0) 8 = (if s.ev.flag = false ∧ x.valid = false then 1 else 0) ∧
        memRead s'.mem (k + 0x100) 3309 =
          (Config.mldsaSign s.root.draws (reportBody s s.ev.bytes (if s.ev.flag then none else some (Fin.ofNat 4096 s.ev.n))) reportMagic).toNat
            % 256 ^ 3309 ∧
        s'.root.draws = s.root.draws + 1 ∧ ∀ a, a < k ∨ k + 4096 ≤ a → memGet s'.mem a = memGet s.mem a)

/-- Errors are counted, poison their line, word or leaf, retire leaves and channels, and fill the health block. Every
error is counted. A corrected error changes nothing else; an uncorrectable line or scratchpad word is poisoned with no
byte changed, and a store under way that has written into the line will not clear that poison; a leaf counts 1 or 3,
is poisoned when uncorrectable, and at 3 leaves service for good; a cleared count is 0 and a rebuilt free list has
every leaf in service, in the order of the numbers (the model's choice, log 8); a channel is retired only when no
valid context and no queue block is left on it or on one retired before; the health block holds the counts and VREC
follows the log's WRITE; the pass check marks exactly the worn channels and ages the poisoned lines, which count for
16 passes (log 92); channel, pass, free list, health block and the record of retired leaves are Usilaem's to keep,
once it runs, so that their events do nothing before the boot has ended (deduced from R376, log 94); a structure error
poisons, corrupts or contains by where it struck. Which count an event of a structure other than device memory raises
is the model's choice (log 77). (19_service.md, R380, R381, R382, R383, R384, R385, R386, R387, R370) -/
def Obligations.ErrorsAreCountedAndRepaired : Prop :=
  ∀ s : State,
    let cl := s.ev.cl
    let co := s.ev.co
    let k := s.ev.k
    let c := getCore s cl co
    let x := k % Config.poolLeaves
    let poisoned (i : Instr) (line : Nat) : Prop := ∃ s', exec i s = .next s' ∧ BytesKept s s' ∧
      (∀ t, let th := getThread s t
        getThread s' t = { th with vq := (getThread s' t).vq, frozen := (getThread s' t).frozen } ∧
        (th.frozen = none → (getThread s' t).frozen = none ∧ (getThread s' t).vq = th.vq.map fun e =>
          if line ∈ e.wrote ∧ line ∉ e.struck then { e with struck := e.struck ++ [line] } else e)) ∧
      (∀ y, y ∈ s'.poisonLines ↔ y = line ∨ y ∈ s.poisonLines) ∧ tgtPoison s' (.dev (64 * line) false) 8 = true ∧
      s'.health.uncorrected = s.health.uncorrected + 1 ∧ s'.health.corrected = s.health.corrected ∧
      (line, 0) ∈ s'.health.poisonedLines ∧ s'.overlaid = (s.overlaid.filter fun b => decide (b / 64 ≠ line)) ∧
      s' = { s with threads := s'.threads, images := s'.images, poisonLines := s'.poisonLines, overlaid := s'.overlaid, health := s'.health }
    let onCore (i : Instr) (h : Health) (c' : Core) : Prop := ∃ s', exec i s = .next s' ∧ getCore s' cl co = c' ∧
      (∀ a b, a ≠ cl ∨ b ≠ co → getCore s' a b = getCore s a b) ∧ s' = { s with cores := s'.cores, health := h }
    let other (bad : Bool) : Health :=
      if bad then { s.health with otherUncorrected := s.health.otherUncorrected + 1 }
      else { s.health with otherCorrected := s.health.otherCorrected + 1 }
    (∀ a, s.ev.corrected = .line a →
      exec .correctedError s = .next { s with health := { s.health with
        corrected := s.health.corrected + 1
        struck := if s.health.struck.contains (a / 64) then s.health.struck else s.health.struck ++ [a / 64] } }) ∧
    (∀ a, s.ev.corrected = .cache a →
      exec .correctedError s = .next { s with health := { s.health with corrected := s.health.corrected + 1 } }) ∧
    ((∃ a b w, s.ev.corrected = .scratchpad a b w) ∨ s.ev.corrected = .other →
      exec .correctedError s = .next { s with health := other false }) ∧
    poisoned .linePoison k ∧ (s.ev.flag = true → poisoned .patrolScrub k) ∧
    (s.ev.flag = false → exec .patrolScrub s = .next s) ∧
    (∃ s', exec .scratchpadPoison s = .next s' ∧ BytesKept s s' ∧ s' = { s with poisonSpad := s'.poisonSpad, health := other true } ∧
      (∀ y, y ∈ s.poisonSpad → y ∈ s'.poisonSpad) ∧
      tgtPoison s' (.spad (spadKey cl (co.val * Config.spadBytes + k % (Config.spadBytes / 8) * 8))) 8 = true) ∧
    (let n := mapGet 0 c.leafErrs x + if s.ev.flag then 3 else 1
     (n < 3 → onCore .leafError (other s.ev.flag) { c with leafErrs := mapPut c.leafErrs x n }) ∧
     (3 ≤ n → x ∉ c.retired →
       ∃ s', exec .leafError s = .next s' ∧ BytesKept s s' ∧ s'.health = other s.ev.flag ∧ (getCore s' cl co).retired = x :: c.retired ∧
         (∀ y, y ∈ (getCore s' cl co).freed ↔ y ∈ c.freed ∧ y ≠ x) ∧ mapGet 0 (getCore s' cl co).leafErrs x = n ∧
         s'.root = (if s.root.boot = .running then { s.root with retiredLeaves := s.root.retiredLeaves ++ [(coreKey cl co, x)] }
           else s.root)) ∧
     (s.ev.flag = true → ∀ l, mapFind c.leaves x = some l →
       ∃ s', exec .leafError s = .next s' ∧ BytesKept s s' ∧
         mapFind (getCore s' cl co).leaves x = some { l with poison := true, hdrPoison := l.hdrPoison || s.ev.flag2 })) ∧
    (c.leafErrs.Pairwise (fun a b => a.1 < b.1) →
      ∃ s', exec .leafErrorCountClear s = .next s' ∧ BytesKept s s' ∧ mapGet 0 (getCore s' cl co).leafErrs x = 0 ∧
        (∀ y, y ≠ x → mapGet 0 (getCore s' cl co).leafErrs y = mapGet 0 c.leafErrs y) ∧ s' = { s with cores := s'.cores }) ∧
    (s.root.boot ≠ .running → exec .freeListRebuild s = .next s) ∧
    (s.root.boot = .running → c.launch = none → (∀ h : Fin 4, (getThread s (.vec cl co h)).launch = none) →
      onCore .freeListRebuild s.health { c with leaves := [], reclaim := [], fresh := 0, freed := [] }) ∧
    (let ch := s.ev.n % 256
     (s.root.boot ≠ .running → exec .channelRetire s = .next s) ∧
     (s.root.boot = .running → s.ev.pairs = [] → ch ∈ s.health.retiring → ch ∉ s.root.retiredChannels →
       (∀ q ∈ s.ctxs, q.2.valid = true → mapsChannel s ch q.2 = false ∧ mapsService s q.2 = true) →
       (∀ q ∈ s.queues, pageOn ch q.2.block 64 = false ∧ onRetired s q.2.block 64 = false) →
       ∃ s', exec .channelRetire s = .next s' ∧ BytesKept s s' ∧ s'.root.retiredChannels = s.root.retiredChannels ++ [ch] ∧
         ch ∉ s'.health.retiring) ∧
     ∃ s', exec .channelRetire s = .next s' ∧
       (s' = s ∨ ch ∈ s'.root.retiredChannels ∧ (∀ q ∈ s'.queues, pageOn ch q.2.block 64 = false) ∧
         ∀ q ∈ s'.ctxs, q.2.valid = true → mapsChannel s' ch q.2 = false ∧ mapsService s' q.2 = true)) ∧
    (s.root.boot ≠ .running → exec .healthBlockUpdate s = .next s ∧ exec .scrubPassCheck s = .next s) ∧
    (s.root.boot = .running → ∃ s', exec .healthBlockUpdate s = .next s' ∧ s' = { s with mem := s'.mem, health := s'.health } ∧
      s'.health = { s.health with block := healthBytes s } ∧ s'.health.block.length = 4096 ∧
      (slice s'.health.block 0x30 8 = natBytes 8 s.health.uncorrected) ∧ (slice s'.health.block 0x38 8 = natBytes 8 s.health.corrected) ∧
      ∀ n y, s.ctxs = [(n, y)] → y.valid = true → MemoriesOk s →
        memRead s'.mem (y.errec + 60) 4 = memRead s.mem y.vlog 8 % 2 ^ 32 ∧
        ∀ a, a < y.errec + 60 ∨ y.errec + 64 ≤ a → memGet s'.mem a = memGet s.mem a) ∧
    (s.root.boot = .running → ∃ s', exec .scrubPassCheck s = .next s' ∧
      s' = { s with health := { s.health with
        struck := [], retiring := s'.health.retiring
        poisonedLines := (s.health.poisonedLines.filter fun p => decide (p.2 < 15)).map fun p => (p.1, p.2 + 1) } } ∧
      ∀ n, n < 256 → (n ∈ s'.health.retiring ↔
        n ∈ s.health.retiring ∨ (n ∉ s.root.retiredChannels ∧
          (2 ≤ (onChannel n (s.health.poisonedLines.map Prod.fst)).length ∨ 1024 < (onChannel n s.health.struck).length)))) ∧
    (∀ (z : Fin 64) (u ac : Fin 4) (r q : Fin 32), s.ev.structure_ = .accumulator z u ac r q →
      ∃ s', exec .uncorrectableStructureError s = .next s' ∧ s' = { s with clusters := s'.clusters, health := other true } ∧
        (u.val * 4096 + ac.val * 1024 + r.val * 32 + q.val) ∈ (getCluster s' z).accBad) ∧
    (∀ y, s.ev.structure_ = .cacheClean y → exec .uncorrectableStructureError s =
      .next { s with health := { s.health with uncorrected := s.health.uncorrected + 1 } }) ∧
    (∀ y, s.ev.structure_ = .cacheDirty y → poisoned .uncorrectableStructureError y) ∧
    (∀ a b y w, s.ev.structure_ = .pattern a b y → mapFind (getCore s a b).store y = some w →
      ∃ s', exec .uncorrectableStructureError s = .next s' ∧ s' = { s with cores := s'.cores, health := other true } ∧
        mapFind (getCore s' a b).store y = some { w with bad := true }) ∧
    (∀ ctx : Fin 4096, (∀ q ∈ s.queues, q.2.ctx ≠ ctx) → (∀ u, (getThread s u).out = []) →
      (∃ a b, s.ev.structure_ = .coreTlb a b ctx ∧ (getCtx s ctx).valid = true) ∨
      (∃ a, s.ev.structure_ = .clusterTlb a ctx ∧ (getCtx s ctx).valid = true) ∨
      (∃ t, s.ev.structure_ = .vectorQueue t ∧ (getThread s t).ctx = ctx ∧ (getThread s t).launch ≠ none) ∨
      (∃ j i, s.ev.structure_ = .imageInFlight j ∧ mapFind s.images j = some i ∧ i.ctx = ctx) →
      ∃ s', exec .uncorrectableStructureError s = .next s' ∧ (getCtx s' ctx).dead = true ∧ s'.health = other true)

/-- Every instruction and event ends in a next state; only an access outside the physical address space stops. For every
instruction of the table but the two events by which the host and an Ethernet port reach memory, and for every state,
exec answers a next state: faults are taken as the specification says, waits leave the instruction to be tried again.
Those two events answer a next state too whenever the bytes they reach lie below 2^48, and whatever they reach while
the device is not running (a host read apart, which is bounded then too) or the frame is too long; they stop, with the
address, just when they would reach a byte at 2^48 or above. That such an access, which the specification gives no
outcome, stops is the model's DESIGN CHOICE (log 61). No step is refused. (00_scope.md, 18_contexts.md, 19_service.md,
R128, R350, R356, R346, R375) -/
def Obligations.NoInstructionStopsTheDevice : Prop :=
  ∀ (i : Instr) (s : State),
    let frame := s.root.boot = .running ∧ s.ev.bytes.length ≤ 9216
    (i ≠ .hostBarAccess → i ≠ .ethernetFrameReceive → ∃ t, exec i s = .next t) ∧
    (∀ a n, s.ev.host = .read a n →
      (a + n ≤ 2 ^ 48 → ∃ t, exec .hostBarAccess s = .next t) ∧
      (2 ^ 48 < a + n → exec .hostBarAccess s = .fault (.noSuchAddress a))) ∧
    (∀ a b, s.ev.host = .write a b →
      (a + b.length ≤ 2 ^ 48 ∨ s.root.boot ≠ .running → ∃ t, exec .hostBarAccess s = .next t) ∧
      (2 ^ 48 < a + b.length → s.root.boot = .running → exec .hostBarAccess s = .fault (.noSuchAddress a))) ∧
    ((∀ a n, s.ev.host ≠ .read a n) → (∀ a b, s.ev.host ≠ .write a b) → ∃ t, exec .hostBarAccess s = .next t) ∧
    (s.ev.k + s.ev.bytes.length ≤ 2 ^ 48 ∨ ¬ frame → ∃ t, exec .ethernetFrameReceive s = .next t) ∧
    (2 ^ 48 < s.ev.k + s.ev.bytes.length → frame → exec .ethernetFrameReceive s = .fault (.noSuchAddress s.ev.k)) ∧
    (∀ r, exec i s ≠ .refused r) ∧
    ∀ f, exec i s = .fault f → (i = .hostBarAccess ∨ i = .ethernetFrameReceive) ∧ ∃ a, f = .noSuchAddress a

/-- Every step keeps the three memories in canonical form. If device memory, the scratchpads and the peers' memory are
each a list of addresses that strictly rise with no listed byte equal to what an unlisted address reads as, so are
they after every step, whichever thread or event it runs: equal memories stay equal data. The form is the model's own
(log 7). (10_kernel.md, 18_contexts.md, 19_service.md, R23, R350, R354) -/
def Obligations.MemoriesKeepTheirForm : Prop :=
  ∀ s t : State, MemoriesOk s → step s = .next t → MemoriesOk t

/-- Reset: memories in form, no context, queue or launch, links down, and each thread idle. At reset the memories are in
canonical form and read zero (log 7), the boot ROM has still to run, no context is valid and no queue or launch
exists, every link reads LINKSTAT 0, the health block shows no error and nothing retired, every cluster has a budget
of 16 units and no cap, every core has all its leaves free, and every thread is idle with the register values that the
specification gives at a start, or zero (log 6). (18_contexts.md, 19_service.md, R86, R281, R282, R349, R373, R376,
R384) -/
def Obligations.ResetLeavesAnEmptyDevice : Prop :=
  MemoriesOk State.reset ∧ State.reset.health.block = healthBytes State.reset ∧ (∀ t, csrValue State.reset t 0x006 = 0) ∧ State.reset.root.boot = .reset ∧ State.reset.queues = [] ∧ State.reset.launches = [] ∧
  (∀ a, memGet State.reset.mem a = 0 ∧ memGet State.reset.spad a = 0 ∧ memGet State.reset.peer a = 0) ∧
  (∀ c, (getCtx State.reset c).valid = false) ∧ (∀ p, linkStat (getLink State.reset p) = 0) ∧
  (∀ cl, (getCluster State.reset cl).budget = 16 ∧ (getCluster State.reset cl).powcap = 4096) ∧
  (∀ cl co, (getCore State.reset cl co).leaves = [] ∧ (getCore State.reset cl co).retired = []) ∧
  ∀ t, (getThread State.reset t).tstate = .idle ∧ (getThread State.reset t).launch = none ∧
    (getThread State.reset t).vl = 0 ∧ (getThread State.reset t).fflags = 0 ∧ (getThread State.reset t).frm = 0 ∧
    (getThread State.reset t).xbound = BitVec.allOnes 64 ∧ (∀ r, readG (getThread State.reset t) r = 0) ∧
    ∀ d : Fin 32, (getThread State.reset t).v[d.val] = Desc.empty
end

