-- ==== Sys2Proof/Laws/State.lean ====
section
/-!
SUPPORT. What the tables and the record updates of the state answer: a lookup after a put, and every field after each
update.
-/

set_option Elab.async false

namespace Sys2Proof.Machine

@[simp] theorem mapFind_mapPut_self {α : Type} (m : SMap α) (k : Nat) (v : α) : mapFind (mapPut m k v) k = some v := by
  induction m with
  | nil => simp [mapPut, mapFind]
  | cons p r ih =>
    obtain ⟨a, w⟩ := p
    unfold mapPut
    split
    · simp [mapFind]
    · split
      · simp [mapFind]
      · rename_i h1 h2
        simp [mapFind, Ne.symm h2, h1, ih]

theorem mapFind_mapPut_other {α : Type} (m : SMap α) {k j : Nat} (v : α) (h : j ≠ k) :
    mapFind (mapPut m k v) j = mapFind m j := by
  induction m with
  | nil => simp [mapPut, mapFind, Ne.symm h]
  | cons p r ih =>
    obtain ⟨a, w⟩ := p
    unfold mapPut
    split
    · rename_i h1
      by_cases h2 : j < k
      · simp [mapFind, Ne.symm h, h2, show ¬ a = j by omega, show j < a by omega]
      · simp [mapFind, Ne.symm h, h2]
    · split
      · rename_i h1 h2
        subst h2
        simp [mapFind, Ne.symm h]
      · simp [mapFind, ih]

theorem mapGet_mapPut_self {α : Type} (d : α) (m : SMap α) (k : Nat) (v : α) : mapGet d (mapPut m k v) k = v := by
  simp [mapGet]

theorem mapGet_mapPut_other {α : Type} (d : α) (m : SMap α) {k j : Nat} (v : α) (h : j ≠ k) :
    mapGet d (mapPut m k v) j = mapGet d m j := by
  simp [mapGet, mapFind_mapPut_other m v h]

/-- Every thread has a key of its own. -/
theorem tidKey_inj {x y : Tid} (h : tidKey x = tidKey y) : x = y := by
  cases x <;> cases y <;> simp only [tidKey, coreKey] at h
  · rename_i a b c d e f
    have := a.isLt; have := b.isLt; have := c.isLt; have := d.isLt; have := e.isLt; have := f.isLt
    have h1 : a = d := Fin.ext (by omega)
    have h2 : b = e := Fin.ext (by omega)
    have h3 : c = f := Fin.ext (by omega)
    rw [h1, h2, h3]
  · rename_i a b c d
    have := a.isLt; have := b.isLt; have := c.isLt
    omega
  · rename_i a b c d
    have := b.isLt; have := c.isLt; have := d.isLt
    omega
  · rename_i a b
    rw [Fin.ext (show a.val = b.val by omega)]

theorem coreKey_inj {a b : Fin 64} {c d : Fin 8} (h : coreKey a c = coreKey b d) : a = b ∧ c = d := by
  have := c.isLt; have := d.isLt
  simp only [coreKey] at h
  exact ⟨Fin.ext (by omega), Fin.ext (by omega)⟩

@[simp] theorem getThread_putThread_self (s : State) (t : Tid) (th : Thread) : getThread (putThread s t th) t = th := by
  simp [getThread, putThread, mapGet]

theorem getThread_putThread_other (s : State) {t u : Tid} (th : Thread) (h : u ≠ t) :
    getThread (putThread s t th) u = getThread s u :=
  mapGet_mapPut_other _ _ _ fun c => h (tidKey_inj c)

@[simp] theorem getCore_putCore_self (s : State) (cl : Fin 64) (co : Fin 8) (c : Core) :
    getCore (putCore s cl co c) cl co = c := by
  simp [getCore, putCore, mapGet]

theorem getCore_putCore_other (s : State) {cl cl' : Fin 64} {co co' : Fin 8} (c : Core) (h : cl' ≠ cl ∨ co' ≠ co) :
    getCore (putCore s cl co c) cl' co' = getCore s cl' co' :=
  mapGet_mapPut_other _ _ _ fun e => by
    obtain ⟨h1, h2⟩ := coreKey_inj e
    exact h.elim (fun x => x h1) (fun x => x h2)

@[simp] theorem getCluster_putCluster_self (s : State) (cl : Fin 64) (c : Cluster) :
    getCluster (putCluster s cl c) cl = c := by
  simp [getCluster, putCluster, mapGet]

theorem getCluster_putCluster_other (s : State) {cl cl' : Fin 64} (c : Cluster) (h : cl' ≠ cl) :
    getCluster (putCluster s cl c) cl' = getCluster s cl' :=
  mapGet_mapPut_other _ _ _ fun e => h (Fin.ext e)

@[simp] theorem getCtx_putCtx_self (s : State) (c : Fin 4096) (x : Context) : getCtx (putCtx s c x) c = x := by
  simp [getCtx, putCtx, mapGet]

theorem getCtx_putCtx_other (s : State) {c c' : Fin 4096} (x : Context) (h : c' ≠ c) :
    getCtx (putCtx s c x) c' = getCtx s c' :=
  mapGet_mapPut_other _ _ _ fun e => h (Fin.ext e)

@[simp] theorem getLaunch_putLaunch_self (s : State) (l : Nat) (x : Launch) : getLaunch (putLaunch s l x) l = some x := by
  simp [getLaunch, putLaunch]

theorem getLaunch_putLaunch_other (s : State) {l l' : Nat} (x : Launch) (h : l' ≠ l) :
    getLaunch (putLaunch s l x) l' = getLaunch s l' :=
  mapFind_mapPut_other _ _ h

@[simp] theorem putThread_cur (s : State) (t : Tid) (th : Thread) : (putThread s t th).cur = s.cur := rfl
@[simp] theorem putThread_agenda (s : State) (t : Tid) (th : Thread) : (putThread s t th).agenda = s.agenda := rfl
@[simp] theorem putThread_ev (s : State) (t : Tid) (th : Thread) : (putThread s t th).ev = s.ev := rfl
@[simp] theorem putThread_stalled (s : State) (t : Tid) (th : Thread) : (putThread s t th).stalled = s.stalled := rfl
@[simp] theorem putThread_freeCtr (s : State) (t : Tid) (th : Thread) : (putThread s t th).freeCtr = s.freeCtr := rfl
@[simp] theorem putThread_cyc (s : State) (t : Tid) (th : Thread) : (putThread s t th).cyc = s.cyc := rfl
@[simp] theorem putThread_cores (s : State) (t : Tid) (th : Thread) : (putThread s t th).cores = s.cores := rfl
@[simp] theorem putThread_clusters (s : State) (t : Tid) (th : Thread) : (putThread s t th).clusters = s.clusters := rfl
@[simp] theorem putThread_mem (s : State) (t : Tid) (th : Thread) : (putThread s t th).mem = s.mem := rfl
@[simp] theorem putThread_spad (s : State) (t : Tid) (th : Thread) : (putThread s t th).spad = s.spad := rfl
@[simp] theorem putThread_peer (s : State) (t : Tid) (th : Thread) : (putThread s t th).peer = s.peer := rfl
@[simp] theorem putThread_poisonLines (s : State) (t : Tid) (th : Thread) : (putThread s t th).poisonLines = s.poisonLines := rfl
@[simp] theorem putThread_overlaid (s : State) (t : Tid) (th : Thread) : (putThread s t th).overlaid = s.overlaid := rfl
@[simp] theorem putThread_poisonSpad (s : State) (t : Tid) (th : Thread) : (putThread s t th).poisonSpad = s.poisonSpad := rfl
@[simp] theorem putThread_watermarks (s : State) (t : Tid) (th : Thread) : (putThread s t th).watermarks = s.watermarks := rfl
@[simp] theorem putThread_ctxs (s : State) (t : Tid) (th : Thread) : (putThread s t th).ctxs = s.ctxs := rfl
@[simp] theorem putThread_queues (s : State) (t : Tid) (th : Thread) : (putThread s t th).queues = s.queues := rfl
@[simp] theorem putThread_launches (s : State) (t : Tid) (th : Thread) : (putThread s t th).launches = s.launches := rfl
@[simp] theorem putThread_nextLaunch (s : State) (t : Tid) (th : Thread) : (putThread s t th).nextLaunch = s.nextLaunch := rfl
@[simp] theorem putThread_feLast (s : State) (t : Tid) (th : Thread) : (putThread s t th).feLast = s.feLast := rfl
@[simp] theorem putThread_images (s : State) (t : Tid) (th : Thread) : (putThread s t th).images = s.images := rfl
@[simp] theorem putThread_regions (s : State) (t : Tid) (th : Thread) : (putThread s t th).regions = s.regions := rfl
@[simp] theorem putThread_casLists (s : State) (t : Tid) (th : Thread) : (putThread s t th).casLists = s.casLists := rfl
@[simp] theorem putThread_links (s : State) (t : Tid) (th : Thread) : (putThread s t th).links = s.links := rfl
@[simp] theorem putThread_peerSeq (s : State) (t : Tid) (th : Thread) : (putThread s t th).peerSeq = s.peerSeq := rfl
@[simp] theorem putThread_peerWait (s : State) (t : Tid) (th : Thread) : (putThread s t th).peerWait = s.peerWait := rfl
@[simp] theorem putThread_silent (s : State) (t : Tid) (th : Thread) : (putThread s t th).silent = s.silent := rfl
@[simp] theorem putThread_msix (s : State) (t : Tid) (th : Thread) : (putThread s t th).msix = s.msix := rfl
@[simp] theorem putThread_aer (s : State) (t : Tid) (th : Thread) : (putThread s t th).aer = s.aer := rfl
@[simp] theorem putThread_devPos (s : State) (t : Tid) (th : Thread) : (putThread s t th).devPos = s.devPos := rfl
@[simp] theorem putThread_blocks (s : State) (t : Tid) (th : Thread) : (putThread s t th).blocks = s.blocks := rfl
@[simp] theorem putThread_root (s : State) (t : Tid) (th : Thread) : (putThread s t th).root = s.root := rfl
@[simp] theorem putThread_health (s : State) (t : Tid) (th : Thread) : (putThread s t th).health = s.health := rfl

@[simp] theorem putCore_cur (s : State) (cl : Fin 64) (co : Fin 8) (c : Core) : (putCore s cl co c).cur = s.cur := rfl
@[simp] theorem putCore_agenda (s : State) (cl : Fin 64) (co : Fin 8) (c : Core) : (putCore s cl co c).agenda = s.agenda := rfl
@[simp] theorem putCore_ev (s : State) (cl : Fin 64) (co : Fin 8) (c : Core) : (putCore s cl co c).ev = s.ev := rfl
@[simp] theorem putCore_stalled (s : State) (cl : Fin 64) (co : Fin 8) (c : Core) : (putCore s cl co c).stalled = s.stalled := rfl
@[simp] theorem putCore_freeCtr (s : State) (cl : Fin 64) (co : Fin 8) (c : Core) : (putCore s cl co c).freeCtr = s.freeCtr := rfl
@[simp] theorem putCore_cyc (s : State) (cl : Fin 64) (co : Fin 8) (c : Core) : (putCore s cl co c).cyc = s.cyc := rfl
@[simp] theorem putCore_threads (s : State) (cl : Fin 64) (co : Fin 8) (c : Core) : (putCore s cl co c).threads = s.threads := rfl
@[simp] theorem putCore_clusters (s : State) (cl : Fin 64) (co : Fin 8) (c : Core) : (putCore s cl co c).clusters = s.clusters := rfl
@[simp] theorem putCore_mem (s : State) (cl : Fin 64) (co : Fin 8) (c : Core) : (putCore s cl co c).mem = s.mem := rfl
@[simp] theorem putCore_spad (s : State) (cl : Fin 64) (co : Fin 8) (c : Core) : (putCore s cl co c).spad = s.spad := rfl
@[simp] theorem putCore_peer (s : State) (cl : Fin 64) (co : Fin 8) (c : Core) : (putCore s cl co c).peer = s.peer := rfl
@[simp] theorem putCore_poisonLines (s : State) (cl : Fin 64) (co : Fin 8) (c : Core) : (putCore s cl co c).poisonLines = s.poisonLines := rfl
@[simp] theorem putCore_overlaid (s : State) (cl : Fin 64) (co : Fin 8) (c : Core) : (putCore s cl co c).overlaid = s.overlaid := rfl
@[simp] theorem putCore_poisonSpad (s : State) (cl : Fin 64) (co : Fin 8) (c : Core) : (putCore s cl co c).poisonSpad = s.poisonSpad := rfl
@[simp] theorem putCore_watermarks (s : State) (cl : Fin 64) (co : Fin 8) (c : Core) : (putCore s cl co c).watermarks = s.watermarks := rfl
@[simp] theorem putCore_ctxs (s : State) (cl : Fin 64) (co : Fin 8) (c : Core) : (putCore s cl co c).ctxs = s.ctxs := rfl
@[simp] theorem putCore_queues (s : State) (cl : Fin 64) (co : Fin 8) (c : Core) : (putCore s cl co c).queues = s.queues := rfl
@[simp] theorem putCore_launches (s : State) (cl : Fin 64) (co : Fin 8) (c : Core) : (putCore s cl co c).launches = s.launches := rfl
@[simp] theorem putCore_nextLaunch (s : State) (cl : Fin 64) (co : Fin 8) (c : Core) : (putCore s cl co c).nextLaunch = s.nextLaunch := rfl
@[simp] theorem putCore_feLast (s : State) (cl : Fin 64) (co : Fin 8) (c : Core) : (putCore s cl co c).feLast = s.feLast := rfl
@[simp] theorem putCore_images (s : State) (cl : Fin 64) (co : Fin 8) (c : Core) : (putCore s cl co c).images = s.images := rfl
@[simp] theorem putCore_regions (s : State) (cl : Fin 64) (co : Fin 8) (c : Core) : (putCore s cl co c).regions = s.regions := rfl
@[simp] theorem putCore_casLists (s : State) (cl : Fin 64) (co : Fin 8) (c : Core) : (putCore s cl co c).casLists = s.casLists := rfl
@[simp] theorem putCore_links (s : State) (cl : Fin 64) (co : Fin 8) (c : Core) : (putCore s cl co c).links = s.links := rfl
@[simp] theorem putCore_peerSeq (s : State) (cl : Fin 64) (co : Fin 8) (c : Core) : (putCore s cl co c).peerSeq = s.peerSeq := rfl
@[simp] theorem putCore_peerWait (s : State) (cl : Fin 64) (co : Fin 8) (c : Core) : (putCore s cl co c).peerWait = s.peerWait := rfl
@[simp] theorem putCore_silent (s : State) (cl : Fin 64) (co : Fin 8) (c : Core) : (putCore s cl co c).silent = s.silent := rfl
@[simp] theorem putCore_msix (s : State) (cl : Fin 64) (co : Fin 8) (c : Core) : (putCore s cl co c).msix = s.msix := rfl
@[simp] theorem putCore_aer (s : State) (cl : Fin 64) (co : Fin 8) (c : Core) : (putCore s cl co c).aer = s.aer := rfl
@[simp] theorem putCore_devPos (s : State) (cl : Fin 64) (co : Fin 8) (c : Core) : (putCore s cl co c).devPos = s.devPos := rfl
@[simp] theorem putCore_blocks (s : State) (cl : Fin 64) (co : Fin 8) (c : Core) : (putCore s cl co c).blocks = s.blocks := rfl
@[simp] theorem putCore_root (s : State) (cl : Fin 64) (co : Fin 8) (c : Core) : (putCore s cl co c).root = s.root := rfl
@[simp] theorem putCore_health (s : State) (cl : Fin 64) (co : Fin 8) (c : Core) : (putCore s cl co c).health = s.health := rfl

@[simp] theorem putCluster_cur (s : State) (cl : Fin 64) (c : Cluster) : (putCluster s cl c).cur = s.cur := rfl
@[simp] theorem putCluster_agenda (s : State) (cl : Fin 64) (c : Cluster) : (putCluster s cl c).agenda = s.agenda := rfl
@[simp] theorem putCluster_ev (s : State) (cl : Fin 64) (c : Cluster) : (putCluster s cl c).ev = s.ev := rfl
@[simp] theorem putCluster_stalled (s : State) (cl : Fin 64) (c : Cluster) : (putCluster s cl c).stalled = s.stalled := rfl
@[simp] theorem putCluster_freeCtr (s : State) (cl : Fin 64) (c : Cluster) : (putCluster s cl c).freeCtr = s.freeCtr := rfl
@[simp] theorem putCluster_cyc (s : State) (cl : Fin 64) (c : Cluster) : (putCluster s cl c).cyc = s.cyc := rfl
@[simp] theorem putCluster_threads (s : State) (cl : Fin 64) (c : Cluster) : (putCluster s cl c).threads = s.threads := rfl
@[simp] theorem putCluster_cores (s : State) (cl : Fin 64) (c : Cluster) : (putCluster s cl c).cores = s.cores := rfl
@[simp] theorem putCluster_mem (s : State) (cl : Fin 64) (c : Cluster) : (putCluster s cl c).mem = s.mem := rfl
@[simp] theorem putCluster_spad (s : State) (cl : Fin 64) (c : Cluster) : (putCluster s cl c).spad = s.spad := rfl
@[simp] theorem putCluster_peer (s : State) (cl : Fin 64) (c : Cluster) : (putCluster s cl c).peer = s.peer := rfl
@[simp] theorem putCluster_poisonLines (s : State) (cl : Fin 64) (c : Cluster) : (putCluster s cl c).poisonLines = s.poisonLines := rfl
@[simp] theorem putCluster_overlaid (s : State) (cl : Fin 64) (c : Cluster) : (putCluster s cl c).overlaid = s.overlaid := rfl
@[simp] theorem putCluster_poisonSpad (s : State) (cl : Fin 64) (c : Cluster) : (putCluster s cl c).poisonSpad = s.poisonSpad := rfl
@[simp] theorem putCluster_watermarks (s : State) (cl : Fin 64) (c : Cluster) : (putCluster s cl c).watermarks = s.watermarks := rfl
@[simp] theorem putCluster_ctxs (s : State) (cl : Fin 64) (c : Cluster) : (putCluster s cl c).ctxs = s.ctxs := rfl
@[simp] theorem putCluster_queues (s : State) (cl : Fin 64) (c : Cluster) : (putCluster s cl c).queues = s.queues := rfl
@[simp] theorem putCluster_launches (s : State) (cl : Fin 64) (c : Cluster) : (putCluster s cl c).launches = s.launches := rfl
@[simp] theorem putCluster_nextLaunch (s : State) (cl : Fin 64) (c : Cluster) : (putCluster s cl c).nextLaunch = s.nextLaunch := rfl
@[simp] theorem putCluster_feLast (s : State) (cl : Fin 64) (c : Cluster) : (putCluster s cl c).feLast = s.feLast := rfl
@[simp] theorem putCluster_images (s : State) (cl : Fin 64) (c : Cluster) : (putCluster s cl c).images = s.images := rfl
@[simp] theorem putCluster_regions (s : State) (cl : Fin 64) (c : Cluster) : (putCluster s cl c).regions = s.regions := rfl
@[simp] theorem putCluster_casLists (s : State) (cl : Fin 64) (c : Cluster) : (putCluster s cl c).casLists = s.casLists := rfl
@[simp] theorem putCluster_links (s : State) (cl : Fin 64) (c : Cluster) : (putCluster s cl c).links = s.links := rfl
@[simp] theorem putCluster_peerSeq (s : State) (cl : Fin 64) (c : Cluster) : (putCluster s cl c).peerSeq = s.peerSeq := rfl
@[simp] theorem putCluster_peerWait (s : State) (cl : Fin 64) (c : Cluster) : (putCluster s cl c).peerWait = s.peerWait := rfl
@[simp] theorem putCluster_silent (s : State) (cl : Fin 64) (c : Cluster) : (putCluster s cl c).silent = s.silent := rfl
@[simp] theorem putCluster_msix (s : State) (cl : Fin 64) (c : Cluster) : (putCluster s cl c).msix = s.msix := rfl
@[simp] theorem putCluster_aer (s : State) (cl : Fin 64) (c : Cluster) : (putCluster s cl c).aer = s.aer := rfl
@[simp] theorem putCluster_devPos (s : State) (cl : Fin 64) (c : Cluster) : (putCluster s cl c).devPos = s.devPos := rfl
@[simp] theorem putCluster_blocks (s : State) (cl : Fin 64) (c : Cluster) : (putCluster s cl c).blocks = s.blocks := rfl
@[simp] theorem putCluster_root (s : State) (cl : Fin 64) (c : Cluster) : (putCluster s cl c).root = s.root := rfl
@[simp] theorem putCluster_health (s : State) (cl : Fin 64) (c : Cluster) : (putCluster s cl c).health = s.health := rfl

@[simp] theorem putCtx_cur (s : State) (c : Fin 4096) (x : Context) : (putCtx s c x).cur = s.cur := rfl
@[simp] theorem putCtx_agenda (s : State) (c : Fin 4096) (x : Context) : (putCtx s c x).agenda = s.agenda := rfl
@[simp] theorem putCtx_ev (s : State) (c : Fin 4096) (x : Context) : (putCtx s c x).ev = s.ev := rfl
@[simp] theorem putCtx_stalled (s : State) (c : Fin 4096) (x : Context) : (putCtx s c x).stalled = s.stalled := rfl
@[simp] theorem putCtx_freeCtr (s : State) (c : Fin 4096) (x : Context) : (putCtx s c x).freeCtr = s.freeCtr := rfl
@[simp] theorem putCtx_cyc (s : State) (c : Fin 4096) (x : Context) : (putCtx s c x).cyc = s.cyc := rfl
@[simp] theorem putCtx_threads (s : State) (c : Fin 4096) (x : Context) : (putCtx s c x).threads = s.threads := rfl
@[simp] theorem putCtx_cores (s : State) (c : Fin 4096) (x : Context) : (putCtx s c x).cores = s.cores := rfl
@[simp] theorem putCtx_clusters (s : State) (c : Fin 4096) (x : Context) : (putCtx s c x).clusters = s.clusters := rfl
@[simp] theorem putCtx_mem (s : State) (c : Fin 4096) (x : Context) : (putCtx s c x).mem = s.mem := rfl
@[simp] theorem putCtx_spad (s : State) (c : Fin 4096) (x : Context) : (putCtx s c x).spad = s.spad := rfl
@[simp] theorem putCtx_peer (s : State) (c : Fin 4096) (x : Context) : (putCtx s c x).peer = s.peer := rfl
@[simp] theorem putCtx_poisonLines (s : State) (c : Fin 4096) (x : Context) : (putCtx s c x).poisonLines = s.poisonLines := rfl
@[simp] theorem putCtx_overlaid (s : State) (c : Fin 4096) (x : Context) : (putCtx s c x).overlaid = s.overlaid := rfl
@[simp] theorem putCtx_poisonSpad (s : State) (c : Fin 4096) (x : Context) : (putCtx s c x).poisonSpad = s.poisonSpad := rfl
@[simp] theorem putCtx_watermarks (s : State) (c : Fin 4096) (x : Context) : (putCtx s c x).watermarks = s.watermarks := rfl
@[simp] theorem putCtx_queues (s : State) (c : Fin 4096) (x : Context) : (putCtx s c x).queues = s.queues := rfl
@[simp] theorem putCtx_launches (s : State) (c : Fin 4096) (x : Context) : (putCtx s c x).launches = s.launches := rfl
@[simp] theorem putCtx_nextLaunch (s : State) (c : Fin 4096) (x : Context) : (putCtx s c x).nextLaunch = s.nextLaunch := rfl
@[simp] theorem putCtx_feLast (s : State) (c : Fin 4096) (x : Context) : (putCtx s c x).feLast = s.feLast := rfl
@[simp] theorem putCtx_images (s : State) (c : Fin 4096) (x : Context) : (putCtx s c x).images = s.images := rfl
@[simp] theorem putCtx_regions (s : State) (c : Fin 4096) (x : Context) : (putCtx s c x).regions = s.regions := rfl
@[simp] theorem putCtx_casLists (s : State) (c : Fin 4096) (x : Context) : (putCtx s c x).casLists = s.casLists := rfl
@[simp] theorem putCtx_links (s : State) (c : Fin 4096) (x : Context) : (putCtx s c x).links = s.links := rfl
@[simp] theorem putCtx_peerSeq (s : State) (c : Fin 4096) (x : Context) : (putCtx s c x).peerSeq = s.peerSeq := rfl
@[simp] theorem putCtx_peerWait (s : State) (c : Fin 4096) (x : Context) : (putCtx s c x).peerWait = s.peerWait := rfl
@[simp] theorem putCtx_silent (s : State) (c : Fin 4096) (x : Context) : (putCtx s c x).silent = s.silent := rfl
@[simp] theorem putCtx_msix (s : State) (c : Fin 4096) (x : Context) : (putCtx s c x).msix = s.msix := rfl
@[simp] theorem putCtx_aer (s : State) (c : Fin 4096) (x : Context) : (putCtx s c x).aer = s.aer := rfl
@[simp] theorem putCtx_devPos (s : State) (c : Fin 4096) (x : Context) : (putCtx s c x).devPos = s.devPos := rfl
@[simp] theorem putCtx_blocks (s : State) (c : Fin 4096) (x : Context) : (putCtx s c x).blocks = s.blocks := rfl
@[simp] theorem putCtx_root (s : State) (c : Fin 4096) (x : Context) : (putCtx s c x).root = s.root := rfl
@[simp] theorem putCtx_health (s : State) (c : Fin 4096) (x : Context) : (putCtx s c x).health = s.health := rfl

@[simp] theorem putLaunch_cur (s : State) (l : Nat) (x : Launch) : (putLaunch s l x).cur = s.cur := rfl
@[simp] theorem putLaunch_agenda (s : State) (l : Nat) (x : Launch) : (putLaunch s l x).agenda = s.agenda := rfl
@[simp] theorem putLaunch_ev (s : State) (l : Nat) (x : Launch) : (putLaunch s l x).ev = s.ev := rfl
@[simp] theorem putLaunch_stalled (s : State) (l : Nat) (x : Launch) : (putLaunch s l x).stalled = s.stalled := rfl
@[simp] theorem putLaunch_freeCtr (s : State) (l : Nat) (x : Launch) : (putLaunch s l x).freeCtr = s.freeCtr := rfl
@[simp] theorem putLaunch_cyc (s : State) (l : Nat) (x : Launch) : (putLaunch s l x).cyc = s.cyc := rfl
@[simp] theorem putLaunch_threads (s : State) (l : Nat) (x : Launch) : (putLaunch s l x).threads = s.threads := rfl
@[simp] theorem putLaunch_cores (s : State) (l : Nat) (x : Launch) : (putLaunch s l x).cores = s.cores := rfl
@[simp] theorem putLaunch_clusters (s : State) (l : Nat) (x : Launch) : (putLaunch s l x).clusters = s.clusters := rfl
@[simp] theorem putLaunch_mem (s : State) (l : Nat) (x : Launch) : (putLaunch s l x).mem = s.mem := rfl
@[simp] theorem putLaunch_spad (s : State) (l : Nat) (x : Launch) : (putLaunch s l x).spad = s.spad := rfl
@[simp] theorem putLaunch_peer (s : State) (l : Nat) (x : Launch) : (putLaunch s l x).peer = s.peer := rfl
@[simp] theorem putLaunch_poisonLines (s : State) (l : Nat) (x : Launch) : (putLaunch s l x).poisonLines = s.poisonLines := rfl
@[simp] theorem putLaunch_overlaid (s : State) (l : Nat) (x : Launch) : (putLaunch s l x).overlaid = s.overlaid := rfl
@[simp] theorem putLaunch_poisonSpad (s : State) (l : Nat) (x : Launch) : (putLaunch s l x).poisonSpad = s.poisonSpad := rfl
@[simp] theorem putLaunch_watermarks (s : State) (l : Nat) (x : Launch) : (putLaunch s l x).watermarks = s.watermarks := rfl
@[simp] theorem putLaunch_ctxs (s : State) (l : Nat) (x : Launch) : (putLaunch s l x).ctxs = s.ctxs := rfl
@[simp] theorem putLaunch_queues (s : State) (l : Nat) (x : Launch) : (putLaunch s l x).queues = s.queues := rfl
@[simp] theorem putLaunch_nextLaunch (s : State) (l : Nat) (x : Launch) : (putLaunch s l x).nextLaunch = s.nextLaunch := rfl
@[simp] theorem putLaunch_feLast (s : State) (l : Nat) (x : Launch) : (putLaunch s l x).feLast = s.feLast := rfl
@[simp] theorem putLaunch_images (s : State) (l : Nat) (x : Launch) : (putLaunch s l x).images = s.images := rfl
@[simp] theorem putLaunch_regions (s : State) (l : Nat) (x : Launch) : (putLaunch s l x).regions = s.regions := rfl
@[simp] theorem putLaunch_casLists (s : State) (l : Nat) (x : Launch) : (putLaunch s l x).casLists = s.casLists := rfl
@[simp] theorem putLaunch_links (s : State) (l : Nat) (x : Launch) : (putLaunch s l x).links = s.links := rfl
@[simp] theorem putLaunch_peerSeq (s : State) (l : Nat) (x : Launch) : (putLaunch s l x).peerSeq = s.peerSeq := rfl
@[simp] theorem putLaunch_peerWait (s : State) (l : Nat) (x : Launch) : (putLaunch s l x).peerWait = s.peerWait := rfl
@[simp] theorem putLaunch_silent (s : State) (l : Nat) (x : Launch) : (putLaunch s l x).silent = s.silent := rfl
@[simp] theorem putLaunch_msix (s : State) (l : Nat) (x : Launch) : (putLaunch s l x).msix = s.msix := rfl
@[simp] theorem putLaunch_aer (s : State) (l : Nat) (x : Launch) : (putLaunch s l x).aer = s.aer := rfl
@[simp] theorem putLaunch_devPos (s : State) (l : Nat) (x : Launch) : (putLaunch s l x).devPos = s.devPos := rfl
@[simp] theorem putLaunch_blocks (s : State) (l : Nat) (x : Launch) : (putLaunch s l x).blocks = s.blocks := rfl
@[simp] theorem putLaunch_root (s : State) (l : Nat) (x : Launch) : (putLaunch s l x).root = s.root := rfl
@[simp] theorem putLaunch_health (s : State) (l : Nat) (x : Launch) : (putLaunch s l x).health = s.health := rfl

@[simp] theorem getThread_putCore (s : State) (cl : Fin 64) (co : Fin 8) (c : Core) (u : Tid) :
    getThread (putCore s cl co c) u = getThread s u := rfl
@[simp] theorem getThread_putCluster (s : State) (cl : Fin 64) (c : Cluster) (u : Tid) :
    getThread (putCluster s cl c) u = getThread s u := rfl
@[simp] theorem getThread_putCtx (s : State) (c : Fin 4096) (x : Context) (u : Tid) :
    getThread (putCtx s c x) u = getThread s u := rfl
@[simp] theorem getThread_putLaunch (s : State) (l : Nat) (x : Launch) (u : Tid) :
    getThread (putLaunch s l x) u = getThread s u := rfl
@[simp] theorem getCore_putThread (s : State) (t : Tid) (th : Thread) (d : Fin 64) (e : Fin 8) :
    getCore (putThread s t th) d e = getCore s d e := rfl
@[simp] theorem getCore_putCluster (s : State) (cl : Fin 64) (c : Cluster) (d : Fin 64) (e : Fin 8) :
    getCore (putCluster s cl c) d e = getCore s d e := rfl
@[simp] theorem getCore_putCtx (s : State) (c : Fin 4096) (x : Context) (d : Fin 64) (e : Fin 8) :
    getCore (putCtx s c x) d e = getCore s d e := rfl
@[simp] theorem getCore_putLaunch (s : State) (l : Nat) (x : Launch) (d : Fin 64) (e : Fin 8) :
    getCore (putLaunch s l x) d e = getCore s d e := rfl
@[simp] theorem getCluster_putThread (s : State) (t : Tid) (th : Thread) (d : Fin 64) :
    getCluster (putThread s t th) d = getCluster s d := rfl
@[simp] theorem getCluster_putCore (s : State) (cl : Fin 64) (co : Fin 8) (c : Core) (d : Fin 64) :
    getCluster (putCore s cl co c) d = getCluster s d := rfl
@[simp] theorem getCluster_putCtx (s : State) (c : Fin 4096) (x : Context) (d : Fin 64) :
    getCluster (putCtx s c x) d = getCluster s d := rfl
@[simp] theorem getCluster_putLaunch (s : State) (l : Nat) (x : Launch) (d : Fin 64) :
    getCluster (putLaunch s l x) d = getCluster s d := rfl
@[simp] theorem getCtx_putThread (s : State) (t : Tid) (th : Thread) (d : Fin 4096) :
    getCtx (putThread s t th) d = getCtx s d := rfl
@[simp] theorem getCtx_putCore (s : State) (cl : Fin 64) (co : Fin 8) (c : Core) (d : Fin 4096) :
    getCtx (putCore s cl co c) d = getCtx s d := rfl
@[simp] theorem getCtx_putCluster (s : State) (cl : Fin 64) (c : Cluster) (d : Fin 4096) :
    getCtx (putCluster s cl c) d = getCtx s d := rfl
@[simp] theorem getCtx_putLaunch (s : State) (l : Nat) (x : Launch) (d : Fin 4096) :
    getCtx (putLaunch s l x) d = getCtx s d := rfl
@[simp] theorem getLaunch_putThread (s : State) (t : Tid) (th : Thread) (d : Nat) :
    getLaunch (putThread s t th) d = getLaunch s d := rfl
@[simp] theorem getLaunch_putCore (s : State) (cl : Fin 64) (co : Fin 8) (c : Core) (d : Nat) :
    getLaunch (putCore s cl co c) d = getLaunch s d := rfl
@[simp] theorem getLaunch_putCluster (s : State) (cl : Fin 64) (c : Cluster) (d : Nat) :
    getLaunch (putCluster s cl c) d = getLaunch s d := rfl
@[simp] theorem getLaunch_putCtx (s : State) (c : Fin 4096) (x : Context) (d : Nat) :
    getLaunch (putCtx s c x) d = getLaunch s d := rfl

@[simp] theorem advance_g (th : Thread) (n : Nat) : (advance th n).g = th.g := rfl
@[simp] theorem advance_pc (th : Thread) (n : Nat) : (advance th n).pc = th.pc + BitVec.ofNat 64 n := rfl
@[simp] theorem advance_ir (th : Thread) (n : Nat) : (advance th n).ir = th.ir := rfl
@[simp] theorem advance_v (th : Thread) (n : Nat) : (advance th n).v = th.v := rfl
@[simp] theorem advance_m (th : Thread) (n : Nat) : (advance th n).m = th.m := rfl
@[simp] theorem advance_vl (th : Thread) (n : Nat) : (advance th n).vl = th.vl := rfl
@[simp] theorem advance_vtype (th : Thread) (n : Nat) : (advance th n).vtype = th.vtype := rfl
@[simp] theorem advance_vstart (th : Thread) (n : Nat) : (advance th n).vstart = th.vstart := rfl
@[simp] theorem advance_maxvl (th : Thread) (n : Nat) : (advance th n).maxvl = th.maxvl := rfl
@[simp] theorem advance_fill (th : Thread) (n : Nat) : (advance th n).fill = th.fill := rfl
@[simp] theorem advance_lbud (th : Thread) (n : Nat) : (advance th n).lbud = th.lbud := rfl
@[simp] theorem advance_budget (th : Thread) (n : Nat) : (advance th n).budget = th.budget := rfl
@[simp] theorem advance_hdrLbud (th : Thread) (n : Nat) : (advance th n).hdrLbud = th.hdrLbud := rfl
@[simp] theorem advance_xbound (th : Thread) (n : Nat) : (advance th n).xbound = th.xbound := rfl
@[simp] theorem advance_fflags (th : Thread) (n : Nat) : (advance th n).fflags = th.fflags := rfl
@[simp] theorem advance_frm (th : Thread) (n : Nat) : (advance th n).frm = th.frm := rfl
@[simp] theorem advance_pcarry (th : Thread) (n : Nat) : (advance th n).pcarry = th.pcarry := rfl
@[simp] theorem advance_carryNext (th : Thread) (n : Nat) : (advance th n).carryNext = th.carryNext := rfl
@[simp] theorem advance_clmode (th : Thread) (n : Nat) : (advance th n).clmode = th.clmode := rfl
@[simp] theorem advance_clrec (th : Thread) (n : Nat) : (advance th n).clrec = th.clrec := rfl
@[simp] theorem advance_bk (th : Thread) (n : Nat) : (advance th n).bk = th.bk := rfl
@[simp] theorem advance_vcp (th : Thread) (n : Nat) : (advance th n).vcp = th.vcp := rfl
@[simp] theorem advance_stage (th : Thread) (n : Nat) : (advance th n).stage = th.stage := rfl
@[simp] theorem advance_ufvec (th : Thread) (n : Nat) : (advance th n).ufvec = th.ufvec := rfl
@[simp] theorem advance_ufmask (th : Thread) (n : Nat) : (advance th n).ufmask = th.ufmask := rfl
@[simp] theorem advance_xcause (th : Thread) (n : Nat) : (advance th n).xcause = th.xcause := rfl
@[simp] theorem advance_xpc (th : Thread) (n : Nat) : (advance th n).xpc = th.xpc := rfl
@[simp] theorem advance_xvpc (th : Thread) (n : Nat) : (advance th n).xvpc = th.xvpc := rfl
@[simp] theorem advance_xqpos (th : Thread) (n : Nat) : (advance th n).xqpos = th.xqpos := rfl
@[simp] theorem advance_xelem (th : Thread) (n : Nat) : (advance th n).xelem = th.xelem := rfl
@[simp] theorem advance_xinfo (th : Thread) (n : Nat) : (advance th n).xinfo = th.xinfo := rfl
@[simp] theorem advance_xret (th : Thread) (n : Nat) : (advance th n).xret = th.xret := rfl
@[simp] theorem advance_nv (th : Thread) (n : Nat) : (advance th n).nv = th.nv := rfl
@[simp] theorem advance_nm (th : Thread) (n : Nat) : (advance th n).nm = th.nm := rfl
@[simp] theorem advance_lastGrant (th : Thread) (n : Nat) : (advance th n).lastGrant = th.lastGrant := rfl
@[simp] theorem advance_strip (th : Thread) (n : Nat) : (advance th n).strip = th.strip := rfl
@[simp] theorem advance_vq (th : Thread) (n : Nat) : (advance th n).vq = th.vq := rfl
@[simp] theorem advance_rq (th : Thread) (n : Nat) : (advance th n).rq = th.rq := rfl
@[simp] theorem advance_out (th : Thread) (n : Nat) : (advance th n).out = th.out := rfl
@[simp] theorem advance_frozen (th : Thread) (n : Nat) : (advance th n).frozen = th.frozen := rfl
@[simp] theorem advance_pend (th : Thread) (n : Nat) : (advance th n).pend = th.pend := rfl
@[simp] theorem advance_pendDecode (th : Thread) (n : Nat) : (advance th n).pendDecode = th.pendDecode := rfl
@[simp] theorem advance_tstate (th : Thread) (n : Nat) : (advance th n).tstate = th.tstate := rfl
@[simp] theorem advance_ctx (th : Thread) (n : Nat) : (advance th n).ctx = th.ctx := rfl
@[simp] theorem advance_preq (th : Thread) (n : Nat) : (advance th n).preq = th.preq := rfl
@[simp] theorem advance_img (th : Thread) (n : Nat) : (advance th n).img = th.img := rfl
@[simp] theorem advance_wait (th : Thread) (n : Nat) : (advance th n).wait = th.wait := rfl
@[simp] theorem advance_leaveKinds (th : Thread) (n : Nat) : (advance th n).leaveKinds = th.leaveKinds := rfl
@[simp] theorem advance_launch (th : Thread) (n : Nat) : (advance th n).launch = th.launch := rfl
@[simp] theorem advance_serial (th : Thread) (n : Nat) : (advance th n).serial = th.serial := rfl
@[simp] theorem advance_record (th : Thread) (n : Nat) : (advance th n).record = th.record := rfl
@[simp] theorem advance_release (th : Thread) (n : Nat) : (advance th n).release = th.release := rfl
@[simp] theorem advance_nextStamp (th : Thread) (n : Nat) : (advance th n).nextStamp = th.nextStamp := rfl
@[simp] theorem advance_early (th : Thread) (n : Nat) : (advance th n).early = th.early := rfl

@[simp] theorem writeG_pc (th : Thread) (r : Reg) (w : Word) : (writeG th r w).pc = th.pc := by
  unfold writeG; split <;> rfl
@[simp] theorem writeG_ir (th : Thread) (r : Reg) (w : Word) : (writeG th r w).ir = th.ir := by
  unfold writeG; split <;> rfl
@[simp] theorem writeG_v (th : Thread) (r : Reg) (w : Word) : (writeG th r w).v = th.v := by
  unfold writeG; split <;> rfl
@[simp] theorem writeG_m (th : Thread) (r : Reg) (w : Word) : (writeG th r w).m = th.m := by
  unfold writeG; split <;> rfl
@[simp] theorem writeG_vl (th : Thread) (r : Reg) (w : Word) : (writeG th r w).vl = th.vl := by
  unfold writeG; split <;> rfl
@[simp] theorem writeG_vtype (th : Thread) (r : Reg) (w : Word) : (writeG th r w).vtype = th.vtype := by
  unfold writeG; split <;> rfl
@[simp] theorem writeG_vstart (th : Thread) (r : Reg) (w : Word) : (writeG th r w).vstart = th.vstart := by
  unfold writeG; split <;> rfl
@[simp] theorem writeG_maxvl (th : Thread) (r : Reg) (w : Word) : (writeG th r w).maxvl = th.maxvl := by
  unfold writeG; split <;> rfl
@[simp] theorem writeG_fill (th : Thread) (r : Reg) (w : Word) : (writeG th r w).fill = th.fill := by
  unfold writeG; split <;> rfl
@[simp] theorem writeG_lbud (th : Thread) (r : Reg) (w : Word) : (writeG th r w).lbud = th.lbud := by
  unfold writeG; split <;> rfl
@[simp] theorem writeG_budget (th : Thread) (r : Reg) (w : Word) : (writeG th r w).budget = th.budget := by
  unfold writeG; split <;> rfl
@[simp] theorem writeG_hdrLbud (th : Thread) (r : Reg) (w : Word) : (writeG th r w).hdrLbud = th.hdrLbud := by
  unfold writeG; split <;> rfl
@[simp] theorem writeG_xbound (th : Thread) (r : Reg) (w : Word) : (writeG th r w).xbound = th.xbound := by
  unfold writeG; split <;> rfl
@[simp] theorem writeG_fflags (th : Thread) (r : Reg) (w : Word) : (writeG th r w).fflags = th.fflags := by
  unfold writeG; split <;> rfl
@[simp] theorem writeG_frm (th : Thread) (r : Reg) (w : Word) : (writeG th r w).frm = th.frm := by
  unfold writeG; split <;> rfl
@[simp] theorem writeG_pcarry (th : Thread) (r : Reg) (w : Word) : (writeG th r w).pcarry = th.pcarry := by
  unfold writeG; split <;> rfl
@[simp] theorem writeG_carryNext (th : Thread) (r : Reg) (w : Word) : (writeG th r w).carryNext = th.carryNext := by
  unfold writeG; split <;> rfl
@[simp] theorem writeG_clmode (th : Thread) (r : Reg) (w : Word) : (writeG th r w).clmode = th.clmode := by
  unfold writeG; split <;> rfl
@[simp] theorem writeG_clrec (th : Thread) (r : Reg) (w : Word) : (writeG th r w).clrec = th.clrec := by
  unfold writeG; split <;> rfl
@[simp] theorem writeG_bk (th : Thread) (r : Reg) (w : Word) : (writeG th r w).bk = th.bk := by
  unfold writeG; split <;> rfl
@[simp] theorem writeG_vcp (th : Thread) (r : Reg) (w : Word) : (writeG th r w).vcp = th.vcp := by
  unfold writeG; split <;> rfl
@[simp] theorem writeG_stage (th : Thread) (r : Reg) (w : Word) : (writeG th r w).stage = th.stage := by
  unfold writeG; split <;> rfl
@[simp] theorem writeG_ufvec (th : Thread) (r : Reg) (w : Word) : (writeG th r w).ufvec = th.ufvec := by
  unfold writeG; split <;> rfl
@[simp] theorem writeG_ufmask (th : Thread) (r : Reg) (w : Word) : (writeG th r w).ufmask = th.ufmask := by
  unfold writeG; split <;> rfl
@[simp] theorem writeG_xcause (th : Thread) (r : Reg) (w : Word) : (writeG th r w).xcause = th.xcause := by
  unfold writeG; split <;> rfl
@[simp] theorem writeG_xpc (th : Thread) (r : Reg) (w : Word) : (writeG th r w).xpc = th.xpc := by
  unfold writeG; split <;> rfl
@[simp] theorem writeG_xvpc (th : Thread) (r : Reg) (w : Word) : (writeG th r w).xvpc = th.xvpc := by
  unfold writeG; split <;> rfl
@[simp] theorem writeG_xqpos (th : Thread) (r : Reg) (w : Word) : (writeG th r w).xqpos = th.xqpos := by
  unfold writeG; split <;> rfl
@[simp] theorem writeG_xelem (th : Thread) (r : Reg) (w : Word) : (writeG th r w).xelem = th.xelem := by
  unfold writeG; split <;> rfl
@[simp] theorem writeG_xinfo (th : Thread) (r : Reg) (w : Word) : (writeG th r w).xinfo = th.xinfo := by
  unfold writeG; split <;> rfl
@[simp] theorem writeG_xret (th : Thread) (r : Reg) (w : Word) : (writeG th r w).xret = th.xret := by
  unfold writeG; split <;> rfl
@[simp] theorem writeG_nv (th : Thread) (r : Reg) (w : Word) : (writeG th r w).nv = th.nv := by
  unfold writeG; split <;> rfl
@[simp] theorem writeG_nm (th : Thread) (r : Reg) (w : Word) : (writeG th r w).nm = th.nm := by
  unfold writeG; split <;> rfl
@[simp] theorem writeG_lastGrant (th : Thread) (r : Reg) (w : Word) : (writeG th r w).lastGrant = th.lastGrant := by
  unfold writeG; split <;> rfl
@[simp] theorem writeG_strip (th : Thread) (r : Reg) (w : Word) : (writeG th r w).strip = th.strip := by
  unfold writeG; split <;> rfl
@[simp] theorem writeG_vq (th : Thread) (r : Reg) (w : Word) : (writeG th r w).vq = th.vq := by
  unfold writeG; split <;> rfl
@[simp] theorem writeG_rq (th : Thread) (r : Reg) (w : Word) : (writeG th r w).rq = th.rq := by
  unfold writeG; split <;> rfl
@[simp] theorem writeG_out (th : Thread) (r : Reg) (w : Word) : (writeG th r w).out = th.out := by
  unfold writeG; split <;> rfl
@[simp] theorem writeG_frozen (th : Thread) (r : Reg) (w : Word) : (writeG th r w).frozen = th.frozen := by
  unfold writeG; split <;> rfl
@[simp] theorem writeG_pend (th : Thread) (r : Reg) (w : Word) : (writeG th r w).pend = th.pend := by
  unfold writeG; split <;> rfl
@[simp] theorem writeG_pendDecode (th : Thread) (r : Reg) (w : Word) : (writeG th r w).pendDecode = th.pendDecode := by
  unfold writeG; split <;> rfl
@[simp] theorem writeG_tstate (th : Thread) (r : Reg) (w : Word) : (writeG th r w).tstate = th.tstate := by
  unfold writeG; split <;> rfl
@[simp] theorem writeG_ctx (th : Thread) (r : Reg) (w : Word) : (writeG th r w).ctx = th.ctx := by
  unfold writeG; split <;> rfl
@[simp] theorem writeG_preq (th : Thread) (r : Reg) (w : Word) : (writeG th r w).preq = th.preq := by
  unfold writeG; split <;> rfl
@[simp] theorem writeG_img (th : Thread) (r : Reg) (w : Word) : (writeG th r w).img = th.img := by
  unfold writeG; split <;> rfl
@[simp] theorem writeG_wait (th : Thread) (r : Reg) (w : Word) : (writeG th r w).wait = th.wait := by
  unfold writeG; split <;> rfl
@[simp] theorem writeG_leaveKinds (th : Thread) (r : Reg) (w : Word) : (writeG th r w).leaveKinds = th.leaveKinds := by
  unfold writeG; split <;> rfl
@[simp] theorem writeG_launch (th : Thread) (r : Reg) (w : Word) : (writeG th r w).launch = th.launch := by
  unfold writeG; split <;> rfl
@[simp] theorem writeG_serial (th : Thread) (r : Reg) (w : Word) : (writeG th r w).serial = th.serial := by
  unfold writeG; split <;> rfl
@[simp] theorem writeG_record (th : Thread) (r : Reg) (w : Word) : (writeG th r w).record = th.record := by
  unfold writeG; split <;> rfl
@[simp] theorem writeG_release (th : Thread) (r : Reg) (w : Word) : (writeG th r w).release = th.release := by
  unfold writeG; split <;> rfl
@[simp] theorem writeG_nextStamp (th : Thread) (r : Reg) (w : Word) : (writeG th r w).nextStamp = th.nextStamp := by
  unfold writeG; split <;> rfl
@[simp] theorem writeG_early (th : Thread) (r : Reg) (w : Word) : (writeG th r w).early = th.early := by
  unfold writeG; split <;> rfl

@[simp] theorem dropLate_g (th : Thread) (d : Reg) : (dropLate th d).g = th.g := rfl
@[simp] theorem dropLate_pc (th : Thread) (d : Reg) : (dropLate th d).pc = th.pc := rfl
@[simp] theorem dropLate_ir (th : Thread) (d : Reg) : (dropLate th d).ir = th.ir := rfl
@[simp] theorem dropLate_v (th : Thread) (d : Reg) : (dropLate th d).v = th.v := rfl
@[simp] theorem dropLate_m (th : Thread) (d : Reg) : (dropLate th d).m = th.m := rfl
@[simp] theorem dropLate_vl (th : Thread) (d : Reg) : (dropLate th d).vl = th.vl := rfl
@[simp] theorem dropLate_vtype (th : Thread) (d : Reg) : (dropLate th d).vtype = th.vtype := rfl
@[simp] theorem dropLate_vstart (th : Thread) (d : Reg) : (dropLate th d).vstart = th.vstart := rfl
@[simp] theorem dropLate_maxvl (th : Thread) (d : Reg) : (dropLate th d).maxvl = th.maxvl := rfl
@[simp] theorem dropLate_fill (th : Thread) (d : Reg) : (dropLate th d).fill = th.fill := rfl
@[simp] theorem dropLate_lbud (th : Thread) (d : Reg) : (dropLate th d).lbud = th.lbud := rfl
@[simp] theorem dropLate_budget (th : Thread) (d : Reg) : (dropLate th d).budget = th.budget := rfl
@[simp] theorem dropLate_hdrLbud (th : Thread) (d : Reg) : (dropLate th d).hdrLbud = th.hdrLbud := rfl
@[simp] theorem dropLate_xbound (th : Thread) (d : Reg) : (dropLate th d).xbound = th.xbound := rfl
@[simp] theorem dropLate_fflags (th : Thread) (d : Reg) : (dropLate th d).fflags = th.fflags := rfl
@[simp] theorem dropLate_frm (th : Thread) (d : Reg) : (dropLate th d).frm = th.frm := rfl
@[simp] theorem dropLate_pcarry (th : Thread) (d : Reg) : (dropLate th d).pcarry = th.pcarry := rfl
@[simp] theorem dropLate_carryNext (th : Thread) (d : Reg) : (dropLate th d).carryNext = th.carryNext := rfl
@[simp] theorem dropLate_clmode (th : Thread) (d : Reg) : (dropLate th d).clmode = th.clmode := rfl
@[simp] theorem dropLate_clrec (th : Thread) (d : Reg) : (dropLate th d).clrec = th.clrec := rfl
@[simp] theorem dropLate_bk (th : Thread) (d : Reg) : (dropLate th d).bk = th.bk := rfl
@[simp] theorem dropLate_vcp (th : Thread) (d : Reg) : (dropLate th d).vcp = th.vcp := rfl
@[simp] theorem dropLate_stage (th : Thread) (d : Reg) : (dropLate th d).stage = th.stage := rfl
@[simp] theorem dropLate_ufvec (th : Thread) (d : Reg) : (dropLate th d).ufvec = th.ufvec := rfl
@[simp] theorem dropLate_ufmask (th : Thread) (d : Reg) : (dropLate th d).ufmask = th.ufmask := rfl
@[simp] theorem dropLate_xcause (th : Thread) (d : Reg) : (dropLate th d).xcause = th.xcause := rfl
@[simp] theorem dropLate_xpc (th : Thread) (d : Reg) : (dropLate th d).xpc = th.xpc := rfl
@[simp] theorem dropLate_xvpc (th : Thread) (d : Reg) : (dropLate th d).xvpc = th.xvpc := rfl
@[simp] theorem dropLate_xqpos (th : Thread) (d : Reg) : (dropLate th d).xqpos = th.xqpos := rfl
@[simp] theorem dropLate_xelem (th : Thread) (d : Reg) : (dropLate th d).xelem = th.xelem := rfl
@[simp] theorem dropLate_xinfo (th : Thread) (d : Reg) : (dropLate th d).xinfo = th.xinfo := rfl
@[simp] theorem dropLate_xret (th : Thread) (d : Reg) : (dropLate th d).xret = th.xret := rfl
@[simp] theorem dropLate_nv (th : Thread) (d : Reg) : (dropLate th d).nv = th.nv := rfl
@[simp] theorem dropLate_nm (th : Thread) (d : Reg) : (dropLate th d).nm = th.nm := rfl
@[simp] theorem dropLate_lastGrant (th : Thread) (d : Reg) : (dropLate th d).lastGrant = th.lastGrant := rfl
@[simp] theorem dropLate_strip (th : Thread) (d : Reg) : (dropLate th d).strip = th.strip := rfl
@[simp] theorem dropLate_vq (th : Thread) (d : Reg) : (dropLate th d).vq = th.vq := rfl
@[simp] theorem dropLate_frozen (th : Thread) (d : Reg) : (dropLate th d).frozen = th.frozen := rfl
@[simp] theorem dropLate_pend (th : Thread) (d : Reg) : (dropLate th d).pend = th.pend := rfl
@[simp] theorem dropLate_pendDecode (th : Thread) (d : Reg) : (dropLate th d).pendDecode = th.pendDecode := rfl
@[simp] theorem dropLate_tstate (th : Thread) (d : Reg) : (dropLate th d).tstate = th.tstate := rfl
@[simp] theorem dropLate_ctx (th : Thread) (d : Reg) : (dropLate th d).ctx = th.ctx := rfl
@[simp] theorem dropLate_preq (th : Thread) (d : Reg) : (dropLate th d).preq = th.preq := rfl
@[simp] theorem dropLate_img (th : Thread) (d : Reg) : (dropLate th d).img = th.img := rfl
@[simp] theorem dropLate_wait (th : Thread) (d : Reg) : (dropLate th d).wait = th.wait := rfl
@[simp] theorem dropLate_leaveKinds (th : Thread) (d : Reg) : (dropLate th d).leaveKinds = th.leaveKinds := rfl
@[simp] theorem dropLate_launch (th : Thread) (d : Reg) : (dropLate th d).launch = th.launch := rfl
@[simp] theorem dropLate_serial (th : Thread) (d : Reg) : (dropLate th d).serial = th.serial := rfl
@[simp] theorem dropLate_record (th : Thread) (d : Reg) : (dropLate th d).record = th.record := rfl
@[simp] theorem dropLate_release (th : Thread) (d : Reg) : (dropLate th d).release = th.release := rfl
@[simp] theorem dropLate_nextStamp (th : Thread) (d : Reg) : (dropLate th d).nextStamp = th.nextStamp := rfl
@[simp] theorem dropLate_early (th : Thread) (d : Reg) : (dropLate th d).early = th.early := rfl

/-- g0 reads zero, and a write to it is discarded (R59). -/
@[simp] theorem readG_zero (th : Thread) : readG th 0 = 0 := by simp [readG]

@[simp] theorem readG_advance (th : Thread) (n : Nat) (r : Reg) : readG (advance th n) r = readG th r := rfl

@[simp] theorem readG_dropLate (th : Thread) (d r : Reg) : readG (dropLate th d) r = readG th r := rfl

theorem readG_writeG_self (th : Thread) {r : Reg} (w : Word) (h : r ≠ 0) : readG (writeG th r w) r = w := by
  simp [readG, writeG, h]

theorem readG_writeG_other (th : Thread) {r x : Reg} (w : Word) (h : x ≠ r) : readG (writeG th r w) x = readG th x := by
  have hv : r.val ≠ x.val := fun c => h (Fin.ext c.symm)
  by_cases h0 : r = 0
  · simp [writeG, h0]
  · simp [readG, writeG, h0, hv]

end Sys2Proof.Machine
end

