-- ==== Sys2Proof/Laws/Memory.lean ====
section
/-!
SUPPORT. The laws of a memory in its canonical form: what a read answers after a write, and that every write keeps the
form.
-/

namespace Sys2Proof.Machine

/-- The canonical form, cell by cell: addresses rise strictly, and no listed byte equals an unlisted one. -/
def Memory.Rising : Memory → Prop
  | [] => True
  | (a, b) :: r => b ≠ unlisted ∧ (∀ c ∈ r, a < c.1) ∧ Memory.Rising r

theorem Memory.Rising.tail {p : Host.Cell} {r : Memory} (h : Memory.Rising (p :: r)) : Memory.Rising r := h.2.2

theorem Memory.wf_iff (m : Memory) : Memory.wf m = true ↔ Memory.Rising m := by
  induction m with
  | nil => simp [Memory.wf, Memory.Rising]
  | cons p r ih =>
    obtain ⟨a, b⟩ := p
    cases r with
    | nil => simp [Memory.wf, Memory.Rising]
    | cons q r =>
      obtain ⟨a', b'⟩ := q
      simp only [Memory.wf, Bool.and_eq_true, decide_eq_true_eq, ih, Memory.Rising, List.mem_cons, forall_eq_or_imp]
      constructor
      · rintro ⟨⟨h1, h2⟩, h3, h4, h5⟩
        exact ⟨h1, ⟨h2, fun c hc => lt_trans h2 (h4 c hc)⟩, h3, h4, h5⟩
      · rintro ⟨h1, ⟨h2, -⟩, h3, h4, h5⟩
        exact ⟨⟨h1, h2⟩, h3, h4, h5⟩

theorem mapPut_mem {α : Type} {m : SMap α} {k : Nat} {v : α} {c : Nat × α} (h : c ∈ mapPut m k v) :
    c = (k, v) ∨ c ∈ m := by
  induction m with
  | nil => simpa [mapPut] using h
  | cons p r ih =>
    obtain ⟨a, w⟩ := p
    unfold mapPut at h
    split at h
    · simpa using h
    · split at h
      · rcases List.mem_cons.1 h with h | h
        · exact .inl h
        · exact .inr (List.mem_cons_of_mem _ h)
      · rcases List.mem_cons.1 h with h | h
        · exact .inr (h ▸ List.mem_cons_self)
        · exact (ih h).imp id (List.mem_cons_of_mem _)

theorem mapDel_mem {α : Type} {m : SMap α} {k : Nat} {c : Nat × α} (h : c ∈ mapDel m k) : c ∈ m := by
  induction m with
  | nil => simp [mapDel] at h
  | cons p r ih =>
    obtain ⟨a, w⟩ := p
    unfold mapDel at h
    split at h
    · exact List.mem_cons_of_mem _ h
    · split at h
      · exact h
      · rcases List.mem_cons.1 h with h | h
        · exact h ▸ List.mem_cons_self
        · exact List.mem_cons_of_mem _ (ih h)

theorem mapPut_rising {m : Memory} {k : Nat} {v : Byte} (h : Memory.Rising m) (hv : v ≠ unlisted) :
    Memory.Rising (mapPut m k v) := by
  induction m with
  | nil => simp [mapPut, Memory.Rising, hv]
  | cons p r ih =>
    obtain ⟨a, w⟩ := p
    obtain ⟨h1, h2, h3⟩ := h
    unfold mapPut
    split
    · rename_i hk
      refine ⟨hv, fun c hc => ?_, h1, h2, h3⟩
      rcases List.mem_cons.1 hc with e | e
      · exact e ▸ hk
      · exact lt_trans hk (h2 c e)
    · split
      · rename_i hk
        exact ⟨hv, fun c hc => hk ▸ h2 c hc, h3⟩
      · refine ⟨h1, fun c hc => ?_, ih h3⟩
        rcases mapPut_mem hc with e | e
        · rw [e]; show a < k; omega
        · exact h2 c e

theorem mapDel_rising {m : Memory} {k : Nat} (h : Memory.Rising m) : Memory.Rising (mapDel m k) := by
  induction m with
  | nil => exact h
  | cons p r ih =>
    obtain ⟨a, w⟩ := p
    unfold mapDel
    split
    · exact h.2.2
    · split
      · exact h
      · exact ⟨h.1, fun c hc => h.2.1 c (mapDel_mem hc), ih h.2.2⟩

theorem memPut_wf {m : Memory} (a : Nat) (b : Byte) (h : Memory.wf m = true) : Memory.wf (memPut m a b) = true := by
  rw [Memory.wf_iff] at *
  unfold memPut
  split
  · exact mapDel_rising h
  · exact mapPut_rising h ‹_›

theorem memWrite_wf {m : Memory} (a n v : Nat) (h : Memory.wf m = true) : Memory.wf (memWrite m a n v) = true := by
  induction n generalizing m a v with
  | zero => exact h
  | succ n ih => exact ih _ _ (memPut_wf _ _ h)

theorem memWriteBytes_wf {m : Memory} (a : Nat) (l : List Byte) (h : Memory.wf m = true) :
    Memory.wf (memWriteBytes m a l) = true := by
  induction l generalizing m a with
  | nil => exact h
  | cons b r ih => exact ih _ (memPut_wf _ _ h)

theorem filter_rising {m : Memory} (p : Host.Cell → Bool) (h : Memory.Rising m) : Memory.Rising (m.filter p) := by
  induction m with
  | nil => exact h
  | cons c r ih =>
    obtain ⟨a, b⟩ := c
    rw [List.filter_cons]
    split
    · exact ⟨h.1, fun c hc => h.2.1 c (List.mem_filter.1 hc).1, ih h.2.2⟩
    · exact ih h.2.2

theorem memClear_wf {m : Memory} (lo hi : Nat) (h : Memory.wf m = true) : Memory.wf (memClear m lo hi) = true := by
  rw [Memory.wf_iff] at *
  exact filter_rising _ h

/-- A byte that lies below every listed address reads as unlisted. -/
theorem mapFind_below {m : Memory} {k : Nat} (h : ∀ c ∈ m, k < c.1) : mapFind m k = none := by
  cases m with
  | nil => rfl
  | cons p r =>
    obtain ⟨a, w⟩ := p
    have : k < a := h (a, w) List.mem_cons_self
    simp [mapFind, this, show ¬ a = k by omega]

theorem mapFind_mapDel_self {m : Memory} {k : Nat} (h : Memory.Rising m) : mapFind (mapDel m k) k = none := by
  induction m with
  | nil => rfl
  | cons p r ih =>
    obtain ⟨a, w⟩ := p
    unfold mapDel
    split
    · rename_i e
      exact mapFind_below fun c hc => e ▸ h.2.1 c hc
    · split
      · rename_i e1 e2
        simp [mapFind, e1, e2]
      · rename_i e1 e2
        simp [mapFind, e1, e2, ih h.2.2]

theorem mapFind_mapDel_other {m : Memory} {k j : Nat} (h : Memory.Rising m) (hj : j ≠ k) :
    mapFind (mapDel m k) j = mapFind m j := by
  induction m with
  | nil => rfl
  | cons p r ih =>
    obtain ⟨a, w⟩ := p
    unfold mapDel
    split
    · rename_i e
      subst e
      simp only [mapFind, if_neg (Ne.symm hj)]
      split
      · rename_i e2
        exact mapFind_below fun c hc => lt_trans e2 (h.2.1 c hc)
      · rfl
    · split
      · rfl
      · simp only [mapFind, ih h.2.2]

theorem memGet_memPut {m : Memory} (h : Memory.wf m = true) (a x : Nat) (b : Byte) :
    memGet (memPut m a b) x = if x = a then b else memGet m x := by
  rw [Memory.wf_iff] at h
  unfold memGet mapGet memPut
  split
  · rename_i e
    split
    · rename_i e2
      subst e2
      rw [mapFind_mapDel_self h, e]; rfl
    · rw [mapFind_mapDel_other h ‹_›]
  · split
    · rename_i e2
      subst e2
      simp
    · rw [mapFind_mapPut_other _ _ ‹_›]

/-- A write reaches its own bytes and no other. -/
theorem memGet_memWrite {m : Memory} (h : Memory.wf m = true) (a n v x : Nat) :
    memGet (memWrite m a n v) x = if a ≤ x ∧ x < a + n then BitVec.ofNat 8 (v / 256 ^ (x - a)) else memGet m x := by
  induction n generalizing m a v with
  | zero => simp only [memWrite]; rw [if_neg (by omega)]
  | succ n ih =>
    simp only [memWrite]
    rw [ih (memPut_wf _ _ h), memGet_memPut h]
    by_cases h1 : a + 1 ≤ x ∧ x < a + 1 + n
    · rw [if_pos h1, if_pos (by omega), Nat.div_div_eq_div_mul, ← Nat.pow_succ', show (x - (a + 1)).succ = x - a by omega]
    · rw [if_neg h1]
      by_cases h2 : x = a
      · subst h2
        rw [if_pos rfl, if_pos (by omega)]
        simp
      · rw [if_neg h2, if_neg (by omega)]

/-- What is written reads back. -/
theorem memRead_memWrite {m : Memory} (h : Memory.wf m = true) (a n v : Nat) :
    memRead (memWrite m a n v) a n = v % 256 ^ n := by
  have key : ∀ (k d : Nat) , d + k ≤ n → memRead (memWrite m a n v) (a + d) k = v / 256 ^ d % 256 ^ k := by
    intro k
    induction k with
    | zero => intro d _; simp [memRead, Nat.mod_one]
    | succ k ih =>
      intro d hd
      have e := ih (d + 1) (by omega)
      simp only [memRead]
      rw [← Nat.add_assoc] at e
      rw [e, memGet_memWrite h, if_pos (by omega), show a + d - a = d by omega, BitVec.toNat_ofNat, Nat.pow_succ 256 d,
        ← Nat.div_div_eq_div_mul, Nat.pow_succ 256 k, Nat.mul_comm (256 ^ k) 256, Nat.mod_mul]
  simpa using key n 0 (by omega)

/-- A read sees only its own bytes. -/
theorem memRead_congr {m m' : Memory} (a n : Nat) (h : ∀ x, a ≤ x → x < a + n → memGet m x = memGet m' x) :
    memRead m a n = memRead m' a n := by
  induction n generalizing a with
  | zero => rfl
  | succ n ih =>
    simp only [memRead]
    rw [h a (by omega) (by omega), ih (a + 1) fun x h1 h2 => h x (by omega) (by omega)]

end Sys2Proof.Machine
end

