-- ==== Sys2Proof/Laws/MemoryForm.lean ====
section
/-!
SUPPORT. Every place of the model that writes a memory keeps the canonical form of the three memories; the records of
threads, cores, clusters, contexts and launches do not touch them.
-/

namespace Sys2Proof.Laws

open Sys2Proof.Machine Sys2Proof.Safety

/-- The form depends on the three memories only. -/
theorem memoriesOk_congr {s t : State} (h : MemoriesOk s) (hm : t.mem = s.mem) (hs : t.spad = s.spad)
    (hp : t.peer = s.peer) : MemoriesOk t := by
  rw [MemoriesOk, hm, hs, hp]
  exact h

theorem memoriesOk_mem {s : State} (h : MemoriesOk s) {m : Memory} (hm : Memory.wf m = true) :
    MemoriesOk { s with mem := m } := ⟨hm, h.2⟩

theorem memoriesOk_ite {c : Prop} [Decidable c] {s t : State} (hs : MemoriesOk s) (ht : MemoriesOk t) :
    MemoriesOk (if c then s else t) := by
  split
  · exact hs
  · exact ht

theorem memoriesOk_putThread {s : State} (h : MemoriesOk s) (t : Tid) (th : Thread) : MemoriesOk (putThread s t th) := h

theorem memoriesOk_updThread {s : State} (h : MemoriesOk s) (t : Tid) (f : Thread → Thread) :
    MemoriesOk (updThread s t f) := h

theorem memoriesOk_putCore {s : State} (h : MemoriesOk s) (cl : Fin 64) (co : Fin 8) (c : Core) :
    MemoriesOk (putCore s cl co c) := h

theorem memoriesOk_updCore {s : State} (h : MemoriesOk s) (cl : Fin 64) (co : Fin 8) (f : Core → Core) :
    MemoriesOk (updCore s cl co f) := h

theorem memoriesOk_updCluster {s : State} (h : MemoriesOk s) (cl : Fin 64) (f : Cluster → Cluster) :
    MemoriesOk (updCluster s cl f) := h

theorem memoriesOk_putCtx {s : State} (h : MemoriesOk s) (c : Fin 4096) (x : Context) : MemoriesOk (putCtx s c x) := h

theorem memoriesOk_putLaunch {s : State} (h : MemoriesOk s) (k : Nat) (x : Launch) : MemoriesOk (putLaunch s k x) := h

/-- A fold keeps the form when each of its steps does. -/
theorem memoriesOk_foldl {α : Type} (f : State → α → State) (hf : ∀ s x, MemoriesOk s → MemoriesOk (f s x))
    (l : List α) {s : State} (h : MemoriesOk s) : MemoriesOk (l.foldl f s) := by
  induction l generalizing s with
  | nil => exact h
  | cons x r ih => exact ih (hf s x h)

theorem keepMasked_wf (mask : Nat → Byte) (size : Nat) {old new : Memory} (h : Memory.wf new = true) (b : Nat) :
    Memory.wf (keepMasked mask size old new b) = true := by
  unfold keepMasked
  generalize upFrom 0 size = l
  induction l generalizing new with
  | nil => exact h
  | cons i r ih => exact ih (memPut_wf _ _ h)

/-- What a store leaves of a queue block's fields keeps the form (R5, R331). -/
theorem keepBlocks_wf (s : State) (pa n : Nat) {m : Memory} (h : Memory.wf m = true) :
    Memory.wf (keepBlocks s pa n m) = true := by
  unfold keepBlocks
  generalize s.queues = l
  induction l generalizing m with
  | nil => exact h
  | cons q r ih =>
    refine ih ?_
    dsimp only
    split
    · exact keepMasked_wf _ _ h _
    · exact h

/-- A byte that the store left as it was stays so (R5, R331). -/
theorem memGet_keepMasked (mask : Nat → Byte) (size : Nat) {old new : Memory} (h : Memory.wf new = true) (b x : Nat)
    (hx : memGet new x = memGet old x) : memGet (keepMasked mask size old new b) x = memGet old x := by
  unfold keepMasked
  generalize upFrom 0 size = l
  induction l generalizing new with
  | nil => exact hx
  | cons i r ih =>
    refine ih (memPut_wf _ _ h) ?_
    rw [keepByte, memGet_memPut h]
    split
    · rename_i e
      subst e
      rw [hx]
      ext k hk
      simp only [BitVec.getElem_or, BitVec.getElem_and, BitVec.getElem_not]
      cases (memGet old (b + i))[k] <;> simp
    · exact hx

/-- The frame of a store: a byte outside it is as before, queue blocks or not. -/
theorem memGet_keepBlocks (s : State) (pa n : Nat) {m : Memory} (h : Memory.wf m = true) (x : Nat)
    (hx : memGet m x = memGet s.mem x) : memGet (keepBlocks s pa n m) x = memGet s.mem x := by
  unfold keepBlocks
  generalize s.queues = l
  induction l generalizing m with
  | nil => exact hx
  | cons q r ih =>
    rw [List.foldl_cons]
    split
    · exact ih (keepMasked_wf _ _ h _) (memGet_keepMasked _ _ h _ _ hx)
    · exact ih h hx

/-- A store that reaches no bound queue block is a plain write. -/
theorem keepBlocks_free (s : State) (pa n : Nat) (m : Memory)
    (h : ∀ q ∈ s.queues, ¬ (q.2.block < pa + n ∧ pa < q.2.block + 64)) : keepBlocks s pa n m = m := by
  unfold keepBlocks
  generalize s.queues = l at h
  induction l generalizing m with
  | nil => rfl
  | cons q r ih =>
    rw [List.foldl_cons, if_neg (h q List.mem_cons_self)]
    exact ih m fun x hx => h x (List.mem_cons_of_mem _ hx)

theorem keepReached_wf (mask : Nat → Byte) (size : Nat) (old : Memory) (pa n b : Nat) {m : Memory} (h : Memory.wf m = true) :
    Memory.wf (keepReached old pa n mask size b m) = true := by
  unfold keepReached
  split
  · exact keepMasked_wf _ _ h _
  · exact h

theorem memGet_keepReached (mask : Nat → Byte) (size : Nat) {old m : Memory} (pa n b x : Nat) (h : Memory.wf m = true)
    (hx : memGet m x = memGet old x) : memGet (keepReached old pa n mask size b m) x = memGet old x := by
  unfold keepReached
  split
  · exact memGet_keepMasked _ _ h _ _ hx
  · exact hx

theorem keepReached_free (mask : Nat → Byte) (size : Nat) (old m : Memory) (pa n b : Nat)
    (h : ¬ (b < pa + n ∧ pa < b + size)) : keepReached old pa n mask size b m = m := if_neg h

/-- What a write from outside leaves of the reserved bits of logs and error records keeps the form (R5, R361, R370). -/
theorem keepRecords_wf (s : State) (pa n : Nat) {m : Memory} (h : Memory.wf m = true) :
    Memory.wf (keepRecords s pa n m) = true := by
  unfold keepRecords
  generalize s.ctxs = l
  induction l generalizing m with
  | nil => exact h
  | cons q r ih =>
    refine ih ?_
    dsimp only
    split
    · exact keepReached_wf _ _ _ _ _ _ (keepReached_wf _ _ _ _ _ _ h)
    · exact h

/-- The frame of such a write: a byte outside it is as before. -/
theorem memGet_keepRecords (s : State) (pa n : Nat) {m : Memory} (h : Memory.wf m = true) (x : Nat)
    (hx : memGet m x = memGet s.mem x) : memGet (keepRecords s pa n m) x = memGet s.mem x := by
  unfold keepRecords
  generalize s.ctxs = l
  induction l generalizing m with
  | nil => exact hx
  | cons q r ih =>
    rw [List.foldl_cons]
    split
    · exact ih (keepReached_wf _ _ _ _ _ _ (keepReached_wf _ _ _ _ _ _ h))
        (memGet_keepReached _ _ _ _ _ _ (keepReached_wf _ _ _ _ _ _ h) (memGet_keepReached _ _ _ _ _ _ h hx))
    · exact ih h hx

/-- A write that reaches no violation log and no error record of a valid context is a plain one. -/
theorem keepRecords_free (s : State) (pa n : Nat) (m : Memory)
    (h : ∀ c ∈ s.ctxs, c.2.valid = true →
      ¬ (c.2.vlog < pa + n ∧ pa < c.2.vlog + logSize) ∧ ¬ (c.2.errec < pa + n ∧ pa < c.2.errec + recordSize)) :
    keepRecords s pa n m = m := by
  unfold keepRecords
  generalize s.ctxs = l at h
  induction l generalizing m with
  | nil => rfl
  | cons q r ih =>
    have e : (if q.2.valid = true then
        keepReached s.mem pa n recordMask recordSize q.2.errec (keepReached s.mem pa n logMask logSize q.2.vlog m) else m) = m := by
      split
      · rename_i hv
        obtain ⟨h1, h2⟩ := h q List.mem_cons_self hv
        rw [keepReached_free _ _ _ _ _ _ _ h1, keepReached_free _ _ _ _ _ _ _ h2]
      · rfl
    rw [List.foldl_cons, e]
    exact ih m fun x hx => h x (List.mem_cons_of_mem _ hx)

/-- Bytes written from outside keep the form. -/
theorem memoriesOk_dmaWrite {s : State} (h : MemoriesOk s) (pa : Nat) (b : List Byte) : MemoriesOk (dmaWrite s pa b) :=
  ⟨keepRecords_wf _ _ _ (keepBlocks_wf _ _ _ (memWriteBytes_wf _ _ h.1)), h.2.1, h.2.2⟩

/-- Every store of a thread or an engine. -/
theorem memoriesOk_tgtWrite {s : State} (h : MemoriesOk s) (t : Target) (n v : Nat) : MemoriesOk (tgtWrite s t n v) := by
  obtain ⟨hm, hs, hp⟩ := h
  cases t with
  | spad k => exact ⟨hm, memWrite_wf _ _ _ hs, hp⟩
  | dev pa r => exact ⟨keepBlocks_wf _ _ _ (memWrite_wf _ _ _ hm), hs, hp⟩
  | peer d pa r => exact ⟨hm, hs, memWrite_wf _ _ _ hp⟩
  | violation c => exact ⟨hm, hs, hp⟩

theorem memoriesOk_logViolation {s : State} (h : MemoriesOk s) (ctx : Fin 4096) (x : LogSource) (va : Word) (code : Nat) :
    MemoriesOk (logViolation s ctx x va code) := by
  unfold logViolation
  exact memoriesOk_ite (memoriesOk_mem h (memWrite_wf _ _ _ (memWrite_wf _ _ _ (memWrite_wf _ _ _ h.1)))) h

theorem memoriesOk_loseRelease {s : State} (h : MemoriesOk s) (t : Tid) (va : Word) (code : Nat) :
    MemoriesOk (loseRelease s t va code) := by
  unfold loseRelease
  split
  · exact memoriesOk_ite (memoriesOk_updThread h t _) h
  · exact h

theorem memoriesOk_logResponse {s : State} (h : MemoriesOk s) (t : Tid) (x : LogSource) (va : Word) (code : Nat) :
    MemoriesOk (logResponse s t x va code) := by
  unfold logResponse
  exact memoriesOk_loseRelease (memoriesOk_logViolation h _ x va code) t va code

theorem memoriesOk_violate {s : State} (h : MemoriesOk s) (t : Tid) (x : LogSource) (va : Word) (code : Nat) :
    MemoriesOk (violate s t x va code) := by
  unfold violate setViol
  exact memoriesOk_updThread (memoriesOk_logResponse h t x va code) t _

theorem memoriesOk_takeFault {s : State} (h : MemoriesOk s) (t : Tid) (f : FaultInfo) (v : Option (Word × Nat))
    (xpc xret : Word) : MemoriesOk (takeFault s t f v xpc xret) := h

/-- A scalar event, reported or kept for later (R128). -/
theorem memoriesOk_raise {s u : State} (h : MemoriesOk s) {t : Tid} {f : FaultInfo} {b : Bool}
    (hu : raise s t f b = .next u) : MemoriesOk u := by
  unfold raise at hu
  dsimp only at hu
  split at hu
  · injection hu with hu
    exact hu ▸ memoriesOk_takeFault h _ _ _ _ _
  · injection hu with hu
    exact hu ▸ h

/-- A scalar instruction keeps the form when what it does with its registers read does. -/
theorem memoriesOk_withRegs {s u : State} (h : MemoriesOk s) {rs : List Reg} {k : Thread → Out}
    (hk : ∀ th v, k th = .next v → MemoriesOk v) (hu : withRegs s rs k = .next u) : MemoriesOk u := by
  unfold withRegs at hu
  dsimp only at hu
  split at hu
  · exact memoriesOk_raise h hu
  · split at hu
    · injection hu with hu
      exact hu ▸ h
    · exact hk _ _ hu

theorem memoriesOk_withDest {s u : State} (h : MemoriesOk s) {d : Reg} {rs : List Reg} {k : Thread → Out}
    (hk : ∀ th v, k th = .next v → MemoriesOk v) (hu : withDest s d rs k = .next u) : MemoriesOk u := by
  unfold withDest at hu
  split at hu
  · exact memoriesOk_raise h hu
  · refine memoriesOk_withRegs h (fun th v hv => ?_) hu
    split at hv
    · injection hv with hv
      exact hv ▸ h
    · exact hk _ _ hv

theorem memoriesOk_clearSpad {s : State} (h : MemoriesOk s) (cl : Fin 64) (co : Fin 8) : MemoriesOk (clearSpad s cl co) :=
  ⟨h.1, memClear_wf _ _ h.2.1, h.2.2⟩

/-- A core begins to serve a launch. -/
theorem memoriesOk_giveCore {s : State} (h : MemoriesOk s) (cl : Fin 64) (co : Fin 8) (key : Nat) (ctx : Fin 4096) :
    MemoriesOk (giveCore s cl co key ctx) := by
  unfold giveCore
  dsimp only
  refine memoriesOk_foldl _ (fun s t hs => memoriesOk_updThread hs t _) _ (memoriesOk_putCore ?_ _ _ _)
  split
  · exact h
  · exact memoriesOk_clearSpad h cl co

theorem memoriesOk_returnCore {s : State} (h : MemoriesOk s) (cl : Fin 64) (co : Fin 8) : MemoriesOk (returnCore s cl co) := by
  unfold returnCore
  refine memoriesOk_foldl _ (fun s t hs => ?_) _ (memoriesOk_updCore h cl co _)
  split
  · exact memoriesOk_updThread hs t _
  · exact hs

/-- The cores of a share return together. -/
theorem memoriesOk_returnShare {s : State} (h : MemoriesOk s) (cl : Fin 64) (key : Nat) : MemoriesOk (returnShare s cl key) := by
  refine memoriesOk_foldl _ (fun s k hs => ?_) _ h
  split
  · exact memoriesOk_returnCore hs cl k
  · exact hs

theorem memoriesOk_settleCore {s : State} (h : MemoriesOk s) (cl : Fin 64) (co : Fin 8) : MemoriesOk (settleCore s cl co) := by
  unfold settleCore
  dsimp only
  split
  · exact h
  · split
    · split
      · exact memoriesOk_returnCore h cl co
      · exact h
    · split
      · split
        · exact memoriesOk_returnShare h cl _
        · exact h
      · split
        · exact memoriesOk_returnCore h cl co
        · exact h

theorem memoriesOk_holdShare {s : State} (h : MemoriesOk s) (cl : Fin 64) (key : Nat) (ctx : Fin 4096) :
    MemoriesOk (holdShare s cl key ctx) := by
  refine memoriesOk_foldl _ (fun s k hs => ?_) _ h
  split
  · exact hs
  · exact memoriesOk_giveCore hs cl k key ctx

theorem memoriesOk_assignCore {s : State} (h : MemoriesOk s) (cl : Fin 64) (co : Fin 8) (key : Nat) (x : Launch) :
    MemoriesOk (assignCore s cl co key x) := memoriesOk_updCore (memoriesOk_giveCore h cl co key x.ctx) cl co _

/-- A page of an image. -/
theorem memoriesOk_writePage {s : State} (h : MemoriesOk s) (pa : Nat) (f : Nat → Option Nat) : MemoriesOk (writePage s pa f) :=
  memoriesOk_foldl _ (fun _ _ hs => memoriesOk_tgtWrite hs _ _ _) _ h

theorem memoriesOk_writeDir {s : State} (h : MemoriesOk s) (ctx : Fin 4096) : MemoriesOk (writeDir s ctx) := by
  unfold writeDir
  exact memoriesOk_ite h (memoriesOk_foldl _ (fun _ _ hs => memoriesOk_tgtWrite hs _ _ _) _ h)

/-- An image is written, or leaves the others. -/
theorem memoriesOk_writePages {s : State} (h : MemoriesOk s) (x : Image) (ts : List Tid) (ps : List (Nat × Nat × Nat)) :
    MemoriesOk (writePages s x ts ps) :=
  memoriesOk_foldl (fun u (p : Nat × Nat × Nat) => writePage u p.1 (pageUnit s x ts p.2.1 p.2.2))
    (fun _ _ hs => memoriesOk_writePage hs _ _) ps h

theorem memoriesOk_addImage {s : State} (h : MemoriesOk s) (x : Image) : MemoriesOk (addImage s x) := h

theorem memoriesOk_putImagePages {s : State} (h : MemoriesOk s) (x : Image) (ts : List Tid) (named : List (Nat × Nat)) :
    MemoriesOk (putImagePages s x ts named) :=
  memoriesOk_writeDir (memoriesOk_addImage (memoriesOk_writePages h x ts _) _) _

theorem memoriesOk_dropImage {s : State} (h : MemoriesOk s) (k : Nat) (ctx : Fin 4096) : MemoriesOk (dropImage s k ctx) :=
  memoriesOk_writeDir (s := { s with images := mapDel s.images k }) h _

/-- The error record. -/
theorem memoriesOk_writeReport {s : State} (h : MemoriesOk s) (a : Nat) (r : Report) : MemoriesOk (writeReport s a r) :=
  memoriesOk_mem h (memWrite_wf _ _ _ h.1)

/-- The read of a violation log entry. -/
theorem memoriesOk_readLog {s : State} (h : MemoriesOk s) (t : Tid) : MemoriesOk (readLog s t) := by
  unfold readLog giveReg
  refine memoriesOk_ite (memoriesOk_updThread (memoriesOk_updThread h _ _) _ _) ?_
  exact memoriesOk_updThread (memoriesOk_updThread (memoriesOk_mem h (memWrite_wf _ 8 _ h.1)) _ _) _ _

/-- Clearing reserved bits keeps the form. -/
theorem clearReserved_wf {m : Memory} (h : Memory.wf m = true) (vlog errec : Nat) :
    Memory.wf (clearReserved m vlog errec) = true := keepMasked_wf _ _ (keepMasked_wf _ _ h _) _

/-- A new context's log. -/
theorem memoriesOk_createContext {s : State} (h : MemoriesOk s) (x : ContextSpec) : MemoriesOk (createContext s x) := by
  unfold createContext
  exact memoriesOk_ite (memoriesOk_putCtx (memoriesOk_mem h (memWrite_wf x.vlog 16 0 (clearReserved_wf h.1 _ _))) _ _) h

theorem memoriesOk_copyPage {s : State} (h : MemoriesOk s) (old new size : Nat) : MemoriesOk (copyPage s old new size) :=
  memoriesOk_mem h (memWriteBytes_wf _ _ (memClear_wf _ _ h.1))

theorem memoriesOk_moveEntry {s : State} (h : MemoriesOk s) (moves : List (Nat × Nat)) (e : Nat × Nat × Nat) :
    MemoriesOk (moveEntry moves s e) := by
  unfold moveEntry
  split
  · exact h
  · have h1 := memoriesOk_copyPage h
    exact memoriesOk_mem (h1 _ _ _) (memWrite_wf _ _ _ (h1 _ _ _).1)

theorem memoriesOk_copyVrec {s : State} (h : MemoriesOk s) (p : Nat × Context) : MemoriesOk (copyVrec s p) := by
  unfold copyVrec
  split
  · exact memoriesOk_mem h (memWrite_wf _ _ _ h.1)
  · exact h

/-- A reset empties every memory. -/
theorem memoriesOk_reset : MemoriesOk State.reset := ⟨rfl, rfl, rfl⟩

end Sys2Proof.Laws
end

