-- ==== Sys2Proof/Laws/Operations.lean ====
section
/-!
SUPPORT. Everything the shared operations of the scalar stream can do, each said once: putting the current thread's record
back, reading registers that are ready, stalling, and taking a fault.
-/

namespace Sys2Proof.Laws

open Sys2Proof.Machine Sys2Proof.Safety

theorem bytesKept_refl (s : State) : BytesKept s s := fun _ => ⟨rfl, rfl, rfl⟩

theorem othersKept_put (s : State) (x : Tid) (th : Thread) : OthersKept x s (putThread s x th) :=
  ⟨fun _ h => getThread_putThread_other s th h, rfl, fun _ => ⟨rfl, rfl, rfl⟩⟩

/-- Putting the current thread's record back changes that record only. -/
theorem becomes_put (s : State) (th : Thread) : Becomes s (.next (putThread s s.cur th)) th :=
  ⟨_, rfl, getThread_putThread_self _ _ _, othersKept_put s s.cur th⟩

theorem becomes_retire (s : State) (th : Thread) (n : Nat) : Becomes s (retire s th n) (advance th n) :=
  becomes_put s _

theorem any_false_of_forall {α : Type} {l : List α} {p : α → Bool} (h : ∀ x ∈ l, p x = false) : l.any p = false := by
  rw [List.any_eq_false]
  intro x hx
  rw [h x hx]
  exact Bool.false_ne_true

/-- Registers that are ready are read at once. -/
theorem withRegs_ready {s : State} {rs : List Reg} (h : Ready s rs) (k : Thread → Out) :
    withRegs s rs k = k (running s) := by
  have h1 : rs.any (frozenPending (getThread s s.cur)) = false := any_false_of_forall fun r hr => (h r hr).2
  have h2 : rs.any (pending (getThread s s.cur)) = false := any_false_of_forall fun r hr => (h r hr).1
  simp only [withRegs, h1, h2]
  rfl

/-- A register that awaits a value holds its instruction back (R127). -/
theorem withRegs_waits {s : State} {rs : List Reg} {r : Reg} (hr : r ∈ rs)
    (hf : ∀ x ∈ rs, frozenPending (running s) x = false) (hp : pending (running s) r = true) (k : Thread → Out) :
    withRegs s rs k = .next { s with stalled := true } := by
  have h1 : rs.any (frozenPending (getThread s s.cur)) = false := any_false_of_forall hf
  have h2 : rs.any (pending (getThread s s.cur)) = true := List.any_eq_true.2 ⟨r, hr, hp⟩
  simp only [withRegs, h1, h2]
  rfl

/-- A register that a frozen entry is to give raises fault in fault handler (R277). -/
theorem withRegs_frozen {s : State} {rs : List Reg} {r : Reg} (hr : r ∈ rs) (hf : frozenPending (running s) r = true)
    (k : Thread → Out) : withRegs s rs k = raise s s.cur (causeInfo 0x13 0) false := by
  have h1 : rs.any (frozenPending (getThread s s.cur)) = true := List.any_eq_true.2 ⟨r, hr, hf⟩
  simp only [withRegs, h1]
  rfl

/-- Nothing changes for a register that awaits no value. -/
theorem dropLate_of_not_pending {th : Thread} {d : Reg} (h : pending th d = false) : dropLate th d = th := by
  have hz : ∀ a : Access, accessReg a = some 0 → ({ a with reg := 0 } : Access) = a := by
    intro a ha
    have hr : a.reg = 0 := by
      cases hk : a.kind <;> simp [accessReg, hk] at ha <;> exact ha
    cases a
    simp_all
  have h1 : ∀ a ∈ th.out, (if accessReg a = some d then ({ a with reg := 0 } : Access) else a) = a := by
    intro a ha
    by_cases hd : accessReg a = some d
    · rw [if_pos hd]
      by_cases h0 : d = 0
      · exact hz a (h0 ▸ hd)
      · simp [pending, h0] at h
        exact absurd hd (h.1 a ha)
    · rw [if_neg hd]
  have h2 : ∀ x ∈ th.rq, (if x.reg = d then ({ x with reg := 0 } : RqItem) else x) = x := by
    intro x hx
    by_cases hd : x.reg = d
    · rw [if_pos hd]
      by_cases h0 : d = 0
      · have : x.reg = 0 := h0 ▸ hd
        cases x
        simp_all
      · simp [pending, h0] at h
        exact absurd hd (h.2 x hx)
    · rw [if_neg hd]
  simp only [dropLate]
  rw [List.map_congr_left h1, List.map_congr_left h2]
  simp

/-- An instruction that may go on does, with earlier values for its gd dropped. -/
theorem withDest_usable {s : State} {d : Reg} {rs : List Reg} (h : Usable s d rs) (k : Thread → Out) :
    withDest s d rs k = k (dropLate (running s) d) := by
  have h1 : frozenPending (getThread s s.cur) d = false := h.2.1
  have h2 : oncePending (running s) d = false := h.2.2
  simp only [withDest, h1, withRegs_ready h.1, h2]
  rfl

/-- A register that is read and awaits a value holds the instruction back (R127). -/
theorem withDest_waits {s : State} {d : Reg} {rs : List Reg} {r : Reg} (hr : r ∈ rs)
    (hf : ∀ x ∈ rs, frozenPending (running s) x = false) (hd : frozenPending (running s) d = false)
    (hp : pending (running s) r = true) (k : Thread → Out) :
    withDest s d rs k = .next { s with stalled := true } := by
  have h1 : frozenPending (getThread s s.cur) d = false := hd
  simp only [withDest, h1, withRegs_waits hr hf hp]
  rfl

/-- A gd that a frozen entry is to give raises fault in fault handler (R277). -/
theorem withDest_frozen {s : State} {d : Reg} (hf : frozenPending (running s) d = true) (rs : List Reg) (k : Thread → Out) :
    withDest s d rs k = raise s s.cur (causeInfo 0x13 0) false := by
  have h1 : frozenPending (getThread s s.cur) d = true := hf
  simp only [withDest, h1]
  rfl

theorem withResult_usable {s : State} {d : Option Reg} {rs : List Reg} (h : UsableFor s d rs) (k : Thread → Out) :
    withResult s d rs k = k (dropFor (running s) d) := by
  cases d with
  | none => exact withRegs_ready h k
  | some r => exact withDest_usable h k

theorem readG_writeG (th : Thread) (d r : Reg) (w : Word) :
    readG (writeG th d w) r = if r = d ∧ d ≠ 0 then w else readG th r := by
  by_cases h : r = d
  · subst h
    by_cases h0 : r = 0
    · subst h0; simp
    · rw [if_pos ⟨rfl, h0⟩, readG_writeG_self th w h0]
  · rw [if_neg fun c => h c.1, readG_writeG_other th w h]

/-- A record with a new value of one register, flags and a pc, put back. -/
theorem writes_retire (s : State) (d : Reg) (v : Word) (fl : BitVec 7) (len : Nat) :
    Writes s (retire s (writeG { dropLate (running s) d with fflags := (running s).fflags ||| fl } d v) len) d v fl len := by
  refine ⟨_, rfl, othersKept_put s s.cur _, fun r => ?_, ?_, ?_, ?_⟩
  · rw [getThread_putThread_self, readG_advance, readG_writeG]
    rfl
  · rw [getThread_putThread_self, advance_pc, writeG_pc]
    rfl
  · rw [getThread_putThread_self, advance_fflags, writeG_fflags]
  · rw [getThread_putThread_self]
    unfold writeG
    split <;> rfl

theorem scalarOp_writes {s : State} {d : Reg} {rs : List Reg} (h : Usable s d rs) (len : Nat) (f : Thread → Word) :
    Writes s (scalarOp s d rs len f) d (f (dropLate (running s) d)) 0 len := by
  rw [scalarOp, withDest_usable h]
  have := writes_retire s d (f (dropLate (running s) d)) 0 len
  rwa [show ({ dropLate (running s) d with fflags := (running s).fflags ||| 0 } : Thread) = dropLate (running s) d by
    simp [dropLate]] at this

theorem scalarFlags_writes {s : State} {d : Reg} {rs : List Reg} (h : Usable s d rs) (len : Nat)
    (f : Thread → Word × BitVec 7) :
    Writes s (scalarFlags s d rs len f) d (f (dropLate (running s) d)).1 (f (dropLate (running s) d)).2 len := by
  rw [scalarFlags, withDest_usable h]
  exact writes_retire s d _ _ len

/-- A scalar event with no vector instruction before it is reported at once (R128). -/
theorem raise_now {s : State} {t : Tid} (h : (getThread s t).vq = []) (f : FaultInfo) (b : Bool) :
    raise s t f b = .next (takeFault s t f none (getThread s t).pc (xretOf (getThread s t) f.cause)) := by
  simp only [raise, h, List.isEmpty_nil]
  rfl

/-- A scalar event with vector instructions before it waits for them (R128). -/
theorem raise_later {s : State} {t : Tid} (h : (getThread s t).vq ≠ []) (f : FaultInfo) (b : Bool) :
    raise s t f b =
      .next { putThread s t { getThread s t with pend := some f, pendDecode := b } with stalled := true } := by
  have : (getThread s t).vq.isEmpty = false := by simpa using h
  simp only [raise, this]
  rfl

theorem becomes_takeFault (s : State) (f : FaultInfo) (v : Option (Word × Nat)) (xpc xret : Word) :
    Becomes s (.next (takeFault s s.cur f v xpc xret))
      (if routed s.cur (running s) f.cause then enterHandler (report (running s) f v xpc) xret
        else { report (running s) f v xpc with tstate := .stopped, wait := .none, rq := freezeItems (running s) }) :=
  becomes_put s _

/-- With no entry in the vector queue nothing of the read queue is frozen. -/
theorem freezeItems_nil {th : Thread} (h : th.vq = []) : freezeItems th = th.rq := by
  simp [freezeItems, waitsForEntry, h]

/-- Nothing is raised or stalled to a fault or a refusal. -/
theorem raise_next (s : State) (t : Tid) (f : FaultInfo) (b : Bool) : ∃ u, raise s t f b = .next u := by
  simp only [raise]
  split <;> exact ⟨_, rfl⟩

theorem withRegs_next (s : State) (rs : List Reg) (k : Thread → Out) (h : ∃ u, k (running s) = .next u) :
    ∃ u, withRegs s rs k = .next u := by
  simp only [withRegs]
  split
  · exact raise_next _ _ _ _
  · split
    · exact ⟨_, rfl⟩
    · exact h

theorem withDest_next (s : State) (d : Reg) (rs : List Reg) (k : Thread → Out)
    (h : ∃ u, k (dropLate (running s) d) = .next u) : ∃ u, withDest s d rs k = .next u := by
  simp only [withDest]
  split
  · exact raise_next _ _ _ _
  · refine withRegs_next s rs _ ?_
    split
    · exact ⟨_, rfl⟩
    · exact h

/-- Changing a thread's record changes that record only. -/
theorem othersKept_upd (s : State) (t : Tid) (f : Thread → Thread) : OthersKept t s (updThread s t f) :=
  othersKept_put s t (f (getThread s t))

/-- Setting the accesses aside that a frozen entry holds back, and letting them go, changes the thread's record only. -/
theorem othersKept_setAside (s : State) (t : Tid) (l : List Access) : OthersKept t s (setAside s t l) := othersKept_upd s t _

theorem othersKept_freeAccesses (s : State) (t : Tid) : OthersKept t s (freeAccesses s t) := othersKept_upd s t _

/-- What a handler entry sets aside is outstanding. -/
theorem mem_of_mem_heldBack {s : State} {t : Tid} {a : Access} (h : a ∈ heldBack s t) : a ∈ (getThread s t).out := by
  suffices k : ∀ (l r : List Access), a ∈ l.foldl (fun r a =>
      if heldByVector s t a || r.any (heldByAccess a) then r ++ [a] else r) r → a ∈ r ∨ a ∈ l by
    exact (k _ [] h).resolve_left List.not_mem_nil
  intro l
  induction l with
  | nil => exact fun r h => .inl h
  | cons b l ih =>
    intro r h
    rcases ih _ h with h | h
    · dsimp only at h
      split at h
      · rcases List.mem_append.mp h with h | h
        · exact .inl h
        · exact .inr (List.mem_singleton.mp h ▸ List.mem_cons_self)
      · exact .inl h
    · exact .inr (List.mem_cons_of_mem _ h)

@[simp] theorem heldBack_nil {s : State} {t : Tid} (h : (getThread s t).out = []) : heldBack s t = [] := by
  simp [heldBack, h]

end Sys2Proof.Laws
end

