-- ==== Sys2Proof/Tests/Slice0.lean ====
section
/-!
SUPPORT. Small tests: words of every encoded instruction, the checks of well-formedness, single steps, and for each
obligation a state and operands that meet its hypotheses. Expected results come from the manual.
-/

set_option Elab.async false

namespace Sys2Proof.Tests

open Sys2Proof.Machine Sys2Proof.Safety

/-- Each word decodes to the instruction beside it. -/
def readsAll (l : List (Nat × Instr)) : Bool := l.all fun p => decide (decodeTableWord 32 p.1 = some p.2)
/-- Each half decodes to the instruction beside it, as A of a pair with hnop and as B behind hnop. -/
def readsHalves (l : List (Nat × Instr)) : Bool :=
  l.all fun p => decide (decodeAt (0xC0000000 + p.1 * 2 ^ 15) 0 false = .ok (p.2, 2)) &&
    decide (decodeAt (0xC0000000 + p.1) 0 true = .ok (p.2, 2))
/-- Each prefix and second parcel decode to the instruction beside them. -/
def readsLong (l : List (Nat × Nat × Instr)) : Bool :=
  l.all fun p => decide (decodeTableWord 64 (p.1 + p.2.1 * 2 ^ 32) = some p.2.2)

/-! ### Decoding: words put together from the tables of 04_encoding.md, every field at a value of its own -/

theorem test_decode_int : readsAll
   [(0x04654800, .add 3 5 9), (0x04654840, .sub 3 5 9), (0x04654880, .mul 3 5 9), (0x046548C0, .mulh 3 5 9),
    (0x04654900, .mulhn 3 5 9), (0x04654940, .div 3 5 9), (0x04654980, .divn 3 5 9), (0x046549C0, .rem 3 5 9),
    (0x04654A00, .remn 3 5 9), (0x04654A40, .and 3 5 9), (0x04654A80, .or 3 5 9), (0x04654AC0, .xor 3 5 9),
    (0x04654B00, .shl 3 5 9), (0x04654B40, .shr 3 5 9), (0x04654B80, .sra 3 5 9), (0x04654BC0, .rot 3 5 9),
    (0x04654C00, .min 3 5 9), (0x04654C40, .max 3 5 9), (0x04654C80, .minn 3 5 9), (0x04654CC0, .maxn 3 5 9),
    (0x04654D00, .slt 3 5 9), (0x04654D40, .sltn 3 5 9), (0x04654D80, .seq 3 5 9), (0x04654DCE, .csel 3 5 9 14),
    (0x04650600, .clz 3 5), (0x04650640, .ctz 3 5), (0x04650680, .popc 3 5), (0x04654EC1, .sext 3 5 9 1),
    (0x04654F01, .zext 3 5 9 1)] = true := by decide +kernel

theorem test_decode_imm : readsAll
   [(0x0865A5B3, .addi 3 5 42419), (0x0C65A5B3, .andi 3 5 42419), (0x1065A5B3, .ori 3 5 42419),
    (0x1465A5B3, .xori 3 5 42419), (0x18650025, .shli 3 5 37), (0x18654025, .shri 3 5 37), (0x18658025, .srai 3 5 37),
    (0x1C62A5B3, .lim 3 2 42419), (0x1C66A5B3, .limK 3 2 42419), (0x2065A5B3, .slti 3 5 42419),
    (0x2465A5B3, .sltni 3 5 42419)] = true := by decide +kernel

theorem test_decode_fp : readsAll
   [(0x28654824, .fadd 3 5 9 2 4), (0x28654864, .fsub 3 5 9 2 4), (0x286548A4, .fmul 3 5 9 2 4),
    (0x286548E4, .fdiv 3 5 9 2 4), (0x28650124, .fsqrt 3 5 2 4), (0x28654964, .fma 3 5 9 2 4),
    (0x286549A7, .fmin 3 5 9 2), (0x286549E7, .fmax 3 5 9 2), (0x28654A27, .feq 3 5 9 2), (0x28654A67, .flt 3 5 9 2),
    (0x28654AA7, .fle 3 5 9 2), (0x286512E4, .fcvt 3 5 2 2 4), (0x28652324, .fcvti 3 5 4 2 4),
    (0x28652364, .fcvtf 3 5 4 2 4)] = true := by decide +kernel

theorem test_decode_memory_and_atomics : readsAll
   [(0x2C65BBB3, .ld 3 5 2 true 13 435), (0x30659BB3, .st 3 5 2 13 435), (0x34654834, .amoadd 3 5 9 true 2 2),
    (0x34654874, .amoand 3 5 9 true 2 2), (0x346548B4, .amoor 3 5 9 true 2 2), (0x346548F4, .amoxor 3 5 9 true 2 2),
    (0x34654935, .amomin 3 5 9 true 2 2 true), (0x34654975, .amomax 3 5 9 true 2 2 true),
    (0x346549B4, .amoswap 3 5 9 true 2 2), (0x346549F4, .amofadd 3 5 9 true 2 2), (0x38654834, .cas 3 5 9 true 2 2)] = true := by decide +kernel

theorem test_decode_control : readsAll
   [(0x3C0CA5B3, .beq 3 5 1459), (0x3C8CA5B3, .bne 3 5 1459), (0x3D0CA5B3, .blt 3 5 1459), (0x3D8CA5B3, .bge 3 5 1459),
    (0x3E0CA5B3, .bltn 3 5 1459), (0x3E8CA5B3, .bgen 3 5 1459), (0x4002A5B3, .jal 173491), (0x4465A5B3, .jr 3 5 42419),
    (0x48032DB3, .jt 3 5 1459), (0x4C0C05B3, .bstrip 3 1459), (0x50000000, .trapNone), (0x50000001, .trapReadTsw),
    (0x50000002, .trapReadViolationLog), (0x50000003, .trapAbort), (0x50000008, .trapRegisterFaultRecord),
    (0x50000009, .trapResumeMcc), (0x50000005, .trapUnassigned 5), (0x50000065, .brk 37), (0x50000080, .exit),
    (0x500000C0, .yield), (0x50000100, .xret), (0x50030140, .leave 3), (0x546005B3, .csrr 3 1459),
    (0x540345B3, .csrw 3 1459)] = true := by decide +kernel

theorem test_decode_sync_and_vsetl : readsAll
   [(0x58030028, .fence 3 2 2), (0x58000053, .qfence 19), (0x5865488E, .wait 3 5 9 14), (0x580000CD, .bar 13),
    (0x58032900, .wmpub 3 5), (0x58654940, .apnd 3 5 9), (0x58654980, .apub 3 5 9), (0x580301C2, .bkset 3 2),
    (0x58000202, .bkclr 2), (0x5C6506C8, .vsetl 3 5 13 4 4), (0x60654EC8, .vsetlw 3 5 9 13 4 4)] = true := by decide +kernel

theorem test_decode_vector_int : readsAll
   [(0x646548F0, .vaddVV 3 5 9 7 true), (0x646548F1, .vsubVV 3 5 9 7 true), (0x646548F2, .vmulVV 3 5 9 7 true),
    (0x646548F3, .vmulhVV 3 5 9 7 true), (0x646548F4, .vdivVV 3 5 9 7 true), (0x646548F5, .vremVV 3 5 9 7 true),
    (0x646548F6, .vminVV 3 5 9 7 true), (0x646548F7, .vmaxVV 3 5 9 7 true), (0x646548F8, .vaddsVV 3 5 9 7 true),
    (0x646548F9, .vsubsVV 3 5 9 7 true), (0x646548FA, .vandVV 3 5 9 7 true), (0x646548FB, .vorVV 3 5 9 7 true),
    (0x646548FC, .vxorVV 3 5 9 7 true), (0x646548FD, .vshlVV 3 5 9 7 true), (0x646548FE, .vshrVV 3 5 9 7 true),
    (0x686548F0, .vaddVS 3 5 9 7 true), (0x686548F1, .vsubVS 3 5 9 7 true), (0x686548F2, .vrsubVS 3 5 9 7 true),
    (0x686548F3, .vmulVS 3 5 9 7 true), (0x686548F4, .vmulhVS 3 5 9 7 true), (0x686548F5, .vminVS 3 5 9 7 true),
    (0x686548F6, .vmaxVS 3 5 9 7 true), (0x686548F7, .vaddsVS 3 5 9 7 true), (0x686548F8, .vsubsVS 3 5 9 7 true),
    (0x686548F9, .vandVS 3 5 9 7 true), (0x686548FA, .vorVS 3 5 9 7 true), (0x686548FB, .vxorVS 3 5 9 7 true),
    (0x686548FC, .vshlVS 3 5 9 7 true), (0x686548FD, .vshrVS 3 5 9 7 true), (0x6C65B660, .vaddVI 3 5 1459),
    (0x6C65B661, .vrsubVI 3 5 1459), (0x6C65B662, .vandVI 3 5 1459), (0x6C65B663, .vorVI 3 5 1459),
    (0x6C65B664, .vxorVI 3 5 1459), (0x6C6504A5, .vshlVI 3 5 37), (0x6C6504A6, .vshrVI 3 5 37),
    (0x6C65B667, .vminVI 3 5 1459), (0x6C65B668, .vmaxVI 3 5 1459)] = true := by decide +kernel

theorem test_decode_vector_fp : readsAll
   [(0x706548F0, .vfaddVV 3 5 9 7 true), (0x706548F1, .vfsubVV 3 5 9 7 true), (0x706548F2, .vfmulVV 3 5 9 7 true),
    (0x706548F3, .vfdivVV 3 5 9 7 true), (0x706548F4, .vfmaVV 3 5 9 7 true), (0x706548F5, .vfminVV 3 5 9 7 true),
    (0x706548F6, .vfmaxVV 3 5 9 7 true), (0x706500F7, .vfabs 3 5 7 true), (0x706500F8, .vfsqrt 3 5 7 true),
    (0x706500F9, .vfrcp 3 5 7 true), (0x706500FA, .vfrsqrt 3 5 7 true), (0x706500FB, .vfexp2 3 5 7 true),
    (0x706568FC, .vcvt 3 5 13 7 true), (0x746548F0, .vfaddVS 3 5 9 7 true), (0x746548F1, .vfsubVS 3 5 9 7 true),
    (0x746548F2, .vfmulVS 3 5 9 7 true), (0x746548F3, .vfdivVS 3 5 9 7 true), (0x746548F4, .vfmaVS 3 5 9 7 true),
    (0x746548F5, .vfminVS 3 5 9 7 true), (0x746548F6, .vfmaxVS 3 5 9 7 true)] = true := by decide +kernel

theorem test_decode_compare_and_reduce : readsAll
   [(0x787194B0, .vcmpEqVV 7 3 5 11), (0x787194B1, .vcmpNeVV 7 3 5 11), (0x787194B2, .vcmpLtVV 7 3 5 11),
    (0x787194B3, .vcmpLeVV 7 3 5 11), (0x787194B4, .vcmpUnordVV 7 3 5 11), (0x787194B8, .vcmpEqVS 7 3 5 11),
    (0x787194B9, .vcmpNeVS 7 3 5 11), (0x787194BA, .vcmpLtVS 7 3 5 11), (0x787194BB, .vcmpLeVS 7 3 5 11),
    (0x787194BC, .vcmpGtVS 7 3 5 11), (0x787194BD, .vcmpGeVS 7 3 5 11), (0x7C6548E0, .vredsum 3 5 9 7),
    (0x7C6548E1, .vredsumo 3 5 9 7), (0x7C6548E2, .vredmin 3 5 9 7), (0x7C6548E3, .vredmax 3 5 9 7),
    (0x7C6548E4, .vredand 3 5 9 7), (0x7C6548E5, .vredor 3 5 9 7), (0x7C6548F6, .vscan 3 5 9 7 true),
    (0x7C6548F7, .vscanmax 3 5 9 7 true)] = true := by decide +kernel

theorem test_decode_permute_and_mask : readsAll
   [(0x806548E0, .vlift 3 5 9 7), (0x806548E1, .vsink 3 5 9 7), (0x806548E2, .vperm 3 5 9 7),
    (0x806500E3, .vpress 3 5 7), (0x806000E4, .vrank 3 7), (0x806028E5, .vbcast 3 5 7), (0x80654806, .vextr 3 5 9),
    (0x80654807, .vput 3 5 9), (0x806548E8, .vupd 3 5 9 7), (0x806548F8, .vupdAdd 3 5 9 7),
    (0x806548E9, .vtopk 3 5 9 7), (0x8472CD00, .mand 7 11 13), (0x8472CD01, .mor 7 11 13), (0x8472CD02, .mxor 7 11 13),
    (0x8472C003, .mnot 7 11), (0x8431C004, .mpopc 3 7), (0x8431C005, .mfirst 3 7), (0x8431C506, .mtos 3 7 5),
    (0x8470C507, .stom 7 3 5), (0x8470C508, .mset 7 3 5)] = true := by decide +kernel

theorem test_decode_chain_and_vector_memory : readsAll
   [(0x886500FB, .vld 3 5 7 13 true), (0x8C6548FB, .vlds 3 5 9 7 13 true), (0x906548FB, .vldx 3 5 9 7 13 true),
    (0x946500FA, .vst 3 5 7 13), (0x986548FA, .vsts 3 5 9 7 13), (0x9C6548FA, .vstx 3 5 9 7 13),
    (0xA06548FB, .vstxa 3 5 9 7 13 true), (0xA4650000, .vshare 3 5), (0xA4654801, .vcat 3 5 9),
    (0xA4654B82, .vtrim 3 5 9 14), (0xA4654803, .vsplit 3 5 9), (0xA4650004, .vpack 3 5), (0xA4030005, .vfree 3),
    (0xA4650006, .vdesc 3 5), (0xA4650007, .vlen 3 5)] = true := by decide +kernel

theorem test_decode_collator_tile_pattern : readsAll
   [(0xA8654B80, .clmap 3 5 9 14), (0xA8654801, .clcomp 3 5 9), (0xA8650002, .clscan 3 5),
    (0xA8654803, .clapply 3 5 9), (0xA8701944, .clmask 7 3 5), (0xAC0301A0, .tbind 3 13), (0xAC0001A1, .ttgt 13),
    (0xAC0001A2, .twait 13), (0xAC6001A3, .tget 3 13), (0xAC0001A4, .tfree 13), (0xB06548F3, .pat 3 5 9 7 19)] = true := by decide +kernel

theorem test_decode_halves : readsHalves
   [(0x0000, .hnop),
    (0x0465, .hadd 3 5),
    (0x0865, .hsub 3 5),
    (0x0C65, .hand 3 5),
    (0x1065, .hor 3 5),
    (0x1465, .hmov 3 5),
    (0x1875, .hinc 3 21),
    (0x1C75, .hshl 3 21),
    (0x21D9, .hldd 3 5 9),
    (0x25D9, .hstd 3 5 9),
    (0x2875, .hbz 3 21),
    (0x2C75, .hbnz 3 21),
    (0x32B5, .hjmp 0x2B5),
    (0x35D0, .hvadd 3 5),
    (0x3800, .hwait),
    (0x3C00, .hexit)] = true := by decide +kernel

theorem test_decode_matrix_and_copies : readsLong
   [(0xB4114A02, 0x00000000, .mcfg 1 0 false true false 37 true false),
    (0xB4668000, 0x19400000, .mma 9 2 true 3 5),
    (0xB4990000, 0x19520000, .mmasp 6 1 false 3 5 9),
    (0xB4EF0000, 0x00000000, .mzero 11 3),
    (0xB5152700, 0x74400000, .mdrain 5 1 2 3 true 14 17),
    (0xB5720000, 0x00000000, .mwait 200),
    (0xB81B4000, 0x1952E880, .cpy 13 2 true 3 5 9 14 17),
    (0xB858E8A7, 0x1952E8D4, .cpyg 12 1 true 20 0xA7 3 5 9 14 17 21),
    (0xB897E800, 0x1952E8D4, .cpys 11 3 true 20 3 5 9 14 17 21),
    (0xB8D440A7, 0x1812E880, .cpyf 10 0 true 0xA7 3 9 14 17)] = true := by decide +kernel

/-! ### Well-formedness: one term that each check refuses -/

theorem test_wf_size : (Instr.sext 1 2 3 3).wf = false ∧ (Instr.sext 1 2 3 2).wf = true := by decide
theorem test_wf_rounding : (Instr.fadd 1 2 3 0 5).wf = false ∧ (Instr.fma 1 2 3 0 6).wf = false ∧ (Instr.fma 1 2 3 0 7).wf = true := by
  decide
theorem test_wf_trap : (Instr.trapUnassigned 3).wf = false ∧ (Instr.trapUnassigned 9).wf = false ∧ (Instr.trapUnassigned 4).wf = true := by
  decide
theorem test_wf_fence : (Instr.fence 1 3 0).wf = false := by decide
theorem test_wf_mask : (Instr.vaddVV 1 2 3 48 false).wf = false ∧ (Instr.vaddVV 1 2 3 47 false).wf = true ∧
    (Instr.mand 48 1 2).wf = false ∧ (Instr.mand 1 48 2).wf = false ∧ (Instr.mand 1 2 48).wf = false ∧
    (Instr.vcmpEqVV 1 2 3 63).wf = false := by decide
theorem test_wf_shift : (Instr.vshlVI 1 2 64).wf = false ∧ (Instr.vshrVI 1 2 63).wf = true := by decide
theorem test_wf_split : (Instr.vsplit 3 3 1).wf = false := by decide
theorem test_wf_unit_mask : (Instr.mzero 0 1).wf = false := by decide
theorem test_wf_matrix_types : (Instr.mcfg 0 2 false false false 3 false false).wf = false ∧
    (Instr.mcfg 3 3 false false false 3 false false).wf = false ∧ (Instr.mcfg 0 1 true false false 3 false false).wf = false ∧
    (Instr.mcfg 3 3 true false false 3 false false).wf = true := by decide

theorem test_wf_drain : (Instr.mdrain 1 0 7 0 false 1 0).wf = false ∧ (Instr.mdrain 1 0 0 6 false 1 0).wf = false ∧
    (Instr.mdrain 1 0 4 0 true 1 2).wf = false ∧ (Instr.mdrain 1 0 0 0 false 1 2).wf = false := by decide
theorem test_wf_counter : (Instr.cpy 0 0 false 1 2 3 4 5).wf = false ∧ (Instr.cpyg 0 0 false 1 0 2 3 4 5 6 7).wf = false ∧
    (Instr.cpys 0 0 false 1 2 3 4 5 6 7).wf = false ∧ (Instr.cpyf 0 0 false 0 1 2 3 4).wf = false := by decide

/-! ### Helpers: a thread at an instruction, and its changes -/

/-- A vector thread that stands at `add g3, g4, g5`; beside its code page it has a page that it may read and write. -/
def base : State :=
  let s := State.reset.withFetchWord 32 0x04642800
  { s with mem := memWrite s.mem (0x22000 + 8 * 0x31) 8 0x31027 }
/-- An MCC that stands at an mwait. -/
def onMcc : State :=
  let s := State.reset.withFetchWord 64 0xB5400000
  { s with mem := memWrite s.mem (0x22000 + 8 * 0x31) 8 0x31027 }
/-- The running thread changed. -/
def alter (s : State) (f : Thread → Thread) : State := updThread s s.cur f
/-- The vector thread with one register set. -/
def withG (r : Reg) (w : Word) : State := alter base fun th => writeG th r w
/-- The event's operands set. -/
def event (s : State) (f : EventArg → EventArg) : State := { s with ev := f EventArg.none }
/-- A queue entry of the running thread as it stands at push. -/
def entry (op : VOp) : VEntry :=
  { op := op, pc := 0x30000, vl := 8, vtype := 6, fill := 0, xbound := 0, clmode := 0, clrec := 0, budget := 8192, stamp := 0
    inHandler := false, begun := false, finished := false, stalled := false, prog := 0, old := Desc.empty, part := Desc.empty
    extra := [], writes := true, keepExcl := false, flags := 0, snap := [], gres := 0, names := [], bk := Bookmark.none, wrote := [], struck := []
    dropped := [], fault := none }
/-- A load of 8 bytes of the writable page into g4. -/
def load4 : Access :=
  { pc := 0x30000, kind := .ld false, va := 0x31000, size := 8, tgt := .dev 0x31000 false, cls := 0, reg := 4, val := 0, cmp := 0, order := 0
    scope := 0, fill := 0, stamp := 0 }
/-- A store of 8 bytes to the writable page. -/
def store8 : Access := { load4 with kind := .st, val := 0x1122334455667788 }
/-- What a handler entry sets aside. -/
def aside : Frozen := { vl := 4, vtype := 6, maxvl := 64, clrec := 0, m46 := 1, vq := [], rq := [], out := [], carry := none, carries := [], wrote := false }
/-- A place in the read queue that waits for its value. -/
def place4 : RqItem := { reg := 4, val := none, stamp := 0, csr := none, base := 0, froze := false }

/-- An outcome is a next state in which something holds. -/
def gives (o : Out) (p : State → Bool) : Bool :=
  match o with
  | .next t => p t
  | .fault _ => false
  | .refused _ => false
/-- A number of a sign, zero or not. -/
def isNum (v : FVal) (sign zero : Bool) : Bool :=
  match v with
  | .num n m _ => decide (n = sign) && decide ((m = 0) = zero)
  | .inf _ => false
  | .nan _ => false

/-! ### Single steps: results worked out from the rules -/

/-- R129: the sum wraps. -/
theorem test_add_wraps : gives (exec (.add 3 4 4) (withG 4 0x8000000000000001)) (fun t => decide (reg t 3 = 2 ∧ (running t).pc = 0x30004)) = true := by decide +kernel
/-- R59: g0 discards what is written. -/
theorem test_g0_discards : gives (exec (.addi 0 4 7) (withG 4 5)) (fun t => decide (reg t 0 = 0)) = true := by decide +kernel
/-- R130: division by zero. -/
theorem test_div_zero : gives (exec (.divn 3 4 0) (withG 4 5)) (fun t => decide (reg t 3 = BitVec.allOnes 64 ∧ (running t).fflags = 8)) = true := by decide +kernel
/-- R33, R134: 1.0 + 2.0 = 3.0 in f32. -/
theorem test_fadd : gives (exec (.fadd 3 4 5 2 0) (alter (withG 4 0x3F800000) fun th => writeG th 5 0x40000000)) (fun t => decide (reg t 3 = 0x40400000)) = true := by decide +kernel
/-- R145: a taken branch counts in parcels from its own parcel. -/
theorem test_beq_back : gives (exec (.beq 4 5 0x1FFF) base) (fun t => decide ((running t).pc = 0x2FFFC)) = true := by decide +kernel
/-- R136, R352: a load of a page without a translation raises translation. -/
theorem test_ld_untranslated : gives (exec (.ld 3 4 3 false 0 0) (withG 4 0x50000)) (fun t => decide ((running t).xcause = 6 ∧ (running t).xinfo = 0x50000 ∧ (running t).tstate = .stopped)) = true := by decide +kernel
/-- R159, R160: 4,096 elements of u64 are granted as the pool's budget and NV = 32 allow: 8,192 / 32 leaves of 8 elements. -/
theorem test_vsetl_budget : gives (exec (.vsetl 3 4 7 0 0) (withG 4 4096)) (fun t => decide ((running t).maxvl = 2048 ∧ reg t 3 = 2048)) = true := by decide +kernel
/-- R150: brk stops for Usilaem when UFMASK does not route it. -/
theorem test_brk_stops : gives (exec (.brk 9) base) (fun t => decide ((running t).xcause = 0x0E ∧ (running t).xinfo = 9 ∧ (running t).tstate = .stopped)) = true := by decide +kernel
/-- R89: a fetched word runs as the first instruction. -/
theorem test_step_runs : gives (step (State.reset.withFetchWord 32 0x08600005)) (fun t => decide (reg t 3 = 5)) = true := by decide +kernel
/-- R376: the first turn of the device is the boot, and an empty flash leads to recovery. -/
theorem test_boot_of_an_empty_flash : gives (step State.reset) (fun t => decide (t.root.boot = .recovery)) = true := by decide +kernel

/-! ### Witnesses: for each obligation, states and operands that meet the hypotheses of its clauses -/

theorem witness_EveryEncodingDecodesBack : (Instr.add 1 2 3).wf = true ∧ (Instr.mzero 15 3).wf = true ∧ (Instr.hadd 31 31).wf = true := by
  decide
theorem witness_AcceptedParcelsHaveOneMeaning : decodeAt 0x04642800 0 false = .ok (.add 3 4 5, 4) := by decide +kernel
theorem witness_StepRunsTheDecodedInstruction :
    (base.agenda = [] ∧ canIssue (running base) = true ∧ base.stalled = false ∧
      fetchParcel base base.cur (parcelAddr (running base).pc) = (base, .ok 0x04642800) ∧
      (isPrefix 0x04642800 && !atHalfB (running base)) = false ∧
      decodeAt 0x04642800 0 (atHalfB (running base)) = .ok (.add 3 4 5, 4)) ∧
    (onMcc.agenda = [] ∧ canIssue (running onMcc) = true ∧ onMcc.stalled = false ∧
      fetchParcel onMcc onMcc.cur (parcelAddr (running onMcc).pc) = (onMcc, .ok 0xB5400000) ∧
      fetchParcel onMcc onMcc.cur (parcelAddr (running onMcc).pc + 4) = (onMcc, .ok 0) ∧
      decodeAt 0xB5400000 0 (atHalfB (running onMcc)) = .ok (.mwait 0, 8)) ∧
    encode .yieldEnd = .event ∧
      ({ base with agenda := [.event .yieldEnd EventArg.none] } : State).agenda = .event .yieldEnd EventArg.none :: [] := by
  refine ⟨⟨?_, ?_, ?_, rfl, ?_, ?_⟩, ⟨?_, ?_, ?_, rfl, rfl, ?_⟩, rfl, rfl⟩ <;> decide +kernel
theorem witness_FetchReadsFourBytes :
    accessTarget base (partyOf base base.cur) 0x30000 4 4 .fetch = .ok (.dev 0x30000 false) := by rfl
theorem witness_registers_usable : Usable base 3 [4, 5, 6] ∧ Usable base 3 [3] ∧ Usable base 31 [] ∧ Usable base 3 [4, 5, 3] ∧
    Ready base [28, 29] ∧ Ready onMcc [0, 31] ∧ (2 : Fin 4).val ≠ 3 := by decide +kernel
theorem witness_IntegerDivision : Usable base 3 [4, 5] ∧ reg base 5 = 0 ∧ Usable (withG 5 7) 3 [4, 5] ∧ reg (withG 5 7) 5 ≠ 0 ∧
    (let s := alter (withG 4 0x8000000000000000) fun th => writeG th 5 0xFFFFFFFFFFFFFFFF
     Usable s 3 [4, 5] ∧ reg s 4 = 0x8000000000000000 ∧ reg s 5 = 0xFFFFFFFFFFFFFFFF) := by decide +kernel
theorem witness_ImmediateFormsAndConstants :
    0x1800C000 < 2 ^ 32 ∧ 0x1800C000 / 2 ^ 26 = 0x06 ∧ 0x1800C000 / 2 ^ 14 % 4 = 3 ∧ 0x18000040 / 2 ^ 26 = 0x06 ∧
    0x18000040 / 2 ^ 6 % 2 ^ 8 ≠ 0 ∧ 0x1C080000 / 2 ^ 26 = 0x07 ∧ 0x1C080000 / 2 ^ 19 % 4 ≠ 0 := by decide
theorem witness_PendingRegisterHoldsBack :
    (let s := alter base fun th => { th with out := [load4] }
     (∀ q, frozenPending (running s) q = false) ∧ pending (running s) 4 = true) ∧
    (let s := alter base fun th => { th with frozen := some { aside with rq := [place4] } }
     frozenPending (running s) 4 = true) ∧
    (let s := alter base fun th => { th with rq := [{ place4 with froze := true }] }
     Ready s [5, 6] ∧ frozenPending (running s) 4 = false ∧ oncePending (running s) 4 = true) ∧ (31 : Fin 4096).val < 0x20 := by
  decide +kernel
/-- A thread at a parcel of zeros. -/
def atZeros : State := State.reset.withFetchWord 32 0
theorem witness_RefusedParcelsAreIllegal :
    atZeros.agenda = [] ∧ canIssue (running atZeros) = true ∧ atZeros.stalled = false ∧
    fetchParcel atZeros atZeros.cur (parcelAddr (running atZeros).pc) = (atZeros, .ok 0) ∧
    (isPrefix 0 && !atHalfB (running atZeros)) = false ∧ decodeAt 0 0 (atHalfB (running atZeros)) = .error .zeroParcel := by
  refine ⟨?_, ?_, ?_, rfl, ?_, ?_⟩ <;> decide +kernel
theorem witness_BranchesCompareAndGo : Ready base [4, 5] ∧ Ready (withG 4 1) [4, 5] ∧ reg base 4 = reg base 5 ∧
    reg (withG 4 1) 4 ≠ reg (withG 4 1) 5 := by decide +kernel
theorem witness_JumpsLinkAndGo :
    Usable base 31 [] ∧ Usable base 3 [4] ∧ (let s := withG 4 2
      Usable s 3 [4] ∧ (reg base 4 + 4 * (0xFFFF : BitVec 16).signExtend 64).toNat % 4 = 0 ∧
      (reg s 4 + 4 * (0xFFFF : BitVec 16).signExtend 64).toNat % 4 ≠ 0 ∧ reg s 4 ≠ 0 ∧ reg s 3 = 0) := by decide +kernel
theorem witness_TableJumpReadsItsEntry :
    (let s := withG 5 0x31000
     Ready s [4, 5] ∧ (0 : Fin 2048).val ≤ (reg s 4).toNat ∧ (reg s 4).toNat < (1 : Fin 2048).val ∧
     accessTarget s (partyOf s s.cur) (reg s 5 + 4 * reg s 4) 4 4 .load = .ok (.dev 0x31000 false) ∧ (running s).vq = [] ∧
     (running s).out = [] ∧ (running s).frozen = none) ∧
    (let s := withG 5 0x50000
     alignedTarget s (partyOf s s.cur) (reg s 5 + 4 * reg s 4) 4 4 .load = .error (causeInfo 6 0x50000)) ∧
    (let s := { withG 5 0x31000 with poisonLines := [0x31000 / 64] }
     alignedTarget s (partyOf s s.cur) (reg s 5 + 4 * reg s 4) 4 4 .load = .ok (.dev 0x31000 false) ∧
     tgtPoison s (.dev 0x31000 false) 4 = true ∧ (running s).vq = [] ∧ (running s).out = [] ∧ (running s).frozen = none) := by
  refine ⟨⟨?_, ?_, ?_, ?_, ?_, ?_, ?_⟩, ?_, ?_, ?_, ?_, ?_, ?_⟩ <;> decide +kernel
/-- A thread with a strip entry of its own pc. -/
def striped (n : Nat) : State := alter (withG 4 5) fun th => { th with strip := [{ key := 0x30000, count := 5, strikes := n }] }
theorem witness_BstripKeepsItsRecord :
    Ready base [4] ∧ reg base 4 = 0 ∧ reg (withG 4 5) 4 ≠ 0 ∧
    (running (withG 4 5)).strip.find? (fun x => decide (x.key = 0x30000)) = none ∧
    (∀ n ∈ [0, 1], Ready (striped n) [4] ∧ (running (striped n)).strip.find? (fun x => decide (x.key = (running (striped n)).pc)) =
      some { key := 0x30000, count := 5, strikes := n } ∧ (running (striped n)).vq = [] ∧ (running (striped n)).ufmask = 0) ∧
    (let s := alter (striped 0) fun th => writeG th 4 4
     Ready s [4] ∧ (reg s 4).toNat < 5) := by decide +kernel
theorem witness_BreakpointEntersTheHandler :
    (let s := alter base fun th => { th with ufmask := 0x4000 }
     (running s).vq = [] ∧ (running s).ufmask.getLsbD 14 = true ∧ (running s).frozen = none) ∧
    (running base).vq = [] ∧ (running base).ufmask.getLsbD 14 = false ∧
    (let s := alter base fun th => { th with ufmask := 0x4000, frozen := some aside }
     (running s).vq = [] ∧ (running s).frozen ≠ none) ∧
    (running (alter base fun th => { th with vq := [entry (.share 3 4)] })).vq ≠ [] := by decide +kernel
theorem witness_HandlerReturnRestores :
    (running base).frozen = none ∧
    (let s := alter base fun th => { th with frozen := some aside, xret := 1 }
     (running s).frozen = some aside ∧ (running s).xret.toNat % 2 = 1) ∧
    (let s := alter base fun th => { th with frozen := some aside, xret := 0x30002 }
     (running s).frozen = some aside ∧ (running s).xret.toNat % 2 = 0 ∧ (running s).vq = [] ∧ (running s).rq = [] ∧
       (running s).carryNext = [] ∧ aside.carries = [] ∧ aside.vq = []) ∧
    (let part := { Desc.empty with part := true, excl := true, len := 8 }
     ∀ x ∈ [(entry (.share 3 4), Desc.empty), (entry (.store .unit 3 0 0 0 0 0), part), ({ entry (.bcast 3 7 0) with begun := true }, part),
         ({ entry (.bcast 3 7 0) with begun := true }, { part with part := false }), ({ entry (.bcast 3 7 0) with begun := true }, Desc.empty)],
       let f := { aside with vq := [x.1] }
       let s := alter base fun th => { th with frozen := some f, xret := 0x30002, nextStamp := 1, v := th.v.set 3 x.2 }
       (running s).frozen = some f ∧ (running s).xret.toNat % 2 = 0 ∧ (running s).vq = [] ∧ (running s).rq = [] ∧
         (running s).carryNext = [] ∧ f.carries = [] ∧ (∀ e ∈ f.vq, e.stamp < (running s).nextStamp) ∧ f.vq = x.1 :: []) ∧
    (isFresh (entry (.store .unit 3 0 0 0 0 0)).op = false ∧ isFresh (entry (.bcast 3 7 0)).op = true ∧
      destOf (entry (.bcast 3 7 0)).op = some 3) ∧
    (let s := alter base fun th => { th with frozen := some aside, vq := [entry (.share 3 4)] }
     (running s).frozen = some aside ∧ (running s).xret.toNat % 2 = 0 ∧ (running s).vq ≠ []) := by
  refine ⟨?_, ?_, ?_, ?_, ?_, ?_⟩ <;> decide +kernel
theorem witness_TrapsAreServed :
    Ready base [28, 29] ∧ trapDrained base base.cur = true ∧ isMcc base.cur = false ∧
    (let s := alter base fun th => { th with out := [store8] }
     Ready s [28, 29] ∧ trapDrained s s.cur = false) ∧
    (Ready onMcc [28, 29] ∧ trapDrained onMcc onMcc.cur = true ∧ isMcc onMcc.cur = true) ∧
    memRead base.mem (getCtx base (running base).ctx).vlog 8 = memRead base.mem ((getCtx base (running base).ctx).vlog + 8) 8 ∧
    (let s := { base with mem := memWrite base.mem 0 8 1 }
     Ready s [28, 29] ∧ trapDrained s s.cur = true ∧ MemoriesOk s ∧ (getCtx s (running s).ctx).vlog = 0 ∧
       memRead s.mem 0 8 ≠ memRead s.mem 8 8) ∧
    (let s := alter onMcc fun th => writeG th 28 0x31040
     Ready s [28, 29] ∧ trapDrained s s.cur = true ∧ recordOk s s.cur (reg s 28) = true) := by
  refine ⟨?_, ?_, ?_, ?_, ?_, ?_, ?_, ?_⟩ <;> decide +kernel
theorem witness_FloatInstructionResults :
    Usable base 3 [4, 5, 3] ∧ (running base).frm.toNat ≤ 4 ∧ (4 : Fin 8).val ≤ 4 ∧
    (let s := alter base fun th => { th with frm := 5 }
     Usable s 3 [4, 5, 3] ∧ 5 ≤ (running s).frm.toNat) := by decide +kernel
/-- R31: NaNs, infinities, zeros and numbers of f32 and of e4m3. -/
theorem witness_FloatingPointCornerCases :
    unpack (fmtOf 12) 0x7F800001 = .nan true ∧ unpack (fmtOf 12) 0x7FC00000 = .nan false ∧
    unpack (fmtOf 12) 0x7F800000 = .inf false ∧ unpack (fmtOf 12) 0xFF800000 = .inf true ∧
    isNum (unpack (fmtOf 12) 0) false true ∧
    isNum (unpack (fmtOf 12) 0xBF800000) true false ∧
    isNum (unpack (fmtOf 8) 0x38) false false ∧
    isNum (unpack (fmtOf 8) 0x80) true true ∧
    0x80 = 2 ^ (fmtOf 8).signPos ∧ 0x38 < 2 ^ ((fmtOf 8).signPos + 1) := by decide +kernel
theorem witness_RoundingKeepsExactValues :
    isNum (unpack (fmtOf 8) 0x7E) false false ∧
    isNum (unpack (fmtOf 13) (roundFp (fmtOf 13) .arith 1 true 3 (-2) false).bits) true false := by
  decide +kernel
theorem witness_FloatMinMax :
    0x7F < 2 ^ ((fmtOf 8).signPos + 1) ∧ (unpack (fmtOf 8) 0x7F = .nan true ∨ unpack (fmtOf 8) 0x7F = .nan false) ∧
    unpack (fmtOf 8) 0x38 ≠ .nan true ∧ unpack (fmtOf 8) 0x38 ≠ .nan false ∧ 0x80 = 2 ^ (fmtOf 8).signPos := by decide +kernel
/-- Poison in the line at the start of the writable page. -/
def poisoned (s : State) : State := { s with poisonLines := [0x31000 / 64] }
/-- One link is up. -/
def linkUp (s : State) : State := { s with links := [(0, { Link.reset with st := .up })] }
/-- Queue 5 of context 1, its block at 0x40000. -/
def aQueue : Queue := { block := 0x40000, ctx := 1, ceil := 3, msix := 9, lastSeq := 0, retry := false }
/-- A serial region's descriptor at 0x31000: BASE 0x32000, LIMIT 0x33000, RESERVE 0x32100, FRONTIER 0x32000, then a reserved word,
and the publishes recorded. -/
def region (bad : Nat) (records : List (Word × Word)) (s : State) : State :=
  { s with mem := memWrite s.mem 0x31000 64 (0x32000 + 2 ^ 64 * 0x33000 + 2 ^ 128 * 0x32100 + 2 ^ 192 * 0x32000 + 2 ^ 256 * bad)
           regions := if records.isEmpty then [] else [{ pa := 0x31000, records := records }] }
/-- A bookmark over all low addresses, with its frontier at 0. -/
def hides : Bookmark := { valid := true, frontier := 0, base := 0, limit := 0xFFFFFFFFFFFFFFFF }
theorem witness_LoadsAndStoresIssueTheirAccess :
    (let s := alter base fun th => { th with bk := th.bk.set 3 hides }
     Usable s 3 [4] ∧ bookmarkHides (bookmarkOf (running s) 15) 0 = true ∧ isCanon 0 = true ∧ (0 : Word).toNat % 8 = 0 ∧
       bookmarkHides (bookmarkOf (running s) 15) 1 = true ∧ isCanon 1 = true ∧ (1 : Word).toNat % 8 ≠ 0 ∧
       bookmarkHides (bookmarkOf (running s) 15) 0x8000000000000 = true ∧ isCanon 0x8000000000000 = false) ∧
    (Usable base 3 [4] ∧ Ready base [3, 4] ∧ bookmarkHides (bookmarkOf (running base) 15) 0x31000 = false ∧
      alignedTarget base (partyOf base base.cur) 0x31000 8 8 .load = .ok (.dev 0x31000 false) ∧
      tgtPoison base (.dev 0x31000 false) 8 = false ∧
      alignedTarget base (partyOf base base.cur) 0x31008 8 8 .store = .ok (.dev 0x31008 false) ∧
      alignedTarget base (partyOf base base.cur) 0x31004 8 8 .load = .error (causeInfo 8 0x31004) ∧
      alignedTarget base (partyOf base base.cur) 0x30000 8 8 .store = .error (causeInfo 7 0x30000) ∧ ldCount (running base) < 63 ∧
      stCount (running base) < 63) ∧
    (let s := poisoned base
     tgtPoison s (.dev 0x31000 false) 8 = true ∧ readReady s s.cur (.dev 0x31000 false) 8 = true) ∧
    (let s := poisoned (alter base fun th => { th with out := [store8], nextStamp := 1 })
     Usable s 3 [4] ∧ tgtPoison s (.dev 0x31000 false) 8 = true ∧ readReady s s.cur (.dev 0x31000 false) 8 = false) ∧
    (let s := alter base fun th => { th with out := List.replicate 63 { load4 with reg := 7 } ++ List.replicate 63 store8 }
     Usable s 3 [4] ∧ Ready s [3, 4] ∧ 63 ≤ ldCount (running s) ∧ 63 ≤ stCount (running s)) := by
  refine ⟨?_, ?_, ?_, ?_, ?_⟩ <;> decide +kernel
theorem witness_AtomicsAndRegionOperationsIssueTheirAccess :
    (Usable base 3 [4, 5] ∧ Usable base 3 [3, 4, 5] ∧ Usable base 0 [3, 4, 5] ∧ Ready base [4] ∧ ldCount (running base) < 63 ∧
      alignedTarget base (partyOf base base.cur) 0x31004 4 4 .both = .ok (.dev 0x31004 false) ∧
      alignedTarget base (partyOf base base.cur) 0x31004 8 8 .both = .error (causeInfo 8 0x31004) ∧
      alignedTarget base (partyOf base base.cur) 0x31000 64 64 .both = .ok (.dev 0x31000 false) ∧
      alignedTarget base (partyOf base base.cur) 0x31000 64 64 .load = .ok (.dev 0x31000 false) ∧
      alignedTarget base (partyOf base base.cur) 0 64 64 .load = .error (causeInfo 6 0) ∧
      (running base).vq = [] ∧ (running base).out = [] ∧ tgtPoison base (.dev 0x31000 false) 64 = false) ∧
    (let s := poisoned base
     tgtPoison s (.dev 0x31000 false) 64 = true ∧ readReady s s.cur (.dev 0x31000 false) 64 = true ∧ (running s).out = []) ∧
    (let s := poisoned (alter base fun th => { th with out := [store8], nextStamp := 1 })
     readReady s s.cur (.dev 0x31000 false) 8 = false) ∧
    (let s := alter base fun th => { th with out := List.replicate 63 { load4 with reg := 7 } }
     Usable s 3 [4, 5] ∧ 63 ≤ ldCount (running s)) := by
  refine ⟨?_, ?_, ?_, ?_⟩ <;> decide +kernel
/-- The party of the vector thread, and the window of its context. -/
def me : Party := partyOf base base.cur
theorem witness_AccessFaultsOfAnAddress :
    (getCtx base me.ctx).spbase.toNat = 2 ^ 40 ∧ spadLimit base me.launch = 2 ^ 20 ∧ me.launch ≠ none ∧
    (getCore base me.cl 0).launch = me.launch ∧ (getCore base me.cl 7).launch ≠ me.launch ∧
    (2 ^ 40 + 2 ^ 20 - 4) % 8 ≠ 0 ∧ 2 ^ 20 < (2 ^ 20 - 4) % 2 ^ 20 + 8 ∧ (2 ^ 20 - 8) % 2 ^ 20 + 8 ≤ 2 ^ 20 ∧ base.poisonSpad = [] ∧
    isCanon 0x8000000000000 = false ∧ isCanon 0x7FFFFFFFFFFFF = true ∧ findPage base me 0x50000 = none ∧
    findPage base me 0x31FFF = some (0x31027, 3) ∧ permits 0x31027 .fetch = false ∧ permits 0x31027 .both = true ∧
    (∀ l ∈ base.poisonLines, 0x31000 + 8 ≤ l * 64 ∨ l * 64 + 64 ≤ 0x31000) ∧
    (let s := { base with poisonLines := [0x31000 / 64] }
     findPage s me 0x31000 = some (0x31027, 3) ∧ ∃ l ∈ s.poisonLines, l * 64 < 0x31000 + 8 ∧ 0x31000 < l * 64 + 64) := by
  refine ⟨?_, ?_, ?_, ?_, ?_, ?_, ?_, ?_, ?_, ?_, ?_, ?_, ?_, ?_, ?_, ?_, ?_⟩ <;> decide +kernel
/-- The vector thread with one outstanding access, which the event names. -/
def waitingFor (a : Access) : State := event (alter base fun th => { th with out := [a] }) fun e => e
theorem witness_LoadsReadMemory :
    (∀ tg ∈ [Target.dev 0x31000 false, .spad 8],
      let a := { load4 with tgt := tg }
      let s := waitingFor a
      (getThread s s.ev.tid).out[0]? = some a ∧ performable s s.ev.tid a = true ∧ s.ev.k = 0 ∧ tgtPoison s a.tgt a.size = false) ∧
    (let a := { load4 with kind := .ld true, tgt := .peer 5 0x1000 false }
     let s := linkUp (waitingFor a)
     (getThread s s.ev.tid).out[0]? = some a ∧ performable s s.ev.tid a = true ∧ tgtPoison s a.tgt a.size = false ∧
       ∃ p ∈ s.links, p.2.st = .up) ∧
    (let s := poisoned (waitingFor load4)
     (getThread s s.ev.tid).out[0]? = some load4 ∧ performable s s.ev.tid load4 = true ∧ tgtPoison s load4.tgt load4.size = true ∧
       (getThread s s.ev.tid).tstate = .running) := by refine ⟨?_, ?_, ?_⟩ <;> decide +kernel
theorem witness_StoresWriteTheirBytesOnly :
    (∀ tg ∈ [Target.dev 0x31000 false, .dev (2 ^ 48 - 8) true, .spad 8],
      let a := { store8 with tgt := tg }
      let s := waitingFor a
      MemoriesOk s ∧ (getThread s s.ev.tid).out[0]? = some a ∧ performable s s.ev.tid a = true ∧
        serialCheck s (getThread s s.ev.tid).ctx a.tgt a.va a.size = none) ∧
    (let s := { waitingFor store8 with queues := [(5, { aQueue with block := 0x31000 - 8 })] }
     MemoriesOk s ∧ performable s s.ev.tid store8 = true) ∧
    (let a := { store8 with tgt := .peer 5 0x1000 false }
     let s := linkUp (waitingFor a)
     performable s s.ev.tid a = true ∧ serialCheck s (getThread s s.ev.tid).ctx a.tgt a.va a.size = none ∧ ∃ p ∈ s.links, p.2.st = .up) := by
  refine ⟨?_, ?_, ?_⟩ <;> decide +kernel
theorem witness_AtomicsReadModifyWrite :
    (∀ op ∈ [AmoOp.add, .and, .or, .xor, .min, .max, .swap, .fadd, .cas], ∀ n ∈ [4, 8],
      let a := { load4 with kind := .amo op false, size := n, val := 0xFFFFFFFFFFFFFFFF }
      let s := waitingFor a
      MemoriesOk s ∧ (getThread s s.ev.tid).out[0]? = some a ∧ performable s s.ev.tid a = true ∧
        serialCheck s (getThread s s.ev.tid).ctx a.tgt a.va a.size = none ∧ lateFault s s.ev.tid a = none ∧ s.queues = []) ∧
    (let a (k : AccKind) : Access := { load4 with kind := k, size := 64, cls := 0, order := 2, scope := 2 }
     let good : List (AccKind × Nat × List (Word × Word)) :=
       [(.append 0xF00, 0, []), (.append 0xF01, 0, []), (.publish 0 0x32000, 0, []), (.publish 16 0x32000, 0, []),
        (.publish 16 0x32000, 0, [(0x32010, 8)]), (.publish 16 0x32020, 0, []), (.publish 16 0x31FFF, 0, []), (.publish 16 0x320F8, 0, []),
        (.append 16, 1, []), (.publish 16 0x32000, 1, [])]
     ∀ x ∈ good,
       let s := region x.2.1 x.2.2 (waitingFor (a x.1))
       MemoriesOk s ∧ (getThread s s.ev.tid).out[0]? = some (a x.1) ∧ (a x.1).tgt = .dev 0x31000 false ∧
         performable s s.ev.tid (a x.1) = true ∧ tgtPoison s (a x.1).tgt 64 = false ∧ s.queues = [] ∧
         (getCtx s (getThread s s.ev.tid).ctx).vlog + 1040 ≤ 0x31000 ∧
         memRead s.mem 0x31020 32 = x.2.1 ∧ memRead s.mem 0x31000 8 ≤ memRead s.mem 0x31018 8 ∧
         memRead s.mem 0x31018 8 = 0x32000 ∧ memRead s.mem 0x31010 8 = 0x32100 ∧ memRead s.mem 0x31008 8 = 0x33000 ∧
         (findRegion s 0x31000).records = x.2.2) := by
  refine ⟨?_, ?_⟩ <;> decide +kernel
theorem witness_ViolationsReadFill :
    (∀ a ∈ [{ load4 with tgt := .violation 4 }, { store8 with tgt := .violation 255 }],
      let s := waitingFor a
      MemoriesOk s ∧ (getThread s s.ev.tid).out[0]? = some a ∧ performable s s.ev.tid a = true ∧
        serialCheck s (getThread s s.ev.tid).ctx a.tgt a.va a.size = none ∧
        (memRead s.mem 0 8 + 2 ^ 64 - memRead s.mem 8 8) % 2 ^ 64 < 64) ∧
    (let s := waitingFor { load4 with tgt := .violation 1 }
     let s1 := { s with mem := memWrite s.mem 0 8 64 }
     MemoriesOk s1 ∧ (getCtx s1 1).vlog = 0 ∧ ¬ (memRead s1.mem 0 8 + 2 ^ 64 - memRead s1.mem 8 8) % 2 ^ 64 < 64) := by decide +kernel
theorem witness_ExitEndsTheIteration :
    ((running base).vq = [] ∧ (running base).rq = [] ∧ (running base).out = [] ∧
      let c := getCore base 0 0
      (∀ q : Fin 4, ∀ x ∈ c.cqs[q], x.owner ≠ 0) ∧ ∀ k : Fin 16, c.slots[k].st = .empty ∨ c.slots[k].owner ≠ 0) ∧
    ((running onMcc).vq = [] ∧ (running onMcc).rq = [] ∧ (running onMcc).out = [] ∧ isMcc onMcc.cur = true ∧
      (getCluster onMcc 0).tq = []) ∧ (running (waitingFor load4)).out ≠ [] := by decide +kernel
theorem witness_FencesAndWaitsHoldTheThread :
    (Ready base [4] ∧ (running base).vq = [] ∧ (running base).out = [] ∧ ldCount (running base) = 0 ∧ stCount (running base) = 0 ∧
      cpCount base base.cur = 0 ∧ tlCount base base.cur = 0 ∧ isMcc base.cur = false ∧
      ∀ q : Fin 4, (getCore base 0 0).cqs[q] = []) ∧
    (let s := waitingFor { store8 with cls := 3 }
     Ready s [4] ∧ 0 < stCount (running s) ∧ (reg s 4).toNat % 2 ^ 16 = 0 ∧ ∃ y ∈ (running s).out, y.kind = .st) ∧
    (let e := entry (.copy { kind := .cpyf, cls := 0, q := 2, ctr := none, bound := 0, fill := 0, dst := 0, src := 0, shape := 0
                             pitch := 0, vidx := 0 })
     let s := alter base fun th => { th with vq := [e] }
     (4 : Fin 32).val.testBit 2 = true ∧ ∃ e ∈ (running s).vq, match e.op with | .copy o => o.q = 2 | _ => False) ∧
    (isMcc onMcc.cur = true ∧ (getCluster onMcc 0).tq = [] ∧ (16 : Fin 32).val % 16 = 0 ∧ (17 : Fin 32).val % 16 ≠ 0) ∧
    (let s := updCluster onMcc 0 fun c => { c with tq := [{ op := .mzero 1 0, pc := 0, stamp := 0 }] }
     isMcc s.cur = true ∧ (getCluster s 0).tq ≠ []) := by
  refine ⟨?_, ?_, ⟨?_, _, List.mem_cons_self, ?_⟩, ?_, ?_⟩ <;> first | rfl | decide +kernel
theorem witness_LeaveIsReturnedAndAskedFor :
    (Ready base [4] ∧ (reg base 4).toNat % 8 - (reg base 4).toNat % 2 = 0) ∧
    (let s := withG 4 6
     Ready s [4] ∧ (reg s 4).toNat % 8 - (reg s 4).toNat % 2 ≠ 0 ∧ (getCluster s 0).waiting = [] ∧
       ((getCluster s 0).held.map fun x => x.2).sum + 2 ≤ (getCluster s 0).budget) ∧
    (let s := updCluster (withG 4 6) 0 fun c => { c with waiting := [(.tile, 4)] }
     (getCluster s 0).waiting.filter (fun x => decide (x.1 ≠ .thread s.cur)) ≠ []) ∧
    (let s := updCluster (withG 4 6) 0 fun c => { c with budget := 1 }
     (getCluster s 0).budget < 2 ∧ ((getCluster s 0).held.map fun x => x.2).sum = 0) ∧
    (let s := alter onMcc fun th => writeG th 4 1
     Ready s [4] ∧ isMcc s.cur = true ∧ (reg s 4).toNat % 2 ≠ 0) := by
  refine ⟨?_, ?_, ?_, ?_, ?_⟩ <;> decide +kernel
theorem witness_CsrReads :
    (Usable base 3 [] ∧ (running base).vq = [] ∧ (running base).rq = [] ∧ (running base).out = [] ∧ isMcc base.cur = false ∧
      ffPending (running base) = false) ∧
    (Usable onMcc 3 [] ∧ isMcc onMcc.cur = true ∧ (running onMcc).out = []) ∧
    (let s := alter base fun th => { th with vq := [entry (.share 3 4)], nextStamp := 1 }
     Usable s 3 [] ∧ (∃ e ∈ (running s).vq, e.stamp < (running s).nextStamp) ∧ (running s).rq.length < 16) ∧
    (let s := alter base fun th => { th with rq := List.replicate 16 place4 }
     Usable s 3 [] ∧ 16 ≤ (running s).rq.length) ∧
    0x020 ≤ (0x020 : Fin 4096).val ∧ (0x7FF : Fin 4096).val < 0x800 ∧ 0x800 ≤ (0x800 : Fin 4096).val := by
  refine ⟨?_, ?_, ?_, ?_, ?_, ?_, ?_⟩ <;> decide +kernel
theorem witness_CsrWrites :
    (Ready base [4] ∧ (∀ x ∈ (running base).rq, x.val = none → x.csr ≠ some 0x016) ∧ (running base).vq = [] ∧ (running base).out = []) ∧
    Ready onMcc [4] ∧ isMcc onMcc.cur = true ∧
    (let s := alter base fun th => { th with vq := [entry (.share 3 4)] }
     Ready s [4] ∧ (running s).vq ≠ []) ∧
    (let s := alter base fun th => { th with out := [store8] }
     Ready s [4] ∧ (running s).out ≠ []) ∧
    (let s := alter base fun th => { th with rq := [{ place4 with reg := 5, csr := some 0x016 }] }
     Ready s [4] ∧ ¬ ∀ x ∈ (running s).rq, x.val = none → x.csr ≠ some (0x016 : Fin 4096).val) ∧
    (0x01F : Fin 4096).val < 0x020 ∧ (0xFFF : Fin 4096).val ≥ 0x800 := by
  refine ⟨?_, ?_, ?_, ?_, ?_, ?_, ?_, ?_⟩ <;> decide +kernel
/-- The vector thread, of serial 0, in a launch that declares barrier 2 for two arrivals, some of which have come, and some of whose
phase has completed; the thread of serial 1 waits there. The context has watermarks 16 to 31. -/
def barred (arrived left : List Nat) : State :=
  let s := putLaunch base 0 { placeLaunch with hdr := { placeHeader with nbar := 3, barcnt := 2 * 2 ^ 16 } }
  let s1 := updCtx s 1 fun x => { x with wmlo := 16, wmcnt := 16 }
  let s2 := updThread s1 (.vec 0 0 1) fun th => { th with wait := .barrier 2, launch := some 0, serial := 1, tstate := .running, ctx := 1 }
  let l1 := if arrived.isEmpty then [] else [(2, arrived)]
  updCluster s2 0 fun c => { c with bars := l1 ++ if left.isEmpty then [] else [(2 ^ 64 + 2, left)] }
theorem witness_BarriersAndWatermarks :
    (let s := barred [] []
     Ready s [4, 5] ∧ barrierCount (launchOf s (running s)) 2 = 2 ∧ (running s).out = [] ∧ (running s).vq = [] ∧
       1 ∉ mapGet [] (getCluster s 0).bars 2 ∧ 1 ∉ mapGet [] (getCluster s 0).bars (2 ^ 64 + 2) ∧
       (mapGet [] (getCluster s 0).bars 2).length + 1 < 2 ∧ barrierCount (launchOf s (running s)) 3 = 0 ∧
       (∀ l, launchOf s (running s) = some l → l.hdr.nbar ≤ 3 ∨ l.hdr.barcnt / 2 ^ (8 * 3) % 256 = 0) ∧
       barrierCount (launchOf s (running s)) 1 = 0 ∧ ¬ (16 ≤ (reg s 4).toNat % 256)) ∧
    (let s := barred [9] []
     (running s).serial = 0 ∧ (running s).stage = 0 ∧
       1 ∉ mapGet [] (getCluster s 0).bars 2 ∧ 2 ≤ (mapGet [] (getCluster s 0).bars 2).length + 1 ∧
       ((getCluster s 0).bars.map Prod.fst).Pairwise (· < ·) ∧ (getThread s (.vec 0 0 1)).wait = .barrier 2 ∧
       (getThread s (.vec 0 0 1)).launch = (running s).launch ∧ (getThread s (.vec 0 0 1)).serial = 1) ∧
    (let s := barred [1] []
     1 ∈ mapGet [] (getCluster s 0).bars 2 ∧ 1 ∉ mapGet [] (getCluster s 0).bars (2 ^ 64 + 2)) ∧
    (let s := barred [] [1]
     1 ∈ mapGet [] (getCluster s 0).bars (2 ^ 64 + 2)) ∧
    (let s := alter (barred [] []) fun th => writeG th 4 31
     Ready s [4, 5] ∧ 16 ≤ (reg s 4).toNat % 256 ∧ (reg s 4).toNat % 256 < 16 + 16 ∧ (running s).out = []) ∧
    (let s := alter (barred [] []) fun th => { writeG th 4 16 with out := [{ store8 with reg := 7 }] }
     Ready s [4, 5] ∧ 16 ≤ (reg s 4).toNat % 256 ∧ (running s).out ≠ [] ∧
       ¬ ∃ a ∈ (running s).out, ∃ q pa ser, a.tgt = .peer q pa ser) ∧
    (let s := alter (barred [] []) fun th => { writeG th 4 16 with out := [{ store8 with tgt := .peer 5 0x1000 false }] }
     Ready s [4, 5] ∧ 16 ≤ (reg s 4).toNat % 256 ∧ (∀ p ∈ s.links, p.2.st ≠ .up) ∧
       ∃ a ∈ (running s).out, ∃ q pa ser, a.tgt = .peer q pa ser) := by
  refine ⟨?_, ?_, ?_, ?_, ?_, ⟨?_, ?_, ?_, ?_⟩, ?_, ?_, ?_, ⟨_, List.mem_cons_self, 5, 0x1000, false, rfl⟩⟩
  case refine_9 =>
    rintro ⟨a, ha, q, pa, ser, h⟩
    have e : (running (alter (barred [] []) fun th => { writeG th 4 16 with out := [{ store8 with reg := 7 }] })).out =
      [{ store8 with reg := 7 }] := by decide +kernel
    rw [e, List.mem_singleton] at ha
    subst ha
    cases h
  all_goals decide +kernel
/-- A first-fault load in the queue of the vector thread. -/
def behindFf : State := alter base fun th => { th with vq := [entry (.load .unit 3 0 0 0 0 0 true)] }
/-- The vector thread with a full queue. -/
def crowded : State := alter base fun th => { th with vq := List.replicate 64 (entry (.share 3 4)) }
/-- Two operations: one with a g result, one that counts in st. -/
def sumOp : VOp := .red .sum 3 4 0 0
def storeOp : VOp := .store .unit 4 0 0 0 0 0
/-- A copy whose row is not a multiple of 64 bytes apart from its pitch; its queue 4 does not matter. -/
def shapeless : CopyOp :=
  { kind := .cpyf, cls := 0, q := 0, ctr := none, bound := 0, fill := 0, dst := 0, src := 0, shape := 0, pitch := 0, vidx := 0 }
theorem witness_Pushes :
    (isMcc onMcc.cur = true ∧ isMcc base.cur = false) ∧
    (registersOk (running base) sumOp = true ∧ registersOk (running base) storeOp = true ∧
      registersOk (running (alter base fun th => { th with nv := 4 })) sumOp = false) ∧
    (Usable base 3 [5] ∧ Ready base [5, 6] ∧ gdestOf sumOp = some 3 ∧ gdestOf storeOp = none ∧
      ffPending (running base) = false ∧ ffPending (running behindFf) = true) ∧
    (Room base sumOp ∧ Room base storeOp ∧ ¬ Room crowded sumOp) ∧
    (pushFault base base.cur sumOp = none ∧ pushFault base base.cur (.pat 3 4 5 0 7 0 0) ≠ none ∧
      pushFault base base.cur (.copy { shapeless with shape := 0xFFFFFFFFFFFFFFFF }) ≠ none) := by
  refine ⟨?_, ?_, ?_, ?_, ?_⟩ <;> decide +kernel
theorem witness_IllegalRegistersRaise :
    isMcc base.cur = false ∧ (running base).nv = 32 ∧ (running base).nm = 48 ∧
    (let s := alter base fun th => { th with nv := 16, nm := 8, vtype := 32 }
     isMcc s.cur = false ∧ (running s).nv ≤ (16 : Reg).val ∧ (running s).nm ≤ (8 : MaskF).val ∧ (8 : MaskF).val ≠ 46 ∧
       (running s).vtype % 16 = 0 ∧ (running s).vtype / 128 % 2 = 0 ∧ 2 ≤ (running s).vtype / 16 % 8 ∧
       (running s).nv ≤ (15 : Reg).val + 1) := by decide +kernel
theorem witness_GrantsOfVsetl :
    Usable base 3 [4] ∧ isMcc base.cur = false ∧ ffPending (running base) = false ∧ Room base (.setM46 0) ∧
    min 4096 ((running base).lbud / (running base).nv * 64 / scalarSize 7) / 1 * 1 = 2048 ∧
    (let s := alter base fun th => { th with lbud := 0 }
     min 4096 ((running s).lbud / (running s).nv * 64 / scalarSize 7) / 1 * 1 < 1) := by decide +kernel
/-- The vector thread asking for 8 elements behind watermark 16, which has reached 0. -/
def behindMark (r : Nat) (need : Word) : State := alter (barred [] []) fun th => writeG (writeG (writeG th 4 8) 5 (need * 65536 + BitVec.ofNat 64 r)) 3 0
theorem witness_VsetlwWaitsForItsWatermark :
    (isMcc onMcc.cur = true) ∧
    (let s := alter (behindMark 16 0) fun th => { th with vq := [entry (.load .unit 3 0 0 0 0 0 true)] }
     isMcc s.cur = false ∧ Usable s 3 [4, 5] ∧ ffPending (running s) = true) ∧
    (let s := alter (behindMark 16 0) fun th => { th with vq := List.replicate 64 (entry (.share 3 4)) }
     Usable s 3 [4, 5] ∧ ffPending (running s) = false ∧ 64 ≤ (running s).vq.length ∧
       watermarkOwned (getCtx s (running s).ctx) (watermarkOf s (running s) (reg s 5)) = true) ∧
    (let s := behindMark 15 0
     Usable s 3 [4, 5] ∧ Room s (.setM46 0) ∧
       watermarkOwned (getCtx s (running s).ctx) (watermarkOf s (running s) (reg s 5)) = false) ∧
    (let s := behindMark 16 0
     let g := grantOf (running s) (powcapOf s s.cur) 3 8 7 0 0
     watermarkOwned (getCtx s (running s).ctx) (watermarkOf s (running s) (reg s 5)) = true ∧ g.vl ≠ 0 ∧
       watermarkVal s (watermarkOf s (running s) (reg s 5)) < ((reg s 5).toNat / 2 ^ 16 + g.vl) % 2 ^ 64 ∧
       (running s).tstate = .running ∧ (running s).wait = .none) ∧
    (let s := { behindMark 16 0 with watermarks := [(16, 8)] }
     let g := grantOf (running s) (powcapOf s s.cur) 3 8 7 0 0
     ((reg s 5).toNat / 2 ^ 16 + g.vl) % 2 ^ 64 ≤ watermarkVal s (watermarkOf s (running s) (reg s 5))) := by
  refine ⟨?_, ?_, ?_, ?_, ?_, ?_⟩ <;> decide +kernel
/-- An MCC with tile queue entries. -/
def tiled (l : List TileEntry) : State := updCluster onMcc 0 fun c => { c with tq := l }
def mzeroEntry : TileEntry := { op := .mzero 9 2, pc := 0x30000, stamp := 0 }
theorem witness_MatrixFormsIssueAndConfigure :
    (isMcc base.cur = false ∧ isMcc onMcc.cur = true ∧ Ready onMcc [3, 4, 5] ∧ (getCluster onMcc 0).tq.length < 32) ∧
    (let s := tiled (List.replicate 32 mzeroEntry)
     32 ≤ (getCluster s 0).tq.length ∧ (31 : Fin 256).val < (getCluster s 0).tq.length ∧
       (getCluster s 0).tq.length ≤ (32 : Fin 256).val) ∧
    (issueCfg (getCluster onMcc 0)).m64 = false ∧ (issueCfg (getCluster onMcc 0)).n64 = false ∧
    (let s := alter (tiled [mzeroEntry]) fun th => { th with leaveKinds := 1 }
     (getCluster s 0).tq = [mzeroEntry] ∧ (getCluster s 0).tileFault = false ∧ (getThread s (.mcc 0)).tstate = .running ∧
       (∀ x ∈ (getThread s (.mcc 0)).out, mzeroEntry.stamp ≤ x.stamp) ∧ (getThread s (.mcc 0)).leaveKinds % 2 = 1 ∧
       (getCluster s 0).acc.Pairwise (fun p q => p.1 < q.1) ∧ (getCluster s 0).accBad = []) ∧
    (let e : TileEntry := { mzeroEntry with op := .mcfg { MatCfg.reset with m64 := true, k := 512 } }
     (getCluster (tiled [e]) 0).tq = [e] ∧ (getCluster (tiled [e]) 0).tileFault = false) := by
  refine ⟨?_, ?_, ?_, ?_, ?_, ?_⟩ <;> decide +kernel
/-- Descriptors of scratchpad operands of core 0 at an offset, with a pitch in units of 16 bytes (R231). -/
def spadDesc (off pitch : Nat) : Word := BitVec.ofNat 64 (2 ^ 63 + 2 ^ 40 * off + 2 ^ 28 * pitch)
/-- The MCC at an entry under a configuration with K = k, its scratchpad with the legal metadata code 4 at 0x800. -/
def engine (op : TileOp) (k : Nat) (code : Nat) : State :=
  let s := alter (tiled [{ mzeroEntry with op := op }]) fun th => { th with leaveKinds := 1 }
  let s1 := updCluster s 0 fun c => { c with cfg := { MatCfg.reset with k := k } }
  { s1 with spad := (List.range 32).foldl (fun m r => memWrite m (0x800 + 16 * r) 4 code) s1.spad }
/-- An operand of an entry of cluster 0 passes every test. -/
def operandOk (s : State) (x : Shape × Word) : Bool :=
  decide (passOne s 0 (getThread s (.mcc 0)).launch x = none) && decide (passThree s 0 x = none) && !(loadOperand s 0 x).bad &&
    (isSpad x.2 || decide ((slotOf s 0 x.2).st = .bound))
theorem witness_MatrixFormsIssueAndConfigure_engine :
    (let a := spadDesc 0 1
     let b := spadDesc 0x400 2
     let s := engine (.mma 1 0 true a b) 8 0
     (mmaShapes (getCluster s 0).cfg a b).length = 2 ∧ (mmaShapes (getCluster s 0).cfg a b).all (operandOk s) = true ∧
       (getCluster s 0).tileProg < (getCluster s 0).cfg.k ∧ (getCluster s 0).accBad = []) ∧
    (∀ m ∈ [0x4444, 0x4044],
      let a := spadDesc 0 1
      let b := spadDesc 0x400 2
      let d := spadDesc 0x800 1
      let s := engine (.mmasp 1 0 false a b d) 16 m
      (mmaspShapes (getCluster s 0).cfg a b d).length = 3 ∧ (mmaspShapes (getCluster s 0).cfg a b d).all (operandOk s) = true ∧
        (getCluster s 0).tileProg < (getCluster s 0).cfg.k ∧ (getCluster s 0).cfg.k % 16 = 0 ∧ (getCluster s 0).tileProg % 16 = 0 ∧
        (getThread s (.mcc 0)).record = none ∧
        (metaBad (loadOperand s 0 ((mmaspShapes (getCluster s 0).cfg a b d).getD 2 ((drainShape MatCfg.reset 0), 0))).lines 0 =
          if m = 0x4444 then none else some (0, 2))) ∧
    (let d := spadDesc 0 2
     let s := engine (.mdrain 1 0 2 0 none d) 8 0
     passOne s 0 (getThread s (.mcc 0)).launch (drainShape (getCluster s 0).cfg 2, d) = none ∧ isSpad d = true ∧ Memory.wf s.spad = true ∧
       descRing d = 0) ∧
    (let d : Word := 24
     let s0 := updThread (engine (.mdrain 1 0 2 0 none d) 8 0) (.vec 0 0 0) fun th => { th with budget := 8192 }
     let s := updCore s0 0 0 fun c => { c with slots := c.slots.set 3 { Slot.reset with st := .target } }
     passOne s 0 (getThread s (.mcc 0)).launch (drainShape (getCluster s 0).cfg 2, d) = none ∧ isSpad d = false ∧
       (slotOf s 0 d).st = .target ∧
       (match fillSlot s 0 (drainShape (getCluster s 0).cfg 2) d (8 * scalarSize (drainShape (getCluster s 0).cfg 2).ty) (List.replicate 1024 0) with
         | .ok _ => true
         | .error _ => false) = true) := by
  refine ⟨?_, ?_, ?_, ?_⟩ <;> decide +kernel
/-- The vector thread with a queue. -/
def queued (e : VEntry) : State := alter base fun th => { th with vq := [e] }
theorem witness_MaskInstructionsExecute :
    ∀ op ∈ [VOp.mask .and 0 1 46, .mask .not 46 0 0, .mset 5 4095 0xFFFFFFFFFFFFFFFF, .stom 5 1 63, .setM46 4096, .mpopc 3 0, .mtos 3 0 64,
        .mfirst 3 47],
      let s := queued { entry op with stalled := true }
      (getThread s s.ev.tid).vq = [{ entry op with stalled := true }] ∧ (getThread s s.ev.tid).tstate = .running ∧
        (entry op).finished = false ∧ (entry op).fault = none ∧ s.ev.k = 0 ∧ (entry op).vl ≤ 4096 := by decide +kernel
/-- The vector thread at an entry of two elements: v4 holds 3 and -1 in leaf 5, m1 a mask, m46 all ones; the writable page is in the
translation buffer, and map table 3 bound to one word. -/
def onChain (e : VEntry) (m1 : BitVec 4096) : State :=
  let s := alter base fun th =>
    { th with vq := [e], v := th.v.set 4 { Desc.empty with len := 16, tail := 5, head := 5, excl := true }
              m := (th.m.set 1 m1).set 46 (BitVec.allOnes 4096) }
  let leaf : Leaf :=
    { data := 3 + 2 ^ 64 * (2 ^ 64 - 1), lo := 0, len := 15, refs := 1, last := true, next := 0, owner := 0, poison := false, hdrPoison := false }
  let s1 := updCtx s 1 fun x => { x with binds := [(7, { valid := true, reads := 0, len := 1, off := 0, words := [] })] }
  updCore s1 0 0 fun c =>
    { c with
      leaves := [(5, leaf)], fresh := 6, tlb := [{ ctx := 1, page := 0x31, level := 3, entry := 0x31027 }]
      store := [(0, { ctx := 1, word := BitVec.ofNat 64 (2 ^ 58 + 8 * 2 ^ 54 + 2 ^ 44 + 15 * 2 ^ 35), bad := false }),
                (1, { ctx := 1, word := 0, bad := false })] }
/-- The entry of two elements. -/
def two (op : VOp) : VEntry := { entry op with vl := 2 }
theorem witness_MaskInstructionsExecute_chains :
    (∀ op ∈ [VOp.red .sum 3 4 7 0, .red .min 3 4 7 1, .red .sumo 3 4 7 0, .extr 3 4 1, .len 3 4, .put 4 1 9, .put 4 2 9, .desc 3 4, .free 4,
        .store .unit 4 0x31000 0 0 0 0, .stxa 4 0x31000 4 1 0 false],
      let e := { two op with vtype := if op = .red .sumo 3 4 7 0 then 13 else 6 }
      let s := onChain e 1
      (getThread s s.ev.tid).vq = [e] ∧ (getThread s s.ev.tid).tstate = .running ∧ e.finished = false ∧ e.fault = none ∧ s.ev.k = 0 ∧
        illFormed e = false ∧ e.prog = 0 ∧ (getThread s s.ev.tid).out = [] ∧
        ∀ p ∈ (getCore s 0 0).leaves, p.2.poison = false ∧ p.2.hdrPoison = false) ∧
    (let th := getThread (onChain (two storeOp) 1) base.ev.tid
     th.m[1].getLsbD 0 = true ∧ (∀ k, k < 2 → th.m[1].getLsbD k = true → k = 0) ∧
       ∀ k, k < 2 → (getThread (onChain (two storeOp) 0) base.ev.tid).m[1].getLsbD k = false) ∧
    (let s := onChain (two (.put 4 1 9)) 1
     let c := getCore s 0 0
     let x := (getThread s s.ev.tid).v[4]
     (1 + 1) * 8 ≤ x.len ∧ x.len < (2 + 1) * 8 ∧ (chainLeaves c x).Nodup ∧ exclOf c x = true ∧
       ((pieces c x).map fun p => p.2.2).sum = x.len ∧ x.len ≠ 0) ∧
    (let e := { two (.stxa 4 0x31000 4 1 0 false) with xbound := 4 }
     let s := onChain e 1
     Memory.wf s.mem = true ∧ s.queues = [] ∧
       (∀ i, i < 2 → ((getThread s s.ev.tid).m[1].getLsbD i && (getThread s s.ev.tid).m[46].getLsbD i) = decide (i = 0)) ∧
       streamElem (streamOf (getCore s 0 0) (getThread s s.ev.tid).v[4]) 0 4 0 = 3 ∧
       accessTarget s (partyOf s s.ev.tid) (0x31000 + BitVec.ofNat 64 (3 * 8)) 8 8 .both = .ok (.dev 0x31018 false)) := by
  refine ⟨?_, ?_, ?_, ?_⟩ <;> decide +kernel
theorem witness_MaskInstructionsExecute_store (mem : Memory) (lines laid : List Nat) (n k : Nat) (hn : n = 8 ∨ n = 12) (h : k < 2) :
    let s := onChain (two (.store .strided 4 0x31000 (BitVec.ofNat 64 n) 0 0 0)) 1
    resolve { s with mem := mem, poisonLines := lines, overlaid := laid } (partyOf s s.ev.tid)
        (elemAddr .strided 0x31000 (BitVec.ofNat 64 n) 8 k 0) 8 .store = .ok (.dev (0x31000 + k * n) false) ∧
      aligned (elemAddr .strided 0x31000 (BitVec.ofNat 64 n) 8 k 0) (min 8 8) = decide (n = 8 ∨ k = 0) := by
  match k, h with
  | 0, _ => obtain rfl | rfl := hn <;> exact ⟨rfl, by decide⟩
  | 1, _ => obtain rfl | rfl := hn <;> exact ⟨rfl, by decide⟩
/-- Its second element is misaligned with a stride of 12: the first has been performed, and the fault is the second's. -/
theorem witness_MaskInstructionsExecute_storeFault :
    let s := onChain (two (.store .strided 4 0x31000 12 0 0 0)) 1
    gives (exec .vectorCourse s) (fun t => decide (memRead t.mem 0x31000 8 = 3 ∧ memRead t.mem 0x3100C 8 = 0 ∧
      (running t).vq.map (fun e => (e.prog, e.fault.map fun f => (f.cause, f.elem, f.info))) = [(1, some (8, 1, 0x3100C))])) = true := by
  decide +kernel
theorem witness_VectorEntriesComplete :
    (let e := { entry (.mpopc 3 0) with finished := true, gres := 5 }
     let s := alter (queued e) fun th => { th with rq := [{ place4 with reg := 3 }] }
     (getThread s s.ev.tid).vq = e :: [] ∧ (getThread s s.ev.tid).tstate = .running ∧ e.finished = true ∧ destOf e.op = none ∧
       courseMask e.op = none ∧ buildsChain s s.ev.tid e = false ∧ (getThread s s.ev.tid).rq = [{ place4 with reg := 3 }]) ∧
    (let e := { entry (.bcast 3 7 0) with finished := true, begun := true }
     let s := queued e
     (getThread s s.ev.tid).vq = e :: [] ∧ destOf e.op = some 3 ∧ e.writes = true ∧ e.begun = true) ∧
    (let e := { entry (.bcast 3 7 0) with finished := true, begun := true }
     let e1 := { entry (.mpopc 3 0) with stamp := 4 }
     let s := alter base fun th => { th with vq := [e, e1], carryNext := [(5, 7)] }
     (getThread s s.ev.tid).vq = e :: [e1] ∧ ∀ q, (getThread s s.ev.tid).carryNext.head? = some q → ∃ x ∈ [e1], x.stamp < q.1) ∧
    (entry (.mpopc 3 0)).finished = false ∧
    (let s := alter base fun th => { th with rq := [{ place4 with val := some 7 }] }
     (getThread s s.ev.tid).rq = { place4 with val := some 7 } :: []) := by
  refine ⟨?_, ?_, ⟨?_, ?_⟩, ?_, ?_⟩
  case refine_4 =>
    intro q h
    have e : q = (5, 7) := by
      have : (getThread (alter base fun th => { th with
        vq := [{ entry (.bcast 3 7 0) with finished := true, begun := true }, { entry (.mpopc 3 0) with stamp := 4 }]
        carryNext := [(5, 7)] }) base.ev.tid).carryNext.head? = some (5, 7) := by decide +kernel
      exact Option.some.inj (h.symm.trans this)
    exact ⟨_, List.mem_cons_self, by rw [e]; decide⟩
  all_goals decide +kernel
theorem witness_FaultsAreReported :
    (let f : FaultInfo := { cause := 0x07, elem := 3, info := 0x31018, start := 3 }
     let e := { entry storeOp with fault := some f }
     let s := queued e
     (getThread s s.ev.tid).tstate = .running ∧ (getThread s s.ev.tid).ufmask = 0 ∧ (getThread s s.ev.tid).vq = [e] ∧
       e.fault = some f ∧ destOf e.op = none ∧ f.cause ≠ 0x0A ∧ f.cause < 2 ^ 8) ∧
    (∀ d ∈ [true, false],
      let s := alter base fun th => { th with pend := some (causeInfo 1 5), pendDecode := d }
      (getThread s s.ev.tid).tstate = .running ∧ (getThread s s.ev.tid).pend = some (causeInfo 1 5) ∧ (causeInfo 1 5).elem = 0 ∧
        (getThread s s.ev.tid).vq = []) ∧
    (let s := alter (queued (entry storeOp)) fun th => { th with pend := some (causeInfo 1 5) }
     (getThread s s.ev.tid).vq ≠ []) := by refine ⟨?_, ?_, ?_⟩ <;> decide +kernel
theorem witness_IntegerElementResults :
    (7 < 8) ∧ intVal 7 0 = 0 ∧ intVal 6 (2 ^ 63) = -2 ^ 63 ∧ intVal 6 (2 ^ 64 - 1) = -1 ∧ intVal 0 0x80 = -2 ^ 7 ∧ intVal 1 255 ≠ 0 := by
  decide +kernel
theorem witness_ResultsAreBuiltInCourses :
    takeFree Core.reset = some (0, { Core.reset with fresh := 1 }) ∧ lheld Core.reset 2 < 1 ∧ 0 ≤ lheld Core.reset 2 ∧
    Core.reset.reclaim = [] ∧
    (let c : Core := { Core.reset with fresh := Config.poolLeaves }
     takeFree c = none ∧ c.reclaim = []) ∧
    (let c : Core := { Core.reset with fresh := Config.poolLeaves, reclaim := [5] }
     takeFree c = none ∧ c.reclaim ≠ []) := by decide +kernel
/-- Map entries under S = 4, narrow. -/
def mapEntry (op : VOp) : VEntry := { two op with vl := 1, vtype := 15, clmode := 4, clrec := 4 }
theorem witness_ResultsAreBuiltInCourses_courses :
    (∀ e ∈ [two (.int .add 3 4 (.v 4) 1 false), { two (.fp .fma 3 4 (.w 1) 0 false) with vtype := 13 }, two (.cvt 3 4 4 1 false),
        two (.scan false 3 4 7 1 false), two (.slide true 3 4 1 1), two (.slide false 3 4 1 1), two (.perm 3 4 4 1), two (.press 3 4 1),
        two (.rank 3 1), two (.bcast 3 7 1), two (.topk 3 4 1 1), two (.load .unit 3 0x31000 0 0 0 0 false),
        { two (.load .indexed 3 0x31000 0 4 0 0 false) with vtype := 4, xbound := 4 }, two (.pack 3 4), two (.pat 3 4 4 1 7 0 0),
        mapEntry (.clmap 3 4 0x31000 4), mapEntry (.clmap 3 4 0x31000 3), mapEntry (.clcomp 3 4 5), mapEntry (.clscan 3 4),
        mapEntry (.clapply 3 4 2)],
      let s := onChain e 1
      s.ev.k = 0 ∧ (getThread s s.ev.tid).vq = [e] ∧ (getThread s s.ev.tid).tstate = .running ∧ e.finished = false ∧ e.fault = none ∧
        e.begun = false ∧ e.prog = 0 ∧ e.part = Desc.empty ∧ e.snap = [] ∧ illFormed e = false ∧ patIllTyped s s.ev.tid e = false ∧
        destOf e.op = some 3 ∧ (getThread s s.ev.tid).out = [] ∧
        (∀ p ∈ (getCore s 0 0).leaves, p.2.poison = false ∧ p.2.hdrPoison = false) ∧
        (takeFree (getCore s 0 0)).map Prod.fst = some 6 ∧ lheld (getCore s 0 0) (threadOf s.ev.tid) < e.budget ∧
        e.vl ≠ 0 ∧ e.vl * entrySize e ≤ 64 ∧ e.bk.valid = false) ∧
    (let s := onChain (two (.topk 3 4 1 1)) 3
     let el (k : Nat) := streamElem (streamOf (getCore s 0 0) (getThread s s.ev.tid).v[4]) 0 8 k
     (∀ j, j < 2 → (getThread s s.ev.tid).m[1].getLsbD j = true) ∧ intVal 6 (el 1) ≤ intVal 6 (el 0)) ∧
    (let s := onChain (two (.load .unit 3 0x31000 0 0 0 0 false)) 1
     ∀ k, k < 2 → (getThread s s.ev.tid).m[46].getLsbD k = true ∧
       accessTarget s (partyOf s s.ev.tid) (elemAddr .unit 0x31000 0 8 k 0) 8 8 .load = .ok (.dev (0x31000 + 8 * k) false)) ∧
    (let s := onChain (mapEntry (.clmap 3 4 0x31000 4)) 1
     (4 : Word).toNat > streamElem (streamOf (getCore s 0 0) (getThread s s.ev.tid).v[4]) 0 4 0 ∧
       (3 : Word).toNat ≤ streamElem (streamOf (getCore s 0 0) (getThread s s.ev.tid).v[4]) 0 4 0 ∧
       foreignPad s (partyOf s s.ev.tid) (0x31000 + BitVec.ofNat 64 (3 * 64)) = false ∧
       accessTarget s (partyOf s s.ev.tid) (0x31000 + BitVec.ofNat 64 (3 * 64)) 64 64 .load = .ok (.dev 0x310C0 false)) ∧
    clWellFormed 4 = true ∧
    (let s := onChain (two (.pat 3 4 4 1 7 0 0)) 1
     let c := getCore s 0 0
     ∀ bd, bindingOf (getCtx s 1) 7 = some bd → patBad c bd = false ∧ (patWords c bd).length = 2 ∧
       (let w := (patWords c bd).getD 0 0
        uCode w = 1 ∧ uDst w = 8 ∧ uA w = 0 ∧ uB w = 1 ∧ uType w = 15)) ∧
    (bindingOf (getCtx (onChain (two (.pat 3 4 4 1 7 0 0)) 1) 1) 7).isSome = true := by
  refine ⟨?_, ?_, ?_, ?_, ?_, ?_, ?_⟩
  case refine_6 =>
    intro s c bd h
    have e : bindingOf (getCtx s 1) 7 = some { valid := true, reads := 0, len := 1, off := 0, words := [] } := by decide +kernel
    rw [e] at h
    cases h
    decide +kernel
  all_goals decide +kernel
theorem witness_ControlSpaceWrites :
    ((getThread base base.ev.tid).vq = [] ∧ (getThread base base.ev.tid).rq = [] ∧ (getThread base base.ev.tid).out = []) ∧
    (getThread (queued (entry storeOp)) base.ev.tid).vq ≠ [] ∧
    (let s := alter base fun th => { th with rq := [{ place4 with csr := some 8 }], out := [load4] }
     (∃ x ∈ (getThread s s.ev.tid).rq, x.val = none ∧ x.csr = some 8) ∧ (getThread s s.ev.tid).out ≠ []) ∧
    (getCore base 0 0).launch ≠ none ∧ (getCore State.reset 0 0).launch = none ∧ isMcc base.ev.tid = false ∧
    (let s := event onMcc fun e => { e with tid := .mcc 0, n := 0x800, word := 4096 }
     isMcc s.ev.tid = true ∧ (getThread s s.ev.tid).launch ≠ none ∧ s.ev.n = 0x800) ∧
    (event base fun e => { e with n := 0x012 }).ev.n = 0x012 := by
  refine ⟨?_, ?_, ⟨⟨_, List.mem_cons_self, rfl, rfl⟩, ?_⟩, ?_, ?_, ?_, ?_, ?_⟩ <;> decide +kernel
theorem witness_WaitsOfAThreadEnd :
    (getThread (alter base fun th => { th with wait := .yield }) (.vec 0 0 0)).wait = .yield ∧
    (let s := alter base fun th => { th with wait := .firstFault }
     (getThread s s.ev.tid).wait = .firstFault ∧ ffPending (getThread s s.ev.tid) = false) ∧
    (let s := alter behindFf fun th => { th with wait := .firstFault }
     (getThread s s.ev.tid).wait = .firstFault ∧ ffPending (getThread s s.ev.tid) = true) ∧
    (let s := alter base fun th => { th with wait := .exit }
     (getThread s s.ev.tid).wait = .exit ∧ (getThread s s.ev.tid).tstate = .running ∧ exitDrained s s.ev.tid = true) ∧
    (let s := alter base fun th => { th with wait := .xret, frozen := some aside }
     (getThread s s.ev.tid).frozen = some aside ∧ aside.vq = [] ∧ (getThread s s.ev.tid).wait = .xret ∧
       (getThread s s.ev.tid).tstate = .running ∧ (getThread s s.ev.tid).vq = [] ∧ (getThread s s.ev.tid).rq = []) ∧
    (let s := event (alter (barred [9, 1] []) fun th => { th with wait := .barrier 2 }) fun e => { e with n := 2 }
     let l := mapGet [] (getCluster s 0).bars ((getThread s s.ev.tid).launch.getD 0 * 16 + 2)
     s.ev.n = (2 : Fin 16).val ∧ barrierCount (launchOf s (getThread s s.ev.tid)) 2 = 2 ∧ 2 ≤ l.length ∧
       (∀ u ∈ [Tid.vec 0 0 0, .vec 0 0 1], u ∈ clusterTids 0 ∧ (getThread s u).launch = (getThread s s.ev.tid).launch ∧
         (getThread s u).wait = .barrier 2 ∧ 8 * (getThread s u).serial + (getThread s u).stage + 1 ∈ l)) ∧
    (let s := event (barred [9] []) fun e => { e with n := 2 }
     let l := mapGet [] (getCluster s 0).bars ((getThread s s.ev.tid).launch.getD 0 * 16 + 2)
     l.length < barrierCount (launchOf s (getThread s s.ev.tid)) 2) ∧
    (let s := updCluster (alter base fun th => { th with wait := .leave 6 }) 0 fun c =>
       { c with waiting := [(.thread (.vec 0 0 0), 2)], budget := 2 }
     (getCluster s 0).waiting = [(.thread (.vec 0 0 0), 2)] ∧ ((getCluster s 0).held.map fun x => x.2).sum + 2 ≤ (getCluster s 0).budget ∧
       (getThread s (.vec 0 0 0)).wait = .leave 6) ∧
    ({ base with casLists := [(5, [.vec 0 0 0]), (9, [.mcc 0])] } : State).casLists.Pairwise (fun p q => p.1 < q.1) := by
  refine ⟨?_, ?_, ?_, ?_, ?_, ?_, ?_, ?_⟩ <;> decide +kernel
/-- The device with the vector thread's core at something. -/
def withCore (f : Core → Core) : State := updCore base 0 0 f
/-- A leaf at the end of its chain that nothing holds. -/
def idleLeaf : Leaf :=
  { data := 0, lo := 0, len := 8, refs := 0, last := true, next := 0, owner := 0, poison := false, hdrPoison := false }
/-- A fill of one row of 64 bytes in the writable page. -/
def fillRow : Copy :=
  { op := { shapeless with fill := 0xEE, dst := 0x31040, shape := 0x400001, q := 1 }, owner := 0, fillw := 0, idx := Desc.empty, stamp := 0
    row := 0, added := 0, leave := false, ctx := 1, launch := 0 }
theorem witness_CoreUnitsAtWork :
    (let s := withCore fun c => { c with reclaim := [5], leaves := [(5, idleLeaf)] }
     (getCore s 0 0).reclaim = [5] ∧ mapFind (getCore s 0 0).leaves 5 = some idleLeaf ∧ idleLeaf.refs = 0 ∧ idleLeaf.last = true) ∧
    (let s := event (withCore fun c => { c with cqs := c.cqs.set 1 [fillRow] }) fun e => { e with n := 1 }
     let p : Party := { ctx := 1, cl := 0, co := 0, launch := some 0 }
     let o := fillRow.op
     MemoriesOk s ∧ s.ev.n = (1 : Fin 4).val ∧ (getCore s s.ev.cl s.ev.co).cqs[(1 : Fin 4)] = [fillRow] ∧ o.shape.toNat % 2 ^ 16 = 1 ∧
       o.shape.toNat / 2 ^ 32 = 0 ∧ o.shape.toNat / 2 ^ 16 % 2 ^ 16 = 64 ∧ (getThread s (.vec 0 0 0)).out = [] ∧
       o.dst.toNat % 4096 + 64 ≤ 4096 ∧ o.dst.toNat < (getCtx s 1).spbase.toNat ∧
       s.queues = [] ∧ resolve s p o.dst 64 .store = .ok (.dev 0x31040 false) ∧ serialCheck s 1 (.dev 0x31040 false) o.dst 64 = none) ∧
    (let s0 := alter base fun th => { th with tstate := .stopped, xcause := 0x0C, xinfo := 7 }
     let s := { s0 with blocks := [(1, 0, [(7, [0])])] }
     (getThread s s.ev.tid).tstate = .stopped ∧ (getThread s s.ev.tid).xcause.toNat % 256 = 0x0C ∧ (getThread s s.ev.tid).vq = [] ∧
       absentBlock s (getThread s s.ev.tid) = some [0] ∧ (getCtx s 1).binds = []) := by
  refine ⟨?_, ?_, ?_⟩ <;> decide +kernel
/-- An entry with slot 3 as given, over the chain of v4; v5 is a chain of leaf 9, whose predecessor is not in it. -/
def withSlot (op : VOp) (x : Slot) (tq : List TileEntry) : State :=
  let s := alter (onChain (two op) 1) fun th => { th with v := th.v.set 5 { Desc.empty with len := 8, tail := 9, head := 9, excl := true } }
  let s1 := updCore s 0 0 fun c => { c with slots := c.slots.set 3 x, leaves := c.leaves ++ [(9, { idleLeaf with len := 7, refs := 1 })] }
  updCluster s1 0 fun c => { c with tq := tq, mccLaunch := some 0 }
/-- A FILLED slot that holds a chain. -/
def filledSlot : Slot := { Slot.reset with st := .filled, chain := { Desc.empty with len := 8, tail := 9, head := 9 }, rowLen := 1, ty := 6 }
theorem witness_CoreUnitsAtWork_slots :
    (∀ p ∈ [(VOp.ttgt 3, Slot.reset), (.ttgt 3, filledSlot), (.twait 3, filledSlot), (.tget 3 3, filledSlot), (.tfree 3, filledSlot),
        (.tbind 4 3, Slot.reset), (.share 3 4, Slot.reset), (.share 4 4, Slot.reset), (.trim 3 4 1 0, Slot.reset), (.trim 3 4 1 1, Slot.reset),
        (.split 3 4 1, Slot.reset), (.split 3 4 0, Slot.reset), (.split 3 4 2, Slot.reset), (.cat 4 4 5, Slot.reset)],
      let s := withSlot p.1 p.2 []
      s.ev.k = 0 ∧ (getThread s s.ev.tid).vq = [two p.1] ∧ (getThread s s.ev.tid).tstate = .running ∧ (two p.1).finished = false ∧
        (two p.1).fault = none ∧ (two p.1).begun = false ∧ illFormed (two p.1) = false ∧ (getCore s 0 0).slots[3] = p.2 ∧
        ∀ q ∈ (getCore s 0 0).leaves, q.2.poison = false ∧ q.2.hdrPoison = false) ∧
    (let q : TileEntry := { mzeroEntry with op := .mma 1 0 false 24 24 }
     ∀ x ∈ [{ filledSlot with st := .bound }, { filledSlot with st := .target }],
       let s := withSlot (.tfree 3) x [q]
       (x.st = .bound ∨ x.st = .target) ∧ q ∈ launchTq s 0 (getCore s 0 0).launch ∧ entryNames 0 3 q.op = true ∧
         (∀ y ∈ launchTq (withSlot (.tfree 3) x []) 0 (getCore s 0 0).launch, entryNames 0 3 y.op = false)) ∧
    (let s := withSlot (.tbind 4 3) Slot.reset []
     let c := getCore s 0 0
     let x := (getThread s s.ev.tid).v[4]
     let y := (getThread s s.ev.tid).v[5]
     x.len ≠ 0 ∧ (two (.tbind 4 3)).vl ≠ 0 ∧ vtTy 6 ≠ 15 ∧ grouped 6 = false ∧ (leafAt c x.head).refs < 63 ∧
       (1 + 0) * 8 < x.len ∧ x.len ≤ (1 + 1) * 8 ∧ x.skip ≤ (leafAt c x.head).len ∧ (leafAt c (locate c x 8).1).refs < 63 ∧ x.len = 2 * 8 ∧
       x.excl = true ∧ y.len ≠ 0 ∧ x.len + y.len < 2 ^ 20 ∧ y.skip = 0 ∧ (chainLeaves c x ++ chainLeaves c y).Nodup ∧
       (chainLeaves c x).getLast? = some x.tail ∧ (leafAt c x.tail).last = true ∧ (leafAt c y.head).refs < 63) := by
  refine ⟨?_, ?_, ?_⟩ <;> decide +kernel
/-- A packet of SEQ 1 for 10 elements in chunks of 4, its entry the code page and its header at 0x31200 (R334). -/
def aPacket : Nat :=
  2 ^ 64 + 2 ^ 128 * 0x30000 + 2 ^ 192 * 0x31200 + 2 ^ 256 * 10 + 2 ^ 320 * 4 + 2 ^ 352 + 2 ^ 384
/-- Its header: 32 chains, 48 masks, 4 threads, 8,192 leaves (R337). -/
def aHeader : Nat := 0x34364C4B + 2 ^ 32 * 32 + 2 ^ 40 * 48 + 2 ^ 56 * 4 + 2 ^ 64 * 8192
/-- Queue 5 with HEAD at 0x31000, which links the packet at 0x31100. -/
def linked (next : Nat) : State :=
  let m1 := memWrite base.mem 0x40000 8 0x31000
  let m2 := memWrite m1 0x31000 8 next
  let m3 := memWrite m2 0x31100 256 aPacket
  let s := { base with mem := memWrite m3 0x31200 64 aHeader, queues := [(5, aQueue)] }
  event s fun e => { e with n := 5 }
theorem witness_LaunchesAreTakenIn :
    (let s := event { base with mem := memWrite base.mem 0x40020 8 (2 ^ 16 + 3) } fun e => { e with n := 255, k := 0x40000, word := 0x31000 }
     MemoriesOk s ∧ s.root.boot = .running ∧ s.ev.n < 256 ∧ s.ev.k % 64 = 0 ∧ s.ev.k + 64 ≤ 2 ^ 48 ∧
       memRead s.mem (s.ev.k + 0x20) 8 / 2 ^ 16 % 2 ^ 12 = 1 ∧ (getCtx s 1).valid = true ∧ (getCtx s 1).dead = false ∧
       (∀ p ∈ s.launches, p.2.queue ≠ s.ev.n) ∧ s.ev.k / 64 ∉ s.poisonLines ∧ s.root.retiredChannels = [] ∧
       (s.queues.map Prod.fst).Pairwise (· < ·)) ∧
    (let s := linked 0
     MemoriesOk s ∧ getQueue s s.ev.n = some aQueue ∧ blockPoisoned s aQueue = false ∧ aQueue.retry = false ∧
       followLink s aQueue = .none) ∧
    (let s := { linked 0 with queues := [(5, { aQueue with retry := true })] }
     getQueue s s.ev.n = some { aQueue with retry := true } ∧ blockPoisoned s { aQueue with retry := true } = false) ∧
    (let s := linked 0x31100
     let p := packetOf aPacket
     let s1 := putQueue s 5 aQueue
     followLink s aQueue = .packet 0x31100 p ∧ aQueue.lastSeq < p.seq ∧ readHeader s1 1 p = some (headerOf aHeader) ∧
       packetOk s1 5 (getCtx s 1) p = true ∧ (getCtx s 1).valid = true ∧ (getCtx s 1).dead = false ∧
       patsFit s1 (launchFrom 5 aQueue p (headerOf aHeader)) = true ∧ p.seq ≤ { aQueue with lastSeq := 1 }.lastSeq ∧ p.seq < 2 ^ 64) := by
  refine ⟨?_, ?_, ?_, ?_⟩ <;> decide +kernel
/-- The device with one launch and no thread at work. -/
def oneLaunch (x : Launch) : State := { State.reset with ctxs := [(1, placeContext)], launches := [(0, x)], nextLaunch := 1 }
def accepted : Launch := { placeLaunch with st := .accepted, n := 100 }
def shared : Launch := { placeLaunch with shares := [(0, (0, 1))] }
theorem witness_LaunchesRun_start_and_cores :
    (readyToStart (oneLaunch accepted) 0 accepted = true ∧ accepted.queue % 4 = 0 ∧ accepted.hdr.pats = 0 ∧ accepted.wmclr = 0 ∧
      accepted.gang = false ∧ 0 < ((accepted.n + accepted.c - 1) / accepted.c) * accepted.o1 * accepted.o2) ∧
    (let s := oneLaunch shared
     idleCore s 0 0 = true ∧ (getCluster s 0).kept = none ∧ takers s 0 0 = [(0, shared)] ∧ resumable s 0 shared 0 0 = false ∧
       shared.hdr.mccent = 0) ∧
    (let s := updCore (oneLaunch shared) 0 0 fun c => { c with launch := some 0 }
     (getCore s 0 0).launch = some 0 ∧ getLaunch s 0 = some shared ∧ shared.st = .started ∧ shared.gang = false ∧
       freeThread s (.vec 0 0 3) shared = true ∧ mayRun s shared.ctx = true ∧ hasImages s 0 = false ∧ coreAsked s 0 0 = false ∧
       shared.partials = [] ∧ shared.stages = 1 ∧ shared.order = false ∧ shared.args = [] ∧ mapGet (0, 0) shared.shares 0 = (0, 1)) := by
  refine ⟨?_, ?_, ?_⟩ <;> decide +kernel
def ganged : Launch := { placeLaunch with gang := true, gangWaiting := [(0, 1)] }
def chosen : Launch := { placeLaunch with gang := true, gangChosen := [(63, (0, 1))] }
def higher : Launch := { placeLaunch with preempt := true, level0 := 2, level := 2, shares := [(0, (0, 1))] }
/-- Every core of cluster 0 serves launch 0, and launch 1 of a higher level has a share there. -/
def contended : State :=
  let s := { oneLaunch placeLaunch with launches := [(0, placeLaunch), (1, higher)] }
  allCores.foldl (fun s co => updCore s 0 co fun c => { c with launch := some 0, lastCtx := some 1 }) s
/-- Every core of cluster 0 serves launch 0, and a GANG launch of a higher level has been given the cluster. -/
def gangContended : State :=
  { contended with launches := [(0, placeLaunch), (1, { higher with gang := true, gangChosen := [(0, (0, 1))], shares := [] })] }
theorem witness_LaunchesRun_gangs_and_ends :
    (firstGang (oneLaunch ganged) = some (0, ganged) ∧ widestCluster (oneLaunch ganged) = some 0) ∧
    (let s := updCluster (oneLaunch chosen) 63 fun c => { c with kept := some 0 }
     (getCluster s 63).kept = some 0 ∧ getLaunch s 0 = some chosen ∧ mapFind chosen.gangChosen 63 = some (0, 1) ∧
       (∀ c, idleCore s 63 c = true) ∧ (∀ c k, chargeFree s (.vec 63 c k) = true) ∧ mayRun s chosen.ctx = true ∧ chosen.hdr.mccent = 0) ∧
    waiting (oneLaunch accepted) 0 accepted = true ∧
    (let s := event contended fun e => { e with n := 1 }
     getLaunch s s.ev.n = some higher ∧ higher.preempt = true ∧ higher.st = .started ∧ mayRun s higher.ctx = true ∧
       workOn s 1 higher 0 = true ∧ higher.gang = false ∧ coresAsked s 0 < coresWanted s 1 higher 0 ∧ idleCores s 0 = 0 ∧
       pickVictim s higher 0 = some 0 ∧ higher.hdr.mccent = 0) ∧
    (let s := event gangContended fun e => { e with n := 1 }
     let x := { higher with gang := true, gangChosen := [(0, (0, 1))], shares := [] }
     getLaunch s s.ev.n = some x ∧ mayRun s x.ctx = true ∧ workOn s 1 x 0 = true ∧ coresAsked s 0 + idleCores s 0 + ownCores s 1 0 < 8 ∧
       pickVictim s x 0 = some 0) ∧
    (let x := { placeLaunch with queue := 5, seq := 3 }
     let s := event { oneLaunch x with queues := [(5, aQueue)] } fun e => { e with n := 5 }
     x.queue = s.ev.n ∧ getQueue s 5 = some aQueue ∧ finished s 0 x = true ∧ MemoriesOk s ∧ blockWord s aQueue qDone < x.seq ∧
       x.seq < 2 ^ 64) := by
  refine ⟨?_, ?_, ?_, ?_, ?_, ?_⟩ <;> decide +kernel
/-- A saved MCC. -/
def mccImage : Image :=
  { ctx := 1, launch := 0, cl := 3, co := 0, isMcc := true, threads := [{ Thread.reset with ctx := 1, launch := some 0 }], core := none
    tq := [mzeroEntry], cfg := none, acc := [], counts := [], tsw := 0, tileFault := false, tileProg := 0, onFlash := false, pages := [] }
/-- Context 2 exists and runs nothing. -/
def idleCtx (f : Context → Context) : State := event (putCtx base 2 (f placeContext)) fun e => { e with n := 2 }
theorem witness_CoresAndContextsMove :
    (let s := alter base fun th => { th with preq := true }
     (getCore s 0 0).launch = some 0 ∧ (getCore s 0 0).lastCtx = some 1 ∧ (getCore s 0 0).reclaim = [] ∧ s.ev.flag = false ∧
       (∃ h : Fin 4, (getThread s (.vec 0 0 h)).preq = true) ∧ ∀ h : Fin 4, saveable s (.vec 0 0 h) = true) ∧
    (let s := { base with images := [(0, mccImage)] }
     mapFind s.images s.ev.k = some mccImage ∧ mccImage.threads = [{ Thread.reset with ctx := 1, launch := some 0 }] ∧
       Thread.reset.leaveKinds = 0 ∧ getLaunch s mccImage.launch = some placeLaunch ∧ mayRun s 1 = true ∧
       mayRestoreMcc s mccImage placeLaunch = true) ∧
    (let s := idleCtx id
     runnable (getCtx s 2) = true ∧ unserved s 2 = true ∧ (∀ p ∈ s.queues, p.2.ctx = 2 → queueLaunches s p.1 = []) ∧
       ∀ p ∈ s.images, p.2.ctx ≠ 2) ∧
    (let x := getCtx (idleCtx fun x => { x with swap := true, res := false }) 2
     x.valid = true ∧ x.dead = false ∧ x.swap = true) ∧
    (let s := idleCtx fun x => { x with invalidating := true }
     (getCtx s 2).invalidating = true ∧ ∀ u ∈ contextTids s 2, (getThread s u).out = []) ∧
    ((getCtx base 1).valid = true ∧ isCanon 0x31000 = true ∧
      walkTables base 0x31000 [0, 1, 2, 3] (getCtx base 1).ptroot = some (0x31027, 3)) ∧
    (let z : ContextSpec := { EventArg.none.spec with ctx := 4095, ptroot := 0x50000, spbase := 0xFFF8000000000000, vlog := 0x60000, wmcnt := 256 }
     creatable base z = true ∧ creatable base { z with ctx := 1 } = false ∧ (getCtx base 1).valid = true ∧ marksApart base z.wmlo 257 = false ∧
       (z.vlog + 8) % 64 ≠ 0 ∧ MemoriesOk base) ∧
    (let s0 := alter base fun th => { th with tstate := .stopped, xcause := 6, xinfo := 0x32010 }
     let s := event (updCtx s0 1 fun x => { x with demand := [(0x32000, 0x33000)] }) fun e => { e with pairs := [(0x22190, 0x32027)] }
     let th := getThread s s.ev.tid
     th.tstate = .stopped ∧ th.xcause.toNat % 256 = 6 ∧ onDemand (getCtx s 1) th.xinfo.toNat = true ∧ th.vq = [] ∧
       s.root.retiredChannels = [] ∧ s.queues = [] ∧
       walkTables (tgtWrite s (.dev (0x22190 / 8 * 8) false) 8 0x32027) (th.xinfo.toNat % 2 ^ 52) [0, 1, 2, 3] (getCtx s 1).ptroot ≠ none) ∧
    (let th := running (alter base fun th => { th with tstate := .stopped, xcause := 0x0E })
     th.tstate = .stopped ∧ th.xcause.toNat % 256 = 0x0E ∧ th.vq = []) := by
  refine ⟨?_, ?_, ?_, ?_, ?_, ?_, ?_, ?_, ?_⟩ <;> decide +kernel
theorem base_threads (u : Tid) (h : u ≠ base.cur) : getThread base u = Thread.reset := by
  have : base.threads = [(0, running base)] := by decide +kernel
  have e : base.cur = .vec 0 0 0 := by decide +kernel
  have k : tidKey u ≠ 0 := fun c => h (by rw [e]; exact tidKey_inj c)
  simp only [getThread, mapGet, this, mapFind]
  simp [Ne.symm k]
theorem witness_ContextsAreContained :
    (let s := idleCtx id
     MemoriesOk s ∧ s.ev.source = none ∧ (getCtx s 2).valid = true ∧ (getCtx s 2).dead = false ∧ contextTids s 2 = [] ∧
       contextCores s 2 = [] ∧ (∀ p ∈ s.queues, p.2.ctx ≠ 2) ∧ (∀ p ∈ s.launches, p.2.ctx ≠ 2) ∧ ∀ p ∈ s.images, p.2.ctx ≠ 2) ∧
    (MemoriesOk base ∧ Ready base [28] ∧ trapDrained base base.cur = true ∧ recordOk base base.cur (reg base 28) = false ∧
      (getCtx base 1).dead = false ∧ (getCtx base 1).recorded = false ∧ (running base).launch ≠ none ∧ ∀ p ∈ base.queues, p.2.ctx ≠ 1) ∧
    (∀ u, u ≠ base.cur → (getThread base u).ctx ≠ (running base).ctx ∨ (getThread base u).launch = none) ∧
    (Ready (waitingFor load4) [28] ∧ trapDrained (waitingFor load4) (waitingFor load4).cur = false) ∧
    (let s0 := updThread base (.mcc 5) fun th => { th with ctx := 1, launch := some 0, record := some 0x31040, tstate := .stopped }
     let s := { s0 with mem := memWrite s0.mem 0x31040 8 1 }
     MemoriesOk s ∧ trapDrained s s.cur = true ∧ s.images = [] ∧ s.threads.Pairwise (fun p q => p.1 < q.1) ∧ s.cur ≠ .mcc 5 ∧
       (5 : Fin 64) ∈ listedMccs s ∧ (∀ k : Fin 64, k ≠ 5 → (getThread s (.mcc k)).record = none) ∧
       s.queues = [] ∧ resolve s (partyOf s (.mcc 5)) 0x31040 8 .store = .ok (.dev 0x31040 false) ∧ memRead s.mem 0x31040 8 = 1) := by
  refine ⟨?_, ?_, fun u h => .inr ?_, ?_, ?_, ?_, ?_, ?_, ?_, ?_, ?_, ?_, ?_, ?_⟩
  case refine_3 => rw [base_threads u h]; rfl
  all_goals decide +kernel
/-- A good flit of device 2, cluster 3, with its access. -/
def flitIn (acc pa : Nat) (k : FlitKind) : State :=
  event { base with links := [(15, { Link.reset with st := .up, rxSeq := 4, fails := 16 })], poisonLines := [0xC42] } fun e =>
    { e with n := 31, k := 4, flag := true, flit := { dev := 2, cl := 3, acc := acc, pa := pa, kind := k } }
theorem witness_LinksHostAndRootAct :
    (∀ f ∈ [(0, 0xFFFFFFFFFFFF, FlitKind.write [0xEE]), (0, 0x31080, .write (List.replicate 128 7)), (0, 0x31000, .atomic .add false true 7 0),
        (0, 0x31080, .atomic .cas true false 7 0), (1, 0, .write [1]), (0, 0xFFFFFFFFFFFF, .write [1, 2]), (0, 0, .read)],
      let s := flitIn f.1 f.2.1 f.2.2
      let l := getLink s (s.ev.n % 16)
      l.st = .up ∧ s.ev.flag = true ∧ s.ev.k = l.rxSeq ∧ MemoriesOk s ∧ 16 ≤ l.fails ∧ s.queues = [] ∧
        mapGet 0 s.peerSeq (2 * 64 + 3) = 0) ∧
    (tgtPoison (flitIn 0 0 .read) (.dev 0x31080 false) 4 = true ∧ tgtPoison (flitIn 0 0 .read) (.dev 0x31000 false) 8 = false ∧
      256 < flitBytes { dev := 2, cl := 3, acc := 0, pa := 0, kind := .write (List.replicate 257 0) }) ∧
    (getLink base 0).st = .down ∧ (getLink { base with links := [(0, { Link.reset with st := .training, downs := 8 })] } 0).st = .training ∧
    ((2 ^ 48 - 1) + 1 ≤ 2 ^ 48 ∧ 2 ^ 48 < (2 ^ 48 - 1) + 2 ∧ base.root.boot = .running ∧ MemoriesOk base ∧ base.queues = []) ∧
    (let s := event { base with root := { base.root with boot := .recovery } } fun e => { e with host := .write 3 [1, 2] }
     s.ev.host = .write 3 [1, 2] ∧ s.root.boot = .recovery) ∧
    (let s := event base fun e => { e with bytes := List.replicate 16 0xEE, k := 0x50000 }
     s.root.boot = .running ∧ s.ev.bytes.length ≤ 9216 ∧ s.ev.k + s.ev.bytes.length ≤ 2 ^ 48 ∧ s.ev.k + 4096 ≤ 2 ^ 48 ∧
       (∀ q ∈ s.ctxs, q.2.valid = true → mapsBytes s q.2 s.ev.k 4096 = false) ∧ mapsBytes s placeContext 0x31000 4096 = true) ∧
    (getCore base 0 0).launch ≠ none ∧ bootOk State.reset.root = false := by
  refine ⟨?_, ?_, ?_, ?_, ?_, ?_, ?_, ?_, ?_⟩ <;> decide +kernel
theorem witness_ErrorsAreCountedAndRepaired :
    (let s := withCore fun c => { c with leafErrs := [(7, 2)], leaves := [(7, idleLeaf)] }
     mapGet 0 (getCore s 0 0).leafErrs 7 + 1 = 3 ∧ 7 ∉ (getCore s 0 0).retired ∧ mapFind (getCore s 0 0).leaves 7 = some idleLeaf ∧
       (getCore s 0 0).leafErrs.Pairwise fun a b => a.1 < b.1) ∧
    (mapGet 0 (getCore base 0 0).leafErrs 7 + 1 < 3) ∧
    ((getCore base 63 7).launch = none ∧ ∀ h : Fin 4, (getThread base (.vec 63 7 h)).launch = none) ∧
    (let s := event { State.reset with health := { State.reset.health with retiring := [9] } } fun e => { e with n := 9 }
     s.ev.pairs = [] ∧ s.ev.n % 256 ∈ s.health.retiring ∧ s.ev.n % 256 ∉ s.root.retiredChannels ∧ s.queues = [] ∧
       ∀ q ∈ s.ctxs, q.2.valid = true → mapsChannel s 9 q.2 = false ∧ mapsService s q.2 = true) ∧
    (base.ctxs = [(1, placeContext)] ∧ placeContext.valid = true ∧ MemoriesOk base) ∧
    (let s := withCore fun c => { c with store := [(7, { ctx := 1, word := 0, bad := false })] }
     mapFind (getCore s 0 0).store 7 = some { ctx := 1, word := 0, bad := false }) ∧
    ((getCtx base 1).valid = true ∧ ∀ q ∈ base.queues, q.2.ctx ≠ 1) ∧ (running base).launch ≠ none ∧ (running base).ctx = 1 ∧
    (∀ u, (getThread base u).out = []) := by
  refine ⟨?_, ?_, ?_, ?_, ?_, ?_, ?_, ?_, ?_, fun u => ?_⟩
  case refine_10 =>
    by_cases h : u = base.cur
    · rw [h]; decide +kernel
    · rw [base_threads u h]; rfl
  all_goals decide +kernel
theorem witness_NoInstructionStopsTheDevice :
    Instr.exit ≠ .hostBarAccess ∧ Instr.exit ≠ .ethernetFrameReceive ∧
    (let s := event base fun e => { e with host := .read (2 ^ 48) 1 }
     exec .hostBarAccess s = .fault (.noSuchAddress (2 ^ 48))) ∧
    (let s := event base fun e => { e with host := .write (2 ^ 48) [1], k := 2 ^ 48, bytes := [1] }
     s.root.boot = .running ∧ exec .hostBarAccess s = .fault (.noSuchAddress (2 ^ 48)) ∧
       exec .ethernetFrameReceive s = .fault (.noSuchAddress (2 ^ 48))) ∧
    (let s := event State.reset fun e => { e with host := .write (2 ^ 48) [1] }
     s.root.boot ≠ .running ∧ 2 ^ 48 < 2 ^ 48 + 1) := by
  refine ⟨by decide, by decide, rfl, ⟨rfl, rfl, rfl⟩, by decide, by decide⟩
theorem witness_MemoriesKeepTheirForm : MemoriesOk base ∧ gives (step base) (fun _ => true) = true := by decide +kernel

/-! ### Witnesses of the clauses on accesses, handlers, links and errors -/

/-- The page at 0x31000 is page 0x31 of device 5, which a link reaches or not. -/
def onPeer (up : Bool) (s : State) : State :=
  let s1 := { s with mem := memWrite s.mem (0x22000 + 8 * 0x31) 8 (5 * 2 ^ 56 + 0x31127) }
  if up then linkUp s1 else s1
/-- Entries of a table in a scratchpad, on a peer, and on a peer to which no path is left. -/
theorem witness_TableJumpReadsItsEntry_elsewhere :
    (let s := withG 5 (BitVec.ofNat 64 (2 ^ 40))
     alignedTarget s (partyOf s s.cur) (reg s 5 + 4 * reg s 4) 4 4 .load = .ok (.spad 0) ∧ readReady s s.cur (.spad 0) 4 = true ∧
       tgtPoison s (.spad 0) 4 = false ∧ (running s).out = [] ∧ (running s).vq = []) ∧
    (let s := onPeer true (withG 5 0x31008)
     alignedTarget s (partyOf s s.cur) (reg s 5 + 4 * reg s 4) 4 4 .load = .ok (.peer 5 0x31008 false) ∧
       tgtPoison s (.peer 5 0x31008 false) 4 = false ∧
       gives (exec (.jt 4 5 1) s) (fun t => decide ((running t).pc = 0x30000)) = true) ∧
    (let s := onPeer false (alter (withG 5 0x31008) fun th => { th with fill := 3 })
     alignedTarget s (partyOf s s.cur) (reg s 5 + 4 * reg s 4) 4 4 .load = .ok (.violation 4) ∧ MemoriesOk s ∧
       tgtPoison s (.violation 4) 4 = false ∧
       gives (exec (.jt 4 5 1) s) (fun t => decide ((running t).pc = 0x3000C ∧ (running t).fflags = 0x40 ∧ memRead t.mem 24 8 = 4)) = true) ∧
    (let s := alter (withG 5 0x31000) fun th => { th with out := [store8], nextStamp := 1 }
     alignedTarget s (partyOf s s.cur) (reg s 5 + 4 * reg s 4) 4 4 .load = .ok (.dev 0x31000 false) ∧
       readReady s s.cur (.dev 0x31000 false) 4 = false) := by refine ⟨?_, ?_, ?_, ?_⟩ <;> decide +kernel
/-- A handler whose entry has set a store aside: it is performed after xret, and before an exit from within the handler. -/
theorem witness_HandlerReturnRestores_accesses :
    (let s := alter base fun th => { th with frozen := some { aside with out := [store8] }, xret := 0x30002 }
     (running s).vq = [] ∧ (running s).rq = [] ∧ (running s).carryNext = [] ∧ aside.carries = [] ∧ aside.vq = [] ∧
       gives (exec .xret s) (fun t => decide ((running t).out = [store8] ∧ (running t).frozen = none)) = true ∧
       gives (exec .exit s) (fun t => decide ((running t).out = [store8] ∧ (running t).wait = .exit ∧ t.stalled = true)) = true) := by
  decide +kernel
/-- R32: between 1.0 and 1.125 of e4m3 the tie goes to the even pattern, or away from zero; 449 rounds to 448 and 1000 overflows. -/
theorem witness_RoundingKeepsExactValues_inexact :
    (isNum (unpack (fmtOf 8) 0x38) false false ∧ isNum (unpack (fmtOf 8) 0x39) false false) ∧
    (roundFp (fmtOf 8) .arith 0 false 17 (-4) false).bits = 0x38 ∧ (roundFp (fmtOf 8) .arith 4 false 17 (-4) false).bits = 0x39 ∧
    (roundFp (fmtOf 8) .arith 2 true 17 (-4) false).bits = 0xB9 ∧ (roundFp (fmtOf 8) .convert 0 false 449 0 false).bits = 0x7E ∧
    (roundFp (fmtOf 8) .convert 0 false 1000 0 false) = { bits := 0x7E, flags := flagSat ||| flagInx, exc := true } := by decide +kernel
/-- R134, R39, R41: 1/3 and the root of 2 in f32, and the conversions of 2.5 and of 300 to i8. -/
theorem witness_RoundingKeepsExactValues_operations :
    (fpOp .div 12 0 0x3F800000 0x40400000 0).bits = 0x3EAAAAAB ∧ (fpOp .sqrt 12 0 0x40000000 0 0).bits = 0x3FB504F3 ∧
    (fpToIntTy 12 0 0 0x40200000).bits = 2 ∧ (fpToIntTy 12 0 4 0x40200000).bits = 3 ∧ (fpToIntTy 12 0 0 0x43960000).bits = 127 ∧
    (intToFp 12 0 16777217).bits = 0x4B800000 ∧ (fpToFp 12 10 0 0x3F808000).bits = 0x3F80 := by decide +kernel
theorem witness_ViolationsReadFill_release :
    (let a := { load4 with tgt := .violation 4 }
     let s := alter (waitingFor a) fun th => { th with release := some (0x30000, none) }
     performable s s.ev.tid a = true ∧ MemoriesOk s ∧
       gives (exec .memoryAccessComplete s) (fun t => decide ((running t).release = some (0x30000, some 0x31000))) = true) := by
  decide +kernel
theorem witness_CsrReads_discarded :
    (let s := alter base fun th => { th with vq := [entry (.share 3 4)], nextStamp := 1 }
     Usable s 0 [] ∧ ∃ e ∈ (running s).vq, e.stamp < (running s).nextStamp) ∧
    (Usable base 0 [] ∧ (running base).vq = [] ∧ (running base).rq = []) := by decide +kernel
theorem witness_BarriersAndWatermarks_lost :
    (let a := { store8 with tgt := .peer 5 0x1000 false }
     let s := alter (barred [] []) fun th => { writeG th 4 16 with out := [a] }
     Ready s [4, 5] ∧ (16 : Nat) ≤ (reg s 4).toNat % 256 ∧ (reg s 4).toNat % 256 < 32 ∧
       (∀ p ∈ s.links, p.2.st ≠ .up) ∧ (running s).out = [a] ∧
       gives (exec (.wmpub 4 5) s) (fun t => decide ((running t).fflags = 0x40 ∧ (running t).pc = 0x30004 ∧ watermarkVal t 16 = 0)) = true) ∧
    (let s := alter (barred [] []) fun th => { writeG th 4 16 with out := [store8] }
     Ready s [4, 5] ∧ (running s).release = none ∧ (running s).out ≠ [] ∧ store8.tgt = .dev 0x31000 false) ∧
    (let s := alter (barred [] []) fun th => { writeG th 4 16 with release := some (th.pc, some 0x31000) }
     Ready s [4, 5] ∧ (running s).release = some ((running s).pc, some 0x31000)) := by refine ⟨?_, ?_, ?_⟩ <;> decide +kernel
/-- Poison in an operand of an mmasp whose metadata is illegal at the same step (R358). -/
theorem witness_MatrixFormsIssueAndConfigure_order :
    (let a := spadDesc 0 1
     let b := spadDesc 0x400 2
     let d := spadDesc 0x800 1
     let s0 := engine (.mmasp 1 0 false a b d) 16 0x4044
     let s := { s0 with poisonSpad := [0] }
     let m := mmaspShapes (getCluster s 0).cfg a b d
     m.length = 3 ∧ m.all (fun x => decide (passOne s 0 (getThread s (.mcc 0)).launch x = none) && decide (passThree s 0 x = none)) = true ∧
       (loadOperand s 0 (m.getD 0 ((drainShape MatCfg.reset 0), 0))).bad = true ∧
       (loadOperand s 0 (m.getD 2 ((drainShape MatCfg.reset 0), 0))).bad = false) := by decide +kernel
/-- An entry whose fault UFMASK routes, with the thread at a place of its code. -/
def atPair (pc : Word) (word : Nat) : State :=
  let f : FaultInfo := { cause := 0x04, elem := 0, info := 0, start := 0 }
  let s := queued { entry (.bcast 3 7 0) with fault := some f }
  alter { s with mem := memWrite s.mem 0x30000 4 word } fun th => { th with ufmask := 0x10, pc := pc }
/-- A fault of a load that has built one element, of a clmask, and one that UFMASK routes at the start and in the middle of a pair. -/
theorem witness_FaultsAreReported_chains :
    (let f : FaultInfo := { cause := 0x06, elem := 1, info := 0x32000, start := 1 }
     let e := { two (.load .unit 3 0x31FF8 0 0 0 0 false) with begun := true, part := { Desc.empty with len := 8, tail := 5, head := 5 }, fault := some f }
     let s := queued e
     (running s).tstate = .running ∧ (running s).ufmask = 0 ∧ e.fault = some f ∧ isFresh e.op = true ∧ destOf e.op = some 3 ∧
       gives (exec .vectorFaultReport s) (fun t => decide ((running t).v[3].part = true ∧ (running t).v[3].len = 8 ∧
         (running t).xcause = 0x10006 ∧ (running t).vstart = 1 ∧ (running t).tstate = .stopped)) = true) ∧
    (let f : FaultInfo := { cause := 0x04, elem := 0, info := 0, start := 0 }
     let e := { entry (.clmask 3 4 0) with fault := some f }
     (getThread (queued e) base.ev.tid).vq = [e] ∧ e.fault = some f) := by refine ⟨?_, ?_⟩ <;> decide +kernel
theorem witness_FaultsAreReported_routed :
    (let s := atPair 0x30002 0xC0000000
     (running s).ufmask.getLsbD 4 = true ∧ isMcc s.ev.tid = false ∧ (running s).frozen = none ∧ (running s).pend = none ∧
       (running s).wait = .none ∧ (running s).pc.toNat % 4 = 2 ∧ (running (atPair 0x30000 0)).pc.toNat % 4 ≠ 2) ∧
    instrAtB (atPair 0x30002 0xC0000000) base.ev.tid = some .hnop ∧
    halfBStuck (atPair 0x30002 0xC0000000) base.ev.tid .hnop = false ∧
    (let s := alter (atPair 0x30002 0) fun th => { th with vq := [entry (.mpopc 9 0)], rq := [{ place4 with reg := 9 }] }
     halfBStuck s base.ev.tid (.hadd 9 9) = true) := by refine ⟨?_, ?_, ?_, ?_⟩ <;> decide +kernel
theorem witness_ControlSpaceWrites_csrs :
    (event base fun e => { e with n := 0x004, word := 7 }).ev.n = 0x004 ∧ (event base fun e => { e with n := 0x00A }).ev.n = 0x00A ∧
    (let s := event onMcc fun e => { e with tid := .mcc 0, n := 0x005, word := 7 }
     isMcc s.ev.tid = true ∧ s.ev.n = 0x005) ∧
    gives (exec .registerWrite (event base fun e => { e with n := 0x014, word := 0x1003 })) (fun t => decide ((running t).ufvec = 0x1000)) = true := by
  refine ⟨?_, ?_, ?_, ?_⟩ <;> decide +kernel
/-- The first serial of a cluster, in a launch whose header names an MCC. -/
def withMccEntry : Launch := { shared with hdr := { placeHeader with mccent := 64 } }
theorem witness_LaunchesRun_mcc :
    (let s := updCore (oneLaunch withMccEntry) 0 0 fun c => { c with launch := some 0 }
     (getCore s 0 0).launch = some 0 ∧ getLaunch s 0 = some withMccEntry ∧ freeThread s (.vec 0 0 0) withMccEntry = true ∧
       mayRun s withMccEntry.ctx = true ∧ hasImages s 0 = false ∧ coreAsked s 0 0 = false ∧ withMccEntry.hdr.mccent ≠ 0 ∧
       (0 : Nat) ∉ withMccEntry.mccStarted ∧ (getCluster s 0).mccLaunch = none ∧ mccImages s 0 = [] ∧
       (mapGet (0, 0) withMccEntry.shares 0).1 < (mapGet (0, 0) withMccEntry.shares 0).2) := by decide +kernel
/-- An access that another has arrived before, one that fills the gap, and the region operations of a peer. -/
theorem witness_LinksHostAndRootAct_order :
    (let s := flitIn 1 0x31000 .read
     (getLink s 15).rxSeq = s.ev.k ∧ s.peerWait = [] ∧ mapGet 0 s.peerSeq (2 * 64 + 3) < s.ev.flit.acc) ∧
    (let g : FlitAccess := { dev := 2, cl := 3, acc := 1, pa := 0, kind := .read }
     let s := { flitIn 0 0x31000 .read with peerWait := [g] }
     s.peerWait = [g] ∧ g.acc = s.ev.flit.acc + 1 ∧ s.ev.flit.acc = mapGet 0 s.peerSeq (2 * 64 + 3)) ∧
    (∀ k ∈ [FlitKind.append 16, .publish 16 0x32000],
      let s := region 0 [] (flitIn 0 0x31000 k)
      s.ev.flit.kind = k ∧ regionOk s (.dev 0x31000 false) = true ∧ tgtPoison s (.dev 0x31000 false) 64 = false ∧ MemoriesOk s ∧
        (findRegion s 0x31000).records = [] ∧ flitHeld s s.ev.flit = false ∧ memRead s.mem 0x31018 8 = 0x32000 ∧
        memRead s.mem 0x31010 8 = 0x32100 ∧ memRead s.mem 0x31008 8 = 0x33000) ∧
    (let s := region 0 ((List.range 64).map fun i => (BitVec.ofNat 64 (0x32010 + i), 1)) (flitIn 0 0x31000 (.publish 1 0x320F0))
     s.peerWait = [] ∧ flitHeld s s.ev.flit = true) := by
  refine ⟨?_, ?_, ?_, ?_⟩ <;> decide +kernel
/-- A frame for a retired channel. -/
theorem witness_LinksHostAndRootAct_retired :
    let s := event { base with root := { base.root with retiredChannels := [(Config.homeChannel 0).val] } } fun e => { e with k := 0, bytes := [1] }
    s.root.boot = .running ∧ s.ev.bytes.length ≤ 9216 ∧ s.ev.k + s.ev.bytes.length ≤ 2 ^ 48 ∧ onRetired s s.ev.k 1 = true := by
  refine ⟨rfl, by decide, by decide, ?_⟩
  simp [onRetired, pageOn, upFrom, ceilDiv, event]
/-- A store that has written a line which poison then strikes; a poisoned line of 16 passes ago. -/
theorem witness_ErrorsAreCountedAndRepaired_poison :
    (let s := event (queued { entry storeOp with wrote := [9] }) fun e => { e with k := 9 }
     (running s).frozen = none ∧ gives (exec .linePoison s) (fun t => decide ((running t).vq.map (·.struck) = [[9]])) = true) ∧
    (let s := { base with health := { base.health with poisonedLines := [(1, 15), (2, 14)] } }
     s.root.boot = .running ∧ gives (exec .scrubPassCheck s) (fun t => decide (t.health.poisonedLines = [(2, 15)])) = true) ∧
    State.reset.root.boot ≠ .running := by refine ⟨?_, ?_, ?_⟩ <;> decide +kernel

/-! ### Witnesses of the clauses on set-aside accesses, courses, copies, residues and rounding -/

/-- A handler whose entry has set a store to the writable page aside; g5 holds its address. -/
def withAside : State := alter (withG 5 0x31000) fun th => { th with frozen := some { aside with out := [store8] }, nextStamp := 1 }
theorem witness_accesses_behind_those_set_aside :
    (alignedTarget withAside (partyOf withAside withAside.cur) (reg withAside 5 + 4 * reg withAside 4) 4 4 .load = .ok (.dev 0x31000 false) ∧
      readAside withAside withAside.cur (.dev 0x31000 false) 4 = true ∧ readAside withAside withAside.cur (.dev 0x31000 false) 64 = true ∧
      readAside withAside withAside.cur (.dev 0x31008 false) 4 = false ∧ (running withAside).vq = [] ∧ (running withAside).out = []) ∧
    (∀ i ∈ [Instr.jt 4 5 1, .bkset 5 0], gives (exec i withAside) (fun t => decide ((running t).xcause = 0x13 ∧ (running t).xinfo = 0)) = true) ∧
    gives (exec (.ld 3 5 3 false 0 0) withAside) (fun t => decide (((running t).frozen.map fun f => f.out.length) = some 2 ∧ (running t).out = [])) = true ∧
    gives (exec (.ld 3 5 3 false 0 8) withAside) (fun t => decide (((running t).frozen.map fun f => f.out.length) = some 1 ∧
      (running t).out.length = 1)) = true := by refine ⟨?_, ?_, ?_, ?_⟩ <;> decide +kernel
/-- A pattern that is frozen behind the oldest entry. -/
theorem witness_HandlerReturnRestores_later_pattern :
    let p := { entry (.pat 3 4 4 1 7 0 0) with snap := [{ val := 5, len := 0, bad := [] }], prog := 16 }
    let s := alter base fun th => { th with frozen := some { aside with vq := [entry (.share 3 4), p] }, xret := 0x30002, nextStamp := 1 }
    isPat p.op = true ∧ (running s).vq = [] ∧ gives (exec .xret s) (fun t => decide (((running t).vq.map fun e => e.snap.length) = [0, 0])) = true := by
  decide +kernel
/-- R174, R244: compares by signedness, as numbers and as containers, and a clmask, over the chain of v4 (3 and -1). -/
theorem witness_MaskInstructionsExecute_courses :
    (∀ e ∈ [two (.cmp .lt 2 4 (.w 4) 1), { two (.cmp .unord 2 4 (.v 4) 1) with vtype := 13 }, { two (.cmp .eq 2 4 (.imm 3) 0) with vtype := 14 }],
      let s := onChain e 1
      (running s).vq = [e] ∧ (running s).frozen = none ∧ illFormed e = false ∧ e.prog ≤ e.vl ∧ e.vl ≤ 4096 ∧
        gives (exec .vectorCourse s) (fun t => decide (((running t).vq.map fun e => e.finished) = [true])) = true) ∧
    gives (exec .vectorCourse (onChain (two (.cmp .lt 2 4 (.w 4) 0)) 1)) (fun t => decide ((running t).m[2].toNat = 3)) = true ∧
    gives (exec .vectorCourse (onChain { two (.cmp .lt 2 4 (.w 4) 0) with vtype := 7 } 1)) (fun t => decide ((running t).m[2].toNat = 1)) = true ∧
    ((3 : Nat) / 2 ^ 30 = 0 ∧ 3 / 2 ^ 10 % 2 ^ 10 < 1023 ∧ 3 / 2 ^ 20 < 1021 ∧ 0xFFFFFFFF / 2 ^ 30 ≠ 0) ∧
    unpack (fmtOf 13) (2 ^ 64 - 1) = .nan false ∧
    (let e := { two (.clmask 2 0x31000 1) with vtype := 15, clmode := 4, clrec := 4 }
     let s := onChain e 1
     e.vl ≤ 1024 ∧ (running s).out = [] ∧ illFormed e = false ∧ foreignPad s (partyOf s s.cur) (0x31000 + 64) = false ∧
       accessTarget s (partyOf s s.cur) 0x31040 64 64 .load = .ok (.dev 0x31040 false)) := by
  refine ⟨?_, ?_, ?_, ?_, ?_, ?_⟩ <;> decide +kernel
/-- R52, R184, R209: a tree of two items, an update of both elements, and a vstxa whose two elements name two places. -/
theorem witness_MaskInstructionsExecute_trees :
    (pairTree (combine .sum 6 0) (fun k => if k < 2 then some (k + 3) else none) 12 0).1 = some 7 ∧
    (∀ b ∈ [true, false],
      let e := two (.upd b 4 4 4 1)
      let s := onChain e 1
      let x := (running s).v[4]
      illFormed e = false ∧ e.prog = 0 ∧ e.snap = [] ∧ (chainLeaves (getCore s 0 0) x).Nodup ∧ exclOf (getCore s 0 0) x = true ∧
        ((pieces (getCore s 0 0) x).map fun p => p.2.2).sum = x.len ∧ gives (exec .vectorCourse s) (fun _ => true) = true) ∧
    (let e := { two (.stxa 4 0x31000 4 0 0 false) with xbound := 0x100000000 }
     let s := onChain e 1
     streamElem (streamOf (getCore s 0 0) (running s).v[4]) 0 4 0 = 3 ∧ streamElem (streamOf (getCore s 0 0) (running s).v[4]) 0 4 1 = 0 ∧
       (∀ j ∈ [0, 3], accessTarget s (partyOf s s.cur) (0x31000 + BitVec.ofNat 64 (j * 8)) 8 8 .both = .ok (.dev (0x31000 + j * 8) false))) ∧
    (let s := queued { entry (.mpopc 3 0) with stalled := true }
     ((running s).vq.map fun e => e.stalled) = [true] ∧ (running base).vq = []) := by
  refine ⟨?_, ?_, ?_, ?_⟩ <;> decide +kernel
/-- A result of 24 elements of 8 bytes under construction: 8 stand in leaf 6; a course makes 16 more in leaves 7 and 8. -/
def growing : VEntry :=
  { entry (.int .add 3 4 (.w 1) 0 true) with
    vl := 24, begun := true, prog := 8, part := { part := false, excl := true, skip := 0, len := 64, tail := 6, head := 6 } }
def grown : State := updCore (onChain growing 1) 0 0 fun c => { c with leaves := c.leaves ++ [(6, { idleLeaf with len := 63, refs := 1 })], fresh := 7 }
theorem witness_ResultsAreBuiltInCourses_growing :
    let c := getCore grown 0 0
    Growing c growing.part ∧ Growing c Desc.empty ∧ (∃ c1, FreeLeaves c [7, 8] c1) ∧ FreeLeaves c [] c ∧
    ([7, 8] : List Nat).Nodup ∧ (∀ y ∈ [7, 8], y ∉ chainLeaves c growing.part) ∧ lheld c 0 + 2 ≤ growing.budget ∧
    growing.part.len = growing.prog * entrySize growing ∧ ((24 - 8) * 8 - (63 - (leafAt c 6).len) + 63) / 64 = 2 ∧ illFormed growing = false ∧
    gives (exec .vectorCourse grown) (fun t => decide (((running t).vq.map fun e => (e.finished, e.part.len, e.part.tail)) = [(true, 192, 8)])) = true := by
  refine ⟨.inr ?_, .inl rfl, ⟨_, _, rfl, _, rfl, rfl⟩, rfl, ?_, ?_, ?_, ?_, ?_, ?_, ?_⟩ <;> decide +kernel
/-- R52, R176: a scan of f64 over 1.0 and a NaN sets its exception mask; a load of stride 0 and one behind a bookmark. -/
theorem witness_ResultsAreBuiltInCourses_more :
    (∀ e ∈ [{ two (.scan true 3 4 7 1 true) with vtype := 13 }, two (.topk 3 4 4096 1), two (.load .strided 3 0x31000 0 0 1 0 false),
        { two (.load .unit 3 0x31000 0 0 1 12 false) with bk := { valid := true, base := 0x31000, limit := 0x32000, frontier := 0x31008 } },
        { two (.pack 3 4) with part := Desc.empty }],
      let s := onChain e 1
      (running s).vq = [e] ∧ illFormed e = false ∧ e.vl ≤ 4096 ∧ destOf e.op = some 3 ∧ (running s).frozen = none ∧
        (takeFree (getCore s 0 0)).map Prod.fst = some 6 ∧ gives (exec .vectorCourse s) (fun _ => true) = true) ∧
    bookmarkHides { valid := true, base := 0x31000, limit := 0x32000, frontier := 0x31008 } 0x31008 = true ∧
    (let s := onChain (two (.load .strided 3 0x31000 0 0 1 0 false)) 1
     (upFrom 0 2).find? (fun k => (running s).m[1].getLsbD k && (running s).m[46].getLsbD k) = some 0 ∧
       (upFrom 0 2).find? (fun k => (running (onChain growing 0)).m[1].getLsbD k) = none) := by
  refine ⟨?_, ?_, ?_⟩ <;> decide +kernel
/-- R43: -3 as a residue element, as the manual writes it; R46: an invalid container reads as FILL. -/
theorem witness_IntegerElementResults_residues :
    rnEncode (-3) = 0x3FAFF3FD ∧ rnValue 0x3FAFF3FD = -3 ∧ 0x3FAFF3FD < 2 ^ 32 ∧ (rnRead 0x3FAFF3FD 0xFFFFFFFF).1 = 0x3FAFF3FD ∧
    (rnRead 0xFFFFFFFF 0xFFFFFFFF).1 = 0 ∧ intElem .mul 14 0 0x3FAFF3FD 0x3FAFF3FD = { bits := rnEncode 9, flags := 0, exc := false } ∧
    convert 14 0 0 0xFFFFFFFF 0xFFFFFFFF = { bits := 0, flags := 0, exc := true } ∧
    convert 6 14 0 0 (2 ^ 62) = { bits := rnEncode 534775295, flags := flagSat, exc := true } ∧
    unpack (fmtOf 12) 0xFF800000 = .inf true ∧ unpack (fmtOf 12) 0x7F800001 = .nan true ∧ isNum (unpack (fmtOf 12) 0x40200000) false false = true := by
  decide +kernel
/-- R35, R36, R172: 1/3, 1/√4 and √2 as a power in f32; the reciprocals of zeros; 2^0.5 in e4m3 lies far from every number of 8 bits. -/
theorem witness_RoundingKeepsExactValues_functions :
    (fpOp .rcp 12 0 0x40400000 0 0).bits = 0x3EAAAAAB ∧ fpOp .rsqrt 12 0 0x40800000 0 0 = Res.plain 0x3F000000 ∧
    (fpOp .exp2 12 0 0x3F000000 0 0).bits = 0x3FB504F3 ∧ fpOp .exp2 12 0 0x40400000 0 0 = Res.plain 0x41000000 ∧
    fpOp .rcp 8 0 0x80 0 0 = { bits := 0xFE, flags := flagDz ||| flagSat, exc := true } ∧
    fpOp .rsqrt 12 0 0x80000000 0 0 = { bits := 0xFF800000, flags := flagDz, exc := true } ∧
    (fpOp .rsqrt 12 0 0xBF800000 0 0).flags = flagInv ∧ unpack (fmtOf 8) 0x30 = .num false 8 (-4) ∧
    (let gap : Rat := mkRat 1 (2 ^ 47)
     ∀ q : Nat, q ≤ 2 ^ 8 → ¬ ((mkRat q (2 ^ 7) - gap) ^ 16 ≤ (2 : Rat) ^ (8 : Nat) ∧ (2 : Rat) ^ (8 : Nat) ≤ (mkRat q (2 ^ 7) + gap) ^ 16)) := by
  refine ⟨?_, ?_, ?_, ?_, ?_, ?_, ?_, ?_, ?_⟩ <;> decide +kernel
/-- A copy of two rows of 8 bytes at queue 1, its indices those of v4's chain (3 and 0). -/
def rowCopy (k : CopyKind) (row : Nat) (bound : Word) : Copy :=
  { op := { shapeless with kind := k, fill := 0xEE, dst := 0x31040, src := 0x31000, shape := 0x80002, pitch := 8 * 2 ^ 32 + 16, bound := bound, q := 1 }
    owner := 0, fillw := 0, idx := { Desc.empty with len := 8, tail := 5, head := 5 }, stamp := 0, row := row, added := 0, leave := false, ctx := 1
    launch := 0 }
def copying (x : Copy) : State :=
  let s := onChain (two (.share 3 4)) 1
  let s1 := alter s fun th => { th with vq := [] }
  event (updCore { s1 with mem := memWrite s1.mem 0x31000 8 0x0807060504030201 } 0 0 fun c => { c with cqs := c.cqs.set 1 [x] }) fun e => { e with n := 1 }
theorem witness_CoreUnitsAtWork_rows :
    (∀ k ∈ [CopyKind.cpy, .cpyg, .cpys, .cpyf],
      let s := copying (rowCopy k 0 4)
      let x := rowCopy k 0 4
      let p : Party := { ctx := 1, cl := 0, co := 0, launch := some 0 }
      MemoriesOk s ∧ s.ev.n = (1 : Fin 4).val ∧ (getCore s 0 0).cqs[(1 : Fin 4)] = [x] ∧ x.op.shape.toNat / 2 ^ 32 = 0 ∧ x.op.ctr = none ∧
        x.op.shape.toNat % 2 ^ 16 = 2 ∧ x.op.shape.toNat / 2 ^ 16 % 2 ^ 16 = 8 ∧ allAccesses (running s) = [] ∧
        streamElem (streamOf (getCore s 0 0) x.idx) 0 4 0 = 3 ∧ streamElem (streamOf (getCore s 0 0) x.idx) 0 4 1 = 0 ∧
        (∀ va ∈ [0x31000, 0x31018], resolve s p (BitVec.ofNat 64 va) 8 .load = .ok (.dev va false) ∧ tgtPoison s (.dev va false) 8 = false) ∧
        (∀ va ∈ [0x31040, 0x31070], resolve s p (BitVec.ofNat 64 va) 8 .store = .ok (.dev va false) ∧
          serialCheck s 1 (.dev va false) (BitVec.ofNat 64 va) 8 = none) ∧ s.queues = []) ∧
    gives (exec .copyRow (copying (rowCopy .cpy 0 4))) (fun t => decide (memRead t.mem 0x31040 8 = 0x0807060504030201 ∧
      ((getCore t 0 0).cqs[(1 : Fin 4)].map fun x => x.row) = [1])) = true ∧
    gives (exec .copyRow (copying (rowCopy .cpyg 0 3))) (fun t => decide (memRead t.mem 0x31040 8 = 0xEEEEEEEEEEEEEEEE)) = true ∧
    gives (exec .copyRow (copying (rowCopy .cpys 0 4))) (fun t => decide (memRead t.mem 0x31070 8 = 0x0807060504030201)) = true ∧
    gives (exec .copyRow (copying (rowCopy .cpys 1 1))) (fun t => decide ((getCore t 0 0).cqs[(1 : Fin 4)] = [] ∧
      (getCore t 0 0).reclaim = [5])) = true := by
  refine ⟨?_, ?_, ?_, ?_, ?_⟩ <;> decide +kernel
/-- R49, R242: a vsetl of type map under a CLMODE of 4 states, and under the reset value. -/
theorem witness_GrantsOfVsetl_maps :
    (let s := alter base fun th => { th with clmode := 4 }
     Usable s 3 [4] ∧ Room s (.setM46 0) ∧ clWellFormed 4 = true ∧ min 4096 (8192 / 32 * 64 / 64) / 1 * 1 = 256 ∧
       gives (exec (.vsetl 3 4 15 0 0) s) (fun t => decide ((running t).clrec = 4 ∧ (running t).maxvl = 256)) = true) ∧
    ((running base).clmode = 0 ∧ clWellFormed 0 = false ∧
      gives (exec (.vsetl 3 4 15 0 0) base) (fun t => decide ((running t).vtype = 0x8F ∧ (running t).clrec = (running base).clrec)) = true) := by
  refine ⟨?_, ?_⟩ <;> decide +kernel
/-- What waits for the end of the boot, and what is done before it. -/
theorem witness_boot :
    base.root.boot = .running ∧ State.reset.root.boot ≠ .running ∧ (getCore State.reset 0 0).launch = none ∧
    (∀ h : Fin 4, (getThread State.reset (.vec 0 0 h)).launch = none) := by decide +kernel
/-- A host write over the violation log and the error record of the one context: no block lies there. -/
theorem witness_LinksHostAndRootAct_reserved :
    (let s := event { base with ctxs := [(1, { placeContext with errec := 0x800 })] } fun e => { e with host := .write 0x7F0 (List.replicate 128 0xFF) }
     s.ctxs = [(1, { placeContext with errec := 0x800 })] ∧ placeContext.valid = true ∧ s.queues = [] ∧ MemoriesOk s ∧ s.root.boot = .running ∧
       0x7F0 + 128 ≤ 2 ^ 48 ∧
       gives (exec .hostBarAccess s) (fun t => decide (memGet t.mem (0x800 + 56) = 255 ∧ memGet t.mem (0x800 + 57) = 0 ∧ memGet t.mem 0x7FF = 255)) = true) ∧
    (base.ctxs = [(1, placeContext)] ∧ placeContext.vlog + 1040 ≤ 0x31000 ∧ placeContext.errec + 64 ≤ 0x31000) := by
  refine ⟨?_, ?_⟩ <;> decide +kernel
/-- A GANG share whose header names an MCC, and a PREEMPT launch of which only saved work is left. -/
theorem witness_LaunchesRun_saved :
    (let x := { chosen with hdr := { placeHeader with mccent := 64 } }
     let s := updCluster (oneLaunch x) 63 fun c => { c with kept := some 0 }
     (getCluster s 63).kept = some 0 ∧ getLaunch s 0 = some x ∧ mapFind x.gangChosen 63 = some (0, 1) ∧ (∀ c, idleCore s 63 c = true) ∧
       (∀ c k, chargeFree s (.vec 63 c k) = true) ∧ mayRun s x.ctx = true ∧ (getCluster s 63).mccLaunch = none ∧ mccImages s 63 = [] ∧ x.args = []) ∧
    (let i : Image := { mccImage with cl := 0, isMcc := false, launch := 1 }
     let x := { higher with shares := [] }
     let s := { contended with launches := [(0, placeLaunch), (1, x)], images := [(0, i)] }
     workOn s 1 x 0 = true ∧ coresAsked s 0 < coresWanted s 1 x 0 ∧ idleCores s 0 = 0 ∧ pickVictim s x 0 = some 0) := by
  refine ⟨?_, ?_⟩ <;> decide +kernel

/-! ### Witnesses of the clauses on early reads, lost scratchpads, violations, strips, stores, faults and gangs -/

/-- A second strike with an entry queued waits; with UFMASK bit 10 set it enters the handler, and the entry is gone. -/
theorem witness_BstripKeepsItsRecord_waits :
    (let s := alter (striped 1) fun th => { th with vq := [entry (.share 3 4)] }
     Ready s [4] ∧ (running s).vq ≠ [] ∧
       gives (exec (.bstrip 4 0) s) (fun t => decide ((running t).pend.map (fun f => f.cause) = some 0x0A ∧ t.stalled = true)) = true) ∧
    (let s := alter (striped 1) fun th => { th with ufmask := 0x400, ufvec := 0x31000 }
     Ready s [4] ∧ (running s).vq = [] ∧ (running s).ufmask.getLsbD 10 = true ∧ (running s).frozen = none ∧
       gives (exec (.bstrip 4 0) s) (fun t => decide ((running t).pc = 0x31000 ∧ (running t).xret = 0x30000 ∧ (running t).xcause = 0x0A ∧
         (running t).strip = [])) = true) ∧
    (let s := alter (striped 1) fun th => { th with ufmask := 0x400, frozen := some aside }
     Ready s [4] ∧ (running s).frozen ≠ none ∧
       gives (exec (.bstrip 4 0) s) (fun t => decide ((running t).tstate = .stopped ∧ (running t).xcause = 0x0A13)) = true) := by
  refine ⟨?_, ?_, ?_⟩ <;> decide +kernel
/-- R291, R309: a load whose value was read before an earlier access was performed, and the event that reads it. -/
def read4 : EarlyRead := { va := 0x31000, size := 8, tgt := .dev 0x31000 false, val := 7 }
theorem witness_early_reads :
    (let s := alter (withG 5 0x31000) fun th => { th with early := [read4] }
     Usable s 3 [5] ∧ readReady s s.cur (.dev 0x31000 false) 8 = true ∧ readAside s s.cur (.dev 0x31000 false) 8 = false ∧
       (running s).early.find? (fun e => decide (e.va = 0x31000) && decide (e.size = 8) && decide (e.tgt = .dev 0x31000 false)) = some read4 ∧
       gives (exec (.ld 3 5 3 false 0 0) s) (fun t => decide (reg t 3 = 7 ∧ (running t).early = [] ∧ (running t).out = [])) = true) ∧
    (let s := event (alter base fun th => { th with out := [{ load4 with va := 0x31040, tgt := .dev 0x31040 false }] }) fun e =>
       { e with flag := true, n := 8, word := 0x31000 }
     s.ev.flag = true ∧ (running s).tstate = .running ∧ (running s).wait = .none ∧ (running s).pend = none ∧ s.ev.n = 8 ∧
       accessTarget s (partyOf s s.ev.tid) s.ev.word 8 8 .load = .ok (.dev 0x31000 false) ∧ readReady s s.ev.tid (.dev 0x31000 false) 8 = true ∧
       readAside s s.ev.tid (.dev 0x31000 false) 8 = false ∧
       gives (exec .memoryAccessComplete s) (fun t => decide ((running t).early = [{ read4 with val := 0 }] ∧ (running t).out.length = 1)) = true) ∧
    (let s := event (alter base fun th => { th with wait := .exit }) fun e => { e with flag := true, n := 8, word := 0x31000 }
     (running s).wait ≠ .none) ∧
    gives (exec .memoryAccessComplete (alter (waitingFor { store8 with val := 9 }) fun th => { th with early := [read4] }))
      (fun t => decide ((running t).early = [])) = true := by refine ⟨?_, ?_, ?_, ?_⟩ <;> decide +kernel
/-- R289: an access to the scratchpad of core 7, which another launch has taken since the access was issued. -/
def lost (k : AccKind) : Access := { load4 with kind := k, va := BitVec.ofNat 64 (2 ^ 40 + 7 * 2 ^ 20), tgt := .spad (7 * 2 ^ 20) }
theorem witness_LoadsReadMemory_lost :
    ∀ k ∈ [AccKind.ld false, .st, .amo .add false],
      let s := waitingFor (lost k)
      (getThread s s.ev.tid).out[0]? = some (lost k) ∧ performable s s.ev.tid (lost k) = true ∧ s.ev.k = 0 ∧ s.ev.flag = false ∧
        padLost s s.ev.tid (lost k) = true ∧ (getThread s s.ev.tid).tstate = .running ∧
        gives (exec .memoryAccessComplete s) (fun t => decide ((running t).xcause = 9 ∧ (running t).xinfo = 7 * 2 ^ 20 ∧
          (running t).tstate = .stopped ∧ t.spad = s.spad)) = true := by decide +kernel
/-- Violation responses of atomics and region operations, of a store to a serial page and of one to a peer out of reach. -/
theorem witness_ViolationsReadFill_others :
    (∀ k ∈ [AccKind.amo .add true, .amo .cas false, .append 16, .publish 16 0, .publish 0 0],
      let a := { load4 with kind := k, tgt := .violation 4 }
      let s := waitingFor a
      (getThread s s.ev.tid).out[0]? = some a ∧ performable s s.ev.tid a = true ∧ lateFault s s.ev.tid a = none ∧ s.ev.flag = false ∧ MemoriesOk s) ∧
    gives (exec .memoryAccessComplete (waitingFor { load4 with kind := .amo .add true, size := 4, tgt := .violation 4, fill := 0x80000000 }))
      (fun t => decide (reg t 4 = 0xFFFFFFFF80000000 ∧ (running t).fflags = 0x40)) = true ∧
    gives (exec .memoryAccessComplete (waitingFor { load4 with kind := .append 16, tgt := .violation 4 }))
      (fun t => decide (reg t 4 = BitVec.allOnes 64)) = true ∧
    gives (exec .memoryAccessComplete (waitingFor { load4 with kind := .publish 0 0, tgt := .violation 4 }))
      (fun t => decide ((running t).fflags = 0)) = true ∧
    (let a := { store8 with tgt := .peer 5 0x1000 false }
     let s := waitingFor a
     performable s s.ev.tid a = true ∧ lateFault s s.ev.tid a = none ∧ anyLinkUp s = false) ∧
    (∀ x ∈ [((0x320F9 : Word), 1), (0x31FFF, 2)],
      let a := { store8 with va := x.1, tgt := .dev x.1.toNat true, size := if x.2 = 1 then 8 else 1 }
      let s := region 0 [] (waitingFor a)
      performable s s.ev.tid a = true ∧ lateFault s s.ev.tid a = none ∧ x.2 < 256) ∧
    (let a := { store8 with va := 0x320F9, tgt := .dev 0x320F9 true }
     let s := region 0 [] (waitingFor a)
     serialCheck s (getThread s s.ev.tid).ctx a.tgt a.va a.size = some 1 ∧
       gives (exec .memoryAccessComplete s) (fun t => decide ((running t).fflags = 0x40 ∧ memRead t.mem 24 8 = 1 ∧ memGet t.mem 0x320F9 = memGet s.mem 0x320F9)) = true) := by
  refine ⟨?_, ?_, ?_, ?_, ?_, ?_, ?_⟩ <;> decide +kernel
/-- R36, R53: 1·2 + 3·4 + 0.5 is 14.5; an infinity times zero, infinities of both signs, a quiet NaN; a sum of zero; 2^127 · 2 twice. -/
theorem witness_MatrixFormsIssueAndConfigure_sums :
    (let v (w : Nat) : FVal := unpack (fmtOf 12) w
     (accAdd 0x3F000000 [(v 0x3F800000, v 0x40000000), (v 0x40400000, v 0x40800000)]).bits = 0x41680000 ∧
     accAdd 0 [(v 0x7F800000, v 0)] = { bits := 0x7FC00000, flags := flagInv, exc := true } ∧
     (accAdd 0xFF800000 [(v 0x7F800000, v 0x3F800000)]).flags = flagInv ∧
     (accAdd 0 [(v 0x7F800000, v 0x3F800000), (v 0xFF800000, v 0x3F800000)]).flags = flagInv ∧
     ((accAdd 0x7FC00000 [(v 0x3F800000, v 0x3F800000)]).bits = 0x7FC00000 ∧ (accAdd 0x7FC00000 [(v 0x3F800000, v 0x3F800000)]).flags = 0) ∧
     accAdd 0x3F800000 [(v 0xFF800000, v 0x3F800000)] = { bits := 0xFF800000, flags := 0, exc := false } ∧
     (accAdd 0x3F800000 [(v 0xBF800000, v 0x3F800000)]).bits = 0 ∧ (accAdd 0x80000000 [(v 0x80000000, v 0x3F800000)]).bits = 0x80000000 ∧
     (accAdd 0x80000000 [(v 0, v 0x3F800000)]).bits = 0 ∧
     (accAdd 0x4B800000 [(v 0x3F800000, v 0x3F000000), (v 0x3F800000, v 0x3F800001)]).bits = 0x4B800001) ∧
    (unpack (fmtOf 12) 0xFFC00000 = .nan false ∧ unpack (fmtOf 12) 0x7F800001 = .nan true ∧ unpack (fmtOf 12) 0x80000000 = .num true 0 (-149)) := by
  decide +kernel
/-- R39, R40, R238: outputs of 2.5, 1000 and of NaNs and infinities to bf16, e4m3 and e5m2 with a scale; rn30 outputs to i32 and f32. -/
theorem witness_MatrixFormsIssueAndConfigure_drains :
    (drainElem false 1 0 (some 0x40000000) 0x40200000).bits = 0x40A0 ∧
    drainElem false 2 0 none 0x447A0000 = { bits := 0x7E, flags := flagSat ||| flagInx, exc := true } ∧
    ((drainElem false 2 0 none 0x7F800000).bits = 0x7E ∧ (drainElem false 2 0 none 0x7F800000).flags = flagSat) ∧
    ((drainElem false 3 0 none 0x7F800000).bits = 0x7C ∧ (drainElem false 3 0 none 0x7F800000).flags = 0) ∧
    ((drainElem false 0 0 (some 0) 0x7F800000).bits = 0x7FC00000 ∧ (drainElem false 0 0 (some 0) 0x7F800000).flags = flagInv) ∧
    ((drainElem false 1 0 none 0x7FC00001).bits = 0x7FC0 ∧ (drainElem false 1 0 none 0x7FC00001).flags = 0) ∧
    (drainElem false 1 0 none 0x7F800001).flags = flagInv ∧
    ((drainElem true 4 0 none 0x3FAFF3FD).bits = 0xFFFFFFFD ∧ (drainElem true 4 0 none 0x3FAFF3FD).flags = 0) ∧
    ((drainElem true 4 0 none 0xFFFFFFFF).bits = 0 ∧ (drainElem true 4 0 none 0xFFFFFFFF).flags = flagInv) ∧
    (drainElem true 5 0 (some 0x3F000000) 0x3FAFF3FD).bits = 0xBFC00000 := by decide +kernel
/-- The thread's oldest entry cut to z elements. -/
def cutTo (z : Nat) (s : State) : State := alter s fun th => { th with vq := th.vq.map fun e => { e with vl := z } }
/-- The oldest entry as its course has left it: VL, whether it has finished or stalled, and its fault's cause, element and XINFO. -/
def courseLeft (s : State) : List (List Nat) :=
  (running s).vq.map fun e => [e.vl, e.finished.toNat, e.stalled.toNat] ++ match e.fault with
    | some f => [f.cause, f.elem, f.info]
    | none => []
/-- What the courses that stop share: the entry is the oldest one, and its course of z elements finishes. -/
abbrev StopsAt (s : State) (z : Nat) : Prop :=
  s.ev.k = 0 ∧ (running s).tstate = .running ∧ (running s).out = [] ∧ (running s).frozen = none ∧
    (∀ e ∈ (running s).vq, e.finished = false ∧ e.fault = none ∧ illFormed e = false ∧ e.prog ≤ z ∧ z < e.vl ∧ e.vl ≤ 4096) ∧
    (∀ p ∈ (getCore s 0 0).leaves, p.2.poison = false ∧ p.2.hdrPoison = false) ∧
    gives (exec .vectorCourse (cutTo z s)) (fun t => decide ((running t).vq.map (fun e => e.finished) = [true])) = true
/-- R207: a load over a page without translation, with and without .ff; a clmap, a clmask and a vstxa that reach it. -/
theorem witness_FaultsAreReported_courses :
    (∀ ff ∈ [true, false],
      let s := onChain (two (.load .unit 3 0x31FF8 0 0 0 0 ff)) 1
      StopsAt s 1 ∧ accessTarget s (partyOf s s.ev.tid) 0x32000 8 8 .load = .error (causeInfo 6 0x32000) ∧
        gives (exec .vectorCourse s) (fun t => decide (courseLeft t =
          [if ff then [1, 1, 0] else [2, 0, 0, 6, 1, 0x32000]])) = true) ∧
    (let s := onChain { mapEntry (.clmap 3 4 0x31FC0 4) with vl := 2 } 1
     StopsAt s 0 ∧ accessTarget s (partyOf s s.ev.tid) 0x32080 64 64 .load = .error (causeInfo 6 0x32080) ∧
       foreignPad s (partyOf s s.ev.tid) 0x32080 = false ∧
       gives (exec .vectorCourse s) (fun t => decide (courseLeft t = [[2, 0, 0, 6, 0, 0x32080]])) = true) ∧
    (let s := alter (onChain { mapEntry (.clmask 5 0x31FC0 4) with vl := 2 } 1) fun th => { th with leaveKinds := 4 }
     StopsAt s 1 ∧ (running s).leaveKinds.testBit 2 = true ∧
       gives (exec .vectorCourse s) (fun t => decide (courseLeft t = [[2, 0, 0, 6, 1, 0x32000]])) = true) ∧
    (let s := onChain { two (.stxa 4 0x31FF8 4 0 0 false) with xbound := 100 } 1
     StopsAt s 0 ∧ accessTarget s (partyOf s s.ev.tid) 0x32010 8 8 .both = .error (causeInfo 6 0x32010) ∧
       gives (exec .vectorCourse s) (fun t => decide (courseLeft t = [[2, 0, 0, 6, 0, 0x32010]])) = true) := by
  refine ⟨?_, ?_, ?_, ?_⟩ <;> decide +kernel
/-- A sum of 24 elements for which `free` leaves are left in the pool, with a reclaim queue. -/
def shortPool (free budget : Nat) (reclaim : List Nat) : State :=
  updCore (onChain { two (.int .add 3 4 (.w 1) 0 false) with vl := 24, budget := budget } 1) 0 0 fun c =>
    { c with fresh := Config.poolLeaves - free, reclaim := reclaim }
/-- R207, R58: no leaf for element 8, by the pool or by the budget, and a walker at work. -/
theorem witness_FaultsAreReported_pool (v : Nat) :
    (StopsAt (shortPool 1 100 []) 8 ∧ StopsAt (shortPool 9 2 []) 8 ∧ StopsAt (shortPool 1 100 [5]) 8) ∧
    gives (exec .vectorCourse (shortPool 1 100 [])) (fun t => decide (courseLeft t = [[24, 0, 0, 4, 8, 1]])) = true ∧
    gives (exec .vectorCourse (shortPool 9 2 [])) (fun t => decide (courseLeft t = [[24, 0, 0, 4, 8, 0]])) = true ∧
    gives (exec .vectorCourse (shortPool 1 100 [5])) (fun t => decide (courseLeft t = [[24, 0, 1]])) = true ∧
    (let full : Leaf := { idleLeaf with len := 63, refs := 1 }
     let d : Desc := { part := false, excl := true, skip := 0, len := 64, tail := 8191, head := 8191 }
     appendElem { Core.reset with fresh := Config.poolLeaves, leaves := [(8191, full)] } 0 100 d 8 v = .error (.exhausted true) ∧
     appendElem { Core.reset with fresh := 9, leaves := [(8191, full), (8190, full)] } 0 2 d 8 v = .error (.exhausted false) ∧
     appendElem { Core.reset with fresh := Config.poolLeaves, leaves := [(8191, full)], reclaim := [5] } 0 100 d 8 v = .error .wait) := by
  refine ⟨?_, ?_, ?_, ?_, rfl, rfl, rfl⟩
  all_goals decide +kernel
/-- R148: no progress waits until the queue has drained; a cause that UFMASK leaves out stops, whatever else it routes. -/
theorem witness_FaultsAreReported_noProgress :
    (let f : FaultInfo := { cause := 0x0A, elem := 0, info := 5, start := 0 }
     let s (m : Word) := alter (striped 1) fun th => { th with pend := some f, ufmask := m, ufvec := 0x31000 }
     (running (s 0x400)).pend = some f ∧ (running (s 0x400)).vq = [] ∧ (running (s 0x400)).ufmask.getLsbD 10 = true ∧
       (running (s 0x400)).frozen = none ∧
       gives (exec .scalarFaultReport (s 0x400)) (fun t => decide ((running t).pc = 0x31000 ∧ (running t).strip = [] ∧
         (running t).xret = 0x30000 ∧ (running t).xinfo = 5)) = true ∧
       gives (exec .scalarFaultReport (s 0x4010)) (fun t => decide ((running t).tstate = .stopped ∧ (running t).strip = [] ∧
         (running t).xcause = 0x0A)) = true) ∧
    (let f : FaultInfo := { cause := 0x06, elem := 1, info := 0x32000, start := 1 }
     let s := alter (queued { entry storeOp with fault := some f }) fun th => { th with ufmask := 0x10 }
     (running s).ufmask ≠ 0 ∧ (running s).frozen = none ∧
       gives (exec .vectorFaultReport s) (fun t => decide ((running t).tstate = .stopped ∧ (running t).xcause = 0x10006)) = true) := by
  refine ⟨?_, ?_⟩ <;> decide +kernel
/-- R196: copies of vcat, its forms with an EMPTY operand, and one that is too long. -/
theorem witness_CoreUnitsAtWork_cat :
    (let s := withSlot (.cat 3 4 5) Slot.reset []
     let c := getCore s 0 0
     let x := (running s).v[4]
     let y := (running s).v[5]
     ¬ (x.excl = true ∧ (3 : Reg) = 4 ∧ (5 : Reg) ≠ 4) ∧ x.len ≠ 0 ∧ y.len ≠ 0 ∧ x.len + y.len < 2 ^ 20 ∧ x.skip ≤ (leafAt c x.head).len ∧
       y.skip = 0 ∧ (leafAt c y.head).refs < 63 ∧ (takeFree c).map Prod.fst = some 6 ∧ (chainLeaves c x).length = 1 ∧
       6 ∉ (leafAt c y.head).next :: (chainLeaves c x ++ chainLeaves c y) ∧ lheld c 0 + 1 ≤ (two (.cat 3 4 5)).budget ∧
       gives (exec .vectorCourse s) (fun t => decide ((leafAt (getCore t 0 0) 9).refs = 2 ∧ (leafAt (getCore t 0 0) 6).refs = 1 ∧
         (leafAt (getCore t 0 0) 6).next = 9 ∧ (running t).vq.map (fun e => (e.part.len, e.part.head)) = [(24, 6)])) = true) ∧
    (let s := alter (withSlot (.cat 3 4 5) Slot.reset []) fun th => { th with v := th.v.set 5 { th.v[5] with skip := 3, len := 5 } }
     let top := leafAt (getCore s 0 0) 9
     (running s).v[5].skip ≠ 0 ∧ top.last = true ∧ (running s).v[5].skip + (running s).v[5].len ≤ top.len + 1 ∧
       (takeFree (getCore s 0 0)).map Prod.fst = some 6) ∧
    (∀ op ∈ [VOp.cat 3 4 7, .cat 3 7 4, .cat 4 4 7, .cat 3 7 8, .cat 4 7 8],
      let s := withSlot op Slot.reset []
      (running s).v[7].len = 0 ∧ (running s).v[8].len = 0 ∧ (running s).v[4].len ≠ 0 ∧ (running s).v[4].len < 2 ^ 20 ∧
        gives (exec .vectorCourse s) (fun _ => true) = true) ∧
    (let s := alter (withSlot (.cat 3 4 5) Slot.reset []) fun th => { th with v := th.v.set 5 { th.v[5] with len := 2 ^ 20 - 8 } }
     2 ^ 20 - 1 < (running s).v[4].len + (running s).v[5].len ∧
       gives (exec .vectorCourse s) (fun t => decide (courseLeft t = [[2, 0, 0, 5, 131069, 0]])) = true) := by
  refine ⟨?_, ?_, ?_, ?_⟩ <;> decide +kernel
/-- R223: a grouped operand with its scale chain, and without. -/
theorem witness_CoreUnitsAtWork_grouped :
    (let s := alter (withSlot (.tbind 4 3) Slot.reset []) fun th => { th with vq := [{ two (.tbind 4 3) with vtype := 0x20 }] }
     let c := getCore s 0 0
     grouped 0x20 = true ∧ vtTy 0x20 ≠ 15 ∧ (4 : Reg).val < 31 ∧ illFormed { two (.tbind 4 3) with vtype := 0x20 } = false ∧
       c.slots[3].st = .empty ∧ (running s).v[4].len ≠ 0 ∧ (running s).v[5].len ≠ 0 ∧ (leafAt c 5).refs < 63 ∧ (leafAt c 9).refs < 63 ∧
       (running s).v[4].head ≠ (running s).v[5].head ∧
       gives (exec .vectorCourse s) (fun t => decide ((getCore t 0 0).slots[3].st = .bound ∧ (getCore t 0 0).slots[3].group = 32 ∧
         (getCore t 0 0).slots[3].scale.head = 9 ∧ (leafAt (getCore t 0 0) 9).refs = 2)) = true) ∧
    (let s := alter (withSlot (.tbind 4 3) Slot.reset []) fun th =>
       { th with vq := [{ two (.tbind 4 3) with vtype := 0x30 }], v := th.v.set 5 Desc.empty }
     (running s).v[5].len = 0 ∧ gives (exec .vectorCourse s) (fun t => decide (courseLeft t = [[2, 0, 0, 0x10, 0, 3]])) = true) := by
  refine ⟨?_, ?_⟩ <;> decide +kernel
/-- R343: a saved iteration of the launch keeps the next share of its GANG launch from starting. -/
theorem witness_LaunchesRun_gangSaved :
    (let i : Image := { mccImage with cl := 0, isMcc := false }
     let s := { updCluster (oneLaunch chosen) 63 fun c => { c with kept := some 0 } with images := [(0, i)] }
     (getCluster s 63).kept = some 0 ∧ getLaunch s 0 = some chosen ∧ mapFind chosen.gangChosen 63 = some (0, 1) ∧
       (∀ c, idleCore s 63 c = true) ∧ hasImages s 0 = true ∧
       gives (exec .gangShareStart (event s fun e => { e with cl := 63 })) (fun t => decide ((getCluster t 63).kept = some 0)) = true) ∧
    hasImages (updCluster (oneLaunch chosen) 63 fun c => { c with kept := some 0 }) 0 = false := by refine ⟨?_, ?_⟩ <;> decide +kernel
/-- R5, R361, R370: a context to be made where the places of its log and error record hold other bytes. -/
theorem witness_CoresAndContextsMove_created :
    let z : ContextSpec :=
      { EventArg.none.spec with ctx := 4095, ptroot := 0x50000, spbase := 0xFFF8000000000000, vlog := 0x60000, errec := 0x61000, wmcnt := 0 }
    let m := memWrite (memWrite (memWrite base.mem 0x60000 8 9) 0x60010 16 (2 ^ 128 - 1)) 0x61038 8 (2 ^ 64 - 1)
    let s := event { base with mem := m } fun e => { e with spec := z }
    creatable s z = true ∧ MemoriesOk s ∧ memRead s.mem 0x60010 16 = 2 ^ 128 - 1 ∧ memRead s.mem 0x61038 8 = 2 ^ 64 - 1 := by
  refine ⟨?_, ?_, ?_, ?_⟩ <;> decide +kernel
/-- R151: a store held back by an entry behind one that waits for a slot: the thread is saved with all three. -/
theorem witness_CoresAndContextsMove_held :
    let e1 := { two (.twait 3) with stalled := true }
    let e2 := { two (.store .unit 4 0x31000 0 0 0 0) with stamp := 1 }
    let s := alter (withSlot (.twait 3) { Slot.reset with st := .target } []) fun th =>
      { th with vq := [e1, e2], out := [{ store8 with stamp := 2 }], nextStamp := 3, preq := true, wait := .exit }
    (running s).out ≠ [] ∧ handedDone s s.cur = true ∧ saveable s s.cur = true := by decide +kernel

/-! ### Witnesses of the clauses on peers that do not answer, returning shares, images, patterns and the reclaim walker -/

/-- R87: values of PCARRY still to come into force, before, between and after the frozen entries. -/
theorem witness_HandlerReturnRestores_carries :
    (let f := { aside with vq := [{ entry (.share 3 4) with stamp := 2 }], carry := some 5, carries := [(1, 6), (3, 7)], wrote := true }
     let s := alter base fun th => { th with frozen := some f, xret := 0x30002, pcarry := 9, nextStamp := 4 }
     (running s).frozen = some f ∧ (running s).xret.toNat % 2 = 0 ∧ (running s).vq = [] ∧ (running s).rq = [] ∧
       gives (exec .xret s) (fun t => decide ((running t).pcarry = 6 ∧ (running t).carryNext = [(3, 7), (4, 9)])) = true) ∧
    (let s := alter base fun th => { th with frozen := some aside, xret := 0x30002, pcarry := 9, carryNext := [(0, 8)] }
     gives (exec .xret s) (fun t => decide ((running t).pcarry = 8 ∧ (running t).carryNext = [])) = true) := by
  refine ⟨?_, ?_⟩ <;> decide +kernel
/-- R139, R263: a bkset behind a store into its descriptor, and one of a descriptor in a peer's memory. -/
theorem witness_AtomicsAndRegionOperationsIssueTheirAccess_bkset :
    (let s := alter (withG 4 0x31000) fun th => { th with out := [{ store8 with va := 0x31020, tgt := .dev 0x31020 false }], nextStamp := 1 }
     Ready s [4] ∧ alignedTarget s (partyOf s s.cur) (reg s 4) 64 64 .load = .ok (.dev 0x31000 false) ∧
       readAside s s.cur (.dev 0x31000 false) 64 = false ∧ readReady s s.cur (.dev 0x31000 false) 64 = false ∧ (running s).frozen = none ∧
       (∃ x ∈ (running s).out, x.stamp < (running s).nextStamp ∧ (isAcquire x = true ∨ touches (.dev 0x31000 false) 64 x.tgt x.size = true)) ∧
       gives (exec (.bkset 4 1) s) (fun t => decide (t.stalled = true)) = true) ∧
    (let s := onPeer true (withG 4 0x31000)
     alignedTarget s (partyOf s s.cur) (reg s 4) 64 64 .load = .ok (.peer 5 0x31000 false) ∧ (∃ p ∈ s.links, p.2.st = .up) ∧ 5 ∉ s.silent ∧
       gives (exec (.bkset 4 1) s) (fun t => decide ((running t).bk[1].valid = true)) = true) := by
  refine ⟨?_, ?_⟩ <;> decide +kernel
/-- R351, R352, R372: a page of device 5, which answers, does not answer, is out of reach, or is this device. -/
theorem witness_AccessFaultsOfAnAddress_peer :
    (let s := onPeer true base
     findPage s me 0x31008 = some (5 * 2 ^ 56 + 0x31127, 3) ∧ permits (5 * 2 ^ 56 + 0x31127) .load = true ∧ bitAt (5 * 2 ^ 56 + 0x31127) 8 = true ∧
       (5 * 2 ^ 56 + 0x31127) / 2 ^ 56 % 256 = 5 ∧ 5 ≠ s.devPos ∧ 5 ∉ s.silent ∧ (mapGet Link.reset s.links ((0 + 5 + 11) % 16)).st = .up ∧
       accessTarget s me 0x31008 8 8 .load = .ok (.peer 5 0x31008 false)) ∧
    (let s := { onPeer true base with silent := [5] }
     findPage s me 0x31008 = some (5 * 2 ^ 56 + 0x31127, 3) ∧ 5 ∈ s.silent ∧ accessTarget s me 0x31008 8 8 .load = .ok (.violation 4)) ∧
    (let s := onPeer false base
     (∀ i, i < 16 → (mapGet Link.reset s.links ((me.cl.val + 5 + i) % 16)).st ≠ .up) ∧ accessTarget s me 0x31008 8 8 .load = .ok (.violation 4)) ∧
    (let s := { onPeer true base with devPos := 5 }
     (5 * 2 ^ 56 + 0x31127) / 2 ^ 56 % 256 = s.devPos ∧ accessTarget s me 0x31008 8 8 .load = .ok (.dev 0x31008 false)) := by
  refine ⟨?_, ?_, ?_, ?_⟩ <;> decide +kernel
/-- R140: an addition in a scratchpad and in the memory of a peer. -/
theorem witness_AtomicsReadModifyWrite_elsewhere :
    ∀ tg ∈ [Target.spad 8, .peer 5 0x1000 false],
      let a := { load4 with kind := .amo .add false, val := 7, va := if tg = .spad 8 then BitVec.ofNat 64 (2 ^ 40 + 8) else 0x31000, tgt := tg }
      let s := linkUp (waitingFor a)
      MemoriesOk s ∧ (getThread s s.ev.tid).out[0]? = some a ∧ performable s s.ev.tid a = true ∧
        serialCheck s (getThread s s.ev.tid).ctx a.tgt a.va a.size = none ∧ lateFault s s.ev.tid a = none ∧ reaches s 5 = true ∧
        gives (exec .memoryAccessComplete s) (fun t => decide (reg t 4 = 0 ∧ tgtRead t tg 8 = 7)) = true := by decide +kernel
/-- R352: a store to a position that has stopped answering while other positions are reached. -/
theorem witness_ViolationsReadFill_silent :
    let a := { store8 with tgt := .peer 5 0x1000 false }
    let s := { linkUp (waitingFor a) with silent := [5] }
    reaches s 5 = false ∧ reaches s 6 = true ∧ performable s s.ev.tid a = true ∧ lateFault s s.ev.tid a = none ∧
      gives (exec .memoryAccessComplete s) (fun t => decide ((running t).fflags = 0x40 ∧ memRead t.mem 24 8 = 4 ∧ t.peer = [])) = true := by
  decide +kernel
/-- R388: a wmpub that waits for a store to such a position. -/
theorem witness_BarriersAndWatermarks_silent :
    let a := { store8 with tgt := .peer 5 0x1000 false }
    let s := { linkUp (alter (barred [] []) fun th => { writeG th 4 16 with out := [a] }) with silent := [5] }
    Ready s [4, 5] ∧ (running s).out = [a] ∧ 5 ∈ s.silent ∧
      gives (exec (.wmpub 4 5) s) (fun t => decide ((running t).fflags = 0x40)) = true := by decide +kernel
/-- R281: at a budget of 0, leave while a copy of the thread holds a unit, and while one of another thread does. -/
def starved (th : Fin 4) (waiting : List (LeaveParty × Nat)) : State :=
  updCluster (withG 4 4) 0 fun c => { c with budget := 0, held := [(.copy 0 1 th, 1)], waiting := waiting }
theorem witness_LeaveIsReturnedAndAskedFor_own :
    (let s := starved 0 []
     Ready s [4] ∧ (getCluster s 0).budget < 1 ∧ (∀ x ∈ (getCluster s 0).held, partyOwner x.1 = partyOwner (.thread s.cur)) ∧
       gives (exec (.leave 4) s) (fun t => decide ((running t).leaveKinds = 4 ∧ (running t).pc = 0x30004)) = true) ∧
    gives (exec (.leave 4) (starved 1 [])) (fun t => decide ((running t).leaveKinds = 0 ∧ t.stalled = true)) = true ∧
    (let s := event (alter (starved 0 [(.thread (.vec 0 0 0), 2)]) fun th => { th with wait := .leave 6 }) fun e => e
     (getCluster s 0).budget < 2 ∧ (∀ x ∈ (getCluster s 0).held, partyOwner x.1 = partyOwner (.thread (.vec 0 0 0))) ∧
       gives (exec .leaveGrant s) (fun t => decide ((running t).leaveKinds = 6)) = true) := by refine ⟨?_, ?_, ?_⟩ <;> decide +kernel
/-- A micro-operation word of VTYPE's type (R248). -/
def node (code dst a b : Nat) : Word := BitVec.ofNat 64 (code * 2 ^ 58 + dst * 2 ^ 54 + a * 2 ^ 49 + b * 2 ^ 44 + 15 * 2 ^ 35)
/-- A pattern of some nodes over the chain of v4 (3 and -1), its mask field m, with a PCARRY of 2. -/
def patterned (m : MaskF) (ws : List Word) : State :=
  let s := updCtx (onChain (two (.pat 3 4 4 m 7 0 0)) 1) 1 fun x =>
    { x with binds := [(7, { valid := true, reads := 0, len := ws.length, off := 0, words := [] })] }
  updCore (alter s fun th => { th with pcarry := 2 }) 0 0 fun c =>
    { c with store := (ws ++ [0]).zipIdx.map fun (p : Word × Nat) => (p.2, { ctx := 1, word := p.1, bad := false }) }
/-- R249, R250, R253: o0 + o1 to h0, h0 + PCARRY to the element, h0 + o0 to PCARRY, where m1 has the first element only; and a comparison
with PCARRY as the mask m2. -/
theorem witness_ResultsAreBuiltInCourses_patterns :
    (∀ x ∈ [((1 : MaskF), [node 1 0 0 1, node 1 8 8 16, node 1 10 8 0]), (2, [node 15 9 0 16, node 1 8 0 1])],
      let s := patterned x.1 x.2
      let c := getCore s 0 0
      let bd : Binding := { valid := true, reads := 0, len := x.2.length, off := 0, words := [] }
      s.ev.k = 0 ∧ (running s).vq = [two (.pat 3 4 4 x.1 7 0 0)] ∧ bindingOf (getCtx s 1) 7 = some bd ∧ patBad c bd = false ∧
        patWrites (patWords c bd) 8 = true ∧ illFormed (two (.pat 3 4 4 x.1 7 0 0)) = false ∧
        patIllTyped s s.ev.tid (two (.pat 3 4 4 x.1 7 0 0)) = false ∧ verifies (x.2 ++ [0]) = true ∧ (running s).out = [] ∧
        (takeFree c).map Prod.fst = some 6) ∧
    gives (exec .vectorCourse (patterned 1 [node 1 0 0 1, node 1 8 8 16, node 1 10 8 0])) (fun t => decide ((running t).pcarry = 9 ∧
      ((running t).vq.map fun e => (streamOf (getCore t 0 0) e.part).val) = [8])) = true ∧
    gives (exec .vectorCourse (patterned 2 [node 15 9 0 16, node 1 8 0 1])) (fun t => decide ((running t).pcarry = 2 ∧
      ((running t).vq.map fun e => (streamOf (getCore t 0 0) e.part).val % 2 ^ 64) = [6] ∧ (running t).m[2].getLsbD 0 = false)) = true := by
  refine ⟨?_, ?_, ?_⟩ <;> decide +kernel
/-- R290: a course of a load leaves no value taken early of its bytes. -/
theorem witness_ResultsAreBuiltInCourses_early :
    gives (exec .vectorCourse (alter (onChain (two (.load .unit 3 0x31000 0 0 0 0 false)) 1) fun th =>
      { th with early := [read4, { read4 with va := 0x31040, tgt := .dev 0x31040 false }] }))
      (fun t => decide ((running t).early.map (fun x => x.va) = [0x31040])) = true := by decide +kernel
/-- R284: a second PAT that writes PCARRY has not started while the first has not completed. -/
theorem test_carry_order :
    let s := alter (patterned 1 [node 1 10 0 1]) fun th => { th with vq := th.vq ++ th.vq.map fun e => { e with stamp := 1 } }
    started s s.cur 0 (two (.pat 3 4 4 1 7 0 0)) = true ∧ started s s.cur 1 { two (.pat 3 4 4 1 7 0 0) with stamp := 1 } = false := by
  decide +kernel
/-- R151: an exit behind a twait of a FILLED slot needs nobody else; behind one of a TARGET it does. -/
theorem test_exit_alone :
    entriesAlone (withSlot (.twait 3) filledSlot []) (.vec 0 0 0) = true ∧
      entriesAlone (withSlot (.twait 3) { filledSlot with st := .target } []) (.vec 0 0 0) = false := by decide +kernel
/-- R75: a chain of two leaves, one whose second leaf is held elsewhere, and one of five. -/
def dueChain (refs : Nat) (long : Bool) : State :=
  let l (last : Bool) (next refs : Nat) : Leaf := { idleLeaf with last := last, next := next, refs := refs }
  withCore fun c => { c with
    reclaim := [5]
    leaves := [(5, l false 6 0), (6, l (!long) 7 refs)] ++ if long then [(7, l false 8 1), (8, l false 9 1), (9, l true 0 1)] else [] }
theorem witness_CoreUnitsAtWork_reclaim :
    (let s := dueChain 1 false
     (getCore s 0 0).reclaim = [5] ∧ (getCore s 0 0).leaves.Pairwise (fun p q => p.1 < q.1) ∧ ([5, 6] : List Nat).Nodup ∧
       (leafAt (getCore s 0 0) 5).last = false ∧ (leafAt (getCore s 0 0) 5).next = 6 ∧ (leafAt (getCore s 0 0) 6).last = true ∧
       gives (exec .reclaimStep s) (fun t => decide ((getCore t 0 0).leaves = [] ∧ (getCore t 0 0).freed = [5, 6])) = true) ∧
    (let s := dueChain 2 false
     1 < (leafAt (getCore s 0 0) 6).refs ∧
       gives (exec .reclaimStep s) (fun t => decide ((getCore t 0 0).freed = [5] ∧ (leafAt (getCore t 0 0) 6).refs = 1)) = true) ∧
    (let s := dueChain 1 true
     ([5, 6, 7, 8] : List Nat).length = 4 ∧ 9 ∉ ([5, 6, 7, 8] : List Nat) ∧
       (∀ y ∈ [5, 6, 7, 8], (mapFind (getCore s 0 0).leaves y).map (fun m => m.refs) = some (if y = 5 then 0 else 1)) ∧
       gives (exec .reclaimStep s) (fun t => decide ((getCore t 0 0).freed = [5, 6, 7, 8] ∧ (getCore t 0 0).reclaim = [9])) = true) := by
  refine ⟨?_, ?_, ?_⟩ <;> decide +kernel
/-- R212, R363: a copy joins its queue, with a share of its index chain, or waits behind sixteen. -/
theorem witness_CoreUnitsAtWork_handOff :
    (∀ k ∈ [CopyKind.cpy, .cpyg],
      let op : VOp := .copy { shapeless with kind := k, vidx := 4, q := 1 }
      let s := withSlot op Slot.reset []
      s.ev.k = 0 ∧ (running s).vq = [two op] ∧ illFormed (two op) = false ∧ (getCore s 0 0).cqs[1].length < 16 ∧ (running s).v[4].len ≠ 0 ∧
        (leafAt (getCore s 0 0) 5).refs < 63 ∧
        gives (exec .vectorCourse s) (fun t => decide (((getCore t 0 0).cqs[1].map fun x => x.op.kind) = [k] ∧
          (leafAt (getCore t 0 0) 5).refs = if k = .cpyg then 2 else 1)) = true) ∧
    (let s := updCore (withSlot (.copy { shapeless with q := 1 }) Slot.reset []) 0 0 fun c => { c with cqs := c.cqs.set 1 (List.replicate 16 fillRow) }
     16 ≤ (getCore s 0 0).cqs[1].length ∧
       gives (exec .vectorCourse s) (fun t => decide ((getCore t 0 0).cqs[1].length = 16 ∧ (running t).vq.map (fun e => e.stalled) = [true])) = true) := by
  refine ⟨?_, ?_⟩ <;> decide +kernel
/-- R368: a started launch of a context that is swapped out keeps its level. -/
theorem witness_LaunchesRun_still :
    let s := event { oneLaunch { placeLaunch with partials := [(0, (0, 1))] } with ctxs := [(1, { placeContext with res := false })] } fun e => e
    mayRun s placeLaunch.ctx = false ∧ getLaunch s s.ev.n = some { placeLaunch with partials := [(0, (0, 1))] } ∧
      gives (exec .launchAgeing s) (fun t => decide ((getLaunch t 0).map (fun x => x.level) = some placeLaunch.level)) = true := by decide +kernel
/-- Core 0 of cluster 0 is asked to leave; it has no iteration, and core 1 has one or not. -/
def asked (gang busy : Bool) : State :=
  let s := { contended with launches := [(0, { placeLaunch with gang := gang })] }
  let s1 := updThread s (.vec 0 0 0) fun th => { th with preq := true }
  event (if busy then updThread s1 (.vec 0 1 0) fun th => { th with launch := some 0, tstate := .running } else s1) fun e => e
/-- R342, R362: a core with nothing to save, of a launch, of a GANG share at its end and of one at work. -/
theorem witness_CoresAndContextsMove_empty :
    (∀ g ∈ [true, false], ∀ b ∈ [true, false],
      let s := asked g b
      (getCore s 0 0).launch = some 0 ∧ (getCore s 0 0).lastCtx = some 1 ∧ (getCore s 0 0).reclaim = [] ∧ s.ev.flag = false ∧
        (getThread s (.vec 0 0 0)).preq = true ∧ (∀ h : Fin 4, saveable s (.vec 0 0 h) = true) ∧ coreIdle s 0 0 = true ∧
        copiesDone (getCore s 0 0) = true ∧ isGang s 0 = g ∧ coreIdle s 0 1 = !b ∧
        gives (exec .coreSave s) (fun t => decide ((getCore t 0 0).launch = if g && b then some 0 else none)) = true) := by decide +kernel
/-- A core to be saved whose thread's image takes a page at 0x50000, with a directory or not, of a GANG share or not. -/
def saving (gang busy : Bool) (dir : Nat) : State :=
  let s := alter base fun th => { th with preq := true, img := 0x50000 }
  let s1 := updCtx { s with launches := s.launches.map fun p => (p.1, { p.2 with gang := gang }) } 1 fun x => { x with imgdir := dir }
  event (if busy then updThread (updCore s1 0 1 fun c => { c with launch := some 0, lastCtx := some 1 }) (.vec 0 1 0) fun th =>
    { th with launch := some 0, tstate := .running } else s1) fun e => e
theorem witness_CoresAndContextsMove_pages :
    ∀ g ∈ [true, false], ∀ b ∈ [true, false], ∀ d ∈ [0, 0x60000],
      let s := saving g b d
      MemoriesOk s ∧ (getCore s 0 0).launch = some 0 ∧ (getCore s 0 0).lastCtx = some 1 ∧ (∀ h : Fin 4, saveable s (.vec 0 0 h) = true) ∧
        coreIdle s 0 0 = false ∧ (getThread s (.vec 0 0 0)).launch ≠ none ∧ pageFits s 0x50000 = true ∧ s.ev.pairs = [] ∧ s.queues = [] ∧
        (∀ j : Fin 4, j ≠ 0 → (getThread s (.vec 0 0 j)).img = 0) ∧ (getCtx s 1).imgdir = d ∧ s.images = [] ∧ isGang s 0 = g ∧
        coreIdle s 0 1 = !b ∧ (getCluster s 0).mccLaunch = none := by decide +kernel
/-- R342: a saved core of a GANG share comes back to its cluster, and all eight cores are the share's. -/
theorem witness_CoresAndContextsMove_share :
    let i : Image := { mccImage with cl := 0, isMcc := false, core := some Core.reset, threads := List.replicate 4 Thread.reset }
    let x := { placeLaunch with gang := true }
    let s := { oneLaunch x with images := [(0, i)] }
    mapFind s.images s.ev.k = some i ∧ getLaunch s 0 = some x ∧ mayRun s 1 = true ∧ mayRestore s i x 0 0 = true ∧ mccAllows s 0 0 x = true ∧
      comesFirst s 0 (takers s 0 0) 0 x = true ∧
      gives (exec .coreRestore s) (fun t => decide (∀ j, (getCore t 0 j).launch = some 0)) = true := by decide +kernel
/-- R352, R373: the positions that do not answer once a link has gone down or come up. -/
theorem witness_LinksHostAndRootAct_silent :
    (let s := event (linkUp base) fun e => { e with flag := true, bytes := [5, 9] }
     (getLink s 0).st = .up ∧ gives (exec .linkDown s) (fun t => decide (t.silent = [5, 9] ∧ (getLink t 0).st = .down)) = true) ∧
    (let s := event { base with links := [(0, { Link.reset with st := .training })], silent := [5] } fun e => { e with flag := true }
     s.root.boot = .running ∧ gives (exec .linkRetrain s) (fun t => decide (t.silent = [] ∧ (getLink t 0).st = .up)) = true) := by
  refine ⟨?_, ?_⟩ <;> decide +kernel

end Sys2Proof.Tests
end

section
/-!
The state's operations as the proofs use them: the cases of the dispatch, the putting back of one thread's record, faults that no
user handler takes, and the read queue as it settles.
-/

namespace Sys2Proof.Proofs

open Sys2Proof Sys2Proof.Machine Sys2Proof.Safety Sys2Proof.Laws

theorem othersKept_trans {t : Tid} {s u v : State} (h : OthersKept t s u) (k : OthersKept t u v) : OthersKept t s v := by
  obtain ⟨hthreads, hrest, hbytes⟩ := h
  obtain ⟨kthreads, krest, kbytes⟩ := k
  refine ⟨fun x hx => (kthreads x hx).trans (hthreads x hx), ?_, fun a => ?_⟩
  · rw [krest, hrest]
  · obtain ⟨h1, h2, h3⟩ := hbytes a
    obtain ⟨k1, k2, k3⟩ := kbytes a
    exact ⟨k1.trans h1, k2.trans h2, k3.trans h3⟩

@[simp] theorem getThread_updThread_self (s : State) (t : Tid) (f : Thread → Thread) :
    getThread (updThread s t f) t = f (getThread s t) := getThread_putThread_self s t _

theorem getThread_updThread_other (s : State) {t u : Tid} (f : Thread → Thread) (h : u ≠ t) :
    getThread (updThread s t f) u = getThread s u := getThread_putThread_other s _ h

/-- XPC's form of an address (R357) is its low 52 bits, sign-extended. -/
theorem canon52_eq_signExtend (w : Word) : canon52 w = (w.setWidth 52).signExtend 64 := by
  have key : toSigned 52 w.toNat = (w.setWidth 52).toInt := by
    rw [BitVec.toInt_eq_toNat_cond, BitVec.toNat_setWidth, toSigned]
    split <;> split <;> omega
  simp only [canon52, extend, if_true, key]
  rfl

/-- XCAUSE of a scalar event (R357). -/
theorem causeWord_scalar (handler : Bool) (c : Nat) :
    causeWord handler false c = BitVec.ofNat 64 (if handler = true ∧ c ≠ 0x13 then 0x13 + 2 ^ 8 * c else c) := by
  simp [causeWord, Nat.mul_comm]

/-- The report of a scalar event but no progress, of an instruction at `pc` (R128, R357). -/
theorem report_scalar (th : Thread) {c : Nat} (hc : c ≠ 0x0A) (info : Nat) (pc : Word) :
    ({ report th (causeInfo c info) none pc with tstate := .stopped, wait := .none, rq := freezeItems th } : Thread) =
      { stoppedAt { th with pc := pc, rq := freezeItems th } c info with pc := th.pc } := by
  have hstrip : (report th (causeInfo c info) none pc).strip = th.strip := if_neg hc
  have hcause : (report th (causeInfo c info) none pc).xcause = _ := causeWord_scalar (inHandler th) c
  have hpc : (report th (causeInfo c info) none pc).xpc = _ := canon52_eq_signExtend pc
  simp only [hstrip, hcause, hpc]
  rfl

/-- A cause that no user handler takes stops the thread, with the report of a scalar event at `xpc` (R128, R277). -/
theorem takeFault_unroutable (s : State) {t : Tid} {c : Nat} (hc : routable t c = false) (info : Nat) (xpc xret : Word) :
    takeFault s t (causeInfo c info) none xpc xret =
      putThread s t { stoppedAt { getThread s t with pc := xpc, rq := freezeItems (getThread s t) } c info with
        pc := (getThread s t).pc } := by
  have h10 : c ≠ 0x0A := fun e => by simp [e, routable] at hc
  have hr : routed t (getThread s t) (causeInfo c info).cause = false := by simp [routed, causeInfo, hc]
  simp only [takeFault, hr, Bool.false_eq_true, if_false, report_scalar _ h10]

/-- An instruction that meets such a cause raises it for Usilaem (R113, R128). -/
theorem raises_unroutable (s : State) {c : Nat} (hc : routable s.cur c = false) (info : Nat) (b : Bool) :
    Raises s (raise s s.cur (causeInfo c info) b) c info b := by
  refine ⟨fun hq => ?_, fun hq => ?_⟩
  · have hq' : (getThread s s.cur).vq = [] := hq
    rw [raise_now hq', takeFault_unroutable s hc, freezeItems_nil hq']
    exact becomes_put s _
  · exact ⟨_, raise_later hq _ _, rfl, bytesKept_refl s, getThread_putThread_self s s.cur _⟩

theorem queueKept_refl (l : List RqItem) : QueueKept l l := by
  refine ⟨rfl, fun i x y hx hy => ?_⟩
  obtain rfl : x = y := Option.some.inj (hx.symm.trans hy)
  exact ⟨rfl, fun _ => rfl, fun _ => rfl⟩

/-- A csrr of the read queue gets at most its value as the queue settles (R58, R87). -/
theorem settleItem_kept (s : State) (t : Tid) (x : RqItem) :
    settleItem s t x = { x with val := (settleItem s t x).val } ∧ (x.csr = none ∨ x.val ≠ none → settleItem s t x = x) := by
  unfold settleItem
  split
  next n hv hc =>
    dsimp only
    split
    · exact ⟨rfl, fun h => by simp [hv, hc] at h⟩
    · exact ⟨rfl, fun _ => rfl⟩
  next => exact ⟨rfl, fun _ => rfl⟩

theorem queueKept_settle (s : State) (t : Tid) (l : List RqItem) : QueueKept l (l.map (settleItem s t)) := by
  refine ⟨List.length_map _, fun i x y hx hy => ?_⟩
  have hy' : settleItem s t x = y := by simpa [hx] using hy
  obtain ⟨hfields, hsame⟩ := settleItem_kept s t x
  rw [hy'] at hfields hsame
  have hbase : y.base = x.base := by rw [hfields]
  exact ⟨by rw [hbase]; exact hfields, fun h => by rw [hsame h], fun _ => hbase⟩

theorem sameButCsr_of_rq (th : Thread) {l : List RqItem} (h : QueueKept th.rq l) : SameButCsr th { th with rq := l } := by
  refine ⟨rfl, h, ?_⟩
  dsimp only
  cases th.frozen with
  | none => trivial
  | some f => exact ⟨rfl, queueKept_refl _⟩

/-- The settling of the read queue changes only what csrr have met. -/
theorem sameButCsr_settleQueue (s : State) (t : Tid) : SameButCsr (getThread s t) (getThread (settleQueue s t) t) := by
  rw [settleQueue, getThread_putThread_self]
  exact sameButCsr_of_rq _ (queueKept_settle s t _)

theorem othersKept_settleQueue (s : State) (t : Tid) : OthersKept t s (settleQueue s t) := othersKept_put s t _

end Sys2Proof.Proofs
end

section
/-! The parcel that a fetch from device memory delivers (R3, R88, R89). -/
namespace Sys2Proof.Proofs

open Sys2Proof Sys2Proof.Machine Sys2Proof.Safety Sys2Proof.Laws

/-- Four bytes from an address, the first lowest (R3). -/
theorem memRead_four (m : Memory) (a : Nat) :
    memRead m a 4 = (memGet m a).toNat + 2 ^ 8 * (memGet m (a + 1)).toNat + 2 ^ 16 * (memGet m (a + 2)).toNat +
      2 ^ 24 * (memGet m (a + 3)).toNat := by
  simp only [memRead, Nat.add_assoc, Nat.reduceAdd]
  omega

/-- Settles O5: device memory is read in place, so the fetch is one read of four bytes. -/
theorem fetchReadsFourBytes : Obligations.FetchReadsFourBytes := by
  intro s t va pa ser h
  simp only [fetchParcel, h, currentTarget, tgtRead, memRead_four]

end Sys2Proof.Proofs
end

section
/-!
What a write of a user CSR leaves of a thread's record, whether an instruction or Usilaem writes it (R5, R87, R155, R156, R349).
-/

namespace Sys2Proof.Proofs

open Sys2Proof Sys2Proof.Machine Sys2Proof.Safety Sys2Proof.Laws

theorem exec_csrw (a : Reg) (n : Fin 4096) (s : State) : exec (.csrw a n) s = csrWrite s a n.val 4 := rfl

/-- What a write of a CSR waits for (R58, R87). -/
theorem writeHeld_iff (th : Thread) (n : Nat) :
    writeHeld th n = true ↔ (th.vq ≠ [] ∧ n ∈ [0x002, 0x008, 0x00A]) ∨ (th.out ≠ [] ∧ n = 0x008) ∨
      ¬ ∀ x ∈ th.rq, x.val = none → x.csr ≠ some n := by
  simp [writeHeld, writeWaits, and_comm, or_assoc]

theorem writeHeld_eq_false {th : Thread} {n : Nat} (hq : n ∈ [0x002, 0x008, 0x00A] → th.vq = [])
    (ho : n = 0x008 → th.out = []) (hr : ∀ x ∈ th.rq, x.val = none → x.csr ≠ some n) : writeHeld th n = false := by
  rw [Bool.eq_false_iff, Ne, writeHeld_iff]
  rintro (⟨h, hn⟩ | ⟨h, hn⟩ | h)
  · exact h (hq hn)
  · exact h (ho hn)
  · exact h hr

theorem csrWritten_mcc {t : Tid} (ht : isMcc t = true) {n : Nat} (hn : absentOnMcc n = true) (th : Thread) (w : Word) :
    csrWritten t th n w = th := by
  simp [csrWritten, ht, hn]

/-- A CSR that its thread has is written as on a vector core, whose threads have all of them. -/
theorem csrWritten_present {t : Tid} {n : Nat} (h : isMcc t = false ∨ absentOnMcc n = false) (th : Thread) (w : Word) :
    csrWritten t th n w = csrWritten (.vec 0 0 0) th n w := by
  have ht : (isMcc t && absentOnMcc n) = false := by rcases h with h | h <;> simp [h]
  have hc : (isMcc (.vec 0 0 0) && absentOnMcc n) = false := rfl
  simp only [csrWritten, ht, hc]

/-- A csrw of PCARRY in a handler: the frozen entries go on with the value from before the first of them (R87). -/
theorem csrWritten_pcarry (th : Thread) (w : Word) :
    csrWritten (.vec 0 0 0) th 0x00A w =
      { th with
        pcarry := w
        frozen := th.frozen.map fun f =>
          { f with carry := some (match f.carry with | some c => c | none => th.pcarry), wrote := true } } := by
  have h (f : Frozen) :
      (f.carry.orElse fun _ => some th.pcarry) = some (match f.carry with | some c => c | none => th.pcarry) := by
    cases f.carry <;> rfl
  show writePcarry th w = _
  simp only [writePcarry, h]

section
variable {t : Tid} {th : Thread} {w : Word} {n : Nat} {B : Thread → Prop} {finish : Thread → Thread}
  {l : List (Nat × Thread)} {ns : List Nat} (hl : l = ns.map fun k => (k, finish (csrWritten (.vec 0 0 0) th k w)))
  (h : n ∈ ns → B (finish (csrWritten t th n w)))
include hl h

/-- A table of written records of CSRs that every thread has, looked up at the CSR that is written. -/
theorem written_everywhere (hns : ∀ k ∈ ns, absentOnMcc k = false) : ∀ p ∈ l, p.1 = n → B p.2 := by
  intro p hp hn
  rw [hl, List.mem_map] at hp
  obtain ⟨k, hk, rfl⟩ := hp
  obtain rfl : k = n := hn
  have := h hk
  rwa [csrWritten_present (.inr (hns k hk))] at this

/-- The same of CSRs that an MCC does not have, whose threads stay as they are (R156). -/
theorem written_onCores (hns : ∀ k ∈ ns, absentOnMcc k = true) :
    ∀ p ∈ l, p.1 = n → B (if isMcc t then finish th else p.2) := by
  intro p hp hn
  rw [hl, List.mem_map] at hp
  obtain ⟨k, hk, rfl⟩ := hp
  obtain rfl : k = n := hn
  have := h hk
  cases ht : isMcc t with
  | true => rwa [csrWritten_mcc ht (hns k hk)] at this
  | false => rwa [csrWritten_present (.inl ht)] at this

end

theorem csrFault_user (th : Thread) {n : Nat} (hn : n < 0x020) : csrFault th n = none := if_pos hn

section
variable {s : State} {a : Reg} {n : Fin 4096}

/-- A csrw of a user CSR whose write waits for nothing (R155). -/
theorem csrw_writes (hr : Ready s [a]) (hn : n.val < 0x020) (hh : writeHeld (running s) n.val = false) :
    Becomes s (exec (.csrw a n) s) (advance (csrWritten s.cur (running s) n.val (reg s a)) 4) := by
  simp only [exec_csrw, csrWrite, csrFault_user _ hn, withRegs_ready hr, hh]
  exact becomes_retire s _ 4

theorem csrw_waits (hr : Ready s [a]) (hn : n.val < 0x020) (hh : writeHeld (running s) n.val = true) :
    Waits s (exec (.csrw a n) s) := by
  simp only [exec_csrw, csrWrite, csrFault_user _ hn, withRegs_ready hr, hh]
  rfl

/-- The numbers from 0x020 on are no user CSRs (R87, R155). -/
theorem csrw_illegal (h1 : 0x020 ≤ n.val) (h2 : n.val < 0x800) :
    Raises s (exec (.csrw a n) s) 0x01 (running s).ir.toNat true := by
  have hf : csrFault (getThread s s.cur) n.val = some (causeInfo 0x01 (running s).ir.toNat) := by
    rw [csrFault, if_neg (by omega), if_pos h2]
    rfl
  simp only [exec_csrw, csrWrite, hf]
  exact raises_unroutable s (by simp [routable]) _ _

theorem csrw_protected (h : 0x800 ≤ n.val) : Raises s (exec (.csrw a n) s) 0x07 n.val true := by
  have hf : csrFault (getThread s s.cur) n.val = some (causeInfo 0x07 n.val) := by
    rw [csrFault, if_neg (by omega), if_neg (by omega)]
  simp only [exec_csrw, csrWrite, hf]
  exact raises_unroutable s (by simp [routable]) _ _

end

/-- The CSRs that every thread has and for whose write only a csrr of them is waited for (R86, R87, R156). -/
def plainCsrs : List Nat :=
  [0x004, 0x009, 0x014, 0x015, 0x016, 0x017, 0x018, 0x019, 0x01A, 0x01B, 0x01C, 0x00C, 0x00D, 0x00E, 0x00F, 0x011, 0x012, 0x013,
   0x01F]

/-- Such CSRs of the threads of the vector cores alone (R156). -/
def plainCoreCsrs : List Nat := [0x005, 0x007, 0x00B, 0x000, 0x001, 0x003, 0x006, 0x010, 0x01D, 0x01E]

/-- Settles O33: a csrw waits just when the write is held, and else leaves the record that the table of writable bits gives. -/
theorem csrWrites : Obligations.CsrWrites := by
  intro s a n hr t th w on both vector B read
  have done (h : read) (hn : n.val < 0x020) (hq : n.val ∈ [0x002, 0x008, 0x00A] → th.vq = [])
      (ho : n.val = 0x008 → th.out = []) : B (advance (csrWritten t th n.val w) 4) :=
    csrw_writes hr hn (writeHeld_eq_false hq ho h)
  have plain (h : read) (hn : n.val ∈ plainCsrs ++ plainCoreCsrs) : B (advance (csrWritten t th n.val w) 4) := by
    have small : ∀ k ∈ plainCsrs ++ plainCoreCsrs, k < 0x020 ∧ k ∉ [0x002, 0x008, 0x00A] ∧ k ≠ 0x008 := by decide
    obtain ⟨hlt, hq, ho⟩ := small _ hn
    exact done h hlt (absurd · hq) (absurd · ho)
  refine ⟨fun h => ⟨?_, ?_⟩, fun h hq => ⟨fun hn => ?_, fun hn ho => ?_, fun hn => ?_⟩, fun hlt hw => ?_,
    csrw_illegal, csrw_protected⟩
  · exact written_everywhere (finish := (advance · 4)) (ns := plainCsrs) rfl
      (fun hn => plain h (List.mem_append_left _ hn)) (by decide)
  · exact written_onCores (finish := (advance · 4)) (ns := plainCoreCsrs) rfl
      (fun hn => plain h (List.mem_append_right _ hn)) (by decide)
  · have := done h (by omega) (fun _ => hq) (by omega)
    rwa [hn, csrWritten_present (.inr rfl)] at this
  · have := done h (by omega) (fun _ => hq) (fun _ => ho)
    rwa [hn, csrWritten_present (.inr rfl)] at this
  · have := done h (by omega) (fun _ => hq) (by omega)
    rw [hn] at this
    cases ht : isMcc t with
    | true => rwa [csrWritten_mcc ht rfl] at this
    | false => rwa [csrWritten_present (.inl ht), csrWritten_pcarry] at this
  · exact csrw_waits hr hlt ((writeHeld_iff _ _).2 hw)

end Sys2Proof.Proofs
end

section
/-! The writes that Usilaem makes through the control space. -/

namespace Sys2Proof.Proofs

open Sys2Proof Sys2Proof.Machine Sys2Proof.Safety Sys2Proof.Laws

/-- Before the boot has ended nothing is there to write (R376; log 94). -/
theorem whenRunning_idle {s : State} (h : s.root.boot ≠ .running) (f : State → State) : whenRunning s f = .next s := by
  rw [whenRunning, if_neg h]

theorem whenRunning_on {s : State} (h : s.root.boot = .running) (f : State → State) : whenRunning s f = .next (f s) := by
  rw [whenRunning, if_pos h]

/-! Each register write is done once the boot has ended. -/

theorem exec_lbudWrite (s : State) :
    exec .lbudWrite s = whenRunning s fun s => updThread s s.ev.tid fun th => writeLbud th s.ev.word := rfl
theorem exec_fflagsWrite (s : State) : exec .fflagsWrite s = whenRunning s fun s =>
    if !writeHeld (getThread s s.ev.tid) 0x008 then updThread s s.ev.tid fun th => writeFflags th s.ev.word else s := rfl
theorem exec_vstartWrite (s : State) : exec .vstartWrite s = whenRunning s fun s =>
    if !writeHeld (getThread s s.ev.tid) 0x002 then updThread s s.ev.tid fun th => writeVstart th s.ev.word else s := rfl
theorem exec_clmodeWrite (s : State) :
    exec .clmodeWrite s = whenRunning s fun s => updThread s s.ev.tid fun th => writeClmode th s.ev.word := rfl
theorem exec_preqWrite (s : State) : exec .preqWrite s = whenRunning s fun s => askPreempt s s.ev.tid s.ev.word := rfl
theorem exec_tswpWrite (s : State) : exec .tswpWrite s = whenRunning s fun s => writeTswp s s.ev.tid s.ev.word := rfl
theorem exec_registerWrite (s : State) :
    exec .registerWrite s = whenRunning s fun s => writeRegister s s.ev.tid s.ev.n s.ev.word := rfl

/-- PREQ is set only while the core, or the MCC, has a launch whose work a save would take (R349, R362; log 95). -/
theorem askPreempt_eq (s : State) (t : Tid) (w : Word) :
    askPreempt s t w =
      if (if isMcc t = true then (getThread s t).launch ≠ none else (getCore s (clusterOf t) (coreOf t)).launch ≠ none) then
        updThread s t fun th => writePreq th w
      else s := by
  cases h : isMcc t <;> simp [askPreempt, h, Option.isSome_iff_ne_none]

theorem writePreq_eq (th : Thread) (w : Word) : writePreq th w = { th with preq := th.preq || w.getLsbD 0 } := by
  have h : bitAt w.toNat 0 = w.getLsbD 0 := by simp [bitAt, BitVec.getLsbD, Nat.testBit_zero]
  rw [writePreq, h]

section
variable {s : State} (hb : s.root.boot = .running)
include hb

/-- REGISTER_WRITE of a CSR (R155, R349). -/
theorem registerWrite_csr (h : s.ev.n ≠ 0x012 ∧ s.ev.n ≠ 0x800 ∧ s.ev.n ≠ 0x803) :
    exec .registerWrite s = .next (updThread s s.ev.tid fun th => csrWritten s.ev.tid th s.ev.n s.ev.word) := by
  obtain ⟨h1, h2, h3⟩ := h
  rw [exec_registerWrite, whenRunning_on hb, writeRegister, if_neg h1, if_neg h2, if_neg h3]

theorem tswpWrite_mcc (ht : isMcc s.ev.tid = true) : exec .tswpWrite s =
    .next (updCluster s (clusterOf s.ev.tid) fun c => { c with tsw := c.tsw &&& ~~~(s.ev.word.setWidth 8) }) := by
  rw [exec_tswpWrite, whenRunning_on hb, writeTswp, if_pos ht]

theorem tswpWrite_core (ht : isMcc s.ev.tid = false) : exec .tswpWrite s = .next s := by
  rw [exec_tswpWrite, whenRunning_on hb, writeTswp, ht]
  rfl

end

/-- The CSRs that REGISTER_WRITE may name beside COORD and that every thread has. -/
def namedCsrs : List Nat :=
  [0x002, 0x004, 0x008, 0x009, 0x014, 0x015, 0x016, 0x017, 0x018, 0x019, 0x01A, 0x01B, 0x01C, 0x00C, 0x00D, 0x00E, 0x00F, 0x011,
   0x013, 0x01F]

/-- Settles O49: each event puts the named thread's record back with the register written, or does nothing. -/
theorem controlSpaceWrites : Obligations.ControlSpaceWrites := by
  intro s t w th c B free busy
  have upd {i : Instr} {f : Thread → Thread} (h : exec i s = .next (updThread s t f)) : B i (f th) :=
    ⟨_, h, getThread_updThread_self s t f, othersKept_upd s t f⟩
  have hfree (n : Nat) (hn : n ∈ [0x002, 0x008, 0x00A]) : writeHeld th n = true ↔ ¬ free n ∨ th.out ≠ [] ∧ n = 0x008 := by
    rw [writeHeld_iff]
    simp only [free]
    tauto
  refine ⟨fun h => ?_, fun hb => ?_⟩
  · simp only [List.forall_mem_cons, List.not_mem_nil, exec_lbudWrite, exec_fflagsWrite, exec_vstartWrite, exec_clmodeWrite,
      exec_preqWrite, exec_tswpWrite, exec_registerWrite, whenRunning_idle h]
    simp
  have csr (h : s.ev.n ∈ namedCsrs ++ 0x00A :: plainCoreCsrs) : B .registerWrite (csrWritten t th s.ev.n w) := by
    have apart : ∀ k ∈ namedCsrs ++ 0x00A :: plainCoreCsrs, k ≠ 0x012 ∧ k ≠ 0x800 ∧ k ≠ 0x803 := by decide
    exact upd (registerWrite_csr hb (apart _ h))
  refine ⟨?_, fun h ho => ?_, fun h => ?_, fun h => ?_, fun h => ?_, fun hn => ?_, ?_, fun h => ?_, fun h => ?_, fun ht => ?_,
    tswpWrite_core hb, fun hn => ?_, fun hn => ?_, ?_, ?_⟩
  · exact upd (by rw [exec_lbudWrite, whenRunning_on hb])
  · have hw : writeHeld th 0x008 = false := by simpa [ho, h] using hfree 0x008
    exact upd (f := (writeFflags · w)) (by rw [exec_fflagsWrite, whenRunning_on hb, hw]; rfl)
  · have hw : writeHeld th 0x002 = false := by simpa [h] using hfree 0x002
    exact upd (f := (writeVstart · w)) (by rw [exec_vstartWrite, whenRunning_on hb, hw]; rfl)
  · have hw : writeHeld th 0x008 = true := by simpa [h] using hfree 0x008
    rw [exec_fflagsWrite, whenRunning_on hb, hw]
    rfl
  · have hw : writeHeld th 0x002 = true := by simpa [h] using hfree 0x002
    rw [exec_vstartWrite, whenRunning_on hb, hw]
    rfl
  · rw [exec_registerWrite, whenRunning_on hb, writeRegister, if_pos hn]
    rfl
  · exact upd (by rw [exec_clmodeWrite, whenRunning_on hb])
  · have := upd (i := .preqWrite) (by rw [exec_preqWrite, whenRunning_on hb, askPreempt_eq, if_pos h])
    rwa [writePreq_eq] at this
  · rw [exec_preqWrite, whenRunning_on hb, askPreempt_eq, if_neg h]
  · exact ⟨_, tswpWrite_mcc hb ht, rfl, getCluster_putCluster_self _ _ _, fun k hk => getCluster_putCluster_other _ _ hk⟩
  · exact upd (by rw [exec_registerWrite, whenRunning_on hb, writeRegister, if_neg (by omega), if_pos hn])
  · exact upd (by rw [exec_registerWrite, whenRunning_on hb, writeRegister, if_neg (by omega), if_neg (by omega), if_pos hn])
  · exact written_everywhere (finish := id) (ns := namedCsrs) rfl (fun h => csr (List.mem_append_left _ h)) (by decide)
  · refine written_onCores (finish := id) (ns := plainCoreCsrs ++ [0x00A]) ?_ (fun h => csr ?_) (by decide)
    · simp only [plainCoreCsrs, List.map_append, List.map_cons, List.map_nil, csrWritten_pcarry]
      rfl
    · simpa [or_comm] using Or.inr h

end Sys2Proof.Proofs
end

section
/-!
One scalar access as it is performed (R136 to R139, R289, R290): what stops it, what a load gives its register, and the bytes of a
store, queue blocks included (R5, R331).
-/

namespace Sys2Proof.Proofs

open Sys2Proof Sys2Proof.Machine Sys2Proof.Safety Sys2Proof.Laws

theorem exec_memoryAccessComplete (s : State) : exec .memoryAccessComplete s =
    .next (if s.ev.flag then earlyStep s s.ev.tid else accessStep s s.ev.tid s.ev.k) := rfl

/-- A thread that may not issue takes no value early. -/
theorem earlyStep_idle {s : State} {t : Tid}
    (h : (getThread s t).tstate ≠ .running ∨ (getThread s t).wait ≠ .none ∨ (getThread s t).pend ≠ none) : earlyStep s t = s := by
  rw [earlyStep]
  rcases h with h | h | h <;> simp [h]

/-- A value taken early of own memory or of a scratchpad is noted, in place of those of the same bytes (R291; log 2). -/
theorem earlyStep_own {s : State} {t : Tid} {tg : Target} (hrun : (getThread s t).tstate = .running)
    (hwait : (getThread s t).wait = .none) (hpend : (getThread s t).pend = none) (hn : s.ev.n ∈ [1, 2, 4, 8])
    (htg : accessTarget s (partyOf s t) s.ev.word s.ev.n s.ev.n .load = .ok tg)
    (hown : (∃ pa ser, tg = .dev pa ser) ∨ ∃ key, tg = .spad key)
    (hready : readReady s t tg s.ev.n = true) (haside : readAside s t tg s.ev.n = false) :
    earlyStep s t = updThread s t fun th =>
      { th with early := (th.early.filter fun e => !touches e.tgt e.size tg s.ev.n) ++
          [{ va := s.ev.word, size := s.ev.n, tgt := tg, val := tgtRead s tg s.ev.n }] } := by
  have hn' : s.ev.n = 1 ∨ s.ev.n = 2 ∨ s.ev.n = 4 ∨ s.ev.n = 8 := by simpa using hn
  have htarget : earlyTarget s t s.ev.word s.ev.n = some tg := by
    rcases hown with ⟨pa, ser, rfl⟩ | ⟨key, rfl⟩ <;> simp [earlyTarget, htg, hready, haside]
  simp only [earlyStep, hrun, hwait, hpend, readEarly, if_pos hn', htarget]
  rfl

theorem dropAt_eq {α : Type} (l : List α) (k : Nat) : dropAt l k = l.take k ++ l.drop (k + 1) := by
  induction l generalizing k with
  | nil => simp [dropAt]
  | cons x r ih =>
    cases k with
    | zero => simp [dropAt]
    | succ k => simp [dropAt, ih]

/-- The thread's record once access k is no longer outstanding, with the values taken early that it leaves (log 2). -/
def takenOff (th : Thread) (k : Nat) (a : Access) : Thread :=
  { th with out := th.out.take k ++ th.out.drop (k + 1), early := earlyAfter th.early a }

/-- An access that its order lets be performed leaves the list of those outstanding and is performed, or raises its fault. -/
theorem accessStep_performable {s : State} {t : Tid} {k : Nat} {a : Access} (hk : (getThread s t).out[k]? = some a)
    (hp : performable s t a = true) :
    accessStep s t k = settleQueue (performOrFault (putThread s t (takenOff (getThread s t) k a)) t a) t := by
  simp only [accessStep, hk, if_pos hp, updThread, dropAt_eq, takenOff]

/-- What an access meets depends on its thread's context and launch, not on its other accesses. -/
theorem padLost_takenOff (s : State) (t : Tid) (k : Nat) (a b : Access) :
    padLost (putThread s t (takenOff (getThread s t) k b)) t a = padLost s t a := by
  have : partyOf (putThread s t (takenOff (getThread s t) k b)) t = partyOf s t := by
    simp [partyOf, takenOff]
  simp only [padLost, this]
  rfl

theorem lateFault_takenOff (s : State) (t : Tid) (k : Nat) (a b : Access) :
    lateFault (putThread s t (takenOff (getThread s t) k b)) t a = lateFault s t a := by
  have hctx : (getThread (putThread s t (takenOff (getThread s t) k b)) t).ctx = (getThread s t).ctx := by simp [takenOff]
  simp only [lateFault, padLost_takenOff, hctx]
  rfl

section
variable {s : State} {k : Nat} {a : Access} (hflag : s.ev.flag = false) (hev : s.ev.k = k)
  (hk : (getThread s s.ev.tid).out[k]? = some a) (hp : performable s s.ev.tid a = true)
include hflag hev hk hp

/-- MEMORY_ACCESS_COMPLETE of an access that meets no fault performs it. -/
theorem exec_access_performs (hf : lateFault s s.ev.tid a = none) : exec .memoryAccessComplete s = .next (settleQueue
    (performAccess (putThread s s.ev.tid (takenOff (getThread s s.ev.tid) k a)) s.ev.tid a) s.ev.tid) := by
  rw [exec_memoryAccessComplete, hflag, hev, if_neg Bool.false_ne_true, accessStep_performable hk hp, performOrFault,
    lateFault_takenOff, hf]

/-- MEMORY_ACCESS_COMPLETE of an access that meets a fault stops its running thread, with XPC its instruction (R128, R358). -/
theorem exec_access_stops {c info : Nat} (hf : lateFault s s.ev.tid a = some (accFault c info))
    (hc : routable s.ev.tid c = false) (hrun : (getThread s s.ev.tid).tstate = .running) :
    let base := takenOff (getThread s s.ev.tid) k a
    ∃ s', exec .memoryAccessComplete s = .next s' ∧ OthersKept s.ev.tid s s' ∧
      SameButCsr { stoppedAt { base with pc := a.pc, rq := freezeItems base } c info with pc := base.pc }
        (getThread s' s.ev.tid) := by
  intro base
  have hrun' : (getThread (putThread s s.ev.tid base) s.ev.tid).tstate = .running := by
    rw [getThread_putThread_self]
    exact hrun
  have hstep : accessStep s s.ev.tid k =
      settleQueue (takeFault (putThread s s.ev.tid base) s.ev.tid (causeInfo c info) none a.pc a.pc) s.ev.tid := by
    rw [accessStep_performable hk hp, performOrFault, lateFault_takenOff, hf]
    exact congrArg (settleQueue · s.ev.tid) (if_pos hrun')
  rw [takeFault_unroutable _ hc, getThread_putThread_self] at hstep
  refine ⟨_, by rw [exec_memoryAccessComplete, hflag, hev, if_neg Bool.false_ne_true, hstep], ?_, ?_⟩
  · exact othersKept_trans (othersKept_trans (othersKept_put s _ base) (othersKept_put _ _ _)) (othersKept_settleQueue _ _)
  · have := sameButCsr_settleQueue (putThread (putThread s s.ev.tid base) s.ev.tid
      { stoppedAt { base with pc := a.pc, rq := freezeItems base } c info with pc := base.pc }) s.ev.tid
    rwa [getThread_putThread_self] at this

end

theorem lateFault_padLost {s : State} {t : Tid} {a : Access} (h : padLost s t a = true) :
    lateFault s t a = some (accFault 0x09 (a.va.toNat - (getCtx s (getThread s t).ctx).spbase.toNat)) := if_pos h

theorem lateFault_poison {s : State} {t : Tid} {a : Access} (h : padLost s t a = false) (hk : a.kind ≠ .st)
    (hpoison : tgtPoison s a.tgt a.size = true) : lateFault s t a = some (accFault 0x12 a.va.toNat) := by
  simp [lateFault, meetsPoison, h, hk, hpoison]

theorem lateFault_none {s : State} {t : Tid} {a : Access} (h : padLost s t a = false)
    (hm : a.kind = .st ∨ tgtPoison s a.tgt a.size = false) : lateFault s t a = none := by
  rcases hm with hm | hm <;> simp [lateFault, meetsPoison, h, hm]

/-- The memory that a target lies in answers: that of a peer when a link is up and its position answers (R352, R374). -/
def Answers (s : State) : Target → Prop
  | .violation _ => False
  | .peer q _ _ => (∃ p ∈ s.links, p.2.st = .up) ∧ q ∉ s.silent
  | _ => True

theorem currentTarget_answers {s : State} {tg : Target} (h : Answers s tg) : currentTarget s tg = tg := by
  cases tg with
  | spad key => rfl
  | dev pa ser => rfl
  | violation c => exact h.elim
  | peer q pa ser =>
    obtain ⟨⟨p, hp, hup⟩, hq⟩ := h
    have hr : reaches s q = true := by
      simp only [reaches, anyLinkUp, Bool.and_eq_true, List.any_eq_true, decide_eq_true_eq]
      exact ⟨⟨p, hp, hup⟩, by simpa using hq⟩
    simp only [currentTarget, hr, if_true]

@[simp] theorem answers_putThread (s : State) (t : Tid) (th : Thread) (tg : Target) :
    Answers (putThread s t th) tg = Answers s tg := by cases tg <;> rfl

@[simp] theorem tgtRead_putThread (s : State) (t : Tid) (th : Thread) (tg : Target) (n : Nat) :
    tgtRead (putThread s t th) tg n = tgtRead s tg n := by cases tg <;> rfl

/-- A load of memory that answers gives its register the bytes that lie there (R136). -/
theorem doLoad_answers {s : State} {t : Tid} {a : Access} (h : Answers s a.tgt) (g : Bool) :
    doLoad s t a g = giveReg s t a.reg (extend g (8 * a.size) (tgtRead s a.tgt a.size)) := by
  rw [doLoad, currentTarget_answers h]
  split
  next c hc => rw [hc] at h; exact h.elim
  next => rfl

/-- MEMORY_ACCESS_COMPLETE of a load that meets no fault, of memory that answers. -/
theorem exec_load_performs {s : State} {k : Nat} {a : Access} (hflag : s.ev.flag = false) (hev : s.ev.k = k)
    (hk : (getThread s s.ev.tid).out[k]? = some a) (hp : performable s s.ev.tid a = true) (hf : lateFault s s.ev.tid a = none)
    {g : Bool} (hkind : a.kind = .ld g) (hans : Answers s a.tgt) :
    ∃ s', exec .memoryAccessComplete s = .next s' ∧ OthersKept s.ev.tid s s' ∧
      SameButCsr (writeG (takenOff (getThread s s.ev.tid) k a) a.reg (extend g (8 * a.size) (tgtRead s a.tgt a.size)))
        (getThread s' s.ev.tid) := by
  have hload : performAccess (putThread s s.ev.tid (takenOff (getThread s s.ev.tid) k a)) s.ev.tid a =
      giveReg (putThread s s.ev.tid (takenOff (getThread s s.ev.tid) k a)) s.ev.tid a.reg
        (extend g (8 * a.size) (tgtRead s a.tgt a.size)) := by
    rw [performAccess, hkind]
    dsimp only
    rw [doLoad_answers (by rwa [answers_putThread]), tgtRead_putThread]
  refine ⟨_, exec_access_performs hflag hev hk hp hf, ?_, ?_⟩ <;> rw [hload]
  · exact othersKept_trans (othersKept_trans (othersKept_put s _ _) (othersKept_upd _ _ _)) (othersKept_settleQueue _ _)
  · have := sameButCsr_settleQueue (giveReg (putThread s s.ev.tid (takenOff (getThread s s.ev.tid) k a)) s.ev.tid a.reg
      (extend g (8 * a.size) (tgtRead s a.tgt a.size))) s.ev.tid
    rwa [giveReg, getThread_updThread_self, getThread_putThread_self] at this

/-- Settles O25: an access is taken off the outstanding ones, and then stops its thread or gives its register what it read. -/
theorem loadsReadMemory : Obligations.LoadsReadMemory := by
  refine ⟨fun s n v tg hflag => ?_, fun s k a => ?_⟩
  · intro t th va
    refine ⟨fun h => ?_, fun hrun hwait hpend hn hmem htg hready haside hv => ?_⟩
    · rw [exec_memoryAccessComplete, hflag, if_pos rfl, earlyStep_idle h]
    · subst hn
      have hread : ((∃ pa ser, tg = .dev pa ser) ∨ ∃ key, tg = .spad key) ∧ v = tgtRead s tg s.ev.n := by
        cases tg with
        | dev pa ser => exact ⟨.inl ⟨pa, ser, rfl⟩, hv⟩
        | spad key => exact ⟨.inr ⟨key, rfl⟩, hv⟩
        | peer q pa ser => exact hv.elim
        | violation c => exact hv.elim
      obtain ⟨hown, rfl⟩ := hread
      refine ⟨_, by rw [exec_memoryAccessComplete, hflag, if_pos rfl, earlyStep_own hrun hwait hpend hmem htg hown hready haside],
        othersKept_upd s t _, getThread_updThread_self s t _⟩
  · intro t th hk hp hev hflag base stops
    refine ⟨fun hpad hrun => ?_, fun g hkind hpad => ⟨fun hpoison hrun => ?_, fun v hpoison hv => ?_⟩⟩
    · exact exec_access_stops hflag hev hk hp (lateFault_padLost hpad) (by simp [routable]) hrun
    · exact exec_access_stops hflag hev hk hp (lateFault_poison hpad (by simp [hkind]) hpoison) (by simp [routable]) hrun
    · have hread : Answers s a.tgt ∧ v = tgtRead s a.tgt a.size := by
        cases htg : a.tgt with
        | dev pa ser => rw [htg] at hv; exact ⟨trivial, hv⟩
        | spad key => rw [htg] at hv; exact ⟨trivial, hv⟩
        | peer q pa ser =>
          rw [htg] at hv
          obtain ⟨hup, hq, hv⟩ := hv
          exact ⟨⟨hup, hq⟩, hv⟩
        | violation c => rw [htg] at hv; exact hv.elim
      obtain ⟨hans, rfl⟩ := hread
      exact exec_load_performs hflag hev hk hp (lateFault_none hpad (.inr hpoison)) hkind hans

end Sys2Proof.Proofs
end

section
/-!
The bytes of a store: what each memory reads afterwards, with the fields of queue blocks that a store may not set (R5, R331), and the
poison and the notes of overwritten bytes (R382, R383).
-/

namespace Sys2Proof.Proofs

open Sys2Proof Sys2Proof.Machine Sys2Proof.Safety Sys2Proof.Laws

theorem mem_upFrom {lo n x : Nat} : x ∈ upFrom lo n ↔ lo ≤ x ∧ x < lo + n := by
  induction n generalizing lo with
  | zero => simp [upFrom]
  | succ n ih =>
    rw [upFrom, List.mem_cons, ih]
    omega

/-- Byte j of a written number (R3). -/
theorem memGet_memWrite_byte {m : Memory} (h : Memory.wf m = true) (a v : Nat) {n j : Nat} (hj : j < n) :
    (memGet (memWrite m a n v) (a + j)).toNat = v / 2 ^ (8 * j) % 256 := by
  rw [memGet_memWrite h, if_pos (by omega), Nat.add_sub_cancel_left, BitVec.toNat_ofNat, Nat.pow_mul]

theorem memGet_memWrite_outside {m : Memory} (h : Memory.wf m = true) {a n x : Nat} (v : Nat) (hx : x < a ∨ a + n ≤ x) :
    memGet (memWrite m a n v) x = memGet m x := by
  rw [memGet_memWrite h, if_neg (by omega)]

/-- A byte after a write that may set the bits of a mask only. -/
def masked (new old mask : Byte) : Byte := new &&& mask ||| old &&& ~~~mask

theorem masked_masked (new old mask : Byte) : masked (masked new old mask) old mask = masked new old mask := by
  ext k hk
  simp only [masked, BitVec.getElem_or, BitVec.getElem_and, BitVec.getElem_not]
  cases new[k] <;> cases old[k] <;> cases mask[k] <;> rfl

theorem masked_zero (new old : Byte) : masked new old 0 = old := by
  have h0 : (0 : Byte) = 0#8 := rfl
  rw [masked, h0, BitVec.and_zero, BitVec.zero_or, BitVec.not_zero, BitVec.and_allOnes]

theorem masked_ones (new old : Byte) : masked new old 255 = new := by
  have h1 : (255 : Byte) = BitVec.allOnes 8 := rfl
  rw [masked, h1, BitVec.not_allOnes, BitVec.and_zero, BitVec.or_zero, BitVec.and_allOnes]

/-- Each byte of a structure is set through its mask, and no other byte is touched (R5). -/
theorem memGet_keepMasked_eq (mask : Nat → Byte) (size : Nat) {old new : Memory} (h : Memory.wf new = true) (b x : Nat) :
    memGet (keepMasked mask size old new b) x =
      if b ≤ x ∧ x < b + size then masked (memGet new x) (memGet old x) (mask (x - b)) else memGet new x := by
  have key (l : List Nat) : memGet (l.foldl (keepByte mask old b) new) x =
      if ∃ i ∈ l, x = b + i then masked (memGet new x) (memGet old x) (mask (x - b)) else memGet new x := by
    induction l generalizing new with
    | nil => simp
    | cons i r ih =>
      have hw : Memory.wf (keepByte mask old b new i) = true := memPut_wf _ _ h
      rw [List.foldl_cons, ih hw, keepByte, memGet_memPut h]
      by_cases hi : x = b + i
      · subst hi
        rw [if_pos rfl, Nat.add_sub_cancel_left, if_pos (⟨i, List.mem_cons_self, rfl⟩ : ∃ j ∈ i :: r, b + i = b + j)]
        split
        · exact masked_masked _ _ _
        · rfl
      · simp only [List.exists_mem_cons_iff, hi, false_or, if_false]
  rw [keepMasked, key]
  congr 1
  simp only [mem_upFrom, eq_iff_iff]
  exact ⟨fun ⟨i, hi, hx⟩ => by omega, fun hx => ⟨x - b, by omega, by omega⟩⟩

/-- TAIL is a store's to set; HEAD, DONE, ERR and START are not (R331). -/
theorem blockMask_tail {o : Nat} (h : 8 ≤ o ∧ o < 16) : blockMask o = 255 := if_pos (by omega)

theorem blockMask_kept {o : Nat} (h : o < 8 ∨ 16 ≤ o ∧ o < 32 ∨ 40 ≤ o ∧ o < 48) : blockMask o = 0 := by
  rw [blockMask, if_neg (by omega), if_neg (by omega)]

theorem keepBlocks_cons {s : State} {q : Nat × Queue} {r : SMap Queue} (hs : s.queues = q :: r) (pa n : Nat) (m : Memory) :
    keepBlocks s pa n m = keepBlocks { s with queues := r } pa n
      (if q.2.block < pa + n ∧ pa < q.2.block + 64 then keepFields s.mem m q.2.block else m) := by
  rw [keepBlocks, hs, List.foldl_cons]
  rfl

theorem keepFields_wf {old m : Memory} (h : Memory.wf m = true) (b : Nat) : Memory.wf (keepFields old m b) = true :=
  keepMasked_wf _ _ h b

/-- A byte that lies in no bound queue's block, or in TAIL, is stored as any other. -/
theorem memGet_keepBlocks_free (s : State) (pa n : Nat) {m : Memory} (h : Memory.wf m = true) {x : Nat}
    (hx : ∀ q ∈ s.queues, x < q.2.block + 8 ∨ q.2.block + 16 ≤ x → x < q.2.block ∨ q.2.block + 64 ≤ x) :
    memGet (keepBlocks s pa n m) x = memGet m x := by
  obtain ⟨l, hl⟩ : ∃ l, s.queues = l := ⟨_, rfl⟩
  induction l generalizing s m with
  | nil => rw [keepBlocks, hl]; rfl
  | cons q r ih =>
    rw [hl] at hx
    have hr := fun p hp => hx p (List.mem_cons_of_mem _ hp)
    have hq := hx q List.mem_cons_self
    have hfields : memGet (keepFields s.mem m q.2.block) x = memGet m x := by
      rw [keepFields, memGet_keepMasked_eq _ _ h]
      split
      · rw [blockMask_tail (by omega), masked_ones]
      · rfl
    rw [keepBlocks_cons hl]
    split
    · rw [ih { s with queues := r } (keepFields_wf h _) hr rfl, hfields]
    · exact ih { s with queues := r } h hr rfl

/-- HEAD, DONE, ERR and START of a bound queue's block are as before the store. -/
theorem memGet_keepBlocks_kept (s : State) (pa n : Nat) {m : Memory} (h : Memory.wf m = true) {q : Nat × Queue}
    (hq : q ∈ s.queues) {o : Nat} (ho : o < 8 ∨ 16 ≤ o ∧ o < 32 ∨ 40 ≤ o ∧ o < 48)
    (hout : ∀ x, x < pa ∨ pa + n ≤ x → memGet m x = memGet s.mem x) :
    memGet (keepBlocks s pa n m) (q.2.block + o) = memGet s.mem (q.2.block + o) := by
  by_cases hreach : q.2.block < pa + n ∧ pa < q.2.block + 64
  case neg => exact memGet_keepBlocks s pa n h _ (hout _ (by omega))
  clear hout
  obtain ⟨l, hl⟩ : ∃ l, s.queues = l := ⟨_, rfl⟩
  induction l generalizing s m with
  | nil => rw [hl] at hq; exact absurd hq List.not_mem_nil
  | cons p r ih =>
    rw [keepBlocks_cons hl]
    rw [hl, List.mem_cons] at hq
    rcases hq with rfl | hq
    · rw [if_pos hreach]
      refine memGet_keepBlocks { s with queues := r } pa n (keepFields_wf h _) _ ?_
      rw [keepFields, memGet_keepMasked_eq _ _ h, if_pos (by omega), Nat.add_sub_cancel_left, blockMask_kept ho, masked_zero]
    · split
      · exact ih { s with queues := r } (keepFields_wf h _) hq rfl
      · exact ih { s with queues := r } h hq rfl

theorem mem_filter_not_both {α : Type} {l : List α} {p q : α → Prop} [DecidablePred p] [DecidablePred q] {x : α} :
    x ∈ l.filter (fun y => !(decide (p y) && decide (q y))) ↔ x ∈ l ∧ ¬ (p x ∧ q x) := by
  rw [List.mem_filter, Bool.not_eq_true', ← Bool.not_eq_true, Bool.and_eq_true, decide_eq_true_eq, decide_eq_true_eq]

/-- The bytes noted after a store of less than a line: those noted before, and its own that lie in poisoned lines (R382; log 108). -/
theorem mem_noteOver (s : State) {pa n : Nat} (hn : n < 64) (b : Nat) :
    b ∈ noteOver s pa n ↔ b ∈ s.overlaid ∨ (b / 64 ∈ s.poisonLines ∧ pa ≤ b ∧ b < pa + n) := by
  have hpart (b : Nat) : wholeLine pa n b = false := by
    simp only [wholeLine, Bool.and_eq_false_iff, decide_eq_false_iff_not]
    omega
  rw [noteOver]
  split
  next h => simp [List.isEmpty_iff.1 h]
  next =>
    simp only [hpart, List.mem_append, List.mem_filter, mem_upFrom]
    by_cases hb : b ∈ s.overlaid <;> simp [hb, and_comm]

theorem serialCheck_putThread (s : State) (t : Tid) (th : Thread) (ctx : Fin 4096) (tg : Target) (va : Word) (n : Nat) :
    serialCheck (putThread s t th) ctx tg va n = serialCheck s ctx tg va n := rfl

theorem getThread_tgtWrite (s : State) (tg : Target) (n v : Nat) (u : Tid) : getThread (tgtWrite s tg n v) u = getThread s u := by
  cases tg <;> rfl

/-- A store writes memories, and what is known of their poison. -/
theorem tgtWrite_frame (s : State) (tg : Target) (n v : Nat) :
    tgtWrite s tg n v = { s with
      mem := (tgtWrite s tg n v).mem, spad := (tgtWrite s tg n v).spad, peer := (tgtWrite s tg n v).peer
      poisonLines := (tgtWrite s tg n v).poisonLines, poisonSpad := (tgtWrite s tg n v).poisonSpad
      overlaid := (tgtWrite s tg n v).overlaid } := by
  cases tg <;> rfl

theorem tgtWrite_putThread (s : State) (t : Tid) (th : Thread) (tg : Target) (n v : Nat) :
    tgtWrite (putThread s t th) tg n v = putThread (tgtWrite s tg n v) t th := by
  cases tg <;> rfl

/-- A store to memory that answers, which no serial region turns away, writes its bytes (R136, R138). -/
theorem doStore_answers {s : State} {t : Tid} {a : Access} (h : Answers s a.tgt)
    (hser : serialCheck s (getThread s t).ctx a.tgt a.va a.size = none) :
    doStore s t a = tgtWrite s a.tgt a.size (a.val.toNat % 2 ^ (8 * a.size)) := by
  rw [doStore, currentTarget_answers h, storeTarget, hser]
  dsimp only
  split
  next c hc => rw [hc] at h; exact h.elim
  next => rfl

/-- MEMORY_ACCESS_COMPLETE of such a store that meets no fault: its bytes are written, and its thread has it no longer outstanding. -/
theorem exec_store_performs {s : State} {k : Nat} {a : Access} (hflag : s.ev.flag = false) (hev : s.ev.k = k)
    (hk : (getThread s s.ev.tid).out[k]? = some a) (hp : performable s s.ev.tid a = true) (hf : lateFault s s.ev.tid a = none)
    (hkind : a.kind = .st) (hans : Answers s a.tgt)
    (hser : serialCheck s (getThread s s.ev.tid).ctx a.tgt a.va a.size = none) :
    ∃ s', exec .memoryAccessComplete s = .next s' ∧
      SameButCsr (takenOff (getThread s s.ev.tid) k a) (getThread s' s.ev.tid) ∧
      (∀ u, u ≠ s.ev.tid → getThread s' u = getThread s u) ∧
      s' = { tgtWrite s a.tgt a.size (a.val.toNat % 2 ^ (8 * a.size)) with threads := s'.threads } := by
  have hstore : performAccess (putThread s s.ev.tid (takenOff (getThread s s.ev.tid) k a)) s.ev.tid a =
      putThread (tgtWrite s a.tgt a.size (a.val.toNat % 2 ^ (8 * a.size))) s.ev.tid (takenOff (getThread s s.ev.tid) k a) := by
    rw [performAccess, hkind]
    dsimp only
    rw [doStore_answers (by rwa [answers_putThread]) (by rw [getThread_putThread_self, serialCheck_putThread]; exact hser),
      tgtWrite_putThread]
  refine ⟨_, exec_access_performs hflag hev hk hp hf, ?_, fun u hu => ?_, ?_⟩ <;> rw [hstore]
  · have := sameButCsr_settleQueue (putThread (tgtWrite s a.tgt a.size (a.val.toNat % 2 ^ (8 * a.size))) s.ev.tid
      (takenOff (getThread s s.ev.tid) k a)) s.ev.tid
    rwa [getThread_putThread_self] at this
  · rw [settleQueue, getThread_putThread_other _ _ hu, getThread_putThread_other _ _ hu, getThread_tgtWrite]
  · rfl

/-- Settles O26: the store's own bytes are a written number's, and every other byte is framed, in the memory that its target lies in. -/
theorem storesWriteTheirBytesOnly : Obligations.StoresWriteTheirBytesOnly := by
  intro s k a hmem t th hev hflag hk hkind hp hpad hser same put htgt
  obtain ⟨hm, hs, hpeer⟩ := hmem
  have hans : Answers s a.tgt := by
    cases htg : a.tgt <;> rw [htg] at htgt <;> exact htgt
  obtain ⟨s', hexec, hthread, hothers, hs'⟩ :=
    exec_store_performs hflag hev hk hp (lateFault_none hpad (.inl hkind)) hkind hans hser
  have plain {m : Memory} (h : Memory.wf m = true) (at_ : Nat) :
      put m (memWrite m at_ a.size (a.val.toNat % 2 ^ (8 * a.size))) at_ fun _ => True :=
    ⟨fun j hj _ => memGet_memWrite_byte h at_ _ hj, fun x hx => memGet_memWrite_outside h _ hx⟩
  refine ⟨s', hexec, hthread, hothers, ?_, ?_⟩
  · rw [hs', tgtWrite_frame]
  · rw [hs']
    cases htg : a.tgt with
    | violation c => trivial
    | dev pa ser =>
      obtain ⟨hbytes, hout⟩ := plain hm pa
      have hw := memWrite_wf (m := s.mem) pa a.size (a.val.toNat % 2 ^ (8 * a.size)) hm
      refine ⟨⟨fun j hj hfree => ?_, fun x hx => ?_⟩, fun q hq o ho => ?_, fun _ => rfl, fun _ => rfl, fun hn => ?_, fun l => ?_⟩
      · exact (congrArg BitVec.toNat (memGet_keepBlocks_free s pa a.size hw hfree)).trans (hbytes j hj trivial)
      · exact memGet_keepBlocks s pa a.size hw x (hout x hx)
      · exact memGet_keepBlocks_kept s pa a.size hw hq ho hout
      · exact mem_noteOver s hn
      · simp only [tgtWrite, mem_filter_not_both]
    | spad key =>
      refine ⟨plain hs key, fun _ => rfl, fun _ => rfl, fun l => ?_⟩
      simp only [tgtWrite, mem_filter_not_both]
    | peer q pa ser => exact ⟨plain hpeer _, fun _ => rfl, fun _ => rfl⟩

end Sys2Proof.Proofs
end

section
/-!
The launch scheduler's operations (17_launch.md): what giving out cores, iterations and MCCs does to the records of the state, and what
it leaves alone.
-/

namespace Sys2Proof.Proofs

open Sys2Proof Sys2Proof.Machine Sys2Proof.Safety Sys2Proof.Laws

theorem exec_launchStart (s : State) : exec .launchStart s = .next (launchStartStep s s.ev.n) := rfl
theorem exec_coreAssign (s : State) : exec .coreAssign s = .next (assignStep s s.ev.cl s.ev.co) := rfl
theorem exec_iterationHandout (s : State) : exec .iterationHandout s = .next (handoutStep s s.ev.cl s.ev.co s.ev.th) := rfl
theorem exec_gangClusterChoice (s : State) : exec .gangClusterChoice s = .next (gangChoiceStep s) := rfl
theorem exec_gangShareStart (s : State) : exec .gangShareStart s = .next (gangStartStep s s.ev.cl) := rfl
theorem exec_launchAgeing (s : State) : exec .launchAgeing s = .next (ageStep s s.ev.n) := rfl
theorem exec_launchPreempt (s : State) : exec .launchPreempt s = .next (preemptStep s s.ev.n s.ev.cl) := rfl
theorem exec_launchComplete (s : State) : exec .launchComplete s = .next (launchDoneStep s s.ev.n) := rfl

@[simp] theorem getThread_putLaunch (s : State) (k : Nat) (x : Launch) (t : Tid) : getThread (putLaunch s k x) t = getThread s t := rfl
@[simp] theorem getCluster_putLaunch (s : State) (k : Nat) (x : Launch) (cl : Fin 64) :
    getCluster (putLaunch s k x) cl = getCluster s cl := rfl
@[simp] theorem getCluster_updThread (s : State) (t : Tid) (f : Thread → Thread) (cl : Fin 64) :
    getCluster (updThread s t f) cl = getCluster s cl := rfl
@[simp] theorem getThread_updCluster (s : State) (cl : Fin 64) (f : Cluster → Cluster) (t : Tid) :
    getThread (updCluster s cl f) t = getThread s t := rfl
@[simp] theorem getCluster_updCluster_self (s : State) (cl : Fin 64) (f : Cluster → Cluster) :
    getCluster (updCluster s cl f) cl = f (getCluster s cl) := getCluster_putCluster_self s cl _
@[simp] theorem getCore_updCluster (s : State) (cl' : Fin 64) (f : Cluster → Cluster) (cl : Fin 64) (co : Fin 8) :
    getCore (updCluster s cl' f) cl co = getCore s cl co := rfl
@[simp] theorem getCore_updCore_self (s : State) (cl : Fin 64) (co : Fin 8) (f : Core → Core) :
    getCore (updCore s cl co f) cl co = f (getCore s cl co) := getCore_putCore_self s cl co _

/-! Several threads changed one after another. -/

/-- Only threads' records differ after changes to threads, one for each item of a list. -/
theorem foldl_updThread_frame {α : Type} (t : α → Tid) (f : α → Thread → Thread) (l : List α) (s : State) :
    l.foldl (fun s a => updThread s (t a) (f a)) s =
      { s with threads := (l.foldl (fun s a => updThread s (t a) (f a)) s).threads } := by
  induction l generalizing s with
  | nil => rfl
  | cons a r ih =>
    rw [List.foldl_cons, ih]
    rfl

@[simp] theorem getCore_foldl_updThread {α : Type} (t : α → Tid) (f : α → Thread → Thread) (l : List α) (s : State) (cl : Fin 64)
    (co : Fin 8) : getCore (l.foldl (fun s a => updThread s (t a) (f a)) s) cl co = getCore s cl co := by
  rw [foldl_updThread_frame t f l s]
  rfl

theorem getThread_foldl_other {α : Type} (t : α → Tid) (f : α → Thread → Thread) (l : List α) (s : State) {u : Tid}
    (h : ∀ a ∈ l, u ≠ t a) : getThread (l.foldl (fun s a => updThread s (t a) (f a)) s) u = getThread s u := by
  induction l generalizing s with
  | nil => rfl
  | cons a r ih =>
    rw [List.foldl_cons, ih _ fun b hb => h b (List.mem_cons_of_mem _ hb), getThread_updThread_other s _ (h a List.mem_cons_self)]

theorem getThread_foldl_mem (f : Thread → Thread) {l : List Tid} (hl : l.Nodup) (s : State) {t : Tid} (ht : t ∈ l) :
    getThread (l.foldl (fun s t => updThread s t f) s) t = f (getThread s t) := by
  induction l generalizing s with
  | nil => exact absurd ht List.not_mem_nil
  | cons u r ih =>
    obtain ⟨hu, hr⟩ := List.nodup_cons.1 hl
    rw [List.foldl_cons]
    rcases List.mem_cons.1 ht with rfl | ht
    · rw [getThread_foldl_other (fun t => t) (fun _ => f) r _ fun a ha (e : t = a) => hu (e ▸ ha), getThread_updThread_self]
    · rw [ih hr _ ht, getThread_updThread_other s f fun (e : t = u) => hu (e ▸ ht)]

theorem mem_coreTids (cl : Fin 64) (co : Fin 8) (h : Fin 4) : Tid.vec cl co h ∈ coreTids cl co := by
  have : h = 0 ∨ h = 1 ∨ h = 2 ∨ h = 3 := by omega
  simpa [coreTids] using this

theorem nodup_coreTids (cl : Fin 64) (co : Fin 8) : (coreTids cl co).Nodup := by simp [coreTids]

theorem mem_allCores (co : Fin 8) : co ∈ allCores := by
  revert co
  decide

/-! Cores. -/

/-- A core without a launch has nothing to return. -/
theorem settleCore_idle {s : State} {cl : Fin 64} {co : Fin 8} (h : idleCore s cl co = true) : settleCore s cl co = s := by
  simp only [idleCore, Bool.and_eq_true, decide_eq_true_eq] at h
  simp only [settleCore, h.1.1]

/-- The core's record as it begins to serve a launch for iterations, but for the patterns loaded (R23, R220, R341). -/
theorem getCore_assignCore (s : State) (cl : Fin 64) (co : Fin 8) (key : Nat) (x : Launch) :
    (getCore (assignCore s cl co key x) cl co).launch = some key ∧
      (getCore (assignCore s cl co key x) cl co).lastCtx = some x.ctx ∧
      (getCore (assignCore s cl co key x) cl co).slots = Vector.replicate 16 Slot.reset := by
  have hgive : getCore (giveCore s cl co key x.ctx) cl co = { getCore s cl co with
      launch := some key, lastCtx := some x.ctx, assignedAt := lastAssigned s + 1, slots := Vector.replicate 16 Slot.reset } := by
    rw [giveCore, getCore_foldl_updThread fun t => t, getCore_putCore_self]
  rw [assignCore, getCore_updCore_self, hgive]
  exact ⟨rfl, rfl, rfl⟩

/-- Assigning a core changes threads, that core's record and its scratchpad only. -/
theorem assignCore_frame (s : State) (cl : Fin 64) (co : Fin 8) (key : Nat) (x : Launch) :
    (∀ cl' co', (cl', co') ≠ (cl, co) → getCore (assignCore s cl co key x) cl' co' = getCore s cl' co') ∧
      assignCore s cl co key x = { s with
        threads := (assignCore s cl co key x).threads, cores := (assignCore s cl co key x).cores
        spad := (assignCore s cl co key x).spad, poisonSpad := (assignCore s cl co key x).poisonSpad } := by
  have apart {cl' : Fin 64} {co' : Fin 8} (h : (cl', co') ≠ (cl, co)) : cl' ≠ cl ∨ co' ≠ co :=
    Decidable.not_and_iff_or_not.1 fun e => h (Prod.ext e.1 e.2)
  have hgive : (∀ cl' co', (cl', co') ≠ (cl, co) → getCore (giveCore s cl co key x.ctx) cl' co' = getCore s cl' co') ∧
      giveCore s cl co key x.ctx = { s with
        threads := (giveCore s cl co key x.ctx).threads, cores := (giveCore s cl co key x.ctx).cores
        spad := (giveCore s cl co key x.ctx).spad, poisonSpad := (giveCore s cl co key x.ctx).poisonSpad } := by
    refine ⟨fun cl' co' h => ?_, ?_⟩ <;> rw [giveCore]
    · rw [getCore_foldl_updThread fun t => t, getCore_putCore_other _ _ (apart h)]
      split <;> rfl
    · rw [foldl_updThread_frame fun t => t]
      split <;> rfl
  refine ⟨fun cl' co' h => ?_, ?_⟩
  · exact (getCore_putCore_other _ _ (apart h)).trans (hgive.1 cl' co' h)
  · rw [assignCore, updCore, putCore, hgive.2]

end Sys2Proof.Proofs
end

section
/-! The events of the launch scheduler, each on the state that it meets. -/

namespace Sys2Proof.Proofs

open Sys2Proof Sys2Proof.Machine Sys2Proof.Safety Sys2Proof.Laws

/-! LAUNCH_START (R339, R340, R344). -/

/-- A table made from the numbers of a range, of those that a test lets in. -/
theorem mapFind_filterMap_upFrom {α : Type} (p : Nat → Prop) [DecidablePred p] (g : Nat → α) {lo n c : Nat}
    (hc : lo ≤ c ∧ c < lo + n) (h : p c) :
    mapFind ((upFrom lo n).filterMap fun k => if p k then some (k, g k) else none) c = some (g c) := by
  induction n generalizing lo with
  | zero => omega
  | succ n ih =>
    rw [upFrom, List.filterMap_cons]
    by_cases hlo : lo = c
    · subst hlo
      simp [h, mapFind]
    · have hr := ih (lo := lo + 1) (by omega)
      by_cases hp : p lo
      · simp only [hp, if_true, mapFind, if_neg hlo, if_neg (show ¬ c < lo by omega), hr]
      · simp only [hp, if_false, hr]

theorem initialShares_find (i : Nat) {c : Nat} (hc : c < 64) (h : c * i / 64 < (c + 1) * i / 64) :
    mapFind (initialShares i) c = some (c * i / 64, (c + 1) * i / 64) :=
  mapFind_filterMap_upFrom (fun c => c * i / 64 < (c + 1) * i / 64) (fun c => (c * i / 64, (c + 1) * i / 64))
    (by omega) h

theorem requiredPats_none {h : Header} (hp : h.pats = 0) : requiredPats h = [] := by
  simp [requiredPats, bitAt, hp]

theorem getLaunch_writeStart (s : State) (n k : Nat) : getLaunch (writeStart s n) k = getLaunch s k := by
  unfold writeStart
  split
  · rfl
  · split
    · rfl
    · unfold raiseWord
      split <;> rfl

/-- A launch that names no pattern, clears no watermark and is not GANG starts with its serials shared out. -/
theorem getLaunch_startLaunch {s : State} {key : Nat} {x : Launch} (hpats : x.hdr.pats = 0) (hclr : x.wmclr = 0)
    (hgang : x.gang = false) (hspace : 0 < spaceOf x) :
    getLaunch (startLaunch s key x) key = some { x with
      st := .started, startedAt := lastStarted s + 1, shares := initialShares (spaceOf x), gangWaiting := [] } := by
  have hbind : bindAll s x (requiredPats x.hdr) = some s := by rw [requiredPats_none hpats]; rfl
  have h0 : spaceOf x ≠ 0 := by omega
  simp only [startLaunch, hbind, h0, if_false, hclr, clearMarks, hgang, Bool.false_eq_true, getLaunch_writeStart]
  exact getLaunch_putLaunch_self s key _

/-- The one launch of a device, when its front end finds it ready. -/
theorem launchStartStep_one {s : State} {key f : Nat} {x : Launch} (hone : s.launches = [(key, x)]) (hf : x.queue % 4 = f % 4)
    (hready : readyToStart s key x = true) : launchStartStep s f = startLaunch s key x := by
  have hl : s.launches.filter (fun p => decide (frontOf p.2.queue = f % 4) && readyToStart s p.1 p.2) = [(key, x)] := by
    simp [hone, frontOf, hf, hready]
  simp only [launchStartStep, hl, best, List.foldl_cons, List.foldl_nil]

theorem lastStarted_one {s : State} {key : Nat} {x : Launch} (hone : s.launches = [(key, x)]) : lastStarted s = x.startedAt := by
  simp [lastStarted, hone]

/-! MCCs, and CORE_ASSIGN (R311, R341). -/

theorem ensureMcc_none (s : State) (cl : Fin 64) (key : Nat) {x : Launch} (h : x.hdr.mccent = 0 ∨ cl.val ∈ x.mccStarted) :
    ensureMcc s cl key x = s := if_pos (by simpa using h)

theorem ensureMcc_starts (s : State) (cl : Fin 64) (key : Nat) {x : Launch} (h1 : x.hdr.mccent ≠ 0) (h2 : cl.val ∉ x.mccStarted) :
    ensureMcc s cl key x = startMcc s cl key x := if_neg (by simp [h1, h2])

/-- A cluster's MCC as it starts for a launch. -/
theorem getThread_startMcc (s : State) (cl : Fin 64) (key : Nat) (x : Launch) :
    getThread (startMcc s cl key x) (.mcc cl) = freshThread (getThread s (.mcc cl)) key x ((6, 0) :: argRegs x)
      (x.entry + BitVec.ofNat 64 x.hdr.mccent) := by
  rw [startMcc, getThread_putLaunch, getThread_updCluster, getThread_updThread_self]

theorem getCluster_startMcc (s : State) (cl : Fin 64) (key : Nat) (x : Launch) :
    (getCluster (startMcc s cl key x) cl).mccLaunch = some key ∧
      (getCluster (startMcc s cl key x) cl).kept = (getCluster s cl).kept := by
  rw [startMcc, getCluster_putLaunch, getCluster_updCluster_self, getCluster_updThread]
  exact ⟨rfl, rfl⟩

theorem getLaunch_startMcc (s : State) (cl : Fin 64) (key : Nat) (x : Launch) :
    getLaunch (startMcc s cl key x) key = some { x with mccStarted := x.mccStarted ++ [cl.val] } :=
  getLaunch_putLaunch_self _ key _

/-- An idle core goes to the one launch that can use it. -/
theorem assignStep_one {s : State} {cl : Fin 64} {co : Fin 8} {key : Nat} {x : Launch} (hidle : idleCore s cl co = true)
    (hkept : (getCluster s cl).kept = none) (htakers : takers s cl co = [(key, x)]) (hres : resumable s key x cl co = false)
    (hmcc : x.hdr.mccent = 0) :
    assignStep s cl co = updCluster (assignCore s cl co key x) cl fun k => { k with lastQueue := x.queue } := by
  simp only [assignStep, settleCore_idle hidle, hidle, hkept, htakers, best, List.foldl_cons, List.foldl_nil, hres,
    ensureMcc_none _ cl key (.inl hmcc), ite_self]
  rfl

/-! ITERATION_HANDOUT (R60, R339 to R341). -/

/-- The launch once the lowest serial of a cluster's share is handed out. -/
def lowestTaken (x : Launch) (cl : Fin 64) : Launch := putShare x cl.val ((shareOf x cl.val).1 + 1, (shareOf x cl.val).2)

theorem nextIteration_lowest (s : State) (key : Nat) {x : Launch} {cl : Fin 64} (hpart : x.partials = [])
    (hst : x.stages = 1) (hlt : (shareOf x cl.val).1 < (shareOf x cl.val).2) :
    nextIteration s key x cl = some ((shareOf x cl.val).1, 0, lowestTaken x cl) := by
  simp [nextIteration, takePartial, takeLowest, hpart, hst, hlt, lowestTaken]

/-- A thread that is free takes the lowest serial of its cluster's share, once the MCC that the launch names may run. -/
theorem handoutStep_lowest {s : State} {cl : Fin 64} {co : Fin 8} {h : Fin 4} {key : Nat} {x : Launch}
    (hcore : (getCore s cl co).launch = some key) (hx : getLaunch s key = some x) (hst : x.st = .started) (hgang : x.gang = false)
    (hfree : freeThread s (.vec cl co h) x = true) (hrun : mayRun s x.ctx = true) (himg : hasImages s key = false)
    (hasked : coreAsked s cl co = false) (hmcc : mccReady s cl key x = true) (hpart : x.partials = []) (hstages : x.stages = 1)
    (hlt : (shareOf x cl.val).1 < (shareOf x cl.val).2) :
    handoutStep s cl co h =
      startIteration (ensureMcc (putLaunch s key (lowestTaken x cl)) cl key (lowestTaken x cl)) (.vec cl co h) key (lowestTaken x cl)
        (shareOf x cl.val).1 0 := by
  have havail : available s key x cl = true := by simp [available, himg, obtainable, hlt]
  simp only [handoutStep, hcore, hx, hst, hgang, hfree, hrun, hasked, hmcc, havail, if_true,
    nextIteration_lowest s key hpart hstages hlt]
  rfl

/-- The registers of a thread as an iteration arrives: the preloads, and zero (R8, R60). -/
theorem readG_regFile (th : Thread) (pre : List (Nat × Word)) (r : Reg) (hr : r ≠ 0) (hg : th.g = regFile pre) :
    readG th r = ((pre.find? fun p => decide (p.1 = r.val)).map Prod.snd).getD 0 := by
  rw [readG, if_neg hr, hg]
  simp only [regFile, Vector.getElem_ofFn]
  split
  next p hp => rw [hp]; rfl
  next hp => rw [hp]; rfl

/-- g1 to g6 of an iteration's first stage, and no argument (R60, R339). -/
theorem readG_firstStage {th : Thread} {x : Launch} {lo : Nat} (hg : th.g = regFile (preloads x lo 0)) (horder : x.order = false)
    (hargs : x.args = []) :
    readG th 1 = BitVec.ofNat 64 (min x.c (x.n - lo % chunksOf x * x.c)) ∧ readG th 2 = BitVec.ofNat 64 (lo % chunksOf x * x.c) ∧
      readG th 3 = BitVec.ofNat 64 (lo / chunksOf x % x.o1) ∧ readG th 4 = BitVec.ofNat 64 (lo / chunksOf x / x.o1) ∧
      readG th 5 = BitVec.ofNat 64 lo ∧ readG th 6 = 0 ∧ ∀ r : Reg, 7 ≤ r.val → readG th r = 0 := by
  have hpre : preloads x lo 0 =
      [(1, BitVec.ofNat 64 (min x.c (x.n - lo % chunksOf x * x.c))), (2, BitVec.ofNat 64 (lo % chunksOf x * x.c)),
       (3, BitVec.ofNat 64 (lo / chunksOf x % x.o1)), (4, BitVec.ofNat 64 (lo / chunksOf x / x.o1)), (5, BitVec.ofNat 64 lo),
       (6, 0)] := by
    simp [preloads, placeOf, horder, argRegs, hargs]
  rw [hpre] at hg
  refine ⟨readG_regFile th _ 1 (by decide) hg, readG_regFile th _ 2 (by decide) hg, readG_regFile th _ 3 (by decide) hg,
    readG_regFile th _ 4 (by decide) hg, readG_regFile th _ 5 (by decide) hg, readG_regFile th _ 6 (by decide) hg, fun r hr => ?_⟩
  have h0 : r ≠ 0 := fun e => by simp [e] at hr
  have hnone : ∀ v1 v2 v3 v4 v5 v6 : Word, [(1, v1), (2, v2), (3, v3), (4, v4), (5, v5), (6, v6)].find?
      (fun p : Nat × Word => decide (p.1 = r.val)) = none := by
    intro v1 v2 v3 v4 v5 v6
    simp only [List.find?_eq_none, List.forall_mem_cons, decide_eq_true_eq, List.not_mem_nil]
    refine ⟨?_, ?_, ?_, ?_, ?_, ?_, fun _ h => h.elim⟩ <;> omega
  rw [readG_regFile th _ r h0 hg, hnone]
  rfl

/-- A thread's record as an iteration begins on it (R60, R340). -/
def begun (key : Nat) (x : Launch) (serial stage : Nat) (th : Thread) : Thread :=
  { freshThread th key x (preloads x serial stage) (stageEntry x stage) with stage := stage, serial := serial }

theorem getThread_startIteration (s : State) (t : Tid) (key : Nat) (x : Launch) (serial stage : Nat) :
    getThread (startIteration s t key x serial stage) t = begun key x serial stage (getThread s t) :=
  getThread_updThread_self s t _

theorem startIteration_frame (s : State) (t : Tid) (key : Nat) (x : Launch) (serial stage : Nat) :
    (∀ u, u ≠ t → getThread (startIteration s t key x serial stage) u = getThread s u) ∧
      startIteration s t key x serial stage = { s with threads := (startIteration s t key x serial stage).threads } :=
  ⟨fun _ hu => getThread_updThread_other s _ hu, rfl⟩

/-! GANG shares (R342). -/

theorem foldl_assignCore_launch (cl : Fin 64) (key : Nat) (x : Launch) (l : List (Fin 8)) (s : State) {co : Fin 8}
    (h : co ∈ l ∨ (getCore s cl co).launch = some key) :
    (getCore (l.foldl (fun s co => assignCore s cl co key x) s) cl co).launch = some key := by
  induction l generalizing s with
  | nil => exact h.resolve_left List.not_mem_nil
  | cons c r ih =>
    refine ih _ ?_
    by_cases hc : co = c
    · subst hc
      exact .inr (getCore_assignCore s cl co key x).1
    · refine h.imp (fun hm => (List.mem_cons.1 hm).resolve_left hc) fun hl => ?_
      rw [(assignCore_frame s cl c key x).1 cl co fun e => hc (Prod.mk.inj e).2]
      exact hl

theorem foldl_assignCore_cluster (cl : Fin 64) (key : Nat) (x : Launch) (l : List (Fin 8)) (s : State) (cl' : Fin 64) :
    getCluster (l.foldl (fun s co => assignCore s cl co key x) s) cl' = getCluster s cl' := by
  induction l generalizing s with
  | nil => rfl
  | cons c r ih =>
    rw [List.foldl_cons, ih, (assignCore_frame s cl c key x).2]
    rfl

/-- A share's iterations go to threads of the vector cores. -/
theorem shareThreads_vec {cl : Fin 64} {tpc : Nat} {t : Tid} (h : t ∈ shareThreads cl tpc) : t ≠ .mcc cl := by
  simp only [shareThreads, List.mem_flatMap] at h
  obtain ⟨co, -, h⟩ := h
  have := List.mem_of_mem_take h
  rintro rfl
  simp [coreTids] at this

/-- A cluster of idle cores has nothing to settle. -/
theorem foldl_settleCore_idle {s : State} {cl : Fin 64} (h : ∀ c, idleCore s cl c = true) (l : List (Fin 8)) :
    l.foldl (fun s co => settleCore s cl co) s = s := by
  induction l with
  | nil => rfl
  | cons c r ih => rw [List.foldl_cons, settleCore_idle (h c), ih]

theorem foldl_startIteration_frame (key : Nat) (x : Launch) (l : List ((Nat × Nat) × Tid)) (s : State) :
    l.foldl (fun s p => startIteration s p.2 key x p.1.1 p.1.2) s =
      { s with threads := (l.foldl (fun s p => startIteration s p.2 key x p.1.1 p.1.2) s).threads } :=
  foldl_updThread_frame (α := (Nat × Nat) × Tid) (fun p => p.2) (fun p => begun key x p.1.1 p.1.2) l s

theorem getThread_foldl_startIteration (key : Nat) (x : Launch) (l : List ((Nat × Nat) × Tid)) (s : State) {u : Tid}
    (h : ∀ p ∈ l, u ≠ p.2) : getThread (l.foldl (fun s p => startIteration s p.2 key x p.1.1 p.1.2) s) u = getThread s u :=
  getThread_foldl_other (α := (Nat × Nat) × Tid) (fun p => p.2) (fun p => begun key x p.1.1 p.1.2) l s h

/-- The launch as one of its shares starts on a cluster. -/
def shareTaken (x : Launch) (cl : Fin 64) : Launch := mccAnew { x with gangChosen := mapDel x.gangChosen cl.val } cl

/-- The state once all eight cores of a cluster are a share's. -/
def coresTaken (s : State) (cl : Fin 64) (key : Nat) (x : Launch) : State :=
  allCores.foldl (fun s co => assignCore s cl co key x) (putLaunch (updCluster s cl fun c =>
    { c with kept := none, mccDone := c.mccDone.filter fun k => decide (k ≠ key) }) key (shareTaken x cl))

/-- The state once a share has started: its cores, its MCC where it names one, and its iterations. -/
def shareStarted (s : State) (cl : Fin 64) (key : Nat) (x : Launch) (sh : Nat × Nat) : State :=
  ((shareWork x sh).zip (shareThreads cl x.hdr.tpc)).foldl (fun s p => startIteration s p.2 key x p.1.1 p.1.2)
    (ensureMcc (coresTaken s cl key x) cl key (shareTaken x cl))

/-- A share starts on the cluster that is kept for it when its cores, and the MCC that it names, are free. -/
theorem gangStartStep_starts {s : State} {cl : Fin 64} {key : Nat} {x : Launch} {sh : Nat × Nat}
    (hkept : (getCluster s cl).kept = some key) (hx : getLaunch s key = some x) (hchosen : mapFind x.gangChosen cl.val = some sh)
    (hidle : ∀ c, idleCore s cl c = true) (hcharge : ∀ c k, chargeFree s (.vec cl c k) = true) (hrun : mayRun s x.ctx = true)
    (himg : hasImages s key = false) (hmcc : x.hdr.mccent = 0 ∨ (getCluster s cl).mccLaunch = none) :
    gangStartStep s cl = shareStarted s cl key x sh := by
  have hcores : allCores.all (fun co => idleCore s cl co && (coreTids cl co).all (chargeFree s)) = true := by
    refine List.all_eq_true.2 fun c _ => ?_
    rw [hidle c, Bool.true_and, coreTids, List.all_cons, List.all_cons, List.all_cons, List.all_cons]
    simp only [hcharge, List.all_nil, Bool.true_and]
  have hmcc' : (decide (x.hdr.mccent = 0) || decide ((getCluster s cl).mccLaunch = none)) = true := by simpa using hmcc
  unfold gangStartStep
  rw [foldl_settleCore_idle hidle allCores]
  simp only [hkept, hx, hchosen, hcores, hrun, himg, hmcc', Bool.not_false, Bool.and_self, if_true]
  rfl

/-- A share waits while iterations of its launch are saved (R343). -/
theorem gangStartStep_waits {s : State} {cl : Fin 64} {key : Nat} {x : Launch} {sh : Nat × Nat}
    (hkept : (getCluster s cl).kept = some key) (hx : getLaunch s key = some x) (hchosen : mapFind x.gangChosen cl.val = some sh)
    (hidle : ∀ c, idleCore s cl c = true) (himg : hasImages s key = true) : gangStartStep s cl = s := by
  unfold gangStartStep
  rw [foldl_settleCore_idle hidle allCores]
  simp only [hkept, hx, hchosen, himg, Bool.not_true, Bool.and_false, Bool.false_and, Bool.false_eq_true, if_false]

theorem getCore_coresTaken (s : State) (cl : Fin 64) (key : Nat) (x : Launch) (c : Fin 8) :
    (getCore (coresTaken s cl key x) cl c).launch = some key :=
  foldl_assignCore_launch cl key x allCores _ (.inl (mem_allCores c))

theorem getCluster_coresTaken (s : State) (cl : Fin 64) (key : Nat) (x : Launch) :
    (getCluster (coresTaken s cl key x) cl).kept = none := by
  rw [coresTaken, foldl_assignCore_cluster, getCluster_putLaunch, getCluster_updCluster_self]

theorem getCore_shareStarted (s : State) (cl : Fin 64) (key : Nat) (x : Launch) (sh : Nat × Nat) (c : Fin 8) :
    getCore (shareStarted s cl key x sh) cl c = getCore (ensureMcc (coresTaken s cl key x) cl key (shareTaken x cl)) cl c := by
  rw [shareStarted, foldl_startIteration_frame]
  rfl

theorem getCluster_shareStarted (s : State) (cl : Fin 64) (key : Nat) (x : Launch) (sh : Nat × Nat) :
    getCluster (shareStarted s cl key x sh) cl = getCluster (ensureMcc (coresTaken s cl key x) cl key (shareTaken x cl)) cl := by
  rw [shareStarted, foldl_startIteration_frame]
  rfl

/-- No iteration goes to the MCC. -/
theorem getThread_shareStarted_mcc (s : State) (cl : Fin 64) (key : Nat) (x : Launch) (sh : Nat × Nat) :
    getThread (shareStarted s cl key x sh) (.mcc cl) =
      getThread (ensureMcc (coresTaken s cl key x) cl key (shareTaken x cl)) (.mcc cl) :=
  getThread_foldl_startIteration key x _ _ fun _ hp => (shareThreads_vec (List.of_mem_zip hp).2).symm

/-- An earlier share's MCC does not count for the one that starts (log 87). -/
theorem not_mem_mccStarted_shareTaken (x : Launch) (cl : Fin 64) : cl.val ∉ (shareTaken x cl).mccStarted := by
  simp [shareTaken, mccAnew]

/-! LAUNCH_AGEING and LAUNCH_PREEMPT (R343). -/

theorem waiting_mayRun {s : State} {key : Nat} {x : Launch} (h : mayRun s x.ctx = false) : waiting s key x = false := by
  simp [waiting, readyToStart, h]

theorem ageStep_eq {s : State} {key : Nat} {x : Launch} (hx : getLaunch s key = some x) :
    ageStep s key = if waiting s key x then putLaunch s key { x with level := min 3 (x.level + 1) } else s := by
  simp only [ageStep, hx]

/-- All threads of a core are asked to leave, and nothing else changes (R362). -/
theorem askCore_spec (s : State) (cl : Fin 64) (co : Fin 8) :
    (∀ k : Fin 4, getThread (askCore s cl co) (.vec cl co k) = { getThread s (.vec cl co k) with preq := true }) ∧
      askCore s cl co = { s with threads := (askCore s cl co).threads } :=
  ⟨fun k => getThread_foldl_mem _ (nodup_coreTids cl co) s (mem_coreTids cl co k), foldl_updThread_frame (fun t => t) _ _ s⟩

theorem preemptStep_asks {s : State} {key : Nat} {cl : Fin 64} {c : Fin 8} {x : Launch} (hx : getLaunch s key = some x)
    (hpre : x.preempt = true) (hst : x.st = .started) (hrun : mayRun s x.ctx = true) (hwork : workOn s key x cl = true)
    (hwants : wantsCore s key x cl = true) (hpick : pickVictim s x cl = some c) (hmcc : x.hdr.mccent = 0) :
    preemptStep s key cl = askCore s cl c := by
  simp only [preemptStep, hx, hpre, hst, hrun, hwork, hwants, hpick, askMcc, hmcc, if_true]
  rfl

/-! LAUNCH_COMPLETE (R345). -/

/-- DONE passes the one launch of a queue that has completed: it is written when it is below, and MSI-X is raised as the launch asks. -/
theorem passDone_one {s : State} {n key : Nat} {q : Queue} {x : Launch} (hst : x.st = .completed) (hl : s.launches = [(key, x)])
    (hdone : blockWord s q qDone < x.seq) :
    passDone n q [(key, x)] s = { s with
      launches := [], mem := memWrite s.mem (q.block + qDone) 8 x.seq, overlaid := noteOver s (q.block + qDone) 8
      msix := s.msix ++ if x.irq then [q.msix] else [] } := by
  have hdel : mapDel s.launches key = [] := by simp [hl, mapDel]
  cases hirq : x.irq <;>
    simp [passDone, counts, hst, raiseWord, hdone, hirq, raiseMsix, putBlockWord, hdel]

/-- The one launch of a device completes as its queue is served, when all it started has ended. -/
theorem launchDoneStep_one {s : State} {key n : Nat} {x : Launch} {q : Queue} (hone : s.launches = [(key, x)])
    (hn : x.queue = n) (hq : getQueue s n = some q) (hfin : finished s key x = true) (hdone : blockWord s q qDone < x.seq) :
    launchDoneStep s n = { s with
      launches := [], mem := memWrite s.mem (q.block + qDone) 8 x.seq, overlaid := noteOver s (q.block + qDone) 8
      msix := s.msix ++ if x.irq then [q.msix] else [] } := by
  have hended : (queueLaunches s n).filter (fun p => finished s p.1 p.2) = [(key, x)] := by
    simp [queueLaunches, hone, hn, hfin]
  have hput : (putLaunch s key { x with st := .completed }).launches = [(key, { x with st := .completed })] := by
    simp [putLaunch, hone, mapPut]
  have hqueue : queueLaunches (putLaunch s key { x with st := .completed }) n = [(key, { x with st := .completed })] := by
    rw [queueLaunches, hput]
    simp [hn]
  have hq' : getQueue (putLaunch s key { x with st := .completed }) n = some q := hq
  simp only [launchDoneStep, hended, List.foldl_cons, List.foldl_nil, writeDone, hq', hqueue]
  exact passDone_one rfl hput hdone

/-- Settles O53: each event is a chain of the operations above, whose lemmas say what it writes and what it leaves. -/
theorem launchesRun : Obligations.LaunchesRun := by
  intro s key x cl co n I
  refine ⟨?start, ?assign, ?handout, ?handoutMcc, ?choice, ?share, ?shareMcc, ?shareWaits, ?ageStill, ?age, ?preempt, ?complete⟩
  case start =>
    intro hone hf hready hpats hclr hgang hspace
    refine ⟨_, exec_launchStart s, ?_, fun c hc hlt => initialShares_find I hc hlt⟩
    rw [launchStartStep_one hone hf hready, getLaunch_startLaunch hpats hclr hgang hspace, lastStarted_one hone]
    rfl
  case assign =>
    intro hidle hkept htakers hres hmcc
    obtain ⟨hlaunch, hctx, hslots⟩ := getCore_assignCore s cl co key x
    obtain ⟨hother, hrest⟩ := assignCore_frame s cl co key x
    refine ⟨_, exec_coreAssign s, ?_⟩
    rw [assignStep_one hidle hkept htakers hres hmcc]
    simp only [getCore_updCluster, getCluster_updCluster_self, hslots]
    refine ⟨hlaunch, hctx, fun k => Vector.getElem_replicate _, trivial, fun a => ?_, hother⟩
    show memGet (assignCore s cl co key x).mem a = _
    rw [hrest]
  case handout =>
    intro hcore hx hst hgang hfree hrun himg hasked hpart hstages horder hargs hmcc lo hi hshare hlt K
    have hready : mccReady s cl key x = true := by
      rcases hmcc with h | h <;> simp [mccReady, mccAllows, h]
    have hlo : (shareOf x cl.val).1 = lo := congrArg Prod.fst hshare
    have hhi : (shareOf x cl.val).2 = hi := congrArg Prod.snd hshare
    refine ⟨_, exec_iterationHandout s, ?_⟩
    rw [handoutStep_lowest hcore hx hst hgang hfree hrun himg hasked hready hpart hstages (by rwa [hlo, hhi]), hlo,
      ensureMcc_none _ cl key (x := lowestTaken x cl) hmcc]
    obtain ⟨hothers, hrest⟩ :=
      startIteration_frame (putLaunch s key (lowestTaken x cl)) (.vec cl co s.ev.th) key (lowestTaken x cl) lo 0
    refine ⟨?_, hothers, ?_⟩
    · rw [getThread_startIteration]
      exact ⟨rfl, rfl, rfl, rfl, rfl, rfl, rfl, rfl, rfl, rfl, rfl, rfl,
        readG_firstStage (x := lowestTaken x cl) rfl horder hargs⟩
    · rw [hrest]
      rfl
  case handoutMcc =>
    intro hcore hx hst hgang hfree hrun himg hasked hpart hstages horder hargs hmcc hnew hidle himgs hlt
    have hready : mccReady s cl key x = true := by simp [mccReady, mccAllows, hidle, himgs, comesFirst]
    refine ⟨_, exec_iterationHandout s, ?_⟩
    rw [handoutStep_lowest hcore hx hst hgang hfree hrun himg hasked hready hpart hstages hlt,
      ensureMcc_starts _ cl key (x := lowestTaken x cl) hmcc hnew]
    refine ⟨?_, ⟨_, getLaunch_startMcc _ cl key _, by simp⟩, ?_⟩
    · exact (getCluster_startMcc _ cl key _).1
    · rw [(startIteration_frame _ _ key _ _ 0).1 _ Tid.noConfusion, getThread_startMcc]
      exact ⟨rfl, rfl, rfl⟩
  case choice =>
    intro cl' sh r hfirst hwide hwaiting
    refine ⟨_, exec_gangClusterChoice s, ?_⟩
    simp only [gangChoiceStep, hfirst, hwide, hwaiting]
    exact ⟨by simp, ⟨_, getLaunch_putLaunch_self _ _ _, rfl, mapFind_mapPut_self _ _ _⟩, rfl⟩
  case share =>
    intro sh hkept hx hchosen hidle hcharge hrun himg hmcc
    refine ⟨_, exec_gangShareStart s, ?_⟩
    rw [gangStartStep_starts hkept hx hchosen hidle hcharge hrun himg (.inl hmcc), getCluster_shareStarted,
      ensureMcc_none _ cl key (x := shareTaken x cl) (.inl hmcc)]
    refine ⟨getCluster_coresTaken s cl key x, fun c => ?_⟩
    rw [getCore_shareStarted, ensureMcc_none _ cl key (x := shareTaken x cl) (.inl hmcc), getCore_coresTaken]
  case shareMcc =>
    intro sh hkept hx hchosen hidle hcharge hrun himg hmcc hfree
    have hstart := ensureMcc_starts (coresTaken s cl key x) cl key (x := shareTaken x cl) hmcc (not_mem_mccStarted_shareTaken x cl)
    refine ⟨_, exec_gangShareStart s, ?_⟩
    rw [gangStartStep_starts hkept hx hchosen hidle hcharge hrun himg (.inr hfree), getCluster_shareStarted,
      getThread_shareStarted_mcc, hstart, getThread_startMcc]
    obtain ⟨hmcc, hkept⟩ := getCluster_startMcc (coresTaken s cl key x) cl key (shareTaken x cl)
    exact ⟨hkept.trans (getCluster_coresTaken s cl key x), hmcc, rfl⟩
  case shareWaits =>
    intro sh hkept hx hchosen hidle himg
    refine ⟨s, ?_, hkept, fun _ => rfl, rfl⟩
    rw [exec_gangShareStart, gangStartStep_waits hkept hx hchosen hidle himg]
  case ageStill =>
    intro hn hx hrun
    rw [exec_launchAgeing, show s.ev.n = key from hn, ageStep_eq hx, waiting_mayRun hrun]
    rfl
  case age =>
    intro hn hx hwait
    refine ⟨putLaunch s key { x with level := min 3 (x.level + 1) }, ?_, getLaunch_putLaunch_self _ _ _,
      fun k hk => getLaunch_putLaunch_other _ _ hk, rfl⟩
    rw [exec_launchAgeing, show s.ev.n = key from hn, ageStep_eq hx, if_pos hwait]
  case preempt =>
    intro c hn hx hpre hst hrun hwork hfew hgang hpick hmcc
    have hwants : wantsCore s key x cl = true := by
      cases hg : x.gang <;> simp [wantsCore, hg, hfew, hgang]
    refine ⟨askCore s cl c, ?_, askCore_spec s cl c⟩
    rw [exec_launchPreempt, show s.ev.n = key from hn, preemptStep_asks hx hpre hst hrun hwork hwants hpick hmcc]
  case complete =>
    intro q hone hn hq hfin hmem hdone hseq
    refine ⟨_, exec_launchComplete s, ?_⟩
    rw [launchDoneStep_one hone hn hq hfin hdone]
    refine ⟨rfl, ?_, rfl⟩
    show memRead (memWrite s.mem (q.block + qDone) 8 x.seq) (q.block + qDone) 8 = x.seq
    rw [memRead_memWrite hmem.1, Nat.mod_eq_of_lt (by omega)]

end Sys2Proof.Proofs
end

section
/-! What the shared operations of the scalar stream leave of the form of the memories (R23, R350, R354). -/

namespace Sys2Proof.Proofs

open Sys2Proof Sys2Proof.Machine Sys2Proof.Safety Sys2Proof.Laws

/-- The memories are in canonical form after an outcome, if it has a next state. -/
abbrev KeepsForm (o : Out) : Prop := After o MemoriesOk

theorem keepsForm_iff {o : Out} : KeepsForm o ↔ ∀ u, o = .next u → MemoriesOk u := by
  cases o with
  | next s => exact ⟨fun h u hu => Host.Outcome.next.inj hu ▸ h, fun h => h s rfl⟩
  | fault r => exact ⟨fun _ _ hu => (nomatch hu), fun _ => trivial⟩
  | refused r => exact ⟨fun _ _ hu => (nomatch hu), fun _ => trivial⟩

section
variable {s : State} (h : MemoriesOk s)
include h

theorem keepsForm_raise {t : Tid} {f : FaultInfo} {b : Bool} : KeepsForm (raise s t f b) :=
  keepsForm_iff.2 fun _ => memoriesOk_raise h

theorem keepsForm_withRegs {rs : List Reg} {k : Thread → Out} (hk : ∀ th, KeepsForm (k th)) : KeepsForm (withRegs s rs k) :=
  keepsForm_iff.2 fun _ => memoriesOk_withRegs h fun th => keepsForm_iff.1 (hk th)

theorem keepsForm_withDest {d : Reg} {rs : List Reg} {k : Thread → Out} (hk : ∀ th, KeepsForm (k th)) :
    KeepsForm (withDest s d rs k) :=
  keepsForm_iff.2 fun _ => memoriesOk_withDest h fun th => keepsForm_iff.1 (hk th)

theorem keepsForm_scalarOp {d : Reg} {rs : List Reg} {n : Nat} {f : Thread → Word} : KeepsForm (scalarOp s d rs n f) :=
  keepsForm_withDest h fun _ => h

theorem keepsForm_scalarFlags {d : Reg} {rs : List Reg} {n : Nat} {f : Thread → Word × BitVec 7} :
    KeepsForm (scalarFlags s d rs n f) := keepsForm_withDest h fun _ => h

theorem keepsForm_fpRounded {d : Reg} {rs : List Reg} {r : Fin 8} {f : Nat → Thread → Word × BitVec 7} :
    KeepsForm (fpRounded s d rs r f) := by
  refine keepsForm_withDest h fun th => ?_
  split
  · exact keepsForm_raise h
  · exact h


theorem keepsForm_branch {rs : List Reg} {off : Word} {n : Nat} {f : Thread → Bool} : KeepsForm (branch s rs off n f) := by
  refine keepsForm_withRegs h fun th => ?_
  split <;> exact h

/-! Loads, stores, atomics and region accesses are only issued here; no memory is written before they are performed. -/

theorem keepsForm_loadAccess {d b : Reg} {n c l : Nat} {g : Bool} {off : Word} : KeepsForm (loadAccess s d b n g c off l) := by
  unfold loadAccess
  dsimp only
  refine keepsForm_withDest h fun th => ?_
  split
  · split
    · exact keepsForm_raise h
    · exact h
  · split
    · exact keepsForm_raise h
    · exact h
    · split
      · exact h
      · split <;> exact h

theorem keepsForm_storeAccess {d b : Reg} {n c l : Nat} {off : Word} : KeepsForm (storeAccess s d b n c off l) := by
  unfold storeAccess
  dsimp only
  refine keepsForm_withRegs h fun th => ?_
  split
  · exact keepsForm_raise h
  · split <;> exact h

theorem keepsForm_atomic {op : AmoOp} {g z : Bool} {d a b : Reg} {c o : Fin 4} : KeepsForm (atomic s op g d a b z c o) := by
  unfold atomic
  dsimp only
  refine keepsForm_withDest h fun th => ?_
  split
  · exact keepsForm_raise h
  · exact h
  · split <;> exact h

theorem keepsForm_regionAccess {rs : List Reg} {a d : Reg} {o : Nat} {mk : Thread → AccKind} :
    KeepsForm (regionAccess s rs a d o mk) := by
  unfold regionAccess
  dsimp only
  refine keepsForm_withDest h fun th => ?_
  split
  · exact keepsForm_raise h
  · exact h
  · split <;> exact h

/-! Control transfer. -/

theorem keepsForm_execJr {d a : Reg} {imm : BitVec 16} : KeepsForm (execJr d a imm s) := by
  refine keepsForm_withDest h fun th => ?_
  dsimp only
  split
  · exact keepsForm_raise h
  · exact h

theorem memoriesOk_threadViolation {t : Tid} {va : Word} {c : Nat} : MemoriesOk (threadViolation s t va c) :=
  memoriesOk_violate h t _ va c

theorem keepsForm_execJt {a b : Reg} {l : Fin 2048} : KeepsForm (execJt a b l s) := by
  unfold execJt
  dsimp only
  refine keepsForm_withRegs h fun th => ?_
  split
  · exact h
  split
  · exact keepsForm_raise h
  split
  · exact keepsForm_raise h
  split
  · exact h
  split
  · exact keepsForm_raise h
  split
  · exact memoriesOk_updThread (memoriesOk_threadViolation h) _ _
  · exact h

theorem keepsForm_execBstrip {a : Reg} {off : BitVec 13} : KeepsForm (execBstrip a off s) := by
  refine keepsForm_withRegs h fun th => ?_
  dsimp only
  split
  · exact keepsForm_raise h
  · split <;> exact h

theorem keepsForm_execLeave {a : Reg} : KeepsForm (execLeave a s) := by
  unfold execLeave
  dsimp only
  refine keepsForm_withRegs h fun th => ?_
  split <;> exact h

theorem memoriesOk_resumeHead {t : Tid} : MemoriesOk (resumeHead s t) := by
  unfold resumeHead
  dsimp only
  split
  · exact h
  · split
    · split
      · exact h
      · split <;> exact h
    · exact h

theorem memoriesOk_leaveHandler {t : Tid} {f : Frozen} : MemoriesOk (leaveHandler s t f) := by
  unfold leaveHandler
  exact memoriesOk_resumeHead (memoriesOk_updThread h t _)

theorem keepsForm_execXret : KeepsForm (execXret s) := by
  unfold execXret
  dsimp only
  split
  · exact keepsForm_raise h
  · split
    · exact keepsForm_raise h
    · split
      · exact memoriesOk_leaveHandler h
      · exact h

/-! CSRs. -/

theorem keepsForm_csrQueued {th : Thread} {d : Reg} {n l : Nat} : KeepsForm (csrQueued s th d n l) := by
  unfold csrQueued
  split
  · exact h
  · split
    · split <;> exact h
    · exact h

theorem keepsForm_csrRead {d : Reg} {n l : Nat} : KeepsForm (csrRead s d n l) := by
  unfold csrRead
  dsimp only
  split
  · exact keepsForm_raise h
  · refine keepsForm_withDest h fun th => ?_
    split
    · exact h
    split
    · exact keepsForm_csrQueued h
    split
    · exact h
    split <;> exact h

theorem keepsForm_csrWrite {a : Reg} {n l : Nat} : KeepsForm (csrWrite s a n l) := by
  unfold csrWrite
  dsimp only
  split
  · exact keepsForm_raise h
  · refine keepsForm_withRegs h fun th => ?_
    split <;> exact h

/-! Vector length. -/

theorem keepsForm_execVsetl {d a : Reg} {y : Fin 16} {k r : Fin 8} : KeepsForm (execVsetl d a y k r s) := by
  unfold execVsetl
  dsimp only
  split
  · exact keepsForm_raise h
  · refine keepsForm_withDest h fun th => ?_
    split
    · exact h
    · split <;> exact h

theorem keepsForm_execVsetlw {d a b : Reg} {y : Fin 16} {k r : Fin 8} : KeepsForm (execVsetlw d a b y k r s) := by
  unfold execVsetlw
  dsimp only
  split
  · exact keepsForm_raise h
  · refine keepsForm_withDest h fun th => ?_
    split
    · exact h
    split
    · exact keepsForm_raise h
    split
    · exact h
    split <;> exact h

/-! Waiting and ordering. -/

theorem keepsForm_execFence {a : Reg} {k c : Fin 4} : KeepsForm (execFence a k c s) := by
  refine keepsForm_withRegs h fun th => ?_
  split
  · split <;> exact h
  · exact h

theorem keepsForm_execQfence {q : Fin 32} : KeepsForm (execQfence q s) := by
  unfold execQfence
  dsimp only
  split
  · split
    · exact keepsForm_raise h
    · split <;> exact h
  · split
    · exact keepsForm_raise h
    · split <;> exact h

theorem keepsForm_waitCounters {l c p t n : Nat} : KeepsForm (waitCounters s l c p t n) := by
  unfold waitCounters
  dsimp only
  split <;> exact h

theorem memoriesOk_phaseDone {cl : Fin 64} {th : Thread} {n : Fin 16} {l : List Nat} : MemoriesOk (phaseDone s cl th n l) :=
  memoriesOk_foldl _ (fun _ _ hs => memoriesOk_updThread hs _ _) _ (memoriesOk_updCluster h cl _)

theorem keepsForm_execBar {n : Fin 16} : KeepsForm (execBar n s) := by
  unfold execBar
  dsimp only
  split
  · exact keepsForm_raise h
  split
  · exact h
  split
  · exact h
  split
  · exact h
  split
  · exact h
  · exact memoriesOk_phaseDone h

theorem keepsForm_execWmpub {a b : Reg} : KeepsForm (execWmpub a b s) := by
  unfold execWmpub
  dsimp only
  refine keepsForm_withRegs h fun th => ?_
  split
  · exact keepsForm_raise h
  split
  · exact memoriesOk_putThread (memoriesOk_threadViolation h) _ _
  · split <;> exact h

theorem keepsForm_execBkset {a : Reg} {n : Fin 4} : KeepsForm (execBkset a n s) := by
  unfold execBkset
  dsimp only
  refine keepsForm_withRegs h fun th => ?_
  split
  · exact keepsForm_raise h
  split
  · exact keepsForm_raise h
  split
  · exact h
  split
  · exact keepsForm_raise h
  split
  · exact memoriesOk_putThread (memoriesOk_threadViolation h) _ _
  · exact h

/-! Pushing a vector instruction or a tile operation. -/

theorem keepsForm_withResult {d : Option Reg} {gs : List Reg} {k : Thread → Out} (hk : ∀ th, KeepsForm (k th)) :
    KeepsForm (withResult s d gs k) := by
  cases d with
  | none => exact keepsForm_withRegs h hk
  | some r => exact keepsForm_withDest h hk

theorem keepsForm_push {n : Nat} {gs : List Reg} {mk : Thread → VOp} : KeepsForm (push s n gs mk) := by
  unfold push
  dsimp only
  split
  · exact keepsForm_raise h
  split
  · exact keepsForm_raise h
  · refine keepsForm_withResult h fun th => ?_
    split
    · exact h
    split
    · exact keepsForm_raise h
    · split <;> exact h

theorem keepsForm_issueTile {rs : List Reg} {ok : MatCfg → Bool} {mk : Thread → TileOp} : KeepsForm (issueTile s rs ok mk) := by
  unfold issueTile
  dsimp only
  split
  · exact keepsForm_raise h
  · refine keepsForm_withRegs h fun th => ?_
    split <;> exact h

theorem keepsForm_execMwait {n : Fin 256} : KeepsForm (execMwait n s) := by
  unfold execMwait
  dsimp only
  split
  · exact keepsForm_raise h
  · split <;> exact h

end
end Sys2Proof.Proofs
end

section
/-! What the vector unit leaves of the form of the memories: the courses of each operation, and the events of the vector queue. -/

namespace Sys2Proof.Proofs

open Sys2Proof Sys2Proof.Machine Sys2Proof.Safety Sys2Proof.Laws

section
variable {s : State} (h : MemoriesOk s)
include h

theorem memoriesOk_noteViol {t : Tid} {e : VEntry} {v : Option (Word × Nat)} : MemoriesOk (noteViol s t e v) := by
  cases v with
  | none => exact h
  | some q => exact memoriesOk_logResponse h t _ _ _

theorem memoriesOk_freshLoop {t : Tid} {p : Plan} {walls : List (Option Wall)} {n i : Nat} {e : VEntry} :
    MemoriesOk (freshLoop t p walls n s e i).1 := by
  fun_induction freshLoop t p walls n s e i
  case case5 s1 s2 ih =>
    have h1 : MemoriesOk s1 := memoriesOk_noteViol (memoriesOk_putCore h _ _ _)
    refine ih ?_
    unfold s2
    split <;> exact h1
  all_goals exact h

theorem memoriesOk_freshCourse {t : Tid} {e : VEntry} {p : Plan} : MemoriesOk (freshCourse s t e p).1 := by
  fun_cases freshCourse s t e p <;> exact memoriesOk_freshLoop h

theorem memoriesOk_packCourse {t : Tid} {e : VEntry} {a : Reg} : MemoriesOk (packCourse s t e a).1 := by
  fun_cases packCourse s t e a <;> exact h

theorem memoriesOk_maskLoop {t : Tid} {md n i : Nat} {e : VEntry}
    {gen : Nat → Except FaultInfo (Bool × BitVec 7 × Option (Word × Nat))} : MemoriesOk (maskLoop t md gen n s e i).1 := by
  fun_induction maskLoop t md gen n s e i
  case case3 ih => exact ih (memoriesOk_updThread (memoriesOk_noteViol h) _ _)
  all_goals exact h

theorem memoriesOk_maskCourse {t : Tid} {md sz : Nat} {e : VEntry}
    {gen : Nat → Except FaultInfo (Bool × BitVec 7 × Option (Word × Nat))} : MemoriesOk (maskCourse s t e md sz gen).1 := by
  fun_cases maskCourse s t e md sz gen <;> exact memoriesOk_maskLoop h

/-! Stores, of the bytes that no later element writes. -/

theorem memoriesOk_writeUncovered {t : Target} {later : List (Target × Nat)} {k n v : Nat} :
    MemoriesOk (writeUncovered s t later k n v) := by
  fun_induction writeUncovered s t later k n v
  case case1 => exact h
  case case2 ih => exact ih (memoriesOk_ite h (memoriesOk_tgtWrite h _ _ _))

theorem memoriesOk_clearWritten {t : Target} {later : List (Target × Nat)} {n : Nat} :
    MemoriesOk (clearWritten s t later n) := by
  cases t <;> exact h

theorem memoriesOk_writeUnder {t : Target} {later : List (Target × Nat)} {n v : Nat} :
    MemoriesOk (writeUnder s t later n v) :=
  memoriesOk_ite (memoriesOk_clearWritten (memoriesOk_writeUncovered h)) (memoriesOk_tgtWrite h t n v)

theorem memoriesOk_writePiecesOf {later : List (Target × Nat)} {n v : Nat} {ts : List Target} :
    MemoriesOk (writePiecesOf later n s ts v) := by
  fun_induction writePiecesOf later n s ts v
  case case1 => exact h
  case case2 ih => exact ih (memoriesOk_writeUnder h)

theorem memoriesOk_storeElem {ty sz v : Nat} {later : List (Target × Nat)} {va : Word} {ts : List Target} :
    MemoriesOk (storeElem s ty sz later va ts v).1 := by
  fun_cases storeElem s ty sz later va ts v
  case case1 => exact h
  case case2 => exact memoriesOk_writePiecesOf h

theorem memoriesOk_coverElem {all written : List (Nat × Nat)} : MemoriesOk (coverElem s all written) := memoriesOk_ite h h

theorem memoriesOk_clearCovered {ranges : List (Nat × Nat)} {struck : List Nat} : MemoriesOk (clearCovered s ranges struck) :=
  memoriesOk_ite h h

theorem memoriesOk_storeLoop {t : Tid} {f : MemForm} {src idx : Stream} {base stride : Word} {m : MaskF}
    {all : List (Nat × Target × Nat)} {walls : List (Option Wall)} {n i : Nat} {e : VEntry} :
    MemoriesOk (storeLoop t f src base stride idx m all walls n s e i).1 := by
  fun_induction storeLoop t f src base stride idx m all walls n s e i
  case case4 ih => exact ih h
  case case7 ih => exact ih (memoriesOk_noteViol (memoriesOk_coverElem (memoriesOk_storeElem h)))
  all_goals exact h

theorem memoriesOk_storeCourse {t : Tid} {e : VEntry} {f : MemForm} {v idx : Reg} {base stride : Word} {m : MaskF} :
    MemoriesOk (storeCourse s t e f v base stride idx m).1 := by
  fun_cases storeCourse s t e f v base stride idx m
  case case1 => exact memoriesOk_clearCovered (memoriesOk_storeLoop h)
  case case2 => exact memoriesOk_storeLoop h

theorem memoriesOk_stxaAdds {t : Tid} {ty rm sz n : Nat} {e : VEntry} {l : List (Word × Target × Nat)} :
    MemoriesOk (stxaAdds t ty rm sz n s e l).1 := by
  fun_induction stxaAdds t ty rm sz n s e l
  case case3 s1 fl ih =>
    refine ih ?_
    unfold s1
    split
    · exact memoriesOk_logResponse h t _ _ _
    · exact memoriesOk_tgtWrite h _ _ _
  all_goals exact h

theorem memoriesOk_stxaRun {t : Tid} {e : VEntry} {v idx : Reg} {base : Word} {m : MaskF} :
    MemoriesOk (stxaRun s t e v base idx m).1 := by
  fun_cases stxaRun s t e v base idx m <;> exact memoriesOk_stxaAdds h

/-! Operations on registers, chains and slots write no memory. -/

theorem memoriesOk_putRun {t : Tid} {e : VEntry} {d : Reg} {i w : Word} : MemoriesOk (putRun s t e d i w).1 := by
  fun_cases putRun s t e d i w <;> exact h

theorem memoriesOk_updLoop {t : Tid} {add : Bool} {d : Reg} {m : MaskF} {sa sb : Stream} {n i : Nat} {e : VEntry} :
    MemoriesOk (updLoop t add d m sa sb n s e i).1 := by
  fun_induction updLoop t add d m sa sb n s e i
  case case4 ih => exact ih h
  case case9 ih => exact ih h
  all_goals exact h

theorem memoriesOk_updRun {t : Tid} {e : VEntry} {add : Bool} {d a b : Reg} {m : MaskF} :
    MemoriesOk (updRun s t e add d a b m).1 := memoriesOk_updLoop h

theorem memoriesOk_shareRun {t : Tid} {e : VEntry} {d a : Reg} : MemoriesOk (shareRun s t e d a).1 := by
  fun_cases shareRun s t e d a <;> exact h

theorem memoriesOk_walked {α : Type} {e : VEntry} {unit : Nat} {got : Except AllocErr α} {wall : Option Nat}
    {k : α → State × VEntry} (hk : ∀ x, MemoriesOk (k x).1) : MemoriesOk (walked s e unit got wall k).1 := by
  fun_cases walked s e unit got wall k
  case case3 => exact hk _
  all_goals exact h

theorem memoriesOk_catRun {t : Tid} {e : VEntry} {d a b : Reg} : MemoriesOk (catRun s t e d a b).1 := by
  fun_cases catRun s t e d a b
  case case5 => exact memoriesOk_walked h fun _ => h
  case case6 => exact memoriesOk_walked h fun _ => memoriesOk_ite h h
  all_goals exact h

theorem memoriesOk_trimRun {t : Tid} {e : VEntry} {d a : Reg} {f b : Word} : MemoriesOk (trimRun s t e d a f b).1 := by
  fun_cases trimRun s t e d a f b
  case case3 => exact memoriesOk_walked h fun _ => memoriesOk_ite h h
  all_goals exact h

theorem memoriesOk_splitRun {t : Tid} {e : VEntry} {d a : Reg} {n : Word} : MemoriesOk (splitRun s t e d a n).1 := by
  fun_cases splitRun s t e d a n
  case case4 => exact memoriesOk_walked h fun _ => h
  all_goals exact h

theorem memoriesOk_tbindRun {t : Tid} {e : VEntry} {a : Reg} {k : Fin 16} : MemoriesOk (tbindRun s t e a k).1 := by
  fun_cases tbindRun s t e a k
  case case4 => exact memoriesOk_ite h h
  all_goals exact h

theorem memoriesOk_tfreeRun {t : Tid} {e : VEntry} {k : Fin 16} : MemoriesOk (tfreeRun s t e k).1 := by
  fun_cases tfreeRun s t e k <;> exact h

theorem memoriesOk_tgetRun {t : Tid} {e : VEntry} {d : Option Reg} {k : Fin 16} : MemoriesOk (tgetRun s t e d k).1 := by
  fun_cases tgetRun s t e d k <;> exact h

theorem memoriesOk_ttgtRun {t : Tid} {e : VEntry} {k : Fin 16} : MemoriesOk (ttgtRun s t e k).1 := by
  fun_cases ttgtRun s t e k <;> exact h

theorem memoriesOk_handOff {t : Tid} {e : VEntry} {o : CopyOp} : MemoriesOk (handOff s t e o).1 := by
  fun_cases handOff s t e o
  case case3 => exact memoriesOk_ite h h
  all_goals exact h

theorem memoriesOk_patLoop {t : Tid} {ws p : List Nat} {srcs : List Stream} {old : Stream} {m : MaskF} {mask : BitVec 4096}
    {carry first n i : Nat} {walls : List (Option Wall)} {e : VEntry} {nc : Option Nat} :
    MemoriesOk (patLoop t ws srcs old m mask p carry first walls n s e nc i).1 := by
  fun_induction patLoop t ws srcs old m mask p carry first walls n s e nc i
  case case3 s1 _ _ _ _ _ _ =>
    show MemoriesOk s1
    unfold s1
    split <;> exact h
  case case4 s1 _ _ _ _ _ _ _ ih =>
    refine ih (memoriesOk_putCore ?_ _ _ _)
    unfold s1
    split <;> exact h
  case case5 s1 _ _ _ ih =>
    refine ih ?_
    unfold s1
    split <;> exact h
  all_goals exact h

theorem memoriesOk_patCourse {t : Tid} {e : VEntry} {a b : Reg} {m : MaskF} {n : Fin 32} {p0 p1 : Word} :
    MemoriesOk (patCourse s t e a b m n p0 p1).1 := by
  fun_cases patCourse s t e a b m n p0 p1
  case case3 => exact memoriesOk_ite h h
  case case6 s1 _ _ =>
    have h1 : MemoriesOk s1 := by
      unfold s1
      split <;> exact memoriesOk_patLoop h
    exact memoriesOk_ite h1 h1
  case case7 s1 _ _ =>
    show MemoriesOk s1
    unfold s1
    split <;> exact memoriesOk_patLoop h
  all_goals exact h

/-! The course of an entry, and the steps of the vector and read queues (R113, R158). -/

theorem memoriesOk_clmaskLeave {t : Tid} {e : VEntry} : MemoriesOk (clmaskLeave s t e).1 := by
  fun_cases clmaskLeave s t e <;> exact h

theorem memoriesOk_dropLeave {t : Tid} {e : VEntry} : MemoriesOk (dropLeave s t e) := by
  fun_cases dropLeave s t e <;> exact h

theorem memoriesOk_beginEntry {t : Tid} {e : VEntry} : MemoriesOk (beginEntry s t e).1 := by
  fun_cases beginEntry s t e <;> exact h

theorem memoriesOk_clcompCourse {t : Tid} {e : VEntry} {a : Reg} : MemoriesOk (clcompCourse s t e a).1 := by
  fun_cases clcompCourse s t e a <;> exact h

theorem memoriesOk_courseOf {t : Tid} {e : VEntry} : MemoriesOk (courseOf s t e).1 := by
  fun_cases courseOf s t e
  case case2 | case24 => exact memoriesOk_maskCourse h
  case case5 => exact memoriesOk_putRun h
  case case6 => exact memoriesOk_updRun h
  case case13 => exact memoriesOk_storeCourse h
  case case14 => exact memoriesOk_stxaRun h
  case case15 => exact memoriesOk_shareRun h
  case case16 => exact memoriesOk_catRun h
  case case17 => exact memoriesOk_trimRun h
  case case18 => exact memoriesOk_splitRun h
  case case19 => exact memoriesOk_packCourse h
  case case23 => exact memoriesOk_clcompCourse h
  case case25 => exact memoriesOk_tbindRun h
  case case26 => exact memoriesOk_ttgtRun h
  case case27 | case28 => exact memoriesOk_tgetRun h
  case case29 => exact memoriesOk_tfreeRun h
  case case30 => exact memoriesOk_patCourse h
  case case31 => exact memoriesOk_handOff h
  case case32 => exact memoriesOk_freshCourse h
  all_goals exact h

theorem memoriesOk_courseSeen {t : Tid} {e : VEntry} : MemoriesOk (courseSeen s t e) := by
  fun_cases courseSeen s t e <;> exact h

theorem memoriesOk_headCourse {t : Tid} : MemoriesOk (headCourse s t) := by
  fun_cases headCourse s t
  case case6 => exact memoriesOk_updThread (memoriesOk_clmaskLeave h) _ _
  case case7 =>
    exact memoriesOk_updThread (memoriesOk_courseOf (memoriesOk_beginEntry (memoriesOk_courseSeen (memoriesOk_clmaskLeave h)))) _ _
  all_goals exact h

theorem memoriesOk_earlyCourse {t : Tid} {k : Nat} : MemoriesOk (earlyCourse s t k) := by
  fun_cases earlyCourse s t k
  case case4 =>
    exact memoriesOk_updThread (memoriesOk_updThread (memoriesOk_courseOf (memoriesOk_updThread (memoriesOk_courseSeen h) _ _)) _ _)
      _ _
  all_goals exact h

theorem memoriesOk_courseStep {t : Tid} {k : Nat} : MemoriesOk (courseStep s t k) :=
  memoriesOk_ite (memoriesOk_headCourse h) (memoriesOk_earlyCourse h)

theorem memoriesOk_writeDest {t : Tid} {e : VEntry} : MemoriesOk (writeDest s t e) := by
  fun_cases writeDest s t e <;> exact h

theorem memoriesOk_completeStep {t : Tid} : MemoriesOk (completeStep s t) := by
  fun_cases completeStep s t
  case case3 =>
    exact memoriesOk_putThread (memoriesOk_updThread (memoriesOk_dropLeave (memoriesOk_writeDest (memoriesOk_beginEntry h))) _ _) _ _
  all_goals exact h

theorem memoriesOk_returnStep {t : Tid} : MemoriesOk (returnStep s t) := by
  fun_cases returnStep s t <;> exact h

theorem memoriesOk_faultDest {t : Tid} {e : VEntry} : MemoriesOk (faultDest s t e).1 := by
  fun_cases faultDest s t e <;> exact h

theorem memoriesOk_vectorFaultStep {t : Tid} : MemoriesOk (vectorFaultStep s t) := by
  fun_cases vectorFaultStep s t
  case case4 d s1 s2 s3 _ =>
    have hd : MemoriesOk d.1 := memoriesOk_faultDest (memoriesOk_dropLeave h)
    exact memoriesOk_takeFault (memoriesOk_updThread (memoriesOk_updThread hd _ _) _ _) _ _ _ _ _
  case case5 d s1 s2 s3 _ =>
    have hd : MemoriesOk d.1 := memoriesOk_faultDest (memoriesOk_dropLeave h)
    exact memoriesOk_updThread (memoriesOk_takeFault (memoriesOk_updThread (memoriesOk_updThread hd _ _) _ _) _ _ _ _ _) _ _
  all_goals exact h

theorem memoriesOk_faultStep {t : Tid} : MemoriesOk (faultStep s t) := memoriesOk_ite h (memoriesOk_vectorFaultStep h)

theorem memoriesOk_retryStep {t : Tid} : MemoriesOk (retryStep s t) := by
  fun_cases retryStep s t
  case case2 => exact memoriesOk_courseStep h
  all_goals exact h

end
end Sys2Proof.Proofs
end

section
/-! What scalar accesses, copies and the matrix engine leave of the form of the memories (R138, R228 to R241, R261, R262). -/

namespace Sys2Proof.Proofs

open Sys2Proof Sys2Proof.Machine Sys2Proof.Safety Sys2Proof.Laws

section
variable {s : State} (h : MemoriesOk s)
include h

/-! Scalar accesses as they are performed. -/

theorem memoriesOk_accessViolation {t : Tid} {a : Access} {c : Nat} : MemoriesOk (accessViolation s t a c) := by
  unfold accessViolation noteFlags
  exact memoriesOk_updThread (memoriesOk_threadViolation h) t _

theorem memoriesOk_doLoad {t : Tid} {a : Access} {g : Bool} : MemoriesOk (doLoad s t a g) := by
  fun_cases doLoad s t a g
  case case1 => exact memoriesOk_updThread (memoriesOk_accessViolation h) _ _
  all_goals exact h

theorem memoriesOk_doStore {t : Tid} {a : Access} : MemoriesOk (doStore s t a) := by
  fun_cases doStore s t a
  case case1 => exact memoriesOk_accessViolation h
  case case2 => exact memoriesOk_tgtWrite h _ _ _

theorem memoriesOk_doAmo {t : Tid} {a : Access} {op : AmoOp} {g : Bool} : MemoriesOk (doAmo s t a op g) := by
  fun_cases doAmo s t a op g
  case case1 => exact memoriesOk_updThread (memoriesOk_accessViolation h) _ _
  case case2 s1 s2 s3 =>
    have h1 : MemoriesOk s1 := memoriesOk_tgtWrite h _ _ _
    have h2 : MemoriesOk s2 := memoriesOk_ite h1 h1
    exact memoriesOk_updThread (memoriesOk_updThread (memoriesOk_updThread h2 _ _) _ _) _ _

theorem memoriesOk_putDrained {tg : Target} {d : Word × List (Word × Word)} : MemoriesOk (putDrained s tg d) :=
  memoriesOk_tgtWrite (s := putRegion s _) h _ _ _

theorem memoriesOk_appendAt {tg : Target} {n : Word} {r : State × Word} (hr : appendAt s tg n = some r) : MemoriesOk r.1 := by
  revert hr
  fun_cases appendAt s tg n <;> rintro ⟨⟩
  case case2 => exact memoriesOk_tgtWrite (memoriesOk_putDrained h) _ _ _
  case case3 => exact memoriesOk_putDrained h

theorem memoriesOk_publishAt {tg : Target} {n p : Word} {r : State × Bool} (hr : publishAt s tg n p = some r) :
    MemoriesOk r.1 := by
  revert hr
  fun_cases publishAt s tg n p <;> rintro ⟨⟩
  exact memoriesOk_putDrained h

theorem memoriesOk_doAppend {t : Tid} {a : Access} {n : Word} : MemoriesOk (doAppend s t a n) := by
  fun_cases doAppend s t a n
  case case1 | case2 => exact memoriesOk_updThread (memoriesOk_accessViolation h) _ _
  case case3 hr => exact memoriesOk_updThread (memoriesOk_appendAt h hr) _ _

theorem memoriesOk_doPublish {t : Tid} {a : Access} {n p : Word} : MemoriesOk (doPublish s t a n p) := by
  fun_cases doPublish s t a n p
  case case1 => exact h
  case case2 | case3 => exact memoriesOk_accessViolation h
  case case4 hr => exact memoriesOk_publishAt h hr
  case case5 hr => exact memoriesOk_accessViolation (memoriesOk_publishAt h hr)

theorem memoriesOk_performAccess {t : Tid} {a : Access} : MemoriesOk (performAccess s t a) := by
  fun_cases performAccess s t a
  case case1 => exact memoriesOk_doLoad h
  case case2 => exact memoriesOk_doStore h
  case case3 => exact memoriesOk_doAmo h
  case case4 => exact memoriesOk_doAppend h
  case case5 => exact memoriesOk_doPublish h

theorem memoriesOk_performOrFault {t : Tid} {a : Access} : MemoriesOk (performOrFault s t a) := by
  fun_cases performOrFault s t a
  case case1 => exact memoriesOk_ite h h
  case case2 => exact memoriesOk_performAccess h

theorem memoriesOk_accessStep {t : Tid} {k : Nat} : MemoriesOk (accessStep s t k) := by
  fun_cases accessStep s t k
  case case2 => exact memoriesOk_putThread (memoriesOk_performOrFault (memoriesOk_updThread h _ _)) _ _
  all_goals exact h

theorem memoriesOk_readEarly {t : Tid} {va : Word} {n : Nat} : MemoriesOk (readEarly s t va n) := by
  fun_cases readEarly s t va n <;> exact h

theorem memoriesOk_earlyStep {t : Tid} : MemoriesOk (earlyStep s t) := memoriesOk_ite (memoriesOk_readEarly h) h

/-! Copies (R228 to R237). -/

theorem memoriesOk_engineError {g : Engine} {va : Word} {c : Nat} : MemoriesOk (engineError s g va c) := by
  unfold engineError setViol
  exact memoriesOk_updThread (memoriesOk_logViolation h _ _ _ _) _ _

theorem memoriesOk_engineRead {g : Engine} {dflt fuel n : Nat} {va : Word} : MemoriesOk (engineRead g dflt fuel s va n).1 := by
  fun_induction engineRead g dflt fuel s va n
  case case3 x _ ih =>
    refine ih ?_
    unfold x
    split
    · exact memoriesOk_engineError h
    · exact memoriesOk_engineError h
    · split
      · exact memoriesOk_engineError h
      · exact h
  all_goals exact h

theorem memoriesOk_engineWrite {g : Engine} {later : List (Target × Nat)} {fuel n v : Nat} {va : Word} :
    MemoriesOk (engineWrite g later fuel s va n v) := by
  fun_induction engineWrite g later fuel s va n v
  case case3 s1 ih =>
    refine ih ?_
    unfold s1
    split
    · exact memoriesOk_engineError h
    · split
      · exact memoriesOk_engineError h
      · exact memoriesOk_writeUnder h
  all_goals exact h

theorem memoriesOk_readSegs {g : Engine} {dflt : Nat} {l : List (Word × Nat × Nat)} : MemoriesOk (readSegs g dflt s l).1 := by
  fun_induction readSegs g dflt s l
  case case1 => exact h
  case case2 ih => exact ih (memoriesOk_engineRead h)

theorem memoriesOk_writeSegs {g : Engine} {later : List (Target × Nat)} {v : Nat} {l : List (Word × Nat × Nat)} :
    MemoriesOk (writeSegs g later v s l) := by
  fun_induction writeSegs g later v s l
  case case1 => exact h
  case case2 ih => exact ih (memoriesOk_engineWrite h)

theorem memoriesOk_copyRowMove {cl : Fin 64} {co : Fin 8} {x : Copy} {r : Nat} : MemoriesOk (copyRowMove s cl co x r) := by
  fun_cases copyRowMove s cl co x r
  case case1 => exact memoriesOk_writeSegs (memoriesOk_readSegs h)
  case case2 | case4 => exact memoriesOk_writeSegs h
  case case3 => exact memoriesOk_writeSegs (memoriesOk_engineError h)
  case case5 => exact memoriesOk_writeSegs (memoriesOk_readSegs h)
  case case6 => exact memoriesOk_engineError h
  case case7 => exact h
  case case8 => exact memoriesOk_writeSegs (memoriesOk_readSegs h)

theorem memoriesOk_counterAdd {g : Engine} {va : Word} {n : Nat} : MemoriesOk (counterAdd s g va n) := by
  fun_cases counterAdd s g va n
  case case1 | case2 => exact memoriesOk_engineError h
  case case3 => exact memoriesOk_tgtWrite h _ _ _

/-- A copy's count is added to its counter, if it names one. -/
theorem memoriesOk_added {o : Option Word} {g : Engine} {n : Nat} : MemoriesOk (match o with
    | some a => counterAdd s g a n
    | none => s) := by
  cases o with
  | none => exact h
  | some a => exact memoriesOk_counterAdd h

theorem memoriesOk_finishCopy {cl : Fin 64} {co : Fin 8} {q : Fin 4} : MemoriesOk (finishCopy s cl co q) := by
  fun_cases finishCopy s cl co q <;> exact h

theorem memoriesOk_copyLeave {cl : Fin 64} {co : Fin 8} {q : Fin 4} {x : Copy} : MemoriesOk (copyLeave s cl co q x).1 := by
  fun_cases copyLeave s cl co q x <;> exact h

theorem memoriesOk_copyStep {cl : Fin 64} {co : Fin 8} {q : Fin 4} : MemoriesOk (copyStep s cl co q) := by
  have hend (n : State × Copy) (r : List Copy) (hn : MemoriesOk n.1) : MemoriesOk
      (if copyDone n.2 then finishCopy (putCq n.1 cl co q (n.2 :: r)) cl co q else putCq n.1 cl co q (n.2 :: r)) :=
    memoriesOk_ite (memoriesOk_finishCopy (memoriesOk_updCore hn _ _ _)) (memoriesOk_updCore hn _ _ _)
  unfold copyStep
  split
  · exact h
  next x r _ =>
    have hl : MemoriesOk (copyLeave s cl co q x).1 := memoriesOk_copyLeave h
    refine memoriesOk_ite h (memoriesOk_ite hl (hend _ _ ?_))
    split
    · exact memoriesOk_added hl
    split
    · exact memoriesOk_added hl
    split
    · exact memoriesOk_copyRowMove hl
    · exact hl

/-! The matrix engine (R238 to R241). -/

theorem memoriesOk_relSlots {cl : Fin 64} {l : List (Shape × Word)} : MemoriesOk (relSlots s cl l) := by
  fun_induction relSlots s cl l
  case case1 => exact h
  case case2 ih => exact ih (memoriesOk_ite h h)

theorem memoriesOk_withAccumulators {cl : Fin 64} {e : TileEntry} {u ac start : Nat} {k : State → State} (hk : MemoriesOk (k s)) :
    MemoriesOk (withAccumulators s cl e u ac start k) := by
  fun_cases withAccumulators s cl e u ac start k
  case case1 => exact h
  case case2 => exact hk

theorem memoriesOk_withOperands {cl : Fin 64} {e : TileEntry} {need : SlotState} {l : List (Shape × Word)} {start : Nat}
    {k : State → State} (hk : MemoriesOk (k s)) : MemoriesOk (withOperands s cl e need l start k) := by
  fun_cases withOperands s cl e need l start k
  case case4 => exact hk
  all_goals exact h

theorem memoriesOk_withLeave {cl : Fin 64} {e : TileEntry} {k : State → State} (hk : ∀ u, MemoriesOk u → MemoriesOk (k u)) :
    MemoriesOk (withLeave s cl e k) := by
  fun_cases withLeave s cl e k
  case case1 => exact hk _ h
  case case2 => exact hk _ h
  case case3 => exact h

theorem memoriesOk_tileNext {cl : Fin 64} {next : Nat} {rel : Bool} {ops : List (Shape × Word)} :
    MemoriesOk (tileNext s cl next rel ops) := by
  fun_cases tileNext s cl next rel ops
  case case1 => exact memoriesOk_updThread (memoriesOk_updCluster (memoriesOk_ite (memoriesOk_relSlots h) h) _ _) _ _
  case case2 => exact h

theorem memoriesOk_runMma {cl : Fin 64} {e : TileEntry} {u ac : Nat} {rel : Bool} {a b : Word} :
    MemoriesOk (runMma s cl e u ac rel a b) := by
  refine memoriesOk_withOperands h (memoriesOk_withLeave h fun v hv => memoriesOk_withAccumulators hv ?_)
  dsimp only
  split
  · exact hv
  split
  · split
    · exact memoriesOk_tileNext hv
    · exact memoriesOk_tileNext (s := putCluster v _ _) hv
  · exact hv

theorem memoriesOk_runMmasp {cl : Fin 64} {e : TileEntry} {u ac : Nat} {rel : Bool} {a b m : Word} :
    MemoriesOk (runMmasp s cl e u ac rel a b m) := by
  refine memoriesOk_withOperands h (memoriesOk_withLeave h fun v hv => ?_)
  dsimp only
  split
  · split
    · exact hv
    · refine memoriesOk_withAccumulators hv ?_
      split
      · exact hv
      split
      · exact memoriesOk_tileNext hv
      · exact memoriesOk_tileNext (s := putCluster v _ _) hv
  · exact hv

theorem memoriesOk_writeTile {cl : Fin 64} {x : Shape} {w : Word} {b : Nat} {rows : List (List Nat)} :
    MemoriesOk (writeTile s cl x w b rows) :=
  memoriesOk_foldl _ (fun _ _ hs => memoriesOk_foldl _ (fun _ _ hs => memoriesOk_tgtWrite hs _ _ _) _ hs) _ h

theorem memoriesOk_fillSlot {cl : Fin 64} {x : Shape} {w : Word} {b : Nat} {vals : List Nat} {u : State}
    (hu : fillSlot s cl x w b vals = .ok u) : MemoriesOk u := by
  revert hu
  fun_cases fillSlot s cl x w b vals <;> rintro ⟨⟩
  exact h

theorem memoriesOk_runMdrain {cl : Fin 64} {e : TileEntry} {u ac cv rm : Nat} {scale : Option Word} {w : Word} :
    MemoriesOk (runMdrain s cl e u ac cv rm scale w) := by
  fun_cases runMdrain s cl e u ac cv rm scale w
  case case3 =>
    refine memoriesOk_withLeave h fun v hv => ?_
    dsimp only
    split
    · exact memoriesOk_withAccumulators hv (memoriesOk_updCluster (memoriesOk_updCluster (memoriesOk_writeTile hv) _ _) _ _)
    split
    case h_1 hu =>
      exact memoriesOk_withAccumulators hv (memoriesOk_updCluster (memoriesOk_updCluster (memoriesOk_fillSlot hv hu) _ _) _ _)
    all_goals exact hv
  all_goals exact h

theorem memoriesOk_tileRun {cl : Fin 64} {e : TileEntry} : MemoriesOk (tileRun s cl e) := by
  fun_cases tileRun s cl e
  case case1 => exact h
  case case2 => exact memoriesOk_runMma h
  case case3 => exact memoriesOk_runMmasp h
  case case4 => exact memoriesOk_withLeave h fun _ hu => hu
  case case5 => exact memoriesOk_runMdrain h

theorem memoriesOk_tileStep {cl : Fin 64} : MemoriesOk (tileStep s cl) := by
  fun_cases tileStep s cl
  case case3 => exact memoriesOk_tileRun h
  all_goals exact h

end
end Sys2Proof.Proofs
end

section
/-!
What launches, contexts, images and containment leave of the form of the memories (R331 to R345, R348 to R371).
-/

namespace Sys2Proof.Proofs

open Sys2Proof Sys2Proof.Machine Sys2Proof.Safety Sys2Proof.Laws

section
variable {s : State} (h : MemoriesOk s)
include h

/-! Queue blocks and launches (R331 to R345). -/

theorem memoriesOk_putBlockWord {q : Queue} {off v : Nat} : MemoriesOk (putBlockWord s q off v) :=
  memoriesOk_mem h (memWrite_wf _ _ _ h.1)

theorem memoriesOk_raiseWord {q : Queue} {off v : Nat} : MemoriesOk (raiseWord s q off v) :=
  memoriesOk_ite (memoriesOk_putBlockWord h) h

theorem memoriesOk_writeStart {n : Nat} : MemoriesOk (writeStart s n) := by
  fun_cases writeStart s n
  case case3 => exact memoriesOk_raiseWord h
  all_goals exact h

theorem memoriesOk_passDone {n : Nat} {q : Queue} {l : List (Nat × Launch)} : MemoriesOk (passDone n q l s) := by
  fun_induction passDone n q l s
  case case2 s1 s2 ih =>
    have h1 : MemoriesOk s1 := memoriesOk_raiseWord h
    have h2 : MemoriesOk s2 := memoriesOk_ite h1 h1
    exact ih h2
  all_goals exact h

theorem memoriesOk_writeDone {n : Nat} : MemoriesOk (writeDone s n) := by
  fun_cases writeDone s n
  case case1 => exact h
  case case2 => exact memoriesOk_passDone h

theorem memoriesOk_rejectLaunch {key : Nat} : MemoriesOk (rejectLaunch s key) := by
  fun_cases rejectLaunch s key
  case case3 s1 _ _ s2 s3 =>
    have h2 : MemoriesOk s2 := memoriesOk_putBlockWord (s := s1) h
    have h3 : MemoriesOk s3 := memoriesOk_ite h2 h2
    exact memoriesOk_writeDone (memoriesOk_writeStart h3)
  all_goals exact h

theorem memoriesOk_takePacket {n : Nat} {q : Queue} {va : Word} {p : Packet} : MemoriesOk (takePacket s n q va p) := by
  have h1 : MemoriesOk (putBlockWord s q qHead va.toNat) := memoriesOk_putBlockWord h
  unfold takePacket
  refine memoriesOk_ite ?_ ?_
  · exact memoriesOk_ite (memoriesOk_putBlockWord h1) (memoriesOk_putBlockWord h1)
  · refine memoriesOk_ite h1 (memoriesOk_rejectLaunch ?_)
    exact h1

theorem memoriesOk_startMcc {cl : Fin 64} {key : Nat} {x : Launch} : MemoriesOk (startMcc s cl key x) := h

theorem memoriesOk_ensureMcc {cl : Fin 64} {key : Nat} {x : Launch} : MemoriesOk (ensureMcc s cl key x) :=
  memoriesOk_ite h (memoriesOk_startMcc h)

theorem memoriesOk_performExit {t : Tid} : MemoriesOk (performExit s t) := by
  fun_cases performExit s t
  case case1 s2 =>
    have h2 : MemoriesOk s2 := h
    exact memoriesOk_foldl _ (fun _ _ hs => memoriesOk_settleCore hs _ _) _ (memoriesOk_updThread h2 _ _)
  case case2 s2 =>
    have h2 : MemoriesOk s2 := h
    exact memoriesOk_settleCore (memoriesOk_updThread h2 _ _) _ _

theorem keepsForm_exitThread : KeepsForm (exitThread s) := by
  have h1 : MemoriesOk (freeAccesses s s.cur) := h
  fun_cases exitThread s
  case case1 => exact memoriesOk_performExit h1
  case case2 => exact h1

theorem memoriesOk_exitStep {t : Tid} : MemoriesOk (exitStep s t) := memoriesOk_ite (memoriesOk_performExit h) h

/-! Containment (R370, R371). -/

theorem memoriesOk_performHanded {kept : List (Nat × Nat)} {n : Nat} {t : Tid} : MemoriesOk (performHanded kept n s t) := by
  fun_induction performHanded kept n s t
  case case3 ih => exact ih (memoriesOk_accessStep h)
  all_goals exact h

theorem memoriesOk_stopThread {kept : List (Nat × Nat)} {t : Tid} : MemoriesOk (stopThread kept s t) := by
  have h1 : MemoriesOk (drainHanded kept s t) := memoriesOk_performHanded h
  exact memoriesOk_congr h1 rfl rfl rfl

theorem memoriesOk_rejectAll {l : List Nat} : MemoriesOk (rejectAll l s) := by
  fun_induction rejectAll l s
  case case1 => exact h
  case case2 ih =>
    refine ih ?_
    split
    · exact memoriesOk_ite h (memoriesOk_rejectLaunch h)
    · exact h

theorem memoriesOk_rejectLinked {n fuel : Nat} : MemoriesOk (rejectLinked n fuel s) := by
  fun_induction rejectLinked n fuel s
  case case3 ih => exact ih (memoriesOk_takePacket h)
  all_goals exact h

theorem memoriesOk_endQueue {n : Nat} : MemoriesOk (endQueue s n) := by
  unfold endQueue unbind dropWaits
  exact memoriesOk_rejectLinked (memoriesOk_rejectAll h)

theorem memoriesOk_stopCore {p : Fin 64 × Fin 8} : MemoriesOk (stopCore s p) := h

theorem memoriesOk_contain {ctx : Fin 4096} {r : Report} {kept : List (Nat × Nat)} : MemoriesOk (contain s ctx r kept) := by
  fun_cases contain s ctx r kept
  case case1 => exact h
  case case2 x _ s1 _ s2 s3 s4 s5 s6 =>
    have h1 : MemoriesOk s1 := memoriesOk_putCtx (memoriesOk_ite h (memoriesOk_writeReport h _ _)) _ _
    have h2 : MemoriesOk s2 := memoriesOk_foldl _ (fun _ _ hs => memoriesOk_stopThread hs) _ h1
    have h3 : MemoriesOk s3 := memoriesOk_foldl _ (fun _ _ hs => memoriesOk_stopCore hs) _ h2
    have h4 : MemoriesOk s4 := memoriesOk_foldl _ (fun _ _ hs => memoriesOk_updCluster hs _ _) _ h3
    have h5 : MemoriesOk s5 := h4
    have h6 : MemoriesOk s6 := memoriesOk_ite (memoriesOk_writeDir h5 _) h5
    exact memoriesOk_foldl _ (fun _ _ hs => memoriesOk_endQueue hs) _ h6

theorem memoriesOk_containStep {who : Option Tid} {ctx : Fin 4096} {kept : List (Nat × Nat)} :
    MemoriesOk (containStep s who ctx kept) := by
  cases who <;> exact memoriesOk_ite (memoriesOk_contain h) h

theorem memoriesOk_containOwner {t : Tid} : MemoriesOk (containOwner s t) := memoriesOk_ite (memoriesOk_contain h) h

theorem memoriesOk_trapContain {t : Tid} {c : Nat} {f : Thread → Word} : MemoriesOk (trapContain s t c f) :=
  memoriesOk_contain (memoriesOk_putThread h _ _)

/-! Stopped threads, fault records and TRAP services (R150, R357 to R360). -/

theorem memoriesOk_resumeThread {t : Tid} : MemoriesOk (resumeThread s t) := by
  fun_cases resumeThread s t
  case case1 => exact h
  case case2 => exact h
  case case3 => exact memoriesOk_resumeHead (memoriesOk_updThread h _ _)

theorem memoriesOk_serviceWrite {t : Tid} {va : Word} {v : Nat} : MemoriesOk (serviceWrite s t va v) := by
  fun_cases serviceWrite s t va v
  case case1 => exact memoriesOk_tgtWrite h _ _ _
  case case2 => exact h

theorem memoriesOk_fillRecord {t : Tid} {va : Word} : MemoriesOk (fillRecord s t va) := by
  unfold fillRecord
  iterate 8 refine memoriesOk_serviceWrite ?_
  exact h

theorem memoriesOk_tileStepRecorded {cl : Fin 64} : MemoriesOk (tileStepRecorded s cl) := by
  have h1 : MemoriesOk (tileStep s cl) := memoriesOk_tileStep h
  fun_cases tileStepRecorded s cl
  case case1 => exact memoriesOk_fillRecord h1
  all_goals exact h1

theorem memoriesOk_resumeMcc {s0 : State} {ctx : Fin 4096} {cl : Fin 64} : MemoriesOk (resumeMcc s0 ctx s cl) := by
  fun_cases resumeMcc s0 ctx s cl
  case case1 => exact memoriesOk_resumeThread (memoriesOk_serviceWrite h)
  all_goals exact h

theorem memoriesOk_resumeSaved {s0 : State} {ctx : Fin 4096} {t : Tid} {p : Nat × Image} :
    MemoriesOk (resumeSaved s0 ctx t s p) := by
  have h1 (va : Word) : MemoriesOk (serviceWrite s t va 2) := memoriesOk_serviceWrite h
  fun_cases resumeSaved s0 ctx t s p
  case case1 => exact h1 _
  case case2 => exact h1 _
  all_goals exact h

theorem memoriesOk_resumeMccs {t : Tid} : MemoriesOk (resumeMccs s t) :=
  memoriesOk_foldl _ (fun _ _ hs => memoriesOk_resumeSaved hs) _ (memoriesOk_foldl _ (fun _ _ hs => memoriesOk_resumeMcc hs) _ h)

theorem keepsForm_serve {c : Nat} {rs : List Reg} {f : State → State} (hf : ∀ u, MemoriesOk u → MemoriesOk (f u)) :
    KeepsForm (serve s c rs f) := by
  unfold serve
  refine keepsForm_withRegs h fun th => ?_
  split
  · exact h
  · exact memoriesOk_updThread (hf _ (memoriesOk_putThread h _ _)) _ _

theorem keepsForm_execTrapReadTsw : KeepsForm (execTrapReadTsw s) := by
  unfold execTrapReadTsw
  exact keepsForm_serve h fun u hu => memoriesOk_ite hu hu

theorem keepsForm_execTrapAbort : KeepsForm (execTrapAbort s) := by
  unfold execTrapAbort
  refine keepsForm_withRegs h fun th => ?_
  split
  · exact h
  · exact memoriesOk_trapContain h

theorem keepsForm_execTrapRegisterFaultRecord : KeepsForm (execTrapRegisterFaultRecord s) := by
  unfold execTrapRegisterFaultRecord
  refine keepsForm_withRegs h fun th => ?_
  split
  · exact h
  split
  · exact memoriesOk_trapContain h
  · exact keepsForm_serve h fun _ hu => hu

/-! Images: saving and restoring (R362 to R369). -/

theorem memoriesOk_foldl_updThread {l : List Tid} {f : Thread → Thread} : MemoriesOk (l.foldl (fun s t => updThread s t f) s) :=
  memoriesOk_foldl _ (fun _ _ hs => memoriesOk_updThread hs _ _) _ h

theorem memoriesOk_saveCore {cl : Fin 64} {co : Fin 8} {named : List (Nat × Nat)} : MemoriesOk (saveCore s cl co named) := by
  fun_cases saveCore s cl co named
  case case1 s0 s1 s2 s3 _ =>
    have h0 : MemoriesOk s0 := memoriesOk_putImagePages h _ _ _
    have h1 : MemoriesOk s1 := memoriesOk_putCore h0 _ _ _
    have h2 : MemoriesOk s2 := memoriesOk_updCluster h1 _ _
    exact memoriesOk_returnShare (memoriesOk_foldl_updThread h2) _ _
  case case2 s0 s1 s2 s3 _ =>
    have h0 : MemoriesOk s0 := memoriesOk_putImagePages h _ _ _
    have h1 : MemoriesOk s1 := memoriesOk_putCore h0 _ _ _
    have h2 : MemoriesOk s2 := memoriesOk_updCluster h1 _ _
    exact memoriesOk_foldl_updThread h2
  case case3 => exact h

theorem memoriesOk_saveMcc {cl : Fin 64} {named : List (Nat × Nat)} : MemoriesOk (saveMcc s cl named) := by
  fun_cases saveMcc s cl named
  case case1 => exact h
  case case2 s1 s2 s3 _ =>
    have h1 : MemoriesOk s1 := memoriesOk_putImagePages h _ _ _
    have h2 : MemoriesOk s2 := memoriesOk_updCluster h1 _ _
    exact memoriesOk_returnShare (memoriesOk_updThread h2 _ _) _ _
  case case3 s1 s2 s3 _ =>
    have h1 : MemoriesOk s1 := memoriesOk_putImagePages h _ _ _
    have h2 : MemoriesOk s2 := memoriesOk_updCluster h1 _ _
    exact memoriesOk_updThread h2 _ _

theorem memoriesOk_leaveEmpty {cl : Fin 64} {co : Fin 8} {key : Nat} : MemoriesOk (leaveEmpty s cl co key) := by
  fun_cases leaveEmpty s cl co key
  case case1 => exact memoriesOk_returnShare (memoriesOk_foldl_updThread h) _ _
  case case2 => exact memoriesOk_foldl_updThread h
  case case3 => exact memoriesOk_returnCore h _ _

theorem memoriesOk_saveStep {cl : Fin 64} {co : Fin 8} {mcc : Bool} {named : List (Nat × Nat)} :
    MemoriesOk (saveStep s cl co mcc named) := by
  fun_cases saveStep s cl co mcc named
  case case1 => exact memoriesOk_saveMcc h
  case case5 => exact memoriesOk_leaveEmpty h
  case case6 => exact memoriesOk_saveCore h
  all_goals exact h

theorem memoriesOk_askAgain {t : Tid} : MemoriesOk (askAgain s t) := by
  fun_cases askAgain s t <;> exact h

theorem memoriesOk_moveArrivals {key me : Nat} {old new : Fin 64} : MemoriesOk (moveArrivals s key old new me) := h

theorem memoriesOk_placeThreads {key : Nat} {old : Fin 64} {l : List (Thread × Tid)} :
    MemoriesOk (placeThreads s key old l) := by
  fun_induction placeThreads s key old l
  case case1 => exact h
  case case2 s1 s2 ih =>
    have h1 : MemoriesOk s1 := h
    have h2 : MemoriesOk s2 := memoriesOk_ite h1 (memoriesOk_moveArrivals h1)
    exact ih (memoriesOk_askAgain h2)

theorem memoriesOk_restoreCore {k : Nat} {x : Image} {cl : Fin 64} {co : Fin 8} : MemoriesOk (restoreCore s k x cl co) := by
  fun_cases restoreCore s k x cl co
  case case3 s1 _ _ _ _ _ _ s2 s3 =>
    have h1 : MemoriesOk s1 := memoriesOk_giveCore h _ _ _ _
    have h2 : MemoriesOk s2 := h1
    exact memoriesOk_placeThreads (memoriesOk_dropImage h2 _ _)
  all_goals exact h

theorem memoriesOk_restoreMcc {k : Nat} {x : Image} : MemoriesOk (restoreMcc s k x) :=
  memoriesOk_placeThreads (memoriesOk_updCluster (memoriesOk_dropImage h _ _) _ _)

theorem memoriesOk_resumeCore {k : Nat} {x : Image} {l : Launch} {cl : Fin 64} {co : Fin 8} :
    MemoriesOk (resumeCore s k x l cl co) := by
  have h1 : MemoriesOk (restoreCore s k x cl co) := memoriesOk_restoreCore h
  exact memoriesOk_ite h1 (memoriesOk_ensureMcc (memoriesOk_ite (memoriesOk_holdShare h1 _ _ _) h1))

theorem memoriesOk_restoreStep {k : Nat} {cl : Fin 64} {co : Fin 8} : MemoriesOk (restoreStep s k cl co) := by
  fun_cases restoreStep s k cl co
  case case4 => exact memoriesOk_updCluster (memoriesOk_restoreMcc h) _ _
  case case6 => exact memoriesOk_updCluster (memoriesOk_resumeCore h) _ _
  all_goals exact h

theorem memoriesOk_moveImages {ctx : Fin 4096} {flash : Bool} : MemoriesOk (moveImages s ctx flash) := by
  fun_cases moveImages s ctx flash
  case case1 s1 _ =>
    have h1 : MemoriesOk s1 := h
    exact memoriesOk_writeDir h1 _
  case case2 => exact h

theorem memoriesOk_swapOut {ctx : Fin 4096} : MemoriesOk (swapOut s ctx) :=
  memoriesOk_ite (memoriesOk_putCtx (memoriesOk_moveImages h) _ _) h

theorem memoriesOk_swapIn {ctx : Fin 4096} : MemoriesOk (swapIn s ctx) :=
  memoriesOk_ite (memoriesOk_putCtx (memoriesOk_moveImages h) _ _) h

/-! Translation, patterns and contexts (R348 to R355). -/

theorem memoriesOk_invalidate {ctx : Fin 4096} : MemoriesOk (invalidate s ctx) := memoriesOk_ite h h

theorem memoriesOk_invalidated {ctx : Fin 4096} : MemoriesOk (invalidated s ctx) :=
  memoriesOk_ite (memoriesOk_congr h rfl rfl rfl) h

theorem memoriesOk_walkStep {cl : Fin 64} {co : Fin 8} {ctx : Fin 4096} {va : Word} : MemoriesOk (walkStep s cl co ctx va) := by
  fun_cases walkStep s cl co ctx va <;> exact h

theorem memoriesOk_writeEntries {l : List (Nat × Nat)} : MemoriesOk (writeEntries s l) :=
  memoriesOk_foldl _ (fun _ _ hs => memoriesOk_tgtWrite hs _ _ _) _ h

theorem memoriesOk_demandStep {t : Tid} {l : List (Nat × Nat)} : MemoriesOk (demandStep s t l) := by
  fun_cases demandStep s t l
  case case1 => exact memoriesOk_resumeThread (memoriesOk_writeEntries h)
  all_goals exact h

theorem memoriesOk_bindPattern {ctx : Fin 4096} {n : Nat} {ws : List Word} {keep : List Nat} {u : State}
    (hu : bindPattern s ctx n ws keep = some u) : MemoriesOk u := by
  revert hu
  fun_cases bindPattern s ctx n ws keep <;> rintro ⟨⟩
  exact memoriesOk_foldl _ (fun _ _ hs => memoriesOk_updCore hs _ _ _) _ (memoriesOk_putCtx h _ _)

theorem memoriesOk_loadStep {t : Tid} : MemoriesOk (loadStep s t) := by
  fun_cases loadStep s t
  case case3 hu => exact memoriesOk_resumeThread (memoriesOk_bindPattern h hu)
  all_goals exact h

theorem memoriesOk_debuggerStep {t : Tid} {past : Bool} : MemoriesOk (debuggerStep s t past) := by
  fun_cases debuggerStep s t past
  case case1 => exact memoriesOk_resumeThread (memoriesOk_ite (memoriesOk_putThread h _ _) h)
  case case2 => exact h

theorem memoriesOk_unbind {n : Nat} : MemoriesOk (unbind s n) := h

theorem memoriesOk_destroyContext {ctx : Fin 4096} : MemoriesOk (destroyContext s ctx) := by
  fun_cases destroyContext s ctx
  case case1 s1 s2 =>
    have h1 : MemoriesOk s1 := memoriesOk_foldl _ (fun _ _ hs => memoriesOk_unbind hs) _ h
    exact h1
  case case2 => exact h

end
end Sys2Proof.Proofs
end

section
/-!
What the front end, the scheduler, the links, the host and the service operations leave of the form of the memories (R331 to R347,
R371 to R388).
-/

namespace Sys2Proof.Proofs

open Sys2Proof Sys2Proof.Machine Sys2Proof.Safety Sys2Proof.Laws

section
variable {s : State} (h : MemoriesOk s)
include h

/-! The front end (R331 to R338). -/

theorem memoriesOk_frontLog {ctx : Fin 4096} {va : Word} {code : Nat} : MemoriesOk (frontLog s ctx va code) :=
  memoriesOk_logViolation h _ _ _ _

theorem memoriesOk_putQueue {n : Nat} {q : Queue} : MemoriesOk (putQueue s n q) := h

theorem memoriesOk_bindStep {n block : Nat} {w : Word} : MemoriesOk (bindStep s n block w) := by
  fun_cases bindStep s n block w
  case case1 _ _ _ _ _ s1 =>
    have h1 : MemoriesOk s1 := memoriesOk_unbind h
    have h2 := memoriesOk_mem h1 (memWrite_wf block 64 (boundBlock (memRead s.mem (block + qBind) 8) w) h1.1)
    exact h2
  case case2 => exact h

theorem memoriesOk_acceptStep {n : Nat} {again : Bool} : MemoriesOk (acceptStep s n again) := by
  fun_cases acceptStep s n again
  case case3 => exact memoriesOk_contain h
  case case5 s1 _ _ _ =>
    have h1 : MemoriesOk s1 := h
    exact memoriesOk_putQueue (memoriesOk_frontLog h1)
  case case6 s1 _ _ _ => exact memoriesOk_takePacket (s := s1) h
  all_goals exact h

theorem memoriesOk_clearMarks {lo n : Nat} : MemoriesOk (clearMarks s lo n) := by
  fun_induction clearMarks s lo n
  case case1 => exact h
  case case2 ih => exact ih h

theorem memoriesOk_unbindPatterns {ctx : Fin 4096} : MemoriesOk (unbindPatterns s ctx) := h

theorem memoriesOk_bindEach {x : Launch} {keep : List Nat} {ns : List (Fin 32)} {u : State}
    (hu : bindEach s x keep ns = some u) : MemoriesOk u := by
  revert hu
  fun_induction bindEach s x keep ns
  case case1 => rintro ⟨⟩; exact h
  case case4 hb ih => exact ih (memoriesOk_bindPattern h hb)
  all_goals rintro ⟨⟩

theorem memoriesOk_bindAll {x : Launch} {ns : List (Fin 32)} {u : State} (hu : bindAll s x ns = some u) : MemoriesOk u := by
  unfold bindAll at hu
  cases hb : bindEach s x (boundRight s x ns) ns with
  | none => exact memoriesOk_bindEach (memoriesOk_unbindPatterns h) (by simpa [hb] using hu)
  | some v =>
    obtain rfl : v = u := by simpa [hb] using hu
    exact memoriesOk_bindEach h hb

theorem memoriesOk_startLaunch {key : Nat} {x : Launch} : MemoriesOk (startLaunch s key x) := by
  fun_cases startLaunch s key x
  case case1 => exact h
  all_goals
    rename_i s1 hb i y s2 s3 s4 _
    have h2 : MemoriesOk s2 := memoriesOk_putLaunch (memoriesOk_clearMarks (memoriesOk_bindAll h hb)) _ _
    have h3 : MemoriesOk s3 := h2
    have h4 : MemoriesOk s4 := memoriesOk_writeStart h3
  case case2 => exact memoriesOk_writeDone h4
  case case3 => exact h4

theorem memoriesOk_launchStartStep {f : Nat} : MemoriesOk (launchStartStep s f) := by
  fun_cases launchStartStep s f
  case case1 => exact h
  case case2 => exact memoriesOk_startLaunch h

/-! The scheduler (R339 to R343). -/

theorem memoriesOk_startIteration {t : Tid} {key : Nat} {x : Launch} {serial stage : Nat} :
    MemoriesOk (startIteration s t key x serial stage) := memoriesOk_updThread h _ _

theorem memoriesOk_assignStep {cl : Fin 64} {co : Fin 8} : MemoriesOk (assignStep s cl co) := by
  fun_cases assignStep s cl co
  all_goals
    rename_i s0 _ _
    have h0 : MemoriesOk (settleCore s cl co) := memoriesOk_settleCore h _ _
  case case4 =>
    exact memoriesOk_updCluster (memoriesOk_ite (memoriesOk_ensureMcc (memoriesOk_assignCore h0 _ _ _ _))
      (memoriesOk_assignCore h0 _ _ _ _)) _ _
  all_goals exact h0

theorem memoriesOk_handoutStep {cl : Fin 64} {co : Fin 8} {i : Fin 4} : MemoriesOk (handoutStep s cl co i) := by
  fun_cases handoutStep s cl co i
  case case3 => exact memoriesOk_settleCore h _ _
  case case4 => exact memoriesOk_startIteration (memoriesOk_ensureMcc (memoriesOk_putLaunch h _ _))
  all_goals exact h

theorem memoriesOk_gangChoiceStep : MemoriesOk (gangChoiceStep s) := by
  fun_cases gangChoiceStep s
  case case2 => exact memoriesOk_putLaunch (memoriesOk_updCluster h _ _) _ _
  all_goals exact h

theorem memoriesOk_settleAll {cl : Fin 64} : MemoriesOk (allCores.foldl (fun s co => settleCore s cl co) s) :=
  memoriesOk_foldl _ (fun _ _ hs => memoriesOk_settleCore hs _ _) _ h

theorem memoriesOk_assignAll {cl : Fin 64} {key : Nat} {x : Launch} :
    MemoriesOk (allCores.foldl (fun s co => assignCore s cl co key x) s) :=
  memoriesOk_foldl _ (fun _ _ hs => memoriesOk_assignCore hs _ _ _ _) _ h

theorem memoriesOk_gangStartStep {cl : Fin 64} : MemoriesOk (gangStartStep s cl) := by
  have h0 : MemoriesOk (allCores.foldl (fun s co => settleCore s cl co) s) := memoriesOk_settleAll h
  unfold gangStartStep
  generalize allCores.foldl (fun s co => settleCore s cl co) s = s0 at h0 ⊢
  dsimp only
  split
  · exact h0
  split
  · exact memoriesOk_updCluster h0 _ _
  split
  · exact h0
  refine memoriesOk_ite ?_ h0
  have h1 := memoriesOk_updCluster h0 cl
  exact memoriesOk_foldl _ (fun _ _ hs => memoriesOk_startIteration hs) _
    (memoriesOk_ensureMcc (memoriesOk_assignAll (memoriesOk_putLaunch (h1 _) _ _)))

theorem memoriesOk_ageStep {key : Nat} : MemoriesOk (ageStep s key) := by
  fun_cases ageStep s key
  case case2 => exact memoriesOk_putLaunch h _ _
  all_goals exact h

theorem memoriesOk_askMcc {key : Nat} {x : Launch} {cl : Fin 64} : MemoriesOk (askMcc s key x cl) := by
  fun_cases askMcc s key x cl
  case case4 => exact memoriesOk_updThread h _ _
  all_goals exact h

theorem memoriesOk_askCore {cl : Fin 64} {co : Fin 8} : MemoriesOk (askCore s cl co) := memoriesOk_foldl_updThread h

theorem memoriesOk_preemptStep {key : Nat} {cl : Fin 64} : MemoriesOk (preemptStep s key cl) := by
  fun_cases preemptStep s key cl
  case case2 s1 =>
    have h1 : MemoriesOk s1 := by
      unfold s1
      split
      · exact h
      · exact memoriesOk_askCore h
    exact memoriesOk_askMcc h1
  all_goals exact h

theorem memoriesOk_launchDoneStep {n : Nat} : MemoriesOk (launchDoneStep s n) :=
  memoriesOk_writeDone (memoriesOk_foldl _ (fun _ _ hs => memoriesOk_putLaunch hs _ _) _ h)

/-! The links (R371 to R374). -/

theorem memoriesOk_getD {α : Type} {o : Option (State × α)} (ho : ∀ r, o = some r → MemoriesOk r.1) :
    MemoriesOk ((o.map fun r => r.1).getD s) := by
  cases o with
  | none => exact h
  | some r => exact ho r rfl

theorem memoriesOk_flitEffect {a : FlitAccess} : MemoriesOk (flitEffect s a) := by
  fun_cases flitEffect s a
  case case3 => exact memoriesOk_tgtWrite h _ _ _
  case case5 => exact memoriesOk_tgtWrite h _ _ _
  case case7 => exact memoriesOk_getD h fun _ hr => memoriesOk_appendAt h hr
  case case9 => exact memoriesOk_getD h fun _ hr => memoriesOk_publishAt h hr
  all_goals exact h

theorem memoriesOk_flitPerform {a : FlitAccess} : MemoriesOk (flitPerform s a) :=
  have h1 : MemoriesOk (flitEffect s a) := memoriesOk_flitEffect h
  memoriesOk_mem h1 (keepRecords_wf _ _ _ h1.1)

theorem memoriesOk_peerPerform {a : FlitAccess} : MemoriesOk (peerPerform s a) := by
  fun_cases peerPerform s a
  case case1 s1 _ => exact memoriesOk_flitPerform (s := s1) h
  case case2 => exact h

theorem memoriesOk_putPeerWait {l : List FlitAccess} : MemoriesOk { s with peerWait := l } := h

theorem memoriesOk_peerDrain {n : Nat} : MemoriesOk (peerDrain n s) := by
  fun_induction peerDrain n s
  case case3 ih => exact ih (memoriesOk_peerPerform (memoriesOk_putPeerWait h))
  all_goals exact h

theorem memoriesOk_peerTurn : MemoriesOk (peerTurn s) := memoriesOk_peerDrain h

theorem memoriesOk_homeAccess {a : FlitAccess} : MemoriesOk (homeAccess s a) := by
  fun_cases homeAccess s a
  case case1 => exact h
  case case2 => exact memoriesOk_peerTurn (memoriesOk_putPeerWait h)

theorem memoriesOk_putLink {p : Nat} {l : Link} : MemoriesOk (putLink s p l) := h

theorem memoriesOk_flitStep {p q : Nat} {crc : Bool} {a : FlitAccess} : MemoriesOk (flitStep s p q crc a) := by
  fun_cases flitStep s p q crc a
  case case1 => exact memoriesOk_homeAccess (memoriesOk_putLink h)
  case case2 => exact h

theorem memoriesOk_replayStep {p n : Nat} {bad : Bool} : MemoriesOk (replayStep s p n bad) := by
  fun_cases replayStep s p n bad <;> exact h

theorem memoriesOk_downStep {p : Nat} {lost : Bool} {l : List Byte} : MemoriesOk (downStep s p lost l) := by
  fun_cases downStep s p lost l <;> exact h

theorem memoriesOk_trainStep {p q : Nat} {ok : Bool} {l : List Byte} : MemoriesOk (trainStep s p ok q l) := by
  fun_cases trainStep s p ok q l <;> exact h

theorem memoriesOk_retireStep {p : Nat} : MemoriesOk (retireStep s p) := by
  fun_cases retireStep s p <;> exact h

theorem memoriesOk_aerStep {e : Nat} : MemoriesOk (aerStep s e) := h

/-! The host and the Ethernet port (R375 to R379). -/

theorem memoriesOk_askPreempt {t : Tid} {w : Word} : MemoriesOk (askPreempt s t w) :=
  memoriesOk_ite (memoriesOk_updThread h _ _) h

theorem memoriesOk_writeTswp {t : Tid} {w : Word} : MemoriesOk (writeTswp s t w) :=
  memoriesOk_ite (memoriesOk_updCluster h _ _) h

theorem memoriesOk_writeRegister {t : Tid} {n : Nat} {w : Word} : MemoriesOk (writeRegister s t n w) := by
  fun_cases writeRegister s t n w <;> exact h

theorem memoriesOk_controlWrite {r : ControlReg} {w : Word} : MemoriesOk (controlWrite s r w) := by
  fun_cases controlWrite s r w
  case case1 => exact memoriesOk_askPreempt h
  case case2 => exact memoriesOk_writeTswp h
  case case4 => exact memoriesOk_writeRegister h
  all_goals exact h

theorem keepsForm_hostStep {a : HostAccess} : KeepsForm (hostStep s a) := by
  fun_cases hostStep s a
  case case1 => trivial
  case case5 => trivial
  case case6 => exact memoriesOk_dmaWrite h _ _
  case case9 => exact memoriesOk_ite (memoriesOk_controlWrite h) h
  case case7 => exact memoriesOk_ite h h
  all_goals exact h

theorem keepsForm_frameStep {pa : Nat} {b : List Byte} : KeepsForm (frameStep s pa b) := by
  fun_cases frameStep s pa b
  case case1 => exact h
  case case2 => trivial
  case case3 => exact memoriesOk_ite h (memoriesOk_dmaWrite h _ _)

theorem memoriesOk_rollbackStep : MemoriesOk (rollbackStep s) := memoriesOk_ite h h

theorem memoriesOk_attestStep {l : List Byte} {ctx : Option (Fin 4096)} {pa : Nat} : MemoriesOk (attestStep s l ctx pa) := by
  fun_cases attestStep s l ctx pa
  case case1 s1 =>
    have h1 : MemoriesOk s1 := memoriesOk_dmaWrite h _ _
    exact h1
  case case2 => exact h

/-! Reliability (R380 to R387). -/

theorem memoriesOk_correctedStep {c : CorrectedSite} : MemoriesOk (correctedStep s c) := by
  cases c <;> exact h

theorem memoriesOk_poisonLine {n : Nat} : MemoriesOk (poisonLine s n) := h

theorem memoriesOk_scrubStep {n : Nat} {bad : Bool} : MemoriesOk (scrubStep s n bad) :=
  memoriesOk_ite (memoriesOk_poisonLine h) h

theorem memoriesOk_poisonWord {cl : Fin 64} {co : Fin 8} {n : Nat} : MemoriesOk (poisonWord s cl co n) := h

theorem memoriesOk_leafErrorStep {cl : Fin 64} {co : Fin 8} {n : Nat} {bad hdr : Bool} :
    MemoriesOk (leafErrorStep s cl co n bad hdr) := by
  fun_cases leafErrorStep s cl co n bad hdr <;> exact h

theorem memoriesOk_leafClearStep {cl : Fin 64} {co : Fin 8} {n : Nat} : MemoriesOk (leafClearStep s cl co n) :=
  memoriesOk_updCore h _ _ _

theorem memoriesOk_rebuildStep {cl : Fin 64} {co : Fin 8} : MemoriesOk (rebuildStep s cl co) :=
  memoriesOk_ite (memoriesOk_putCore h _ _ _) h

theorem memoriesOk_passCheckStep : MemoriesOk (passCheckStep s) := memoriesOk_ite h h

theorem memoriesOk_moveContext {moves : List (Nat × Nat)} {p : Nat × Context} : MemoriesOk (moveContext moves s p) := by
  fun_cases moveContext moves s p
  case case1 =>
    have h1 := memoriesOk_foldl (moveEntry moves) (fun _ _ hs => memoriesOk_moveEntry hs _ _) (contextEntries s p.2) h
    exact h1
  case case2 => exact h

theorem memoriesOk_moveUnmapped {moves : List (Nat × Nat)} : MemoriesOk (moveUnmapped moves s) :=
  memoriesOk_foldl _ (fun _ _ hs => memoriesOk_ite hs (memoriesOk_copyPage hs _ _ _)) _ h

theorem memoriesOk_moveBlocks {l : List (Nat × Nat × Nat)} : MemoriesOk (moveBlocks l s) := h

theorem memoriesOk_moveMarks {l : List (Nat × Nat × Nat)} : MemoriesOk (moveMarks l s) := h

theorem memoriesOk_channelStep {n : Nat} {moves : List (Nat × Nat)} : MemoriesOk (channelStep s n moves) := by
  fun_cases channelStep s n moves
  case case3 pages s1 _ =>
    have hc : MemoriesOk (s.ctxs.foldl (moveContext moves) (moveUnmapped moves s)) :=
      memoriesOk_foldl _ (fun _ _ hs => memoriesOk_moveContext hs) _ (memoriesOk_moveUnmapped h)
    have h1 : MemoriesOk s1 := memoriesOk_moveMarks (memoriesOk_moveBlocks hc)
    exact h1
  all_goals exact h

theorem memoriesOk_healthStep : MemoriesOk (healthStep s) := by
  have h1 : MemoriesOk (s.ctxs.foldl copyVrec s) := memoriesOk_foldl _ (fun _ _ hs => memoriesOk_copyVrec hs _) _ h
  exact memoriesOk_ite (memoriesOk_congr h1 rfl rfl rfl) h

/-- A device reset empties device memory and the scratchpads; the peers' memory is not its own (R376). -/
theorem memoriesOk_resetStep : MemoriesOk (resetStep s) := by
  obtain ⟨-, -, hp⟩ := h
  unfold resetStep
  dsimp only
  split
  · exact ⟨rfl, rfl, hp⟩
  · exact ⟨rfl, rfl, hp⟩

theorem memoriesOk_countStructure {x : StructureSite} : MemoriesOk (countStructure s x) := by
  cases x <;> exact h

theorem memoriesOk_structureStep {x : StructureSite} : MemoriesOk (structureStep s x) := by
  have h1 : MemoriesOk (countStructure s x) := memoriesOk_countStructure h
  fun_cases structureStep s x
  case case1 => exact memoriesOk_containOwner h1
  case case2 => exact memoriesOk_contain h1
  case case4 => exact memoriesOk_contain h1
  case case6 => exact memoriesOk_contain h1
  case case8 => exact memoriesOk_updCluster h1 _ _
  case case10 => exact memoriesOk_poisonLine h1
  case case11 => exact memoriesOk_updCore h1 _ _ _
  all_goals exact h1

theorem memoriesOk_budgetStep {cl : Fin 64} {n : Nat} : MemoriesOk (budgetStep s cl n) := memoriesOk_updCluster h _ _

theorem memoriesOk_powcapStep {cl : Fin 64} {n : Nat} : MemoriesOk (powcapStep s cl n) := memoriesOk_updCluster h _ _

end
end Sys2Proof.Proofs
end

section
/-!
Every instruction and every turn of the schedule keeps the form of the memories, and so every step does (log 7).
-/

namespace Sys2Proof.Proofs

open Sys2Proof Sys2Proof.Machine Sys2Proof.Safety Sys2Proof.Laws

section
variable {s : State} (h : MemoriesOk s)
include h

/-! What ends a thread's waits. -/

theorem memoriesOk_pendingFault {t : Tid} {d : Bool} : MemoriesOk (pendingFault s t d) := by
  fun_cases pendingFault s t d
  case case2 => exact memoriesOk_takeFault h _ _ _ _ _
  all_goals exact h

theorem memoriesOk_xretStep {t : Tid} : MemoriesOk (xretStep s t) := by
  fun_cases xretStep s t
  case case2 => exact memoriesOk_leaveHandler h
  all_goals exact h

theorem memoriesOk_endWait {t : Tid} {w : Wait} {now : Bool} : MemoriesOk (endWait s t w now) :=
  memoriesOk_ite (memoriesOk_updThread h _ _) h

theorem memoriesOk_watermarkStep {t : Tid} : MemoriesOk (watermarkStep s t) := by
  fun_cases watermarkStep s t
  case case1 => exact memoriesOk_putThread h _ _
  all_goals exact h

theorem memoriesOk_barrierStep {t : Tid} {n : Fin 16} : MemoriesOk (barrierStep s t n) := by
  fun_cases barrierStep s t n
  case case1 => exact memoriesOk_phaseDone h
  case case2 => exact h

theorem memoriesOk_leaveGranted {p : LeaveParty} : MemoriesOk (leaveGranted s p) := by
  cases p <;> exact h

theorem memoriesOk_putCluster {cl : Fin 64} {c : Cluster} : MemoriesOk (putCluster s cl c) := h

theorem memoriesOk_grantLeave {cl : Fin 64} : MemoriesOk (grantLeave s cl) := by
  fun_cases grantLeave s cl
  case case2 => exact memoriesOk_leaveGranted (memoriesOk_putCluster h)
  all_goals exact h

theorem memoriesOk_casListed {t : Tid} {key : Nat} {bad : Bool} : MemoriesOk (casListed s t key bad) := h

theorem keepsForm_whenRunning {f : State → State} (hf : ∀ u, MemoriesOk u → MemoriesOk (f u)) : KeepsForm (whenRunning s f) :=
  memoriesOk_ite (hf s h) h

/-! The shapes that the instructions share. -/

theorem keepsForm_int3 {d a b : Reg} {f : Word → Word → Word} : KeepsForm (int3 s d a b f) := keepsForm_scalarOp h

theorem keepsForm_int2 {d a : Reg} {f : Word → Word} : KeepsForm (int2 s d a f) := keepsForm_scalarOp h

theorem keepsForm_half2 {d a : Reg} {f : Word → Word → Word} : KeepsForm (half2 s d a f) := keepsForm_scalarOp h

theorem keepsForm_intDiv {d a b : Reg} {f : Nat → Nat → Res} : KeepsForm (intDiv s d a b f) := keepsForm_scalarFlags h

theorem keepsForm_fpMin {d a b : Reg} {mx : Bool} {p : Fin 4} : KeepsForm (fpMin s mx d a b p) := keepsForm_scalarFlags h

theorem keepsForm_fpRel {op : CmpOp} {d a b : Reg} {p : Fin 4} : KeepsForm (fpRel s op d a b p) := keepsForm_scalarFlags h

theorem keepsForm_fp3 {op : FpOp} {d a b : Reg} {p : Fin 4} {r : Fin 8} : KeepsForm (fp3 s op d a b p r) := keepsForm_fpRounded h

theorem keepsForm_branch2 {a b : Reg} {off : BitVec 13} {f : Word → Word → Bool} : KeepsForm (branch2 s a b off f) :=
  keepsForm_branch h

theorem keepsForm_intVV {op : IntOp} {d a b : Reg} {m : MaskF} {x : Bool} : KeepsForm (intVV s op d a b m x) := keepsForm_push h

theorem keepsForm_intVS {op : IntOp} {d a b : Reg} {m : MaskF} {x : Bool} : KeepsForm (intVS s op d a b m x) := keepsForm_push h

theorem keepsForm_intVI {op : IntOp} {d a : Reg} {i : Int} : KeepsForm (intVI s op d a i) := keepsForm_push h

theorem keepsForm_fpVV {op : FpOp} {d a b : Reg} {m : MaskF} {x : Bool} : KeepsForm (fpVV s op d a b m x) := keepsForm_push h

theorem keepsForm_fpVS {op : FpOp} {d a b : Reg} {m : MaskF} {x : Bool} : KeepsForm (fpVS s op d a b m x) := keepsForm_push h

theorem keepsForm_fpV {op : FpOp} {d a : Reg} {m : MaskF} {x : Bool} : KeepsForm (fpV s op d a m x) := keepsForm_push h

theorem keepsForm_cmpVV {op : CmpOp} {d m : MaskF} {a b : Reg} : KeepsForm (cmpVV s op d a b m) := keepsForm_push h

theorem keepsForm_cmpVS {op : CmpOp} {d m : MaskF} {a b : Reg} : KeepsForm (cmpVS s op d a b m) := keepsForm_push h

theorem keepsForm_reduce {op : RedOp} {d a b : Reg} {m : MaskF} : KeepsForm (reduce s op d a b m) := keepsForm_push h

theorem keepsForm_execMdrain {u : Fin 16} {ac : Fin 4} {cv : Fin 16} {rm : Fin 8} {sc : Bool} {d g : Reg} :
    KeepsForm (execMdrain u ac cv rm sc d g s) := by
  unfold execMdrain
  exact keepsForm_issueTile h

theorem keepsForm_execTrapUnassigned {c : Fin 64} : KeepsForm (execTrapUnassigned c s) := by
  unfold execTrapUnassigned
  exact keepsForm_serve h fun _ hu => hu

theorem keepsForm_execTrapReadViolationLog : KeepsForm (execTrapReadViolationLog s) := by
  unfold execTrapReadViolationLog
  exact keepsForm_serve h fun _ hu => memoriesOk_readLog hu _

theorem keepsForm_execTrapResumeMcc : KeepsForm (execTrapResumeMcc s) := by
  unfold execTrapResumeMcc
  exact keepsForm_serve h fun _ hu => memoriesOk_resumeMccs hu

/-- Every instruction and every event, by the operation that it shares with others. -/
theorem keepsForm_exec (i : Instr) : KeepsForm (exec i s) := by
  cases i
  all_goals unfold exec
  case add | sub | mul | mulh | mulhn | and | or | xor | shl | shr | sra | rot | min | max | minn | maxn | slt | sltn |
      seq => exact keepsForm_int3 h
  case csel | lim | limK | hmov | hinc | hshl => exact keepsForm_scalarOp h
  case clz | ctz | popc | sext | zext | addi | andi | ori | xori | shli | shri | srai | slti | sltni => exact keepsForm_int2 h
  case hadd | hsub | hand | hor => exact keepsForm_half2 h
  case div | divn | rem | remn => exact keepsForm_intDiv h
  case fmin | fmax => exact keepsForm_fpMin h
  case feq | flt | fle => exact keepsForm_fpRel h
  case fadd | fsub | fmul | fdiv => exact keepsForm_fp3 h
  case fsqrt | fma | fcvt | fcvti | fcvtf => exact keepsForm_fpRounded h
  case ld | hldd => exact keepsForm_loadAccess h
  case st | hstd => exact keepsForm_storeAccess h
  case amoadd | amoand | amoor | amoxor | amomin | amomax | amoswap | amofadd | cas => exact keepsForm_atomic h
  case apnd | apub => exact keepsForm_regionAccess h
  case beq | bne | blt | bge | bltn | bgen => exact keepsForm_branch2 h
  case hbz | hbnz | hjmp => exact keepsForm_branch h
  case vaddVV | vsubVV | vmulVV | vmulhVV | vdivVV | vremVV | vminVV | vmaxVV | vaddsVV | vsubsVV | vandVV | vorVV | vxorVV |
      vshlVV | vshrVV => exact keepsForm_intVV h
  case vaddVS | vsubVS | vrsubVS | vmulVS | vmulhVS | vminVS | vmaxVS | vaddsVS | vsubsVS | vandVS | vorVS | vxorVS | vshlVS |
      vshrVS => exact keepsForm_intVS h
  case vaddVI | vrsubVI | vandVI | vorVI | vxorVI | vshlVI | vshrVI | vminVI | vmaxVI => exact keepsForm_intVI h
  case vfaddVV | vfsubVV | vfmulVV | vfdivVV | vfmaVV | vfminVV | vfmaxVV => exact keepsForm_fpVV h
  case vfabs | vfsqrt | vfrcp | vfrsqrt | vfexp2 => exact keepsForm_fpV h
  case vcvt | vscan | vscanmax | vlift | vsink | vperm | vpress | vrank | vbcast | vextr | vput | vupd | vupdAdd | vtopk |
      mand | mor | mxor | mnot | mpopc | mfirst | mtos | stom | mset | vld | vlds | vldx | vst | vsts | vstx | vstxa | vshare
      | vcat | vtrim | vsplit | vpack | vfree | vdesc | vlen | clmap | clcomp | clscan | clapply | clmask | tbind | ttgt |
      twait | tget | tfree | pat | hvadd | cpy | cpyg | cpys | cpyf => exact keepsForm_push h
  case vfaddVS | vfsubVS | vfmulVS | vfdivVS | vfmaVS | vfminVS | vfmaxVS => exact keepsForm_fpVS h
  case vcmpEqVV | vcmpNeVV | vcmpLtVV | vcmpLeVV | vcmpUnordVV => exact keepsForm_cmpVV h
  case vcmpEqVS | vcmpNeVS | vcmpLtVS | vcmpLeVS | vcmpGtVS | vcmpGeVS => exact keepsForm_cmpVS h
  case vredsum | vredsumo | vredmin | vredmax | vredand | vredor => exact keepsForm_reduce h
  case mcfg | mma | mmasp | mzero => exact keepsForm_issueTile h
  case mdrain => exact keepsForm_execMdrain h
  case wait | hwait => exact keepsForm_waitCounters h
  case exit | hexit => exact keepsForm_exitThread h
  case jal => exact keepsForm_withDest h fun _ => h
  case brk => exact keepsForm_raise h
  case csrr => exact keepsForm_csrRead h
  case csrw => exact keepsForm_csrWrite h
  case jr => exact keepsForm_execJr h
  case jt => exact keepsForm_execJt h
  case bstrip => exact keepsForm_execBstrip h
  case leave => exact keepsForm_execLeave h
  case fence => exact keepsForm_execFence h
  case qfence => exact keepsForm_execQfence h
  case bar => exact keepsForm_execBar h
  case wmpub => exact keepsForm_execWmpub h
  case bkset => exact keepsForm_execBkset h
  case vsetl => exact keepsForm_execVsetl h
  case vsetlw => exact keepsForm_execVsetlw h
  case mwait => exact keepsForm_execMwait h
  case trapReadTsw => exact keepsForm_execTrapReadTsw h
  case trapAbort => exact keepsForm_execTrapAbort h
  case trapRegisterFaultRecord => exact keepsForm_execTrapRegisterFaultRecord h
  case xret => exact keepsForm_execXret h
  case bkclr | yield | hnop => exact h
  case trapUnassigned => exact keepsForm_execTrapUnassigned h
  case trapNone => exact keepsForm_serve h fun _ hu => hu
  case trapReadViolationLog => exact keepsForm_execTrapReadViolationLog h
  case trapResumeMcc => exact keepsForm_execTrapResumeMcc h
  case lbudWrite | clmodeWrite => exact keepsForm_whenRunning h fun _ hu => memoriesOk_updThread hu _ _
  case fflagsWrite | vstartWrite => exact keepsForm_whenRunning h fun _ hu => memoriesOk_ite (memoriesOk_updThread hu _ _) hu
  case preqWrite => exact keepsForm_whenRunning h fun _ hu => memoriesOk_askPreempt hu
  case tswpWrite => exact keepsForm_whenRunning h fun _ hu => memoriesOk_writeTswp hu
  case registerWrite => exact keepsForm_whenRunning h fun _ hu => memoriesOk_writeRegister hu
  case vectorCourse => exact memoriesOk_courseStep h
  case vectorEntryComplete => exact memoriesOk_completeStep h
  case readQueueReturn => exact memoriesOk_returnStep h
  case vectorFaultReport => exact memoriesOk_faultStep h
  case scalarFaultReport | decodeFault => exact memoriesOk_pendingFault h
  case exitPerform => exact memoriesOk_exitStep h
  case xretResume => exact memoriesOk_xretStep h
  case yieldEnd | ffStallEnd => exact memoriesOk_endWait h
  case leafAllocRetry => exact memoriesOk_retryStep h
  case reclaimStep => exact memoriesOk_updCore h _ _ _
  case watermarkWaitEnd => exact memoriesOk_watermarkStep h
  case barrierPhaseComplete => exact memoriesOk_barrierStep h
  case leaveGrant => exact memoriesOk_grantLeave h
  case powerBudgetSet => exact memoriesOk_budgetStep h
  case powcapSet => exact memoriesOk_powcapStep h
  case casPriorityExpiry => exact memoriesOk_casListed h
  case memoryAccessComplete => exact memoriesOk_ite (memoriesOk_earlyStep h) (memoriesOk_accessStep h)
  case copyRow => exact memoriesOk_copyStep h
  case tileEntryExecute => exact memoriesOk_tileStepRecorded h
  case patternLoadBind => exact memoriesOk_loadStep h
  case queueBind => exact memoriesOk_bindStep h
  case packetAccept | queueLinkPoll | packetReadRetry => exact memoriesOk_acceptStep h
  case launchStart => exact memoriesOk_launchStartStep h
  case coreAssign => exact memoriesOk_assignStep h
  case iterationHandout => exact memoriesOk_handoutStep h
  case gangShareStart => exact memoriesOk_gangStartStep h
  case gangClusterChoice => exact memoriesOk_gangChoiceStep h
  case launchAgeing => exact memoriesOk_ageStep h
  case launchPreempt => exact memoriesOk_preemptStep h
  case launchComplete => exact memoriesOk_launchDoneStep h
  case coreSave => exact memoriesOk_saveStep h
  case coreRestore => exact memoriesOk_restoreStep h
  case contextSwapOut => exact memoriesOk_swapOut h
  case contextSwapIn => exact memoriesOk_swapIn h
  case containment => exact memoriesOk_containStep h
  case tlbInvalidate => exact memoriesOk_invalidate h
  case tlbInvalidateComplete => exact memoriesOk_invalidated h
  case pageWalk => exact memoriesOk_walkStep h
  case demandPageMap => exact memoriesOk_demandStep h
  case flitReceive => exact memoriesOk_flitStep h
  case flitReplay => exact memoriesOk_replayStep h
  case linkDown => exact memoriesOk_downStep h
  case linkRetrain => exact memoriesOk_trainStep h
  case linkRetire => exact memoriesOk_retireStep h
  case hostLinkError => exact memoriesOk_aerStep h
  case deviceReset => exact memoriesOk_resetStep h
  case rollbackRaise => exact memoriesOk_rollbackStep h
  case attestationRequest => exact memoriesOk_attestStep h
  case correctedError => exact memoriesOk_correctedStep h
  case patrolScrub => exact memoriesOk_scrubStep h
  case linePoison => exact memoriesOk_poisonLine h
  case scratchpadPoison => exact memoriesOk_poisonWord h
  case leafError => exact memoriesOk_leafErrorStep h
  case leafErrorCountClear => exact memoriesOk_leafClearStep h
  case freeListRebuild => exact memoriesOk_rebuildStep h
  case channelRetire => exact memoriesOk_channelStep h
  case healthBlockUpdate => exact memoriesOk_healthStep h
  case scrubPassCheck => exact memoriesOk_passCheckStep h
  case contextCreate => exact memoriesOk_createContext h _
  case contextDestroy => exact memoriesOk_destroyContext h
  case debuggerResume => exact memoriesOk_debuggerStep h
  case uncorrectableStructureError => exact memoriesOk_structureStep h
  case hostBarAccess => exact keepsForm_hostStep h
  case ethernetFrameReceive => exact keepsForm_frameStep h

/-! The turns of the schedule. -/

theorem memoriesOk_fetchParcel {t : Tid} {va : Word} : MemoriesOk (fetchParcel s t va).1 := by
  fun_cases fetchParcel s t va
  case case2 => exact memoriesOk_threadViolation h
  all_goals exact h

theorem memoriesOk_withIr {t : Tid} {w : Nat} : MemoriesOk (withIr s t w) := memoriesOk_updThread h _ _

theorem keepsForm_runParcels {v w : Nat} : KeepsForm (runParcels s v w) := by
  fun_cases runParcels s v w
  case case1 => exact keepsForm_raise h
  case case2 => exact keepsForm_exec h _

theorem keepsForm_fetchRun : KeepsForm (fetchRun s) := by
  have h1 : MemoriesOk (fetchParcel s s.cur (parcelAddr (getThread s s.cur).pc)).1 := memoriesOk_fetchParcel h
  fun_cases fetchRun s
  case case1 => exact keepsForm_raise h1
  case case2 => exact keepsForm_raise (memoriesOk_fetchParcel h1)
  case case3 => exact keepsForm_runParcels (memoriesOk_withIr (memoriesOk_fetchParcel h1))
  case case4 => exact keepsForm_runParcels (memoriesOk_withIr h1)

theorem memoriesOk_barrierTurn {t : Tid} : MemoriesOk (barrierTurn s t) := by
  fun_cases barrierTurn s t
  case case1 => exact memoriesOk_barrierStep h
  case case2 => exact h

theorem memoriesOk_threadTurn {t : Tid} : MemoriesOk (threadTurn s t) := by
  unfold threadTurn
  have h1 : MemoriesOk (accessStep s t (firstPerformable s t (getThread s t).out 0)) := memoriesOk_accessStep h
  exact memoriesOk_barrierTurn (memoriesOk_watermarkStep (memoriesOk_endWait (memoriesOk_endWait (memoriesOk_exitStep
    (memoriesOk_xretStep (memoriesOk_courseStep (memoriesOk_returnStep (memoriesOk_completeStep (memoriesOk_faultStep
      (memoriesOk_pendingFault (memoriesOk_pendingFault h1)))))))))))

theorem memoriesOk_copyAll {cl : Fin 64} {co : Fin 8} {l : List (Fin 4)} :
    MemoriesOk (l.foldl (fun s q => copyStep s cl co q) s) :=
  memoriesOk_foldl _ (fun _ _ hs => memoriesOk_copyStep hs) _ h

theorem memoriesOk_coreTurn {t : Tid} : MemoriesOk (coreTurn s t) := by
  unfold coreTurn
  exact memoriesOk_grantLeave (memoriesOk_tileStepRecorded (memoriesOk_updCore (memoriesOk_copyAll h) _ _ _))

theorem memoriesOk_assignTurn {p : Fin 64 × Fin 8} : MemoriesOk (assignTurn s p) :=
  memoriesOk_foldl _ (fun _ _ hs => memoriesOk_handoutStep hs) _ (memoriesOk_assignStep h)

theorem memoriesOk_acceptAll {l : List Nat} :
    MemoriesOk (l.foldl (fun s n => acceptStep (acceptStep s n true) n false) s) :=
  memoriesOk_foldl _ (fun _ _ hs => memoriesOk_acceptStep (memoriesOk_acceptStep hs)) _ h

theorem memoriesOk_scheduleAll {l : List Nat} : MemoriesOk (l.foldl launchDoneStep (everyCore.foldl assignTurn
    (allClusters.foldl gangStartStep (gangChoiceStep (([0, 1, 2, 3] : List Nat).foldl launchStartStep s))))) := by
  have h1 := memoriesOk_foldl launchStartStep (fun _ _ hs => memoriesOk_launchStartStep hs) [0, 1, 2, 3] h
  have h2 := memoriesOk_foldl gangStartStep (fun _ _ hs => memoriesOk_gangStartStep hs) allClusters (memoriesOk_gangChoiceStep h1)
  have h3 := memoriesOk_foldl assignTurn (fun _ _ hs => memoriesOk_assignTurn hs) everyCore h2
  exact memoriesOk_foldl launchDoneStep (fun _ _ hs => memoriesOk_launchDoneStep hs) l h3

theorem memoriesOk_frontTurn : MemoriesOk (frontTurn s) := by
  have h1 := memoriesOk_acceptAll h (l := s.queues.map fun p => p.1)
  exact memoriesOk_ite h1 (memoriesOk_scheduleAll h1)

theorem memoriesOk_nextTurn {t : Tid} : MemoriesOk { s with cur := t, stalled := false } := h

theorem memoriesOk_tick : MemoriesOk (tick s) := by
  have h1 : MemoriesOk (frontTurn (peerTurn (coreTurn (threadTurn s s.cur) s.cur))) :=
    memoriesOk_frontTurn (memoriesOk_peerTurn (memoriesOk_coreTurn (memoriesOk_threadTurn h)))
  exact memoriesOk_ite (memoriesOk_resetStep h) (memoriesOk_nextTurn h1)

theorem keepsForm_threadNext : KeepsForm (threadNext s) := by
  fun_cases threadNext s
  case case1 =>
    have h1 := keepsForm_fetchRun h
    cases hf : fetchRun s with
    | next u => rw [hf] at h1; exact h1
    | _ => trivial
  case case2 => exact memoriesOk_tick h

theorem memoriesOk_putEv {a : EventArg} : MemoriesOk { s with ev := a } := h

theorem memoriesOk_putAgenda {l : List Turn} : MemoriesOk { s with agenda := l, stalled := false } := h

theorem keepsForm_agendaTurn {x : Turn} : KeepsForm (agendaTurn s x) := by
  fun_cases agendaTurn s x
  case case1 s1 _ => exact keepsForm_fetchRun (s := s1) h
  case case3 => exact keepsForm_exec (memoriesOk_putEv h) _
  all_goals exact h

theorem keepsForm_step : KeepsForm (step s) := by
  fun_cases step s
  case case1 => exact keepsForm_agendaTurn (memoriesOk_putAgenda h)
  case case2 => exact keepsForm_threadNext h

end

/-- Settles O59: every operation that writes a memory writes it through the accessors that keep the form, and every step is made of
such operations. -/
theorem memoriesKeepTheirForm : Obligations.MemoriesKeepTheirForm := by
  unfold Obligations.MemoriesKeepTheirForm
  exact fun s t h hs => keepsForm_iff.1 (keepsForm_step h) t hs

end Sys2Proof.Proofs
end

section
/-!
The exit of a thread (R22, R151). The cores that it leaves without an iteration return to the idle ones, which takes no more of a
thread than a pre-emption asked of it.
-/

namespace Sys2Proof.Proofs

open Sys2Proof Sys2Proof.Machine Sys2Proof.Safety Sys2Proof.Laws

theorem exec_exit (s : State) : exec .exit s = exitThread s := rfl

theorem exec_hexit (s : State) : exec .hexit s = exitThread s := rfl

/-! What the exit waits for. -/

theorem queuedCopies_eq_zero_iff (c : Core) (n : Fin 4) :
    queuedCopies c n = 0 ↔ ∀ q : Fin 4, ∀ x ∈ c.cqs[q], x.owner ≠ n := by
  simp only [queuedCopies, List.sum_eq_zero_iff, List.forall_mem_map, Vector.mem_toList_iff, List.countP_eq_zero, decide_eq_true_eq]
  rw [Vector.forall_mem_iff_forall_getElem, Fin.forall_iff]
  rfl

theorem slotsFree_iff (c : Core) (n : Fin 4) :
    (c.slots.toList.all fun x => decide (x.st = .empty) || decide (x.owner ≠ n)) = true ↔
      ∀ k : Fin 16, c.slots[k].st = .empty ∨ c.slots[k].owner ≠ n := by
  simp only [List.all_eq_true, Bool.or_eq_true, decide_eq_true_eq, Vector.mem_toList_iff]
  rw [Vector.forall_mem_iff_forall_getElem, Fin.forall_iff]
  rfl

theorem exitDrained_iff (s : State) (t : Tid) :
    exitDrained s t = true ↔ (getThread s t).vq = [] ∧ (getThread s t).rq = [] ∧ (getThread s t).out = [] ∧
      if isMcc t then (getCluster s (clusterOf t)).tq = []
      else (∀ q : Fin 4, ∀ x ∈ (ownCore s t).cqs[q], x.owner ≠ threadOf t) ∧
        ∀ k : Fin 16, (ownCore s t).slots[k].st = .empty ∨ (ownCore s t).slots[k].owner ≠ threadOf t := by
  cases hm : isMcc t
  · simp only [exitDrained, hm, Bool.and_eq_true, List.isEmpty_iff, decide_eq_true_eq, and_assoc, queuedCopies_eq_zero_iff,
      slotsFree_iff, Bool.false_eq_true, if_false]
  · simp only [exitDrained, hm, Bool.and_eq_true, List.isEmpty_iff, and_assoc, if_true]

/-! Cores that return to the idle ones. -/

/-- Only cores change, and of a thread no more than a pre-emption asked of it. -/
def CoresReturned (s u : State) : Prop :=
  (∃ l k, u = { s with threads := l, cores := k }) ∧ ∀ t, ∃ b, getThread u t = { getThread s t with preq := b }

theorem coresReturned_refl (s : State) : CoresReturned s s := ⟨⟨s.threads, s.cores, rfl⟩, fun t => ⟨(getThread s t).preq, rfl⟩⟩

theorem coresReturned_trans {s u v : State} (h1 : CoresReturned s u) (h2 : CoresReturned u v) : CoresReturned s v := by
  obtain ⟨⟨l, k, rfl⟩, ht⟩ := h1
  obtain ⟨⟨l', k', rfl⟩, hu⟩ := h2
  refine ⟨⟨l', k', rfl⟩, fun t => ?_⟩
  obtain ⟨b, hb⟩ := ht t
  obtain ⟨b', hb'⟩ := hu t
  exact ⟨b', by rw [hb', hb]⟩

theorem coresReturned_ite {c : Prop} [Decidable c] {s u : State} (h : CoresReturned s u) :
    CoresReturned s (if c then u else s) := by
  split
  · exact h
  · exact coresReturned_refl s

theorem coresReturned_foldl {α : Type} {f : State → α → State} (hf : ∀ s x, CoresReturned s (f s x)) (l : List α) (s : State) :
    CoresReturned s (l.foldl f s) := by
  induction l generalizing s with
  | nil => exact coresReturned_refl s
  | cons x r ih => exact coresReturned_trans (hf s x) (ih (f s x))

theorem coresReturned_updCore (s : State) (cl : Fin 64) (co : Fin 8) (f : Core → Core) : CoresReturned s (updCore s cl co f) :=
  ⟨⟨s.threads, _, rfl⟩, fun t => ⟨(getThread s t).preq, rfl⟩⟩

/-- A pre-emption asked of a thread is done. -/
theorem coresReturned_preqDone (s : State) (t : Tid) : CoresReturned s (updThread s t fun th => { th with preq := false }) := by
  refine ⟨⟨_, s.cores, rfl⟩, fun u => ?_⟩
  by_cases hu : u = t
  · subst hu
    exact ⟨false, getThread_updThread_self s u _⟩
  · exact ⟨(getThread s u).preq, getThread_updThread_other s _ hu⟩

theorem coresReturned_returnCore (s : State) (cl : Fin 64) (co : Fin 8) : CoresReturned s (returnCore s cl co) :=
  coresReturned_trans (coresReturned_updCore s cl co _)
    (coresReturned_foldl (fun s t => coresReturned_ite (coresReturned_preqDone s t)) _ _)

theorem coresReturned_returnShare (s : State) (cl : Fin 64) (key : Nat) : CoresReturned s (returnShare s cl key) :=
  coresReturned_foldl (fun s k => coresReturned_ite (coresReturned_returnCore s cl k)) _ _

theorem coresReturned_settleCore (s : State) (cl : Fin 64) (co : Fin 8) : CoresReturned s (settleCore s cl co) := by
  fun_cases settleCore s cl co
  case case2 => exact coresReturned_returnCore s cl co
  case case4 => exact coresReturned_returnShare s cl _
  case case6 => exact coresReturned_returnCore s cl co
  all_goals exact coresReturned_refl s

/-! The exit itself. -/

/-- The thread's iteration has ended, its leave returned and an MCC without a launch (R22, R151). -/
structure IterationEnded (s : State) (t : Tid) (u : State) : Prop where
  frame : ∃ l k c, u = { s with threads := l, cores := k, clusters := c }
  self : ∃ b, getThread u t = { Thread.reset with ctx := (getThread s t).ctx, img := (getThread s t).img, preq := b }
  others : ∀ v, v ≠ t → ∃ b, getThread u v = { getThread s v with preq := b }
  noLaunch : isMcc t = true → (getCluster u (clusterOf t)).mccLaunch = none
  noLeave : ∀ x ∈ (getCluster u (clusterOf t)).held ++ (getCluster u (clusterOf t)).waiting, x.1 ≠ .thread t

/-- Cores that return leave it so. -/
theorem iterationEnded_coresReturned {s u v : State} {t : Tid} (h : IterationEnded s t u) (hr : CoresReturned u v) :
    IterationEnded s t v := by
  obtain ⟨⟨l, k, c, rfl⟩, ⟨b, hself⟩, hothers, hlaunch, hleave⟩ := h
  obtain ⟨⟨l', k', rfl⟩, ht⟩ := hr
  refine ⟨⟨l', k', c, rfl⟩, ?_, fun v hv => ?_, hlaunch, hleave⟩
  · obtain ⟨b', hb'⟩ := ht t
    exact ⟨b', by rw [hb', hself]⟩
  · obtain ⟨b, hb⟩ := hothers v hv
    obtain ⟨b', hb'⟩ := ht v
    exact ⟨b', by rw [hb', hb]⟩

theorem not_mem_returnLeave (c : Cluster) (p : LeaveParty) : ∀ x ∈ (returnLeave c p).held ++ (returnLeave c p).waiting, x.1 ≠ p := by
  intro x hx
  simp only [returnLeave, List.mem_append, List.mem_filter, decide_eq_true_eq] at hx
  exact hx.elim And.right And.right

/-- The thread's record is reset in a state whose cores and clusters alone have changed. -/
theorem iterationEnded_updThread {s u : State} {t : Tid} {f : Thread → Thread} {k : SMap Core} {c : SMap Cluster}
    (hu : u = { s with cores := k, clusters := c })
    (hf : ∃ b, f (getThread s t) = { Thread.reset with ctx := (getThread s t).ctx, img := (getThread s t).img, preq := b })
    (hlaunch : isMcc t = true → (getCluster u (clusterOf t)).mccLaunch = none)
    (hleave : ∀ x ∈ (getCluster u (clusterOf t)).held ++ (getCluster u (clusterOf t)).waiting, x.1 ≠ .thread t) :
    IterationEnded s t (updThread u t f) := by
  have hget (v : Tid) : getThread u v = getThread s v := by rw [hu]; rfl
  refine ⟨⟨_, k, c, by rw [hu]; rfl⟩, ?_, fun v hv => ⟨(getThread s v).preq, ?_⟩, hlaunch, hleave⟩
  · rw [getThread_updThread_self, hget]
    exact hf
  · rw [getThread_updThread_other _ _ hv, hget]

theorem iterationEnded_performExit (s : State) (t : Tid) : IterationEnded s t (performExit s t) := by
  have hleave := not_mem_returnLeave (getCluster s (clusterOf t)) (.thread t)
  have hs1 : getCluster (updCluster s (clusterOf t) fun c => returnLeave c (.thread t)) (clusterOf t) =
      returnLeave (getCluster s (clusterOf t)) (.thread t) := getCluster_updCluster_self _ _ _
  fun_cases performExit s t
  case case1 th cl s1 hm s2 =>
    obtain ⟨l, hs2⟩ : ∃ l, getCluster s2 (clusterOf t) = { getCluster s1 cl with mccLaunch := none, mccDone := l } :=
      ⟨_, getCluster_updCluster_self s1 cl _⟩
    have hend : IterationEnded s t (updThread s2 t fun th => { idleThread th with preq := false }) :=
      iterationEnded_updThread rfl ⟨false, rfl⟩ (fun _ => by rw [hs2]) (by rw [hs2, hs1]; exact hleave)
    exact iterationEnded_coresReturned hend (coresReturned_foldl (fun s co => coresReturned_settleCore s cl co) _ _)
  case case2 th cl s1 hm f s2 =>
    have hend : IterationEnded s t (updThread s2 t idleThread) :=
      iterationEnded_updThread rfl ⟨th.preq, rfl⟩ (fun h => absurd h hm) (by rw [← hs1] at hleave; exact hleave)
    exact iterationEnded_coresReturned hend (coresReturned_settleCore _ _ _)

/-- A thread that is to wait is marked so, and nothing else changes. -/
theorem waitFor_next (s : State) (t : Tid) (w : Wait) : ∃ u, waitFor s t w = .next u ∧ u.stalled = true ∧
    getThread u t = { getThread s t with wait := w } ∧ (∀ v, v ≠ t → getThread u v = getThread s v) ∧
    u = { s with threads := u.threads, stalled := true } := by
  have hself := getThread_updThread_self s t fun th => { th with wait := w }
  have hothers (v : Tid) (hv : v ≠ t) := getThread_updThread_other s (fun th => { th with wait := w }) hv
  exact ⟨_, rfl, rfl, hself, hothers, rfl⟩

/-- Settles O29: the exit is performed just when what it waits for has drained, and ends the iteration. -/
theorem exitEndsTheIteration : Obligations.ExitEndsTheIteration := by
  unfold Obligations.ExitEndsTheIteration
  intro s i hi t th c freed done
  have he : exec i s = exitThread s := by
    obtain rfl | rfl := hi
    · exact exec_exit s
    · exact exec_hexit s
  have hfreed : getThread (freeAccesses s t) t = freed := getThread_updThread_self s t _
  have hvq : freed.vq = th.vq := by unfold freed; split <;> rfl
  have hrq : freed.rq = th.rq := by unfold freed; split <;> rfl
  have hctx : freed.ctx = th.ctx := by unfold freed; split <;> rfl
  have himg : freed.img = th.img := by unfold freed; split <;> rfl
  have hdone : exitDrained (freeAccesses s t) t = true ↔ done := by
    rw [exitDrained_iff, hfreed, hvq, hrq]
    rfl
  have hother (u : Tid) (hu : u ≠ t) : getThread (freeAccesses s t) u = getThread s u := getThread_updThread_other _ _ hu
  rw [he]
  refine ⟨fun hd => ?_, fun hd => ⟨_, if_pos (hdone.2 hd), ?_⟩⟩
  · obtain ⟨u, hw, hstalled, hself, hothers, hframe⟩ := waitFor_next (freeAccesses s t) t .exit
    refine ⟨u, (if_neg (mt hdone.1 hd)).trans hw, hstalled, ?_, fun v hv => ?_, hframe⟩
    · rw [hself, hfreed]
    · rw [hothers v hv, hother v hv]
  · obtain ⟨hframe, hself, hothers, hlaunch, hleave⟩ := iterationEnded_performExit (freeAccesses s t) t
    refine ⟨?_, ?_, hlaunch, hleave, fun u hu => ?_⟩
    · obtain ⟨l, k, c, h⟩ := hframe
      rw [h]
      rfl
    · obtain ⟨b, h⟩ := hself
      rw [h, hfreed, hctx, himg]
    · obtain ⟨b, h⟩ := hothers u hu
      rw [h, hother u hu]
      exact ⟨rfl, rfl, rfl⟩

end Sys2Proof.Proofs
end

section
/-!
Scalar floating point (R133 to R135): what an instruction that rounds does in a mode that it may use, and in one that it may not.
-/

namespace Sys2Proof.Proofs

open Sys2Proof Sys2Proof.Machine Sys2Proof.Safety Sys2Proof.Laws

theorem usable_of_subset {s : State} {d : Reg} {rs qs : List Reg} (h : Usable s d rs) (hq : qs ⊆ rs) : Usable s d qs :=
  ⟨fun r hr => h.1 r (hq hr), h.2⟩

/-- The mode of an instruction: its own, or that of FRM for code 7 (R134). -/
theorem fpMode_legal {th : Thread} {r : Fin 8} (h : (if r = 7 then th.frm.toNat else r.val) ≤ 4) :
    fpMode th r = some (if r = 7 then th.frm.toNat else r.val) := by
  by_cases hr : r = 7
  · rw [if_pos hr] at h
    subst hr
    simp [fpMode, h]
  · have hv : r.val ≠ 7 := fun c => hr (Fin.ext c)
    simp [fpMode, hr, hv]

theorem fpMode_reserved {th : Thread} (h : 5 ≤ th.frm.toNat) : fpMode th 7 = none := by
  have : ¬ th.frm.toNat ≤ 4 := by omega
  simp [fpMode, this]

section
variable {s : State} {d : Reg} {rs : List Reg} {r : Fin 8}

theorem fpRounded_writes (hu : Usable s d rs) (hr : (if r = 7 then (running s).frm.toNat else r.val) ≤ 4)
    (f : Nat → Thread → Word × BitVec 7) :
    let x := f (if r = 7 then (running s).frm.toNat else r.val) (dropLate (running s) d)
    Writes s (fpRounded s d rs r f) d x.1 x.2 4 := by
  have hm : fpMode (dropLate (running s) d) r = some (if r = 7 then (running s).frm.toNat else r.val) := fpMode_legal hr
  rw [fpRounded, withDest_usable hu]
  simp only [hm]
  exact writes_retire s d _ _ 4

theorem fpRounded_illegal (hu : Usable s d rs) (hr : r = 7) (hf : 5 ≤ (running s).frm.toNat)
    (f : Nat → Thread → Word × BitVec 7) : Raises s (fpRounded s d rs r f) 0x01 (running s).ir.toNat true := by
  have hm : fpMode (dropLate (running s) d) r = none := hr ▸ fpMode_reserved hf
  rw [fpRounded, withDest_usable hu]
  simp only [hm]
  exact raises_unroutable s (by cases hc : s.cur <;> rfl) _ _

end

theorem fpType_eq (p : Fin 4) : fpType p = (match p with | 0 => 11 | 1 => 10 | 2 => 12 | 3 => 13) := by
  fin_cases p <;> rfl

section
variable (s : State) (d a b : Reg) (p t : Fin 4) (k r : Fin 8)

theorem exec_fadd : exec (.fadd d a b p r) s = fp3 s .add d a b p r := rfl
theorem exec_fsub : exec (.fsub d a b p r) s = fp3 s .sub d a b p r := rfl
theorem exec_fmul : exec (.fmul d a b p r) s = fp3 s .mul d a b p r := rfl
theorem exec_fdiv : exec (.fdiv d a b p r) s = fp3 s .div d a b p r := rfl
theorem exec_fsqrt : exec (.fsqrt d a p r) s =
    fpRounded s d [a] r fun rm th => fpOut (fpOp .sqrt (fpType p) rm (readG th a).toNat 0 0) := rfl
theorem exec_fma : exec (.fma d a b p r) s = fpRounded s d [a, b, d] r fun rm th =>
    fpOut (fpOp .fma (fpType p) rm (readG th a).toNat (readG th b).toNat (readG th d).toNat) := rfl
theorem exec_fcvt : exec (.fcvt d a t p r) s =
    fpRounded s d [a] r fun rm th => fpOut (fpToFp (fpType p) (fpType t) rm (readG th a).toNat) := rfl
theorem exec_fcvti : exec (.fcvti d a k p r) s = fpRounded s d [a] r fun rm th =>
    (extend (isSigned k.val) (8 * scalarSize k.val) (fpToIntTy (fpType p) k.val rm (readG th a).toNat).bits,
      (fpToIntTy (fpType p) k.val rm (readG th a).toNat).flags) := rfl
theorem exec_fcvtf : exec (.fcvtf d a k p r) s =
    fpRounded s d [a] r fun rm th => fpOut (intToFp (fpType p) rm (intVal k.val (readG th a).toNat)) := rfl
theorem exec_fmin : exec (.fmin d a b p) s = fpMin s false d a b p := rfl
theorem exec_fmax : exec (.fmax d a b p) s = fpMin s true d a b p := rfl
theorem exec_feq : exec (.feq d a b p) s = fpRel s .eq d a b p := rfl
theorem exec_flt : exec (.flt d a b p) s = fpRel s .lt d a b p := rfl
theorem exec_fle : exec (.fle d a b p) s = fpRel s .le d a b p := rfl

end

/-- Settles O18: every instruction is the shared operation that rounds, or the one that only adds flags, on registers whose values
dropping late arrivals does not change. -/
theorem floatInstructionResults : Obligations.FloatInstructionResults := by
  intro s d a b p t k r hu x y z ty ty' rm rounding F C
  have hty : ty = fpType p := (fpType_eq p).symm
  have hty' : ty' = fpType t := (fpType_eq t).symm
  have h1 : Usable s d [a] := usable_of_subset hu (by simp)
  have h2 : Usable s d [a, b] := usable_of_subset hu (by simp)
  rw [hty, hty']
  simp only [F, C, rounding, List.forall_mem_cons, exec_fadd, exec_fsub, exec_fmul, exec_fdiv, exec_fsqrt, exec_fma, exec_fcvt,
    exec_fcvti, exec_fcvtf, exec_fmin, exec_fmax, exec_feq, exec_flt, exec_fle]
  refine ⟨fun hrm => ⟨?_, ?_, ?_, ?_, ?_, ?_, ?_, ?_, ?_⟩, fun hr hf => ⟨?_, ?_, ?_, ?_, ?_, ?_, ?_, ?_, ?_, nofun⟩, ?_, ?_, ?_, ?_, ?_⟩
  case refine_1 | refine_2 | refine_3 | refine_4 => exact fpRounded_writes h2 hrm _
  case refine_5 | refine_7 | refine_8 | refine_9 => exact fpRounded_writes h1 hrm _
  case refine_6 => exact fpRounded_writes hu hrm _
  case refine_10 | refine_11 | refine_12 | refine_13 => exact fpRounded_illegal h2 hr hf _
  case refine_14 | refine_16 | refine_17 | refine_18 => exact fpRounded_illegal h1 hr hf _
  case refine_15 => exact fpRounded_illegal hu hr hf _
  all_goals exact scalarFlags_writes h2 4 _

end Sys2Proof.Proofs
end

section
/-!
The order of floating-point values, and the minimum and maximum that follow it (R38).
-/

namespace Sys2Proof.Proofs

open Sys2Proof Sys2Proof.Machine Sys2Proof.Safety Sys2Proof.Laws

/-- What every format has: two bits of exponent and of fraction at least (R29). -/
structure Wide (f : Fmt) : Prop where
  ebits : 2 ≤ f.ebits
  fbits : 2 ≤ f.fbits

theorem wide_fmtOf (ty : Nat) : Wide (fmtOf ty) := by
  unfold fmtOf
  split_ifs <;> exact ⟨by decide, by decide⟩

/-- A pattern of exponent 0 is a subnormal number or a zero (R28). -/
theorem unpack_exponent_zero {f : Fmt} (hf : Wide f) {v : Nat} (h : bitsOf v f.fbits f.ebits = 0) :
    unpack f v = .num (bitAt v f.signPos) (bitsOf v 0 f.fbits) f.qmin := by
  have h1 : 2 ^ 2 ≤ 2 ^ f.ebits := Nat.pow_le_pow_right (by omega) hf.ebits
  have h2 : ¬ (0 = 2 ^ f.ebits - 1) := by omega
  simp [unpack, h, h2]

theorem unpack_zero {f : Fmt} (hf : Wide f) : unpack f 0 = .num false 0 f.qmin := by
  rw [unpack_exponent_zero hf (by simp [bitsOf])]
  simp [bitsOf, bitAt]

theorem unpack_negZero {f : Fmt} (hf : Wide f) : unpack f (2 ^ f.signPos) = .num true 0 f.qmin := by
  have h : 2 ^ f.signPos = 2 ^ f.ebits * 2 ^ f.fbits := by rw [Fmt.signPos, pow_add]
  have hz : bitsOf (2 ^ f.signPos) f.fbits f.ebits = 0 := by
    rw [bitsOf, h, Nat.mul_div_cancel _ (Nat.two_pow_pos _), Nat.mod_self]
  have hfr : bitsOf (2 ^ f.signPos) 0 f.fbits = 0 := by simp [bitsOf, h]
  have hs : bitAt (2 ^ f.signPos) f.signPos = true := by simp [bitAt]
  rw [unpack_exponent_zero hf hz, hfr, hs]

/-- The numerator of a number over the unit of the smaller of two exponents. -/
def scaledTo (n : Bool) (m : Nat) (e d : Int) : Int := (if n then -1 else 1) * (m * 2 ^ (e - min e d).toNat : Nat)

/-- By value, u is not above v; neither is a NaN (R38). -/
def NotAbove (u v : FVal) : Prop :=
  match u, v with
  | .num n m e, .num q k d => scaledTo n m e d ≤ scaledTo q k d e
  | .inf n, _ => n = true ∨ v = .inf false
  | _, .inf q => q = false
  | _, _ => False

/-- A value is a NaN, signalling or quiet (R28). -/
abbrev NaN (v : FVal) : Prop := v = .nan true ∨ v = .nan false

theorem notAbove_refl {v : FVal} (h : ¬ NaN v) : NotAbove v v := by
  cases v with
  | nan s => cases s <;> simp [NaN] at h
  | inf n => cases n <;> simp [NotAbove]
  | num n m e => exact le_refl _

theorem ltNum_num (n q : Bool) (m k : Nat) (e d : Int) :
    ltNum (.num n m e) (.num q k d) = decide (scaledTo n m e d < scaledTo q k d e) := by
  simp only [ltNum, scaledTo, min_comm d e]

/-- The order that minimum and maximum go by refines the order by value (R38). -/
theorem belowVal_notAbove {u v : FVal} (hu : ¬ NaN u) (hv : ¬ NaN v) :
    (belowVal u v = true → NotAbove u v) ∧ (belowVal u v = false → NotAbove v u) := by
  cases u with
  | nan s => cases s <;> simp [NaN] at hu
  | inf n =>
    cases v with
    | nan s => cases s <;> simp [NaN] at hv
    | inf q => cases n <;> cases q <;> simp [belowVal, ltNum, eqNum, signOf, NotAbove]
    | num q k d => cases n <;> simp [belowVal, ltNum, eqNum, signOf, NotAbove]
  | num n m e =>
    cases v with
    | nan s => cases s <;> simp [NaN] at hv
    | inf q => cases q <;> simp [belowVal, ltNum, eqNum, signOf, NotAbove]
    | num q k d =>
      simp only [belowVal, eqNum, ltNum_num, NotAbove, Bool.or_eq_true, Bool.or_eq_false_iff, Bool.and_eq_true,
        Bool.not_eq_true', decide_eq_true_eq, decide_eq_false_iff_not]
      omega

section
variable {f : Fmt} {x y : Nat} (mx : Bool)

/-- Of two NaNs the canonical one is the answer, of one the other operand (R38). -/
theorem minMaxFp_nan (hx : x < 2 ^ (f.signPos + 1)) (hy : y < 2 ^ (f.signPos + 1))
    (h : NaN (unpack f x) ∨ NaN (unpack f y)) :
    minMaxFp f mx x y =
      Res.mk' (if NaN (unpack f x) then (if NaN (unpack f y) then f.nan else y) else x)
        (if unpack f x = .nan true ∨ unpack f y = .nan true then flagInv else 0) := by
  unfold minMaxFp
  cases hu : unpack f x with
  | nan s =>
    have hs : NaN (.nan s) := by cases s <;> simp [NaN]
    cases hw : unpack f y with
    | nan t =>
      have ht : NaN (.nan t) := by cases t <;> simp [NaN]
      simp [hs, ht]
    | inf _ | num _ _ _ => simp [NaN, Nat.mod_eq_of_lt hy]
  | inf _ | num _ _ _ =>
    cases hw : unpack f y with
    | nan t => simp [NaN, Nat.mod_eq_of_lt hx]
    | inf _ | num _ _ _ => simp [hu, hw, NaN] at h

/-- Of two numbers the answer is the one that the order picks, without a flag (R38). -/
theorem minMaxFp_num (hx : x < 2 ^ (f.signPos + 1)) (hy : y < 2 ^ (f.signPos + 1))
    (hu : ¬ NaN (unpack f x)) (hw : ¬ NaN (unpack f y)) :
    minMaxFp f mx x y =
      Res.plain (if (if mx then belowVal (unpack f x) (unpack f y) else belowVal (unpack f y) (unpack f x)) then y else x) := by
  simp only [minMaxFp, Nat.mod_eq_of_lt hx, Nat.mod_eq_of_lt hy]
  cases ha : unpack f x with
  | nan s => rw [ha] at hu; cases s <;> simp [NaN] at hu
  | inf _ | num _ _ _ =>
    cases hb : unpack f y with
    | nan t => rw [hb] at hw; cases t <;> simp [NaN] at hw
    | inf _ | num _ _ _ => rfl

/-- The number that the order picks is one of the two, and lies on its side of both. -/
theorem minMaxFp_bounds (hx : x < 2 ^ (f.signPos + 1)) (hy : y < 2 ^ (f.signPos + 1))
    (hu : ¬ NaN (unpack f x)) (hw : ¬ NaN (unpack f y)) :
    let r := minMaxFp f mx x y
    (r.bits = x ∨ r.bits = y) ∧ r.flags = 0 ∧
      if mx then NotAbove (unpack f x) (unpack f r.bits) ∧ NotAbove (unpack f y) (unpack f r.bits)
      else NotAbove (unpack f r.bits) (unpack f x) ∧ NotAbove (unpack f r.bits) (unpack f y) := by
  rw [minMaxFp_num mx hx hy hu hw]
  obtain ⟨hlt, hge⟩ := belowVal_notAbove hu hw
  obtain ⟨hlt', hge'⟩ := belowVal_notAbove hw hu
  cases mx
  · cases hb : belowVal (unpack f y) (unpack f x)
    · exact ⟨.inl rfl, rfl, notAbove_refl hu, hge' hb⟩
    · exact ⟨.inr rfl, rfl, hlt' hb, notAbove_refl hw⟩
  · cases hb : belowVal (unpack f x) (unpack f y)
    · exact ⟨.inl rfl, rfl, notAbove_refl hu, hge hb⟩
    · exact ⟨.inr rfl, rfl, hlt hb, notAbove_refl hw⟩

end

/-- -0 lies below +0 for the minimum and the maximum (R38). -/
theorem minMaxFp_zeros {f : Fmt} (hf : Wide f) (mx : Bool) {x y : Nat}
    (h : x = 0 ∧ y = 2 ^ f.signPos ∨ x = 2 ^ f.signPos ∧ y = 0) :
    minMaxFp f mx x y = Res.plain (if mx then 0 else 2 ^ f.signPos) := by
  have hz : (0 : Nat) < 2 ^ (f.signPos + 1) := Nat.two_pow_pos _
  have hs : 2 ^ f.signPos < 2 ^ (f.signPos + 1) := Nat.pow_lt_pow_right (by omega) (by omega)
  have num (b : Bool) (m : Nat) (e : Int) : ¬ NaN (.num b m e) := by simp [NaN]
  have hp : belowVal (.num true 0 f.qmin) (.num false 0 f.qmin) = true := by simp [belowVal, ltNum, eqNum, signOf]
  have hn : belowVal (.num false 0 f.qmin) (.num true 0 f.qmin) = false := by simp [belowVal, ltNum, eqNum, signOf]
  rcases h with ⟨rfl, rfl⟩ | ⟨rfl, rfl⟩
  · rw [minMaxFp_num mx hz hs (by rw [unpack_zero hf]; exact num _ _ _) (by rw [unpack_negZero hf]; exact num _ _ _),
      unpack_zero hf, unpack_negZero hf, hp, hn]
    cases mx <;> rfl
  · rw [minMaxFp_num mx hs hz (by rw [unpack_negZero hf]; exact num _ _ _) (by rw [unpack_zero hf]; exact num _ _ _),
      unpack_zero hf, unpack_negZero hf, hp, hn]
    cases mx <;> rfl

/-- Settles O21: minimum and maximum are one operation, which answers by the NaNs among its operands, else by the order. -/
theorem floatMinMax : Obligations.FloatMinMax := by
  intro ty rm x y _ _ f hx hy a b isNan fl part le o ho r
  have hle : le = NotAbove := by funext u v; cases u <;> cases v <;> rfl
  have main (mx : Bool) (hr : r = minMaxFp f mx x y) :
      (isNan a → isNan b → r.bits = f.nan ∧ r.flags = fl) ∧ (isNan a → ¬ isNan b → r.bits = y ∧ r.flags = fl) ∧
      (¬ isNan a → isNan b → r.bits = x ∧ r.flags = fl) ∧
      (¬ isNan a → ¬ isNan b → (r.bits = x ∨ r.bits = y) ∧ r.flags = 0 ∧
        if mx then NotAbove a (unpack f r.bits) ∧ NotAbove b (unpack f r.bits)
        else NotAbove (unpack f r.bits) a ∧ NotAbove (unpack f r.bits) b) ∧
      ((x = 0 ∧ y = 2 ^ f.signPos ∨ x = 2 ^ f.signPos ∧ y = 0) →
        r.bits = (if mx then 0 else 2 ^ f.signPos) ∧ r.flags = 0) := by
    rw [hr]
    refine ⟨fun ha hb => ?_, fun ha hb => ?_, fun ha hb => ?_, fun ha hb => minMaxFp_bounds mx hx hy ha hb, fun h => ?_⟩
    · rw [minMaxFp_nan mx hx hy (.inl ha), if_pos ha, if_pos hb]; exact ⟨rfl, rfl⟩
    · rw [minMaxFp_nan mx hx hy (.inl ha), if_pos ha, if_neg hb]; exact ⟨rfl, rfl⟩
    · rw [minMaxFp_nan mx hx hy (.inr hb), if_neg ha]; exact ⟨rfl, rfl⟩
    · rw [minMaxFp_zeros (wide_fmtOf ty) mx h]; exact ⟨rfl, rfl⟩
  rw [hle]
  simp only [List.mem_cons, List.not_mem_nil, or_false] at ho
  rcases ho with rfl | rfl
  · exact main false rfl
  · exact main true rfl

end Sys2Proof.Proofs
end

section
/-!
The formats (R28 to R30): which significands and exponents are finite numbers, and that a pattern and its number determine each other.
-/

namespace Sys2Proof.Proofs

open Sys2Proof Sys2Proof.Machine Sys2Proof.Safety Sys2Proof.Laws

/-- A significand and the exponent of its unit in the form that a format stores: subnormal at the least exponent, or with the leading
bit set (R28). -/
def Stored (f : Fmt) (k : Nat) (q : Int) : Prop :=
  (k < 2 ^ f.fbits ∧ q = f.qmin) ∨ (2 ^ f.fbits ≤ k ∧ k < 2 ^ f.prec ∧ f.qmin ≤ q)

/-- A stored number beyond the largest finite one (R29). -/
def TooLarge (f : Fmt) (k : Nat) (q : Int) : Prop := f.qmax < q ∨ (q = f.qmax ∧ f.kmax < k)

theorem two_pow_prec (f : Fmt) : 2 ^ f.prec = 2 * 2 ^ f.fbits := by rw [Fmt.prec, pow_succ]; ring

theorem two_pow_signPos (f : Fmt) : 2 ^ f.signPos = 2 ^ f.ebits * 2 ^ f.fbits := by rw [Fmt.signPos, pow_add]

theorem stored_lt {f : Fmt} {k : Nat} {q : Int} (h : Stored f k q) : k < 2 ^ f.prec := by
  have := two_pow_prec f
  rcases h with ⟨h, -⟩ | ⟨-, h, -⟩ <;> omega

theorem stored_qmin_le {f : Fmt} {k : Nat} {q : Int} (h : Stored f k q) : f.qmin ≤ q := by
  rcases h with ⟨-, h⟩ | ⟨-, -, h⟩ <;> omega

/-- The three fields of a pattern. -/
def pattern (f : Fmt) (n : Bool) (ex fr : Nat) : Nat := f.sign n + ex * 2 ^ f.fbits + fr

section
variable {f : Fmt} {n : Bool} {ex fr : Nat}

theorem fraction_pattern (hfr : fr < 2 ^ f.fbits) : bitsOf (pattern f n ex fr) 0 f.fbits = fr := by
  have hs : f.sign n + ex * 2 ^ f.fbits + fr = fr + 2 ^ f.fbits * ((if n then 2 ^ f.ebits else 0) + ex) := by
    cases n <;> simp [Fmt.sign, two_pow_signPos] <;> ring
  rw [bitsOf, pattern, hs, pow_zero, Nat.div_one, Nat.add_mul_mod_self_left, Nat.mod_eq_of_lt hfr]

theorem exponent_pattern (hex : ex < 2 ^ f.ebits) (hfr : fr < 2 ^ f.fbits) :
    bitsOf (pattern f n ex fr) f.fbits f.ebits = ex := by
  have hs : f.sign n + ex * 2 ^ f.fbits + fr = fr + 2 ^ f.fbits * ((if n then 2 ^ f.ebits else 0) + ex) := by
    cases n <;> simp [Fmt.sign, two_pow_signPos] <;> ring
  rw [bitsOf, pattern, hs, Nat.add_mul_div_left _ _ (Nat.two_pow_pos _), Nat.div_eq_of_lt hfr]
  cases n <;> simp [Nat.mod_eq_of_lt hex]

theorem sign_pattern (hex : ex < 2 ^ f.ebits) (hfr : fr < 2 ^ f.fbits) : bitAt (pattern f n ex fr) f.signPos = n := by
  have hlt : ex * 2 ^ f.fbits + fr < 2 ^ f.signPos := by
    rw [two_pow_signPos]
    calc ex * 2 ^ f.fbits + fr < (ex + 1) * 2 ^ f.fbits := by rw [add_one_mul]; omega
      _ ≤ _ := Nat.mul_le_mul_right _ hex
  have hs : pattern f n ex fr = (ex * 2 ^ f.fbits + fr) + 2 ^ f.signPos * (if n then 1 else 0) := by
    cases n <;> simp [pattern, Fmt.sign] <;> ring
  rw [bitAt, hs, Nat.add_mul_div_left _ _ (Nat.two_pow_pos _), Nat.div_eq_of_lt hlt]
  cases n <;> rfl

/-- A pattern of the format is the pattern of its fields. -/
theorem pattern_fields {v : Nat} (hv : v < 2 ^ (f.signPos + 1)) :
    pattern f (bitAt v f.signPos) (bitsOf v f.fbits f.ebits) (bitsOf v 0 f.fbits) = v := by
  have hq : v / 2 ^ f.signPos < 2 := Nat.div_lt_of_lt_mul (by rw [← pow_succ]; exact hv)
  have hsplit : v / 2 ^ f.fbits / 2 ^ f.ebits = v / 2 ^ f.signPos := by
    rw [Nat.div_div_eq_div_mul, two_pow_signPos, Nat.mul_comm]
  have h1 := Nat.div_add_mod v (2 ^ f.fbits)
  have h2 := Nat.div_add_mod (v / 2 ^ f.fbits) (2 ^ f.ebits)
  rw [hsplit] at h2
  have hsign : f.sign (bitAt v f.signPos) = 2 ^ f.fbits * (2 ^ f.ebits * (v / 2 ^ f.signPos)) := by
    rw [bitAt, Fmt.sign]
    generalize v / 2 ^ f.signPos = b at hq
    have hone : 2 ^ f.fbits * (2 ^ f.ebits * 1) = 2 ^ f.signPos := by rw [two_pow_signPos]; ring
    interval_cases b
    · simp
    · rw [hone]; rfl
  calc pattern f (bitAt v f.signPos) (bitsOf v f.fbits f.ebits) (bitsOf v 0 f.fbits)
      = 2 ^ f.fbits * (2 ^ f.ebits * (v / 2 ^ f.signPos) + v / 2 ^ f.fbits % 2 ^ f.ebits) + v % 2 ^ f.fbits := by
        rw [pattern, hsign]; simp only [bitsOf, pow_zero, Nat.div_one]; ring
    _ = v := by rw [h2, h1]

theorem pattern_lt (hex : ex < 2 ^ f.ebits) (hfr : fr < 2 ^ f.fbits) : pattern f n ex fr < 2 ^ (f.signPos + 1) := by
  have hlt : ex * 2 ^ f.fbits + fr < 2 ^ f.signPos := by
    rw [two_pow_signPos]
    calc ex * 2 ^ f.fbits + fr < (ex + 1) * 2 ^ f.fbits := by rw [add_one_mul]; omega
      _ ≤ _ := Nat.mul_le_mul_right _ hex
  have : f.sign n ≤ 2 ^ f.signPos := by cases n <;> simp [Fmt.sign]
  rw [pattern, pow_succ]
  omega

end

theorem packNum_subnormal {f : Fmt} (n : Bool) {k : Nat} (q : Int) (hk : k < 2 ^ f.fbits) : packNum f n k q = pattern f n 0 k := by
  simp [packNum, hk, pattern]

theorem packNum_normal {f : Fmt} (n : Bool) {k : Nat} {q : Int} (hk : 2 ^ f.fbits ≤ k) :
    packNum f n k q = pattern f n (q - f.qmin + 1).toNat (k - 2 ^ f.fbits) := by
  simp [packNum, Nat.not_lt.mpr hk, pattern]

/-- The exponent field of the largest finite numbers. -/
theorem qmax_eq {f : Fmt} (hf : Wide f) : f.qmax = f.qmin + ((2 ^ f.ebits - if f.hasInf then 3 else 2 : Nat) : Int) := by
  have h : 2 ^ 2 ≤ 2 ^ f.ebits := Nat.pow_le_pow_right (by omega) hf.ebits
  simp only [Fmt.qmax, Fmt.qmin]
  split <;> omega

theorem unpack_packNum {f : Fmt} (hf : Wide f) (n : Bool) {k : Nat} {q : Int} (h : Stored f k q) (hl : ¬ TooLarge f k q) :
    unpack f (packNum f n k q) = .num n k q := by
  have hE : 2 ^ 2 ≤ 2 ^ f.ebits := Nat.pow_le_pow_right (by omega) hf.ebits
  have hF := two_pow_prec f
  rcases h with ⟨hk, rfl⟩ | ⟨hk, hk', hq⟩
  · have h0 : 0 < 2 ^ f.ebits := Nat.two_pow_pos _
    rw [packNum_subnormal n _ hk, unpack_exponent_zero hf (exponent_pattern h0 hk), sign_pattern h0 hk, fraction_pattern hk]
  · have hmax := qmax_eq hf
    simp only [TooLarge, Fmt.kmax, not_or, not_lt, not_and] at hl
    obtain ⟨hl, hm⟩ := hl
    generalize hex : (q - f.qmin + 1).toNat = ex
    have hq' : q = f.qmin + ex - 1 := by omega
    have hex1 : 0 < ex := by omega
    have hfr : k - 2 ^ f.fbits < 2 ^ f.fbits := by omega
    have hexlt : ex < 2 ^ f.ebits := by split at hmax <;> omega
    rw [packNum_normal n hk, hex]
    simp only [unpack, sign_pattern hexlt hfr, exponent_pattern hexlt hfr, fraction_pattern hfr]
    have hex0 : ex ≠ 0 := by omega
    have hk2 : 2 ^ f.fbits + (k - 2 ^ f.fbits) = k := by omega
    cases hi : f.hasInf
    · have hlast : ¬ (ex = 2 ^ f.ebits - 1 ∧ k - 2 ^ f.fbits = 2 ^ f.fbits - 1) := by
        simp only [hi] at hmax hm
        rintro ⟨h1, h2⟩
        have hqm : q = f.qmax := by
          rw [if_neg (by simp)] at hmax; omega
        have := hm hqm
        rw [if_neg (by simp)] at this
        omega
      simp only [Bool.false_eq_true, and_false, if_false, if_neg hlast, if_neg hex0, hk2, hq']
    · have hlast : ex ≠ 2 ^ f.ebits - 1 := by
        rw [hi, if_pos rfl] at hmax
        omega
      simp only [hlast, false_and, if_false, if_neg hex0, hk2, hq']

/-- The fields of a pattern that is a number (R28, R30). -/
theorem unpack_num {f : Fmt} (hf : Wide f) {v : Nat} {n : Bool} {m : Nat} {e : Int} (h : unpack f v = .num n m e) :
    Stored f m e ∧ ¬ TooLarge f m e ∧ n = bitAt v f.signPos ∧
      packNum f n m e = pattern f n (bitsOf v f.fbits f.ebits) (bitsOf v 0 f.fbits) := by
  have hE : 2 ^ 2 ≤ 2 ^ f.ebits := Nat.pow_le_pow_right (by omega) hf.ebits
  have hF := two_pow_prec f
  have hmax := qmax_eq hf
  have hfr : bitsOf v 0 f.fbits < 2 ^ f.fbits := Nat.mod_lt _ (Nat.two_pow_pos _)
  have hex : bitsOf v f.fbits f.ebits < 2 ^ f.ebits := Nat.mod_lt _ (Nat.two_pow_pos _)
  have hF1 : 0 < 2 ^ f.fbits := Nat.two_pow_pos _
  simp only [unpack] at h
  generalize hfe : bitsOf v f.fbits f.ebits = ex at *
  generalize hff : bitsOf v 0 f.fbits = fr at *
  split at h
  · split at h <;> cases h
  next hinf =>
    split at h
    · cases h
    next hlast =>
      split at h
      · rename_i h0
        obtain ⟨rfl, rfl, rfl⟩ : _ = n ∧ fr = m ∧ f.qmin = e := by simpa using h
        refine ⟨.inl ⟨hfr, rfl⟩, ?_, rfl, by rw [packNum_subnormal _ _ hfr, h0]⟩
        simp only [TooLarge, not_or, not_lt, not_and]
        split at hmax <;> omega
      · rename_i h0
        obtain ⟨rfl, rfl, rfl⟩ : _ = n ∧ 2 ^ f.fbits + fr = m ∧ f.qmin + ex - 1 = e := by simpa using h
        refine ⟨.inr ⟨by omega, by omega, by omega⟩, ?_, rfl, ?_⟩
        · simp only [TooLarge, Fmt.kmax, not_or, not_lt, not_and]
          cases hi : f.hasInf
          · simp only [hi] at hmax hlast ⊢
            rw [if_neg (by simp)] at hmax
            rw [if_neg (by simp)]
            exact ⟨by omega, fun hq => by
              have : ex = 2 ^ f.ebits - 1 := by omega
              have := fun c => hlast ⟨this, c⟩
              omega⟩
          · simp only [hi] at hmax hinf ⊢
            rw [if_pos trivial] at hmax
            rw [if_pos trivial]
            have hne : ex ≠ 2 ^ f.ebits - 1 := fun c => hinf ⟨c, trivial⟩
            exact ⟨by omega, fun _ => by omega⟩
        · rw [packNum_normal _ (by omega), show (f.qmin + (ex : Int) - 1 - f.qmin + 1).toNat = ex by omega, Nat.add_sub_cancel_left]

theorem packNum_unpack {f : Fmt} (hf : Wide f) {v : Nat} (hv : v < 2 ^ (f.signPos + 1)) {n : Bool} {m : Nat} {e : Int}
    (h : unpack f v = .num n m e) : packNum f n m e = v := by
  obtain ⟨-, -, rfl, hp⟩ := unpack_num hf h
  rw [hp, pattern_fields hv]

theorem packNum_lt {f : Fmt} (hf : Wide f) (n : Bool) {k : Nat} {q : Int} (h : Stored f k q) (hl : ¬ TooLarge f k q) :
    packNum f n k q < 2 ^ (f.signPos + 1) := by
  have hp := (unpack_num hf (unpack_packNum hf n h hl)).2.2.2
  rw [hp]
  exact pattern_lt (Nat.mod_lt _ (Nat.two_pow_pos _)) (Nat.mod_lt _ (Nat.two_pow_pos _))

end Sys2Proof.Proofs
end

section
/-!
Rounding a real number (R32): what the kept part and the dropped part of a significand say of the number, and which multiple of the
unit a mode picks.
-/

namespace Sys2Proof.Proofs

open Sys2Proof Sys2Proof.Machine Sys2Proof.Safety Sys2Proof.Laws

/-- The number X that a significand m of unit 2^e and a sticky bit stand for: less than one unit more than m, and more at all just
when the bit is set. -/
def Approximates (m : Nat) (e : Int) (sticky : Bool) (X : ℝ) : Prop :=
  (m : ℝ) * 2 ^ e ≤ X ∧ X < (m + 1) * 2 ^ e ∧ (sticky = false ↔ X = m * 2 ^ e)

/-- A mode takes a magnitude down, the number being negative or not (R32). -/
def GoesDown (rm : Nat) (neg : Bool) : Prop := rm = 1 ∨ (rm = 2 ∧ neg = false) ∨ (rm = 3 ∧ neg = true)

/-- A mode takes a magnitude up, the number being negative or not (R32). -/
def GoesUp (rm : Nat) (neg : Bool) : Prop := (rm = 2 ∧ neg = true) ∨ (rm = 3 ∧ neg = false)

/-- The integer k is what a mode rounds the magnitude Y to (R32). -/
structure RoundsNat (rm : Nat) (neg : Bool) (Y : ℝ) (k : Nat) : Prop where
  close : |k - Y| < 1
  nearest : rm = 0 ∨ rm = 4 → |k - Y| ≤ 1 / 2
  tieEven : rm = 0 → |k - Y| = 1 / 2 → k % 2 = 0
  tieAway : rm = 4 → |k - Y| = 1 / 2 → Y ≤ k
  down : GoesDown rm neg → k ≤ Y
  up : GoesUp rm neg → Y ≤ k

section
variable {rm : Nat} {neg : Bool} {Y t : ℝ} {keep : Nat}

theorem roundsNat_keep (hY : Y = keep + t) (h0 : 0 ≤ t) (h1 : t < 1) (hn : rm = 0 ∨ rm = 4 → t ≤ 1 / 2)
    (he : rm = 0 → t = 1 / 2 → keep % 2 = 0) (ha : rm = 4 → t ≠ 1 / 2) (hu : GoesUp rm neg → t = 0) :
    RoundsNat rm neg Y keep := by
  have hd : |(keep : ℝ) - Y| = t := by rw [hY, show (keep : ℝ) - (keep + t) = -t by ring, abs_neg, abs_of_nonneg h0]
  refine ⟨by rwa [hd], fun h => by rw [hd]; exact hn h, fun h => by rw [hd]; exact he h, fun h k => absurd (hd ▸ k) (ha h),
    fun _ => by linarith, fun h => by linarith [hu h]⟩

theorem roundsNat_succ (hY : Y = keep + t) (h0 : 0 < t) (h1 : t < 1) (hn : rm = 0 ∨ rm = 4 → 1 / 2 ≤ t)
    (he : rm = 0 → t = 1 / 2 → (keep + 1) % 2 = 0) (hd : ¬ GoesDown rm neg) : RoundsNat rm neg Y (keep + 1) := by
  have hc : |((keep + 1 : Nat) : ℝ) - Y| = 1 - t := by
    rw [hY, show ((keep + 1 : Nat) : ℝ) - (keep + t) = 1 - t by push_cast; ring, abs_of_nonneg (by linarith)]
  refine ⟨by rw [hc]; linarith, fun h => by rw [hc]; linarith [hn h], fun h k => he h (by rw [hc] at k; linarith),
    fun _ _ => by rw [hY]; push_cast; linarith, fun h => absurd h hd, fun _ => by rw [hY]; push_cast; linarith⟩

/-- The last place goes up just when the mode asks for it, by the dropped part t (R32). -/
theorem roundUp_rounds (hrm : rm ≤ 4) (hY : Y = keep + t) (h0 : 0 ≤ t) (h1 : t < 1) {gt eq inx : Bool} (hgt : gt = true ↔ 1 / 2 < t)
    (heq : eq = true ↔ t = 1 / 2) (hinx : inx = true ↔ t ≠ 0) :
    RoundsNat rm neg Y (if roundUp rm neg (decide (keep % 2 = 1)) gt eq inx then keep + 1 else keep) := by
  have hpos : inx = true → 0 < t := fun h => lt_of_le_of_ne h0 (Ne.symm (hinx.mp h))
  have hzero : inx = false → t = 0 := fun h => by
    by_contra c
    rw [hinx.mpr c] at h
    cases h
  have hhalf : gt = true ∨ eq = true → 0 < t ∧ 1 / 2 ≤ t := by
    rintro (h | h)
    · have := hgt.mp h; constructor <;> linarith
    · have := heq.mp h; constructor <;> linarith
  have hlow : gt = false → t ≤ 1 / 2 := fun h => by
    by_contra c
    rw [hgt.mpr (not_le.mp c)] at h
    cases h
  interval_cases rm
  · by_cases hc : roundUp 0 neg (decide (keep % 2 = 1)) gt eq inx = true
    · rw [if_pos hc]
      simp only [roundUp, Bool.or_eq_true, Bool.and_eq_true, decide_eq_true_eq] at hc
      obtain ⟨hp, hl⟩ := hhalf (hc.imp_right And.left)
      refine roundsNat_succ hY hp h1 (fun _ => hl) (fun _ ht => ?_) (by simp [GoesDown])
      rcases hc with hc | hc
      · linarith [hgt.mp hc]
      · omega
    · rw [if_neg hc]
      simp only [roundUp, Bool.or_eq_true, Bool.and_eq_true, decide_eq_true_eq, not_or, not_and, Bool.not_eq_true] at hc
      refine roundsNat_keep hY h0 h1 (fun _ => hlow hc.1) (fun _ ht => ?_) (by simp) (by simp [GoesUp])
      have := hc.2 (heq.mpr ht)
      omega
  · exact roundsNat_keep hY h0 h1 (by simp) (by simp) (by simp) (by simp [GoesUp])
  · cases hi : inx <;> cases neg
    · exact roundsNat_keep hY h0 h1 (by simp) (by simp) (by simp) fun _ => hzero hi
    · exact roundsNat_keep hY h0 h1 (by simp) (by simp) (by simp) fun _ => hzero hi
    · exact roundsNat_keep hY h0 h1 (by simp) (by simp) (by simp) (by simp [GoesUp])
    · exact roundsNat_succ hY (hpos hi) h1 (by simp) (by simp) (by simp [GoesDown])
  · cases hi : inx <;> cases neg
    · exact roundsNat_keep hY h0 h1 (by simp) (by simp) (by simp) fun _ => hzero hi
    · exact roundsNat_keep hY h0 h1 (by simp) (by simp) (by simp) fun _ => hzero hi
    · exact roundsNat_succ hY (hpos hi) h1 (by simp) (by simp) (by simp [GoesDown])
    · exact roundsNat_keep hY h0 h1 (by simp) (by simp) (by simp) (by simp [GoesUp])
  · by_cases hc : roundUp 4 neg (decide (keep % 2 = 1)) gt eq inx = true
    · rw [if_pos hc]
      simp only [roundUp, Bool.or_eq_true] at hc
      obtain ⟨hp, hl⟩ := hhalf hc
      exact roundsNat_succ hY hp h1 (fun _ => hl) (by simp) (by simp [GoesDown])
    · rw [if_neg hc]
      simp only [roundUp, Bool.or_eq_true, not_or, Bool.not_eq_true] at hc
      refine roundsNat_keep hY h0 h1 (fun _ => hlow hc.1) (by simp) (fun _ ht => ?_) (by simp [GoesUp])
      rw [heq.mpr ht] at hc
      cases hc.2

/-- An integer is rounded to itself. -/
theorem roundsNat_unique {k : Nat} (h : RoundsNat rm neg Y k) (hY : Y = keep + t) (ht : t = 0) : k = keep := by
  have hc := abs_lt.mp h.close
  rw [hY, ht] at hc
  have h1 : (k : ℝ) < keep + 1 := by linarith
  have h2 : (keep : ℝ) < k + 1 := by linarith
  have h1' : k < keep + 1 := by exact_mod_cast h1
  have h2' : keep < k + 1 := by exact_mod_cast h2
  omega

end

theorem two_zpow_pos (e : Int) : (0 : ℝ) < 2 ^ e := zpow_pos (by norm_num) e

/-- 2 to a difference of exponents that is a natural number. -/
theorem two_zpow_toNat {a b : Int} (h : b ≤ a) : (2 : ℝ) ^ (a - b).toNat * 2 ^ b = 2 ^ a := by
  rw [← zpow_natCast, ← zpow_add₀ (by norm_num), Int.toNat_of_nonneg (by omega), Int.sub_add_cancel]

/-- What the dropped part of a significand says of the number: above one half, at one half, or anything at all (R32). -/
theorem dropped_part {j m keep rest : Nat} {s : Bool} {u : ℝ} (hlo : (m : ℝ) ≤ u) (hhi : u < m + 1) (hs : s = false ↔ u = m)
    (hm : 2 * 2 ^ j * keep + rest = m) (hr : rest < 2 * 2 ^ j) :
    ∃ t : ℝ, u / (2 * 2 ^ j) = keep + t ∧ 0 ≤ t ∧ t < 1 ∧
      ((decide (2 ^ j < rest) || (decide (rest = 2 ^ j) && s)) = true ↔ 1 / 2 < t) ∧
      ((decide (rest = 2 ^ j) && !s) = true ↔ t = 1 / 2) ∧ ((decide (rest ≠ 0) || s) = true ↔ t ≠ 0) := by
  have hj : (0 : ℝ) < 2 * 2 ^ j := by positivity
  have hmr : (m : ℝ) = 2 * 2 ^ j * keep + rest := by rw [← hm]; push_cast; ring
  have hr1 : (rest : ℝ) + 1 ≤ 2 * 2 ^ j := by exact_mod_cast hr
  have hr0 : (0 : ℝ) ≤ rest := Nat.cast_nonneg _
  have hs' : s = true ↔ (m : ℝ) < u := by
    rw [← Bool.not_eq_false, hs]
    exact ⟨fun c => lt_of_le_of_ne hlo (Ne.symm c), fun c => c.ne'⟩
  have whole {x : Nat} (hx : (x : ℝ) < rest + 1) : x ≤ rest := Nat.lt_succ_iff.mp (by exact_mod_cast hx)
  obtain ⟨d, hd⟩ : ∃ d : ℝ, u = 2 * 2 ^ j * keep + d := ⟨_, (add_sub_cancel _ _).symm⟩
  refine ⟨d / (2 * 2 ^ j), by rw [hd, add_div, mul_div_cancel_left₀ _ hj.ne'], div_nonneg (by linarith) hj.le,
    (div_lt_one hj).mpr (by linarith), ?_, ?_, ?_⟩
  · rw [lt_div_iff₀ hj, show (1 : ℝ) / 2 * (2 * 2 ^ j) = 2 ^ j by ring]
    simp only [Bool.or_eq_true, Bool.and_eq_true, decide_eq_true_eq, hs']
    constructor
    · rintro (c | ⟨rfl, c⟩)
      · have : (2 : ℝ) ^ j < rest := by exact_mod_cast c
        linarith
      · push_cast at hmr
        linarith
    · intro c
      rcases (whole (x := 2 ^ j) (by push_cast; linarith)).lt_or_eq with h | h
      · exact .inl h
      · refine .inr ⟨h.symm, ?_⟩
        rw [← h] at hmr
        push_cast at hmr
        linarith
  · rw [div_eq_iff hj.ne', show (1 : ℝ) / 2 * (2 * 2 ^ j) = 2 ^ j by ring]
    simp only [Bool.and_eq_true, decide_eq_true_eq, Bool.not_eq_true', hs]
    constructor
    · rintro ⟨rfl, c⟩
      push_cast at hmr
      linarith
    · intro c
      have hge : (rest : ℝ) ≤ (2 ^ j : Nat) := by push_cast; linarith
      have h : rest = 2 ^ j := le_antisymm (by exact_mod_cast hge) (whole (by push_cast; linarith))
      refine ⟨h, ?_⟩
      rw [h] at hmr
      push_cast at hmr
      linarith
  · simp only [Bool.or_eq_true, decide_eq_true_eq, hs', ne_eq, div_eq_zero_iff, hj.ne', or_false]
    constructor
    · rintro (c | c) c'
      · have : (1 : ℝ) ≤ rest := by exact_mod_cast Nat.one_le_iff_ne_zero.mpr c
        linarith
      · linarith
    · intro c
      by_contra hc
      rw [not_or, not_not, not_lt] at hc
      obtain ⟨rfl, hc⟩ := hc
      refine c ?_
      push_cast at hmr
      linarith

/-- Rounding a significand to a unit is rounding the number that it stands for (R32). -/
theorem roundTo_rounds {rm : Nat} (hrm : rm ≤ 4) (neg : Bool) {m : Nat} {e : Int} {s : Bool} {X : ℝ} (h : Approximates m e s X)
    {q : Int} (hq : q ≤ e → s = false) :
    RoundsNat rm neg (X / 2 ^ q) (roundTo rm neg m e s q).1 ∧
      ((roundTo rm neg m e s q).2 = true ↔ ((roundTo rm neg m e s q).1 : ℝ) ≠ X / 2 ^ q) := by
  obtain ⟨hlo, hhi, hs⟩ := h
  have h2e := two_zpow_pos e
  by_cases hqe : q ≤ e
  · have hX : X / 2 ^ q = ((m * 2 ^ (e - q).toNat : Nat) : ℝ) := by
      rw [hs.mp (hq hqe), ← two_zpow_toNat hqe, ← mul_assoc, mul_div_cancel_right₀ _ (two_zpow_pos q).ne']
      push_cast
      rfl
    rw [roundTo, if_pos hqe, hX, hq hqe]
    exact ⟨roundsNat_keep (t := 0) (by simp) le_rfl (by norm_num) (fun _ => by norm_num) (fun _ h => by norm_num at h)
      (fun _ => by norm_num) fun _ => rfl, by simp⟩
  · obtain ⟨j, hj⟩ : ∃ j, (q - e).toNat = j + 1 := ⟨(q - e).toNat - 1, by omega⟩
    have hY : X / 2 ^ q = X / 2 ^ e / (2 * 2 ^ j) := by
      rw [← two_zpow_toNat (show e ≤ q by omega), hj, pow_succ, div_div]
      ring_nf
    have hstep : 2 ^ (j + 1) = 2 * 2 ^ j := by rw [pow_succ, Nat.mul_comm]
    obtain ⟨t, ht, h0, h1, hgt, heq, hinx⟩ := dropped_part (j := j) (m := m) (s := s) (u := X / 2 ^ e)
      ((le_div_iff₀ h2e).mpr hlo) ((div_lt_iff₀ h2e).mpr hhi) (hs.trans (div_eq_iff h2e.ne').symm)
      (hstep ▸ Nat.div_add_mod m (2 ^ (j + 1))) (hstep ▸ Nat.mod_lt m (Nat.two_pow_pos _))
    rw [← hY] at ht
    rw [← hstep] at hgt heq hinx ht
    have hr := roundUp_rounds (neg := neg) hrm ht h0 h1 hgt heq hinx
    rw [roundTo, if_neg hqe]
    simp only [hj, Nat.add_sub_cancel]
    refine ⟨hr, hinx.trans ?_⟩
    constructor
    · intro hne c
      have := hr.close
      split at c
      · push_cast at c
        linarith
      · exact hne (by linarith)
    · intro c c'
      refine c ?_
      have hsmall := roundsNat_unique hr ht c'
      rw [hsmall, ht, c', add_zero]

end Sys2Proof.Proofs
end

section
/-!
Rounding to a format (R32, R37, R40): the result is the number of the format that the mode picks, or an overflow when that one is too
large.
-/

namespace Sys2Proof.Proofs

open Sys2Proof Sys2Proof.Machine Sys2Proof.Safety Sys2Proof.Laws

/-- R is what a mode rounds the positive number X to, as far as the candidate v can tell (R32). -/
structure Picks (rm : Nat) (neg : Bool) (X R : ℝ) (even : Prop) (v : ℝ) : Prop where
  nearest : rm = 0 ∨ rm = 4 → |R - X| ≤ |v - X|
  tie : rm = 0 ∨ rm = 4 → v ≠ R → |v - X| = |R - X| → (rm = 0 → even) ∧ (rm = 4 → X ≤ R)
  down : GoesDown rm neg → R ≤ X ∧ (v ≤ X → v ≤ R)
  up : GoesUp rm neg → X ≤ R ∧ (X ≤ v → R ≤ v)

/-- Every mode is to the nearest, down or up. -/
theorem mode_cases {rm : Nat} (hrm : rm ≤ 4) (neg : Bool) : (rm = 0 ∨ rm = 4) ∨ GoesDown rm neg ∨ GoesUp rm neg := by
  interval_cases rm <;> cases neg <;> simp [GoesDown, GoesUp]

theorem picks_le {rm : Nat} (hrm : rm ≤ 4) {neg : Bool} {X R v : ℝ} {even : Prop} (h : Picks rm neg X R even v) (hv : X ≤ v) :
    R ≤ v := by
  rcases mode_cases hrm neg with c | c | c
  · have := h.nearest c
    rw [abs_of_nonneg (show 0 ≤ v - X by linarith)] at this
    linarith [(abs_le.mp this).2]
  · linarith [(h.down c).1]
  · exact (h.up c).2 hv

theorem picks_ge {rm : Nat} (hrm : rm ≤ 4) {neg : Bool} {X R v : ℝ} {even : Prop} (h : Picks rm neg X R even v) (hv : v ≤ X) :
    v ≤ R := by
  rcases mode_cases hrm neg with c | c | c
  · have := h.nearest c
    rw [abs_of_nonpos (show v - X ≤ 0 by linarith)] at this
    linarith [(abs_le.mp this).1]
  · exact (h.down c).2 hv
  · linarith [(h.up c).1]

section
variable {rm : Nat} {neg : Bool} {X : ℝ} {k : Nat} {q : Int}

/-- Against a multiple of the unit. -/
theorem picks_multiple (h : RoundsNat rm neg (X / 2 ^ q) k) {v : ℝ} (j : Int) (hv : v = j * 2 ^ q) :
    Picks rm neg X (k * 2 ^ q) (k % 2 = 0) v := by
  have hq := two_zpow_pos q
  generalize hY : X / 2 ^ q = Y at h
  have hX : X = Y * 2 ^ q := by rw [← hY, div_mul_cancel₀ _ hq.ne']
  have hd (a : ℝ) : |a * 2 ^ q - X| = |a - Y| * 2 ^ q := by rw [hX, ← sub_mul, abs_mul, abs_of_pos hq]
  have far (hj : j ≠ k) : 1 ≤ |(j : ℝ) - k| := by
    have : (1 : ℤ) ≤ |j - k| := Int.one_le_abs (sub_ne_zero.mpr hj)
    exact_mod_cast this
  have apart (hn : rm = 0 ∨ rm = 4) (hj : j ≠ k) : 1 / 2 ≤ |(j : ℝ) - Y| := by
    have h1 := abs_sub_abs_le_abs_sub ((j : ℝ) - k) (Y - k)
    rw [show (j : ℝ) - k - (Y - k) = j - Y by ring, abs_sub_comm Y] at h1
    linarith [far hj, h.nearest hn]
  have hc := abs_lt.mp h.close
  refine ⟨fun hn => ?_, fun hn hne ht => ?_, fun hdn => ⟨?_, fun hle => ?_⟩, fun hup => ⟨?_, fun hge => ?_⟩⟩
  · rw [hv, hd, hd]
    refine mul_le_mul_of_nonneg_right ?_ hq.le
    by_cases hj : j = k
    · rw [hj]; rfl
    · exact (h.nearest hn).trans (apart hn hj)
  · have hj : j ≠ k := by rintro rfl; exact hne (by rw [hv]; push_cast; rfl)
    rw [hv, hd, hd] at ht
    have he : |(j : ℝ) - Y| = |(k : ℝ) - Y| := mul_right_cancel₀ hq.ne' ht
    have hhalf : |(k : ℝ) - Y| = 1 / 2 := le_antisymm (h.nearest hn) (he ▸ apart hn hj)
    refine ⟨fun h0 => h.tieEven h0 hhalf, fun h4 => ?_⟩
    rw [hX]
    exact mul_le_mul_of_nonneg_right (h.tieAway h4 hhalf) hq.le
  · rw [hX]
    exact mul_le_mul_of_nonneg_right (h.down hdn) hq.le
  · rw [hv, hX] at hle
    rw [hv]
    have h1 := le_of_mul_le_mul_right hle hq
    have h2 : (j : ℝ) < k + 1 := by linarith
    have h3 : j ≤ k := Int.lt_add_one_iff.mp (by exact_mod_cast h2)
    exact mul_le_mul_of_nonneg_right (by exact_mod_cast h3) hq.le
  · rw [hX]
    exact mul_le_mul_of_nonneg_right (h.up hup) hq.le
  · rw [hv, hX] at hge
    rw [hv]
    have h1 := le_of_mul_le_mul_right hge hq
    have h2 : (k : ℝ) < j + 1 := by linarith
    have h3 : (k : ℤ) ≤ j := Int.lt_add_one_iff.mp (by exact_mod_cast h2)
    exact mul_le_mul_of_nonneg_right (by exact_mod_cast h3) hq.le

/-- Against a number below a multiple of the unit that X is not below. -/
theorem picks_below (h : RoundsNat rm neg (X / 2 ^ q) k) {v : ℝ} (b : Int) (hv : v < b * 2 ^ q) (hb : b * 2 ^ q ≤ X) :
    Picks rm neg X (k * 2 ^ q) (k % 2 = 0) v := by
  have hm := picks_multiple h b rfl
  have hne : |(b : ℝ) * 2 ^ q - X| < |v - X| := by
    rw [abs_of_nonpos (by linarith), abs_of_nonpos (by linarith)]
    linarith
  refine ⟨fun hn => (hm.nearest hn).trans hne.le, fun hn _ ht => ?_, fun hd => ⟨(hm.down hd).1, fun _ => ?_⟩,
    fun hu => ⟨(hm.up hu).1, fun hge => by linarith⟩⟩
  · have := hm.nearest hn
    linarith
  · linarith [(hm.down hd).2 hb]

end

/-- The magnitude of a number is one that the format's significands give, the exponent being free above (R28). -/
def OnGrid (f : Fmt) (v : ℝ) : Prop := ∃ (k : Nat) (q : Int), Stored f k q ∧ |v| = k * 2 ^ q

theorem bitLen_le {m : Nat} (h : m ≠ 0) : 2 ^ (bitLen m - 1) ≤ m := by
  rw [bitLen, if_neg h, Nat.add_sub_cancel]
  exact Nat.log2_self_le h

theorem lt_bitLen (m : Nat) : m < 2 ^ bitLen m := by
  by_cases h : m = 0
  · simp [bitLen, h]
  · rw [bitLen, if_neg h]
    exact Nat.lt_log2_self

theorem bitLen_pos {m : Nat} (h : m ≠ 0) : 0 < bitLen m := by
  rw [bitLen, if_neg h]
  omega

section
variable {m : Nat} {e : Int} {s : Bool} {X : ℝ}

theorem approximates_lt (h : Approximates m e s X) : X < 2 ^ (e + bitLen m) := by
  refine h.2.1.trans_le ?_
  rw [zpow_add₀ (by norm_num), zpow_natCast, mul_comm]
  refine mul_le_mul_of_nonneg_left ?_ (two_zpow_pos e).le
  exact_mod_cast Nat.succ_le_of_lt (lt_bitLen m)

theorem approximates_ge (h : Approximates m e s X) (hm : m ≠ 0) : (2 : ℝ) ^ (e + bitLen m - 1) ≤ X := by
  refine le_trans ?_ h.1
  have hb := bitLen_pos hm
  rw [show e + bitLen m - 1 = ((bitLen m - 1 : Nat) : Int) + e by omega, zpow_add₀ (by norm_num), zpow_natCast]
  refine mul_le_mul_of_nonneg_right ?_ (two_zpow_pos e).le
  exact_mod_cast bitLen_le hm

theorem approximates_pos (h : Approximates m e s X) (hm : m ≠ 0) : 0 < X := (two_zpow_pos _).trans_le (approximates_ge h hm)

theorem approximates_exact (m : Nat) (e : Int) : Approximates m e false (m * 2 ^ e) :=
  ⟨le_rfl, mul_lt_mul_of_pos_right (by linarith) (two_zpow_pos e), by simp⟩

end

/-- The unit to which the model rounds: of the last place of a normal number, but not below that of a subnormal. -/
def unitOf (f : Fmt) (m : Nat) (e : Int) : Int := max (e + bitLen m - f.prec) f.qmin

theorem two_zpow_prec (f : Fmt) (q : Int) : (2 : ℝ) ^ f.prec * 2 ^ q = 2 ^ f.fbits * 2 ^ (q + 1) := by
  rw [Fmt.prec, pow_succ, zpow_add₀ (by norm_num), zpow_one]
  ring

/-- Every number of the format is a multiple of the unit, or lies below one that the rounded number is not below. -/
theorem grid_picks {f : Fmt} {rm : Nat} {neg : Bool} {m : Nat} {e : Int} {s : Bool} {X : ℝ} (h : Approximates m e s X) (hm : m ≠ 0)
    {k : Nat} (hk : RoundsNat rm neg (X / 2 ^ unitOf f m e) k) {v : ℝ} (hv : OnGrid f v) :
    Picks rm neg X (k * 2 ^ unitOf f m e) (k % 2 = 0) v := by
  obtain ⟨j, p, hs, hj⟩ := hv
  by_cases hp : unitOf f m e ≤ p
  · rw [← two_zpow_toNat hp, ← mul_assoc] at hj
    rcases abs_choice v with c | c
    · exact picks_multiple hk (j * 2 ^ (p - unitOf f m e).toNat) (by rw [← c, hj]; push_cast; rfl)
    · refine picks_multiple hk (-(j * 2 ^ (p - unitOf f m e).toNat)) ?_
      rw [c] at hj
      push_cast
      linarith
  · have hq : unitOf f m e = e + bitLen m - f.prec := by
      have := stored_qmin_le hs
      simp only [unitOf] at hp ⊢
      omega
    have hb : ((2 ^ f.fbits : Int) : ℝ) * 2 ^ unitOf f m e = 2 ^ (e + bitLen m - 1) := by
      push_cast
      rw [hq, Fmt.prec, ← zpow_natCast, ← zpow_add₀ (by norm_num)]
      congr 1
      push_cast
      ring
    refine picks_below hk (2 ^ f.fbits) ?_ (hb ▸ approximates_ge h hm)
    have hjlt : (j : ℝ) < 2 ^ f.prec := by exact_mod_cast stored_lt hs
    calc v ≤ |v| := le_abs_self v
      _ = j * 2 ^ p := hj
      _ < 2 ^ f.prec * 2 ^ p := mul_lt_mul_of_pos_right hjlt (two_zpow_pos p)
      _ = 2 ^ f.fbits * 2 ^ (p + 1) := two_zpow_prec f p
      _ ≤ 2 ^ f.fbits * 2 ^ unitOf f m e :=
        mul_le_mul_of_nonneg_left (zpow_le_zpow_right₀ (by norm_num) (by omega)) (by positivity)
      _ = _ := by push_cast; rfl

/-- A result is the rounding of the positive number X to the stored number k * 2^q, in a format that may be too small for it (R32, R37,
R40). -/
structure RoundsFp (f : Fmt) (ov : Over) (rm : Nat) (neg : Bool) (X : ℝ) (z : Res) (k : Nat) (q : Int) : Prop where
  stored : Stored f k q
  picks : ∀ v, OnGrid f v → Picks rm neg X (k * 2 ^ q) (k % 2 = 0) v
  large : TooLarge f k q → z = overflow f ov rm neg
  bits : ¬ TooLarge f k q → z.bits = packNum f neg k q
  inexact : ¬ TooLarge f k q → (z.flags &&& flagInx ≠ 0 ↔ (k : ℝ) * 2 ^ q ≠ X)
  exact : ¬ TooLarge f k q → (k : ℝ) * 2 ^ q = X → z = Res.plain (packNum f neg k q)

/-- A significand that has come out as a full power of two moves to the next exponent. -/
def carried (f : Fmt) (k : Nat) (q : Int) : Nat × Int := if k = 2 ^ f.prec then (2 ^ f.fbits, q + 1) else (k, q)

theorem carried_value (f : Fmt) (k : Nat) (q : Int) : ((carried f k q).1 : ℝ) * 2 ^ (carried f k q).2 = k * 2 ^ q := by
  unfold carried
  split
  · rename_i h
    rw [h]
    push_cast
    exact (two_zpow_prec f q).symm
  · rfl

theorem carried_even {f : Fmt} (hf : Wide f) (k : Nat) (q : Int) : (carried f k q).1 % 2 = 0 ↔ k % 2 = 0 := by
  have h1 : 2 ^ f.fbits % 2 = 0 := Nat.mod_eq_zero_of_dvd (dvd_pow_self 2 (by have := hf.fbits; omega))
  have h2 : 2 ^ f.prec % 2 = 0 := Nat.mod_eq_zero_of_dvd (dvd_pow_self 2 (by rw [Fmt.prec]; omega))
  unfold carried
  split
  · rename_i h
    rw [h]
    exact iff_of_true h1 h2
  · rfl

/-- The rounded significand has the precision of the format at its unit, or has just outgrown it. -/
theorem carried_stored {f : Fmt} {rm : Nat} {neg : Bool} {m : Nat} {e : Int} {s : Bool} {X : ℝ} (h : Approximates m e s X)
    (hm : m ≠ 0) {k : Nat} (hk : RoundsNat rm neg (X / 2 ^ unitOf f m e) k) :
    Stored f (carried f k (unitOf f m e)).1 (carried f k (unitOf f m e)).2 := by
  have hq := two_zpow_pos (unitOf f m e)
  have hc := abs_lt.mp hk.close
  have hF := two_pow_prec f
  have hpos : 0 < 2 ^ f.fbits := Nat.two_pow_pos _
  have hmin : f.qmin ≤ unitOf f m e := le_max_right _ _
  have hle : k ≤ 2 ^ f.prec := by
    have h1 : X < 2 ^ f.prec * 2 ^ unitOf f m e := by
      refine (approximates_lt h).trans_le ?_
      rw [← zpow_natCast, ← zpow_add₀ (by norm_num)]
      refine zpow_le_zpow_right₀ (by norm_num) ?_
      have : e + bitLen m - f.prec ≤ unitOf f m e := le_max_left _ _
      omega
    have h2 := (div_lt_iff₀ hq).mpr h1
    have h3 : (k : ℝ) < 2 ^ f.prec + 1 := by linarith
    exact Nat.lt_succ_iff.mp (by exact_mod_cast h3)
  unfold carried
  split
  · exact .inr ⟨le_rfl, by omega, by omega⟩
  · rename_i hne
    by_cases hsub : unitOf f m e = f.qmin
    · rcases lt_or_ge k (2 ^ f.fbits) with c | c
      · exact .inl ⟨c, hsub⟩
      · exact .inr ⟨c, by omega, hmin⟩
    · have hq' : unitOf f m e = e + bitLen m - f.prec := by
        simp only [unitOf] at hsub ⊢
        omega
      have h1 : (2 : ℝ) ^ f.fbits * 2 ^ unitOf f m e ≤ X := by
        refine le_trans (le_of_eq ?_) (approximates_ge h hm)
        rw [hq', Fmt.prec, ← zpow_natCast, ← zpow_add₀ (by norm_num)]
        congr 1
        push_cast
        ring
      have h2 := (le_div_iff₀ hq).mpr h1
      have h3 : (2 : ℝ) ^ f.fbits < k + 1 := by linarith
      exact .inr ⟨Nat.lt_succ_iff.mp (by exact_mod_cast h3), by omega, hmin⟩

theorem roundFp_eq (f : Fmt) (ov : Over) (rm : Nat) (neg : Bool) {m : Nat} (hm : m ≠ 0) (e : Int) (s : Bool) :
    roundFp f ov rm neg m e s =
      let r := roundTo rm neg m e s (unitOf f m e)
      let c := carried f r.1 (unitOf f m e)
      if f.qmax < c.2 ∨ (c.2 = f.qmax ∧ f.kmax < c.1) then overflow f ov rm neg
      else
        let fl : BitVec 7 := if r.2 then flagInx else 0
        Res.mk' (packNum f neg c.1 c.2)
          (if r.2 && decide (c.1 ≠ 0) && decide (c.1 < 2 ^ f.fbits) then fl ||| flagUnf else fl) := by
  rw [roundFp, if_neg (fun c => hm c.1)]
  unfold carried unitOf
  by_cases hc : (roundTo rm neg m e s (max (e + bitLen m - f.prec) f.qmin)).1 = 2 ^ f.prec
  · simp only [if_pos hc]
  · simp only [if_neg hc]

/-- Rounding to a format gives the number that the mode picks (R32). -/
theorem roundFp_rounds {f : Fmt} (hf : Wide f) (ov : Over) {rm : Nat} (hrm : rm ≤ 4) (neg : Bool) {m : Nat} (hm : m ≠ 0) {e : Int}
    {s : Bool} {X : ℝ} (h : Approximates m e s X) (hs : s = true → f.prec + 2 ≤ bitLen m) :
    ∃ k q, RoundsFp f ov rm neg X (roundFp f ov rm neg m e s) k q := by
  have hsq : unitOf f m e ≤ e → s = false := by
    intro c
    by_contra c'
    have := hs (by simpa using c')
    have : e + bitLen m - f.prec ≤ unitOf f m e := le_max_left _ _
    omega
  obtain ⟨hr, hinx⟩ := roundTo_rounds hrm neg h hsq
  rw [roundFp_eq f ov rm neg hm]
  generalize roundTo rm neg m e s (unitOf f m e) = r at hr hinx
  obtain ⟨k0, inx⟩ := r
  have hval := carried_value f k0 (unitOf f m e)
  have hinx' : inx = true ↔ (k0 : ℝ) * 2 ^ unitOf f m e ≠ X := by
    rw [hinx, ne_eq, eq_div_iff (two_zpow_pos _).ne']
  refine ⟨(carried f k0 (unitOf f m e)).1, (carried f k0 (unitOf f m e)).2, carried_stored h hm hr, fun v hv => ?_, fun hl => if_pos hl,
    fun hl => ?_, fun hl => ?_, fun hl he => ?_⟩
  · rw [hval]
    obtain ⟨h1, h2, h3, h4⟩ := grid_picks h hm hr hv
    exact ⟨h1, by simpa only [carried_even hf] using h2, h3, h4⟩
  · simp only [if_neg (show ¬ (_ ∨ _) from hl)]
    rfl
  · simp only [if_neg (show ¬ (_ ∨ _) from hl), hval, ← hinx', Res.mk']
    cases inx
    · simp
    · simp only [if_true]
      split <;> decide
  · rw [hval] at he
    have hfalse : inx = false := by
      rw [← Bool.not_eq_true, hinx']
      simpa using he
    subst hfalse
    simp only [if_neg (show ¬ (_ ∨ _) from hl)]
    simp [Res.mk', Res.plain, excOf]

end Sys2Proof.Proofs
end

section
/-!
The rounding of a rational number to a format, as the statements say it (R32): from the number that the mode picks among the
format's reals.
-/

namespace Sys2Proof.Proofs

open Sys2Proof Sys2Proof.Machine Sys2Proof.Safety Sys2Proof.Laws

/-- The sign of a number. -/
def sgn (n : Bool) : ℝ := if n then -1 else 1

@[simp] theorem abs_sgn (n : Bool) : |sgn n| = 1 := by cases n <;> simp [sgn]

@[simp] theorem sgn_mul_self (n : Bool) : sgn n * sgn n = 1 := by cases n <;> simp [sgn]

theorem sgn_mul_cancel {n : Bool} {a b : ℝ} (h : sgn n * a = b) : a = sgn n * b := by
  rw [← h, ← mul_assoc, sgn_mul_self, one_mul]

theorem num_cast (n : Bool) (m : Nat) (e : Int) : ((num n m e : ℚ) : ℝ) = sgn n * (m * 2 ^ e) := by
  have h2 : (2 : ℝ) ^ e = 2 ^ e.toNat / 2 ^ (-e).toNat := by
    rw [← zpow_natCast, ← zpow_natCast, ← zpow_sub₀ (by norm_num)]
    congr 1
    omega
  rw [num, Rat.mkRat_eq_div, h2]
  cases n <;> simp [sgn] <;> ring

theorem num_magnitude (n : Bool) (m : Nat) (e : Int) : |((num n m e : ℚ) : ℝ)| = m * 2 ^ e := by
  rw [num_cast, abs_mul, abs_sgn, one_mul, abs_of_nonneg (mul_nonneg (Nat.cast_nonneg _) (two_zpow_pos e).le)]

theorem mag_cast (x : ℚ) : ((mag x : ℚ) : ℝ) = |(x : ℝ)| := by
  unfold mag
  split
  · rename_i h
    rw [abs_of_nonneg (by exact_mod_cast h)]
  · rename_i h
    rw [abs_of_neg (by exact_mod_cast not_le.mp h)]
    push_cast
    rfl

theorem not_tooLarge_max (f : Fmt) : ¬ TooLarge f f.kmax f.qmax := by
  simp [TooLarge]

section
variable {f : Fmt} (hf : Wide f)
include hf

theorem two_pow_fbits_ge : 4 ≤ 2 ^ f.fbits := le_trans (by norm_num) (Nat.pow_le_pow_right (by omega) hf.fbits)

theorem kmax_bounds : 2 ^ f.fbits ≤ f.kmax ∧ f.kmax < 2 ^ f.prec ∧ 2 ^ f.prec ≤ 2 * f.kmax := by
  have h1 := two_pow_prec f
  have h2 := two_pow_fbits_ge hf
  rw [Fmt.kmax]
  split <;> omega

theorem qmin_le_qmax : f.qmin ≤ f.qmax := by
  have h : 2 ^ 2 ≤ 2 ^ f.ebits := Nat.pow_le_pow_right (by omega) hf.ebits
  have := qmax_eq hf
  omega

theorem stored_max : Stored f f.kmax f.qmax := .inr ⟨(kmax_bounds hf).1, (kmax_bounds hf).2.1, qmin_le_qmax hf⟩

theorem maxFin_eq (n : Bool) : f.maxFin n = packNum f n f.kmax f.qmax := by
  have h1 := two_pow_prec f
  have h2 := two_pow_fbits_ge hf
  have h3 : 2 ^ 2 ≤ 2 ^ f.ebits := Nat.pow_le_pow_right (by omega) hf.ebits
  have h4 := qmax_eq hf
  have h5 := two_pow_signPos f
  have h6 : 2 ^ f.ebits * 2 ^ f.fbits = (2 ^ f.ebits - 2) * 2 ^ f.fbits + 2 * 2 ^ f.fbits := by
    rw [← add_mul, Nat.sub_add_cancel (by omega)]
  have h7 : (2 ^ f.ebits - 1) * 2 ^ f.fbits = (2 ^ f.ebits - 2) * 2 ^ f.fbits + 2 ^ f.fbits := by
    rw [show 2 ^ f.ebits - 1 = 2 ^ f.ebits - 2 + 1 by omega, add_one_mul]
  rw [packNum_normal n (kmax_bounds hf).1, pattern, Fmt.maxFin, Fmt.kmax]
  cases hi : f.hasInf
  · rw [hi, if_neg (by simp)] at h4
    rw [show (f.qmax - f.qmin + 1).toNat = 2 ^ f.ebits - 1 by omega, if_neg (by simp), if_neg (by simp), h7, h5]
    omega
  · rw [hi, if_pos rfl] at h4
    rw [show (f.qmax - f.qmin + 1).toNat = 2 ^ f.ebits - 2 by omega, if_pos rfl, if_pos rfl, h7]
    omega

theorem unpack_maxFin (n : Bool) : unpack f (f.maxFin n) = .num n f.kmax f.qmax := by
  rw [maxFin_eq hf]
  exact unpack_packNum hf n (stored_max hf) (not_tooLarge_max f)

theorem finVal_num (n : Bool) {k : Nat} {q : Int} (h : Stored f k q) (hl : ¬ TooLarge f k q) : FinVal f (num n k q) :=
  ⟨_, n, k, q, packNum_lt hf n h hl, unpack_packNum hf n h hl, rfl⟩

theorem finVal_parts {v : ℚ} (h : FinVal f v) : ∃ n k q, Stored f k q ∧ ¬ TooLarge f k q ∧ v = num n k q := by
  obtain ⟨w, n, m, e, -, hu, rfl⟩ := h
  exact ⟨n, m, e, (unpack_num hf hu).1, (unpack_num hf hu).2.1, rfl⟩

theorem finVal_onGrid {v : ℚ} (h : FinVal f v) {w : ℝ} (hw : |w| = |(v : ℝ)|) : OnGrid f w := by
  obtain ⟨n, k, q, hs, -, rfl⟩ := finVal_parts hf h
  exact ⟨k, q, hs, by rw [hw, num_magnitude]⟩

/-- Beyond the largest finite number is what exceeds it in value. -/
theorem tooLarge_iff {k : Nat} {q : Int} (h : Stored f k q) :
    TooLarge f k q ↔ (f.kmax : ℝ) * 2 ^ f.qmax < k * 2 ^ q := by
  have hq := two_zpow_pos f.qmax
  obtain ⟨h1, h2, -⟩ := kmax_bounds hf
  have hmin := qmin_le_qmax hf
  have lower {a b : Nat} {p r : Int} (ha : a < 2 ^ f.prec) (hb : 2 ^ f.fbits ≤ b) (hpr : p < r) : (a : ℝ) * 2 ^ p < b * 2 ^ r := by
    have ha' : (a : ℝ) < 2 ^ f.prec := by exact_mod_cast ha
    have hb' : (2 : ℝ) ^ f.fbits ≤ b := by exact_mod_cast hb
    calc (a : ℝ) * 2 ^ p < 2 ^ f.prec * 2 ^ p := mul_lt_mul_of_pos_right ha' (two_zpow_pos p)
      _ = 2 ^ f.fbits * 2 ^ (p + 1) := two_zpow_prec f p
      _ ≤ b * 2 ^ r := mul_le_mul hb' (zpow_le_zpow_right₀ (by norm_num) (by omega)) (two_zpow_pos _).le (Nat.cast_nonneg b)
  have hnormal : f.qmin < q → 2 ^ f.fbits ≤ k := fun c => by
    rcases h with ⟨-, c'⟩ | ⟨c', -⟩
    · omega
    · exact c'
  constructor
  · rintro (c | ⟨rfl, c⟩)
    · exact lower h2 (hnormal (by omega)) c
    · exact mul_lt_mul_of_pos_right (by exact_mod_cast c) hq
  · intro c
    by_contra hl
    simp only [TooLarge, not_or, not_lt, not_and] at hl
    refine absurd c (not_lt.mpr ?_)
    rcases hl.1.lt_or_eq with c' | rfl
    · exact (lower (stored_lt h) h1 c').le
    · exact mul_le_mul_of_nonneg_right (by exact_mod_cast hl.2 rfl) hq.le

end

section
variable {f : Fmt} (hf : Wide f) {ov : Over} {rm : Nat} (hrm : rm ≤ 4) {neg : Bool} {X : ℝ} {z : Res} {k : Nat} {q : Int}
  (h : RoundsFp f ov rm neg X z k q)
include hf hrm h

theorem roundsFp_inRange {v : ℚ} (hv : FinVal f v) (hX : X ≤ v) : ¬ TooLarge f k q := by
  rw [tooLarge_iff hf h.stored, not_lt]
  obtain ⟨n, j, p, hs, hl, rfl⟩ := finVal_parts hf hv
  have hle := picks_le hrm (h.picks _ (finVal_onGrid hf hv rfl)) hX
  rw [tooLarge_iff hf hs, not_lt] at hl
  refine hle.trans (le_trans ?_ hl)
  rw [← num_magnitude n]
  exact le_abs_self _

/-- The least number of unbounded exponent that the format lacks. -/
theorem roundsFp_overflows (hX : ∀ v, FinVal f v → 2 * (v : ℝ) < X) : TooLarge f k q := by
  rw [tooLarge_iff hf h.stored]
  have hmax := hX _ (finVal_num hf false (stored_max hf) (not_tooLarge_max f))
  rw [num_cast, sgn, if_neg (by simp), one_mul] at hmax
  have hnext : Stored f (2 ^ f.fbits) (f.qmax + 1) :=
    .inr ⟨le_rfl, by have := two_pow_prec f; have := Nat.two_pow_pos f.fbits; omega, by have := qmin_le_qmax hf; omega⟩
  have hval : ((2 ^ f.fbits : Nat) : ℝ) * 2 ^ (f.qmax + 1) = 2 ^ f.prec * 2 ^ f.qmax := by
    rw [two_zpow_prec]; push_cast; rfl
  have hle : (2 : ℝ) ^ f.prec * 2 ^ f.qmax ≤ 2 * (f.kmax * 2 ^ f.qmax) := by
    rw [← mul_assoc]
    exact mul_le_mul_of_nonneg_right (by exact_mod_cast (kmax_bounds hf).2.2) (two_zpow_pos _).le
  have hgrid : OnGrid f (((2 ^ f.fbits : Nat) : ℝ) * 2 ^ (f.qmax + 1)) :=
    ⟨_, _, hnext, abs_of_nonneg (mul_nonneg (Nat.cast_nonneg _) (two_zpow_pos _).le)⟩
  refine lt_of_lt_of_le ?_ (picks_ge hrm (h.picks _ hgrid) (by rw [hval]; linarith))
  rw [hval]
  exact mul_lt_mul_of_pos_right (by exact_mod_cast (kmax_bounds hf).2.1) (two_zpow_pos _)

end

theorem roundsFp_unpack {f : Fmt} (hf : Wide f) {ov : Over} {rm : Nat} {neg : Bool} {X : ℝ} {z : Res} {k : Nat} {q : Int}
    (h : RoundsFp f ov rm neg X z k q) (hl : ¬ TooLarge f k q) : unpack f z.bits = .num neg k q := by
  rw [h.bits hl, unpack_packNum hf neg h.stored hl]

theorem packNum_even {f : Fmt} (hf : Wide f) (n : Bool) (k : Nat) (q : Int) : packNum f n k q % 2 = 0 ↔ k % 2 = 0 := by
  have h1 : 2 ^ f.fbits % 2 = 0 := Nat.mod_eq_zero_of_dvd (dvd_pow_self 2 (by have := hf.fbits; omega))
  have h2 : f.sign n % 2 = 0 := by
    cases n
    · rfl
    · exact Nat.mod_eq_zero_of_dvd (dvd_pow_self 2 (by have := hf.fbits; rw [Fmt.signPos]; omega))
  unfold packNum
  split
  · omega
  · have h3 : (q - f.qmin + 1).toNat * 2 ^ f.fbits % 2 = 0 := by rw [Nat.mul_mod, h1]; simp
    omega

/-- What a mode picks among the magnitudes is what a signed number rounds to (R32). -/
theorem rounds_of_picks {rm : Nat} {neg : Bool} {X R : ℝ} (hX : 0 < X) (hR : 0 ≤ R) {even : Prop} {S : ℚ → Prop} {x r : ℚ}
    (hx : (x : ℝ) = sgn neg * X) (hr : (r : ℝ) = sgn neg * R) (hSr : S r)
    (hS : ∀ v, S v → ∀ w : ℝ, |w| = |(v : ℝ)| → Picks rm neg X R even w) : Rounds rm S x r even := by
  refine ⟨hSr, fun v hv => ?_⟩
  have hp := hS v hv (sgn neg * v) (by rw [abs_mul, abs_sgn, one_mul])
  have ha := hS v hv |(v : ℝ)| (abs_abs _)
  have hdiff (a : ℚ) (b : ℝ) (hab : (a : ℝ) = sgn neg * b) : ((mag (a - x) : ℚ) : ℝ) = |b - X| := by
    rw [mag_cast]
    push_cast
    rw [hab, hx, ← mul_sub, abs_mul, abs_sgn, one_mul]
  have hd := hdiff v _ (sgn_mul_cancel rfl)
  have hdr := hdiff r R hr
  have hmx : ((mag x : ℚ) : ℝ) = X := by rw [mag_cast, hx, abs_mul, abs_sgn, one_mul, abs_of_pos hX]
  have hmr : ((mag r : ℚ) : ℝ) = R := by rw [mag_cast, hr, abs_mul, abs_sgn, one_mul, abs_of_nonneg hR]
  have hmv := mag_cast v
  refine ⟨fun hn => ?_, fun hne ht => ?_, fun h1 => ?_, fun h2 => ?_, fun h3 => ?_⟩
  · have := hp.nearest hn
    rw [← hd, ← hdr] at this
    exact_mod_cast this
  · have hne' : sgn neg * (v : ℝ) ≠ R := by
      intro c
      refine hne ?_
      have : (v : ℝ) = r := by rw [hr, sgn_mul_cancel c]
      exact_mod_cast this
    have ht' : |sgn neg * (v : ℝ) - X| = |R - X| := by rw [← hd, ← hdr, ht]
    refine ⟨fun h0 => (hp.tie (.inl h0) hne' ht').1 h0, fun h4 => ?_⟩
    have := (hp.tie (.inr h4) hne' ht').2 h4
    rw [← hmx, ← hmr] at this
    exact_mod_cast this
  · obtain ⟨hle, hall⟩ := ha.down (.inl h1)
    refine ⟨?_, ?_, fun hv => ?_⟩
    · rw [← hmx, ← hmr] at hle
      exact_mod_cast hle
    · have : (0 : ℝ) ≤ r * x := by
        rw [hr, hx, show sgn neg * R * (sgn neg * X) = sgn neg * sgn neg * (R * X) by ring, sgn_mul_self, one_mul]
        positivity
      exact_mod_cast this
    · have h' : ((mag v : ℚ) : ℝ) ≤ X := by rw [← hmx]; exact_mod_cast hv
      rw [hmv] at h'
      have := hall h'
      rw [← hmv, ← hmr] at this
      exact_mod_cast this
  · rw [← Rat.cast_le (K := ℝ), ← Rat.cast_le (K := ℝ), ← Rat.cast_le (K := ℝ), hx, hr]
    cases neg
    · obtain ⟨hle, hall⟩ := hp.down (.inr (.inl ⟨h2, rfl⟩))
      simp only [sgn, Bool.false_eq_true, if_false, one_mul] at hall ⊢
      exact ⟨hle, hall⟩
    · obtain ⟨hle, hall⟩ := hp.up (.inl ⟨h2, rfl⟩)
      simp only [sgn, if_true, neg_one_mul] at hall ⊢
      exact ⟨by linarith, fun c => by linarith [hall (by linarith)]⟩
  · rw [← Rat.cast_le (K := ℝ), ← Rat.cast_le (K := ℝ), ← Rat.cast_le (K := ℝ), hx, hr]
    cases neg
    · obtain ⟨hle, hall⟩ := hp.up (.inr ⟨h3, rfl⟩)
      simp only [sgn, Bool.false_eq_true, if_false, one_mul] at hall ⊢
      exact ⟨hle, hall⟩
    · obtain ⟨hle, hall⟩ := hp.down (.inr (.inr ⟨h3, rfl⟩))
      simp only [sgn, if_true, neg_one_mul] at hall ⊢
      exact ⟨by linarith, fun c => by linarith [hall (by linarith)]⟩

theorem bitAt_testBit (v i : Nat) : v.testBit i = bitAt v i := by
  rw [Nat.testBit_eq_decide_div_mod_eq, bitAt]

/-- A rational number rounds to a format as the statements say, where it does not overflow. -/
theorem roundsFp_roundedTo {f : Fmt} (hf : Wide f) {ov : Over} {rm : Nat} {neg : Bool} {X : ℝ} {z : Res} {k : Nat}
    {q : Int} (h : RoundsFp f ov rm neg X z k q) (hl : ¬ TooLarge f k q) (hX : 0 < X) {x : ℚ} (hx : (x : ℝ) = sgn neg * X) :
    RoundedTo f rm x z ∧ z.bits.testBit f.signPos = neg := by
  have hu := unpack_packNum hf neg h.stored hl
  have hbits := h.bits hl
  refine ⟨⟨neg, k, q, by rw [hbits, hu], ?_, ?_⟩, ?_⟩
  · refine rounds_of_picks hX (R := k * 2 ^ q) (mul_nonneg (Nat.cast_nonneg _) (two_zpow_pos q).le) hx (num_cast _ _ _)
      (finVal_num hf _ h.stored hl) fun v hv w hw => ?_
    rw [hbits]
    simp only [packNum_even hf]
    exact h.picks w (finVal_onGrid hf hv hw)
  · rw [h.inexact hl, ← (Rat.cast_injective (α := ℝ)).ne_iff, num_cast, hx, not_iff_not]
    exact ⟨fun c => by rw [c], fun c => by rw [sgn_mul_cancel c, ← mul_assoc, sgn_mul_self, one_mul]⟩
  · rw [bitAt_testBit, hbits, ← (unpack_num hf hu).2.2.1]

end Sys2Proof.Proofs
end

section
/-!
The significands of the operations (R35): quotients, square roots and their reciprocals to enough bits, with a sticky bit for what is
below them.
-/

namespace Sys2Proof.Proofs

open Sys2Proof Sys2Proof.Machine Sys2Proof.Safety Sys2Proof.Laws

theorem isqrtFrom_bounds {n b r : Nat} (h1 : r * r ≤ n) (h2 : n < (r + 2 ^ (b + 1)) * (r + 2 ^ (b + 1))) :
    isqrtFrom n b r * isqrtFrom n b r ≤ n ∧ n < (isqrtFrom n b r + 1) * (isqrtFrom n b r + 1) := by
  induction b generalizing r with
  | zero =>
    rw [isqrtFrom]
    split
    · rename_i h
      exact ⟨h, by simpa [add_assoc] using h2⟩
    · rename_i h
      exact ⟨h1, not_le.mp h⟩
  | succ b ih =>
    rw [isqrtFrom]
    split
    · rename_i h
      refine ih h ?_
      rwa [add_assoc, ← two_mul, ← pow_succ']
    · rename_i h
      exact ih h1 (not_le.mp h)

/-- The bit by bit root is the integer root. -/
theorem isqrt_bounds (n : Nat) : isqrt n * isqrt n ≤ n ∧ n < (isqrt n + 1) * (isqrt n + 1) := by
  refine isqrtFrom_bounds (by omega) ?_
  rw [zero_add, ← pow_add]
  exact (lt_bitLen n).trans_le (Nat.pow_le_pow_right (by omega) (by omega))

theorem le_isqrt {n a : Nat} (h : a * a ≤ n) : a ≤ isqrt n := by
  by_contra c
  have h1 : isqrt n + 1 ≤ a := by omega
  have := Nat.mul_le_mul h1 h1
  have := (isqrt_bounds n).2
  omega

theorem le_bitLen {a r : Nat} (h : 2 ^ a ≤ r) : a + 1 ≤ bitLen r := by
  have h1 := lt_bitLen r
  by_contra c
  have := Nat.pow_le_pow_right (n := 2) (by omega) (show bitLen r ≤ a by omega)
  omega

/-- A quotient rounded down, with a bit for the remainder. -/
theorem approximates_div (a : Nat) {b : Nat} (hb : b ≠ 0) (e : Int) :
    Approximates (a / b) e (decide (a % b ≠ 0)) ((a : ℝ) / b * 2 ^ e) := by
  have he := two_zpow_pos e
  have hb' : (0 : ℝ) < b := by exact_mod_cast Nat.pos_of_ne_zero hb
  have hdm := Nat.div_add_mod a b
  have hlt := Nat.mod_lt a (Nat.pos_of_ne_zero hb)
  have hd : (a : ℝ) / b = (a / b : Nat) + (a % b : Nat) / b := by
    rw [eq_comm, ← mul_left_inj' hb'.ne', add_mul, div_mul_cancel₀ _ hb'.ne', div_mul_cancel₀ _ hb'.ne']
    exact_mod_cast (by rw [Nat.mul_comm]; exact hdm)
  refine ⟨mul_le_mul_of_nonneg_right ?_ he.le, mul_lt_mul_of_pos_right ?_ he, ?_⟩
  · rw [hd]
    exact le_add_of_nonneg_right (by positivity)
  · rw [hd]
    have : ((a % b : Nat) : ℝ) / b < 1 := by rw [div_lt_one hb']; exact_mod_cast hlt
    linarith
  · rw [mul_left_inj' he.ne', hd, add_eq_left, div_eq_zero_iff, or_iff_left hb'.ne', Nat.cast_eq_zero]
    simp

/-- A root rounded down, with a bit for what is left. -/
theorem approximates_root {r : Nat} {T : ℝ} (h1 : (r : ℝ) * r ≤ T) (h2 : T < (r + 1) * (r + 1)) (e : Int) {s : Bool}
    (hs : s = false ↔ (r : ℝ) * r = T) : Approximates r e s (√T * 2 ^ e) := by
  have he := two_zpow_pos e
  have hr : (0 : ℝ) ≤ r := Nat.cast_nonneg _
  refine ⟨mul_le_mul_of_nonneg_right (Real.le_sqrt_of_sq_le (by rw [sq]; exact h1)) he.le,
    mul_lt_mul_of_pos_right ((Real.sqrt_lt' (by linarith)).mpr (by rw [sq]; exact h2)) he, ?_⟩
  rw [hs, mul_left_inj' he.ne']
  constructor
  · intro c
    rw [← c, Real.sqrt_mul_self hr]
  · intro c
    rw [← c, Real.mul_self_sqrt (le_trans (mul_nonneg hr hr) h1)]

theorem approximates_sqrt (v : Nat) (e : Int) :
    Approximates (isqrt v) e (decide (isqrt v * isqrt v ≠ v)) (√(v : ℝ) * 2 ^ e) := by
  obtain ⟨h1, h2⟩ := isqrt_bounds v
  refine approximates_root (by exact_mod_cast h1) (by exact_mod_cast h2) e ?_
  rw [decide_eq_false_iff_not, not_not]
  exact_mod_cast Iff.rfl

theorem approximates_rsqrt {a b : Nat} (hb : b ≠ 0) (e : Int) :
    Approximates (isqrt (a / b)) e (decide (isqrt (a / b) * isqrt (a / b) * b ≠ a)) (√((a : ℝ) / b) * 2 ^ e) := by
  have hb' : (0 : ℝ) < b := by exact_mod_cast Nat.pos_of_ne_zero hb
  obtain ⟨h1, h2⟩ := isqrt_bounds (a / b)
  refine approximates_root ?_ ?_ e ?_
  · rw [le_div_iff₀ hb']
    have := Nat.mul_le_mul_right b h1
    have := this.trans (Nat.div_mul_le_self a b)
    exact_mod_cast this
  · rw [div_lt_iff₀ hb']
    have := (Nat.div_lt_iff_lt_mul (Nat.pos_of_ne_zero hb)).mp h2
    exact_mod_cast this
  · rw [decide_eq_false_iff_not, not_not, eq_div_iff hb'.ne']
    exact_mod_cast Iff.rfl

/-- Half of an even exponent is the exponent of the root. -/
theorem sqrt_mul_zpow {a : ℝ} (ha : 0 ≤ a) {e : Int} (he : e % 2 = 0) : √(a * 2 ^ e) = √a * 2 ^ (e / 2) := by
  have h : (2 : ℝ) ^ e = 2 ^ (e / 2) * 2 ^ (e / 2) := by
    rw [← zpow_add₀ (by norm_num)]
    congr 1
    omega
  rw [Real.sqrt_mul ha, h, Real.sqrt_mul_self (two_zpow_pos _).le]

/-- The significand of a quotient: that of m1 * 2^e1 by m2 * 2^e2. -/
theorem quotient_approximates (m1 : Nat) {m2 : Nat} (h : m2 ≠ 0) (e1 e2 : Int) (k : Nat) :
    Approximates (m1 * 2 ^ k / m2) (e1 - e2 - k) (decide (m1 * 2 ^ k % m2 ≠ 0)) ((m1 : ℝ) * 2 ^ e1 / (m2 * 2 ^ e2)) := by
  have := approximates_div (m1 * 2 ^ k) h (e1 - e2 - k)
  have hv : ((m1 * 2 ^ k : Nat) : ℝ) / m2 * 2 ^ (e1 - e2 - k) = (m1 : ℝ) * 2 ^ e1 / (m2 * 2 ^ e2) := by
    have hm : (m2 : ℝ) ≠ 0 := by exact_mod_cast h
    rw [zpow_sub₀ (by norm_num), zpow_sub₀ (by norm_num), zpow_natCast]
    push_cast
    field_simp
  rwa [hv] at this

/-- The significand of a square root, the exponent having been made even. -/
theorem root_approximates (m : Nat) {e : Int} {k : Nat} (he : (e - k) % 2 = 0) :
    Approximates (isqrt (m * 2 ^ k)) ((e - k) / 2) (decide (isqrt (m * 2 ^ k) * isqrt (m * 2 ^ k) ≠ m * 2 ^ k))
      (√((m : ℝ) * 2 ^ e)) := by
  have hv : (m : ℝ) * 2 ^ e = (m * 2 ^ k : Nat) * 2 ^ (e - k) := by
    rw [zpow_sub₀ (by norm_num), zpow_natCast]
    push_cast
    field_simp
  rw [hv, sqrt_mul_zpow (Nat.cast_nonneg _) he]
  exact approximates_sqrt _ _

/-- The significand of the reciprocal of a square root, the exponent having been made even. -/
theorem rootReciprocal_approximates {m : Nat} (hm : m ≠ 0) {e : Int} (he : e % 2 = 0) (k : Nat) :
    Approximates (isqrt (2 ^ (2 * k) / m)) (-(k : Int) - e / 2)
      (decide (isqrt (2 ^ (2 * k) / m) * isqrt (2 ^ (2 * k) / m) * m ≠ 2 ^ (2 * k))) (1 / √((m : ℝ) * 2 ^ e)) := by
  have hm' : (0 : ℝ) < m := by exact_mod_cast Nat.pos_of_ne_zero hm
  have hv : 1 / √((m : ℝ) * 2 ^ e) = √(((2 ^ (2 * k) : Nat) : ℝ) / m) * 2 ^ (-(k : Int) - e / 2) := by
    rw [sqrt_mul_zpow hm'.le he, Nat.mul_comm 2 k, pow_mul, show ((((2 ^ k) ^ 2 : Nat)) : ℝ) = (2 ^ k) ^ 2 by push_cast; rfl,
      Real.sqrt_div (by positivity), Real.sqrt_sq (by positivity), zpow_sub₀ (by norm_num), zpow_neg, zpow_natCast]
    have h1 : (2 : ℝ) ^ (e / 2) ≠ 0 := (two_zpow_pos _).ne'
    have h2 : √(m : ℝ) ≠ 0 := (Real.sqrt_pos.mpr hm').ne'
    field_simp
  rw [hv]
  exact approximates_rsqrt hm _

end Sys2Proof.Proofs
end

section
/-!
Two to a power (R172): the product of roots in fixed point lies below the power by less than the model's error bound, and the bits that
the bound leaves fixed are those of the power.
-/

namespace Sys2Proof.Proofs

open Sys2Proof Sys2Proof.Machine Sys2Proof.Safety Sys2Proof.Laws

/-- The scale of fixed point with P fraction bits. -/
theorem isqrt_scaled {P root : Nat} {t : ℝ} (h1 : (root : ℝ) ≤ 2 ^ P * (2 : ℝ) ^ t) (h2 : 2 ^ P * (2 : ℝ) ^ t - root < 2)
    (h3 : 2 ^ P ≤ root) :
    (isqrt (root * 2 ^ P) : ℝ) ≤ 2 ^ P * (2 : ℝ) ^ (t / 2) ∧ 2 ^ P * (2 : ℝ) ^ (t / 2) - isqrt (root * 2 ^ P) < 2 ∧
      2 ^ P ≤ isqrt (root * 2 ^ P) := by
  obtain ⟨hlo, hhi⟩ := isqrt_bounds (root * 2 ^ P)
  have h3' : 2 ^ P ≤ isqrt (root * 2 ^ P) := le_isqrt (Nat.mul_le_mul_right _ h3)
  generalize isqrt (root * 2 ^ P) = r at *
  have hS : (0 : ℝ) < 2 ^ P := by positivity
  have hsq : (2 ^ P * (2 : ℝ) ^ (t / 2)) ^ 2 = 2 ^ P * (2 ^ P * (2 : ℝ) ^ t) := by
    rw [mul_pow, ← Real.rpow_mul_natCast (by norm_num), show t / 2 * (2 : ℕ) = t by push_cast; ring]
    ring
  have hpos : (0 : ℝ) < 2 ^ P * (2 : ℝ) ^ (t / 2) := by positivity
  generalize (2 : ℝ) ^ P * (2 : ℝ) ^ (t / 2) = y at *
  generalize (2 : ℝ) ^ P * (2 : ℝ) ^ t = x at *
  have hlo' : (r : ℝ) * r ≤ root * 2 ^ P := by exact_mod_cast hlo
  have hhi' : (root : ℝ) * 2 ^ P < (r + 1) * (r + 1) := by exact_mod_cast hhi
  have hroot : (2 : ℝ) ^ P ≤ root := by exact_mod_cast h3
  have hr0 : (0 : ℝ) ≤ r := Nat.cast_nonneg _
  refine ⟨abs_le_of_sq_le_sq' ?_ hpos.le |>.2, ?_, h3'⟩
  · rw [hsq, sq]
    nlinarith
  · by_contra c
    have hw := Real.sq_sqrt (show (0 : ℝ) ≤ root * 2 ^ P by positivity)
    have hw1 : √((root : ℝ) * 2 ^ P) < r + 1 := (Real.sqrt_lt' (by linarith)).mpr (by rw [sq]; exact hhi')
    have hw2 : (2 : ℝ) ^ P ≤ √((root : ℝ) * 2 ^ P) := Real.le_sqrt_of_sq_le (by rw [sq]; nlinarith)
    generalize √((root : ℝ) * 2 ^ P) = w at *
    have hyw : 1 ≤ y - w := by linarith
    nlinarith

/-- The factor that n bits of the fraction still to come contribute, the next root having exponent t / 2. -/
theorem exponent_split (t : ℝ) (fr n : Nat) :
    t * (fr % 2 ^ (n + 1) : Nat) / 2 ^ (n + 1) = (if bitAt fr n then t / 2 else 0) + t / 2 * (fr % 2 ^ n : Nat) / 2 ^ n := by
  have h : fr % 2 ^ (n + 1) = fr % 2 ^ n + 2 ^ n * (fr / 2 ^ n % 2) := by rw [pow_succ, Nat.mod_mul]
  have hb : fr / 2 ^ n % 2 = if bitAt fr n then 1 else 0 := by
    rw [bitAt]
    have := Nat.mod_lt (fr / 2 ^ n) (show 0 < 2 by omega)
    split <;> simp_all
  rw [h, hb, pow_succ]
  split
  · push_cast; field_simp; ring
  · push_cast; field_simp; ring

/-- The running product falls short of the true one by at most 5 units of the last place for each root. -/
theorem exp2Product_bounds {P : Nat} (fr : Nat) : ∀ (n i root acc : Nat) (t a : ℝ), 0 ≤ t →
    (root : ℝ) ≤ 2 ^ P * (2 : ℝ) ^ t → 2 ^ P * (2 : ℝ) ^ t - root < 2 → 2 ^ P ≤ root → (acc : ℝ) ≤ a → 2 ^ P ≤ a →
    a - acc ≤ 5 * i * a / 2 ^ P → a * (2 : ℝ) ^ (t * (fr % 2 ^ n : Nat) / 2 ^ n) ≤ 2 * 2 ^ P →
    (exp2Product P fr n root acc : ℝ) ≤ a * (2 : ℝ) ^ (t * (fr % 2 ^ n : Nat) / 2 ^ n) ∧
      a * (2 : ℝ) ^ (t * (fr % 2 ^ n : Nat) / 2 ^ n) - exp2Product P fr n root acc ≤
        5 * (i + n : Nat) * (a * (2 : ℝ) ^ (t * (fr % 2 ^ n : Nat) / 2 ^ n)) / 2 ^ P := by
  intro n
  induction n with
  | zero =>
    intro i root acc t a _ _ _ _ h1 _ h2 _
    have hz : a * (2 : ℝ) ^ (t * (fr % 2 ^ 0 : Nat) / 2 ^ 0) = a := by simp [Nat.mod_one]
    rw [hz, exp2Product, Nat.add_zero]
    exact ⟨h1, h2⟩
  | succ n ih =>
    intro i root acc t a ht hr1 hr2 hr3 ha1 ha2 ha3 ha4
    obtain ⟨hq1, hq2, hq3⟩ := isqrt_scaled hr1 hr2 hr3
    have hS : (0 : ℝ) < 2 ^ P := by positivity
    rw [exponent_split] at ha4 ⊢
    rw [exp2Product]
    have hrest : (1 : ℝ) ≤ (2 : ℝ) ^ (t / 2 * (fr % 2 ^ n : Nat) / 2 ^ n) :=
      Real.one_le_rpow (by norm_num) (by positivity)
    cases hb : bitAt fr n
    · simp only [hb, Bool.false_eq_true, if_false, zero_add] at ha4 ⊢
      have := ih (i + 1) _ acc (t / 2) a (by positivity) hq1 hq2 hq3 ha1 ha2
        (ha3.trans (by
          refine div_le_div_of_nonneg_right ?_ hS.le
          push_cast
          nlinarith)) ha4
      rwa [show i + 1 + n = i + (n + 1) by omega] at this
    · simp only [hb, if_true] at ha4 ⊢
      rw [Real.rpow_add (by norm_num), ← mul_assoc] at ha4 ⊢
      have next (acc' : Nat) (b : ℝ) := ih (i + 1) _ acc' (t / 2) b (by positivity) hq1 hq2 hq3
      generalize isqrt (root * 2 ^ P) = r at *
      have hf1 : (1 : ℝ) ≤ (2 : ℝ) ^ (t / 2) := Real.one_le_rpow (by norm_num) (by positivity)
      generalize (2 : ℝ) ^ (t / 2) = g at *
      have hg0 : 0 ≤ a * g := by nlinarith
      have hag : a * g ≤ 2 * 2 ^ P := le_trans (by nlinarith) ha4
      have hfloor1 : ((acc * r / 2 ^ P : Nat) : ℝ) ≤ acc * r / 2 ^ P := by
        have := Nat.cast_div_le (α := ℝ) (m := acc * r) (n := 2 ^ P)
        push_cast at this
        exact this
      have hfloor2 : (acc : ℝ) * r / 2 ^ P < (acc * r / 2 ^ P : Nat) + 1 := by
        have h := Nat.lt_floor_add_one (((acc * r : Nat) : ℝ) / ((2 ^ P : Nat) : ℝ))
        rw [Nat.floor_div_eq_div] at h
        push_cast at h
        exact_mod_cast h
      have hprod1 : (acc : ℝ) * r / 2 ^ P ≤ a * g := by
        rw [div_le_iff₀ hS]
        have : (acc : ℝ) * r ≤ a * (2 ^ P * g) := mul_le_mul ha1 hq1 (Nat.cast_nonneg _) (by linarith)
        linarith
      have hprod2 : a * g - acc * r / 2 ^ P ≤ 5 * i * (a * g) / 2 ^ P + 4 := by
        have hacc0 : (0 : ℝ) ≤ acc := Nat.cast_nonneg _
        have h1 : (acc : ℝ) * (2 ^ P * g - r) ≤ 2 * 2 ^ P * 2 := by
          refine mul_le_mul (by nlinarith) hq2.le (by linarith) (by positivity)
        have h2 : (a - acc) * g ≤ 5 * i * a / 2 ^ P * g := mul_le_mul_of_nonneg_right ha3 (by linarith)
        have h3 : (acc : ℝ) * r / 2 ^ P = acc * g - acc * (2 ^ P * g - r) / 2 ^ P := by field_simp; ring
        have h4 : (acc : ℝ) * (2 ^ P * g - r) / 2 ^ P ≤ 4 := by rw [div_le_iff₀ hS]; linarith
        rw [h3]
        have h5 : 5 * i * (a * g) / 2 ^ P = 5 * i * a / 2 ^ P * g := by ring
        rw [h5]
        linarith
      have hone : 1 ≤ a * g / 2 ^ P := by rw [le_div_iff₀ hS]; nlinarith
      have := next (acc * r / 2 ^ P) (a * g) (hfloor1.trans hprod1) (by nlinarith)
        (by
          have : 5 * ((i + 1 : Nat) : ℝ) * (a * g) / 2 ^ P = 5 * i * (a * g) / 2 ^ P + 5 * (a * g / 2 ^ P) := by
            push_cast; ring
          rw [this]
          linarith) ha4
      rwa [show i + 1 + n = i + (n + 1) by omega] at this

/-- The product for a fraction of n bits. -/
theorem exp2Product_power {P n fr : Nat} (hfr : fr < 2 ^ n) :
    (exp2Product P fr n (2 ^ (P + 1)) (2 ^ P) : ℝ) ≤ 2 ^ P * (2 : ℝ) ^ ((fr : ℝ) / 2 ^ n) ∧
      2 ^ P * (2 : ℝ) ^ ((fr : ℝ) / 2 ^ n) ≤ exp2Product P fr n (2 ^ (P + 1)) (2 ^ P) + 10 * n ∧
      (2 : ℝ) ^ ((fr : ℝ) / 2 ^ n) ≤ 2 := by
  have hS : (0 : ℝ) < 2 ^ P := by positivity
  have hle : (2 : ℝ) ^ ((fr : ℝ) / 2 ^ n) ≤ 2 := by
    calc (2 : ℝ) ^ ((fr : ℝ) / 2 ^ n) ≤ (2 : ℝ) ^ (1 : ℝ) := by
          refine Real.rpow_le_rpow_of_exponent_le (by norm_num) ((div_le_one (by positivity)).mpr ?_)
          exact_mod_cast hfr.le
      _ = 2 := by norm_num
  have h := exp2Product_bounds (P := P) fr n 0 (2 ^ (P + 1)) (2 ^ P) 1 (2 ^ P) (by norm_num)
    (by push_cast; rw [Real.rpow_one, pow_succ]) (by push_cast; rw [Real.rpow_one, pow_succ]; norm_num)
    (Nat.pow_le_pow_right (by omega) (by omega)) (by push_cast; rfl) le_rfl (by push_cast; simp)
    (by rw [Nat.mod_eq_of_lt hfr, one_mul]; nlinarith)
  rw [Nat.mod_eq_of_lt hfr, one_mul, Nat.zero_add] at h
  refine ⟨h.1, ?_, hle⟩
  have h2 := h.2
  have h3 : 5 * (n : ℝ) * (2 ^ P * (2 : ℝ) ^ ((fr : ℝ) / 2 ^ n)) / 2 ^ P = 5 * n * (2 : ℝ) ^ ((fr : ℝ) / 2 ^ n) := by
    field_simp
  rw [h3] at h2
  have hn : (0 : ℝ) ≤ n := Nat.cast_nonneg _
  nlinarith

/-- Bits that an error could change have a multiple of their unit within the error. -/
theorem multiple_within {a c d : Nat} (hd : 0 < d) (h : a / d ≠ (a + c) / d) : ∃ q, a < q * d ∧ q * d ≤ a + c := by
  have hle : a / d ≤ (a + c) / d := Nat.div_le_div_right (Nat.le_add_right _ _)
  exact ⟨(a + c) / d, (Nat.div_lt_iff_lt_mul hd).mp (by omega), Nat.div_mul_le_self _ _⟩

theorem errorBound_small (n : Nat) : (16 * n + 16) * 2 ^ 40 ≤ 2 ^ (n + 64) := by
  have hn : n + 1 ≤ 2 ^ n := Nat.lt_two_pow_self
  calc (16 * n + 16) * 2 ^ 40 = (n + 1) * 2 ^ 44 := by ring
    _ ≤ 2 ^ n * 2 ^ 64 := Nat.mul_le_mul hn (by norm_num)
    _ = 2 ^ (n + 64) := (pow_add 2 n 64).symm

/-- The product a comes near 2^w * d * y, and a multiple of d near the product comes near it too. -/
theorem multiple_near {w n q a d : Nat} {y : ℝ} (hc : (16 * n + 16) * 2 ^ 40 ≤ d) (h1 : (a : ℝ) ≤ 2 ^ w * d * y)
    (h2 : 2 ^ w * d * y ≤ a + 10 * n) (hy : y ≤ 2) (hq1 : a < q * d) (hq2 : q * d ≤ a + (16 * n + 16)) :
    1 ≤ q ∧ q ≤ 2 ^ (w + 1) ∧ |(q : ℝ) / 2 ^ w - y| ≤ 1 / 2 ^ (w + 40) := by
  have hw : (0 : ℝ) < 2 ^ w := by positivity
  have hn0 : (0 : ℝ) ≤ n := Nat.cast_nonneg _
  have hc' : (16 * (n : ℝ) + 16) * 2 ^ 40 ≤ d := by exact_mod_cast hc
  have hd : (0 : ℝ) < d := by
    refine lt_of_lt_of_le ?_ hc'
    positivity
  have hq1' : (a : ℝ) < q * d := by exact_mod_cast hq1
  have hq2' : (q : ℝ) * d ≤ a + (16 * n + 16) := by exact_mod_cast hq2
  have hcd : 16 * (n : ℝ) + 16 ≤ d := le_trans (le_mul_of_one_le_right (by positivity) (by norm_num)) hc'
  refine ⟨Nat.pos_of_ne_zero fun c => ?_, ?_, ?_⟩
  · rw [c, Nat.zero_mul] at hq1
    omega
  · have hyw : 2 ^ w * d * y ≤ 2 ^ w * d * 2 := mul_le_mul_of_nonneg_left hy (by positivity)
    have h : (q : ℝ) * d < (2 ^ (w + 1) + 1) * d := by
      rw [pow_succ]
      linarith
    have h' : (q : ℝ) < 2 ^ (w + 1) + 1 := lt_of_mul_lt_mul_right h hd.le
    exact Nat.lt_succ_iff.mp (by exact_mod_cast h')
  · have hdist : |(q : ℝ) * d - 2 ^ w * d * y| ≤ 16 * n + 16 := by
      rw [abs_le]
      constructor <;> linarith
    have heq : (q : ℝ) * d - 2 ^ w * d * y = (q / 2 ^ w - y) * (2 ^ w * d) := by field_simp
    rw [heq, abs_mul, abs_of_pos (show (0 : ℝ) < 2 ^ w * d by positivity)] at hdist
    rw [le_div_iff₀ (by positivity), pow_add]
    refine le_of_mul_le_mul_right ?_ hd
    calc |(q : ℝ) / 2 ^ w - y| * (2 ^ w * 2 ^ 40) * (d : ℝ) = |(q : ℝ) / 2 ^ w - y| * (2 ^ w * d) * 2 ^ 40 := by ring
      _ ≤ (16 * (n : ℝ) + 16) * 2 ^ 40 := mul_le_mul_of_nonneg_right hdist (by positivity)
      _ ≤ 1 * (d : ℝ) := by rw [one_mul]; exact hc'

/-- The bits above an error that cannot change them are those of the true value. -/
theorem fixed_bits {w n a d : Nat} {y : ℝ} (hd : 0 < d) (h1 : (a : ℝ) ≤ 2 ^ w * d * y) (h2 : 2 ^ w * d * y ≤ a + 10 * n)
    (hset : a / d = (a + (16 * n + 16)) / d) : ((a / d : Nat) : ℝ) ≤ 2 ^ w * y ∧ 2 ^ w * y < (a / d : Nat) + 1 := by
  have hlo : a / d * d ≤ a := Nat.div_mul_le_self _ _
  have hhi : a + (16 * n + 16) < (a / d + 1) * d := by
    rw [hset]
    exact (Nat.div_lt_iff_lt_mul hd).mp (Nat.lt_succ_self _)
  have hlo' : ((a / d : Nat) : ℝ) * d ≤ a := by exact_mod_cast hlo
  have hhi' : (a : ℝ) + (16 * n + 16) < ((a / d : Nat) + 1) * d := by exact_mod_cast hhi
  have hn0 : (0 : ℝ) ≤ n := Nat.cast_nonneg _
  have hd' : (0 : ℝ) < d := by exact_mod_cast hd
  constructor
  · refine le_of_mul_le_mul_right ?_ hd'
    linarith
  · refine lt_of_mul_lt_mul_right ?_ hd'.le
    linarith

theorem exp2Frac_settles {w n fr fuel P : Nat} {a : Nat} (ha : exp2Product P fr n (2 ^ (P + 1)) (2 ^ P) = a)
    (hset : a / 2 ^ (P - w) = (a + (16 * n + 16)) / 2 ^ (P - w)) : exp2Frac w n fr (fuel + 1) P = a / 2 ^ (P - w) := by
  rw [exp2Frac]
  simp only [ha, add_assoc]
  exact if_pos hset

/-- Where the bound leaves the bits fixed at once, they are those of the power. -/
theorem exp2Frac_bounds {w n fr : Nat} (hfr : fr < 2 ^ n)
    (hgap : ∀ q : Nat, 1 ≤ q → q ≤ 2 ^ (w + 1) → 1 / 2 ^ (w + 40) < |(q : ℝ) / 2 ^ w - (2 : ℝ) ^ ((fr : ℝ) / 2 ^ n)|) :
    (exp2Frac w n fr 4 (w + n + 64) : ℝ) ≤ 2 ^ w * (2 : ℝ) ^ ((fr : ℝ) / 2 ^ n) ∧
      2 ^ w * (2 : ℝ) ^ ((fr : ℝ) / 2 ^ n) < exp2Frac w n fr 4 (w + n + 64) + 1 := by
  obtain ⟨h1, h2, h3⟩ := exp2Product_power (P := w + n + 64) hfr
  obtain ⟨a, ha⟩ : ∃ a, exp2Product (w + n + 64) fr n (2 ^ (w + n + 64 + 1)) (2 ^ (w + n + 64)) = a := ⟨_, rfl⟩
  have hP : (2 : ℝ) ^ (w + n + 64) = 2 ^ w * (2 ^ (n + 64) : Nat) := by rw [add_assoc, pow_add]; push_cast; rfl
  have hshift : w + n + 64 - w = n + 64 := by omega
  rw [ha, hP] at h1 h2
  have hset : a / 2 ^ (n + 64) = (a + (16 * n + 16)) / 2 ^ (n + 64) := by
    by_contra hne
    obtain ⟨q, hq1, hq2⟩ := multiple_within (Nat.two_pow_pos _) hne
    obtain ⟨h4, h5, h6⟩ := multiple_near (errorBound_small n) h1 h2 h3 hq1 hq2
    exact absurd (hgap q h4 h5) (not_lt.mpr h6)
  rw [exp2Frac_settles ha (by rw [hshift]; exact hset), hshift]
  exact fixed_bits (Nat.two_pow_pos _) h1 h2 hset

/-- A power of two by a fraction that is no integer is no multiple of a power of two. -/
theorem rpow_fraction_ne {w n fr g : Nat} (h0 : fr ≠ 0) (hfr : fr < 2 ^ n) : 2 ^ w * (2 : ℝ) ^ ((fr : ℝ) / 2 ^ n) ≠ g := by
  intro h
  have hp : (2 : ℝ) ^ (w * 2 ^ n + fr) = (g : ℝ) ^ (2 ^ n) := by
    rw [← h, mul_pow, ← pow_mul, ← Real.rpow_mul_natCast (by norm_num), pow_add]
    congr 1
    rw [← Real.rpow_natCast]
    congr 1
    push_cast
    field_simp
  have hp' : 2 ^ (w * 2 ^ n + fr) = g ^ (2 ^ n) := by exact_mod_cast hp
  have hv := congrArg (padicValNat 2) hp'
  have hg : g ≠ 0 := by
    rintro rfl
    rw [zero_pow (by positivity)] at hp'
    exact absurd hp' (by positivity)
  rw [padicValNat.prime_pow, padicValNat.pow] at hv
  have hd : 2 ^ n ∣ fr := (Nat.dvd_add_right (Dvd.intro_left w rfl)).mp (hv ▸ Dvd.intro _ rfl)
  exact absurd (Nat.le_of_dvd (Nat.pos_of_ne_zero h0) hd) (by omega)

end Sys2Proof.Proofs
end

section
/-!
Sums, products, quotients and roots of finite numbers (R35 to R37): each rounds its exact value.
-/

namespace Sys2Proof.Proofs

open Sys2Proof Sys2Proof.Machine Sys2Proof.Safety Sys2Proof.Laws

/-- No finite number of the format is below the magnitude. -/
def InRange (f : Fmt) (x : ℚ) : Prop := ∃ v, FinVal f v ∧ mag x ≤ v

/-- The result of an overflow in arithmetic (R37). -/
def Overflowed (f : Fmt) (rm : Nat) (neg : Bool) (z : Res) : Prop :=
  z.flags = flagOvf ||| flagInx ∧ z.exc = true ∧
    z.bits = if rm = 0 ∨ rm = 4 ∨ (rm = 2 ∧ neg = true) ∨ (rm = 3 ∧ neg = false) then f.inf neg else f.maxFin neg

/-- A result of arithmetic is its exact value rounded, or an overflow (R35, R37). -/
def RoundsCorrectly (f : Fmt) (rm : Nat) (x : ℚ) (neg : Bool) (z : Res) : Prop :=
  (InRange f x → RoundedTo f rm x z) ∧ ((∀ v, FinVal f v → 2 * v < mag x) → Overflowed f rm neg z)

/-- A result is a non-zero exact value rounded once (R35). -/
def RoundsExact (f : Fmt) (rm : Nat) (z : Res) (x : ℚ) : Prop :=
  ∃ n m e, m ≠ 0 ∧ num n m e = x ∧ z = roundFp f .arith rm n m e false

theorem overflow_arith (f : Fmt) {rm : Nat} (hrm : rm ≤ 4) (neg : Bool) : Overflowed f rm neg (overflow f .arith rm neg) := by
  refine ⟨rfl, rfl, ?_⟩
  interval_cases rm <;> cases neg <;> rfl

theorem mag_eq_of_cast {x : ℚ} {n : Bool} {X : ℝ} (hX : 0 < X) (hx : (x : ℝ) = sgn n * X) : ((mag x : ℚ) : ℝ) = X := by
  rw [mag_cast, hx, abs_mul, abs_sgn, one_mul, abs_of_pos hX]

section
variable {f : Fmt} (hf : Wide f) {ov : Over} {rm : Nat} (hrm : rm ≤ 4) {neg : Bool} {X : ℝ} {z : Res} {k : Nat} {q : Int}
  (h : RoundsFp f ov rm neg X z k q) (hX : 0 < X) {x : ℚ} (hx : (x : ℝ) = sgn neg * X)
include hf hrm h hX hx

theorem inRange_not_tooLarge (hr : InRange f x) : ¬ TooLarge f k q := by
  obtain ⟨v, hv, hle⟩ := hr
  refine roundsFp_inRange hf hrm h hv ?_
  rw [← mag_eq_of_cast hX hx]
  exact_mod_cast hle

theorem overflows_tooLarge (ho : ∀ v, FinVal f v → 2 * v < mag x) : TooLarge f k q := by
  refine roundsFp_overflows hf hrm h fun v hv => ?_
  rw [← mag_eq_of_cast hX hx]
  exact_mod_cast ho v hv

end

theorem roundsCorrectly_of_roundsFp {f : Fmt} (hf : Wide f) {rm : Nat} (hrm : rm ≤ 4) {neg : Bool} {X : ℝ} {z : Res} {k : Nat}
    {q : Int} (h : RoundsFp f .arith rm neg X z k q) (hX : 0 < X) {x : ℚ} (hx : (x : ℝ) = sgn neg * X) :
    RoundsCorrectly f rm x neg z := by
  refine ⟨fun hr => (roundsFp_roundedTo hf h (inRange_not_tooLarge hf hrm h hX hx hr) hX hx).1, fun ho => ?_⟩
  rw [h.large (overflows_tooLarge hf hrm h hX hx ho)]
  exact overflow_arith f hrm neg

theorem num_neg (n : Bool) (m : Nat) (e : Int) : num (!n) m e = -num n m e := by
  have : ((num (!n) m e : ℚ) : ℝ) = ((-num n m e : ℚ) : ℝ) := by
    push_cast
    rw [num_cast, num_cast]
    cases n <;> simp [sgn]
  exact_mod_cast this

theorem num_mul (n q : Bool) (m k : Nat) (d e : Int) : num (n != q) (m * k) (d + e) = num n m d * num q k e := by
  have : ((num (n != q) (m * k) (d + e) : ℚ) : ℝ) = ((num n m d * num q k e : ℚ) : ℝ) := by
    push_cast
    rw [num_cast, num_cast, num_cast, zpow_add₀ (by norm_num)]
    cases n <;> cases q <;> simp [sgn] <;> ring
  exact_mod_cast this

theorem num_eq_zero_iff (n : Bool) (m : Nat) (e : Int) : num n m e = 0 ↔ m = 0 := by
  rw [← Rat.cast_inj (α := ℝ), num_cast]
  have hs : sgn n ≠ 0 := by cases n <;> simp [sgn]
  simp [hs, (two_zpow_pos e).ne']

theorem num_pos_iff (n : Bool) (m : Nat) (e : Int) : 0 < num n m e ↔ n = false ∧ m ≠ 0 := by
  rw [← Rat.cast_lt (K := ℝ), num_cast]
  have he := two_zpow_pos e
  have hm : (0 : ℝ) ≤ m * 2 ^ e := mul_nonneg (Nat.cast_nonneg _) he.le
  cases n
  · simp [sgn, he, Nat.pos_iff_ne_zero]
  · simp only [sgn, if_true, neg_one_mul, Rat.cast_zero]
    exact iff_of_false (by linarith) (by simp)

theorem num_neg_iff (n : Bool) (m : Nat) (e : Int) : num n m e < 0 ↔ n = true ∧ m ≠ 0 := by
  have h := num_pos_iff (!n) m e
  rw [num_neg] at h
  simpa using h

theorem num_signed (s : Int) (e : Int) : ((num (decide (s < 0)) s.natAbs e : ℚ) : ℝ) = s * 2 ^ e := by
  rw [num_cast]
  rcases lt_or_ge s 0 with h | h
  · rw [decide_eq_true h, sgn, if_pos rfl, Nat.cast_natAbs, abs_of_neg h]
    push_cast
    ring
  · rw [decide_eq_false (not_lt.mpr h), sgn, if_neg (by simp), Nat.cast_natAbs, abs_of_nonneg h, one_mul]

/-- A number over the unit of a smaller exponent. -/
theorem scaledTo_cast (n : Bool) (m : Nat) (e d : Int) : (scaledTo n m e d : ℝ) * 2 ^ min e d = ((num n m e : ℚ) : ℝ) := by
  rw [num_cast, ← two_zpow_toNat (min_le_left e d), scaledTo]
  cases n <;> simp [sgn] <;> ring

/-- A sum of two finite numbers over their common unit. -/
theorem addNum_eq (f : Fmt) (ov : Over) (rm : Nat) (n q : Bool) (m k : Nat) (d e : Int) :
    ∃ s : Int, ((num n m d + num q k e : ℚ) : ℝ) = s * 2 ^ min d e ∧
      addNum f ov rm n m d q k e =
        if s = 0 then Res.plain (f.sign (if n = q then n else decide (rm = 2)))
        else roundFp f ov rm (decide (s < 0)) s.natAbs (min d e) false := by
  refine ⟨scaledTo n m d e + scaledTo q k e d, ?_, ?_⟩
  · push_cast
    rw [add_mul, scaledTo_cast, min_comm, scaledTo_cast]
  · simp only [addNum, scaledTo, min_comm e d]

/-- A sum of two finite numbers is exact and rounded once, or a zero with the sign of R35. -/
theorem addNum_rounds (f : Fmt) (rm : Nat) (n q : Bool) (m k : Nat) (d e : Int) :
    (num n m d + num q k e ≠ 0 → RoundsExact f rm (addNum f .arith rm n m d q k e) (num n m d + num q k e)) ∧
    (num n m d + num q k e = 0 →
      addNum f .arith rm n m d q k e = { bits := f.sign (if n = q then n else decide (rm = 2)), flags := 0, exc := false }) := by
  obtain ⟨s, hs, heq⟩ := addNum_eq f .arith rm n q m k d e
  have hz : num n m d + num q k e = 0 ↔ s = 0 := by
    rw [← Rat.cast_inj (α := ℝ), hs]
    simp [(two_zpow_pos _).ne']
  refine ⟨fun h => ⟨decide (s < 0), s.natAbs, min d e, ?_, ?_, ?_⟩, fun h => ?_⟩
  · exact Int.natAbs_ne_zero.mpr fun c => h (hz.mpr c)
  · rw [← Rat.cast_inj (α := ℝ), num_signed, hs]
  · rw [heq, if_neg fun c => h (hz.mpr c)]
  · rw [heq, if_pos (hz.mp h)]
    rfl

theorem roundFp_zero (f : Fmt) (ov : Over) (rm : Nat) (n : Bool) (e : Int) :
    roundFp f ov rm n 0 e false = { bits := f.sign n, flags := 0, exc := false } := by
  simp [roundFp, Res.plain]

section
variable {f : Fmt} {x y : FVal} {n q s : Bool} {m k j : Nat} {d e c : Int} (hx : x = .num n m d) (hy : y = .num q k e) (rm : Nat)
include hx hy

theorem addVal_num : addVal f rm x y = addNum f .arith rm n m d q k e := by simp [addVal, nanOf, hx, hy]

theorem mulVal_num (ov : Over) : mulVal f ov rm x y = roundFp f ov rm (n != q) (m * k) (d + e) false := by
  simp [mulVal, nanOf, hx, hy]

theorem fmaVal_num {z : FVal} (hz : z = .num s j c) :
    fmaVal f rm x y z = addNum f .arith rm (n != q) (m * k) (d + e) s j c := by
  simp [fmaVal, nanOf, hx, hy, hz]

theorem mulVal_rounds :
    (num n m d * num q k e ≠ 0 → RoundsExact f rm (mulVal f .arith rm x y) (num n m d * num q k e)) ∧
    (num n m d * num q k e = 0 → mulVal f .arith rm x y = { bits := f.sign (n != q), flags := 0, exc := false }) := by
  rw [mulVal_num hx hy, ← num_mul]
  refine ⟨fun h => ⟨_, _, _, fun c => h ((num_eq_zero_iff _ _ _).mpr c), rfl, rfl⟩, fun h => ?_⟩
  rw [(num_eq_zero_iff _ _ _).mp h, roundFp_zero]

theorem divVal_num (hm : m ≠ 0) (hk : k ≠ 0) :
    divVal f rm x y = roundFp f .arith rm (n != q) (m * 2 ^ (f.prec + 3 + bitLen k) / k) (d - e - (f.prec + 3 + bitLen k : Nat))
      (decide (m * 2 ^ (f.prec + 3 + bitLen k) % k ≠ 0)) := by
  simp [divVal, nanOf, hx, hy, hm, hk]

theorem divVal_zero (hm : m = 0) (hk : k ≠ 0) : divVal f rm x y = { bits := f.sign (n != q), flags := 0, exc := false } := by
  simp [divVal, nanOf, hx, hy, hm, hk, Res.plain]

theorem divVal_by_zero (hm : m ≠ 0) (hk : k = 0) : divVal f rm x y = divZero f (n != q) := by
  simp [divVal, nanOf, hx, hy, hm, hk]

end

/-- The quotient's significand has more bits than the format. -/
theorem bitLen_quotient {m k p : Nat} (hm : m ≠ 0) (hk : k ≠ 0) : p + 1 ≤ bitLen (m * 2 ^ (p + bitLen k) / k) := by
  refine le_bitLen ((Nat.le_div_iff_mul_le (Nat.pos_of_ne_zero hk)).mpr ?_)
  rw [pow_add]
  calc 2 ^ p * k ≤ 2 ^ p * 2 ^ bitLen k := Nat.mul_le_mul_left _ (lt_bitLen k).le
    _ ≤ m * (2 ^ p * 2 ^ bitLen k) := Nat.le_mul_of_pos_left _ (Nat.pos_of_ne_zero hm)

/-- A quotient rounds the exact one (R35). -/
theorem divVal_rounds {f : Fmt} (hf : Wide f) {rm : Nat} (hrm : rm ≤ 4) {n q : Bool} {m k : Nat} {d e : Int} (hm : m ≠ 0) (hk : k ≠ 0) :
    RoundsCorrectly f rm (num n m d / num q k e) (n != q) (divVal f rm (.num n m d) (.num q k e)) := by
  have hb := bitLen_quotient (p := f.prec + 3) hm hk
  have hq0 : m * 2 ^ (f.prec + 3 + bitLen k) / k ≠ 0 := by
    intro c
    rw [c] at hb
    simp [bitLen] at hb
  obtain ⟨j, p, h⟩ := roundFp_rounds hf .arith hrm (n != q) hq0 (quotient_approximates m hk d e (f.prec + 3 + bitLen k))
    fun _ => by omega
  rw [divVal_num rfl rfl rm hm hk]
  have hm' : (0 : ℝ) < m := by exact_mod_cast Nat.pos_of_ne_zero hm
  have hk' : (0 : ℝ) < k := by exact_mod_cast Nat.pos_of_ne_zero hk
  refine roundsCorrectly_of_roundsFp hf hrm h (by positivity) ?_
  push_cast
  rw [num_cast, num_cast]
  cases n <;> cases q <;> simp [sgn, neg_div, div_neg]

/-- The reciprocal of a zero (R36). -/
theorem divZero_eq {ty : Nat} (n : Bool) :
    divZero (fmtOf ty) n =
      { bits := if ty = 8 then (fmtOf ty).maxFin n else (fmtOf ty).inf n
        flags := if ty = 8 then flagDz ||| flagSat else flagDz, exc := true } := by
  by_cases h8 : ty = 8
  · subst h8; rfl
  · have hi : (fmtOf ty).hasInf = true := by unfold fmtOf; rw [if_neg h8]; split_ifs <;> rfl
    rw [if_neg h8, if_neg h8, divZero, hi, if_pos rfl]
    rfl

/-- What the statements ask of a root or a power: the rounding of the positive number X, compared by its order with the format's
numbers only (R32). -/
theorem roundsFp_order {f : Fmt} (hf : Wide f) {ov : Over} {rm : Nat} {X : ℝ} {z : Res} {k : Nat} {q : Int}
    (h : RoundsFp f ov rm false X z k q) (hl : ¬ TooLarge f k q) :
    ∃ R : ℚ, R = num false k q ∧ unpack f z.bits = .num false k q ∧ 0 ≤ R ∧ (z.flags &&& flagInx ≠ 0 ↔ (R : ℝ) ≠ X) ∧
      ∀ v : ℚ, FinVal f v → 0 ≤ v →
        (rm = 1 ∨ rm = 2 → (R : ℝ) ≤ X ∧ ((v : ℝ) ≤ X → v ≤ R)) ∧ (rm = 3 → X ≤ R ∧ (X ≤ v → R ≤ v)) ∧
        (rm = 0 ∨ rm = 4 → (R < v → X ≤ (R + v) / 2) ∧ (v < R → (R + v) / 2 ≤ X)) := by
  have hval : ((num false k q : ℚ) : ℝ) = k * 2 ^ q := by rw [num_cast, sgn, if_neg (by simp), one_mul]
  refine ⟨_, rfl, roundsFp_unpack hf h hl, ?_, by rw [hval]; exact h.inexact hl, fun v hv hv0 => ?_⟩
  · rw [← Rat.cast_le (K := ℝ), hval, Rat.cast_zero]
    exact mul_nonneg (Nat.cast_nonneg _) (two_zpow_pos q).le
  have hp := h.picks v (finVal_onGrid hf hv rfl)
  rw [← hval] at hp
  refine ⟨fun hd => ?_, fun hu => ?_, fun hn => ?_⟩
  · have := hp.down (hd.imp_right fun c => .inl ⟨c, rfl⟩)
    exact ⟨this.1, fun c => by exact_mod_cast this.2 c⟩
  · have := hp.up (.inr ⟨hu, rfl⟩)
    exact ⟨this.1, fun c => by exact_mod_cast this.2 c⟩
  · have hle := hp.nearest hn
    constructor
    · intro c
      have c' : ((num false k q : ℚ) : ℝ) < v := by exact_mod_cast c
      by_contra hc
      rw [not_le] at hc
      rcases le_total (v : ℝ) X with hvX | hvX
      · rw [abs_of_nonpos (by linarith), abs_of_nonpos (by linarith)] at hle
        linarith
      · rw [abs_of_nonpos (by linarith), abs_of_nonneg (by linarith)] at hle
        linarith
    · intro c
      have c' : (v : ℝ) < ((num false k q : ℚ) : ℝ) := by exact_mod_cast c
      by_contra hc
      rw [not_le] at hc
      rcases le_total (v : ℝ) X with hvX | hvX
      · rw [abs_of_nonneg (by linarith), abs_of_nonpos (by linarith)] at hle
        linarith
      · rw [abs_of_nonneg (by linarith), abs_of_nonneg (by linarith)] at hle
        linarith

/-- The exponents of the six formats (R29). -/
theorem fmtOf_exponents (ty : Nat) :
    0 ≤ (fmtOf ty).qmax ∧ (fmtOf ty).qmax ≤ 971 ∧ -1074 ≤ (fmtOf ty).qmin ∧ (fmtOf ty).qmin < 0 ∧ (fmtOf ty).prec ≤ 53 ∧
      -(fmtOf ty).qmin ≤ 2 * (fmtOf ty).qmax + 2 * (fmtOf ty).fbits := by
  unfold fmtOf
  split_ifs <;> decide

/-- The largest finite value, squared, exceeds the reciprocal of the least. -/
theorem largest_bounds (ty : Nat) : let f := fmtOf ty
    (1 : ℝ) ≤ f.kmax * 2 ^ f.qmax ∧ (2 : ℝ) ^ (-f.qmin) ≤ (f.kmax * 2 ^ f.qmax) * (f.kmax * 2 ^ f.qmax) := by
  intro f
  obtain ⟨h1, -, -, -, -, h2⟩ : 0 ≤ f.qmax ∧ _ ∧ _ ∧ _ ∧ _ ∧ -f.qmin ≤ 2 * f.qmax + 2 * f.fbits := fmtOf_exponents ty
  have hk : (2 : ℝ) ^ f.fbits ≤ f.kmax := by exact_mod_cast (kmax_bounds (wide_fmtOf ty)).1
  have hlow : (2 : ℝ) ^ (f.fbits + f.qmax) ≤ f.kmax * 2 ^ f.qmax := by
    rw [zpow_add₀ (by norm_num), zpow_natCast]
    exact mul_le_mul_of_nonneg_right hk (two_zpow_pos _).le
  refine ⟨le_trans (one_le_zpow₀ (by norm_num) (by positivity)) hlow, le_trans ?_ (mul_le_mul hlow hlow (two_zpow_pos _).le ((two_zpow_pos _).le.trans hlow))⟩
  rw [← zpow_add₀ (by norm_num)]
  exact zpow_le_zpow_right₀ (by norm_num) (by omega)

end Sys2Proof.Proofs
end

section
/-!
Exact values, roots and powers of two (R32, R35, R36, R172).
-/

namespace Sys2Proof.Proofs

open Sys2Proof Sys2Proof.Machine Sys2Proof.Safety Sys2Proof.Laws

/-- A value is stored in one way only. -/
theorem stored_unique {f : Fmt} {k m : Nat} {q e : Int} (h1 : Stored f k q) (h2 : Stored f m e)
    (h : (k : ℝ) * 2 ^ q = m * 2 ^ e) : k = m ∧ q = e := by
  have lower {a b : Nat} {p r : Int} (ha : Stored f a p) (hb : Stored f b r) (hpr : p < r) : (a : ℝ) * 2 ^ p < b * 2 ^ r := by
    have ha' : (a : ℝ) < 2 ^ f.prec := by exact_mod_cast stored_lt ha
    have hb' : (2 : ℝ) ^ f.fbits ≤ b := by
      rcases hb with ⟨-, c⟩ | ⟨c, -⟩
      · have := stored_qmin_le ha
        omega
      · exact_mod_cast c
    calc (a : ℝ) * 2 ^ p < 2 ^ f.prec * 2 ^ p := mul_lt_mul_of_pos_right ha' (two_zpow_pos p)
      _ = 2 ^ f.fbits * 2 ^ (p + 1) := two_zpow_prec f p
      _ ≤ b * 2 ^ r := mul_le_mul hb' (zpow_le_zpow_right₀ (by norm_num) (by omega)) (two_zpow_pos _).le (Nat.cast_nonneg b)
  have hq : q = e := by
    rcases lt_trichotomy q e with c | c | c
    · exact absurd h (lower h1 h2 c).ne
    · exact c
    · exact absurd h (lower h2 h1 c).ne'
  subst hq
  refine ⟨?_, rfl⟩
  exact_mod_cast mul_right_cancel₀ (two_zpow_pos q).ne' h

/-- A number of the format rounds to itself (R32). -/
theorem roundFp_stored {f : Fmt} (hf : Wide f) (ov : Over) {rm : Nat} (hrm : rm ≤ 4) (n : Bool) {m : Nat} {e : Int}
    (h : Stored f m e) (hl : ¬ TooLarge f m e) : roundFp f ov rm n m e false = Res.plain (packNum f n m e) := by
  by_cases hm : m = 0
  · subst hm
    rw [roundFp_zero, packNum_subnormal n e (Nat.two_pow_pos _)]
    simp [pattern, Res.plain]
  · obtain ⟨k, q, hr⟩ := roundFp_rounds hf ov hrm n hm (approximates_exact m e) (by simp)
    have hp := hr.picks _ ⟨m, e, h, abs_of_nonneg (mul_nonneg (Nat.cast_nonneg m) (two_zpow_pos e).le)⟩
    have hv := le_antisymm (picks_le hrm hp le_rfl) (picks_ge hrm hp le_rfl)
    obtain ⟨rfl, rfl⟩ := stored_unique hr.stored h hv
    exact hr.exact hl hv

/-- Rounding a pattern's own number gives the pattern back, and raises nothing. -/
theorem roundFp_unpack {f : Fmt} (hf : Wide f) (ov : Over) {rm : Nat} (hrm : rm ≤ 4) {v : Nat} (hv : v < 2 ^ (f.signPos + 1))
    {n : Bool} {m : Nat} {e : Int} (h : unpack f v = .num n m e) :
    roundFp f ov rm n m e false = { bits := v, flags := 0, exc := false } := by
  obtain ⟨hs, hl, -⟩ := unpack_num hf h
  rw [roundFp_stored hf ov hrm n hs hl, packNum_unpack hf hv h]
  rfl

theorem unpack_sign {f : Fmt} (hf : Wide f) (n : Bool) : unpack f (f.sign n) = .num n 0 f.qmin := by
  cases n
  · exact unpack_zero hf
  · exact unpack_negZero hf

/-- An order of magnitudes over the smaller of two units. -/
theorem magnitude_le {k m : Nat} {q e : Int} (h : (k : ℝ) * 2 ^ q ≤ m * 2 ^ e) :
    k * 2 ^ (q - min q e).toNat ≤ m * 2 ^ (e - min q e).toNat := by
  rw [← two_zpow_toNat (min_le_left q e), ← two_zpow_toNat (min_le_right q e), ← mul_assoc, ← mul_assoc] at h
  have := le_of_mul_le_mul_right h (two_zpow_pos _)
  exact_mod_cast this

/-- Rounding toward zero never gives a greater magnitude, not even where it overflows (R32, R37). -/
theorem roundFp_toward_zero {f : Fmt} (hf : Wide f) (ov : Over) {n n' : Bool} {m k : Nat} {e q : Int}
    (h : unpack f (roundFp f ov 1 n m e false).bits = .num n' k q) :
    n' = n ∧ k * 2 ^ (q - min q e).toNat ≤ m * 2 ^ (e - min q e).toNat := by
  by_cases hm : m = 0
  · subst hm
    rw [roundFp_zero, unpack_sign hf] at h
    obtain ⟨rfl, rfl, rfl⟩ : n = n' ∧ 0 = k ∧ f.qmin = q := by simpa using h
    exact ⟨rfl, by simp⟩
  · obtain ⟨j, p, hr⟩ := roundFp_rounds hf ov (show 1 ≤ 4 by omega) n hm (approximates_exact m e) (by simp)
    have hgrid : OnGrid f (j * 2 ^ p) := ⟨j, p, hr.stored, abs_of_nonneg (mul_nonneg (Nat.cast_nonneg j) (two_zpow_pos p).le)⟩
    have hle : (j : ℝ) * 2 ^ p ≤ m * 2 ^ e := ((hr.picks _ hgrid).down (.inl rfl)).1
    by_cases hl : TooLarge f j p
    · have hb : (overflow f ov 1 n).bits = f.maxFin n := by cases ov <;> rfl
      rw [hr.large hl, hb, unpack_maxFin hf] at h
      obtain ⟨rfl, rfl, rfl⟩ : n = n' ∧ f.kmax = k ∧ f.qmax = q := by simpa using h
      exact ⟨rfl, magnitude_le (((tooLarge_iff hf hr.stored).mp hl).le.trans hle)⟩
    · rw [roundsFp_unpack hf hr hl] at h
      obtain ⟨rfl, rfl, rfl⟩ : n = n' ∧ j = k ∧ p = q := by simpa using h
      exact ⟨rfl, magnitude_le hle⟩

section
variable {f : Fmt} (hf : Wide f) {rm : Nat} (hrm : rm ≤ 4) {m : Nat} (hm : m ≠ 0) (e : Int)
include hf hrm hm

/-- A square root rounds the exact one (R35). -/
theorem sqrtVal_rounds : ∃ k q, RoundsFp f .arith rm false (√((m : ℝ) * 2 ^ e)) (sqrtVal f rm (.num false m e)) k q := by
  obtain ⟨p, hp, heven, hge⟩ : ∃ p : Nat, (if (e - (2 * (f.prec + 3) : Nat)) % 2 = 0 then 2 * (f.prec + 3) else 2 * (f.prec + 3) + 1) = p ∧
      (e - p) % 2 = 0 ∧ 2 * (f.prec + 3) ≤ p := by
    refine ⟨_, rfl, ?_, ?_⟩ <;> split <;> push_cast at * <;> omega
  have hlow : 2 ^ (f.prec + 3) ≤ isqrt (m * 2 ^ p) := by
    refine le_isqrt ?_
    rw [← pow_add]
    exact (Nat.pow_le_pow_right (by omega) (by omega)).trans (Nat.le_mul_of_pos_left _ (Nat.pos_of_ne_zero hm))
  have hb := le_bitLen hlow
  have h0 : isqrt (m * 2 ^ p) ≠ 0 := by
    have := Nat.two_pow_pos (f.prec + 3)
    omega
  obtain ⟨k, q, h⟩ := roundFp_rounds hf .arith hrm false h0 (root_approximates m heven) fun _ => by omega
  refine ⟨k, q, ?_⟩
  have : sqrtVal f rm (.num false m e) = roundFp f .arith rm false (isqrt (m * 2 ^ p)) ((e - p) / 2)
      (decide (isqrt (m * 2 ^ p) * isqrt (m * 2 ^ p) ≠ m * 2 ^ p)) := by
    simp only [sqrtVal, if_neg hm, hp]
    rfl
  rwa [this]

/-- The reciprocal of a square root rounds the exact one (R35). -/
theorem rsqrtVal_rounds : ∃ k q, RoundsFp f .arith rm false (1 / √((m : ℝ) * 2 ^ e)) (rsqrtVal f rm (.num false m e)) k q := by
  obtain ⟨m', e', hm', he', heven, hv, hne⟩ : ∃ (m' : Nat) (e' : Int), (if e % 2 = 0 then m else 2 * m) = m' ∧
      (if e % 2 = 0 then e else e - 1) = e' ∧ e' % 2 = 0 ∧ (m : ℝ) * 2 ^ e = m' * 2 ^ e' ∧ m' ≠ 0 := by
    refine ⟨_, _, rfl, rfl, ?_, ?_, ?_⟩ <;> split
    · assumption
    · omega
    · rfl
    · rw [zpow_sub₀ (by norm_num), zpow_one]
      push_cast
      field_simp
    · exact hm
    · omega
  have hlow : 2 ^ (f.prec + 3) ≤ isqrt (2 ^ (2 * (f.prec + 3 + bitLen m')) / m') := by
    refine le_isqrt ((Nat.le_div_iff_mul_le (Nat.pos_of_ne_zero hne)).mpr ?_)
    calc 2 ^ (f.prec + 3) * 2 ^ (f.prec + 3) * m' ≤ 2 ^ (f.prec + 3) * 2 ^ (f.prec + 3) * 2 ^ bitLen m' :=
          Nat.mul_le_mul_left _ (lt_bitLen m').le
      _ = 2 ^ (f.prec + 3 + (f.prec + 3) + bitLen m') := by rw [pow_add 2 (f.prec + 3 + (f.prec + 3)), pow_add 2 (f.prec + 3)]
      _ ≤ _ := Nat.pow_le_pow_right (by omega) (by omega)
  have hb := le_bitLen hlow
  have h0 : isqrt (2 ^ (2 * (f.prec + 3 + bitLen m')) / m') ≠ 0 := by
    have := Nat.two_pow_pos (f.prec + 3)
    omega
  obtain ⟨k, q, h⟩ := roundFp_rounds hf .arith hrm false h0
    (rootReciprocal_approximates hne heven (f.prec + 3 + bitLen m')) fun _ => by omega
  refine ⟨k, q, ?_⟩
  rw [hv]
  have : rsqrtVal f rm (.num false m e) = roundFp f .arith rm false (isqrt (2 ^ (2 * (f.prec + 3 + bitLen m')) / m'))
      (-((f.prec + 3 + bitLen m' : Nat) : Int) - e' / 2)
      (decide (isqrt (2 ^ (2 * (f.prec + 3 + bitLen m')) / m') * isqrt (2 ^ (2 * (f.prec + 3 + bitLen m')) / m') * m' ≠
        2 ^ (2 * (f.prec + 3 + bitLen m')))) := by
    simp only [rsqrtVal, if_neg hm, hm', he']
    rfl
  rwa [this]

end

/-- A magnitude below half a unit is dropped whole, or becomes the least one. -/
theorem roundTo_tiny (rm : Nat) (neg : Bool) {m : Nat} (hm : m ≠ 0) {e q : Int} (h : e + bitLen m < q) (s : Bool) :
    roundTo rm neg m e s q = (if roundUp rm neg false false false true then 1 else 0, true) := by
  have hb := lt_bitLen m
  have hle : bitLen m ≤ (q - e).toNat - 1 := by omega
  have hhalf : m < 2 ^ ((q - e).toNat - 1) := hb.trans_le (Nat.pow_le_pow_right (by omega) hle)
  have hfull : m < 2 ^ (q - e).toNat := hhalf.trans_le (Nat.pow_le_pow_right (by omega) (by omega))
  rw [roundTo, if_neg (by omega)]
  simp only [Nat.div_eq_of_lt hfull, Nat.mod_eq_of_lt hfull]
  have h1 : ¬ 2 ^ ((q - e).toNat - 1) < m := by omega
  have h2 : m ≠ 2 ^ ((q - e).toNat - 1) := by omega
  simp [h1, h2, hm]

/-- Two numbers below half the least number of the format round alike. -/
theorem roundFp_tiny (f : Fmt) (ov : Over) (rm : Nat) (neg : Bool) {m k : Nat} (hm : m ≠ 0) (hk : k ≠ 0) {e d : Int}
    (h1 : e + bitLen m < f.qmin) (h2 : d + bitLen k < f.qmin) (s t : Bool) :
    roundFp f ov rm neg m e s = roundFp f ov rm neg k d t := by
  have hu : unitOf f m e = f.qmin := by rw [unitOf]; omega
  have hu' : unitOf f k d = f.qmin := by rw [unitOf]; omega
  rw [roundFp_eq f ov rm neg hm, roundFp_eq f ov rm neg hk, hu, hu', roundTo_tiny rm neg hm h1, roundTo_tiny rm neg hk h2]

/-- Every positive number has a significand of as many bits as one likes, with a sticky bit. -/
theorem exists_approximates {X : ℝ} (hX : 0 < X) (p : Nat) : ∃ m e s, m ≠ 0 ∧ p + 1 ≤ bitLen m ∧ Approximates m e s X := by
  classical
  obtain ⟨e, he⟩ : ∃ e : Int, e = Int.log 2 X - p := ⟨_, rfl⟩
  have hlog : (2 : ℝ) ^ (Int.log 2 X) ≤ X := by exact_mod_cast Int.zpow_log_le_self (b := 2) (by norm_num) hX
  have h2e := two_zpow_pos e
  have hlow : 2 ^ p ≤ ⌊X / 2 ^ e⌋₊ := by
    refine Nat.le_floor ((le_div_iff₀ h2e).mpr ?_)
    push_cast
    rwa [← zpow_natCast, ← zpow_add₀ (by norm_num), he, show (p : Int) + (Int.log 2 X - p) = Int.log 2 X by ring]
  have h0 : ⌊X / 2 ^ e⌋₊ ≠ 0 := by have := Nat.two_pow_pos p; omega
  refine ⟨⌊X / 2 ^ e⌋₊, e, decide (X ≠ ⌊X / 2 ^ e⌋₊ * 2 ^ e), h0, le_bitLen hlow, ?_, ?_, by simp⟩
  · exact (le_div_iff₀ h2e).mp (Nat.floor_le (by positivity))
  · exact (div_lt_iff₀ h2e).mp (Nat.lt_floor_add_one _)

end Sys2Proof.Proofs
end

section
/-!
Two to a number of the format (R172), and the least and greatest powers, which no format holds.
-/

namespace Sys2Proof.Proofs

open Sys2Proof Sys2Proof.Machine Sys2Proof.Safety Sys2Proof.Laws

theorem rpow_intCast_zpow (i : Int) : (2 : ℝ) ^ (i : ℝ) = (2 : ℝ) ^ i := Real.rpow_intCast 2 i

/-- Every finite number of the format is far below 2^2000. -/
theorem finVal_lt (ty : Nat) {v : ℚ} (hv : FinVal (fmtOf ty) v) : 2 * (v : ℝ) < 2 ^ (2000 : Int) := by
  obtain ⟨n, k, q, hs, hl, rfl⟩ := finVal_parts (wide_fmtOf ty) hv
  obtain ⟨-, h2, -, -, h5, -⟩ := fmtOf_exponents ty
  simp only [TooLarge, not_or, not_lt] at hl
  have hk : (k : ℝ) < 2 ^ ((fmtOf ty).prec : Int) := by rw [zpow_natCast]; exact_mod_cast stored_lt hs
  calc 2 * ((num n k q : ℚ) : ℝ) ≤ 2 * |((num n k q : ℚ) : ℝ)| := by linarith [le_abs_self ((num n k q : ℚ) : ℝ)]
    _ = 2 ^ (1 : Int) * (k * 2 ^ q) := by rw [num_magnitude, zpow_one]
    _ < 2 ^ (1 : Int) * (2 ^ ((fmtOf ty).prec : Int) * 2 ^ q) :=
      mul_lt_mul_of_pos_left (mul_lt_mul_of_pos_right hk (two_zpow_pos q)) (two_zpow_pos 1)
    _ = 2 ^ (1 + ((fmtOf ty).prec + q)) := by rw [← zpow_add₀ (by norm_num), ← zpow_add₀ (by norm_num)]
    _ ≤ 2 ^ (2000 : Int) := zpow_le_zpow_right₀ (by norm_num) (by omega)

section
variable (ty : Nat) {rm : Nat} (hrm : rm ≤ 4) {X : ℝ}
include hrm

/-- A number beyond every format overflows, as 2^1000000 does in the model's place. -/
theorem rounds_huge (hX : (2 : ℝ) ^ (2000 : Int) ≤ X) :
    ∃ k q, RoundsFp (fmtOf ty) .arith rm false X (roundFp (fmtOf ty) .arith rm false 1 1000000 false) k q := by
  have hf := wide_fmtOf ty
  have hpos : 0 < X := (two_zpow_pos _).trans_le hX
  obtain ⟨m, e, s, hm, hb, ha⟩ := exists_approximates hpos ((fmtOf ty).prec + 2)
  obtain ⟨k, q, hr⟩ := roundFp_rounds hf .arith hrm false hm ha fun _ => by omega
  obtain ⟨k', q', hr'⟩ := roundFp_rounds hf .arith hrm false one_ne_zero (approximates_exact 1 1000000) (by simp)
  have h1 := hr.large (roundsFp_overflows hf hrm hr fun v hv => (finVal_lt ty hv).trans_le hX)
  have h2 := hr'.large (roundsFp_overflows hf hrm hr' fun v hv => (finVal_lt ty hv).trans_le (by
    rw [Nat.cast_one, one_mul]
    exact zpow_le_zpow_right₀ (by norm_num) (by norm_num)))
  exact ⟨k, q, by rw [h2, ← h1]; exact hr⟩

/-- A number below every format rounds as 2^-1000000 does. -/
theorem rounds_tiny (hpos : 0 < X) (hX : X ≤ (2 : ℝ) ^ (-2000 : Int)) :
    ∃ k q, RoundsFp (fmtOf ty) .arith rm false X (roundFp (fmtOf ty) .arith rm false 1 (-1000000) false) k q := by
  have hf := wide_fmtOf ty
  obtain ⟨-, -, hmin, -⟩ := fmtOf_exponents ty
  obtain ⟨m, e, s, hm, hb, ha⟩ := exists_approximates hpos ((fmtOf ty).prec + 2)
  obtain ⟨k, q, hr⟩ := roundFp_rounds hf .arith hrm false hm ha fun _ => by omega
  have hlow : e + bitLen m < (fmtOf ty).qmin := by
    have h := (approximates_ge ha hm).trans hX
    have := (zpow_le_zpow_iff_right₀ (by norm_num : (1 : ℝ) < 2)).mp h
    omega
  have hone : (-1000000 : Int) + bitLen 1 < (fmtOf ty).qmin := by
    have : bitLen 1 = 1 := by decide
    omega
  exact ⟨k, q, by rw [roundFp_tiny (fmtOf ty) .arith rm false one_ne_zero hm hone hlow false s]; exact hr⟩

end

/-- The two sides of 1 that a power of two with a small exponent lies between. -/
theorem rpow_near_one {a : ℝ} {w : Nat} (h : |a| < 1 / 2 ^ (w + 1)) :
    (0 < a → 1 < (2 : ℝ) ^ a ∧ (2 : ℝ) ^ a < 1 + 1 / 2 ^ w) ∧ (a < 0 → 1 - 1 / 2 ^ (w + 1) < (2 : ℝ) ^ a ∧ (2 : ℝ) ^ a < 1) := by
  have hw : (1 : ℝ) / 2 ^ (w + 1) ≤ 1 / 2 ^ w := by
    rw [pow_succ]
    apply one_div_le_one_div_of_le (by positivity)
    linarith [(by positivity : (0 : ℝ) < 2 ^ w)]
  have hw1 : (1 : ℝ) / 2 ^ w ≤ 1 := by
    rw [div_le_one (by positivity)]
    exact one_le_pow₀ (by norm_num)
  have habs := abs_lt.mp h
  refine ⟨fun hpos => ⟨Real.one_lt_rpow (by norm_num) hpos, ?_⟩, fun hneg => ⟨?_, Real.rpow_lt_one_of_one_lt_of_neg (by norm_num) hneg⟩⟩
  · have hb := rpow_one_add_le_one_add_mul_self (show (-1 : ℝ) ≤ 1 by norm_num) hpos.le (by linarith)
    norm_num at hb
    linarith
  · have he := Real.add_one_le_exp (a * Real.log 2)
    have hl : Real.log 2 < 1 := by
      have := Real.log_two_lt_d9
      linarith
    have hl0 : 0 < Real.log 2 := Real.log_pos (by norm_num)
    rw [Real.rpow_def_of_pos (by norm_num), mul_comm]
    nlinarith

/-- The significand with a sticky bit that stands for a number strictly between two neighbours. -/
theorem approximates_between {m : Nat} {e : Int} {X : ℝ} (h1 : (m : ℝ) * 2 ^ e < X) (h2 : X < (m + 1) * 2 ^ e) :
    Approximates m e true X := ⟨h1.le, h2, by simp [h1.ne']⟩

/-- The exponents at which the model's computation of a power settles at once (log 9). -/
def SettlesAtOnce (w n fr : Nat) : Prop :=
  ∀ q : Nat, 1 ≤ q → q ≤ 2 ^ (w + 1) → 1 / 2 ^ (w + 40) < |(q : ℝ) / 2 ^ w - (2 : ℝ) ^ ((fr : ℝ) / 2 ^ n)|

/-- A number is the quotient of its signed significand by a power of two. -/
theorem num_cast_div (n : Bool) (m : Nat) {e : Int} (he : e ≤ 0) :
    ((num n m e : ℚ) : ℝ) = (((if n then -1 else 1) * (m : Int) : Int) : ℝ) / 2 ^ (-e).toNat := by
  have h2 : (2 : ℝ) ^ e = 1 / 2 ^ (-e).toNat := by
    rw [one_div, ← zpow_natCast, ← zpow_neg, Int.toNat_of_nonneg (by omega), neg_neg]
  rw [num_cast, h2]
  cases n <;> simp [sgn] <;> field_simp

section
variable (ty : Nat) {rm : Nat} (hrm : rm ≤ 4) {n : Bool} {m : Nat} {e : Int}
include hrm

/-- Near exponent 0 the power lies strictly between 1 and the next significand (log 9). -/
theorem exp2Val_near_zero (hm : m ≠ 0) (h : e + bitLen m ≤ -(((fmtOf ty).prec + 3 : Nat) + 1 : Int)) :
    ∃ k q, RoundsFp (fmtOf ty) .arith rm false ((2 : ℝ) ^ ((num n m e : ℚ) : ℝ)) (exp2Val (fmtOf ty) rm (.num n m e)) k q := by
  have hf := wide_fmtOf ty
  obtain ⟨w, hw⟩ : ∃ w, (fmtOf ty).prec + 3 = w := ⟨_, rfl⟩
  have habs : |((num n m e : ℚ) : ℝ)| < 1 / 2 ^ (w + 1) := by
    rw [num_magnitude, one_div, ← zpow_natCast, ← zpow_neg]
    refine (approximates_lt (approximates_exact m e)).trans_le (zpow_le_zpow_right₀ (by norm_num) ?_)
    push_cast
    omega
  obtain ⟨hup, hdn⟩ := rpow_near_one habs
  have hval (c : ℝ) (j : Nat) : c * 2 ^ (-(j : Int)) = c / 2 ^ j := by rw [zpow_neg, zpow_natCast]; rfl
  have hpow (j : Nat) : (2 : ℝ) ^ j / 2 ^ j = 1 := div_self (by positivity)
  simp only [exp2Val, if_neg hm, hw]
  rw [if_pos (by rw [← hw]; exact h)]
  cases n
  · obtain ⟨h1, h2⟩ := hup (by
      have := (num_pos_iff false m e).mpr ⟨rfl, hm⟩
      exact_mod_cast this)
    have ha : Approximates (2 ^ w) (-(w : Int)) true ((2 : ℝ) ^ ((num false m e : ℚ) : ℝ)) := by
      refine approximates_between ?_ ?_
      · rw [hval]; push_cast; rwa [hpow]
      · rw [hval]; push_cast; rwa [add_div, hpow]
    have hb := le_bitLen (le_refl (2 ^ w))
    exact roundFp_rounds hf .arith hrm false (Nat.two_pow_pos w).ne' ha fun _ => by omega
  · obtain ⟨h1, h2⟩ := hdn (by
      have := (num_neg_iff true m e).mpr ⟨rfl, hm⟩
      exact_mod_cast this)
    have hcast : ((2 ^ (w + 1) - 1 : Nat) : ℝ) = 2 ^ (w + 1) - 1 := by
      rw [Nat.cast_sub Nat.one_le_two_pow]; push_cast; rfl
    have ha : Approximates (2 ^ (w + 1) - 1) (-((w + 1 : Nat) : Int)) true ((2 : ℝ) ^ ((num true m e : ℚ) : ℝ)) := by
      refine approximates_between ?_ ?_
      · rw [hval, hcast, sub_div, hpow]; exact h1
      · rw [hval, hcast, sub_add_cancel, hpow]; exact h2
    have hle : 2 ^ w ≤ 2 ^ (w + 1) - 1 := by have := Nat.two_pow_pos w; rw [pow_succ]; omega
    have hb := le_bitLen hle
    have h0 : 2 ^ (w + 1) - 1 ≠ 0 := by have := Nat.two_pow_pos w; omega
    exact roundFp_rounds hf .arith hrm false h0 ha fun _ => by omega

/-- A power of two beyond every format (log 9). -/
theorem exp2Val_far (hm : m ≠ 0) (h : 20 < e + bitLen m) :
    ∃ k q, RoundsFp (fmtOf ty) .arith rm false ((2 : ℝ) ^ ((num n m e : ℚ) : ℝ)) (exp2Val (fmtOf ty) rm (.num n m e)) k q := by
  have habs : (2000 : ℝ) ≤ |((num n m e : ℚ) : ℝ)| := by
    rw [num_magnitude]
    refine le_trans ?_ (approximates_ge (approximates_exact m e) hm)
    calc (2000 : ℝ) ≤ 2 ^ (20 : Int) := by norm_num
      _ ≤ _ := zpow_le_zpow_right₀ (by norm_num) (by omega)
  simp only [exp2Val, if_neg hm]
  rw [if_neg (by omega), if_pos h]
  cases n
  · have hpos : (0 : ℝ) < ((num false m e : ℚ) : ℝ) := by exact_mod_cast (num_pos_iff false m e).mpr ⟨rfl, hm⟩
    rw [abs_of_pos hpos] at habs
    refine rounds_huge ty hrm ?_
    rw [← rpow_intCast_zpow]
    exact Real.rpow_le_rpow_of_exponent_le (by norm_num) (by push_cast; exact habs)
  · have hneg : ((num true m e : ℚ) : ℝ) < 0 := by exact_mod_cast (num_neg_iff true m e).mpr ⟨rfl, hm⟩
    rw [abs_of_neg hneg] at habs
    refine rounds_tiny ty hrm (by positivity) ?_
    rw [← rpow_intCast_zpow]
    exact Real.rpow_le_rpow_of_exponent_le (by norm_num) (by push_cast; linarith)

/-- A power of two to an integer exponent within reach is exact (R172). -/
theorem exp2Val_whole (hm : m ≠ 0) (hlo : ¬ e + bitLen m ≤ -(((fmtOf ty).prec + 3 : Nat) + 1 : Int)) (hhi : ¬ 20 < e + bitLen m)
    (he : 0 ≤ e) :
    ∃ k q, RoundsFp (fmtOf ty) .arith rm false ((2 : ℝ) ^ ((num n m e : ℚ) : ℝ)) (exp2Val (fmtOf ty) rm (.num n m e)) k q := by
  have hv : (2 : ℝ) ^ ((num n m e : ℚ) : ℝ) = (1 : Nat) * 2 ^ ((if n then -1 else 1) * ((m * 2 ^ e.toNat : Nat) : Int)) := by
    rw [Nat.cast_one, one_mul, ← rpow_intCast_zpow]
    congr 1
    rw [num_cast, show (2 : ℝ) ^ e = 2 ^ e.toNat by rw [← zpow_natCast, Int.toNat_of_nonneg he]]
    cases n <;> simp [sgn]
  simp only [exp2Val, if_neg hm]
  rw [if_neg hlo, if_neg hhi, if_pos he, hv]
  exact roundFp_rounds (wide_fmtOf ty) .arith hrm false one_ne_zero (approximates_exact 1 _) (by simp)

/-- A power of two to a fraction: exact for an integer, else from the fraction's product where that settles at once (R172, log 9). -/
theorem exp2Val_fraction (hm : m ≠ 0) (hlo : ¬ e + bitLen m ≤ -(((fmtOf ty).prec + 3 : Nat) + 1 : Int))
    (hhi : ¬ 20 < e + bitLen m) (he : e < 0)
    (hset : let fr := ((if n then -1 else 1) * (m : Int) % ((2 ^ (-e).toNat : Nat) : Int)).toNat
      fr ≠ 0 → SettlesAtOnce ((fmtOf ty).prec + 3) (-e).toNat fr) :
    ∃ k q, RoundsFp (fmtOf ty) .arith rm false ((2 : ℝ) ^ ((num n m e : ℚ) : ℝ)) (exp2Val (fmtOf ty) rm (.num n m e)) k q := by
  have hf := wide_fmtOf ty
  obtain ⟨w, hw⟩ : ∃ w, (fmtOf ty).prec + 3 = w := ⟨_, rfl⟩
  obtain ⟨a, ha⟩ : ∃ a : Int, (if n then -1 else 1) * (m : Int) = a := ⟨_, rfl⟩
  obtain ⟨d, hd⟩ : ∃ d, (-e).toNat = d := ⟨_, rfl⟩
  obtain ⟨fr, hfr⟩ : ∃ fr, (a % ((2 ^ d : Nat) : Int)).toNat = fr := ⟨_, rfl⟩
  obtain ⟨ip, hip⟩ : ∃ ip, a / ((2 ^ d : Nat) : Int) = ip := ⟨_, rfl⟩
  have hd0 : (0 : Int) < ((2 ^ d : Nat) : Int) := by exact_mod_cast Nat.two_pow_pos d
  have hfrlt : fr < 2 ^ d := by
    have := Int.emod_lt_of_pos a hd0
    omega
  have hsplit : a = ip * 2 ^ d + fr := by
    have h1 := Int.mul_ediv_add_emod a ((2 ^ d : Nat) : Int)
    have h2 := Int.emod_nonneg a hd0.ne'
    rw [hip] at h1
    push_cast at h1 h2 hfr
    have h3 : (fr : Int) = a % 2 ^ d := by omega
    rw [h3]
    linarith
  have hv : (2 : ℝ) ^ ((num n m e : ℚ) : ℝ) = 2 ^ ip * (2 : ℝ) ^ ((fr : ℝ) / 2 ^ d) := by
    rw [num_cast_div n m he.le, ha, hd, ← rpow_intCast_zpow, ← Real.rpow_add (by norm_num), hsplit]
    congr 1
    push_cast
    field_simp
  simp only [exp2Val, if_neg hm, hw]
  rw [if_neg (by rw [← hw]; exact hlo), if_neg hhi, if_neg (by omega)]
  simp only [ha, hd, hfr, hip] at hset ⊢
  by_cases h0 : fr = 0
  · rw [if_pos h0, hv, h0]
    have h1 : (2 : ℝ) ^ ip * (2 : ℝ) ^ (((0 : Nat) : ℝ) / 2 ^ d) = (1 : Nat) * 2 ^ ip := by simp
    rw [h1]
    exact roundFp_rounds hf .arith hrm false one_ne_zero (approximates_exact 1 ip) (by simp)
  · rw [if_neg h0, hv]
    have hs := hset h0
    rw [hw] at hs
    obtain ⟨h1, h2⟩ := exp2Frac_bounds hfrlt hs
    have hne := rpow_fraction_ne (w := w) (g := exp2Frac w d fr 4 (w + d + 64)) h0 hfrlt
    have hge : 2 ^ w ≤ exp2Frac w d fr 4 (w + d + 64) := by
      have h3 : (1 : ℝ) ≤ (2 : ℝ) ^ ((fr : ℝ) / 2 ^ d) := Real.one_le_rpow (by norm_num) (by positivity)
      have h4 : (2 : ℝ) ^ w ≤ 2 ^ w * (2 : ℝ) ^ ((fr : ℝ) / 2 ^ d) := le_mul_of_one_le_right (by positivity) h3
      have h5 : (2 : ℝ) ^ w < exp2Frac w d fr 4 (w + d + 64) + 1 := by linarith
      exact Nat.lt_succ_iff.mp (by exact_mod_cast h5)
    generalize exp2Frac w d fr 4 (w + d + 64) = g at *
    have hb := le_bitLen hge
    have hscale (c : ℝ) : c * 2 ^ (ip - w) = c / 2 ^ w * 2 ^ ip := by
      rw [zpow_sub₀ (by norm_num), zpow_natCast]
      field_simp
    have hg1 : (g : ℝ) < 2 ^ w * (2 : ℝ) ^ ((fr : ℝ) / 2 ^ d) := lt_of_le_of_ne h1 hne.symm
    have h2ip := two_zpow_pos ip
    have ha : Approximates g (ip - w) true (2 ^ ip * (2 : ℝ) ^ ((fr : ℝ) / 2 ^ d)) := by
      refine approximates_between ?_ ?_
      · rw [hscale, mul_comm]
        refine mul_lt_mul_of_pos_left ?_ h2ip
        rw [div_lt_iff₀ (by positivity), mul_comm]
        exact hg1
      · rw [hscale, mul_comm (2 ^ ip)]
        refine mul_lt_mul_of_pos_right ?_ h2ip
        rw [lt_div_iff₀ (by positivity), mul_comm]
        exact h2
    have hg0 : g ≠ 0 := by have := Nat.two_pow_pos w; omega
    exact roundFp_rounds hf .arith hrm false hg0 ha fun _ => by omega

/-- Two to a power rounds the exact one, where the model's computation settles it (R172, log 9). -/
theorem exp2Val_rounds
    (hset : e < 0 → e + bitLen m ≤ -(((fmtOf ty).prec + 3 : Nat) + 1 : Int) ∨ 20 < e + bitLen m ∨
      let fr := ((if n then -1 else 1) * (m : Int) % ((2 ^ (-e).toNat : Nat) : Int)).toNat
      fr ≠ 0 → SettlesAtOnce ((fmtOf ty).prec + 3) (-e).toNat fr) :
    ∃ k q, RoundsFp (fmtOf ty) .arith rm false ((2 : ℝ) ^ ((num n m e : ℚ) : ℝ)) (exp2Val (fmtOf ty) rm (.num n m e)) k q := by
  by_cases hm : m = 0
  · subst hm
    have hv : (2 : ℝ) ^ ((num n 0 e : ℚ) : ℝ) = (1 : Nat) * 2 ^ (0 : Int) := by rw [num_cast]; simp
    simp only [exp2Val, if_pos]
    rw [hv]
    exact roundFp_rounds (wide_fmtOf ty) .arith hrm false one_ne_zero (approximates_exact 1 0) (by simp)
  · by_cases hlo : e + bitLen m ≤ -(((fmtOf ty).prec + 3 : Nat) + 1 : Int)
    · exact exp2Val_near_zero ty hrm hm hlo
    · by_cases hhi : 20 < e + bitLen m
      · exact exp2Val_far ty hrm hm hhi
      · rcases lt_or_ge e 0 with he | he
        · exact exp2Val_fraction ty hrm hm hlo hhi he (((hset he).resolve_left hlo).resolve_left hhi)
        · exact exp2Val_whole ty hrm hm hlo hhi he

end

end Sys2Proof.Proofs
end

section
/-!
The integer types (R25, R26): what their bits read as, and the clamp to their range.
-/

namespace Sys2Proof.Proofs

open Sys2Proof Sys2Proof.Machine Sys2Proof.Safety Sys2Proof.Laws

theorem ofSigned_cast (b : Nat) (i : Int) : (ofSigned b i : Int) = i % 2 ^ b := by
  have h : (0 : Int) < ((2 ^ b : Nat) : Int) := by exact_mod_cast Nat.two_pow_pos b
  rw [ofSigned, Int.toNat_of_nonneg (Int.emod_nonneg _ h.ne')]
  push_cast
  rfl

theorem ofSigned_lt (b : Nat) (i : Int) : ofSigned b i < 2 ^ b := by
  have h : (0 : Int) < ((2 ^ b : Nat) : Int) := by exact_mod_cast Nat.two_pow_pos b
  have := Int.emod_lt_of_pos i h
  have := Int.emod_nonneg i h.ne'
  rw [ofSigned]
  omega

/-- The signed reading of b bits differs from the unsigned one by the modulus or not at all. -/
theorem toSigned_eq (b v : Nat) :
    toSigned b v = if 2 ^ b ≤ 2 * (v % 2 ^ b) then ((v % 2 ^ b : Nat) : Int) - 2 ^ b else ((v % 2 ^ b : Nat) : Int) := by
  simp only [toSigned]
  push_cast
  rfl

theorem toSigned_mod (b v : Nat) : toSigned b v % 2 ^ b = (v : Int) % 2 ^ b := by
  rw [toSigned_eq]
  split
  · rw [Int.sub_emod_right]
    push_cast
    exact Int.emod_emod_of_dvd _ (dvd_refl _)
  · push_cast
    exact Int.emod_emod_of_dvd _ (dvd_refl _)

theorem toSigned_ofSigned {b : Nat} (hb : 1 ≤ b) {i : Int} (h1 : -2 ^ (b - 1) ≤ i) (h2 : i < 2 ^ (b - 1)) :
    toSigned b (ofSigned b i) = i := by
  have hp : (2 : Int) ^ b = 2 * 2 ^ (b - 1) := by rw [← pow_succ', Nat.sub_add_cancel hb]
  have hc : ((2 ^ b : Nat) : Int) = 2 ^ b := by push_cast; rfl
  have hm := ofSigned_cast b i
  have hpos : (0 : Int) < 2 ^ (b - 1) := by positivity
  rw [toSigned_eq, Nat.mod_eq_of_lt (ofSigned_lt b i)]
  rcases lt_or_ge i 0 with h | h
  · have he : i % 2 ^ b = i + 2 ^ b := by
      rw [← Int.add_emod_right, Int.emod_eq_of_lt (by omega) (by omega)]
    rw [if_pos (by omega)]
    omega
  · rw [Int.emod_eq_of_lt h (by omega)] at hm
    rw [if_neg (by omega)]
    exact hm

theorem toSigned_bounds {b : Nat} (hb : 1 ≤ b) (v : Nat) : -2 ^ (b - 1) ≤ toSigned b v ∧ toSigned b v < 2 ^ (b - 1) := by
  have hp : 2 ^ b = 2 * 2 ^ (b - 1) := by rw [← pow_succ', Nat.sub_add_cancel hb]
  have hc : (2 : Int) ^ b = ((2 ^ b : Nat) : Int) := by push_cast; rfl
  have hc' : (2 : Int) ^ (b - 1) = ((2 ^ (b - 1) : Nat) : Int) := by push_cast; rfl
  have hlt := Nat.mod_lt v (Nat.two_pow_pos b)
  rw [toSigned_eq, hc, hc']
  split <;> omega

theorem scalarSize_pos (ty : Nat) : 1 ≤ 8 * scalarSize ty := by
  unfold scalarSize
  split_ifs <;> decide

theorem isSigned_iff {ty : Nat} (h : ty < 8) : isSigned ty = true ↔ ty % 2 = 0 := by simp [isSigned, h]

theorem intMin_eq {ty : Nat} (h : ty < 8) : intMin ty = if ty % 2 = 0 then -2 ^ (8 * scalarSize ty - 1) else 0 := by
  rw [intMin]
  by_cases c : ty % 2 = 0
  · rw [if_pos ((isSigned_iff h).mpr c), if_pos c]; push_cast; rfl
  · rw [if_neg (fun d => c ((isSigned_iff h).mp d)), if_neg c]

theorem intMax_eq {ty : Nat} (h : ty < 8) :
    intMax ty = if ty % 2 = 0 then 2 ^ (8 * scalarSize ty - 1) - 1 else 2 ^ (8 * scalarSize ty) - 1 := by
  rw [intMax]
  by_cases c : ty % 2 = 0
  · rw [if_pos ((isSigned_iff h).mpr c), if_pos c]; push_cast; rfl
  · rw [if_neg (fun d => c ((isSigned_iff h).mp d)), if_neg c]; push_cast; rfl

/-- A number of the type's range is read back from its bits (R26). -/
theorem intVal_intBits {ty : Nat} {i : Int} (h1 : intMin ty ≤ i) (h2 : i ≤ intMax ty) : intVal ty (intBits ty i) = i := by
  have hb := scalarSize_pos ty
  rw [intVal, intBits]
  rw [intMin] at h1
  rw [intMax] at h2
  cases hs : isSigned ty
  · simp only [hs, Bool.false_eq_true, if_false] at h1 h2 ⊢
    rw [Nat.mod_eq_of_lt (ofSigned_lt _ _), ofSigned_cast, Int.emod_eq_of_lt h1]
    push_cast at h2
    omega
  · simp only [hs, if_true] at h1 h2 ⊢
    push_cast at h1 h2
    exact toSigned_ofSigned hb h1 (by omega)

theorem intVal_mod (ty v : Nat) : intVal ty v % 2 ^ (8 * scalarSize ty) = (v : Int) % 2 ^ (8 * scalarSize ty) := by
  rw [intVal]
  split
  · exact toSigned_mod _ _
  · push_cast
    exact Int.emod_emod_of_dvd _ (dvd_refl _)

theorem intVal_bounds (ty v : Nat) : intMin ty ≤ intVal ty v ∧ intVal ty v ≤ intMax ty := by
  rw [intMin, intMax, intVal]
  cases hs : isSigned ty
  · have := Nat.mod_lt v (Nat.two_pow_pos (8 * scalarSize ty))
    simp only [Bool.false_eq_true, if_false]
    omega
  · obtain ⟨h1, h2⟩ := toSigned_bounds (scalarSize_pos ty) v
    simp only [if_true]
    push_cast
    omega

theorem intMin_le_intMax (ty : Nat) : intMin ty ≤ intMax ty := (intVal_bounds ty 0).1.trans (intVal_bounds ty 0).2

/-- A clamped number reads as itself, or as the nearer edge of the range with saturation (R26). -/
theorem satInt_cases (ty : Nat) (i : Int) :
    (intMin ty ≤ i → i ≤ intMax ty → satInt ty i = Res.plain (intBits ty i) ∧ intVal ty (satInt ty i).bits = i) ∧
    (i < intMin ty → satInt ty i = Res.mk' (intBits ty (intMin ty)) flagSat ∧ intVal ty (satInt ty i).bits = intMin ty) ∧
    (intMax ty < i → satInt ty i = Res.mk' (intBits ty (intMax ty)) flagSat ∧ intVal ty (satInt ty i).bits = intMax ty) := by
  have hle := intMin_le_intMax ty
  refine ⟨fun h1 h2 => ?_, fun h => ?_, fun h => ?_⟩
  · rw [satInt, if_neg (not_lt.mpr h1), if_neg (not_lt.mpr h2)]
    exact ⟨rfl, intVal_intBits h1 h2⟩
  · rw [satInt, if_pos h]
    exact ⟨rfl, intVal_intBits le_rfl hle⟩
  · rw [satInt, if_neg (by omega), if_pos h]
    exact ⟨rfl, intVal_intBits hle le_rfl⟩

end Sys2Proof.Proofs
end

section
/-!
The statement on rounding, part by part (R28 to R41, R172).
-/

namespace Sys2Proof.Proofs

open Sys2Proof Sys2Proof.Machine Sys2Proof.Safety Sys2Proof.Laws

/-- A number rounds to itself in every mode. -/
theorem rounds_self {rm : Nat} {S : ℚ → Prop} {x : ℚ} (hx : S x) (even : Prop) : Rounds rm S x x even := by
  have hz : mag (x - x) = 0 := by simp [mag]
  have hpos (y : ℚ) : 0 ≤ mag y := by unfold mag; split <;> linarith
  refine ⟨hx, fun v _ => ⟨fun _ => by rw [hz]; exact hpos _, fun hne ht => absurd ?_ hne, fun _ => ⟨le_rfl, mul_self_nonneg x, fun h => h⟩,
    fun _ => ⟨le_rfl, fun h => h⟩, fun _ => ⟨le_rfl, fun h => h⟩⟩⟩
  rw [hz] at ht
  unfold mag at ht
  split at ht <;> linarith

/-- The exponent that the model replaces for a small number does not change how it rounds. -/
theorem fpToInt_eq (rm : Nat) (neg : Bool) {m : Nat} (hm : m ≠ 0) (e : Int) :
    fpToInt rm neg m e = (if neg then -((roundTo rm neg m e false 0).1 : Int) else (roundTo rm neg m e false 0).1,
      (roundTo rm neg m e false 0).2) := by
  unfold fpToInt
  by_cases hsmall : e + bitLen m < -2
  · simp only [if_pos hsmall, roundTo_tiny rm neg hm (show -(2 + bitLen m : Int) + bitLen m < 0 by omega),
      roundTo_tiny rm neg hm (show e + bitLen m < 0 by omega)]
  · simp only [if_neg hsmall]

theorem fpToInt_zero (rm : Nat) (neg : Bool) (e : Int) : fpToInt rm neg 0 e = (0, false) := by
  have h (d : Int) : roundTo rm neg 0 d false 0 = (0, false) := by
    unfold roundTo
    split
    · simp
    · have : ¬ (0 = 2 ^ ((0 - d).toNat - 1)) := (Nat.two_pow_pos _).ne
      simp only [Nat.zero_div, Nat.zero_mod, this]
      unfold roundUp
      split <;> simp
  simp only [fpToInt, h]
  cases neg <;> rfl

/-- A floating-point number becomes the integer that the mode picks, inexact just when it is another number (R41). -/
theorem fpToInt_rounds {rm : Nat} (hrm : rm ≤ 4) (neg : Bool) (m : Nat) (e : Int) :
    let r := fpToInt rm neg m e
    Rounds rm (fun v => ∃ j : Int, v = (j : ℚ)) (num neg m e) (r.1 : ℚ) (r.1 % 2 = 0) ∧ (r.2 = true ↔ (r.1 : ℚ) ≠ num neg m e) := by
  intro r
  by_cases hm : m = 0
  · have hr : r = (0, false) := by simp only [r, hm, fpToInt_zero]
    have hn : num neg m e = ((0 : Int) : ℚ) := by rw [(num_eq_zero_iff neg m e).mpr hm]; rfl
    rw [hr, hn]
    exact ⟨rounds_self ⟨0, rfl⟩ _, by simp⟩
  · have ha := approximates_exact m e
    obtain ⟨hk, hinx⟩ := roundTo_rounds hrm neg ha (q := 0) fun _ => rfl
    have hr : r = _ := fpToInt_eq rm neg hm e
    generalize roundTo rm neg m e false 0 = p at hk hinx hr
    have hX : 0 < (m : ℝ) * 2 ^ e := approximates_pos ha hm
    have hi : ((r.1 : ℚ) : ℝ) = sgn neg * p.1 := by
      rw [hr]
      cases neg <;> simp [sgn]
    have heven : r.1 % 2 = 0 ↔ p.1 % 2 = 0 := by
      rw [hr]
      cases neg
      · simp only [Bool.false_eq_true, if_false]; omega
      · simp only [if_true]; omega
    refine ⟨rounds_of_picks hX (R := p.1) (Nat.cast_nonneg _) (num_cast _ _ _) hi ⟨r.1, rfl⟩ ?_, ?_⟩
    · rintro v ⟨j, rfl⟩ w hw
      have hj : ∃ i : Int, w = i * 2 ^ (0 : Int) := by
        rcases abs_eq_abs.mp hw with c | c
        · exact ⟨j, by simp [c]⟩
        · exact ⟨-j, by simp [c]⟩
      obtain ⟨i, hwi⟩ := hj
      have := picks_multiple hk i hwi
      rw [zpow_zero, mul_one] at this
      simpa only [heven] using this
    · rw [show r.2 = p.2 by rw [hr], hinx, ← (Rat.cast_injective (α := ℝ)).ne_iff, hi, num_cast, zpow_zero, div_one, not_iff_not]
      exact ⟨fun c => by rw [c], fun c => by
        have := sgn_mul_cancel c
        rwa [← mul_assoc, sgn_mul_self, one_mul] at this⟩

/-- A conversion to an integer type: the rounded integer, or the nearer edge of the type (R39, R41). -/
theorem fpToIntTy_rounds {rm : Nat} (hrm : rm ≤ 4) {src x : Nat} {n : Bool} {m : Nat} {e : Int}
    (hx : unpack (fmtOf src) x = .num n m e) {dst : Nat} (hd : dst < 8) :
    let z := fpToIntTy src dst rm x
    ∃ i : Int, Rounds rm (fun v => ∃ j : Int, v = (j : ℚ)) (num n m e) (i : ℚ) (i % 2 = 0) ∧
      (intMin dst ≤ i → i ≤ intMax dst → intVal dst z.bits = i ∧ z.flags = if (i : ℚ) = num n m e then 0 else flagInx) ∧
      (i < intMin dst → intVal dst z.bits = intMin dst ∧ z.flags = flagSat ∧ z.exc = true) ∧
      (intMax dst < i → intVal dst z.bits = intMax dst ∧ z.flags = flagSat ∧ z.exc = true) := by
  intro z
  obtain ⟨hr, hinx⟩ := fpToInt_rounds hrm n m e
  have hz : z = (if (fpToInt rm n m e).2 && decide ((satInt dst (fpToInt rm n m e).1).flags = 0) then
      (satInt dst (fpToInt rm n m e).1).also flagInx false else satInt dst (fpToInt rm n m e).1) := by
    simp only [z, fpToIntTy, hx, if_neg (show dst ≠ 14 by omega)]
  generalize fpToInt rm n m e = r at *
  obtain ⟨hin, hlo, hhi⟩ := satInt_cases dst r.1
  have hsat : decide (flagSat = 0) = false := by decide
  refine ⟨r.1, hr, fun h1 h2 => ?_, fun h => ?_, fun h => ?_⟩
  · obtain ⟨he, hv⟩ := hin h1 h2
    rw [hz]
    by_cases hx : (r.1 : ℚ) = num n m e
    · have h0 : r.2 = false := by rw [← Bool.not_eq_true, hinx]; simpa using hx
      rw [if_pos hx, h0]
      exact ⟨hv, by rw [he]; rfl⟩
    · have h1 : r.2 = true := hinx.mpr hx
      have h0 : (satInt dst r.1).flags = 0 := by rw [he]; rfl
      rw [if_neg hx, h1, h0]
      exact ⟨hv, by rw [he]; simp [Res.also, Res.plain]⟩
  · obtain ⟨he, hv⟩ := hlo h
    have h0 : (satInt dst r.1).flags = flagSat := by rw [he]; rfl
    rw [hz, h0, hsat, Bool.and_false]
    exact ⟨hv, h0, by rw [he]; rfl⟩
  · obtain ⟨he, hv⟩ := hhi h
    have h0 : (satInt dst r.1).flags = flagSat := by rw [he]; rfl
    rw [hz, h0, hsat, Bool.and_false]
    exact ⟨hv, h0, by rw [he]; rfl⟩

/-- A number of the format that is not zero is rounded among the format's numbers, or overflows (R32, R37, R40). -/
theorem roundFp_range {f : Fmt} (hf : Wide f) (ov : Over) {rm : Nat} (hrm : rm ≤ 4) (n : Bool) {m : Nat} (hm : m ≠ 0) (e : Int) :
    let z := roundFp f ov rm n m e false
    (InRange f (num n m e) → RoundedTo f rm (num n m e) z ∧ z.bits.testBit f.signPos = n) ∧
    ((∀ v, FinVal f v → 2 * v < mag (num n m e)) → z = overflow f ov rm n) := by
  obtain ⟨k, q, h⟩ := roundFp_rounds hf ov hrm n hm (approximates_exact m e) (by simp)
  have hX := approximates_pos (approximates_exact m e) hm
  exact ⟨fun hr => roundsFp_roundedTo hf h (inRange_not_tooLarge hf hrm h hX (num_cast _ _ _) hr) hX (num_cast _ _ _),
    fun ho => h.large (overflows_tooLarge hf hrm h hX (num_cast _ _ _) ho)⟩

theorem overflow_eq (f : Fmt) (ov : Over) {rm : Nat} (hrm : rm ≤ 4) (n : Bool) :
    (overflow f ov rm n).flags = (match ov with | .convert => flagSat ||| flagInx | .arith => flagOvf ||| flagInx) ∧
    (overflow f ov rm n).exc = true ∧
    (overflow f ov rm n).bits =
      if ov = .arith ∧ (rm = 0 ∨ rm = 4 ∨ (rm = 2 ∧ n = true) ∨ (rm = 3 ∧ n = false)) then f.inf n else f.maxFin n := by
  cases ov with
  | convert => exact ⟨rfl, rfl, by simp [overflow, Res.mk']⟩
  | arith =>
    obtain ⟨h1, h2, h3⟩ := overflow_arith f hrm n
    exact ⟨h1, h2, by simpa using h3⟩

/-- An order between a number and a root is one between its square and the number under the root. -/
theorem square_order {X : ℝ} {c B : ℚ} (hX : 0 ≤ X) (hc : 0 < c) (h : X * X * c = B) {a : ℚ} (ha : 0 ≤ a) :
    ((a : ℝ) ≤ X ↔ a * a * c ≤ B) ∧ (X ≤ a ↔ B ≤ a * a * c) ∧ ((a : ℝ) ≠ X ↔ a * a * c ≠ B) := by
  have hc' : (0 : ℝ) < c := by exact_mod_cast hc
  have ha' : (0 : ℝ) ≤ a := by exact_mod_cast ha
  have h1 : (a : ℝ) ≤ X ↔ a * a * c ≤ B := by
    rw [← Rat.cast_le (K := ℝ), mul_self_le_mul_self_iff ha' hX, ← h]
    push_cast
    exact (mul_le_mul_iff_left₀ hc').symm
  have h2 : X ≤ (a : ℝ) ↔ B ≤ a * a * c := by
    rw [← Rat.cast_le (K := ℝ), mul_self_le_mul_self_iff hX ha', ← h]
    push_cast
    exact (mul_le_mul_iff_left₀ hc').symm
  exact ⟨h1, h2, by rw [ne_eq, ne_eq, le_antisymm_iff, le_antisymm_iff, h1, h2]⟩

/-- What the statements say of a root: its order with the format's numbers by their squares. -/
theorem root_order {f : Fmt} (hf : Wide f) {ov : Over} {rm : Nat} {X : ℝ} {z : Res} {k : Nat} {q : Int}
    (h : RoundsFp f ov rm false X z k q) (hl : ¬ TooLarge f k q) {c B : ℚ} (hX : 0 ≤ X) (hc : 0 < c) (hXB : X * X * c = B) :
    ∃ k e, unpack f z.bits = .num false k e ∧
      let R := num false k e
      (z.flags &&& flagInx ≠ 0 ↔ R * R * c ≠ B) ∧
      ∀ v, FinVal f v → 0 ≤ v →
        (rm = 1 ∨ rm = 2 → R * R * c ≤ B ∧ (v * v * c ≤ B → v ≤ R)) ∧
        (rm = 3 → B ≤ R * R * c ∧ (B ≤ v * v * c → R ≤ v)) ∧
        (rm = 0 ∨ rm = 4 → (R < v → 4 * B ≤ (R + v) * (R + v) * c) ∧ (v < R → (R + v) * (R + v) * c ≤ 4 * B)) := by
  obtain ⟨R, rfl, hu, hR, hinx, hv⟩ := roundsFp_order hf h hl
  obtain ⟨o1, o2, o3⟩ := square_order hX hc hXB hR
  refine ⟨k, q, hu, hinx.trans o3, fun v hfv hv0 => ?_⟩
  obtain ⟨h1, h2, h3⟩ := hv v hfv hv0
  obtain ⟨v1, v2, -⟩ := square_order hX hc hXB hv0
  obtain ⟨m1, m2, -⟩ := square_order hX hc hXB (show 0 ≤ (num false k q + v) / 2 by linarith)
  have hmid : (((num false k q + v) / 2 : ℚ) : ℝ) = (((num false k q : ℚ) : ℝ) + v) / 2 := by push_cast; rfl
  have hsq (S : ℚ) : S / 2 * (S / 2) * c = S * S * c / 4 := by ring
  rw [hmid, hsq] at m1 m2
  refine ⟨fun c => ⟨o1.mp (h1 c).1, fun d => (h1 c).2 (v1.mpr d)⟩, fun c => ⟨o2.mp (h2 c).1, fun d => (h2 c).2 (v2.mpr d)⟩,
    fun c => ⟨fun d => ?_, fun d => ?_⟩⟩
  · have := m2.mp ((h3 c).1 d)
    linarith
  · have := m1.mp ((h3 c).2 d)
    linarith

theorem root_inRange {ty : Nat} {ov : Over} {rm : Nat} (hrm : rm ≤ 4) {X : ℝ} {z : Res} {k : Nat} {q : Int}
    (h : RoundsFp (fmtOf ty) ov rm false X z k q) (hX : X ≤ (fmtOf ty).kmax * 2 ^ (fmtOf ty).qmax) : ¬ TooLarge (fmtOf ty) k q := by
  have hf := wide_fmtOf ty
  refine roundsFp_inRange hf hrm h (finVal_num hf false (stored_max hf) (not_tooLarge_max _)) ?_
  rwa [num_cast, sgn, if_neg (by simp), one_mul]

section
variable {ty rm : Nat} (hrm : rm ≤ 4) {m : Nat} {e : Int} (hs : Stored (fmtOf ty) m e) (hl : ¬ TooLarge (fmtOf ty) m e) (hm : m ≠ 0)
include hrm hs hl hm

/-- The square root of a positive number of the format (R35). -/
theorem sqrtVal_order : ∃ k q, unpack (fmtOf ty) (sqrtVal (fmtOf ty) rm (.num false m e)).bits = .num false k q ∧
    let R := num false k q
    let A := num false m e
    ((sqrtVal (fmtOf ty) rm (.num false m e)).flags &&& flagInx ≠ 0 ↔ R * R ≠ A) ∧
    ∀ v, FinVal (fmtOf ty) v → 0 ≤ v →
      (rm = 1 ∨ rm = 2 → R * R ≤ A ∧ (v * v ≤ A → v ≤ R)) ∧ (rm = 3 → A ≤ R * R ∧ (A ≤ v * v → R ≤ v)) ∧
      (rm = 0 ∨ rm = 4 → (R < v → 4 * A ≤ (R + v) * (R + v)) ∧ (v < R → (R + v) * (R + v) ≤ 4 * A)) := by
  have hf := wide_fmtOf ty
  obtain ⟨k, q, h⟩ := sqrtVal_rounds hf hrm hm e
  obtain ⟨hmax, -⟩ := largest_bounds ty
  have hA : (0 : ℝ) < m * 2 ^ e := approximates_pos (approximates_exact m e) hm
  have hle : √((m : ℝ) * 2 ^ e) ≤ (fmtOf ty).kmax * 2 ^ (fmtOf ty).qmax := by
    rw [tooLarge_iff hf hs, not_lt] at hl
    rw [Real.sqrt_le_left (by linarith), sq]
    exact hl.trans (le_mul_of_one_le_left (by linarith) hmax)
  have := root_order hf h (root_inRange hrm h hle) (c := 1) (B := num false m e) (Real.sqrt_nonneg _) one_pos
    (by rw [num_cast, sgn, if_neg (by simp), one_mul, Rat.cast_one, mul_one, Real.mul_self_sqrt hA.le])
  simpa only [mul_one] using this

omit hl in
/-- The reciprocal of the square root of a positive number of the format (R35). -/
theorem rsqrtVal_order : ∃ k q, unpack (fmtOf ty) (rsqrtVal (fmtOf ty) rm (.num false m e)).bits = .num false k q ∧
    let R := num false k q
    let A := num false m e
    ((rsqrtVal (fmtOf ty) rm (.num false m e)).flags &&& flagInx ≠ 0 ↔ R * R * A ≠ 1) ∧
    ∀ v, FinVal (fmtOf ty) v → 0 ≤ v →
      (rm = 1 ∨ rm = 2 → R * R * A ≤ 1 ∧ (v * v * A ≤ 1 → v ≤ R)) ∧ (rm = 3 → 1 ≤ R * R * A ∧ (1 ≤ v * v * A → R ≤ v)) ∧
      (rm = 0 ∨ rm = 4 → (R < v → 4 ≤ (R + v) * (R + v) * A) ∧ (v < R → (R + v) * (R + v) * A ≤ 4)) := by
  have hf := wide_fmtOf ty
  obtain ⟨k, q, h⟩ := rsqrtVal_rounds hf hrm hm e
  obtain ⟨hmax, hsq⟩ := largest_bounds ty
  have hA : (0 : ℝ) < m * 2 ^ e := approximates_pos (approximates_exact m e) hm
  have hroot : 0 < √((m : ℝ) * 2 ^ e) := Real.sqrt_pos.mpr hA
  have hlow : (2 : ℝ) ^ (fmtOf ty).qmin ≤ m * 2 ^ e := by
    calc (2 : ℝ) ^ (fmtOf ty).qmin ≤ 2 ^ e := zpow_le_zpow_right₀ (by norm_num) (stored_qmin_le hs)
      _ ≤ m * 2 ^ e := le_mul_of_one_le_left (two_zpow_pos e).le (by exact_mod_cast Nat.one_le_iff_ne_zero.mpr hm)
  have hle : 1 / √((m : ℝ) * 2 ^ e) ≤ (fmtOf ty).kmax * 2 ^ (fmtOf ty).qmax := by
    rw [← Real.sqrt_one, ← Real.sqrt_div (by norm_num), Real.sqrt_le_left (by linarith), sq]
    refine le_trans ?_ hsq
    rw [zpow_neg, ← one_div]
    exact one_div_le_one_div_of_le (two_zpow_pos _) hlow
  have hone : (((num false m e : ℚ)) : ℝ) = m * 2 ^ e := by rw [num_cast, sgn, if_neg (by simp), one_mul]
  have := root_order hf h (root_inRange hrm h hle) (c := num false m e) (B := 1) (by positivity)
    ((num_pos_iff _ _ _).mpr ⟨rfl, hm⟩) (by
      rw [hone, div_mul_div_comm, one_mul, Real.mul_self_sqrt hA.le, one_div, inv_mul_cancel₀ hA.ne', Rat.cast_one])
  simpa only [mul_one] using this

end

/-- Raising to the denominator compares a number with a power of two (R172). -/
theorem below_iff {n : Bool} {m : Nat} {e : Int} (he : e ≤ 0) {v : ℚ} (hv : 0 ≤ v) :
    v ^ 2 ^ (-e).toNat < (2 : ℚ) ^ (if n then -(m : Int) else m) ↔ (v : ℝ) < (2 : ℝ) ^ ((num n m e : ℚ) : ℝ) := by
  have hX : (0 : ℝ) ≤ (2 : ℝ) ^ ((num n m e : ℚ) : ℝ) := by positivity
  have hpow : ((2 : ℝ) ^ ((num n m e : ℚ) : ℝ)) ^ 2 ^ (-e).toNat = (2 : ℝ) ^ (if n then -(m : Int) else m) := by
    rw [← Real.rpow_mul_natCast (by norm_num), num_cast_div n m he, ← rpow_intCast_zpow]
    congr 1
    push_cast
    rw [div_mul_cancel₀ _ (by positivity)]
    cases n <;> simp
  rw [← Rat.cast_lt (K := ℝ)]
  push_cast
  rw [← hpow, pow_lt_pow_iff_left₀ (by exact_mod_cast hv) hX (Nat.two_pow_pos _).ne']

/-- A power of two to a fraction is no rational number. -/
theorem rpow_num_ne {n : Bool} {m : Nat} {e : Int} (hfrac : ∀ i : Int, num n m e ≠ (i : ℚ)) (k : Nat) (q : Int) :
    (k : ℝ) * 2 ^ q ≠ (2 : ℝ) ^ ((num n m e : ℚ) : ℝ) := by
  intro h
  have he : e < 0 := by
    by_contra c
    refine hfrac ((if n then -1 else 1) * (m * 2 ^ e.toNat)) ?_
    rw [← Rat.cast_inj (α := ℝ), num_cast, show (2 : ℝ) ^ e = 2 ^ e.toNat by rw [← zpow_natCast, Int.toNat_of_nonneg (by omega)]]
    cases n <;> simp [sgn]
  obtain ⟨d, hd⟩ : ∃ d, (-e).toNat = d := ⟨_, rfl⟩
  obtain ⟨a, ha⟩ : ∃ a : Int, (if n then -1 else 1) * (m : Int) = a := ⟨_, rfl⟩
  have hnum := num_cast_div n m he.le
  rw [ha, hd] at hnum
  have hd0 : (0 : Int) < 2 ^ d := by positivity
  obtain ⟨fr, hfr⟩ : ∃ fr : Nat, (fr : Int) = a % 2 ^ d := ⟨(a % 2 ^ d).toNat, Int.toNat_of_nonneg (Int.emod_nonneg _ hd0.ne')⟩
  have hlt : fr < 2 ^ d := by
    have := Int.emod_lt_of_pos a hd0
    have hc : ((2 ^ d : Nat) : Int) = 2 ^ d := by push_cast; rfl
    omega
  have hsplit : (a : ℝ) = (a / 2 ^ d : Int) * 2 ^ d + fr := by
    have := Int.mul_ediv_add_emod a (2 ^ d)
    rw [← hfr, mul_comm] at this
    exact_mod_cast this.symm
  have h0 : fr ≠ 0 := by
    rintro rfl
    refine hfrac (a / 2 ^ d) ?_
    rw [← Rat.cast_inj (α := ℝ), hnum, hsplit]
    push_cast
    field_simp
    ring
  have hX : (2 : ℝ) ^ ((num n m e : ℚ) : ℝ) = 2 ^ (a / 2 ^ d) * (2 : ℝ) ^ ((fr : ℝ) / 2 ^ d) := by
    rw [hnum, hsplit, add_div, mul_div_cancel_right₀ _ (by positivity), Real.rpow_add (by norm_num), rpow_intCast_zpow]
  -- with enough fraction bits, k * 2^q over the whole part is an integer of them
  obtain ⟨w, hw⟩ : ∃ w : Nat, 0 ≤ (w : Int) + q - a / 2 ^ d := ⟨(a / 2 ^ d - q).toNat, by omega⟩
  refine rpow_fraction_ne (w := w) (g := k * 2 ^ ((w : Int) + q - a / 2 ^ d).toNat) h0 hlt ?_
  have h2 : (2 : ℝ) ^ ((fr : ℝ) / 2 ^ d) = k * 2 ^ (q - a / 2 ^ d) := by
    rw [zpow_sub₀ (by norm_num), ← mul_div_assoc, eq_div_iff (two_zpow_pos _).ne', h, hX, mul_comm]
  rw [h2]
  push_cast
  rw [← zpow_natCast, ← zpow_natCast, Int.toNat_of_nonneg hw,
    show (w : Int) + q - a / 2 ^ d = w + (q - a / 2 ^ d) by ring, zpow_add₀ (by norm_num) (w : Int)]
  ring

theorem settles_of_gap {w n fr : Nat} (h : ∀ q : Nat, q ≤ 2 ^ (w + 1) →
      ¬ ((mkRat q (2 ^ w) - mkRat 1 (2 ^ (w + 40))) ^ 2 ^ n ≤ (2 : ℚ) ^ (fr : Int) ∧
        (2 : ℚ) ^ (fr : Int) ≤ (mkRat q (2 ^ w) + mkRat 1 (2 ^ (w + 40))) ^ 2 ^ n)) : SettlesAtOnce w n fr := by
  intro q hq1 hq2
  by_contra hc
  have hy : ((2 : ℝ) ^ ((fr : ℝ) / 2 ^ n)) ^ 2 ^ n = 2 ^ (fr : Int) := by
    rw [← Real.rpow_mul_natCast (by norm_num), ← rpow_intCast_zpow]
    congr 1
    push_cast
    rw [div_mul_cancel₀ _ (by positivity)]
  have hy0 : (0 : ℝ) ≤ (2 : ℝ) ^ ((fr : ℝ) / 2 ^ n) := by positivity
  generalize (2 : ℝ) ^ ((fr : ℝ) / 2 ^ n) = y at *
  rw [not_lt, abs_le] at hc
  have hgap : (1 : ℝ) / 2 ^ (w + 40) ≤ q / 2 ^ w := by
    rw [div_le_div_iff₀ (by positivity) (by positivity)]
    have h1 : (1 : ℝ) ≤ q := by exact_mod_cast hq1
    have h2 : (2 : ℝ) ^ w ≤ 2 ^ (w + 40) := pow_le_pow_right₀ (by norm_num) (by omega)
    nlinarith [(by positivity : (0 : ℝ) < 2 ^ w)]
  refine h q hq2 ⟨?_, ?_⟩
  · rw [← Rat.cast_le (K := ℝ)]
    push_cast
    rw [Rat.mkRat_eq_div, Rat.mkRat_eq_div, ← hy]
    push_cast
    exact pow_le_pow_left₀ (by linarith) (by linarith) _
  · rw [← Rat.cast_le (K := ℝ)]
    push_cast
    rw [Rat.mkRat_eq_div, Rat.mkRat_eq_div, ← hy]
    push_cast
    exact pow_le_pow_left₀ hy0 (by linarith) _

end Sys2Proof.Proofs
end

section
/-!
Powers of two as the statement compares them (R172, log 9), and the statement on rounding put together.
-/

namespace Sys2Proof.Proofs

open Sys2Proof Sys2Proof.Machine Sys2Proof.Safety Sys2Proof.Laws

section
variable {ty rm : Nat} (hrm : rm ≤ 4) {n : Bool} {m : Nat} {d : Int}
include hrm

/-- Two to an integer (R172). -/
theorem exp2Val_integer {i : Int} (hi : num n m d = (i : ℚ)) :
    RoundsCorrectly (fmtOf ty) rm ((2 : ℚ) ^ i) false (exp2Val (fmtOf ty) rm (.num n m d)) := by
  have hf := wide_fmtOf ty
  have hexact : d < 0 → ((if n then -1 else 1) * (m : Int) % ((2 ^ (-d).toNat : Nat) : Int)).toNat = 0 := by
    intro hd
    have h := num_cast_div n m hd.le
    rw [hi, eq_div_iff (by positivity)] at h
    have h' : (if n then -1 else 1) * (m : Int) = i * ((2 ^ (-d).toNat : Nat) : Int) := by
      refine Int.cast_injective (α := ℝ) (h.symm.trans ?_)
      push_cast
      rfl
    rw [h', Int.mul_emod_left]
    rfl
  obtain ⟨k, q, h⟩ := exp2Val_rounds ty hrm (n := n) (m := m) (e := d) fun hd => .inr (.inr fun h0 => absurd (hexact hd) h0)
  have hX : (2 : ℝ) ^ ((num n m d : ℚ) : ℝ) = 2 ^ i := by rw [hi, ← rpow_intCast_zpow]; push_cast; rfl
  rw [hX] at h
  exact roundsCorrectly_of_roundsFp hf hrm h (two_zpow_pos i) (by rw [sgn, if_neg (by simp), one_mul]; push_cast; rfl)

/-- Two to a power that is no integer, where the model's computation settles it at once (R172, log 9). -/
theorem exp2Val_order (hd : d < 0) (hfrac : ∀ i : Int, num n m d ≠ (i : ℚ))
    (hset : d + bitLen m ≤ -(((fmtOf ty).prec + 3 : Nat) + 1 : Int) ∨ 20 < d + bitLen m ∨
      SettlesAtOnce ((fmtOf ty).prec + 3) (-d).toNat ((if n then -1 else 1) * (m : Int) % ((2 ^ (-d).toNat : Nat) : Int)).toNat) :
    let a := exp2Val (fmtOf ty) rm (.num n m d)
    let below (v : ℚ) : Prop := v ^ 2 ^ (-d).toNat < (2 : ℚ) ^ (if n then -(m : Int) else m)
    ((∃ v, FinVal (fmtOf ty) v ∧ 0 ≤ v ∧ ¬ below v) → ∃ k e, unpack (fmtOf ty) a.bits = .num false k e ∧ a.flags &&& flagInx ≠ 0 ∧
      let R := num false k e
      ∀ v, FinVal (fmtOf ty) v → 0 ≤ v →
        (rm = 1 ∨ rm = 2 → below R ∧ (below v → v ≤ R)) ∧ (rm = 3 → ¬ below R ∧ (¬ below v → R ≤ v)) ∧
        (rm = 0 ∨ rm = 4 → (R < v → ¬ below ((R + v) / 2)) ∧ (v < R → below ((R + v) / 2)))) ∧
    ((∀ v, FinVal (fmtOf ty) v → 0 ≤ v → below (2 * v)) → Overflowed (fmtOf ty) rm false a) := by
  intro a below
  have hf := wide_fmtOf ty
  obtain ⟨k, q, h⟩ := exp2Val_rounds ty hrm (n := n) (m := m) (e := d) fun _ => by
    rcases hset with c | c | c
    · exact .inl c
    · exact .inr (.inl c)
    · exact .inr (.inr fun _ => c)
  have hbelow {v : ℚ} (hv : 0 ≤ v) : below v ↔ (v : ℝ) < (2 : ℝ) ^ ((num n m d : ℚ) : ℝ) := below_iff hd.le hv
  have hne := rpow_num_ne hfrac
  generalize (2 : ℝ) ^ ((num n m d : ℚ) : ℝ) = X at *
  refine ⟨?_, fun ho => ?_⟩
  · rintro ⟨v, hv, hv0, hnb⟩
    rw [hbelow hv0, not_lt] at hnb
    have hl := roundsFp_inRange hf hrm h hv hnb
    obtain ⟨R, rfl, hu, hR, hinx, hall⟩ := roundsFp_order hf h hl
    have hRne : ((num false k q : ℚ) : ℝ) ≠ X := by rw [num_cast, sgn, if_neg (by simp), one_mul]; exact hne k q
    refine ⟨k, q, hu, hinx.mpr hRne, fun u hu0 hu1 => ?_⟩
    obtain ⟨h1, h2, h3⟩ := hall u hu0 hu1
    have hmid : 0 ≤ (num false k q + u) / 2 := by linarith
    have hmidc : (((num false k q + u) / 2 : ℚ) : ℝ) = (((num false k q : ℚ) : ℝ) + u) / 2 := by push_cast; rfl
    have hmidne : (((num false k q : ℚ) : ℝ) + u) / 2 ≠ X := by
      -- the mean of two numbers of the format is a multiple of a power of two
      obtain ⟨n', j, p, -, -, rfl⟩ := finVal_parts hf hu0
      obtain ⟨s, hs, -⟩ := addNum_eq (fmtOf ty) .arith 0 false n' k j q p
      rw [← hmidc]
      push_cast at hs ⊢
      rw [hs]
      intro c
      refine hne s.natAbs (min q p - 1) ?_
      have hs0 : (0 : ℝ) ≤ s * 2 ^ min q p := by
        rw [← hs]
        exact_mod_cast add_nonneg hR hu1
      have hs1 : 0 ≤ s := by
        have := nonneg_of_mul_nonneg_left hs0 (two_zpow_pos _)
        exact_mod_cast this
      rw [← c, Nat.cast_natAbs, abs_of_nonneg hs1, zpow_sub₀ (by norm_num), zpow_one]
      ring
    refine ⟨fun c => ⟨?_, fun hb => ?_⟩, fun c => ⟨?_, fun hb => ?_⟩, fun c => ⟨fun hlt => ?_, fun hlt => ?_⟩⟩
    · exact (hbelow hR).mpr (lt_of_le_of_ne (h1 c).1 hRne)
    · exact (h1 c).2 ((hbelow hu1).mp hb).le
    · rw [hbelow hR, not_lt]
      exact (h2 c).1
    · rw [hbelow hu1, not_lt] at hb
      exact (h2 c).2 hb
    · rw [hbelow hmid, not_lt, hmidc]
      exact (h3 c).1 hlt
    · rw [hbelow hmid, hmidc]
      exact lt_of_le_of_ne ((h3 c).2 hlt) hmidne
  · have hzero (e : Int) : num false 0 e = 0 := (num_eq_zero_iff _ _ _).mpr rfl
    have hX : 0 < X := by
      have hl : ¬ TooLarge (fmtOf ty) 0 (fmtOf ty).qmin := by
        have := qmin_le_qmax hf
        simp only [TooLarge]
        omega
      have h0 := ho _ (finVal_num hf false (.inl ⟨Nat.two_pow_pos _, rfl⟩) hl) (hzero _).ge
      rw [hzero, mul_zero] at h0
      have := (hbelow le_rfl).mp h0
      simpa using this
    rw [show a = _ from h.large (roundsFp_overflows hf hrm h fun v hv => ?_)]
    · exact overflow_arith _ hrm false
    · rcases le_total 0 v with hv0 | hv0
      · have := (hbelow (show 0 ≤ 2 * v by linarith)).mp (ho v hv hv0)
        push_cast at this
        exact this
      · have : (v : ℝ) ≤ 0 := by exact_mod_cast hv0
        linarith

end

/-- Settles O20: every result of a format is the stored number that the mode picks, by one theorem on reals, and each operation rounds
its exact value, the roots and the powers of two to enough bits with a sticky one. -/
theorem roundingKeepsExactValues : Obligations.RoundingKeepsExactValues := by
  intro ty rm ov h8 h14 hrm f inRange overflows correct infinite
  have hf : Wide f := wide_fmtOf ty
  refine ⟨fun v n m e hv hu => roundFp_unpack hf ov hrm hv hu, fun n m e n' k q hu => roundFp_toward_zero hf ov hu,
    fun n m e hm => ?_, fun x y z n m d q k e s j c hx hy hz => ?_, fun i hi => ⟨rfl, ?_⟩, fun src x n m e _ _ hx => ⟨?_, fun dst hd => ?_⟩⟩
  · obtain ⟨h1, h2⟩ := roundFp_range hf ov hrm n hm e
    exact ⟨h1, fun ho => by rw [h2 ho]; exact overflow_eq f ov hrm n⟩
  · intro A B C exact' zero
    have hzeroA : A = 0 ↔ m = 0 := num_eq_zero_iff n m d
    have hzeroB : B = 0 ↔ k = 0 := num_eq_zero_iff q k e
    have hstored := unpack_num hf hx
    have hadd : fpOp .add ty rm x y z = addNum f .arith rm n m d q k e := addVal_num hx hy rm
    have hsub : fpOp .sub ty rm x y z = addNum f .arith rm n m d (!q) k e :=
      addVal_num hx (show negVal (unpack f y) = .num (!q) k e by rw [hy]; rfl) rm
    have hAB : A - B = num n m d + num (!q) k e := by rw [num_neg]; exact sub_eq_add_neg _ _
    have hfma : fpOp .fma ty rm x y z = addNum f .arith rm (n != q) (m * k) (d + e) s j c := fmaVal_num hx hy rm hz
    have hABC : A * B + C = num (n != q) (m * k) (d + e) + num s j c := by rw [num_mul]
    have hdiv : fpOp .div ty rm x y z = divVal f rm (.num n m d) (.num q k e) := by simp only [fpOp, ← hx, ← hy]; rfl
    have hrcp : fpOp .rcp ty rm x y z = divVal f rm (.num false 1 0) (.num n m d) := by simp only [fpOp, ← hx]; rfl
    have hsqrt : fpOp .sqrt ty rm x y z = sqrtVal f rm (.num n m d) := by simp only [fpOp, ← hx]; rfl
    have hrsqrt : fpOp .rsqrt ty rm x y z = rsqrtVal f rm (.num n m d) := by simp only [fpOp, ← hx]; rfl
    have hexp2 : fpOp .exp2 ty rm x y z = exp2Val f rm (.num n m d) := by simp only [fpOp, ← hx]; rfl
    have hone : num false 1 0 = 1 := by
      rw [← Rat.cast_inj (α := ℝ), num_cast]; simp [sgn]
    rw [hadd, hsub, hfma, hdiv, hrcp, hsqrt, hrsqrt, hexp2, hAB, hABC]
    refine ⟨(addNum_rounds f rm n q m k d e).1, (addNum_rounds f rm n q m k d e).2, (addNum_rounds f rm n (!q) m k d e).1,
      (addNum_rounds f rm n (!q) m k d e).2, (mulVal_rounds hx hy rm).1, (mulVal_rounds hx hy rm).2,
      (addNum_rounds f rm (n != q) s (m * k) j (d + e) c).1,
      fun h0 => ((addNum_rounds f rm (n != q) s (m * k) j (d + e) c).2 h0).trans (by congr 2; exact ite_congr rfl id fun _ => rfl),
      fun hA hB => divVal_rounds hf hrm (mt hzeroA.mpr hA) (mt hzeroB.mpr hB),
      fun hA hB => divVal_zero rfl rfl rm (hzeroA.mp hA) (mt hzeroB.mpr hB), fun hA => ?_, fun hA => ⟨?_, ?_⟩, fun hA => ?_,
      fun hA => ?_, fun hA => ?_, fun i hi => exp2Val_integer hrm hi, fun hd hfrac => ?_⟩
    · have h := divVal_rounds hf hrm (n := false) (q := n) (d := 0) (e := d) one_ne_zero (mt hzeroA.mpr hA)
      rw [hone, show (false != n) = n by cases n <;> rfl] at h
      exact h
    · rw [divVal_by_zero rfl rfl rm one_ne_zero (hzeroA.mp hA)]
      cases n <;> exact divZero_eq _
    · rw [rsqrtVal, if_pos (hzeroA.mp hA)]
      exact divZero_eq n
    · obtain ⟨rfl, hm⟩ := (num_neg_iff n m d).mp hA
      rw [rsqrtVal, if_neg hm, if_pos rfl]
      rfl
    · obtain ⟨rfl, hm⟩ := (num_pos_iff n m d).mp hA
      exact sqrtVal_order hrm hstored.1 hstored.2.1 hm
    · obtain ⟨rfl, hm⟩ := (num_pos_iff n m d).mp hA
      exact rsqrtVal_order hrm hstored.1 hm
    · intro a den p w below near gap hcase
      refine exp2Val_order hrm hd hfrac ?_
      rcases hcase with c | c | c
      · exact .inl c
      · exact .inr (.inl c)
      · refine .inr (.inr (settles_of_gap fun q hq => ?_))
        have hp : p = (if n then -1 else 1) * (m : Int) := by cases n <;> simp [p]
        have hden : (den : Int) = ((2 ^ (-d).toNat : Nat) : Int) := rfl
        have h0 : (0 : Int) ≤ p % (den : Int) := Int.emod_nonneg _ (by rw [hden]; exact_mod_cast (Nat.two_pow_pos _).ne')
        have hfr : ((((if n then -1 else 1) * (m : Int) % ((2 ^ (-d).toNat : Nat) : Int)).toNat : Nat) : Int) = p % (den : Int) := by
          rw [← hp, ← hden, Int.toNat_of_nonneg h0]
        rw [hfr]
        exact c q hq
  · rw [← Rat.cast_inj (α := ℝ), num_signed]
    push_cast
    rw [zpow_zero, mul_one]
  · simp only [fpToFp, hx]
    rfl
  · intro b lo hi z
    have hlo : lo = intMin dst := (intMin_eq hd).symm
    have hhi : hi = intMax dst := (intMax_eq hd).symm
    rw [hlo, hhi]
    exact fpToIntTy_rounds hrm hx hd

end Sys2Proof.Proofs
end

section
/-!
NaN, infinity and zero operands (R31, R35, R36), and the addition of a zero.
-/

namespace Sys2Proof.Proofs

open Sys2Proof Sys2Proof.Machine Sys2Proof.Safety Sys2Proof.Laws

/-- A NaN among the operands decides the result (R31, R36). -/
theorem nanOf_pair {f : Fmt} {a b : FVal} (h : NaN a ∨ NaN b) :
    ∃ r, nanOf f [a, b] = some r ∧ r.bits = f.nan ∧ r.flags = if a = .nan true ∨ b = .nan true then flagInv else 0 := by
  by_cases hs : a = .nan true ∨ b = .nan true
  · refine ⟨invalid f, ?_, rfl, by rw [if_pos hs]; rfl⟩
    simpa [nanOf] using fun h1 h2 => absurd hs (by simp [h1, h2])
  · rw [if_neg hs]
    rw [not_or] at hs
    refine ⟨Res.plain f.nan, ?_, rfl, rfl⟩
    have hq : a = .nan false ∨ b = .nan false := h.imp (fun c => c.resolve_left hs.1) (fun c => c.resolve_left hs.2)
    simpa [nanOf, hs.1, hs.2] using or_iff_not_imp_left.mp hq

theorem negVal_nan (v : FVal) (s : Bool) : negVal v = .nan s ↔ v = .nan s := by cases v <;> simp [negVal]

/-- A sum, difference, product or quotient with a NaN operand (R36). -/
theorem fpOp_nan {o : FpOp} (ho : o ∈ [FpOp.add, .sub, .mul, .div]) (ty rm x y z : Nat)
    (h : NaN (unpack (fmtOf ty) x) ∨ NaN (unpack (fmtOf ty) y)) :
    (fpOp o ty rm x y z).bits = (fmtOf ty).nan ∧
    (fpOp o ty rm x y z).flags =
      if unpack (fmtOf ty) x = .nan true ∨ unpack (fmtOf ty) y = .nan true then flagInv else 0 := by
  obtain ⟨r, hr, hb, hf⟩ := nanOf_pair (f := fmtOf ty) h
  have h' : NaN (unpack (fmtOf ty) x) ∨ NaN (negVal (unpack (fmtOf ty) y)) := by simpa only [NaN, negVal_nan] using h
  obtain ⟨r', hr', hb', hf'⟩ := nanOf_pair (f := fmtOf ty) h'
  simp only [negVal_nan] at hf'
  simp only [List.mem_cons, List.not_mem_nil, or_false] at ho
  rcases ho with rfl | rfl | rfl | rfl
  · simp only [fpOp, addVal, hr]; exact ⟨hb, hf⟩
  · simp only [fpOp, addVal, hr']; exact ⟨hb', hf'⟩
  · simp only [fpOp, mulVal, hr]; exact ⟨hb, hf⟩
  · simp only [fpOp, divVal, hr]; exact ⟨hb, hf⟩

theorem sqrtVal_nan (f : Fmt) (rm : Nat) {a : FVal} (h : NaN a) :
    (sqrtVal f rm a).bits = f.nan ∧ (sqrtVal f rm a).flags = if a = .nan true then flagInv else 0 := by
  rcases h with rfl | rfl
  · exact ⟨rfl, rfl⟩
  · exact ⟨rfl, rfl⟩

section
variable (f : Fmt) (rm : Nat) (n : Bool)

/-- Infinity minus infinity, and infinity by infinity, are invalid (R36). -/
theorem infinities_invalid (q : Bool) :
    addVal f rm (.inf n) (.inf (!n)) = invalid f ∧ divVal f rm (.inf n) (.inf q) = invalid f := by
  cases n <;> exact ⟨rfl, rfl⟩

/-- Zero times infinity is invalid, whatever is added (R36). -/
theorem zero_times_infinity (q : Bool) (e : Int) (c : FVal) :
    mulVal f .arith rm (.inf n) (.num q 0 e) = invalid f ∧ mulVal f .arith rm (.num q 0 e) (.inf n) = invalid f ∧
    fmaVal f rm (.inf n) (.num q 0 e) c = invalid f ∧ fmaVal f rm (.num q 0 e) (.inf n) c = invalid f := ⟨rfl, rfl, rfl, rfl⟩

end

/-- A finite number over a zero, in the words of the statement (R36). -/
theorem divZero_statement {ty : Nat} (n q : Bool) :
    divZero (fmtOf ty) (n != q) =
      if ty = 8 then { bits := if n = q then 0x7E else 0xFE, flags := flagDz ||| flagSat, exc := true }
      else { bits := (fmtOf ty).sign (n != q) + (2 ^ (fmtOf ty).ebits - 1) * 2 ^ (fmtOf ty).fbits, flags := flagDz, exc := true } := by
  rw [divZero_eq]
  by_cases h8 : ty = 8
  · subst h8
    cases n <;> cases q <;> rfl
  · have hi : (fmtOf ty).hasInf = true := by unfold fmtOf; rw [if_neg h8]; split_ifs <;> rfl
    rw [if_neg h8, if_neg h8, if_neg h8, Fmt.inf, hi, if_pos rfl]

/-- Only the value of an exact number counts for its rounding (R32). -/
theorem roundFp_value {f : Fmt} (hf : Wide f) (ov : Over) {rm : Nat} (hrm : rm ≤ 4) (n : Bool) {m k : Nat} {e q : Int} (hk : k ≠ 0)
    (hs : Stored f m e) (hl : ¬ TooLarge f m e) (h : (k : ℝ) * 2 ^ q = m * 2 ^ e) :
    roundFp f ov rm n k q false = Res.plain (packNum f n m e) := by
  have ha : Approximates k q false (m * 2 ^ e) := h ▸ approximates_exact k q
  obtain ⟨j, p, hr⟩ := roundFp_rounds hf ov hrm n hk ha (by simp)
  have hp := hr.picks _ ⟨m, e, hs, abs_of_nonneg (mul_nonneg (Nat.cast_nonneg m) (two_zpow_pos e).le)⟩
  have hv := le_antisymm (picks_le hrm hp le_rfl) (picks_ge hrm hp le_rfl)
  obtain ⟨rfl, rfl⟩ := stored_unique hr.stored hs hv
  exact hr.exact hl hv

/-- A number plus -0 is the number, but for +0 rounded down (R35). -/
theorem addNum_negZero {f : Fmt} (hf : Wide f) {rm : Nat} (hrm : rm ≤ 4) {n : Bool} {m : Nat} {e : Int} (hs : Stored f m e)
    (hl : ¬ TooLarge f m e) (hz : n = false → m = 0 → rm ≠ 2) :
    addNum f .arith rm n m e true 0 f.qmin = Res.plain (packNum f n m e) := by
  obtain ⟨s, hsum, heq⟩ := addNum_eq f .arith rm n true m 0 e f.qmin
  rw [heq]
  have hsum' : (s : ℝ) * 2 ^ min e f.qmin = sgn n * (m * 2 ^ e) := by
    rw [← hsum, (num_eq_zero_iff true 0 f.qmin).mpr rfl, add_zero, num_cast]
  have he := two_zpow_pos e
  have hmin := two_zpow_pos (min e f.qmin)
  by_cases hm : m = 0
  · subst hm
    have h0 : s = 0 := by
      rw [Nat.cast_zero, zero_mul, mul_zero, mul_eq_zero, or_iff_left hmin.ne'] at hsum'
      exact_mod_cast hsum'
    rw [if_pos h0, packNum_subnormal n e (Nat.two_pow_pos _), pattern]
    cases n
    · simp [hz rfl rfl]
    · simp
  · have hm' : (0 : ℝ) < m := by exact_mod_cast Nat.pos_of_ne_zero hm
    have hneg : decide (s < 0) = n := by
      cases n
      · rw [sgn, if_neg (by simp), one_mul] at hsum'
        have : 0 < (s : ℝ) := pos_of_mul_pos_left (by rw [hsum']; positivity) hmin.le
        have : 0 < s := by exact_mod_cast this
        simp; omega
      · rw [sgn, if_pos rfl] at hsum'
        have : (s : ℝ) < 0 := by
          by_contra c
          have h1 := mul_nonneg (not_lt.mp c) hmin.le
          rw [hsum'] at h1
          linarith [mul_pos hm' he]
        simpa using (by exact_mod_cast this : s < 0)
    have habs : ((s.natAbs : Nat) : ℝ) * 2 ^ min e f.qmin = m * 2 ^ e := by
      have := congrArg abs hsum'
      rw [abs_mul, abs_mul, abs_sgn, one_mul, abs_of_pos hmin, abs_of_pos (mul_pos hm' he)] at this
      rw [← this, Nat.cast_natAbs, Int.cast_abs]
    have hs0 : s.natAbs ≠ 0 := by
      intro c
      rw [c, Nat.cast_zero, zero_mul] at habs
      exact (mul_pos hm' he).ne habs
    rw [if_neg (Int.natAbs_ne_zero.mp hs0), hneg]
    exact roundFp_value hf .arith hrm n hs0 hs hl habs

/-- Settles O19: each special operand is a case of its operation, and x + (-0) is the exact value of x rounded. -/
theorem floatingPointCornerCases : Obligations.FloatingPointCornerCases := by
  intro ty rm x y z h8 h14 hrm f a b bad isNan
  have hf : Wide f := wide_fmtOf ty
  refine ⟨fun o ho h => fpOp_nan ho ty rm x y z h, fun h => sqrtVal_nan f rm h, fun n ha hb => ?_, fun n ha hb => ?_, fun n q e ha hb => ?_,
    fun n q d e ha hb => ?_, fun m e ha hm => ?_, fun n m d q e ha hm hb => ?_, fun n m e ha hx hy hz => ?_⟩
  · simp only [fpOp, show unpack (fmtOf ty) x = .inf n from ha, show unpack (fmtOf ty) y = .inf n from hb]
    exact infinities_invalid f rm n n
  · simp only [fpOp, show unpack (fmtOf ty) x = .inf n from ha, show unpack (fmtOf ty) y = .inf (!n) from hb]
    exact infinities_invalid f rm n (!n)
  · simp only [fpOp, show unpack (fmtOf ty) x = .inf n from ha, show unpack (fmtOf ty) y = .num q 0 e from hb]
    exact zero_times_infinity f rm n q e _
  · simp only [fpOp, show unpack (fmtOf ty) x = .num n 0 d from ha, show unpack (fmtOf ty) y = .num q 0 e from hb]
    rfl
  · simp only [fpOp, show unpack (fmtOf ty) x = .num true m e from ha, sqrtVal, if_neg hm]
    rfl
  · rw [show fpOp .div ty rm x y z = divVal f rm a b from rfl, divVal_by_zero ha hb rm hm rfl]
    exact divZero_statement n q
  · obtain ⟨hs, hl, hsign, -⟩ := unpack_num hf ha
    have hb : unpack f y = .num true 0 f.qmin := by rw [hy, unpack_negZero hf]
    have hzero : n = false → m = 0 → rm ≠ 2 := by
      rintro rfl rfl
      refine hz ?_
      rw [← packNum_unpack hf hx ha, packNum_subnormal _ _ (Nat.two_pow_pos _)]
      simp [pattern, Fmt.sign]
    have hr : fpOp .add ty rm x y z = Res.plain x := by
      rw [show fpOp .add ty rm x y z = addVal f rm a b from rfl, addVal_num ha hb, addNum_negZero hf hrm hs hl hzero,
        packNum_unpack hf hx ha]
    rw [hr]
    exact ⟨rfl, rfl⟩

end Sys2Proof.Proofs
end

section
/-!
Integer and rn30 elements (R26, R27, R42 to R46, R169, R170), and the conversions between element types (R39 to R41).
-/

namespace Sys2Proof.Proofs

open Sys2Proof Sys2Proof.Machine Sys2Proof.Safety Sys2Proof.Laws

theorem intMax_sub_intMin (ty : Nat) : intMax ty - intMin ty = 2 ^ (8 * scalarSize ty) - 1 := by
  have hp : (2 : Int) ^ (8 * scalarSize ty) = 2 * 2 ^ (8 * scalarSize ty - 1) := by
    rw [← pow_succ', Nat.sub_add_cancel (scalarSize_pos ty)]
  rw [intMax, intMin]
  split <;> push_cast <;> omega

theorem intMax_nonneg (ty : Nat) : 0 ≤ intMax ty := by
  have h (n : Nat) : (0 : Int) < ((2 ^ n : Nat) : Int) := by exact_mod_cast Nat.two_pow_pos n
  have h1 := h (8 * scalarSize ty - 1)
  have h2 := h (8 * scalarSize ty)
  rw [intMax]
  split <;> omega

theorem intMin_nonpos (ty : Nat) : intMin ty ≤ 0 := by
  have h : (0 : Int) < ((2 ^ (8 * scalarSize ty - 1) : Nat) : Int) := by exact_mod_cast Nat.two_pow_pos _
  rw [intMin]
  split <;> omega

/-- A pattern congruent to a number of the range reads as that number (R26). -/
theorem intVal_unique {ty bits : Nat} {v : Int} (h : (bits : Int) % 2 ^ (8 * scalarSize ty) = v % 2 ^ (8 * scalarSize ty))
    (h1 : intMin ty ≤ v) (h2 : v ≤ intMax ty) : intVal ty bits = v := by
  obtain ⟨b1, b2⟩ := intVal_bounds ty bits
  have hr := intMax_sub_intMin ty
  have hd : (2 : Int) ^ (8 * scalarSize ty) ∣ intVal ty bits - v :=
    Int.dvd_of_emod_eq_zero (Int.emod_eq_emod_iff_emod_sub_eq_zero.mp ((intVal_mod ty bits).trans h))
  have := Int.eq_zero_of_abs_lt_dvd hd (abs_lt.mpr ⟨by omega, by omega⟩)
  omega

/-- A result is a number modulo the type's range, without a flag (R26). -/
def Wraps (ty : Nat) (z : Res) (v : Int) : Prop :=
  (intMin ty ≤ intVal ty z.bits ∧ intVal ty z.bits ≤ intMax ty) ∧ (2 ^ (8 * scalarSize ty) : Int) ∣ (intVal ty z.bits - v) ∧
    z.flags = 0 ∧ z.exc = false

theorem wraps_plain {ty bits : Nat} {v : Int} (h : (bits : Int) % 2 ^ (8 * scalarSize ty) = v % 2 ^ (8 * scalarSize ty)) :
    Wraps ty (Res.plain bits) v :=
  ⟨intVal_bounds ty bits, Int.dvd_of_emod_eq_zero (Int.emod_eq_emod_iff_emod_sub_eq_zero.mp ((intVal_mod ty bits).trans h)), rfl, rfl⟩

theorem wraps_intBits (ty : Nat) (v : Int) : Wraps ty (Res.plain (intBits ty v)) v := by
  refine wraps_plain ?_
  rw [intBits, ofSigned_cast, Int.emod_emod_of_dvd _ (dvd_refl _)]

theorem pattern_mod (ty x : Nat) :
    ((x % 2 ^ (8 * scalarSize ty) : Nat) : Int) % 2 ^ (8 * scalarSize ty) = intVal ty x % 2 ^ (8 * scalarSize ty) := by
  rw [intVal_mod]
  push_cast
  exact Int.emod_emod_of_dvd _ (dvd_refl _)

section
variable (ty x y : Nat)

theorem wraps_min : Wraps ty (intOp .min ty x y) (min (intVal ty x) (intVal ty y)) := by
  refine wraps_plain ?_
  split
  · rename_i h
    rw [min_eq_right h.le, pattern_mod]
  · rename_i h
    rw [min_eq_left (not_lt.mp h), pattern_mod]

theorem wraps_max : Wraps ty (intOp .max ty x y) (max (intVal ty x) (intVal ty y)) := by
  refine wraps_plain ?_
  split
  · rename_i h
    rw [max_eq_right h.le, pattern_mod]
  · rename_i h
    rw [max_eq_left (not_lt.mp h), pattern_mod]

theorem wraps_shl : Wraps ty (intOp .shl ty x y)
    (intVal ty x * 2 ^ (y % 2 ^ (8 * scalarSize ty) % (8 * scalarSize ty))) := by
  refine wraps_plain ?_
  have h := intVal_mod ty x
  push_cast
  rw [Int.emod_emod_of_dvd _ (dvd_refl _), Int.mul_emod, ← h, ← Int.mul_emod]

theorem intVal_shr : intVal ty (intOp .shr ty x y).bits =
    intVal ty x / 2 ^ (y % 2 ^ (8 * scalarSize ty) % (8 * scalarSize ty)) := by
  obtain ⟨h1, h2⟩ := intVal_bounds ty x
  have hb := scalarSize_pos ty
  generalize hn : y % 2 ^ (8 * scalarSize ty) % (8 * scalarSize ty) = n
  have hpos : (1 : Int) ≤ 2 ^ n := one_le_pow₀ (by norm_num)
  have hbits : (intOp .shr ty x y).bits = shrBits (isSigned ty) (8 * scalarSize ty) x n := by simp only [intOp, hn]; rfl
  have hlow : intMin ty ≤ intVal ty x / 2 ^ n := by
    have hmin := intMin_nonpos ty
    rw [Int.le_ediv_iff_mul_le (by omega)]
    nlinarith
  have hhigh : intVal ty x / 2 ^ n ≤ intMax ty := by
    have hmax := intMax_nonneg ty
    refine Int.le_of_lt_add_one ((Int.ediv_lt_iff_lt_mul (by omega)).mpr ?_)
    nlinarith
  rw [hbits]
  refine intVal_unique ?_ hlow hhigh
  rw [shrBits, intVal]
  cases isSigned ty
  · push_cast
    rfl
  · simp only [if_true]
    rw [ofSigned_cast, Int.emod_emod_of_dvd _ (dvd_refl _)]
    push_cast
    rfl

theorem intVal_eq_zero_iff : intVal ty y = 0 ↔ y % 2 ^ (8 * scalarSize ty) = 0 := by
  rw [intVal]
  split
  · rw [toSigned_eq]
    have hlt := Nat.mod_lt y (Nat.two_pow_pos (8 * scalarSize ty))
    have hc : (2 : Int) ^ (8 * scalarSize ty) = ((2 ^ (8 * scalarSize ty) : Nat) : Int) := by push_cast; rfl
    rw [hc]
    split <;> omega
  · omega

variable {ty x y} in
/-- A quotient or a remainder that is a number of the range is read back (R27). -/
theorem intVal_divRem (hy : intVal ty y ≠ 0) :
    (∀ o ∈ [IntOp.div, .rem], (intOp o ty x y).flags = 0 ∧ (intOp o ty x y).exc = false) ∧
    (intMin ty ≤ (intVal ty x).tdiv (intVal ty y) → (intVal ty x).tdiv (intVal ty y) ≤ intMax ty →
      intVal ty (intOp .div ty x y).bits = (intVal ty x).tdiv (intVal ty y)) ∧
    (intMin ty ≤ (intVal ty x).tmod (intVal ty y) → (intVal ty x).tmod (intVal ty y) ≤ intMax ty →
      intVal ty (intOp .rem ty x y).bits = (intVal ty x).tmod (intVal ty y)) ∧
    (isSigned ty = true → (intOp .div ty x y).bits = intBits ty ((intVal ty x).tdiv (intVal ty y))) := by
  have h0 : ¬ y % 2 ^ (8 * scalarSize ty) = 0 := fun c => hy ((intVal_eq_zero_iff ty y).mpr c)
  simp only [intOp, divBits, remBits, if_neg h0, List.forall_mem_cons]
  cases hs : isSigned ty
  · refine ⟨⟨⟨rfl, rfl⟩, ⟨rfl, rfl⟩, nofun⟩, fun h1 h2 => intVal_unique (congrArg (· % _) ?_) h1 h2,
      fun h1 h2 => intVal_unique (congrArg (· % _) ?_) h1 h2, nofun⟩
    · simp only [intVal, hs, Bool.false_eq_true, if_false, Res.plain]
      rw [Int.tdiv_eq_ediv_of_nonneg (by positivity)]
      push_cast
      rfl
    · simp only [intVal, hs, Bool.false_eq_true, if_false, Res.plain]
      rw [Int.tmod_eq_emod_of_nonneg (by positivity)]
      push_cast
      rfl
  · have hv (v : Nat) : intVal ty v = toSigned (8 * scalarSize ty) v := by rw [intVal, hs, if_pos rfl]
    simp only [if_true, ← hv]
    exact ⟨⟨⟨rfl, rfl⟩, ⟨rfl, rfl⟩, nofun⟩, fun h1 h2 => intVal_intBits h1 h2, fun h1 h2 => intVal_intBits h1 h2, fun _ => rfl⟩

end

/-- A truncated quotient stays in the range but for the least number by -1 (R27). -/
theorem tdiv_inRange {lo hi X Y : Int} (hlo : lo = 0 ∧ 0 ≤ Y ∨ lo = -hi - 1) (h1 : lo ≤ X) (h2 : X ≤ hi) (hhi : 0 ≤ hi)
    (h : ¬ (X = lo ∧ Y = -1)) : lo ≤ X.tdiv Y ∧ X.tdiv Y ≤ hi := by
  have habs : (X.tdiv Y).natAbs = X.natAbs / Y.natAbs := Int.natAbs_tdiv X Y
  rcases hlo with ⟨rfl, hY⟩ | hlo
  · refine ⟨Int.tdiv_nonneg h1 hY, ?_⟩
    have := Nat.div_le_self X.natAbs Y.natAbs
    omega
  · by_cases hm : Y = -1
    · subst hm
      rw [Int.tdiv_neg, Int.tdiv_one]
      omega
    · by_cases hp : Y = 1
      · subst hp
        rw [Int.tdiv_one]
        exact ⟨h1, h2⟩
      · by_cases hz : Y = 0
        · subst hz
          rw [Int.tdiv_zero]
          omega
        · have h3 : X.natAbs / Y.natAbs ≤ X.natAbs / 2 := Nat.div_le_div_left (by omega) (by omega)
          omega

theorem tmod_inRange {lo hi X Y : Int} (hlo : lo = 0 ∧ 0 ≤ X ∨ lo = -hi - 1) (hY : Y ≠ 0) (h1 : -hi - 1 ≤ Y) (h2 : Y ≤ hi) :
    lo ≤ X.tmod Y ∧ X.tmod Y ≤ hi := by
  have habs : (X.tmod Y).natAbs = X.natAbs % Y.natAbs := Int.natAbs_tmod X Y
  have hlt := Nat.mod_lt X.natAbs (Int.natAbs_pos.mpr hY)
  rcases hlo with ⟨rfl, hX⟩ | hlo
  · have := Int.tmod_nonneg Y hX
    omega
  · omega

/-- The least number of a type is 0, or one below minus the greatest. -/
theorem intMin_cases (ty : Nat) : (isSigned ty = false ∧ intMin ty = 0) ∨ (isSigned ty = true ∧ intMin ty = -intMax ty - 1) := by
  rw [intMin, intMax]
  cases isSigned ty
  · exact .inl ⟨rfl, rfl⟩
  · exact .inr ⟨rfl, by simp⟩

theorem intVal_nonneg {ty : Nat} (h : isSigned ty = false) (x : Nat) : 0 ≤ intVal ty x := by
  rw [intVal, h, if_neg (by simp)]
  exact Int.natCast_nonneg _

section
variable {ty x y : Nat} (hy : intVal ty y ≠ 0)
include hy

theorem intVal_rem : intVal ty (intOp .rem ty x y).bits = (intVal ty x).tmod (intVal ty y) := by
  obtain ⟨h1, h2⟩ := intVal_bounds ty y
  have hm : intMin ty ≤ (intVal ty x).tmod (intVal ty y) ∧ (intVal ty x).tmod (intVal ty y) ≤ intMax ty := by
    refine tmod_inRange ?_ hy ?_ h2
    · exact (intMin_cases ty).imp (fun c => ⟨c.2, intVal_nonneg c.1 x⟩) And.right
    · have := intMax_nonneg ty
      rcases intMin_cases ty with ⟨-, c⟩ | ⟨-, c⟩ <;> omega
  exact (intVal_divRem hy).2.2.1 hm.1 hm.2

theorem intVal_div (h : ¬ (intVal ty x = intMin ty ∧ intVal ty y = -1)) :
    intVal ty (intOp .div ty x y).bits = (intVal ty x).tdiv (intVal ty y) := by
  obtain ⟨h1, h2⟩ := intVal_bounds ty x
  have hd := tdiv_inRange ((intMin_cases ty).imp (fun c => ⟨c.2, intVal_nonneg c.1 y⟩) And.right) h1 h2 (intMax_nonneg ty) h
  exact (intVal_divRem hy).2.1 hd.1 hd.2

/-- The least number by -1 wraps around to itself (R27). -/
theorem intVal_div_least (hx : intVal ty x = intMin ty) (hm : intVal ty y = -1) :
    intVal ty (intOp .div ty x y).bits = intMin ty ∧ intVal ty (intOp .rem ty x y).bits = 0 := by
  rcases intMin_cases ty with ⟨c, -⟩ | ⟨c, hc⟩
  · have := intVal_nonneg c y
    omega
  · constructor
    · rw [(intVal_divRem hy).2.2.2 c]
      refine intVal_unique ?_ le_rfl (intMin_le_intMax ty)
      have hr := intMax_sub_intMin ty
      rw [intBits, ofSigned_cast, Int.emod_emod_of_dvd _ (dvd_refl _), hx, hm, Int.tdiv_neg, Int.tdiv_one]
      refine Int.emod_eq_emod_iff_emod_sub_eq_zero.mpr ?_
      rw [show -intMin ty - intMin ty = 2 ^ (8 * scalarSize ty) by omega, Int.emod_self]
    · rw [intVal_rem hy, hm, Int.tmod_neg, Int.tmod_one]

end

/-- A division by zero (R27). -/
theorem intOp_div_zero {ty x y : Nat} (hy : intVal ty y = 0) :
    (intOp .div ty x y).bits = 2 ^ (8 * scalarSize ty) - 1 ∧ intVal ty (intOp .rem ty x y).bits = intVal ty x ∧
    ∀ o ∈ [IntOp.div, .rem], (intOp o ty x y).flags = flagDz ∧ (intOp o ty x y).exc = true := by
  have h0 := (intVal_eq_zero_iff ty y).mp hy
  simp only [intOp, divBits, remBits, if_pos h0, List.forall_mem_cons]
  obtain ⟨h1, h2⟩ := intVal_bounds ty x
  exact ⟨rfl, intVal_unique (pattern_mod ty x) h1 h2, ⟨rfl, rfl⟩, ⟨rfl, rfl⟩, nofun⟩

/-- A result is a number clamped to the range, with saturation just when the clamp changes it (R26). -/
def Clamps (lo hi : Int) (value : Int) (z : Res) (v : Int) : Prop :=
  value = (if v < lo then lo else if hi < v then hi else v) ∧ z.flags = (if lo ≤ v ∧ v ≤ hi then 0 else flagSat) ∧
    z.exc = decide (¬ (lo ≤ v ∧ v ≤ hi))

theorem clamps_satInt (ty : Nat) (v : Int) : Clamps (intMin ty) (intMax ty) (intVal ty (satInt ty v).bits) (satInt ty v) v := by
  have hle := intMin_le_intMax ty
  obtain ⟨hin, hlo, hhi⟩ := satInt_cases ty v
  by_cases h1 : v < intMin ty
  · obtain ⟨he, hv⟩ := hlo h1
    have hn : ¬ (intMin ty ≤ v ∧ v ≤ intMax ty) := by omega
    refine ⟨by rw [hv, if_pos h1], ?_, ?_⟩
    · rw [he, if_neg hn]; rfl
    · rw [he, decide_eq_true hn]; rfl
  · by_cases h2 : intMax ty < v
    · obtain ⟨he, hv⟩ := hhi h2
      have hn : ¬ (intMin ty ≤ v ∧ v ≤ intMax ty) := by omega
      refine ⟨by rw [hv, if_neg h1, if_pos h2], ?_, ?_⟩
      · rw [he, if_neg hn]; rfl
      · rw [he, decide_eq_true hn]; rfl
    · obtain ⟨he, hv⟩ := hin (by omega) (by omega)
      have hn : intMin ty ≤ v ∧ v ≤ intMax ty := by omega
      refine ⟨by rw [hv, if_neg h1, if_neg h2], ?_, ?_⟩
      · rw [he, if_pos hn]; rfl
      · rw [he, decide_eq_false (not_not.mpr hn)]; rfl

/-- The bits of and, or and exclusive or (R170). -/
theorem intOp_bitwise (ty x y i : Nat) :
    (intOp .and ty x y).bits.testBit i = (decide (i < 8 * scalarSize ty) && (x.testBit i && y.testBit i)) ∧
    (intOp .or ty x y).bits.testBit i = (decide (i < 8 * scalarSize ty) && (x.testBit i || y.testBit i)) ∧
    (intOp .xor ty x y).bits.testBit i = (decide (i < 8 * scalarSize ty) && (x.testBit i ^^ y.testBit i)) := by
  simp [intOp, Res.plain, Nat.testBit_mod_two_pow]

/-- The integer types, as the statement says it. -/
theorem intOp_statement (ty x y : Nat) :
    let b := 8 * scalarSize ty
    let X := intVal ty x
    let Y := intVal ty y
    let V (o : IntOp) : Int := intVal ty (intOp o ty x y).bits
    let wraps (o : IntOp) (v : Int) : Prop := Wraps ty (intOp o ty x y) v
    let clamps (o : IntOp) (v : Int) : Prop := Clamps (intMin ty) (intMax ty) (V o) (intOp o ty x y) v
    wraps .add (X + Y) ∧ wraps .sub (X - Y) ∧ wraps .rsub (Y - X) ∧ wraps .mul (X * Y) ∧ wraps .mulh (X * Y / 2 ^ b) ∧
    clamps .adds (X + Y) ∧ clamps .subs (X - Y) ∧
    (Y = 0 → (intOp .div ty x y).bits = 2 ^ b - 1 ∧ V .rem = X ∧
      (∀ o ∈ [IntOp.div, .rem], (intOp o ty x y).flags = flagDz ∧ (intOp o ty x y).exc = true)) ∧
    (Y ≠ 0 → ¬ (X = intMin ty ∧ Y = -1) → V .div * Y + V .rem = X ∧ V .div = X.tdiv Y) ∧
    (Y ≠ 0 → X = intMin ty → Y = -1 → V .div = intMin ty ∧ V .rem = 0) ∧
    (Y ≠ 0 → ∀ o ∈ [IntOp.div, .rem], (intOp o ty x y).flags = 0 ∧ (intOp o ty x y).exc = false) ∧
    wraps .min (min X Y) ∧ wraps .max (max X Y) ∧
    (∀ o ∈ [IntOp.and, .or, .xor], (intOp o ty x y).flags = 0 ∧ (intOp o ty x y).exc = false ∧ ∀ i,
      (intOp o ty x y).bits.testBit i = (decide (i < b) && match o with
        | .and => x.testBit i && y.testBit i
        | .or => x.testBit i || y.testBit i
        | _ => x.testBit i ^^ y.testBit i)) ∧
    (let n := (y % 2 ^ b) % b
     wraps .shl (X * 2 ^ n) ∧ V .shr = X / 2 ^ n) := by
  intro b X Y V wraps clamps
  refine ⟨wraps_intBits ty _, wraps_intBits ty _, wraps_intBits ty _, wraps_intBits ty _, ?_, clamps_satInt ty _, clamps_satInt ty _,
    fun h => intOp_div_zero h, fun hy hn => ⟨?_, intVal_div hy hn⟩, fun hy hx hm => intVal_div_least hy hx hm,
    fun hy => (intVal_divRem hy).1, wraps_min ty x y, wraps_max ty x y, ?_, wraps_shl ty x y, intVal_shr ty x y⟩
  · refine wraps_plain ?_
    rw [ofSigned_cast, Int.emod_emod_of_dvd _ (dvd_refl _)]
    push_cast
    rfl
  · rw [show V .div = _ from intVal_div hy hn, show V .rem = _ from intVal_rem hy, mul_comm]
    exact Int.mul_tdiv_add_tmod _ _
  · simp only [List.forall_mem_cons]
    exact ⟨⟨rfl, rfl, fun i => (intOp_bitwise ty x y i).1⟩, ⟨rfl, rfl, fun i => (intOp_bitwise ty x y i).2.1⟩,
      ⟨rfl, rfl, fun i => (intOp_bitwise ty x y i).2.2⟩, nofun⟩

/-- A valid rn30 container, as the statement says it (R42). -/
def RnContainer (v : Nat) : Prop := v / 2 ^ 30 = 0 ∧ v / 2 ^ 10 % 2 ^ 10 < 1023 ∧ v / 2 ^ 20 < 1021

/-- A container holds the residues of a number of the signed range (R43, R44). -/
def RnHolds (v : Nat) (i : Int) : Prop :=
  RnContainer v ∧ rnMin ≤ i ∧ i ≤ rnMax ∧ i % 1024 = (v % 2 ^ 10 : Nat) ∧ i % 1023 = (v / 2 ^ 10 % 2 ^ 10 : Nat) ∧
    i % 1021 = (v / 2 ^ 20 : Nat)

theorem rnValid_iff {v : Nat} (h : v < 2 ^ 32) : rnValid v = true ↔ RnContainer v := by
  have h30 : v / 2 ^ 30 % 2 ^ 2 = v / 2 ^ 30 := Nat.mod_eq_of_lt (by omega)
  simp only [rnValid, RnContainer, bitsOf, h30, Bool.and_eq_true]
  constructor
  · rintro ⟨⟨h1, h2⟩, h3⟩
    have h1' := of_decide_eq_true h1
    have h2' := of_decide_eq_true h2
    exact ⟨h1', of_decide_eq_true h3, by omega⟩
  · rintro ⟨h1, h2, h3⟩
    exact ⟨⟨decide_eq_true h1, decide_eq_true (by omega)⟩, decide_eq_true h2⟩

/-- Three residues fix a number up to their product. -/
theorem rn_dvd {i j : Int} (h1 : i % 1024 = j % 1024) (h2 : i % 1023 = j % 1023) (h3 : i % 1021 = j % 1021) :
    (1069550592 : Int) ∣ (i - j) := by
  have d1 : (1024 : Int) ∣ (i - j) := Int.dvd_of_emod_eq_zero (Int.emod_eq_emod_iff_emod_sub_eq_zero.mp h1)
  have d2 : (1023 : Int) ∣ (i - j) := Int.dvd_of_emod_eq_zero (Int.emod_eq_emod_iff_emod_sub_eq_zero.mp h2)
  have d3 : (1021 : Int) ∣ (i - j) := Int.dvd_of_emod_eq_zero (Int.emod_eq_emod_iff_emod_sub_eq_zero.mp h3)
  have c1 : IsCoprime (1024 : Int) 1023 := ⟨1, -1, by norm_num⟩
  have c2 : IsCoprime (1047552 : Int) 1021 := ⟨851, -873131, by norm_num⟩
  have h : (1047552 : Int) ∣ (i - j) := by simpa using c1.mul_dvd d1 d2
  simpa using c2.mul_dvd h d3

theorem rnHolds_unique {v : Nat} {i j : Int} (hi : RnHolds v i) (hj : RnHolds v j) : i = j := by
  obtain ⟨-, i1, i2, i3, i4, i5⟩ := hi
  obtain ⟨-, j1, j2, j3, j4, j5⟩ := hj
  obtain ⟨k, hk⟩ := rn_dvd (i3.trans j3.symm) (i4.trans j4.symm) (i5.trans j5.symm)
  clear i3 i4 i5 j3 j4 j5
  rw [rnMin] at i1 j1
  rw [rnMax] at i2 j2
  omega

theorem rn_bits {v : Nat} (h : v / 2 ^ 20 < 1021) :
    bitsOf v 0 10 = v % 2 ^ 10 ∧ bitsOf v 10 10 = v / 2 ^ 10 % 2 ^ 10 ∧ bitsOf v 20 10 = v / 2 ^ 20 := by
  rw [bitsOf, bitsOf, bitsOf, pow_zero, Nat.div_one]
  exact ⟨rfl, rfl, Nat.mod_eq_of_lt (by omega)⟩

/-- The weights of the three channels (R44). -/
theorem rn_weights {a b c w : Nat} (ha : a < 1024) (hb : b < 1023) (hc : c < 1021)
    (hw : w = (a * 713381889 + b * 534252544 + c * 891466752) % 1069550592) :
    w < 1069550592 ∧ w % 1024 = a ∧ w % 1023 = b ∧ w % 1021 = c := by
  refine ⟨?_, ?_, ?_, ?_⟩ <;> omega

/-- The value of a container has its residues (R44). -/
theorem rnValue_holds {v : Nat} (h : RnContainer v) : RnHolds v (rnValue v) := by
  obtain ⟨h1, h2, h3⟩ := h
  obtain ⟨b1, b2, b3⟩ := rn_bits h3
  refine ⟨⟨h1, h2, h3⟩, ?_⟩
  simp only [rnValue, b1, b2, b3, rnMin, rnMax]
  obtain ⟨w, hw⟩ : ∃ w, w = (v % 2 ^ 10 * 713381889 + v / 2 ^ 10 % 2 ^ 10 * 534252544 + v / 2 ^ 20 * 891466752) % 1069550592 := ⟨_, rfl⟩
  obtain ⟨hlt, r1, r2, r3⟩ := rn_weights (Nat.mod_lt _ (by norm_num)) h2 h3 hw
  rw [← hw]
  split <;> omega

/-- The fields of a container made of three residues. -/
theorem rn_fields {a b c : Nat} (ha : a < 1024) (hb : b < 1023) (hc : c < 1021) :
    RnContainer (a + 2 ^ 10 * b + 2 ^ 20 * c) ∧ (a + 2 ^ 10 * b + 2 ^ 20 * c) % 2 ^ 10 = a ∧
      (a + 2 ^ 10 * b + 2 ^ 20 * c) / 2 ^ 10 % 2 ^ 10 = b ∧ (a + 2 ^ 10 * b + 2 ^ 20 * c) / 2 ^ 20 = c := by
  refine ⟨⟨?_, ?_, ?_⟩, ?_, ?_, ?_⟩ <;> omega

theorem toNat_emod (i : Int) {m : Nat} (hm : 0 < m) : (i % m).toNat < m ∧ ((i % (m : Int)).toNat : Int) = i % m := by
  have h1 := Int.emod_nonneg i (show (m : Int) ≠ 0 by omega)
  have h2 := Int.emod_lt_of_pos i (show (0 : Int) < m by omega)
  omega

/-- Any three residues have one container, which holds each number of the range that has them (R43). -/
theorem rnHolds_residues {p q r i : Int} (hlo : rnMin ≤ i) (hhi : i ≤ rnMax) (hp : i % 1024 = p % 1024) (hq : i % 1023 = q % 1023)
    (hr : i % 1021 = r % 1021) : RnHolds ((p % 1024).toNat + 2 ^ 10 * (q % 1023).toNat + 2 ^ 20 * (r % 1021).toNat) i := by
  obtain ⟨a1, a2⟩ := toNat_emod p (m := 1024) (by norm_num)
  obtain ⟨b1, b2⟩ := toNat_emod q (m := 1023) (by norm_num)
  obtain ⟨c1, c2⟩ := toNat_emod r (m := 1021) (by norm_num)
  push_cast at a1 a2 b1 b2 c1 c2
  obtain ⟨hv, h1, h2, h3⟩ := rn_fields a1 b1 c1
  exact ⟨hv, hlo, hhi, by rw [h1, hp]; omega, by rw [h2, hq]; omega, by rw [h3, hr]; omega⟩

theorem rnEncode_holds {i : Int} (h1 : rnMin ≤ i) (h2 : i ≤ rnMax) : RnHolds (rnEncode i) i :=
  rnHolds_residues h1 h2 rfl rfl rfl

/-- Arithmetic in the channels agrees with arithmetic on the values (R45). -/
theorem rnChannels_holds {f : Int → Int → Int} (hf : ∀ m p q, f p q % m = f (p % m) (q % m) % m) {x y : Nat} {i j : Int}
    (hx : RnHolds x i) (hy : RnHolds y j) :
    ∃ k, RnHolds (rnChannels f x y) k ∧ (1069550592 : Int) ∣ (k - f i j) := by
  obtain ⟨⟨x1, -, x3⟩, -, -, x4, x5, x6⟩ := hx
  obtain ⟨⟨y1, -, y3⟩, -, -, y4, y5, y6⟩ := hy
  obtain ⟨bx1, bx2, bx3⟩ := rn_bits x3
  obtain ⟨b1, b2, b3⟩ := rn_bits y3
  have h1 : f (bitsOf x 0 10) (bitsOf y 0 10) % 1024 = f i j % 1024 := by rw [hf 1024 i j, x4, y4, bx1, b1]
  have h2 : f (bitsOf x 10 10) (bitsOf y 10 10) % 1023 = f i j % 1023 := by rw [hf 1023 i j, x5, y5, bx2, b2]
  have h3 : f (bitsOf x 20 10) (bitsOf y 20 10) % 1021 = f i j % 1021 := by rw [hf 1021 i j, x6, y6, bx3, b3]
  obtain ⟨a1, a2⟩ := toNat_emod (f i j) (m := 1024) (by norm_num)
  obtain ⟨c1, c2⟩ := toNat_emod (f i j) (m := 1023) (by norm_num)
  obtain ⟨d1, d2⟩ := toNat_emod (f i j) (m := 1021) (by norm_num)
  push_cast at a1 a2 c1 c2 d1 d2
  obtain ⟨hv, e1, e2, e3⟩ := rn_fields a1 c1 d1
  have hk : rnChannels f x y = (f i j % 1024).toNat + 2 ^ 10 * (f i j % 1023).toNat + 2 ^ 20 * (f i j % 1021).toNat := by
    rw [rnChannels, h1, h2, h3]
  rw [hk]
  have hh := rnValue_holds hv
  refine ⟨_, hh, ?_⟩
  obtain ⟨-, -, -, r1, r2, r3⟩ := hh
  exact rn_dvd (by rw [r1, e1, a2]) (by rw [r2, e2, c2]) (by rw [r3, e3, d2])

/-- What an rn30 operand reads as (R46). -/
theorem rnRead_cases (fill : Nat) {x : Nat} (hx : x < 2 ^ 32) :
    (RnContainer x → rnRead fill x = (x, false)) ∧
    (¬ RnContainer x → RnContainer (fill % 2 ^ 32) → rnRead fill x = (fill % 2 ^ 32, true)) ∧
    (¬ RnContainer x → ¬ RnContainer (fill % 2 ^ 32) → rnRead fill x = (0, true)) := by
  have h1 := rnValid_iff hx
  have h2 := rnValid_iff (Nat.mod_lt fill (show 0 < 2 ^ 32 by norm_num))
  simp only [rnRead, Nat.mod_eq_of_lt hx]
  refine ⟨fun h => ?_, fun h k => ?_, fun h k => ?_⟩
  · rw [if_pos (h1.mpr h)]
  · rw [if_neg fun c => h (h1.mp c), if_pos (h2.mpr k)]
  · rw [if_neg fun c => h (h1.mp c), if_neg fun c => k (h2.mp c)]

theorem intToRn_cases (i : Int) :
    (rnMin ≤ i → i ≤ rnMax → intToRn i = Res.plain (rnEncode i)) ∧ (i < rnMin → intToRn i = Res.mk' (rnEncode rnMin) flagSat) ∧
    (rnMax < i → intToRn i = Res.mk' (rnEncode rnMax) flagSat) := by
  have hle : rnMin ≤ rnMax := by decide
  refine ⟨fun h1 h2 => ?_, fun h => if_pos h, fun h => ?_⟩
  · rw [intToRn, if_neg (by omega), if_neg (by omega)]
  · rw [intToRn, if_neg (by omega), if_pos h]

end Sys2Proof.Proofs
end

section
/-!
The rn30 operations (R45, R46) and the conversions of integer, rn30 and floating-point elements (R39 to R41).
-/

namespace Sys2Proof.Proofs

open Sys2Proof Sys2Proof.Machine Sys2Proof.Safety Sys2Proof.Laws

/-- How rn30 reads its operands: itself when valid, else the word when that is valid, else 0 (R46). -/
def RnReads (word : Nat) (c : Nat → Nat) : Prop :=
  ∀ v, (RnContainer v → c v = v) ∧ (¬ RnContainer v → RnContainer word → c v = word) ∧
    (¬ RnContainer v → ¬ RnContainer word → c v = 0)

theorem rnContainer_zero : RnContainer 0 := ⟨by norm_num, by norm_num, by norm_num⟩

theorem rnRead_eq {fill : Nat} {c : Nat → Nat} (hc : RnReads (fill % 2 ^ 32) c) {x : Nat} (hx : x < 2 ^ 32) :
    (rnRead fill x).1 = c x ∧ RnContainer (c x) ∧ ((rnRead fill x).2 = true ↔ ¬ RnContainer x) := by
  obtain ⟨h1, h2, h3⟩ := rnRead_cases fill hx
  obtain ⟨c1, c2, c3⟩ := hc x
  by_cases hv : RnContainer x
  · rw [h1 hv, c1 hv]
    exact ⟨rfl, hv, by simp [hv]⟩
  · by_cases hw : RnContainer (fill % 2 ^ 32)
    · rw [h2 hv hw, c2 hv hw]
      exact ⟨rfl, hw, by simp [hv]⟩
    · rw [h3 hv hw, c3 hv hw]
      exact ⟨rfl, rnContainer_zero, by simp [hv]⟩

section
variable {fill : Word} {c : Nat → Nat} (hc : RnReads (fill.toNat % 2 ^ 32) c) {x y : Nat} (hx : x < 2 ^ 32) (hy : y < 2 ^ 32)
include hc hx hy

/-- An operation done in the channels agrees with the exact one modulo their product, without a flag (R45, R46). -/
theorem rnOp_modulo {o : IntOp} {f : Int → Int → Int} (hf : ∀ m p q, f p q % m = f (p % m) (q % m) % m)
    (ho : (intElem o 14 fill x y).bits = rnChannels f (rnRead fill.toNat x).1 (rnRead fill.toNat y).1)
    (hfl : (intElem o 14 fill x y).flags = 0)
    (hexc : (intElem o 14 fill x y).exc = ((rnRead fill.toNat x).2 || (rnRead fill.toNat y).2)) :
    ∃ i, RnHolds (intElem o 14 fill x y).bits i ∧ (1069550592 : Int) ∣ (i - f (rnValue (c x)) (rnValue (c y))) ∧
      (intElem o 14 fill x y).flags = 0 ∧ ((intElem o 14 fill x y).exc = true ↔ ¬ RnContainer x ∨ ¬ RnContainer y) := by
  obtain ⟨x1, x2, x3⟩ := rnRead_eq hc hx
  obtain ⟨y1, y2, y3⟩ := rnRead_eq hc hy
  obtain ⟨i, hi, hd⟩ := rnChannels_holds hf (rnValue_holds x2) (rnValue_holds y2)
  refine ⟨i, by rw [ho, x1, y1]; exact hi, hd, hfl, ?_⟩
  rw [hexc, Bool.or_eq_true, x3, y3]

theorem rnOps_modulo (modulo : IntOp → Int → Prop)
    (hm : ∀ o v, modulo o v ↔ ∃ i, RnHolds (intElem o 14 fill x y).bits i ∧ (1069550592 : Int) ∣ (i - v) ∧
      (intElem o 14 fill x y).flags = 0 ∧ ((intElem o 14 fill x y).exc = true ↔ ¬ RnContainer x ∨ ¬ RnContainer y)) :
    modulo .add (rnValue (c x) + rnValue (c y)) ∧ modulo .sub (rnValue (c x) - rnValue (c y)) ∧
    modulo .rsub (rnValue (c y) - rnValue (c x)) ∧ modulo .mul (rnValue (c x) * rnValue (c y)) := by
  simp only [hm]
  exact ⟨rnOp_modulo hc hx hy (f := fun p q => p + q) (fun m p q => Int.add_emod p q m) rfl rfl rfl,
    rnOp_modulo hc hx hy (f := fun p q => p - q) (fun m p q => Int.sub_emod p q m) rfl rfl rfl,
    rnOp_modulo hc hx hy (f := fun p q => q - p) (fun m p q => Int.sub_emod q p m) rfl rfl rfl,
    rnOp_modulo hc hx hy (f := fun p q => p * q) (fun m p q => Int.mul_emod p q m) rfl rfl rfl⟩

end

/-- The bits of a container under and, or and exclusive or (R170). -/
theorem rnBitwise {fill : Word} {x y : Nat} (hx : x < 2 ^ 32) (hy : y < 2 ^ 32) :
    ∀ o ∈ [IntOp.and, .or, .xor], (intElem o 14 fill x y).flags = 0 ∧ (intElem o 14 fill x y).exc = false ∧ ∀ i,
      (intElem o 14 fill x y).bits.testBit i = match o with
        | .and => x.testBit i && y.testBit i
        | .or => x.testBit i || y.testBit i
        | _ => x.testBit i ^^ y.testBit i := by
  have hhigh {v : Nat} (hv : v < 2 ^ 32) {i : Nat} (hi : ¬ i < 32) : v.testBit i = false :=
    Nat.testBit_lt_two_pow (hv.trans_le (Nat.pow_le_pow_right (by norm_num) (not_lt.mp hi)))
  have hbits (i : Nat) := intOp_bitwise 14 x y i
  simp only [List.forall_mem_cons]
  refine ⟨⟨rfl, rfl, fun i => (hbits i).1.trans ?_⟩, ⟨rfl, rfl, fun i => (hbits i).2.1.trans ?_⟩,
    ⟨rfl, rfl, fun i => (hbits i).2.2.trans ?_⟩, nofun⟩
  all_goals
    by_cases hi : i < 32
    · rw [decide_eq_true (show i < 8 * scalarSize 14 from hi), Bool.true_and]
    · rw [hhigh hx hi, hhigh hy hi, decide_eq_false (show ¬ i < 8 * scalarSize 14 from hi)]
      rfl

/-- The bits of an element of an integer type or of rn30 stand for a number. -/
def Reads (dst v : Nat) (i : Int) : Prop := if dst = 14 then RnHolds v i else intVal dst v = i

/-- The least number of an integer type or of rn30, as the statement says it. -/
def leastOf (dst : Nat) : Int := if dst = 14 then rnMin else if dst % 2 = 0 then -2 ^ (8 * scalarSize dst - 1) else 0

/-- The greatest number of an integer type or of rn30, as the statement says it. -/
def greatestOf (dst : Nat) : Int :=
  if dst = 14 then rnMax else if dst % 2 = 0 then 2 ^ (8 * scalarSize dst - 1) - 1 else 2 ^ (8 * scalarSize dst) - 1

theorem leastOf_eq {dst : Nat} (h : dst < 8) : leastOf dst = intMin dst := by
  rw [leastOf, if_neg (by omega), intMin_eq h]

theorem greatestOf_eq {dst : Nat} (h : dst < 8) : greatestOf dst = intMax dst := by
  rw [greatestOf, if_neg (by omega), intMax_eq h]

theorem reads_iff {dst : Nat} (h : dst < 8) (v : Nat) (i : Int) : Reads dst v i ↔ intVal dst v = i := by
  rw [Reads, if_neg (by omega)]

/-- A result keeps a number or is the nearer edge of the type, with saturation and the exception bit when it is the edge, or with
the exception bit of a substituted operand (R39, R46). -/
def ClampedTo (dst : Nat) (z : Res) (i : Int) (sub : Prop) : Prop :=
  Reads dst z.bits (if i < leastOf dst then leastOf dst else if greatestOf dst < i then greatestOf dst else i) ∧
    z.flags = (if leastOf dst ≤ i ∧ i ≤ greatestOf dst then 0 else flagSat) ∧
    (z.exc = true ↔ ¬ (leastOf dst ≤ i ∧ i ≤ greatestOf dst) ∨ sub)

/-- The clamp to an integer type or to rn30. -/
def clampInt (dst : Nat) (i : Int) : Res := if dst = 14 then intToRn i else satInt dst i

theorem clampInt_clamped {dst : Nat} (h : dst < 8 ∨ dst = 14) (i : Int) : ClampedTo dst (clampInt dst i) i False := by
  rcases h with h | rfl
  · obtain ⟨h1, h2, h3⟩ := clamps_satInt dst i
    rw [ClampedTo, reads_iff h, leastOf_eq h, greatestOf_eq h, clampInt, if_neg (by omega), h3, decide_eq_true_eq, or_false]
    exact ⟨h1, h2, Iff.rfl⟩
  · have hle : rnMin ≤ rnMax := by decide
    obtain ⟨hin, hlo, hhi⟩ := intToRn_cases i
    change RnHolds (intToRn i).bits (if i < rnMin then rnMin else if rnMax < i then rnMax else i) ∧
      (intToRn i).flags = (if rnMin ≤ i ∧ i ≤ rnMax then 0 else flagSat) ∧
      ((intToRn i).exc = true ↔ ¬ (rnMin ≤ i ∧ i ≤ rnMax) ∨ False)
    by_cases h1 : i < rnMin
    · have hn : ¬ (rnMin ≤ i ∧ i ≤ rnMax) := by omega
      rw [hlo h1, if_pos h1, if_neg hn]
      exact ⟨rnEncode_holds le_rfl hle, rfl, iff_of_true rfl (.inl hn)⟩
    · by_cases h2 : rnMax < i
      · have hn : ¬ (rnMin ≤ i ∧ i ≤ rnMax) := by omega
        rw [hhi h2, if_neg h1, if_pos h2, if_neg hn]
        exact ⟨rnEncode_holds hle le_rfl, rfl, iff_of_true rfl (.inl hn)⟩
      · have hn : rnMin ≤ i ∧ i ≤ rnMax := by omega
        rw [hin hn.1 hn.2, if_neg h1, if_neg h2, if_pos hn]
        exact ⟨rnEncode_holds hn.1 hn.2, rfl, by simp [Res.plain, hn]⟩

theorem isFp_eq_false {dst : Nat} (h : dst < 8 ∨ dst = 14) : isFp dst = false := by
  rw [isFp, Bool.and_eq_false_iff, decide_eq_false_iff_not, decide_eq_false_iff_not]
  omega

theorem isFp_eq_true {dst : Nat} (h1 : 8 ≤ dst) (h2 : dst < 14) : isFp dst = true := by
  rw [isFp, decide_eq_true h1, decide_eq_true h2, Bool.and_self]

theorem fromInt_eq_clampInt {dst : Nat} (h : dst < 8 ∨ dst = 14) (rm : Nat) (i : Int) : fromInt dst rm i = clampInt dst i := by
  rw [fromInt, clampInt, isFp_eq_false h, if_neg Bool.false_ne_true]

theorem fromInt_eq_intToFp {dst : Nat} (h1 : 8 ≤ dst) (h2 : dst < 14) (rm : Nat) (i : Int) : fromInt dst rm i = intToFp dst rm i := by
  rw [fromInt, if_neg (by omega), isFp_eq_true h1 h2, if_pos rfl]

theorem convert_int {src : Nat} (h : src < 8) (dst rm fill v : Nat) : convert src dst rm fill v = fromInt dst rm (intVal src v) := by
  rw [convert, if_neg (by omega), isFp_eq_false (.inl h), if_neg Bool.false_ne_true]

theorem also_bits (z : Res) (f : BitVec 7) (b : Bool) : (z.also f b).bits = z.bits := rfl

theorem also_zero_flags (z : Res) (b : Bool) : (z.also 0 b).flags = z.flags := BitVec.or_zero

theorem also_exc_iff (z : Res) (f : BitVec 7) (b : Bool) : (z.also f b).exc = true ↔ z.exc = true ∨ b = true :=
  (Bool.or_eq_true _ _).to_iff

theorem clampedTo_also {dst : Nat} {z : Res} {i : Int} (h : ClampedTo dst z i False) (b : Bool) {sub : Prop} (hb : b = true ↔ sub) :
    ClampedTo dst (z.also 0 b) i sub := by
  obtain ⟨h1, h2, h3⟩ := h
  refine ⟨h1, by rw [also_zero_flags, h2], ?_⟩
  rw [also_exc_iff, h3, hb, or_false]

theorem convert_from_rn (dst rm fill x : Nat) : convert 14 dst rm fill x =
    (if dst = 14 then Res.plain (rnRead fill x).1 else fromInt dst rm (rnValue (rnRead fill x).1)).also 0 (rnRead fill x).2 :=
  if_pos rfl

/-- A conversion from rn30 (R39, R46). -/
theorem convert_rn {fill : Nat} {c : Nat → Nat} (hc : RnReads (fill % 2 ^ 32) c) {x : Nat} (hx : x < 2 ^ 32) (dst rm : Nat) :
    (dst < 8 → ClampedTo dst (convert 14 dst rm fill x) (rnValue (c x)) (¬ RnContainer x)) ∧
    (dst = 14 → (convert 14 dst rm fill x).bits = c x ∧ (convert 14 dst rm fill x).flags = 0 ∧
      ((convert 14 dst rm fill x).exc = true ↔ ¬ RnContainer x)) ∧
    (8 ≤ dst → dst < 14 → (convert 14 dst rm fill x).bits = (intToFp dst rm (rnValue (c x))).bits ∧
      (convert 14 dst rm fill x).flags = (intToFp dst rm (rnValue (c x))).flags ∧
      ((convert 14 dst rm fill x).exc = true ↔ (intToFp dst rm (rnValue (c x))).exc = true ∨ ¬ RnContainer x)) := by
  obtain ⟨x1, -, x3⟩ := rnRead_eq hc hx
  have hz : convert 14 dst rm fill x =
      (if dst = 14 then Res.plain (c x) else fromInt dst rm (rnValue (c x))).also 0 (rnRead fill x).2 := by
    rw [convert_from_rn, x1]
  rw [hz]
  refine ⟨fun h => ?_, fun h => ?_, fun h1 h2 => ?_⟩
  · rw [if_neg (by omega), fromInt_eq_clampInt (.inl h)]
    exact clampedTo_also (clampInt_clamped (.inl h) _) _ x3
  · rw [if_pos h]
    refine ⟨also_bits _ _ _, also_zero_flags _ _, ?_⟩
    rw [also_exc_iff, x3]
    exact or_iff_right Bool.false_ne_true
  · rw [if_neg (by omega), fromInt_eq_intToFp h1 h2]
    exact ⟨also_bits _ _ _, also_zero_flags _ _, by rw [also_exc_iff, x3]⟩

section
variable {src : Nat} (h1 : 8 ≤ src) (h2 : src < 14)
include h1 h2

theorem convert_fp (dst rm fill v : Nat) :
    convert src dst rm fill v = if isFp dst then fpToFp src dst rm v else fpToIntTy src dst rm v := by
  rw [convert, if_neg (by omega), isFp_eq_true h1 h2, if_pos rfl]

theorem convert_fp_int {dst : Nat} (h : dst < 8 ∨ dst = 14) (rm fill v : Nat) :
    convert src dst rm fill v = fpToIntTy src dst rm v := by
  rw [convert_fp h1 h2, isFp_eq_false h, if_neg Bool.false_ne_true]

theorem convert_fp_fp {dst : Nat} (h3 : 8 ≤ dst) (h4 : dst < 14) (rm fill v : Nat) :
    convert src dst rm fill v = fpToFp src dst rm v := by
  rw [convert_fp h1 h2, isFp_eq_true h3 h4, if_pos rfl]

end

/-- A floating-point number becomes the integer that the mode picks, when it is in the range of rn30, or the nearer edge
(R39, R41). -/
theorem fpToRn_rounds {rm : Nat} (hrm : rm ≤ 4) {src v : Nat} {n : Bool} {m : Nat} {e : Int}
    (hv : unpack (fmtOf src) v = .num n m e) :
    let z := fpToIntTy src 14 rm v
    ∃ i : Int, Rounds rm (fun q => ∃ j : Int, q = (j : Rat)) (num n m e) (i : Rat) (i % 2 = 0) ∧
      (rnMin ≤ i → i ≤ rnMax → RnHolds z.bits i ∧ z.flags = (if (i : Rat) = num n m e then 0 else flagInx) ∧ z.exc = false) ∧
      (i < rnMin ∨ rnMax < i → ClampedTo 14 z i False) := by
  intro z
  obtain ⟨hr, hinx⟩ := fpToInt_rounds hrm n m e
  have hz : z = (if (fpToInt rm n m e).2 && decide ((intToRn (fpToInt rm n m e).1).flags = 0) then
      (intToRn (fpToInt rm n m e).1).also flagInx false else intToRn (fpToInt rm n m e).1) := by
    simp only [z, fpToIntTy, hv, if_true]
  generalize fpToInt rm n m e = r at *
  obtain ⟨hin, hlo, hhi⟩ := intToRn_cases r.1
  refine ⟨r.1, hr, fun h1 h2 => ?_, fun h => ?_⟩
  · rw [hz, hin h1 h2]
    by_cases hx : (r.1 : Rat) = num n m e
    · have h0 : r.2 = false := by rw [← Bool.not_eq_true, hinx]; simpa using hx
      rw [if_pos hx, h0]
      exact ⟨rnEncode_holds h1 h2, rfl, rfl⟩
    · rw [if_neg hx, hinx.mpr hx]
      exact ⟨rnEncode_holds h1 h2, by simp [Res.also, Res.plain], rfl⟩
  · have hs : (intToRn r.1).flags = flagSat := by
      rcases h with h | h
      · rw [hlo h]; rfl
      · rw [hhi h]; rfl
    rw [hz, hs, show decide (flagSat = 0) = false by decide, Bool.and_false, if_neg Bool.false_ne_true]
    exact clampInt_clamped (dst := 14) (.inr rfl) r.1

/-- An infinity becomes the edge of an integer type or of rn30 (R41). -/
theorem fpToIntTy_inf {src v : Nat} {n : Bool} (hv : unpack (fmtOf src) v = .inf n) {dst : Nat} (h : dst < 8 ∨ dst = 14) (rm : Nat) :
    Reads dst (fpToIntTy src dst rm v).bits (if n then leastOf dst else greatestOf dst) ∧
      (fpToIntTy src dst rm v).flags = flagSat ∧ (fpToIntTy src dst rm v).exc = true := by
  rcases h with h | rfl
  · have hz : fpToIntTy src dst rm v = Res.mk' (intBits dst (if n then intMin dst else intMax dst)) flagSat := by
      simp only [fpToIntTy, hv, if_neg (show dst ≠ 14 by omega)]
    have hle := intMin_le_intMax dst
    rw [hz, reads_iff h, leastOf_eq h, greatestOf_eq h]
    refine ⟨?_, rfl, rfl⟩
    cases n
    · exact intVal_intBits hle le_rfl
    · exact intVal_intBits le_rfl hle
  · have hz : fpToIntTy src 14 rm v = Res.mk' (rnEncode (if n then rnMin else rnMax)) flagSat := by
      simp only [fpToIntTy, hv, if_true]
    have hle : rnMin ≤ rnMax := by decide
    rw [hz]
    refine ⟨?_, rfl, rfl⟩
    cases n
    · exact rnEncode_holds hle le_rfl
    · exact rnEncode_holds le_rfl hle

theorem fpToIntTy_nan {src v : Nat} {q : Bool} (hv : unpack (fmtOf src) v = .nan q) (dst rm : Nat) :
    fpToIntTy src dst rm v = { bits := 0, flags := flagInv, exc := true } := by
  simp only [fpToIntTy, hv]
  rfl

theorem fpToFp_inf {src v : Nat} {n : Bool} (hv : unpack (fmtOf src) v = .inf n) {dst : Nat} (h1 : 8 ≤ dst) (h2 : dst < 14) (rm : Nat) :
    fpToFp src dst rm v = if dst = 8 then { bits := (fmtOf dst).maxFin n, flags := flagSat, exc := true }
      else { bits := (fmtOf dst).inf n, flags := 0, exc := false } := by
  simp only [fpToFp, hv, infRes]
  by_cases h8 : dst = 8
  · rw [if_pos h8, if_neg (by subst h8; exact Bool.false_ne_true)]
    rfl
  · have hinf : (fmtOf dst).hasInf = true := by
      have h9 : 9 ≤ dst := by omega
      clear h1 h8
      interval_cases dst <;> rfl
    rw [if_neg h8, if_pos hinf]
    rfl

theorem fpToFp_nan {src v : Nat} {q : Bool} (hv : unpack (fmtOf src) v = .nan q) (dst rm : Nat) :
    fpToFp src dst rm v = { bits := (fmtOf dst).nan, flags := if q then flagInv else 0, exc := q } := by
  simp only [fpToFp, hv]
  cases q <;> rfl

/-- The conversions of a floating-point element, as the statement says them. -/
theorem convert_fp_cases {dst rm : Nat} (hrm : rm ≤ 4) (fill : Nat) {src : Nat} (v : Nat) (h1 : 8 ≤ src) (h2 : src < 14) :
    let z := convert src dst rm fill v
    (∀ n m e, unpack (fmtOf src) v = .num n m e →
      (dst = 14 → ∃ i : Int, Rounds rm (fun q => ∃ j : Int, q = (j : Rat)) (num n m e) (i : Rat) (i % 2 = 0) ∧
        (leastOf dst ≤ i → i ≤ greatestOf dst →
          Reads dst z.bits i ∧ z.flags = (if (i : Rat) = num n m e then 0 else flagInx) ∧ z.exc = false) ∧
        (i < leastOf dst ∨ greatestOf dst < i → ClampedTo dst z i False)) ∧
      (dst < 8 → z = fpToIntTy src dst rm v) ∧ (8 ≤ dst → dst < 14 → z = fpToFp src dst rm v)) ∧
    (∀ n, unpack (fmtOf src) v = .inf n →
      (dst < 8 ∨ dst = 14 → Reads dst z.bits (if n then leastOf dst else greatestOf dst) ∧ z.flags = flagSat ∧ z.exc = true) ∧
      (8 ≤ dst → dst < 14 →
        z = if dst = 8 then { bits := (fmtOf dst).maxFin n, flags := flagSat, exc := true }
          else { bits := (fmtOf dst).inf n, flags := 0, exc := false })) ∧
    (∀ q, unpack (fmtOf src) v = .nan q →
      (dst < 8 ∨ dst = 14 → z = { bits := 0, flags := flagInv, exc := true }) ∧
      (8 ≤ dst → dst < 14 → z = { bits := (fmtOf dst).nan, flags := if q then flagInv else 0, exc := q })) := by
  intro z
  have hi (h : dst < 8 ∨ dst = 14) : z = fpToIntTy src dst rm v := convert_fp_int h1 h2 h rm fill v
  have hf (h3 : 8 ≤ dst) (h4 : dst < 14) : z = fpToFp src dst rm v := convert_fp_fp h1 h2 h3 h4 rm fill v
  refine ⟨fun n m e hv => ⟨fun hd => ?_, fun hd => hi (.inl hd), hf⟩, fun n hv => ⟨fun hd => ?_, fun h3 h4 => ?_⟩,
    fun q hv => ⟨fun hd => ?_, fun h3 h4 => ?_⟩⟩
  · rw [hi (.inr hd)]
    subst hd
    exact fpToRn_rounds hrm hv
  · rw [hi hd]
    exact fpToIntTy_inf hv hd rm
  · rw [hf h3 h4]
    exact fpToFp_inf hv h3 h4 rm
  · rw [hi hd, fpToIntTy_nan hv]
  · rw [hf h3 h4, fpToFp_nan hv]

/-- Settles O47: integer results are read back from their residues modulo the type's range, rn30 results from their residues in
the three channels, and a conversion clamps or rounds the number that its source stands for. -/
theorem integerElementResults : Obligations.IntegerElementResults := by
  unfold Obligations.IntegerElementResults
  refine ⟨fun ty x y hty => ?_, ?_⟩
  · have h := intOp_statement ty x y
    rw [intMin_eq hty, intMax_eq hty] at h
    simp only [Wraps, intMin_eq hty, intMax_eq hty] at h
    exact h
  intro valid low high holds
  refine ⟨fun v hv => ⟨rnValue_holds hv, fun i hi => rnHolds_unique hi (rnValue_holds hv)⟩, fun i h1 h2 => rnEncode_holds h1 h2, ?_⟩
  intro fill c x y hx hy word hc X Y modulo
  obtain ⟨hadd, hsub, hrsub, hmul⟩ := rnOps_modulo hc hx hy modulo fun o v => Iff.rfl
  refine ⟨hadd, hsub, hrsub, hmul, rnBitwise hx hy, ?_⟩
  intro dst rm hrm b lo hi is clamped
  refine ⟨fun src v hsrc => ⟨fun hd => ?_, fun h1 h2 => ?_⟩, convert_rn hc hx dst rm, fun src v h1 h2 =>
    convert_fp_cases hrm fill.toNat v h1 h2⟩
  · rw [convert_int hsrc, fromInt_eq_clampInt hd]
    exact clampInt_clamped hd _
  · rw [convert_int hsrc, fromInt_eq_intToFp h1 h2]

end Sys2Proof.Proofs
end

section
/-!
Registers, masks and scale registers that a launch does not have (R48, R62, R66, R101, R112).
-/

namespace Sys2Proof.Proofs

open Sys2Proof Sys2Proof.Machine Sys2Proof.Safety Sys2Proof.Laws

theorem exec_vaddVV (d a b : Reg) (m : MaskF) (x : Bool) (s : State) :
    exec (.vaddVV d a b m x) s = push s 4 [] fun _ => .int .add d a (.v b) m x := rfl

theorem exec_vcmpLtVV (d : MaskF) (a b : Reg) (m : MaskF) (s : State) :
    exec (.vcmpLtVV d a b m) s = push s 4 [] fun _ => .cmp .lt d a (.v b) m := rfl

theorem exec_mset (d : MaskF) (a b : Reg) (s : State) :
    exec (.mset d a b) s = push s 4 [a, b] fun th => .mset d (readG th a) (readG th b) := rfl

theorem exec_vld (d b : Reg) (m : MaskF) (c : Fin 16) (f : Bool) (s : State) :
    exec (.vld d b m c f) s = push s 4 [b] fun th => .load .unit d (readG th b) 0 0 m c.val f := rfl

theorem exec_vcvt (d a : Reg) (t : Fin 16) (m : MaskF) (x : Bool) (s : State) :
    exec (.vcvt d a t m x) s = push s 4 [] fun _ => .cvt d a t.val m x := rfl

/-- A vector instruction that names a register, a mask or a scale register it may not is not pushed (R112). -/
theorem push_illegalReg {s : State} (hm : isMcc s.cur = false) (len : Nat) (gs : List Reg) (mk : Thread → VOp)
    (h : registersOk (running s) (mk (running s)) = false) : Raises s (push s len gs mk) 0x02 (running s).ir.toNat true := by
  have h' : registersOk (getThread s s.cur) (mk (getThread s s.cur)) = false := h
  have hp : push s len gs mk = raise s s.cur (causeInfo 0x02 (running s).ir.toNat) true := by
    simp only [push, hm, h']
    rfl
  rw [hp]
  exact raises_unroutable s (by simp [routable]) _ _

section
variable {th : Thread}

/-- A chain at or above NV (R66). -/
abbrev NoReg (th : Thread) (r : Reg) : Prop := th.nv ≤ r.val

/-- A mask at or above NM that is neither m0 nor m46 (R62). -/
abbrev NoMask (th : Thread) (m : MaskF) : Prop := th.nm ≤ m.val ∧ m.val ≠ 0 ∧ m.val ≠ 46

theorem regOk_iff (r : Reg) : regOk th r = true ↔ ¬ NoReg th r := by
  rw [regOk, decide_eq_true_eq, not_le]

theorem maskFieldOk_iff (m : MaskF) : maskFieldOk th m = true ↔ ¬ NoMask th m := by
  simp only [maskFieldOk, Bool.or_eq_true, decide_eq_true_eq]
  omega

variable {op : VOp}

theorem registersOk_eq_false_of_reg {r : Reg} (hr : r ∈ vregsOf op) (h : NoReg th r) : registersOk th op = false := by
  refine Bool.eq_false_iff.mpr fun hok => ?_
  simp only [registersOk, Bool.and_eq_true, List.all_eq_true] at hok
  exact (regOk_iff r).mp (hok.1.1.1 r hr) h

theorem registersOk_eq_false_of_mask {m : MaskF} (hm : m ∈ masksOf op) (h : NoMask th m) : registersOk th op = false := by
  refine Bool.eq_false_iff.mpr fun hok => ?_
  simp only [registersOk, Bool.and_eq_true, List.all_eq_true] at hok
  exact (maskFieldOk_iff m).mp (hok.1.1.2 m hm) h

theorem registersOk_eq_false_of_m46 {m : MaskF} (hm : writtenMask op = some m) (h : m.val = 46) : registersOk th op = false := by
  refine Bool.eq_false_iff.mpr fun hok => ?_
  simp only [registersOk, hm, Bool.and_eq_true, decide_eq_true_eq] at hok
  exact hok.1.2 h

theorem registersOk_eq_false_of_scale {d a : Reg} {t : Nat} {m : MaskF} {x : Bool} (hg : grouped th.vtype = true)
    (h : a.val = 31 ∨ th.nv ≤ a.val + 1) : registersOk th (.cvt d a t m x) = false := by
  refine Bool.eq_false_iff.mpr fun hok => ?_
  simp only [registersOk, hg, scaleOk, Bool.not_true, Bool.false_or, Bool.and_eq_true, decide_eq_true_eq] at hok
  obtain ⟨-, h31, hnv⟩ := hok
  omega

theorem grouped_of_blocks {vt : Nat} (h : vt % 16 = 0 ∧ vt / 128 % 2 = 0 ∧ 2 ≤ vt / 16 % 8) : grouped vt = true := by
  obtain ⟨h1, h2, h3⟩ := h
  have hill : vtIll vt = false := decide_eq_false (by omega)
  have hty : vtTy vt = 0 := by rw [vtTy, bitsOf]; omega
  have hblock : 2 ≤ vtBlock vt := by rw [vtBlock, bitsOf]; omega
  rw [grouped, hill, decide_eq_true hty, decide_eq_true hblock]
  rfl

theorem registersOk_vaddVV (d a b : Reg) (m : MaskF) (x : Bool) : registersOk th (.int .add d a (.v b) m x) = true ↔
    ¬ (NoReg th d ∨ NoReg th a ∨ NoReg th b ∨ NoMask th m ∨ (x = true ∧ m.val = 46)) := by
  have hv : vregsOf (.int .add d a (.v b) m x) = [d, a, b] := rfl
  have hm : masksOf (.int .add d a (.v b) m x) = [m] := rfl
  unfold registersOk
  rw [hv, hm]
  simp only [List.all_cons, List.all_nil, Bool.and_true, Bool.and_eq_true, regOk_iff, maskFieldOk_iff, not_or]
  cases x
  · simp [writtenMask, and_assoc]
  · simp [writtenMask, and_assoc]

end

/-- Settles O40: each of the instructions is pushed only after the register checks, and each of the named faults fails one of
them. -/
theorem illegalRegistersRaise : Obligations.IllegalRegistersRaise := by
  unfold Obligations.IllegalRegistersRaise
  intro s d a b md m x f t c hm th I noReg noMask blocks
  have hpush {len gs mk} (h : registersOk th (mk th) = false) := push_illegalReg hm len gs mk h
  refine ⟨fun h => ?_, fun h => ?_, fun h => ?_, fun h => ?_, fun h => ?_, fun hb h => ?_, registersOk_vaddVV d a b m x⟩
  · refine hpush (mk := fun _ => .int .add d a (.v b) m x) (Bool.eq_false_iff.mpr fun hok => ?_)
    exact (registersOk_vaddVV d a b m x).mp hok h
  · refine hpush (mk := fun _ => .cmp .lt md a (.v b) m) ?_
    rcases h with h | h | h | h | h
    · exact registersOk_eq_false_of_reg (r := a) (by simp [vregsOf]) h
    · exact registersOk_eq_false_of_reg (r := b) (by simp [vregsOf, srcRegs]) h
    · exact registersOk_eq_false_of_mask (m := m) (by simp [masksOf]) h
    · exact registersOk_eq_false_of_mask (m := md) (by simp [masksOf]) h
    · exact registersOk_eq_false_of_m46 rfl h
  · refine hpush (mk := fun th => .mset md (readG th a) (readG th b)) ?_
    rcases h with h | h
    · exact registersOk_eq_false_of_mask (m := md) (by simp [masksOf]) h
    · exact registersOk_eq_false_of_m46 rfl h
  · refine hpush (mk := fun th => .load .unit d (readG th b) 0 0 m c.val f) ?_
    rcases h with h | h
    · exact registersOk_eq_false_of_reg (r := d) (by simp [vregsOf]) h
    · exact registersOk_eq_false_of_mask (m := m) (by simp [masksOf]) h
  · refine hpush (mk := fun _ => .cvt d a t.val m x) ?_
    rcases h with h | h | h | ⟨rfl, h⟩
    · exact registersOk_eq_false_of_reg (r := d) (by simp [vregsOf]) h
    · exact registersOk_eq_false_of_reg (r := a) (by simp [vregsOf]) h
    · exact registersOk_eq_false_of_mask (m := m) (by simp [masksOf]) h
    · exact registersOk_eq_false_of_m46 rfl h
  · exact hpush (mk := fun _ => .cvt d a t.val m x) (registersOk_eq_false_of_scale (grouped_of_blocks hb) h)

end Sys2Proof.Proofs
end

section
/-!
The grant of vsetl (R80 to R82, R159, R160).
-/

namespace Sys2Proof.Proofs

open Sys2Proof Sys2Proof.Machine Sys2Proof.Safety Sys2Proof.Laws

theorem exec_vsetl (d a : Reg) (ty : Fin 16) (k r : Fin 8) (s : State) :
    exec (.vsetl d a ty k r) s = execVsetl d a ty k r s := rfl

/-- The queues have room just when the statement's condition says so (R158, R210, R264). -/
theorem hasRoom_iff (s : State) (op : VOp) : hasRoom s s.cur op = true ↔ Room s op := by
  simp only [hasRoom, counterFull, Bool.and_eq_true, Bool.or_eq_true, Bool.not_eq_true', Bool.or_eq_false_iff, Bool.and_eq_false_iff,
    decide_eq_true_eq, decide_eq_false_iff_not, not_le, Option.isNone_iff_eq_none]
  have hdef : ∀ (b : Bool) (p : Prop), (b = true → p) ↔ (b = false ∨ p) := by
    intro b p
    cases b <;> simp
  simp only [Room, hdef, ne_eq, ← or_iff_not_imp_left]
  constructor
  · rintro ⟨⟨h1, h2⟩, ⟨⟨h3, h4⟩, h5⟩, h6⟩
    exact ⟨h1, h2, h3, h4, h5, h6⟩
  · rintro ⟨h1, h2, h3, h4, h5, h6⟩
    exact ⟨⟨h1, h2⟩, ⟨⟨h3, h4⟩, h5⟩, h6⟩

theorem advance_enqueue (th : Thread) (op : VOp) (len : Nat) : advance (enqueue th op) len = pushed th op len := rfl

/-- A vsetl that goes on takes its grant and pushes the update of m46 (R159). -/
theorem vsetl_becomes {s : State} {d a : Reg} (h : Usable s d [a]) (hm : isMcc s.cur = false) (hff : ffPending (running s) = false)
    (hroom : Room s (.setM46 0)) {ty : Fin 16} {k r : Fin 8} {g : Grant}
    (hg : grantOf (dropLate (running s) d) (powcapOf s s.cur) d (reg s a).toNat ty.val k.val r.val = g) :
    Becomes s (exec (.vsetl d a ty k r) s)
      (pushed (writeG { dropLate (running s) d with
        budget := (dropLate (running s) d).lbud, vtype := g.vtype, maxvl := g.maxvl, vl := g.vl, lastGrant := g.vl, clrec := g.clrec }
        g.d (BitVec.ofNat 64 g.vl)) (.setM46 g.m46) 4) := by
  have hf : ffPending (dropLate (running s) d) = false := hff
  have hr := (hasRoom_iff s (.setM46 0)).mpr hroom
  have he : exec (.vsetl d a ty k r) s = retire s (applyGrant (dropLate (running s) d) g) 4 := by
    subst hg
    simp only [exec_vsetl, execVsetl, hm, withDest_usable h, hr, hf, Bool.not_true, Bool.false_eq_true, if_false]
    rfl
  rw [he, ← advance_enqueue]
  exact becomes_retire s (applyGrant (dropLate (running s) d) g) 4

/-- The legal pairs of type and block (R80). -/
theorem pairOk_iff (ty : Nat) {k : Nat} : pairOk ty k = true ↔
    k = 0 ∨ (k = 1 ∧ ty ∈ [0, 8, 9, 10]) ∨ (2 ≤ k ∧ k ≤ 4 ∧ ty = 0) := by
  simp only [pairOk, Bool.or_eq_true, Bool.and_eq_true, decide_eq_true_eq, List.mem_cons, List.not_mem_nil, or_false]
  omega

theorem bitAt_eq_testBit (v i : Nat) : bitAt v i = v.testBit i := by
  rw [bitAt, Nat.testBit_eq_decide_div_mod_eq]

/-- A CLMODE that is well formed (R49). -/
theorem clWellFormed_iff (cl : Nat) : clWellFormed cl = true ↔
    2 ≤ cl % 2 ^ 9 ∧ cl % 2 ^ 9 ≤ 256 ∧ (64 < cl % 2 ^ 9 → cl.testBit 9 = true) ∧
      (cl.testBit 18 = true → cl / 2 ^ 10 % 2 ^ 8 < cl % 2 ^ 9) := by
  have hS : clS cl = cl % 2 ^ 9 := by rw [clS, bitsOf, pow_zero, Nat.div_one]
  have hD : clD cl = cl / 2 ^ 10 % 2 ^ 8 := rfl
  simp only [clWellFormed, hS, hD, clWide, clDv, bitAt_eq_testBit, Bool.and_eq_true, Bool.or_eq_true, decide_eq_true_eq, Bool.not_eq_true']
  generalize cl.testBit 9 = w
  generalize cl.testBit 18 = v
  constructor
  · rintro ⟨⟨⟨h1, h2⟩, h3⟩, h4⟩
    refine ⟨h1, h2, fun h => h3.resolve_right (not_le.mpr h), fun h => h4.resolve_left ?_⟩
    exact fun c => Bool.false_ne_true (c.symm.trans h)
  · rintro ⟨h1, h2, h3, h4⟩
    refine ⟨⟨⟨h1, h2⟩, ?_⟩, ?_⟩
    · exact or_iff_not_imp_right.mpr fun h => h3 (not_le.mp h)
    · cases v
      · exact .inl rfl
      · exact .inr (h4 rfl)

section
variable (th : Thread) (powcap : Nat) (d : Reg) (req : Nat) (ty k r : Nat)

/-- What makes a vsetl's codes or its budget no grant at all (R80 to R82). -/
def BadGrant : Prop :=
  ¬ pairOk ty k = true ∨ 4 < r ∨ (ty = 15 ∧ ¬ clWellFormed th.clmode = true) ∨
    maxvlOf th.lbud th.nv (tySize ty th.clmode) (blockSize k) < blockSize k

/-- The CLMODE that a grant records (R242). -/
def recordedClmode : Nat := if ty = 15 ∧ clWellFormed th.clmode = true then th.clmode else th.clrec

theorem grantBad_iff : (decide (4 < k) || decide (4 < r) || !pairOk ty k || (isMap ty && !clWellFormed th.clmode) ||
    decide (maxvlOf th.lbud th.nv (tySize ty th.clmode) (blockSize k) < blockSize k)) = true ↔ BadGrant th ty k r := by
  have hk : 4 < k → ¬ pairOk ty k = true := by
    rw [pairOk_iff]
    omega
  simp only [Bool.or_eq_true, Bool.and_eq_true, Bool.not_eq_true', decide_eq_true_eq, isMap, BadGrant, Bool.not_eq_true]
  constructor
  · rintro ((((h | h) | h) | h) | h)
    · exact .inl (Bool.not_eq_true _ ▸ hk h)
    · exact .inr (.inl h)
    · exact .inl h
    · exact .inr (.inr (.inl h))
    · exact .inr (.inr (.inr h))
  · rintro (h | h | h | h)
    · exact .inl (.inl (.inr h))
    · exact .inl (.inl (.inl (.inr h)))
    · exact .inl (.inr h)
    · exact .inr h

theorem grantOf_clrec : (if isMap ty && clWellFormed th.clmode then th.clmode else th.clrec) = recordedClmode th ty := by
  simp only [recordedClmode, isMap, Bool.and_eq_true, decide_eq_true_eq]

theorem grantOf_bad (h : BadGrant th ty k r) :
    grantOf th powcap d req ty k r =
      { d := d, vtype := ty + 2 ^ 4 * k + 2 ^ 8 * r + 2 ^ 7, maxvl := 0, vl := 0, m46 := 0, clrec := recordedClmode th ty } := by
  simp only [grantOf, grantOf_clrec]
  rw [if_pos ((grantBad_iff th ty k r).mpr h)]

theorem grantOf_good (h : ¬ BadGrant th ty k r) :
    grantOf th powcap d req ty k r =
      let b := blockSize k
      let e := tySize ty th.clmode
      let vl := if req = 0 then 0
        else min (ceilDiv req b * b) (min (maxvlOf th.lbud th.nv e b) (max (max b (max 1 (128 / e))) (powcap * 128 / (e * b) * b)))
      { d := d, vtype := ty + 2 ^ 4 * k + 2 ^ 8 * r, maxvl := maxvlOf th.lbud th.nv e b, vl := vl, m46 := min req vl
        clrec := recordedClmode th ty } := by
  simp only [grantOf, grantOf_clrec]
  rw [if_neg fun c => h ((grantBad_iff th ty k r).mp c)]

end

/-- Settles O41: a vsetl takes the grant that the model computes, whose case split is that of the statement. -/
theorem grantsOfVsetl : Obligations.GrantsOfVsetl := by
  unfold Obligations.GrantsOfVsetl
  intro s d a ty k r h hm hff hroom th cl well req b e mx cap pair vl codes B
  have hb : blockSize k.val = b := rfl
  have he : tySize ty.val (dropLate th d).clmode = e := by
    change (if ty.val = 15 then (if clWide cl then 256 else 64) else _) = _
    rw [clWide, bitAt_eq_testBit]
  have hmx : maxvlOf (dropLate th d).lbud (dropLate th d).nv (tySize ty.val (dropLate th d).clmode) (blockSize k.val) = mx := by
    rw [he, hb]
    rfl
  have hwell : clWellFormed (dropLate th d).clmode = true ↔ well := clWellFormed_iff cl
  have hpair : pairOk ty.val k.val = true ↔ pair := pairOk_iff ty.val
  have hrec : recordedClmode (dropLate th d) ty.val = if ty.val = 15 ∧ well then cl else th.clrec := by
    simp only [recordedClmode, hwell]
    rfl
  have hbad : BadGrant (dropLate th d) ty.val k.val r.val ↔ ¬ pair ∨ 4 < r.val ∨ (ty.val = 15 ∧ ¬ well) ∨ mx < b := by
    rw [BadGrant, hmx, hpair, hwell, hb]
  refine ⟨fun h1 h2 h3 h4 => ?_, fun hc => ?_⟩
  · have hn : ¬ BadGrant (dropLate th d) ty.val k.val r.val := by
      rw [hbad]
      rintro (c | c | ⟨c1, c2⟩ | c)
      · exact c h1
      · omega
      · exact c2 (h3 c1)
      · omega
    refine vsetl_becomes (g := ⟨d, codes, mx, vl, min req vl, if ty.val = 15 ∧ well then cl else th.clrec⟩) h hm hff hroom ?_
    change grantOf (dropLate th d) _ d req ty.val k.val r.val = _
    rw [grantOf_good _ _ _ _ _ _ _ hn, hrec]
    dsimp only
    rw [hmx, he, hb]
    rfl
  · refine vsetl_becomes (g := ⟨d, codes + 128, 0, 0, 0, if ty.val = 15 ∧ well then cl else th.clrec⟩) h hm hff hroom ?_
    change grantOf (dropLate th d) _ d req ty.val k.val r.val = _
    rw [grantOf_bad _ _ _ _ _ _ _ (hbad.mpr hc), hrec]
    rfl

end Sys2Proof.Proofs
end

section
/-!
Reads of user CSRs (R58, R86, R87, R155, R156, R263, R269).
-/

namespace Sys2Proof.Proofs

open Sys2Proof Sys2Proof.Machine Sys2Proof.Safety Sys2Proof.Laws

theorem exec_csrr (d : Reg) (n : Fin 4096) (s : State) : exec (.csrr d n) s = csrRead s d n.val 4 := rfl

/-- A number from 0x000 to 0x01F names a user CSR (R86). -/
theorem csrFault_eq_none {n : Nat} (h : n < 0x020) (th : Thread) : csrFault th n = none := by rw [csrFault, if_pos h]

/-- A record with a new value of one register and a pc, put back. -/
theorem writes_retire_plain (s : State) (d : Reg) (v : Word) (len : Nat) :
    Writes s (retire s (writeG (dropLate (running s) d) d v) len) d v 0 len := by
  have h := writes_retire s d v 0 len
  rwa [show ({ dropLate (running s) d with fflags := (running s).fflags ||| 0 } : Thread) = dropLate (running s) d by
    simp [dropLate]] at h

section
variable {s : State} {d : Reg} {n : Fin 4096} (hu : Usable s d [])
include hu

/-- A CSR that the read queue does not serve is read at once (R87, R155). -/
theorem csrr_writes {k : Nat} (hk : k = n.val) (hn : k < 0x020) (hff : ffStalls k = true → ffPending (running s) = false)
    (hserved : (servedByQueue k && !isMcc s.cur) = false) (hout : k = 0x008 → (running s).out = []) (hcyc : k ≠ 0x011)
    {v : Word} (hv : csrValue s s.cur k = v) : Writes s (exec (.csrr d n) s) d v 0 4 := by
  have hff' : (ffStalls k && ffPending (dropLate (running s) d)) = false := by
    cases hs : ffStalls k
    · rfl
    · exact hff hs
  have hout' : ¬ (k = 0x008 ∧ (dropLate (running s) d).out.isEmpty = false) := by
    rintro ⟨h8, he⟩
    simp [dropLate, hout h8] at he
  have he : exec (.csrr d n) s = retire s (writeG (dropLate (running s) d) d v) 4 := by
    rw [exec_csrr, csrRead, ← hk, csrFault_eq_none hn]
    simp only [withDest_usable hu, hff', hserved, Bool.false_eq_true, if_false, if_neg hout', if_neg hcyc, hv]
  rw [he]
  exact writes_retire_plain s d v 4

/-- A CSR that the read queue serves on a vector core (R87). -/
theorem csrr_queued {k : Nat} (hk : k = n.val) (hn : k < 0x020) (hff : ffStalls k = false) (hserved : servedByQueue k = true)
    (hm : isMcc s.cur = false) : exec (.csrr d n) s = csrQueued s (dropLate (running s) d) d k 4 := by
  rw [exec_csrr, csrRead, ← hk, csrFault_eq_none hn]
  simp only [withDest_usable hu, hff, hserved, hm, Bool.false_and, Bool.not_false, Bool.and_true, Bool.false_eq_true, if_false, if_true]

end

section
variable {s : State} {d : Reg} {n : Fin 4096}

theorem csrr_illegal (h1 : 0x020 ≤ n.val) (h2 : n.val < 0x800) : Raises s (exec (.csrr d n) s) 0x01 (running s).ir.toNat true := by
  have hf : csrFault (getThread s s.cur) n.val = some (causeInfo 0x01 (running s).ir.toNat) := by
    rw [csrFault, if_neg (by omega), if_pos h2]
    rfl
  simp only [exec_csrr, csrRead, hf]
  exact raises_unroutable s (by simp [routable]) _ _

theorem csrr_protected (h : 0x800 ≤ n.val) : Raises s (exec (.csrr d n) s) 0x07 n.val true := by
  have hf : csrFault (getThread s s.cur) n.val = some (causeInfo 0x07 n.val) := by
    rw [csrFault, if_neg (by omega), if_neg (by omega)]
  simp only [exec_csrr, csrRead, hf]
  exact raises_unroutable s (by simp [routable]) _ _

end

theorem csr_present {k : Nat} (h : absentOnMcc k = false) (t : Tid) : (isMcc t && absentOnMcc k) = false := by
  rw [h, Bool.and_false]

theorem csrValue_absent (s : State) {t : Tid} (ht : isMcc t = true) {k : Nat} (h : absentOnMcc k = true) : csrValue s t k = 0 := by
  have hc : (isMcc t && absentOnMcc k) = true := by rw [ht, h]; rfl
  unfold csrValue
  exact if_pos hc

theorem csr_vector {t : Tid} (ht : isMcc t = false) (k : Nat) : (isMcc t && absentOnMcc k) = false := by
  rw [ht, Bool.false_and]

/-- The record of a thread whose csrr waits in the read queue. -/
def csrWaiting (th : Thread) (d : Reg) (n : Nat) (v : Option Word) (len : Nat) : Thread :=
  { th with
    rq := th.rq ++ [{ reg := d, val := v, stamp := th.nextStamp, csr := some n, base := th.fflags, froze := false }]
    nextStamp := th.nextStamp + 1, pc := th.pc + BitVec.ofNat 64 len }

/-- With 16 values awaited a csrr waits (R87). -/
theorem csrQueued_full {s : State} {th : Thread} (h : 16 ≤ th.rq.length) (d : Reg) (n len : Nat) :
    csrQueued s th d n len = stall s := if_pos h

theorem csrDue_eq_false {th : Thread} {x : RqItem} (h : ∃ e ∈ th.vq, e.stamp < x.stamp) (n : Nat) : csrDue th x n = false := by
  obtain ⟨e, he, hlt⟩ := h
  have hq : (th.vq.all fun e => decide (x.stamp ≤ e.stamp)) = false :=
    List.all_eq_false.mpr ⟨e, he, fun c => absurd (of_decide_eq_true c) (by omega)⟩
  rw [csrDue, hq, Bool.false_and]

/-- A csrr into g0 waits for its value (R155). -/
theorem csrQueued_zero_waits {s : State} {th : Thread} (h : ∃ e ∈ th.vq, e.stamp < th.nextStamp) (n len : Nat) :
    csrQueued s th 0 n len = stall s := by
  rw [csrQueued, if_pos rfl, csrDue_eq_false (x := csrItem th 0 n) h, if_neg Bool.false_ne_true, ite_self]

theorem csrDue_empty {th : Thread} (hq : th.vq = []) {n : Nat} (ho : n = 0x008 → th.out = []) (x : RqItem) : csrDue th x n = true := by
  rw [csrDue, hq, List.all_nil, Bool.true_and, Bool.or_eq_true, decide_eq_true_eq]
  by_cases h : n = 0x008
  · rw [ho h]
    exact .inr List.all_nil
  · exact .inl h

theorem csrQueued_zero {s : State} {th : Thread} (hq : th.vq = []) (hr : th.rq = []) {n : Nat} (ho : n = 0x008 → th.out = [])
    (len : Nat) : csrQueued s th 0 n len = retire s th len := by
  have hroom : ¬ Config.rqDepth ≤ th.rq.length := by rw [hr]; decide
  rw [csrQueued, if_neg hroom, if_pos rfl, csrDue_empty hq ho, if_pos rfl]

theorem csrQueued_place {s : State} {th : Thread} {d : Reg} (hd : d ≠ 0) (hr : th.rq.length < 16) (n len : Nat) :
    csrQueued s th d n len = .next (settleQueue (putThread s s.cur (csrWaiting th d n none len)) s.cur) := by
  have hroom : ¬ Config.rqDepth ≤ th.rq.length := not_le.mpr hr
  rw [csrQueued, if_neg hroom, if_neg hd]
  rfl

/-- A csrr with nothing before it has its value at once (R87). -/
theorem csrQueued_now {s : State} {th : Thread} {d : Reg} (hd : d ≠ 0) (hq : th.vq = []) (hr : th.rq = []) {n : Nat}
    (ho : n = 0x008 → th.out = []) {v : Word} (len : Nat)
    (hv : (if n = 0x008 then th.fflags.setWidth 64 else csrValue (putThread s s.cur (csrWaiting th d n none len)) s.cur n) = v) :
    Becomes s (csrQueued s th d n len) (csrWaiting th d n (some v) len) := by
  refine ⟨_, csrQueued_place hd (by rw [hr]; decide) n len, ?_, ?_⟩
  · have hdue := csrDue_empty (th := csrWaiting th d n none len) hq ho
      { reg := d, val := none, stamp := th.nextStamp, csr := some n, base := th.fflags, froze := false }
    rw [settleQueue, getThread_putThread_self, getThread_putThread_self]
    simp only [csrWaiting, hr, List.nil_append, List.map_cons, List.map_nil, settleItem, getThread_putThread_self] at hdue hv ⊢
    rw [hdue, if_pos rfl, hv]
  · exact othersKept_trans (othersKept_put s _ _) (othersKept_settleQueue _ _)

/-- A csrr behind a vector instruction waits in the read queue, and the stream goes on (R87). -/
theorem csrQueued_later {s : State} {th : Thread} {d : Reg} (hd : d ≠ 0) (hr : th.rq.length < 16)
    (he : ∃ e ∈ th.vq, e.stamp < th.nextStamp) (n len : Nat) :
    ∃ s', csrQueued s th d n len = .next s' ∧ OthersKept s.cur s s' ∧
      SameButCsr (csrWaiting th d n none len) (getThread s' s.cur) ∧
      ∀ x, (getThread s' s.cur).rq.getLast? = some x → x.val = none := by
  refine ⟨_, csrQueued_place hd hr n len, othersKept_trans (othersKept_put s _ _) (othersKept_settleQueue _ _), ?_, fun x hx => ?_⟩
  · have h := sameButCsr_settleQueue (putThread s s.cur (csrWaiting th d n none len)) s.cur
    rwa [getThread_putThread_self] at h
  · have hdue := csrDue_eq_false (th := csrWaiting th d n none len)
      (x := { reg := d, val := none, stamp := th.nextStamp, csr := some n, base := th.fflags, froze := false }) he n
    rw [settleQueue, getThread_putThread_self, getThread_putThread_self] at hx
    simp only [csrWaiting, List.map_append, List.map_cons, List.map_nil, List.getLast?_append, List.getLast?_singleton, Option.some_or,
      Option.some.injEq, settleItem, getThread_putThread_self] at hx hdue
    rw [hdue, if_neg Bool.false_ne_true] at hx
    rw [← hx]

/-- CYC moves on from what it was, and no other counter does (R269). -/
theorem csrr_cyc {s : State} {d : Reg} {n : Fin 4096} (hu : Usable s d []) (hn : n.val = 0x011) :
    ∃ s', exec (.csrr d n) s = .next s' ∧
      getThread s' s.cur =
        { writeG (dropLate (running s) d) d (BitVec.ofNat 64 (mapGet 0 s'.cyc (cycKey s.cur))) with pc := (running s).pc + 4 } ∧
      mapGet 0 s.cyc (cycKey s.cur) ≤ mapGet 0 s'.cyc (cycKey s.cur) ∧
      (∀ k, k ≠ cycKey s.cur → mapGet 0 s'.cyc k = mapGet 0 s.cyc k) ∧ (∀ u, u ≠ s.cur → getThread s' u = getThread s u) ∧
      s' = { s with threads := s'.threads, freeCtr := s'.freeCtr, cyc := s'.cyc } := by
  have he : exec (.csrr d n) s = .next (putThread (readCyc s s.cur).1 s.cur
      (advance (writeG (dropLate (running s) d) d (readCyc s s.cur).2) 4)) := by
    rw [exec_csrr, csrRead, hn, csrFault_eq_none (by norm_num)]
    simp only [withDest_usable hu]
    rfl
  have hc : mapGet 0 (putThread (readCyc s s.cur).1 s.cur (advance (writeG (dropLate (running s) d) d (readCyc s s.cur).2) 4)).cyc
      (cycKey s.cur) = mapGet 0 s.cyc (cycKey s.cur) + Config.freeCyc s.freeCtr (cycKey s.cur) :=
    mapGet_mapPut_self 0 s.cyc (cycKey s.cur) _
  refine ⟨_, he, ?_, ?_, fun k hk => mapGet_mapPut_other 0 s.cyc _ hk, fun u hu => getThread_putThread_other _ _ hu, rfl⟩
  · rw [hc, getThread_putThread_self, advance, writeG_pc]
    rfl
  · rw [hc]
    exact Nat.le_add_right _ _

section
variable {s : State} {d : Reg} {n : Fin 4096} (hu : Usable s d []) {k : Nat} (hk : k = n.val)
include hu hk

/-- A CSR that no vector instruction writes and that an MCC has too. -/
theorem csrr_both (hn : (decide (k < 0x020) && !ffStalls k && !servedByQueue k && !absentOnMcc k && decide (k ≠ 0x008) &&
    decide (k ≠ 0x011)) = true) {v : Word} (hv : (isMcc s.cur && absentOnMcc k) = false → csrValue s s.cur k = v) :
    Writes s (exec (.csrr d n) s) d v 0 4 := by
  simp only [Bool.and_eq_true, Bool.not_eq_true', decide_eq_true_eq] at hn
  obtain ⟨⟨⟨⟨⟨h1, h2⟩, h3⟩, h4⟩, h5⟩, h6⟩ := hn
  exact csrr_writes hu hk h1 (fun c => absurd (h2.symm.trans c) Bool.false_ne_true) (by rw [h3, Bool.false_and])
    (fun c => absurd c h5) h6 (hv (by rw [h4, Bool.and_false]))

/-- A CSR of a vector core that no vector instruction writes; on an MCC it reads 0. -/
theorem csrr_vector (hff : k ≤ 3 → ffPending (running s) = false)
    (hn : (decide (k < 0x020) && !servedByQueue k && absentOnMcc k && decide (k ≠ 0x008) && decide (k ≠ 0x011)) = true)
    {v : Word} (hv : (isMcc s.cur && absentOnMcc k) = false → csrValue s s.cur k = v) :
    Writes s (exec (.csrr d n) s) d (if isMcc s.cur then 0 else v) 0 4 := by
  simp only [Bool.and_eq_true, Bool.not_eq_true', decide_eq_true_eq] at hn
  obtain ⟨⟨⟨⟨h1, h3⟩, h4⟩, h5⟩, h6⟩ := hn
  have hstall : ffStalls k = true → ffPending (running s) = false := fun c => hff (by
    simp only [ffStalls, Bool.or_eq_true, decide_eq_true_eq] at c
    omega)
  refine csrr_writes hu hk h1 hstall (by rw [h3, Bool.false_and]) (fun c => absurd c h5) h6 ?_
  cases hm : isMcc s.cur
  · exact hv (csr_vector hm k)
  · exact csrValue_absent s hm h4

/-- On an MCC there is no read queue to serve a CSR (R258). -/
theorem csrr_mcc (hm : isMcc s.cur = true) (hout : k = 0x008 → (running s).out = [])
    (hn : (decide (k < 0x020) && !ffStalls k && decide (k ≠ 0x011)) = true) {v : Word} (hv : csrValue s s.cur k = v) :
    Writes s (exec (.csrr d n) s) d v 0 4 := by
  simp only [Bool.and_eq_true, Bool.not_eq_true', decide_eq_true_eq] at hn
  obtain ⟨⟨h1, h2⟩, h6⟩ := hn
  exact csrr_writes hu hk h1 (fun c => absurd (h2.symm.trans c) Bool.false_ne_true) (by rw [hm, Bool.not_true, Bool.and_false])
    hout h6 hv

/-- A csrr that the read queue serves, in each of the states that it may meet (R87, R155). -/
theorem csrr_served (hm : isMcc s.cur = false) (hn : (decide (k < 0x020) && !ffStalls k && servedByQueue k) = true) {v : Word}
    (hv : ∀ len, (if k = 0x008 then (dropLate (running s) d).fflags.setWidth 64
      else csrValue (putThread s s.cur (csrWaiting (dropLate (running s) d) d k none len)) s.cur k) = v) :
    let th := running s
    ((th.vq = [] → th.rq = [] → (n.val = 8 → th.out = []) →
        if d = 0 then GoesTo s (exec (.csrr d n) s) (th.pc + 4)
        else Becomes s (exec (.csrr d n) s) (csrWaiting (dropLate th d) d n.val (some v) 4)) ∧
      (d = 0 → (∃ e ∈ th.vq, e.stamp < th.nextStamp) → Waits s (exec (.csrr d n) s)) ∧
      (d ≠ 0 → (∃ e ∈ th.vq, e.stamp < th.nextStamp) → th.rq.length < 16 → ∃ s', exec (.csrr d n) s = .next s' ∧
        OthersKept s.cur s s' ∧ SameButCsr (csrWaiting (dropLate th d) d n.val none 4) (getThread s' s.cur) ∧
        ∀ x, (getThread s' s.cur).rq.getLast? = some x → x.val = none) ∧
      (16 ≤ th.rq.length → Waits s (exec (.csrr d n) s))) := by
  intro th
  simp only [Bool.and_eq_true, Bool.not_eq_true', decide_eq_true_eq] at hn
  obtain ⟨⟨h1, h2⟩, h3⟩ := hn
  rw [csrr_queued hu hk h1 h2 h3 hm, ← hk]
  have hlen : (dropLate th d).rq.length = th.rq.length := List.length_map _
  refine ⟨fun hq hr ho => ?_, fun hd he => ?_, fun hd he hr => csrQueued_later hd (hlen.trans_lt hr) he k 4,
    fun hr => csrQueued_full (hr.trans hlen.ge) d k 4⟩
  · have hr' : (dropLate th d).rq = [] := by rw [dropLate, hr, List.map_nil]
    have ho' : k = 0x008 → (dropLate th d).out = [] := fun c => by rw [dropLate, ho c, List.map_nil]
    by_cases hd : d = 0
    · subst hd
      rw [if_pos rfl, csrQueued_zero (th := dropLate th 0) hq hr' ho', dropLate_of_not_pending (by rfl)]
      exact becomes_retire s th 4
    · rw [if_neg hd]
      exact csrQueued_now (th := dropLate th d) hd hq hr' ho' 4 (hv 4)
  · subst hd
    exact csrQueued_zero_waits (th := dropLate th 0) he k 4

end

/-- Settles O32: a csrr either reads its CSR at once or takes a place in the read queue, by its number. -/
theorem csrReads : Obligations.CsrReads := by
  unfold Obligations.CsrReads
  intro s d n hu t th core place mark num both vector served servedVector W queued key cyc
  refine ⟨?_, ?_, fun hm => ⟨?_, ?_⟩, fun hm => ?_, csrr_cyc hu, csrr_illegal, csrr_protected⟩
  · simp only [both, List.forall_mem_cons]
    refine ⟨fun h => csrr_both hu h rfl ?_, fun h => csrr_both hu h rfl ?_, fun h => csrr_both hu h rfl ?_,
      fun h => csrr_both hu h rfl ?_, fun h => csrr_both hu h rfl ?_, fun h => csrr_both hu h rfl ?_, fun h => csrr_both hu h rfl ?_,
      fun h => csrr_both hu h rfl ?_, fun h => csrr_both hu h rfl ?_, fun h => csrr_both hu h rfl ?_, fun h => csrr_both hu h rfl ?_,
      fun h => csrr_both hu h rfl ?_, nofun⟩
    all_goals exact fun c => (if_neg (Bool.eq_false_iff.mp c)).trans rfl
  · simp only [vector, List.forall_mem_cons]
    refine ⟨fun h f => csrr_vector hu h (h ▸ f) rfl ?_, fun h f => csrr_vector hu h (h ▸ f) rfl ?_,
      fun h f => csrr_vector hu h (h ▸ f) rfl ?_, fun h f => csrr_vector hu h (h ▸ f) rfl ?_,
      fun h f => csrr_vector hu h (h ▸ f) rfl ?_, fun h f => csrr_vector hu h (h ▸ f) rfl ?_,
      fun h f => csrr_vector hu h (h ▸ f) rfl ?_, fun h f => csrr_vector hu h (h ▸ f) rfl ?_, nofun⟩
    all_goals exact fun c => (if_neg (Bool.eq_false_iff.mp c)).trans rfl
  · simp only [served, List.forall_mem_cons]
    refine ⟨fun h f => csrr_mcc hu h hm (h ▸ f) rfl ?_, fun h f => csrr_mcc hu h hm (h ▸ f) rfl ?_,
      fun h f => csrr_mcc hu h hm (h ▸ f) rfl ?_, fun h f => csrr_mcc hu h hm (h ▸ f) rfl ?_,
      fun h f => csrr_mcc hu h hm (h ▸ f) rfl ?_, fun h f => csrr_mcc hu h hm (h ▸ f) rfl ?_,
      fun h f => csrr_mcc hu h hm (h ▸ f) rfl ?_, fun h f => csrr_mcc hu h hm (h ▸ f) rfl ?_, nofun⟩
    all_goals exact (if_neg (Bool.eq_false_iff.mp (csr_present rfl _))).trans rfl
  · simp only [servedVector, List.forall_mem_cons]
    refine ⟨fun h => csrr_mcc hu h hm nofun rfl ?_, fun h => csrr_mcc hu h hm nofun rfl ?_, fun h => csrr_mcc hu h hm nofun rfl ?_, nofun⟩
    all_goals exact csrValue_absent s hm rfl
  · have hval {k : Nat} (hk : k ≠ 0x008) {v : Word} (len : Nat)
        (hv : ∀ q : State, getThread q s.cur = csrWaiting (dropLate th d) d k none len → ownCore q s.cur = core →
          (isMcc s.cur && absentOnMcc k) = false → csrValue q s.cur k = v) :
        (if k = 0x008 then (dropLate th d).fflags.setWidth 64
          else csrValue (putThread s s.cur (csrWaiting (dropLate th d) d k none len)) s.cur k) = v := by
      rw [if_neg hk]
      exact hv _ (getThread_putThread_self _ _ _) rfl (csr_vector hm k)
    simp only [served, servedVector, List.cons_append, List.nil_append, List.forall_mem_cons]
    refine ⟨fun h => csrr_served hu h hm rfl fun len => hval (by decide) len ?_, fun h => csrr_served hu h hm rfl fun len => if_pos rfl,
      fun h => csrr_served hu h hm rfl fun len => hval (by decide) len ?_, fun h => csrr_served hu h hm rfl fun len => hval (by decide) len ?_,
      fun h => csrr_served hu h hm rfl fun len => hval (by decide) len ?_, fun h => csrr_served hu h hm rfl fun len => hval (by decide) len ?_,
      fun h => csrr_served hu h hm rfl fun len => hval (by decide) len ?_, fun h => csrr_served hu h hm rfl fun len => hval (by decide) len ?_,
      fun h => csrr_served hu h hm rfl fun len => hval (by decide) len ?_, fun h => csrr_served hu h hm rfl fun len => hval (by decide) len ?_,
      fun h => csrr_served hu h hm rfl fun len => hval (by decide) len ?_, nofun⟩
    case refine_8 =>
      intro q hq hc hp
      rw [List.countP_eq_length_filter]
      unfold csrValue
      rw [hq, hc]
      exact (if_neg (Bool.eq_false_iff.mp hp)).trans rfl
    all_goals
      intro q hq hc hp
      unfold csrValue
      rw [hq]
      exact (if_neg (Bool.eq_false_iff.mp hp)).trans rfl

end Sys2Proof.Proofs
end

section
/-!
The completion of a vector entry, and the return of a value through the read queue (R58, R63, R71, R73, R87, R158, R264).
-/

namespace Sys2Proof.Proofs

open Sys2Proof Sys2Proof.Machine Sys2Proof.Safety Sys2Proof.Laws

theorem exec_vectorEntryComplete (s : State) : exec .vectorEntryComplete s = .next (completeStep s s.ev.tid) := rfl

theorem exec_readQueueReturn (s : State) : exec .readQueueReturn s = .next (returnStep s s.ev.tid) := rfl

/-- Two states agree but for one thread's record and its core. -/
def CoreAndThread (t : Tid) (s s' : State) : Prop :=
  (∀ u, u ≠ t → getThread s' u = getThread s u) ∧ s' = { s with threads := s'.threads, cores := s'.cores } ∧
    ∀ cl co, (cl, co) ≠ (clusterOf t, coreOf t) → getCore s' cl co = getCore s cl co

theorem coreAndThread_refl (t : Tid) (s : State) : CoreAndThread t s s := ⟨fun _ _ => rfl, rfl, fun _ _ _ => rfl⟩

theorem coreAndThread_trans {t : Tid} {s s' s'' : State} (h : CoreAndThread t s s') (k : CoreAndThread t s' s'') :
    CoreAndThread t s s'' := by
  obtain ⟨h1, h2, h3⟩ := h
  obtain ⟨k1, k2, k3⟩ := k
  refine ⟨fun u hu => (k1 u hu).trans (h1 u hu), ?_, fun cl co hc => (k3 cl co hc).trans (h3 cl co hc)⟩
  rw [k2, h2]

theorem coreAndThread_updThread (t : Tid) (s : State) (f : Thread → Thread) : CoreAndThread t s (updThread s t f) :=
  ⟨fun _ hu => getThread_updThread_other s f hu, rfl, fun _ _ _ => rfl⟩

theorem coreAndThread_putOwnCore (t : Tid) (s : State) (c : Core) : CoreAndThread t s (putOwnCore s t c) := by
  refine ⟨fun _ _ => rfl, rfl, fun cl co hc => getCore_putCore_other s c ?_⟩
  by_contra h
  push Not at h
  exact hc (by rw [h.1, h.2])

@[simp] theorem ownCore_putOwnCore (t : Tid) (s : State) (c : Core) : ownCore (putOwnCore s t c) t = c :=
  getCore_putCore_self _ _ _ _

theorem coreAndThread_settleQueue (t : Tid) (s : State) : CoreAndThread t s (settleQueue s t) :=
  ⟨fun _ hu => getThread_putThread_other _ _ hu, rfl, fun _ _ _ => rfl⟩

/-- The entry writes a chain when it completes: it has begun one, or builds one at once (R73, R264). -/
abbrev Delivers (s : State) (t : Tid) (e : VEntry) : Prop := (e.begun = true ∨ buildsChain s t e = true) ∧ e.writes = true

section
variable (s : State) (t : Tid) (e : VEntry)

/-- The chain registers once an entry has completed (R71). -/
def chainsAfter : Vector Desc 32 :=
  match destOf e.op with
  | some d => if Delivers s t e then (getThread s t).v.set d.val (sealDesc (ownCore s t) e.keepExcl e.part) else (getThread s t).v
  | none => (getThread s t).v

/-- The pool once an entry has completed: the chains it held are released (R73, R276). -/
def poolAfter : Core :=
  match destOf e.op with
  | some d =>
    if Delivers s t e then e.extra.foldl release (release (ownCore s t) (if e.begun then e.old else (getThread s t).v[d.val]))
    else ownCore s t
  | none => ownCore s t

variable {s t e}

theorem beginEntry_begun (h : e.begun = true) : beginEntry s t e = (s, e) := if_pos h

theorem beginEntry_fresh {d : Reg} (h : e.begun = false) (hb : buildsChain s t e = true) (hd : destOf e.op = some d) :
    beginEntry s t e =
      (updThread s t fun th => { th with v := th.v.set d.val Desc.empty }, { e with begun := true, old := (getThread s t).v[d.val] }) := by
  rw [beginEntry, h, if_neg Bool.false_ne_true, if_pos hb]
  simp only [hd]

/-- An entry that builds no chain of its own takes no place. -/
theorem beginEntry_other (h : e.begun = false) (hb : buildsChain s t e = false ∨ destOf e.op = none) :
    (beginEntry s t e).1 = s ∧ (beginEntry s t e).2.begun = false ∧ (beginEntry s t e).2.op = e.op := by
  have hcases : beginEntry s t e = (s, e) ∨ beginEntry s t e = (s, { e with writes := false }) := by
    rw [beginEntry, h, if_neg Bool.false_ne_true]
    rcases hb with hb | hb
    · rw [hb, if_neg Bool.false_ne_true]
      split
      · exact .inr rfl
      · exact .inl rfl
    · rw [hb]
      split
      · exact .inl rfl
      · split
        · exact .inr rfl
        · exact .inl rfl
  rcases hcases with hc | hc
  · rw [hc]
    exact ⟨rfl, h, rfl⟩
  · rw [hc]
    exact ⟨rfl, h, rfl⟩

theorem writeDest_none (h : destOf e.op = none) : writeDest s t e = s := by simp only [writeDest, h]

theorem writeDest_kept (h : (e.begun && e.writes) = false) : writeDest s t e = s := by
  rw [writeDest]
  split
  · rfl
  · rw [h]
    rfl

theorem writeDest_placed {d : Reg} (hd : destOf e.op = some d) (h : (e.begun && e.writes) = true) :
    writeDest s t e = updThread (putOwnCore s t (e.extra.foldl release (release (ownCore s t) e.old))) t
      fun th => { th with v := th.v.set d.val (sealDesc (ownCore s t) e.keepExcl e.part) } := by
  simp only [writeDest, hd, h]
  rfl

/-- A finished entry gives its chain to its destination and releases what that held (R71, R73). -/
theorem writeDest_beginEntry (hw : e.begun = false → buildsChain s t e = true → e.writes = true) :
    let s1 := writeDest (beginEntry s t e).1 t (beginEntry s t e).2
    CoreAndThread t s s1 ∧ getThread s1 t = { getThread s t with v := chainsAfter s t e } ∧ ownCore s1 t = poolAfter s t e := by
  have hkept {s1 : State} (h1 : s1 = s) (hv : chainsAfter s t e = (getThread s t).v) (hc : poolAfter s t e = ownCore s t) :
      CoreAndThread t s s1 ∧ getThread s1 t = { getThread s t with v := chainsAfter s t e } ∧ ownCore s1 t = poolAfter s t e := by
    subst h1
    rw [hv, hc]
    exact ⟨coreAndThread_refl _ _, rfl, rfl⟩
  intro s1
  cases hd : destOf e.op with
  | none =>
    refine hkept ?_ (by simp only [chainsAfter, hd]) (by simp only [poolAfter, hd])
    cases hb : e.begun
    · obtain ⟨h1, -, h3⟩ := beginEntry_other (s := s) (t := t) hb (.inr hd)
      exact (writeDest_none (by rw [h3, hd])).trans h1
    · simp only [s1, beginEntry_begun hb]
      exact writeDest_none hd
  | some d =>
    by_cases hD : Delivers s t e
    · have hv : chainsAfter s t e = (getThread s t).v.set d.val (sealDesc (ownCore s t) e.keepExcl e.part) := by
        simp only [chainsAfter, hd, if_pos hD]
      have hc : poolAfter s t e = e.extra.foldl release (release (ownCore s t) (if e.begun then e.old else (getThread s t).v[d.val])) := by
        simp only [poolAfter, hd, if_pos hD]
      rw [hv, hc]
      cases hb : e.begun
      · have hbc : buildsChain s t e = true := hD.1.resolve_left (by rw [hb]; exact Bool.false_ne_true)
        have hs1 := (congrArg (fun b => writeDest b.1 t b.2) (beginEntry_fresh hb hbc hd)).trans
          (writeDest_placed (e := { e with begun := true, old := (getThread s t).v[d.val] }) hd hD.2)
        rw [show s1 = _ from hs1]
        refine ⟨coreAndThread_trans (coreAndThread_updThread _ _ _)
          (coreAndThread_trans (coreAndThread_putOwnCore _ _ _) (coreAndThread_updThread _ _ _)), ?_, ?_⟩
        · rw [getThread_updThread_self, putOwnCore, getThread_putCore, getThread_updThread_self]
          dsimp only
          rw [Vector.set_set]
          rfl
        · exact ownCore_putOwnCore _ _ _
      · have hs1 := (congrArg (fun b => writeDest b.1 t b.2) (beginEntry_begun (s := s) (t := t) hb)).trans
          (writeDest_placed hd (by rw [hb, hD.2]; rfl))
        rw [show s1 = _ from hs1]
        refine ⟨coreAndThread_trans (coreAndThread_putOwnCore _ _ _) (coreAndThread_updThread _ _ _), ?_, ?_⟩
        · rw [getThread_updThread_self, putOwnCore, getThread_putCore]
        · exact ownCore_putOwnCore _ _ _
    · refine hkept ?_ (by simp only [chainsAfter, hd, if_neg hD]) (by simp only [poolAfter, hd, if_neg hD])
      cases hb : e.begun
      · have hbc : buildsChain s t e = false := by
          rw [← Bool.not_eq_true]
          exact fun c => hD ⟨.inr c, hw hb c⟩
        obtain ⟨h1, h2, -⟩ := beginEntry_other (s := s) (t := t) hb (.inl hbc)
        exact (writeDest_kept (by rw [h2, Bool.false_and])).trans h1
      · have hwr : e.writes = false := by
          rw [← Bool.not_eq_true]
          exact fun c => hD ⟨.inl hb, c⟩
        simp only [s1, beginEntry_begun hb]
        exact writeDest_kept (by rw [hwr, Bool.and_false])

end

theorem dropLeave_other {s : State} {t : Tid} {e : VEntry} (h : ∀ md b q, e.op ≠ .clmask md b q) : dropLeave s t e = s := by
  rw [dropLeave]
  split
  · rename_i heq
    exact absurd heq (h _ _ _)
  · rfl

theorem lowBits_getLsbD (n : Nat) {k : Nat} (hk : k < 4096) : (lowBits n).getLsbD k = decide (k < n) := by
  rw [lowBits, BitVec.getLsbD_ofNat, decide_eq_true hk, Bool.true_and, Nat.testBit_two_pow_sub_one]

/-- Completion clears the bits of a mask from VL on, but for m0, which nothing writes (R62, R63). -/
theorem clearAbove_getLsbD (th : Thread) (md n : Nat) (q : Fin 48) (k : Fin 4096) :
    (clearAbove th md n).m[q].getLsbD k.val = (th.m[q].getLsbD k.val && decide (md ≠ q.val ∨ q.val = 0 ∨ k.val < n)) := by
  rw [clearAbove, setMask]
  by_cases h0 : md = 0
  · rw [if_pos h0, decide_eq_true (by omega), Bool.and_true]
  · rw [if_neg h0]
    by_cases h48 : md < 48
    · rw [dif_pos h48]
      by_cases hq : md = q.val
      · subst hq
        simp only [Fin.getElem_fin, Vector.getElem_set_self, BitVec.getLsbD_and, lowBits_getLsbD n k.isLt, maskOf, if_neg h0, dif_pos h48]
        congr 1
        simp [h0]
      · simp only [Fin.getElem_fin, Vector.getElem_set_ne _ _ hq, ne_eq, hq, not_false_eq_true, true_or, decide_true, Bool.and_true]
    · rw [dif_neg h48, decide_eq_true (by omega), Bool.and_true]

/-- What clearing a mask leaves alone. -/
theorem clearAbove_eq (th : Thread) (md n : Nat) : clearAbove th md n = { th with m := (clearAbove th md n).m } := by
  simp only [clearAbove, setMask]
  split
  · rfl
  · split <;> rfl

/-- A place of the read queue agrees with another but for what a csrr has met (R58, R87). -/
def ItemKept (x y : RqItem) : Prop :=
  y = { x with val := y.val, base := y.base } ∧ (x.csr = none ∨ x.val ≠ none → y.val = x.val) ∧ (x.csr ≠ some 8 → y.base = x.base)

theorem itemKept_trans {x y z : RqItem} (h : ItemKept x y) (k : ItemKept y z) : ItemKept x z := by
  obtain ⟨h1, h2, h3⟩ := h
  obtain ⟨k1, k2, k3⟩ := k
  have hcsr : y.csr = x.csr := by rw [h1]
  refine ⟨?_, fun c => ?_, fun c => ?_⟩
  · rw [k1, h1]
  · have hy := h2 c
    rw [k2 (by rw [hcsr, hy]; exact c), hy]
  · rw [k3 (by rwa [hcsr]), h3 c]

theorem queueKept_trans {l l' l'' : List RqItem} (h : QueueKept l l') (k : QueueKept l' l'') : QueueKept l l'' := by
  refine ⟨k.1.trans h.1, fun i x z hx hz => ?_⟩
  have hlt : i < l'.length := by
    rw [h.1]
    exact (List.getElem?_eq_some_iff.mp hx).1
  have hy := List.getElem?_eq_getElem hlt
  exact itemKept_trans (h.2 i x _ hx hy) (k.2 i _ z hy hz)

theorem queueKept_map {l : List RqItem} {f g : RqItem → RqItem} (h : ∀ x, ItemKept (f x) (g x)) : QueueKept (l.map f) (l.map g) := by
  refine ⟨by simp, fun i x y hx hy => ?_⟩
  rw [List.getElem?_map, Option.map_eq_some_iff] at hx hy
  obtain ⟨a, ha, rfl⟩ := hx
  obtain ⟨b, hb, rfl⟩ := hy
  obtain rfl : a = b := Option.some.inj (ha.symm.trans hb)
  exact h a

/-- The flags of an entry reach the csrr of FFLAGS behind it, and its result its place (R58, R158). -/
theorem queueKept_completed (l : List RqItem) (stamp : Nat) (f : BitVec 7) (w : Word) (give : Bool) :
    QueueKept (if give then l.map fun x => if x.stamp = stamp then { x with val := some w } else x else l)
      (if give then giveResult (addBase l stamp f) stamp w else addBase l stamp f) := by
  have hbase (x : RqItem) : ItemKept x (if x.csr = some 0x008 ∧ stamp < x.stamp then { x with base := x.base ||| f } else x) := by
    split
    · rename_i h
      exact ⟨rfl, fun _ => rfl, fun c => absurd h.1 c⟩
    · exact ⟨rfl, fun _ => rfl, fun _ => rfl⟩
  cases give
  · have h := queueKept_map (l := l) (f := id) hbase
    rwa [List.map_id] at h
  · simp only [if_true, giveResult, addBase, List.map_map]
    refine queueKept_map fun x => ?_
    by_cases hs : x.stamp = stamp
    · simp only [Function.comp_apply, hs, lt_irrefl, and_false, if_false, if_true]
      exact ⟨rfl, fun _ => rfl, fun _ => rfl⟩
    · have h := hbase x
      have hst : (if x.csr = some 0x008 ∧ stamp < x.stamp then ({ x with base := x.base ||| f } : RqItem) else x).stamp = x.stamp := by
        split <;> rfl
      simp only [Function.comp_apply, hst, if_neg hs]
      exact h

/-- With no entry left every value of PCARRY is in force (R87). -/
theorem carryForth_empty {th : Thread} (h : th.vq = []) :
    carryForth th = { th with
      pcarry := (match th.carryNext.getLast? with | some q => q.2 | none => th.pcarry), carryNext := [] } := by
  have hdue : (th.carryNext.takeWhile fun q => th.vq.all fun e => decide (q.1 ≤ e.stamp)) = th.carryNext := by
    rw [h]
    simp
  rw [carryForth, hdue]
  cases hl : th.carryNext.getLast? with
  | none =>
    rw [List.getLast?_eq_none_iff] at hl
    dsimp only
    rw [← hl]
  | some q =>
    dsimp only
    rw [List.drop_length]

/-- While an earlier entry is left no value of PCARRY comes into force (R87). -/
theorem carryForth_held {th : Thread} (h : ∀ q, th.carryNext.head? = some q → ∃ x ∈ th.vq, x.stamp < q.1) : carryForth th = th := by
  have hdue : (th.carryNext.takeWhile fun q => th.vq.all fun e => decide (q.1 ≤ e.stamp)) = [] := by
    cases hc : th.carryNext with
    | nil => rfl
    | cons q l =>
      obtain ⟨x, hx, hlt⟩ := h q (by rw [hc]; rfl)
      have hf : (th.vq.all fun e => decide (q.1 ≤ e.stamp)) = false :=
        List.all_eq_false.mpr ⟨x, hx, fun c => absurd (of_decide_eq_true c) (by omega)⟩
      rw [List.takeWhile_cons, hf, if_neg Bool.false_ne_true]
  rw [carryForth, hdue]
  rfl

/-- PCARRY once an entry has completed (R87). -/
theorem carryForth_eq {th : Thread} (h : th.vq = [] ∨ ∀ q, th.carryNext.head? = some q → ∃ x ∈ th.vq, x.stamp < q.1) :
    carryForth th = { th with
      pcarry := if th.vq = [] then (match th.carryNext.getLast? with | some q => q.2 | none => th.pcarry) else th.pcarry
      carryNext := if th.vq = [] then [] else th.carryNext } := by
  by_cases hq : th.vq = []
  · rw [carryForth_empty hq, if_pos hq, if_pos hq]
  · rw [carryForth_held (h.resolve_left hq), if_neg hq, if_neg hq]

/-- The masks once an entry has completed (R63). -/
def masksAfter (th : Thread) (e : VEntry) : Vector (BitVec 4096) 48 :=
  match courseMask e.op with
  | some md => (clearAbove th md.val e.vl).m
  | none => th.m

theorem masksAfter_getLsbD (th : Thread) (e : VEntry) (q : Fin 48) (k : Fin 4096) :
    (masksAfter th e)[q].getLsbD k.val = (th.m[q].getLsbD k.val && match courseMask e.op with
      | some md => decide (md.val ≠ q.val ∨ q.val = 0 ∨ k.val < e.vl)
      | none => true) := by
  unfold masksAfter
  cases courseMask e.op with
  | none => exact (Bool.and_true _).symm
  | some md => exact clearAbove_getLsbD th md.val e.vl q k

theorem masksAfter_chains (th : Thread) (v : Vector Desc 32) (e : VEntry) : masksAfter { th with v := v } e = masksAfter th e := by
  unfold masksAfter
  cases courseMask e.op with
  | none => rfl
  | some md =>
    simp only [clearAbove, setMask]
    split
    · rfl
    · split <;> rfl

/-- What completion makes of a thread's record (R58, R63, R161, R264, R268). -/
theorem completeThread_eq (th : Thread) (e : VEntry) :
    completeThread th e =
      { th with
        m := masksAfter th e, fflags := th.fflags ||| e.flags
        rq := if (gdestOf e.op).isSome then giveResult (addBase th.rq e.stamp e.flags) e.stamp e.gres else addBase th.rq e.stamp e.flags
        vstart := if e.inHandler then th.vstart else 0, vl := if isFf e.op then e.vl else th.vl, vcp := th.vcp + 1
        vq := th.vq.drop 1 } := by
  unfold completeThread masksAfter
  cases courseMask e.op with
  | none => rfl
  | some md =>
    dsimp only
    rw [clearAbove_eq]

section
variable {s : State} {t : Tid} {e : VEntry} {r : List VEntry}

theorem completeStep_unfinished (hq : (getThread s t).vq = e :: r) (h : e.finished = false) : completeStep s t = s := by
  simp only [completeStep, hq, h, Bool.not_false, Bool.or_true, if_true]

theorem completeStep_finished (hq : (getThread s t).vq = e :: r) (hrun : (getThread s t).tstate = .running) (h : e.finished = true)
    (hop : ∀ md b q, e.op ≠ .clmask md b q) :
    completeStep s t = settleQueue (updThread (writeDest (beginEntry s t e).1 t (beginEntry s t e).2) t fun x =>
      carryForth (completeThread x e)) t := by
  have hact : vectorActive (getThread s t) = true := decide_eq_true hrun
  simp only [completeStep, hq, h, hact, Bool.not_true, Bool.or_false, Bool.false_eq_true, if_false]
  rw [dropLeave_other hop]

end

/-- Settles O45: completion gives the chain to its destination, completes the thread's record, and lets the csrr of the read
queue settle. -/
theorem vectorEntriesComplete : Obligations.VectorEntriesComplete := by
  unfold Obligations.VectorEntriesComplete
  intro s t th
  refine ⟨fun e r hq hrun => ⟨fun hf => ?_, fun hf hop hw hcarry => ?_⟩, fun x r hr => ⟨fun hv => ?_, fun w hv => ?_⟩⟩
  · rw [exec_vectorEntryComplete, completeStep_unfinished hq hf]
  · intro core builds single
    rw [exec_vectorEntryComplete, completeStep_finished hq hrun hf hop]
    obtain ⟨hframe, hthread, hcore⟩ := writeDest_beginEntry hw
    generalize writeDest (beginEntry s t e).1 t (beginEntry s t e).2 = s1 at hframe hthread hcore
    obtain ⟨f1, f2, f3⟩ := coreAndThread_trans hframe (coreAndThread_trans
      (coreAndThread_updThread t s1 fun x => carryForth (completeThread x e)) (coreAndThread_settleQueue t _))
    have hrec : carryForth (completeThread (getThread s1 t) e) =
        { th with
          v := chainsAfter s t e, m := masksAfter th e, fflags := th.fflags ||| e.flags
          rq := if (gdestOf e.op).isSome then giveResult (addBase th.rq e.stamp e.flags) e.stamp e.gres
            else addBase th.rq e.stamp e.flags
          vstart := if e.inHandler then th.vstart else 0, vl := if isFf e.op then e.vl else th.vl, vcp := th.vcp + 1, vq := r
          pcarry := if r = [] then (match th.carryNext.getLast? with | some q => q.2 | none => th.pcarry) else th.pcarry
          carryNext := if r = [] then [] else th.carryNext } := by
      have hvq : (completeThread (getThread s1 t) e).vq = r := by
        rw [completeThread_eq, hthread]
        change (getThread s t).vq.drop 1 = r
        rw [hq]
        rfl
      rw [carryForth_eq (by rw [hvq, completeThread_eq, hthread]; exact hcarry), hvq, completeThread_eq, hthread,
        masksAfter_chains]
    have hfin := getThread_putThread_self (updThread s1 t fun x => carryForth (completeThread x e)) t
      { getThread (updThread s1 t fun x => carryForth (completeThread x e)) t with
        rq := (getThread (updThread s1 t fun x => carryForth (completeThread x e)) t).rq.map
          (settleItem (updThread s1 t fun x => carryForth (completeThread x e)) t) }
    rw [getThread_updThread_self, hrec] at hfin
    refine ⟨_, rfl, f1, f2, f3, hcore, fun q k => ?_, ?_⟩
    · rw [settleQueue, getThread_updThread_self, hrec, hfin]
      exact masksAfter_getLsbD th e q k
    · rw [settleQueue, getThread_updThread_self, hrec, hfin]
      have hkept := queueKept_completed th.rq e.stamp e.flags e.gres (gdestOf e.op).isSome
      have hgive : (if (gdestOf e.op).isSome then th.rq.map fun x => if x.stamp = e.stamp then { x with val := some e.gres } else x
          else th.rq) = if gdestOf e.op = none then th.rq
          else th.rq.map fun x => if x.stamp = e.stamp then { x with val := some e.gres } else x := by
        cases gdestOf e.op <;> rfl
      rw [hgive] at hkept
      exact sameButCsr_of_rq _ (queueKept_trans hkept (queueKept_settle _ t _))
  · simp only [exec_readQueueReturn, returnStep]
    rw [show (getThread s s.ev.tid).rq = x :: r from hr]
    simp only [hv]
  · have hret : returnStep s t = putThread s t { writeG th x.reg w with rq := r } := by
      simp only [returnStep]
      rw [show (getThread s t).rq = x :: r from hr]
      simp only [hv]
      rfl
    exact ⟨_, (exec_readQueueReturn s).trans (congrArg _ hret), othersKept_put _ _ _, getThread_putThread_self _ _ _⟩

end Sys2Proof.Proofs
end

section
/-!
A course of a vector memory entry drops the values that later loads have taken early of bytes which the entry may access (R139,
R290; log 2). Two obligations leave that change of the thread's record out.
-/

namespace Sys2Proof.Proofs

open Sys2Proof Sys2Proof.Machine Sys2Proof.Safety Sys2Proof.Laws

/-- An entry as a thread without vector registers pushes it. -/
def plainEntry (op : VOp) (vl vtype : Nat) : VEntry :=
  { op := op, pc := 0, vl := vl, vtype := vtype, fill := 0, xbound := BitVec.allOnes 64, clmode := 0, clrec := 0, budget := 0, stamp := 0
    inHandler := false, begun := false, finished := false, stalled := false, prog := 0, old := Desc.empty, part := Desc.empty
    extra := [], writes := true, keepExcl := false, flags := 0, snap := [], gres := 0, names := [], bk := Bookmark.none, wrote := []
    struck := [], dropped := [], fault := none }

/-- A later load has taken eight bytes of the page at 0x31000 early. -/
def takenEarly : EarlyRead := { va := 2 ^ 40, size := 8, tgt := .dev 0x31000 false, val := 0 }

/-- A vector thread with one entry, no element of which is a pad, behind a value taken early. -/
def earlyThread (e : VEntry) : Thread :=
  { Thread.reset with tstate := .running, vq := [e], early := [takenEarly], m := Thread.reset.m.set 46 (BitVec.allOnes 4096) }

/-- The state in which it stands: its core's translation buffer maps the page that the entry accesses. -/
def behindEarly (e : VEntry) : State :=
  putThread (putCore State.reset 0 0 { Core.reset with tlb := [{ ctx := 0, page := 2 ^ 28, level := 3, entry := 0x31027 }] }) (.vec 0 0 0)
    (earlyThread e)

theorem getThread_behindEarly (e : VEntry) : getThread (behindEarly e) (behindEarly e).ev.tid = earlyThread e :=
  getThread_putThread_self _ _ _

theorem earlyThread_frozen (e : VEntry) : (earlyThread e).frozen = none := rfl

/-- A vstxa of eight elements under an empty mask. -/
def maskedStxa : VEntry := plainEntry (.stxa 4 (2 ^ 40) 5 1 0 false) 8 4

/-- The one course of the vstxa accesses nothing and drops the value taken early all the same. -/
theorem maskedStxa_drops : (getThread (courseStep (behindEarly maskedStxa) (.vec 0 0 0) 0) (.vec 0 0 0)).early = [] := by
  decide +kernel

/-- Refutes O44: vstxa is said to leave the thread's record as it was but for its entry, but with a value taken early its course
drops that value, since it might access the value's bytes. -/
theorem not_maskInstructionsExecute : ¬ Obligations.MaskInstructionsExecute := by
  unfold Obligations.MaskInstructionsExecute
  rintro ⟨-, h⟩
  have h := h (behindEarly maskedStxa) maskedStxa []
  simp only [getThread_behindEarly] at h
  have hfrozen : ∀ f, (earlyThread maskedStxa).frozen = some f → f.out = [] := by
    simp [earlyThread_frozen]
  have hcourse := h rfl rfl rfl rfl rfl hfrozen .vectorCourse (.inl rfl)
  obtain ⟨hmemory, -⟩ := hcourse
  obtain ⟨-, -, -, -, -, -, -, -, hstxa⟩ := hmemory (by decide) nofun
  obtain ⟨s', fl, hexec, -, hthread, -⟩ := hstxa 4 (2 ^ 40) 5 1 0 false (fun _ => 0) rfl rfl rfl rfl (by
    intro k hk
    simp only [Bool.and_eq_true] at hk
    obtain ⟨⟨⟨-, hbit⟩, -⟩, -⟩ := hk
    change (0#4096).getLsbD k = true at hbit
    simp at hbit)
  obtain rfl : courseStep (behindEarly maskedStxa) (.vec 0 0 0) 0 = s' := Host.Outcome.next.inj hexec
  have hearly : (getThread (courseStep (behindEarly maskedStxa) (.vec 0 0 0) 0) (.vec 0 0 0)).early = [takenEarly] :=
    congrArg Thread.early hthread
  rw [maskedStxa_drops] at hearly
  exact List.cons_ne_nil _ _ hearly.symm

/-- A load of one element for which the thread's budget has no leaf. -/
def leaflessLoad : VEntry := plainEntry (.load .unit 3 (2 ^ 40) 0 0 0 0 false) 1 6

/-- The state in which the same load has no element. -/
def withoutElement : State :=
  putThread (behindEarly leaflessLoad) (.vec 0 0 0) { earlyThread leaflessLoad with vq := [{ leaflessLoad with vl := 0 }] }

/-- The course of the load without an element finishes it and keeps the value taken early. -/
theorem withoutElement_keeps :
    (getThread (courseStep withoutElement (.vec 0 0 0) 0) (.vec 0 0 0)).early = [takenEarly] ∧
      (getThread (courseStep withoutElement (.vec 0 0 0) 0) (.vec 0 0 0)).vq =
        [{ leaflessLoad with vl := 0, begun := true, finished := true }] := by
  decide +kernel

/-- The course of the load drops the value. -/
theorem leaflessLoad_drops : (getThread (courseStep (behindEarly leaflessLoad) (.vec 0 0 0) 0) (.vec 0 0 0)).early = [] := by
  decide +kernel

theorem leaflessLoad_target : accessTarget (behindEarly leaflessLoad) (partyOf (behindEarly leaflessLoad) (.vec 0 0 0)) (2 ^ 40) 8 8 .load =
    .ok (.dev 0x31000 false) := by
  decide +kernel

theorem earlyThread_m46 (e : VEntry) : (earlyThread e).m[46] = BitVec.allOnes 4096 := Vector.getElem_set_self _

theorem earlyThread_notPad (e : VEntry) : (earlyThread e).m[46].getLsbD 0 = true := by
  rw [earlyThread_m46, BitVec.getLsbD_allOnes]
  rfl

theorem leaflessLoad_op {f : MemForm} {d : Reg} {base stride : Word} {idx : Reg} {m : MaskF} {cls : Nat} {ff : Bool}
    (h : leaflessLoad.op = .load f d base stride idx m cls ff) : f = .unit ∧ base = 2 ^ 40 ∧ stride = 0 ∧ m = 0 := by
  change VOp.load .unit 3 (2 ^ 40) 0 0 0 0 false = _ at h
  cases h
  exact ⟨rfl, rfl, rfl, rfl⟩

/-- Its core has no leaf for it. -/
theorem leaflessLoad_noLeaf (v : Nat) :
    appendElem (getCore (courseStep withoutElement (.vec 0 0 0) 0) 0 0) 0 0 Desc.empty 8 v = .error (.exhausted false) := by
  have hcore : getCore (courseStep withoutElement (.vec 0 0 0) 0) 0 0 =
      { Core.reset with tlb := [{ ctx := 0, page := 2 ^ 28, level := 3, entry := 0x31027 }] } := by decide +kernel
  rw [hcore]
  rfl

/-- Refutes O46: a load that has no leaf for its first element is said to leave the thread's record as the same load without an
element does but for its entry, but it drops a value taken early of the bytes of that element, which the other does not. -/
theorem not_faultsAreReported : ¬ Obligations.FaultsAreReported := by
  unfold Obligations.FaultsAreReported
  rintro ⟨h, -⟩
  have h := h (behindEarly leaflessLoad) (courseStep withoutElement (.vec 0 0 0) 0) leaflessLoad
    { leaflessLoad with vl := 0, begun := true, finished := true } [] .vectorCourse 0
  simp only [getThread_behindEarly] at h
  have hfrozen : ∀ f, (earlyThread leaflessLoad).frozen = some f → f.out = [] := by
    simp [earlyThread_frozen]
  obtain ⟨-, -, -, -, hpool⟩ := h (.inl trivial) rfl rfl rfl rfl rfl (by decide) (by decide) rfl hfrozen nofun (by decide) (by decide) rfl
    withoutElement_keeps.2 trivial
  obtain ⟨s2, hexec, hthread, -⟩ := hpool (fun f d base stride idx m cls ff hop => by
    obtain ⟨rfl, rfl, rfl, rfl⟩ := leaflessLoad_op hop
    exact ⟨by decide, nofun, rfl, earlyThread_notPad _, nofun, rfl, _, leaflessLoad_target⟩)
    (by decide) (.exhausted false) leaflessLoad_noLeaf
  obtain rfl : courseStep (behindEarly leaflessLoad) (.vec 0 0 0) 0 = s2 := Host.Outcome.next.inj hexec
  have hearly := congrArg Thread.early hthread
  change (getThread (courseStep (behindEarly leaflessLoad) (.vec 0 0 0) 0) (.vec 0 0 0)).early =
    (getThread (courseStep withoutElement (.vec 0 0 0) 0) (.vec 0 0 0)).early at hearly
  rw [leaflessLoad_drops, withoutElement_keeps.1] at hearly
  exact List.cons_ne_nil _ _ hearly.symm

end Sys2Proof.Proofs
end

section
/-!
A pattern whose block holds words behind its `end`: none of them runs. The obligation takes a word that writes the mask field for
one that has run, wherever it stands.
-/

namespace Sys2Proof.Proofs

open Sys2Proof Sys2Proof.Machine Sys2Proof.Safety Sys2Proof.Laws

/-- An `end`, and behind it an addition that writes the element and one that writes the mask bit. -/
def wordsBehindEnd : List Nat := [0, 2 ^ 58 + 8 * 2 ^ 54, 2 ^ 58 + 9 * 2 ^ 54]

/-- A core whose pattern store holds those words for context 0. -/
def coreBehindEnd : Core :=
  { Core.reset with
    store := wordsBehindEnd.zipIdx.map fun p => (p.2, { ctx := 0, word := BitVec.ofNat 64 p.1, bad := false }) }

/-- The binding of number 0 to those words. -/
def boundBehindEnd : Binding := { valid := true, reads := 0, len := 2, off := 0, words := [] }

/-- A PAT entry of one element under m1, with a budget of one leaf. -/
def patBehindEnd : VEntry := { plainEntry (.pat 3 4 5 1 0 0 0) 1 0 with budget := 1 }

/-- Its thread: m1 names its element. -/
def threadBehindEnd : Thread :=
  { Thread.reset with tstate := .running, vq := [patBehindEnd], m := Thread.reset.m.set 1 1 }

/-- The state in which it stands. -/
def stateBehindEnd : State :=
  putThread (putCtx (putCore State.reset 0 0 coreBehindEnd) 0 { Context.reset with binds := [(0, boundBehindEnd)] }) (.vec 0 0 0)
    threadBehindEnd

theorem threadBehindEnd_frozen : threadBehindEnd.frozen = none := rfl

theorem getThread_stateBehindEnd : getThread stateBehindEnd stateBehindEnd.ev.tid = threadBehindEnd :=
  getThread_putThread_self _ _ _

/-- No element of the pattern writes its mask bit: the bit stays. -/
theorem stateBehindEnd_keeps :
    (getThread (courseStep stateBehindEnd (.vec 0 0 0) 0) (.vec 0 0 0)).m[1].getLsbD 0 = true := by
  decide +kernel

/-- Refutes O48: a pattern with a word that writes the mask bit is said to give the bit, 0 where no word wrote it, but behind an
`end` that word does not run and the bit stays 1. -/
theorem not_resultsAreBuiltInCourses : ¬ Obligations.ResultsAreBuiltInCourses := by
  unfold Obligations.ResultsAreBuiltInCourses
  rintro ⟨-, h⟩
  have h := h stateBehindEnd patBehindEnd [] 3 .vectorCourse [0] { coreBehindEnd with fresh := 1 }
  simp only [getThread_stateBehindEnd] at h
  have hfrozen : ∀ f, threadBehindEnd.frozen = some f → f.out = [] := by
    simp [threadBehindEnd_frozen]
  obtain ⟨-, -, -, -, -, -, -, -, -, -, -, -, -, -, -, hpat, -⟩ := h (.inl trivial) rfl rfl rfl rfl rfl (by decide) (by decide)
    (by decide +kernel) rfl rfl hfrozen nofun (.inl rfl) ⟨_, rfl, rfl⟩ (by decide) nofun (by decide)
  obtain ⟨s', part, w, hexec, hbits, hthread, -⟩ := hpat 4 5 1 0 0 0 boundBehindEnd rfl (by decide +kernel) (by decide +kernel)
    (by decide +kernel) (by decide +kernel) (by decide +kernel) (by decide) rfl rfl
  obtain rfl : courseStep stateBehindEnd (.vec 0 0 0) 0 = s' := Host.Outcome.next.inj hexec
  have hbit : w.getLsbD 0 = false := (hbits 1 0 (by decide +kernel) (by decide)).trans (by decide +kernel)
  have hmask : (getThread (courseStep stateBehindEnd (.vec 0 0 0) 0) (.vec 0 0 0)).m[1] = w &&& BitVec.ofNat 4096 (2 ^ 1 - 1) :=
    congrArg (fun y : Thread => y.m[1]) hthread
  have hkept := stateBehindEnd_keeps
  rw [hmask, BitVec.getLsbD_and, hbit] at hkept
  exact Bool.false_ne_true hkept

end Sys2Proof.Proofs
end

section
/-!
Rows and columns of the matrix engine as tables of a function, and the accumulators in the cluster's sparse table (R234).
-/

namespace Sys2Proof.Proofs

open Sys2Proof Sys2Proof.Machine Sys2Proof.Safety Sys2Proof.Laws

theorem upFrom_eq_range' (lo n : Nat) : upFrom lo n = List.range' lo n := by
  induction n generalizing lo with
  | zero => rfl
  | succ n ih => rw [upFrom, ih, List.range'_succ]

theorem upFrom_zero_eq_range (n : Nat) : upFrom 0 n = List.range n := by
  rw [upFrom_eq_range', List.range_eq_range']

/-- The rows of a function of a row and a column. -/
def table {α : Type} (m n : Nat) (f : Nat → Nat → α) : List (List α) :=
  (List.range m).map fun i => (List.range n).map (f i)

@[simp] theorem table_length {α : Type} (m n : Nat) (f : Nat → Nat → α) : (table m n f).length = m := by simp [table]

theorem getD_map_range {α : Type} (n : Nat) (f : Nat → α) (d : α) {i : Nat} (h : i < n) : ((List.range n).map f).getD i d = f i := by
  simp [List.getD_eq_getElem?_getD, h]

theorem table_row {α : Type} (m n : Nat) (f : Nat → Nat → α) {i : Nat} (h : i < m) :
    (table m n f).getD i [] = (List.range n).map (f i) := getD_map_range _ _ _ h

theorem table_getD {α : Type} (m n : Nat) (f : Nat → Nat → α) (d : α) {i j : Nat} (hi : i < m) (hj : j < n) :
    ((table m n f).getD i []).getD j d = f i j := by rw [table_row _ _ _ hi, getD_map_range _ _ _ hj]

theorem table_congr {α : Type} {m n : Nat} {f g : Nat → Nat → α} (h : ∀ i j, i < m → j < n → f i j = g i j) :
    table m n f = table m n g :=
  List.map_congr_left fun i hi => List.map_congr_left fun j hj => h i j (List.mem_range.1 hi) (List.mem_range.1 hj)

theorem list_eq_map_getD {α : Type} (l : List α) (d : α) : l = (List.range l.length).map fun i => l.getD i d := by
  apply List.ext_getElem
  · simp
  · intro i h _
    simp [h]

/-- Rows that are all of one length are a table. -/
theorem eq_table {α : Type} {m n : Nat} {l : List (List α)} (d : α) (hm : l.length = m) (hn : ∀ r ∈ l, r.length = n) :
    l = table m n fun i j => (l.getD i []).getD j d := by
  subst hm
  conv_lhs => rw [list_eq_map_getD l []]
  refine List.map_congr_left fun i hi => ?_
  have hlen : (l.getD i []).length = n := by
    rw [List.getD_eq_getElem _ _ (List.mem_range.1 hi)]
    exact hn _ (List.getElem_mem _)
  rw [← hlen]
  exact list_eq_map_getD _ _

theorem map_table {α β : Type} (g : α → β) (m n : Nat) (f : Nat → Nat → α) :
    ((table m n f).map fun r => r.map g) = table m n fun i j => g (f i j) := by
  simp [table, List.map_map, Function.comp_def]

theorem take_drop_range (a n m : Nat) (h : a + n ≤ m) : ((List.range m).drop a).take n = (List.range n).map fun i => a + i := by
  apply List.ext_getElem
  · simp; omega
  · intro i h1 h2
    simp

/-- A block of a table. -/
theorem table_block {α : Type} {m n a b x y : Nat} (f : Nat → Nat → α) (hm : a + x ≤ m) (hn : b + y ≤ n) :
    ((((table m n f).drop a).take x).map fun r => (r.drop b).take y) = table x y fun i j => f (a + i) (b + j) := by
  rw [table, ← List.map_drop, ← List.map_take, take_drop_range _ _ _ hm, List.map_map, List.map_map]
  refine List.map_congr_left fun i _ => ?_
  change (List.take y (List.drop b (List.map (f (a + i)) (List.range n)))) = _
  rw [← List.map_drop, ← List.map_take, take_drop_range _ _ _ hn, List.map_map]
  rfl

theorem flatten_table_length {α : Type} (m n : Nat) (f : Nat → Nat → α) : (table m n f).flatten.length = m * n := by
  simp [table, List.length_flatten, Function.comp_def]

/-- A table's rows one after another. -/
theorem flatten_table_getD {α : Type} (m n : Nat) (f : Nat → Nat → α) (d : α) {k : Nat} (h : k < m * n) :
    (table m n f).flatten.getD k d = f (k / n) (k % n) := by
  induction m with
  | zero => omega
  | succ m ih =>
    have hlen := flatten_table_length m n f
    have hsucc : table (m + 1) n f = table m n f ++ [(List.range n).map (f m)] := by
      simp [table, List.range_succ]
    rw [hsucc, List.flatten_append, List.flatten_singleton]
    by_cases hk : k < m * n
    · rw [List.getD_append _ _ _ _ (by omega), ih hk]
    · have hn : 0 < n := by
        rcases Nat.eq_zero_or_pos n with rfl | hn
        · omega
        · exact hn
      have hkm : k - m * n < n := by
        rw [Nat.succ_mul] at h
        omega
      have hdiv : k / n = m := by
        rw [show k = (k - m * n) + n * m by rw [Nat.mul_comm n m]; omega, Nat.add_mul_div_left _ _ hn, Nat.div_eq_of_lt hkm]
        simp
      have hmod : k % n = k - m * n := by
        have := Nat.div_add_mod k n
        rw [hdiv, Nat.mul_comm] at this
        omega
      rw [List.getD_append_right _ _ _ _ (by omega), hlen, getD_map_range _ _ _ hkm, hdiv, hmod]

theorem rowsOf_length {α : Type} (n k : Nat) (l : List α) : (rowsOf n k l).length = k := by
  induction k generalizing l with
  | zero => rfl
  | succ k ih => simp [rowsOf, ih]

/-- A list of k times n elements cut into k rows. -/
theorem rowsOf_eq_table {α : Type} {n k : Nat} {l : List α} (d : α) (h : l.length = n * k) :
    rowsOf n k l = table k n fun i j => l.getD (i * n + j) d := by
  induction k generalizing l with
  | zero => rfl
  | succ k ih =>
    have hmul : n * (k + 1) = n * k + n := Nat.mul_succ n k
    have hrest : rowsOf n k (l.drop n) = table k n fun i j => (l.drop n).getD (i * n + j) d := ih (by simp [h, hmul])
    have hfirst : l.take n = (List.range n).map fun j => l.getD (0 * n + j) d := by
      apply List.ext_getElem
      · simp [h, hmul]
      · intro j h1 h2
        have hj : j < l.length := by simp at h1; omega
        simp [hj]
    rw [rowsOf, hfirst, hrest, table, table, List.range_succ_eq_map, List.map_cons, List.map_map]
    refine congrArg _ (List.map_congr_left fun i _ => List.map_congr_left fun j _ => ?_)
    simp only [List.getD_eq_getElem?_getD, List.getElem?_drop, Nat.succ_eq_add_one, Nat.succ_mul]
    congr 2
    omega

/-- Rows side by side. -/
theorem zip_table_append {α : Type} (m n n' : Nat) (f g : Nat → Nat → α) :
    ((table m n f).zip (table m n' g)).map (fun p => p.1 ++ p.2) =
      table m (n + n') fun i j => if j < n then f i j else g i (j - n) := by
  rw [table, table, List.zip_map', List.map_map, table]
  refine List.map_congr_left fun i _ => ?_
  rw [List.range_add, List.map_append, List.map_map]
  refine congrArg₂ _ (List.map_congr_left fun j hj => ?_) (List.map_congr_left fun j _ => ?_)
  · exact (if_pos (List.mem_range.1 hj)).symm
  · simp

/-- Groups of rows one below another. -/
theorem flatMap_table {α : Type} (k m n : Nat) (hm : 0 < m) (f : Nat → Nat → Nat → α) :
    (List.range k).flatMap (fun b => table m n (f b)) = table (k * m) n fun i j => f (i / m) (i % m) j := by
  induction k with
  | zero => simp [table]
  | succ k ih =>
    rw [List.range_succ, List.flatMap_append, ih, List.flatMap_singleton, Nat.succ_mul, table, table, table, List.range_add,
      List.map_append, List.map_map]
    refine congrArg _ (List.map_congr_left fun i hi => List.map_congr_left fun j _ => ?_)
    have hi := List.mem_range.1 hi
    rw [Nat.mul_comm, Nat.mul_add_div hm, Nat.mul_add_mod, Nat.div_eq_of_lt hi, Nat.mod_eq_of_lt hi, Nat.add_zero]

/-- A sparse table in the order of its keys. -/
abbrev Rising {α : Type} (m : SMap α) : Prop := m.Pairwise fun p q => p.1 < q.1

/-- What a table in order holds at a key. -/
theorem mapFind_eq_some_iff {α : Type} {m : SMap α} (h : Rising m) (k : Nat) (v : α) : mapFind m k = some v ↔ (k, v) ∈ m := by
  induction m with
  | nil => simp [mapFind]
  | cons p r ih =>
    obtain ⟨a, w⟩ := p
    obtain ⟨hfirst, hrest⟩ := List.pairwise_cons.1 h
    have hbelow : ∀ x, (k, x) ∈ r → a < k := fun x hx => hfirst _ hx
    rw [mapFind, List.mem_cons, Prod.mk.injEq]
    split_ifs with h1 h2
    · subst h1
      constructor
      · intro hw
        exact .inl ⟨rfl, (Option.some.inj hw).symm⟩
      · rintro (⟨-, rfl⟩ | hv)
        · rfl
        · exact absurd (hbelow _ hv) (Nat.lt_irrefl _)
    · constructor
      · nofun
      · rintro (⟨rfl, -⟩ | hv)
        · exact absurd h2 (Nat.lt_irrefl _)
        · have := hbelow _ hv
          omega
    · rw [ih hrest]
      constructor
      · exact .inr
      · rintro (⟨rfl, -⟩ | hv)
        · exact absurd rfl h1
        · exact hv

/-- Two tables in order that hold the same pairs at a key answer alike there. -/
theorem mapGet_congr {α : Type} {m m' : SMap α} (h : Rising m) (h' : Rising m') {k : Nat} (hk : ∀ v, (k, v) ∈ m ↔ (k, v) ∈ m') (d : α) :
    mapGet d m k = mapGet d m' k := by
  have hfind : mapFind m k = mapFind m' k :=
    Option.ext fun v => by rw [mapFind_eq_some_iff h, mapFind_eq_some_iff h', hk]
  rw [mapGet, mapGet, hfind]

theorem rising_filter {α : Type} {m : SMap α} (h : Rising m) (p : Nat × α → Bool) : Rising (m.filter p) := h.filter p

theorem mapGet_filter {α : Type} {m : SMap α} (h : Rising m) (p : Nat → Bool) {k : Nat} (hk : p k = true) (d : α) :
    mapGet d (m.filter fun q => p q.1) k = mapGet d m k :=
  mapGet_congr (rising_filter h _) h (fun v => by simp [hk]) d

theorem expand_length (n lo : Nat) (m : SMap Nat) : (expand n lo m).length = n := by
  induction n generalizing lo m with
  | zero => rfl
  | succ n ih =>
    cases m with
    | nil => simp [expand, ih]
    | cons p r =>
      obtain ⟨k, v⟩ := p
      rw [expand]
      split <;> simp [ih]

theorem expand_getD {n lo : Nat} {m : SMap Nat} (hm : Rising m) (hlo : ∀ p ∈ m, lo ≤ p.1) {i : Nat} (hi : i < n) :
    (expand n lo m).getD i 0 = mapGet 0 m (lo + i) := by
  induction n generalizing lo m i with
  | zero => omega
  | succ n ih =>
    cases m with
    | nil =>
      cases i with
      | zero => rfl
      | succ i =>
        rw [expand, List.getD_cons_succ, ih .nil nofun (by omega)]
        rfl
    | cons p r =>
      obtain ⟨k, v⟩ := p
      obtain ⟨hfirst, hrest⟩ := List.pairwise_cons.1 hm
      have hk : lo ≤ k := hlo (k, v) List.mem_cons_self
      rw [expand]
      split_ifs with h1
      · subst h1
        cases i with
        | zero => simp [mapGet, mapFind]
        | succ i =>
          rw [List.getD_cons_succ, ih hrest (fun p hp => hfirst p hp) (by omega), mapGet, mapGet, mapFind, if_neg (by omega),
            if_neg (by omega), show k + 1 + i = k + (i + 1) by omega]
      · cases i with
        | zero => simp [mapGet, mapFind, h1, show lo < k by omega]
        | succ i =>
          rw [List.getD_cons_succ, ih hm (fun p hp => ?_) (by omega), show lo + 1 + i = lo + (i + 1) by omega]
          rcases List.mem_cons.1 hp with rfl | hp
          · change lo + 1 ≤ k
            omega
          · have := hfirst p hp
            change k < p.1 at this
            omega

/-- Element i of an accumulator. -/
theorem accBlock_getD {c : Cluster} (h : Rising c.acc) (unit ac : Nat) {i : Nat} (hi : i < 1024) :
    (accBlock c unit ac).getD i 0 = mapGet 0 c.acc (accBase unit ac + i) := by
  have hget := mapGet_filter h (fun k => decide (accBase unit ac ≤ k) && decide (k < accBase unit ac + 1024))
    (k := accBase unit ac + i) (by simp [hi]) 0
  rw [accBlock, expand_getD (rising_filter h _) (fun p hp => by simp at hp; omega) hi]
  exact hget

theorem accBlock_length (c : Cluster) (unit ac : Nat) : (accBlock c unit ac).length = 1024 := expand_length _ _ _

/-- The pairs of a table after an accumulator has been replaced. -/
theorem mem_putBlock (m : SMap Nat) (unit ac : Nat) (l : List Nat) (k v : Nat) :
    (k, v) ∈ putBlock m unit ac l ↔
      ((k, v) ∈ m ∧ (k < accBase unit ac ∨ accBase unit ac + 1024 ≤ k)) ∨
        ∃ i, k = accBase unit ac + i ∧ l[i]? = some v ∧ v ≠ 0 := by
  have hmid : (k, v) ∈ (l.zipIdx.filterMap fun q => if q.1 = 0 then none else some (accBase unit ac + q.2, q.1)) ↔
      ∃ i, k = accBase unit ac + i ∧ l[i]? = some v ∧ v ≠ 0 := by
    simp only [List.mem_filterMap, Prod.exists, List.mem_zipIdx_iff_getElem?]
    constructor
    · rintro ⟨a, i, hget, hsome⟩
      split_ifs at hsome with h0
      injection hsome with hsome
      injection hsome with h1 h2
      subst h1 h2
      exact ⟨i, rfl, hget, h0⟩
    · rintro ⟨i, rfl, hget, h0⟩
      exact ⟨v, i, hget, by rw [if_neg h0]⟩
  rw [putBlock, List.mem_append, List.mem_append, hmid]
  simp only [List.mem_filter, decide_eq_true_eq]
  rw [and_or_left, or_assoc, or_assoc, or_comm (b := (k, v) ∈ m ∧ accBase unit ac + 1024 ≤ k)]

theorem rising_putBlock {m : SMap Nat} (h : Rising m) (unit ac : Nat) {l : List Nat} (hl : l.length ≤ 1024) :
    Rising (putBlock m unit ac l) := by
  have hmid : Rising (l.zipIdx.filterMap fun q => if q.1 = 0 then none else some (accBase unit ac + q.2, q.1)) := by
    rw [Rising, List.pairwise_filterMap]
    have hidx : l.zipIdx.Pairwise fun p q => p.2 < q.2 := by
      have := List.pairwise_lt_range' (s := 0) (n := l.length)
      rw [← List.zipIdx_map_snd 0 l, List.pairwise_map] at this
      exact this
    refine hidx.imp fun hlt b hb b' hb' => ?_
    split_ifs at hb hb'
    rw [← Option.some.inj hb, ← Option.some.inj hb']
    exact Nat.add_lt_add_left hlt _
  have hbound : ∀ p ∈ (l.zipIdx.filterMap fun q => if q.1 = 0 then none else some (accBase unit ac + q.2, q.1)),
      accBase unit ac ≤ p.1 ∧ p.1 < accBase unit ac + 1024 := by
    simp only [List.mem_filterMap, Prod.exists, List.mem_zipIdx_iff_getElem?]
    rintro p ⟨a, i, hget, hsome⟩
    split_ifs at hsome
    injection hsome with hsome
    subst hsome
    obtain ⟨hi, -⟩ := List.getElem?_eq_some_iff.1 hget
    change accBase unit ac ≤ accBase unit ac + i ∧ accBase unit ac + i < accBase unit ac + 1024
    omega
  rw [putBlock, List.append_assoc, Rising, List.pairwise_append, List.pairwise_append]
  refine ⟨rising_filter h _, ⟨hmid, rising_filter h _, fun p hp q hq => ?_⟩, fun p hp q hq => ?_⟩
  · have := (hbound p hp).2
    simp only [List.mem_filter, decide_eq_true_eq] at hq
    omega
  · simp only [List.mem_append, List.mem_filter, decide_eq_true_eq] at hp hq
    rcases hq with hq | hq
    · have := (hbound q hq).1
      omega
    · omega

/-- A key lies in an accumulator. -/
def InBlock (unit ac k : Nat) : Prop := accBase unit ac ≤ k ∧ k < accBase unit ac + 1024

theorem mapGet_putBlock_outside {m : SMap Nat} (h : Rising m) {unit ac : Nat} {l : List Nat} (hl : l.length ≤ 1024) {k : Nat}
    (hk : ¬ InBlock unit ac k) : mapGet 0 (putBlock m unit ac l) k = mapGet 0 m k := by
  refine mapGet_congr (rising_putBlock h unit ac hl) h (fun v => ?_) 0
  rw [mem_putBlock]
  rw [InBlock] at hk
  constructor
  · rintro (⟨hm, -⟩ | ⟨i, rfl, hget, -⟩)
    · exact hm
    · obtain ⟨hi, -⟩ := List.getElem?_eq_some_iff.1 hget
      omega
  · exact fun hm => .inl ⟨hm, by omega⟩

theorem mapGet_putBlock_inside {m : SMap Nat} (h : Rising m) (unit ac : Nat) {l : List Nat} (hl : l.length ≤ 1024) {i : Nat}
    (hi : i < 1024) : mapGet 0 (putBlock m unit ac l) (accBase unit ac + i) = l.getD i 0 := by
  have hfind := mapFind_eq_some_iff (rising_putBlock h unit ac hl) (accBase unit ac + i)
  have hmem : ∀ v, (accBase unit ac + i, v) ∈ putBlock m unit ac l ↔ l[i]? = some v ∧ v ≠ 0 := fun v => by
    rw [mem_putBlock]
    constructor
    · rintro (⟨-, hout⟩ | ⟨j, hj, hget⟩)
      · omega
      · rwa [show i = j by omega]
    · exact fun hget => .inr ⟨i, rfl, hget⟩
  rw [mapGet, List.getD_eq_getElem?_getD]
  cases hget : l[i]? with
  | none =>
    cases hf : mapFind (putBlock m unit ac l) (accBase unit ac + i) with
    | none => rfl
    | some v =>
      have := (hmem v).1 ((hfind v).1 hf)
      rw [hget] at this
      exact absurd this.1 nofun
  | some v =>
    by_cases hv : v = 0
    · subst hv
      cases hf : mapFind (putBlock m unit ac l) (accBase unit ac + i) with
      | none => rfl
      | some v =>
        obtain ⟨hv, hne⟩ := (hmem v).1 ((hfind v).1 hf)
        rw [hget] at hv
        exact absurd (Option.some.inj hv).symm hne
    · rw [(hfind v).2 ((hmem v).2 ⟨hget, hv⟩)]

/-- Accumulators of different units are apart. -/
theorem not_inBlock_of_ne {unit unit' ac ac' i : Nat} (hac : ac < 4) (hac' : ac' < 4) (h : unit ≠ unit' ∨ ac ≠ ac') (hi : i < 1024) :
    ¬ InBlock unit' ac' (accBase unit ac + i) := by
  rw [InBlock, accBase, accBase]
  omega

/-- Several accumulators replaced, one after another. -/
theorem foldl_putBlock {α : Type} (u : α → Nat) {ac : Nat} (hac : ac < 4) (g : α → List Nat) {l : List α} {m : SMap Nat} (h : Rising m)
    (hg : ∀ p ∈ l, (g p).length ≤ 1024) :
    let r := l.foldl (fun m p => putBlock m (u p) ac (g p)) m
    Rising r ∧ (∀ k, (∀ p ∈ l, ¬ InBlock (u p) ac k) → mapGet 0 r k = mapGet 0 m k) ∧
      (l.Pairwise (fun p q => u p ≠ u q) → ∀ p ∈ l, ∀ i, i < 1024 → mapGet 0 r (accBase (u p) ac + i) = (g p).getD i 0) := by
  induction l generalizing m with
  | nil => exact ⟨h, fun _ _ => rfl, nofun⟩
  | cons x l ih =>
    have hx := hg x List.mem_cons_self
    obtain ⟨hrise, hout, hin⟩ := ih (rising_putBlock h (u x) ac hx) fun p hp => hg p (List.mem_cons_of_mem _ hp)
    refine ⟨hrise, fun k hk => ?_, fun hne p hp i hi => ?_⟩
    · rw [List.foldl_cons, hout k fun p hp => hk p (List.mem_cons_of_mem _ hp),
        mapGet_putBlock_outside h hx (hk x List.mem_cons_self)]
    · obtain ⟨hfirst, hrest⟩ := List.pairwise_cons.1 hne
      rcases List.mem_cons.1 hp with rfl | hp
      · rw [List.foldl_cons, hout _ fun q hq => not_inBlock_of_ne hac hac (.inl (hfirst q hq)) hi, mapGet_putBlock_inside h _ _ hx hi]
      · exact hin hrest p hp i hi

/-- Several entries of a table changed, one after another. -/
theorem foldl_mapPut {α : Type} (u : α → Nat) (f : Nat → Nat) {l : List α} (hne : l.Pairwise fun p q => u p ≠ u q) (m : SMap Nat) :
    let r := l.foldl (fun m p => mapPut m (u p) (f (mapGet 0 m (u p)))) m
    (∀ k, (∀ p ∈ l, k ≠ u p) → mapGet 0 r k = mapGet 0 m k) ∧ ∀ p ∈ l, mapGet 0 r (u p) = f (mapGet 0 m (u p)) := by
  induction l generalizing m with
  | nil => exact ⟨fun _ _ => rfl, nofun⟩
  | cons x l ih =>
    obtain ⟨hfirst, hrest⟩ := List.pairwise_cons.1 hne
    obtain ⟨hout, hin⟩ := ih hrest (mapPut m (u x) (f (mapGet 0 m (u x))))
    refine ⟨fun k hk => ?_, fun p hp => ?_⟩
    · rw [List.foldl_cons, hout k fun p hp => hk p (List.mem_cons_of_mem _ hp), mapGet_mapPut_other _ _ _ (hk x List.mem_cons_self)]
    · rcases List.mem_cons.1 hp with rfl | hp
      · rw [List.foldl_cons, hout _ hfirst, mapGet_mapPut_self]
      · rw [List.foldl_cons, hin p hp, mapGet_mapPut_other _ _ _ (hfirst p hp).symm]

end Sys2Proof.Proofs
end

section
/-!
The accumulators of a unit mask as one table of outputs, gathered and put back, with their product counts (R234, R235).
-/

namespace Sys2Proof.Proofs

open Sys2Proof Sys2Proof.Machine Sys2Proof.Safety Sys2Proof.Laws

/-- The place of an output among the accumulators (R234). -/
def outPos (u ac i j : Nat) : Nat :=
  (trailingZeros 4 u + 2 * (i / 32) + j / 32) * 4096 + ac * 1024 + i % 32 * 32 + j % 32

theorem outPos_eq (u ac i j : Nat) : outPos u ac i j = accBase (unitAt u (i / 32) (j / 32)) ac + (i % 32 * 32 + j % 32) := by
  rw [outPos, accBase, unitAt, Nat.add_assoc]

theorem outPos_block (u ac : Nat) {a b i j : Nat} (hi : i < 32) (hj : j < 32) :
    outPos u ac (32 * a + i) (32 * b + j) = accBase (unitAt u a b) ac + (i * 32 + j) := by
  rw [outPos_eq, show (32 * a + i) / 32 = a by omega, show (32 * b + j) / 32 = b by omega, show (32 * a + i) % 32 = i by omega,
    show (32 * b + j) % 32 = j by omega]

theorem outPos_count (u ac i j : Nat) :
    outPos u ac i j / 1024 = unitAt u (i / 32) (j / 32) * 4 + ac := by
  rw [outPos_eq, accBase]
  omega

theorem cfgM_eq (g : MatCfg) : cfgM g = cfgM g / 32 * 32 := by cases h : g.m64 <;> simp [cfgM, h]
theorem cfgN_eq (g : MatCfg) : cfgN g = cfgN g / 32 * 32 := by cases h : g.n64 <;> simp [cfgN, h]

theorem mem_blocksOf (g : MatCfg) (p : Nat × Nat) : p ∈ blocksOf g ↔ p.1 < cfgM g / 32 ∧ p.2 < cfgN g / 32 := by
  obtain ⟨a, b⟩ := p
  simp [blocksOf, upFrom_zero_eq_range]

/-- Every block of a shape has a unit of its own. -/
theorem blocksOf_units (g : MatCfg) (u : Nat) :
    (blocksOf g).Pairwise fun p q => unitAt u p.1 p.2 ≠ unitAt u q.1 q.2 := by
  cases hm : g.m64 <;> cases hn : g.n64 <;> simp [blocksOf, cfgM, cfgN, hm, hn, upFrom, unitAt]
  omega

/-- One accumulator of one unit as 32 rows of 32. -/
theorem block_table {c : Cluster} (h : Rising c.acc) (unit ac : Nat) :
    rowsOf 32 32 (accBlock c unit ac) = table 32 32 fun i j => mapGet 0 c.acc (accBase unit ac + (i * 32 + j)) := by
  rw [rowsOf_eq_table 0 (accBlock_length c unit ac)]
  exact table_congr fun i j hi hj => accBlock_getD h unit ac (by omega)

theorem block_rows {c : Cluster} (h : Rising c.acc) (u ac a : Nat) :
    (if c.cfg.n64 then ((rowsOf 32 32 (accBlock c (unitAt u a 0) ac)).zip (rowsOf 32 32 (accBlock c (unitAt u a 1) ac))).map
        fun p => p.1 ++ p.2
      else rowsOf 32 32 (accBlock c (unitAt u a 0) ac)) =
      table 32 (cfgN c.cfg) fun i j => mapGet 0 c.acc (outPos u ac (32 * a + i) j) := by
  have hplace : ∀ i j b, i < 32 → j < 32 →
      mapGet 0 c.acc (accBase (unitAt u a b) ac + (i * 32 + j)) = mapGet 0 c.acc (outPos u ac (32 * a + i) (32 * b + j)) :=
    fun i j b hi hj => by rw [outPos_block u ac hi hj]
  simp only [block_table h]
  split_ifs with hn
  · rw [zip_table_append, cfgN, if_pos hn]
    refine table_congr fun i j hi hj => ?_
    split_ifs with hj'
    · rw [hplace i j 0 hi hj', Nat.mul_zero, Nat.zero_add]
    · rw [hplace i (j - 32) 1 hi (by omega), show 32 * 1 + (j - 32) = j by omega]
  · rw [cfgN, if_neg hn]
    refine table_congr fun i j hi hj => ?_
    rw [hplace i j 0 hi hj, Nat.mul_zero, Nat.zero_add]

/-- The accumulators of a unit mask as the outputs. -/
theorem gatherAcc_eq {c : Cluster} (h : Rising c.acc) (u ac : Nat) :
    gatherAcc c u ac = table (cfgM c.cfg) (cfgN c.cfg) fun i j => mapGet 0 c.acc (outPos u ac i j) := by
  simp only [gatherAcc, block_rows h, upFrom_zero_eq_range]
  rw [flatMap_table _ _ _ (by decide) fun a i j => mapGet 0 c.acc (outPos u ac (32 * a + i) j), ← cfgM_eq]
  simp only [Nat.div_add_mod]

/-- The outputs of a block, one after another. -/
theorem block_outputs {g : MatCfg} (f : Nat → Nat → Nat) {p : Nat × Nat} (hp : p ∈ blocksOf g) :
    ((((table (cfgM g) (cfgN g) f).drop (32 * p.1)).take 32).flatMap fun r => (r.drop (32 * p.2)).take 32) =
      (table 32 32 fun i j => f (32 * p.1 + i) (32 * p.2 + j)).flatten := by
  obtain ⟨h1, h2⟩ := (mem_blocksOf g p).1 hp
  have hm := cfgM_eq g
  have hn := cfgN_eq g
  rw [List.flatMap_def, table_block f (by omega) (by omega)]

/-- Outputs put back stand at their places, and every other accumulator is as it was. -/
theorem scatterAcc_table {c : Cluster} (h : Rising c.acc) (u : Nat) {ac : Nat} (hac : ac < 4) (f : Nat → Nat → Nat) :
    let r := (scatterAcc c u ac (table (cfgM c.cfg) (cfgN c.cfg) f)).acc
    (∀ i j, i < cfgM c.cfg → j < cfgN c.cfg → mapGet 0 r (outPos u ac i j) = f i j) ∧
      ∀ k, (∀ i j, i < cfgM c.cfg → j < cfgN c.cfg → k ≠ outPos u ac i j) → mapGet 0 r k = mapGet 0 c.acc k := by
  intro r
  have hm := cfgM_eq c.cfg
  have hn := cfgN_eq c.cfg
  obtain ⟨-, hout, hin⟩ := foldl_putBlock (fun p : Nat × Nat => unitAt u p.1 p.2) hac
    (fun p => (((table (cfgM c.cfg) (cfgN c.cfg) f).drop (32 * p.1)).take 32).flatMap fun r => (r.drop (32 * p.2)).take 32) h
    (l := blocksOf c.cfg) fun p hp => by rw [block_outputs f hp, flatten_table_length]
  refine ⟨fun i j hi hj => ?_, fun k hk => hout k fun p hp hin => ?_⟩
  · have hp : (i / 32, j / 32) ∈ blocksOf c.cfg := (mem_blocksOf _ _).2 ⟨by omega, by omega⟩
    rw [outPos_eq]
    refine (hin (blocksOf_units _ _) _ hp _ (by omega)).trans ?_
    rw [block_outputs f hp, flatten_table_getD _ _ _ _ (by omega), show (i % 32 * 32 + j % 32) / 32 = i % 32 by omega,
      show (i % 32 * 32 + j % 32) % 32 = j % 32 by omega, Nat.div_add_mod, Nat.div_add_mod]
  · obtain ⟨a, b⟩ := p
    obtain ⟨h1, h2⟩ := (mem_blocksOf _ _).1 hp
    obtain ⟨hlo, hhi⟩ := hin
    simp only at hlo hhi
    have hplace := outPos_block u ac (a := a) (b := b) (i := (k - accBase (unitAt u a b) ac) / 32)
      (j := (k - accBase (unitAt u a b) ac) % 32) (by omega) (by omega)
    refine hk _ _ (by omega) (by omega) (Eq.trans ?_ hplace.symm)
    omega

/-- The counts of the accumulators of a mask, each counted on. -/
theorem addCounts_get (c : Cluster) (u ac n : Nat) {i j : Nat} (hi : i < cfgM c.cfg)
    (hj : j < cfgN c.cfg) :
    mapGet 0 (addCounts c u ac n).counts (outPos u ac i j / 1024) = min (mapGet 0 c.counts (outPos u ac i j / 1024) + n) 32641 := by
  have hm := cfgM_eq c.cfg
  have hn := cfgN_eq c.cfg
  have hp : (i / 32, j / 32) ∈ blocksOf c.cfg := (mem_blocksOf _ _).2 ⟨by omega, by omega⟩
  obtain ⟨-, hin⟩ := foldl_mapPut (fun p : Nat × Nat => unitAt u p.1 p.2 * 4 + ac) (fun v => min (v + n) (Config.exactProducts + 1))
    ((blocksOf_units c.cfg u).imp fun hne => by omega) c.counts
  rw [outPos_count u ac]
  exact hin _ hp

/-- Some accumulator of a mask has counted more than is exact just when that of some output has. -/
theorem rangeUncertain_iff (c : Cluster) (u ac : Nat) :
    rangeUncertain c u ac = true ↔ c.cfg.rn30 = true ∧ ∃ i j, i < cfgM c.cfg ∧ j < cfgN c.cfg ∧
      32640 < mapGet 0 c.counts (outPos u ac i j / 1024) := by
  have hm := cfgM_eq c.cfg
  have hn := cfgN_eq c.cfg
  rw [rangeUncertain, Bool.and_eq_true, List.any_eq_true]
  refine and_congr_right fun _ => ⟨?_, ?_⟩
  · rintro ⟨⟨a, b⟩, hp, hcount⟩
    obtain ⟨h1, h2⟩ := (mem_blocksOf _ _).1 hp
    simp only at h1 h2
    refine ⟨32 * a, 32 * b, by omega, by omega, ?_⟩
    rw [outPos_count u ac, show 32 * a / 32 = a by omega, show 32 * b / 32 = b by omega]
    exact of_decide_eq_true hcount
  · rintro ⟨i, j, hi, hj, hcount⟩
    refine ⟨(i / 32, j / 32), (mem_blocksOf _ _).2 ⟨by omega, by omega⟩, decide_eq_true ?_⟩
    rw [outPos_count u ac] at hcount
    exact hcount

/-- All flags of some rows of results. -/
def allFlags (l : List (List Res)) : BitVec 7 := l.foldl (fun t r => r.foldl (fun u x => u ||| x.flags) t) 0

theorem foldl_flags_bit (l : List Res) (z : BitVec 7) (b : Nat) :
    (l.foldl (fun u x => u ||| x.flags) z).getLsbD b = true ↔ z.getLsbD b = true ∨ ∃ x ∈ l, x.flags.getLsbD b = true := by
  induction l generalizing z with
  | nil => simp
  | cons x l ih => simp [ih, or_assoc]

theorem allFlags_bit (l : List (List Res)) (b : Nat) :
    (allFlags l).getLsbD b = true ↔ ∃ r ∈ l, ∃ x ∈ r, x.flags.getLsbD b = true := by
  have hfold : ∀ z : BitVec 7, (l.foldl (fun t r => r.foldl (fun u x => u ||| x.flags) t) z).getLsbD b = true ↔
      z.getLsbD b = true ∨ ∃ r ∈ l, ∃ x ∈ r, x.flags.getLsbD b = true := by
    induction l with
    | nil => simp
    | cons r l ih =>
      intro z
      rw [List.foldl_cons, ih, foldl_flags_bit]
      simp [or_assoc]
  rw [allFlags, hfold]
  simp

theorem allFlags_table (m n : Nat) (f : Nat → Nat → Res) (b : Nat) :
    (allFlags (table m n f)).getLsbD b = true ↔ ∃ i j, i < m ∧ j < n ∧ (f i j).flags.getLsbD b = true := by
  rw [allFlags_bit]
  simp [table]

/-- An accumulation over every output. -/
theorem mapOutputs_table {α β : Type} (g : Nat → α → β → Res) (m n : Nat) (x : Nat → Nat → Nat) (a : Nat → α) (b : Nat → β) :
    mapOutputs g (table m n x) ((List.range m).map a) ((List.range n).map b) =
      (table m n fun i j => (g (x i j) (a i) (b j)).bits, allFlags (table m n fun i j => g (x i j) (a i) (b j))) := by
  have hrows : (((table m n x).zip ((List.range m).map a)).map fun p => (p.1.zip ((List.range n).map b)).map fun q => g q.1 p.2 q.2) =
      table m n fun i j => g (x i j) (a i) (b j) := by
    rw [table, List.zip_map', List.map_map]
    refine List.map_congr_left fun i _ => ?_
    change ((((List.range n).map (x i)).zip ((List.range n).map b)).map fun q => g q.1 (a i) q.2) = _
    rw [List.zip_map', List.map_map]
    rfl
  rw [mapOutputs, hrows]
  exact congrArg₂ _ (map_table _ _ _ _) rfl

/-- What an mzero leaves of the accumulators. -/
theorem runMzero_acc {c : Cluster} (h : Rising c.acc) (u : Nat) {ac : Nat} (hac : ac < 4) (l : List Nat) :
    let z := l.foldl (fun c q =>
      if bitAt u q then
        { c with acc := putBlock c.acc q ac [], counts := mapDel c.counts (q * 4 + ac)
                 accBad := c.accBad.filter fun x => !(decide (accBase q ac ≤ x) && decide (x < accBase q ac + 1024)) }
      else c) c
    z.cfg = c.cfg ∧ z.tq = c.tq ∧ ∀ (q ac' k : Nat), ac' < 4 → k < 1024 →
      mapGet 0 z.acc (q * 4096 + ac' * 1024 + k) =
        if (q ∈ l ∧ u.testBit q = true) ∧ ac' = ac then 0 else mapGet 0 c.acc (q * 4096 + ac' * 1024 + k) := by
  induction l generalizing c with
  | nil => simp
  | cons x l ih =>
    rw [List.foldl_cons]
    split_ifs with hx
    · obtain ⟨hcfg, htq, hget⟩ := ih (c := { c with
        acc := putBlock c.acc x ac [], counts := mapDel c.counts (x * 4 + ac)
        accBad := c.accBad.filter fun y => !(decide (accBase x ac ≤ y) && decide (y < accBase x ac + 1024)) })
        (rising_putBlock h x ac (l := []) (by decide))
      refine ⟨hcfg, htq, fun q ac' k hac' hk => ?_⟩
      rw [hget q ac' k hac' hk]
      have hput : mapGet 0 (putBlock c.acc x ac []) (q * 4096 + ac' * 1024 + k) =
          if q = x ∧ ac' = ac then 0 else mapGet 0 c.acc (q * 4096 + ac' * 1024 + k) := by
        split_ifs with hq
        · obtain ⟨rfl, rfl⟩ := hq
          exact mapGet_putBlock_inside h q ac' (l := []) (by decide) hk
        · exact mapGet_putBlock_outside h (by decide)
            (not_inBlock_of_ne hac' hac (by tauto) hk)
      have hbit : u.testBit x = true := by rw [bitAt_testBit]; exact hx
      rw [hput]
      by_cases hac' : ac' = ac <;> by_cases hq : q = x <;> simp [hac', hq, hbit]
    · obtain ⟨hcfg, htq, hget⟩ := ih h
      refine ⟨hcfg, htq, fun q ac' k hac' hk => ?_⟩
      rw [hget q ac' k hac' hk]
      have hbit : u.testBit x = false := by rw [bitAt_testBit]; exact Bool.eq_false_iff.2 hx
      by_cases hq : q = x <;> simp [hq, hbit]

end Sys2Proof.Proofs
end

section
/-!
The sum of a group of products, and its addition to an accumulator with one rounding (R36, R53); a drained value (R238).
-/

namespace Sys2Proof.Proofs

open Sys2Proof Sys2Proof.Machine Sys2Proof.Safety Sys2Proof.Laws

/-- The exact value of a number; 0 for what is none. -/
def valueOf (u : FVal) : Rat :=
  match u with
  | .num n m e => num n m e
  | _ => 0

/-- What the sum of some terms is: an invalid NaN, another NaN, an infinity, or their exact sum, a zero being -0 only when
every term is. -/
def IsSum (ps : List FVal) (z : FVal) : Prop :=
  match z with
  | .nan true => .nan true ∈ ps ∨ (.inf true ∈ ps ∧ .inf false ∈ ps)
  | .nan false => .nan false ∈ ps ∧ .nan true ∉ ps
  | .inf q => .inf q ∈ ps ∧ (∀ s, .nan s ∉ ps) ∧ .inf (!q) ∉ ps
  | .num n m e => (∀ p ∈ ps, ∃ n m e, p = .num n m e) ∧ num n m e = (ps.map valueOf).sum ∧
      (m = 0 → (n = true ↔ ps ≠ [] ∧ ∀ p ∈ ps, ∃ d, p = .num true 0 d))

theorem isSum_single (x : FVal) : IsSum [x] x := by
  cases x with
  | nan s => cases s <;> simp [IsSum]
  | inf q => simp [IsSum]
  | num n m e =>
    refine ⟨by simp, by simp [valueOf], ?_⟩
    rintro rfl
    simp

/-- A sum of two numbers over their common unit. -/
theorem sumVal_num (a b : Bool) (m k : Nat) (e d : Int) :
    ∃ s : Int, num a m e + num b k d = (s : Rat) * (2 : Rat) ^ min e d ∧
      sumVal (.num a m e) (.num b k d) =
        if s = 0 then FVal.num (decide (m = 0) && decide (k = 0) && a && b) 0 0 else .num (decide (s < 0)) s.natAbs (min e d) := by
  refine ⟨scaledTo a m e d + scaledTo b k d e, ?_, ?_⟩
  · rw [← Rat.cast_inj (α := ℝ)]
    push_cast
    rw [add_mul, scaledTo_cast, min_comm, scaledTo_cast]
  · simp only [sumVal, scaledTo, min_comm d e]

theorem isSum_num {ps : List FVal} {a : Bool} {m : Nat} {e : Int} (h : IsSum ps (.num a m e)) (hne : ps ≠ []) (b : Bool) (k : Nat)
    (d : Int) : IsSum (ps ++ [.num b k d]) (sumVal (.num a m e) (.num b k d)) := by
  obtain ⟨hall, hsum, hsign⟩ := h
  obtain ⟨s, hs, heq⟩ := sumVal_num a b m k e d
  have hall' : ∀ p ∈ ps ++ [.num b k d], ∃ n m e, p = .num n m e := by
    intro p hp
    rcases List.mem_append.1 hp with hp | hp
    · exact hall p hp
    · exact ⟨b, k, d, List.mem_singleton.1 hp⟩
  have hsum' : ((ps ++ [FVal.num b k d]).map valueOf).sum = (s : Rat) * (2 : Rat) ^ min e d := by
    rw [List.map_append, List.sum_append, ← hsum, ← hs]
    simp [valueOf]
  rw [heq]
  split_ifs with hs0
  · refine ⟨hall', ?_, fun _ => ?_⟩
    · rw [hsum', hs0, (num_eq_zero_iff _ _ _).2 rfl]
      simp
    · simp only [Bool.and_eq_true, decide_eq_true_eq]
      constructor
      · rintro ⟨⟨⟨rfl, rfl⟩, rfl⟩, rfl⟩
        refine ⟨by simp, fun p hp => ?_⟩
        rcases List.mem_append.1 hp with hp | hp
        · exact ((hsign rfl).1 rfl).2 p hp
        · exact ⟨d, List.mem_singleton.1 hp⟩
      · rintro ⟨-, hneg⟩
        have hbefore : ∀ p ∈ ps, ∃ d, p = .num true 0 d := fun p hp => hneg p (List.mem_append_left _ hp)
        obtain ⟨d', hlast⟩ := hneg (.num b k d) (by simp)
        injection hlast with hb hk _
        have hzero : (ps.map valueOf).sum = 0 := by
          refine List.sum_eq_zero fun x hx => ?_
          obtain ⟨p, hp, rfl⟩ := List.mem_map.1 hx
          obtain ⟨d', rfl⟩ := hbefore p hp
          exact (num_eq_zero_iff _ _ _).2 rfl
        have hm : m = 0 := (num_eq_zero_iff a m e).1 (hsum.trans hzero)
        exact ⟨⟨⟨hm, hk⟩, (hsign hm).2 ⟨hne, hbefore⟩⟩, hb⟩
  · refine ⟨hall', ?_, fun h0 => absurd (Int.natAbs_eq_zero.1 h0) hs0⟩
    rw [hsum', ← Rat.cast_inj (α := ℝ), num_signed]
    push_cast
    rfl

/-- One more term. -/
theorem isSum_sumVal {ps : List FVal} {z : FVal} (h : IsSum ps z) (hne : ps ≠ []) (y : FVal) : IsSum (ps ++ [y]) (sumVal z y) := by
  cases z with
  | nan s =>
    cases s with
    | true =>
      have hbad : IsSum (ps ++ [y]) (.nan true) := by
        rcases h with h | ⟨h1, h2⟩
        · exact .inl (List.mem_append_left _ h)
        · exact .inr ⟨List.mem_append_left _ h1, List.mem_append_left _ h2⟩
      cases y <;> exact hbad
    | false =>
      obtain ⟨h1, h2⟩ := h
      cases y with
      | nan r =>
        cases r with
        | true => exact .inl (by simp)
        | false => exact ⟨by simp, by simp [h2]⟩
      | inf q => exact ⟨by simp [h1], by simp [h2]⟩
      | num b k d => exact ⟨by simp [h1], by simp [h2]⟩
  | inf q =>
    obtain ⟨h1, h2, h3⟩ := h
    cases y with
    | nan r =>
      cases r with
      | true => exact .inl (by simp)
      | false => exact ⟨by simp, by simp [h2]⟩
    | inf r =>
      by_cases hq : q = r
      · subst hq
        have hz : sumVal (.inf q) (.inf q) = .inf q := by simp [sumVal]
        rw [hz]
        exact ⟨by simp, by simp [h2], by simp [h3]⟩
      · have hz : sumVal (.inf q) (.inf r) = .nan true := by simp [sumVal, hq]
        rw [hz]
        refine .inr ?_
        cases q <;> cases r <;> simp_all
    | num b k d => exact ⟨by simp [h1], by simp [h2], by simp [h3]⟩
  | num a m e =>
    cases y with
    | nan r =>
      obtain ⟨hall, -⟩ := h
      have hno : ∀ s, .nan s ∉ ps := fun s hs => by
        obtain ⟨n, m, e, hc⟩ := hall _ hs
        exact absurd hc nofun
      cases r with
      | true => exact .inl (by simp)
      | false => exact ⟨by simp, by simp [hno]⟩
    | inf r =>
      obtain ⟨hall, -⟩ := h
      have hno : (∀ s, .nan s ∉ ps) ∧ ∀ s, .inf s ∉ ps := by
        constructor <;> intro s hs <;> obtain ⟨n, m, e, hc⟩ := hall _ hs <;> exact absurd hc nofun
      exact ⟨by simp, by simp [hno.1], by simp [hno.2]⟩
    | num b k d => exact isSum_num h hne b k d

theorem isSum_foldl {ps : List FVal} {z : FVal} (h : IsSum ps z) (hne : ps ≠ []) (r : List FVal) :
    IsSum (ps ++ r) (r.foldl sumVal z) := by
  induction r generalizing ps z with
  | nil => rwa [List.append_nil]
  | cons y r ih =>
    rw [List.append_cons]
    exact ih (isSum_sumVal h hne y) (by simp)

/-- The products of a group. -/
def products (l : List (FVal × FVal)) : List FVal := l.map fun p => prodVal p.1 p.2

/-- The sum of a group is that of its products, infinities of both signs being invalid wherever they stand. -/
theorem groupSum_isSum (l : List (FVal × FVal)) :
    IsSum (products l) (groupSum l) ∧
      (.inf true ∈ products l → .inf false ∈ products l → groupSum l = .nan true) := by
  rw [groupSum]
  change IsSum (products l) (match products l with | [] => _ | x :: r => _) ∧ (_ → _ → (match products l with | [] => _ | x :: r => _) = _)
  cases products l with
  | nil => exact ⟨⟨nofun, by simp [num_eq_zero_iff], by simp⟩, nofun⟩
  | cons x r =>
    simp only [Bool.and_eq_true, List.contains_iff_mem]
    split_ifs with hinf
    · exact ⟨.inr hinf, fun _ _ => rfl⟩
    · exact ⟨isSum_foldl (isSum_single x) (by simp) r, fun h1 h2 => absurd ⟨h1, h2⟩ hinf⟩

end Sys2Proof.Proofs
end

section
/-!
What an addition to an accumulator gives by the operands of its group (R36, R53), and what a drained value is (R238).
-/

namespace Sys2Proof.Proofs

open Sys2Proof Sys2Proof.Machine Sys2Proof.Safety Sys2Proof.Laws

/-- Some product of a group raises invalid: a signalling NaN, or an infinity times 0. -/
def Signals (l : List (FVal × FVal)) : Prop :=
  ∃ p ∈ l, p.1 = .nan true ∨ p.2 = .nan true ∨ ∃ a b e, p = (.inf a, .num b 0 e) ∨ p = (.num b 0 e, .inf a)

/-- Some product of a group has a NaN operand. -/
def HasNan (l : List (FVal × FVal)) : Prop := ∃ p ∈ l, NaN p.1 ∨ NaN p.2

/-- Some product of a group is an infinity of this sign. -/
def HasInf (l : List (FVal × FVal)) (q : Bool) : Prop :=
  ∃ p ∈ l, ∃ a b, q = (a != b) ∧
    (p = (.inf a, .inf b) ∨ ∃ m e, m ≠ 0 ∧ (p = (.inf a, .num b m e) ∨ p = (.num b m e, .inf a)))

/-- Every product of a group is of numbers. -/
def AllNumbers (l : List (FVal × FVal)) : Prop := ∀ p ∈ l, ∃ a j c b k d, p = (.num a j c, .num b k d)

/-- Every product of a group is -0. -/
def AllMinusZero (l : List (FVal × FVal)) : Prop :=
  l ≠ [] ∧ ∀ p ∈ l, ∃ a j c k d, p = (.num a j c, .num (!a) k d) ∧ (j = 0 ∨ k = 0)

theorem prodVal_signals (x y : FVal) :
    prodVal x y = .nan true ↔ x = .nan true ∨ y = .nan true ∨
      ∃ a b e, (x, y) = (.inf a, .num b 0 e) ∨ (x, y) = (.num b 0 e, .inf a) := by
  cases x <;> cases y <;> simp only [prodVal] <;> try split_ifs
  all_goals simp_all

theorem nan_mem_products (l : List (FVal × FVal)) : .nan true ∈ products l ↔ Signals l := by
  rw [products, List.mem_map]
  exact exists_congr fun p => and_congr_right fun _ => prodVal_signals p.1 p.2

theorem prodVal_quiet {x y : FVal} (h : prodVal x y = .nan false) : NaN x ∨ NaN y := by
  cases x <;> cases y <;> simp only [prodVal] at h <;> try split_ifs at h
  all_goals simp_all [NaN]

theorem hasNan_of_quiet {l : List (FVal × FVal)} (h : .nan false ∈ products l) : HasNan l := by
  obtain ⟨p, hp, hz⟩ := List.mem_map.1 h
  exact ⟨p, hp, prodVal_quiet hz⟩

theorem prodVal_nan {x y : FVal} (h : NaN x ∨ NaN y) : NaN (prodVal x y) := by
  rcases h with (rfl | rfl) | (rfl | rfl)
  · cases y <;> simp [NaN, prodVal]
  · cases y <;> simp [NaN, prodVal]
  · cases x <;> simp [NaN, prodVal]
  · cases x <;> simp [NaN, prodVal]

theorem nan_of_hasNan {l : List (FVal × FVal)} (h : HasNan l) : .nan true ∈ products l ∨ .nan false ∈ products l := by
  obtain ⟨p, hp, hn⟩ := h
  exact (prodVal_nan hn).imp (fun h => List.mem_map.2 ⟨p, hp, h⟩) fun h => List.mem_map.2 ⟨p, hp, h⟩

theorem prodVal_inf (x y : FVal) (q : Bool) :
    prodVal x y = .inf q ↔ ∃ a b, q = (a != b) ∧
      ((x, y) = (.inf a, .inf b) ∨ ∃ m e, m ≠ 0 ∧ ((x, y) = (.inf a, .num b m e) ∨ (x, y) = (.num b m e, .inf a))) := by
  constructor
  · intro h
    cases x with
    | nan s => cases y <;> exact absurd h nofun
    | inf a =>
      cases y with
      | nan s => exact absurd h nofun
      | inf b => exact ⟨a, b, (FVal.inf.inj h).symm, .inl rfl⟩
      | num b m e =>
        rw [prodVal] at h
        split_ifs at h with hm
        exact ⟨a, b, (FVal.inf.inj h).symm, .inr ⟨m, e, hm, .inl rfl⟩⟩
    | num b m e =>
      cases y with
      | nan s => exact absurd h nofun
      | inf a =>
        rw [prodVal] at h
        split_ifs at h with hm
        exact ⟨a, b, (FVal.inf.inj h).symm.trans (Bool.xor_comm b a), .inr ⟨m, e, hm, .inr rfl⟩⟩
      | num => exact absurd h nofun
  · rintro ⟨a, b, rfl, hxy | ⟨m, e, hm, hxy | hxy⟩⟩ <;> obtain ⟨rfl, rfl⟩ := Prod.mk.inj hxy
    · rfl
    · rw [prodVal, if_neg hm]
    · rw [prodVal, if_neg hm]
      exact congrArg _ (Bool.xor_comm b a)

theorem inf_mem_products (l : List (FVal × FVal)) (q : Bool) : .inf q ∈ products l ↔ HasInf l q := by
  rw [products, List.mem_map]
  exact exists_congr fun p => and_congr_right fun _ => prodVal_inf p.1 p.2 q

/-- What the sum of a group of products is. -/
theorem groupSum_cases (l : List (FVal × FVal)) :
    (Signals l ∨ (HasInf l true ∧ HasInf l false) → groupSum l = .nan true) ∧
    (¬ (Signals l ∨ (HasInf l true ∧ HasInf l false)) → HasNan l → groupSum l = .nan false) ∧
    (¬ (Signals l ∨ (HasInf l true ∧ HasInf l false)) → ¬ HasNan l → (∀ q, HasInf l q → groupSum l = .inf q) ∧
      ((∀ q, ¬ HasInf l q) → ∃ n m e, groupSum l = .num n m e)) := by
  obtain ⟨hsum, hboth⟩ := groupSum_isSum l
  rw [inf_mem_products, inf_mem_products] at hboth
  simp only [← nan_mem_products, ← inf_mem_products] at hboth ⊢
  generalize groupSum l = z at hsum hboth
  have hsome : ∀ n m e, z = .num n m e → ∀ p ∈ products l, ∃ n m e, p = .num n m e := by
    rintro n m e rfl
    exact hsum.1
  refine ⟨fun hbad => ?_, fun hbad hnan => ?_, fun hbad hnan => ⟨fun q hq => ?_, fun hinf => ?_⟩⟩
  · rcases hbad with hbad | ⟨h1, h2⟩
    · cases z with
      | nan s =>
        cases s with
        | true => rfl
        | false => exact absurd hbad hsum.2
      | inf q => exact absurd hbad (hsum.2.1 true)
      | num n m e =>
        obtain ⟨n, m, e, hc⟩ := hsome n m e rfl _ hbad
        exact absurd hc nofun
    · exact hboth h1 h2
  · have hquiet : .nan false ∈ products l := (nan_of_hasNan hnan).resolve_left fun h => hbad (.inl h)
    cases z with
    | nan s =>
      cases s with
      | true => exact absurd hsum hbad
      | false => rfl
    | inf q => exact absurd hquiet (hsum.2.1 false)
    | num n m e =>
      obtain ⟨n, m, e, hc⟩ := hsome n m e rfl _ hquiet
      exact absurd hc nofun
  · cases z with
    | nan s =>
      cases s with
      | true => exact absurd hsum hbad
      | false => exact absurd (hasNan_of_quiet hsum.1) hnan
    | inf r =>
      obtain ⟨-, -, hother⟩ := hsum
      by_cases hqr : q = r
      · rw [hqr]
      · rw [show (!r) = q by cases q <;> cases r <;> simp_all] at hother
        exact absurd hq hother
    | num n m e =>
      obtain ⟨n, m, e, hc⟩ := hsome n m e rfl _ hq
      exact absurd hc nofun
  · cases z with
    | nan s =>
      cases s with
      | true => exact absurd hsum hbad
      | false => exact absurd (hasNan_of_quiet hsum.1) hnan
    | inf q => exact absurd hsum.1 (hinf q)
    | num n m e => exact ⟨n, m, e, rfl⟩

theorem addVal_inf_opposite (f : Fmt) (rm : Nat) (q : Bool) : addVal f rm (.inf q) (.inf (!q)) = invalid f := by
  cases q <;> simp [addVal, nanOf]

theorem addVal_inf (f : Fmt) (rm : Nat) (q : Bool) {x y : FVal}
    (h : (x = .inf q ∧ (y = .inf q ∨ ∃ n m e, y = .num n m e)) ∨ (y = .inf q ∧ ∃ n m e, x = .num n m e)) :
    addVal f rm x y = infRes f q := by
  rcases h with ⟨rfl, rfl | ⟨n, m, e, rfl⟩⟩ | ⟨rfl, n, m, e, rfl⟩ <;> simp [addVal, nanOf]

theorem infRes_f32 (q : Bool) : infRes (fmtOf 12) q = { bits := (fmtOf 12).inf q, flags := 0, exc := false } := by
  simp [infRes, fmtOf, Res.plain]

section
variable (acc : Nat) (l : List (FVal × FVal))

/-- An addition to an accumulator is invalid. -/
def AddInvalid : Prop :=
  unpack (fmtOf 12) acc = .nan true ∨ Signals l ∨ (HasInf l true ∧ HasInf l false) ∨
    (¬ NaN (unpack (fmtOf 12) acc) ∧ ¬ HasNan l ∧ ∃ q, unpack (fmtOf 12) acc = .inf q ∧ HasInf l (!q))

theorem accAdd_invalid (h : AddInvalid acc l) : accAdd acc l = { bits := (fmtOf 12).nan, flags := flagInv, exc := true } := by
  obtain ⟨hbad, -, hinf⟩ := groupSum_cases l
  have hsignals : ∀ {x y : FVal}, x = .nan true ∨ y = .nan true → addVal (fmtOf 12) 0 x y = invalid (fmtOf 12) := by
    rintro x y (rfl | rfl) <;> simp [addVal, nanOf]
  have hmeaning : invalid (fmtOf 12) = { bits := (fmtOf 12).nan, flags := flagInv, exc := true } := rfl
  rw [← hmeaning, accAdd]
  rcases h with h | h | h | ⟨hx, hn, q, hq, hopp⟩
  · exact hsignals (.inl h)
  · exact hsignals (.inr (hbad (.inl h)))
  · exact hsignals (.inr (hbad (.inr h)))
  · by_cases hs : Signals l ∨ (HasInf l true ∧ HasInf l false)
    · exact hsignals (.inr (hbad hs))
    · rw [hq, (hinf hs hn).1 _ hopp, addVal_inf_opposite]

theorem accAdd_nan (h : ¬ AddInvalid acc l) (hn : NaN (unpack (fmtOf 12) acc) ∨ HasNan l) :
    (accAdd acc l).bits = (fmtOf 12).nan ∧ (accAdd acc l).flags = 0 := by
  obtain ⟨-, hquiet, hinf⟩ := groupSum_cases l
  simp only [AddInvalid, not_or] at h
  obtain ⟨hx, hs, hboth, -⟩ := h
  have hbad : ¬ (Signals l ∨ (HasInf l true ∧ HasInf l false)) := not_or.2 ⟨hs, hboth⟩
  have hnot : groupSum l ≠ .nan true := by
    by_cases hnan : HasNan l
    · rw [hquiet hbad hnan]
      nofun
    · by_cases hex : ∃ q, HasInf l q
      · obtain ⟨q, hq⟩ := hex
        rw [(hinf hbad hnan).1 q hq]
        nofun
      · obtain ⟨n, m, e, hz⟩ := (hinf hbad hnan).2 (not_exists.1 hex)
        rw [hz]
        nofun
  have hpair : NaN (unpack (fmtOf 12) acc) ∨ NaN (groupSum l) := hn.imp_right fun hn => .inr (hquiet hbad hn)
  obtain ⟨r, hr, hbits, hflags⟩ := nanOf_pair (f := fmtOf 12) hpair
  simp only [accAdd, addVal, hr]
  exact ⟨hbits, by rw [hflags, if_neg (not_or.2 ⟨hx, hnot⟩)]⟩

theorem accAdd_inf (h : ¬ AddInvalid acc l) (hx : ¬ NaN (unpack (fmtOf 12) acc)) (hn : ¬ HasNan l) (q : Bool)
    (hq : unpack (fmtOf 12) acc = .inf q ∨ HasInf l q) :
    accAdd acc l = { bits := (fmtOf 12).inf q, flags := 0, exc := false } := by
  obtain ⟨-, -, hinf⟩ := groupSum_cases l
  have hopp : ∀ q, unpack (fmtOf 12) acc = .inf q → ¬ HasInf l (!q) := fun q h1 h2 => h (.inr (.inr (.inr ⟨hx, hn, q, h1, h2⟩)))
  simp only [AddInvalid, not_or] at h
  obtain ⟨-, hs, hboth, -⟩ := h
  obtain ⟨hsome, hnone⟩ := hinf (not_or.2 ⟨hs, hboth⟩) hn
  rw [accAdd, ← infRes_f32]
  by_cases hl : ∃ r, HasInf l r
  · obtain ⟨r, hr⟩ := hl
    rw [hsome r hr]
    cases hu : unpack (fmtOf 12) acc with
    | nan s => exact absurd hu fun h => hx (by cases s <;> simp [NaN, h])
    | inf t =>
      have htr : t = r := by
        by_contra hne
        exact hopp t hu (by rwa [show (!t) = r by cases t <;> cases r <;> simp_all])
      subst htr
      have hqt : q = t := by
        rcases hq with hq | hq
        · rw [hu] at hq
          exact (FVal.inf.inj hq).symm
        · by_contra hne
          exact hopp t hu (by rwa [show (!t) = q by cases t <;> cases q <;> simp_all])
      subst hqt
      exact addVal_inf _ _ _ (.inl ⟨rfl, .inl rfl⟩)
    | num n m e =>
      have hqr : q = r := by
        rcases hq with hq | hq
        · rw [hu] at hq
          exact absurd hq nofun
        · exact FVal.inf.inj ((hsome q hq).symm.trans (hsome r hr))
      subst hqr
      exact addVal_inf _ _ _ (.inr ⟨rfl, n, m, e, rfl⟩)
  · obtain ⟨n, m, e, hz⟩ := hnone (not_exists.1 hl)
    have hu := hq.resolve_right fun hq => hl ⟨q, hq⟩
    rw [hu, hz]
    exact addVal_inf _ _ _ (.inl ⟨rfl, .inr ⟨n, m, e, rfl⟩⟩)

theorem products_numbers {l : List (FVal × FVal)} (h : AllNumbers l) : ∀ p ∈ products l, ∃ n m e, p = .num n m e := by
  intro p hp
  obtain ⟨x, hx, rfl⟩ := List.mem_map.1 hp
  obtain ⟨a, j, c, b, k, d, rfl⟩ := h x hx
  exact ⟨_, _, _, rfl⟩

/-- The sum of a group of numbers is their exact one, and a zero is -0 only of products that all are. -/
theorem groupSum_numbers {l : List (FVal × FVal)} (h : AllNumbers l) :
    ∃ n m e, groupSum l = .num n m e ∧ num n m e = (l.map fun p => valueOf p.1 * valueOf p.2).sum ∧
      (m = 0 → (n = true ↔ AllMinusZero l)) := by
  obtain ⟨hsum, -⟩ := groupSum_isSum l
  have hall := products_numbers h
  have hvalue : ((products l).map valueOf).sum = (l.map fun p => valueOf p.1 * valueOf p.2).sum := by
    rw [products, List.map_map]
    refine congrArg _ (List.map_congr_left fun p hp => ?_)
    obtain ⟨a, j, c, b, k, d, rfl⟩ := h p hp
    exact num_mul a b j k c d
  have hminus : (products l ≠ [] ∧ ∀ p ∈ products l, ∃ d, p = .num true 0 d) ↔ AllMinusZero l := by
    rw [products, AllMinusZero, Ne, List.map_eq_nil_iff, List.forall_mem_map]
    refine and_congr_right fun _ => forall₂_congr fun p hp => ?_
    obtain ⟨a, j, c, b, k, d, rfl⟩ := h p hp
    constructor
    · rintro ⟨e, he⟩
      obtain ⟨hs, hz, -⟩ := FVal.num.inj he
      refine ⟨a, j, c, k, d, ?_, Nat.mul_eq_zero.1 hz⟩
      rw [show (!a) = b by cases a <;> cases b <;> simp_all]
    · rintro ⟨a', j', c', k', d', he, hz⟩
      obtain ⟨h1, h2⟩ := Prod.mk.inj he
      obtain ⟨rfl, rfl, rfl⟩ := FVal.num.inj h1
      obtain ⟨rfl, rfl, rfl⟩ := FVal.num.inj h2
      exact ⟨c + d, by rw [prodVal, Nat.mul_eq_zero.2 hz]; cases a <;> rfl⟩
  cases hz : groupSum l with
  | nan s =>
    rw [hz] at hsum
    have hno : ∀ s, .nan s ∉ products l := fun s hs => by
      obtain ⟨n, m, e, hc⟩ := hall _ hs
      exact absurd hc nofun
    cases s with
    | true =>
      rcases hsum with hs | ⟨hs, -⟩
      · exact absurd hs (hno true)
      · obtain ⟨n, m, e, hc⟩ := hall _ hs
        exact absurd hc nofun
    | false => exact absurd hsum.1 (hno false)
  | inf q =>
    rw [hz] at hsum
    obtain ⟨n, m, e, hc⟩ := hall _ hsum.1
    exact absurd hc nofun
  | num n m e =>
    rw [hz] at hsum
    obtain ⟨-, hval, hsign⟩ := hsum
    rw [hminus] at hsign
    exact ⟨n, m, e, rfl, hval.trans hvalue, hsign⟩

theorem accAdd_numbers {n : Bool} {m : Nat} {e : Int} (hx : unpack (fmtOf 12) acc = .num n m e) (h : AllNumbers l) :
    let sum := num n m e + (l.map fun p => valueOf p.1 * valueOf p.2).sum
    (sum ≠ 0 → ∃ n m e, m ≠ 0 ∧ num n m e = sum ∧ accAdd acc l = roundFp (fmtOf 12) .arith 0 n m e false) ∧
      (sum = 0 → (m = 0 ∧ n = true ∧ AllMinusZero l → accAdd acc l = { bits := (fmtOf 12).sign true, flags := 0, exc := false }) ∧
        (¬ (m = 0 ∧ n = true ∧ AllMinusZero l) → accAdd acc l = { bits := 0, flags := 0, exc := false })) := by
  obtain ⟨q, k, d, hz, hsum, hsign⟩ := groupSum_numbers h
  rw [← hsum]
  obtain ⟨hne, heq⟩ := addNum_rounds (fmtOf 12) 0 n q m k e d
  rw [accAdd, addVal_num hx hz]
  refine ⟨hne, fun h0 => ?_⟩
  rw [heq h0]
  have hneg : (n = true ∧ q = true) ↔ m = 0 ∧ n = true ∧ AllMinusZero l := by
    constructor
    · rintro ⟨rfl, rfl⟩
      have hm : m = 0 := by
        by_contra hm
        have h1 := (num_neg_iff true m e).2 ⟨rfl, hm⟩
        have h2 : num true k d ≤ 0 := by
          by_cases hk : k = 0
          · exact ((num_eq_zero_iff true k d).2 hk).le
          · exact ((num_neg_iff true k d).2 ⟨rfl, hk⟩).le
        linarith
      have hk : k = 0 := by
        rw [(num_eq_zero_iff true m e).2 hm, zero_add] at h0
        exact (num_eq_zero_iff _ _ _).1 h0
      exact ⟨hm, rfl, (hsign hk).1 rfl⟩
    · rintro ⟨hm, hn, hminus⟩
      rw [(num_eq_zero_iff n m e).2 hm, zero_add] at h0
      exact ⟨hn, (hsign ((num_eq_zero_iff _ _ _).1 h0)).2 hminus⟩
  rw [← hneg]
  constructor
  · rintro ⟨rfl, rfl⟩
    rfl
  · intro hnot
    have hpos : (if n = q then n else decide ((0 : Nat) = 2)) = false := by
      cases n <;> cases q <;> simp_all
    rw [hpos]
    rfl

end

section
variable (rn : Bool) (cv rm x : Nat) (scale : Option Word)

/-- The number that an rn30 accumulator drains. -/
def drained : Int := if rnValid x then rnValue x else 0

/-- The invalid container of an rn30 accumulator. -/
def drainFlag : BitVec 7 := if rn && !rnValid x then flagInv else 0

/-- What an accumulator holds. -/
def drainSource : FVal := if rn then .num (decide (drained x < 0)) (drained x).natAbs 0 else unpack (fmtOf 12) x

/-- The scale of a drain. -/
def drainScale : FVal :=
  match scale with
  | some y => unpack (fmtOf 12) (y.toNat % 2 ^ 32)
  | none => .num false 1 0

theorem drainElem_int (h : rn = true) :
    (drainElem rn 4 rm scale x).bits = ofSigned 32 (drained x) ∧ (drainElem rn 4 rm scale x).flags = drainFlag rn x := by
  subst h
  cases hv : rnValid x <;> simp [drainElem, drained, drainFlag, hv]

/-- A drain to a floating-point type is one product. -/
theorem drainElem_fp (h : cv ≠ 4) :
    (drainElem rn cv rm scale x).bits = (mulVal (fmtOf (cvType cv)) .convert rm (drainSource rn x) (drainScale scale)).bits ∧
      (drainElem rn cv rm scale x).flags =
        (mulVal (fmtOf (cvType cv)) .convert rm (drainSource rn x) (drainScale scale)).flags ||| drainFlag rn x := by
  have hv : (if (rn && !rnValid x) = true then 0 else rnValue x) = if rn = true then drained x else rnValue x := by
    cases rn <;> cases h : rnValid x <;> simp [drained, h]
  have hs : (if rn = true then
      FVal.num (decide ((if (rn && !rnValid x) = true then (0 : Int) else rnValue x) < 0))
        (if (rn && !rnValid x) = true then (0 : Int) else rnValue x).natAbs 0 else unpack (fmtOf 12) x) = drainSource rn x := by
    rw [hv]
    cases rn <;> simp [drainSource]
  simp only [drainElem, if_neg h]
  rw [hs]
  cases scale <;> simp only [drainScale, drainFlag, and_self]

end

theorem mulVal_invalid (f : Fmt) (ov : Over) (rm : Nat) {x y : FVal} {n q : Bool} {e : Int}
    (h : (x = .inf n ∧ y = .num q 0 e) ∨ (x = .num q 0 e ∧ y = .inf n)) : mulVal f ov rm x y = invalid f := by
  rcases h with ⟨rfl, rfl⟩ | ⟨rfl, rfl⟩ <;> simp [mulVal, nanOf]

theorem mulVal_inf (f : Fmt) (ov : Over) (rm : Nat) {x y : FVal} {n q : Bool}
    (h : (x = .inf n ∧ (y = .inf q ∨ ∃ m e, m ≠ 0 ∧ y = .num q m e)) ∨ (y = .inf q ∧ ∃ m e, m ≠ 0 ∧ x = .num n m e)) :
    mulVal f ov rm x y = infRes f (n != q) := by
  rcases h with ⟨rfl, rfl | ⟨m, e, hm, rfl⟩⟩ | ⟨rfl, m, e, hm, rfl⟩
  · simp [mulVal, nanOf]
  · simp [mulVal, nanOf, hm]
  · rw [show (n != q) = (q != n) from Bool.xor_comm n q]
    simp [mulVal, nanOf, hm]

end Sys2Proof.Proofs
end

section
/-!
The MATRIX forms as they issue on an MCC (R109, R228, R229).
-/

namespace Sys2Proof.Proofs

open Sys2Proof Sys2Proof.Machine Sys2Proof.Safety Sys2Proof.Laws

theorem exec_mwait (n : Fin 256) (s : State) : exec (.mwait n) s = execMwait n s := rfl

/-- An instruction joins the tile queue of its MCC as this operation. -/
def Joins (s : State) (o : Out) (op : TileOp) : Prop :=
  let th := running s
  let cl := clusterOf s.cur
  let c := getCluster s cl
  ∃ t, o = .next t ∧ getThread t s.cur = { th with nextStamp := th.nextStamp + 1, pc := th.pc + 8 } ∧
    getCluster t cl = { c with tq := c.tq ++ [{ op := op, pc := th.pc, stamp := th.nextStamp }] } ∧
    (∀ x, x ≠ s.cur → getThread t x = getThread s x) ∧ (∀ x, x ≠ cl → getCluster t x = getCluster s x) ∧
    t = { s with threads := t.threads, clusters := t.clusters }

theorem raises_illegal (s : State) : Raises s (illegal s s.cur) 0x01 (running s).ir.toNat true :=
  raises_unroutable s (by simp [routable]) _ _

section
variable {s : State} {rs : List Reg} {ok : MatCfg → Bool} {mk : Thread → TileOp}

/-- A MATRIX form is illegal on a vector core, and on an MCC under a configuration that does not allow it. -/
theorem issueTile_illegal (h : isMcc s.cur = false ∨ ok (issueCfg (getCluster s (clusterOf s.cur))) = false) :
    Raises s (issueTile s rs ok mk) 0x01 (running s).ir.toNat true := by
  have hcond : (!isMcc s.cur || !ok (issueCfg (getCluster s (clusterOf s.cur)))) = true := by
    rcases h with h | h <;> simp [h]
  simp only [issueTile, hcond]
  exact raises_illegal s

section
variable (hm : isMcc s.cur = true) (hok : ok (issueCfg (getCluster s (clusterOf s.cur))) = true) (hr : Ready s rs)
include hm hok hr

/-- A full tile queue holds the MCC. -/
theorem issueTile_waits (hfull : 32 ≤ (getCluster s (clusterOf s.cur)).tq.length) : Waits s (issueTile s rs ok mk) := by
  have hcond : (!isMcc s.cur || !ok (issueCfg (getCluster s (clusterOf s.cur)))) = false := by simp [hm, hok]
  have hdepth : Config.tqDepth ≤ (getCluster s (clusterOf s.cur)).tq.length := hfull
  simp only [issueTile, hcond, withRegs_ready hr, hdepth]
  rfl

theorem issueTile_joins (hroom : (getCluster s (clusterOf s.cur)).tq.length < 32) :
    Joins s (issueTile s rs ok mk) (mk (running s)) := by
  have hcond : (!isMcc s.cur || !ok (issueCfg (getCluster s (clusterOf s.cur)))) = false := by simp [hm, hok]
  have hdepth : ¬ Config.tqDepth ≤ (getCluster s (clusterOf s.cur)).tq.length := Nat.not_le.2 hroom
  simp only [issueTile, hcond, withRegs_ready hr, if_neg hdepth]
  refine ⟨_, rfl, getThread_putThread_self _ _ _, ?_, fun x hx => ?_, fun x hx => ?_, rfl⟩
  · rw [getCluster_putThread]
    exact getCluster_putCluster_self _ _ _
  · exact (getThread_putThread_other _ _ hx).trans (getThread_updCluster _ _ _ _)
  · rw [getCluster_putThread]
    exact getCluster_putCluster_other _ _ hx

end

/-- How a MATRIX form issues. -/
theorem issueTile_cases {p : Prop} (hp : ok (issueCfg (getCluster s (clusterOf s.cur))) = true ↔ p) :
    (isMcc s.cur = false ∨ ¬ p → Raises s (issueTile s rs ok mk) 0x01 (running s).ir.toNat true) ∧
      (isMcc s.cur = true → p → Ready s rs →
        (32 ≤ (getCluster s (clusterOf s.cur)).tq.length → Waits s (issueTile s rs ok mk)) ∧
          ((getCluster s (clusterOf s.cur)).tq.length < 32 → Joins s (issueTile s rs ok mk) (mk (running s)))) :=
  ⟨fun h => issueTile_illegal (h.imp_right fun h => Bool.eq_false_iff.2 fun hok => h (hp.1 hok)),
    fun hm h hr => ⟨issueTile_waits hm (hp.2 h) hr, issueTile_joins hm (hp.2 h) hr⟩⟩

end

theorem unitsOk_iff (g : MatCfg) (u : Nat) : unitsOk g u = true ↔ u ∈ (match g.m64, g.n64 with
    | false, false => [1, 2, 4, 8]
    | false, true => [3, 12]
    | true, false => [5, 10]
    | true, true => [15]) := by
  cases hm : g.m64 <;> cases hn : g.n64 <;> simp [unitsOk, hm, hn, or_assoc]

theorem sparseOk_iff (g : MatCfg) : sparseOk g = true ↔ g.k % 16 = 0 ∧ g.tyA < 2 ∧ g.ta = false := by
  simp [sparseOk, and_assoc]

theorem mwait_waits {s : State} {n : Fin 256} (hm : isMcc s.cur = true) (h : n.val < (getCluster s (clusterOf s.cur)).tq.length) :
    Waits s (exec (.mwait n) s) := by
  simp only [exec_mwait, execMwait, hm, Bool.not_true, Bool.false_eq_true, if_false, if_neg (Nat.not_le.2 h)]
  rfl

theorem mwait_goes {s : State} {n : Fin 256} (hm : isMcc s.cur = true) (h : (getCluster s (clusterOf s.cur)).tq.length ≤ n.val) :
    Becomes s (exec (.mwait n) s) { running s with pc := (running s).pc + 8, early := [] } := by
  simp only [exec_mwait, execMwait, hm, Bool.not_true, Bool.false_eq_true, if_false, if_pos h]
  exact becomes_retire s { running s with early := [] } 8

theorem mwait_illegal {s : State} {n : Fin 256} (hm : isMcc s.cur = false) :
    Raises s (exec (.mwait n) s) 0x01 (running s).ir.toNat true := by
  simp only [exec_mwait, execMwait, hm, Bool.not_false, if_true]
  exact raises_illegal s

end Sys2Proof.Proofs
end

section
/-!
The operands of the matrix engine: the places of their bytes in a scratchpad, and their elements as a table (R231, R232).
-/

namespace Sys2Proof.Proofs

open Sys2Proof Sys2Proof.Machine Sys2Proof.Safety Sys2Proof.Laws

/-- The place of byte b of a stored row of a scratchpad operand (R215, R231). -/
def tilePlace (cl : Fin 64) (w : Word) (row b : Nat) : Nat :=
  cl.val * 2 ^ 23 + (descCore w).val * 2 ^ 20 + descOffset w + physRow w row * descPitch w +
    16 * (if descSwz w = 0 then b / 16 else b / 16 ^^^ physRow w row % (if descSwz w = 1 then 8 else 16)) + b % 16

/-- The number whose bytes from `a` on, the first lowest, a function gives. -/
def bytesNum (f : Nat → Nat) (a n : Nat) : Nat := (upFrom a n).foldr (fun b acc => f b + 256 * acc) 0

theorem bytesNum_succ (f : Nat → Nat) (a n : Nat) : bytesNum f a (n + 1) = f a + 256 * bytesNum f (a + 1) n := rfl

theorem bytesNum_lt {f : Nat → Nat} (hf : ∀ b, f b < 256) (a n : Nat) : bytesNum f a n < 256 ^ n := by
  induction n generalizing a with
  | zero => exact Nat.one_pos
  | succ n ih =>
    have h1 := ih (a + 1)
    have h2 := hf a
    rw [bytesNum_succ, Nat.pow_succ]
    omega

theorem bytesNum_add (f : Nat → Nat) (a m n : Nat) :
    bytesNum f a (m + n) = bytesNum f a m + 256 ^ m * bytesNum f (a + m) n := by
  induction m generalizing a with
  | zero =>
    rw [Nat.zero_add, pow_zero, Nat.one_mul]
    exact (Nat.zero_add _).symm
  | succ m ih =>
    rw [Nat.succ_add, bytesNum_succ, bytesNum_succ, ih, show a + 1 + m = a + (m + 1) by omega, Nat.pow_succ]
    ring

/-- A piece of a number's bytes. -/
theorem bytesNum_piece {f : Nat → Nat} (hf : ∀ b, f b < 256) {a n k : Nat} (h : a + n ≤ k) :
    bytesNum f 0 k / 256 ^ a % 256 ^ n = bytesNum f a n := by
  obtain ⟨r, rfl⟩ := Nat.exists_eq_add_of_le h
  rw [Nat.add_assoc, bytesNum_add, Nat.add_mul_div_left _ _ (by positivity), Nat.div_eq_of_lt (bytesNum_lt hf 0 a), Nat.zero_add,
    bytesNum_add, Nat.add_mul_mod_self_left, Nat.mod_eq_of_lt (bytesNum_lt hf _ n), Nat.zero_add]

theorem memRead_bytes (m : Memory) (a n : Nat) {f : Nat → Nat} {b : Nat} (h : ∀ i, i < n → f (b + i) = (memGet m (a + i)).toNat) :
    memRead m a n = bytesNum f b n := by
  induction n generalizing a b with
  | zero => rfl
  | succ n ih =>
    have hrest : memRead m (a + 1) n = bytesNum f (b + 1) n := ih (a + 1) fun i hi => by
      rw [Nat.add_right_comm, Nat.add_assoc, h (i + 1) (by omega), show a + 1 + i = a + (i + 1) by omega]
    have hfirst : f b = (memGet m a).toNat := h 0 (by omega)
    rw [memRead, hrest, bytesNum_succ, hfirst]

/-- A byte of a stored row as the scratchpad holds it. -/
def rowByte (s : State) (cl : Fin 64) (w : Word) (r b : Nat) : Nat := (memGet s.spad (tilePlace cl w r b)).toNat

theorem rowByte_lt (s : State) (cl : Fin 64) (w : Word) (r b : Nat) : rowByte s cl w r b < 256 := (memGet _ _).isLt

theorem tileChunks_plain {w : Word} (h0 : descSwz w = 0) (h : Shape) (r : Nat) :
    tileChunks h w r = [(descOffset w + physRow w r * descPitch w, 0, rowBytes h w)] := by
  simp only [tileChunks, if_pos h0]

theorem tileChunks_swizzled {w : Word} (h0 : descSwz w ≠ 0) (h : Shape) (r : Nat) :
    tileChunks h w r = (upFrom 0 (ceilDiv (rowBytes h w) 16)).map fun c =>
      (descOffset w + physRow w r * descPitch w + 16 * (c ^^^ physRow w r % (if descSwz w = 1 then 8 else 16)), 16 * c,
        min 16 (rowBytes h w - 16 * c)) := by
  simp only [tileChunks, if_neg h0]

/-- Where the runs of bytes of a stored row lie, and which bytes of the row they are. -/
theorem tileChunks_place {h : Shape} {w : Word} {r : Nat} (cl : Fin 64) {c : Nat × Nat × Nat} (hc : c ∈ tileChunks h w r) :
    c.2.1 + c.2.2 ≤ rowBytes h w ∧
      ∀ i, i < c.2.2 → spadKey cl ((descCore w).val * Config.spadBytes + c.1) + i = tilePlace cl w r (c.2.1 + i) := by
  simp only [spadKey, Config.windowBytes, Config.spadBytes, tilePlace]
  by_cases h0 : descSwz w = 0
  · rw [tileChunks_plain h0] at hc
    obtain rfl := List.mem_singleton.1 hc
    refine ⟨Nat.zero_add _ ▸ le_refl _, fun i _ => ?_⟩
    simp only [if_pos h0, Nat.zero_add]
    omega
  · rw [tileChunks_swizzled h0] at hc
    obtain ⟨q, hq, rfl⟩ := List.mem_map.1 hc
    have hq' := (mem_upFrom.1 hq).2
    simp only [ceilDiv] at hq'
    refine ⟨by dsimp only; omega, fun i hi => ?_⟩
    have hi' : i < 16 := by
      dsimp only at hi
      omega
    simp only [if_neg h0]
    rw [show (16 * q + i) / 16 = q by omega, show (16 * q + i) % 16 = i by omega]
    omega

/-- The runs of bytes of a stored row hold it from its first byte on. -/
theorem spadRow_eq (s : State) (cl : Fin 64) (h : Shape) (w : Word) (r : Nat) :
    spadRow s cl h w r = bytesNum (rowByte s cl w r) 0 (rowBytes h w) := by
  have hread : ∀ c ∈ tileChunks h w r, memRead s.spad (spadKey cl ((descCore w).val * Config.spadBytes + c.1)) c.2.2 =
      bytesNum (rowByte s cl w r) c.2.1 c.2.2 := fun c hc =>
    memRead_bytes _ _ _ fun i hi => by rw [(tileChunks_place cl hc).2 i hi, rowByte]
  rw [spadRow, List.foldl_ext _ (fun acc c => acc + 2 ^ (8 * c.2.1) * bytesNum (rowByte s cl w r) c.2.1 c.2.2) _
    fun acc c hc => by rw [hread c hc]]
  by_cases h0 : descSwz w = 0
  · simp [tileChunks_plain h0]
  · have hparts : ∀ q, q ≤ ceilDiv (rowBytes h w) 16 →
        (upFrom 0 q).foldl (fun acc c => acc + 2 ^ (8 * (16 * c)) * bytesNum (rowByte s cl w r) (16 * c) (min 16 (rowBytes h w - 16 * c))) 0 =
          bytesNum (rowByte s cl w r) 0 (min (rowBytes h w) (16 * q)) := by
      intro q hq
      induction q with
      | zero =>
        rw [Nat.mul_zero, Nat.min_zero]
        rfl
      | succ q ih =>
        have hlt : 16 * q < rowBytes h w := by
          rw [ceilDiv] at hq
          omega
        rw [upFrom_zero_eq_range, List.range_succ, List.foldl_append, ← upFrom_zero_eq_range, ih (by omega)]
        rw [show min (rowBytes h w) (16 * (q + 1)) = min (rowBytes h w) (16 * q) + min 16 (rowBytes h w - 16 * q) by omega,
          bytesNum_add, Nat.zero_add, Nat.min_eq_right hlt.le, show (256 : Nat) = 2 ^ 8 from rfl, ← Nat.pow_mul]
        rfl
    rw [tileChunks_swizzled h0, List.foldl_map]
    refine (hparts _ (le_refl _)).trans ?_
    rw [Nat.min_eq_left]
    rw [ceilDiv]
    omega

theorem splitElems_length (b n v : Nat) : (splitElems b n v).length = n := by
  induction n generalizing v with
  | zero => rfl
  | succ n ih => simp [splitElems, ih]

theorem splitElems_getD (b : Nat) {n j : Nat} (hj : j < n) (v : Nat) : (splitElems b n v).getD j 0 = v / 2 ^ (b * j) % 2 ^ b := by
  induction n generalizing v j with
  | zero => omega
  | succ n ih =>
    cases j with
    | zero => simp [splitElems]
    | succ j =>
      rw [splitElems, List.getD_cons_succ, ih (by omega), Nat.div_div_eq_div_mul, ← Nat.pow_add, Nat.mul_succ, Nat.add_comm]

/-- The elements of a scratchpad operand are the bytes at its descriptor's places. -/
theorem loadOperand_spad (s : State) (cl : Fin 64) {x : Shape × Word} (hx : isSpad x.2 = true) {i j : Nat} (hi : i < storedRows x.1 x.2)
    (hj : j < storedCols x.1 x.2) :
    ((loadOperand s cl x).lines.getD i []).getD j 0 =
      bytesNum (rowByte s cl x.2 i) (j * scalarSize x.1.ty) (scalarSize x.1.ty) := by
  simp only [loadOperand, if_pos hx]
  rw [upFrom_zero_eq_range, getD_map_range _ _ _ hi, splitElems_getD _ hj, spadRow_eq, Nat.mul_assoc, Nat.pow_mul,
    Nat.pow_mul 2 8 (scalarSize x.1.ty)]
  rw [show (2 : Nat) ^ 8 = 256 from rfl, Nat.mul_comm (scalarSize x.1.ty) j]
  refine bytesNum_piece (rowByte_lt s cl x.2 i) ?_
  rw [rowBytes, ← Nat.succ_mul]
  exact Nat.mul_le_mul_right _ hj

/-- An operand's stored rows are of one length. -/
theorem loadOperand_shape (s : State) (cl : Fin 64) (x : Shape × Word) :
    (loadOperand s cl x).lines.length = storedRows x.1 x.2 ∧
      ∀ r ∈ (loadOperand s cl x).lines, r.length = storedCols x.1 x.2 := by
  have hrows : ∀ {α : Type} (d : α) (l : List α), l.length = storedCols x.1 x.2 * storedRows x.1 x.2 →
      (rowsOf (storedCols x.1 x.2) (storedRows x.1 x.2) l).length = storedRows x.1 x.2 ∧
        ∀ r ∈ rowsOf (storedCols x.1 x.2) (storedRows x.1 x.2) l, r.length = storedCols x.1 x.2 := fun d l hl => by
    refine ⟨rowsOf_length _ _ _, fun r hr => ?_⟩
    rw [rowsOf_eq_table d hl] at hr
    obtain ⟨i, -, rfl⟩ := List.mem_map.1 hr
    simp
  by_cases hx : isSpad x.2 = true
  · simp only [loadOperand, if_pos hx]
    refine ⟨by simp [upFrom_zero_eq_range], fun r hr => ?_⟩
    obtain ⟨i, -, rfl⟩ := List.mem_map.1 hr
    exact splitElems_length _ _ _
  · simp only [loadOperand, if_neg hx]
    split_ifs
    · exact hrows 0 _ (splitElems_length _ _ _)
    · exact hrows 0 _ (by simp [splitElems_length])

/-- Element (i, j) of an operand (R232). -/
def operandElem (s : State) (cl : Fin 64) (x : Shape × Word) (i j : Nat) : Nat :=
  ((logicalRows x.1 x.2 (loadOperand s cl x).lines).getD i []).getD j 0

theorem columns_eq_table {m n : Nat} {l : List (List Nat)} (hl : l.length = m) :
    columns n l = table n m fun j i => (l.getD i []).getD j 0 := by
  rw [columns, upFrom_zero_eq_range, table]
  refine List.map_congr_left fun j _ => ?_
  conv_lhs => rw [list_eq_map_getD l []]
  rw [List.map_map, hl]
  rfl

theorem logicalRows_table (s : State) (cl : Fin 64) (x : Shape × Word) :
    logicalRows x.1 x.2 (loadOperand s cl x).lines = table x.1.rows x.1.cols (operandElem s cl x) := by
  obtain ⟨hlen, hrow⟩ := loadOperand_shape s cl x
  by_cases ht : storedT x.1 x.2 = true
  · have hr : storedRows x.1 x.2 = x.1.cols := if_pos ht
    have hc : storedCols x.1 x.2 = x.1.rows := if_pos ht
    have htable := columns_eq_table (n := x.1.rows) (hlen.trans hr)
    refine eq_table 0 ?_ ?_ <;> rw [logicalRows, if_pos ht, hc, htable]
    · simp
    · intro r h
      obtain ⟨i, -, rfl⟩ := List.mem_map.1 h
      simp
  · have hr : storedRows x.1 x.2 = x.1.rows := if_neg ht
    have hc : storedCols x.1 x.2 = x.1.cols := if_neg ht
    refine eq_table 0 ?_ ?_ <;> rw [logicalRows, if_neg ht]
    · exact hlen.trans hr
    · rwa [hc] at hrow

theorem logicalCols_table (s : State) (cl : Fin 64) (x : Shape × Word) :
    logicalCols x.1 x.2 (loadOperand s cl x).lines = table x.1.cols x.1.rows fun j i => operandElem s cl x i j := by
  obtain ⟨hlen, hrow⟩ := loadOperand_shape s cl x
  by_cases ht : storedT x.1 x.2 = true
  · have hr : storedRows x.1 x.2 = x.1.cols := if_pos ht
    have hc : storedCols x.1 x.2 = x.1.rows := if_pos ht
    rw [hr] at hlen
    rw [hc] at hrow
    rw [logicalCols, if_pos ht]
    conv_lhs => rw [eq_table 0 hlen hrow]
    refine table_congr fun j i hj hi => ?_
    rw [operandElem, logicalRows, if_pos ht, hc, columns_eq_table hlen, table_getD _ _ _ _ hi hj]
  · have hr : storedRows x.1 x.2 = x.1.rows := if_neg ht
    have hc : storedCols x.1 x.2 = x.1.cols := if_neg ht
    rw [logicalCols, if_neg ht, hc, columns_eq_table (hlen.trans hr)]
    refine table_congr fun j i _ _ => ?_
    rw [operandElem, logicalRows, if_neg ht]

end Sys2Proof.Proofs
end

section
/-!
What TILE_ENTRY_EXECUTE leaves of the state: the entry that goes on, the entry that leaves the queue, and the products that an entry
adds to the accumulators (R228, R233, R235, R240).
-/

namespace Sys2Proof.Proofs

open Sys2Proof Sys2Proof.Machine Sys2Proof.Safety Sys2Proof.Laws

theorem exec_tileEntryExecute (s : State) : exec .tileEntryExecute s = .next (tileStepRecorded s s.ev.cl) := rfl

/-- The engine of the cluster performs its oldest entry: it has not stopped, its MCC runs, and no access of the MCC before the
entry is outstanding (R228). -/
structure EngineRuns (s : State) (cl : Fin 64) (e : TileEntry) (r : List TileEntry) : Prop where
  queue : (getCluster s cl).tq = e :: r
  unfaulted : (getCluster s cl).tileFault = false
  running : (getThread s (.mcc cl)).tstate = .running
  performed : ∀ x ∈ (getThread s (.mcc cl)).out, e.stamp ≤ x.stamp

/-- The MCC holds leave for matrix operations. -/
abbrev LeaveHeld (s : State) (cl : Fin 64) : Prop := (getThread s (.mcc cl)).leaveKinds % 2 = 1

section
variable {s : State} {cl : Fin 64} {e : TileEntry} {r : List TileEntry}

theorem tileStep_runs (h : EngineRuns s cl e r) : tileStep s cl = tileRun s cl e := by
  obtain ⟨hq, hf, hrun, hout⟩ := h
  have hheld : tileHeld (getThread s (.mcc cl)) e = false :=
    List.any_eq_false.2 fun x hx => by simpa using hout x hx
  simp only [tileStep, hq, hf, vectorActive, hrun, hheld]
  rfl

/-- No record is filled while the MCC goes on. -/
theorem tileStepRecorded_running (h : (getThread (tileStep s cl) (.mcc cl)).tstate = .running) :
    tileStepRecorded s cl = tileStep s cl := by
  have hstop : stopped (getThread (tileStep s cl) (.mcc cl)) = false := by rw [stopped, h]; rfl
  simp only [tileStepRecorded, hstop, Bool.and_false, Bool.false_and]
  cases (getThread (tileStep s cl) (.mcc cl)).record <;> rfl

theorem exec_running (h : EngineRuns s s.ev.cl e r) {t : State} (ht : tileRun s s.ev.cl e = t)
    (hrun : (getThread t (.mcc s.ev.cl)).tstate = .running) : exec .tileEntryExecute s = .next t := by
  subst ht
  rw [exec_tileEntryExecute, tileStepRecorded_running (by rwa [tileStep_runs h]), tileStep_runs h]

theorem withLeave_held (h : LeaveHeld s cl) (e : TileEntry) (k : State → State) : withLeave s cl e k = k s := by
  have hbit : bitAt (getThread s (.mcc cl)).leaveKinds 0 = true := by
    have : (getThread s (.mcc cl)).leaveKinds % 2 = 1 := h
    simp [bitAt, this]
  have hunits : tileUnits (getThread s (.mcc cl)) e.op = 0 := if_pos hbit
  simp only [withLeave, hunits, if_true]

theorem withAccumulators_clean (h : (getCluster s cl).accBad = []) (e : TileEntry) (u ac start : Nat) (k : State → State) :
    withAccumulators s cl e u ac start k = k s := by
  have hany : ((blocksOf (getCluster s cl).cfg).any fun p =>
      (getCluster s cl).accBad.any fun x => decide (accBase (unitAt u p.1 p.2) ac ≤ x) &&
        decide (x < accBase (unitAt u p.1 p.2) ac + 1024)) = false := by
    rw [h]
    exact List.any_eq_false.2 fun _ _ => Bool.false_ne_true
  simp only [withAccumulators, hany]
  rfl

theorem withOperands_pass {need : SlotState} {l : List (Shape × Word)}
    (h1 : ∀ x ∈ l, passOne s cl (getThread s (.mcc cl)).launch x = none)
    (h2 : ∀ x ∈ l, isSpad x.2 = true ∨ (slotOf s cl x.2).st = need) (h3 : ∀ x ∈ l, passThree s cl x = none) (e : TileEntry)
    (start : Nat) (k : State → State) : withOperands s cl e need l start k = k s := by
  have hready : slotsReady s cl need l = true := List.all_eq_true.2 fun x hx => by simpa using h2 x hx
  simp only [withOperands, List.findSome?_eq_none_iff.2 h1, hready, List.findSome?_eq_none_iff.2 h3]
  rfl

end

/-- A cluster once its oldest entry has left the queue, with `r` behind it. -/
def doneCluster (c : Cluster) (r : List TileEntry) : Cluster :=
  { c with tq := r, tileProg := 0, held := c.held.filter fun p => decide (p.1 ≠ .tile)
           waiting := c.waiting.filter fun p => decide (p.1 ≠ .tile) }

theorem tileDone_eq (s : State) (cl : Fin 64) :
    tileDone s cl = putCluster s cl (doneCluster (getCluster s cl) ((getCluster s cl).tq.drop 1)) := rfl

/-! Slot operands released. -/

theorem release_slots (c : Core) (d : Desc) : (release c d).slots = c.slots := by
  rw [release]
  split <;> rfl

theorem release_launch (c : Core) (d : Desc) : (release c d).launch = c.launch := by
  rw [release]
  split <;> rfl

theorem emptySlot_slots (c : Core) (k : Fin 16) : (emptySlot c k).slots = c.slots.set k.val Slot.reset := by
  simp only [emptySlot, putSlot, release_slots]

theorem emptySlot_launch (c : Core) (k : Fin 16) : (emptySlot c k).launch = c.launch := by
  simp only [emptySlot, putSlot, release_launch]

theorem relSlots_frame (s : State) (cl : Fin 64) (ops : List (Shape × Word)) :
    relSlots s cl ops = { s with cores := (relSlots s cl ops).cores } := by
  induction ops generalizing s with
  | nil => rfl
  | cons x r ih =>
    rw [relSlots]
    split
    · exact ih s
    · rw [ih]
      rfl

/-- A slot emptied reads as EMPTY, and every other slot as before. -/
theorem slotOf_emptied (s : State) (cl : Fin 64) (w v : Word) :
    let s1 := updCore s cl (descCore w) fun c => emptySlot c (descSlot w)
    slotOf s1 cl v = if descCore v = descCore w ∧ descSlot v = descSlot w then Slot.reset else slotOf s cl v := by
  intro s1
  have hthread : getThread s1 (.mcc cl) = getThread s (.mcc cl) := rfl
  by_cases hco : descCore v = descCore w
  · have hcore : getCore s1 cl (descCore v) = emptySlot (getCore s cl (descCore w)) (descSlot w) := by
      rw [hco]
      exact getCore_updCore_self _ _ _ _
    have hserves : serves s1 cl (descCore v) (getThread s1 (.mcc cl)).launch =
        serves s cl (descCore v) (getThread s (.mcc cl)).launch := by
      rw [serves, serves, hcore, emptySlot_launch, hthread, hco]
    have hslots : (getCore s1 cl (descCore v)).slots = (getCore s cl (descCore v)).slots.set (descSlot w).val Slot.reset := by
      rw [hcore, emptySlot_slots, hco]
    rw [slotOf, slotOf, hserves]
    simp only [hslots, Vector.getElem_set, Fin.val_inj]
    by_cases hk : descSlot v = descSlot w
    · simp [hco, hk]
    · simp [Ne.symm hk, hk]
  · have hcore : getCore s1 cl (descCore v) = getCore s cl (descCore v) := getCore_putCore_other _ _ (.inr hco)
    rw [if_neg fun h => hco h.1, slotOf, slotOf, serves, serves, hcore, hthread]

/-- The slots of the operands are EMPTY once they have been released. -/
theorem slotOf_relSlots (s : State) (cl : Fin 64) (ops : List (Shape × Word)) (w : Word) :
    (slotOf s cl w = Slot.reset → slotOf (relSlots s cl ops) cl w = Slot.reset) ∧
      (∀ x ∈ ops, x.2 = w → isSpad w = false → (slotOf s cl w).st = .bound → slotOf (relSlots s cl ops) cl w = Slot.reset) := by
  induction ops generalizing s with
  | nil => exact ⟨id, nofun⟩
  | cons x r ih =>
    rw [relSlots]
    split_ifs with hx
    · refine ⟨(ih s).1, fun y hy hw hs hb => ?_⟩
      rcases List.mem_cons.1 hy with rfl | hy
      · rw [hw, hs] at hx
        exact absurd hb (hx.resolve_left Bool.false_ne_true)
      · exact (ih s).2 y hy hw hs hb
    · have hslot := slotOf_emptied s cl x.2 w
      obtain ⟨ih1, ih2⟩ := ih (updCore s cl (descCore x.2) fun c => emptySlot c (descSlot x.2))
      simp only at hslot
      by_cases hsame : descCore w = descCore x.2 ∧ descSlot w = descSlot x.2
      · rw [if_pos hsame] at hslot
        exact ⟨fun _ => ih1 hslot, fun _ _ _ _ _ => ih1 hslot⟩
      · rw [if_neg hsame] at hslot
        refine ⟨fun h => ih1 (hslot.trans h), fun y hy hw hs hb => ?_⟩
        rcases List.mem_cons.1 hy with rfl | hy
        · exact absurd ⟨by rw [hw], by rw [hw]⟩ hsame
        · exact ih2 y hy hw hs (by rwa [hslot])

/-! The products of an entry. -/

section
variable (s : State)

/-- The TSW notes the flags of the outputs, those of the operands, and a count above what is exact (R47, R240). -/
def Noted (t : State) (f : Nat → Nat → Res) (more : BitVec 7) (range : Prop) : Prop :=
  let c := getCluster s s.ev.cl
  ∀ b, b < 8 → ((getCluster t s.ev.cl).tsw.getLsbD b = true ↔ c.tsw.getLsbD b = true ∨ (b = 7 ∧ range) ∨
    (b ∈ [0, 1, 2, 4, 5] ∧ (more.getLsbD b = true ∨
      ∃ i j, i < cfgM c.cfg ∧ j < cfgN c.cfg ∧ (f i j).flags.getLsbD b = true)))

/-- TILE_ENTRY_EXECUTE leaves these outputs, counts `count` products and goes on at K index `next`, or the entry leaves the queue,
its slots released under .rel. -/
def Adds (r : List TileEntry) (u ac : Nat) (rel : Bool) (ops : List (Shape × Word)) (next count : Nat) (more : BitVec 7)
    (f : Nat → Nat → Res) : Prop :=
  let cl := s.ev.cl
  let c := getCluster s cl
  let th := getThread s (.mcc cl)
  ∃ t, exec .tileEntryExecute s = .next t ∧ Noted s t f more False ∧
    (∀ i j, i < cfgM c.cfg → j < cfgN c.cfg → mapGet 0 (getCluster t cl).acc (outPos u ac i j) = (f i j).bits ∧
      mapGet 0 (getCluster t cl).counts (outPos u ac i j / 1024) = min (mapGet 0 c.counts (outPos u ac i j / 1024) + count) 32641) ∧
    (∀ k, (∀ i j, i < cfgM c.cfg → j < cfgN c.cfg → k ≠ outPos u ac i j) → mapGet 0 (getCluster t cl).acc k = mapGet 0 c.acc k) ∧
    (let x := getCluster t cl
     if next < c.cfg.k then
       x = { c with acc := x.acc, counts := x.counts, tsw := x.tsw, tileProg := next } ∧ getThread t (.mcc cl) = th ∧
         t.cores = s.cores
     else
       x = { doneCluster c r with acc := x.acc, counts := x.counts, tsw := x.tsw } ∧
         getThread t (.mcc cl) = { th with vstart := 0 } ∧ (rel = false → t.cores = s.cores) ∧
         (rel = true → ∀ o ∈ ops, isSpad o.2 = false → slotOf t cl o.2 = Slot.reset)) ∧
    (∀ x, x ≠ cl → getCluster t x = getCluster s x) ∧ (∀ x, x ≠ .mcc cl → getThread t x = getThread s x) ∧
    t = { s with threads := t.threads, cores := t.cores, clusters := t.clusters }

end

/-- The flags of FFLAGS that a TSW has. -/
theorem tswBits_bit (f : BitVec 7) {b : Nat} (hb : b < 8) :
    (tswBits f).getLsbD b = true ↔ b ∈ [0, 1, 2, 4, 5] ∧ f.getLsbD b = true := by
  rw [tswBits, BitVec.getLsbD_setWidth, BitVec.getLsbD_and]
  have hmask : ∀ b : Fin 8, (0x37 : BitVec 7).getLsbD b.val = decide (b.val ∈ [0, 1, 2, 4, 5]) := by decide
  rw [hmask ⟨b, hb⟩]
  simp [hb, and_comm]

/-- The cluster after products have been put. -/
theorem putProducts_eq (c : Cluster) (u ac : Nat) (rows : List (List Nat)) (n : Nat) (f : BitVec 7) :
    putProducts c u ac rows n f =
      { c with acc := (scatterAcc c u ac rows).acc, counts := (addCounts c u ac n).counts, tsw := c.tsw ||| tswBits f } := rfl

theorem tileNext_goes {s : State} {cl : Fin 64} {next : Nat} (h : next < (getCluster s cl).cfg.k) (rel : Bool)
    (ops : List (Shape × Word)) :
    tileNext s cl next rel ops = putCluster s cl { getCluster s cl with tileProg := next } := by
  rw [tileNext, if_neg (Nat.not_le.2 h)]
  rfl

/-- A state whose slots have been released under .rel. -/
def released (s : State) (cl : Fin 64) (rel : Bool) (ops : List (Shape × Word)) : State := if rel then relSlots s cl ops else s

theorem released_frame (s : State) (cl : Fin 64) (rel : Bool) (ops : List (Shape × Word)) :
    released s cl rel ops = { s with cores := (released s cl rel ops).cores } := by
  cases rel with
  | true => exact relSlots_frame s cl ops
  | false => rfl

theorem getThread_released (s : State) (cl : Fin 64) (rel : Bool) (ops : List (Shape × Word)) (t : Tid) :
    getThread (released s cl rel ops) t = getThread s t := by
  rw [released_frame]
  rfl

theorem getCluster_released (s : State) (cl : Fin 64) (rel : Bool) (ops : List (Shape × Word)) (x : Fin 64) :
    getCluster (released s cl rel ops) x = getCluster s x := by
  rw [released_frame]
  rfl

theorem tileNext_done {s : State} {cl : Fin 64} {next : Nat} (h : ¬ next < (getCluster s cl).cfg.k) (rel : Bool)
    (ops : List (Shape × Word)) :
    tileNext s cl next rel ops =
      putThread (putCluster (released s cl rel ops) cl (doneCluster (getCluster s cl) ((getCluster s cl).tq.drop 1))) (.mcc cl)
        { getThread s (.mcc cl) with vstart := 0 } := by
  rw [tileNext, if_pos (Nat.not_lt.1 h)]
  change clearVstart (tileDone (released s cl rel ops) cl) cl = _
  rw [tileDone_eq, getCluster_released, clearVstart, updThread, getThread_putCluster, getThread_released]

section
variable {s : State} {e : TileEntry} {r : List TileEntry}

/-- Products put into the accumulators, with the flags of all outputs. -/
theorem adds_of_products (h : EngineRuns s s.ev.cl e r) (hacc : Rising (getCluster s s.ev.cl).acc) (u : Nat) {ac : Nat} (hac : ac < 4)
    {rel : Bool} {ops : List (Shape × Word)} (hbound : ∀ o ∈ ops, isSpad o.2 = true ∨ (slotOf s s.ev.cl o.2).st = .bound)
    {next count : Nat} {more fl : BitVec 7} {f : Nat → Nat → Res}
    (hfl : fl = allFlags (table (cfgM (getCluster s s.ev.cl).cfg) (cfgN (getCluster s s.ev.cl).cfg) f) ||| more)
    (hrun : tileRun s s.ev.cl e = tileNext (putCluster s s.ev.cl (putProducts (getCluster s s.ev.cl) u ac
      (table (cfgM (getCluster s s.ev.cl).cfg) (cfgN (getCluster s s.ev.cl).cfg) fun i j => (f i j).bits) count fl)) s.ev.cl next rel ops) :
    Adds s r u ac rel ops next count more f := by
  obtain ⟨hin, hout⟩ := scatterAcc_table hacc u hac fun i j => (f i j).bits
  have hcounts := fun {i j} => addCounts_get (getCluster s s.ev.cl) u ac count (i := i) (j := j)
  have hnoted : ∀ b, b < 8 → (((getCluster s s.ev.cl).tsw ||| tswBits fl).getLsbD b = true ↔
      (getCluster s s.ev.cl).tsw.getLsbD b = true ∨ (b = 7 ∧ False) ∨ (b ∈ [0, 1, 2, 4, 5] ∧ (more.getLsbD b = true ∨
        ∃ i j, i < cfgM (getCluster s s.ev.cl).cfg ∧ j < cfgN (getCluster s s.ev.cl).cfg ∧ (f i j).flags.getLsbD b = true))) := by
    intro b hb
    rw [BitVec.getLsbD_or, Bool.or_eq_true, tswBits_bit _ hb, hfl, BitVec.getLsbD_or, Bool.or_eq_true, allFlags_table, and_false,
      false_or, or_comm (a := more.getLsbD b = true)]
  rw [putProducts_eq] at hrun
  generalize (scatterAcc (getCluster s s.ev.cl) u ac _).acc = acc at hin hout hrun
  generalize (addCounts (getCluster s s.ev.cl) u ac count).counts = counts at hcounts hrun
  generalize (getCluster s s.ev.cl).tsw ||| tswBits fl = tsw at hnoted hrun
  have hput := getCluster_putCluster_self s s.ev.cl
    { getCluster s s.ev.cl with acc := acc, counts := counts, tsw := tsw }
  have hothers := fun {x} => getCluster_putCluster_other s (cl := s.ev.cl) (cl' := x)
    { getCluster s s.ev.cl with acc := acc, counts := counts, tsw := tsw }
  by_cases hnext : next < (getCluster s s.ev.cl).cfg.k
  · rw [tileNext_goes (by rw [hput]; exact hnext), hput] at hrun
    have hcl := getCluster_putCluster_self (putCluster s s.ev.cl { getCluster s s.ev.cl with acc := acc, counts := counts, tsw := tsw })
      s.ev.cl { getCluster s s.ev.cl with acc := acc, counts := counts, tsw := tsw, tileProg := next }
    refine ⟨_, exec_running h hrun h.running, ?_, fun i j hi hj => ?_, fun k hk => ?_, ?_, fun x hx => ?_, fun _ _ => rfl, rfl⟩
    · rw [Noted, hcl]
      exact hnoted
    · rw [hcl]
      exact ⟨hin i j hi hj, hcounts hi hj⟩
    · rw [hcl]
      exact hout k hk
    · simp only [if_pos hnext, hcl]
      exact ⟨trivial, rfl, rfl⟩
    · exact (getCluster_putCluster_other _ _ hx).trans (hothers hx)
  · rw [tileNext_done (by rw [hput]; exact hnext), hput] at hrun
    rw [show (getCluster s s.ev.cl).tq.drop 1 = r by rw [h.queue]; rfl] at hrun
    generalize hs1 : putCluster s s.ev.cl { getCluster s s.ev.cl with acc := acc, counts := counts, tsw := tsw } = s1 at hput hothers hrun
    have hframe : s1 = { s with clusters := s1.clusters } := by
      rw [← hs1]
      rfl
    have hthreads : ∀ x, getThread s1 x = getThread s x := fun x => by
      rw [hframe]
      rfl
    have hslots : ∀ w, slotOf s1 s.ev.cl w = slotOf s s.ev.cl w := fun w => by
      rw [hframe]
      rfl
    rw [hthreads] at hrun
    generalize hs2 : released s1 s.ev.cl rel ops = s2 at hrun
    have hframe2 : s2 = { s1 with cores := s2.cores } := by
      rw [← hs2]
      exact released_frame _ _ _ _
    have hcl := getCluster_putCluster_self s2 s.ev.cl
      (doneCluster { getCluster s s.ev.cl with acc := acc, counts := counts, tsw := tsw } r)
    refine ⟨_, exec_running h hrun ?_, ?_, fun i j hi hj => ?_, fun k hk => ?_, ?_, fun x hx => ?_, fun x hx => ?_, ?_⟩
    · rw [getThread_putThread_self]
      exact h.running
    · rw [Noted, getCluster_putThread, hcl]
      exact hnoted
    · rw [getCluster_putThread, hcl]
      exact ⟨hin i j hi hj, hcounts hi hj⟩
    · rw [getCluster_putThread, hcl]
      exact hout k hk
    · simp only [if_neg hnext, getCluster_putThread, hcl, getThread_putThread_self]
      refine ⟨rfl, trivial, fun hrel => ?_, fun hrel o ho hs => ?_⟩
      · change s2.cores = s.cores
        rw [← hs2, hrel, ← hs1]
        rfl
      · have hslot : slotOf (putThread (putCluster s2 s.ev.cl (doneCluster
            { getCluster s s.ev.cl with acc := acc, counts := counts, tsw := tsw } r)) (.mcc s.ev.cl)
            { getThread s (.mcc s.ev.cl) with vstart := 0 }) s.ev.cl o.2 = slotOf s2 s.ev.cl o.2 := by
          rw [slotOf, slotOf, getThread_putThread_self, ← hs2, getThread_released, hthreads]
          rfl
        rw [hslot, ← hs2, hrel]
        refine (slotOf_relSlots s1 s.ev.cl ops o.2).2 o ho rfl hs ?_
        rw [hslots]
        exact (hbound o ho).resolve_left (by rw [hs]; nofun)
    · rw [getCluster_putThread, getCluster_putCluster_other _ _ hx, ← hs2, getCluster_released]
      exact hothers hx
    · rw [getThread_putThread_other _ _ hx, getThread_putCluster, ← hs2, getThread_released, hthreads]
    · rw [hframe2, hframe]
      rfl

end

end Sys2Proof.Proofs
end

section
/-!
One group of an mma (R45, R53, R235) and one step of an mmasp (R237).
-/

namespace Sys2Proof.Proofs

open Sys2Proof Sys2Proof.Machine Sys2Proof.Safety Sys2Proof.Laws

/-- An operand passes the checks, and its slot holds a chain (R233). -/
structure OperandReady (s : State) (cl : Fin 64) (x : Shape × Word) : Prop where
  formed : passOne s cl (getThread s (.mcc cl)).launch x = none
  fits : passThree s cl x = none
  bound : isSpad x.2 = true ∨ (slotOf s cl x.2).st = .bound

/-- A number of an operand's elements. -/
def elemNum (ty v : Nat) : FVal := unpack (fmtOf (tileType ty)) v

theorem upFrom_eq_map (a n : Nat) : upFrom a n = (List.range n).map fun i => a + i := by
  rw [upFrom_eq_range', List.range'_eq_map_range]

/-- The elements of one group of every row of a table. -/
theorem table_group {α : Type} (m : Nat) {n a g : Nat} (h : a + g ≤ n) (f : Nat → Nat → α) :
    (((table m n f).map fun l => l.drop a).map fun l => l.take g) = (List.range m).map fun i => (upFrom a g).map (f i) := by
  rw [table, List.map_map, List.map_map]
  refine List.map_congr_left fun i _ => ?_
  change (((List.range n).map (f i)).drop a).take g = _
  rw [← List.map_drop, ← List.map_take, take_drop_range _ _ _ h, upFrom_eq_map]

theorem decodeRows_drop (ty m n a : Nat) (f : Nat → Nat → Nat) :
    decodeRows ty ((table m n f).map fun l => l.drop a) = (table m n fun i k => elemNum ty (f i k)).map fun l => l.drop a := by
  rw [decodeRows, table, table, List.map_map, List.map_map, List.map_map]
  refine List.map_congr_left fun i _ => ?_
  change (((List.range n).map (f i)).drop a).map _ = ((List.range n).map fun k => elemNum ty (f i k)).drop a
  rw [List.map_drop, List.map_map]
  rfl

theorem mmaLoop_one {α : Type} (g : Nat) (f : Nat → List α → List α → Res) (acc : List (List Nat)) (a b : List (List α)) :
    mmaLoop g f 1 acc a b 0 =
      ((mapOutputs f acc (a.map fun x => x.take g) (b.map fun x => x.take g)).1,
        (mapOutputs f acc (a.map fun x => x.take g) (b.map fun x => x.take g)).2) := by
  simp only [mmaLoop]
  exact congrArg₂ _ rfl BitVec.zero_or

/-- One group added to every output. -/
theorem mmaLoop_table {α : Type} {m n k a g : Nat} (h : a + g ≤ k) (f : Nat → List (α × α) → Res) (x : Nat → Nat → Nat)
    (rows cols : Nat → Nat → α) :
    mmaLoop g (fun z p q => f z (p.zip q)) 1 (table m n x) ((table m k rows).map fun l => l.drop a) ((table n k cols).map fun l => l.drop a) 0 =
      (table m n fun i j => (f (x i j) ((upFrom a g).map fun k => (rows i k, cols j k))).bits,
        allFlags (table m n fun i j => f (x i j) ((upFrom a g).map fun k => (rows i k, cols j k)))) := by
  rw [mmaLoop_one, table_group _ h, table_group _ h, mapOutputs_table]
  simp only [List.zip_map']

/-- One output of a group of an rn30 accumulation. -/
theorem accAddRn_eq (x : Nat) (l : List Nat) (a b : Nat → Nat) :
    accAddRn x (l.map fun k => (a k, b k)) =
      { bits := rnEncode ((if rnValid x then rnValue x else 0) + (l.map fun k => toSigned 8 (a k) * toSigned 8 (b k)).sum)
        flags := if rnValid x then 0 else flagInv, exc := false } := by
  have hsum : ∀ z : Int, (l.map fun k => (a k, b k)).foldl (fun t p => t + toSigned 8 p.1 * toSigned 8 p.2) z =
      z + (l.map fun k => toSigned 8 (a k) * toSigned 8 (b k)).sum := by
    induction l with
    | nil => simp
    | cons k l ih =>
      intro z
      simp only [List.map_cons, List.foldl_cons, List.sum_cons] at ih ⊢
      rw [ih, Int.add_assoc]
  simp only [accAddRn, hsum, Int.zero_add]

section
variable (s : State)

/-- What an accumulator holds at an output. -/
def oldOutput (u ac i j : Nat) : Nat := mapGet 0 (getCluster s s.ev.cl).acc (outPos u ac i j)

/-- An output of an mma after the group at the entry's K index (R45, R53, R235). -/
def mmaOutput (u ac : Nat) (xa xb : Shape × Word) (g i j : Nat) : Res :=
  let c := getCluster s s.ev.cl
  if c.cfg.rn30 then
    let x := oldOutput s u ac i j
    { bits := rnEncode ((if rnValid x then rnValue x else 0) +
        ((upFrom c.tileProg g).map fun k =>
          toSigned 8 (operandElem s s.ev.cl xa i k) * toSigned 8 (operandElem s s.ev.cl xb k j)).sum)
      flags := if rnValid x then 0 else flagInv, exc := false }
  else
    accAdd (oldOutput s u ac i j) ((upFrom c.tileProg g).map fun k =>
      (elemNum c.cfg.tyA (operandElem s s.ev.cl xa i k), elemNum c.cfg.tyB (operandElem s s.ev.cl xb k j)))

end

/-- The rows and columns of accumulators after one group of an mma, and its flags. -/
def mmaSums (c : Cluster) (u ac g : Nat) (rows cols : List (List Nat)) : List (List Nat) × BitVec 7 :=
  if c.cfg.rn30 then mmaLoop g (fun x p q => accAddRn x (p.zip q)) 1 (gatherAcc c u ac) rows cols 0
  else mmaLoop g (fun x p q => accAdd x (p.zip q)) 1 (gatherAcc c u ac) (decodeRows c.cfg.tyA rows) (decodeRows c.cfg.tyB cols) 0

theorem mmaSums_table {s : State} (hacc : Rising (getCluster s s.ev.cl).acc) (u ac : Nat) {xa xb : Shape × Word} {g : Nat}
    (har : xa.1.rows = cfgM (getCluster s s.ev.cl).cfg) (hac : xa.1.cols = (getCluster s s.ev.cl).cfg.k)
    (hbr : xb.1.rows = (getCluster s s.ev.cl).cfg.k) (hbc : xb.1.cols = cfgN (getCluster s s.ev.cl).cfg)
    (hg : (getCluster s s.ev.cl).tileProg + g ≤ (getCluster s s.ev.cl).cfg.k) :
    mmaSums (getCluster s s.ev.cl) u ac g
        ((logicalRows xa.1 xa.2 (loadOperand s s.ev.cl xa).lines).map fun l => l.drop (getCluster s s.ev.cl).tileProg)
        ((logicalCols xb.1 xb.2 (loadOperand s s.ev.cl xb).lines).map fun l => l.drop (getCluster s s.ev.cl).tileProg) =
      (table (cfgM (getCluster s s.ev.cl).cfg) (cfgN (getCluster s s.ev.cl).cfg) fun i j => (mmaOutput s u ac xa xb g i j).bits,
        allFlags (table (cfgM (getCluster s s.ev.cl).cfg) (cfgN (getCluster s s.ev.cl).cfg) (mmaOutput s u ac xa xb g))) := by
  rw [logicalRows_table, logicalCols_table, mmaSums, gatherAcc_eq hacc, har, hac, hbr, hbc, decodeRows_drop, decodeRows_drop]
  split_ifs with hrn
  · have hout : mmaOutput s u ac xa xb g = fun i j => accAddRn (oldOutput s u ac i j)
        ((upFrom (getCluster s s.ev.cl).tileProg g).map fun k => (operandElem s s.ev.cl xa i k, operandElem s s.ev.cl xb k j)) := by
      funext i j
      rw [accAddRn_eq, mmaOutput, if_pos hrn]
    rw [mmaLoop_table hg (fun x l => accAddRn x l), hout]
    rfl
  · have hout : mmaOutput s u ac xa xb g = fun i j => accAdd (oldOutput s u ac i j)
        ((upFrom (getCluster s s.ev.cl).tileProg g).map fun k =>
          (elemNum (getCluster s s.ev.cl).cfg.tyA (operandElem s s.ev.cl xa i k),
            elemNum (getCluster s s.ev.cl).cfg.tyB (operandElem s s.ev.cl xb k j))) := by
      funext i j
      rw [mmaOutput, if_neg hrn]
    rw [mmaLoop_table hg (fun x l => accAdd x l), hout]
    rfl

section
variable {s : State} {cl : Fin 64} (hleave : LeaveHeld s cl) (hbad : (getCluster s cl).accBad = [])
include hleave hbad

theorem runMma_eq (e : TileEntry) (u ac : Nat) (rel : Bool) {a b : Word} {xa xb : Shape × Word}
    (hshapes : mmaShapes (getCluster s cl).cfg a b = [xa, xb]) (ha : OperandReady s cl xa) (hb : OperandReady s cl xb)
    (hca : (loadOperand s cl xa).bad = false) (hcb : (loadOperand s cl xb).bad = false) {g : Nat}
    (hg : min (groupSize (getCluster s cl).cfg) ((getCluster s cl).cfg.k - (getCluster s cl).tileProg) = g) (hg0 : g ≠ 0) :
    let c := getCluster s cl
    let z := mmaSums c u ac g ((logicalRows xa.1 xa.2 (loadOperand s cl xa).lines).map fun l => l.drop c.tileProg)
      ((logicalCols xb.1 xb.2 (loadOperand s cl xb).lines).map fun l => l.drop c.tileProg)
    runMma s cl e u ac rel a b =
      tileNext (putCluster s cl (putProducts c u ac z.1 g (z.2 ||| (loadOperand s cl xa).flags ||| (loadOperand s cl xb).flags))) cl
        (c.tileProg + g) rel [xa, xb] := by
  intro c z
  have hops : ∀ x ∈ [xa, xb], OperandReady s cl x := by simp [ha, hb]
  rw [runMma]
  simp only [hshapes]
  rw [withOperands_pass (fun x hx => (hops x hx).formed) (fun x hx => (hops x hx).bound) fun x hx => (hops x hx).fits,
    withLeave_held hleave, withAccumulators_clean hbad]
  simp only [List.map_cons, List.map_nil, List.find?_cons, hca, hcb, List.find?_nil, hg, if_neg hg0]
  rfl

end

section
variable {s : State} {e : TileEntry} {r : List TileEntry} (h : EngineRuns s s.ev.cl e r) (hleave : LeaveHeld s s.ev.cl)
  (hbad : (getCluster s s.ev.cl).accBad = []) (hacc : Rising (getCluster s s.ev.cl).acc)
include h hleave hbad hacc

theorem mma_adds {u : Fin 16} {ac : Fin 4} {rel : Bool} {a b : Word} {xa xb : Shape × Word} (hop : e.op = .mma u ac rel a b)
    (hshapes : mmaShapes (getCluster s s.ev.cl).cfg a b = [xa, xb]) (ha : OperandReady s s.ev.cl xa) (hb : OperandReady s s.ev.cl xb)
    (hca : (loadOperand s s.ev.cl xa).bad = false) (hcb : (loadOperand s s.ev.cl xb).bad = false)
    (hk : (getCluster s s.ev.cl).tileProg < (getCluster s s.ev.cl).cfg.k) {g : Nat}
    (hg : min (groupSize (getCluster s s.ev.cl).cfg) ((getCluster s s.ev.cl).cfg.k - (getCluster s s.ev.cl).tileProg) = g) :
    Adds s r u.val ac.val rel [xa, xb] ((getCluster s s.ev.cl).tileProg + g) g
      ((loadOperand s s.ev.cl xa).flags ||| (loadOperand s s.ev.cl xb).flags) (mmaOutput s u.val ac.val xa xb g) := by
  have hbound : ∀ x ∈ [xa, xb], isSpad x.2 = true ∨ (slotOf s s.ev.cl x.2).st = .bound := by simp [ha.bound, hb.bound]
  have hshape : xa.1.rows = cfgM (getCluster s s.ev.cl).cfg ∧ xa.1.cols = (getCluster s s.ev.cl).cfg.k ∧
      xb.1.rows = (getCluster s s.ev.cl).cfg.k ∧ xb.1.cols = cfgN (getCluster s s.ev.cl).cfg := by
    injection hshapes with h1 h2
    injection h2 with h2
    rw [← h1, ← h2]
    exact ⟨rfl, rfl, rfl, rfl⟩
  obtain ⟨har, hac, hbr, hbc⟩ := hshape
  have hsize : 4 ≤ groupSize (getCluster s s.ev.cl).cfg := by
    rw [groupSize]
    split <;> decide
  have hrun : tileRun s s.ev.cl e = runMma s s.ev.cl e u.val ac.val rel a b := by rw [tileRun, hop]
  have hsums := mmaSums_table hacc u.val ac.val (xa := xa) (xb := xb) (g := g) har hac hbr hbc (by omega)
  rw [runMma_eq hleave hbad e u.val ac.val rel hshapes ha hb hca hcb hg (by omega), hsums] at hrun
  exact adds_of_products h hacc u.val ac.isLt hbound (BitVec.or_assoc _ _ _) hrun

end

end Sys2Proof.Proofs
end

section
/-!
One step of an mmasp: its metadata, the kept elements, and the stop at an illegal code (R237).
-/

namespace Sys2Proof.Proofs

open Sys2Proof Sys2Proof.Machine Sys2Proof.Safety Sys2Proof.Laws

theorem upFrom_add (a m n : Nat) : upFrom a (m + n) = upFrom a m ++ upFrom (a + m) n := by
  rw [upFrom_eq_range', upFrom_eq_range', upFrom_eq_range', ← List.range'_append_1]

/-- An operand that may not be transposed is not. -/
theorem storedT_of_formed {s : State} {cl : Fin 64} {l : Option Nat} {x : Shape × Word} (h : passOne s cl l x = none)
    (hT : x.1.mayT = false) (hslot : x.1.slotT = false) : storedT x.1 x.2 = false := by
  have hformed : descMalformed x.1 x.2 = false := by
    by_contra hbad
    rw [passOne] at h
    simp only [Bool.not_eq_false] at hbad
    simp [hbad] at h
  rw [storedT]
  split_ifs with hs
  · rw [descMalformed, if_pos hs] at hformed
    simp only [hT, Bool.not_false, Bool.and_true, Bool.or_eq_false_iff] at hformed
    exact hformed.2
  · exact hslot

theorem lines_table (s : State) (cl : Fin 64) {x : Shape × Word} (h : storedT x.1 x.2 = false) :
    (loadOperand s cl x).lines = table x.1.rows x.1.cols (operandElem s cl x) := by
  rw [← logicalRows_table, logicalRows, h]
  rfl

/-- The metadata code of group q of row i (R237). -/
def codeAt (s : State) (cl : Fin 64) (x : Shape × Word) (i q : Nat) : Nat := operandElem s cl x i (q / 8) / 2 ^ (4 * (q % 8)) % 16

theorem codeAt_lt (s : State) (cl : Fin 64) (x : Shape × Word) (i q : Nat) : codeAt s cl x i q < 16 := Nat.mod_lt _ (by decide)

theorem metaCode_row (s : State) (cl : Fin 64) (x : Shape × Word) (i : Nat) {n q : Nat} (h : q / 8 < n) :
    metaCode ((List.range n).map (operandElem s cl x i)) q = codeAt s cl x i q := by
  rw [metaCode, getD_map_range _ _ _ h]
  rfl

/-- The illegal codes of the step at st, row by row. -/
def illegalCodes (m st : Nat) (code : Nat → Nat → Nat) : List (Nat × Nat) :=
  (List.range m).flatMap fun i => (upFrom (st / 4) 4).filterMap fun q => if metaOk (code i q) then none else some (i, q)

theorem metaBad_eq (s : State) (cl : Fin 64) (x : Shape × Word) {m n st : Nat} (h : ∀ q, q < st / 4 + 4 → q / 8 < n) :
    metaBad (table m n (operandElem s cl x)) st = (illegalCodes m st (codeAt s cl x)).head? := by
  rw [metaBad, illegalCodes]
  have hrows : (table m n (operandElem s cl x)).zipIdx = (List.range m).map fun i => ((List.range n).map (operandElem s cl x i), i) := by
    apply List.ext_getElem
    · simp
    · intro i h1 h2
      simp [table]
  rw [hrows, List.flatMap_map]
  congr 1
  refine List.flatMap_congr fun i _ => List.filterMap_congr fun q hq => ?_
  rw [metaCode_row s cl x i (h q (mem_upFrom.1 hq).2)]

theorem metaOk_iff (c : Nat) : metaOk c = true ↔ c % 4 < c / 4 := by simp [metaOk]

theorem illegalCodes_none {m st : Nat} {code : Nat → Nat → Nat}
    (h : ∀ i q, i < m → st / 4 ≤ q → q < st / 4 + 4 → code i q % 4 < code i q / 4) : (illegalCodes m st code).head? = none := by
  rw [List.head?_eq_none_iff, illegalCodes, List.flatMap_eq_nil_iff]
  intro i hi
  rw [List.filterMap_eq_nil_iff]
  intro q hq
  obtain ⟨h1, h2⟩ := mem_upFrom.1 hq
  rw [if_pos ((metaOk_iff _).2 (h i q (List.mem_range.1 hi) h1 h2))]

/-- The first illegal code, every one before it being legal. -/
theorem illegalCodes_first {m st i q : Nat} {code : Nat → Nat → Nat} (hi : i < m) (h1 : st / 4 ≤ q) (h2 : q < st / 4 + 4)
    (hbad : ¬ code i q % 4 < code i q / 4)
    (h : ∀ i' q', i' < m → st / 4 ≤ q' → q' < st / 4 + 4 → i' < i ∨ (i' = i ∧ q' < q) → code i' q' % 4 < code i' q' / 4) :
    (illegalCodes m st code).head? = some (i, q) := by
  have hrows : List.range m = List.range i ++ i :: (List.range (m - (i + 1))).map fun k => i + 1 + k := by
    rw [show m = i + 1 + (m - (i + 1)) by omega, List.range_add, List.range_succ, List.append_assoc]
    simp
  have hgroups : upFrom (st / 4) 4 = upFrom (st / 4) (q - st / 4) ++ q :: upFrom (q + 1) (st / 4 + 4 - (q + 1)) := by
    have hsplit := upFrom_add (st / 4) (q - st / 4) (st / 4 + 4 - (q + 1) + 1)
    rwa [show q - st / 4 + (st / 4 + 4 - (q + 1) + 1) = 4 by omega, show st / 4 + (q - st / 4) = q by omega] at hsplit
  have hbefore : (List.range i).flatMap (fun i => (upFrom (st / 4) 4).filterMap fun q =>
      if metaOk (code i q) then none else some (i, q)) = [] := by
    rw [List.flatMap_eq_nil_iff]
    intro i' hi'
    rw [List.filterMap_eq_nil_iff]
    intro q' hq'
    obtain ⟨h3, h4⟩ := mem_upFrom.1 hq'
    have hlt := List.mem_range.1 hi'
    rw [if_pos ((metaOk_iff _).2 (h i' q' (by omega) h3 h4 (.inl hlt)))]
  have hrow : (upFrom (st / 4) (q - st / 4)).filterMap (fun q => if metaOk (code i q) then none else some (i, q)) = [] := by
    rw [List.filterMap_eq_nil_iff]
    intro q' hq'
    obtain ⟨h3, h4⟩ := mem_upFrom.1 hq'
    rw [if_pos ((metaOk_iff _).2 (h i q' hi h3 (by omega) (.inr ⟨rfl, by omega⟩)))]
  rw [illegalCodes, hrows, List.flatMap_append, hbefore, List.nil_append, List.flatMap_cons, hgroups, List.filterMap_append, hrow,
    List.nil_append, List.filterMap_cons, if_neg fun hok => hbad ((metaOk_iff _).1 hok)]
  rfl

section
variable (s : State)

/-- The products of a step for an output: the kept elements of the next four groups of a row with those of a column that their codes
name (R237). -/
def keptProducts (xa xb xm : Shape × Word) (i j : Nat) : List (FVal × FVal) :=
  let c := getCluster s s.ev.cl
  (upFrom (c.tileProg / 4) 4).flatMap fun q =>
    [(elemNum c.cfg.tyA (operandElem s s.ev.cl xa i (2 * q)),
      elemNum c.cfg.tyB (operandElem s s.ev.cl xb (4 * q + codeAt s s.ev.cl xm i q % 4) j)),
     (elemNum c.cfg.tyA (operandElem s s.ev.cl xa i (2 * q + 1)),
      elemNum c.cfg.tyB (operandElem s s.ev.cl xb (4 * q + codeAt s s.ev.cl xm i q / 4) j))]

end

theorem decodeRows_table (ty m n : Nat) (f : Nat → Nat → Nat) :
    decodeRows ty (table m n f) = table m n fun i k => elemNum ty (f i k) := map_table _ _ _ _

/-- The kept elements of a row beside those of a column. -/
theorem kept_column {α : Type} {n w k st : Nat} (d : α) (row : Nat → α) (code : Nat → Nat) (metas : List Nat) (col : Nat → α)
    (hmeta : ∀ q, q < st / 4 + 4 → metaCode metas q = code q) (hcode : ∀ q, code q < 16) (hst : st % 16 = 0) (hk : st + 16 ≤ k)
    (hn : k ≤ 2 * n) (hw : w = 16) :
    ((keptOf d ((List.range n).map row) metas st).map fun q => (q.2, ((upFrom st w).map col).getD q.1 d)) =
      (upFrom (st / 4) 4).flatMap fun q =>
        [(row (2 * q), col (4 * q + code q % 4)), (row (2 * q + 1), col (4 * q + code q / 4))] := by
  subst hw
  have hcol : ∀ i, i < 16 → ((upFrom st 16).map col).getD i d = col (st + i) := fun i hi => by
    rw [upFrom_eq_map, List.map_map, getD_map_range _ _ _ hi]
    rfl
  rw [keptOf, List.map_flatMap]
  refine List.flatMap_congr fun q hq => ?_
  obtain ⟨h1, h2⟩ := mem_upFrom.1 hq
  have hc := hcode q
  simp only [hmeta q h2, List.map_cons, List.map_nil]
  rw [hcol _ (by omega), hcol _ (by omega), getD_map_range _ _ _ (by omega), getD_map_range _ _ _ (by omega),
    show st + (4 * q - st + code q % 4) = 4 * q + code q % 4 by omega,
    show st + (4 * q - st + code q / 4) = 4 * q + code q / 4 by omega]

section
variable {s : State} {xa xb xm : Shape × Word} {a b m : Word}
  (hshapes : mmaspShapes (getCluster s s.ev.cl).cfg a b m = [xa, xb, xm])
  (ha : OperandReady s s.ev.cl xa) (hb : OperandReady s s.ev.cl xb) (hm : OperandReady s s.ev.cl xm)
  (hk : (getCluster s s.ev.cl).tileProg < (getCluster s s.ev.cl).cfg.k) (hk16 : (getCluster s s.ev.cl).cfg.k % 16 = 0)
  (hp16 : (getCluster s s.ev.cl).tileProg % 16 = 0)
include hshapes

theorem mmasp_shapes :
    (xa.1.rows = cfgM (getCluster s s.ev.cl).cfg ∧ xa.1.cols = (getCluster s s.ev.cl).cfg.k / 2 ∧ xa.1.mayT = false ∧ xa.1.slotT = false) ∧
    (xb.1.rows = (getCluster s s.ev.cl).cfg.k ∧ xb.1.cols = cfgN (getCluster s s.ev.cl).cfg) ∧
    (xm.1.rows = cfgM (getCluster s s.ev.cl).cfg ∧ xm.1.cols = ceilDiv (getCluster s s.ev.cl).cfg.k 32 ∧ xm.1.mayT = false ∧
      xm.1.slotT = false) := by
  injection hshapes with h1 h2
  injection h2 with h2 h3
  injection h3 with h3
  rw [← h1, ← h2, ← h3]
  exact ⟨⟨rfl, rfl, rfl, rfl⟩, ⟨rfl, rfl⟩, rfl, rfl, rfl, rfl⟩

include hm hk hk16 hp16

theorem mmasp_metaBad :
    metaBad (loadOperand s s.ev.cl xm).lines (getCluster s s.ev.cl).tileProg =
      (illegalCodes (cfgM (getCluster s s.ev.cl).cfg) (getCluster s s.ev.cl).tileProg (codeAt s s.ev.cl xm)).head? := by
  obtain ⟨-, -, hmr, hmc, hmT, hmS⟩ := mmasp_shapes hshapes
  rw [lines_table s s.ev.cl (storedT_of_formed hm.formed hmT hmS), hmr, hmc, metaBad_eq]
  intro q hq
  rw [ceilDiv]
  omega

include ha

/-- The accumulators after one step, and its flags. -/
theorem mmaspLoop_table (hacc : Rising (getCluster s s.ev.cl).acc) (u ac : Nat)
    (hlegal : ∀ i q, i < cfgM (getCluster s s.ev.cl).cfg → (getCluster s s.ev.cl).tileProg / 4 ≤ q →
      q < (getCluster s s.ev.cl).tileProg / 4 + 4 → codeAt s s.ev.cl xm i q % 4 < codeAt s s.ev.cl xm i q / 4) :
    let c := getCluster s s.ev.cl
    let f := fun i j => accAdd (oldOutput s u ac i j) (keptProducts s xa xb xm i j)
    mmaspLoop (decodeRows c.cfg.tyA (loadOperand s s.ev.cl xa).lines) (loadOperand s s.ev.cl xm).lines 1 c.tileProg (gatherAcc c u ac)
        (decodeRows c.cfg.tyB ((logicalCols xb.1 xb.2 (loadOperand s s.ev.cl xb).lines).map fun l => l.drop c.tileProg)) 0 =
      (table (cfgM c.cfg) (cfgN c.cfg) fun i j => (f i j).bits, allFlags (table (cfgM c.cfg) (cfgN c.cfg) f), none) := by
  intro c f
  obtain ⟨⟨har, hac, haT, haS⟩, ⟨hbr, hbc⟩, hmr, hmc, hmT, hmS⟩ := mmasp_shapes hshapes
  have hnone : metaBad (loadOperand s s.ev.cl xm).lines c.tileProg = none :=
    (mmasp_metaBad hshapes hm hk hk16 hp16).trans (illegalCodes_none hlegal)
  have hgroup : c.tileProg + 16 ≤ c.cfg.k := by
    change (getCluster s s.ev.cl).tileProg + 16 ≤ (getCluster s s.ev.cl).cfg.k
    omega
  have hwords : ∀ q, q < c.tileProg / 4 + 4 → q / 8 < ceilDiv c.cfg.k 32 := fun q hq => by
    rw [ceilDiv]
    omega
  have hkept : (decodeRows c.cfg.tyA (loadOperand s s.ev.cl xa).lines |>.zip (loadOperand s s.ev.cl xm).lines).map
      (fun p => keptOf (FVal.num false 0 0) p.1 p.2 c.tileProg) = (List.range (cfgM c.cfg)).map fun i =>
        keptOf (FVal.num false 0 0) ((List.range (c.cfg.k / 2)).map fun k => elemNum c.cfg.tyA (operandElem s s.ev.cl xa i k))
          ((List.range (ceilDiv c.cfg.k 32)).map (operandElem s s.ev.cl xm i)) c.tileProg := by
    rw [lines_table s s.ev.cl (storedT_of_formed ha.formed haT haS), lines_table s s.ev.cl (storedT_of_formed hm.formed hmT hmS),
      har, hac, hmr, hmc, decodeRows_table, table, table, List.zip_map', List.map_map]
    rfl
  have hcols : (decodeRows c.cfg.tyB ((logicalCols xb.1 xb.2 (loadOperand s s.ev.cl xb).lines).map fun l => l.drop c.tileProg)).map
      (fun x => x.take 16) = (List.range (cfgN c.cfg)).map fun j =>
        (upFrom c.tileProg 16).map fun k => elemNum c.cfg.tyB (operandElem s s.ev.cl xb k j) := by
    rw [logicalCols_table, hbc, hbr, decodeRows_drop, table_group _ hgroup]
  have hf : ∀ i j, accAdd (oldOutput s u ac i j) ((keptOf (FVal.num false 0 0)
      ((List.range (c.cfg.k / 2)).map fun k => elemNum c.cfg.tyA (operandElem s s.ev.cl xa i k))
      ((List.range (ceilDiv c.cfg.k 32)).map (operandElem s s.ev.cl xm i)) c.tileProg).map fun q =>
        (q.2, ((upFrom c.tileProg 16).map fun k => elemNum c.cfg.tyB (operandElem s s.ev.cl xb k j)).getD q.1 (.num false 0 0))) =
      f i j := fun i j => by
    rw [kept_column (k := c.cfg.k) (.num false 0 0) (fun k => elemNum c.cfg.tyA (operandElem s s.ev.cl xa i k)) (codeAt s s.ev.cl xm i) _
      (fun k => elemNum c.cfg.tyB (operandElem s s.ev.cl xb k j))
      (fun q hq => metaCode_row s s.ev.cl xm i (hwords q hq)) (codeAt_lt s s.ev.cl xm i) hp16 hgroup
      (by change (getCluster s s.ev.cl).cfg.k ≤ 2 * ((getCluster s s.ev.cl).cfg.k / 2); omega) rfl]
    rfl
  simp only [mmaspLoop, hnone]
  rw [hkept, hcols, gatherAcc_eq hacc]
  have hold : (fun i j => mapGet 0 (getCluster s s.ev.cl).acc (outPos u ac i j)) = oldOutput s u ac := rfl
  rw [hold, mapOutputs_table]
  simp only [hf]
  exact congrArg _ (congrArg₂ _ BitVec.zero_or rfl)

end

end Sys2Proof.Proofs
end

section
/-!
TILE_ENTRY_EXECUTE of an mcfg, an mzero and an mmasp, whose first illegal code stops the engine and its MCC (R230, R236, R237, R241).
-/

namespace Sys2Proof.Proofs

open Sys2Proof Sys2Proof.Machine Sys2Proof.Safety Sys2Proof.Laws

section
variable {s : State} {e : TileEntry} {r : List TileEntry} (h : EngineRuns s s.ev.cl e r)
include h

theorem mcfg_configures {g : MatCfg} (hop : e.op = .mcfg g) :
    ∃ t, exec .tileEntryExecute s = .next t ∧
      getCluster t s.ev.cl = { doneCluster (getCluster s s.ev.cl) r with cfg := g } ∧
      (∀ x, x ≠ s.ev.cl → getCluster t x = getCluster s x) ∧ t = { s with clusters := t.clusters } := by
  have hrun : tileRun s s.ev.cl e = tileDone (updCluster s s.ev.cl fun x => { x with cfg := g }) s.ev.cl := by rw [tileRun, hop]
  rw [tileDone_eq, getCluster_updCluster_self] at hrun
  refine ⟨_, exec_running h hrun h.running, ?_, fun x hx => ?_, rfl⟩
  · rw [getCluster_putCluster_self]
    change doneCluster { getCluster s s.ev.cl with cfg := g } ((getCluster s s.ev.cl).tq.drop 1) = _
    rw [h.queue]
    rfl
  · rw [getCluster_putCluster_other _ _ hx]
    exact getCluster_putCluster_other _ _ hx

theorem mzero_clears (hleave : LeaveHeld s s.ev.cl) (hacc : Rising (getCluster s s.ev.cl).acc) {u : Fin 16} {ac : Fin 4}
    (hop : e.op = .mzero u ac) :
    ∃ t, exec .tileEntryExecute s = .next t ∧ (getCluster t s.ev.cl).tq = r ∧
      (getCluster t s.ev.cl).cfg = (getCluster s s.ev.cl).cfg ∧
      (∀ (q : Fin 4) (ac' : Fin 4) (k : Fin 1024), mapGet 0 (getCluster t s.ev.cl).acc (q.val * 4096 + ac'.val * 1024 + k.val) =
        if u.val.testBit q.val = true ∧ ac' = ac then 0
        else mapGet 0 (getCluster s s.ev.cl).acc (q.val * 4096 + ac'.val * 1024 + k.val)) ∧
      (∀ x, x ≠ s.ev.cl → getCluster t x = getCluster s x) ∧ t = { s with clusters := t.clusters } := by
  have hrun : tileRun s s.ev.cl e = runMzero s s.ev.cl u.val ac.val := by
    rw [tileRun, hop]
    exact withLeave_held hleave e _
  rw [runMzero, tileDone_eq, getCluster_updCluster_self] at hrun
  obtain ⟨hcfg, htq, hget⟩ := runMzero_acc hacc u.val ac.isLt (upFrom 0 4)
  generalize (upFrom 0 4).foldl _ (getCluster s s.ev.cl) = c' at hcfg htq hget hrun
  rw [htq, h.queue] at hrun
  have hcl := getCluster_putCluster_self (updCluster s s.ev.cl fun c => (upFrom 0 4).foldl (fun c q =>
    if bitAt u.val q then
      { c with acc := putBlock c.acc q ac.val [], counts := mapDel c.counts (q * 4 + ac.val)
               accBad := c.accBad.filter fun x => !(decide (accBase q ac.val ≤ x) && decide (x < accBase q ac.val + 1024)) }
    else c) c) s.ev.cl (doneCluster c' ((e :: r).drop 1))
  refine ⟨_, exec_running h hrun h.running, ?_, ?_, fun q ac' k => ?_, fun x hx => ?_, rfl⟩
  · rw [hcl]
    rfl
  · rw [hcl]
    exact hcfg
  · rw [hcl]
    refine (hget q.val ac'.val k.val ac'.isLt k.isLt).trans ?_
    simp only [mem_upFrom, Fin.val_inj, Nat.zero_le, Nat.zero_add, q.isLt, and_self, true_and]
  · rw [getCluster_putCluster_other _ _ hx]
    exact getCluster_putCluster_other _ _ hx

end

section
variable {s : State} {cl : Fin 64} (hleave : LeaveHeld s cl)
include hleave

/-- An mmasp whose operands pass the checks: its metadata comes first (R237, R358). -/
theorem runMmasp_eq (e : TileEntry) (u ac : Nat) (rel : Bool) {a b m : Word} {xa xb xm : Shape × Word}
    (hshapes : mmaspShapes (getCluster s cl).cfg a b m = [xa, xb, xm]) (ha : OperandReady s cl xa) (hb : OperandReady s cl xb)
    (hm : OperandReady s cl xm) (hcm : (loadOperand s cl xm).bad = false)
    (hk : (getCluster s cl).tileProg < (getCluster s cl).cfg.k) :
    (∀ f, metaFault (loadOperand s cl xm).lines (getCluster s cl).tileProg = some f →
      runMmasp s cl e u ac rel a b m = tileFault s cl e f) ∧
    (metaFault (loadOperand s cl xm).lines (getCluster s cl).tileProg = none → (getCluster s cl).accBad = [] →
      (loadOperand s cl xa).bad = false → (loadOperand s cl xb).bad = false →
      let c := getCluster s cl
      let z := mmaspLoop (decodeRows c.cfg.tyA (loadOperand s cl xa).lines) (loadOperand s cl xm).lines 1 c.tileProg (gatherAcc c u ac)
        (decodeRows c.cfg.tyB ((logicalCols xb.1 xb.2 (loadOperand s cl xb).lines).map fun l => l.drop c.tileProg)) 0
      runMmasp s cl e u ac rel a b m =
        tileNext (putCluster s cl (putProducts c u ac z.1 8 (z.2.1 ||| (loadOperand s cl xb).flags))) cl (c.tileProg + 16) rel
          [xa, xb, xm]) := by
  have hops : ∀ x ∈ [xa, xb, xm], OperandReady s cl x := by simp [ha, hb, hm]
  have hpass : runMmasp s cl e u ac rel a b m = runMmasp s cl e u ac rel a b m := rfl
  conv at hpass =>
    rhs
    rw [runMmasp]
  simp only [hshapes] at hpass
  rw [withOperands_pass (fun x hx => (hops x hx).formed) (fun x hx => (hops x hx).bound) fun x hx => (hops x hx).fits,
    withLeave_held hleave] at hpass
  simp only [List.map_cons, List.map_nil, hcm, Bool.false_or, decide_eq_false (Nat.not_le.2 hk)] at hpass
  refine ⟨fun f hf => ?_, fun hf hbad hca hcb => ?_⟩
  · rw [hpass]
    simp only [Bool.false_eq_true, if_false, hf]
  · rw [hpass]
    simp only [Bool.false_eq_true, if_false, hf]
    rw [withAccumulators_clean hbad]
    simp only [List.find?_cons, hca, hcb, hcm, List.find?_nil, if_neg (Nat.not_le.2 hk)]

end

/-- The MCC stopped at a tile queue entry: the cause with VEC set, and VSTART the K index (R241, R357). -/
theorem report_tile (th : Thread) (pc : Word) (info start : Nat) :
    { report th { cause := 0x0B, elem := 0, info := info, start := start } (some (pc, 0)) pc with
      tstate := TState.stopped, wait := Wait.none, rq := freezeItems th } =
      { stoppedAt { th with pc := pc, rq := freezeItems th } 0x0B info with
        pc := th.pc, xvpc := (pc.setWidth 52).signExtend 64, vstart := BitVec.ofNat 64 start
        xcause := BitVec.ofNat 64 ((if inHandler th = true then 0x13 + 2 ^ 8 * 0x0B else 0x0B) + 2 ^ 16) } := by
  have hcause : causeWord (inHandler th) true 0x0B =
      BitVec.ofNat 64 ((if inHandler th = true then 0x13 + 2 ^ 8 * 0x0B else 0x0B) + 2 ^ 16) := by
    cases inHandler th <;> rfl
  have hpc := canon52_eq_signExtend pc
  simp only [report, stoppedAt, hpc, ← hcause]
  rfl

section
variable {s : State} {e : TileEntry} {r : List TileEntry} (h : EngineRuns s s.ev.cl e r)
include h

/-- A tile queue fault of cause 0x0B, no record being registered. -/
theorem exec_tileFault {info start : Nat} (hrecord : (getThread s (.mcc s.ev.cl)).record = none)
    (hrun : tileRun s s.ev.cl e = tileFault s s.ev.cl e { cause := 0x0B, elem := 0, info := info, start := start }) :
    let cl := s.ev.cl
    let th := getThread s (.mcc cl)
    ∃ t, exec .tileEntryExecute s = .next t ∧
      getCluster t cl = { doneCluster (getCluster s cl) r with tq := e :: r, tileFault := true } ∧
      getThread t (.mcc cl) =
        { stoppedAt { th with pc := e.pc, rq := freezeItems th } 0x0B info with
          pc := th.pc, xvpc := (e.pc.setWidth 52).signExtend 64, vstart := BitVec.ofNat 64 start
          xcause := BitVec.ofNat 64 ((if inHandler th = true then 0x13 + 2 ^ 8 * 0x0B else 0x0B) + 2 ^ 16) } ∧
      (∀ x, x ≠ cl → getCluster t x = getCluster s x) ∧ (∀ x, x ≠ .mcc cl → getThread t x = getThread s x) ∧
      t = { s with threads := t.threads, clusters := t.clusters } := by
  intro cl th
  have hstep : tileStep s cl = putThread (updCluster s cl fun c => returnLeave { c with tileFault := true, tileProg := 0 } .tile)
      (.mcc cl) { stoppedAt { th with pc := e.pc, rq := freezeItems th } 0x0B info with
        pc := th.pc, xvpc := (e.pc.setWidth 52).signExtend 64, vstart := BitVec.ofNat 64 start
        xcause := BitVec.ofNat 64 ((if inHandler th = true then 0x13 + 2 ^ 8 * 0x0B else 0x0B) + 2 ^ 16) } := by
    rw [tileStep_runs h, hrun, ← report_tile, tileFault, takeFault]
    simp only [getThread_updCluster]
    rfl
  have hrec : tileStepRecorded s cl = tileStep s cl := by
    have hnone : (getThread (tileStep s cl) (.mcc cl)).record = none := by
      rw [hstep, getThread_putThread_self]
      exact hrecord
    simp only [tileStepRecorded, hnone]
  refine ⟨_, (exec_tileEntryExecute s).trans (congrArg _ (hrec.trans hstep)), ?_, getThread_putThread_self _ _ _, fun x hx => ?_,
    fun x hx => ?_, rfl⟩
  · rw [getCluster_putThread, getCluster_updCluster_self]
    rw [← h.queue]
    rfl
  · rw [getCluster_putThread]
    exact getCluster_putCluster_other _ _ hx
  · rw [getThread_putThread_other _ _ hx, getThread_updCluster]

end

section
variable {s : State} {e : TileEntry} (hleave : LeaveHeld s s.ev.cl) {u : Fin 16} {ac : Fin 4} {rel : Bool} {a b m : Word} {xa xb xm : Shape × Word}
  (hop : e.op = .mmasp u ac rel a b m) (hshapes : mmaspShapes (getCluster s s.ev.cl).cfg a b m = [xa, xb, xm])
  (ha : OperandReady s s.ev.cl xa) (hb : OperandReady s s.ev.cl xb) (hm : OperandReady s s.ev.cl xm)
  (hcm : (loadOperand s s.ev.cl xm).bad = false) (hk : (getCluster s s.ev.cl).tileProg < (getCluster s s.ev.cl).cfg.k)
  (hk16 : (getCluster s s.ev.cl).cfg.k % 16 = 0) (hp16 : (getCluster s s.ev.cl).tileProg % 16 = 0)
include hleave hop hshapes ha hb hm hcm hk hk16 hp16

theorem mmasp_adds {r : List TileEntry} (h : EngineRuns s s.ev.cl e r) (hbad : (getCluster s s.ev.cl).accBad = []) (hacc : Rising (getCluster s s.ev.cl).acc)
    (hca : (loadOperand s s.ev.cl xa).bad = false) (hcb : (loadOperand s s.ev.cl xb).bad = false)
    (hlegal : ∀ i q, i < cfgM (getCluster s s.ev.cl).cfg → (getCluster s s.ev.cl).tileProg / 4 ≤ q →
      q < (getCluster s s.ev.cl).tileProg / 4 + 4 → codeAt s s.ev.cl xm i q % 4 < codeAt s s.ev.cl xm i q / 4) :
    Adds s r u.val ac.val rel [xa, xb, xm] ((getCluster s s.ev.cl).tileProg + 16) 8 (loadOperand s s.ev.cl xb).flags
      fun i j => accAdd (oldOutput s u.val ac.val i j) (keptProducts s xa xb xm i j) := by
  have hbound : ∀ x ∈ [xa, xb, xm], isSpad x.2 = true ∨ (slotOf s s.ev.cl x.2).st = .bound := by
    simp [ha.bound, hb.bound, hm.bound]
  have hrun : tileRun s s.ev.cl e = runMmasp s s.ev.cl e u.val ac.val rel a b m := by rw [tileRun, hop]
  have hnone : metaFault (loadOperand s s.ev.cl xm).lines (getCluster s s.ev.cl).tileProg = none := by
    rw [metaFault, mmasp_metaBad hshapes hm hk hk16 hp16, illegalCodes_none hlegal]
    rfl
  obtain ⟨-, hgoes⟩ := runMmasp_eq hleave e u.val ac.val rel hshapes ha hb hm hcm hk
  rw [hgoes hnone hbad hca hcb, mmaspLoop_table hshapes ha hm hk hk16 hp16 hacc u.val ac.val hlegal] at hrun
  exact adds_of_products h hacc u.val ac.isLt hbound rfl hrun

theorem mmasp_stops {i q : Nat} (hi : i < cfgM (getCluster s s.ev.cl).cfg) (h1 : (getCluster s s.ev.cl).tileProg / 4 ≤ q)
    (h2 : q < (getCluster s s.ev.cl).tileProg / 4 + 4) (hillegal : ¬ codeAt s s.ev.cl xm i q % 4 < codeAt s s.ev.cl xm i q / 4)
    (hfirst : ∀ i' q', i' < cfgM (getCluster s s.ev.cl).cfg → (getCluster s s.ev.cl).tileProg / 4 ≤ q' →
      q' < (getCluster s s.ev.cl).tileProg / 4 + 4 → i' < i ∨ (i' = i ∧ q' < q) →
      codeAt s s.ev.cl xm i' q' % 4 < codeAt s s.ev.cl xm i' q' / 4) :
    tileRun s s.ev.cl e = tileFault s s.ev.cl e
      { cause := 0x0B, elem := 0, info := i * 2 ^ 16 + q, start := (getCluster s s.ev.cl).tileProg } := by
  obtain ⟨hstops, -⟩ := runMmasp_eq hleave e u.val ac.val rel hshapes ha hb hm hcm hk
  rw [tileRun, hop]
  refine hstops _ ?_
  rw [metaFault, mmasp_metaBad hshapes hm hk hk16 hp16, illegalCodes_first hi h1 h2 hillegal hfirst]
  rfl

end

end Sys2Proof.Proofs
end

section
/-!
The bytes that a drain writes to a scratchpad (R231, R234, R239): each byte of the target has a place of its own.
-/

namespace Sys2Proof.Proofs

open Sys2Proof Sys2Proof.Machine Sys2Proof.Safety Sys2Proof.Laws

/-- A byte after some writes, all of which that reach it write the same byte. -/
theorem memGet_writes {m : Memory} (hm : Memory.wf m = true) (k : Nat) (y : Byte) {l : List (Nat × Nat × Nat)}
    (hsame : ∀ x ∈ l, x.1 ≤ k → k < x.1 + x.2.1 → BitVec.ofNat 8 (x.2.2 / 256 ^ (k - x.1)) = y)
    (hany : memGet m k = y ∨ ∃ x ∈ l, x.1 ≤ k ∧ k < x.1 + x.2.1) :
    memGet (l.foldl (fun m x => memWrite m x.1 x.2.1 x.2.2) m) k = y := by
  induction l generalizing m with
  | nil => exact hany.resolve_right nofun
  | cons x l ih =>
    refine ih (memWrite_wf _ _ _ hm) (fun z hz => hsame z (List.mem_cons_of_mem _ hz)) ?_
    rw [memGet_memWrite hm]
    split_ifs with hx
    · exact .inl (hsame x List.mem_cons_self hx.1 hx.2)
    · refine hany.imp_right ?_
      rintro ⟨z, hz, h1, h2⟩
      rcases List.mem_cons.1 hz with rfl | hz
      · exact absurd ⟨h1, h2⟩ hx
      · exact ⟨z, hz, h1, h2⟩

/-- The writes of a drain: their places, lengths and values. -/
def tileWrites (cl : Fin 64) (h : Shape) (w : Word) (b : Nat) (rows : List (List Nat)) : List (Nat × Nat × Nat) :=
  rows.zipIdx.flatMap fun p => (tileChunks h w p.2).map fun c =>
    (spadKey cl ((descCore w).val * Config.spadBytes + c.1), c.2.2, bitsOf (joinElems b p.1) (8 * c.2.1) (8 * c.2.2))

/-- A state after writes to scratchpads. -/
theorem foldl_tgtWrite (s : State) (l : List (Nat × Nat × Nat)) :
    ∃ p, l.foldl (fun s x => tgtWrite s (.spad x.1) x.2.1 x.2.2) s =
      { s with spad := l.foldl (fun m x => memWrite m x.1 x.2.1 x.2.2) s.spad, poisonSpad := p } := by
  induction l generalizing s with
  | nil => exact ⟨_, rfl⟩
  | cons x l ih =>
    obtain ⟨p, hp⟩ := ih (tgtWrite s (.spad x.1) x.2.1 x.2.2)
    exact ⟨p, hp⟩

theorem writeTile_eq (s : State) (cl : Fin 64) (h : Shape) (w : Word) (b : Nat) (rows : List (List Nat)) :
    ∃ p, writeTile s cl h w b rows =
      { s with spad := (tileWrites cl h w b rows).foldl (fun m x => memWrite m x.1 x.2.1 x.2.2) s.spad, poisonSpad := p } := by
  obtain ⟨p, hp⟩ := foldl_tgtWrite s (tileWrites cl h w b rows)
  refine ⟨p, ?_⟩
  rw [← hp, tileWrites, List.foldl_flatMap, writeTile]
  simp only [List.foldl_map]

/-- Every byte of a stored row lies in one of its runs. -/
theorem tileChunks_cover (h : Shape) (w : Word) (r : Nat) {b : Nat} (hb : b < rowBytes h w) :
    ∃ c ∈ tileChunks h w r, c.2.1 ≤ b ∧ b < c.2.1 + c.2.2 := by
  by_cases h0 : descSwz w = 0
  · rw [tileChunks_plain h0]
    exact ⟨_, List.mem_singleton_self _, Nat.zero_le _, by simpa using hb⟩
  · rw [tileChunks_swizzled h0]
    refine ⟨_, List.mem_map_of_mem (a := b / 16) (mem_upFrom.2 ⟨Nat.zero_le _, ?_⟩), ?_, ?_⟩
    · rw [ceilDiv]
      omega
    · dsimp only
      omega
    · dsimp only
      omega

theorem joinElems_elem (b : Nat) (l : List Nat) {j : Nat} (hj : j < l.length) :
    joinElems b l / 2 ^ (b * j) % 2 ^ b = l.getD j 0 % 2 ^ b := by
  induction l generalizing j with
  | nil => exact absurd hj (Nat.not_lt_zero _)
  | cons x l ih =>
    cases j with
    | zero => simp [joinElems]
    | succ j =>
      rw [joinElems, Nat.mul_succ, Nat.add_comm (b * j) b, Nat.pow_add, ← Nat.div_div_eq_div_mul,
        Nat.add_mul_div_left _ _ (by positivity), Nat.div_eq_of_lt (Nat.mod_lt _ (by positivity)), Nat.zero_add,
        ih (by simpa using hj)]
      rfl

/-- A byte of elements joined is a byte of one of them. -/
theorem joinElems_byte {sz : Nat} (l : List Nat) {k : Nat} (hk : k < l.length * sz) :
    joinElems (8 * sz) l / 256 ^ k % 256 = l.getD (k / sz) 0 / 256 ^ (k % sz) % 256 := by
  have hsz : 0 < sz := Nat.pos_of_ne_zero fun h => by simp [h] at hk
  have hrest : k % sz < sz := Nat.mod_lt _ hsz
  have hbyte : ∀ v : Nat, v / 256 ^ (k % sz) % 256 = v % 2 ^ (8 * sz) / 256 ^ (k % sz) % 256 := fun v => by
    have hsplit : (2 : Nat) ^ (8 * sz) = 256 ^ (k % sz) * (256 * 256 ^ (sz - 1 - k % sz)) := by
      rw [Nat.pow_mul, show (2 : Nat) ^ 8 = 256 from rfl, ← Nat.pow_succ', ← Nat.pow_add]
      congr 1
      omega
    rw [hsplit, Nat.mod_mul_right_div_self, Nat.mod_mul_right_mod]
  have helem := joinElems_elem (8 * sz) l (Nat.div_lt_of_lt_mul (by rwa [Nat.mul_comm]))
  rw [hbyte (l.getD (k / sz) 0), ← helem, ← hbyte, Nat.div_div_eq_div_mul, Nat.mul_assoc, Nat.pow_mul,
    show (2 : Nat) ^ 8 = 256 from rfl, ← Nat.pow_add, Nat.div_add_mod]

/-! The places of a target's bytes. -/

/-- The place of a byte within its physical row. -/
def rowPlace (w : Word) (p b : Nat) : Nat :=
  16 * (if descSwz w = 0 then b / 16 else b / 16 ^^^ p % (if descSwz w = 1 then 8 else 16)) + b % 16

theorem tilePlace_eq (cl : Fin 64) (w : Word) (r b : Nat) :
    tilePlace cl w r b =
      cl.val * 2 ^ 23 + (descCore w).val * 2 ^ 20 + descOffset w + (physRow w r * descPitch w + rowPlace w (physRow w r) b) := by
  simp only [tilePlace, rowPlace]
  omega

theorem rowPlace_injective (w : Word) (p : Nat) {b b' : Nat} (h : rowPlace w p b = rowPlace w p b') : b = b' := by
  simp only [rowPlace] at h
  have hmod : b % 16 = b' % 16 := by omega
  have hdiv : b / 16 = b' / 16 := by
    by_cases h0 : descSwz w = 0
    · simp only [if_pos h0] at h
      omega
    · simp only [if_neg h0] at h
      refine Nat.xor_left_inj (z := p % if descSwz w = 1 then 8 else 16) |>.1 ?_
      omega
  omega

/-- What a well-formed scratchpad descriptor says (R233). -/
theorem formed_spad {h : Shape} {w : Word} (hs : isSpad w = true) (hf : descMalformed h w = false) :
    descSwz w ≠ 3 ∧ descPitch w ≠ 0 ∧ rowBytes h w ≤ descPitch w ∧ (descSwz w = 1 → 128 ≤ descPitch w) ∧
      (descSwz w = 2 → 256 ≤ descPitch w) := by
  rw [descMalformed, if_pos hs] at hf
  simp only [Bool.or_eq_false_iff, decide_eq_false_iff_not, Bool.and_eq_false_imp, decide_eq_true_eq, not_lt] at hf
  obtain ⟨⟨⟨⟨⟨⟨⟨⟨-, -⟩, hswz⟩, -⟩, hpitch⟩, hrow⟩, h1⟩, h2⟩, -⟩ := hf
  exact ⟨hswz, hpitch, hrow, h1, h2⟩

/-- A row of a drain is a power of two of bytes, at most 256. -/
theorem drain_rowBytes (g : MatCfg) (cv : Nat) (w : Word) :
    rowBytes (drainShape g cv) w ∈ [32, 64, 128, 256] := by
  have hcols : storedCols (drainShape g cv) w = 32 ∨ storedCols (drainShape g cv) w = 64 := by
    have hM : cfgM g = 32 ∨ cfgM g = 64 := by cases h : g.m64 <;> simp [cfgM, h]
    have hN : cfgN g = 32 ∨ cfgN g = 64 := by cases h : g.n64 <;> simp [cfgN, h]
    rw [storedCols]
    split
    · exact hM
    · exact hN
  have hsize : scalarSize (cvType cv) = 1 ∨ scalarSize (cvType cv) = 2 ∨ scalarSize (cvType cv) = 4 := by
    rw [cvType]
    split_ifs <;> simp [scalarSize]
  have hbytes : rowBytes (drainShape g cv) w = storedCols (drainShape g cv) w * scalarSize (cvType cv) := rfl
  rw [hbytes]
  rcases hcols with hc | hc <;> rcases hsize with hz | hz | hz <;> simp [hc, hz]

/-- A row of a drain stays within the pitch. -/
theorem rowPlace_lt {g : MatCfg} {cv : Nat} {w : Word} (hs : isSpad w = true) (hf : descMalformed (drainShape g cv) w = false) (p : Nat)
    {b : Nat} (hb : b < rowBytes (drainShape g cv) w) : rowPlace w p b < descPitch w := by
  obtain ⟨h3, -, hrow, h1, h2⟩ := formed_spad hs hf
  have hbytes := drain_rowBytes g cv w
  simp only [List.mem_cons, List.not_mem_nil, or_false] at hbytes
  have hswz : descSwz w < 4 := Nat.mod_lt _ (by decide)
  have hinner : ∀ n, b / 16 < 2 ^ n → p % (if descSwz w = 1 then 8 else 16) < 2 ^ n →
      16 * (b / 16 ^^^ p % (if descSwz w = 1 then 8 else 16)) + b % 16 < 16 * 2 ^ n := fun n hq hp => by
    have := Nat.xor_lt_two_pow hq hp
    omega
  rw [rowPlace]
  by_cases h0 : descSwz w = 0
  · rw [if_pos h0]
    omega
  · rw [if_neg h0]
    by_cases hone : descSwz w = 1
    · have h1 := h1 hone
      have hp : p % (if descSwz w = 1 then 8 else 16) < 8 := by
        rw [if_pos hone]
        omega
      by_cases hsmall : rowBytes (drainShape g cv) w ≤ 128
      · have := hinner 3 (by omega) hp
        omega
      · have := hinner 4 (by omega) (by omega)
        omega
    · have h2 := h2 (by omega)
      have := hinner 4 (by omega) (by rw [if_neg hone]; omega)
      omega

/-- The physical rows of an operand are apart when it fits its ring. -/
theorem physRow_injective {w : Word} {n r r' : Nat} (hring : descRing w = 0 ∨ n ≤ 2 ^ descRing w) (hr : r < n) (hr' : r' < n)
    (h : physRow w r = physRow w r') : r = r' := by
  rw [physRow, physRow] at h
  split_ifs at h with h0
  · omega
  · have hn := hring.resolve_left h0
    have hmod : r % 2 ^ descRing w = r' % 2 ^ descRing w := Nat.ModEq.add_left_cancel' (descRow0 w) h
    rwa [Nat.mod_eq_of_lt (by omega), Nat.mod_eq_of_lt (by omega)] at hmod

/-- Every byte of a drain's target has a place of its own. -/
theorem tilePlace_injective (cl : Fin 64) {g : MatCfg} {cv : Nat} {w : Word} (hs : isSpad w = true)
    (hf : descMalformed (drainShape g cv) w = false)
    (hring : descRing w = 0 ∨ storedRows (drainShape g cv) w ≤ 2 ^ descRing w) {r r' b b' : Nat}
    (hr : r < storedRows (drainShape g cv) w) (hr' : r' < storedRows (drainShape g cv) w) (hb : b < rowBytes (drainShape g cv) w)
    (hb' : b' < rowBytes (drainShape g cv) w) (h : tilePlace cl w r b = tilePlace cl w r' b') : r = r' ∧ b = b' := by
  have hlt := rowPlace_lt hs hf (physRow w r) hb
  have hlt' := rowPlace_lt hs hf (physRow w r') hb'
  rw [tilePlace_eq, tilePlace_eq] at h
  have hsum := Nat.add_left_cancel h
  have hpos : 0 < descPitch w := by omega
  have hrow : physRow w r = physRow w r' := by
    have hdiv := congrArg (· / descPitch w) hsum
    simp only [Nat.mul_comm _ (descPitch w), Nat.mul_add_div hpos, Nat.div_eq_of_lt hlt, Nat.div_eq_of_lt hlt', Nat.add_zero] at hdiv
    exact hdiv
  rw [hrow] at hsum
  exact ⟨physRow_injective hring hr hr' hrow, rowPlace_injective w _ (Nat.add_left_cancel hsum)⟩

/-- A byte of a row of elements. -/
def elemByte (sz : Nat) (row : List Nat) (b : Nat) : Byte := BitVec.ofNat 8 (row.getD (b / sz) 0 / 2 ^ (8 * (b % sz)))

/-- The writes of a drain by the places that they reach. -/
theorem mem_tileWrites (cl : Fin 64) {h : Shape} {w : Word} {rows : List (List Nat)} (hlen : rows.length = storedRows h w)
    (hrow : ∀ r ∈ rows, r.length = storedCols h w) (k : Nat) :
    (∀ x ∈ tileWrites cl h w (8 * scalarSize h.ty) rows, x.1 ≤ k → k < x.1 + x.2.1 →
      ∃ i b, i < storedRows h w ∧ b < rowBytes h w ∧ k = tilePlace cl w i b ∧
        BitVec.ofNat 8 (x.2.2 / 256 ^ (k - x.1)) = elemByte (scalarSize h.ty) (rows.getD i []) b) ∧
    ∀ i b, i < storedRows h w → b < rowBytes h w → k = tilePlace cl w i b →
      ∃ x ∈ tileWrites cl h w (8 * scalarSize h.ty) rows, x.1 ≤ k ∧ k < x.1 + x.2.1 := by
  constructor
  · intro x hx h1 h2
    obtain ⟨⟨row, i⟩, hrowi, hx⟩ := List.mem_flatMap.1 hx
    obtain ⟨c, hc, rfl⟩ := List.mem_map.1 hx
    simp only at h1 h2 hc ⊢
    have hget := List.mem_zipIdx_iff_getElem?.1 hrowi
    simp only at hget
    obtain ⟨hi, hrowEq⟩ := List.getElem?_eq_some_iff.1 hget
    obtain ⟨hend, hplace⟩ := tileChunks_place cl hc
    have hlenRow : row.length = storedCols h w := hrow row (hrowEq ▸ List.getElem_mem hi)
    obtain ⟨t, rfl⟩ := Nat.exists_eq_add_of_le h1
    have ht : t < c.2.2 := by omega
    refine ⟨i, c.2.1 + t, hlen ▸ hi, by omega, hplace t ht, ?_⟩
    have hgetD : rows.getD i [] = row := by rw [List.getD_eq_getElem?_getD, hget]; rfl
    rw [hgetD, elemByte]
    apply BitVec.eq_of_toNat_eq
    simp only [BitVec.toNat_ofNat]
    have hbyte := joinElems_byte (sz := scalarSize h.ty) row (k := c.2.1 + t) (by rw [hlenRow]; exact Nat.lt_of_lt_of_le (by omega) hend)
    rw [Nat.add_sub_cancel_left, Nat.pow_mul 2 8, show (2 : Nat) ^ 8 = 256 from rfl, ← hbyte, bitsOf, Nat.pow_mul, Nat.pow_mul 2 8 c.2.2,
      show (2 : Nat) ^ 8 = 256 from rfl, show c.2.2 = t + (c.2.2 - t - 1 + 1) by omega, Nat.pow_add 256 t, Nat.mod_mul_right_div_self,
      Nat.pow_succ', Nat.mod_mul_right_mod, Nat.div_div_eq_div_mul, ← Nat.pow_add]
  · rintro i b hi hb rfl
    obtain ⟨c, hc, h1, h2⟩ := tileChunks_cover h w i hb
    obtain ⟨-, hplace⟩ := tileChunks_place cl hc
    have hkey := hplace (b - c.2.1) (by omega)
    rw [show c.2.1 + (b - c.2.1) = b by omega] at hkey
    refine ⟨_, List.mem_flatMap.2 ⟨(rows.getD i [], i), List.mem_zipIdx_iff_getElem?.2 ?_, List.mem_map_of_mem hc⟩, ?_, ?_⟩
    · simp [hlen, hi]
    · simp only
      omega
    · simp only
      omega

/-- The scratchpads after a drain: each byte of its target, and no other. -/
theorem memGet_drained (cl : Fin 64) {g : MatCfg} {cv : Nat} {w : Word} (hs : isSpad w = true)
    (hf : descMalformed (drainShape g cv) w = false)
    (hring : descRing w = 0 ∨ storedRows (drainShape g cv) w ≤ 2 ^ descRing w) {rows : List (List Nat)}
    (hlen : rows.length = storedRows (drainShape g cv) w) (hrow : ∀ r ∈ rows, r.length = storedCols (drainShape g cv) w)
    {m : Memory} (hm : Memory.wf m = true) :
    let sz := scalarSize (drainShape g cv).ty
    let z := (tileWrites cl (drainShape g cv) w (8 * sz) rows).foldl (fun m x => memWrite m x.1 x.2.1 x.2.2) m
    (∀ i b, i < storedRows (drainShape g cv) w → b < rowBytes (drainShape g cv) w →
      memGet z (tilePlace cl w i b) = elemByte sz (rows.getD i []) b) ∧
      ∀ a, (∀ i b, i < storedRows (drainShape g cv) w → b < rowBytes (drainShape g cv) w → a ≠ tilePlace cl w i b) →
        memGet z a = memGet m a := by
  intro sz z
  have hwrites := mem_tileWrites cl hlen hrow
  refine ⟨fun i b hi hb => ?_, fun a ha => ?_⟩
  · obtain ⟨hvalue, hcover⟩ := hwrites (tilePlace cl w i b)
    refine memGet_writes hm _ _ (fun x hx h1 h2 => ?_) (.inr (hcover i b hi hb rfl))
    obtain ⟨i', b', hi', hb', hplace, hbyte⟩ := hvalue x hx h1 h2
    obtain ⟨rfl, rfl⟩ := tilePlace_injective cl hs hf hring hi hi' hb hb' hplace
    exact hbyte
  · refine memGet_writes hm _ _ (fun x hx h1 h2 => ?_) (.inl rfl)
    obtain ⟨i, b, hi, hb, hplace, -⟩ := (hwrites a).1 x hx h1 h2
    exact absurd hplace (ha i b hi hb)

end Sys2Proof.Proofs
end

section
/-!
TILE_ENTRY_EXECUTE of an mdrain, to a scratchpad or to a slot (R234, R238, R239).
-/

namespace Sys2Proof.Proofs

open Sys2Proof Sys2Proof.Machine Sys2Proof.Safety Sys2Proof.Laws

/-! Appending to a chain keeps the launch of its core. -/

theorem takeFree_launch {c c' : Core} {x : Nat} (h : takeFree c = some (x, c')) : c'.launch = c.launch := by
  rw [takeFree] at h
  split at h
  · cases h
    rfl
  · split at h
    · cases h
      rfl
    · exact absurd h nofun

theorem allocLeaf_launch {c c' : Core} {th : Fin 4} {n x : Nat} (h : allocLeaf c th n = .ok (x, c')) : c'.launch = c.launch := by
  rw [allocLeaf] at h
  split at h
  · rename_i y c1 htake
    split_ifs at h
    cases h
    change c1.launch = c.launch
    exact takeFree_launch htake
  · split_ifs at h

theorem appendBytes_launch {th : Fin 4} {budget fuel : Nat} {c c' : Core} {d d' : Desc} {n v : Nat}
    (h : appendBytes th budget fuel c d n v = .ok (c', d')) : c'.launch = c.launch := by
  induction fuel generalizing c d n v with
  | zero =>
    cases h
    rfl
  | succ fuel ih =>
    rw [appendBytes] at h
    by_cases hn : n = 0
    · rw [if_pos hn] at h
      cases h
      rfl
    · rw [if_neg hn] at h
      simp only at h
      by_cases hroom : (if d.len = 0 then 0 else 63 - (leafAt c d.tail).len) = 0
      · rw [if_pos hroom] at h
        cases halloc : allocLeaf c th budget with
        | error x => simp [halloc] at h
        | ok p =>
          obtain ⟨x, c1⟩ := p
          simp only [halloc] at h
          rw [ih h, ← allocLeaf_launch halloc]
          split <;> rfl
      · rw [if_neg hroom] at h
        exact (ih h).trans rfl

theorem serves_of_launch {s s' : State} {cl : Fin 64} {co : Fin 8} (h : (getCore s cl co).launch = (getCore s' cl co).launch)
    (l : Option Nat) : serves s cl co l = serves s' cl co l := by
  simp only [serves, h]

/-- A slot that a drain fills. -/
theorem fillSlot_ok {s s1 : State} {cl : Fin 64} {h : Shape} {w : Word} {b : Nat} {vals : List Nat} (hf : fillSlot s cl h w b vals = .ok s1) :
    ∃ c ch, c.launch = (getCore s cl (descCore w)).launch ∧
      s1 = putCore s cl (descCore w) (putSlot c (descSlot w)
        { slotOf s cl w with st := .filled, chain := ch, scale := Desc.empty, rowLen := h.cols, ty := h.ty, group := 0 }) := by
  simp only [fillSlot] at hf
  split at hf
  · exact absurd hf nofun
  · rename_i c ch happend
    cases hf
    exact ⟨c, ch, appendBytes_launch happend, rfl⟩

/-! The drain. -/

section
variable (s : State)

/-- A drained output. -/
def drainOutput (u ac cv rm : Nat) (scale : Option Word) (i j : Nat) : Res :=
  drainElem (getCluster s s.ev.cl).cfg.rn30 cv rm scale (oldOutput s u ac i j)

/-- Some drained output has counted more products than is exact. -/
def RangeUncertain (u ac : Nat) : Prop :=
  let c := getCluster s s.ev.cl
  c.cfg.rn30 = true ∧ ∃ i j, i < cfgM c.cfg ∧ j < cfgN c.cfg ∧ 32640 < mapGet 0 c.counts (outPos u ac i j / 1024)

/-- The TSW after a drain. -/
def drainTsw (u ac cv rm : Nat) (scale : Option Word) : BitVec 8 :=
  let c := getCluster s s.ev.cl
  c.tsw ||| tswBits (allFlags (table (cfgM c.cfg) (cfgN c.cfg) (drainOutput s u ac cv rm scale))) |||
    if rangeUncertain c u ac then tswRange else 0

theorem tswRange_bit (q : Bool) {b : Nat} (hb : b < 8) :
    (if q then tswRange else 0 : BitVec 8).getLsbD b = true ↔ b = 7 ∧ q = true := by
  have hbits : ∀ b : Fin 8, tswRange.getLsbD b.val = decide (b.val = 7) := by decide
  cases q
  · simp
  · simp [hbits ⟨b, hb⟩]

theorem drainTsw_noted (u ac cv rm : Nat) (scale : Option Word) {t : State}
    (ht : (getCluster t s.ev.cl).tsw = drainTsw s u ac cv rm scale) :
    Noted s t (drainOutput s u ac cv rm scale) 0 (RangeUncertain s u ac) := by
  intro b hb
  rw [ht, drainTsw, BitVec.getLsbD_or, BitVec.getLsbD_or, Bool.or_eq_true, Bool.or_eq_true, tswRange_bit _ hb, tswBits_bit _ hb,
    allFlags_table, rangeUncertain_iff]
  have hzero : (0 : BitVec 7).getLsbD b = false := by simp
  simp only [hzero, Bool.false_eq_true, false_or]
  rw [or_assoc]
  exact or_congr_right or_comm

end

section
variable {s : State} {cl : Fin 64} (hleave : LeaveHeld s cl) (hbad : (getCluster s cl).accBad = [])
include hleave hbad

/-- A drain whose target passes the checks. -/
theorem runMdrain_eq (e : TileEntry) (u ac cv rm : Nat) (scale : Option Word) (w : Word)
    (hpass : passOne s cl (getThread s (.mcc cl)).launch (drainShape (getCluster s cl).cfg cv, w) = none) :
    let c := getCluster s cl
    let h := drainShape c.cfg cv
    let out := (gatherAcc c u ac).map fun r => r.map (drainElem c.cfg.rn30 cv rm scale)
    let rows := out.map fun r => r.map fun x => x.bits
    let tsw := c.tsw ||| tswBits (allFlags out) ||| if rangeUncertain c u ac then tswRange else 0
    (isSpad w = true → runMdrain s cl e u ac cv rm scale w =
      tileDone (updCluster (writeTile s cl h w (8 * scalarSize h.ty) (if descT w then columns h.cols rows else rows)) cl
        fun c => { c with tsw := tsw }) cl) ∧
    ∀ s1, isSpad w = false → (slotOf s cl w).st = .target → fillSlot s cl h w (8 * scalarSize h.ty) rows.flatten = .ok s1 →
      runMdrain s cl e u ac cv rm scale w = tileDone (updCluster s1 cl fun c => { c with tsw := tsw }) cl := by
  intro c h out rows tsw
  constructor
  · intro hs
    have hready : slotsReady s cl .target [(h, w)] = true := by simp [slotsReady, hs]
    simp only [runMdrain]
    rw [hpass]
    simp only
    rw [hready, withLeave_held hleave]
    simp only [Bool.not_true, Bool.false_eq_true, if_false, if_pos hs]
    rw [withAccumulators_clean hbad]
    rfl
  · intro s1 hs hst hfill
    have hready : slotsReady s cl .target [(h, w)] = true := by simp [slotsReady, hst]
    simp only [runMdrain]
    rw [hpass]
    simp only
    rw [hready, withLeave_held hleave]
    simp only [Bool.not_true, Bool.false_eq_true, if_false, hs]
    rw [hfill]
    simp only
    rw [withAccumulators_clean hbad]
    rfl

end

section
variable {s : State} {e : TileEntry} {r : List TileEntry} (h : EngineRuns s s.ev.cl e r) (hleave : LeaveHeld s s.ev.cl)
  (hbad : (getCluster s s.ev.cl).accBad = []) (hacc : Rising (getCluster s s.ev.cl).acc)
  {u : Fin 16} {ac : Fin 4} {cv rm : Nat} {scale : Option Word} {d : Word} (hop : e.op = .mdrain u ac cv rm scale d)
  (hpass : passOne s s.ev.cl (getThread s (.mcc s.ev.cl)).launch (drainShape (getCluster s s.ev.cl).cfg cv, d) = none)

theorem drain_table {s : State} (hacc : Rising (getCluster s s.ev.cl).acc) (u ac cv rm : Nat) (scale : Option Word) :
    (gatherAcc (getCluster s s.ev.cl) u ac).map (fun r => r.map (drainElem (getCluster s s.ev.cl).cfg.rn30 cv rm scale)) =
      table (cfgM (getCluster s s.ev.cl).cfg) (cfgN (getCluster s s.ev.cl).cfg) (drainOutput s u ac cv rm scale) := by
  rw [gatherAcc_eq hacc, map_table]
  rfl

/-- The rows that a drain stores. -/
def storedOutputs (s : State) (u ac cv rm : Nat) (scale : Option Word) (d : Word) : List (List Nat) :=
  table (storedRows (drainShape (getCluster s s.ev.cl).cfg cv) d) (storedCols (drainShape (getCluster s s.ev.cl).cfg cv) d) fun i k =>
    (drainOutput s u ac cv rm scale (if descT d then k else i) (if descT d then i else k)).bits

include h hleave hbad hacc hop hpass

theorem mdrain_spad (hs : isSpad d = true) (hwf : Memory.wf s.spad = true)
    (hring : descRing d = 0 ∨ storedRows (drainShape (getCluster s s.ev.cl).cfg cv) d ≤ 2 ^ descRing d) :
    let cl := s.ev.cl
    let g := drainShape (getCluster s cl).cfg cv
    let sz := scalarSize g.ty
    let out := drainOutput s u.val ac.val cv rm scale
    ∃ t, exec .tileEntryExecute s = .next t ∧ Noted s t out 0 (RangeUncertain s u.val ac.val) ∧
      getCluster t cl = { doneCluster (getCluster s cl) r with tsw := (getCluster t cl).tsw } ∧
      (∀ i b, i < storedRows g d → b < rowBytes g d →
        memGet t.spad (tilePlace cl d i b) =
          BitVec.ofNat 8 ((out (if descT d then b / sz else i) (if descT d then i else b / sz)).bits / 2 ^ (8 * (b % sz)))) ∧
      (∀ a, (∀ i b, i < storedRows g d → b < rowBytes g d → a ≠ tilePlace cl d i b) → memGet t.spad a = memGet s.spad a) ∧
      (∀ x, x ≠ cl → getCluster t x = getCluster s x) ∧
      t = { s with spad := t.spad, poisonSpad := t.poisonSpad, clusters := t.clusters } := by
  intro cl g sz out
  have hformed : descMalformed g d = false := by
    by_contra hmal
    rw [passOne] at hpass
    simp only [Bool.not_eq_false] at hmal
    simp [g, cl] at hmal
    simp [hmal] at hpass
  have hstored : (if descT d then columns g.cols ((table (cfgM (getCluster s cl).cfg) (cfgN (getCluster s cl).cfg) out).map fun r =>
      r.map fun x => x.bits) else (table (cfgM (getCluster s cl).cfg) (cfgN (getCluster s cl).cfg) out).map fun r => r.map fun x => x.bits) =
      storedOutputs s u.val ac.val cv rm scale d := by
    rw [map_table, storedOutputs, storedRows, storedCols, storedT, if_pos hs]
    by_cases ht : descT d = true
    · simp only [ht, if_true]
      rw [columns_eq_table (table_length _ _ _)]
      exact table_congr fun i k hi hk => table_getD _ _ _ _ hk hi
    · simp only [if_neg ht]
      rfl
  have hrun : tileRun s cl e = runMdrain s cl e u.val ac.val cv rm scale d := by rw [tileRun, hop]
  rw [(runMdrain_eq hleave hbad e u.val ac.val cv rm scale d hpass).1 hs, drain_table hacc] at hrun
  rw [show (if descT d = true then _ else _) = _ from hstored] at hrun
  obtain ⟨p, hwrite⟩ := writeTile_eq s cl g d (8 * sz) (storedOutputs s u.val ac.val cv rm scale d)
  obtain ⟨hin, hout⟩ := memGet_drained cl hs hformed hring (rows := storedOutputs s u.val ac.val cv rm scale d) (table_length _ _ _)
    (fun row hrow => by
      obtain ⟨i, -, rfl⟩ := List.mem_map.1 hrow
      simp [cl]) hwf
  generalize hspad : (tileWrites cl g d (8 * sz) (storedOutputs s u.val ac.val cv rm scale d)).foldl
    (fun m x => memWrite m x.1 x.2.1 x.2.2) s.spad = spad at hwrite hin hout
  have hdone : ∀ s' : State, s' = { s with spad := spad, poisonSpad := p } →
      tileDone (updCluster s' cl fun c => { c with tsw := drainTsw s u.val ac.val cv rm scale }) cl =
        putCluster { s with spad := spad, poisonSpad := p, clusters := (putCluster s cl
          { getCluster s cl with tsw := drainTsw s u.val ac.val cv rm scale }).clusters } cl
          (doneCluster { getCluster s cl with tsw := drainTsw s u.val ac.val cv rm scale } r) := by
    rintro s' rfl
    rw [tileDone_eq, getCluster_updCluster_self]
    change putCluster _ cl (doneCluster { getCluster s cl with tsw := drainTsw s u.val ac.val cv rm scale }
      ((getCluster s s.ev.cl).tq.drop 1)) = _
    rw [h.queue]
    rfl
  have hrun := hrun.trans (hdone _ hwrite)
  have hcl := getCluster_putCluster_self { s with spad := spad, poisonSpad := p, clusters := (putCluster s cl
    { getCluster s cl with tsw := drainTsw s u.val ac.val cv rm scale }).clusters } cl
    (doneCluster { getCluster s cl with tsw := drainTsw s u.val ac.val cv rm scale } r)
  refine ⟨_, exec_running h hrun h.running, drainTsw_noted s u.val ac.val cv rm scale (congrArg Cluster.tsw hcl), ?_,
    fun i b hi hb => ?_, fun a ha => hout a ha, fun x hx => ?_, rfl⟩
  · rw [hcl]
    rfl
  · refine (hin i b hi hb).trans ?_
    have hsz : b / sz < storedCols g d := Nat.div_lt_of_lt_mul (by rwa [Nat.mul_comm])
    rw [elemByte, storedOutputs, table_getD _ _ _ _ hi hsz]
  · exact (getCluster_putCluster_other _ _ hx).trans (getCluster_putCluster_other s _ hx)

theorem mdrain_slot {s1 : State} (hs : isSpad d = false) (hst : (slotOf s s.ev.cl d).st = .target)
    (hfill : fillSlot s s.ev.cl (drainShape (getCluster s s.ev.cl).cfg cv) d
      (8 * scalarSize (drainShape (getCluster s s.ev.cl).cfg cv).ty)
      ((upFrom 0 (cfgM (getCluster s s.ev.cl).cfg)).flatMap fun i => (upFrom 0 (cfgN (getCluster s s.ev.cl).cfg)).map fun j =>
        (drainOutput s u.val ac.val cv rm scale i j).bits) = .ok s1) :
    let cl := s.ev.cl
    let g := drainShape (getCluster s cl).cfg cv
    ∃ t, exec .tileEntryExecute s = .next t ∧
      Noted s t (drainOutput s u.val ac.val cv rm scale) 0 (RangeUncertain s u.val ac.val) ∧
      getCluster t cl = { doneCluster (getCluster s cl) r with tsw := (getCluster t cl).tsw } ∧ t.cores = s1.cores ∧
      (let q := slotOf t cl d
       q.st = .filled ∧ q.rowLen = cfgN (getCluster s cl).cfg ∧ q.ty = g.ty ∧ q.group = 0 ∧ q.owner = (slotOf s cl d).owner) ∧
      (∀ x, x ≠ cl → getCluster t x = getCluster s x) ∧ t = { s with cores := t.cores, clusters := t.clusters } := by
  intro cl g
  have hrun : tileRun s cl e = runMdrain s cl e u.val ac.val cv rm scale d := by rw [tileRun, hop]
  have hvals : ((upFrom 0 (cfgM (getCluster s s.ev.cl).cfg)).flatMap fun i => (upFrom 0 (cfgN (getCluster s s.ev.cl).cfg)).map fun j =>
      (drainOutput s u.val ac.val cv rm scale i j).bits) =
      ((table (cfgM (getCluster s s.ev.cl).cfg) (cfgN (getCluster s s.ev.cl).cfg) (drainOutput s u.val ac.val cv rm scale)).map
        fun r => r.map fun x => x.bits).flatten := by
    rw [map_table, upFrom_zero_eq_range, upFrom_zero_eq_range, List.flatMap_def]
    rfl
  rw [hvals, ← drain_table hacc] at hfill
  rw [(runMdrain_eq hleave hbad e u.val ac.val cv rm scale d hpass).2 s1 hs hst hfill, drain_table hacc] at hrun
  have hserves : serves s cl (descCore d) (getThread s (.mcc cl)).launch = true := by
    by_contra hno
    rw [slotOf, if_neg hno] at hst
    exact absurd hst nofun
  obtain ⟨c, ch, hlaunch, hs1⟩ := fillSlot_ok hfill
  have hcl1 : ∀ x, getCluster s1 x = getCluster s x := fun x => by
    rw [hs1, getCluster_putCore]
  rw [tileDone_eq, getCluster_updCluster_self, hcl1] at hrun
  change _ = putCluster _ cl (doneCluster { getCluster s cl with tsw := drainTsw s u.val ac.val cv rm scale }
    ((getCluster s s.ev.cl).tq.drop 1)) at hrun
  rw [h.queue] at hrun
  have hthreads : ∀ x, getThread s1 x = getThread s x := fun x => by
    rw [hs1, getThread_putCore]
  have hrunning : (getThread s1 (.mcc cl)).tstate = .running := by
    rw [hthreads]
    exact h.running
  have hcl := fun s' => getCluster_putCluster_self s' cl (doneCluster
    { getCluster s cl with tsw := drainTsw s u.val ac.val cv rm scale } ((e :: r).drop 1))
  refine ⟨_, exec_running h hrun hrunning, drainTsw_noted s u.val ac.val cv rm scale (congrArg Cluster.tsw (hcl _)), ?_, rfl, ?_,
    fun x hx => ?_, ?_⟩
  · rw [hcl]
    rfl
  · have hslot : ∀ s' f, slotOf (putCluster (updCluster s1 cl f) cl s') cl d =
        { slotOf s cl d with st := .filled, chain := ch, scale := Desc.empty, rowLen := g.cols, ty := g.ty, group := 0 } := fun s' f => by
      have hcore : getCore (putCluster (updCluster s1 cl f) cl s') cl (descCore d) = putSlot c (descSlot d)
          { slotOf s cl d with st := .filled, chain := ch, scale := Desc.empty, rowLen := g.cols, ty := g.ty, group := 0 } := by
        rw [getCore_putCluster, getCore_updCluster, hs1]
        exact getCore_putCore_self _ _ _ _
      have hserves' : serves (putCluster (updCluster s1 cl f) cl s') cl (descCore d)
          (getThread (putCluster (updCluster s1 cl f) cl s') (.mcc cl)).launch = true := by
        rw [getThread_putCluster, getThread_updCluster, hthreads]
        exact (serves_of_launch ((congrArg Core.launch hcore).trans hlaunch) _).trans hserves
      rw [slotOf, if_pos hserves']
      simp only [hcore, putSlot, Vector.getElem_set_self]
    exact ⟨congrArg Slot.st (hslot _ _), congrArg Slot.rowLen (hslot _ _), congrArg Slot.ty (hslot _ _),
      congrArg Slot.group (hslot _ _), (congrArg Slot.owner (hslot _ _)).trans rfl⟩
  · rw [getCluster_putCluster_other _ _ hx]
    exact (getCluster_putCluster_other _ _ hx).trans (hcl1 x)
  · rw [hs1]
    rfl

end

end Sys2Proof.Proofs
end

section
/-!
The MATRIX forms and the tile queue (R228 to R241), put together.
-/

namespace Sys2Proof.Proofs

open Sys2Proof Sys2Proof.Machine Sys2Proof.Safety Sys2Proof.Laws

theorem infRes_fmtOf {ty : Nat} (q : Bool) :
    (ty = 8 → (infRes (fmtOf ty) q).bits = (fmtOf ty).maxFin q ∧ (infRes (fmtOf ty) q).flags = flagSat) ∧
      (ty ≠ 8 → (infRes (fmtOf ty) q).bits = (fmtOf ty).inf q ∧ (infRes (fmtOf ty) q).flags = 0) := by
  constructor
  · rintro rfl
    exact ⟨rfl, rfl⟩
  · intro hty
    have hinf : (fmtOf ty).hasInf = true := by
      rw [fmtOf, if_neg hty]
      split_ifs <;> rfl
    rw [infRes, if_pos hinf]
    exact ⟨rfl, rfl⟩

/-- What a drain to a floating-point type gives (R238). -/
theorem drainElem_cases {rn : Bool} {cv rm x ty : Nat} {scale : Option Word} (hcv : cv ≠ 4) (hty : cvType cv = ty) :
    let z := drainElem rn cv rm scale x
    let f := fmtOf ty
    let is (bits : Nat) (flags : BitVec 7) : Prop := z.bits = bits ∧ z.flags = flags ||| drainFlag rn x
    (∀ n m e q k d, drainSource rn x = .num n m e → drainScale scale = .num q k d →
      let y := roundFp f .convert rm (n != q) (m * k) (e + d) false
      is y.bits y.flags) ∧
    (NaN (drainSource rn x) ∨ NaN (drainScale scale) →
      is f.nan (if drainSource rn x = .nan true ∨ drainScale scale = .nan true then flagInv else 0)) ∧
    (∀ n q e, (drainSource rn x = .inf n ∧ drainScale scale = .num q 0 e) ∨ (drainSource rn x = .num q 0 e ∧ drainScale scale = .inf n) →
      is f.nan flagInv) ∧
    ∀ n q, (drainSource rn x = .inf n ∧ (drainScale scale = .inf q ∨ ∃ m e, m ≠ 0 ∧ drainScale scale = .num q m e)) ∨
        (drainScale scale = .inf q ∧ ∃ m e, m ≠ 0 ∧ drainSource rn x = .num n m e) →
      if ty = 8 then is (f.maxFin (n != q)) flagSat else is (f.inf (n != q)) 0 := by
  subst hty
  obtain ⟨hbits, hflags⟩ := drainElem_fp rn cv rm x scale hcv
  intro z f is
  have his : ∀ y : Res, mulVal f .convert rm (drainSource rn x) (drainScale scale) = y → is y.bits y.flags := by
    rintro y rfl
    exact ⟨hbits, hflags⟩
  refine ⟨fun n m e q k d hs hg => his _ (mulVal_num hs hg _ _), fun hnan => ?_, fun n q e h => his _ (mulVal_invalid _ _ _ h),
    fun n q h => ?_⟩
  · obtain ⟨y, hy, hb, hf⟩ := nanOf_pair (f := f) hnan
    have hmul : mulVal f .convert rm (drainSource rn x) (drainScale scale) = y := by
      simp only [mulVal, hy]
    rw [← hb, ← hf]
    exact his y hmul
  · have hz := his _ (mulVal_inf f .convert rm h)
    obtain ⟨h8, hother⟩ := infRes_fmtOf (ty := cvType cv) (n != q)
    split_ifs with hty
    · rwa [(h8 hty).1, (h8 hty).2] at hz
    · rwa [(hother hty).1, (hother hty).2] at hz

/-- The result type of a conversion code to floating point. -/
def drainType (cv : Nat) : Nat :=
  match cv with
  | 0 => 12
  | 1 => 10
  | 2 => 8
  | 3 => 9
  | 5 => 12
  | _ => 10

theorem cvType_eq {cv : Nat} (h7 : cv < 7) (h4 : cv ≠ 4) : cvType cv = drainType cv := by
  match cv with
  | 0 | 1 | 2 | 3 | 5 | 6 => rfl
  | 4 => exact absurd rfl h4

/-- Settles O43: the forms issue as one shared operation does, an addition rounds the exact sum of its group, and the engine works on
tables of outputs whose places are apart. -/
theorem matrixFormsIssueAndConfigure : Obligations.MatrixFormsIssueAndConfigure := by
  unfold Obligations.MatrixFormsIssueAndConfigure
  refine ⟨⟨fun acc l => ⟨accAdd_invalid acc l, accAdd_nan acc l, accAdd_inf acc l, fun n m e hx hall => accAdd_numbers acc l hx hall⟩,
    fun rn cv rm x scale hrm h7 hrn => ⟨fun hcv => ?_, fun hcv => drainElem_cases hcv (cvType_eq h7 hcv)⟩⟩,
    fun s u ac tyA tyB cv rm k n rel sc f1 f2 f3 ta tb a b d => ⟨?_, ?_, ?_, ?_, ?_, mwait_illegal, mwait_goes, mwait_waits⟩,
    fun s e r => ?_⟩
  · subst hcv
    obtain ⟨hbits, hflags⟩ := drainElem_int rn rm x scale (hrn.1 (le_refl 4))
    exact ⟨hbits, hflags.trans BitVec.zero_or.symm⟩
  · exact issueTile_cases (ok := fun _ => true) (iff_true_intro rfl)
  · exact issueTile_cases (ok := fun c => unitsOk c u.val) (unitsOk_iff _ _)
  · exact issueTile_cases (ok := fun c => unitsOk c u.val && sparseOk c)
      (Bool.and_eq_true_iff.trans (and_congr (unitsOk_iff _ _) (sparseOk_iff _)))
  · exact issueTile_cases (ok := fun _ => true) (iff_true_intro rfl)
  · exact issueTile_cases (ok := fun c => unitsOk c u.val && decide ((4 ≤ cv.val) ↔ c.rn30 = true) &&
      decide (drainMode (getThread s s.cur) rm ≤ 4))
      ((Bool.and_eq_true_iff.trans (and_congr (Bool.and_eq_true_iff.trans (and_congr (unitsOk_iff _ _) decide_eq_true_iff))
        decide_eq_true_iff)).trans and_assoc)
  · intro cl c th left after M N place el num ready clean usable pos old noted adds hq hf hrun hout
    have h : EngineRuns s s.ev.cl e r := ⟨hq, hf, hrun, hout⟩
    have hready : ∀ {x}, ready x → OperandReady s s.ev.cl x := fun hx => ⟨hx.1, hx.2.1, hx.2.2⟩
    refine ⟨fun g hop => mcfg_configures h hop, fun u ac hop hleave hacc => mzero_clears h hleave hacc hop,
      fun x hx i j hi hj => loadOperand_spad s cl hx hi hj, fun hleave hbad hacc => ⟨?_, ?_, ?_⟩⟩
    · intro u ac rel a b xa xb hop hshapes ha hb hk
      exact mma_adds h hleave hbad hacc hop hshapes (hready ha.1) (hready hb.1) ha.2 hb.2 hk rfl
    · intro u ac rel a b m xa xb xm hop hshapes ha hb hm hk hk16 hp16
      refine ⟨fun hca hcb hlegal => ?_, fun i q hi h1 h2 hillegal hrecord hfirst => ?_⟩
      · exact mmasp_adds hleave hop hshapes (hready ha) (hready hb) (hready hm.1) hm.2 hk hk16 hp16 h hbad hacc hca hcb hlegal
      · exact exec_tileFault h hrecord
          (mmasp_stops hleave hop hshapes (hready ha) (hready hb) (hready hm.1) hm.2 hk hk16 hp16 hi h1 h2 hillegal hfirst)
    · intro u ac cv rm scale d hop h' sz out range hpass
      exact ⟨mdrain_spad h hleave hbad hacc hop hpass, fun s1 => mdrain_slot h hleave hbad hacc hop hpass⟩

end Sys2Proof.Proofs
end

section
/-!
The push of the vector instructions (R61, R66, R112, R158, R210, R264, R266). Every form is the shared operation `push` on the
operation it stands for; its cases are settled here once.
-/

namespace Sys2Proof.Proofs

open Sys2Proof Sys2Proof.Machine Sys2Proof.Safety Sys2Proof.Laws

/-- No fault that an operation meets at push goes to a user handler (R277). -/
theorem pushFault_unroutable {s : State} {t : Tid} {op : VOp} {f : FaultInfo} (h : pushFault s t op = some f) :
    f = causeInfo f.cause f.info ∧ routable t f.cause = false := by
  have hcause {c n : Nat} (hc : c = 0x02 ∨ c = 0x0C ∨ c = 0x11) (hf : causeInfo c n = f) :
      f = causeInfo f.cause f.info ∧ routable t f.cause = false := by
    subst hf
    refine ⟨rfl, ?_⟩
    rcases hc with rfl | rfl | rfl <;> simp [routable, causeInfo]
  cases op
  case pat d a b m n p0 p1 =>
    simp only [pushFault, patFault] at h
    split at h
    · exact hcause (.inr (.inl rfl)) (Option.some.inj h)
    · split at h
      · exact hcause (.inr (.inl rfl)) (Option.some.inj h)
      · split at h
        · exact hcause (.inl rfl) (Option.some.inj h)
        · split at h
          · exact hcause (.inr (.inl rfl)) (Option.some.inj h)
          · cases h
  case copy o =>
    obtain ⟨n, -, hf⟩ := Option.map_eq_some_iff.mp h
    exact hcause (.inr (.inr rfl)) hf
  all_goals cases h

section
variable {s : State} {len : Nat} {gs : List Reg} {mk : Thread → VOp}

theorem push_mcc (h : isMcc s.cur = true) : push s len gs mk = illegal s s.cur := by
  simp only [push, h, if_true]

/-- An instruction whose registers exist and hold their values goes on to the checks of the queues (R112). -/
theorem push_ready {op : VOp} (hm : isMcc s.cur = false) (hrun : mk (running s) = op)
    (hdrop : ∀ r, mk (dropLate (running s) r) = op) (hok : registersOk (running s) op = true) (hu : UsableFor s (gdestOf op) gs) :
    push s len gs mk =
      if ffPending (running s) then waitFor s s.cur .firstFault
      else
        match pushFault s s.cur op with
        | some f => raise s s.cur f true
        | none => if hasRoom s s.cur op then retire s (enqueue (dropFor (running s) (gdestOf op)) op) len else stall s := by
  have hrun' : mk (getThread s s.cur) = op := hrun
  have hok' : registersOk (getThread s s.cur) op = true := hok
  have hop : mk (dropFor (running s) (gdestOf op)) = op := by
    cases gdestOf op with
    | none => exact hrun
    | some r => exact hdrop r
  have hff : ffPending (dropFor (running s) (gdestOf op)) = ffPending (running s) := by
    cases gdestOf op <;> rfl
  simp only [push, hm, hrun', hok', withResult_usable hu, hop, hff]
  rfl

/-- How an instruction that stands for an operation is pushed, whatever its form. -/
theorem pushes_of_push {i : Instr} {op : VOp} (h : exec i s = push s len gs mk) (hrun : mk (running s) = op)
    (hdrop : ∀ r, mk (dropLate (running s) r) = op) : Pushes s i len gs op := by
  refine ⟨fun hm => ?_, fun hm hreg => ?_, fun hm hreg hu => ⟨fun hff => ?_, fun hff => ?_⟩⟩
  · rw [h, push_mcc hm]
    exact raises_illegal s
  · rw [h]
    exact push_illegalReg hm len gs mk (by rw [hrun]; exact hreg)
  · obtain ⟨t, ht, hst, hself, -, hrest⟩ := waitFor_next s s.cur .firstFault
    rw [h, push_ready hm hrun hdrop hreg hu, if_pos hff]
    refine ⟨t, ht, hst, ?_, hself⟩
    rw [hrest]
    exact bytesKept_refl s
  · rw [h, push_ready hm hrun hdrop hreg hu, if_neg (Bool.eq_false_iff.mp hff)]
    cases hf : pushFault s s.cur op with
    | some f =>
      obtain ⟨hinfo, hroute⟩ := pushFault_unroutable hf
      dsimp only
      rw [hinfo]
      exact raises_unroutable s hroute f.info true
    | none =>
      refine ⟨fun hroom => ?_, fun hfull => ?_⟩
      · dsimp only
        rw [if_pos ((hasRoom_iff s op).mpr hroom)]
        exact becomes_retire s _ len
      · dsimp only
        rw [if_neg fun c => hfull ((hasRoom_iff s op).mp c)]
        rfl

end

section
/-! The shapes that several instructions share. -/
variable {s : State} {i : Instr} {len : Nat} {gs : List Reg}

/-- An instruction that captures no g register. -/
theorem pushes_fixed {op : VOp} (h : exec i s = push s len gs fun _ => op) : Pushes s i len gs op :=
  pushes_of_push h rfl fun _ => rfl

/-- An instruction that captures g registers, as they read. -/
theorem pushes_reading (f : (Reg → Word) → VOp) (h : exec i s = push s len gs fun th => f (readG th)) :
    Pushes s i len gs (f (reg s)) :=
  pushes_of_push h rfl fun r => congrArg f (funext (readG_dropLate (running s) r))

variable {d a b : Reg} {md m : MaskF} {x : Bool}

theorem pushes_intVV {o : IntOp} (h : exec i s = intVV s o d a b m x) : Pushes s i 4 [] (.int o d a (.v b) m x) := pushes_fixed h

theorem pushes_intVS {o : IntOp} (h : exec i s = intVS s o d a b m x) : Pushes s i 4 [b] (.int o d a (.w (reg s b)) m x) :=
  pushes_reading (fun g => .int o d a (.w (g b)) m x) h

theorem pushes_intVI {o : IntOp} {n : Int} (h : exec i s = intVI s o d a n) : Pushes s i 4 [] (.int o d a (.imm n) 0 true) :=
  pushes_fixed h

theorem pushes_fpVV {o : FpOp} (h : exec i s = fpVV s o d a b m x) : Pushes s i 4 [] (.fp o d a (.v b) m x) := pushes_fixed h

theorem pushes_fpVS {o : FpOp} (h : exec i s = fpVS s o d a b m x) : Pushes s i 4 [b] (.fp o d a (.w (reg s b)) m x) :=
  pushes_reading (fun g => .fp o d a (.w (g b)) m x) h

theorem pushes_fpV {o : FpOp} (h : exec i s = fpV s o d a m x) : Pushes s i 4 [] (.fp o d a (.w 0) m x) := pushes_fixed h

theorem pushes_cmpVV {o : CmpOp} (h : exec i s = cmpVV s o md a b m) : Pushes s i 4 [] (.cmp o md a (.v b) m) := pushes_fixed h

theorem pushes_cmpVS {o : CmpOp} (h : exec i s = cmpVS s o md a b m) : Pushes s i 4 [b] (.cmp o md a (.w (reg s b)) m) :=
  pushes_reading (fun g => .cmp o md a (.w (g b)) m) h

theorem pushes_reduce {o : RedOp} (h : exec i s = reduce s o d a b m) : Pushes s i 4 [b] (.red o d a (reg s b) m) :=
  pushes_reading (fun g => .red o d a (g b) m) h

/-- A copy names the g register of its counter when it has one (R110, R213). -/
theorem pushes_copy {c : Fin 16} {q : Fin 4} {cnt : Bool} {dst shape pitch ctr vidx : Reg} (k : CopyKind)
    (bound : (Reg → Word) → Word) (fill : Byte) (src : (Reg → Word) → Word)
    (h : exec i s = push s 8 gs fun th => .copy {
      kind := k, cls := c.val, q := q, ctr := if cnt then some (readG th ctr) else none, bound := bound (readG th), fill := fill
      dst := readG th dst, src := src (readG th), shape := readG th shape, pitch := readG th pitch, vidx := vidx }) :
    Pushes s i 8 gs (.copy {
      kind := k, cls := c.val, q := q, ctr := if cnt then some (reg s ctr) else none, bound := bound (reg s), fill := fill
      dst := reg s dst, src := src (reg s), shape := reg s shape, pitch := reg s pitch, vidx := vidx }) :=
  pushes_reading (fun r => .copy {
    kind := k, cls := c.val, q := q, ctr := if cnt then some (r ctr) else none, bound := bound r, fill := fill
    dst := r dst, src := src r, shape := r shape, pitch := r pitch, vidx := vidx }) h

end

/-- Settles O35: every form is pushed as its operation by one of the shapes above. -/
theorem vectorIntegerInstructionsArePushed : Obligations.VectorIntegerInstructionsArePushed := by
  unfold Obligations.VectorIntegerInstructionsArePushed
  intro s d a b m x imm h k P
  exact
    ⟨pushes_intVV rfl, pushes_intVV rfl, pushes_intVV rfl, pushes_intVV rfl, pushes_intVV rfl, pushes_intVV rfl, pushes_intVV rfl,
     pushes_intVV rfl, pushes_intVV rfl, pushes_intVV rfl, pushes_intVV rfl, pushes_intVV rfl, pushes_intVV rfl, pushes_intVV rfl,
     pushes_intVV rfl, pushes_intVS rfl, pushes_intVS rfl, pushes_intVS rfl, pushes_intVS rfl, pushes_intVS rfl, pushes_intVS rfl,
     pushes_intVS rfl, pushes_intVS rfl, pushes_intVS rfl, pushes_intVS rfl, pushes_intVS rfl, pushes_intVS rfl, pushes_intVS rfl,
     pushes_intVS rfl, pushes_intVI rfl, pushes_intVI rfl, pushes_intVI rfl, pushes_intVI rfl, pushes_intVI rfl, pushes_intVI rfl,
     pushes_intVI rfl, pushes_intVI rfl, pushes_intVI rfl, pushes_fixed rfl⟩

/-- Settles O36: every form is pushed as its operation by one of the shapes above. -/
theorem vectorFloatInstructionsArePushed : Obligations.VectorFloatInstructionsArePushed := by
  unfold Obligations.VectorFloatInstructionsArePushed
  intro s d a b md m x t P
  exact
    ⟨pushes_fpVV rfl, pushes_fpVV rfl, pushes_fpVV rfl, pushes_fpVV rfl, pushes_fpVV rfl, pushes_fpVV rfl, pushes_fpVV rfl,
     pushes_fpVS rfl, pushes_fpVS rfl, pushes_fpVS rfl, pushes_fpVS rfl, pushes_fpVS rfl, pushes_fpVS rfl, pushes_fpVS rfl,
     pushes_fpV rfl, pushes_fpV rfl, pushes_fpV rfl, pushes_fpV rfl, pushes_fpV rfl, pushes_fixed rfl, pushes_cmpVV rfl,
     pushes_cmpVV rfl, pushes_cmpVV rfl, pushes_cmpVV rfl, pushes_cmpVV rfl, pushes_cmpVS rfl, pushes_cmpVS rfl, pushes_cmpVS rfl,
     pushes_cmpVS rfl, pushes_cmpVS rfl, pushes_cmpVS rfl⟩

/-- Settles O37: every form is pushed as its operation, its result's place in the read queue included. -/
theorem reductionsPermutationsAndMasksArePushed : Obligations.ReductionsPermutationsAndMasksArePushed := by
  unfold Obligations.ReductionsPermutationsAndMasksArePushed
  intro s d a b md ma mb m x P
  exact
    ⟨pushes_reduce rfl, pushes_reduce rfl, pushes_reduce rfl, pushes_reduce rfl, pushes_reduce rfl, pushes_reduce rfl,
     pushes_reading (fun g => .scan false d a (g b) m x) rfl, pushes_reading (fun g => .scan true d a (g b) m x) rfl,
     pushes_reading (fun g => .slide true d a (g b) m) rfl, pushes_reading (fun g => .slide false d a (g b) m) rfl,
     pushes_fixed rfl, pushes_fixed rfl, pushes_fixed rfl, pushes_reading (fun g => .bcast d (g b) m) rfl,
     pushes_reading (fun g => .extr d a (g b)) rfl, pushes_reading (fun g => .put d (g a) (g b)) rfl, pushes_fixed rfl,
     pushes_fixed rfl, pushes_reading (fun g => .topk d a (g b) m) rfl, pushes_fixed rfl, pushes_fixed rfl, pushes_fixed rfl,
     pushes_fixed rfl, pushes_fixed rfl, pushes_fixed rfl, pushes_reading (fun g => .mtos d ma (g b)) rfl,
     pushes_reading (fun g => .stom md (g a) (g b)) rfl, pushes_reading (fun g => .mset md (g a) (g b)) rfl⟩

/-- Settles O38: every form is pushed as its operation, on the values of its g registers. -/
theorem chainAndMemoryInstructionsArePushed : Obligations.ChainAndMemoryInstructionsArePushed := by
  unfold Obligations.ChainAndMemoryInstructionsArePushed
  intro s d a b g v m c f P
  exact
    ⟨pushes_reading (fun r => .load .unit d (r b) 0 0 m c.val f) rfl,
     pushes_reading (fun r => .load .strided d (r b) (r g) 0 m c.val f) rfl,
     pushes_reading (fun r => .load .indexed d (r b) 0 v m c.val f) rfl,
     pushes_reading (fun r => .store .unit d (r b) 0 0 m c.val) rfl,
     pushes_reading (fun r => .store .strided d (r b) (r g) 0 m c.val) rfl,
     pushes_reading (fun r => .store .indexed d (r b) 0 v m c.val) rfl, pushes_reading (fun r => .stxa d (r b) v m c.val f) rfl,
     pushes_fixed rfl, pushes_fixed rfl, pushes_reading (fun r => .trim d a (r g) (r b)) rfl,
     pushes_reading (fun r => .split d a (r b)) rfl, pushes_fixed rfl, pushes_fixed rfl, pushes_fixed rfl, pushes_fixed rfl⟩

/-- The scalar operands that a bound pattern reads, as bits 2 and 3 of its READS name them (R108, R251). -/
theorem patScalars_eq (s : State) (n : Fin 32) :
    let reads := match bindingOf (getCtx s (running s).ctx) n.val with
      | some x => x.reads
      | none => 0
    patScalars s n = (if reads.testBit 2 then [28] else []) ++ if reads.testBit 3 then [29] else [] := by
  have hs : getThread s s.cur = running s := rfl
  simp only [patScalars, hs, bitAt_eq_testBit]
  cases bindingOf (getCtx s (running s).ctx) n.val with
  | none => simp
  | some x => rfl

/-- Settles O39: every form is pushed as its operation; a pat names the scalar operands of its bound pattern, a copy its counter when
it has one. -/
theorem collatorTilePatternAndCopyInstructionsArePushed : Obligations.CollatorTilePatternAndCopyInstructionsArePushed := by
  unfold Obligations.CollatorTilePatternAndCopyInstructionsArePushed
  intro s d a b g e v ctr md m k c n q cnt fill P reads pats ctrs C
  have hpat : P (.pat d a b m n) 4 pats (.pat d a b m n (reg s 28) (reg s 29)) := by
    have h : Pushes s (.pat d a b m n) 4 (patScalars s n) _ := pushes_reading (fun r => .pat d a b m n (r 28) (r 29)) rfl
    rw [patScalars_eq] at h
    exact h
  exact
    ⟨pushes_reading (fun r => .clmap d a (r g) (r b)) rfl, pushes_fixed rfl, pushes_fixed rfl,
     pushes_reading (fun r => .clapply d a (r b)) rfl, pushes_reading (fun r => .clmask md (r a) (r b)) rfl, pushes_fixed rfl,
     pushes_fixed rfl, pushes_fixed rfl, pushes_fixed rfl, pushes_fixed rfl, hpat,
     pushes_copy .cpy (fun _ => 0) 0 (fun r => r a) rfl, pushes_copy .cpyg (fun r => r e) fill (fun r => r a) rfl,
     pushes_copy .cpys (fun r => r e) 0 (fun r => r a) rfl, pushes_copy .cpyf (fun _ => 0) fill (fun _ => 0) rfl⟩

end Sys2Proof.Proofs
end

section
/-!
The return from a user handler (R87, R90, R153, R276, R278): the thread's record with what the entry set aside, and the oldest entry
of the resumed queue at its starting index.
-/

namespace Sys2Proof.Proofs

open Sys2Proof Sys2Proof.Machine Sys2Proof.Safety Sys2Proof.Laws

theorem exec_xret (s : State) : exec .xret s = execXret s := rfl

/-- The values of PCARRY still to come into force after a handler, that of the handler last (R87). -/
def carriesBack (th : Thread) (f : Frozen) : List (Nat × Word) :=
  match f.carry with
  | some _ => f.carries ++ if f.wrote = true then [(th.nextStamp, th.pcarry)] else []
  | none => th.carryNext

/-- Those that no frozen entry precedes. -/
def carriesDue (th : Thread) (f : Frozen) : List (Nat × Word) :=
  (carriesBack th f).takeWhile fun q => f.vq.all fun e => decide (q.1 ≤ e.stamp)

/-- The record with what the handler's entry set aside, before the oldest entry takes its starting index. -/
def handlerLeft (s : State) (t : Tid) (f : Frozen) : Thread :=
  let th := getThread s t
  { th with
    vl := f.vl, vtype := f.vtype, maxvl := f.maxvl, clrec := f.clrec, m := th.m.set 46 f.m46, vq := f.vq.map maskAfresh, rq := f.rq
    out := f.out.map (retarget s t) ++ th.out, frozen := none, pc := th.xret, wait := .none
    pcarry := (match (carriesDue th f).getLast? with | some q => q.2 | none => f.carry.getD th.pcarry)
    carryNext := (carriesBack th f).drop (carriesDue th f).length }

@[simp] theorem maskAfresh_stamp (e : VEntry) : (maskAfresh e).stamp = e.stamp := by
  unfold maskAfresh
  split <;> rfl

theorem maskAfresh_eq (e : VEntry) : maskAfresh e = { e with snap := if isPat e.op then [] else e.snap } := by
  unfold maskAfresh
  split <;> rfl

/-- An entry that reads its mask anew does so once. -/
@[simp] theorem maskAfresh_maskAfresh (e : VEntry) : maskAfresh (maskAfresh e) = maskAfresh e := by
  simp only [maskAfresh_eq]
  split <;> rfl

@[simp] theorem resultSize_maskAfresh (e : VEntry) : resultSize (maskAfresh e) = resultSize e := by
  rw [maskAfresh_eq]
  rfl

theorem carryBack_pcarry (th : Thread) (f : Frozen) : (carryBack th f).pcarry = f.carry.getD th.pcarry := by
  unfold carryBack
  cases f.carry <;> rfl

theorem carryBack_carryNext (th : Thread) (f : Frozen) : (carryBack th f).carryNext = carriesBack th f := by
  unfold carryBack carriesBack
  cases f.carry <;> rfl

theorem carryBack_eq (th : Thread) (f : Frozen) :
    carryBack th f = { th with pcarry := f.carry.getD th.pcarry, carryNext := carriesBack th f } := by
  rw [← carryBack_pcarry, ← carryBack_carryNext]
  unfold carryBack
  cases f.carry <;> rfl

theorem carryForth_takes (th : Thread) :
    let due := th.carryNext.takeWhile fun q => th.vq.all fun e => decide (q.1 ≤ e.stamp)
    carryForth th = { th with
      pcarry := (match due.getLast? with | some q => q.2 | none => th.pcarry), carryNext := th.carryNext.drop due.length } := by
  intro due
  have hc : carryForth th = match due.getLast? with
    | some q => { th with pcarry := q.2, carryNext := th.carryNext.drop due.length }
    | none => th := rfl
  rw [hc]
  cases hl : due.getLast? with
  | some q => rfl
  | none =>
    rw [List.getLast?_eq_none_iff.mp hl]
    rfl

theorem leaveHandler_eq (s : State) (t : Tid) (f : Frozen) :
    leaveHandler s t f = resumeHead (putThread s t (handlerLeft s t f)) t := by
  have hstamps (q : Nat × Word) : ((f.vq.map maskAfresh).all fun e => decide (q.1 ≤ e.stamp)) = f.vq.all fun e => decide (q.1 ≤ e.stamp) := by
    simp [List.all_map, Function.comp_def]
  rw [leaveHandler, updThread, carryBack_eq, carryForth_takes]
  simp only [hstamps]
  rfl

section
variable {s : State} {t : Tid} {e : VEntry} {r : List VEntry}

theorem resumeHead_nil (h : (getThread s t).vq = []) : resumeHead s t = s := by
  simp only [resumeHead, h]

theorem othersKept_setHead (s : State) (t : Tid) (e : VEntry) : OthersKept t s (setHead s t e) := othersKept_upd s t _

/-- The entry that goes on. -/
def goesOn (e : VEntry) : VEntry := { maskAfresh e with fault := none, stalled := false }

/-- An entry that has not begun, or builds no chain, goes on at VSTART (R278). -/
theorem resumeHead_start (h : (getThread s t).vq = e :: r) (hf : e.begun = false ∨ isFresh e.op = false) :
    getThread (resumeHead s t) t = { getThread s t with vq := { goesOn e with prog := (getThread s t).vstart.toNat } :: r } := by
  have hb : (e.begun && isFresh e.op) = false := Bool.and_eq_false_iff.mpr hf
  simp only [resumeHead, h, hb, Bool.false_eq_true, if_false, setHead, getThread_updThread_self, List.drop_one, List.tail_cons]
  rfl

/-- One that builds a fresh result takes its destination's chain as its prefix, or to free it (R276). -/
theorem resumeHead_fresh {d : Reg} (h : (getThread s t).vq = e :: r) (hb : e.begun = true) (hf : isFresh e.op = true)
    (hd : destOf e.op = some d) :
    let th := getThread s t
    let ch := th.v[d.val]
    getThread (resumeHead s t) t = { th with
      v := th.v.set d.val Desc.empty
      vq := (if ch.part = true ∧ ch.excl = true then { goesOn e with part := { ch with part := false }, prog := elemCount ch.len (resultSize e) }
        else { goesOn e with part := Desc.empty, prog := 0, extra := if ch.len = 0 then e.extra else e.extra ++ [ch] }) :: r } := by
  intro th ch
  have hbf : (e.begun && isFresh e.op) = true := by rw [hb, hf]; rfl
  simp only [resumeHead, h, hbf, if_true, hd, setHead, Bool.and_eq_true]
  split <;> simp only [getThread_updThread_self, h, List.drop_one, List.tail_cons] <;> rfl

theorem othersKept_resumeHead (s : State) (t : Tid) : OthersKept t s (resumeHead s t) := by
  have hrefl : OthersKept t s s := ⟨fun _ _ => rfl, rfl, bytesKept_refl s⟩
  have hset (f : Thread → Thread) (e : VEntry) : OthersKept t s (setHead (updThread s t f) t e) :=
    othersKept_trans (othersKept_upd s t f) (othersKept_setHead _ t e)
  fun_cases resumeHead s t
  case case1 => exact hrefl
  case case2 => exact hrefl
  case case3 => exact hset _ _
  case case4 => exact hset _ _
  case case5 => exact othersKept_setHead s t _

end

/-- The thread's record alone changes as a handler is left. -/
theorem othersKept_leaveHandler (s : State) (t : Tid) (f : Frozen) : OthersKept t s (leaveHandler s t f) := by
  rw [leaveHandler_eq]
  exact othersKept_trans (othersKept_put s t _) (othersKept_resumeHead _ t)

theorem getThread_leaveHandler_nil {s : State} {t : Tid} {f : Frozen} (h : f.vq = []) :
    getThread (leaveHandler s t f) t = handlerLeft s t f := by
  rw [leaveHandler_eq, resumeHead_nil]
  · exact getThread_putThread_self s t _
  · rw [getThread_putThread_self]
    simp [handlerLeft, h]

section
variable {s : State} {t : Tid} {f : Frozen} {e : VEntry} {r : List VEntry}

@[simp] theorem maskAfresh_op (e : VEntry) : (maskAfresh e).op = e.op := by rw [maskAfresh_eq]

@[simp] theorem maskAfresh_begun (e : VEntry) : (maskAfresh e).begun = e.begun := by rw [maskAfresh_eq]

@[simp] theorem maskAfresh_extra (e : VEntry) : (maskAfresh e).extra = e.extra := by rw [maskAfresh_eq]

theorem goesOn_maskAfresh (e : VEntry) : goesOn (maskAfresh e) = goesOn e := by
  rw [goesOn, maskAfresh_maskAfresh]
  rfl

theorem vq_handlerLeft (h : f.vq = e :: r) :
    (getThread (putThread s t (handlerLeft s t f)) t).vq = maskAfresh e :: r.map maskAfresh := by
  rw [getThread_putThread_self]
  simp [handlerLeft, h]

theorem getThread_leaveHandler_start (h : f.vq = e :: r) (hs : e.begun = false ∨ isFresh e.op = false) :
    getThread (leaveHandler s t f) t = { handlerLeft s t f with
      vq := { goesOn e with prog := (getThread s t).vstart.toNat } :: r.map maskAfresh } := by
  rw [leaveHandler_eq, resumeHead_start (vq_handlerLeft h) (by simpa using hs), getThread_putThread_self, goesOn_maskAfresh]
  rfl

theorem getThread_leaveHandler_fresh {d : Reg} (h : f.vq = e :: r) (hb : e.begun = true) (hf : isFresh e.op = true)
    (hd : destOf e.op = some d) :
    let ch := (getThread s t).v[d.val]
    getThread (leaveHandler s t f) t = { handlerLeft s t f with
      v := (getThread s t).v.set d.val Desc.empty
      vq := (if ch.part = true ∧ ch.excl = true then { goesOn e with part := { ch with part := false }, prog := elemCount ch.len (resultSize e) }
        else { goesOn e with part := Desc.empty, prog := 0, extra := if ch.len = 0 then e.extra else e.extra ++ [ch] }) ::
          r.map maskAfresh } := by
  intro ch
  rw [leaveHandler_eq, resumeHead_fresh (vq_handlerLeft h) (by simpa using hb) (by simpa using hf) (by simpa using hd),
    getThread_putThread_self, goesOn_maskAfresh, resultSize_maskAfresh, maskAfresh_extra]
  rfl

end

section
variable {s : State} {f : Frozen} (hf : (running s).frozen = some f)
include hf

theorem xret_misaligned (h : (running s).xret.toNat % 2 = 1) : Raises s (exec .xret s) 0x08 (running s).xret.toNat false := by
  have hf' : (getThread s s.cur).frozen = some f := hf
  have h' : (getThread s s.cur).xret.toNat % 2 = 1 := h
  simp only [exec_xret, execXret, hf', h', if_true]
  exact raises_unroutable s (by simp [routable]) _ _

section
variable (hx : (running s).xret.toNat % 2 = 0)
include hx

theorem exec_xret_even : exec .xret s = if handlerDone (running s) then .next (leaveHandler s s.cur f) else waitFor s s.cur .xret := by
  have hf' : (getThread s s.cur).frozen = some f := hf
  have h' : ¬ (getThread s s.cur).xret.toNat % 2 = 1 := by
    change ¬ (running s).xret.toNat % 2 = 1
    omega
  simp only [exec_xret, execXret, hf', if_neg h']
  rfl

theorem xret_becomes (hq : (running s).vq = []) (hr : (running s).rq = []) {th : Thread}
    (h : getThread (leaveHandler s s.cur f) s.cur = th) : Becomes s (exec .xret s) th := by
  have hdone : handlerDone (running s) = true := by rw [handlerDone, hq, hr]; rfl
  rw [exec_xret_even hf hx, if_pos hdone]
  exact ⟨_, rfl, h, othersKept_leaveHandler s s.cur f⟩

theorem xret_waits (h : (running s).vq ≠ [] ∨ (running s).rq ≠ []) :
    ∃ t, exec .xret s = .next t ∧ t.stalled = true ∧ getThread t s.cur = { running s with wait := .xret } := by
  have hdone : ¬ handlerDone (running s) = true := by
    simp only [handlerDone, Bool.and_eq_true, List.isEmpty_iff]
    tauto
  obtain ⟨t, ht, hst, hself, -, -⟩ := waitFor_next s s.cur .xret
  exact ⟨t, by rw [exec_xret_even hf hx, if_neg hdone, ht], hst, hself⟩

end

end

/-- Settles O16: the handler is left with what its entry set aside, and the oldest frozen entry goes on as R276 and R278 say. -/
theorem handlerReturnRestores : Obligations.HandlerReturnRestores := by
  unfold Obligations.HandlerReturnRestores
  intro s th
  refine ⟨fun h => ?_, fun f hf => ⟨xret_misaligned hf, fun hx hq hr => ?_, fun hx => xret_waits hf hx⟩⟩
  · have h' : (getThread s s.cur).frozen = none := h
    simp only [exec_xret, execXret, h']
    exact raises_illegal s
  intro carries due back
  constructor
  · intro h
    refine xret_becomes hf hx hq hr ((getThread_leaveHandler_nil h).trans ?_)
    calc handlerLeft s s.cur f = { back with vq := [] } := by
          simp only [handlerLeft, h]
          rfl
      _ = back := congrArg (fun l => { back with vq := l }) hq.symm
  · intro e r h anew e0 r'
    have he : goesOn e = e0 := by
      rw [goesOn, maskAfresh_eq]
    have hr' : r.map maskAfresh = r' := List.map_congr_left fun e _ => maskAfresh_eq e
    refine ⟨fun hb => ?_, fun d hb hfr hd => ?_⟩
    · refine xret_becomes hf hx hq hr ((getThread_leaveHandler_start h hb).trans ?_)
      rw [he, hr']
      rfl
    · intro ch away
      have hl := getThread_leaveHandler_fresh (s := s) (t := s.cur) h hb hfr hd
      simp only [he, hr'] at hl
      refine ⟨fun hp hx' => ?_, fun hp => ?_⟩
      · have hkeep : (getThread s s.cur).v[d.val].part = true ∧ (getThread s s.cur).v[d.val].excl = true := ⟨hp, hx'⟩
        rw [if_pos hkeep] at hl
        exact xret_becomes hf hx hq hr hl
      · have hfree : ¬ ((getThread s s.cur).v[d.val].part = true ∧ (getThread s s.cur).v[d.val].excl = true) := fun c =>
          hp.elim (Bool.eq_false_iff.mp · c.1) (Bool.eq_false_iff.mp · c.2)
        rw [if_neg hfree] at hl
        exact xret_becomes hf hx hq hr hl

end Sys2Proof.Proofs
end


section
/-!
The waits of a thread as they end (R87, R144, R151 to R154, R259, R266, R281, R282).
-/

namespace Sys2Proof.Proofs

open Sys2Proof Sys2Proof.Machine Sys2Proof.Safety Sys2Proof.Laws

/-! Tables in the order of their keys, when an entry is taken out. -/

theorem mapDel_eq_filter {α : Type} {m : SMap α} (h : Rising m) (k : Nat) : mapDel m k = m.filter fun p => decide (p.1 ≠ k) := by
  induction m with
  | nil => rfl
  | cons p r ih =>
    obtain ⟨hfirst, hrest⟩ := List.pairwise_cons.1 h
    have hkept (hle : k ≤ p.1) : r.filter (fun q => decide (q.1 ≠ k)) = r :=
      List.filter_eq_self.mpr fun q hq => decide_eq_true (by have := hfirst q hq; omega)
    obtain ⟨a, w⟩ := p
    rw [mapDel]
    split_ifs with h1 h2
    · subst h1
      rw [List.filter_cons_of_neg (by simp), hkept (Nat.le_refl _)]
    · rw [List.filter_cons_of_pos (by simpa using h1), hkept (Nat.le_of_lt h2)]
    · rw [List.filter_cons_of_pos (by simpa using h1), ih hrest]

theorem rising_mapDel {α : Type} {m : SMap α} (h : Rising m) (k : Nat) : Rising (mapDel m k) := by
  rw [mapDel_eq_filter h]
  exact rising_filter h _

theorem mapFind_mapDel {α : Type} {m : SMap α} (h : Rising m) (k j : Nat) :
    mapFind (mapDel m k) j = if j = k then none else mapFind m j := by
  refine Option.ext fun v => ?_
  rw [mapFind_eq_some_iff (rising_mapDel h k), mapDel_eq_filter h]
  split_ifs with hj
  · simp [hj]
  · rw [mapFind_eq_some_iff h]
    simp [hj]

theorem exec_yieldEnd (s : State) : exec .yieldEnd s = .next (endWait s s.ev.tid .yield true) := rfl
theorem exec_ffStallEnd (s : State) :
    exec .ffStallEnd s = .next (endWait s s.ev.tid .firstFault (!ffPending (getThread s s.ev.tid))) := rfl
theorem exec_exitPerform (s : State) : exec .exitPerform s = .next (exitStep s s.ev.tid) := rfl
theorem exec_xretResume (s : State) : exec .xretResume s = .next (xretStep s s.ev.tid) := rfl
theorem exec_barrierPhaseComplete (s : State) :
    exec .barrierPhaseComplete s = .next (barrierStep s s.ev.tid (Fin.ofNat 16 s.ev.n)) := rfl
theorem exec_leaveGrant (s : State) : exec .leaveGrant s = .next (grantLeave s s.ev.cl) := rfl
theorem exec_casPriorityExpiry (s : State) : exec .casPriorityExpiry s = .next (casListed s s.ev.tid s.ev.k false) := rfl
theorem exec_powerBudgetSet (s : State) : exec .powerBudgetSet s = .next (budgetStep s s.ev.cl s.ev.n) := rfl
theorem exec_powcapSet (s : State) : exec .powcapSet s = .next (powcapStep s s.ev.cl s.ev.n) := rfl

theorem endWait_ends {s : State} {t : Tid} {w : Wait} {now : Bool} (hw : (getThread s t).wait = w) (hn : now = true) :
    endWait s t w now = updThread s t fun th => { th with wait := .none } := if_pos ⟨hw, hn⟩

theorem endWait_stays (s : State) (t : Tid) (w : Wait) : endWait s t w false = s := if_neg fun h => Bool.false_ne_true h.2

/-- An exit whose drains are done ends the iteration (R151). -/
theorem exitStep_performs {s : State} {t : Tid} (hw : (getThread s t).wait = .exit) (hrun : (getThread s t).tstate = .running)
    (hd : exitDrained s t = true) : exitStep s t = performExit s t := if_pos ⟨hw, decide_eq_true hrun, hd⟩

/-- What a handler without frozen entries leaves in force of PCARRY (R87). -/
theorem handlerLeft_empty {s : State} {t : Tid} {f : Frozen} (h : f.vq = []) :
    let th := getThread s t
    handlerLeft s t f =
      { th with vl := f.vl, vtype := f.vtype, maxvl := f.maxvl, clrec := f.clrec, m := th.m.set 46 f.m46, rq := f.rq, vq := []
                out := f.out.map (retarget s t) ++ th.out, frozen := none, pc := th.xret, wait := .none, carryNext := []
                pcarry := (match f.carry with
                  | none => (match th.carryNext.getLast? with | some q => q.2 | none => th.pcarry)
                  | some w => if f.wrote then th.pcarry else match f.carries.getLast? with | some q => q.2 | none => w) } := by
  intro th
  have hdue : carriesDue th f = carriesBack th f := by simp [carriesDue, h]
  have hcarry : (match (carriesBack th f).getLast? with | some q => q.2 | none => f.carry.getD th.pcarry) = match f.carry with
      | none => (match th.carryNext.getLast? with | some q => q.2 | none => th.pcarry)
      | some w => if f.wrote then th.pcarry else match f.carries.getLast? with | some q => q.2 | none => w := by
    unfold carriesBack
    cases f.carry with
    | none => rfl
    | some w =>
      cases f.wrote
      · simp
      · simp
  rw [handlerLeft, hdue, hcarry, List.drop_length, h]
  rfl

theorem xretStep_resumes {s : State} {t : Tid} {f : Frozen} (hf : (getThread s t).frozen = some f) (hw : (getThread s t).wait = .xret)
    (hrun : (getThread s t).tstate = .running) (hq : (getThread s t).vq = []) (hr : (getThread s t).rq = []) :
    xretStep s t = leaveHandler s t f := by
  have hgo : (decide ((getThread s t).wait = .xret) && vectorActive (getThread s t) && handlerDone (getThread s t)) = true := by
    simp [hw, vectorActive, hrun, handlerDone, hq, hr]
  simp only [xretStep, hf, hgo, if_true]

/-! The end of a barrier's phase. -/

theorem nodup_clusterTids (cl : Fin 64) : (clusterTids cl).Nodup := by
  rw [clusterTids, List.nodup_append]
  refine ⟨?_, List.nodup_singleton _, ?_⟩
  · rw [List.nodup_flatMap]
    refine ⟨fun co _ => nodup_coreTids cl co, ?_⟩
    simp [allCores, coreTids, Function.onFun, List.disjoint_left]
  · intro t ht u hu
    obtain ⟨co, -, hco⟩ := List.mem_flatMap.mp ht
    rw [List.mem_singleton.mp hu]
    simp only [coreTids, List.mem_cons, List.not_mem_nil, or_false] at hco
    rcases hco with rfl | rfl | rfl | rfl <;> exact Tid.noConfusion

theorem barrierStep_waits {s : State} {t : Tid} {n : Fin 16}
    (h : barrierCount (launchOf s (getThread s t)) n.val = 0 ∨
      (mapGet [] (getCluster s (clusterOf t)).bars (barKey (getThread s t) n.val)).length < barrierCount (launchOf s (getThread s t)) n.val) :
    barrierStep s t n = s := if_neg (by omega)

theorem barrierStep_ends {s : State} {t : Tid} {n : Fin 16}
    (h : barrierCount (launchOf s (getThread s t)) n.val ≠ 0 ∧
      barrierCount (launchOf s (getThread s t)) n.val ≤ (mapGet [] (getCluster s (clusterOf t)).bars (barKey (getThread s t) n.val)).length) :
    barrierStep s t n = phaseDone s (clusterOf t) (getThread s t) n
      (mapGet [] (getCluster s (clusterOf t)).bars (barKey (getThread s t) n.val)) := if_pos h

/-- The threads that a phase's end lets go (R259). -/
def letGo (s : State) (cl : Fin 64) (th : Thread) (n : Fin 16) (arrived : List Nat) : List Tid :=
  (waitingTids s cl th.launch n).filter fun t => arrived.contains (arrivalOf t (getThread s t))

theorem mem_letGo {s : State} {cl : Fin 64} {th : Thread} {n : Fin 16} {arrived : List Nat} {u : Tid} :
    u ∈ letGo s cl th n arrived ↔ u ∈ clusterTids cl ∧ (getThread s u).launch = th.launch ∧ (getThread s u).wait = .barrier n ∧
      arrivalOf u (getThread s u) ∈ arrived := by
  simp only [letGo, waitingTids, List.mem_filter, waitsAt, Bool.and_eq_true, decide_eq_true_eq, List.contains_iff_mem, and_assoc]

theorem phaseDone_eq (s : State) (cl : Fin 64) (th : Thread) (n : Fin 16) (arrived : List Nat) :
    ∃ c, phaseDone s cl th n arrived = (letGo s cl th n arrived).foldl proceed (putCluster s cl c) := ⟨_, rfl⟩

theorem getThread_phaseDone (s : State) (cl : Fin 64) (th : Thread) (n : Fin 16) (arrived : List Nat) (u : Tid) :
    getThread (phaseDone s cl th n arrived) u = if u ∈ letGo s cl th n arrived then
      { getThread s u with wait := .none, early := [], pc := (getThread s u).pc + 4 } else getThread s u := by
  obtain ⟨c, hc⟩ := phaseDone_eq s cl th n arrived
  have hnodup : (letGo s cl th n arrived).Nodup := ((nodup_clusterTids cl).filter _).filter _
  rw [hc]
  split_ifs with hu
  · exact (getThread_foldl_mem (fun th => advance { th with wait := .none, early := [] } 4) hnodup _ hu).trans rfl
  · exact (getThread_foldl_other (fun t => t) (fun _ th => advance { th with wait := .none, early := [] } 4) _ _
      fun a ha (e : u = a) => hu (e ▸ ha)).trans rfl

theorem phaseDone_frame (s : State) (cl : Fin 64) (th : Thread) (n : Fin 16) (arrived : List Nat) :
    phaseDone s cl th n arrived =
      { s with threads := (phaseDone s cl th n arrived).threads, clusters := (phaseDone s cl th n arrived).clusters } := by
  obtain ⟨c, hc⟩ := phaseDone_eq s cl th n arrived
  have h := foldl_updThread_frame (fun t => t) (fun _ th => advance { th with wait := .none, early := [] } 4)
    (letGo s cl th n arrived) (putCluster s cl c)
  obtain ⟨threads, ht⟩ : ∃ threads, phaseDone s cl th n arrived = { putCluster s cl c with threads := threads } := ⟨_, hc.trans h⟩
  rw [ht]
  rfl

/-! Leave. -/

theorem canGrant_iff (c : Cluster) (p : LeaveParty) (n : Nat) :
    canGrant c p n = true ↔
      (c.held.map fun x => x.2).sum + n ≤ c.budget ∨ (c.budget < n ∧ ∀ x ∈ c.held, partyOwner x.1 = partyOwner p) := by
  rw [canGrant, Bool.or_eq_true, Bool.and_eq_true, decide_eq_true_eq, decide_eq_true_eq, List.all_eq_true, unitsHeld]
  simp only [decide_eq_true_eq]

theorem grantLeave_grants {s : State} {cl : Fin 64} {u : Tid} {n k : Nat} {r : List (LeaveParty × Nat)}
    (hw : (getCluster s cl).waiting = (.thread u, n) :: r) (hg : canGrant (getCluster s cl) (.thread u) n = true)
    (hk : (getThread s u).wait = .leave k) :
    let c := getCluster s cl
    grantLeave s cl = putThread (putCluster s cl { c with held := c.held ++ [(.thread u, n)], waiting := r }) u
      (advance { getThread s u with wait := .none, leaveKinds := k } 4) := by
  simp only [grantLeave, hw, hg, if_true, leaveGranted, updThread, getThread_putCluster, hk]

/-! Watched addresses. -/

/-- A thread leaves the list of an address, and no other list changes (R144). -/
theorem casLists_casListed {s : State} (h : Rising s.casLists) (t : Tid) (key k : Nat) :
    mapGet [] (casListed s t key false).casLists k =
      if k = key then (mapGet [] s.casLists k).filter (fun x => decide (x ≠ t)) else mapGet [] s.casLists k := by
  simp only [casListed, Bool.false_eq_true, if_false]
  by_cases hk : k = key
  · subst hk
    rw [if_pos rfl]
    split
    next he =>
      rw [List.isEmpty_iff.mp he, mapGet, mapFind_mapDel h, if_pos rfl]
      rfl
    next => exact mapGet_mapPut_self _ _ _ _
  · rw [if_neg hk]
    split
    next => rw [mapGet, mapFind_mapDel h, if_neg hk, mapGet]
    next => exact mapGet_mapPut_other _ _ _ hk

/-- A change of one cluster's record. -/
theorem updCluster_only (s : State) (cl : Fin 64) (f : Cluster → Cluster) :
    updCluster s cl f = { s with clusters := (updCluster s cl f).clusters } ∧
      getCluster (updCluster s cl f) cl = f (getCluster s cl) ∧ ∀ k, k ≠ cl → getCluster (updCluster s cl f) k = getCluster s k :=
  ⟨rfl, getCluster_updCluster_self s cl f, fun _ hk => getCluster_putCluster_other s _ hk⟩

/-- Settles O50: each wait's event does what its rule says of the thread, the barrier, the request or the list that it names. -/
theorem waitsOfAThreadEnd : Obligations.WaitsOfAThreadEnd := by
  unfold Obligations.WaitsOfAThreadEnd
  intro s t th cl B K
  refine ⟨fun hw => ?_, fun hw hff => ?_, fun hw hff => ?_, fun hw hrun hd => ?_, fun f hf hfq hw hrun hq hr => ?_, ?_, ?_,
    fun hs => ?_, ?_, ?_⟩
  · exact ⟨_, (exec_yieldEnd s).trans (congrArg _ (endWait_ends hw rfl)), getThread_updThread_self s t _, othersKept_upd s t _⟩
  · have hnow : (!ffPending (getThread s s.ev.tid)) = true := by rw [Bool.not_eq_true']; exact hff
    exact ⟨_, (exec_ffStallEnd s).trans (congrArg _ (endWait_ends hw hnow)), getThread_updThread_self s t _, othersKept_upd s t _⟩
  · have hnow : (!ffPending (getThread s s.ev.tid)) = false := by rw [Bool.not_eq_false']; exact hff
    rw [exec_ffStallEnd, hnow, endWait_stays]
  · obtain ⟨hframe, hself, -, -, -⟩ := iterationEnded_performExit s t
    refine ⟨_, (exec_exitPerform s).trans (congrArg _ (exitStep_performs hw hrun hd)), ?_, ?_⟩
    · obtain ⟨l, k, c, h⟩ := hframe
      rw [h]
      exact bytesKept_refl s
    · obtain ⟨b, h⟩ := hself
      rw [h]
  · refine ⟨_, (exec_xretResume s).trans (congrArg _ (xretStep_resumes hf hw hrun hq hr)), ?_, othersKept_leaveHandler s t f⟩
    exact (getThread_leaveHandler_nil hfq).trans (handlerLeft_empty hfq)
  · intro n hn arrived count name counted
    have hfin : Fin.ofNat 16 s.ev.n = n := by
      rw [hn]
      exact Fin.ofNat_val_eq_self n
    refine ⟨fun h => ?_, fun h0 hlen => ?_⟩
    · rw [exec_barrierPhaseComplete, hfin]
      exact congrArg _ (barrierStep_waits h)
    · have hstep : barrierStep s t n = phaseDone s cl th n arrived := barrierStep_ends ⟨Nat.ne_of_gt h0, hlen⟩
      refine ⟨_, (exec_barrierPhaseComplete s).trans (congrArg _ ((congrArg _ hfin).trans hstep)), fun u hu => ?_, fun u hu => ?_,
        phaseDone_frame s cl th n arrived⟩
      · rw [getThread_phaseDone, if_pos (mem_letGo.mpr hu)]
      · rw [getThread_phaseDone, if_neg (mt mem_letGo.mp hu)]
  · intro u n r k c hc hg hk
    refine ⟨_, (exec_leaveGrant s).trans (congrArg _ (grantLeave_grants hc ((canGrant_iff _ _ _).mpr hg) hk)), ?_, ?_, rfl⟩
    · rw [getCluster_putThread, getCluster_putCluster_self]
    · rw [getThread_putThread_self]
      rfl
  · exact ⟨_, exec_casPriorityExpiry s, rfl, fun k => casLists_casListed hs t s.ev.k k⟩
  · exact ⟨_, exec_powerBudgetSet s, updCluster_only s s.ev.cl _⟩
  · exact ⟨_, exec_powcapSet s, updCluster_only s s.ev.cl _⟩

end Sys2Proof.Proofs
end


section
/-!
The machine right after reset (R349, R384, R386; log 6, log 7).
-/

namespace Sys2Proof.Proofs

open Sys2Proof Sys2Proof.Machine Sys2Proof.Safety Sys2Proof.Laws

theorem natBytes_zero (n : Nat) : natBytes n 0 = List.replicate n 0 := by
  induction n with
  | zero => rfl
  | succ n ih =>
    rw [List.replicate_succ, ← ih]
    rfl

theorem flatMap_zeros (l : List Nat) (n : Nat) :
    (l.flatMap fun _ => List.replicate n (0 : Byte)) = List.replicate (l.length * n) 0 := by
  induction l with
  | nil => simp
  | cons _ r ih =>
    rw [List.flatMap_cons, ih, List.replicate_append_replicate, List.length_cons, Nat.succ_mul, Nat.add_comm]

/-- The health block of the first update: no channel and no leaf retired, 1,024 GB in service, every other field 0 (R386). -/
theorem healthBytes_reset : healthBytes State.reset = freshBlock := by
  have hmask : channelMask State.reset.root = 0 := by decide
  have hretired (k : Nat) : leavesRetired State.reset.root k = 0 := rfl
  have hlink (p : Nat) : linkStat (getLink State.reset p) = 0 := rfl
  have hcount : natBytes 8 (4 * (256 - State.reset.root.retiredChannels.length)) = 0 :: 4 :: List.replicate 6 0 := by decide
  have hzero : State.reset.root.retiredLeaves.length = 0 ∧ State.reset.health.uncorrected = 0 ∧ State.reset.health.corrected = 0 ∧
      State.reset.root.svn = 0 ∧ State.reset.root.rollback = 0 := ⟨rfl, rfl, rfl, rfl, rfl⟩
  obtain ⟨h1, h2, h3, h4, h5⟩ := hzero
  rw [healthBytes, hmask, hcount, h1, h2, h3, h4, h5]
  simp only [hretired, hlink, natBytes_zero, flatMap_zeros, upFrom_zero_eq_range, List.length_range, List.append_assoc, List.cons_append,
    List.replicate_append_replicate, freshBlock, List.replicate_succ' (n := 32), List.nil_append]

/-- Settles O60, from the tables of the reset state, all empty, and the health block. -/
theorem resetLeavesAnEmptyDevice : Obligations.ResetLeavesAnEmptyDevice := by
  have hheld (t : Tid) : lheld (ownCore State.reset t) (threadOf t) = 0 := by
    cases t <;> rfl
  have hthread (t : Tid) : getThread State.reset t = Thread.reset := rfl
  refine ⟨memoriesOk_reset, healthBytes_reset.symm, fun t => ?_, rfl, rfl, rfl, fun _ => ⟨rfl, rfl, rfl⟩, fun _ => rfl,
    fun _ => rfl, fun _ => ⟨rfl, rfl⟩, fun _ _ => ⟨rfl, rfl⟩, fun t => ⟨rfl, rfl, rfl, rfl, rfl, rfl, fun r => ?_, fun d => ?_⟩⟩
  · simp [csrValue, hheld]
  · simp [readG, hthread, Thread.reset]
  · simp [hthread, Thread.reset]

end Sys2Proof.Proofs
end

section
/-!
The reclaim walker's step (R70, R75, R384; log 8): the leaves of a chain that nobody holds, up to four of them.
-/

namespace Sys2Proof.Proofs

open Sys2Proof Sys2Proof.Machine Sys2Proof.Safety Sys2Proof.Laws

theorem rising_mapPut {α : Type} {m : SMap α} (h : Rising m) (k : Nat) (v : α) : Rising (mapPut m k v) := by
  induction m with
  | nil => exact List.pairwise_singleton _ _
  | cons p r ih =>
    obtain ⟨a, w⟩ := p
    obtain ⟨hfirst, hrest⟩ := List.pairwise_cons.1 h
    rw [mapPut]
    split_ifs with h1 h2
    · refine List.pairwise_cons.2 ⟨fun q hq => ?_, h⟩
      rcases List.mem_cons.1 hq with rfl | hq
      · exact h1
      · exact Nat.lt_trans h1 (hfirst q hq)
    · subst h2
      exact List.pairwise_cons.2 ⟨hfirst, hrest⟩
    · refine List.pairwise_cons.2 ⟨fun q hq => ?_, ih hrest⟩
      rcases mapPut_mem hq with rfl | hq
      · dsimp only
        omega
      · exact hfirst q hq

theorem exec_reclaimStep (s : State) : exec .reclaimStep s = .next (updCore s s.ev.cl s.ev.co Machine.reclaimStep) := rfl

section
variable {c : Core} {x n : Nat} {l : Leaf}

theorem leafAt_of_find (h : mapFind c.leaves x = some l) : leafAt c x = l := by
  rw [leafAt, mapGet, h, Option.getD_some]

theorem reclaimFrom_held (hx : mapFind c.leaves x = some l) (h : l.refs ≠ 0) : reclaimFrom (n + 1) c x = (c, none) := by
  simp only [reclaimFrom, hx, if_pos h]

theorem reclaimFrom_end (hx : mapFind c.leaves x = some l) (h : l.refs = 0) (hl : l.last = true ∨ l.hdrPoison = true) :
    reclaimFrom (n + 1) c x = (freeOne c x, none) := by
  have hend : (l.last || l.hdrPoison) = true := by rcases hl with hl | hl <;> simp [hl]
  simp only [reclaimFrom, hx, hend, if_true, h, ne_eq, not_true_eq_false, if_false]

/-- The pool once a leaf is free and its successor has a holder less. -/
def passOn (c : Core) (x y : Nat) (m : Leaf) : Core := putLeaf (freeOne c x) y { m with refs := m.refs - 1 }

theorem reclaimFrom_next {m : Leaf} (hr : Rising c.leaves) (hx : mapFind c.leaves x = some l) (h : l.refs = 0) (hl : l.last = false)
    (hp : l.hdrPoison = false) (hne : l.next ≠ x) (hm : mapFind c.leaves l.next = some m) :
    reclaimFrom (n + 1) c x = reclaimFrom n (passOn c x l.next m) l.next := by
  have hfind : mapFind (freeOne c x).leaves l.next = some m := by
    rw [freeOne, mapFind_mapDel hr, if_neg hne, hm]
  simp only [reclaimFrom, hx, h, hl, hp, hfind, leafAt, mapGet, passOn, ne_eq, not_true_eq_false, if_false, Bool.or_false,
    Bool.false_eq_true, Option.isSome_some, if_true, Option.getD_some]

theorem rising_passOn {y : Nat} {m : Leaf} (hr : Rising c.leaves) : Rising (passOn c x y m).leaves :=
  rising_mapPut (rising_mapDel hr x) _ _

theorem mapFind_passOn {y : Nat} {m : Leaf} (hr : Rising c.leaves) (hne : y ≠ x) (z : Nat) :
    mapFind (passOn c x y m).leaves z =
      if z = x then none else if z = y then some { m with refs := m.refs - 1 } else mapFind c.leaves z := by
  rw [passOn, putLeaf]
  by_cases hz : z = y
  · subst hz
    rw [mapFind_mapPut_self, if_neg hne, if_pos rfl]
  · rw [mapFind_mapPut_other _ _ hz, freeOne, mapFind_mapDel hr, if_neg hz]

end

/-- A chain's leaves from its head on, each with its successor. -/
def Linked (c : Core) (xs : List Nat) : Prop :=
  ∀ i y z, xs[i]? = some y → xs[i + 1]? = some z → (leafAt c y).last = false ∧ (leafAt c y).hdrPoison = false ∧ (leafAt c y).next = z

/-- The core once these leaves are free. -/
def Freed (c c' : Core) (xs : List Nat) (f : Nat → Option Leaf) : Prop :=
  c' = { c with leaves := c'.leaves, freed := c.freed ++ xs.filter fun y => !c.retired.contains y } ∧
    ∀ y, mapFind c'.leaves y = if y ∈ xs then none else f y

theorem freeOne_eq (c : Core) (x : Nat) :
    freeOne c x = { c with leaves := mapDel c.leaves x, freed := c.freed ++ [x].filter fun y => !c.retired.contains y } := by
  rw [freeOne]
  by_cases h : x ∈ c.retired <;> simp [h]

theorem linked_tail {c : Core} {x : Nat} {xs : List Nat} (h : Linked c (x :: xs)) : Linked c xs := fun i => h (i + 1)

theorem leafAt_passOn {c : Core} {x y z : Nat} {m : Leaf} (hr : Rising c.leaves) (hne : y ≠ x) (hm : mapFind c.leaves y = some m)
    (hz : z ≠ x) : ∃ n, leafAt (passOn c x y m) z = { leafAt c z with refs := n } := by
  simp only [leafAt, mapGet, mapFind_passOn hr hne, if_neg hz]
  split_ifs with h
  · subst h
    rw [hm]
    exact ⟨_, rfl⟩
  · exact ⟨_, rfl⟩

theorem linked_passOn {c : Core} {x y : Nat} {m : Leaf} {xs : List Nat} (hr : Rising c.leaves) (hne : y ≠ x)
    (hm : mapFind c.leaves y = some m) (hx : x ∉ xs) (h : Linked c xs) : Linked (passOn c x y m) xs := by
  intro i z w hz hw
  obtain ⟨n, hn⟩ := leafAt_passOn hr hne hm fun e : z = x => hx (e ▸ List.mem_of_getElem? hz)
  rw [hn]
  exact h i z w hz hw

/-- A holder less for one leaf. -/
def fewerAt (f : Nat → Option Leaf) (q : Nat) (m : Leaf) (y : Nat) : Option Leaf :=
  if y = q then some { m with refs := m.refs - 1 } else f y

theorem freed_passOn {c : Core} {x q : Nat} {m : Leaf} (hr : Rising c.leaves) (hne : q ≠ x) :
    Freed c (passOn c x q m) [x] (fewerAt (mapFind c.leaves) q m) := by
  refine ⟨?_, fun y => ?_⟩
  · rw [passOn, freeOne_eq]
    rfl
  · rw [mapFind_passOn hr hne, fewerAt]
    simp only [List.mem_singleton]

/-- One leaf more at the front of those that are free. -/
theorem freed_cons {c c' : Core} {x y q : Nat} {m w : Leaf} {ys : List Nat} (hr : Rising c.leaves) (hne : y ≠ x)
    (hy : y ∈ ys) (hq : q ≠ x) (h : Freed (passOn c x y w) c' ys (fewerAt (mapFind (passOn c x y w).leaves) q m)) :
    Freed c c' (x :: ys) (fewerAt (mapFind c.leaves) q m) := by
  obtain ⟨hc, hfind⟩ := h
  refine ⟨?_, fun z => ?_⟩
  · rw [hc, passOn, freeOne_eq]
    simp only [putLeaf, ← List.filter_append, List.append_assoc, List.singleton_append]
  · rw [hfind, fewerAt, fewerAt, mapFind_passOn hr hne]
    simp only [List.mem_cons]
    by_cases hz : z = x
    · subst hz
      simp [Ne.symm hq]
    · by_cases hzy : z ∈ ys
      · simp [hzy]
      · have : z ≠ y := fun e => hzy (e ▸ hy)
        simp [hz, hzy, this]

/-- The walk frees a chain's leaves one after another, until it comes to the successor of the last. -/
theorem reclaimFrom_walk {q k : Nat} {m : Leaf} (ys : List Nat) : ∀ {c : Core} {x : Nat} {l : Leaf}, Rising c.leaves →
    (x :: ys ++ [q]).Nodup → Linked c (x :: ys ++ [q]) → mapFind c.leaves x = some l → l.refs = 0 →
    (∀ y ∈ ys, ∃ m, mapFind c.leaves y = some m ∧ m.refs = 1) → mapFind c.leaves q = some m →
    ∃ c', reclaimFrom (ys.length + 1 + k) c x = reclaimFrom k c' q ∧ Rising c'.leaves ∧
      Freed c c' (x :: ys) (fewerAt (mapFind c.leaves) q m) := by
  induction ys with
  | nil =>
    intro c x l hr hnd hl hx h0 _ hq
    have hne : q ≠ x := by
      rintro rfl
      simp at hnd
    obtain ⟨hlast, hpoison, hnext⟩ := hl 0 x q rfl rfl
    rw [leafAt_of_find hx] at hlast hpoison hnext
    refine ⟨passOn c x q m, ?_, rising_passOn hr, freed_passOn hr hne⟩
    rw [List.length_nil, Nat.add_comm]
    subst hnext
    exact reclaimFrom_next hr hx h0 hlast hpoison hne hq
  | cons y ys ih =>
    intro c x l hr hnd hl hx h0 hone hq
    obtain ⟨w, hw, hw1⟩ := hone y List.mem_cons_self
    obtain ⟨hxn, hnd'⟩ := List.nodup_cons.1 hnd
    have hne : y ≠ x := fun e => hxn (e ▸ List.mem_cons_self)
    have hqx : q ≠ x := fun e => hxn (by simp [e])
    have hyq : q ≠ y := fun e => (List.nodup_cons.1 hnd').1 (by simp [e])
    obtain ⟨hlast, hpoison, hnext⟩ := hl 0 x y rfl rfl
    rw [leafAt_of_find hx] at hlast hpoison hnext
    subst hnext
    have hfind (z : Nat) := mapFind_passOn (m := w) hr hne z
    obtain ⟨c', hwalk, hr', hfreed⟩ := ih (c := passOn c x l.next w) (x := l.next) (l := { w with refs := w.refs - 1 })
      (rising_passOn hr) hnd' (linked_passOn hr hne hw hxn (linked_tail hl)) (by rw [hfind, if_neg hne, if_pos rfl]) (by simp [hw1])
      (fun z hz => by
        obtain ⟨v, hv, hv1⟩ := hone z (List.mem_cons_of_mem _ hz)
        refine ⟨v, ?_, hv1⟩
        rw [hfind, if_neg fun e => hxn (by simp [← e, hz]), if_neg fun e => (List.nodup_cons.1 hnd').1 (by simp [← e, hz]), hv])
      (by rw [hfind, if_neg hqx, if_neg hyq, hq])
    refine ⟨c', ?_, hr', freed_cons hr hne List.mem_cons_self hqx hfreed⟩
    rw [List.length_cons, Nat.add_right_comm, reclaimFrom_next hr hx h0 hlast hpoison hne hw, hwalk]

theorem linked_append {c : Core} {xs : List Nat} {q z : Nat} (h : Linked c xs) (hq : xs.getLast? = some q)
    (hn : (leafAt c q).last = false ∧ (leafAt c q).hdrPoison = false ∧ (leafAt c q).next = z) : Linked c (xs ++ [z]) := by
  intro i y w hy hw
  by_cases hi : i + 1 < xs.length
  · rw [List.getElem?_append_left (by omega)] at hy
    rw [List.getElem?_append_left hi] at hw
    exact h i y w hy hw
  · have hlen : i + 1 < xs.length + 1 := by simpa using (List.getElem?_eq_some_iff.1 hw).1
    have he : i = xs.length - 1 := by omega
    rw [List.getElem?_append_left (by omega), he, ← List.getLast?_eq_getElem?, hq] at hy
    rw [List.getElem?_append_right (by omega)] at hw
    have hi0 : i + 1 - xs.length = 0 := by omega
    rw [hi0] at hw
    cases hy
    cases hw
    exact hn

/-- A chain that nobody holds, to its end. -/
theorem reclaimFrom_chain_end {c : Core} {x q k : Nat} {ys : List Nat} {l b : Leaf} (hr : Rising c.leaves) (hnd : (x :: ys).Nodup)
    (hl : Linked c (x :: ys)) (hx : mapFind c.leaves x = some b) (h0 : b.refs = 0)
    (hone : ∀ y ∈ ys, ∃ m, mapFind c.leaves y = some m ∧ m.refs = 1) (hq : (x :: ys).getLast? = some q)
    (hf : mapFind c.leaves q = some l) (hend : l.last = true ∨ l.hdrPoison = true) :
    ∃ c', reclaimFrom (ys.length + 1 + k) c x = (c', none) ∧ Freed c c' (x :: ys) (mapFind c.leaves) := by
  rcases List.eq_nil_or_concat' ys with rfl | ⟨zs, z, rfl⟩
  · obtain rfl : x = q := by simpa using hq
    obtain rfl : b = l := by simpa [hx] using hf
    refine ⟨freeOne c x, ?_, ?_, fun y => ?_⟩
    · rw [List.length_nil, Nat.add_right_comm]
      exact reclaimFrom_end hx h0 hend
    · rw [freeOne_eq]
    · rw [freeOne, mapFind_mapDel hr]
      simp only [List.mem_singleton]
  · obtain rfl : z = q := by simpa [List.getLast?_cons] using hq
    obtain ⟨w, hw, hw1⟩ := hone z (by simp)
    obtain rfl : w = l := Option.some.inj (hw.symm.trans hf)
    obtain ⟨c', hwalk, hr', hc, hfind⟩ := reclaimFrom_walk (k := k + 1) zs hr hnd hl hx h0
      (fun y hy => hone y (by simp [hy])) hf
    have hz : z ∉ x :: zs := fun h => (List.nodup_append.1 (show (x :: zs ++ [z]).Nodup from hnd)).2.2 _ h _ List.mem_cons_self rfl
    have hz' : mapFind c'.leaves z = some { w with refs := w.refs - 1 } := by
      rw [hfind, if_neg hz, fewerAt, if_pos rfl]
    refine ⟨freeOne c' z, ?_, ?_, fun y => ?_⟩
    · have hlen : (zs ++ [z]).length + 1 + k = zs.length + 1 + (k + 1) := by
        rw [List.length_append, List.length_singleton]
        omega
      rw [hlen, hwalk]
      exact reclaimFrom_end hz' (by simp [hw1]) hend
    · rw [freeOne_eq, hc]
      simp only [← List.cons_append, List.filter_append, List.append_assoc]
    · rw [freeOne, mapFind_mapDel hr', hfind, fewerAt]
      by_cases hy : y = z
      · simp [hy]
      · simp [hy]

/-- The step is the core's own. -/
theorem reclaim_gives {s : State} {c' : Core} (h : Machine.reclaimStep (getCore s s.ev.cl s.ev.co) = c') :
    ∃ s', exec .reclaimStep s = .next s' ∧ getCore s' s.ev.cl s.ev.co = c' ∧ s' = { s with cores := s'.cores } ∧
      ∀ cl co, (cl, co) ≠ (s.ev.cl, s.ev.co) → getCore s' cl co = getCore s cl co := by
  refine ⟨_, exec_reclaimStep s, ?_, rfl, fun cl co hc => getCore_putCore_other s _ ?_⟩
  · rw [getCore_updCore_self, h]
  · by_contra hn
    push Not at hn
    exact hc (by rw [hn.1, hn.2])

section
variable {c c' : Core} {x y : Nat} {r : List Nat} (h : c.reclaim = x :: r)
include h

theorem reclaimStep_done (hw : reclaimFrom 4 { c with reclaim := r } x = (c', none)) : Machine.reclaimStep c = c' := by
  simp only [Machine.reclaimStep, h, hw]

theorem reclaimStep_pauses (hw : reclaimFrom 4 { c with reclaim := r } x = (c', some y)) :
    Machine.reclaimStep c = { c' with reclaim := y :: r } := by
  simp only [Machine.reclaimStep, h, hw]

end

/-- A chain of leaves from x to q, whose record is l, that nothing but its own links holds. -/
structure Unheld (c : Core) (x q : Nat) (xs : List Nat) (l : Leaf) : Prop where
  rising : Rising c.leaves
  short : xs.length ≤ 4
  nodup : xs.Nodup
  first : xs.head? = some x
  last : xs.getLast? = some q
  found : mapFind c.leaves q = some l
  refs : ∀ y ∈ xs, ∃ m, mapFind c.leaves y = some m ∧ m.refs = if y = x then 0 else 1
  linked : Linked c xs

theorem Unheld.leaves {c : Core} {x q : Nat} {xs : List Nat} {l : Leaf} (h : Unheld c x q xs l) :
    ∃ ys b, xs = x :: ys ∧ mapFind c.leaves x = some b ∧ b.refs = 0 ∧ ∀ y ∈ ys, ∃ m, mapFind c.leaves y = some m ∧ m.refs = 1 := by
  obtain ⟨x', ys, rfl⟩ : ∃ x' ys, xs = x' :: ys := List.exists_cons_of_ne_nil fun e => by simpa [e] using h.first
  obtain rfl : x' = x := by simpa using h.first
  obtain ⟨b, hb, h0⟩ := h.refs x' List.mem_cons_self
  refine ⟨ys, b, rfl, hb, by rw [h0, if_pos rfl], fun y hy => ?_⟩
  obtain ⟨m, hm, h1⟩ := h.refs y (List.mem_cons_of_mem _ hy)
  have hne : y ≠ x' := fun e => (List.nodup_cons.1 h.nodup).1 (e ▸ hy)
  exact ⟨m, hm, h1.trans (if_neg hne)⟩

section
variable {c : Core} {x q : Nat} {r xs : List Nat} {l : Leaf}

/-- The walker frees a whole chain. -/
theorem reclaimStep_ends (h : c.reclaim = x :: r) (hu : Unheld c x q xs l) (hend : l.last = true ∨ l.hdrPoison = true) :
    Freed { c with reclaim := r } (Machine.reclaimStep c) xs (mapFind c.leaves) := by
  obtain ⟨ys, b, rfl, hb, h0, hone⟩ := hu.leaves
  have hlen : ys.length + 1 ≤ 4 := hu.short
  obtain ⟨c', hw, hf⟩ := reclaimFrom_chain_end (c := { c with reclaim := r }) (k := 4 - (ys.length + 1)) hu.rising hu.nodup hu.linked hb h0
    hone hu.last hu.found hend
  rw [Nat.add_sub_cancel' hlen] at hw
  rw [reclaimStep_done h hw]
  exact hf

variable {m : Leaf} (hu : Unheld c x q xs l) (hl : l.last = false) (hp : l.hdrPoison = false) (hn : l.next ∉ xs)
  (hm : mapFind c.leaves l.next = some m) (r)
include hu hl hp hn hm

theorem reclaimFrom_passes : ∃ c', reclaimFrom 4 { c with reclaim := r } x = reclaimFrom (4 - xs.length) c' l.next ∧
    Freed { c with reclaim := r } c' xs (fewerAt (mapFind c.leaves) l.next m) := by
  obtain ⟨ys, b, rfl, hb, h0, hone⟩ := hu.leaves
  have hlen : ys.length + 1 ≤ 4 := hu.short
  have hnd : (x :: ys ++ [l.next]).Nodup :=
    List.nodup_append.2 ⟨hu.nodup, List.nodup_singleton _, fun a ha b hb e => hn (List.mem_singleton.1 hb ▸ e ▸ ha)⟩
  have hlinked : Linked c (x :: ys ++ [l.next]) :=
    linked_append hu.linked hu.last (by rw [leafAt_of_find hu.found]; exact ⟨hl, hp, rfl⟩)
  obtain ⟨c', hw, -, hf⟩ := reclaimFrom_walk (c := { c with reclaim := r }) (k := 4 - (ys.length + 1)) ys hu.rising hnd hlinked hb h0 hone hm
  rw [Nat.add_sub_cancel' hlen] at hw
  exact ⟨c', hw, hf⟩

variable {r} (h : c.reclaim = x :: r)
include h

/-- The walker frees four leaves and waits at the fifth. -/
theorem reclaimStep_waits (h4 : xs.length = 4) :
    Freed { c with reclaim := l.next :: r } (Machine.reclaimStep c) xs (fewerAt (mapFind c.leaves) l.next m) := by
  obtain ⟨c', hw, hc, hfind⟩ := reclaimFrom_passes r hu hl hp hn hm
  rw [h4] at hw
  rw [reclaimStep_pauses h hw]
  exact ⟨by rw [hc], hfind⟩

/-- The walker stops at a leaf that something else holds. -/
theorem reclaimStep_stops (h4 : xs.length < 4) (hm1 : 1 < m.refs) :
    Freed { c with reclaim := r } (Machine.reclaimStep c) xs (fewerAt (mapFind c.leaves) l.next m) := by
  obtain ⟨c', hw, hc, hfind⟩ := reclaimFrom_passes r hu hl hp hn hm
  have hnext : mapFind c'.leaves l.next = some { m with refs := m.refs - 1 } := by
    rw [hfind, if_neg hn, fewerAt, if_pos rfl]
  obtain ⟨k, hk⟩ : ∃ k, 4 - xs.length = k + 1 := ⟨4 - xs.length - 1, by omega⟩
  rw [hk, reclaimFrom_held hnext (by dsimp only; omega)] at hw
  rw [reclaimStep_done h hw]
  exact ⟨hc, hfind⟩

end

end Sys2Proof.Proofs
end

section
/-!
A pattern load of a stopped thread (R252, R356, R366).
-/

namespace Sys2Proof.Proofs

open Sys2Proof Sys2Proof.Machine Sys2Proof.Safety Sys2Proof.Laws

theorem exec_patternLoadBind (s : State) : exec .patternLoadBind s = .next (loadStep s s.ev.tid) := rfl

theorem foldl_updCore_frame {α : Type} (p : α → Fin 64 × Fin 8) (f : Core → Core) (l : List α) (s : State) :
    ∃ cores, l.foldl (fun s a => updCore s (p a).1 (p a).2 f) s = { s with cores := cores } := by
  induction l generalizing s with
  | nil => exact ⟨s.cores, rfl⟩
  | cons a r ih =>
    obtain ⟨cores, h⟩ := ih (updCore s (p a).1 (p a).2 f)
    exact ⟨cores, h⟩

theorem freePlace_nil (pins : List Nat) (n : Nat) {len : Nat} (h : len ≤ 2048) : freePlace [] pins n len = some 0 := by
  simp [freePlace, Config.patternSlots, h]

section
variable {s : State} {ctx : Fin 4096} (hb : (getCtx s ctx).binds = [])
include hb

theorem bindingOf_unbound (n : Nat) : bindingOf (getCtx s ctx) n = none := by
  rw [bindingOf, hb]
  rfl

/-- A context without a binding takes one: only its record and the cores' stores change. -/
theorem bindPattern_unbound (n : Nat) {ws : List Word} (keep : List Nat) (h : ws.length ≤ 2048) :
    ∃ x cores, bindPattern s ctx n ws keep = some { putCtx s ctx x with cores := cores } ∧
      bindingOf x n = some { valid := true, reads := blockReads ws, len := ws.length - 1, off := 0, words := ws } := by
  have hplace : bindPlace s ctx n ws keep = some 0 := by
    simp only [bindPlace, bindingOf_unbound hb, hb, freePlace_nil _ n h]
  simp only [bindPattern, hplace]
  obtain ⟨cores, hc⟩ := foldl_updCore_frame id (fun c => { c with store := fillSlots c.store ctx 0 ws }) (contextCores (putCtx s ctx
    { getCtx s ctx with
      binds := mapPut (overwrite (getCtx s ctx).binds n 0 ws.length) n
        { valid := true, reads := blockReads ws, len := ws.length - 1, off := 0, words := ws }
      measured := mapPut (getCtx s ctx).measured n ws }) ctx) _
  refine ⟨_, cores, congrArg some hc, ?_⟩
  simp [bindingOf]

end

theorem resumeThread_plain {s : State} {t : Tid} (hst : (getThread s t).tstate = .stopped) (ht : isMcc t = false)
    (hq : (getThread s t).vq = []) : resumeThread s t = updThread s t fun th => { th with tstate := .running } := by
  have hs : stopped (getThread s t) = true := by simp [stopped, hst]
  have hq' : (getThread (updThread s t fun th => { th with tstate := .running }) t).vq = [] := by
    rw [getThread_updThread_self]
    exact hq
  simp only [resumeThread, hs, ht, resumeHead_nil hq', Bool.not_true, Bool.false_eq_true, if_false]

/-- A thread that has stopped at pattern absent runs again with its verified block bound. -/
theorem loadStep_binds {s : State} {t : Tid} {ws : List Word} (hst : (getThread s t).tstate = .stopped)
    (hc : (getThread s t).xcause.toNat % 256 = 0x0C) (ht : isMcc t = false) (hq : (getThread s t).vq = [])
    (hws : absentBlock s (getThread s t) = some ws) (hlen : ws.length ≤ 2048) (hb : (getCtx s (getThread s t).ctx).binds = []) :
    getThread (loadStep s t) t = { getThread s t with tstate := .running } ∧ BytesKept s (loadStep s t) ∧
      bindingOf (getCtx (loadStep s t) (getThread s t).ctx) ((getThread s t).xinfo.toNat % 32) =
        some { valid := true, reads := blockReads ws, len := ws.length - 1, off := 0, words := ws } := by
  obtain ⟨x, cores, hbind, hfind⟩ := bindPattern_unbound hb ((getThread s t).xinfo.toNat % 32) (ws := ws) [] hlen
  have hs : (stopped (getThread s t) && decide (causeOf (getThread s t) = 0x0C)) = true := by
    simp [stopped, hst, causeOf, hc]
  have hfree (key : Option Nat) (n : Fin 32) : boundElsewhere s key (getThread s t).ctx n ws = false := by
    simp only [boundElsewhere, bindingOf_unbound hb]
  have hstep : loadStep s t =
      updThread { putCtx s (getThread s t).ctx x with cores := cores } t fun th => { th with tstate := .running } := by
    simp only [loadStep, hs, hws, hfree, hbind, if_true, Bool.false_eq_true, if_false]
    exact resumeThread_plain hst ht hq
  rw [hstep]
  refine ⟨getThread_updThread_self _ t _, bytesKept_refl s, ?_⟩
  exact (congrArg (bindingOf · _) (getCtx_putCtx_self s _ x)).trans hfind

end Sys2Proof.Proofs
end

section
/-!
One course of the oldest entry that moves whole chains or tile slots (R70, R71, R195 to R199, R212, R220 to R226): what it leaves of
the thread's record and of the core.
-/

namespace Sys2Proof.Proofs

open Sys2Proof Sys2Proof.Machine Sys2Proof.Safety Sys2Proof.Laws

theorem exec_vectorCourse (s : State) : exec .vectorCourse s = .next (courseStep s s.ev.tid s.ev.k) := rfl

/-- What a state has of a thread and of its core, where it differs from another in these alone. -/
def Now (s : State) (t : Tid) (th : Thread) (c : Core) (s1 : State) : Prop :=
  getThread s1 t = th ∧ ownCore s1 t = c ∧ CoreAndThread t s s1

section
variable {s s1 : State} {t : Tid} {th : Thread} {c : Core}

theorem now_refl (s : State) (t : Tid) : Now s t (getThread s t) (ownCore s t) s := ⟨rfl, rfl, coreAndThread_refl t s⟩

theorem now_updThread (h : Now s t th c s1) (f : Thread → Thread) : Now s t (f th) c (updThread s1 t f) := by
  obtain ⟨hth, hc, hrest⟩ := h
  refine ⟨?_, hc, coreAndThread_trans hrest (coreAndThread_updThread t s1 f)⟩
  rw [getThread_updThread_self, hth]

theorem now_putOwnCore (h : Now s t th c s1) (c' : Core) : Now s t th c' (putOwnCore s1 t c') := by
  obtain ⟨hth, -, hrest⟩ := h
  exact ⟨hth, ownCore_putOwnCore t s1 c', coreAndThread_trans hrest (coreAndThread_putOwnCore t s1 c')⟩

end

/-- The operations that move whole chains or tile slots, and the hand-off of a copy: they build no fresh chain and do no access. -/
def movesWhole : VOp → Bool
  | .share _ _ | .cat _ _ _ | .trim _ _ _ _ | .split _ _ _ | .tbind _ _ | .ttgt _ | .twait _ | .tget _ _ | .tfree _ | .copy _ => true
  | _ => false

/-- The oldest entry of the event's thread, due for its first course. -/
structure Due (s : State) (e : VEntry) (r : List VEntry) : Prop where
  oldest : s.ev.k = 0
  queue : (getThread s s.ev.tid).vq = e :: r
  active : (getThread s s.ev.tid).tstate = .running
  unfinished : e.finished = false
  sound : e.fault = none
  fresh : e.begun = false
  formed : illFormed e = false

section
variable {s s1 : State} {e e1 : VEntry} {r : List VEntry} {th : Thread} {c : Core}

theorem courseStep_whole (h : Due s e r) (hm : movesWhole e.op = true) :
    courseStep s s.ev.tid s.ev.k = setHead (courseOf s s.ev.tid e).1 s.ev.tid (courseOf s s.ev.tid e).2 := by
  have hmem : isMemory e.op = false := by
    revert hm
    cases e.op <;> simp [movesWhole, isMemory, countsLd, countsSt]
  have hpat : patIllTyped s s.ev.tid e = false := by
    revert hm
    cases hop : e.op <;> simp [movesWhole, patIllTyped, hop]
  have hleave : clmaskLeave s s.ev.tid e = (s, true) := by
    revert hm
    cases hop : e.op <;> simp [movesWhole, clmaskLeave, needsLeave, hop]
  have hbegin : beginEntry s s.ev.tid e = (s, e) := by
    revert hm
    cases hop : e.op <;> simp [movesWhole, beginEntry, h.fresh, buildsChain, isFresh, destOf, hop]
  have hfree : (!vectorActive (getThread s s.ev.tid) || e.finished || e.fault.isSome) = false := by
    simp [vectorActive, h.active, h.unfinished, h.sound]
  rw [courseStep, if_pos h.oldest]
  simp only [headCourse, h.queue, hfree, h.formed, hpat, entryHeld, entryAside, hmem, hleave, courseSeen, hbegin, Bool.false_and,
    Bool.or_self, Bool.not_true, Bool.false_eq_true, if_false]

end

/-- VECTOR_COURSE leaves this record of its thread, and of the core what P says; nothing else changes. -/
def Leads (s : State) (th : Thread) (P : Core → Prop) : Prop :=
  ∃ s', exec .vectorCourse s = .next s' ∧ getThread s' s.ev.tid = th ∧ P (getCore s' (clusterOf s.ev.tid) (coreOf s.ev.tid)) ∧
    (∀ u, u ≠ s.ev.tid → getThread s' u = getThread s u) ∧
    (∀ cl co, (cl, co) ≠ (clusterOf s.ev.tid, coreOf s.ev.tid) → getCore s' cl co = getCore s cl co) ∧
    s' = { s with threads := s'.threads, cores := s'.cores }

/-- The thread of the event, and its core. -/
abbrev evThread (s : State) : Thread := getThread s s.ev.tid
abbrev evCore (s : State) : Core := ownCore s s.ev.tid

section
variable {s s1 : State} {e e1 : VEntry} {r : List VEntry} {th : Thread} {c : Core} {P : Core → Prop} (h : Due s e r)
  (hm : movesWhole e.op = true)
include h hm

/-- What the course leaves, from what the operation does. -/
theorem leads_of_now (hc : courseOf s s.ev.tid e = (s1, e1)) (hnow : Now s s.ev.tid th c s1) (hq : th.vq = e :: r) (hP : P c) :
    Leads s { th with vq := e1 :: r } P := by
  obtain ⟨hth, hcore, hothers, hframe, hcores⟩ := now_updThread hnow fun x => { x with vq := e1 :: x.vq.drop 1 }
  refine ⟨_, exec_vectorCourse s, ?_⟩
  rw [courseStep_whole h hm, hc]
  refine ⟨hth.trans ?_, ?_, hothers, hcores, hframe⟩
  · rw [hq]
    rfl
  · exact (congrArg P hcore).mpr hP

theorem leads_entry (hc : courseOf s s.ev.tid e = (s, e1)) (hP : P (evCore s)) : Leads s { evThread s with vq := e1 :: r } P :=
  leads_of_now h hm hc (now_refl s _) h.queue hP

theorem leads_core (hc : courseOf s s.ev.tid e = (putOwnCore s s.ev.tid c, e1)) (hP : P c) :
    Leads s { evThread s with vq := e1 :: r } P :=
  leads_of_now h hm hc (now_putOwnCore (now_refl s _) c) h.queue hP

theorem leads_cleared {a : Reg} (hc : courseOf s s.ev.tid e = (clearExcl (putOwnCore s s.ev.tid c) s.ev.tid a, e1)) (hP : P c) :
    Leads s { evThread s with vq := e1 :: r, v := (evThread s).v.set a.val { (evThread s).v[a.val] with excl := false } } P :=
  leads_of_now h hm hc (now_updThread (now_putOwnCore (now_refl s _) c) _) h.queue hP

end

/-! Slots. -/

section
variable {s : State} {e : VEntry} {r : List VEntry} {k : Fin 16}

/-- twait or tget. -/
abbrev Takes (e : VEntry) (d : Option Reg) (k : Fin 16) : Prop := e.op = (match d with | none => .twait k | some r => .tget r k)

theorem movesWhole_takes {d : Option Reg} (hop : Takes e d k) : movesWhole e.op = true := by
  rw [hop]
  cases d <;> rfl

theorem courseOf_takes {d : Option Reg} (hop : Takes e d k) : courseOf s s.ev.tid e = tgetRun s s.ev.tid e d k := by
  cases d <;> simp only [courseOf, hop]

variable (h : Due s e r)
include h

theorem ttgt_empty (hop : e.op = .ttgt k) (hk : ((evCore s).slots[k.val]).st = .empty) :
    Leads s { evThread s with vq := finish e :: r } fun c =>
      c = putSlot (evCore s) k { Slot.reset with st := .target, owner := threadOf s.ev.tid } := by
  refine leads_core h (by rw [hop]; rfl) ?_ rfl
  simp only [courseOf, hop, ttgtRun, hk, if_true]

theorem ttgt_faults (hop : e.op = .ttgt k) (hk : ((evCore s).slots[k.val]).st ≠ .empty) :
    Leads s { evThread s with vq := slotFault s.ev.tid e ((evCore s).slots[k.val]).st k :: r } fun c => c = evCore s := by
  refine leads_entry h (by rw [hop]; rfl) ?_ rfl
  simp only [courseOf, hop, ttgtRun, hk, if_false]

theorem takes_waits {d : Option Reg} (hop : Takes e d k) (hk : ((evCore s).slots[k.val]).st = .target) :
    Leads s { evThread s with vq := { e with stalled := true } :: r } fun c => c = evCore s := by
  refine leads_entry h (movesWhole_takes hop) ((courseOf_takes hop).trans ?_) rfl
  simp only [tgetRun, hk]

theorem takes_faults {d : Option Reg} (hop : Takes e d k)
    (hk : ((evCore s).slots[k.val]).st = .empty ∨ ((evCore s).slots[k.val]).st = .bound) :
    Leads s { evThread s with vq := slotFault s.ev.tid e ((evCore s).slots[k.val]).st k :: r } fun c => c = evCore s := by
  refine leads_entry h (movesWhole_takes hop) ((courseOf_takes hop).trans ?_) rfl
  rcases hk with hk | hk <;> simp only [tgetRun, hk]

theorem twait_passes (hop : e.op = .twait k) (hk : ((evCore s).slots[k.val]).st = .filled) :
    Leads s { evThread s with vq := finish e :: r } fun c => c = evCore s := by
  refine leads_entry h (by rw [hop]; rfl) ((courseOf_takes (d := none) hop).trans ?_) rfl
  simp only [tgetRun, hk]

theorem tget_takes {d : Reg} (hop : e.op = .tget d k) (hk : ((evCore s).slots[k.val]).st = .filled)
    (hwall : chainWall (evCore s) ((evCore s).slots[k.val]).chain = none) :
    Leads s { evThread s with vq := structural e ((evCore s).slots[k.val]).chain (evThread s).v[d.val] false :: r } fun c =>
      c = putSlot (evCore s) k Slot.reset := by
  refine leads_core h (by rw [hop]; rfl) ((courseOf_takes (d := some d) hop).trans ?_) rfl
  simp only [tgetRun, hk, hwall]

/-- The stamps of the tile queue entries that a tfree waits for when it begins (R225). -/
def stampsNaming (s : State) (t : Tid) (k : Fin 16) : List Nat :=
  if ((ownCore s t).slots[k.val]).st = .bound ∨ ((ownCore s t).slots[k.val]).st = .target then
    ((launchTq s (clusterOf t) (ownCore s t).launch).filter fun q => entryNames (coreOf t) k q.op).map fun q => q.stamp
  else []

theorem courseOf_tfree (hop : e.op = .tfree k) :
    courseOf s s.ev.tid e =
      if (launchTq s (clusterOf s.ev.tid) (evCore s).launch).any fun q => (stampsNaming s s.ev.tid k).contains q.stamp then
        (s, { e with begun := true, names := stampsNaming s s.ev.tid k, stalled := true })
      else (putOwnCore s s.ev.tid (emptySlot (evCore s) k), finish e) := by
  simp only [courseOf, hop, tfreeRun, h.fresh, Bool.false_eq_true, if_false]
  rfl

theorem tfree_frees (hop : e.op = .tfree k)
    (hk : ((evCore s).slots[k.val]).st = .empty ∨ ((evCore s).slots[k.val]).st = .filled ∨
      ∀ q ∈ launchTq s (clusterOf s.ev.tid) (evCore s).launch, entryNames (coreOf s.ev.tid) k q.op = false) :
    Leads s { evThread s with vq := finish e :: r } fun c => c = emptySlot (evCore s) k := by
  have hnone : stampsNaming s s.ev.tid k = [] := by
    rcases hk with hk | hk | hk
    · simp [stampsNaming, hk]
    · simp [stampsNaming, hk]
    · rw [stampsNaming, List.filter_eq_nil_iff.mpr fun q hq => by simp [hk q hq], List.map_nil, ite_self]
  refine leads_core h (by rw [hop]; rfl) ?_ rfl
  simp [courseOf_tfree h hop, hnone]

theorem tfree_waits {q : TileEntry} (hop : e.op = .tfree k)
    (hk : ((evCore s).slots[k.val]).st = .bound ∨ ((evCore s).slots[k.val]).st = .target)
    (hq : q ∈ launchTq s (clusterOf s.ev.tid) (evCore s).launch) (hn : entryNames (coreOf s.ev.tid) k q.op = true) :
    ∃ n, q.stamp ∈ n ∧ Leads s { evThread s with vq := { e with begun := true, names := n, stalled := true } :: r } fun c =>
      c = evCore s := by
  have hmem : q.stamp ∈ stampsNaming s s.ev.tid k := by
    rw [stampsNaming, if_pos hk]
    exact List.mem_map.mpr ⟨q, List.mem_filter.mpr ⟨hq, hn⟩, rfl⟩
  refine ⟨_, hmem, leads_entry h (by rw [hop]; rfl) ?_ rfl⟩
  have hany : ((launchTq s (clusterOf s.ev.tid) (evCore s).launch).any fun q => (stampsNaming s s.ev.tid k).contains q.stamp) = true :=
    List.any_eq_true.mpr ⟨q, hq, List.contains_iff_mem.mpr hmem⟩
  rw [courseOf_tfree h hop, if_pos hany]

end

/-! Chains held once more. -/

/-- The pool with one holder more of a leaf. -/
def held (c : Core) (x : Nat) : Core := putLeaf c x { leafAt c x with refs := (leafAt c x).refs + 1 }

section
variable {c : Core} {x y : Nat} {l : Leaf}

@[simp] theorem leafAt_putLeaf_self (c : Core) (x : Nat) (l : Leaf) : leafAt (putLeaf c x l) x = l := mapGet_mapPut_self _ _ _ _

theorem leafAt_putLeaf_other (c : Core) (l : Leaf) (h : y ≠ x) : leafAt (putLeaf c x l) y = leafAt c y := mapGet_mapPut_other _ _ _ h

theorem leafAt_held (c : Core) (x y : Nat) :
    leafAt (held c x) y = if y = x then { leafAt c x with refs := (leafAt c x).refs + 1 } else leafAt c y := by
  split_ifs with h
  · rw [h]
    exact leafAt_putLeaf_self _ _ _
  · exact leafAt_putLeaf_other _ _ h

theorem holdLeaf_held (th : Fin 4) (budget : Nat) (h : (leafAt c x).refs < 63) : holdLeaf c th budget x = .ok (x, held c x) := by
  rw [holdLeaf, takeRef]
  simp only [h, if_true]
  rfl

theorem retail_eq (c : Core) (d : Desc) : ∃ tail, retail c d = { d with tail := tail } := by
  unfold retail
  split
  · exact ⟨d.tail, rfl⟩
  · exact ⟨_, rfl⟩

theorem holdChain_held (th : Fin 4) (budget : Nat) {d : Desc} (h : (leafAt c d.head).refs < 63) :
    holdChain c th budget d = .ok (held c d.head, retail (held c d.head) { d with excl := false, part := false }) := by
  rw [holdChain, holdLeaf_held th budget h]

end

/-- No leaf of the pool is poisoned. -/
abbrev Clean (c : Core) : Prop := ∀ p ∈ c.leaves, p.2.poison = false ∧ p.2.hdrPoison = false

theorem mem_of_mapFind {α : Type} {m : SMap α} {k : Nat} {v : α} (h : mapFind m k = some v) : (k, v) ∈ m := by
  induction m with
  | nil => cases h
  | cons p r ih =>
    obtain ⟨a, w⟩ := p
    rw [mapFind] at h
    split_ifs at h with h1
    · obtain rfl := Option.some.inj h
      rw [h1]
      exact List.mem_cons_self
    · exact List.mem_cons_of_mem _ (ih h)

theorem leafAt_clean {c : Core} (h : Clean c) (x : Nat) : (leafAt c x).poison = false ∧ (leafAt c x).hdrPoison = false := by
  rw [leafAt, mapGet]
  cases hx : mapFind c.leaves x with
  | none => exact ⟨rfl, rfl⟩
  | some l => exact h _ (mem_of_mapFind hx)

theorem wallAt_clean {c : Core} (h : Clean c) (ps : List (Nat × Nat × Nat)) : ∀ a n, wallAt c a n ps = none := by
  induction ps with
  | nil => exact fun _ _ => rfl
  | cons p r ih =>
    intro a n
    simp only [wallAt, (leafAt_clean h p.1).2, Bool.false_eq_true, if_false, ih, ite_self]

theorem headerWall_clean {c : Core} (h : Clean c) (d : Desc) (n : Nat) : headerWall c d n = none := wallAt_clean h _ _ _

theorem chainWall_clean {c : Core} (h : Clean c) (d : Desc) : chainWall c d = none := by
  rw [chainWall, headerWall_clean h, ite_self]

section
variable {s : State} {e : VEntry} {r : List VEntry} (h : Due s e r)
include h

/-! tbind. -/

section
variable {a : Reg} {k : Fin 16} (hop : e.op = .tbind a k)
include hop

theorem tbind_faults
    (hbad : ((evCore s).slots[k.val]).st ≠ .empty ∨ (evThread s).v[a.val].len = 0 ∨ e.vl = 0 ∨ vtTy e.vtype = 15 ∨
      grouped e.vtype = true ∧ (evThread s).v[(a + 1).val].len = 0) :
    Leads s { evThread s with vq := slotFault s.ev.tid e ((evCore s).slots[k.val]).st k :: r } fun c => c = evCore s := by
  refine leads_entry h (by rw [hop]; rfl) ?_ rfl
  simp only [courseOf, hop, tbindRun]
  exact if_pos hbad

/-- A share of a chain, once its head is held once more. -/
def shareOf (c : Core) (d : Desc) : Desc := retail (held c d.head) { d with excl := false, part := false }

/-- The slot that a tbind fills (R222, R223). -/
def boundSlot (e : VEntry) (chain scale : Desc) (group : Nat) (owner : Fin 4) : Slot :=
  { st := .bound, chain := chain, scale := scale, rowLen := e.vl, ty := vtTy e.vtype, group := group, owner := owner }

section
variable (hk : ((evCore s).slots[k.val]).st = .empty) (hlen : (evThread s).v[a.val].len ≠ 0) (hvl : e.vl ≠ 0) (hty : vtTy e.vtype ≠ 15)
  (hrefs : (leafAt (evCore s) (evThread s).v[a.val].head).refs < 63)
include hk hlen hvl hty hrefs

theorem tbind_plain (hg : grouped e.vtype = false) :
    Leads s { evThread s with
        vq := finish e :: r, v := (evThread s).v.set a.val { (evThread s).v[a.val] with excl := false } } fun c =>
      c = putSlot (held (evCore s) (evThread s).v[a.val].head) k
        (boundSlot e (shareOf (evCore s) (evThread s).v[a.val]) Desc.empty 0 (threadOf s.ev.tid)) := by
  refine leads_cleared h (by rw [hop]; rfl) ?_ rfl
  have hok : ¬ (((evCore s).slots[k.val]).st ≠ .empty ∨ (evThread s).v[a.val].len = 0 ∨ e.vl = 0 ∨ vtTy e.vtype = 15 ∨
      grouped e.vtype = true ∧ (evThread s).v[(a + 1).val].len = 0) := by
    simp [hk, hlen, hvl, hty, hg]
  simp only [courseOf, hop, tbindRun]
  rw [if_neg hok, holdChain_held _ _ hrefs]
  simp only [hg, Bool.false_eq_true, if_false]
  rfl

theorem tbind_grouped (hg : grouped e.vtype = true) (ha : a.val < 31) (hsc : (evThread s).v[(a + 1).val].len ≠ 0)
    (hrefs' : (leafAt (evCore s) (evThread s).v[(a + 1).val].head).refs < 63)
    (hne : (evThread s).v[a.val].head ≠ (evThread s).v[(a + 1).val].head) :
    let x := (evThread s).v[a.val]
    let y := (evThread s).v[(a + 1).val]
    Leads s { evThread s with
        vq := finish e :: r, v := ((evThread s).v.set a.val { x with excl := false }).set (a + 1).val { y with excl := false } } fun c =>
      c = putSlot (held (held (evCore s) x.head) y.head) k
        (boundSlot e (shareOf (evCore s) x) (shareOf (held (evCore s) x.head) y) (blockSize (vtBlock e.vtype)) (threadOf s.ev.tid)) := by
  intro x y
  have hok : ¬ (((evCore s).slots[k.val]).st ≠ .empty ∨ x.len = 0 ∨ e.vl = 0 ∨ vtTy e.vtype = 15 ∨ grouped e.vtype = true ∧ y.len = 0) := by
    simp [hk, hlen, hvl, hty, x, y, hsc]
  have hrefs2 : (leafAt (held (evCore s) x.head) y.head).refs < 63 := by
    rw [leafAt_held, if_neg (Ne.symm hne)]
    exact hrefs'
  have hidx : (a + 1).val = a.val + 1 := by
    rw [Fin.val_add]
    exact Nat.mod_eq_of_lt (by change a.val + 1 < 32; omega)
  have hy : ((evThread s).v.set a.val { x with excl := false })[(a + 1).val] = y :=
    Vector.getElem_set_ne _ _ (by omega)
  have hnow := now_updThread (now_updThread (now_putOwnCore (now_refl s s.ev.tid) (putSlot (held (held (evCore s) x.head) y.head) k
    (boundSlot e (shareOf (evCore s) x) (shareOf (held (evCore s) x.head) y) (blockSize (vtBlock e.vtype)) (threadOf s.ev.tid))))
    fun th => { th with v := th.v.set a.val { th.v[a.val] with excl := false } })
    fun th => { th with v := th.v.set (a + 1).val { th.v[(a + 1).val] with excl := false } }
  have hcourse : courseOf s s.ev.tid e = (clearExcl (clearExcl (putOwnCore s s.ev.tid (putSlot (held (held (evCore s) x.head) y.head) k
      (boundSlot e (shareOf (evCore s) x) (shareOf (held (evCore s) x.head) y) (blockSize (vtBlock e.vtype)) (threadOf s.ev.tid))))
      s.ev.tid a) s.ev.tid (a + 1), finish e) := by
    simp only [courseOf, hop, tbindRun]
    rw [if_neg hok, holdChain_held _ _ hrefs]
    simp only [hg, if_true]
    rw [holdChain_held _ _ hrefs2]
    rfl
  have hlead := leads_of_now h (by rw [hop]; rfl) hcourse hnow h.queue (P := fun c => c = _) rfl
  dsimp only at hlead
  rw [hy] at hlead
  exact hlead

end

end

/-! The hand-off of a copy. -/

/-- A copy with its index chain, if it has one. -/
abbrev Indexed (s : State) (o : CopyOp) : Prop := (o.kind = .cpyg ∨ o.kind = .cpys) ∧ (evThread s).v[o.vidx.val].len ≠ 0

/-- The core's copy queues with one more copy. -/
def queued (s : State) (e : VEntry) (o : CopyOp) (idx : Desc) : Vector (List Copy) 4 :=
  (evCore s).cqs.set o.q.val ((evCore s).cqs[o.q.val] ++
    [{ op := o, owner := threadOf s.ev.tid, fillw := e.fill, idx := idx, stamp := e.stamp, row := 0, added := 0, leave := false
       ctx := (evThread s).ctx, launch := (evThread s).launch.getD 0 }])

section
variable {o : CopyOp} (hop : e.op = .copy o)
include hop

theorem copy_waits (hlen : 16 ≤ (evCore s).cqs[o.q.val].length) :
    Leads s { evThread s with vq := { e with stalled := true } :: r } fun c => c = evCore s := by
  refine leads_entry h (by rw [hop]; rfl) ?_ rfl
  simp only [courseOf, hop, handOff]
  exact if_pos hlen

variable (hlen : (evCore s).cqs[o.q.val].length < 16)
include hlen

theorem copy_plain (hix : ¬ Indexed s o) :
    Leads s { evThread s with vq := finish e :: r } fun c => c = { evCore s with cqs := queued s e o Desc.empty } := by
  have hb : ((decide (o.kind = .cpyg) || decide (o.kind = .cpys)) && decide ((evThread s).v[o.vidx.val].len ≠ 0)) = false := by
    simpa [Indexed] using hix
  refine leads_core h (by rw [hop]; rfl) ?_ rfl
  simp only [courseOf, hop, handOff]
  rw [if_neg (show ¬ Config.cqDepth ≤ _ from Nat.not_le.mpr hlen)]
  simp only [hb, Bool.false_eq_true, if_false]
  rfl

theorem copy_indexed (hix : Indexed s o) (hrefs : (leafAt (evCore s) (evThread s).v[o.vidx.val].head).refs < 63) :
    let x := (evThread s).v[o.vidx.val]
    Leads s { evThread s with vq := finish e :: r, v := (evThread s).v.set o.vidx.val { x with excl := false } } fun c =>
      c = { held (evCore s) x.head with cqs := queued s e o (shareOf (evCore s) x) } := by
  intro x
  have hb : ((decide (o.kind = .cpyg) || decide (o.kind = .cpys)) && decide ((evThread s).v[o.vidx.val].len ≠ 0)) = true := by
    simpa [Indexed] using hix
  refine leads_cleared h (by rw [hop]; rfl) ?_ rfl
  simp only [courseOf, hop, handOff]
  rw [if_neg (show ¬ Config.cqDepth ≤ _ from Nat.not_le.mpr hlen)]
  simp only [hb, if_true]
  rw [holdChain_held _ _ hrefs]
  rfl

end

/-! vshare. -/

section
variable {d a : Reg} (hop : e.op = .share d a)
include hop

theorem share_same (hd : d = a) : Leads s { evThread s with vq := unchanged e :: r } fun c => c = evCore s := by
  refine leads_entry h (by rw [hop]; rfl) ?_ rfl
  simp only [courseOf, hop, shareRun]
  exact if_pos hd

theorem share_empty (hd : d ≠ a) (hlen : (evThread s).v[a.val].len = 0) :
    Leads s { evThread s with vq := structural e Desc.empty (evThread s).v[d.val] true :: r } fun c => c = evCore s := by
  refine leads_entry h (by rw [hop]; rfl) ?_ rfl
  simp only [courseOf, hop, shareRun]
  rw [if_neg hd]
  exact if_pos hlen

theorem share_holds (hd : d ≠ a) (hlen : (evThread s).v[a.val].len ≠ 0)
    (hrefs : (leafAt (evCore s) (evThread s).v[a.val].head).refs < 63) :
    let x := (evThread s).v[a.val]
    Leads s { evThread s with
        vq := structural e (shareOf (evCore s) x) (evThread s).v[d.val] true :: r, v := (evThread s).v.set a.val { x with excl := false } }
      fun c => c = held (evCore s) x.head := by
  intro x
  refine leads_cleared h (by rw [hop]; rfl) ?_ rfl
  simp only [courseOf, hop, shareRun]
  rw [if_neg hd, if_neg hlen, holdChain_held _ _ hrefs]
  rfl

end

end

end Sys2Proof.Proofs
end

section
/-!
The bytes of a chain (R72): a walk of its leaves as one number, cut at a byte, put together, and under changes of the pool that leave
its leaves' bytes alone.
-/

namespace Sys2Proof.Proofs

open Sys2Proof Sys2Proof.Machine Sys2Proof.Safety Sys2Proof.Laws

/-- The pieces, the leaves and the n bytes of the stream that starts at a place in a leaf. -/
def piecesFrom (c : Core) (x skip n : Nat) : List (Nat × Nat × Nat) := walkPieces c (n + 1) x skip n
def leavesFrom (c : Core) (x skip n : Nat) : List Nat := (piecesFrom c x skip n).map fun p => p.1
def bytesFrom (c : Core) (x skip n : Nat) : Nat := piecesVal c (piecesFrom c x skip n)

theorem pieces_eq (c : Core) (d : Desc) : pieces c d = piecesFrom c d.head d.skip d.len := rfl
theorem chainLeaves_eq (c : Core) (d : Desc) : chainLeaves c d = leavesFrom c d.head d.skip d.len := rfl
theorem streamOf_val (c : Core) (d : Desc) : (streamOf c d).val = bytesFrom c d.head d.skip d.len := rfl

/-- The bytes of a leaf from a place on. -/
def leafBytes (c : Core) (x skip n : Nat) : Nat := bitsOf (leafAt c x).data (8 * ((leafAt c x).lo + skip)) (8 * n)

section
variable {c c' : Core} {x skip n : Nat}

/-- A walk ends in its first leaf, or goes on at the start of the next one. -/
theorem walk_induction {motive : Nat → Nat → Nat → Prop} (c : Core)
    (inside : ∀ x skip n, skip ≤ (leafAt c x).len → skip + n ≤ (leafAt c x).len + 1 → motive x skip n)
    (across : ∀ x skip k m, skip ≤ (leafAt c x).len → (leafAt c x).len + 1 = skip + k → 0 < m → motive (leafAt c x).next 0 m →
      motive x skip (k + m)) (n : Nat) : ∀ {x skip : Nat}, skip ≤ (leafAt c x).len → motive x skip n := by
  induction n using Nat.strong_induction_on with
  | _ n ih =>
    intro x skip hs
    by_cases hn : skip + n ≤ (leafAt c x).len + 1
    · exact inside x skip n hs hn
    · obtain ⟨k, hk⟩ : ∃ k, (leafAt c x).len + 1 = skip + k := ⟨(leafAt c x).len + 1 - skip, by omega⟩
      obtain ⟨m, rfl⟩ : ∃ m, n = k + m := ⟨n - k, by omega⟩
      exact across x skip k m hs hk (by omega) (ih m (by omega) (Nat.zero_le _))

/-- Fuel beyond the bytes to walk changes nothing. -/
theorem walkPieces_fuel {fuel more : Nat} : ∀ {x skip n : Nat}, skip ≤ (leafAt c x).len → n < fuel →
    walkPieces c (fuel + more) x skip n = walkPieces c fuel x skip n := by
  induction fuel with
  | zero => intro x skip n _ hn; omega
  | succ fuel ih =>
    intro x skip n hs hn
    rw [Nat.add_right_comm, walkPieces, walkPieces]
    split_ifs with h0
    · rfl
    · dsimp only
      rw [ih (Nat.zero_le _) (by omega)]

@[simp] theorem piecesFrom_zero (c : Core) (x skip : Nat) : piecesFrom c x skip 0 = [] := rfl

theorem piecesFrom_inside (h0 : n ≠ 0) (hs : skip + n ≤ (leafAt c x).len + 1) :
    piecesFrom c x skip n = [(x, (leafAt c x).lo + skip, n)] := by
  have hn : min ((leafAt c x).len + 1 - skip) n = n := by omega
  obtain ⟨m, rfl⟩ := Nat.exists_eq_succ_of_ne_zero h0
  rw [piecesFrom, walkPieces, if_neg h0]
  simp only [hn, Nat.sub_self]
  rw [walkPieces, if_pos rfl]

theorem piecesFrom_across {k : Nat} (hs : skip ≤ (leafAt c x).len) (hk : (leafAt c x).len + 1 = skip + k) (m : Nat) :
    piecesFrom c x skip (k + m) = (x, (leafAt c x).lo + skip, k) :: piecesFrom c (leafAt c x).next 0 m := by
  have hn : min ((leafAt c x).len + 1 - skip) (k + m) = k := by omega
  have hfuel : k + m = (m + 1) + (k - 1) := by omega
  rw [piecesFrom, walkPieces, if_neg (by omega)]
  simp only [hn, Nat.add_sub_cancel_left]
  rw [hfuel, walkPieces_fuel (Nat.zero_le _) (by omega), piecesFrom]

theorem leavesFrom_across {k : Nat} (hs : skip ≤ (leafAt c x).len) (hk : (leafAt c x).len + 1 = skip + k) (m : Nat) :
    leavesFrom c x skip (k + m) = x :: leavesFrom c (leafAt c x).next 0 m := by
  rw [leavesFrom, piecesFrom_across hs hk]
  rfl

/-- Every piece has bytes, and together they have those of the walk. -/
theorem piecesFrom_sizes (n : Nat) : ∀ {x skip : Nat}, skip ≤ (leafAt c x).len →
    ((piecesFrom c x skip n).map fun p => p.2.2).sum = n ∧ ∀ p ∈ piecesFrom c x skip n, 0 < p.2.2 := by
  refine walk_induction
    (motive := fun x skip n => ((piecesFrom c x skip n).map fun p => p.2.2).sum = n ∧ ∀ p ∈ piecesFrom c x skip n, 0 < p.2.2) c
    (fun x skip n _ hn => ?_) (fun x skip k m hs hk _ ih => ?_) n
  · by_cases h0 : n = 0
    · simp [h0]
    · rw [piecesFrom_inside h0 hn]
      simpa using Nat.pos_of_ne_zero h0
  · rw [piecesFrom_across hs hk]
    refine ⟨by simp [ih.1], fun p hp => ?_⟩
    rcases List.mem_cons.1 hp with rfl | hp
    · dsimp only
      omega
    · exact ih.2 p hp

@[simp] theorem bytesFrom_zero (c : Core) (x skip : Nat) : bytesFrom c x skip 0 = 0 := rfl

/-- Bytes that lie in one leaf. -/
theorem bytesFrom_inside (hs : skip + n ≤ (leafAt c x).len + 1) : bytesFrom c x skip n = leafBytes c x skip n := by
  by_cases h0 : n = 0
  · subst h0
    simp [leafBytes, bitsOf, Nat.mod_one]
  · rw [bytesFrom, piecesFrom_inside h0 hs]
    simp [piecesVal, leafBytes]

/-- Bytes that go on in the next leaf. -/
theorem bytesFrom_across {k : Nat} (hs : skip ≤ (leafAt c x).len) (hk : (leafAt c x).len + 1 = skip + k) (m : Nat) :
    bytesFrom c x skip (k + m) = leafBytes c x skip k + 2 ^ (8 * k) * bytesFrom c (leafAt c x).next 0 m := by
  rw [bytesFrom, piecesFrom_across hs hk]
  rfl

theorem leafBytes_lt (c : Core) (x skip n : Nat) : leafBytes c x skip n < 2 ^ (8 * n) := Nat.mod_lt _ (by positivity)

/-- The bytes of a leaf, cut at a byte. -/
theorem leafBytes_add (c : Core) (x skip a b : Nat) :
    leafBytes c x skip (a + b) = leafBytes c x skip a + 2 ^ (8 * a) * leafBytes c x (skip + a) b := by
  have h1 : 8 * ((leafAt c x).lo + (skip + a)) = 8 * ((leafAt c x).lo + skip) + 8 * a := by ring
  simp only [leafBytes, bitsOf, h1, Nat.mul_add 8 a b, pow_add, Nat.mod_mul, Nat.div_div_eq_div_mul]

theorem bytesFrom_lt (n : Nat) : ∀ {x skip : Nat}, skip ≤ (leafAt c x).len → bytesFrom c x skip n < 2 ^ (8 * n) := by
  refine walk_induction (motive := fun x skip n => bytesFrom c x skip n < 2 ^ (8 * n)) c (fun x skip n _ hn => ?_)
    (fun x skip k m hs hk _ ih => ?_) n
  · rw [bytesFrom_inside hn]
    exact leafBytes_lt _ _ _ _
  · have h1 := leafBytes_lt c x skip k
    rw [bytesFrom_across hs hk, Nat.mul_add, pow_add]
    nlinarith [Nat.mul_le_mul_left (2 ^ (8 * k)) (Nat.succ_le_of_lt ih)]

/-- Bytes cut within the first leaf. -/
theorem bytesFrom_within {a : Nat} (hs : skip + a ≤ (leafAt c x).len) (b : Nat) :
    bytesFrom c x skip (a + b) = bytesFrom c x skip a + 2 ^ (8 * a) * bytesFrom c x (skip + a) b := by
  rw [bytesFrom_inside (n := a) (by omega)]
  by_cases hb : skip + a + b ≤ (leafAt c x).len + 1
  · rw [bytesFrom_inside (n := a + b) (by omega), bytesFrom_inside hb, leafBytes_add]
  · obtain ⟨k, hk⟩ : ∃ k, (leafAt c x).len + 1 = skip + a + k := ⟨(leafAt c x).len + 1 - (skip + a), by omega⟩
    obtain ⟨m, rfl⟩ : ∃ m, b = k + m := ⟨b - k, by omega⟩
    rw [← Nat.add_assoc, bytesFrom_across (by omega) (by omega) m, bytesFrom_across hs hk, leafBytes_add]
    ring

/-- Bytes cut anywhere: the second part starts where the header walk finds it (R198, R199). -/
theorem bytesFrom_cut {fuel : Nat} : ∀ {x skip a : Nat}, skip ≤ (leafAt c x).len → a < fuel →
    (findByte c fuel x (skip + a)).2 ≤ (leafAt c (findByte c fuel x (skip + a)).1).len ∧
      ∀ b, bytesFrom c x skip (a + b) =
        bytesFrom c x skip a + 2 ^ (8 * a) * bytesFrom c (findByte c fuel x (skip + a)).1 (findByte c fuel x (skip + a)).2 b := by
  induction fuel with
  | zero => intro x skip a _ ha; omega
  | succ fuel ih =>
    intro x skip a hs ha
    rw [findByte]
    split_ifs with hlen
    · obtain ⟨k, hk⟩ : ∃ k, (leafAt c x).len + 1 = skip + k := ⟨(leafAt c x).len + 1 - skip, by omega⟩
      obtain ⟨a', rfl⟩ : ∃ a', a = k + a' := ⟨a - k, by omega⟩
      have hrest : skip + (k + a') - ((leafAt c x).len + 1) = 0 + a' := by omega
      obtain ⟨hin, hcut⟩ := ih (x := (leafAt c x).next) (skip := 0) (a := a') (Nat.zero_le _) (by omega)
      rw [hrest]
      refine ⟨hin, fun b => ?_⟩
      rw [Nat.add_assoc, bytesFrom_across hs hk, bytesFrom_across hs hk, hcut]
      ring
    · exact ⟨by dsimp only; omega, bytesFrom_within (by omega)⟩

/-- Two pools agree on the bytes of a leaf and on what follows it. -/
def SameBytes (c c' : Core) (x : Nat) : Prop :=
  (leafAt c' x).data = (leafAt c x).data ∧ (leafAt c' x).lo = (leafAt c x).lo ∧ (leafAt c' x).len = (leafAt c x).len ∧
    (leafAt c' x).next = (leafAt c x).next

theorem walkPieces_congr {fuel : Nat} : ∀ {x skip n : Nat}, (∀ y ∈ (walkPieces c fuel x skip n).map fun p => p.1, SameBytes c c' y) →
    walkPieces c' fuel x skip n = walkPieces c fuel x skip n := by
  induction fuel with
  | zero => exact fun _ => rfl
  | succ fuel ih =>
    intro x skip n h
    rw [walkPieces, walkPieces]
    rw [walkPieces] at h
    split_ifs at h ⊢ with h0
    · rfl
    · obtain ⟨-, hlo, hlen, hnext⟩ := h x (by simp)
      dsimp only
      rw [hlo, hlen, hnext, ih fun y hy => h y (by simp only [List.map_cons, List.mem_cons]; exact .inr hy)]

theorem piecesVal_congr {ps : List (Nat × Nat × Nat)} (h : ∀ y ∈ ps.map fun p => p.1, SameBytes c c' y) :
    piecesVal c' ps = piecesVal c ps := by
  induction ps with
  | nil => rfl
  | cons p r ih =>
    obtain ⟨y, off, n⟩ := p
    rw [piecesVal, piecesVal, (h y (by simp)).1, ih fun z hz => h z (by simp only [List.map_cons, List.mem_cons]; exact .inr hz)]

theorem bytesFrom_congr (h : ∀ y ∈ leavesFrom c x skip n, SameBytes c c' y) : bytesFrom c' x skip n = bytesFrom c x skip n := by
  rw [bytesFrom, piecesFrom, walkPieces_congr h]
  exact piecesVal_congr h

end

/-- No leaf of the pool, taken or not, is poisoned. -/
def Unpoisoned (c : Core) : Prop := ∀ x, (leafAt c x).poison = false ∧ (leafAt c x).hdrPoison = false

theorem piecesBad_unpoisoned {c : Core} (h : Unpoisoned c) (ps : List (Nat × Nat × Nat)) : ∀ n, piecesBad c n ps = [] := by
  induction ps with
  | nil => exact fun _ => rfl
  | cons p r ih =>
    intro n
    obtain ⟨y, off, k⟩ := p
    simp only [piecesBad, h y, Bool.false_eq_true, if_false, ih]

theorem streamOf_unpoisoned {c : Core} (h : Unpoisoned c) (d : Desc) :
    streamOf c d = { val := bytesFrom c d.head d.skip d.len, len := d.len, bad := [] } := by
  rw [streamOf, piecesBad_unpoisoned h]
  rfl

theorem unpoisoned_held {c : Core} (h : Unpoisoned c) (x : Nat) : Unpoisoned (held c x) := by
  intro y
  rw [leafAt_held]
  split_ifs with hy
  · exact h x
  · exact h y

theorem sameBytes_held (c : Core) (x y : Nat) : SameBytes c (held c x) y := by
  rw [SameBytes, leafAt_held]
  split_ifs with hy
  · rw [hy]
    exact ⟨rfl, rfl, rfl, rfl⟩
  · exact ⟨rfl, rfl, rfl, rfl⟩

theorem bytesFrom_held (c : Core) (y x skip n : Nat) : bytesFrom (held c y) x skip n = bytesFrom c x skip n :=
  bytesFrom_congr fun z _ => sameBytes_held c y z

/-- A part of a chain, from the place where the header walk finds its first byte. -/
theorem streamOf_part {c : Core} (h : Unpoisoned c) {x : Desc} {at_ n : Nat} (hs : x.skip ≤ (leafAt c x.head).len) (hn : at_ + n ≤ x.len)
    (part : Desc) (hhead : part.head = (locate c x at_).1) (hskip : part.skip = (locate c x at_).2) (hlen : part.len = n) (y : Nat) :
    streamOf (held c y) part = { val := (streamOf c x).val / 2 ^ (8 * at_) % 2 ^ (8 * n), len := n, bad := [] } := by
  obtain ⟨m, hm⟩ := Nat.exists_eq_add_of_le hn
  obtain ⟨hin, hcut⟩ := bytesFrom_cut (fuel := x.len + 1) hs (show at_ < x.len + 1 by omega)
  have hwhole := hcut (n + m)
  rw [← Nat.add_assoc, ← hm] at hwhole
  obtain ⟨-, hcut2⟩ := bytesFrom_cut (fuel := n + 1) hin (Nat.lt_succ_self n)
  have hpart := bytesFrom_lt (c := c) n hin
  rw [streamOf_unpoisoned (unpoisoned_held h y), bytesFrom_held, hhead, hskip, hlen, streamOf_val, hwhole, locate, hcut2]
  have hfirst := bytesFrom_lt (c := c) at_ hs
  congr 1
  rw [Nat.add_mul_div_left _ _ (by positivity), Nat.div_eq_of_lt hfirst, Nat.zero_add, Nat.add_mul_mod_self_left, Nat.mod_eq_of_lt hpart]

theorem unpoisoned_of_clean {c : Core} (h : Clean c) : Unpoisoned c := leafAt_clean h

/-- A share of the part of a chain from a byte on. -/
def partOf (c : Core) (x : Desc) (at_ n : Nat) : Desc :=
  shareOf c { x with head := (locate c x at_).1, skip := (locate c x at_).2, len := n }

@[simp] theorem shareOf_head (c : Core) (d : Desc) : (shareOf c d).head = d.head := by
  obtain ⟨tail, h⟩ := retail_eq (held c d.head) { d with excl := false, part := false }
  rw [shareOf, h]

@[simp] theorem shareOf_skip (c : Core) (d : Desc) : (shareOf c d).skip = d.skip := by
  obtain ⟨tail, h⟩ := retail_eq (held c d.head) { d with excl := false, part := false }
  rw [shareOf, h]

@[simp] theorem shareOf_len (c : Core) (d : Desc) : (shareOf c d).len = d.len := by
  obtain ⟨tail, h⟩ := retail_eq (held c d.head) { d with excl := false, part := false }
  rw [shareOf, h]

@[simp] theorem partOf_len (c : Core) (x : Desc) (at_ n : Nat) : (partOf c x at_ n).len = n := shareOf_len _ _

theorem streamOf_partOf {c : Core} (h : Unpoisoned c) {x : Desc} {at_ n : Nat} (hs : x.skip ≤ (leafAt c x.head).len)
    (hn : at_ + n ≤ x.len) :
    streamOf (held c (locate c x at_).1) (partOf c x at_ n) =
      { val := (streamOf c x).val / 2 ^ (8 * at_) % 2 ^ (8 * n), len := n, bad := [] } :=
  streamOf_part h hs hn _ (shareOf_head _ _) (shareOf_skip _ _) (shareOf_len _ _) _

/-- The elements that a vsplit takes, where the chain has them. -/
theorem min_split {k size len : Nat} (hn : 0 < k * size) (hlen : k * size ≤ len) : min k (len / size) = k :=
  Nat.min_eq_left ((Nat.le_div_iff_mul_le (Nat.pos_of_mul_pos_left hn)).mpr hlen)

section
variable {s : State} {e : VEntry} {r : List VEntry} (h : Due s e r)
include h

section
variable {d a : Reg} {f b : Word} (hop : e.op = .trim d a f b)
include hop

theorem trim_nothing (hlen : (evThread s).v[a.val].len ≤ (f.toNat + b.toNat) * entrySize e) :
    Leads s { evThread s with vq := structural e Desc.empty (evThread s).v[d.val] false :: r } fun c => c = evCore s := by
  refine leads_entry h (by rw [hop]; rfl) ?_ rfl
  rw [Nat.add_mul] at hlen
  simp only [courseOf, hop, trimRun]
  exact if_pos hlen

theorem trim_part (hclean : Clean (evCore s)) (hlen : (f.toNat + b.toNat) * entrySize e < (evThread s).v[a.val].len)
    (hrefs : (leafAt (evCore s) (locate (evCore s) (evThread s).v[a.val] (f.toNat * entrySize e)).1).refs < 63) :
    let x := (evThread s).v[a.val]
    let at_ := f.toNat * entrySize e
    Leads s { evThread s with
        vq := structural e (partOf (evCore s) x at_ (x.len - (f.toNat + b.toNat) * entrySize e)) (evThread s).v[d.val] false :: r
        v := if d = a then (evThread s).v else (evThread s).v.set a.val { x with excl := false } } fun c =>
      c = held (evCore s) (locate (evCore s) x at_).1 := by
  intro x at_
  have hpart : x.len - f.toNat * entrySize e - b.toNat * entrySize e = x.len - (f.toNat + b.toNat) * entrySize e := by
    rw [Nat.add_mul, Nat.sub_sub]
  have hsome : ¬ x.len ≤ f.toNat * entrySize e + b.toNat * entrySize e := by
    rw [← Nat.add_mul]
    exact Nat.not_le.mpr hlen
  have hcourse : courseOf s s.ev.tid e =
      (if d = a then putOwnCore s s.ev.tid (held (evCore s) (locate (evCore s) x at_).1)
        else clearExcl (putOwnCore s s.ev.tid (held (evCore s) (locate (evCore s) x at_).1)) s.ev.tid a,
      structural e (partOf (evCore s) x at_ (x.len - (f.toNat + b.toNat) * entrySize e)) (evThread s).v[d.val] false) := by
    simp only [courseOf, hop, trimRun]
    rw [if_neg hsome, headerWall_clean hclean, headerWall_clean hclean, holdChain_held _ _ hrefs, hpart]
    rfl
  split_ifs with hd
  · rw [if_pos hd] at hcourse
    exact leads_core h (by rw [hop]; rfl) hcourse rfl
  · rw [if_neg hd] at hcourse
    exact leads_cleared h (by rw [hop]; rfl) hcourse rfl

end

section
variable {d a : Reg} {k : Word} (hop : e.op = .split d a k)
include hop

theorem split_nothing (hn : k.toNat * entrySize e = 0) :
    Leads s { evThread s with vq := structural e Desc.empty (evThread s).v[d.val] false :: r } fun c => c = evCore s := by
  refine leads_entry h (by rw [hop]; rfl) ?_ rfl
  have h0 : min k.toNat ((evThread s).v[a.val].len / entrySize e) = 0 := by
    rcases Nat.mul_eq_zero.mp hn with h | h <;> simp [h]
  simp only [courseOf, hop, splitRun]
  exact if_pos h0

variable (hn : 0 < k.toNat * entrySize e)
include hn

theorem split_whole (hlen : (evThread s).v[a.val].len = k.toNat * entrySize e) :
    Leads s { evThread s with
        vq := structural e (evThread s).v[a.val] (evThread s).v[d.val] true :: r, v := (evThread s).v.set a.val Desc.empty } fun c =>
      c = evCore s := by
  refine leads_of_now h (by rw [hop]; rfl) (th := { evThread s with v := (evThread s).v.set a.val Desc.empty }) ?_
    (now_updThread (now_refl s _) fun x => { x with v := x.v.set a.val Desc.empty }) h.queue rfl
  have hmin := min_split hn hlen.symm.le
  simp only [courseOf, hop, splitRun]
  rw [hmin, if_neg (Nat.ne_zero_of_mul_ne_zero_left hn.ne'), if_pos hlen.symm]

theorem split_part (hclean : Clean (evCore s)) (hlen : k.toNat * entrySize e < (evThread s).v[a.val].len)
    (hrefs : (leafAt (evCore s) (locate (evCore s) (evThread s).v[a.val] (k.toNat * entrySize e)).1).refs < 63) :
    let x := (evThread s).v[a.val]
    let n := k.toNat * entrySize e
    let c := held (evCore s) (locate (evCore s) x n).1
    Leads s { evThread s with
        vq := structural e (retail c { part := false, excl := false, skip := x.skip, len := n, tail := x.tail, head := x.head })
          (evThread s).v[d.val] false :: r
        v := (evThread s).v.set a.val (partOf (evCore s) x n (x.len - n)) } fun c' => c' = c := by
  intro x n c
  refine leads_of_now h (by rw [hop]; rfl) (th := { evThread s with v := (evThread s).v.set a.val (partOf (evCore s) x n (x.len - n)) }) ?_
    (now_updThread (now_putOwnCore (now_refl s _) c) fun y => { y with v := y.v.set a.val (partOf (evCore s) x n (x.len - n)) }) h.queue rfl
  have hmin := min_split hn hlen.le
  simp only [courseOf, hop, splitRun]
  rw [hmin, if_neg (Nat.ne_zero_of_mul_ne_zero_left hn.ne'), if_neg hlen.ne, headerWall_clean hclean, chainWall_clean hclean,
    holdChain_held _ _ hrefs]
  rfl

end

end

end Sys2Proof.Proofs
end

section
/-!
vcat (R196, R197): copies of a chain's leaves, each covering exactly the bytes of its piece, linked to the second chain; or the first
chain's own tail linked to it.
-/

namespace Sys2Proof.Proofs

open Sys2Proof Sys2Proof.Machine Sys2Proof.Safety Sys2Proof.Laws

/-! Taking leaves (R274). -/

theorem mapPut_mapPut {α : Type} (m : SMap α) (k : Nat) (v w : α) : mapPut (mapPut m k v) k w = mapPut m k w := by
  induction m with
  | nil => simp [mapPut]
  | cons p r ih =>
    obtain ⟨a, u⟩ := p
    rw [mapPut, mapPut]
    split_ifs with h1 h2
    · simp [mapPut]
    · simp [mapPut]
    · rw [mapPut, if_neg h1, if_neg h2, ih]

theorem putLeaf_putLeaf (c : Core) (x : Nat) (l m : Leaf) : putLeaf (putLeaf c x l) x m = putLeaf c x m := by
  simp only [putLeaf, mapPut_mapPut]

/-- A table grows by one entry at most. -/
theorem length_filter_mapPut {α : Type} (m : SMap α) (k : Nat) (v : α) (p : Nat × α → Bool) :
    ((mapPut m k v).filter p).length ≤ (m.filter p).length + 1 := by
  induction m with
  | nil => simpa [mapPut] using List.length_filter_le p [(k, v)]
  | cons q r ih =>
    obtain ⟨a, u⟩ := q
    rw [mapPut]
    have hcons (l : SMap α) (x : Nat × α) : ((x :: l).filter p).length = (l.filter p).length + if p x then 1 else 0 := by
      rw [List.filter_cons]
      split_ifs <;> simp
    split_ifs with h1 h2
    · rw [hcons (_ :: r)]
      split_ifs <;> omega
    · rw [hcons, hcons]
      split_ifs <;> omega
    · rw [hcons, hcons]
      omega

theorem lheld_putLeaf (c : Core) (x : Nat) (l : Leaf) (th : Fin 4) : lheld (putLeaf c x l) th ≤ lheld c th + 1 :=
  length_filter_mapPut _ _ _ _

/-- The free list has nothing to do with what the leaves hold. -/
theorem takeFree_leaves {c d : Core} {x : Nat} (h : takeFree c = some (x, d)) (l : SMap Leaf) :
    d.leaves = c.leaves ∧ takeFree { c with leaves := l } = some (x, { d with leaves := l }) := by
  unfold takeFree at h ⊢
  dsimp only
  split at h
  next y hy =>
    obtain ⟨rfl, rfl⟩ := Prod.mk.inj (Option.some.inj h)
    exact ⟨rfl, rfl⟩
  next hn =>
    split at h
    next y r hf =>
      obtain ⟨rfl, rfl⟩ := Prod.mk.inj (Option.some.inj h)
      exact ⟨rfl, rfl⟩
    next => cases h

theorem freeLeaves_leaves {xs : List Nat} : ∀ {c d : Core}, FreeLeaves c xs d → ∀ l : SMap Leaf,
    d.leaves = c.leaves ∧ FreeLeaves { c with leaves := l } xs { d with leaves := l } := by
  induction xs with
  | nil =>
    intro c d h l
    obtain rfl : d = c := h
    exact ⟨rfl, rfl⟩
  | cons x r ih =>
    rintro c d ⟨c1, hx, hr⟩ l
    obtain ⟨h1, h2⟩ := takeFree_leaves hx l
    obtain ⟨h3, h4⟩ := ih hr l
    exact ⟨h3.trans h1, _, h2, h4⟩

theorem freeLeaves_append {xs ys : List Nat} : ∀ {c d : Core}, FreeLeaves c (xs ++ ys) d → ∃ c1, FreeLeaves c xs c1 ∧ FreeLeaves c1 ys d := by
  induction xs with
  | nil => exact fun h => ⟨_, rfl, h⟩
  | cons x r ih =>
    rintro c d ⟨c1, hx, hr⟩
    obtain ⟨c2, h1, h2⟩ := ih hr
    exact ⟨c2, ⟨c1, hx, h1⟩, h2⟩

theorem allocLeaf_free {c d : Core} {x : Nat} {th : Fin 4} {budget : Nat} (h : takeFree c = some (x, d)) (hb : lheld c th < budget) :
    allocLeaf c th budget = .ok (x, putLeaf d x { freeLeaf with refs := 1, owner := th }) := by
  simp only [allocLeaf, h, hb, if_true]

/-- Copies of leaves, onto the next free ones. -/
theorem copyLeaves_free {th : Fin 4} {budget : Nat} {srcs : List Nat} : ∀ {c d : Core} {xs : List Nat}, FreeLeaves c xs d →
    srcs.length = xs.length → xs.Nodup → (∀ z ∈ srcs, z ∉ xs) → lheld c th + xs.length ≤ budget →
    ∃ l, copyLeaves th budget c srcs = .ok ({ d with leaves := l }, xs) ∧ lheld { d with leaves := l } th ≤ lheld c th + xs.length ∧
      (∀ z, z ∉ xs → leafAt { d with leaves := l } z = leafAt c z) ∧
      ∀ (i : Nat) x y, srcs[i]? = some x → xs[i]? = some y → leafAt { d with leaves := l } y = { leafAt c x with refs := 1, owner := th } := by
  induction srcs with
  | nil =>
    intro c d xs hf hlen _ _ _
    obtain rfl : xs = [] := List.length_eq_zero_iff.mp hlen.symm
    obtain rfl : d = c := hf
    refine ⟨d.leaves, rfl, Nat.le_refl _, fun _ _ => rfl, ?_⟩
    intro i x y hx
    simp at hx
  | cons x r ih =>
    intro c d xs hf hlen hnd hout hb
    obtain ⟨y, ys, rfl⟩ : ∃ y ys, xs = y :: ys := List.exists_cons_of_ne_nil fun e => by simp [e] at hlen
    obtain ⟨c1, hy, hrest⟩ := hf
    obtain ⟨hynot, hnd'⟩ := List.nodup_cons.1 hnd
    have hxy : x ≠ y := fun e => hout x List.mem_cons_self (e ▸ List.mem_cons_self)
    have hc1 : c1.leaves = c.leaves := (takeFree_leaves hy []).1
    have hat (z : Nat) : leafAt c1 z = leafAt c z := by rw [leafAt, leafAt, hc1]
    rw [List.length_cons] at hlen hb
    let c2 := putLeaf c1 y { leafAt c x with refs := 1, owner := th }
    have hheld : lheld c2 th ≤ lheld c th + 1 := by
      have h := lheld_putLeaf c1 y { leafAt c x with refs := 1, owner := th } th
      rwa [show lheld c1 th = lheld c th by rw [lheld, lheld, hc1]] at h
    obtain ⟨l, hcopy, hl, hkeep, hnew⟩ := ih (c := c2) ((freeLeaves_leaves hrest c2.leaves).2) (by simpa using hlen) hnd'
      (fun z hz hzy => hout z (List.mem_cons_of_mem _ hz) (List.mem_cons_of_mem _ hzy)) (by omega)
    refine ⟨l, ?_, by rw [List.length_cons]; exact hl.trans (by omega), fun z hz => ?_, fun i u v hu hv => ?_⟩
    · rw [copyLeaves, allocLeaf_free hy (by omega)]
      dsimp only
      rw [putLeaf_putLeaf, hcopy]
    · rw [hkeep z fun h => hz (List.mem_cons_of_mem _ h), leafAt_putLeaf_other _ _ fun e : z = y => hz (e ▸ List.mem_cons_self), hat]
    · cases i with
      | zero =>
        cases hu
        cases hv
        rw [hkeep y hynot]
        exact leafAt_putLeaf_self _ _ _
      | succ i =>
        have hu' : u ∈ r := List.mem_of_getElem? hu
        have huy : u ≠ y := fun e => hout u (List.mem_cons_of_mem _ hu') (e ▸ List.mem_cons_self)
        rw [hnew i u v hu hv, leafAt_putLeaf_other _ _ huy, hat]

/-! Linking the copies. -/

/-- Each copy covers its piece. -/
theorem coverPieces_covers {ps : List (Nat × Nat × Nat)} : ∀ {c : Core} {ys : List Nat}, ps.length = ys.length → ys.Nodup →
    ∃ l, coverPieces c ps ys = { c with leaves := l } ∧ (∀ z, z ∉ ys → leafAt (coverPieces c ps ys) z = leafAt c z) ∧
      ∀ (i : Nat) p y, ps[i]? = some p → ys[i]? = some y →
        leafAt (coverPieces c ps ys) y = { leafAt c y with lo := p.2.1, len := p.2.2 - 1 } := by
  induction ps with
  | nil =>
    intro c ys hlen _
    refine ⟨c.leaves, by rw [coverPieces.eq_def], fun _ _ => by rw [coverPieces.eq_def], ?_⟩
    intro i p y hp
    simp at hp
  | cons p r ih =>
    intro c ys hlen hnd
    obtain ⟨y, ys, rfl⟩ : ∃ y ys', ys = y :: ys' := List.exists_cons_of_ne_nil fun e => by simp [e] at hlen
    obtain ⟨hynot, hnd'⟩ := List.nodup_cons.1 hnd
    obtain ⟨x, off, n⟩ := p
    obtain ⟨l, hl, hkeep, hnew⟩ := ih (c := putLeaf c y { leafAt c y with lo := off, len := n - 1 }) (by simpa using hlen) hnd'
    rw [coverPieces]
    refine ⟨l, hl, fun z hz => ?_, fun i q z hq hz => ?_⟩
    · rw [hkeep z fun h => hz (List.mem_cons_of_mem _ h), leafAt_putLeaf_other _ _ fun e : z = y => hz (e ▸ List.mem_cons_self)]
    · cases i with
      | zero =>
        cases hq
        cases hz
        rw [hkeep y hynot]
        exact leafAt_putLeaf_self _ _ _
      | succ i =>
        have hzy : z ≠ y := fun e => hynot (e ▸ List.mem_of_getElem? hz)
        rw [hnew i q z hq hz, leafAt_putLeaf_other _ _ hzy]

/-- Each leaf is linked to the next, the last one to h. -/
theorem linkLeaves_links {h : Nat} {ys : List Nat} : ∀ {c : Core}, ys.Nodup →
    ∃ l, linkLeaves c false h ys = { c with leaves := l } ∧ (∀ z, z ∉ ys → leafAt (linkLeaves c false h ys) z = leafAt c z) ∧
      ∀ (i : Nat) y, ys[i]? = some y → leafAt (linkLeaves c false h ys) y = { leafAt c y with last := false, next := ys[i + 1]?.getD h } := by
  induction ys with
  | nil =>
    intro c _
    refine ⟨c.leaves, rfl, fun _ _ => rfl, ?_⟩
    intro i y hy
    simp at hy
  | cons y r ih =>
    intro c hnd
    obtain ⟨hynot, hnd'⟩ := List.nodup_cons.1 hnd
    cases r with
    | nil =>
      refine ⟨_, rfl, fun z hz => leafAt_putLeaf_other _ _ fun e => hz (e ▸ List.mem_cons_self), fun i z hz => ?_⟩
      cases i with
      | zero =>
        cases hz
        exact leafAt_putLeaf_self _ _ _
      | succ i => simp at hz
    | cons w r =>
      obtain ⟨l, hl, hkeep, hnew⟩ := ih (c := putLeaf c y { leafAt c y with last := false, next := w }) hnd'
      rw [linkLeaves]
      refine ⟨l, hl, fun z hz => ?_, fun i z hz => ?_⟩
      · rw [hkeep z fun h => hz (List.mem_cons_of_mem _ h), leafAt_putLeaf_other _ _ fun e : z = y => hz (e ▸ List.mem_cons_self)]
      · cases i with
        | zero =>
          cases hz
          rw [hkeep y hynot, leafAt_putLeaf_self]
          rfl
        | succ i =>
          have hzy : z ≠ y := fun e => hynot (e ▸ List.mem_of_getElem? hz)
          rw [hnew i z hz, leafAt_putLeaf_other _ _ hzy]
          rfl

/-- Leaves that hold the bytes of pieces, one after another, and then lead to h. -/
def Strung (c f : Core) (h : Nat) (ps : List (Nat × Nat × Nat)) (ys : List Nat) : Prop :=
  ∀ (i : Nat) p y, ps[i]? = some p → ys[i]? = some y → (leafAt f y).len + 1 = p.2.2 ∧ (leafAt f y).lo = p.2.1 ∧
    (leafAt f y).data = (leafAt c p.1).data ∧ (leafAt f y).next = ys[i + 1]?.getD h

theorem bytesFrom_strung {c f : Core} {h : Nat} {ps : List (Nat × Nat × Nat)} : ∀ {ys : List Nat}, Strung c f h ps ys →
    ps.length = ys.length → ∀ m, bytesFrom f (ys.head?.getD h) 0 ((ps.map fun p => p.2.2).sum + m) =
      piecesVal c ps + 2 ^ (8 * (ps.map fun p => p.2.2).sum) * bytesFrom f h 0 m := by
  induction ps with
  | nil =>
    intro ys _ hlen m
    obtain rfl : ys = [] := List.length_eq_zero_iff.mp hlen.symm
    simp [piecesVal]
  | cons p r ih =>
    intro ys hs hlen m
    obtain ⟨y, ys, rfl⟩ : ∃ y ys', ys = y :: ys' := List.exists_cons_of_ne_nil fun e => by simp [e] at hlen
    obtain ⟨x, off, n⟩ := p
    obtain ⟨hn, hlo, hdata, hnext⟩ := hs 0 _ y rfl rfl
    dsimp only at hn hlo hdata
    have hrest := ih (ys := ys) (fun i q z hq hz => hs (i + 1) q z hq hz) (by simpa using hlen) m
    have hnext' : (leafAt f y).next = ys.head?.getD h := by
      rw [hnext]
      cases ys <;> rfl
    rw [List.map_cons, List.sum_cons, List.head?_cons, Option.getD_some, Nat.add_assoc]
    dsimp only
    rw [bytesFrom_across (Nat.zero_le _) (by omega), hnext', hrest, piecesVal, leafBytes, hlo, hdata]
    simp only [Nat.add_zero]
    ring

/-! The start of the second chain. -/

/-- How the second chain is held: by its head, or, when that holds bytes before the chain's first, by a copy of its head without
these, which holds the successor (R196). -/
def joinOnto (c : Core) (th : Fin 4) (budget : Nat) (B : Desc) : Except AllocErr (Core × Nat × Nat) :=
  if B.skip = 0 then
    match holdChain c th budget B with
    | .error e => .error e
    | .ok (c2, y) => .ok (c2, y.head, y.tail)
  else
    match allocLeaf c th budget with
    | .error e => .error e
    | .ok (h, c2) =>
      let l := leafAt c2 B.head
      let tB := if B.head = B.tail then h else B.tail
      if l.last then
        .ok (putLeaf c2 h { l with lo := l.lo + B.skip, len := l.len - B.skip, refs := 1, owner := th, next := 0 }, h, tB)
      else
        match holdLeaf c2 th budget l.next with
        | .error e => .error e
        | .ok (z, c3) =>
          let c4 := putLeaf c3 h { l with lo := l.lo + B.skip, len := l.len - B.skip, refs := 1, owner := th, next := z }
          .ok (c4, h, (retail c4 { B with head := h, skip := 0 }).tail)

theorem catChains_copying (c : Core) (th : Fin 4) (budget : Nat) (A B : Desc) :
    catChains c th budget A B false =
      match copyLeaves th budget c (chainLeaves c A) with
      | .error e => .error e
      | .ok (c1, cs) =>
        match joinOnto c1 th budget B with
        | .error e => .error e
        | .ok (c2, h, tB) =>
          .ok (linkLeaves (coverPieces c2 (pieces c A) cs) false h cs,
            { part := false, excl := false, skip := 0, len := A.len + B.len, tail := tB, head := cs.head?.getD h }) := rfl

/-- The leaf of the second chain that has one holder more. -/
abbrev HeldMore (top : Leaf) (B : Desc) (z : Nat) : Prop := (B.skip = 0 ∧ z = B.head) ∨ (B.skip ≠ 0 ∧ top.last = false ∧ z = top.next)

/-- The copy of the second chain's head without the bytes before the chain's first. -/
def headCopy (top : Leaf) (skip : Nat) (th : Fin 4) : Leaf :=
  { top with lo := top.lo + skip, len := top.len - skip, refs := 1, owner := th, next := if top.last then 0 else top.next }

theorem joinOnto_free {c d : Core} {th : Fin 4} {budget : Nat} {B : Desc} {zs : List Nat} (hf : FreeLeaves c zs d)
    (hlen : zs.length = if B.skip = 0 then 0 else 1)
    (hrefs : if B.skip = 0 then (leafAt c B.head).refs < 63
      else (leafAt c B.head).last = true ∨ ((leafAt c B.head).last = false ∧ (leafAt c (leafAt c B.head).next).refs < 63))
    (hhead : B.head ∉ zs) (hnext : (leafAt c B.head).next ∉ zs) (hb : lheld c th + zs.length ≤ budget) :
    ∃ f h tB, joinOnto c th budget B = .ok (f, h, tB) ∧ f = { d with leaves := f.leaves } ∧
      (∀ z, z ∉ zs → leafAt f z =
        if HeldMore (leafAt c B.head) B z then { leafAt c z with refs := (leafAt c z).refs + 1 } else leafAt c z) ∧
      (B.skip = 0 → h = B.head) ∧ (B.skip ≠ 0 → zs = [h] ∧ leafAt f h = headCopy (leafAt c B.head) B.skip th) := by
  by_cases hs : B.skip = 0
  · rw [if_pos hs] at hlen hrefs
    obtain rfl : zs = [] := List.length_eq_zero_iff.mp hlen
    obtain rfl : d = c := hf
    refine ⟨held d B.head, B.head, (shareOf d B).tail, ?_, rfl, fun z _ => ?_, fun _ => rfl, fun h => absurd hs h⟩
    · rw [joinOnto, if_pos hs, holdChain_held _ _ hrefs]
      exact congrArg (fun x => Except.ok (held d B.head, x, (shareOf d B).tail)) (shareOf_head d B)
    · rw [leafAt_held]
      by_cases hz : z = B.head
      · rw [if_pos hz, if_pos (.inl ⟨hs, hz⟩), hz]
      · rw [if_neg hz, if_neg (by simp [hs, hz])]
  · rw [if_neg hs] at hlen hrefs
    obtain ⟨h, rfl⟩ := List.length_eq_one_iff.mp hlen
    obtain ⟨d', hd, rfl⟩ := hf
    have hne : B.head ≠ h := fun e => hhead (List.mem_singleton.mpr e)
    have hnext' : (leafAt c B.head).next ≠ h := fun e => hnext (List.mem_singleton.mpr e)
    rw [List.length_singleton] at hb
    have hat {z : Nat} (hz : z ≠ h) : leafAt (putLeaf d h { freeLeaf with refs := 1, owner := th }) z = leafAt c z := by
      rw [leafAt_putLeaf_other _ _ hz, leafAt, leafAt, (takeFree_leaves hd []).1]
    rw [joinOnto, if_neg hs, allocLeaf_free hd (by omega)]
    dsimp only
    rw [hat hne]
    by_cases hl : (leafAt c B.head).last = true
    · rw [if_pos hl]
      refine ⟨_, h, _, rfl, rfl, fun z hz => ?_, fun e => absurd e hs, fun _ => ⟨rfl, ?_⟩⟩
      · have hz' : z ≠ h := fun e => hz (List.mem_singleton.mpr e)
        rw [leafAt_putLeaf_other _ _ hz', hat hz', if_neg (by simp [hs, hl])]
      · rw [leafAt_putLeaf_self, headCopy, if_pos hl]
    · have hl' : (leafAt c B.head).last = false := Bool.eq_false_iff.mpr hl
      have hrefs' : (leafAt c (leafAt c B.head).next).refs < 63 := (hrefs.resolve_left hl).2
      rw [if_neg hl, holdLeaf_held _ _ (by rw [hat hnext']; exact hrefs')]
      refine ⟨_, h, _, rfl, rfl, fun z hz => ?_, fun e => absurd e hs, fun _ => ⟨rfl, ?_⟩⟩
      · have hz' : z ≠ h := fun e => hz (List.mem_singleton.mpr e)
        rw [leafAt_putLeaf_other _ _ hz', leafAt_held, hat hnext', hat hz']
        by_cases hzn : z = (leafAt c B.head).next
        · rw [if_pos hzn, if_pos (.inr ⟨hs, hl', hzn⟩), hzn]
        · rw [if_neg hzn, if_neg (by simp [hs, hzn])]
      · rw [leafAt_putLeaf_self, headCopy, if_neg hl]

/-- A copy of a chain's head without the bytes before the chain's first holds the same bytes. -/
theorem bytesFrom_headCopy {c f : Core} {x h skip n : Nat} {th : Fin 4} (hs : skip ≤ (leafAt c x).len)
    (hh : leafAt f h = headCopy (leafAt c x) skip th) (hin : (leafAt c x).last = true → skip + n ≤ (leafAt c x).len + 1)
    (hsame : ∀ y ∈ leavesFrom c x skip n, SameBytes c f y) : bytesFrom f h 0 n = bytesFrom c x skip n := by
  have hleaf (k : Nat) : leafBytes f h 0 k = leafBytes c x skip k := by
    rw [leafBytes, hh]
    rfl
  have hlen : (leafAt f h).len = (leafAt c x).len - skip := by
    rw [hh]
    rfl
  by_cases hn : skip + n ≤ (leafAt c x).len + 1
  · rw [bytesFrom_inside hn, bytesFrom_inside (by omega), hleaf]
  · obtain ⟨k, hk⟩ : ∃ k, (leafAt c x).len + 1 = skip + k := ⟨(leafAt c x).len + 1 - skip, by omega⟩
    obtain ⟨m, rfl⟩ : ∃ m, n = k + m := ⟨n - k, by omega⟩
    have hlast : ¬ (leafAt c x).last = true := fun h => hn (hin h)
    have hnext : (leafAt f h).next = (leafAt c x).next := by
      rw [hh]
      exact if_neg hlast
    rw [leavesFrom_across hs hk] at hsame
    rw [bytesFrom_across hs hk, bytesFrom_across (Nat.zero_le _) (by omega), hleaf, hnext,
      bytesFrom_congr fun y hy => hsame y (List.mem_cons_of_mem _ hy)]

/-! The joined chain. -/

/-- Leaves that are copies of those of pieces, each covering exactly its piece, linked to each other and then to h. -/
def CopiedTo (c f : Core) (th : Fin 4) (h : Nat) (ps : List (Nat × Nat × Nat)) (ys : List Nat) : Prop :=
  ∀ (i : Nat) p y, ps[i]? = some p → ys[i]? = some y → leafAt f y =
    { leafAt c p.1 with lo := p.2.1, len := p.2.2 - 1, refs := 1, owner := th, last := false, next := ys[i + 1]?.getD h }

section
variable {c f : Core} {th : Fin 4} {h : Nat} {ps : List (Nat × Nat × Nat)} {ys : List Nat}

theorem strung_of_copied (hc : CopiedTo c f th h ps ys) (hpos : ∀ p ∈ ps, 0 < p.2.2) : Strung c f h ps ys := by
  intro i p y hp hy
  have hn := hpos p (List.mem_of_getElem? hp)
  rw [hc i p y hp hy]
  exact ⟨Nat.sub_add_cancel hn, rfl, rfl, rfl⟩

theorem copied_mem (hc : CopiedTo c f th h ps ys) (hlen : ps.length = ys.length) {z : Nat} (hz : z ∈ ys) :
    (leafAt f z).refs = 1 ∧ (leafAt f z).owner = th ∧
      ∃ x, (leafAt f z).poison = (leafAt c x).poison ∧ (leafAt f z).hdrPoison = (leafAt c x).hdrPoison := by
  obtain ⟨i, hi⟩ := List.mem_iff_getElem?.mp hz
  have hip : i < ps.length := hlen ▸ (List.getElem?_eq_some_iff.1 hi).1
  rw [hc i _ z (List.getElem?_eq_getElem hip) hi]
  exact ⟨rfl, rfl, ps[i].1, rfl, rfl⟩

theorem copied_of_links {c1 c2 : Core} (hlen : ps.length = ys.length) (hnd : ys.Nodup)
    (hnew : ∀ (i : Nat) x y, (ps.map fun p => p.1)[i]? = some x → ys[i]? = some y → leafAt c1 y = { leafAt c x with refs := 1, owner := th })
    (hkeep : ∀ y ∈ ys, leafAt c2 y = leafAt c1 y) :
    ∃ l, linkLeaves (coverPieces c2 ps ys) false h ys = { c2 with leaves := l } ∧
      (∀ z, z ∉ ys → leafAt (linkLeaves (coverPieces c2 ps ys) false h ys) z = leafAt c2 z) ∧
      CopiedTo c (linkLeaves (coverPieces c2 ps ys) false h ys) th h ps ys := by
  obtain ⟨l1, hl1, hkeep1, hnew1⟩ := coverPieces_covers (c := c2) hlen hnd
  obtain ⟨l2, hl2, hkeep2, hnew2⟩ := linkLeaves_links (h := h) (c := coverPieces c2 ps ys) hnd
  refine ⟨l2, by rw [hl2, hl1], fun z hz => (hkeep2 z hz).trans (hkeep1 z hz), fun i p y hp hy => ?_⟩
  rw [hnew2 i y hy, hnew1 i p y hp hy, hkeep y (List.mem_of_getElem? hy), hnew i p.1 y (by rw [List.getElem?_map, hp]; rfl) hy]

end

theorem head_mem_leavesFrom {c : Core} {x skip n : Nat} (hs : skip ≤ (leafAt c x).len) (hn : n ≠ 0) : x ∈ leavesFrom c x skip n := by
  by_cases h : skip + n ≤ (leafAt c x).len + 1
  · rw [leavesFrom, piecesFrom_inside hn h]
    exact List.mem_singleton.mpr rfl
  · obtain ⟨m, rfl⟩ : ∃ m, n = ((leafAt c x).len + 1 - skip) + m := ⟨n - ((leafAt c x).len + 1 - skip), by omega⟩
    rw [leavesFrom_across hs (by omega)]
    exact List.mem_cons_self

/-- What vcat asks of the free leaves and of the second chain's head, to build the copies. -/
structure Catable (c c1 : Core) (th : Fin 4) (budget : Nat) (A B : Desc) (xs : List Nat) : Prop where
  first : A.len ≠ 0
  second : B.len ≠ 0
  skipFirst : A.skip ≤ (leafAt c A.head).len
  skipSecond : B.skip ≤ (leafAt c B.head).len
  holds : if B.skip = 0 then (leafAt c B.head).refs < 63
    else ((leafAt c B.head).last = true ∧ B.skip + B.len ≤ (leafAt c B.head).len + 1) ∨
      ((leafAt c B.head).last = false ∧ (leafAt c (leafAt c B.head).next).refs < 63)
  free : FreeLeaves c xs c1
  nodup : xs.Nodup
  apart : ∀ z ∈ xs, z ∉ (leafAt c B.head).next :: (chainLeaves c A ++ chainLeaves c B)
  count : xs.length = (chainLeaves c A).length + (if B.skip = 0 then 0 else 1)
  budget : lheld c th + xs.length ≤ budget

section
variable {c c1 : Core} {th : Fin 4} {budget : Nat} {A B : Desc} {xs : List Nat}

theorem Catable.head_not_mem (h : Catable c c1 th budget A B xs) : B.head ∉ xs := fun hm =>
  h.apart _ hm (List.mem_cons_of_mem _ (List.mem_append_right _ (head_mem_leavesFrom h.skipSecond h.second)))

theorem Catable.next_not_mem (h : Catable c c1 th budget A B xs) : (leafAt c B.head).next ∉ xs := fun hm => h.apart _ hm List.mem_cons_self

/-- The joined chain's pool: the copies of the first chain's leaves, then the second chain, held once more. -/
theorem catChains_copies (h : Catable c c1 th budget A B xs) :
    ∃ f ys zs y tB, catChains c th budget A B false =
        .ok (f, { part := false, excl := false, skip := 0, len := A.len + B.len, tail := tB, head := ys.head?.getD y }) ∧
      xs = ys ++ zs ∧ (pieces c A).length = ys.length ∧ CopiedTo c f th y (pieces c A) ys ∧
      (∀ z, z ∉ xs → leafAt f z =
        if HeldMore (leafAt c B.head) B z then { leafAt c z with refs := (leafAt c z).refs + 1 } else leafAt c z) ∧
      (B.skip = 0 → zs = [] ∧ y = B.head) ∧ (B.skip ≠ 0 → zs = [y] ∧ leafAt f y = headCopy (leafAt c B.head) B.skip th) ∧
      f = { c1 with leaves := f.leaves } := by
  obtain ⟨ys, zs, rfl, hys⟩ : ∃ ys zs, xs = ys ++ zs ∧ ys.length = (chainLeaves c A).length :=
    ⟨_, _, (List.take_append_drop (chainLeaves c A).length xs).symm, List.length_take_of_le (by rw [h.count]; omega)⟩
  have hzs : zs.length = if B.skip = 0 then 0 else 1 := by
    have := h.count
    rw [List.length_append, hys] at this
    omega
  obtain ⟨hndy, hndz, hapart⟩ := List.nodup_append.1 h.nodup
  have hhead := h.head_not_mem
  have hnext := h.next_not_mem
  have hbudget := h.budget
  rw [List.mem_append, not_or] at hhead hnext
  rw [List.length_append] at hbudget
  obtain ⟨d, hfy, hfz⟩ := freeLeaves_append h.free
  obtain ⟨l, hcopy, hheld, hkeep, hnew⟩ := copyLeaves_free (th := th) (budget := budget) hfy hys.symm hndy
    (fun z hz hzy => h.apart z (List.mem_append_left _ hzy) (List.mem_cons_of_mem _ (List.mem_append_left _ hz))) (by omega)
  have hatHead := hkeep B.head hhead.1
  have hholds : if B.skip = 0 then (leafAt { d with leaves := l } B.head).refs < 63
      else (leafAt { d with leaves := l } B.head).last = true ∨ ((leafAt { d with leaves := l } B.head).last = false ∧
        (leafAt { d with leaves := l } (leafAt { d with leaves := l } B.head).next).refs < 63) := by
    rw [hatHead, hkeep _ hnext.1]
    have hr := h.holds
    split_ifs at hr ⊢
    · exact hr
    · exact hr.imp And.left id
  obtain ⟨f, y, tB, hjoin, hframe, hkeep2, hplain, hcopied⟩ := joinOnto_free (th := th) (budget := budget)
    (freeLeaves_leaves hfz l).2 hzs hholds hhead.2
    (by rw [hatHead]; exact hnext.2) (by omega)
  rw [hatHead] at hkeep2 hcopied
  have hyz {z : Nat} (hz : z ∈ ys) : z ∉ zs := fun h' => hapart z hz z h' rfl
  have hyf (z : Nat) (hz : z ∈ ys) : leafAt f z = leafAt { d with leaves := l } z := by
    rw [hkeep2 z (hyz hz), if_neg]
    rintro (⟨-, e⟩ | ⟨-, -, e⟩)
    · exact hhead.1 (e ▸ hz)
    · exact hnext.1 (e ▸ hz)
  have hlen : (pieces c A).length = ys.length := by rw [hys, chainLeaves, List.length_map]
  obtain ⟨l', hl', hout, hin⟩ := copied_of_links (h := y) hlen hndy hnew hyf
  refine ⟨_, ys, zs, y, tB, ?_, rfl, hlen, hin, fun z hz => ?_, fun hs => ⟨?_, hplain hs⟩, fun hs => ?_, ?_⟩
  · rw [catChains_copying, hcopy]
    dsimp only
    rw [hjoin]
  · rw [List.mem_append, not_or] at hz
    rw [hout z hz.1, hkeep2 z hz.2, hkeep z hz.1]
  · rw [if_pos hs] at hzs
    exact List.length_eq_zero_iff.mp hzs
  · obtain ⟨hz, hleaf⟩ := hcopied hs
    refine ⟨hz, ?_⟩
    rw [hout y fun hy => hyz hy (by rw [hz]; exact List.mem_singleton.mpr rfl), hleaf]
  · obtain ⟨k, hk⟩ : ∃ k, f = { c1 with leaves := k } := ⟨_, hframe⟩
    rw [hl', hk]

/-- The stream of two chains joined. -/
def joinedStream (c : Core) (A B : Desc) : Stream :=
  { val := (streamOf c A).val + 2 ^ (8 * A.len) * (streamOf c B).val, len := A.len + B.len, bad := [] }

/-- A pool in which only holders of other leaves have changed has the same bytes there. -/
theorem sameBytes_of_kept {f : Core} {x : Nat} {p : Prop} [Decidable p]
    (h : leafAt f x = if p then { leafAt c x with refs := (leafAt c x).refs + 1 } else leafAt c x) : SameBytes c f x := by
  rw [SameBytes, h]
  split_ifs <;> exact ⟨rfl, rfl, rfl, rfl⟩

/-- The chain of copies and the second chain hold both streams, one after the other (R196). -/
theorem catChains_joins (h : Catable c c1 th budget A B xs) (hu : Unpoisoned c) :
    ∃ f part, catChains c th budget A B false = .ok (f, part) ∧ part.len = A.len + B.len ∧ streamOf f part = joinedStream c A B ∧
      (∀ z ∈ xs, (leafAt f z).refs = 1 ∧ (leafAt f z).owner = th) ∧
      (∀ z, z ∉ xs → leafAt f z =
        if HeldMore (leafAt c B.head) B z then { leafAt c z with refs := (leafAt c z).refs + 1 } else leafAt c z) ∧
      f = { c1 with leaves := f.leaves } := by
  obtain ⟨f, ys, zs, y, tB, hcat, rfl, hlen, hcopied, hkeep, hplain, hheadCopy, hframe⟩ := catChains_copies h
  obtain ⟨hsum, hpos⟩ := piecesFrom_sizes (c := c) A.len h.skipFirst
  have hsame (z : Nat) (hz : z ∈ leavesFrom c B.head B.skip B.len) : SameBytes c f z :=
    sameBytes_of_kept (hkeep z fun hm => h.apart z hm (List.mem_cons_of_mem _ (List.mem_append_right _ hz)))
  have hsecond : bytesFrom f y 0 B.len = bytesFrom c B.head B.skip B.len := by
    by_cases hs : B.skip = 0
    · obtain ⟨-, rfl⟩ := hplain hs
      rw [hs] at hsame ⊢
      exact bytesFrom_congr hsame
    · have hin : (leafAt c B.head).last = true → B.skip + B.len ≤ (leafAt c B.head).len + 1 := by
        have := h.holds
        rw [if_neg hs] at this
        rintro hl
        exact (this.resolve_right fun h' => by simp [hl] at h').2
      exact bytesFrom_headCopy h.skipSecond (hheadCopy hs).2 hin hsame
  have hzs {z : Nat} (hz : z ∈ zs) : leafAt f z = headCopy (leafAt c B.head) B.skip th := by
    by_cases hs : B.skip = 0
    · rw [(hplain hs).1] at hz
      cases hz
    · obtain ⟨hy, hleaf⟩ := hheadCopy hs
      rw [hy] at hz
      rw [List.mem_singleton.mp hz, hleaf]
  have hunp : Unpoisoned f := by
    intro z
    by_cases hz : z ∈ ys ++ zs
    · rcases List.mem_append.mp hz with hz | hz
      · obtain ⟨-, -, x, hp, hq⟩ := copied_mem hcopied hlen hz
        rw [hp, hq]
        exact hu x
      · rw [hzs hz]
        exact hu _
    · rw [hkeep z hz]
      split_ifs <;> exact hu z
  refine ⟨f, _, hcat, rfl, ?_, fun z hz => ?_, hkeep, hframe⟩
  · have hbytes := bytesFrom_strung (strung_of_copied hcopied hpos) hlen B.len
    rw [pieces_eq, hsum, hsecond] at hbytes
    rw [streamOf_unpoisoned hunp, hbytes]
    rfl
  · rcases List.mem_append.mp hz with hz | hz
    · obtain ⟨h1, h2, -⟩ := copied_mem hcopied hlen hz
      exact ⟨h1, h2⟩
    · rw [hzs hz]
      exact ⟨rfl, rfl⟩

end

/-! In place. -/

section
variable {c f : Core} {h q : Nat}

/-- A chain whose tail has been cut to its bytes and linked to h: its bytes, then those from h on. -/
theorem bytesFrom_relinked (n : Nat) : ∀ {x skip : Nat}, skip ≤ (leafAt c x).len → n ≠ 0 → (leavesFrom c x skip n).Nodup →
    (∀ y ∈ leavesFrom c x skip n, y ≠ q → SameBytes c f y) → (∀ p, (piecesFrom c x skip n).getLast? = some p → p.1 = q ∧
      leafAt f q = { leafAt c q with len := p.2.2 - 1 + (if q = x then skip else 0), last := false, next := h }) →
    ∀ m, bytesFrom f x skip (n + m) = bytesFrom c x skip n + 2 ^ (8 * n) * bytesFrom f h 0 m := by
  refine walk_induction (motive := fun x skip n => n ≠ 0 → (leavesFrom c x skip n).Nodup →
    (∀ y ∈ leavesFrom c x skip n, y ≠ q → SameBytes c f y) → (∀ p, (piecesFrom c x skip n).getLast? = some p → p.1 = q ∧
      leafAt f q = { leafAt c q with len := p.2.2 - 1 + (if q = x then skip else 0), last := false, next := h }) →
    ∀ m, bytesFrom f x skip (n + m) = bytesFrom c x skip n + 2 ^ (8 * n) * bytesFrom f h 0 m) c
    (fun x skip n hs hn h0 _ _ hlast m => ?_) (fun x skip k m' hs hk hm ih h0 hnd hsame hlast m => ?_) n
  · obtain ⟨hq, hleaf⟩ := hlast (x, (leafAt c x).lo + skip, n) (by rw [piecesFrom_inside h0 hn]; rfl)
    dsimp only at hq hleaf
    subst hq
    rw [if_pos rfl] at hleaf
    have hlen : (leafAt f x).len = n - 1 + skip := by rw [hleaf]
    have hnext : (leafAt f x).next = h := by rw [hleaf]
    have hbytes : leafBytes f x skip n = leafBytes c x skip n := by
      rw [leafBytes, hleaf]
      rfl
    rw [bytesFrom_inside hn, bytesFrom_across (by omega) (by omega), hnext, hbytes]
  · rw [leavesFrom_across hs hk] at hnd hsame
    rw [piecesFrom_across hs hk] at hlast
    obtain ⟨hx, hnd'⟩ := List.nodup_cons.1 hnd
    have hne : piecesFrom c (leafAt c x).next 0 m' ≠ [] := fun e => by
      have := (piecesFrom_sizes (c := c) m' (x := (leafAt c x).next) (Nat.zero_le _)).1
      rw [e] at this
      exact hm.ne this
    have hlast' : ∀ p, (piecesFrom c (leafAt c x).next 0 m').getLast? = some p → p.1 = q ∧ q ≠ x ∧
        leafAt f q = { leafAt c q with len := p.2.2 - 1 + (if q = (leafAt c x).next then 0 else 0), last := false, next := h } := by
      intro p hp
      obtain ⟨hq, hleaf⟩ := hlast p (by rw [List.getLast?_cons, hp]; rfl)
      have hmem : p.1 ∈ leavesFrom c (leafAt c x).next 0 m' := List.mem_map_of_mem (List.mem_of_getLast? hp)
      have hqx : q ≠ x := fun e => hx (hq.trans e ▸ hmem)
      rw [if_neg hqx] at hleaf
      exact ⟨hq, hqx, by rw [ite_self]; exact hleaf⟩
    have hqx : x ≠ q := fun e => (hlast' _ (List.getLast?_eq_some_getLast hne)).2.1 e.symm
    obtain ⟨hdata, hlo, hlen, hnext⟩ := hsame x List.mem_cons_self hqx
    have hbytes : leafBytes f x skip k = leafBytes c x skip k := by rw [leafBytes, hdata, hlo, leafBytes]
    have hrest := ih hm.ne' hnd' (fun y hy => hsame y (List.mem_cons_of_mem _ hy))
      (fun p hp => ⟨(hlast' p hp).1, (hlast' p hp).2.2⟩) m
    rw [Nat.add_assoc, bytesFrom_across (by omega) (by omega), bytesFrom_across hs hk, hnext, hbytes, hrest]
    ring

end

/-- vcat in place asks of the chains that no leaf lies in both, or twice in one, and that the first ends at its tail. -/
structure Linkable (c : Core) (A B : Desc) : Prop where
  first : A.len ≠ 0
  second : B.len ≠ 0
  skipFirst : A.skip ≤ (leafAt c A.head).len
  skipSecond : B.skip = 0
  nodup : (chainLeaves c A ++ chainLeaves c B).Nodup
  tail : (chainLeaves c A).getLast? = some A.tail
  last : (leafAt c A.tail).last = true
  refs : (leafAt c B.head).refs < 63

/-- The first chain's tail, cut to its bytes and linked to the second chain (R197). -/
def linkTail (c : Core) (A B : Desc) (n : Nat) : Core :=
  putLeaf (held c B.head) A.tail
    { leafAt c A.tail with len := n - 1 + (if A.tail = A.head then A.skip else 0), last := false, next := B.head }

section
variable {c : Core} {A B : Desc}

theorem Linkable.lastPiece (h : Linkable c A B) : ∃ p, (pieces c A).getLast? = some p ∧ p.1 = A.tail := by
  have ht := h.tail
  rw [chainLeaves, List.getLast?_map] at ht
  obtain ⟨p, hp, hx⟩ := Option.map_eq_some_iff.mp ht
  exact ⟨p, hp, hx⟩

theorem Linkable.apart (h : Linkable c A B) {z : Nat} (hA : z ∈ chainLeaves c A) : z ∉ chainLeaves c B := fun hB =>
  (List.nodup_append.1 h.nodup).2.2 z hA z hB rfl

theorem Linkable.tail_mem (h : Linkable c A B) : A.tail ∈ chainLeaves c A := List.mem_of_getLast? h.tail

theorem Linkable.head_mem (h : Linkable c A B) : B.head ∈ chainLeaves c B :=
  head_mem_leavesFrom (by rw [h.skipSecond]; exact Nat.zero_le _) h.second

theorem catChains_inplace (h : Linkable c A B) (th : Fin 4) (budget : Nat) :
    ∃ n tB, catChains c th budget A B true =
        .ok (linkTail c A B n, { part := false, excl := false, skip := A.skip, len := A.len + B.len, tail := tB, head := A.head }) ∧
      ∀ p, (pieces c A).getLast? = some p → p.2.2 = n := by
  obtain ⟨p, hp, -⟩ := h.lastPiece
  have htail : leafAt (held c B.head) A.tail = leafAt c A.tail := by
    rw [leafAt_held, if_neg fun e : A.tail = B.head => h.apart h.tail_mem (e ▸ h.head_mem)]
  have hhold : holdChain c th budget B = .ok (held c B.head, shareOf c B) := holdChain_held _ _ h.refs
  refine ⟨p.2.2, (shareOf c B).tail, ?_, fun p' hp' => ?_⟩
  · simp only [catChains, if_true, h.skipSecond, hhold, hp, htail, h.last, shareOf_head]
    rfl
  · rw [hp] at hp'
    rw [Option.some.inj hp']

theorem leafAt_linkTail {n z : Nat} (hz : z ≠ A.tail) : leafAt (linkTail c A B n) z = leafAt (held c B.head) z :=
  leafAt_putLeaf_other _ _ hz

theorem streamOf_linkTail (h : Linkable c A B) (hu : Unpoisoned c) {n : Nat} (hn : ∀ p, (pieces c A).getLast? = some p → p.2.2 = n)
    (part : Desc) (hpart : part.head = A.head ∧ part.skip = A.skip ∧ part.len = A.len + B.len) :
    streamOf (linkTail c A B n) part = joinedStream c A B := by
  obtain ⟨hhead, hskip, hlen⟩ := hpart
  have htail : leafAt (linkTail c A B n) A.tail =
      { leafAt c A.tail with len := n - 1 + (if A.tail = A.head then A.skip else 0), last := false, next := B.head } :=
    leafAt_putLeaf_self _ _ _
  have hsame {z : Nat} (hz : z ≠ A.tail) : SameBytes c (linkTail c A B n) z := by
    rw [SameBytes, leafAt_linkTail hz]
    exact sameBytes_held c B.head z
  have hunp : Unpoisoned (linkTail c A B n) := by
    intro z
    by_cases hz : z = A.tail
    · rw [hz, htail]
      exact hu A.tail
    · rw [leafAt_linkTail hz]
      exact unpoisoned_held hu B.head z
  have hfirst := bytesFrom_relinked (f := linkTail c A B n) (h := B.head) (q := A.tail) A.len h.skipFirst h.first
    (List.nodup_append.1 h.nodup).1 (fun y _ hy => hsame hy) (fun p hp => by
      obtain ⟨p', hp', hq⟩ := h.lastPiece
      obtain rfl := Option.some.inj (hp'.symm.trans hp)
      exact ⟨hq, by rw [htail, hn _ hp]⟩) B.len
  have hsecond : bytesFrom (linkTail c A B n) B.head 0 B.len = bytesFrom c B.head 0 B.len :=
    bytesFrom_congr fun y hy => hsame fun e => h.apart h.tail_mem (by
      rw [chainLeaves_eq, h.skipSecond, ← e]
      exact hy)
  rw [streamOf_unpoisoned hunp, hhead, hskip, hlen, hfirst, hsecond, joinedStream, streamOf_val, streamOf_val, h.skipSecond]

end

/-! The course of a vcat. -/

theorem courseOf_cat {s : State} {e : VEntry} {d a b : Reg} (hop : e.op = .cat d a b) :
    courseOf s s.ev.tid e = catRun s s.ev.tid e d a b := by
  simp only [courseOf, hop]

/-- The fault of a vcat whose result would be too long (R196). -/
def tooLong (e : VEntry) (len : Nat) : FaultInfo :=
  { cause := 0x05, elem := (Config.maxChain - len) / (if vtIll e.vtype then 1 else entrySize e), info := 0, start := 0 }

/-- q is the operand of a vcat that is not empty, where the other is. -/
structure OneOf (th : Thread) (a b q : Reg) : Prop where
  other : (th.v[a.val].len = 0 ∧ q = b) ∨ (th.v[b.val].len = 0 ∧ q = a)
  some : th.v[q.val].len ≠ 0
  fits : th.v[q.val].len < 2 ^ 20

/-- Both operands of a vcat hold bytes, and the result is not too long. -/
structure BothOf (th : Thread) (a b : Reg) : Prop where
  first : th.v[a.val].len ≠ 0
  second : th.v[b.val].len ≠ 0
  fits : th.v[a.val].len + th.v[b.val].len < 2 ^ 20

theorem maxChain_eq : Config.maxChain = 2 ^ 20 - 1 := rfl

section
variable {s : State} {e : VEntry} {r : List VEntry} {d a b q : Reg} (hop : e.op = .cat d a b) (hclean : Clean (evCore s))

section
include hop hclean

/-- With one empty operand, a vcat is a share of the other (R196). -/
theorem courseOf_cat_one (hq : OneOf (evThread s) a b q) :
    courseOf s s.ev.tid e =
      if q = d then (s, unchanged e)
      else
        match holdChain (evCore s) (threadOf s.ev.tid) e.budget (evThread s).v[q.val] with
        | .error x => (s, allocFail e x 0 0)
        | .ok x => (clearExcl (putOwnCore s s.ev.tid x.1) s.ev.tid q, structural e x.2 (evThread s).v[d.val] false) := by
  obtain ⟨hother, hw, hfit⟩ := hq
  have hr : (if (evThread s).v[a.val].len = 0 then b else a) = q := by
    rcases hother with ⟨h0, rfl⟩ | ⟨-, rfl⟩
    · exact if_pos h0
    · exact if_neg hw
  have hsum : ¬ Config.maxChain < (evThread s).v[a.val].len + (evThread s).v[b.val].len := by
    have hmax := maxChain_eq
    rcases hother with ⟨h0, rfl⟩ | ⟨h0, rfl⟩ <;> rw [h0] <;> omega
  have hboth : ¬ ((evThread s).v[a.val].len = 0 ∧ (evThread s).v[b.val].len = 0) := by
    rcases hother with ⟨-, rfl⟩ | ⟨-, rfl⟩
    · exact fun h => hw h.2
    · exact fun h => hw h.1
  rw [courseOf_cat hop, catRun, if_neg hsum, if_neg hboth, if_pos (hother.imp And.left And.left)]
  simp only [hr, chainWall_clean (c := ownCore s s.ev.tid) hclean]
  cases holdChain (ownCore s s.ev.tid) (threadOf s.ev.tid) e.budget (getThread s s.ev.tid).v[q.val] <;> rfl

theorem courseOf_cat_both (hb : BothOf (evThread s) a b) {f : Core} {part : Desc} {inplace : Bool}
    (hin : ((evThread s).v[a.val].excl && decide (d = a) && decide (b ≠ a)) = inplace)
    (hcat : catChains (evCore s) (threadOf s.ev.tid) e.budget (evThread s).v[a.val] (evThread s).v[b.val] inplace = .ok (f, part)) :
    courseOf s s.ev.tid e =
      (if b = d then putOwnCore s s.ev.tid f else clearExcl (putOwnCore s s.ev.tid f) s.ev.tid b,
        structural e part (if inplace then Desc.empty else (evThread s).v[d.val]) false) := by
  obtain ⟨ha, hb, hfit⟩ := hb
  have hsum : ¬ Config.maxChain < (evThread s).v[a.val].len + (evThread s).v[b.val].len := by
    have hmax := maxChain_eq
    omega
  have hcat' : catChains (ownCore s s.ev.tid) (threadOf s.ev.tid) e.budget (getThread s s.ev.tid).v[a.val] (getThread s s.ev.tid).v[b.val]
      inplace = .ok (f, part) := hcat
  have hin' : ((getThread s s.ev.tid).v[a.val].excl && decide (d = a) && decide (b ≠ a)) = inplace := hin
  rw [courseOf_cat hop, catRun, if_neg hsum, if_neg fun h => ha h.1, if_neg fun h => h.elim ha hb]
  simp only [hin', hcat', chainWall_clean (c := ownCore s s.ev.tid) hclean, Option.orElse]
  rfl

end

variable (h : Due s e r)
include h hop

theorem cat_tooLong (hlen : Config.maxChain < (evThread s).v[a.val].len + (evThread s).v[b.val].len) :
    Leads s { evThread s with vq := failWith e (tooLong e (evThread s).v[a.val].len) :: r } fun c => c = evCore s :=
  leads_entry h (by rw [hop]; rfl) ((courseOf_cat hop).trans (if_pos hlen)) rfl

theorem cat_bothEmpty (ha : (evThread s).v[a.val].len = 0) (hb : (evThread s).v[b.val].len = 0) :
    Leads s { evThread s with
        vq := (if (evThread s).v[d.val].len = 0 then unchanged e else structural e Desc.empty (evThread s).v[d.val] false) :: r } fun c =>
      c = evCore s := by
  refine leads_entry h (by rw [hop]; rfl) ((courseOf_cat hop).trans ?_) rfl
  have hfit : ¬ Config.maxChain < (evThread s).v[a.val].len + (evThread s).v[b.val].len := by
    rw [ha, hb]
    decide
  rw [catRun, if_neg hfit, if_pos ⟨ha, hb⟩]
  exact (apply_ite (fun x => (s, x)) _ _ _).symm

include hclean

theorem cat_one_same (hq : OneOf (evThread s) a b q) (hd : q = d) :
    Leads s { evThread s with vq := unchanged e :: r } fun c => c = evCore s :=
  leads_entry h (by rw [hop]; rfl) ((courseOf_cat_one hop hclean hq).trans (if_pos hd)) rfl

theorem cat_one_share (hq : OneOf (evThread s) a b q) (hd : q ≠ d) (hrefs : (leafAt (evCore s) (evThread s).v[q.val].head).refs < 63) :
    let w := (evThread s).v[q.val]
    Leads s { evThread s with
        vq := structural e (shareOf (evCore s) w) (evThread s).v[d.val] false :: r, v := (evThread s).v.set q.val { w with excl := false } }
      fun c => c = held (evCore s) w.head := by
  intro w
  refine leads_cleared h (by rw [hop]; rfl) ((courseOf_cat_one hop hclean hq).trans ?_) rfl
  rw [if_neg hd, holdChain_held _ _ hrefs]
  rfl

theorem leads_cat (hb : BothOf (evThread s) a b) {f : Core} {part : Desc} {inplace : Bool}
    (hin : ((evThread s).v[a.val].excl && decide (d = a) && decide (b ≠ a)) = inplace)
    (hcat : catChains (evCore s) (threadOf s.ev.tid) e.budget (evThread s).v[a.val] (evThread s).v[b.val] inplace = .ok (f, part)) :
    Leads s { evThread s with
        vq := structural e part (if inplace then Desc.empty else (evThread s).v[d.val]) false :: r
        v := if b = d then (evThread s).v else (evThread s).v.set b.val { (evThread s).v[b.val] with excl := false } } fun c => c = f := by
  have hcourse := courseOf_cat_both hop hclean hb hin hcat
  by_cases hd : b = d
  · rw [if_pos hd] at hcourse ⊢
    exact leads_core h (by rw [hop]; rfl) hcourse rfl
  · rw [if_neg hd] at hcourse ⊢
    exact leads_cleared h (by rw [hop]; rfl) hcourse rfl

end

end Sys2Proof.Proofs
end

section
/-!
What one course of an entry that moves whole chains or slots leaves, operation by operation, as the specification says it.
-/

namespace Sys2Proof.Proofs

open Sys2Proof Sys2Proof.Machine Sys2Proof.Safety Sys2Proof.Laws

theorem leads_mono {s : State} {th : Thread} {P Q : Core → Prop} (h : Leads s th P) (hPQ : ∀ c, P c → Q c) : Leads s th Q := by
  obtain ⟨s', hex, hth, hP, hrest⟩ := h
  exact ⟨s', hex, hth, hPQ _ hP, hrest⟩

/-- Only one slot of the core differs, and it is this. -/
def SlotNow (c : Core) (k : Fin 16) (x : Slot) (c' : Core) : Prop :=
  c' = { c with slots := c'.slots } ∧ c'.slots[k] = x ∧ ∀ j, j ≠ k → c'.slots[j] = c.slots[j]

theorem slotNow_putSlot (c : Core) (k : Fin 16) (x : Slot) : SlotNow c k x (putSlot c k x) :=
  ⟨rfl, Vector.getElem_set_self k.isLt, fun j hj => Vector.getElem_set_ne k.isLt j.isLt fun e => hj (Fin.ext e.symm)⟩

/-- One leaf of the pool has one holder more. -/
def HeldNow (c : Core) (x : Nat) (c' : Core) : Prop :=
  leafAt c' x = { leafAt c x with refs := (leafAt c x).refs + 1 } ∧ ∀ y, y ≠ x → leafAt c' y = leafAt c y

theorem heldNow_held (c : Core) (x : Nat) : HeldNow c x (held c x) :=
  ⟨leafAt_putLeaf_self _ _ _, fun _ hy => leafAt_putLeaf_other _ _ hy⟩

/-- The n bytes of a stream from a byte on. -/
def cutStream (st : Stream) (at_ n : Nat) : Stream := { val := st.val / 2 ^ (8 * at_) % 2 ^ (8 * n), len := n, bad := [] }

theorem shareOf_eq (c : Core) (d : Desc) : ∃ tail, shareOf c d = { d with excl := false, part := false, tail := tail } := retail_eq _ _

/-- The code of a slot's state in XINFO (R227). -/
theorem slotInfo_eq (co : Fin 8) (st : SlotState) (k : Nat) :
    slotInfo co st k = co.val * 2 ^ 6 + k + 2 ^ 4 * (match st with | .empty => 0 | .bound => 1 | .target => 2 | .filled => 3) := by
  unfold slotInfo
  cases st <;> dsimp only <;> omega

/-- A pool with one holder more of each of two leaves. -/
theorem leafAt_held_held (c : Core) {x y : Nat} (h : x ≠ y) (z : Nat) :
    leafAt (held (held c x) y) z = if z = x ∨ z = y then { leafAt c z with refs := (leafAt c z).refs + 1 } else leafAt c z := by
  rw [leafAt_held, leafAt_held, leafAt_held, if_neg h.symm]
  by_cases hy : z = y
  · rw [if_pos hy, if_pos (.inr hy), hy]
  · by_cases hx : z = x
    · rw [if_neg hy, if_pos hx, if_pos (.inl hx), hx]
    · rw [if_neg hy, if_neg hx, if_neg fun e => e.elim hx hy]

theorem grouped_type {vt : Nat} (h : grouped vt = true) : vtTy vt = 0 := by
  rw [grouped, Bool.and_eq_true, Bool.and_eq_true, decide_eq_true_eq] at h
  exact h.1.2

theorem grouped_block {vt : Nat} (h : grouped vt = true) :
    blockSize (vtBlock vt) = match vtBlock vt with | 2 => 32 | 3 => 64 | _ => 128 := by
  rw [grouped, Bool.and_eq_true, decide_eq_true_eq] at h
  obtain ⟨-, h2⟩ := h
  generalize vtBlock vt = b at h2
  match b with
  | 2 => rfl
  | 3 => rfl
  | b + 4 => rfl

theorem locate_zero {c : Core} {x : Desc} (hs : x.skip ≤ (leafAt c x.head).len) : locate c x 0 = (x.head, x.skip) := by
  rw [locate, findByte]
  exact if_neg (by omega)

section
variable {s : State} {e : VEntry} {r : List VEntry}

/-- The thread with its oldest entry as it stands now. -/
abbrev headed (s : State) (r : List VEntry) (e' : VEntry) : Thread := { evThread s with vq := e' :: r }

/-- The thread with its oldest entry at a slot's fault (R220, R227). -/
def slotFaulted (s : State) (e : VEntry) (r : List VEntry) (k : Fin 16) : Thread :=
  headed s r { e with
    stalled := false
    fault := some { cause := 0x10, elem := 0, start := 0, info := (coreOf s.ev.tid).val * 2 ^ 6 + k.val +
      2 ^ 4 * (match ((evCore s).slots[k]).st with | .empty => 0 | .bound => 1 | .target => 2 | .filled => 3) } }

theorem slotFaulted_eq (k : Fin 16) : slotFaulted s e r k = headed s r (slotFault s.ev.tid e ((evCore s).slots[k.val]).st k) := by
  rw [slotFaulted, slotFault, slotInfo_eq]
  rfl

variable (h : Due s e r)
include h

theorem course_ttgt (k : Fin 16) (hop : e.op = .ttgt k) :
    (((evCore s).slots[k]).st = .empty →
      Leads s (headed s r (finish e)) (SlotNow (evCore s) k { Slot.reset with st := .target, owner := threadOf s.ev.tid })) ∧
    (((evCore s).slots[k]).st ≠ .empty → Leads s (slotFaulted s e r k) fun c => c = evCore s) := by
  refine ⟨fun hst => leads_mono (ttgt_empty h hop hst) fun _ hc => hc ▸ slotNow_putSlot _ _ _, fun hst => ?_⟩
  rw [slotFaulted_eq]
  exact ttgt_faults h hop hst

theorem course_takes (k : Fin 16) (hop : e.op = .twait k ∨ ∃ d, e.op = .tget d k) :
    (((evCore s).slots[k]).st = .target → Leads s (headed s r { e with stalled := true }) fun c => c = evCore s) ∧
    (((evCore s).slots[k]).st = .empty ∨ ((evCore s).slots[k]).st = .bound → Leads s (slotFaulted s e r k) fun c => c = evCore s) := by
  obtain ⟨d, hop⟩ : ∃ d, Takes e d k := by
    rcases hop with hop | ⟨d, hop⟩
    · exact ⟨none, hop⟩
    · exact ⟨some d, hop⟩
  rw [slotFaulted_eq]
  exact ⟨takes_waits h hop, takes_faults h hop⟩

theorem course_tget (hclean : Clean (evCore s)) (d : Reg) (k : Fin 16) (hop : e.op = .tget d k) (hst : ((evCore s).slots[k]).st = .filled) :
    Leads s (headed s r (structural e ((evCore s).slots[k]).chain (evThread s).v[d.val] false)) (SlotNow (evCore s) k Slot.reset) :=
  leads_mono (tget_takes h hop hst (chainWall_clean hclean _)) fun _ hc => hc ▸ slotNow_putSlot _ _ _

theorem course_tfree (k : Fin 16) (hop : e.op = .tfree k)
    (hst : ((evCore s).slots[k]).st = .empty ∨ ((evCore s).slots[k]).st = .filled ∨
      ∀ q ∈ launchTq s (clusterOf s.ev.tid) (evCore s).launch, entryNames (coreOf s.ev.tid) k q.op = false) :
    Leads s (headed s r (finish e)) fun c => c.slots[k] = Slot.reset ∧ (∀ j, j ≠ k → c.slots[j] = (evCore s).slots[j]) ∧
      c = { release (release (evCore s) ((evCore s).slots[k]).chain) ((evCore s).slots[k]).scale with slots := c.slots } := by
  refine leads_mono (tfree_frees h hop hst) fun c hc => ?_
  obtain ⟨hframe, hself, hother⟩ :=
    slotNow_putSlot (release (release (evCore s) ((evCore s).slots[k]).chain) ((evCore s).slots[k]).scale) k Slot.reset
  rw [release_slots, release_slots] at hother
  rw [hc]
  exact ⟨hself, hother, hframe⟩

theorem course_tbind (a : Reg) (k : Fin 16) (hop : e.op = .tbind a k) :
    let x := (evThread s).v[a.val]
    (((evCore s).slots[k]).st ≠ .empty ∨ x.len = 0 ∨ e.vl = 0 ∨ vtTy e.vtype = 15 → Leads s (slotFaulted s e r k) fun c => c = evCore s) ∧
    (((evCore s).slots[k]).st = .empty → x.len ≠ 0 → e.vl ≠ 0 → vtTy e.vtype ≠ 15 → grouped e.vtype = false →
      (leafAt (evCore s) x.head).refs < 63 →
      Leads s { headed s r (finish e) with v := (evThread s).v.set a.val { x with excl := false } } fun c =>
        HeldNow (evCore s) x.head c ∧
        (∃ tail, c.slots[k] =
          boundSlot e { x with excl := false, part := false, tail := tail } Desc.empty 0 (threadOf s.ev.tid)) ∧
        (∀ j, j ≠ k → c.slots[j] = (evCore s).slots[j]) ∧ c = { evCore s with leaves := c.leaves, slots := c.slots }) := by
  intro x
  refine ⟨fun hbad => ?_, fun hst hlen hvl hty hg hrefs => ?_⟩
  · rw [slotFaulted_eq]
    refine tbind_faults h hop ?_
    rcases hbad with hbad | hbad | hbad | hbad
    · exact .inl hbad
    · exact .inr (.inl hbad)
    · exact .inr (.inr (.inl hbad))
    · exact .inr (.inr (.inr (.inl hbad)))
  · refine leads_mono (tbind_plain h hop hst hlen hvl hty hrefs hg) fun c hc => hc ▸ ?_
    obtain ⟨tail, ht⟩ := shareOf_eq (evCore s) x
    obtain ⟨-, hself, hother⟩ := slotNow_putSlot (held (evCore s) x.head) k
      (boundSlot e (shareOf (evCore s) x) Desc.empty 0 (threadOf s.ev.tid))
    exact ⟨heldNow_held _ _, ⟨tail, hself.trans (congrArg (boundSlot e · Desc.empty 0 (threadOf s.ev.tid)) ht)⟩, hother, rfl⟩

theorem course_tbind_grouped (a : Reg) (k : Fin 16) (hop : e.op = .tbind a k) (hg : grouped e.vtype = true) (ha : a.val < 31) :
    let x := (evThread s).v[a.val]
    let y := (evThread s).v[(a + 1).val]
    (y.len = 0 → Leads s (slotFaulted s e r k) fun c => c = evCore s) ∧
    (((evCore s).slots[k]).st = .empty → x.len ≠ 0 → e.vl ≠ 0 → y.len ≠ 0 → (leafAt (evCore s) x.head).refs < 63 →
      (leafAt (evCore s) y.head).refs < 63 → x.head ≠ y.head →
      Leads s { headed s r (finish e) with
          v := ((evThread s).v.set a.val { x with excl := false }).set (a + 1).val { y with excl := false } } fun c =>
        (∀ z, leafAt c z = if z = x.head ∨ z = y.head then { leafAt (evCore s) z with refs := (leafAt (evCore s) z).refs + 1 }
          else leafAt (evCore s) z) ∧
        (∃ tail last, c.slots[k] =
          { st := .bound, chain := { x with excl := false, part := false, tail := tail }
            scale := { y with excl := false, part := false, tail := last }, rowLen := e.vl, ty := 0
            group := (match vtBlock e.vtype with | 2 => 32 | 3 => 64 | _ => 128), owner := threadOf s.ev.tid }) ∧
        (∀ j, j ≠ k → c.slots[j] = (evCore s).slots[j]) ∧ c = { evCore s with leaves := c.leaves, slots := c.slots }) := by
  intro x y
  refine ⟨fun hy => ?_, fun hst hlen hvl hy hrefs hrefs' hne => ?_⟩
  · rw [slotFaulted_eq]
    exact tbind_faults h hop (.inr (.inr (.inr (.inr ⟨hg, hy⟩))))
  · have hty := grouped_type hg
    have hty' : vtTy e.vtype ≠ 15 := by
      rw [hty]
      decide
    refine leads_mono (tbind_grouped h hop hst hlen hvl hty' hrefs hg ha hy hrefs' hne) fun c hc => hc ▸ ?_
    obtain ⟨tail, ht⟩ := shareOf_eq (evCore s) x
    obtain ⟨last, hl⟩ := shareOf_eq (held (evCore s) x.head) y
    obtain ⟨-, hself, hother⟩ := slotNow_putSlot (held (held (evCore s) x.head) y.head) k
      (boundSlot e (shareOf (evCore s) x) (shareOf (held (evCore s) x.head) y) (blockSize (vtBlock e.vtype)) (threadOf s.ev.tid))
    refine ⟨leafAt_held_held _ hne, ⟨tail, last, hself.trans ?_⟩, hother, rfl⟩
    rw [ht, hl, boundSlot, hty, grouped_block hg]

theorem course_copy (o : CopyOp) (hop : e.op = .copy o) :
    let x := (evThread s).v[o.vidx.val]
    let l := (evCore s).cqs[o.q.val]
    (16 ≤ l.length → Leads s (headed s r { e with stalled := true }) fun c => c = evCore s) ∧
    (l.length < 16 → ¬ Indexed s o → Leads s (headed s r (finish e)) fun c => c = { evCore s with cqs := queued s e o Desc.empty }) ∧
    (l.length < 16 → Indexed s o → (leafAt (evCore s) x.head).refs < 63 →
      Leads s { headed s r (finish e) with v := (evThread s).v.set o.vidx.val { x with excl := false } } fun c =>
        HeldNow (evCore s) x.head c ∧
          ∃ tail, c = { evCore s with leaves := c.leaves, cqs := queued s e o { x with excl := false, part := false, tail := tail } }) := by
  intro x l
  refine ⟨copy_waits h hop, copy_plain h hop, fun hlen hix hrefs => ?_⟩
  refine leads_mono (copy_indexed h hop hlen hix hrefs) fun c hc => hc ▸ ?_
  obtain ⟨tail, ht⟩ := shareOf_eq (evCore s) x
  exact ⟨heldNow_held _ _, tail, congrArg (fun y => { held (evCore s) x.head with cqs := queued s e o y }) ht⟩

theorem course_share (d a : Reg) (hop : e.op = .share d a) :
    let x := (evThread s).v[a.val]
    (d = a → Leads s (headed s r (unchanged e)) fun c => c = evCore s) ∧
    (d ≠ a → x.len = 0 → Leads s (headed s r (structural e Desc.empty (evThread s).v[d.val] true)) fun c => c = evCore s) ∧
    (d ≠ a → x.len ≠ 0 → (leafAt (evCore s) x.head).refs < 63 → ∃ tail,
      Leads s { headed s r (structural e { x with excl := false, part := false, tail := tail } (evThread s).v[d.val] true) with
          v := (evThread s).v.set a.val { x with excl := false } } fun c =>
        HeldNow (evCore s) x.head c ∧ c = { evCore s with leaves := c.leaves }) := by
  intro x
  refine ⟨share_same h hop, share_empty h hop, fun hd hlen hrefs => ?_⟩
  obtain ⟨tail, ht⟩ := shareOf_eq (evCore s) x
  have hl := share_holds h hop hd hlen hrefs
  dsimp only at hl
  rw [show shareOf (evCore s) (evThread s).v[a.val] = _ from ht] at hl
  exact ⟨tail, leads_mono hl fun c hc => hc ▸ ⟨heldNow_held _ _, rfl⟩⟩

theorem course_trim (hclean : Clean (evCore s)) (d a : Reg) (f b : Word) (hop : e.op = .trim d a f b) :
    let x := (evThread s).v[a.val]
    let sz := entrySize e
    let n := x.len - (f.toNat + b.toNat) * sz
    let y := (locate (evCore s) x (f.toNat * sz)).1
    (x.len ≤ (f.toNat + b.toNat) * sz →
      Leads s (headed s r (structural e Desc.empty (evThread s).v[d.val] false)) fun c => c = evCore s) ∧
    ((f.toNat + b.toNat) * sz < x.len → x.skip ≤ (leafAt (evCore s) x.head).len → (leafAt (evCore s) y).refs < 63 → ∃ part, part.len = n ∧
      Leads s { headed s r (structural e part (evThread s).v[d.val] false) with
          v := if d = a then (evThread s).v else (evThread s).v.set a.val { x with excl := false } } fun c =>
        HeldNow (evCore s) y c ∧ streamOf c part = cutStream (streamOf (evCore s) x) (f.toNat * sz) n ∧
          c = { evCore s with leaves := c.leaves }) := by
  intro x sz n y
  refine ⟨trim_nothing h hop, fun hlen hskip hrefs => ?_⟩
  have hpart : f.toNat * sz + n ≤ x.len := by
    have := Nat.add_mul f.toNat b.toNat sz
    omega
  exact ⟨partOf (evCore s) x (f.toNat * sz) n, partOf_len _ _ _ _, leads_mono (trim_part h hop hclean hlen hrefs) fun c hc =>
    hc ▸ ⟨heldNow_held _ y, streamOf_partOf (unpoisoned_of_clean hclean) hskip hpart, rfl⟩⟩

theorem course_split (hclean : Clean (evCore s)) (d a : Reg) (k : Word) (hop : e.op = .split d a k) :
    let x := (evThread s).v[a.val]
    let n := k.toNat * entrySize e
    let y := (locate (evCore s) x n).1
    (n = 0 → Leads s (headed s r (structural e Desc.empty (evThread s).v[d.val] false)) fun c => c = evCore s) ∧
    (0 < n → x.len = n →
      Leads s { headed s r (structural e x (evThread s).v[d.val] true) with v := (evThread s).v.set a.val Desc.empty } fun c => c = evCore s) ∧
    (0 < n → n < x.len → x.skip ≤ (leafAt (evCore s) x.head).len → (leafAt (evCore s) y).refs < 63 → ∃ part rest, part.len = n ∧
      rest.len = x.len - n ∧
      Leads s { headed s r (structural e part (evThread s).v[d.val] false) with v := (evThread s).v.set a.val rest } fun c =>
        HeldNow (evCore s) y c ∧ streamOf c part = cutStream (streamOf (evCore s) x) 0 n ∧
          streamOf c rest = cutStream (streamOf (evCore s) x) n (x.len - n) ∧ c = { evCore s with leaves := c.leaves }) := by
  intro x n y
  refine ⟨split_nothing h hop, split_whole h hop, fun hn hlen hskip hrefs => ?_⟩
  have hu := unpoisoned_of_clean hclean
  have hzero := locate_zero hskip
  let front : Desc := { part := false, excl := false, skip := x.skip, len := n, tail := x.tail, head := x.head }
  obtain ⟨tail, ht⟩ := retail_eq (held (evCore s) y) front
  refine ⟨retail (held (evCore s) y) front, partOf (evCore s) x n (x.len - n), by rw [ht], partOf_len _ _ _ _,
    leads_mono (split_part h hop hn hclean hlen hrefs) fun c hc => ?_⟩
  rw [hc]
  refine ⟨heldNow_held _ y, ?_, streamOf_partOf hu hskip (Nat.add_sub_cancel' hlen.le).le, rfl⟩
  exact streamOf_part hu hskip (by omega) _ (by rw [ht, hzero]) (by rw [ht, hzero]) (by rw [ht]) y

theorem course_cat (hclean : Clean (evCore s)) (d a b : Reg) (hop : e.op = .cat d a b) :
    let x := (evThread s).v[a.val]
    let y := (evThread s).v[b.val]
    let o := (evThread s).v[d.val]
    (2 ^ 20 - 1 < x.len + y.len → Leads s (headed s r (failWith e (tooLong e x.len))) fun c => c = evCore s) ∧
    (x.len = 0 → y.len = 0 →
      Leads s (if o.len = 0 then headed s r (unchanged e) else headed s r (structural e Desc.empty o false)) fun c => c = evCore s) ∧
    (∀ q : Reg, (x.len = 0 ∧ q = b) ∨ (y.len = 0 ∧ q = a) →
      let w := (evThread s).v[q.val]
      w.len ≠ 0 → w.len < 2 ^ 20 →
      (q = d → Leads s (headed s r (unchanged e)) fun c => c = evCore s) ∧
      (q ≠ d → (leafAt (evCore s) w.head).refs < 63 → ∃ tail,
        Leads s { headed s r (structural e { w with excl := false, part := false, tail := tail } o false) with
            v := (evThread s).v.set q.val { w with excl := false } } fun c =>
          HeldNow (evCore s) w.head c ∧ c = { evCore s with leaves := c.leaves })) := by
  intro x y o
  refine ⟨cat_tooLong hop h, fun hx hy => ?_, fun q hq => ?_⟩
  · rw [← apply_ite (headed s r)]
    exact cat_bothEmpty hop h hx hy
  · intro w hw hfit
    have hone : OneOf (evThread s) a b q := ⟨hq, hw, hfit⟩
    refine ⟨cat_one_same hop hclean h hone, fun hd hrefs => ?_⟩
    obtain ⟨tail, ht⟩ := shareOf_eq (evCore s) w
    have hl := cat_one_share hop hclean h hone hd hrefs
    dsimp only at hl
    rw [show shareOf (evCore s) (evThread s).v[q.val] = _ from ht] at hl
    exact ⟨tail, leads_mono hl fun c hc => hc ▸ ⟨heldNow_held _ _, rfl⟩⟩

theorem course_cat_copies (hclean : Clean (evCore s)) (d a b : Reg) (hop : e.op = .cat d a b) (xs : List Nat) (c1 : Core)
    (hin : ¬ ((evThread s).v[a.val].excl = true ∧ d = a ∧ b ≠ a)) (hfit : (evThread s).v[a.val].len + (evThread s).v[b.val].len < 2 ^ 20)
    (hcat : Catable (evCore s) c1 (threadOf s.ev.tid) e.budget (evThread s).v[a.val] (evThread s).v[b.val] xs) :
    let x := (evThread s).v[a.val]
    let y := (evThread s).v[b.val]
    ∃ part, part.len = x.len + y.len ∧
      Leads s { headed s r (structural e part (evThread s).v[d.val] false) with
          v := if b = d then (evThread s).v else (evThread s).v.set b.val { y with excl := false } } fun c =>
        streamOf c part = joinedStream (evCore s) x y ∧
        (∀ z ∈ xs, (leafAt c z).refs = 1 ∧ (leafAt c z).owner = threadOf s.ev.tid) ∧
        (∀ z, z ∉ xs → leafAt c z =
          if HeldMore (leafAt (evCore s) y.head) y z then { leafAt (evCore s) z with refs := (leafAt (evCore s) z).refs + 1 }
          else leafAt (evCore s) z) ∧
        c = { c1 with leaves := c.leaves } := by
  intro x y
  have hplace : (x.excl && decide (d = a) && decide (b ≠ a)) = false := by
    rw [← Bool.not_eq_true]
    simpa [and_assoc] using hin
  obtain ⟨f, part, hf, hlen, hleaves⟩ := catChains_joins hcat (unpoisoned_of_clean hclean)
  exact ⟨part, hlen, leads_mono (leads_cat hop hclean h ⟨hcat.first, hcat.second, hfit⟩ hplace hf) fun c hc => hc ▸ hleaves⟩

theorem course_cat_inplace (hclean : Clean (evCore s)) (d b : Reg) (hop : e.op = .cat d d b) (hdb : d ≠ b)
    (hexcl : (evThread s).v[d.val].excl = true) (hfit : (evThread s).v[d.val].len + (evThread s).v[b.val].len < 2 ^ 20)
    (hlink : Linkable (evCore s) (evThread s).v[d.val] (evThread s).v[b.val]) :
    let x := (evThread s).v[d.val]
    let y := (evThread s).v[b.val]
    ∃ part, part.len = x.len + y.len ∧
      Leads s { headed s r (structural e part Desc.empty false) with v := (evThread s).v.set b.val { y with excl := false } } fun c =>
        streamOf c part = joinedStream (evCore s) x y ∧ (∀ z, z ≠ x.tail → z ≠ y.head → leafAt c z = leafAt (evCore s) z) ∧
        c = { evCore s with leaves := c.leaves } := by
  intro x y
  have hplace : (x.excl && decide (d = d) && decide (b ≠ d)) = true := by
    rw [hexcl]
    simpa using hdb.symm
  obtain ⟨n, tB, hf, hn⟩ := catChains_inplace hlink (threadOf s.ev.tid) e.budget
  have hl := leads_cat hop hclean h ⟨hlink.first, hlink.second, hfit⟩ hplace hf
  rw [if_neg hdb.symm] at hl
  refine ⟨_, rfl, leads_mono hl fun c hc => ?_⟩
  rw [hc]
  refine ⟨streamOf_linkTail hlink (unpoisoned_of_clean hclean) hn _ ⟨rfl, rfl, rfl⟩, fun z hz hz' => ?_, rfl⟩
  rw [leafAt_linkTail hz, leafAt_held, if_neg hz']

end

end Sys2Proof.Proofs
end

section
/-!
SUPPORT. The bytes that one write puts down at a target, and what a write under later writes leaves out (R208, R216).
-/

namespace Sys2Proof.Proofs

open Sys2Proof Sys2Proof.Machine Sys2Proof.Safety Sys2Proof.Laws

/-- No bound queue block is reached by n bytes at a target. -/
def ClearOf (s : State) (t : Target) (n : Nat) : Prop :=
  ∀ pa ser, t = .dev pa ser → ∀ q ∈ s.queues, pa + n ≤ q.2.block ∨ q.2.block + 64 ≤ pa

/-- A state that differs in its memories, and in what is known of their poison, only. -/
def MemoriesOnly (s s' : State) : Prop :=
  s' = { s with mem := s'.mem, spad := s'.spad, peer := s'.peer
                poisonLines := s'.poisonLines, poisonSpad := s'.poisonSpad, overlaid := s'.overlaid }

/-- The bytes of v whose places W names stand at a target, and every other byte is as before. -/
structure BytesPut (s s' : State) (t : Target) (W : Nat → Prop) (v : Nat) : Prop where
  written : ∀ i, W i → tgtRead s' (tgtAdd t i) 1 = v / 2 ^ (8 * i) % 2 ^ 8
  others : ∀ y, (∀ i, W i → touches y 1 (tgtAdd t i) 1 = false) → tgtRead s' y 1 = tgtRead s y 1
  frame : MemoriesOnly s s'

theorem MemoriesOnly.refl (s : State) : MemoriesOnly s s := rfl

theorem MemoriesOnly.trans {s s' s'' : State} (h : MemoriesOnly s s') (h' : MemoriesOnly s' s'') : MemoriesOnly s s'' := by
  rw [MemoriesOnly] at h h' ⊢
  rw [h', h]

theorem MemoriesOnly.queues {s s' : State} (h : MemoriesOnly s s') : s'.queues = s.queues := by
  rw [MemoriesOnly] at h
  rw [h]

theorem memRead_one (m : Memory) (a : Nat) : memRead m a 1 = (memGet m a).toNat := rfl

theorem memRead_memWrite_inside {m : Memory} (h : Memory.wf m = true) (a v : Nat) {n i : Nat} (hi : i < n) :
    memRead (memWrite m a n v) (a + i) 1 = v / 2 ^ (8 * i) % 2 ^ 8 := by
  exact memGet_memWrite_byte h a v hi

theorem memRead_memWrite_outside {m : Memory} (h : Memory.wf m = true) {a n x : Nat} (v : Nat) (hx : x < a ∨ a + n ≤ x) :
    memRead (memWrite m a n v) x 1 = memRead m x 1 := by
  rw [memRead_one, memRead_one, memGet_memWrite_outside h v hx]

@[simp] theorem tgtAdd_zero (t : Target) : tgtAdd t 0 = t := by cases t <;> rfl

theorem tgtAdd_tgtAdd (t : Target) (i j : Nat) : tgtAdd (tgtAdd t i) j = tgtAdd t (i + j) := by
  cases t <;> simp [tgtAdd, Nat.add_assoc]

/-- A target that an access reaches: all but a response with an error. -/
def Answering (t : Target) : Prop := ∀ c, t ≠ .violation c

theorem touches_iff (x y : Target) (n k : Nat) : touches x n y k = true ↔
    Answering x ∧ Answering y ∧ targetKey x < targetKey y + k ∧ targetKey y < targetKey x + n := by
  cases x <;> cases y <;> simp [touches, Answering]

theorem targetKey_tgtAdd {t : Target} (h : Answering t) (i : Nat) : targetKey (tgtAdd t i) = targetKey t + i := by
  cases t with
  | violation c => exact absurd rfl (h c)
  | _ => simp only [tgtAdd, targetKey, peerKey, Nat.add_assoc]

theorem answering_tgtAdd {t : Target} {i : Nat} : Answering (tgtAdd t i) ↔ Answering t := by
  cases t <;> simp [tgtAdd, Answering]

/-- Bytes i and j of a target are two bytes. -/
theorem touches_tgtAdd_other (t : Target) {i j : Nat} (h : i ≠ j) : touches (tgtAdd t i) 1 (tgtAdd t j) 1 = false := by
  refine Bool.eq_false_iff.mpr fun ht => ?_
  obtain ⟨hans, -, hlt, hgt⟩ := (touches_iff ..).mp ht
  rw [answering_tgtAdd] at hans
  rw [targetKey_tgtAdd hans, targetKey_tgtAdd hans] at hlt hgt
  omega

/-- A byte of an access that touches another access makes the whole access touch it. -/
theorem touches_of_byte {t y : Target} {n k i : Nat} (hi : i < n) (h : touches (tgtAdd t i) 1 y k = true) : touches t n y k = true := by
  obtain ⟨hans, hy, hlt, hgt⟩ := (touches_iff ..).mp h
  rw [answering_tgtAdd] at hans
  rw [targetKey_tgtAdd hans] at hlt hgt
  exact (touches_iff ..).mpr ⟨hans, hy, by omega, by omega⟩

/-- A byte that shares none of n places with a run of bytes lies before or after it. -/
theorem outside_of_apart {x a n : Nat} (h : ∀ i, i < n → (decide (x < a + i + 1) && decide (a + i < x + 1)) = false) :
    x < a ∨ a + n ≤ x := by
  by_contra hin
  have := h (x - a) (by omega)
  simp only [Bool.and_eq_false_iff, decide_eq_false_iff_not] at this
  omega

theorem tgtWrite_memory {s : State} {pa : Nat} {ser : Bool} {n : Nat} (h : ClearOf s (.dev pa ser) n) (v : Nat) :
    (tgtWrite s (.dev pa ser) n v).mem = memWrite s.mem pa n v :=
  keepBlocks_free _ _ _ _ fun q hq => by have := h pa ser rfl q hq; omega

/-- A write of n bytes at a target that reaches no queue block. -/
theorem bytesPut_tgtWrite {s : State} (hm : MemoriesOk s) {t : Target} {n : Nat} (ht : Answering t) (hc : ClearOf s t n) (v : Nat) :
    BytesPut s (tgtWrite s t n v) t (· < n) v := by
  obtain ⟨hmem, hspad, hpeer⟩ := hm
  refine ⟨fun i hi => ?_, fun y hy => ?_, tgtWrite_frame s t n v⟩
  · cases t with
    | spad k => exact memRead_memWrite_inside hspad k v hi
    | dev pa ser =>
      rw [tgtAdd, tgtRead, tgtWrite_memory hc]
      exact memRead_memWrite_inside hmem pa v hi
    | peer d pa ser =>
      have := memRead_memWrite_inside hpeer (peerKey d pa) v hi
      rwa [peerKey, Nat.add_assoc] at this
    | violation c => exact absurd rfl (ht c)
  · cases t with
    | spad k =>
      cases y with
      | spad x =>
        refine memRead_memWrite_outside hspad v (outside_of_apart fun i hi => ?_)
        have := hy i hi
        simpa [touches, tgtAdd, targetKey, Nat.add_assoc] using this
      | dev x r => rfl
      | peer d x r => rfl
      | violation c => rfl
    | dev pa ser =>
      cases y with
      | dev x r =>
        rw [tgtRead, tgtRead, tgtWrite_memory hc]
        exact memRead_memWrite_outside hmem v (outside_of_apart hy)
      | spad x => rfl
      | peer d x r => rfl
      | violation c => rfl
    | peer d pa ser =>
      cases y with
      | peer d' x r =>
        refine memRead_memWrite_outside hpeer v (outside_of_apart fun i hi => ?_)
        have := hy i hi
        simpa [touches, tgtAdd, targetKey, peerKey, Nat.add_assoc] using this
      | dev x r => rfl
      | spad x => rfl
      | violation c => rfl
    | violation c => exact absurd rfl (ht c)

/-! A write under later writes (R216). -/

theorem BytesPut.congr {s s' : State} {t : Target} {W W' : Nat → Prop} {v : Nat} (h : BytesPut s s' t W v) (hW : ∀ i, W i ↔ W' i) :
    BytesPut s s' t W' v where
  written i hi := h.written i ((hW i).mpr hi)
  others y hy := h.others y fun i hi => hy i ((hW i).mp hi)
  frame := h.frame

/-- The first byte, if it is put down at all, and then the bytes after it. -/
theorem BytesPut.cons {s s1 s2 : State} {t : Target} {P : Prop} {W : Nat → Prop} {v : Nat} (h1 : BytesPut s s1 t (fun i => i = 0 ∧ P) v)
    (h2 : BytesPut s1 s2 (tgtAdd t 1) W (v / 2 ^ 8)) : BytesPut s s2 t (fun i => (i = 0 ∧ P) ∨ ∃ j, i = 1 + j ∧ W j) v := by
  refine ⟨?_, fun y hy => ?_, h1.frame.trans h2.frame⟩
  · rintro i (⟨rfl, hP⟩ | ⟨j, rfl, hj⟩)
    · rw [h2.others, h1.written 0 ⟨rfl, hP⟩]
      intro j _
      rw [tgtAdd_tgtAdd]
      exact touches_tgtAdd_other t (by omega)
    · have := h2.written j hj
      rwa [tgtAdd_tgtAdd, Nat.div_div_eq_div_mul, ← Nat.pow_add, show 8 + 8 * j = 8 * (1 + j) by omega] at this
  · rw [h2.others, h1.others]
    · exact fun i hi => hy i (.inl hi)
    · intro j hj
      rw [tgtAdd_tgtAdd]
      exact hy (1 + j) (.inr ⟨j, rfl, hj⟩)

/-- The places among n at a target that the later writes leave. -/
def Uncovered (later : List (Target × Nat)) (t : Target) (n i : Nat) : Prop := i < n ∧ coveredBy later (tgtAdd t i) 1 = false

theorem uncovered_succ (later : List (Target × Nat)) (t : Target) (n i : Nat) :
    (i = 0 ∧ coveredBy later t 1 = false) ∨ (∃ j, i = 1 + j ∧ Uncovered later (tgtAdd t 1) n j) ↔ Uncovered later t (n + 1) i := by
  constructor
  · rintro (⟨rfl, h⟩ | ⟨j, rfl, hj, h⟩)
    · exact ⟨by omega, by rwa [tgtAdd_zero]⟩
    · exact ⟨by omega, by rwa [tgtAdd_tgtAdd] at h⟩
  · rintro ⟨hi, h⟩
    cases i with
    | zero => exact .inl ⟨rfl, by rwa [tgtAdd_zero] at h⟩
    | succ j => exact .inr ⟨j, by omega, by omega, by rwa [tgtAdd_tgtAdd, Nat.add_comm 1 j]⟩

/-- Pieces that leave a whole access alone leave each of its bytes alone. -/
theorem uncovered_of_whole {later : List (Target × Nat)} {t : Target} {n : Nat} (h : coveredBy later t n = false) (i : Nat) :
    i < n ↔ Uncovered later t n i := by
  refine ⟨fun hi => ⟨hi, ?_⟩, fun hi => hi.1⟩
  simp only [coveredBy, List.any_eq_false] at h ⊢
  exact fun q hq ht => h q hq (touches_of_byte hi ht)

theorem ClearOf.tail {s s' : State} {t : Target} {n : Nat} (h : ClearOf s t (n + 1)) (hs : MemoriesOnly s s') : ClearOf s' (tgtAdd t 1) n := by
  intro pa ser ht q hq
  rw [hs.queues] at hq
  cases t with
  | dev a r =>
    obtain ⟨rfl, rfl⟩ : a + 1 = pa ∧ r = ser := by simpa [tgtAdd] using ht
    have := h a r rfl q hq
    omega
  | _ => cases ht

theorem ClearOf.first {s : State} {t : Target} {n : Nat} (h : ClearOf s t (n + 1)) : ClearOf s t 1 := fun pa ser ht q hq => by
  have := h pa ser ht q hq
  omega

/-- One byte at a target, unless a later write has it. -/
theorem bytesPut_byte {s : State} (hm : MemoriesOk s) {t : Target} (ht : Answering t) (hc : ClearOf s t 1) (later : List (Target × Nat)) (v : Nat) :
    BytesPut s (if coveredBy later t 1 then s else tgtWrite s t 1 (v % 256)) t (fun i => i = 0 ∧ coveredBy later t 1 = false) v := by
  by_cases hcov : coveredBy later t 1 = true
  · rw [if_pos hcov]
    exact ⟨fun i hi => absurd hcov (by simp [hi.2]), fun _ _ => rfl, .refl s⟩
  · rw [if_neg hcov]
    have h := bytesPut_tgtWrite hm ht hc (v % 256)
    refine ⟨?_, fun y hy => h.others y fun i hi => hy i ⟨by omega, by simpa using hcov⟩, h.frame⟩
    rintro i ⟨rfl, -⟩
    rw [h.written 0 Nat.zero_lt_one]
    simp

theorem bytesPut_writeUncovered {s : State} (hm : MemoriesOk s) {t : Target} (ht : Answering t) (later : List (Target × Nat)) {n k : Nat}
    (hc : ClearOf s (tgtAdd t k) n) (v : Nat) :
    BytesPut s (writeUncovered s t later k n v) (tgtAdd t k) (Uncovered later (tgtAdd t k) n) v := by
  induction n generalizing s k v with
  | zero => exact ⟨fun i hi => absurd hi.1 (Nat.not_lt_zero i), fun _ _ => rfl, .refl s⟩
  | succ n ih =>
    have h1 := bytesPut_byte hm (answering_tgtAdd.mpr ht) hc.first later v
    have hm1 : MemoriesOk (if coveredBy later (tgtAdd t k) 1 then s else tgtWrite s (tgtAdd t k) 1 (v % 256)) := by
      split
      · exact hm
      · exact memoriesOk_tgtWrite hm _ _ _
    have h2 := ih hm1 (k := k + 1) (by rw [← tgtAdd_tgtAdd]; exact hc.tail h1.frame) (v / 256)
    rw [← tgtAdd_tgtAdd] at h2
    exact (h1.cons h2).congr (uncovered_succ later _ n)

theorem tgtRead_clearWritten (s : State) (t y : Target) (later : List (Target × Nat)) (n k : Nat) :
    tgtRead (clearWritten s t later n) y k = tgtRead s y k := by
  cases t <;> cases y <;> rfl

theorem memoriesOnly_clearWritten (s : State) (t : Target) (later : List (Target × Nat)) (n : Nat) :
    MemoriesOnly s (clearWritten s t later n) := by
  cases t <;> rfl

/-- A write of n bytes puts down the bytes that no later write has, and no other. -/
theorem bytesPut_writeUnder {s : State} (hm : MemoriesOk s) {t : Target} (ht : Answering t) (later : List (Target × Nat)) {n : Nat}
    (hc : ClearOf s t n) (v : Nat) : BytesPut s (writeUnder s t later n v) t (Uncovered later t n) v := by
  rw [writeUnder]
  split
  next =>
    have h := bytesPut_writeUncovered hm ht later (k := 0) (by rwa [tgtAdd_zero]) v
    rw [tgtAdd_zero] at h
    exact ⟨fun i hi => by rw [tgtRead_clearWritten, h.written i hi], fun y hy => by rw [tgtRead_clearWritten, h.others y hy],
      h.frame.trans (memoriesOnly_clearWritten ..)⟩
  next hcov => exact (bytesPut_tgtWrite hm ht hc v).congr (uncovered_of_whole (Bool.eq_false_iff.mpr hcov))

end Sys2Proof.Proofs
end

section
/-!
SUPPORT. A copy engine's accesses that fit in their pages: one piece each (R215, R217).
-/

namespace Sys2Proof.Proofs

open Sys2Proof Sys2Proof.Machine Sys2Proof.Safety Sys2Proof.Laws

/-- w bytes at an address lie in one page, and in one scratchpad when they lie in the window. -/
def FitsAt (base : Nat) (va : Word) (w : Nat) : Prop :=
  va.toNat % 4096 + w ≤ 4096 ∧ (va.toNat < base ∨ base + 2 ^ 23 ≤ va.toNat ∨ (va.toNat - base) % 2 ^ 20 + w ≤ 2 ^ 20)

/-- An access to the window that resolves ends below the declared bound (R137, R289). -/
theorem resolve_window {s : State} {p : Party} {va : Word} {w : Nat} {k : MKind} {y : Target} (h : resolve s p va w k = .ok y)
    (hw : inWindow (getCtx s p.ctx).spbase.toNat va = true) :
    (va.toNat - (getCtx s p.ctx).spbase.toNat) % Config.spadBytes + w ≤ spadLimit s p.launch := by
  simp only [inWindow, Bool.and_eq_true, decide_eq_true_eq] at hw
  rw [resolve] at h
  dsimp only at h
  rw [if_pos hw] at h
  split at h
  next hok => exact hok.1
  next => cases h

theorem pieceLen_fits {s : State} {g : Engine} {va : Word} {w : Nat} {k : MKind} {y : Target}
    (hfit : FitsAt (getCtx s g.party.ctx).spbase.toNat va w) (h : resolve s g.party va w k = .ok y) : pieceLen s g va w = w := by
  obtain ⟨hpage, hpad⟩ := hfit
  have hmin : min w (4096 - va.toNat % 4096) = w := by omega
  rw [pieceLen]
  dsimp only
  rw [hmin]
  split
  next hw =>
    have hlim := resolve_window h hw
    rw [if_neg (by omega)]
    simp only [inWindow, Bool.and_eq_true, decide_eq_true_eq] at hw
    have e : Config.windowBytes = 2 ^ 23 := rfl
    have e' : Config.spadBytes = 2 ^ 20 := rfl
    rw [e'] at hlim ⊢
    rw [e] at hw
    omega
  next => rfl

theorem engineRead_zero (g : Engine) (dflt fuel : Nat) (s : State) (va : Word) : engineRead g dflt fuel s va 0 = (s, 0) := by
  cases fuel with
  | zero => rfl
  | succ n => rw [engineRead, if_pos rfl]

theorem engineWrite_zero (g : Engine) (later : List (Target × Nat)) (fuel : Nat) (s : State) (va : Word) (v : Nat) :
    engineWrite g later fuel s va 0 v = s := by
  cases fuel with
  | zero => rfl
  | succ n => rw [engineWrite, if_pos rfl]

theorem rowPieces_zero (s : State) (g : Engine) (fuel : Nat) (va : Word) : rowPieces s g fuel va 0 = [] := by
  cases fuel with
  | zero => rfl
  | succ n => rw [rowPieces, if_pos rfl]

/-- A read of one piece that answers gives its bytes. -/
theorem engineRead_fits {s : State} {g : Engine} {va : Word} {w : Nat} {t : Target} (hw : 0 < w)
    (hfit : FitsAt (getCtx s g.party.ctx).spbase.toNat va w) (hres : resolve s g.party va w .load = .ok t) (ht : Answering t)
    (hpoison : tgtPoison s t w = false) (dflt : Nat) : engineRead g dflt (w + 1) s va w = (s, tgtRead s t w) := by
  rw [engineRead, if_neg (by omega)]
  dsimp only
  rw [pieceLen_fits hfit hres, hres, Nat.sub_self]
  cases t with
  | violation c => exact absurd rfl (ht c)
  | _ =>
    dsimp only
    rw [hpoison, if_neg Bool.false_ne_true, engineRead_zero, Nat.mul_zero, Nat.add_zero]

/-- A write of one piece that answers, and that no serial page refuses, is one write under the later ones. -/
theorem engineWrite_fits {s : State} {g : Engine} {va : Word} {w : Nat} {t : Target} (hw : 0 < w)
    (hfit : FitsAt (getCtx s g.party.ctx).spbase.toNat va w) (hres : resolve s g.party va w .store = .ok t) (ht : Answering t)
    (hser : serialCheck s g.party.ctx t va w = none) (later : List (Target × Nat)) (v : Nat) :
    engineWrite g later (w + 1) s va w v = writeUnder s t later w (v % 2 ^ (8 * w)) := by
  rw [engineWrite, if_neg (by omega)]
  dsimp only
  rw [pieceLen_fits hfit hres, hres, Nat.sub_self, engineWrite_zero]
  dsimp only
  rw [storeTarget, hser]
  cases t with
  | violation c => exact absurd rfl (ht c)
  | _ => rfl

theorem rowPieces_fits {s : State} {g : Engine} {va : Word} {w : Nat} {t : Target} (hw : 0 < w)
    (hfit : FitsAt (getCtx s g.party.ctx).spbase.toNat va w) (hres : resolve s g.party va w .store = .ok t) :
    rowPieces s g (w + 1) va w = [(t, w)] := by
  rw [rowPieces, if_neg (by omega)]
  dsimp only
  rw [pieceLen_fits hfit hres, hres, Nat.sub_self, rowPieces_zero]

theorem readSegs_fits {s : State} {g : Engine} {va : Word} {w : Nat} {t : Target} (hw : 0 < w)
    (hfit : FitsAt (getCtx s g.party.ctx).spbase.toNat va w) (hres : resolve s g.party va w .load = .ok t) (ht : Answering t)
    (hpoison : tgtPoison s t w = false) (dflt : Nat) : readSegs g dflt s [(va, 0, w)] = (s, tgtRead s t w) := by
  rw [readSegs, engineRead_fits hw hfit hres ht hpoison]
  simp [readSegs]

/-- A row of one piece puts down the bytes of v that no later row has. -/
theorem bytesPut_writeSegs {s : State} (hm : MemoriesOk s) {g : Engine} {va : Word} {w : Nat} {t : Target} (hw : 0 < w)
    (hfit : FitsAt (getCtx s g.party.ctx).spbase.toNat va w) (hres : resolve s g.party va w .store = .ok t) (ht : Answering t)
    (hser : serialCheck s g.party.ctx t va w = none) (hc : ClearOf s t w) (later : List (Target × Nat)) (v : Nat) :
    BytesPut s (writeSegs g later v s [(va, 0, w)]) t (Uncovered later t w) v := by
  rw [writeSegs, engineWrite_fits hw hfit hres ht hser]
  have h := bytesPut_writeUnder hm ht later hc (bitsOf v (8 * 0) (8 * w) % 2 ^ (8 * w))
  refine ⟨fun i hi => (h.written i hi).trans ?_, h.others, h.frame⟩
  have hlt : i < w := hi.1
  rw [bitsOf, Nat.mul_zero, Nat.pow_zero, Nat.div_one, Nat.mod_mod, show 8 * w = 8 * i + 8 * (w - i) by omega, Nat.pow_add,
    Nat.mod_mul_right_div_self, Nat.mod_mod_of_dvd _ (Nat.pow_dvd_pow 2 (by omega))]

end Sys2Proof.Proofs
end

section
/-!
One row of a copy, form by form (R215, R216): an unswizzled row whose two sides are one piece each.
-/

namespace Sys2Proof.Proofs

open Sys2Proof Sys2Proof.Machine Sys2Proof.Safety Sys2Proof.Laws

/-- A row's source is one piece that answers with bytes that are not poisoned. -/
structure ReadsAt (s : State) (g : Engine) (va : Word) (w : Nat) (t : Target) : Prop where
  pos : 0 < w
  fits : FitsAt (getCtx s g.party.ctx).spbase.toNat va w
  answers : Answering t
  resolves : resolve s g.party va w .load = .ok t
  clean : tgtPoison s t w = false

/-- A row's destination is one piece that no serial page refuses and that reaches no queue block. -/
structure WritesAt (s : State) (g : Engine) (va : Word) (w : Nat) (t : Target) : Prop where
  pos : 0 < w
  fits : FitsAt (getCtx s g.party.ctx).spbase.toNat va w
  answers : Answering t
  resolves : resolve s g.party va w .store = .ok t
  allowed : serialCheck s g.party.ctx t va w = none
  clear : ClearOf s t w

/-- The index of a row of an index chain that no leaf spoils. -/
def indexAt (c : Core) (x : Copy) (k : Nat) : Nat := streamElem (streamOf c x.idx) (x.fillw.toNat % 2 ^ 32) 4 k

/-- The address of a row's side: by the row's number, or by its index when the side is a table. -/
def placeAt (at_ : Word) (pitch k : Nat) : Word := at_ + BitVec.ofNat 64 (k * pitch)

theorem ReadsAt.read {s : State} {g : Engine} {va : Word} {w : Nat} {t : Target} (h : ReadsAt s g va w t) (dflt : Nat) :
    readSegs g dflt s [(va, 0, w)] = (s, tgtRead s t w) := readSegs_fits h.pos h.fits h.resolves h.answers h.clean dflt

theorem fillRow_succ (b : Byte) (n : Nat) : fillRow b (n + 1) = fillRow b n + b.toNat * 2 ^ (8 * n) := by
  rw [fillRow, fillRow, upFrom_zero_eq_range, upFrom_zero_eq_range, List.range_succ, List.foldl_append]
  rfl

theorem fillRow_lt (b : Byte) (n : Nat) : fillRow b n < 2 ^ (8 * n) := by
  induction n with
  | zero => exact Nat.one_pos
  | succ n ih =>
    have hb : b.toNat * 2 ^ (8 * n) ≤ 255 * 2 ^ (8 * n) := Nat.mul_le_mul_right _ (Nat.le_of_lt_succ b.isLt)
    rw [fillRow_succ, Nat.mul_add_one, Nat.pow_add]
    omega

/-- Every byte of such a row is the fill byte. -/
theorem fillRow_byte (b : Byte) {n i : Nat} (hi : i < n) : fillRow b n / 2 ^ (8 * i) % 2 ^ 8 = b.toNat := by
  induction n with
  | zero => exact absurd hi (Nat.not_lt_zero i)
  | succ n ih =>
    rw [fillRow_succ]
    by_cases hlast : i = n
    · rw [hlast, Nat.add_mul_div_right _ _ (by positivity), Nat.div_eq_of_lt (fillRow_lt b n), Nat.zero_add, Nat.mod_eq_of_lt b.isLt]
    · have hplace : b.toNat * 2 ^ (8 * n) = 2 ^ (8 * i) * (2 ^ 8 * (b.toNat * 2 ^ (8 * (n - i - 1)))) := by
        rw [show 8 * n = 8 * i + 8 + 8 * (n - i - 1) by omega, Nat.pow_add, Nat.pow_add]
        ring
      rw [hplace, Nat.add_mul_div_left _ _ (by positivity), Nat.add_mul_mod_self_left]
      exact ih (by omega)

theorem copyIndex_unpoisoned {c : Core} (h : Unpoisoned c) (x : Copy) (k : Nat) : copyIndex c x k = some (indexAt c x k) := by
  have hbad : streamBad (streamOf c x.idx) 4 k = false := by
    rw [streamOf_unpoisoned h, streamBad]
    exact Bool.and_false _
  rw [copyIndex, hbad]
  rfl

theorem rowSegs_plain (base : Word) (pitch r w : Nat) : rowSegs base pitch r w 0 = [(placeAt base pitch r, 0, w)] := rfl

section
variable {s : State} {cl : Fin 64} {co : Fin 8} {x : Copy} {r : Nat} {src dst : Target}

theorem copySwz_plain {o : CopyOp} (h : o.shape.toNat / 2 ^ 32 = 0) : copySwz o = 0 := by
  rw [copySwz, bitsOf, h, Nat.zero_mod]

theorem dstSwz_plain {o : CopyOp} (h : o.shape.toNat / 2 ^ 32 = 0) (base : Nat) : dstSwz base o = 0 := by
  rw [dstSwz, copySwz_plain h, ite_self]

theorem srcSwz_plain {o : CopyOp} (h : o.shape.toNat / 2 ^ 32 = 0) (base : Nat) : srcSwz base o = 0 := by
  rw [srcSwz, copySwz_plain h, ite_self]

/-- The row's bytes as they go to its destination, the later ones of its table left out. -/
def rowOut (s : State) (cl : Fin 64) (co : Fin 8) (x : Copy) (later : List (Target × Nat)) (va : Word) (v : Nat) : State :=
  writeSegs (copyEngine cl co x) later v s [(va, 0, copyWidth x.op)]

theorem copyRowMove_cpy (hk : x.op.kind = .cpy) (hlin : x.op.shape.toNat / 2 ^ 32 = 0)
    (hr : ReadsAt s (copyEngine cl co x) (placeAt x.op.src (copySpitch x.op) r) (copyWidth x.op) src) :
    copyRowMove s cl co x r = rowOut s cl co x [] (placeAt x.op.dst (copyDpitch x.op) r) (tgtRead s src (copyWidth x.op)) := by
  simp only [copyRowMove, hk, srcSwz_plain hlin, dstSwz_plain hlin, rowSegs_plain, hr.read, rowOut]

theorem copyRowMove_cpyf (hk : x.op.kind = .cpyf) (hlin : x.op.shape.toNat / 2 ^ 32 = 0) :
    copyRowMove s cl co x r = rowOut s cl co x [] (placeAt x.op.dst (copyDpitch x.op) r) (fillRow x.op.fill (copyWidth x.op)) := by
  simp only [copyRowMove, hk, dstSwz_plain hlin, rowSegs_plain, rowOut]

theorem copyRowMove_cpyg_beyond (hk : x.op.kind = .cpyg) (hlin : x.op.shape.toNat / 2 ^ 32 = 0) (hu : Unpoisoned (getCore s cl co))
    (hb : x.op.bound.toNat ≤ indexAt (getCore s cl co) x r) :
    copyRowMove s cl co x r = rowOut s cl co x [] (placeAt x.op.dst (copyDpitch x.op) r) (fillRow x.op.fill (copyWidth x.op)) := by
  simp only [copyRowMove, hk, copyIndex_unpoisoned hu, if_pos hb, dstSwz_plain hlin, rowSegs_plain, rowOut]

theorem copyRowMove_cpyg_within (hk : x.op.kind = .cpyg) (hlin : x.op.shape.toNat / 2 ^ 32 = 0) (hu : Unpoisoned (getCore s cl co))
    (hb : ¬ x.op.bound.toNat ≤ indexAt (getCore s cl co) x r)
    (hr : ReadsAt s (copyEngine cl co x) (placeAt x.op.src (copySpitch x.op) (indexAt (getCore s cl co) x r)) (copyWidth x.op) src) :
    copyRowMove s cl co x r = rowOut s cl co x [] (placeAt x.op.dst (copyDpitch x.op) r) (tgtRead s src (copyWidth x.op)) := by
  have hread := hr.read x.op.fill.toNat
  rw [placeAt] at hread
  simp only [copyRowMove, hk, copyIndex_unpoisoned hu, if_neg hb, dstSwz_plain hlin, rowSegs_plain, hread, rowOut]

theorem copyRowMove_cpys_beyond (hk : x.op.kind = .cpys) (hu : Unpoisoned (getCore s cl co))
    (hb : x.op.bound.toNat ≤ indexAt (getCore s cl co) x r) : copyRowMove s cl co x r = s := by
  simp only [copyRowMove, hk, copyIndex_unpoisoned hu, if_pos hb]

theorem copyRowMove_cpys_within (hk : x.op.kind = .cpys) (hlin : x.op.shape.toNat / 2 ^ 32 = 0) (hu : Unpoisoned (getCore s cl co))
    (hb : ¬ x.op.bound.toNat ≤ indexAt (getCore s cl co) x r)
    (hr : ReadsAt s (copyEngine cl co x) (placeAt x.op.src (copySpitch x.op) r) (copyWidth x.op) src) :
    copyRowMove s cl co x r = rowOut s cl co x (laterRows s (copyEngine cl co x) (getCore s cl co) x r)
      (placeAt x.op.dst (copyDpitch x.op) (indexAt (getCore s cl co) x r)) (tgtRead s src (copyWidth x.op)) := by
  have hread := hr.read 0
  rw [placeAt] at hread
  simp only [copyRowMove, hk, copyIndex_unpoisoned hu, if_neg hb, srcSwz_plain hlin, rowSegs_plain, placeAt, hread, rowOut]

theorem bytesPut_rowOut (hm : MemoriesOk s) {va : Word} (hw : WritesAt s (copyEngine cl co x) va (copyWidth x.op) dst)
    (later : List (Target × Nat)) (v : Nat) : BytesPut s (rowOut s cl co x later va v) dst (Uncovered later dst (copyWidth x.op)) v :=
  bytesPut_writeSegs hm hw.pos hw.fits hw.resolves hw.answers hw.allowed hw.clear later v

/-- The later rows of a scatter, each within the bound and of one piece, cover a byte when one of them reaches it (R216). -/
theorem coveredBy_laterRows (hu : Unpoisoned (getCore s cl co)) (hpos : 0 < copyWidth x.op) {later : Nat → Target}
    (hl : ∀ k, r < k → k < copyRows x.op → ¬ x.op.bound.toNat ≤ indexAt (getCore s cl co) x k →
      FitsAt (getCtx s x.ctx).spbase.toNat (placeAt x.op.dst (copyDpitch x.op) (indexAt (getCore s cl co) x k)) (copyWidth x.op) ∧
      resolve s (copyEngine cl co x).party (placeAt x.op.dst (copyDpitch x.op) (indexAt (getCore s cl co) x k)) (copyWidth x.op) .store =
        .ok (later k)) (t : Target) :
    coveredBy (laterRows s (copyEngine cl co x) (getCore s cl co) x r) t 1 = false ↔
      ∀ k, r < k → k < copyRows x.op → ¬ x.op.bound.toNat ≤ indexAt (getCore s cl co) x k →
        touches t 1 (later k) (copyWidth x.op) = false := by
  have hmem : ∀ q, q ∈ laterRows s (copyEngine cl co x) (getCore s cl co) x r ↔
      ∃ k, r < k ∧ k < copyRows x.op ∧ ¬ x.op.bound.toNat ≤ indexAt (getCore s cl co) x k ∧ q = (later k, copyWidth x.op) := by
    intro q
    rw [laterRows, List.mem_flatMap]
    refine exists_congr fun k => ?_
    rw [mem_upFrom, copyIndex_unpoisoned hu]
    dsimp only
    constructor
    · rintro ⟨⟨hlo, hhi⟩, hq⟩
      split at hq
      next hb =>
        obtain ⟨hfit, hres⟩ := hl k (by omega) (by omega) (by omega)
        have hpieces := rowPieces_fits (g := copyEngine cl co x) hpos hfit hres
        rw [placeAt] at hpieces
        rw [hpieces, List.mem_singleton] at hq
        exact ⟨by omega, by omega, by omega, hq⟩
      next => cases hq
    · rintro ⟨hlo, hhi, hb, rfl⟩
      obtain ⟨hfit, hres⟩ := hl k hlo hhi hb
      have hpieces := rowPieces_fits (g := copyEngine cl co x) hpos hfit hres
      rw [placeAt] at hpieces
      rw [if_pos (by omega), hpieces]
      exact ⟨⟨by omega, by omega⟩, List.mem_singleton_self _⟩
  simp only [coveredBy, List.any_eq_false, Bool.not_eq_true]
  constructor
  · exact fun h k hlo hhi hb => h (later k, copyWidth x.op) ((hmem _).mpr ⟨k, hlo, hhi, hb, rfl⟩)
  · intro h q hq
    obtain ⟨k, hlo, hhi, hb, rfl⟩ := (hmem q).mp hq
    exact h k hlo hhi hb

end

end Sys2Proof.Proofs
end

section
/-!
COPY_ROW (R216, R219, R281): the row at the head of a queue moves, and after the last row the copy leaves its queue.
-/

namespace Sys2Proof.Proofs

open Sys2Proof Sys2Proof.Machine Sys2Proof.Safety Sys2Proof.Laws

theorem copyRows_eq (o : CopyOp) : copyRows o = o.shape.toNat % 2 ^ 16 := by rw [copyRows, bitsOf, Nat.pow_zero, Nat.div_one]

theorem copyDpitch_eq (o : CopyOp) : copyDpitch o = o.pitch.toNat % 2 ^ 32 := by rw [copyDpitch, bitsOf, Nat.pow_zero, Nat.div_one]

theorem copySpitch_eq (o : CopyOp) : copySpitch o = o.pitch.toNat / 2 ^ 32 := by
  have h := o.pitch.isLt
  rw [copySpitch, bitsOf, Nat.mod_eq_of_lt (by omega)]

theorem not_copyHeld {th : Thread} {x : Copy} (hacc : ∀ a ∈ allAccesses th, a.stamp < x.stamp → a.cls ≠ x.op.cls)
    (hent : ∀ e ∈ th.vq ++ frozenMem th, isMemory e.op = true → e.finished = false → e.stamp < x.stamp → classOf e.op ≠ x.op.cls) :
    copyHeld th x = false := by
  simp only [copyHeld, Bool.or_eq_false_iff, List.any_eq_false, Bool.and_eq_true, decide_eq_true_eq, Bool.not_eq_true']
  exact ⟨fun a ha h => hacc a ha h.1 h.2, fun e he h => hent e he h.1.1.1 h.1.1.2 h.1.2 h.2⟩

theorem not_copyHeavy {th : Thread} {x : Copy} (h : copyRows x.op * copyWidth x.op ≤ 4096 ∨ th.leaveKinds.testBit 1 = true) :
    copyHeavy th x = false := by
  rw [copyHeavy, opHeavy, bitAt_eq_testBit]
  rcases h with h | h
  · rw [decide_eq_false (by omega), Bool.false_and]
  · rw [h, Bool.not_true, Bool.and_false]

section
variable {s m : State} {cl : Fin 64} {co : Fin 8} {q : Fin 4} {x : Copy} {r : List Copy}

/-- A row lies at or beyond the bound of its table (R216). -/
def Beyond (c : Core) (x : Copy) (k : Nat) : Prop := (x.op.kind = .cpyg ∨ x.op.kind = .cpys) ∧ x.op.bound.toNat ≤ indexAt c x k

/-- The row of a side that row k of a copy reads or writes: in a table the one that the index names. -/
def sideRow (c : Core) (x : Copy) (table : Bool) (k : Nat) : Nat := if table then indexAt c x k else k

/-- Byte i of row k reaches its destination: the row is not dropped, and no later row of its table has the byte. -/
def RowByte (c : Core) (x : Copy) (k w rows : Nat) (dst : Target) (later : Nat → Target) (i : Nat) : Prop :=
  i < w ∧ ¬ (x.op.kind = .cpys ∧ Beyond c x k) ∧
    (x.op.kind = .cpys → ∀ j, k < j → j < rows → ¬ Beyond c x j → touches (tgtAdd dst i) 1 (later j) w = false)

/-- What row k brings to its destination: the fill bytes, or the bytes of its source. -/
structure RowValue (s : State) (c : Core) (x : Copy) (k w : Nat) (src : Target) (v : Nat) : Prop where
  filled : x.op.kind = .cpyf ∨ Beyond c x k → v = fillRow x.op.fill w
  copied : x.op.kind ≠ .cpyf → ¬ Beyond c x k → v = tgtRead s src w

theorem rowValue_fill {c : Core} {k w : Nat} {src : Target} (h : x.op.kind = .cpyf ∨ Beyond c x k) :
    RowValue s c x k w src (fillRow x.op.fill w) :=
  ⟨fun _ => rfl, fun hk hb => absurd h (not_or.mpr ⟨hk, hb⟩)⟩

theorem rowValue_source {c : Core} {k w : Nat} {src : Target} (hk : x.op.kind ≠ .cpyf) (hb : ¬ Beyond c x k) :
    RowValue s c x k w src (tgtRead s src w) :=
  ⟨fun h => absurd h (not_or.mpr ⟨hk, hb⟩), fun _ _ => rfl⟩

/-- A row of a form whose destination is no table has all its bytes. -/
theorem uncovered_nil_iff {c : Core} {k w rows : Nat} {dst : Target} {later : Nat → Target} (hk : x.op.kind ≠ .cpys) (i : Nat) :
    Uncovered [] dst w i ↔ RowByte c x k w rows dst later i :=
  ⟨fun h => ⟨h.1, fun hd => hk hd.1, fun h' => absurd h' hk⟩, fun h => ⟨h.1, rfl⟩⟩

/-- The bytes that one row puts down, and what they are (R216). -/
theorem bytesPut_copyRowMove {k rows w sp dp : Nat} {src dst : Target} {later : Nat → Target} (hm : MemoriesOk s)
    (hrows : copyRows x.op = rows) (hw : copyWidth x.op = w) (hsp : copySpitch x.op = sp) (hdp : copyDpitch x.op = dp)
    (hlin : x.op.shape.toNat / 2 ^ 32 = 0) (hu : Unpoisoned (getCore s cl co)) (hpos : 0 < w)
    (hread : x.op.kind ≠ .cpyf → ¬ Beyond (getCore s cl co) x k → ReadsAt s (copyEngine cl co x)
      (placeAt x.op.src sp (sideRow (getCore s cl co) x (decide (x.op.kind = .cpyg)) k)) w src)
    (hwrite : ¬ (x.op.kind = .cpys ∧ Beyond (getCore s cl co) x k) → WritesAt s (copyEngine cl co x)
      (placeAt x.op.dst dp (sideRow (getCore s cl co) x (decide (x.op.kind = .cpys)) k)) w dst)
    (hlater : ∀ j, x.op.kind = .cpys → k < j → j < rows → ¬ Beyond (getCore s cl co) x j →
      FitsAt (getCtx s x.ctx).spbase.toNat (placeAt x.op.dst dp (sideRow (getCore s cl co) x (decide (x.op.kind = .cpys)) j)) w ∧
      resolve s (copyEngine cl co x).party (placeAt x.op.dst dp (sideRow (getCore s cl co) x (decide (x.op.kind = .cpys)) j)) w .store =
        .ok (later j)) :
    ∃ v, RowValue s (getCore s cl co) x k w src v ∧
      BytesPut s (copyRowMove s cl co x k) dst (RowByte (getCore s cl co) x k w rows dst later) v := by
  subst hrows hw hsp hdp
  cases hk : x.op.kind with
  | cpy =>
    have hb : ¬ Beyond (getCore s cl co) x k := fun h => by simp [Beyond, hk] at h
    simp only [hk] at hread hwrite
    refine ⟨_, rowValue_source (by simp [hk]) hb, ?_⟩
    rw [copyRowMove_cpy (r := k) hk hlin (hread (by simp) hb)]
    exact (bytesPut_rowOut hm (hwrite (by simp)) [] _).congr (uncovered_nil_iff (by simp [hk]))
  | cpyf =>
    simp only [hk] at hwrite
    refine ⟨_, rowValue_fill (.inl hk), ?_⟩
    rw [copyRowMove_cpyf hk hlin]
    exact (bytesPut_rowOut hm (hwrite (by simp)) [] _).congr (uncovered_nil_iff (by simp [hk]))
  | cpyg =>
    simp only [hk] at hread hwrite
    by_cases hb : x.op.bound.toNat ≤ indexAt (getCore s cl co) x k
    · refine ⟨_, rowValue_fill (.inr ⟨.inl hk, hb⟩), ?_⟩
      rw [copyRowMove_cpyg_beyond hk hlin hu hb]
      exact (bytesPut_rowOut hm (hwrite (by simp)) [] _).congr (uncovered_nil_iff (by simp [hk]))
    · have hb' : ¬ Beyond (getCore s cl co) x k := fun h => hb h.2
      refine ⟨_, rowValue_source (by simp [hk]) hb', ?_⟩
      rw [copyRowMove_cpyg_within hk hlin hu hb (hread (by simp) hb')]
      exact (bytesPut_rowOut hm (hwrite (by simp)) [] _).congr (uncovered_nil_iff (by simp [hk]))
  | cpys =>
    have hB : ∀ j, Beyond (getCore s cl co) x j ↔ x.op.bound.toNat ≤ indexAt (getCore s cl co) x j := fun j =>
      ⟨fun h => h.2, fun h => ⟨.inr hk, h⟩⟩
    simp only [hk] at hread hwrite hlater
    by_cases hb : x.op.bound.toNat ≤ indexAt (getCore s cl co) x k
    · refine ⟨_, rowValue_fill (.inr ⟨.inr hk, hb⟩), ?_⟩
      rw [copyRowMove_cpys_beyond hk hu hb]
      exact ⟨fun i hi => absurd ⟨hk, (hB k).mpr hb⟩ hi.2.1, fun _ _ => rfl, .refl s⟩
    · have hb' : ¬ Beyond (getCore s cl co) x k := fun h => hb h.2
      refine ⟨_, rowValue_source (by simp [hk]) hb', ?_⟩
      rw [copyRowMove_cpys_within (r := k) hk hlin hu hb (hread (by simp) hb')]
      refine (bytesPut_rowOut hm (hwrite fun h => hb' h.2) _ _).congr fun i => ?_
      rw [Uncovered, coveredBy_laterRows hu hpos fun j hlo hhi hj => hlater j trivial hlo hhi fun h => hj h.2]
      exact ⟨fun h => ⟨h.1, fun hd => hb' hd.2, fun _ j hlo hhi hj => h.2 j hlo hhi fun hj' => hj ((hB j).mpr hj')⟩,
        fun h => ⟨h.1, fun j hlo hhi hj => h.2.2 hk j hlo hhi fun hj' => hj hj'.2⟩⟩

/-- What is left once the head row of a queue has moved. -/
def rowDone (m : State) (cl : Fin 64) (co : Fin 8) (q : Fin 4) (x : Copy) (r : List Copy) (rows : Nat) : State :=
  if x.row + 1 = rows then finishCopy (putCq m cl co q ({ x with row := x.row + 1 } :: r)) cl co q
  else putCq m cl co q ({ x with row := x.row + 1 } :: r)

theorem copyStep_row (hq : (getCore s cl co).cqs[q] = x :: r) (hrow : x.row < copyRows x.op) (hctr : x.op.ctr = none)
    (hheld : x.row = 0 → copyHeld (getThread s (.vec cl co x.owner)) x = false)
    (hheavy : copyHeavy (getThread s (.vec cl co x.owner)) x = false) :
    copyStep s cl co q = rowDone (copyRowMove s cl co x x.row) cl co q x r (copyRows x.op) := by
  have hleave : copyLeave s cl co q x = (s, true) := by rw [copyLeave, hheavy, if_neg Bool.false_ne_true]
  have hdue : addDue x = false := by rw [addDue, hctr]; rfl
  have hdone : copyDone { x with row := x.row + 1 } = decide (x.row + 1 = copyRows x.op) := by
    rw [copyDone, hctr, Option.isNone_none, Bool.true_or, Bool.and_true]
    exact decide_eq_decide.mpr (by dsimp only; omega)
  have hq' : (getCore s cl co).cqs[q.val] = x :: r := hq
  rw [copyStep, hq']
  dsimp only
  rw [if_neg fun h => Bool.false_ne_true ((hheld h.1).symm.trans h.2), hleave]
  simp only [Bool.not_true, Bool.false_eq_true, if_false, hdue, if_pos hrow, if_neg (Nat.ne_zero_of_lt hrow), hdone, decide_eq_true_eq,
    rowDone]

theorem MemoriesOnly.core (h : MemoriesOnly s m) (k : Fin 64) (j : Fin 8) : getCore m k j = getCore s k j := by
  rw [MemoriesOnly] at h
  rw [h]
  rfl

theorem MemoriesOnly.cluster (h : MemoriesOnly s m) (k : Fin 64) : getCluster m k = getCluster s k := by
  rw [MemoriesOnly] at h
  rw [h]
  rfl

/-- The core with the row moved: the rest of its queue, or the copy at its next row. -/
def queueAfter (c : Core) (q : Fin 4) (x : Copy) (r : List Copy) (rows : Nat) : Core :=
  { c with cqs := c.cqs.set q.val (if x.row + 1 = rows then r else { x with row := x.row + 1 } :: r) }

/-- The cluster once the copy has given up its leave and its request. -/
def leaveReturned (k : Cluster) (co : Fin 8) (q : Fin 4) (x : Copy) : Cluster :=
  { k with held := k.held.filter fun y => decide (y.1 ≠ .copy co q x.owner)
           waiting := k.waiting.filter fun y => decide (y.1 ≠ .copy co q x.owner) }

theorem finishCopy_head (m : State) (cl : Fin 64) (co : Fin 8) (q : Fin 4) (x : Copy) (r : List Copy) :
    finishCopy (putCq m cl co q (x :: r)) cl co q =
      updCluster (putCore (putCq m cl co q (x :: r)) cl co (release { getCore m cl co with cqs := (getCore m cl co).cqs.set q.val r } x.idx))
        cl fun k => leaveReturned k co q x := by
  have hcore : getCore (putCq m cl co q (x :: r)) cl co = { getCore m cl co with cqs := (getCore m cl co).cqs.set q.val (x :: r) } :=
    getCore_updCore_self ..
  have hhead : (getCore (putCq m cl co q (x :: r)) cl co).cqs[q.val] = x :: r := by rw [hcore, Vector.getElem_set_self]
  rw [finishCopy, hhead]
  dsimp only
  rw [updCore, hcore]
  dsimp only
  rw [Vector.set_set]
  rfl

theorem tgtRead_rowDone (m : State) (cl : Fin 64) (co : Fin 8) (q : Fin 4) (x : Copy) (r : List Copy) (rows : Nat) (y : Target) (n : Nat) :
    tgtRead (rowDone m cl co q x r rows) y n = tgtRead m y n := by
  rw [rowDone]
  split
  · rw [finishCopy_head]
    rfl
  · rfl

theorem getCore_rowDone_self (h : MemoriesOnly s m) (rows : Nat) : getCore (rowDone m cl co q x r rows) cl co =
    if x.row + 1 = rows then release (queueAfter (getCore s cl co) q x r rows) x.idx else queueAfter (getCore s cl co) q x r rows := by
  rw [rowDone, queueAfter]
  split
  · rw [finishCopy_head, h.core, getCore_updCluster, getCore_putCore_self]
  · rw [putCq, getCore_updCore_self, h.core]

theorem getCore_rowDone_other (h : MemoriesOnly s m) (rows : Nat) {k : Fin 64} {j : Fin 8} (hkj : k ≠ cl ∨ j ≠ co) :
    getCore (rowDone m cl co q x r rows) k j = getCore s k j := by
  rw [rowDone]
  split
  · rw [finishCopy_head, getCore_updCluster, getCore_putCore_other _ _ hkj, putCq, updCore, getCore_putCore_other _ _ hkj, h.core]
  · rw [putCq, updCore, getCore_putCore_other _ _ hkj, h.core]

theorem getCluster_rowDone_self (h : MemoriesOnly s m) (rows : Nat) : getCluster (rowDone m cl co q x r rows) cl =
    if x.row + 1 = rows then leaveReturned (getCluster s cl) co q x else getCluster s cl := by
  rw [rowDone]
  split
  · rw [finishCopy_head, getCluster_updCluster_self, getCluster_putCore, putCq, updCore, getCluster_putCore, h.cluster]
    rfl
  · rw [putCq, updCore, getCluster_putCore, h.cluster]

theorem getCluster_rowDone_other (h : MemoriesOnly s m) (rows : Nat) {k : Fin 64} (hk : k ≠ cl) :
    getCluster (rowDone m cl co q x r rows) k = getCluster s k := by
  rw [rowDone]
  split
  · rw [finishCopy_head, updCluster, getCluster_putCluster_other _ _ hk, getCluster_putCore, putCq, updCore, getCluster_putCore, h.cluster]
  · rw [putCq, updCore, getCluster_putCore, h.cluster]

theorem rowDone_frame (h : MemoriesOnly s m) (rows : Nat) : rowDone m cl co q x r rows =
    { s with mem := (rowDone m cl co q x r rows).mem, spad := (rowDone m cl co q x r rows).spad, peer := (rowDone m cl co q x r rows).peer
             cores := (rowDone m cl co q x r rows).cores, clusters := (rowDone m cl co q x r rows).clusters
             poisonLines := (rowDone m cl co q x r rows).poisonLines, poisonSpad := (rowDone m cl co q x r rows).poisonSpad
             overlaid := (rowDone m cl co q x r rows).overlaid } := by
  have hs : s = { m with mem := s.mem, spad := s.spad, peer := s.peer
                         poisonLines := s.poisonLines, poisonSpad := s.poisonSpad, overlaid := s.overlaid } := by
    rw [MemoriesOnly] at h
    rw [h]
  rw [hs, rowDone]
  split
  · rw [finishCopy_head]
    rfl
  · rfl

end

end Sys2Proof.Proofs
end

section
/-!
The core's own units at work, from the four parts above: the reclaim walker, a copy's row, the instructions on slots and whole chains, and
a pattern load.
-/

namespace Sys2Proof.Proofs

open Sys2Proof Sys2Proof.Machine Sys2Proof.Safety Sys2Proof.Laws

/-- Settles O51: the walker by the chain of leaves that nothing holds, a row by the bytes that its one write puts down, each
instruction by its own course, and the pattern load by what binding the block leaves. -/
theorem coreUnitsAtWork : Obligations.CoreUnitsAtWork := by
  unfold Obligations.CoreUnitsAtWork
  refine ⟨?_, ?_, ?_, ?_⟩
  · intro s x l r c hq hx R
    refine ⟨fun h0 hlast => reclaim_gives ((reclaimStep_done hq (reclaimFrom_end hx h0 (.inl hlast))).trans ?_),
      fun h => reclaim_gives (reclaimStep_done hq (reclaimFrom_held hx h)), ?_⟩
    · simp only [freeOne, List.contains_iff_mem]
    · intro xs q last hr hlen hnd hhead hlast hlq hrefs hlinked gone
      have hu : Unheld c x q xs last := ⟨hr, hlen, hnd, hhead, hlast, hlq, hrefs, hlinked⟩
      exact ⟨fun hend => ⟨_, reclaim_gives rfl, reclaimStep_ends hq hu hend⟩, fun m hl hp hn hm =>
        ⟨fun h4 => ⟨_, reclaim_gives rfl, reclaimStep_waits hu hl hp hn hm hq h4⟩,
         fun h4 h1 => ⟨_, reclaim_gives rfl, reclaimStep_stops hu hl hp hn hm hq h4 h1⟩⟩⟩
  · intro s x r q src dst later hm c cl th o rows w p base hn hq hlin hrow hw hctr hheld hleave hclean index beyond drops place sa da
      fits good hread hwrite hlater written last c'
    have hrows : copyRows o = rows := copyRows_eq o
    have hu : Unpoisoned (getCore s s.ev.cl s.ev.co) := unpoisoned_of_clean hclean
    obtain ⟨v, ⟨hfilled, hcopied⟩, hput⟩ := bytesPut_copyRowMove (cl := s.ev.cl) (co := s.ev.co) (x := x) (k := x.row) (rows := rows) (w := w)
      (src := src) (dst := dst) (later := later) hm hrows rfl (copySpitch_eq o) (copyDpitch_eq o) hlin hu hw
      (fun hk hb =>
        have ⟨hfit, hgood, hres, hpois⟩ := hread hk hb
        ⟨hw, hfit, hgood, hres, hpois⟩)
      (fun hd =>
        have ⟨hfit, hgood, hres, hser, hclear⟩ := hwrite hd
        ⟨hw, hfit, hgood, hres, hser, hclear⟩)
      (fun j hk hlo hhi hb => hlater j hk hlo hhi hb)
    have hstep : exec .copyRow s =
        .next (rowDone (copyRowMove s s.ev.cl s.ev.co x x.row) s.ev.cl s.ev.co q x r rows) := by
      have hq' : Fin.ofNat 4 s.ev.n = q := by rw [hn]; exact Fin.ofNat_val_eq_self q
      have hex : exec .copyRow s = .next (copyStep s s.ev.cl s.ev.co (Fin.ofNat 4 s.ev.n)) := rfl
      rw [hex, hq', copyStep_row hq (hrows ▸ hrow) hctr (fun h => not_copyHeld (hheld h).1 (hheld h).2)
        (not_copyHeavy (hrows ▸ hleave)), hrows]
    refine ⟨_, hstep, fun i hi => ⟨fun h => ?_, fun hk hb => ?_⟩, fun y hy => ?_, ?_, fun k j hkj => ?_, ?_, fun k hk => ?_, ?_⟩
    · rw [tgtRead_rowDone, hput.written i hi, hfilled h]
      exact fillRow_byte o.fill hi.1
    · rw [tgtRead_rowDone, hput.written i hi, hcopied hk hb]
    · rw [tgtRead_rowDone, hput.others y hy]
    · exact getCore_rowDone_self hput.frame rows
    · exact getCore_rowDone_other hput.frame rows (not_and_or.mp fun h => hkj (Prod.ext h.1 h.2))
    · exact getCluster_rowDone_self hput.frame rows
    · exact getCluster_rowDone_other hput.frame rows hk
    · exact rowDone_frame hput.frame rows
  · intro s e r t th core hk hq hrun hfin hfault hbegun hform hclean E done head wait slot slots fault makes held bytes sz
    have h : Due s e r := ⟨hk, hq, hrun, hfin, hfault, hbegun, hform⟩
    refine ⟨course_ttgt h, course_takes h, fun k => twait_passes h, course_tget h hclean, course_tfree h,
      fun k q hop hst hq => tfree_waits h hop hst hq, fun a k hop => ?_, course_copy h, course_share h, course_trim h hclean,
      course_split h hclean, fun d a b hop => ?_, fun d b hop hdb => ?_⟩
    · obtain ⟨h1, h2⟩ := course_tbind h a k hop
      exact ⟨h1, h2, course_tbind_grouped h a k hop⟩
    · obtain ⟨h1, h2, h3⟩ := course_cat h hclean d a b hop
      exact ⟨h1, h2, h3, fun xs c1 hin hx hy hfit hsx hsy hholds hfree hnd hapart hcount hbudget =>
        course_cat_copies h hclean d a b hop xs c1 hin hfit ⟨hx, hy, hsx, hsy, hholds, hfree, hnd, hapart, hcount, hbudget⟩⟩
    · intro x y hexcl hx hy hfit hsy hsx hnd htail hlast hrefs
      exact course_cat_inplace h hclean d b hop hdb hexcl hfit ⟨hx, hy, hsx, hsy, hnd, htail, hlast, hrefs⟩
  · intro s ws t th x n hst hc ht hq hws hpos hlen hb
    obtain ⟨hself, hbytes, hbound⟩ := loadStep_binds hst hc ht hq hws hlen hb
    refine ⟨_, exec_patternLoadBind s, hself, hbytes, fun b h => ?_, hbound ▸ Option.some_ne_none _⟩
    obtain rfl := Option.some.inj (hbound.symm.trans h)
    exact ⟨rfl, Nat.sub_add_cancel hpos⟩

end Sys2Proof.Proofs
end
